-- ==== Sys2Proof/Word.lean ====
section
/-! DEFINITION. The word types. -/

namespace Sys2Proof

/-- A scalar register or address: 64 bits (R121, R139). -/
abbrev Word := BitVec 64

/-- A byte of memory (R1). -/
abbrev Byte := BitVec 8

/-- An exact accumulator: 512 bits (R193). -/
abbrev EA := BitVec 512

/-- A predicate register: one bit per element, up to 16384 (R121, R122). -/
abbrev Pred := BitVec 16384

end Sys2Proof
end

