-- ==== Sys2Proof/Syntax.lean ====
section
/-! DEFINITION. The syntax: the operand forms of the 32-bit syllables (R254 to R276), the data that events carry,
and `Instr`, one constructor per row of spec/opcode_table.json. A syllable's constructor carries its operand form;
an operation or event that has no encoding carries the data that names it. -/

namespace Sys2Proof

/-- S format with three register numbers (R254). -/
structure S3 where
  sd : BitVec 5
  sa : BitVec 5
  sb : BitVec 5
  deriving DecidableEq, Repr

/-- S format with a destination and one source (R254). -/
structure S2 where
  sd : BitVec 5
  sa : BitVec 5
  deriving DecidableEq, Repr

/-- S format with one source register in sa. -/
structure S1a where
  sa : BitVec 5
  deriving DecidableEq, Repr

/-- S format with one destination register in sd. -/
structure S1d where
  sd : BitVec 5
  deriving DecidableEq, Repr

/-- S format with two source registers and no destination. -/
structure S2ab where
  sa : BitVec 5
  sb : BitVec 5
  deriving DecidableEq, Repr

/-- I format (R254). -/
structure IOps where
  sd : BitVec 5
  sa : BitVec 5
  imm : BitVec 16
  deriving DecidableEq, Repr

/-- I format without sa: LUI and ADDPC (R260). -/
structure UOps where
  sd : BitVec 5
  imm : BitVec 16
  deriving DecidableEq, Repr

/-- BF format, immediate shift (R263). -/
structure ShOps where
  sd : BitVec 5
  sa : BitVec 5
  off : BitVec 6
  deriving DecidableEq, Repr

/-- BF format, immediate width (R263). -/
structure BfOps where
  sd : BitVec 5
  sa : BitVec 5
  off : BitVec 6
  wid : BitVec 6
  deriving DecidableEq, Repr

/-- BF format, register width: bits 8:4 name the width register (R263). -/
structure BfrOps where
  sd : BitVec 5
  sa : BitVec 5
  off : BitVec 6
  rw : BitVec 5
  deriving DecidableEq, Repr

/-- Scalar FP with a rounding mode (R264). -/
structure F3 where
  sd : BitVec 5
  sa : BitVec 5
  sb : BitVec 5
  mode : BitVec 2
  deriving DecidableEq, Repr

/-- FCMP: the relation in fn[9:6] (R264). -/
structure FcmpOps where
  sd : BitVec 5
  sa : BitVec 5
  sb : BitVec 5
  cond : BitVec 4
  deriving DecidableEq, Repr

/-- FCVT: the conversion in fn[9:6] (R264). -/
structure FcvtOps where
  sd : BitVec 5
  sa : BitVec 5
  conv : BitVec 4
  mode : BitVec 2
  deriving DecidableEq, Repr

/-- FSQRT (R264). -/
structure F1 where
  sd : BitVec 5
  sa : BitVec 5
  mode : BitVec 2
  deriving DecidableEq, Repr

/-- L format (R256). -/
structure LOps where
  sd : BitVec 5
  sa : BitVec 5
  sz : BitVec 3
  imm : BitVec 13
  deriving DecidableEq, Repr

/-- A format: bit 0 is 1 for 8 bytes, 0 for 4 (R265). -/
structure AOps where
  sd : BitVec 5
  sa : BitVec 5
  sb : BitVec 5
  ord : BitVec 2
  scope : BitVec 3
  dbl : Bool
  deriving DecidableEq, Repr

/-- A format, F32 (R265). -/
structure AfOps where
  sd : BitVec 5
  sa : BitVec 5
  sb : BitVec 5
  ord : BitVec 2
  scope : BitVec 3
  deriving DecidableEq, Repr

/-- AMOEA (R265). -/
structure AeOps where
  sa : BitVec 5
  ea : BitVec 2
  ord : BitVec 2
  scope : BitVec 3
  deriving DecidableEq, Repr

/-- A format, RED form (R265). -/
structure RedOps where
  sa : BitVec 5
  sb : BitVec 5
  ord : BitVec 2
  scope : BitVec 3
  dbl : Bool
  deriving DecidableEq, Repr

/-- A format, RED form of an F32 operation (R265). -/
structure RedfOps where
  sa : BitVec 5
  sb : BitVec 5
  ord : BitVec 2
  scope : BitVec 3
  deriving DecidableEq, Repr

/-- Branch (R254). -/
structure BOps where
  sa : BitVec 5
  sb : BitVec 5
  off : BitVec 16
  deriving DecidableEq, Repr

/-- J (R254). -/
structure JOps where
  off : BitVec 21
  deriving DecidableEq, Repr

/-- JAL (R254). -/
structure JalOps where
  sd : BitVec 5
  off : BitVec 21
  deriving DecidableEq, Repr

/-- REPF slot 0 (R134). -/
structure RepfOps where
  str : BitVec 5
  stg : BitVec 3
  rbase : BitVec 6
  rsize : BitVec 6
  deriving DecidableEq, Repr

/-- FENCE (R266). -/
structure FenceOps where
  kind : BitVec 2
  scope : BitVec 3
  deriving DecidableEq, Repr

/-- FENCEX: earlier path p, later path q (R266). -/
structure FencexOps where
  q : BitVec 3
  p : BitVec 3
  deriving DecidableEq, Repr

/-- CWAIT: bit k names tk k (R266). -/
structure CwaitOps where
  mask : BitVec 8
  deriving DecidableEq, Repr

/-- BAR (R266). -/
structure BarOps where
  sa : BitVec 5
  scope : BitVec 3
  deriving DecidableEq, Repr

/-- SYSR (R266). -/
structure SysrOps where
  sd : BitVec 5
  reg : BitVec 7
  deriving DecidableEq, Repr

/-- SYSW (R266). -/
structure SyswOps where
  sa : BitVec 5
  reg : BitVec 7
  deriving DecidableEq, Repr

/-- VCFG (R268). -/
structure VcfgOps where
  wcode : BitVec 2
  ncode : BitVec 3
  deriving DecidableEq, Repr

/-- VSETT (R268). -/
structure VsettOps where
  mode : BitVec 2
  ty : BitVec 4
  slot : Bool
  deriving DecidableEq, Repr

/-- V format with two vector sources (R254). -/
structure V3 where
  vd : BitVec 6
  va : BitVec 6
  vb : BitVec 6
  ca : Bool
  cb : Bool
  m : BitVec 3
  ts : Bool
  deriving DecidableEq, Repr

/-- V format with one vector source (R270). -/
structure V2 where
  vd : BitVec 6
  va : BitVec 6
  ca : Bool
  m : BitVec 3
  ts : Bool
  deriving DecidableEq, Repr

/-- VIOTA: a destination and a mask (R270). -/
structure V1 where
  vd : BitVec 6
  m : BitVec 3
  ts : Bool
  deriving DecidableEq, Repr

/-- VREDSUM (R270). -/
structure VredOps where
  ea : BitVec 2
  va : BitVec 6
  ca : Bool
  m : BitVec 3
  ts : Bool
  deriving DecidableEq, Repr

/-- VDOT (R270). -/
structure VdotOps where
  ea : BitVec 2
  va : BitVec 6
  vb : BitVec 6
  ca : Bool
  cb : Bool
  m : BitVec 3
  ts : Bool
  deriving DecidableEq, Repr

/-- VREDMAX, VREDMIN, VARGMAX: a scalar destination (R270). -/
structure VminOps where
  sd : BitVec 5
  va : BitVec 6
  ca : Bool
  m : BitVec 3
  ts : Bool
  deriving DecidableEq, Repr

/-- VEAADD (R270). -/
structure Ea2 where
  ed : BitVec 2
  es : BitVec 2
  deriving DecidableEq, Repr

/-- EARND (R270). -/
structure EarndOps where
  sd : BitVec 5
  ea : BitVec 2
  ts : Bool
  deriving DecidableEq, Repr

/-- EALD: in-queue q (R270). -/
structure EaldOps where
  ea : BitVec 2
  q : BitVec 2
  deriving DecidableEq, Repr

/-- EAST: out-queue q (R270). -/
structure EastOps where
  q : BitVec 2
  ea : BitVec 2
  deriving DecidableEq, Repr

/-- EACLR (R270). -/
structure Ea1 where
  ea : BitVec 2
  deriving DecidableEq, Repr

/-- VCMP, VFCMP (R270). -/
structure VcmpOps where
  cond : BitVec 3
  pd : BitVec 3
  va : BitVec 6
  vb : BitVec 6
  ca : Bool
  cb : Bool
  m : BitVec 3
  ts : Bool
  deriving DecidableEq, Repr

/-- Predicate logic with two sources (R271). -/
structure P3 where
  pd : BitVec 3
  pa : BitVec 3
  pb : BitVec 3
  deriving DecidableEq, Repr

/-- PNOT (R271). -/
structure P2 where
  pd : BitVec 3
  pa : BitVec 3
  deriving DecidableEq, Repr

/-- PPOPC, PFIRST: a scalar destination (R271). -/
structure Ps where
  sd : BitVec 5
  pa : BitVec 3
  deriving DecidableEq, Repr

/-- VS format (R254). -/
structure Vs3 where
  vd : BitVec 6
  va : BitVec 6
  ss : BitVec 5
  ca : Bool
  m : BitVec 3
  ts : Bool
  deriving DecidableEq, Repr

/-- VS form of VMV (R272). -/
structure Vs2 where
  vd : BitVec 6
  ss : BitVec 5
  m : BitVec 3
  ts : Bool
  deriving DecidableEq, Repr

/-- VS forms of VCMP and VFCMP (R272). -/
structure VscmpOps where
  cond : BitVec 3
  pd : BitVec 3
  va : BitVec 6
  ss : BitVec 5
  ca : Bool
  m : BitVec 3
  ts : Bool
  deriving DecidableEq, Repr

/-- VBQ, VBDQ: fd number in bits 11:8 (R270). -/
structure VbqOps where
  vd : BitVec 6
  va : BitVec 6
  fd : BitVec 4
  ca : Bool
  ts : Bool
  deriving DecidableEq, Repr

/-- FMTSET (R270). -/
structure FmtOps where
  fd : BitVec 4
  sa : BitVec 5
  deriving DecidableEq, Repr

/-- VM format of VLD, VLDS, VST, VSTS: wait is scale bit 0 (R274). -/
structure VmOps where
  q : BitVec 2
  sa : BitVec 5
  sb : BitVec 5
  sz : BitVec 2
  ord : BitVec 2
  wait : Bool
  tk : BitVec 3
  deriving DecidableEq, Repr

/-- Gather and scatter: index out-queue in bits 14:13 (R274). -/
structure VxOps where
  q : BitVec 2
  sa : BitVec 5
  ix : BitVec 2
  sz : BitVec 2
  ord : BitVec 2
  shift : BitVec 2
  deriving DecidableEq, Repr

/-- VAMO: aop in bits 17:14, bit 10 is 1 for 8 bytes (R274). -/
structure VamoOps where
  q : BitVec 2
  sa : BitVec 5
  aop : BitVec 4
  dbl : Bool
  ord : BitVec 2
  deriving DecidableEq, Repr

/-- VLDSC, VSTSC (R274). -/
structure VscOps where
  q : BitVec 2
  sa : BitVec 5
  sb : BitVec 5
  sz : BitVec 2
  deriving DecidableEq, Repr

/-- VLDROT (R274). -/
structure RotOps where
  q : BitVec 2
  sa : BitVec 5
  sb : BitVec 5
  ord : BitVec 2
  deriving DecidableEq, Repr

/-- COPY, XFETCH: bit 9 is release (R274). -/
structure CopyOps where
  sa : BitVec 5
  sb : BitVec 5
  sz : BitVec 2
  rel : Bool
  tk : BitVec 3
  deriving DecidableEq, Repr

/-- GATHSP: row code 4*sz + scale (R274). -/
structure GathOps where
  q : BitVec 2
  sa : BitVec 5
  sb : BitVec 5
  sz : BitVec 3
  rel : Bool
  scale : BitVec 2
  tk : BitVec 3
  deriving DecidableEq, Repr

/-- XSEND (R274). -/
structure XsendOps where
  sa : BitVec 5
  sb : BitVec 5
  sz : BitVec 2
  rel : Bool
  deriving DecidableEq, Repr

/-- XINS, XACC, XDRAIN: key queue q, value queue k (R274). -/
structure XqOps where
  q : BitVec 2
  k : BitVec 2
  deriving DecidableEq, Repr

/-- XLOOK (R274). -/
structure XlookOps where
  q : BitVec 2
  p : BitVec 3
  k : BitVec 2
  deriving DecidableEq, Repr

/-- XCLR: 0 EA, 1 i64 (R274). -/
structure XclrOps where
  i64 : Bool
  deriving DecidableEq, Repr

/-- PRUNE, SPHDR (R274). -/
structure VmAb where
  sa : BitVec 5
  sb : BitVec 5
  deriving DecidableEq, Repr

/-- MXLDS (R275). -/
structure MxldsOps where
  sa : BitVec 5
  q : BitVec 2
  deriving DecidableEq, Repr

/-- MXSTRM (R275). -/
structure MxstrmOps where
  sa : BitVec 5
  sb : BitVec 5
  q : BitVec 2
  deriving DecidableEq, Repr

/-- MXDRAIN (R275). -/
structure MxdrainOps where
  sa : BitVec 5
  sb : BitVec 5
  slot : Bool
  q : BitVec 2
  deriving DecidableEq, Repr

/-- RCINIT: shard mask register in va (R273). -/
structure RcinitOps where
  smask : BitVec 5
  ss : BitVec 5
  deriving DecidableEq, Repr

/-- RCNOISE, RCBOUND (R273). -/
structure RcvOps where
  vd : BitVec 6
  va : BitVec 6
  ss : BitVec 5
  ca : Bool
  m : BitVec 3
  deriving DecidableEq, Repr

/-- RCPICK (R273). -/
structure RcpickOps where
  sd : BitVec 5
  ss : BitVec 5
  deriving DecidableEq, Repr

/-- RCUPD (R273). -/
structure RcupdOps where
  st : BitVec 5
  sv : BitVec 5
  ss : BitVec 5
  deriving DecidableEq, Repr

/-- RCDROP (R273). -/
structure RcdropOps where
  pd : BitVec 3
  ss : BitVec 5
  deriving DecidableEq, Repr

/-- RCWAIT (R273). -/
structure RcwaitOps where
  ss : BitVec 5
  deriving DecidableEq, Repr

/-- RCREAD (R273). -/
structure RcreadOps where
  sd : BitVec 5
  item : BitVec 2
  ss : BitVec 5
  deriving DecidableEq, Repr

/-- RCSET: selector in bits 24:20 (R273). -/
structure RcsetOps where
  sel : BitVec 5
  sv : BitVec 5
  ss : BitVec 5
  deriving DecidableEq, Repr

/-- What starts a package reset (R51, R58): power-on, a request of trunk firmware, or any other reset. -/
inductive ResetKind where
  | powerOn | firmware | other
  deriving DecidableEq, Repr

/-- A fabric or die-bridge flit: the header fields of R28 and the payload bytes in use. `plane` is the plane (or,
on a bridge, 64) on which it stands. -/
structure Flit where
  dstPkg : Nat
  srcPkg : Nat
  dstDie : Nat
  srcDie : Nat
  kind : Nat
  path : Nat
  try_ : Nat
  zero : Nat
  seq : Nat
  plane : Nat
  crcOk : Bool
  payload : List Byte
  deriving DecidableEq, Repr

/-- A stream of R32: source die, destination package and die, path. -/
structure StreamKey where
  srcDie : Nat
  dstPkg : Nat
  dstDie : Nat
  path : Nat
  deriving DecidableEq, Repr

/-- An inbound datagram on the request UDP port (R48): the 16-byte header's fields, the port and source address it
came by, and its text. -/
structure Datagram where
  port : Nat
  src : List Byte
  ver : Nat
  kind : Nat
  stream : Nat
  tenant : Nat
  len : Nat
  bseq : Nat
  text : List Byte
  deriving DecidableEq, Repr

/-- A management request (R65): the port it came in on, the IP address and the UDP port of its sender and the VLAN of its frame (R44), the fields of
its header, its body and its trailing bytes (a Turmal public key where one is carried, and the signature). `body` is everything the signature
covers. -/
structure MgmtReq where
  port : Nat
  src : List Byte
  sport : Nat
  vlan : Option Nat
  ver : Nat
  op : Nat
  tenant : Nat
  zero : Nat
  counter : Nat
  len : Nat
  body : List Byte
  key : List Byte
  sig : List Byte
  deriving DecidableEq, Repr

/-- What STREAM-OPEN binds (R47, R239). -/
structure StreamBinding where
  stream : Nat
  port : Nat
  dstAddr : List Byte
  dstUdp : Nat
  srcUdp : Nat
  vlan : Option Nat
  limit : Nat
  table : Nat
  ring : Word
  ringLog : Nat
  echoHead : Word
  deriving DecidableEq, Repr

/-- A soft error that a check found (R117). -/
inductive SoftError where
  /-- A lane datapath check failed on a core; the second issue passed. -/
  | laneCorrected (sid lane elem : Nat)
  /-- A lane datapath check failed twice. -/
  | laneUncorrected (sid lane elem : Nat)
  /-- Array parity or accumulator ECC failed uncorrectably at a cell of a cluster's array: row of the row slice, column, slice. -/
  | array (cluster row column slice chain elem : Nat)
  /-- Correctable ECC in memory: corrected and counted (R68). -/
  | eccCorrected (pa : Nat)
  /-- A check of memory at a granule failed: the granule is poisoned (R68). -/
  | memory (pa : Nat)
  /-- The same for a granule of a line that a die's L2 holds (R138). -/
  | l2 (die pa : Nat)
  /-- The same for a scratchpad granule. -/
  | scratchpad (key : Nat)
  /-- The same for exact accumulator `ea` of a strand. -/
  | accumulator (sid ea : Nat)
  deriving DecidableEq, Repr

/-- How a PTP message travels (R73): Ethertype 0x88F7, or UDP over IPv4 or IPv6 to a destination address. -/
inductive PtpTransport where
  | layer2
  | udp (dst : List Byte)
  deriving DecidableEq, Repr

/-- Why an Ethernet frame is not a request, PTP event or management request (R44, R48, R49). -/
inductive EthFrame where
  | badFcs (port : Nat)
  | pauseOrPfc (port : Nat)
  | fragmentOrOptions (port : Nat)
  | oversize (port len : Nat)
  | badUdpChecksum (port : Nat)
  | badKind (port tenant : Nat)
  | filterMiss (port tenant : Nat)
  | ringFull (port tenant : Nat)
  /-- ARP, neighbour discovery: handed to trunk firmware. -/
  | toFirmware (port : Nat) (bytes : List Byte)
  deriving DecidableEq, Repr

/-- The data of an operation or event: a constructor of `Instr` for an event carries none, and reads its data from the
state, where the step puts it. -/
inductive Arg where
  | none
  /-- PACKAGE_RESET. -/
  | reset (k : ResetKind)
  | n1 (a : Nat)
  | n2 (a b : Nat)
  | n3 (a b c : Nat)
  /-- ENGINE_ELEMENT_LAND of a KV stream: strand, token, element, and the sync word that its fragment counts into (R250). -/
  | land (a b c sync : Nat)
  /-- ENGINE_ELEMENT_LAND, in part: strand, token, row, and the 8-byte word of it that is read (R176). -/
  | word (a b c k : Nat)
  /-- ENGINE_ELEMENT_FAULT: strand, token, element, and whether the element met link-failure. -/
  | n3b (a b c : Nat) (link : Bool)
  | bit (b : Bool)
  | w (v : Word)
  /-- A register number, die or queue, and a value. -/
  | nw (n : Nat) (v : Word)
  | flit (f : Flit)
  /-- A flit as its 256 bytes arrive at the port of a plane, and whether every codeword of it was correctable (R25, R28). -/
  | wire (plane : Nat) (fec : Bool) (bytes : List Byte)
  /-- PLANE_TIMER_EXPIRY: stream and SEQ. -/
  | timer (k : StreamKey) (seq : Nat)
  | dgram (d : Datagram)
  /-- A datagram on the request UDP port: the port, the source address and the payload as it arrives (R45, R48). -/
  | packet (port : Nat) (src payload : List Byte)
  /-- PTP messages: port, the step mode that firmware has set for the port, transport, bytes. -/
  | ptp (port : Nat) (oneStep : Bool) (tr : PtpTransport) (msg : List Byte)
  /-- A received Ethernet frame: port, whether its FCS passed, and its bytes after the MAC addresses, without the FCS. -/
  | frame (port : Nat) (fcs : Bool) (bytes : List Byte)
  | mgmt (r : MgmtReq)
  | mgmtCreate (r : MgmtReq) (contexts streams : List Nat) (weight : Nat)
  | mgmtN (r : MgmtReq) (n : Nat)
  /-- SVN-RAISE: stage and SVN. -/
  | mgmtN2 (r : MgmtReq) (a b : Nat)
  | mgmtStream (r : MgmtReq) (b : StreamBinding)
  | mgmtFilter (r : MgmtReq) (addrs : List (List Byte))
  /-- RECORD_DISPATCH: the die and the strand slots chosen. -/
  | place (die : Nat) (slots : List Nat)
  | soft (e : SoftError)
  /-- ILLEGAL_INSTRUCTION: the word. -/
  | syllable (w : BitVec 32)
  | eth (f : EthFrame)
  deriving DecidableEq, Repr

/-- One constructor per row of spec/opcode_table.json: the syllables with operands, the syllables without, then the
operations and events, whose data stands in the state (`Arg`). -/
inductive Instr where
  | add (o : S3)
  | sub (o : S3)
  | mul (o : S3)
  | mulh (o : S3)
  | mulhn (o : S3)
  | div (o : S3)
  | divn (o : S3)
  | rem (o : S3)
  | remn (o : S3)
  | and (o : S3)
  | or (o : S3)
  | xor (o : S3)
  | sll (o : S3)
  | srl (o : S3)
  | sra (o : S3)
  | slt (o : S3)
  | sltn (o : S3)
  | min (o : S3)
  | max (o : S3)
  | minn (o : S3)
  | maxn (o : S3)
  | clz (o : S2)
  | ctz (o : S2)
  | popc (o : S2)
  | sel (o : S3)
  | addi (o : IOps)
  | andi (o : IOps)
  | ori (o : IOps)
  | xori (o : IOps)
  | slti (o : IOps)
  | sltin (o : IOps)
  | lui (o : UOps)
  | addpc (o : UOps)
  | sllImm (o : ShOps)
  | srlImm (o : ShOps)
  | sraImm (o : ShOps)
  | bfx (o : BfOps)
  | bfxn (o : BfOps)
  | bfi (o : BfOps)
  | bfxReg (o : BfrOps)
  | bfxnReg (o : BfrOps)
  | bfiReg (o : BfrOps)
  | fadd (o : F3)
  | fsub (o : F3)
  | fmul (o : F3)
  | ffma (o : F3)
  | fmin (o : S3)
  | fmax (o : S3)
  | fcmp (o : FcmpOps)
  | fcvt (o : FcvtOps)
  | fsqrt (o : F1)
  | ld (o : LOps)
  | st (o : LOps)
  | amoadd (o : AOps)
  | amoswap (o : AOps)
  | amocas (o : AOps)
  | amoand (o : AOps)
  | amoor (o : AOps)
  | amoxor (o : AOps)
  | amomax (o : AOps)
  | amomin (o : AOps)
  | amomaxn (o : AOps)
  | amominn (o : AOps)
  | amoaddF32 (o : AfOps)
  | amomaxF32 (o : AfOps)
  | amominF32 (o : AfOps)
  | amoea (o : AeOps)
  | redadd (o : RedOps)
  | redswap (o : RedOps)
  | redand (o : RedOps)
  | redor (o : RedOps)
  | redxor (o : RedOps)
  | redmax (o : RedOps)
  | redmin (o : RedOps)
  | redmaxn (o : RedOps)
  | redminn (o : RedOps)
  | redaddF32 (o : RedfOps)
  | redmaxF32 (o : RedfOps)
  | redminF32 (o : RedfOps)
  | beq (o : BOps)
  | bne (o : BOps)
  | blt (o : BOps)
  | bge (o : BOps)
  | bltn (o : BOps)
  | bgen (o : BOps)
  | j (o : JOps)
  | jal (o : JalOps)
  | jalr (o : IOps)
  | repf (o : RepfOps)
  | fence (o : FenceOps)
  | fencex (o : FencexOps)
  | cwait (o : CwaitOps)
  | waitsw (o : S2ab)
  | bar (o : BarOps)
  | trap (o : S1a)
  | sysr (o : SysrOps)
  | sysw (o : SyswOps)
  | trmark (o : S2ab)
  | done (o : S1a)
  | launch (o : S3)
  | cancel (o : S3)
  | vcfg (o : VcfgOps)
  | vsetl (o : S2)
  | vgetl (o : S1d)
  | vsett (o : VsettOps)
  | vadd (o : V3)
  | vsub (o : V3)
  | vmul (o : V3)
  | vmulh (o : V3)
  | vmin (o : V3)
  | vmax (o : V3)
  | vabsd (o : V3)
  | vsadd (o : V3)
  | vand (o : V3)
  | vor (o : V3)
  | vxor (o : V3)
  | vssub (o : V3)
  | vsll (o : V3)
  | vsrl (o : V3)
  | vsra (o : V3)
  | vmv (o : V2)
  | vclz (o : V2)
  | viota (o : V1)
  | vfadd (o : V3)
  | vfsub (o : V3)
  | vfmul (o : V3)
  | vffma (o : V3)
  | vfmin (o : V3)
  | vfmax (o : V3)
  | vfdiv (o : V3)
  | vfscl (o : V3)
  | vfsqrt (o : V2)
  | vfexp (o : V2)
  | vflog (o : V2)
  | vfrcp (o : V2)
  | vfcvt (o : V2)
  | vredsum (o : VredOps)
  | vdot (o : VdotOps)
  | vscan (o : V3)
  | vredmax (o : VminOps)
  | vredmin (o : VminOps)
  | vargmax (o : VminOps)
  | veaadd (o : Ea2)
  | earnd (o : EarndOps)
  | eald (o : EaldOps)
  | east (o : EastOps)
  | eaclr (o : Ea1)
  | vperm (o : V3)
  | vcompress (o : V2)
  | vexpand (o : V2)
  | vcmp (o : VcmpOps)
  | vfcmp (o : VcmpOps)
  | vsel (o : V3)
  | pand (o : P3)
  | por (o : P3)
  | pxor (o : P3)
  | pnot (o : P2)
  | ppopc (o : Ps)
  | pfirst (o : Ps)
  | vaddVs (o : Vs3)
  | vsubVs (o : Vs3)
  | vmulVs (o : Vs3)
  | vmulhVs (o : Vs3)
  | vminVs (o : Vs3)
  | vmaxVs (o : Vs3)
  | vabsdVs (o : Vs3)
  | vsaddVs (o : Vs3)
  | vandVs (o : Vs3)
  | vorVs (o : Vs3)
  | vxorVs (o : Vs3)
  | vssubVs (o : Vs3)
  | vsllVs (o : Vs3)
  | vsrlVs (o : Vs3)
  | vsraVs (o : Vs3)
  | vmvVs (o : Vs2)
  | vfaddVs (o : Vs3)
  | vfsubVs (o : Vs3)
  | vfmulVs (o : Vs3)
  | vffmaVs (o : Vs3)
  | vfminVs (o : Vs3)
  | vfmaxVs (o : Vs3)
  | vfdivVs (o : Vs3)
  | vfsclVs (o : Vs3)
  | vslideup (o : Vs3)
  | vslidedn (o : Vs3)
  | vcmpVs (o : VscmpOps)
  | vfcmpVs (o : VscmpOps)
  | vbq (o : VbqOps)
  | vbdq (o : VbqOps)
  | fmtset (o : FmtOps)
  | vld (o : VmOps)
  | vlds (o : VmOps)
  | vst (o : VmOps)
  | vsts (o : VmOps)
  | vldxO (o : VxOps)
  | vldxU (o : VxOps)
  | vstxO (o : VxOps)
  | vstxU (o : VxOps)
  | vamo (o : VamoOps)
  | vamoRet (o : VamoOps)
  | vldsc (o : VscOps)
  | vstsc (o : VscOps)
  | vldrot (o : RotOps)
  | copy (o : CopyOps)
  | gathsp (o : GathOps)
  | xsend (o : XsendOps)
  | xfetch (o : CopyOps)
  | xins (o : XqOps)
  | xlook (o : XlookOps)
  | xacc (o : XqOps)
  | xclr (o : XclrOps)
  | xdrain (o : XqOps)
  | prune (o : VmAb)
  | sphdr (o : VmAb)
  | mxatt (o : S2)
  | mxlds (o : MxldsOps)
  | mxstrm (o : MxstrmOps)
  | mxdrain (o : MxdrainOps)
  | mxclr (o : S2ab)
  | mxstat (o : S1d)
  | rcinit (o : RcinitOps)
  | rcnoise (o : RcvOps)
  | rcbound (o : RcvOps)
  | rcpick (o : RcpickOps)
  | rcupd (o : RcupdOps)
  | rcdrop (o : RcdropOps)
  | rcwait (o : RcwaitOps)
  | rcread (o : RcreadOps)
  | rcset (o : RcsetOps)
  | clredEa (o : S3)
  | clredI64 (o : S3)
  | clredF32max (o : S3)
  | clredF32min (o : S3)
  | clbcast (o : S3)
  | clargmax (o : S3)
  | tkemit (o : S3)
  | tkflush (o : S1a)
  | emptySyllable
  | eret
  | icinv
  | yield
  | mxdet
  | mxswap
  | packageReset
  | throttleIntervalEnd
  | thermalTrip
  | thermalTripClear
  | thermalShutdown
  | registerWrite
  | measExtend
  | rdreq
  | wrreq
  | atreq
  | rdata
  | wdone
  | cldat
  | xsdat
  | dack
  | nak
  | unav
  | planeTimerExpiry
  | portLockLost
  | portLockGained
  | bridgeDown
  | fabctlHeldDiscard
  | newRequest
  | requestTextContinued
  | cancelGeneration
  | resendRequest
  | ptpEventReceive
  | status
  | quote
  | log
  | cert
  | counters
  | tenantCreate
  | tenantReset
  | tenantDestroy
  | streamOpen
  | streamClose
  | filterSet
  | lcRequest
  | svnRaise
  | recoverWrite
  | tsstepWrite
  | trtailWrite
  | trctlWrite
  | snapshotFire
  | snapatMatch
  | snapshotValidClear
  | wqtailWrite
  | wqctlWrite
  | wqstatClr
  | packetConsume
  | launchReady
  | recordExpand
  | launchComplete
  | recordDispatch
  | agingQuantum
  | preemptPriority
  | preemptionQuantum
  | preemptSave
  | saveSlotFreed
  | resumew
  | killw
  | flttailWrite
  | fltctlWrite
  | softError
  | tenantResetComplete
  | tlbinv
  | tlbInvalidationFinish
  | engineElementLand
  | engineElementFault
  | pathQueueLeave
  | atomicPerform
  | applyWrite
  | ticketAdvance
  | lateFailure
  | barrierWaitEnd
  | launchEnqueue
  | homeFinalize
  | memberMerge
  | homeResolve
  | memberAbort
  | illegalInstruction
  | powerLoss
  | ethernetFrameReceive
  | ptpEventTransmit
  | tscReferenceCycle
  | arithmeticCycle
  deriving DecidableEq, Repr

end Sys2Proof
end

