-- ==== Sys2Proof/WellFormed.lean ====
section
/-! DEFINITION. Which syllables are instructions: the field values that R253 to R276 make illegal. -/

namespace Sys2Proof

/-- A vector source field: v0 to v55, iq0 to iq3, vz (R258). -/
def vsrcOk (v : BitVec 6) : Bool := v.toNat ≤ 60

/-- A vector destination field: v0 to v55, oq0 to oq3 (R258). -/
def vdstOk (v : BitVec 6) : Bool := v.toNat ≤ 59

/-- A scope code (R120, R257). -/
def scopeOk (c : BitVec 3) : Bool := c.toNat ≤ 5

/-- Whether a system register number is listed by the map of R300. -/
def sysregListed (r : Nat) : Bool :=
  r ≤ 0x0E || (0x10 ≤ r && r ≤ 0x15) || (0x20 ≤ r && r ≤ 0x2F) || (0x40 ≤ r && r ≤ 0x5F)

def V3.wf (o : V3) : Bool := vdstOk o.vd && vsrcOk o.va && vsrcOk o.vb
def V2.wf (o : V2) : Bool := vdstOk o.vd && vsrcOk o.va
def Vs3.wf (o : Vs3) : Bool := vdstOk o.vd && vsrcOk o.va
def AOps.wf (o : AOps) : Bool := scopeOk o.scope && o.sd != 0
def AfOps.wf (o : AfOps) : Bool := scopeOk o.scope && o.sd != 0
def RedOps.wf (o : RedOps) : Bool := scopeOk o.scope
def RedfOps.wf (o : RedfOps) : Bool := scopeOk o.scope
def VmOps.wf (o : VmOps) : Bool := o.wait || o.tk == 0
def VamoOps.wf (o : VamoOps) : Bool :=
  let a := o.aop.toNat
  a != 2 && a ≤ 12 && !(10 ≤ a && o.dbl)
def RcvOps.wf (o : RcvOps) : Bool := vdstOk o.vd && vsrcOk o.va

/-- Whether a syllable holds only field values that the spec admits. An operation or event has no encoding, and every
one is admitted. -/
def Instr.wf (i : Instr) : Bool :=
  match i with
  | .fcmp o => o.cond.toNat ≤ 5
  | .fcvt o => o.conv.toNat ≤ 11
  | .ld o => o.sz != 7
  | .st o => o.sz.toNat ≤ 3
  | .amoadd o | .amoswap o | .amocas o | .amoand o | .amoor o | .amoxor o | .amomax o | .amomin o | .amomaxn o
  | .amominn o => o.wf
  | .amoaddF32 o | .amomaxF32 o | .amominF32 o => o.wf
  | .amoea o => scopeOk o.scope
  | .redadd o | .redswap o | .redand o | .redor o | .redxor o | .redmax o | .redmin o | .redmaxn o | .redminn o => o.wf
  | .redaddF32 o | .redmaxF32 o | .redminF32 o => o.wf
  | .fence o => scopeOk o.scope
  | .fencex o => o.p.toNat ≤ 4 && o.q.toNat ≤ 4 && o.p != o.q
  | .bar o => scopeOk o.scope
  | .sysr o => sysregListed o.reg.toNat
  | .sysw o => sysregListed o.reg.toNat
  | .vcfg o => o.ncode != 7
  | .vsett o => o.ty.toNat ≤ 10
  | .vadd o | .vsub o | .vmul o | .vmulh o | .vmin o | .vmax o | .vabsd o | .vsadd o | .vand o | .vor o | .vxor o
  | .vssub o | .vsll o | .vsrl o | .vsra o | .vfadd o | .vfsub o | .vfmul o | .vfmin o | .vfmax o | .vfdiv o | .vfscl o
  | .vscan o | .vperm o | .vsel o => o.wf
  | .vffma o => o.wf && o.vd.toNat ≤ 55
  | .vmv o | .vclz o | .vfsqrt o | .vfexp o | .vflog o | .vfrcp o | .vfcvt o | .vcompress o | .vexpand o => o.wf
  | .viota o => vdstOk o.vd
  | .vredsum o => vsrcOk o.va
  | .vdot o => vsrcOk o.va && vsrcOk o.vb
  | .vredmax o | .vredmin o | .vargmax o => vsrcOk o.va
  | .vcmp o => vsrcOk o.va && vsrcOk o.vb && o.cond.toNat ≤ 5
  | .vfcmp o => vsrcOk o.va && vsrcOk o.vb
  | .vaddVs o | .vsubVs o | .vmulVs o | .vmulhVs o | .vminVs o | .vmaxVs o | .vabsdVs o | .vsaddVs o | .vandVs o
  | .vorVs o | .vxorVs o | .vssubVs o | .vsllVs o | .vsrlVs o | .vsraVs o | .vfaddVs o | .vfsubVs o | .vfmulVs o
  | .vfminVs o | .vfmaxVs o | .vfdivVs o | .vfsclVs o | .vslideup o | .vslidedn o => o.wf
  | .vffmaVs o => o.wf && o.vd.toNat ≤ 55
  | .vmvVs o => vdstOk o.vd
  | .vcmpVs o => vsrcOk o.va && o.cond.toNat ≤ 5
  | .vfcmpVs o => vsrcOk o.va
  | .vbq o | .vbdq o => vdstOk o.vd && vsrcOk o.va
  | .vld o | .vlds o | .vst o | .vsts o => o.wf
  | .vamo o | .vamoRet o => o.wf
  | .gathsp o => 4 * o.sz.toNat + o.scale.toNat ≤ 8
  | .rcnoise o | .rcbound o => o.wf
  | .repf o => o.rbase.toNat ≤ 60
  | .rcset o => o.sel.toNat ≤ 12 || o.sel.toNat == 16 || o.sel.toNat == 17
  | _ => true

end Sys2Proof
end

