-- ==== Sys2Proof/Decode.lean ====
section
/-! DEFINITION. The decoder of a 32-bit syllable (R252 to R276), total on any word and rejecting by name, the encoder
written from the same tables, and the decoder on the opcode table's numbering. -/

namespace Sys2Proof

/-- Why a word is no instruction (R253). -/
inductive Reject where
  /-- A non-empty syllable of major 0x00. -/
  | majorZero
  /-- A reserved or permanently illegal major (R260). -/
  | reservedMajor (major : Nat)
  /-- A function code that no instruction has, or a nonzero field that must be zero. -/
  | noRow (major : Nat)
  /-- A field value that the spec lists as illegal. -/
  | illegalField
  deriving DecidableEq, Repr

/-- Bits lo + len - 1 : lo of a number. -/
def field (n lo len : Nat) : BitVec len := BitVec.ofNat len (n / 2 ^ lo)

/-- Bit lo of a number. -/
def flag (n lo : Nat) : Bool := n / 2 ^ lo % 2 == 1

/-- Whether each fixed field (lo, length, value) of a row holds its value. -/
def fixedOk (n : Nat) : List (Nat × Nat × Nat) → Bool
  | [] => true
  | (lo, len, v) :: t => n / 2 ^ lo % 2 ^ len == v && fixedOk n t

/-- A row of the opcode table within its major: the fixed fields below the major, and the instruction it reads. -/
structure Row where
  fixed : List (Nat × Nat × Nat)
  build : Nat → Instr

/-- The first row that fits. -/
def findRow (n : Nat) : List Row → Option Instr
  | [] => none
  | r :: t => if fixedOk n r.fixed then some (r.build n) else findRow n t

/-- Reads `S3`. -/
def decS3 (n : Nat) : S3 :=
  { sd := field n 21 5, sa := field n 16 5, sb := field n 11 5 }

/-- Writes `S3`. -/
def encS3 (base : Nat) (o : S3) : Nat :=
  base + o.sd.toNat * 2 ^ 21 + o.sa.toNat * 2 ^ 16 + o.sb.toNat * 2 ^ 11

/-- Reads `S2`. -/
def decS2 (n : Nat) : S2 :=
  { sd := field n 21 5, sa := field n 16 5 }

/-- Writes `S2`. -/
def encS2 (base : Nat) (o : S2) : Nat :=
  base + o.sd.toNat * 2 ^ 21 + o.sa.toNat * 2 ^ 16

/-- Reads `S1a`. -/
def decS1a (n : Nat) : S1a :=
  { sa := field n 16 5 }

/-- Writes `S1a`. -/
def encS1a (base : Nat) (o : S1a) : Nat :=
  base + o.sa.toNat * 2 ^ 16

/-- Reads `S1d`. -/
def decS1d (n : Nat) : S1d :=
  { sd := field n 21 5 }

/-- Writes `S1d`. -/
def encS1d (base : Nat) (o : S1d) : Nat :=
  base + o.sd.toNat * 2 ^ 21

/-- Reads `S2ab`. -/
def decS2ab (n : Nat) : S2ab :=
  { sa := field n 16 5, sb := field n 11 5 }

/-- Writes `S2ab`. -/
def encS2ab (base : Nat) (o : S2ab) : Nat :=
  base + o.sa.toNat * 2 ^ 16 + o.sb.toNat * 2 ^ 11

/-- Reads `IOps`. -/
def decIOps (n : Nat) : IOps :=
  { sd := field n 21 5, sa := field n 16 5, imm := field n 0 16 }

/-- Writes `IOps`. -/
def encIOps (base : Nat) (o : IOps) : Nat :=
  base + o.sd.toNat * 2 ^ 21 + o.sa.toNat * 2 ^ 16 + o.imm.toNat

/-- Reads `UOps`. -/
def decUOps (n : Nat) : UOps :=
  { sd := field n 21 5, imm := field n 0 16 }

/-- Writes `UOps`. -/
def encUOps (base : Nat) (o : UOps) : Nat :=
  base + o.sd.toNat * 2 ^ 21 + o.imm.toNat

/-- Reads `ShOps`. -/
def decShOps (n : Nat) : ShOps :=
  { sd := field n 21 5, sa := field n 16 5, off := field n 10 6 }

/-- Writes `ShOps`. -/
def encShOps (base : Nat) (o : ShOps) : Nat :=
  base + o.sd.toNat * 2 ^ 21 + o.sa.toNat * 2 ^ 16 + o.off.toNat * 2 ^ 10

/-- Reads `BfOps`. -/
def decBfOps (n : Nat) : BfOps :=
  { sd := field n 21 5, sa := field n 16 5, off := field n 10 6, wid := field n 4 6 }

/-- Writes `BfOps`. -/
def encBfOps (base : Nat) (o : BfOps) : Nat :=
  base + o.sd.toNat * 2 ^ 21 + o.sa.toNat * 2 ^ 16 + o.off.toNat * 2 ^ 10 + o.wid.toNat * 2 ^ 4

/-- Reads `BfrOps`. -/
def decBfrOps (n : Nat) : BfrOps :=
  { sd := field n 21 5, sa := field n 16 5, off := field n 10 6, rw := field n 4 5 }

/-- Writes `BfrOps`. -/
def encBfrOps (base : Nat) (o : BfrOps) : Nat :=
  base + o.sd.toNat * 2 ^ 21 + o.sa.toNat * 2 ^ 16 + o.off.toNat * 2 ^ 10 + o.rw.toNat * 2 ^ 4

/-- Reads `F3`. -/
def decF3 (n : Nat) : F3 :=
  { sd := field n 21 5, sa := field n 16 5, sb := field n 11 5, mode := field n 4 2 }

/-- Writes `F3`. -/
def encF3 (base : Nat) (o : F3) : Nat :=
  base + o.sd.toNat * 2 ^ 21 + o.sa.toNat * 2 ^ 16 + o.sb.toNat * 2 ^ 11 + o.mode.toNat * 2 ^ 4

/-- Reads `FcmpOps`. -/
def decFcmpOps (n : Nat) : FcmpOps :=
  { sd := field n 21 5, sa := field n 16 5, sb := field n 11 5, cond := field n 6 4 }

/-- Writes `FcmpOps`. -/
def encFcmpOps (base : Nat) (o : FcmpOps) : Nat :=
  base + o.sd.toNat * 2 ^ 21 + o.sa.toNat * 2 ^ 16 + o.sb.toNat * 2 ^ 11 + o.cond.toNat * 2 ^ 6

/-- Reads `FcvtOps`. -/
def decFcvtOps (n : Nat) : FcvtOps :=
  { sd := field n 21 5, sa := field n 16 5, conv := field n 6 4, mode := field n 4 2 }

/-- Writes `FcvtOps`. -/
def encFcvtOps (base : Nat) (o : FcvtOps) : Nat :=
  base + o.sd.toNat * 2 ^ 21 + o.sa.toNat * 2 ^ 16 + o.conv.toNat * 2 ^ 6 + o.mode.toNat * 2 ^ 4

/-- Reads `F1`. -/
def decF1 (n : Nat) : F1 :=
  { sd := field n 21 5, sa := field n 16 5, mode := field n 4 2 }

/-- Writes `F1`. -/
def encF1 (base : Nat) (o : F1) : Nat :=
  base + o.sd.toNat * 2 ^ 21 + o.sa.toNat * 2 ^ 16 + o.mode.toNat * 2 ^ 4

/-- Reads `LOps`. -/
def decLOps (n : Nat) : LOps :=
  { sd := field n 21 5, sa := field n 16 5, sz := field n 13 3, imm := field n 0 13 }

/-- Writes `LOps`. -/
def encLOps (base : Nat) (o : LOps) : Nat :=
  base + o.sd.toNat * 2 ^ 21 + o.sa.toNat * 2 ^ 16 + o.sz.toNat * 2 ^ 13 + o.imm.toNat

/-- Reads `AOps`. -/
def decAOps (n : Nat) : AOps :=
  { sd := field n 21 5, sa := field n 16 5, sb := field n 11 5, ord := field n 5 2, scope := field n 2 3, dbl := flag n 0 }

/-- Writes `AOps`. -/
def encAOps (base : Nat) (o : AOps) : Nat :=
  base + o.sd.toNat * 2 ^ 21 + o.sa.toNat * 2 ^ 16 + o.sb.toNat * 2 ^ 11 + o.ord.toNat * 2 ^ 5 + o.scope.toNat * 2 ^ 2 + o.dbl.toNat

/-- Reads `AfOps`. -/
def decAfOps (n : Nat) : AfOps :=
  { sd := field n 21 5, sa := field n 16 5, sb := field n 11 5, ord := field n 5 2, scope := field n 2 3 }

/-- Writes `AfOps`. -/
def encAfOps (base : Nat) (o : AfOps) : Nat :=
  base + o.sd.toNat * 2 ^ 21 + o.sa.toNat * 2 ^ 16 + o.sb.toNat * 2 ^ 11 + o.ord.toNat * 2 ^ 5 + o.scope.toNat * 2 ^ 2

/-- Reads `AeOps`. -/
def decAeOps (n : Nat) : AeOps :=
  { sa := field n 16 5, ea := field n 11 2, ord := field n 5 2, scope := field n 2 3 }

/-- Writes `AeOps`. -/
def encAeOps (base : Nat) (o : AeOps) : Nat :=
  base + o.sa.toNat * 2 ^ 16 + o.ea.toNat * 2 ^ 11 + o.ord.toNat * 2 ^ 5 + o.scope.toNat * 2 ^ 2

/-- Reads `RedOps`. -/
def decRedOps (n : Nat) : RedOps :=
  { sa := field n 16 5, sb := field n 11 5, ord := field n 5 2, scope := field n 2 3, dbl := flag n 0 }

/-- Writes `RedOps`. -/
def encRedOps (base : Nat) (o : RedOps) : Nat :=
  base + o.sa.toNat * 2 ^ 16 + o.sb.toNat * 2 ^ 11 + o.ord.toNat * 2 ^ 5 + o.scope.toNat * 2 ^ 2 + o.dbl.toNat

/-- Reads `RedfOps`. -/
def decRedfOps (n : Nat) : RedfOps :=
  { sa := field n 16 5, sb := field n 11 5, ord := field n 5 2, scope := field n 2 3 }

/-- Writes `RedfOps`. -/
def encRedfOps (base : Nat) (o : RedfOps) : Nat :=
  base + o.sa.toNat * 2 ^ 16 + o.sb.toNat * 2 ^ 11 + o.ord.toNat * 2 ^ 5 + o.scope.toNat * 2 ^ 2

/-- Reads `BOps`. -/
def decBOps (n : Nat) : BOps :=
  { sa := field n 21 5, sb := field n 16 5, off := field n 0 16 }

/-- Writes `BOps`. -/
def encBOps (base : Nat) (o : BOps) : Nat :=
  base + o.sa.toNat * 2 ^ 21 + o.sb.toNat * 2 ^ 16 + o.off.toNat

/-- Reads `JOps`. -/
def decJOps (n : Nat) : JOps :=
  { off := field n 0 21 }

/-- Writes `JOps`. -/
def encJOps (base : Nat) (o : JOps) : Nat :=
  base + o.off.toNat

/-- Reads `JalOps`. -/
def decJalOps (n : Nat) : JalOps :=
  { sd := field n 21 5, off := field n 0 21 }

/-- Writes `JalOps`. -/
def encJalOps (base : Nat) (o : JalOps) : Nat :=
  base + o.sd.toNat * 2 ^ 21 + o.off.toNat

/-- Reads `RepfOps`. -/
def decRepfOps (n : Nat) : RepfOps :=
  { str := field n 21 5, stg := field n 18 3, rbase := field n 12 6, rsize := field n 6 6 }

/-- Writes `RepfOps`. -/
def encRepfOps (base : Nat) (o : RepfOps) : Nat :=
  base + o.str.toNat * 2 ^ 21 + o.stg.toNat * 2 ^ 18 + o.rbase.toNat * 2 ^ 12 + o.rsize.toNat * 2 ^ 6

/-- Reads `FenceOps`. -/
def decFenceOps (n : Nat) : FenceOps :=
  { kind := field n 7 2, scope := field n 4 3 }

/-- Writes `FenceOps`. -/
def encFenceOps (base : Nat) (o : FenceOps) : Nat :=
  base + o.kind.toNat * 2 ^ 7 + o.scope.toNat * 2 ^ 4

/-- Reads `FencexOps`. -/
def decFencexOps (n : Nat) : FencexOps :=
  { q := field n 7 3, p := field n 4 3 }

/-- Writes `FencexOps`. -/
def encFencexOps (base : Nat) (o : FencexOps) : Nat :=
  base + o.q.toNat * 2 ^ 7 + o.p.toNat * 2 ^ 4

/-- Reads `CwaitOps`. -/
def decCwaitOps (n : Nat) : CwaitOps :=
  { mask := field n 11 8 }

/-- Writes `CwaitOps`. -/
def encCwaitOps (base : Nat) (o : CwaitOps) : Nat :=
  base + o.mask.toNat * 2 ^ 11

/-- Reads `BarOps`. -/
def decBarOps (n : Nat) : BarOps :=
  { sa := field n 16 5, scope := field n 4 3 }

/-- Writes `BarOps`. -/
def encBarOps (base : Nat) (o : BarOps) : Nat :=
  base + o.sa.toNat * 2 ^ 16 + o.scope.toNat * 2 ^ 4

/-- Reads `SysrOps`. -/
def decSysrOps (n : Nat) : SysrOps :=
  { sd := field n 21 5, reg := field n 4 7 }

/-- Writes `SysrOps`. -/
def encSysrOps (base : Nat) (o : SysrOps) : Nat :=
  base + o.sd.toNat * 2 ^ 21 + o.reg.toNat * 2 ^ 4

/-- Reads `SyswOps`. -/
def decSyswOps (n : Nat) : SyswOps :=
  { sa := field n 16 5, reg := field n 4 7 }

/-- Writes `SyswOps`. -/
def encSyswOps (base : Nat) (o : SyswOps) : Nat :=
  base + o.sa.toNat * 2 ^ 16 + o.reg.toNat * 2 ^ 4

/-- Reads `VcfgOps`. -/
def decVcfgOps (n : Nat) : VcfgOps :=
  { wcode := field n 6 2, ncode := field n 3 3 }

/-- Writes `VcfgOps`. -/
def encVcfgOps (base : Nat) (o : VcfgOps) : Nat :=
  base + o.wcode.toNat * 2 ^ 6 + o.ncode.toNat * 2 ^ 3

/-- Reads `VsettOps`. -/
def decVsettOps (n : Nat) : VsettOps :=
  { mode := field n 8 2, ty := field n 4 4, slot := flag n 3 }

/-- Writes `VsettOps`. -/
def encVsettOps (base : Nat) (o : VsettOps) : Nat :=
  base + o.mode.toNat * 2 ^ 8 + o.ty.toNat * 2 ^ 4 + o.slot.toNat * 2 ^ 3

/-- Reads `V3`. -/
def decV3 (n : Nat) : V3 :=
  { vd := field n 20 6, va := field n 14 6, vb := field n 8 6, ca := flag n 7, cb := flag n 6, m := field n 3 3, ts := flag n 2 }

/-- Writes `V3`. -/
def encV3 (base : Nat) (o : V3) : Nat :=
  base + o.vd.toNat * 2 ^ 20 + o.va.toNat * 2 ^ 14 + o.vb.toNat * 2 ^ 8 + o.ca.toNat * 2 ^ 7 + o.cb.toNat * 2 ^ 6 + o.m.toNat * 2 ^ 3 + o.ts.toNat * 2 ^ 2

/-- Reads `V2`. -/
def decV2 (n : Nat) : V2 :=
  { vd := field n 20 6, va := field n 14 6, ca := flag n 7, m := field n 3 3, ts := flag n 2 }

/-- Writes `V2`. -/
def encV2 (base : Nat) (o : V2) : Nat :=
  base + o.vd.toNat * 2 ^ 20 + o.va.toNat * 2 ^ 14 + o.ca.toNat * 2 ^ 7 + o.m.toNat * 2 ^ 3 + o.ts.toNat * 2 ^ 2

/-- Reads `V1`. -/
def decV1 (n : Nat) : V1 :=
  { vd := field n 20 6, m := field n 3 3, ts := flag n 2 }

/-- Writes `V1`. -/
def encV1 (base : Nat) (o : V1) : Nat :=
  base + o.vd.toNat * 2 ^ 20 + o.m.toNat * 2 ^ 3 + o.ts.toNat * 2 ^ 2

/-- Reads `VredOps`. -/
def decVredOps (n : Nat) : VredOps :=
  { ea := field n 20 2, va := field n 14 6, ca := flag n 7, m := field n 3 3, ts := flag n 2 }

/-- Writes `VredOps`. -/
def encVredOps (base : Nat) (o : VredOps) : Nat :=
  base + o.ea.toNat * 2 ^ 20 + o.va.toNat * 2 ^ 14 + o.ca.toNat * 2 ^ 7 + o.m.toNat * 2 ^ 3 + o.ts.toNat * 2 ^ 2

/-- Reads `VdotOps`. -/
def decVdotOps (n : Nat) : VdotOps :=
  { ea := field n 20 2, va := field n 14 6, vb := field n 8 6, ca := flag n 7, cb := flag n 6, m := field n 3 3, ts := flag n 2 }

/-- Writes `VdotOps`. -/
def encVdotOps (base : Nat) (o : VdotOps) : Nat :=
  base + o.ea.toNat * 2 ^ 20 + o.va.toNat * 2 ^ 14 + o.vb.toNat * 2 ^ 8 + o.ca.toNat * 2 ^ 7 + o.cb.toNat * 2 ^ 6 + o.m.toNat * 2 ^ 3 + o.ts.toNat * 2 ^ 2

/-- Reads `VminOps`. -/
def decVminOps (n : Nat) : VminOps :=
  { sd := field n 20 5, va := field n 14 6, ca := flag n 7, m := field n 3 3, ts := flag n 2 }

/-- Writes `VminOps`. -/
def encVminOps (base : Nat) (o : VminOps) : Nat :=
  base + o.sd.toNat * 2 ^ 20 + o.va.toNat * 2 ^ 14 + o.ca.toNat * 2 ^ 7 + o.m.toNat * 2 ^ 3 + o.ts.toNat * 2 ^ 2

/-- Reads `Ea2`. -/
def decEa2 (n : Nat) : Ea2 :=
  { ed := field n 20 2, es := field n 14 2 }

/-- Writes `Ea2`. -/
def encEa2 (base : Nat) (o : Ea2) : Nat :=
  base + o.ed.toNat * 2 ^ 20 + o.es.toNat * 2 ^ 14

/-- Reads `EarndOps`. -/
def decEarndOps (n : Nat) : EarndOps :=
  { sd := field n 20 5, ea := field n 14 2, ts := flag n 2 }

/-- Writes `EarndOps`. -/
def encEarndOps (base : Nat) (o : EarndOps) : Nat :=
  base + o.sd.toNat * 2 ^ 20 + o.ea.toNat * 2 ^ 14 + o.ts.toNat * 2 ^ 2

/-- Reads `EaldOps`. -/
def decEaldOps (n : Nat) : EaldOps :=
  { ea := field n 20 2, q := field n 14 2 }

/-- Writes `EaldOps`. -/
def encEaldOps (base : Nat) (o : EaldOps) : Nat :=
  base + o.ea.toNat * 2 ^ 20 + o.q.toNat * 2 ^ 14

/-- Reads `EastOps`. -/
def decEastOps (n : Nat) : EastOps :=
  { q := field n 20 2, ea := field n 14 2 }

/-- Writes `EastOps`. -/
def encEastOps (base : Nat) (o : EastOps) : Nat :=
  base + o.q.toNat * 2 ^ 20 + o.ea.toNat * 2 ^ 14

/-- Reads `Ea1`. -/
def decEa1 (n : Nat) : Ea1 :=
  { ea := field n 20 2 }

/-- Writes `Ea1`. -/
def encEa1 (base : Nat) (o : Ea1) : Nat :=
  base + o.ea.toNat * 2 ^ 20

/-- Reads `VcmpOps`. -/
def decVcmpOps (n : Nat) : VcmpOps :=
  { cond := field n 23 3, pd := field n 20 3, va := field n 14 6, vb := field n 8 6, ca := flag n 7, cb := flag n 6, m := field n 3 3, ts := flag n 2 }

/-- Writes `VcmpOps`. -/
def encVcmpOps (base : Nat) (o : VcmpOps) : Nat :=
  base + o.cond.toNat * 2 ^ 23 + o.pd.toNat * 2 ^ 20 + o.va.toNat * 2 ^ 14 + o.vb.toNat * 2 ^ 8 + o.ca.toNat * 2 ^ 7 + o.cb.toNat * 2 ^ 6 + o.m.toNat * 2 ^ 3 + o.ts.toNat * 2 ^ 2

/-- Reads `P3`. -/
def decP3 (n : Nat) : P3 :=
  { pd := field n 20 3, pa := field n 14 3, pb := field n 8 3 }

/-- Writes `P3`. -/
def encP3 (base : Nat) (o : P3) : Nat :=
  base + o.pd.toNat * 2 ^ 20 + o.pa.toNat * 2 ^ 14 + o.pb.toNat * 2 ^ 8

/-- Reads `P2`. -/
def decP2 (n : Nat) : P2 :=
  { pd := field n 20 3, pa := field n 14 3 }

/-- Writes `P2`. -/
def encP2 (base : Nat) (o : P2) : Nat :=
  base + o.pd.toNat * 2 ^ 20 + o.pa.toNat * 2 ^ 14

/-- Reads `Ps`. -/
def decPs (n : Nat) : Ps :=
  { sd := field n 20 5, pa := field n 14 3 }

/-- Writes `Ps`. -/
def encPs (base : Nat) (o : Ps) : Nat :=
  base + o.sd.toNat * 2 ^ 20 + o.pa.toNat * 2 ^ 14

/-- Reads `Vs3`. -/
def decVs3 (n : Nat) : Vs3 :=
  { vd := field n 20 6, va := field n 14 6, ss := field n 9 5, ca := flag n 8, m := field n 5 3, ts := flag n 4 }

/-- Writes `Vs3`. -/
def encVs3 (base : Nat) (o : Vs3) : Nat :=
  base + o.vd.toNat * 2 ^ 20 + o.va.toNat * 2 ^ 14 + o.ss.toNat * 2 ^ 9 + o.ca.toNat * 2 ^ 8 + o.m.toNat * 2 ^ 5 + o.ts.toNat * 2 ^ 4

/-- Reads `Vs2`. -/
def decVs2 (n : Nat) : Vs2 :=
  { vd := field n 20 6, ss := field n 9 5, m := field n 5 3, ts := flag n 4 }

/-- Writes `Vs2`. -/
def encVs2 (base : Nat) (o : Vs2) : Nat :=
  base + o.vd.toNat * 2 ^ 20 + o.ss.toNat * 2 ^ 9 + o.m.toNat * 2 ^ 5 + o.ts.toNat * 2 ^ 4

/-- Reads `VscmpOps`. -/
def decVscmpOps (n : Nat) : VscmpOps :=
  { cond := field n 23 3, pd := field n 20 3, va := field n 14 6, ss := field n 9 5, ca := flag n 8, m := field n 5 3, ts := flag n 4 }

/-- Writes `VscmpOps`. -/
def encVscmpOps (base : Nat) (o : VscmpOps) : Nat :=
  base + o.cond.toNat * 2 ^ 23 + o.pd.toNat * 2 ^ 20 + o.va.toNat * 2 ^ 14 + o.ss.toNat * 2 ^ 9 + o.ca.toNat * 2 ^ 8 + o.m.toNat * 2 ^ 5 + o.ts.toNat * 2 ^ 4

/-- Reads `VbqOps`. -/
def decVbqOps (n : Nat) : VbqOps :=
  { vd := field n 20 6, va := field n 14 6, fd := field n 8 4, ca := flag n 7, ts := flag n 2 }

/-- Writes `VbqOps`. -/
def encVbqOps (base : Nat) (o : VbqOps) : Nat :=
  base + o.vd.toNat * 2 ^ 20 + o.va.toNat * 2 ^ 14 + o.fd.toNat * 2 ^ 8 + o.ca.toNat * 2 ^ 7 + o.ts.toNat * 2 ^ 2

/-- Reads `FmtOps`. -/
def decFmtOps (n : Nat) : FmtOps :=
  { fd := field n 20 4, sa := field n 14 5 }

/-- Writes `FmtOps`. -/
def encFmtOps (base : Nat) (o : FmtOps) : Nat :=
  base + o.fd.toNat * 2 ^ 20 + o.sa.toNat * 2 ^ 14

/-- Reads `VmOps`. -/
def decVmOps (n : Nat) : VmOps :=
  { q := field n 23 2, sa := field n 18 5, sb := field n 13 5, sz := field n 10 2, ord := field n 8 2, wait := flag n 6, tk := field n 3 3 }

/-- Writes `VmOps`. -/
def encVmOps (base : Nat) (o : VmOps) : Nat :=
  base + o.q.toNat * 2 ^ 23 + o.sa.toNat * 2 ^ 18 + o.sb.toNat * 2 ^ 13 + o.sz.toNat * 2 ^ 10 + o.ord.toNat * 2 ^ 8 + o.wait.toNat * 2 ^ 6 + o.tk.toNat * 2 ^ 3

/-- Reads `VxOps`. -/
def decVxOps (n : Nat) : VxOps :=
  { q := field n 23 2, sa := field n 18 5, ix := field n 13 2, sz := field n 10 2, ord := field n 8 2, shift := field n 6 2 }

/-- Writes `VxOps`. -/
def encVxOps (base : Nat) (o : VxOps) : Nat :=
  base + o.q.toNat * 2 ^ 23 + o.sa.toNat * 2 ^ 18 + o.ix.toNat * 2 ^ 13 + o.sz.toNat * 2 ^ 10 + o.ord.toNat * 2 ^ 8 + o.shift.toNat * 2 ^ 6

/-- Reads `VamoOps`. -/
def decVamoOps (n : Nat) : VamoOps :=
  { q := field n 23 2, sa := field n 18 5, aop := field n 14 4, dbl := flag n 10, ord := field n 8 2 }

/-- Writes `VamoOps`. -/
def encVamoOps (base : Nat) (o : VamoOps) : Nat :=
  base + o.q.toNat * 2 ^ 23 + o.sa.toNat * 2 ^ 18 + o.aop.toNat * 2 ^ 14 + o.dbl.toNat * 2 ^ 10 + o.ord.toNat * 2 ^ 8

/-- Reads `VscOps`. -/
def decVscOps (n : Nat) : VscOps :=
  { q := field n 23 2, sa := field n 18 5, sb := field n 13 5, sz := field n 10 2 }

/-- Writes `VscOps`. -/
def encVscOps (base : Nat) (o : VscOps) : Nat :=
  base + o.q.toNat * 2 ^ 23 + o.sa.toNat * 2 ^ 18 + o.sb.toNat * 2 ^ 13 + o.sz.toNat * 2 ^ 10

/-- Reads `RotOps`. -/
def decRotOps (n : Nat) : RotOps :=
  { q := field n 23 2, sa := field n 18 5, sb := field n 13 5, ord := field n 8 2 }

/-- Writes `RotOps`. -/
def encRotOps (base : Nat) (o : RotOps) : Nat :=
  base + o.q.toNat * 2 ^ 23 + o.sa.toNat * 2 ^ 18 + o.sb.toNat * 2 ^ 13 + o.ord.toNat * 2 ^ 8

/-- Reads `CopyOps`. -/
def decCopyOps (n : Nat) : CopyOps :=
  { sa := field n 18 5, sb := field n 13 5, sz := field n 10 2, rel := flag n 9, tk := field n 3 3 }

/-- Writes `CopyOps`. -/
def encCopyOps (base : Nat) (o : CopyOps) : Nat :=
  base + o.sa.toNat * 2 ^ 18 + o.sb.toNat * 2 ^ 13 + o.sz.toNat * 2 ^ 10 + o.rel.toNat * 2 ^ 9 + o.tk.toNat * 2 ^ 3

/-- Reads `GathOps`. -/
def decGathOps (n : Nat) : GathOps :=
  { q := field n 23 2, sa := field n 18 5, sb := field n 13 5, sz := field n 10 3, rel := flag n 9, scale := field n 6 2, tk := field n 3 3 }

/-- Writes `GathOps`. -/
def encGathOps (base : Nat) (o : GathOps) : Nat :=
  base + o.q.toNat * 2 ^ 23 + o.sa.toNat * 2 ^ 18 + o.sb.toNat * 2 ^ 13 + o.sz.toNat * 2 ^ 10 + o.rel.toNat * 2 ^ 9 + o.scale.toNat * 2 ^ 6 + o.tk.toNat * 2 ^ 3

/-- Reads `XsendOps`. -/
def decXsendOps (n : Nat) : XsendOps :=
  { sa := field n 18 5, sb := field n 13 5, sz := field n 10 2, rel := flag n 9 }

/-- Writes `XsendOps`. -/
def encXsendOps (base : Nat) (o : XsendOps) : Nat :=
  base + o.sa.toNat * 2 ^ 18 + o.sb.toNat * 2 ^ 13 + o.sz.toNat * 2 ^ 10 + o.rel.toNat * 2 ^ 9

/-- Reads `XqOps`. -/
def decXqOps (n : Nat) : XqOps :=
  { q := field n 23 2, k := field n 13 2 }

/-- Writes `XqOps`. -/
def encXqOps (base : Nat) (o : XqOps) : Nat :=
  base + o.q.toNat * 2 ^ 23 + o.k.toNat * 2 ^ 13

/-- Reads `XlookOps`. -/
def decXlookOps (n : Nat) : XlookOps :=
  { q := field n 23 2, p := field n 18 3, k := field n 13 2 }

/-- Writes `XlookOps`. -/
def encXlookOps (base : Nat) (o : XlookOps) : Nat :=
  base + o.q.toNat * 2 ^ 23 + o.p.toNat * 2 ^ 18 + o.k.toNat * 2 ^ 13

/-- Reads `XclrOps`. -/
def decXclrOps (n : Nat) : XclrOps :=
  { i64 := flag n 10 }

/-- Writes `XclrOps`. -/
def encXclrOps (base : Nat) (o : XclrOps) : Nat :=
  base + o.i64.toNat * 2 ^ 10

/-- Reads `VmAb`. -/
def decVmAb (n : Nat) : VmAb :=
  { sa := field n 18 5, sb := field n 13 5 }

/-- Writes `VmAb`. -/
def encVmAb (base : Nat) (o : VmAb) : Nat :=
  base + o.sa.toNat * 2 ^ 18 + o.sb.toNat * 2 ^ 13

/-- Reads `MxldsOps`. -/
def decMxldsOps (n : Nat) : MxldsOps :=
  { sa := field n 16 5, q := field n 3 2 }

/-- Writes `MxldsOps`. -/
def encMxldsOps (base : Nat) (o : MxldsOps) : Nat :=
  base + o.sa.toNat * 2 ^ 16 + o.q.toNat * 2 ^ 3

/-- Reads `MxstrmOps`. -/
def decMxstrmOps (n : Nat) : MxstrmOps :=
  { sa := field n 16 5, sb := field n 11 5, q := field n 3 2 }

/-- Writes `MxstrmOps`. -/
def encMxstrmOps (base : Nat) (o : MxstrmOps) : Nat :=
  base + o.sa.toNat * 2 ^ 16 + o.sb.toNat * 2 ^ 11 + o.q.toNat * 2 ^ 3

/-- Reads `MxdrainOps`. -/
def decMxdrainOps (n : Nat) : MxdrainOps :=
  { sa := field n 16 5, sb := field n 11 5, slot := flag n 5, q := field n 3 2 }

/-- Writes `MxdrainOps`. -/
def encMxdrainOps (base : Nat) (o : MxdrainOps) : Nat :=
  base + o.sa.toNat * 2 ^ 16 + o.sb.toNat * 2 ^ 11 + o.slot.toNat * 2 ^ 5 + o.q.toNat * 2 ^ 3

/-- Reads `RcinitOps`. -/
def decRcinitOps (n : Nat) : RcinitOps :=
  { smask := field n 14 5, ss := field n 9 5 }

/-- Writes `RcinitOps`. -/
def encRcinitOps (base : Nat) (o : RcinitOps) : Nat :=
  base + o.smask.toNat * 2 ^ 14 + o.ss.toNat * 2 ^ 9

/-- Reads `RcvOps`. -/
def decRcvOps (n : Nat) : RcvOps :=
  { vd := field n 20 6, va := field n 14 6, ss := field n 9 5, ca := flag n 8, m := field n 5 3 }

/-- Writes `RcvOps`. -/
def encRcvOps (base : Nat) (o : RcvOps) : Nat :=
  base + o.vd.toNat * 2 ^ 20 + o.va.toNat * 2 ^ 14 + o.ss.toNat * 2 ^ 9 + o.ca.toNat * 2 ^ 8 + o.m.toNat * 2 ^ 5

/-- Reads `RcpickOps`. -/
def decRcpickOps (n : Nat) : RcpickOps :=
  { sd := field n 20 5, ss := field n 9 5 }

/-- Writes `RcpickOps`. -/
def encRcpickOps (base : Nat) (o : RcpickOps) : Nat :=
  base + o.sd.toNat * 2 ^ 20 + o.ss.toNat * 2 ^ 9

/-- Reads `RcupdOps`. -/
def decRcupdOps (n : Nat) : RcupdOps :=
  { st := field n 20 5, sv := field n 14 5, ss := field n 9 5 }

/-- Writes `RcupdOps`. -/
def encRcupdOps (base : Nat) (o : RcupdOps) : Nat :=
  base + o.st.toNat * 2 ^ 20 + o.sv.toNat * 2 ^ 14 + o.ss.toNat * 2 ^ 9

/-- Reads `RcdropOps`. -/
def decRcdropOps (n : Nat) : RcdropOps :=
  { pd := field n 20 3, ss := field n 9 5 }

/-- Writes `RcdropOps`. -/
def encRcdropOps (base : Nat) (o : RcdropOps) : Nat :=
  base + o.pd.toNat * 2 ^ 20 + o.ss.toNat * 2 ^ 9

/-- Reads `RcwaitOps`. -/
def decRcwaitOps (n : Nat) : RcwaitOps :=
  { ss := field n 9 5 }

/-- Writes `RcwaitOps`. -/
def encRcwaitOps (base : Nat) (o : RcwaitOps) : Nat :=
  base + o.ss.toNat * 2 ^ 9

/-- Reads `RcreadOps`. -/
def decRcreadOps (n : Nat) : RcreadOps :=
  { sd := field n 20 5, item := field n 14 2, ss := field n 9 5 }

/-- Writes `RcreadOps`. -/
def encRcreadOps (base : Nat) (o : RcreadOps) : Nat :=
  base + o.sd.toNat * 2 ^ 20 + o.item.toNat * 2 ^ 14 + o.ss.toNat * 2 ^ 9

/-- Reads `RcsetOps`. -/
def decRcsetOps (n : Nat) : RcsetOps :=
  { sel := field n 20 5, sv := field n 14 5, ss := field n 9 5 }

/-- Writes `RcsetOps`. -/
def encRcsetOps (base : Nat) (o : RcsetOps) : Nat :=
  base + o.sel.toNat * 2 ^ 20 + o.sv.toNat * 2 ^ 14 + o.ss.toNat * 2 ^ 9

/-- Major 0x00. -/
def rows00 : List Row :=
  [ ⟨[(0, 26, 0)], fun _ => .emptySyllable⟩ ]

/-- Major 0x01. -/
def rows01 : List Row :=
  [ ⟨[(0, 16, 21)], fun n => .clz (decS2 n)⟩,
    ⟨[(0, 16, 22)], fun n => .ctz (decS2 n)⟩,
    ⟨[(0, 16, 23)], fun n => .popc (decS2 n)⟩,
    ⟨[(0, 11, 0)], fun n => .add (decS3 n)⟩,
    ⟨[(0, 11, 1)], fun n => .sub (decS3 n)⟩,
    ⟨[(0, 11, 2)], fun n => .mul (decS3 n)⟩,
    ⟨[(0, 11, 3)], fun n => .mulh (decS3 n)⟩,
    ⟨[(0, 11, 4)], fun n => .mulhn (decS3 n)⟩,
    ⟨[(0, 11, 5)], fun n => .div (decS3 n)⟩,
    ⟨[(0, 11, 6)], fun n => .divn (decS3 n)⟩,
    ⟨[(0, 11, 7)], fun n => .rem (decS3 n)⟩,
    ⟨[(0, 11, 8)], fun n => .remn (decS3 n)⟩,
    ⟨[(0, 11, 9)], fun n => .and (decS3 n)⟩,
    ⟨[(0, 11, 10)], fun n => .or (decS3 n)⟩,
    ⟨[(0, 11, 11)], fun n => .xor (decS3 n)⟩,
    ⟨[(0, 11, 12)], fun n => .sll (decS3 n)⟩,
    ⟨[(0, 11, 13)], fun n => .srl (decS3 n)⟩,
    ⟨[(0, 11, 14)], fun n => .sra (decS3 n)⟩,
    ⟨[(0, 11, 15)], fun n => .slt (decS3 n)⟩,
    ⟨[(0, 11, 16)], fun n => .sltn (decS3 n)⟩,
    ⟨[(0, 11, 17)], fun n => .min (decS3 n)⟩,
    ⟨[(0, 11, 18)], fun n => .max (decS3 n)⟩,
    ⟨[(0, 11, 19)], fun n => .minn (decS3 n)⟩,
    ⟨[(0, 11, 20)], fun n => .maxn (decS3 n)⟩,
    ⟨[(0, 11, 24)], fun n => .sel (decS3 n)⟩ ]

/-- Major 0x02. -/
def rows02 : List Row :=
  [ ⟨[], fun n => .addi (decIOps n)⟩ ]

/-- Major 0x03. -/
def rows03 : List Row :=
  [ ⟨[], fun n => .andi (decIOps n)⟩ ]

/-- Major 0x04. -/
def rows04 : List Row :=
  [ ⟨[], fun n => .ori (decIOps n)⟩ ]

/-- Major 0x05. -/
def rows05 : List Row :=
  [ ⟨[], fun n => .xori (decIOps n)⟩ ]

/-- Major 0x06. -/
def rows06 : List Row :=
  [ ⟨[], fun n => .slti (decIOps n)⟩ ]

/-- Major 0x07. -/
def rows07 : List Row :=
  [ ⟨[], fun n => .sltin (decIOps n)⟩ ]

/-- Major 0x08. -/
def rows08 : List Row :=
  [ ⟨[(16, 5, 0)], fun n => .lui (decUOps n)⟩ ]

/-- Major 0x09. -/
def rows09 : List Row :=
  [ ⟨[(16, 5, 0)], fun n => .addpc (decUOps n)⟩ ]

/-- Major 0x0A. -/
def rows0A : List Row :=
  [ ⟨[(0, 10, 0)], fun n => .sllImm (decShOps n)⟩,
    ⟨[(0, 10, 1)], fun n => .srlImm (decShOps n)⟩,
    ⟨[(0, 10, 2)], fun n => .sraImm (decShOps n)⟩,
    ⟨[(0, 4, 6), (9, 1, 0)], fun n => .bfxReg (decBfrOps n)⟩,
    ⟨[(0, 4, 7), (9, 1, 0)], fun n => .bfxnReg (decBfrOps n)⟩,
    ⟨[(0, 4, 8), (9, 1, 0)], fun n => .bfiReg (decBfrOps n)⟩,
    ⟨[(0, 4, 3)], fun n => .bfx (decBfOps n)⟩,
    ⟨[(0, 4, 4)], fun n => .bfxn (decBfOps n)⟩,
    ⟨[(0, 4, 5)], fun n => .bfi (decBfOps n)⟩ ]

/-- Major 0x0B. -/
def rows0B : List Row :=
  [ ⟨[(0, 4, 8), (6, 10, 0)], fun n => .fsqrt (decF1 n)⟩,
    ⟨[(0, 11, 4)], fun n => .fmin (decS3 n)⟩,
    ⟨[(0, 11, 5)], fun n => .fmax (decS3 n)⟩,
    ⟨[(0, 4, 7), (10, 6, 0)], fun n => .fcvt (decFcvtOps n)⟩,
    ⟨[(0, 4, 0), (6, 5, 0)], fun n => .fadd (decF3 n)⟩,
    ⟨[(0, 4, 1), (6, 5, 0)], fun n => .fsub (decF3 n)⟩,
    ⟨[(0, 4, 2), (6, 5, 0)], fun n => .fmul (decF3 n)⟩,
    ⟨[(0, 4, 3), (6, 5, 0)], fun n => .ffma (decF3 n)⟩,
    ⟨[(0, 6, 6), (10, 1, 0)], fun n => .fcmp (decFcmpOps n)⟩ ]

/-- Major 0x0C. -/
def rows0C : List Row :=
  [ ⟨[], fun n => .ld (decLOps n)⟩ ]

/-- Major 0x0D. -/
def rows0D : List Row :=
  [ ⟨[], fun n => .st (decLOps n)⟩ ]

/-- Major 0x0E. -/
def rows0E : List Row :=
  [ ⟨[(0, 2, 3), (7, 4, 13), (13, 3, 0), (21, 5, 0)], fun n => .amoea (decAeOps n)⟩,
    ⟨[(0, 2, 2), (7, 4, 10), (21, 5, 0)], fun n => .redaddF32 (decRedfOps n)⟩,
    ⟨[(0, 2, 2), (7, 4, 11), (21, 5, 0)], fun n => .redmaxF32 (decRedfOps n)⟩,
    ⟨[(0, 2, 2), (7, 4, 12), (21, 5, 0)], fun n => .redminF32 (decRedfOps n)⟩,
    ⟨[(1, 1, 1), (7, 4, 0), (21, 5, 0)], fun n => .redadd (decRedOps n)⟩,
    ⟨[(1, 1, 1), (7, 4, 1), (21, 5, 0)], fun n => .redswap (decRedOps n)⟩,
    ⟨[(1, 1, 1), (7, 4, 3), (21, 5, 0)], fun n => .redand (decRedOps n)⟩,
    ⟨[(1, 1, 1), (7, 4, 4), (21, 5, 0)], fun n => .redor (decRedOps n)⟩,
    ⟨[(1, 1, 1), (7, 4, 5), (21, 5, 0)], fun n => .redxor (decRedOps n)⟩,
    ⟨[(1, 1, 1), (7, 4, 6), (21, 5, 0)], fun n => .redmax (decRedOps n)⟩,
    ⟨[(1, 1, 1), (7, 4, 7), (21, 5, 0)], fun n => .redmin (decRedOps n)⟩,
    ⟨[(1, 1, 1), (7, 4, 8), (21, 5, 0)], fun n => .redmaxn (decRedOps n)⟩,
    ⟨[(1, 1, 1), (7, 4, 9), (21, 5, 0)], fun n => .redminn (decRedOps n)⟩,
    ⟨[(0, 2, 2), (7, 4, 10)], fun n => .amoaddF32 (decAfOps n)⟩,
    ⟨[(0, 2, 2), (7, 4, 11)], fun n => .amomaxF32 (decAfOps n)⟩,
    ⟨[(0, 2, 2), (7, 4, 12)], fun n => .amominF32 (decAfOps n)⟩,
    ⟨[(1, 1, 1), (7, 4, 0)], fun n => .amoadd (decAOps n)⟩,
    ⟨[(1, 1, 1), (7, 4, 1)], fun n => .amoswap (decAOps n)⟩,
    ⟨[(1, 1, 1), (7, 4, 2)], fun n => .amocas (decAOps n)⟩,
    ⟨[(1, 1, 1), (7, 4, 3)], fun n => .amoand (decAOps n)⟩,
    ⟨[(1, 1, 1), (7, 4, 4)], fun n => .amoor (decAOps n)⟩,
    ⟨[(1, 1, 1), (7, 4, 5)], fun n => .amoxor (decAOps n)⟩,
    ⟨[(1, 1, 1), (7, 4, 6)], fun n => .amomax (decAOps n)⟩,
    ⟨[(1, 1, 1), (7, 4, 7)], fun n => .amomin (decAOps n)⟩,
    ⟨[(1, 1, 1), (7, 4, 8)], fun n => .amomaxn (decAOps n)⟩,
    ⟨[(1, 1, 1), (7, 4, 9)], fun n => .amominn (decAOps n)⟩ ]

/-- Major 0x10. -/
def rows10 : List Row :=
  [ ⟨[], fun n => .beq (decBOps n)⟩ ]

/-- Major 0x11. -/
def rows11 : List Row :=
  [ ⟨[], fun n => .bne (decBOps n)⟩ ]

/-- Major 0x12. -/
def rows12 : List Row :=
  [ ⟨[], fun n => .blt (decBOps n)⟩ ]

/-- Major 0x13. -/
def rows13 : List Row :=
  [ ⟨[], fun n => .bge (decBOps n)⟩ ]

/-- Major 0x14. -/
def rows14 : List Row :=
  [ ⟨[], fun n => .bltn (decBOps n)⟩ ]

/-- Major 0x15. -/
def rows15 : List Row :=
  [ ⟨[], fun n => .bgen (decBOps n)⟩ ]

/-- Major 0x16. -/
def rows16 : List Row :=
  [ ⟨[(21, 5, 0)], fun n => .j (decJOps n)⟩ ]

/-- Major 0x17. -/
def rows17 : List Row :=
  [ ⟨[], fun n => .jal (decJalOps n)⟩ ]

/-- Major 0x18. -/
def rows18 : List Row :=
  [ ⟨[], fun n => .jalr (decIOps n)⟩ ]

/-- Major 0x19. -/
def rows19 : List Row :=
  [ ⟨[(0, 6, 0)], fun n => .repf (decRepfOps n)⟩ ]

/-- Major 0x1A. -/
def rows1A : List Row :=
  [ ⟨[(0, 26, 6)], fun _ => .eret⟩,
    ⟨[(0, 26, 9)], fun _ => .icinv⟩,
    ⟨[(0, 4, 0), (9, 17, 0)], fun n => .fence (decFenceOps n)⟩,
    ⟨[(0, 16, 5), (21, 5, 0)], fun n => .trap (decS1a n)⟩,
    ⟨[(0, 4, 1), (10, 16, 0)], fun n => .fencex (decFencexOps n)⟩,
    ⟨[(0, 11, 2), (19, 7, 0)], fun n => .cwait (decCwaitOps n)⟩,
    ⟨[(0, 4, 4), (7, 9, 0), (21, 5, 0)], fun n => .bar (decBarOps n)⟩,
    ⟨[(0, 11, 3), (21, 5, 0)], fun n => .waitsw (decS2ab n)⟩,
    ⟨[(0, 11, 10), (21, 5, 0)], fun n => .trmark (decS2ab n)⟩,
    ⟨[(0, 4, 7), (11, 10, 0)], fun n => .sysr (decSysrOps n)⟩,
    ⟨[(0, 4, 8), (11, 5, 0), (21, 5, 0)], fun n => .sysw (decSyswOps n)⟩ ]

/-- Major 0x1B. -/
def rows1B : List Row :=
  [ ⟨[(0, 26, 1)], fun _ => .yield⟩,
    ⟨[(0, 16, 0), (21, 5, 0)], fun n => .done (decS1a n)⟩,
    ⟨[(0, 11, 2)], fun n => .launch (decS3 n)⟩,
    ⟨[(0, 11, 3)], fun n => .cancel (decS3 n)⟩ ]

/-- Major 0x20. -/
def rows20 : List Row :=
  [ ⟨[(0, 3, 0), (8, 18, 0)], fun n => .vcfg (decVcfgOps n)⟩,
    ⟨[(0, 21, 2)], fun n => .vgetl (decS1d n)⟩,
    ⟨[(0, 3, 3), (10, 16, 0)], fun n => .vsett (decVsettOps n)⟩,
    ⟨[(0, 16, 1)], fun n => .vsetl (decS2 n)⟩ ]

/-- Major 0x21. -/
def rows21 : List Row :=
  [ ⟨[(0, 2, 0)], fun n => .vadd (decV3 n)⟩,
    ⟨[(0, 2, 1)], fun n => .vsub (decV3 n)⟩,
    ⟨[(0, 2, 2)], fun n => .vmul (decV3 n)⟩,
    ⟨[(0, 2, 3)], fun n => .vmulh (decV3 n)⟩ ]

/-- Major 0x22. -/
def rows22 : List Row :=
  [ ⟨[(0, 2, 0)], fun n => .vmin (decV3 n)⟩,
    ⟨[(0, 2, 1)], fun n => .vmax (decV3 n)⟩,
    ⟨[(0, 2, 2)], fun n => .vabsd (decV3 n)⟩,
    ⟨[(0, 2, 3)], fun n => .vsadd (decV3 n)⟩ ]

/-- Major 0x23. -/
def rows23 : List Row :=
  [ ⟨[(0, 2, 0)], fun n => .vand (decV3 n)⟩,
    ⟨[(0, 2, 1)], fun n => .vor (decV3 n)⟩,
    ⟨[(0, 2, 2)], fun n => .vxor (decV3 n)⟩,
    ⟨[(0, 2, 3)], fun n => .vssub (decV3 n)⟩ ]

/-- Major 0x24. -/
def rows24 : List Row :=
  [ ⟨[(0, 2, 3), (6, 14, 8)], fun n => .viota (decV1 n)⟩,
    ⟨[(0, 2, 3), (6, 1, 0), (8, 6, 0)], fun n => .vmv (decV2 n)⟩,
    ⟨[(0, 2, 3), (6, 1, 0), (8, 6, 1)], fun n => .vclz (decV2 n)⟩,
    ⟨[(0, 2, 0)], fun n => .vsll (decV3 n)⟩,
    ⟨[(0, 2, 1)], fun n => .vsrl (decV3 n)⟩,
    ⟨[(0, 2, 2)], fun n => .vsra (decV3 n)⟩ ]

/-- Major 0x25. -/
def rows25 : List Row :=
  [ ⟨[(0, 2, 0)], fun n => .vfadd (decV3 n)⟩,
    ⟨[(0, 2, 1)], fun n => .vfsub (decV3 n)⟩,
    ⟨[(0, 2, 2)], fun n => .vfmul (decV3 n)⟩,
    ⟨[(0, 2, 3)], fun n => .vffma (decV3 n)⟩ ]

/-- Major 0x26. -/
def rows26 : List Row :=
  [ ⟨[(0, 2, 0)], fun n => .vfmin (decV3 n)⟩,
    ⟨[(0, 2, 1)], fun n => .vfmax (decV3 n)⟩,
    ⟨[(0, 2, 2)], fun n => .vfdiv (decV3 n)⟩,
    ⟨[(0, 2, 3)], fun n => .vfscl (decV3 n)⟩ ]

/-- Major 0x27. -/
def rows27 : List Row :=
  [ ⟨[(0, 2, 0), (6, 1, 0), (8, 6, 0)], fun n => .vfsqrt (decV2 n)⟩,
    ⟨[(0, 2, 1), (6, 1, 0), (8, 6, 0)], fun n => .vfexp (decV2 n)⟩,
    ⟨[(0, 2, 2), (6, 1, 0), (8, 6, 0)], fun n => .vflog (decV2 n)⟩,
    ⟨[(0, 2, 3), (6, 1, 0), (8, 6, 0)], fun n => .vfrcp (decV2 n)⟩ ]

/-- Major 0x28. -/
def rows28 : List Row :=
  [ ⟨[(0, 2, 0), (6, 1, 0), (8, 6, 0)], fun n => .vfcvt (decV2 n)⟩ ]

/-- Major 0x29. -/
def rows29 : List Row :=
  [ ⟨[(0, 2, 0), (6, 1, 0), (8, 6, 0), (22, 4, 0)], fun n => .vredsum (decVredOps n)⟩,
    ⟨[(0, 2, 3), (6, 1, 0), (8, 6, 0), (25, 1, 0)], fun n => .vredmax (decVminOps n)⟩,
    ⟨[(0, 2, 3), (6, 1, 0), (8, 6, 1), (25, 1, 0)], fun n => .vredmin (decVminOps n)⟩,
    ⟨[(0, 2, 3), (6, 1, 0), (8, 6, 2), (25, 1, 0)], fun n => .vargmax (decVminOps n)⟩,
    ⟨[(0, 2, 1), (22, 4, 0)], fun n => .vdot (decVdotOps n)⟩,
    ⟨[(0, 2, 2)], fun n => .vscan (decV3 n)⟩ ]

/-- Major 0x2A. -/
def rows2A : List Row :=
  [ ⟨[(0, 20, 514), (22, 4, 0)], fun n => .eaclr (decEa1 n)⟩,
    ⟨[(0, 14, 0), (16, 4, 0), (22, 4, 0)], fun n => .veaadd (decEa2 n)⟩,
    ⟨[(0, 14, 2), (16, 4, 14), (22, 4, 0)], fun n => .eald (decEaldOps n)⟩,
    ⟨[(0, 14, 258), (16, 4, 0), (22, 4, 14)], fun n => .east (decEastOps n)⟩,
    ⟨[(0, 2, 1), (3, 11, 0), (16, 4, 0), (25, 1, 0)], fun n => .earnd (decEarndOps n)⟩ ]

/-- Major 0x2B. -/
def rows2B : List Row :=
  [ ⟨[(0, 2, 1), (6, 1, 0), (8, 6, 0)], fun n => .vcompress (decV2 n)⟩,
    ⟨[(0, 2, 2), (6, 1, 0), (8, 6, 0)], fun n => .vexpand (decV2 n)⟩,
    ⟨[(0, 2, 0)], fun n => .vperm (decV3 n)⟩ ]

/-- Major 0x2C. -/
def rows2C : List Row :=
  [ ⟨[(0, 14, 6147), (17, 3, 0), (23, 3, 0)], fun n => .pnot (decP2 n)⟩,
    ⟨[(0, 14, 8195), (17, 3, 0), (25, 1, 0)], fun n => .ppopc (decPs n)⟩,
    ⟨[(0, 14, 10243), (17, 3, 0), (25, 1, 0)], fun n => .pfirst (decPs n)⟩,
    ⟨[(0, 8, 3), (11, 3, 0), (17, 3, 0), (23, 3, 0)], fun n => .pand (decP3 n)⟩,
    ⟨[(0, 8, 3), (11, 3, 1), (17, 3, 0), (23, 3, 0)], fun n => .por (decP3 n)⟩,
    ⟨[(0, 8, 3), (11, 3, 2), (17, 3, 0), (23, 3, 0)], fun n => .pxor (decP3 n)⟩,
    ⟨[(0, 2, 0)], fun n => .vcmp (decVcmpOps n)⟩,
    ⟨[(0, 2, 1)], fun n => .vfcmp (decVcmpOps n)⟩,
    ⟨[(0, 2, 2)], fun n => .vsel (decV3 n)⟩ ]

/-- Major 0x2D. -/
def rows2D : List Row :=
  [ ⟨[(0, 4, 15), (8, 1, 0), (14, 6, 0)], fun n => .vmvVs (decVs2 n)⟩,
    ⟨[(0, 4, 0)], fun n => .vaddVs (decVs3 n)⟩,
    ⟨[(0, 4, 1)], fun n => .vsubVs (decVs3 n)⟩,
    ⟨[(0, 4, 2)], fun n => .vmulVs (decVs3 n)⟩,
    ⟨[(0, 4, 3)], fun n => .vmulhVs (decVs3 n)⟩,
    ⟨[(0, 4, 4)], fun n => .vminVs (decVs3 n)⟩,
    ⟨[(0, 4, 5)], fun n => .vmaxVs (decVs3 n)⟩,
    ⟨[(0, 4, 6)], fun n => .vabsdVs (decVs3 n)⟩,
    ⟨[(0, 4, 7)], fun n => .vsaddVs (decVs3 n)⟩,
    ⟨[(0, 4, 8)], fun n => .vandVs (decVs3 n)⟩,
    ⟨[(0, 4, 9)], fun n => .vorVs (decVs3 n)⟩,
    ⟨[(0, 4, 10)], fun n => .vxorVs (decVs3 n)⟩,
    ⟨[(0, 4, 11)], fun n => .vssubVs (decVs3 n)⟩,
    ⟨[(0, 4, 12)], fun n => .vsllVs (decVs3 n)⟩,
    ⟨[(0, 4, 13)], fun n => .vsrlVs (decVs3 n)⟩,
    ⟨[(0, 4, 14)], fun n => .vsraVs (decVs3 n)⟩ ]

/-- Major 0x2E. -/
def rows2E : List Row :=
  [ ⟨[(0, 4, 0)], fun n => .vfaddVs (decVs3 n)⟩,
    ⟨[(0, 4, 1)], fun n => .vfsubVs (decVs3 n)⟩,
    ⟨[(0, 4, 2)], fun n => .vfmulVs (decVs3 n)⟩,
    ⟨[(0, 4, 3)], fun n => .vffmaVs (decVs3 n)⟩,
    ⟨[(0, 4, 4)], fun n => .vfminVs (decVs3 n)⟩,
    ⟨[(0, 4, 5)], fun n => .vfmaxVs (decVs3 n)⟩,
    ⟨[(0, 4, 6)], fun n => .vfdivVs (decVs3 n)⟩,
    ⟨[(0, 4, 7)], fun n => .vfsclVs (decVs3 n)⟩,
    ⟨[(0, 4, 8)], fun n => .vslideup (decVs3 n)⟩,
    ⟨[(0, 4, 9)], fun n => .vslidedn (decVs3 n)⟩,
    ⟨[(0, 4, 10)], fun n => .vcmpVs (decVscmpOps n)⟩,
    ⟨[(0, 4, 11)], fun n => .vfcmpVs (decVscmpOps n)⟩ ]

/-- Major 0x2F. -/
def rows2F : List Row :=
  [ ⟨[(0, 14, 2), (19, 1, 0), (24, 2, 0)], fun n => .fmtset (decFmtOps n)⟩,
    ⟨[(0, 2, 0), (3, 4, 0), (12, 2, 0)], fun n => .vbq (decVbqOps n)⟩,
    ⟨[(0, 2, 1), (3, 4, 0), (12, 2, 0)], fun n => .vbdq (decVbqOps n)⟩ ]

/-- Major 0x30. -/
def rows30 : List Row :=
  [ ⟨[(0, 3, 0), (7, 1, 0), (12, 1, 0), (25, 1, 0)], fun n => .vld (decVmOps n)⟩,
    ⟨[(0, 3, 1), (7, 1, 0), (12, 1, 0), (25, 1, 0)], fun n => .vlds (decVmOps n)⟩ ]

/-- Major 0x31. -/
def rows31 : List Row :=
  [ ⟨[(0, 3, 0), (7, 1, 0), (12, 1, 0), (25, 1, 0)], fun n => .vst (decVmOps n)⟩,
    ⟨[(0, 3, 1), (7, 1, 0), (12, 1, 0), (25, 1, 0)], fun n => .vsts (decVmOps n)⟩ ]

/-- Major 0x32. -/
def rows32 : List Row :=
  [ ⟨[(0, 6, 0), (12, 1, 0), (15, 3, 0), (25, 1, 0)], fun n => .vldxO (decVxOps n)⟩,
    ⟨[(0, 6, 1), (12, 1, 0), (15, 3, 0), (25, 1, 0)], fun n => .vldxU (decVxOps n)⟩,
    ⟨[(0, 6, 2), (12, 1, 0), (15, 3, 0), (25, 1, 0)], fun n => .vstxO (decVxOps n)⟩,
    ⟨[(0, 6, 3), (12, 1, 0), (15, 3, 0), (25, 1, 0)], fun n => .vstxU (decVxOps n)⟩ ]

/-- Major 0x33. -/
def rows33 : List Row :=
  [ ⟨[(0, 8, 0), (11, 3, 1), (25, 1, 0)], fun n => .vamo (decVamoOps n)⟩,
    ⟨[(0, 8, 1), (11, 3, 1), (25, 1, 0)], fun n => .vamoRet (decVamoOps n)⟩ ]

/-- Major 0x34. -/
def rows34 : List Row :=
  [ ⟨[(0, 10, 0), (12, 1, 0), (25, 1, 0)], fun n => .vldsc (decVscOps n)⟩,
    ⟨[(0, 10, 1), (12, 1, 0), (25, 1, 0)], fun n => .vstsc (decVscOps n)⟩ ]

/-- Major 0x35. -/
def rows35 : List Row :=
  [ ⟨[(0, 8, 0), (10, 3, 2), (25, 1, 0)], fun n => .vldrot (decRotOps n)⟩ ]

/-- Major 0x36. -/
def rows36 : List Row :=
  [ ⟨[(0, 9, 2), (12, 1, 0), (23, 3, 0)], fun n => .xsend (decXsendOps n)⟩,
    ⟨[(0, 3, 0), (6, 3, 0), (12, 1, 0), (23, 3, 0)], fun n => .copy (decCopyOps n)⟩,
    ⟨[(0, 3, 3), (6, 3, 0), (12, 1, 0), (23, 3, 0)], fun n => .xfetch (decCopyOps n)⟩,
    ⟨[(0, 3, 1), (8, 1, 0), (25, 1, 0)], fun n => .gathsp (decGathOps n)⟩ ]

/-- Major 0x38. -/
def rows38 : List Row :=
  [ ⟨[(0, 10, 3), (11, 15, 0)], fun n => .xclr (decXclrOps n)⟩,
    ⟨[(0, 13, 3072), (15, 8, 0), (25, 1, 0)], fun n => .xins (decXqOps n)⟩,
    ⟨[(0, 13, 3074), (15, 8, 0), (25, 1, 0)], fun n => .xacc (decXqOps n)⟩,
    ⟨[(0, 13, 3076), (15, 8, 0), (25, 1, 0)], fun n => .xdrain (decXqOps n)⟩,
    ⟨[(0, 13, 3073), (15, 3, 0), (21, 2, 0), (25, 1, 0)], fun n => .xlook (decXlookOps n)⟩ ]

/-- Major 0x39. -/
def rows39 : List Row :=
  [ ⟨[(0, 13, 0), (23, 3, 0)], fun n => .prune (decVmAb n)⟩,
    ⟨[(0, 13, 1), (23, 3, 0)], fun n => .sphdr (decVmAb n)⟩ ]

/-- Major 0x3A. -/
def rows3A : List Row :=
  [ ⟨[(0, 26, 1)], fun _ => .mxdet⟩,
    ⟨[(0, 26, 3)], fun _ => .mxswap⟩,
    ⟨[(0, 21, 7)], fun n => .mxstat (decS1d n)⟩,
    ⟨[(0, 3, 2), (5, 11, 0), (21, 5, 0)], fun n => .mxlds (decMxldsOps n)⟩,
    ⟨[(0, 16, 0)], fun n => .mxatt (decS2 n)⟩,
    ⟨[(0, 11, 6), (21, 5, 0)], fun n => .mxclr (decS2ab n)⟩,
    ⟨[(0, 3, 4), (5, 6, 0), (21, 5, 0)], fun n => .mxstrm (decMxstrmOps n)⟩,
    ⟨[(0, 3, 5), (6, 5, 0), (21, 5, 0)], fun n => .mxdrain (decMxdrainOps n)⟩ ]

/-- Major 0x3B. -/
def rows3B : List Row :=
  [ ⟨[(0, 9, 6), (14, 12, 0)], fun n => .rcwait (decRcwaitOps n)⟩,
    ⟨[(0, 9, 5), (14, 6, 0), (23, 3, 0)], fun n => .rcdrop (decRcdropOps n)⟩,
    ⟨[(0, 9, 0), (19, 7, 0)], fun n => .rcinit (decRcinitOps n)⟩,
    ⟨[(0, 9, 3), (14, 6, 0), (25, 1, 0)], fun n => .rcpick (decRcpickOps n)⟩,
    ⟨[(0, 9, 7), (16, 4, 0), (25, 1, 0)], fun n => .rcread (decRcreadOps n)⟩,
    ⟨[(0, 9, 4), (19, 1, 0), (25, 1, 0)], fun n => .rcupd (decRcupdOps n)⟩,
    ⟨[(0, 9, 8), (19, 1, 0), (25, 1, 0)], fun n => .rcset (decRcsetOps n)⟩,
    ⟨[(0, 5, 1)], fun n => .rcnoise (decRcvOps n)⟩,
    ⟨[(0, 5, 2)], fun n => .rcbound (decRcvOps n)⟩ ]

/-- Major 0x3C. -/
def rows3C : List Row :=
  [ ⟨[(0, 11, 0)], fun n => .clredEa (decS3 n)⟩,
    ⟨[(0, 11, 4)], fun n => .clredI64 (decS3 n)⟩,
    ⟨[(0, 11, 8)], fun n => .clredF32max (decS3 n)⟩,
    ⟨[(0, 11, 12)], fun n => .clredF32min (decS3 n)⟩,
    ⟨[(0, 11, 1)], fun n => .clbcast (decS3 n)⟩,
    ⟨[(0, 11, 2)], fun n => .clargmax (decS3 n)⟩ ]

/-- Major 0x3D. -/
def rows3D : List Row :=
  [ ⟨[(0, 16, 1), (21, 5, 0)], fun n => .tkflush (decS1a n)⟩,
    ⟨[(0, 11, 0)], fun n => .tkemit (decS3 n)⟩ ]

/-- The rows of a major; none where it is reserved (R260). -/
def rowsOf (major : Nat) : List Row :=
  match major with
  | 0 => rows00
  | 1 => rows01
  | 2 => rows02
  | 3 => rows03
  | 4 => rows04
  | 5 => rows05
  | 6 => rows06
  | 7 => rows07
  | 8 => rows08
  | 9 => rows09
  | 10 => rows0A
  | 11 => rows0B
  | 12 => rows0C
  | 13 => rows0D
  | 14 => rows0E
  | 16 => rows10
  | 17 => rows11
  | 18 => rows12
  | 19 => rows13
  | 20 => rows14
  | 21 => rows15
  | 22 => rows16
  | 23 => rows17
  | 24 => rows18
  | 25 => rows19
  | 26 => rows1A
  | 27 => rows1B
  | 32 => rows20
  | 33 => rows21
  | 34 => rows22
  | 35 => rows23
  | 36 => rows24
  | 37 => rows25
  | 38 => rows26
  | 39 => rows27
  | 40 => rows28
  | 41 => rows29
  | 42 => rows2A
  | 43 => rows2B
  | 44 => rows2C
  | 45 => rows2D
  | 46 => rows2E
  | 47 => rows2F
  | 48 => rows30
  | 49 => rows31
  | 50 => rows32
  | 51 => rows33
  | 52 => rows34
  | 53 => rows35
  | 54 => rows36
  | 56 => rows38
  | 57 => rows39
  | 58 => rows3A
  | 59 => rows3B
  | 60 => rows3C
  | 61 => rows3D
  | _ => []

/-- Decodes a syllable (R252, R253). -/
def decodeSyllable (n : Nat) : Except Reject Instr :=
  let major := n / 2 ^ 26 % 64
  match rowsOf major with
  | [] => .error (.reservedMajor major)
  | rs =>
    match findRow n rs with
    | none => if major = 0 then .error .majorZero else .error (.noRow major)
    | some i => if i.wf then .ok i else .error .illegalField

/-- The word of a syllable, as a number; none for an operation or event, which has no encoding. -/
def encodeNat (i : Instr) : Option Nat :=
  match i with
  | .emptySyllable => some 0x00000000
  | .add o => some (encS3 0x04000000 o)
  | .sub o => some (encS3 0x04000001 o)
  | .mul o => some (encS3 0x04000002 o)
  | .mulh o => some (encS3 0x04000003 o)
  | .mulhn o => some (encS3 0x04000004 o)
  | .div o => some (encS3 0x04000005 o)
  | .divn o => some (encS3 0x04000006 o)
  | .rem o => some (encS3 0x04000007 o)
  | .remn o => some (encS3 0x04000008 o)
  | .and o => some (encS3 0x04000009 o)
  | .or o => some (encS3 0x0400000A o)
  | .xor o => some (encS3 0x0400000B o)
  | .sll o => some (encS3 0x0400000C o)
  | .srl o => some (encS3 0x0400000D o)
  | .sra o => some (encS3 0x0400000E o)
  | .slt o => some (encS3 0x0400000F o)
  | .sltn o => some (encS3 0x04000010 o)
  | .min o => some (encS3 0x04000011 o)
  | .max o => some (encS3 0x04000012 o)
  | .minn o => some (encS3 0x04000013 o)
  | .maxn o => some (encS3 0x04000014 o)
  | .clz o => some (encS2 0x04000015 o)
  | .ctz o => some (encS2 0x04000016 o)
  | .popc o => some (encS2 0x04000017 o)
  | .sel o => some (encS3 0x04000018 o)
  | .addi o => some (encIOps 0x08000000 o)
  | .andi o => some (encIOps 0x0C000000 o)
  | .ori o => some (encIOps 0x10000000 o)
  | .xori o => some (encIOps 0x14000000 o)
  | .slti o => some (encIOps 0x18000000 o)
  | .sltin o => some (encIOps 0x1C000000 o)
  | .lui o => some (encUOps 0x20000000 o)
  | .addpc o => some (encUOps 0x24000000 o)
  | .sllImm o => some (encShOps 0x28000000 o)
  | .srlImm o => some (encShOps 0x28000001 o)
  | .sraImm o => some (encShOps 0x28000002 o)
  | .bfx o => some (encBfOps 0x28000003 o)
  | .bfxn o => some (encBfOps 0x28000004 o)
  | .bfi o => some (encBfOps 0x28000005 o)
  | .bfxReg o => some (encBfrOps 0x28000006 o)
  | .bfxnReg o => some (encBfrOps 0x28000007 o)
  | .bfiReg o => some (encBfrOps 0x28000008 o)
  | .fadd o => some (encF3 0x2C000000 o)
  | .fsub o => some (encF3 0x2C000001 o)
  | .fmul o => some (encF3 0x2C000002 o)
  | .ffma o => some (encF3 0x2C000003 o)
  | .fmin o => some (encS3 0x2C000004 o)
  | .fmax o => some (encS3 0x2C000005 o)
  | .fcmp o => some (encFcmpOps 0x2C000006 o)
  | .fcvt o => some (encFcvtOps 0x2C000007 o)
  | .fsqrt o => some (encF1 0x2C000008 o)
  | .ld o => some (encLOps 0x30000000 o)
  | .st o => some (encLOps 0x34000000 o)
  | .amoadd o => some (encAOps 0x38000002 o)
  | .amoswap o => some (encAOps 0x38000082 o)
  | .amocas o => some (encAOps 0x38000102 o)
  | .amoand o => some (encAOps 0x38000182 o)
  | .amoor o => some (encAOps 0x38000202 o)
  | .amoxor o => some (encAOps 0x38000282 o)
  | .amomax o => some (encAOps 0x38000302 o)
  | .amomin o => some (encAOps 0x38000382 o)
  | .amomaxn o => some (encAOps 0x38000402 o)
  | .amominn o => some (encAOps 0x38000482 o)
  | .amoaddF32 o => some (encAfOps 0x38000502 o)
  | .amomaxF32 o => some (encAfOps 0x38000582 o)
  | .amominF32 o => some (encAfOps 0x38000602 o)
  | .amoea o => some (encAeOps 0x38000683 o)
  | .redadd o => some (encRedOps 0x38000002 o)
  | .redswap o => some (encRedOps 0x38000082 o)
  | .redand o => some (encRedOps 0x38000182 o)
  | .redor o => some (encRedOps 0x38000202 o)
  | .redxor o => some (encRedOps 0x38000282 o)
  | .redmax o => some (encRedOps 0x38000302 o)
  | .redmin o => some (encRedOps 0x38000382 o)
  | .redmaxn o => some (encRedOps 0x38000402 o)
  | .redminn o => some (encRedOps 0x38000482 o)
  | .redaddF32 o => some (encRedfOps 0x38000502 o)
  | .redmaxF32 o => some (encRedfOps 0x38000582 o)
  | .redminF32 o => some (encRedfOps 0x38000602 o)
  | .beq o => some (encBOps 0x40000000 o)
  | .bne o => some (encBOps 0x44000000 o)
  | .blt o => some (encBOps 0x48000000 o)
  | .bge o => some (encBOps 0x4C000000 o)
  | .bltn o => some (encBOps 0x50000000 o)
  | .bgen o => some (encBOps 0x54000000 o)
  | .j o => some (encJOps 0x58000000 o)
  | .jal o => some (encJalOps 0x5C000000 o)
  | .jalr o => some (encIOps 0x60000000 o)
  | .repf o => some (encRepfOps 0x64000000 o)
  | .fence o => some (encFenceOps 0x68000000 o)
  | .fencex o => some (encFencexOps 0x68000001 o)
  | .cwait o => some (encCwaitOps 0x68000002 o)
  | .waitsw o => some (encS2ab 0x68000003 o)
  | .bar o => some (encBarOps 0x68000004 o)
  | .trap o => some (encS1a 0x68000005 o)
  | .eret => some 0x68000006
  | .sysr o => some (encSysrOps 0x68000007 o)
  | .sysw o => some (encSyswOps 0x68000008 o)
  | .icinv => some 0x68000009
  | .trmark o => some (encS2ab 0x6800000A o)
  | .done o => some (encS1a 0x6C000000 o)
  | .yield => some 0x6C000001
  | .launch o => some (encS3 0x6C000002 o)
  | .cancel o => some (encS3 0x6C000003 o)
  | .vcfg o => some (encVcfgOps 0x80000000 o)
  | .vsetl o => some (encS2 0x80000001 o)
  | .vgetl o => some (encS1d 0x80000002 o)
  | .vsett o => some (encVsettOps 0x80000003 o)
  | .vadd o => some (encV3 0x84000000 o)
  | .vsub o => some (encV3 0x84000001 o)
  | .vmul o => some (encV3 0x84000002 o)
  | .vmulh o => some (encV3 0x84000003 o)
  | .vmin o => some (encV3 0x88000000 o)
  | .vmax o => some (encV3 0x88000001 o)
  | .vabsd o => some (encV3 0x88000002 o)
  | .vsadd o => some (encV3 0x88000003 o)
  | .vand o => some (encV3 0x8C000000 o)
  | .vor o => some (encV3 0x8C000001 o)
  | .vxor o => some (encV3 0x8C000002 o)
  | .vssub o => some (encV3 0x8C000003 o)
  | .vsll o => some (encV3 0x90000000 o)
  | .vsrl o => some (encV3 0x90000001 o)
  | .vsra o => some (encV3 0x90000002 o)
  | .vmv o => some (encV2 0x90000003 o)
  | .vclz o => some (encV2 0x90000103 o)
  | .viota o => some (encV1 0x90000203 o)
  | .vfadd o => some (encV3 0x94000000 o)
  | .vfsub o => some (encV3 0x94000001 o)
  | .vfmul o => some (encV3 0x94000002 o)
  | .vffma o => some (encV3 0x94000003 o)
  | .vfmin o => some (encV3 0x98000000 o)
  | .vfmax o => some (encV3 0x98000001 o)
  | .vfdiv o => some (encV3 0x98000002 o)
  | .vfscl o => some (encV3 0x98000003 o)
  | .vfsqrt o => some (encV2 0x9C000000 o)
  | .vfexp o => some (encV2 0x9C000001 o)
  | .vflog o => some (encV2 0x9C000002 o)
  | .vfrcp o => some (encV2 0x9C000003 o)
  | .vfcvt o => some (encV2 0xA0000000 o)
  | .vredsum o => some (encVredOps 0xA4000000 o)
  | .vdot o => some (encVdotOps 0xA4000001 o)
  | .vscan o => some (encV3 0xA4000002 o)
  | .vredmax o => some (encVminOps 0xA4000003 o)
  | .vredmin o => some (encVminOps 0xA4000103 o)
  | .vargmax o => some (encVminOps 0xA4000203 o)
  | .veaadd o => some (encEa2 0xA8000000 o)
  | .earnd o => some (encEarndOps 0xA8000001 o)
  | .eald o => some (encEaldOps 0xA80E0002 o)
  | .east o => some (encEastOps 0xAB800102 o)
  | .eaclr o => some (encEa1 0xA8000202 o)
  | .vperm o => some (encV3 0xAC000000 o)
  | .vcompress o => some (encV2 0xAC000001 o)
  | .vexpand o => some (encV2 0xAC000002 o)
  | .vcmp o => some (encVcmpOps 0xB0000000 o)
  | .vfcmp o => some (encVcmpOps 0xB0000001 o)
  | .vsel o => some (encV3 0xB0000002 o)
  | .pand o => some (encP3 0xB0000003 o)
  | .por o => some (encP3 0xB0000803 o)
  | .pxor o => some (encP3 0xB0001003 o)
  | .pnot o => some (encP2 0xB0001803 o)
  | .ppopc o => some (encPs 0xB0002003 o)
  | .pfirst o => some (encPs 0xB0002803 o)
  | .vaddVs o => some (encVs3 0xB4000000 o)
  | .vsubVs o => some (encVs3 0xB4000001 o)
  | .vmulVs o => some (encVs3 0xB4000002 o)
  | .vmulhVs o => some (encVs3 0xB4000003 o)
  | .vminVs o => some (encVs3 0xB4000004 o)
  | .vmaxVs o => some (encVs3 0xB4000005 o)
  | .vabsdVs o => some (encVs3 0xB4000006 o)
  | .vsaddVs o => some (encVs3 0xB4000007 o)
  | .vandVs o => some (encVs3 0xB4000008 o)
  | .vorVs o => some (encVs3 0xB4000009 o)
  | .vxorVs o => some (encVs3 0xB400000A o)
  | .vssubVs o => some (encVs3 0xB400000B o)
  | .vsllVs o => some (encVs3 0xB400000C o)
  | .vsrlVs o => some (encVs3 0xB400000D o)
  | .vsraVs o => some (encVs3 0xB400000E o)
  | .vmvVs o => some (encVs2 0xB400000F o)
  | .vfaddVs o => some (encVs3 0xB8000000 o)
  | .vfsubVs o => some (encVs3 0xB8000001 o)
  | .vfmulVs o => some (encVs3 0xB8000002 o)
  | .vffmaVs o => some (encVs3 0xB8000003 o)
  | .vfminVs o => some (encVs3 0xB8000004 o)
  | .vfmaxVs o => some (encVs3 0xB8000005 o)
  | .vfdivVs o => some (encVs3 0xB8000006 o)
  | .vfsclVs o => some (encVs3 0xB8000007 o)
  | .vslideup o => some (encVs3 0xB8000008 o)
  | .vslidedn o => some (encVs3 0xB8000009 o)
  | .vcmpVs o => some (encVscmpOps 0xB800000A o)
  | .vfcmpVs o => some (encVscmpOps 0xB800000B o)
  | .vbq o => some (encVbqOps 0xBC000000 o)
  | .vbdq o => some (encVbqOps 0xBC000001 o)
  | .fmtset o => some (encFmtOps 0xBC000002 o)
  | .vld o => some (encVmOps 0xC0000000 o)
  | .vlds o => some (encVmOps 0xC0000001 o)
  | .vst o => some (encVmOps 0xC4000000 o)
  | .vsts o => some (encVmOps 0xC4000001 o)
  | .vldxO o => some (encVxOps 0xC8000000 o)
  | .vldxU o => some (encVxOps 0xC8000001 o)
  | .vstxO o => some (encVxOps 0xC8000002 o)
  | .vstxU o => some (encVxOps 0xC8000003 o)
  | .vamo o => some (encVamoOps 0xCC000800 o)
  | .vamoRet o => some (encVamoOps 0xCC000801 o)
  | .vldsc o => some (encVscOps 0xD0000000 o)
  | .vstsc o => some (encVscOps 0xD0000001 o)
  | .vldrot o => some (encRotOps 0xD4000800 o)
  | .copy o => some (encCopyOps 0xD8000000 o)
  | .gathsp o => some (encGathOps 0xD8000001 o)
  | .xsend o => some (encXsendOps 0xD8000002 o)
  | .xfetch o => some (encCopyOps 0xD8000003 o)
  | .xins o => some (encXqOps 0xE0000C00 o)
  | .xlook o => some (encXlookOps 0xE0000C01 o)
  | .xacc o => some (encXqOps 0xE0000C02 o)
  | .xclr o => some (encXclrOps 0xE0000003 o)
  | .xdrain o => some (encXqOps 0xE0000C04 o)
  | .prune o => some (encVmAb 0xE4000000 o)
  | .sphdr o => some (encVmAb 0xE4000001 o)
  | .mxatt o => some (encS2 0xE8000000 o)
  | .mxdet => some 0xE8000001
  | .mxlds o => some (encMxldsOps 0xE8000002 o)
  | .mxswap => some 0xE8000003
  | .mxstrm o => some (encMxstrmOps 0xE8000004 o)
  | .mxdrain o => some (encMxdrainOps 0xE8000005 o)
  | .mxclr o => some (encS2ab 0xE8000006 o)
  | .mxstat o => some (encS1d 0xE8000007 o)
  | .rcinit o => some (encRcinitOps 0xEC000000 o)
  | .rcnoise o => some (encRcvOps 0xEC000001 o)
  | .rcbound o => some (encRcvOps 0xEC000002 o)
  | .rcpick o => some (encRcpickOps 0xEC000003 o)
  | .rcupd o => some (encRcupdOps 0xEC000004 o)
  | .rcdrop o => some (encRcdropOps 0xEC000005 o)
  | .rcwait o => some (encRcwaitOps 0xEC000006 o)
  | .rcread o => some (encRcreadOps 0xEC000007 o)
  | .rcset o => some (encRcsetOps 0xEC000008 o)
  | .clredEa o => some (encS3 0xF0000000 o)
  | .clredI64 o => some (encS3 0xF0000004 o)
  | .clredF32max o => some (encS3 0xF0000008 o)
  | .clredF32min o => some (encS3 0xF000000C o)
  | .clbcast o => some (encS3 0xF0000001 o)
  | .clargmax o => some (encS3 0xF0000002 o)
  | .tkemit o => some (encS3 0xF4000000 o)
  | .tkflush o => some (encS1a 0xF4000001 o)
  | .packageReset => none
  | .throttleIntervalEnd => none
  | .thermalTrip => none
  | .thermalTripClear => none
  | .thermalShutdown => none
  | .registerWrite => none
  | .measExtend => none
  | .rdreq => none
  | .wrreq => none
  | .atreq => none
  | .rdata => none
  | .wdone => none
  | .cldat => none
  | .xsdat => none
  | .dack => none
  | .nak => none
  | .unav => none
  | .planeTimerExpiry => none
  | .portLockLost => none
  | .portLockGained => none
  | .bridgeDown => none
  | .fabctlHeldDiscard => none
  | .newRequest => none
  | .requestTextContinued => none
  | .cancelGeneration => none
  | .resendRequest => none
  | .ptpEventReceive => none
  | .status => none
  | .quote => none
  | .log => none
  | .cert => none
  | .counters => none
  | .tenantCreate => none
  | .tenantReset => none
  | .tenantDestroy => none
  | .streamOpen => none
  | .streamClose => none
  | .filterSet => none
  | .lcRequest => none
  | .svnRaise => none
  | .recoverWrite => none
  | .tsstepWrite => none
  | .trtailWrite => none
  | .trctlWrite => none
  | .snapshotFire => none
  | .snapatMatch => none
  | .snapshotValidClear => none
  | .wqtailWrite => none
  | .wqctlWrite => none
  | .wqstatClr => none
  | .packetConsume => none
  | .launchReady => none
  | .recordExpand => none
  | .launchComplete => none
  | .recordDispatch => none
  | .agingQuantum => none
  | .preemptPriority => none
  | .preemptionQuantum => none
  | .preemptSave => none
  | .saveSlotFreed => none
  | .resumew => none
  | .killw => none
  | .flttailWrite => none
  | .fltctlWrite => none
  | .softError => none
  | .tenantResetComplete => none
  | .tlbinv => none
  | .tlbInvalidationFinish => none
  | .engineElementLand => none
  | .engineElementFault => none
  | .pathQueueLeave => none
  | .atomicPerform => none
  | .applyWrite => none
  | .ticketAdvance => none
  | .lateFailure => none
  | .barrierWaitEnd => none
  | .launchEnqueue => none
  | .homeFinalize => none
  | .memberMerge => none
  | .homeResolve => none
  | .memberAbort => none
  | .illegalInstruction => none
  | .powerLoss => none
  | .ethernetFrameReceive => none
  | .ptpEventTransmit => none
  | .tscReferenceCycle => none
  | .arithmeticCycle => none

/-- The word of a syllable. -/
def encode (i : Instr) : Option (BitVec 32) := (encodeNat i).map (BitVec.ofNat 32)

/-- The four bytes of a word, lowest address first (R1). -/
def wordBytes (w : Nat) : List Byte :=
  [BitVec.ofNat 8 w, BitVec.ofNat 8 (w / 2 ^ 8), BitVec.ofNat 8 (w / 2 ^ 16), BitVec.ofNat 8 (w / 2 ^ 24)]

/-- The word that four bytes hold, lowest address first (R1). -/
def bytesWord (bs : List Byte) : Nat :=
  bs.foldr (fun b acc => b.toNat + 256 * acc) 0

/-- The decoder on the opcode table's numbering: a syllable is one 32-bit word, laid out in memory as R1 says and read
back. -/
def decodeTableWord (nbits w : Nat) : Option Instr :=
  match decodeSyllable (bytesWord (wordBytes (w % 2 ^ nbits))) with
  | .ok i => some i
  | .error _ => none

end Sys2Proof
end

