-- ==== Sys2Proof/Machine/Bits.lean ====
section
/-! DEFINITION. Bit fields, extensions, byte order and counting on words: the plain helpers that the operations use. -/

namespace Sys2Proof.Machine

/-- Bits lo + len - 1 : lo of a number, as a number (R6). -/
def bitsN (n lo len : Nat) : Nat := n / 2 ^ lo % 2 ^ len

/-- Bits lo + len - 1 : lo of a word (R6). -/
def bitsW (w : Word) (lo len : Nat) : Nat := bitsN w.toNat lo len

/-- One bit of a word. -/
def bitW (w : Word) (i : Nat) : Bool := w.getLsbD i

/-- A word from a number, mod 2^64. -/
def wordOf (n : Nat) : Word := BitVec.ofNat 64 n

/-- A word from an integer, mod 2^64. -/
def wordOfInt (i : Int) : Word := BitVec.ofInt 64 i

/-- 1 or 0. -/
def boolN (b : Bool) : Nat := if b then 1 else 0

/-- 1 or 0 as a word. -/
def boolW (b : Bool) : Word := if b then 1 else 0

/-- The low w bits of a word read as signed. -/
def signedN (w : Nat) (n : Nat) : Int :=
  let m := n % 2 ^ w
  if m < 2 ^ (w - 1) then (m : Int) else (m : Int) - (2 : Int) ^ w

/-- Sign-extends an immediate field to 64 bits (R255). -/
def sext64 {n : Nat} (x : BitVec n) : Word := x.signExtend 64

/-- Zero-extends an immediate field (R255). -/
def zext64 {n : Nat} (x : BitVec n) : Word := x.setWidth 64

/-- An integer wrapped into w bits. -/
def wrapN (w : Nat) (i : Int) : Nat := (i % ((2 : Int) ^ w)).toNat

/-- A number saturated into [lo, hi]. -/
def clampInt (lo hi i : Int) : Int := if i < lo then lo else if hi < i then hi else i

/-- The ceiling of a / b (R97, R131). -/
def ceilDiv (a b : Nat) : Nat := (a + b - 1) / b

/-- The number of bits a number needs; 0 for 0. -/
def bitLen (n : Nat) : Nat := if n = 0 then 0 else Nat.log2 n + 1

/-- Leading zeros of the low w bits (R277, R306). -/
def clzN (w n : Nat) : Nat := w - bitLen (n % 2 ^ w)

/-- Trailing zeros within w bits; w for 0 (R277). -/
def ctzFrom : Nat → Nat → Nat
  | 0, _ => 0
  | w + 1, n => if n % 2 = 1 then 0 else 1 + ctzFrom w (n / 2)

/-- Set bits among the low w (R277). -/
def popcN : Nat → Nat → Nat
  | 0, _ => 0
  | w + 1, n => n % 2 + popcN w (n / 2)

/-- Bytes of a number, lowest address first (R1). -/
def bytesOf : Nat → Nat → List Byte
  | 0, _ => []
  | k + 1, n => BitVec.ofNat 8 n :: bytesOf k (n / 256)

/-- The number that bytes hold, lowest address first (R1). -/
def numOf (bs : List Byte) : Nat := bs.foldr (fun b acc => b.toNat + 256 * acc) 0

/-- The number that bytes hold, highest first: the wire order of R45. -/
def numBE (bs : List Byte) : Nat := bs.foldl (fun acc b => acc * 256 + b.toNat) 0

/-- Bytes of a number in the wire order of R45. -/
def bytesBE (k n : Nat) : List Byte := (bytesOf k n).reverse

/-- Bytes i to i + k - 1 of a list, missing ones 0. -/
def sliceBytes (bs : List Byte) (i k : Nat) : List Byte :=
  (List.range k).map fun j => bs.getD (i + j) 0

/-- The little-endian number at byte i, k bytes. -/
def leAt (bs : List Byte) (i k : Nat) : Nat := numOf (sliceBytes bs i k)

/-- The n entries of a numbered file: v at index i, what the list holds elsewhere, d where it holds none. -/
def putAt {α : Type} (n : Nat) (d : α) (l : List α) (i : Nat) (v : α) : List α :=
  (List.range n).map fun k => if k = i then v else l.getD k d

/-- Whether a number is in a list. -/
def hasN (l : List Nat) (n : Nat) : Bool := l.any (· == n)

/-- Inserts into a sorted list without repeats. -/
def insertN : List Nat → Nat → List Nat
  | [], n => [n]
  | k :: t, n => if n < k then n :: k :: t else if n = k then k :: t else k :: insertN t n

/-- Removes a number from a list. -/
def eraseN (l : List Nat) (n : Nat) : List Nat := l.filter (· != n)

/-- The position of the first element that satisfies a test. -/
def findIdx? {α : Type} (f : α → Bool) : List α → Option Nat
  | [] => none
  | a :: t => if f a then some 0 else (findIdx? f t).map (· + 1)

/-- Removes the element at a position. -/
def dropAt {α : Type} : List α → Nat → List α
  | [], _ => []
  | _ :: t, 0 => t
  | a :: t, n + 1 => a :: dropAt t n

/-- Rotates a 64-bit value left (R6). -/
def rotl64 (x : Word) (k : Nat) : Word := x.rotateLeft k

/-- Greatest power-of-two multiple at or below n. -/
def alignDown (n k : Nat) : Nat := n - n % k

end Sys2Proof.Machine
end

