-- ==== Sys2Proof/Machine/Flags.lean ====
section
/-! DEFINITION. The exception flags of FFLAGS (R185) and how a syllable's flags combine. -/

namespace Sys2Proof.Machine

/-- FFLAGS bits 4:0: NV, DZ, OF, UF, NX (R185). -/
abbrev FFlags := BitVec 5

/-- Invalid operation. -/
def flNV : FFlags := 16
/-- Division by zero, or a logarithm of zero. -/
def flDZ : FFlags := 8
/-- Overflow. -/
def flOF : FFlags := 4
/-- Underflow. -/
def flUF : FFlags := 2
/-- Inexact. -/
def flNX : FFlags := 1

/-- A flag raised when a condition holds. -/
def raiseIf (c : Bool) (f : FFlags) : FFlags := if c then f else 0

/-- The OR of the flags of all elements (R185). -/
def orFlags (l : List FFlags) : FFlags := l.foldl (· ||| ·) 0

end Sys2Proof.Machine
end

