-- ==== Sys2Proof/Machine/Float.lean ====
section
/-! DEFINITION. The IEEE formats, `rnd` and the correctly rounded operations (R180 to R187, R280, R307, R308). -/

namespace Sys2Proof.Machine

/-- A binary format: exponent bits and fraction bits (R180). -/
structure Fmt where
  eb : Nat
  mb : Nat
  deriving DecidableEq, Repr

def f32 : Fmt := ⟨8, 23⟩
def f16 : Fmt := ⟨5, 10⟩
def bf16 : Fmt := ⟨8, 7⟩

/-- The width of a format. -/
def fmtWidth (f : Fmt) : Nat := 1 + f.eb + f.mb

/-- The exponent bias. -/
def fmtBias (f : Fmt) : Nat := 2 ^ (f.eb - 1) - 1

/-- The code of +∞. -/
def fmtInf (f : Fmt) : Nat := (2 ^ f.eb - 1) * 2 ^ f.mb

/-- The canonical NaN (R181). -/
def fmtNaN (f : Fmt) : Nat := fmtInf f + 2 ^ (f.mb - 1)

/-- The sign bit. -/
def fmtSign (f : Fmt) : Nat := 2 ^ (f.eb + f.mb)

/-- A rounding mode (R182). -/
inductive Rm where
  | rne | rtz | rup | rdn
  deriving DecidableEq, Repr

/-- The rounding mode of a 2-bit code (R182). -/
def rmOf (c : BitVec 2) : Rm :=
  match c.toNat with
  | 0 => .rne
  | 1 => .rtz
  | 2 => .rup
  | _ => .rdn

/-- A floating-point datum: NaN (signalling or not), infinity, or the exact value (-1)^neg × m × 2^e; m = 0 is a signed
zero. -/
inductive Fp where
  | nan (sig : Bool)
  | inf (neg : Bool)
  | fin (neg : Bool) (m : Nat) (e : Int)
  deriving DecidableEq, Repr

/-- Reads a bit pattern (R180). A signalling NaN has the top fraction bit clear (R280). -/
def fpOf (f : Fmt) (x : Nat) : Fp :=
  let s := x / 2 ^ (f.eb + f.mb) % 2 == 1
  let e := x / 2 ^ f.mb % 2 ^ f.eb
  let m := x % 2 ^ f.mb
  if e = 2 ^ f.eb - 1 then
    if m = 0 then .inf s else .nan (m < 2 ^ (f.mb - 1))
  else if e = 0 then .fin s m (1 - (fmtBias f : Int) - f.mb)
  else .fin s (m + 2 ^ f.mb) ((e : Int) - fmtBias f - f.mb)

def Fp.isNaN : Fp → Bool
  | .nan _ => true
  | _ => false

def Fp.isSNaN : Fp → Bool
  | .nan s => s
  | _ => false

def Fp.isZero : Fp → Bool
  | .fin _ m _ => m == 0
  | _ => false

def Fp.isInf : Fp → Bool
  | .inf _ => true
  | _ => false

def Fp.sign : Fp → Bool
  | .nan _ => false
  | .inf s => s
  | .fin s _ _ => s

def Fp.neg : Fp → Fp
  | .nan s => .nan s
  | .inf s => .inf (!s)
  | .fin s m e => .fin (!s) m e

/-- Whether the magnitude q + r / d (with `rem` ≠ 0 standing for r > 0 and comparing 2 r with d by `half`) rounds away
from zero. -/
def roundsUp (m : Rm) (neg odd : Bool) (half : Ordering) (rem : Bool) : Bool :=
  match m with
  | .rne => half == .gt || (half == .eq && odd)
  | .rtz => false
  | .rup => rem && !neg
  | .rdn => rem && neg

/-- Rounds m × 2^e (plus a part in (0, 1) unit of m when sticky) to a multiple of 2^q: the multiple, and whether it is
inexact. -/
def roundAt (md : Rm) (neg : Bool) (m : Nat) (e : Int) (sticky : Bool) (q : Int) : Nat × Bool :=
  if q ≤ e then
    (m * 2 ^ (e - q).toNat + boolN (sticky && roundsUp md neg (m % 2 == 1) .lt true), sticky)
  else
    let sh := (q - e).toNat
    let s := m / 2 ^ sh
    let r := m % 2 ^ sh
    let h := 2 ^ (sh - 1)
    let c := if r < h then Ordering.lt else if h < r then .gt else if sticky then .gt else .eq
    let inexact := r != 0 || sticky
    (s + boolN (roundsUp md neg (s % 2 == 1) c inexact), inexact)

/-- `rnd` of R184 on a nonzero magnitude: the bit pattern and the flags (R186); tininess after rounding. A caller that
sets `sticky` gives m at least two more bits than the format's precision, or a magnitude far below its range. -/
def rndMag (f : Fmt) (md : Rm) (neg : Bool) (m : Nat) (e : Int) (sticky : Bool) : Nat × FFlags :=
  let sgn := if neg then fmtSign f else 0
  let emin : Int := 1 - fmtBias f
  let top : Int := e + bitLen m - 1
  let q := max (top - f.mb) (emin - f.mb)
  let (s, inexact) := roundAt md neg m e sticky q
  let be := (q + f.mb + fmtBias f).toNat
  let code := (be - 1) * 2 ^ f.mb + s
  if fmtInf f ≤ code then
    let toInf := match md with
      | .rne => true
      | .rtz => false
      | .rup => !neg
      | .rdn => neg
    (sgn + (if toInf then fmtInf f else fmtInf f - 1), flOF ||| flNX)
  else
    let tiny := top < emin &&
      !(top == emin - 1 && (roundAt md neg m e sticky (top - f.mb)).1 == 2 ^ (f.mb + 1))
    (sgn + code, raiseIf inexact flNX ||| raiseIf (tiny && inexact) flUF)

/-- `rnd` of R184. -/
def rndSt (f : Fmt) (md : Rm) (x : Fp) (sticky : Bool) : Nat × FFlags :=
  match x with
  | .nan _ => (fmtNaN f, 0)
  | .inf s => ((if s then fmtSign f else 0) + fmtInf f, 0)
  | .fin s m e => if m = 0 && !sticky then (if s then fmtSign f else 0, 0) else rndMag f md s m e sticky

/-- `rnd` of an exact datum (R184). -/
def rnd (f : Fmt) (md : Rm) (x : Fp) : Nat × FFlags := rndSt f md x false

/-- The flags of signalling NaN operands (R181). -/
def nvSNaN (l : List Fp) : FFlags := raiseIf (l.any Fp.isSNaN) flNV

/-- The exact sum of two data; an exact zero has the sign IEEE 754-2019 gives it in the mode (R184). Infinities of opposite
sign give a NaN; the second component says that NV is raised. -/
def addFp (md : Rm) (a b : Fp) : Fp × Bool :=
  match a, b with
  | .nan _, _ => (.nan false, false)
  | _, .nan _ => (.nan false, false)
  | .inf s, .inf t => if s = t then (.inf s, false) else (.nan false, true)
  | .inf s, _ => (.inf s, false)
  | _, .inf t => (.inf t, false)
  | .fin s m e, .fin t n k =>
    let q := min e k
    let x : Int := (m * 2 ^ (e - q).toNat : Nat)
    let y : Int := (n * 2 ^ (k - q).toNat : Nat)
    let z := (if s then -x else x) + (if t then -y else y)
    if z = 0 then (.fin (if s = t then s else md == .rdn) 0 0, false)
    else (.fin (z < 0) z.natAbs q, false)

/-- The exact product; ∞ × 0 gives a NaN and NV (R308). -/
def mulFp (a b : Fp) : Fp × Bool :=
  match a, b with
  | .nan _, _ => (.nan false, false)
  | _, .nan _ => (.nan false, false)
  | .inf s, .inf t => (.inf (s != t), false)
  | .inf s, .fin t m _ => if m = 0 then (.nan false, true) else (.inf (s != t), false)
  | .fin s m _, .inf t => if m = 0 then (.nan false, true) else (.inf (s != t), false)
  | .fin s m e, .fin t n k => (.fin (s != t) (m * n) (e + k), false)

/-- a + b rounded once (R280, R307). -/
def fpAdd (f : Fmt) (md : Rm) (a b : Fp) : Nat × FFlags :=
  let (z, nv) := addFp md a b
  let (r, fl) := rnd f md z
  (r, fl ||| raiseIf nv flNV ||| nvSNaN [a, b])

/-- a - b rounded once. -/
def fpSub (f : Fmt) (md : Rm) (a b : Fp) : Nat × FFlags := fpAdd f md a b.neg

/-- a × b rounded once. -/
def fpMul (f : Fmt) (md : Rm) (a b : Fp) : Nat × FFlags :=
  let (z, nv) := mulFp a b
  let (r, fl) := rnd f md z
  (r, fl ||| raiseIf nv flNV ||| nvSNaN [a, b])

/-- a × b + c rounded once; ∞ × 0 gives NaN and NV whatever c is (R280, R308). -/
def fpFma (f : Fmt) (md : Rm) (a b c : Fp) : Nat × FFlags :=
  let (p, nv1) := mulFp a b
  let (z, nv2) := addFp md p c
  let (r, fl) := rnd f md z
  (r, fl ||| raiseIf (nv1 || nv2) flNV ||| nvSNaN [a, b, c])

/-- a / b rounded once (R307, R308). -/
def fpDiv (f : Fmt) (md : Rm) (a b : Fp) : Nat × FFlags :=
  let sn := nvSNaN [a, b]
  match a, b with
  | .nan _, _ => (fmtNaN f, sn)
  | _, .nan _ => (fmtNaN f, sn)
  | .inf _, .inf _ => (fmtNaN f, flNV)
  | .inf s, .fin t _ _ => ((if s != t then fmtSign f else 0) + fmtInf f, 0)
  | .fin s _ _, .inf t => (if s != t then fmtSign f else 0, 0)
  | .fin s m e, .fin t n k =>
    let neg := s != t
    if n = 0 then
      if m = 0 then (fmtNaN f, flNV) else ((if neg then fmtSign f else 0) + fmtInf f, flDZ)
    else if m = 0 then (if neg then fmtSign f else 0, 0)
    else
      let sh := 64 + bitLen n
      rndMag f md neg (m * 2 ^ sh / n) (e - k - sh) (m * 2 ^ sh % n != 0)

/-- The integer square root, one result bit per unit of fuel. -/
def isqrt : Nat → Nat → Nat → Nat
  | 0, _, r => r
  | k + 1, n, r =>
    let c := r + 2 ^ k
    if c * c ≤ n then isqrt k n c else isqrt k n r

/-- √a rounded once (R280, R308). -/
def fpSqrt (f : Fmt) (md : Rm) (a : Fp) : Nat × FFlags :=
  match a with
  | .nan s => (fmtNaN f, raiseIf s flNV)
  | .inf s => if s then (fmtNaN f, flNV) else (fmtInf f, 0)
  | .fin s m e =>
    if m = 0 then (if s then fmtSign f else 0, 0)
    else if s then (fmtNaN f, flNV)
    else
      let odd := e % 2 != 0
      let e' := if odd then e - 1 else e
      let n := (if odd then 2 * m else m) * 2 ^ 64
      let r := isqrt (bitLen n / 2 + 1) n 0
      rndMag f md false r (e' / 2 - 32) (r * r != n)

/-- Compares two data that are not NaN: -1, 0 or 1; -0 equals +0 (R280). -/
def cmpFp (a b : Fp) : Ordering :=
  match a, b with
  | .inf s, .inf t => if s = t then .eq else if s then .lt else .gt
  | .inf s, _ => if s then .lt else .gt
  | _, .inf t => if t then .gt else .lt
  | .fin s m e, .fin t n k =>
    let q := min e k
    let x : Int := (m * 2 ^ (e - q).toNat : Nat)
    let y : Int := (n * 2 ^ (k - q).toNat : Nat)
    compare (if s then -x else x) (if t then -y else y)
  | _, _ => .eq

/-- FMIN, FMAX ranking: the number when exactly one operand is a NaN, -0 below +0; `isMax` picks the larger (R280). -/
def fpSel (isMax : Bool) (a b : Fp) : Fp :=
  if a.isNaN then (if b.isNaN then .nan false else b)
  else if b.isNaN then a
  else
    match cmpFp a b with
    | .lt => if isMax then b else a
    | .gt => if isMax then a else b
    | .eq => if a.sign == isMax then b else a

/-- FMIN and FMAX (R280): NV only on a signalling NaN. -/
def fpMinMax (f : Fmt) (isMax : Bool) (a b : Fp) : Nat × FFlags :=
  ((rnd f .rne (fpSel isMax a b)).1, nvSNaN [a, b])

/-- The relations of FCMP: 0 EQ, 1 NE, 2 LT, 3 LE, 4 UN, 5 OR (R264, R280), with NV. -/
def fcmp (c : Nat) (a b : Fp) : Bool × FFlags :=
  let un := a.isNaN || b.isNaN
  let sn := nvSNaN [a, b]
  let o := cmpFp a b
  match c with
  | 0 => (!un && o == .eq, sn)
  | 1 => (un || o != .eq, sn)
  | 2 => (!un && o == .lt, raiseIf un flNV)
  | 3 => (!un && o != .gt, raiseIf un flNV)
  | 4 => (un, sn)
  | _ => (!un, sn)

/-- The conditions of VFCMP: 0 EQ, 1 NE, 2 LT, 3 LE, 4 GT, 5 GE, 6 UN, 7 OR (R270, R310). -/
def vfcmp (c : Nat) (a b : Fp) : Bool × FFlags :=
  match c with
  | 4 => fcmp 2 b a
  | 5 => fcmp 3 b a
  | 6 => fcmp 4 a b
  | 7 => fcmp 5 a b
  | c => fcmp c a b

/-- A floating-point datum rounded to an integer in a mode, and whether it was inexact; none for NaN and infinities. -/
def roundInt (md : Rm) (x : Fp) : Option (Int × Bool) :=
  match x with
  | .fin s m e =>
    let (r, ix) := roundAt md s m e false 0
    some (if s then -(r : Int) else (r : Int), ix)
  | _ => none

/-- Conversion to an integer range with saturation (R186): NaN gives 0; NaN or out of range raises NV alone. -/
def fpToInt (md : Rm) (lo hi : Int) (x : Fp) : Int × FFlags :=
  match x with
  | .nan _ => (0, flNV)
  | .inf s => (if s then lo else hi, flNV)
  | .fin _ _ _ =>
    match roundInt md x with
    | some (i, ix) => if i < lo then (lo, flNV) else if hi < i then (hi, flNV) else (i, raiseIf ix flNX)
    | none => (0, flNV)

/-- An integer as a datum. -/
def fpOfInt (i : Int) : Fp := .fin (i < 0) i.natAbs 0

/-- Format to format (R281, R309): NV on a signalling NaN. -/
def fpConv (g : Fmt) (md : Rm) (x : Fp) : Nat × FFlags :=
  let (r, fl) := rnd g md x
  (r, fl ||| nvSNaN [x])

/-- a × 2^n (R307, R308). -/
def fpScale (f : Fmt) (md : Rm) (a : Fp) (n : Int) : Nat × FFlags :=
  match a with
  | .fin s m e => rnd f md (.fin s m (e + n))
  | x => fpConv f md x

/-- ORD_KEY on an f32 pattern (R187). -/
def ordKey (x : Nat) : Nat :=
  let x := x % 2 ^ 32
  if x < 2 ^ 31 then x + 2 ^ 31 else 2 ^ 32 - 1 - x

end Sys2Proof.Machine
end

