-- ==== Sys2Proof/Machine/Exact.lean ====
section
/-! DEFINITION. The exact accumulator (R193 to R195). -/

namespace Sys2Proof.Machine

/-- Bit weights of the EA's flags (R193). -/
def eaNonempty : Nat := 390
def eaNzall : Nat := 389
def eaNovf : Nat := 388
def eaPovf : Nat := 387
def eaNinf : Nat := 386
def eaPinf : Nat := 385
def eaNan : Nat := 384

/-- The initial EA: value 0, NZALL set (R193). -/
def eaInit : EA := BitVec.ofNat 512 (2 ^ 389)

/-- FIX as a signed number (R193). -/
def eaFix (a : EA) : Int := signedN 384 a.toNat

/-- A flag of an EA. -/
def eaFlag (a : EA) (i : Nat) : Bool := a.getLsbD i

/-- An EA from its flags (bits 390:384 as a number) and FIX modulo 2^384. -/
def eaMk (flags : Nat) (fix : Int) : EA := BitVec.ofNat 512 (flags % 128 * 2 ^ 384 + wrapN 384 fix)

/-- The flags of an EA, bit 0 = NAN. -/
def eaFlags (a : EA) : Nat := bitsN a.toNat 384 7

/-- Bits 511:391 ignored, written as zero (R193). -/
def eaClean (a : EA) : EA := eaMk (eaFlags a) (eaFix a)

/-- floor(±m × 2^e × 2^192) (R194). -/
def eaFloor (neg : Bool) (m : Nat) (e : Int) : Int :=
  let v : Int := if neg then -(m : Int) else m
  let sh := e + 192
  if 0 ≤ sh then v * 2 ^ sh.toNat else v / 2 ^ (-sh).toNat

/-- Whether m × 2^e ≥ 2^190 (R194). -/
def eaBig (m : Nat) (e : Int) : Bool :=
  if e ≤ 190 then decide (2 ^ (190 - e).toNat ≤ m) else m != 0

/-- EA_ADD (R194). -/
def eaAdd (a : EA) (x : Fp) : EA :=
  let fl := eaFlags a ||| 64
  match x with
  | .nan _ => eaMk ((fl &&& 95) ||| 1) (eaFix a)
  | .inf s => eaMk ((fl &&& 95) ||| (if s then 4 else 2)) (eaFix a)
  | .fin s m e =>
    if m = 0 then eaMk (if s then fl else fl &&& 95) (eaFix a)
    else if eaBig m e then eaMk ((fl &&& 95) ||| (if s then 16 else 8)) (eaFix a)
    else eaMk (fl &&& 95) (eaFix a + eaFloor s m e)

/-- EA_MERGE (R194). -/
def eaMerge (a b : EA) : EA :=
  let fa := eaFlags a
  let fb := eaFlags b
  eaMk (((fa ||| fb) &&& 95) ||| (fa &&& fb &&& 32)) (eaFix a + eaFix b)

/-- EA_ROUND (R195). -/
def eaRound (f : Fmt) (md : Rm) (a : EA) : Nat × FFlags :=
  let nan := eaFlag a eaNan
  let pinf := eaFlag a eaPinf
  let ninf := eaFlag a eaNinf
  let povf := eaFlag a eaPovf
  let novf := eaFlag a eaNovf
  if nan || (pinf && ninf) || (povf && novf) then (fmtNaN f, raiseIf (!nan) flNV)
  else if pinf then (fmtInf f, 0)
  else if ninf then (fmtSign f + fmtInf f, 0)
  else if povf then rnd f md (.fin false 1 200)
  else if novf then rnd f md (.fin true 1 200)
  else
    let x := eaFix a
    let (r, fl) := rnd f md (.fin (x < 0) x.natAbs (-192))
    if r % fmtSign f = 0 then
      (if eaFlag a eaNonempty && eaFlag a eaNzall then fmtSign f else 0, fl)
    else (r, fl)

/-- The EA's memory image: 64 bytes (R193). -/
def eaBytes (a : EA) : List Byte := bytesOf 64 (eaClean a).toNat

/-- An EA read from memory (R193). -/
def eaOfBytes (bs : List Byte) : EA := eaClean (BitVec.ofNat 512 (numOf bs))

end Sys2Proof.Machine
end

