-- ==== Sys2Proof/Config.lean ====
section
/-! DEFINITION. What is fixed for one machine and what the spec leaves open. Opaque constants have no body: no proof
can see their value. -/

namespace Sys2Proof.Config

/-- The package is a YS4M-1536-4T module: the second tier is fitted (R13). Uninterpreted: a claim holds for both
products. Log 3. -/
opaque secondTier : Bool

/-- SM3 (R52 to R64), an external standard that the spec names and does not define. Log 4. -/
opaque sm3 : List Byte → List Byte

/-- SM2 signature verification: key, identifier, message, signature (R53, R58, R65). Log 4. -/
opaque sm2Verify : List Byte → List Byte → List Byte → List Byte → Bool

/-- SM2 signing by the device identity key drawn from a seed: seed, identifier, message; the signature has 64 bytes (R63). Log 4. -/
opaque sm2Sign : List Byte → List Byte → List Byte → BitVec 512

/-- The certificate chain that Turmal issued for the device (R62). Log 4. -/
opaque certChain : List Byte

/-- The hash of the Turmal public key built into the ROM (R57). Log 4. -/
opaque turmalKeyHash : List Byte

/-- What the security root's entropy source gives at its n-th draw: 32 bytes (R57, R58). Log 5. -/
opaque entropy : Nat → BitVec 256

/-- A free value: the n-th value that the spec leaves open where the machine goes on. Log 5. -/
opaque freeValue : Nat → BitVec 64

/-- The bits that a save slot holds for the inactive positions of an out-queue's groups, at the n-th free value (R115, R131): the spec
gives such a position no value. Log 5. -/
opaque freeGroup : Nat → BitVec 2048

/-- The fuse image that step 0 of the boot extends (R51), of the fuses that software can see: life-cycle state, key-slot hashes, revoked slots, owner
key hash and minimum SVNs. The identity seed is never exposed (R57). Log 4. -/
opaque fuseImage : Nat → List (BitVec 256) → List Bool → BitVec 256 → List Nat → List Byte

/-- The adjusted exact logit l′ of a race's winner that another package evaluated, by its packed key and the race's registers NCTX, NKEY0, NKEY1 and
INVT (R222, R228). Log 31. -/
opaque winnerLogit : Nat → BitVec 64 → BitVec 64 → BitVec 64 → Nat → BitVec 32

/-- The device's request UDP port (R48), the two MAC addresses of a frame sent on a port to an IP address (none: a PTP message on Layer 2), the address
of an Ethernet port, by port and address length in bytes, and the IP header without options that firmware has set for a port, a destination address and
a length (R44): the spec gives none of them. Log 91. -/
opaque requestPort : Nat
opaque macAddrs : Nat → Option (List Byte) → BitVec 96
opaque portAddr : Nat → Nat → List Byte
opaque ipHeader : Nat → List Byte → Nat → List Byte

/-- The wipe record of the n-th wipe: the capacities and the corrected errors of its write-verify pass (R61). Log 4. -/
opaque wipeRecord : Nat → List Byte

end Sys2Proof.Config
end

