-- ==== Sys2Proof/Machine/State.lean ====
section
/-! DEFINITION. The state of one package and what it is right after reset. Every field is plain data. A register file
indexed by a number (queues, race contexts, trace rings, ...) is an `NMap`: the entries that differ from the reset
value, sorted by number. -/

namespace Sys2Proof.Machine

/-- Why the machine stops. -/
inductive Fault where
  /-- The package has no power (R60, POWER_LOSS): raised by `step` until a power-on reset. The spec says that loss of
  power stops everything. Safe. -/
  | powerOff
  deriving DecidableEq, Repr

/-- Why the model gives no next state. -/
inductive Refusal where
  /-- No meaning yet: the arm of an instruction that is not modelled. Safe. -/
  | notModelled (mnemonic : String)
  /-- An event was named whose conditions do not hold, so it is no step of the machine in this state. Raised by the
  meanings of events that have conditions (moves of the ordering machine, units' steps). Safe. -/
  | notEnabled (event : String)
  deriving DecidableEq, Repr

/-- The outcome of one step of this machine. -/
abbrev Out (σ : Type) := Host.Outcome σ Fault Refusal

/-- A finite map from numbers, sorted by key; a missing key reads as the default its reader names. -/
abbrev NMap (α : Type) := List (Nat × α)

/-- The value at a key. -/
def NMap.get? {α : Type} : NMap α → Nat → Option α
  | [], _ => none
  | (k, v) :: t, n => if k = n then some v else NMap.get? t n

/-- The value at a key, or a default. -/
def NMap.getD {α : Type} (m : NMap α) (n : Nat) (d : α) : α := (NMap.get? m n).getD d

/-- Sets a key, keeping the order. -/
def NMap.set {α : Type} : NMap α → Nat → α → NMap α
  | [], n, v => [(n, v)]
  | (k, w) :: t, n, v =>
    if n < k then (n, v) :: (k, w) :: t
    else if n = k then (n, v) :: t
    else (k, w) :: NMap.set t n v

/-- Removes a key. -/
def NMap.erase {α : Type} : NMap α → Nat → NMap α
  | [], _ => []
  | (k, w) :: t, n => if k = n then NMap.erase t n else (k, w) :: NMap.erase t n

/-- Memory: (address, byte) pairs with strictly rising addresses; an unlisted byte reads 0 (the wipe of R61), and no
entry holds 0. -/
abbrev Memory := List Host.Cell

/-- The access paths of R160. -/
inductive Path where
  | ls | bt | cl | mx | rc
  deriving DecidableEq, Repr

/-- Where an element lies once its address is checked and translated (R139, R146, R147). -/
inductive Place where
  /-- A byte of this package's memory: location key (die × 2^52 + offset; second tier 9 × 2^52 + offset), home die. -/
  | mem (loc home : Nat)
  /-- A scratchpad byte: (die × 32 + cluster) × 2^24 + offset. -/
  | spad (key : Nat)
  /-- A byte of this package that a leaf names as a peer's (R27): location key and home die. -/
  | own (loc home : Nat)
  /-- A byte of another package: its id and the PA carried to it. -/
  | peer (pkg pa : Nat)
  /-- A trunk control window offset (R50). -/
  | window (off : Nat)
  deriving DecidableEq, Repr

/-- The atomic operations of R265. -/
inductive AtomOp where
  | add | swap | cas | and | or | xor | max | min | maxn | minn | addF32 | maxF32 | minF32 | ea
  deriving DecidableEq, Repr

/-- What an access in a path queue does when it performs. -/
inductive AccKind where
  /-- A write of bytes, lowest address first. -/
  | write (bytes : List Byte)
  /-- An atomic that returns nothing (RED forms, AMOEA, VAMO): operation, bytes, operand. -/
  | atomic (op : AtomOp) (n : Nat) (operand : BitVec 512)
  /-- A ticketed write (R177). -/
  | ticketed (bytes : List Byte) (ticket : Nat)
  /-- A read. It takes its value when it leaves (R162): at the latest where its syllable needs it, or earlier, out of order, as
  an `Early` value. -/
  | read
  /-- The elements of a copy, armed on a token: each reads its source and writes its destination (R160). Where it leaves, the token's engine
  starts. -/
  | move (tok : Option Nat)
  /-- A fragment of XSEND (R340): its bytes, the key of the sync word it counts into. -/
  | frag (bytes : List Byte) (sync : Nat)
  deriving DecidableEq, Repr

/-- The in-queue position that an element of VAMO.RET fills with its old value (R332): queue, the number of the syllable, element and
width. -/
structure Fill where
  q : Nat
  id : Nat
  elem : Nat
  w : Nat
  deriving DecidableEq, Repr

/-- An access that has been issued and has not left its path queue (R159, R160). -/
structure Access where
  path : Path
  place : Place
  va : Word
  size : Nat
  kind : AccKind
  rel : Bool
  acq : Bool
  dom : Bool
  /-- Elements of one vector syllable share a number; 0 for a scalar access. They leave in any order, or in theirs where
  `ordered` (R167). -/
  group : Nat
  ordered : Bool
  fill : Option Fill
  /-- The slot that issued it. -/
  slot : Nat
  /-- How many copies the strand had armed when it entered the stream: a release waits for those alone (R171). -/
  mark : Nat
  deriving DecidableEq, Repr

/-- An item of a strand's issue stream that has not left: an access, or a fence that still holds later ones. -/
inductive QItem where
  | acc (a : Access)
  /-- An atomic that has performed at its home die and leaves once the issuer's die has applied the counts `hc` (R166). -/
  | done (a : Access) (hc : List Nat)
  /-- FENCE with its scope and kind (R170); 0 load-load, 1 load-store, 2 store-store, 3 all; `mark` counts the copies armed
  before it. -/
  | fence (scope kind mark : Nat)
  /-- FENCEX: earlier path, later path (R175), and the copies armed before it. -/
  | fencex (p q : Path) (mark : Nat)
  /-- An acquire atomic on a peer page that has been sent: it leaves when its WDONE returns (R178). -/
  | acqWait (tag : Nat)
  deriving DecidableEq, Repr

/-- A write that waits in an apply buffer (R163): its number, source die, vector clock, place and bytes. -/
structure WriteMsg where
  id : Nat
  src : Nat
  vc : List Nat
  loc : Nat
  home : Nat
  bytes : List Byte
  deriving DecidableEq, Repr

/-- An access that left its path queue and has not been answered (R416). -/
structure Outstanding where
  tag : Nat
  path : Path
  va : Word
  place : Place
  xsend : Bool
  /-- The ticket of a ticketed write on a peer page, which performs when its WDONE arrives (R177). -/
  ticket : Option Nat
  /-- Whether the request is an atomic: an answer without an old value then reports poison (R29). -/
  atomic : Bool
  fill : Option Fill
  /-- The operation and operand of an atomic. -/
  op : Option (AtomOp × BitVec 512)
  /-- Its failure has been taken and its flit sent again: what waits for the access counts it as answered (R416). -/
  again : Bool
  /-- The counts of a write or an atomic on a page of this package's own id, and the atomic's old value: it is answered once every die has applied
  them (R27, R178). No counts where an answer comes back. -/
  clock : List Nat := []
  old : Nat := 0
  deriving DecidableEq, Repr

/-- What came back for a request to another package: bytes, a WDONE without an old value (R29: poison), or a failure (R36,
R37). -/
inductive Reply where
  | bytes (l : List Byte)
  | noValue
  | failed
  deriving DecidableEq, Repr

/-- A request that waits for another package: the slot and element that issued it (slot 8 + k: copy token k; 16 and above: collectives),
its tag, and what came back (R178, R330). A convoy that waits issues again and finds its answers here. A slot number raised by 32
marks a request that a fault put aside: it stands for its access when the strand resumes (R36). An answer with no tag to wait for is
what a syllable of a convoy that has not retired has already done outside the strand; issued again, the syllable does not do it twice. -/
structure Answer where
  slot : Nat
  elem : Nat
  tag : Nat
  data : Option Reply
  /-- Whether the request is an atomic, and the convoy that asked. -/
  atomic : Bool
  pc : Nat
  /-- A copy's element on a page of this package's own id: it is answered once every die has applied these counts (R27, R178). -/
  clock : List Nat := []
  /-- The SEQ with which a collective's fragment goes again that another package turned away (R379). -/
  seq : Option Nat := none
  deriving DecidableEq, Repr

/-- A late failure that has reached the strand and has not been taken (R416). -/
structure LateFail where
  cause : Nat
  eval : Word
  deriving DecidableEq, Repr

/-- An element group of a queue (R128, R131): 2048 bits, and the same bits' marks: every bit of a position that its writer
marked active is set. Log 12. `id` names the VAMO.RET whose old values stand in it, `wait` the elements of it that have not been
answered (R332). -/
structure Group where
  data : BitVec 2048
  act : BitVec 2048
  id : Nat
  wait : List Nat
  deriving DecidableEq, Repr

/-- What a copy token's engine is doing (R154, R336). -/
inductive CopyKind where
  | copy | gathsp | xfetch
  deriving DecidableEq, Repr

/-- A copy token: TOKEXP and TOKLAND (R154), the copy armed on it (element size, row numbers, the elements that have landed above the
landed prefix), and the element that stopped it (R155). -/
structure Token where
  busy : Bool
  expected : Nat
  pend : Bool
  landed : Nat
  kind : CopyKind
  dst : Word
  src : Word
  unit : Nat
  rows : List (Option Nat)
  done : List Nat
  cause : Nat
  eval : Word
  /-- Words of rows that have been read ahead of the rest of their row, with their poison (R176): by row × 2048 + word. -/
  got : NMap (List Byte × Bool)
  /-- An instruction has taken the fault of the PEND token: the copy restarts when the record resumes (R155). -/
  taken : Bool
  /-- The number of the copy among those that the strand armed. -/
  serial : Nat
  /-- Its start has left the BT path queue: the engine works on it (R160, R169). -/
  started : Bool
  /-- The planes on which a request of it failed: the restarted copy goes on others (R155). -/
  avoid : List Nat
  deriving DecidableEq, Repr

/-- An idle token (R106). -/
def Token.idle : Token :=
  { busy := false, expected := 0, pend := false, landed := 0, kind := .copy, dst := 0, src := 0, unit := 1,
    rows := [], done := [], cause := 0, eval := 0, got := [], taken := false, serial := 0, started := true, avoid := [] }

/-- A type slot: type code and rounding mode (R259). -/
structure TypeSlot where
  ty : BitVec 4
  mode : BitVec 2
  deriving DecidableEq, Repr

/-- The value kind of an index partition (R211). -/
inductive XKind where
  | ea | i64
  deriving DecidableEq, Repr

/-- An index entry: key, and its value (an EA image, or an i64 in bits 63:0). -/
structure XEntry where
  key : Word
  val : EA
  deriving DecidableEq, Repr

/-- The repeat state of R136. -/
structure Repeat where
  active : Bool
  conv : Nat
  kidx : Nat
  rpc : Word
  trip : Nat
  map0 : Nat
  map1 : Nat
  nstg : Nat
  rbase : Nat
  rsize : Nat
  deriving DecidableEq, Repr

/-- Repeat state 0 (R106). -/
def Repeat.zero : Repeat :=
  { active := false, conv := 0, kidx := 0, rpc := 0, trip := 0, map0 := 0, map1 := 0, nstg := 0, rbase := 0, rsize := 0 }

/-- A strand's race binding and candidate set (R367). -/
structure RaceBind where
  bound : Bool
  ctx : Nat
  shard : Nat
  tag : Nat
  /-- Pairs (H as f32 bits, token), best first. -/
  cands : List (Nat × Nat)
  deriving DecidableEq, Repr

/-- A value that a load took before its turn (R130, R133, R169): how many convoys ahead of the one that issues next, the addresses of the convoys on
the way there, slot, element, address and bytes. -/
structure Early where
  ahead : Nat
  path : List Word := []
  slot : Nat
  elem : Nat
  va : Word
  bytes : List Byte
  deriving DecidableEq, Repr

/-- The continuation record a strand runs, with what the scheduler knows of it (R91, R98, R101, R102). -/
structure Record where
  queue : Nat
  launch : Nat
  tenant : Nat
  prio : Nat
  share : Nat
  aff : Nat
  gang : Bool
  gsize : Nat
  code : Word
  frame : Word
  first : Word
  count : Nat
  args : List Word
  /-- The parent cell J and, once dispatched, the child cell C (R98). -/
  parent : Nat
  child : Option Nat
  resume : Bool
  /-- The working cycle at which it became ready, and the order of its becoming ready (R103, R104). -/
  readyAt : Nat
  order : Nat
  /-- The working cycle at which a die first passed a gang over, by die (R103). -/
  passed : NMap Nat
  /-- What die 0 had applied when it read the launch packet: the first convoy acquires it (R172). -/
  clock : List Nat := []
  /-- Save slot numbers by gang rank, on `svDie` (R115). -/
  slots : List Nat
  svDie : Nat
  /-- The cluster (die × 32 + cluster) where it last ran (R102). -/
  cluster : Option Nat
  parked : Bool
  deriving DecidableEq, Repr

/-- What a strand slot is doing. -/
inductive Run where
  /-- No record, or a trunk strand that has not been started. -/
  | idle
  | running
  /-- Pre-emption has been decided: the strand issues no convoy and drains (R114). -/
  | draining
  /-- Stopped at a fault, waiting for a save slot or for the fault ring (R112, R113). -/
  | stopped
  /-- A trunk strand that faulted in its handler (R297): only a package reset restarts it. -/
  | dead
  deriving DecidableEq, Repr

/-- The pending budget and the budget in force: count code and width code (R122, R268). -/
structure Budget where
  ncode : BitVec 3
  wcode : BitVec 2
  deriving DecidableEq, Repr

/-- The program-visible state of one strand (R121, R300) and what the core holds for it. -/
structure Strand where
  run : Run
  trunk : Bool
  /-- Strand number: die × 512 + core × 4 + slot; 4 × core on the trunk die (R74, R121). -/
  sid : Nat
  rec_ : Record
  /-- Gang rank (R100). -/
  rank : Nat
  pc : Word
  /-- Where the strand goes when the convoy in progress retires. -/
  npc : Word
  regs : List Word
  preds : List Pred
  vregs : List (List Word)
  iq : List (List Group)
  oq : List (List Group)
  eas : List EA
  /-- Bit k: ea k is poisoned (R68). -/
  eaPois : BitVec 4
  fds : List (BitVec 32)
  toks : List Token
  vt0 : TypeSlot
  vt1 : TypeSlot
  vl : Nat
  maxvl : Nat
  vstart : Nat
  /-- The slot whose syllable starts at VSTART (R111); 4: the one that EPC names. -/
  vsyl : Nat
  vhwm : Nat
  budget : Budget
  pending : Option Budget
  dirty : BitVec 56
  /-- Registers whose copy stands in the record's save slot (R115). -/
  kept : BitVec 56
  cause : Word
  epc : Word
  eval : Word
  th : Bool
  tvec : Word
  barw : Bool
  bargen : BitVec 32
  barAddr : Word
  fflags : BitVec 5
  spbound : Word
  rpt : Repeat
  /-- The sixteen words that a repeat frame in progress has captured (R134, R137); none outside a frame, and none after a restore until
  they have been captured again. -/
  cap : List (BitVec 32)
  xkind : XKind
  xents : List XEntry
  race : RaceBind
  /-- Accesses of the convoy in progress that enter the path queue when it retires (R161). -/
  wbuf : List QItem
  /-- The issue stream: items that have not left, oldest first. -/
  pq : List QItem
  /-- Trace records that TRMARK writes when the convoy retires (R77): code and payload. -/
  marks : List (Nat × List Byte)
  /-- The scalar registers before the race syllables of the convoy in progress took effect (R364); empty where none has. -/
  beforeRace : List Word
  /-- Loads that performed before their convoy issued. -/
  early : List Early
  /-- The groups of VAMO.RET syllables whose elements entered their path queue before their convoy retired: queue and group. -/
  olds : List (Nat × Group)
  /-- Flags that old values have brought since the convoy in progress began: they belong to convoys that have retired (R185, R332). -/
  brought : BitVec 5
  /-- Where the syllable of a convoy goes on that had committed elements when a late failure took its VSTART (R111, R416). -/
  resumeAt : Nat
  /-- How many syllables a run ahead passes at most before its syllable waits for the next try. -/
  lookFuel : Nat
  /-- The last number given to the accesses of one vector syllable (R331). -/
  nextGrp : Nat
  /-- Groups that an access syllable ahead has pushed before its turn (R132): convoys ahead and slot. -/
  fed : List (Nat × Nat)
  /-- Copies armed, and VAMO.RET syllables issued, so far. -/
  armed : Nat
  nextFill : Nat
  outst : List Outstanding
  answers : List Answer
  late : List LateFail
  /-- The working cycle of its dispatch or restore (R114), and the dispatch order (R114). -/
  since : Nat
  dispOrder : Nat
  /-- The kind of stop when `run = stopped`: faulted itself, or stopped with its gang (R109), and whether the
  kind-3 report has been made (R113). -/
  faulted : Bool
  reported : Bool
  /-- The stop took a late failure (R416): the next one is taken after the resume. -/
  lateStop : Bool
  /-- Faulting syllable index and element index for the fault record (R112). -/
  fslot : Nat
  felem : Nat
  /-- TSC of the die when the fault was detected (R112). -/
  ftsc : Nat
  /-- The order of its stopping, for R113. -/
  stopOrder : Nat
  /-- The four-cycle window, plus 1, for whose rest YIELD has given up the issue slots (R290). -/
  yielded : Nat
  deriving DecidableEq, Repr

/-- The record of an idle slot. -/
def Record.none : Record :=
  { queue := 0, launch := 0, tenant := 0, prio := 0, share := 0, aff := 255, gang := false, gsize := 0, code := 0,
    frame := 0, first := 0, count := 0, args := [0, 0, 0], parent := 0, child := Option.none, resume := false, readyAt := 0,
    order := 0, passed := [], slots := [], svDie := 0, cluster := Option.none, parked := false }

/-- The initial EA: value 0, NZALL set (R193, R106). -/
def EA.init : EA := 1#512 <<< 389

/-- SPBOUND at dispatch: BASE 0, LIMIT 0x100_0000 (R141). -/
def spboundFull : Word := 0x0100000000000000#64

/-- An idle strand with every register as at dispatch (R106): registers 0, EAs initial, tokens idle, SPBOUND full. -/
def Strand.idle (sid : Nat) (trunk : Bool) : Strand :=
  { run := .idle, trunk := trunk, sid := sid, rec_ := Record.none, rank := 0, pc := 0, npc := 0,
    regs := List.replicate 32 0, preds := List.replicate 8 0, vregs := List.replicate 56 [],
    iq := List.replicate 4 [], oq := List.replicate 4 [], eas := List.replicate 4 EA.init, eaPois := 0,
    fds := List.replicate 16 0, toks := List.replicate 8 Token.idle, vt0 := ⟨0, 0⟩, vt1 := ⟨0, 0⟩, vl := 0,
    maxvl := 0, vstart := 0, vsyl := 4, vhwm := 0, budget := ⟨0, 2⟩, pending := none, dirty := 0, kept := 0, cause := 0, epc := 0,
    eval := 0, th := false, tvec := 0, barw := false, bargen := 0, barAddr := 0, fflags := 0,
    spbound := spboundFull, rpt := Repeat.zero, cap := [], xkind := .ea, xents := [],
    race := { bound := false, ctx := 0, shard := 0, tag := 0, cands := [] }, wbuf := [], pq := [], marks := [], beforeRace := [], early := [], olds := [],
    brought := 0, resumeAt := 0, lookFuel := 320, nextGrp := 0, fed := [], armed := 0, nextFill := 1, outst := [], answers := [],
    late := [], since := 0, dispOrder := 0, faulted := false, reported := false, lateStop := false, fslot := 0, felem := 0, ftsc := 0,
    stopOrder := 0, yielded := 0 }

/-- A plane of a strand's matrix rows (R198, R201, R348). -/
structure MxPlane where
  /-- Blocks of a dense plane by number: column × BP + position; each a 64-byte block. -/
  dense : List (BitVec 512)
  cursor : Nat
  fresh : Bool
  sparse : Bool
  /-- Width of the first block; 0 = empty. -/
  width : Nat
  bp : Nat
  n : Nat
  m : Nat
  kgroups : Nat
  /-- Sparse rows: for each column, its payload blocks and its kept dense positions in order. -/
  rows : List (List (BitVec 512) × List Nat)
  deriving DecidableEq, Repr

/-- An empty fresh plane (R199). -/
def MxPlane.empty : MxPlane :=
  { dense := [], cursor := 0, fresh := true, sparse := false, width := 0, bp := 0, n := 0, m := 0, kgroups := 0, rows := [] }

/-- What one strand's record holds of its cluster's array (R198 to R200), keyed by the record. -/
structure MxHold where
  /-- The child cell of the holding record and its gang rank. -/
  owner : Nat
  rank : Nat
  slices : BitVec 8
  grant : Nat
  shadow : MxPlane
  active : MxPlane
  /-- Accumulator cells by row × 512 + column; a missing cell is in the initial state. -/
  acc : NMap EA
  accPois : List Nat
  deriving DecidableEq, Repr

/-- The kind of a launch (R91). -/
inductive LaunchType where
  | direct | indirect | child | marker
  deriving DecidableEq, Repr

/-- A consumed launch that has not completed (R94 to R99). `id` is its launch id in bits 31:0 and, above them, the number of times that EN had been
set when it was consumed: an id is unique within one such period (R88, R93). -/
structure Launch where
  id : Nat
  ty : LaunchType
  prio : Nat
  share : Nat
  gang : Bool
  gsize : Nat
  gran : Nat
  aff : Nat
  entry : Word
  countW : Word
  dep : Nat
  plink : Nat
  crec : Word
  args : List Word
  ready : Bool
  /-- Element count E once known; next record index; root cell once allocated. -/
  e : Nat
  next : Nat
  root : Option Nat
  /-- Elements of the records that were dispatched (R108). -/
  dispatched : Nat
  cancelled : Bool
  killed : Bool
  status : Nat
  /-- The root cell has reached zero, or the launch has no records: it can complete (R97, R99). -/
  finished : Bool
  /-- What die 0 had applied when it read the packet (R172). -/
  clock : List Nat := []
  deriving DecidableEq, Repr

/-- A work queue's registers and launches (R85, R87, R94, R95). -/
structure WorkQueue where
  base : Word
  size : Nat
  en : Bool
  tail : Nat
  head : Nat
  stop : Nat
  nextId : Nat
  comp : Nat
  err : Word
  /-- How often EN has been set (R88). -/
  epoch : Nat
  live : List Launch
  /-- Completed ids above `comp` (R95). -/
  doneIds : List Nat
  deriving DecidableEq, Repr

/-- A queue at reset (R87): of the two reset values that R87 gives WQCTL the model takes SIZE 6 of the field table (DESIGN CHOICE, log 101). -/
def WorkQueue.reset : WorkQueue :=
  { base := 0, size := 6, en := false, tail := 0, head := 0, stop := 0, nextId := 0, comp := 0, err := 0, epoch := 0, live := [],
    doneIds := [] }

/-- What a join cell does when its count reaches zero (R98). -/
inductive Cont where
  /-- Not yet set by a DONE. -/
  | unset
  /-- The root cell of a launch: complete it. -/
  | complete (queue id : Nat)
  /-- Subtract 1 from a parent cell. -/
  | subParent (cell : Nat)
  /-- Enqueue a successor record. -/
  | enqueue (r : Record)
  deriving DecidableEq, Repr

/-- A live join cell (R98). -/
structure Cell where
  count : Nat
  tenant : Nat
  isChild : Bool
  cont : Cont
  deriving DecidableEq, Repr

/-- A parked or waiting save slot's holder: the saved strand (R115). -/
structure Saved where
  strand : Strand
  /-- True while the record is parked after a fault and may be resumed or killed (R109). -/
  parked : Bool
  deriving DecidableEq, Repr

/-- The dispatcher of one die (R105, R103). -/
structure Dispatcher where
  preq : Nat
  ageq : Nat
  fltBase : Word
  fltSize : Nat
  fltEn : Bool
  fltHead : Nat
  fltTail : Nat
  fltLost : Nat
  svBase : Word
  svLog : Nat
  svCount : Nat
  lanedis : NMap (BitVec 8)
  arrdis : NMap (BitVec 8)
  /-- Round-robin state per priority: tenant visited last and its dispatches in the current visit (R103). -/
  rr : NMap (Nat × Nat)
  /-- Reserved clusters (0 to 31) for passed-over gang records: cluster and the record's order number (R103). -/
  reserved : List (Nat × Nat)
  saved : NMap Saved
  deriving DecidableEq, Repr

/-- A dispatcher at reset (R105). -/
def Dispatcher.reset : Dispatcher :=
  { preq := 0, ageq := 0, fltBase := 0, fltSize := 0, fltEn := false, fltHead := 0, fltTail := 0, fltLost := 0,
    svBase := 0, svLog := 0, svCount := 0, lanedis := [], arrdis := [], rr := [], reserved := [], saved := [] }

/-- The trace ring of a die: TRBASE, TRCTL, TRHEAD, TRTAIL, TRDROP and TRLOST (R81). -/
structure TraceRing where
  base : Word
  snap : Bool
  thr : Bool
  coll : Bool
  user : Bool
  en : Bool
  size : Nat
  head : Nat
  tail : Nat
  drop : Nat
  lost : Nat
  /-- Records lost per source (SRC word) that no LOST record has reported yet (R78). -/
  lostAt : NMap Nat
  deriving DecidableEq, Repr

/-- A trace ring at reset (R81): of the two reset values that R81 gives TRCTL the model takes SIZE 10 of the field table (DESIGN CHOICE, log 101). -/
def TraceRing.reset : TraceRing :=
  { base := 0, snap := false, thr := false, coll := false, user := false, en := false, size := 10, head := 0, tail := 0,
    drop := 0, lost := 0, lostAt := [] }

/-- A die's timestamp counter: accumulator in 2^-32 ns, TSINCR, and what a negative TSSTEP still withholds, in 2^-32 ns
(R70, R71). -/
structure Clock where
  acc : Nat
  incr : Word
  withhold : Nat
  addNs : Nat
  deriving DecidableEq, Repr

/-- A clock at reset (R70, R81). -/
def Clock.reset : Clock := { acc := 0, incr := 0x1AAAAAAAB#64, withhold := 0, addNs := 0 }

/-- One record of a race context's evaluation log (R225). -/
structure LogRec where
  t : Nat
  h : Nat
  tlo : Nat
  thi : Nat
  blo : Nat
  bhi : Nat
  viol : Bool
  deriving DecidableEq, Repr

/-- A race context (R215, R224). f32 values are bit patterns. -/
structure RaceCtx where
  st : Nat
  greedy : Bool
  empty : Bool
  bviol : Bool
  acause : Nat
  tenant : Nat
  assigned : Bool
  nkey0 : Word
  nkey1 : Word
  nctx : Word
  invt : Nat
  margin : Nat
  topk : Nat
  ref : Nat
  nh : Nat
  vocab : Nat
  btab : Word
  atab : Word
  leader : Nat
  active : Word
  /-- The shard mask of RCINIT, restored at phase B (R230). -/
  mask : Word
  amaxValid : Bool
  amax : Nat
  /-- The TOPK largest packed keys of phase A, largest first (R230). -/
  kept : List Nat
  win : Nat
  plo : Nat
  phi : Nat
  log : List LogRec
  home : Nat
  hosts : Bool
  member : Bool
  nmem : Nat
  rblk : Word
  zevlo : EA
  zevhi : EA
  zunlo : EA
  zunhi : EA
  /-- Counts of +∞ terms held by ZEVHI and ZUNHI (R417). -/
  infEv : Nat
  infUn : Nat
  bounded : List Nat
  /-- What RCBOUND added for a bounded token: (token, (blo, bhi)), while it stands in the unevaluated sums. -/
  added : NMap (Nat × Nat)
  evaluated : List Nat
  /-- tlo and thi of the leader's token (R222), from which PLO and PHI come (R228). -/
  leadLo : Nat
  leadHi : Nat
  epoch : Nat
  /-- FINAL, while a member merges its sums into the remote block (R232). -/
  merging : Option Nat
  deriving DecidableEq, Repr

/-- A race context at reset (R215). -/
def RaceCtx.reset : RaceCtx :=
  { st := 4, greedy := false, empty := false, bviol := false, acause := 0, tenant := 0, assigned := false, nkey0 := 0,
    nkey1 := 0, nctx := 0, invt := 0, margin := 0x7F800000, topk := 0, ref := 0, nh := 0, vocab := 0, btab := 0, atab := 0,
    leader := 0, active := 0, mask := 0, amaxValid := false, amax := 0, kept := [], win := 0xFFFFFFFF, plo := 0, phi := 0,
    log := [], home := 0, hosts := false, member := false, nmem := 0, rblk := 0, zevlo := EA.init, zevhi := EA.init,
    zunlo := EA.init, zunhi := EA.init, infEv := 0, infUn := 0, bounded := [], added := [], evaluated := [], leadLo := 0, leadHi := 0,
    epoch := 0, merging := none }

/-- A text stream of the detokeniser (R47, R239). -/
structure Stream where
  opened : Bool
  ended : Bool
  tenant : Nat
  bind : StreamBinding
  bseq : Nat
  pending : List Byte
  errors : Nat
  deriving DecidableEq, Repr

/-- A text frame handed to a MAC (R45). -/
structure TextFrame where
  port : Nat
  stream : Nat
  tenant : Nat
  fEnd : Bool
  fAbort : Bool
  fResent : Bool
  fGone : Bool
  bseq : Nat
  text : List Byte
  /-- The stream's binding when it was sent: destination address, UDP ports, VLAN (R47). -/
  bind : StreamBinding
  /-- The bytes of the frame after its MAC addresses. -/
  wire : List Byte
  deriving DecidableEq, Repr

/-- A byte table descriptor (R239). -/
structure DetTable where
  base : Nat
  ntok : Nat
  pool : Nat
  deriving DecidableEq, Repr

/-- A tenant function (R66, R67): 0 free, 1 active, 2 resetting; `destroy` while a destroy waits for its reset. -/
structure Tenant where
  phase : Nat
  destroy : Bool
  vacated : Bool
  contexts : List Nat
  streams : List Nat
  filter : List (List Byte)
  /-- Receive ring: datagrams with their Ethernet timestamps (R48). -/
  ring : List (Datagram × Nat)
  /-- Frames owned by the tenant (frame owner table, R118), as 64 KiB frame keys (location / 2^16). -/
  frames : List Nat
  /-- Requests that are answered when the reset in progress completes (R67): port, request header bytes of the reply. -/
  waiting : List (Nat × List Byte)
  deriving DecidableEq, Repr

/-- A free tenant. -/
def Tenant.free : Tenant :=
  { phase := 0, destroy := false, vacated := false, contexts := [], streams := [], filter := [], ring := [], frames := [],
    waiting := [] }

/-- A batch object that firmware keeps (R118): tenant of each row; where the live-row mask (bit r of row r) and the 8-byte step counter stand in
memory, as location keys; and for each resetting tenant the step counter at its vacated point. Log 58. -/
structure Batch where
  rows : List Nat
  live : Nat
  steps : Nat
  vacatedAt : NMap Nat
  deriving DecidableEq, Repr

/-- A flit that was sent and is not acknowledged, or is held (R34, R36). -/
structure SentFlit where
  flit : Flit
  tries : Nat
  used : List Nat
  held : Bool
  /-- The flit waits at its source for a plane (R34). -/
  due : Bool
  /-- The strand and outstanding-access tag it serves, or none. -/
  sid : Nat
  tag : Nat
  va : Word
  /-- The vector syllable of the strand whose element it carries (R331), or 0. -/
  group : Nat
  /-- The access that waits for its WDONE, once the flit is held (R36). -/
  out : Option Outstanding
  deriving DecidableEq, Repr

/-- The source side of a stream (R32). -/
structure TxStream where
  key : StreamKey
  next : Nat
  unacked : List SentFlit
  /-- Acknowledged flits of vector stores whose WDONE has not come (R331). -/
  acked : List SentFlit
  deriving DecidableEq, Repr

/-- The destination side of a stream: sender package, source and destination die, path; all SEQ below `low` accepted, and
the accepted flits above it that wait for delivery in order (R35, R38). Numbers are not reduced modulo 2^16. -/
structure RxStream where
  srcPkg : Nat
  srcDie : Nat
  dstDie : Nat
  path : Nat
  low : Nat
  waiting : List Flit
  /-- Flits of collectives that were turned away, which come again with their SEQ (R379). -/
  again : List Nat
  deriving DecidableEq, Repr

/-- An answer that this package owes (R39, R178): the request, the data, and the counts that every die must have applied. -/
structure Owed where
  req : Flit
  data : List Byte
  clock : List Nat
  deriving DecidableEq, Repr

/-- A collective whose step-start record is due (R76, R381): the requests that have still to leave, die, SRC, sync word, generation, kind and
participant. -/
structure CollStep where
  tags : List Nat
  die : Nat
  src : Nat
  sync : Nat
  gen : Nat
  kind : Nat
  part : Nat
  deriving DecidableEq, Repr

/-- The fabric (R24 to R42). -/
structure Fabric where
  pkgId : Nat
  tmo : Nat
  held : Bool
  en : Bool
  planeEn : BitVec 48
  planeUp : BitVec 48
  /-- The plane after the one chosen last, by source die (R33). -/
  rotor : NMap Nat
  tx : List TxStream
  rx : List RxStream
  /-- Flits handed to the planes or bridges, oldest first. -/
  outbox : List Flit
  /-- Protocol-error counters by port (6 × (die − 1) + j; 100 + die for a memory controller) (R29, R37). -/
  protoErr : NMap Nat
  sent : NMap Nat
  accepted : NMap Nat
  bridgesDown : List (Nat × Nat)
  nextTag : Nat
  /-- Acknowledgements and refusals that wait at their die for a plane (R34). -/
  due : List (Nat × Flit)
  owed : List Owed
  starts : List CollStep
  deriving DecidableEq, Repr

/-- Ethernet (R43 to R49, R73): counters per port and tenant, frames for firmware, text frames, PTP messages and management replies sent, as frames after
their MAC addresses, and transmit timestamps returned. -/
structure Ethernet where
  discards : NMap Nat
  tenantDiscards : NMap Nat
  sentFrames : NMap Nat
  text : List TextFrame
  toFirmware : List (Nat × List Byte)
  ptpRx : List (Nat × List Byte × Nat)
  ptpTx : List (Nat × List Byte)
  ptpTxStamps : List (Nat × Nat)
  /-- Ports set to two-step mode by firmware (R73). -/
  twoStep : List Nat
  replies : List (Nat × List Byte)
  /-- Requests for text again that wait for bytes of an echo ring on another package: stream, BSEQ, LEN (R47). -/
  resends : List (Nat × Nat × Nat)
  deriving DecidableEq, Repr

/-- A measurement log record (R52): register, type, digest, and the value where it is no digest. -/
structure MeasRec where
  n : Nat
  ty : Nat
  digest : BitVec 256
  value : List Byte
  deriving DecidableEq, Repr

/-- A firmware image as it stands in the boot flash (R53). -/
structure Image where
  header : List Byte
  body : List Byte
  deriving DecidableEq, Repr

/-- How far the boot of R51 has come: not begun since the reset, ended at a failed check (R55) or in the
decommissioned state (R57), or complete. -/
inductive Boot where
  | pending | halted | done
  deriving DecidableEq, Repr

/-- The security root, fuses and boot (R51 to R65). -/
structure Security where
  boot : Boot
  wiped : Bool
  runFw : Bool
  failStage : Nat
  failCause : Nat
  lifeCycle : Nat
  /-- Fused key-slot hashes, revoked slots, owner key hash, minimum SVN per stage, identity seed (R54, R57). -/
  slotHash : List (BitVec 256)
  revoked : List Bool
  ownerHash : BitVec 256
  minSvn : List Nat
  seed : BitVec 256
  meas : List (BitVec 256)
  measDig : List Word
  log : List MeasRec
  lcNonce : BitVec 256
  priorNonce : BitVec 256
  /-- The request area of trunk SRAM that survives reset (R58). -/
  token : Option (List Byte)
  draws : Nat
  quotes : Nat
  /-- The images of stages 1 to 4 in the boot flash, and the last accepted owner counter, which firmware keeps there (R53, R65). -/
  flash : List Image
  ownerCounter : Nat
  deriving DecidableEq, Repr

/-- The power controller (R16 to R23). -/
structure Power where
  shut : Bool
  trip : Bool
  curBub : Nat
  force : Bool
  minBub : Nat
  limitW : Nat
  /-- A trip is in force (R23); it applies b = 7 at the next frame boundary. -/
  tripNow : Bool
  /-- The hold begins at the next frame boundary. -/
  shutNext : Bool
  /-- A trip has been in force since the last frame boundary: b = 7 applies at the next one (R23). -/
  tripSeen : Bool
  /-- A trip has applied b = 7 at the boundary that ended the interval: the interval's rule does not change it (R22, R23). -/
  tripEnd : Bool
  /-- The present cycle is a bubble (R16). -/
  inBubble : Bool
  cycleInFrame : Nat
  bubblesDone : Nat
  frame : Nat
  working : Nat
  /-- Trunk half-cycles: 5 per arithmetic cycle (R3, R14). -/
  trunkHalf : Nat
  deriving DecidableEq, Repr

/-- The snapshot registers (R82, R83). -/
structure Snapshot where
  num : Nat
  miss : Nat
  valid : Bool
  arm : Bool
  at_ : Word
  /-- Triggers that fell in a bubble and latch in the first working cycle after it (R20). -/
  pend : Nat
  /-- Latched values by trunk control window offset. -/
  latched : NMap Word
  deriving DecidableEq, Repr

/-- A queued TLB invalidation (R150): the value written, and the applied counts of the writer's die when it left: they count every write that
the strand made before it. -/
structure TlbInv where
  v : Word
  counts : List Nat
  deriving DecidableEq, Repr

/-- A TLB entry: cluster (die × 32 + cluster; 288 + core for trunk cores), tenant (64 for trunk), virtual page base, leaf. -/
structure TlbEntry where
  where_ : Nat
  tenant : Nat
  vbase : Nat
  leaf : Word
  deriving DecidableEq, Repr

/-- The ordering machine's package-wide parts (R159). -/
structure Ordering_ where
  views : List Memory
  spad : Memory
  /-- Apply buffer of each die. -/
  applyBuf : List (List WriteMsg)
  /-- Applied counts A d e. -/
  applied : List (List Nat)
  nextWrite : Nat
  /-- Position in the coherence order, by write number, once the home die has applied it (R165). -/
  pos : NMap Nat
  nextPos : Nat
  /-- For each die, the write whose value the view holds, by location. -/
  held : List (NMap Nat)
  nextTicket : Nat
  /-- The lowest ticket that has not performed, and tickets given up by a convoy that did not retire. -/
  performed : Nat
  dead : List Nat
  /-- Poisoned granules: base location keys of memory, of scratchpads, and of the copies in a die's L2 (R68, R138). -/
  poison : List Nat
  spadPoison : List Nat
  l2Poison : List (Nat × Nat)
  deriving DecidableEq, Repr

/-- Which step comes next: queued events and moves, the choices that the spec leaves to the machine, and whether the
machine's own moves are made as soon as they can. -/
structure Sched where
  agenda : List (Instr × Arg)
  picks : List Nat
  eager : Bool
  deriving DecidableEq, Repr

/-- A convoy in progress: the parts of the machine that a syllable may change, as they stood at its start, so that a
convoy that faults retires nothing (R111); its words, and whether it is a captured convoy of a frame. -/
structure Convoy where
  words : List (BitVec 32)
  replay : Bool
  strands : NMap Strand
  ord : Ordering_
  disp : NMap Dispatcher
  queues : NMap WorkQueue
  cells : NMap Cell
  nextCell : Nat
  ready : List Record
  orderNo : Nat
  mx : NMap (List MxHold)
  race : NMap RaceCtx
  raceOps : Nat
  rot : NMap (NMap Word)
  streams : NMap Stream
  dettab : NMap DetTable
  trace : NMap TraceRing
  clocks : NMap Clock
  snap : Snapshot
  power : Power
  fabric : Fabric
  eth : Ethernet
  sec : Security
  tenants : NMap Tenant
  errors : List (Nat × Nat × Nat)
  tnroot : NMap Word
  tkroot : Word
  tlb : List TlbEntry
  tlbInv : List TlbInv
  tweight : NMap Nat
  deriving DecidableEq, Repr

/-- A convoy that waits (R126, R127): the place in the order of its syllables from which it goes on, its words, and the strand and its array
holding as they stood at its start. A stop of the strand in the wait takes it at that start. -/
structure Hold where
  pos : Nat
  words : List (BitVec 32)
  replay : Bool
  start : Strand
  mx : List MxHold
  deriving DecidableEq, Repr

/-- A run ahead of a strand in progress (R130, R132): how many convoys ahead it stands and the addresses of the convoys from the first one on, whether it
looks for an atomic or for a load, which one leaves (the one after `left` others, or every one), whether it has, and whether it has left as a request to
another package. -/
structure Look where
  depth : Nat
  path : List Word
  atom : Bool
  left : Option Nat
  hit : Bool
  asked : Bool
  deriving DecidableEq, Repr

/-- The whole package. -/
structure State where
  powered : Bool
  sched : Sched
  /-- The data of the operation or event in progress. -/
  arg : Arg
  /-- The strand whose convoy issues, and the slot in progress. -/
  cur : Nat
  slot : Nat
  convoy : Option Convoy
  /-- A run ahead in progress; none between steps. -/
  look : Option Look
  strands : NMap Strand
  /-- Convoys that wait, by strand. -/
  held : NMap Hold
  /-- Instruction cache lines by core: location and bytes of each convoy fetched (R299). -/
  icache : NMap (List (Nat × List Byte))
  ord : Ordering_
  /-- Roots: TNROOT by tenant, TKROOT (R148). -/
  tnroot : NMap Word
  tkroot : Word
  tlb : List TlbEntry
  tlbInv : List TlbInv
  tweight : NMap Nat
  disp : NMap Dispatcher
  queues : NMap WorkQueue
  cells : NMap Cell
  nextCell : Nat
  ready : List Record
  orderNo : Nat
  mx : NMap (List MxHold)
  race : NMap RaceCtx
  raceOps : Nat
  rot : NMap (NMap Word)
  streams : NMap Stream
  dettab : NMap DetTable
  trace : NMap TraceRing
  clocks : NMap Clock
  snap : Snapshot
  power : Power
  fabric : Fabric
  eth : Ethernet
  sec : Security
  tenants : NMap Tenant
  batches : List Batch
  /-- Error records for trunk firmware (R23, R26, R42, R241): code and two words. -/
  errors : List (Nat × Nat × Nat)
  /-- The number of the next free value (Config.freeValue). Log 5. -/
  free : Nat
  deriving DecidableEq, Repr

/-- The ordering machine at reset: every view and scratchpad wiped to 0 (R61), all buffers empty. -/
def Ordering_.reset : Ordering_ :=
  { views := List.replicate 9 [], spad := [], applyBuf := List.replicate 9 [], applied := List.replicate 9 (List.replicate 9 0),
    nextWrite := 0, pos := [], nextPos := 0, held := List.replicate 9 [], nextTicket := 0, performed := 0, dead := [], poison := [],
    spadPoison := [], l2Poison := [] }

/-- The fabric at reset (R40): PKGID from the straps, TMO 3. -/
def Fabric.reset (pkg : Nat) : Fabric :=
  { pkgId := pkg, tmo := 3, held := false, en := false, planeEn := 0, planeUp := 0, rotor := [], tx := [], rx := [], outbox := [],
    protoErr := [], sent := [], accepted := [], bridgesDown := [], nextTag := 0, due := [], owed := [], starts := [] }

/-- Ethernet at reset. -/
def Ethernet.reset : Ethernet :=
  { discards := [], tenantDiscards := [], sentFrames := [], text := [], toFirmware := [], ptpRx := [], ptpTx := [],
    ptpTxStamps := [], twoStep := [], replies := [], resends := [] }

/-- The power controller at reset (R17, R21). -/
def Power.reset : Power :=
  { shut := false, trip := false, curBub := 0, force := false, minBub := 0, limitW := 0x1004, tripNow := false, shutNext := false,
    tripSeen := false, tripEnd := false, inBubble := false,
    cycleInFrame := 0, bubblesDone := 0, frame := 0, working := 0, trunkHalf := 0 }

/-- The security root right after a reset, before the first boot step (R51 to R58): every register at its reset value,
the boot still to run. The fuse values and the empty flash are log 7's. -/
def Security.reset : Security :=
  { boot := .pending, wiped := false, runFw := false, failStage := 0, failCause := 0, lifeCycle := 2,
    slotHash := List.replicate 4 0, revoked := List.replicate 4 false, ownerHash := 0, minSvn := List.replicate 4 0, seed := 0,
    meas := List.replicate 8 0, measDig := List.replicate 4 0, log := [], lcNonce := 0, priorNonce := 0, token := none,
    draws := 0, quotes := 0, flash := [], ownerCounter := 0 }

/-- Trunk strand `c` right after reset: no strand runs before the boot is complete (R51). -/
def Strand.trunkReset (c : Nat) : Strand := Strand.idle (4 * c) true

/-- The machine right after reset. -/
def State.reset : State :=
  { powered := true, arg := .none, sched := { agenda := [], picks := [], eager := true }, cur := 0, slot := 0, convoy := none,
    look := none,
    strands := (List.range 32).map fun c => (4 * c, Strand.trunkReset c),
    held := [], icache := [], ord := Ordering_.reset, tnroot := [], tkroot := 0, tlb := [], tlbInv := [], tweight := [], disp := [], queues := [],
    cells := [], nextCell := 0, ready := [], orderNo := 0, mx := [], race := [], raceOps := 0, rot := [], streams := [],
    dettab := [], trace := [], clocks := [],
    snap := { num := 0, miss := 0, valid := false, arm := false, at_ := 0, pend := 0, latched := [] },
    power := Power.reset, fabric := Fabric.reset 0, eth := Ethernet.reset, sec := Security.reset, tenants := [], batches := [],
    errors := [], free := 0 }

end Sys2Proof.Machine
end

