-- ==== Sys2Proof/Machine/Memory.lean ====
section
/-! DEFINITION. Memory as a sorted list of the bytes that are not 0, and the keys of its locations (R138, R143 to R147). -/

namespace Sys2Proof.Machine

/-- Whether the form of a memory is canonical above an address: strictly rising, no listed 0. -/
def Memory.wfFrom : Nat → Memory → Bool
  | _, [] => true
  | lo, (a, b) :: t => decide (lo ≤ a) && b != 0 && Memory.wfFrom (a + 1) t

/-- The canonical form of a memory. -/
def Memory.wf (m : Memory) : Bool := Memory.wfFrom 0 m

/-- Reads a byte; an unlisted byte reads 0 (R61). -/
def Memory.get : Memory → Nat → Byte
  | [], _ => 0
  | (k, v) :: t, a => if k = a then v else Memory.get t a

/-- Writes a byte, keeping the canonical form. -/
def Memory.set : Memory → Nat → Byte → Memory
  | [], a, b => if b = 0 then [] else [(a, b)]
  | (k, v) :: t, a, b =>
    if a < k then (if b = 0 then (k, v) :: t else (a, b) :: (k, v) :: t)
    else if a = k then (if b = 0 then t else (a, b) :: t)
    else (k, v) :: Memory.set t a b

/-- Writes bytes upward from an address. -/
def Memory.setBytes (m : Memory) (a : Nat) : List Byte → Memory
  | [] => m
  | b :: t => Memory.setBytes (Memory.set m a b) (a + 1) t

/-- Reads k bytes upward from an address. -/
def Memory.getBytes (m : Memory) (a : Nat) : Nat → List Byte
  | 0 => []
  | k + 1 => Memory.get m a :: Memory.getBytes m (a + 1) k

/-- Drops every byte of a range. -/
def Memory.clearRange (m : Memory) (a n : Nat) : Memory := m.filter fun c => c.1 < a || a + n ≤ c.1

/-- The location key of offset `off` on a die's memory: HBM4E of dies 1 to 8, trunk SRAM for die 0 (R147). -/
def memLoc (die off : Nat) : Nat := die * 2 ^ 52 + off

/-- The location key of an offset in the second tier. -/
def tierLoc (off : Nat) : Nat := 9 * 2 ^ 52 + off

/-- The memory a location key lies in: 0 trunk SRAM, 1 to 8 HBM4E, 9 the second tier. -/
def locMem (loc : Nat) : Nat := loc / 2 ^ 52

/-- The key of a scratchpad byte. -/
def spadKey (die cluster off : Nat) : Nat := (die * 32 + cluster) * 2 ^ 24 + off

/-- 64 KiB frames of each memory (R8, R12, R13): GB are powers of 1000 (R3). -/
def memFrames (m : Nat) : Nat :=
  if m = 0 then 4096
  else if m ≤ 4 then 1953125
  else if m ≤ 8 then 3906250
  else 62500000

/-- The poison granule of a location: 64 bytes in HBM4E and the second tier, 8 in SRAM (R68). -/
def granule (loc : Nat) : Nat := if locMem loc = 0 then 8 else 64

/-- Whether a granule that overlaps n bytes at a location is poisoned. -/
def poisonedIn (l : List Nat) (g loc n : Nat) : Bool := l.any fun p => decide (p < loc + n) && decide (loc < p + g)

/-- Marks the granules that n bytes at a location touch. -/
def poisonAdd (l : List Nat) (g loc n : Nat) : List Nat :=
  (List.range ((loc + n - 1) / g - loc / g + 1)).foldl (fun acc i => insertN acc ((loc / g + i) * g)) l

/-- A write clears a granule only when it covers it whole. Log 8. -/
def poisonClear (l : List Nat) (g loc n : Nat) : List Nat := l.filter fun p => !(decide (loc ≤ p) && decide (p + g ≤ loc + n))

end Sys2Proof.Machine
end

