-- ==== Sys2Proof/Machine/Translate.lean ====
section
/-! DEFINITION. Where a strand stands, and the translation of its addresses (R139 to R152). -/

namespace Sys2Proof.Machine

/-- The die of a strand: 0 for trunk strands (R120). -/
def Strand.die (st : Strand) : Nat := st.sid / 512

/-- The core of a strand in its die, or the trunk core. -/
def Strand.core (st : Strand) : Nat := st.sid % 512 / 4

/-- The slot of a strand in its core; 0 on trunk strands. -/
def Strand.slotNo (st : Strand) : Nat := st.sid % 4

/-- The cluster of a strand in its die. -/
def Strand.cluster (st : Strand) : Nat := st.core / 4

/-- The cluster of a strand in the package: die × 32 + cluster. -/
def Strand.clusterKey (st : Strand) : Nat := st.die * 32 + st.cluster

/-- The tenant of a strand's record; 0 on trunk strands. -/
def Strand.tenant (st : Strand) : Nat := if st.trunk then 0 else st.rec_.tenant

/-- The TLB a strand uses, and the tag of its entries (R149). -/
def Strand.tlbWhere (st : Strand) : Nat := if st.trunk then 288 + st.core else st.clusterKey
def Strand.tlbTag (st : Strand) : Nat := if st.trunk then 64 else st.rec_.tenant

/-- The causes of R110. -/
def cIllegal : Nat := 0x01
def cUnavailable : Nat := 0x02
def cMisaligned : Nat := 0x03
def cTranslation : Nat := 0x04
def cMalformed : Nat := 0x05
def cAbsent : Nat := 0x06
def cRemoteAtomic : Nat := 0x07
def cLink : Nat := 0x08
def cData : Nat := 0x09
def cNotOwned : Nat := 0x0A
def cSpad : Nat := 0x0B
def cIndexFull : Nat := 0x0C
def cBlock : Nat := 0x0D
def cSparse : Nat := 0x0E
def cPack : Nat := 0x0F
def cTrap : Nat := 0x10
def cLaunch : Nat := 0x11

/-- What an access does, for R146. -/
inductive Acc where
  | load | store | atomic | fetch
  deriving DecidableEq, Repr

/-- Whether an address is canonical (R139). -/
def canonical (va : Word) : Bool := va.toNat / 2 ^ 56 = 0 || va.toNat / 2 ^ 56 = 255

/-- Whether an address lies in the scratchpad aperture (R139). -/
def inSpad (va : Word) : Bool := va.toNat / 2 ^ 48 = 0xFF00

/-- The base of the scratchpad aperture. -/
def spadBase : Nat := 0xFF00 * 2 ^ 48

/-- Whether an address lies in the trunk control window (R50). -/
def inWindow (va : Word) : Bool := 0xFFFE ≤ va.toNat / 2 ^ 48

/-- The offset of an address in the trunk control window. -/
def windowOff (va : Word) : Nat := va.toNat - 0xFFFE * 2 ^ 48

/-- The fields of a leaf (R145). -/
def leafFrame (w : Word) : Nat := bitsW w 24 36
def leafHdie (w : Word) : Nat := bitsW w 20 4
def leafPeer (w : Word) : Nat := bitsW w 10 10
def leafAp (w : Word) : Nat := bitsW w 8 2
def leafSize (w : Word) : Nat := bitsW w 6 2
def leafGlobal (w : Word) : Bool := bitW w 5

/-- log2 of the page size of a SIZE code (R143). -/
def sizeBits (c : Nat) : Nat := if c = 0 then 16 else if c = 1 then 21 else 30

/-- Whether a TDIE value is one that R144 allows. -/
def tdieOk (trunk : Bool) (d : Nat) : Bool := (1 ≤ d && d ≤ 8) || (d == 0 && trunk)

/-- Whether a leaf that stands at a level is well formed (R145, R146 step 5). -/
def leafOk (trunk : Bool) (level : Nat) (w : Word) : Bool :=
  let ap := leafAp w
  let fr := leafFrame w
  let h := leafHdie w
  let n := 2 ^ (sizeBits (leafSize w) - 16)
  bitsW w 60 4 == 0 && level ≤ 2 && leafSize w == level && ap != 3 && fr % n == 0 &&
    (if ap = 2 then 1 ≤ h && h ≤ 8 && leafPeer w < 768
     else if ap = 1 then h == 0 && leafPeer w == 0 && Config.secondTier && fr + n ≤ memFrames 9
     else leafPeer w == 0 && ((1 ≤ h && h ≤ 8) || (h == 0 && trunk)) && fr + n ≤ memFrames h)

/-- Whether a table entry that stands at a level is well formed (R144). -/
def tableOk (trunk : Bool) (level : Nat) (w : Word) : Bool :=
  1 ≤ level && bitsW w 56 8 == 0 && bitsW w 4 4 == 0 && tdieOk trunk (bitsW w 52 4) && (level == 1 || bitsW w 8 4 == 0)

/-- The index of an address at a level (R143). -/
def levelIndex (va : Nat) (level : Nat) : Nat :=
  if level = 0 then bitsN va 16 5 else bitsN va (12 + 9 * level) 9

/-- The 8-byte word at a location of a view. -/
def viewWord (m : Memory) (loc : Nat) : Word := wordOf (numOf (Memory.getBytes m loc 8))

/-- The walk from a table (R143 to R146): the leaf, or the cause. `fuel` is the level plus one. The spec names no effect of a poisoned entry on a walk: the
bytes count as they stand, and no data-error is raised (DESIGN CHOICE, log 108). -/
def walkFrom (m : Memory) (trunk : Bool) (va : Nat) : Nat → Nat → Nat → Except Nat Word
  | 0, _, _ => .error cMalformed
  | level + 1, die, tbl =>
    let e := viewWord m (memLoc die (tbl + 8 * levelIndex va level))
    if !bitW e 0 then .error (if e = 0 then cTranslation else cAbsent)
    else if bitsW e 1 3 = 0 then
      if tableOk trunk level e then walkFrom m trunk va level (bitsW e 52 4) (bitsW e 8 44 * 256)
      else .error cMalformed
    else if leafOk trunk level e then .ok e
    else .error cMalformed

/-- The walk of an address from a root word (R148). -/
def walkRoot (m : Memory) (trunk : Bool) (root va : Word) : Except Nat Word :=
  if !bitW root 0 then .error cTranslation
  else if !tdieOk trunk (bitsW root 52 4) then .error cMalformed
  else walkFrom m trunk va.toNat 5 (bitsW root 52 4) (bitsW root 12 40 * 4096)

/-- A die's view. -/
def viewOf (o : Ordering_) (d : Nat) : Memory := o.views.getD d []

/-- Whether a location lies in a frame of a tenant that is at its vacated point (R118). -/
def vacatedFrame (s : State) (loc : Nat) : Bool := s.tenants.any fun t => t.2.vacated && hasN t.2.frames (loc / 2 ^ 16)

/-- A die's view as walks read it: vacated frames read zero (R118). -/
def walkView (s : State) (d : Nat) : Memory :=
  if s.tenants.any fun t => t.2.vacated then (viewOf s.ord d).filter fun c => !vacatedFrame s c.1 else viewOf s.ord d

/-- The root of a strand (R148). -/
def rootOf (s : State) (st : Strand) : Word := if st.trunk then s.tkroot else NMap.getD s.tnroot st.rec_.tenant 0

/-- Whether a TLB entry matches (R149). -/
def tlbHit (w t : Nat) (va : Nat) (e : TlbEntry) : Bool :=
  e.where_ == w && e.tenant == t && e.vbase == va / 2 ^ sizeBits (leafSize e.leaf) * 2 ^ sizeBits (leafSize e.leaf)

/-- The leaf that a strand's TLB holds for an address. -/
def tlbFind (s : State) (st : Strand) (va : Word) : Option Word :=
  (s.tlb.find? (tlbHit st.tlbWhere st.tlbTag va.toNat)).map (·.leaf)

/-- The leaf of an address: from the TLB, or by a walk through the view of the strand's die (R149). -/
def leafOf (s : State) (st : Strand) (va : Word) : Except Nat Word :=
  match tlbFind s st va with
  | some l => .ok l
  | none => walkRoot (walkView s st.die) st.trunk (rootOf s st) va

/-- The permission checks 6 and 7 of R146. -/
def permit (acc : Acc) (l : Word) : Except Nat Unit :=
  let rd := bitW l 1
  let wr := bitW l 2
  match acc with
  | .load => if rd then .ok () else .error cTranslation
  | .store => if wr then .ok () else .error cTranslation
  | .atomic => if !(rd && wr) then .error cTranslation else if leafAp l = 2 && !bitW l 4 then .error cRemoteAtomic else .ok ()
  | .fetch => if bitW l 3 && leafAp l = 0 then .ok () else .error cTranslation

/-- The die bridges that traffic between two dies crosses (R9): a pair has its own, every other way goes through the trunk die. -/
def bridgesOf (a b : Nat) : List (Nat × Nat) :=
  if a = b then []
  else if a = 0 || b = 0 then [(0, max a b)]
  else if a + 4 = b || b + 4 = a then [(min a b, max a b)]
  else [(0, a), (0, b)]

/-- Whether every bridge between two dies stands (R42). -/
def bridgesUp (f : Fabric) (a b : Nat) : Bool := (bridgesOf a b).all fun x => !f.bridgesDown.any (· == x)
def bridgeUp (s : State) (a b : Nat) : Bool := bridgesUp s.fabric a b

/-- The die whose port drives a plane: six ports a die (R24). -/
def planeDie (k : Nat) : Nat := k / 6 + 1

/-- The planes that PLANEEN enables and that a die reaches over bridges that stand (R33, R42). -/
def planesEnabled (f : Fabric) (die : Nat) : List Nat :=
  (List.range 48).filter fun k => f.planeEn.getLsbD k && bridgesUp f die (planeDie k)

/-- Where a leaf puts an address (R147). A peer page of this package's own id is reached without leaving it (R27); a frame
beyond the die's capacity, an invalid strapped id, or a fabric with no plane fails at once (R26, R33, R37, R147). -/
def leafPlace (s : State) (l va : Word) : Except Nat Place :=
  let off := leafFrame l * 2 ^ 16 + va.toNat % 2 ^ sizeBits (leafSize l)
  let h := leafHdie l
  match leafAp l with
  | 1 => .ok (.mem (tierLoc off) 0)
  | 2 =>
    if 768 ≤ s.fabric.pkgId then .error cLink
    else if leafPeer l = s.fabric.pkgId then
      if memFrames h ≤ off / 2 ^ 16 then .error cLink else .ok (.own (memLoc h off) h)
    else if s.fabric.planeEn = 0 then .error cLink
    else .ok (.peer (leafPeer l) (memLoc h off))
  | _ => .ok (.mem (memLoc h off) h)

/-- Whether traffic of a die reaches a port to another package (R33, R42): that of the trunk die leaves through die 1. Log 13. -/
def portWay (f : Fabric) (die : Nat) : Bool :=
  if die = 0 then bridgesUp f 0 1 && !(planesEnabled f 1).isEmpty else !(planesEnabled f die).isEmpty

/-- Whether a place can be reached from a die (R42): another package through a port that the die's bridges reach. -/
def reachable (s : State) (die : Nat) : Place → Bool
  | .mem _ home => bridgeUp s die home
  | .own _ home => bridgeUp s die home
  | .peer _ _ => portWay s.fabric die
  | _ => true

/-- The die whose memory controller turns an access away: its frame, on a page of this package's own id, lies beyond the die's capacity
(R147). -/
def ownBeyond (s : State) (st : Strand) (va : Word) : Option Nat :=
  if !canonical va || inSpad va || inWindow va then none
  else
    match leafOf s st va with
    | .ok l =>
      let off := leafFrame l * 2 ^ 16 + va.toNat % 2 ^ sizeBits (leafSize l)
      if leafAp l = 2 && leafPeer l == s.fabric.pkgId && memFrames (leafHdie l) ≤ off / 2 ^ 16 then some (leafHdie l) else none
    | .error _ => none

/-- Translation of a canonical address outside the scratchpad aperture and the window (R146 steps 4 to 7). -/
def translate (s : State) (st : Strand) (acc : Acc) (va : Word) : Except Nat Place :=
  match leafOf s st va with
  | .error c => .error c
  | .ok l =>
    match permit acc l with
    | .error c => .error c
    | .ok _ =>
      match leafPlace s l va with
      | .error c => .error c
      | .ok p => if reachable s st.die p then .ok p else .error cLink

/-- The checks of R146 on a scalar access or a fetch of `size` bytes (R50, R140). -/
def checkScalar (s : State) (st : Strand) (acc : Acc) (size : Nat) (va : Word) : Except Nat Place :=
  if va.toNat % size ≠ 0 then .error cMisaligned
  else if !canonical va then .error cTranslation
  else if inSpad va then .error cTranslation
  else if inWindow va then
    if !st.trunk || acc = .fetch then .error cTranslation
    else if size = 8 && (acc = .load || acc = .store) then .ok (.window (windowOff va))
    else .error cMisaligned
  else translate s st acc va

/-- BASE and LIMIT of SPBOUND (R141). -/
def spBase (st : Strand) : Nat := bitsW st.spbound 0 24
def spLimit (st : Strand) : Nat := min (bitsW st.spbound 32 25) 0x1000000

/-- Whether n bytes at a scratchpad offset are in range (R141). -/
def spInRange (st : Strand) (off n : Nat) : Bool :=
  decide (spBase st < spLimit st) && decide (spBase st ≤ off) && decide (off + n ≤ spLimit st)

/-- The checks of R146 on an element of a vector access or an engine (R140 to R142): cause scratchpad-range trims. -/
def checkElem (s : State) (st : Strand) (acc : Acc) (size : Nat) (va : Word) : Except Nat Place :=
  if va.toNat % size ≠ 0 then .error cMisaligned
  else if !canonical va then .error cTranslation
  else if inSpad va then
    if st.trunk then .error cTranslation
    else
      let off := va.toNat % 2 ^ 48
      if spInRange st off size then .ok (.spad (spadKey st.die st.cluster off)) else .error cSpad
  else if inWindow va then .error (if st.trunk then cMisaligned else cTranslation)
  else translate s st acc va

/-- Fills the strand's TLB with the leaf of an address, if the address translates and no entry holds it. -/
def tlbFill (s : State) (st : Strand) (va : Word) : State :=
  if !canonical va || inSpad va || inWindow va then s
  else
    match tlbFind s st va with
    | some _ => s
    | none =>
      match walkRoot (walkView s st.die) st.trunk (rootOf s st) va with
      | .error _ => s
      | .ok l =>
        let n := 2 ^ sizeBits (leafSize l)
        { s with tlb := s.tlb ++ [{ where_ := st.tlbWhere, tenant := st.tlbTag, vbase := va.toNat / n * n, leaf := l }] }

end Sys2Proof.Machine
end

