-- ==== Sys2Proof/Machine/Order.lean ====
section
/-! DEFINITION. The ordering machine's views, apply buffers and atomics (R159 to R168), on `Ordering_`. -/

namespace Sys2Proof.Machine

/-- The f32 selection of R284: `fsel(op, m, v)`. -/
def fsel (isMax : Bool) (m v : Nat) : Nat :=
  let a := fpOf f32 m
  let b := fpOf f32 v
  if a.isNaN && b.isNaN then fmtNaN f32
  else if a.isNaN then v
  else if b.isNaN then m
  else
    match cmpFp a b with
    | .lt => if isMax then v else m
    | .gt => if isMax then m else v
    | .eq => if a.sign == isMax then v else m

/-- The new value of an n-bit atomic, or none where it writes nothing, and the flags (R283, R284, R286). -/
def atomNew (op : AtomOp) (n old v e : Nat) : Option Nat × FFlags :=
  let sn := nvSNaN [fpOf f32 old, fpOf f32 v]
  match op with
  | .add => (some ((old + v) % 2 ^ n), 0)
  | .swap => (some v, 0)
  | .cas => (if old = e then some v else none, 0)
  | .and => (some (Nat.land old v), 0)
  | .or => (some (Nat.lor old v), 0)
  | .xor => (some (Nat.xor old v), 0)
  | .max => (some (if signedN n old < signedN n v then v else old), 0)
  | .min => (some (if signedN n v < signedN n old then v else old), 0)
  | .maxn => (some (max old v), 0)
  | .minn => (some (min old v), 0)
  | .addF32 =>
    let (r, fl) := fpAdd f32 .rne (fpOf f32 old) (fpOf f32 v)
    (some r, fl)
  | .maxF32 => let r := fsel true old v; (if r = old then none else some r, sn)
  | .minF32 => let r := fsel false old v; (if r = old then none else some r, sn)
  | .ea => (some (eaMerge (eaClean (BitVec.ofNat 512 old)) (BitVec.ofNat 512 v)).toNat, 0)

/-- A component of a clock. -/
def clockAt (l : List Nat) (i : Nat) : Nat := l.getD i 0

/-- The applied counts of a die. -/
def appliedOf (o : Ordering_) (d : Nat) : List Nat := o.applied.getD d []

/-- Writes bytes into one die's view. -/
def setView (o : Ordering_) (d loc : Nat) (bytes : List Byte) : Ordering_ :=
  { o with views := putAt 9 [] o.views d (Memory.setBytes (viewOf o d) loc bytes) }

/-- Records that a die's view holds a write's value at the bytes of a location. -/
def holdWrite (o : Ordering_) (d loc n id : Nat) : Ordering_ :=
  { o with held := putAt 9 [] o.held d ((List.range n).foldl (fun m i => NMap.set m (loc + i) id) (o.held.getD d [])) }

/-- Raises an applied count by one. -/
def bumpApplied (o : Ordering_) (d e : Nat) : Ordering_ :=
  let a := appliedOf o d
  { o with applied := putAt 9 [] o.applied d (putAt 9 0 a e (clockAt a e + 1)) }

/-- Gives a write the next position in the coherence order, at its home die (R165). -/
def givePos (o : Ordering_) (id : Nat) : Ordering_ :=
  { o with pos := NMap.set o.pos id o.nextPos, nextPos := o.nextPos + 1 }

/-- Writing into a die's L2 clears the granules it covers (R138). -/
def l2Clear (l : List (Nat × Nat)) (d loc n : Nat) : List (Nat × Nat) :=
  l.filter fun p => !(p.1 == d && decide (loc ≤ p.2) && decide (p.2 + 8 ≤ loc + n))

/-- A write by a strand on die e (R163): in its own view at once, counted, and sent to every other die. -/
def performWrite (o : Ordering_) (e loc home : Nat) (bytes : List Byte) : Ordering_ :=
  let id := o.nextWrite
  let o1 := bumpApplied (holdWrite (setView { o with nextWrite := id + 1 } e loc bytes) e loc bytes.length id) e e
  let o2 := if home = e then givePos o1 id else o1
  let m : WriteMsg := { id := id, src := e, vc := appliedOf o2 e, loc := loc, home := home, bytes := bytes }
  { o2 with
    applyBuf := (List.range 9).map fun d => if d = e then o2.applyBuf.getD d [] else o2.applyBuf.getD d [] ++ [m],
    poison := poisonClear o2.poison (granule loc) loc bytes.length
    l2Poison := l2Clear o2.l2Poison e loc bytes.length }

/-- Whether die d may apply a write (R164). -/
def canApply (o : Ordering_) (d : Nat) (w : WriteMsg) : Bool :=
  let a := appliedOf o d
  ((List.range 9).all fun f => if f = w.src then clockAt a f + 1 == clockAt w.vc f else decide (clockAt w.vc f ≤ clockAt a f)) &&
    (w.home == d || (NMap.get? o.pos w.id).isSome)

/-- Whether the write that a view holds at a byte lies later in the coherence order than write `p` (R165); a die's own write
whose position is not yet known counts as later. -/
def heldLater (o : Ordering_) (d loc p : Nat) : Bool :=
  match NMap.get? (o.held.getD d []) loc with
  | none => false
  | some id =>
    match NMap.get? o.pos id with
    | none => true
    | some q => decide (p < q)

/-- Installs the bytes of an applied write where R165 lets it. -/
def installBytes (o : Ordering_) (d id p loc : Nat) : List Byte → Ordering_
  | [] => o
  | b :: t =>
    let o' := if heldLater o d loc p then o else holdWrite (setView o d loc [b]) d loc 1 id
    installBytes o' d id p (loc + 1) t

/-- Forgets the coherence order once no write waits anywhere: every view then holds the same values. -/
def pruneOrder (o : Ordering_) : Ordering_ :=
  if o.applyBuf.all List.isEmpty then { o with pos := [], held := List.replicate 9 [] } else o

/-- Die d applies the write at a position of its apply buffer (R164, R165). -/
def applyAt (o : Ordering_) (d i : Nat) : Option Ordering_ :=
  let buf := o.applyBuf.getD d []
  match buf[i]? with
  | none => none
  | some w =>
    if canApply o d w then
      let o1 := if w.home = d then givePos o w.id else o
      let p := (NMap.get? o1.pos w.id).getD 0
      let o2 := bumpApplied (installBytes o1 d w.id p w.loc w.bytes) d w.src
      some (pruneOrder { o2 with
        applyBuf := putAt 9 [] o2.applyBuf d (dropAt buf i)
        l2Poison := l2Clear o2.l2Poison d w.loc w.bytes.length })
    else none

/-- The first write that some die may apply: die and buffer position. -/
def firstApply (o : Ordering_) : Option (Nat × Nat) :=
  (List.range 9).findSome? fun d => (findIdx? (canApply o d) (o.applyBuf.getD d [])).map fun i => (d, i)

/-- Applies writes while any can be applied, at most `fuel` of them. -/
def settleN : Nat → Ordering_ → Ordering_
  | 0, o => o
  | n + 1, o =>
    match firstApply o with
    | none => o
    | some (d, i) =>
      match applyAt o d i with
      | none => o
      | some o' => settleN n o'

/-- The number of waiting writes. -/
def waitingWrites (o : Ordering_) : Nat := o.applyBuf.foldl (fun n b => n + b.length) 0

/-- Every die applies every write. -/
def settle (o : Ordering_) : Ordering_ := settleN (waitingWrites o) o

/-- Whether die d has applied the counts `hc` (R166). -/
def reached (o : Ordering_) (d : Nat) (hc : List Nat) : Bool :=
  (List.range 9).all fun f => decide (clockAt hc f ≤ clockAt (appliedOf o d) f)

/-- Applies writes until die d has applied the counts `hc`: those of its own buffer first, others where they wait for their home die. -/
def reachN (d : Nat) (hc : List Nat) : Nat → Ordering_ → Ordering_
  | 0, o => o
  | n + 1, o =>
    if reached o d hc then o
    else
      let next := match findIdx? (canApply o d) (o.applyBuf.getD d []) with
        | some i => some (d, i)
        | none => firstApply o
      match next.bind fun x => applyAt o x.1 x.2 with
      | none => o
      | some o' => reachN d hc n o'

/-- The moves after which an atomic of a strand on die d may leave its path queue (R166). -/
def reach (o : Ordering_) (d : Nat) (hc : List Nat) : Ordering_ := reachN d hc (waitingWrites o) o

/-- Whether every die has applied the counts. -/
def reachedAll (o : Ordering_) (hc : List Nat) : Bool := (List.range 9).all fun d => reached o d hc

/-- Every die reaches the counts. -/
def reachAll (o : Ordering_) (hc : List Nat) : Ordering_ := (List.range 9).foldl (fun o d => reach o d hc) o

/-- The turn passes from a ticket that has performed to the next that has not been given up (R177). -/
def skipDead : Nat → Nat → List Nat → Nat × List Nat
  | 0, t, l => (t, l)
  | n + 1, t, l => if hasN l t then skipDead n (t + 1) (eraseN l t) else (t, l)

def passTicket (o : Ordering_) : Ordering_ :=
  let (t, l) := skipDead o.dead.length (o.performed + 1) o.dead
  { o with performed := t, dead := l }

/-- Gives up tickets of a convoy that did not retire. -/
def dropTickets (o : Ordering_) (l : List Nat) : Ordering_ :=
  let d := l.foldl (fun acc t => if o.performed ≤ t then insertN acc t else acc) o.dead
  let (t, r) := skipDead d.length o.performed d
  { o with performed := t, dead := r }

/-- Whether bytes at a memory location are poisoned for die d, in the memory or in its L2 (R68, R138). -/
def memPoisoned (o : Ordering_) (d loc n : Nat) : Bool :=
  poisonedIn o.poison (granule loc) loc n || (o.l2Poison.any fun p => p.1 == d && decide (p.2 < loc + n) && decide (loc < p.2 + 8))

/-- Whether scratchpad bytes are poisoned (R68). -/
def spadPoisoned (o : Ordering_) (key n : Nat) : Bool := poisonedIn o.spadPoison 8 key n

/-- A write to a scratchpad (R163). -/
def spadWrite (o : Ordering_) (key : Nat) (bytes : List Byte) : Ordering_ :=
  { o with spad := Memory.setBytes o.spad key bytes, spadPoison := poisonClear o.spadPoison 8 key bytes.length }

/-- The result of an atomic at its home: the old value, whether the location was poisoned, the flags, and the clock. -/
structure AtomRes where
  old : Nat
  poisoned : Bool
  flags : FFlags
  /-- The home die's applied counts, its own write included (R166). -/
  hc : List Nat
  deriving DecidableEq, Repr

/-- An atomic at its home die (R166, R283): it reads and writes the home die's view; a poisoned location is left unchanged
(R69). `n` is the width in bytes. -/
def atomicMem (o : Ordering_) (op : AtomOp) (n loc home v e : Nat) : Ordering_ × AtomRes :=
  if memPoisoned o home loc n then (o, ⟨0, true, 0, []⟩)
  else
    let old := numOf (Memory.getBytes (viewOf o home) loc n)
    match atomNew op (8 * n) old v e with
    | (some x, fl) => let o1 := performWrite o home loc home (bytesOf n x); (o1, ⟨old, false, fl, appliedOf o1 home⟩)
    | (none, fl) => (o, ⟨old, false, fl, appliedOf o home⟩)

/-- An atomic on scratchpad bytes (R166). -/
def atomicSpad (o : Ordering_) (op : AtomOp) (n key v e : Nat) : Ordering_ × AtomRes :=
  if spadPoisoned o key n then (o, ⟨0, true, 0, []⟩)
  else
    let old := numOf (Memory.getBytes o.spad key n)
    match atomNew op (8 * n) old v e with
    | (some x, fl) => (spadWrite o key (bytesOf n x), ⟨old, false, fl, []⟩)
    | (none, fl) => (o, ⟨old, false, fl, []⟩)

end Sys2Proof.Machine
end

