-- ==== Sys2Proof/Machine/Access.lean ====
section
/-! DEFINITION. Accessors of the state: strands and their registers, memory as a unit of a die uses it, time and cycle counts,
free values and choices. -/

namespace Sys2Proof.Machine

/-- A strand of the package by its number; a number that holds none reads as an idle strand. -/
def strandOf (s : State) (sid : Nat) : Strand := NMap.getD s.strands sid (Strand.idle sid (sid < 512))

/-- The strand whose convoy issues. -/
def me (s : State) : Strand := strandOf s s.cur

/-- Puts a strand at a number. -/
def putStrand (s : State) (sid : Nat) (st : Strand) : State := { s with strands := NMap.set s.strands sid st }

/-- Replaces the strand whose convoy issues. -/
def putMe (s : State) (st : Strand) : State := putStrand s s.cur st

/-- Reads s[r]; s0 reads 0 (R121). -/
def sread (st : Strand) (r : Nat) : Word := if r = 0 then 0 else st.regs.getD r 0

/-- Writes s[r]; a write to s0 is discarded (R121, R255). -/
def swrite (st : Strand) (r : Nat) (v : Word) : Strand := if r = 0 then st else { st with regs := putAt 32 0 st.regs r v }

/-- Reads a scalar register of the issuing strand. -/
def getS (s : State) (r : BitVec 5) : Word := sread (me s) r.toNat

/-- Writes a scalar register of the issuing strand. -/
def setS (s : State) (r : BitVec 5) (v : Word) : State := putMe s (swrite (me s) r.toNat v)

/-- ORs exception flags into FFLAGS (R185). -/
def addFlags (s : State) (f : FFlags) : State := putMe s { me s with fflags := (me s).fflags ||| f }

/-- Where the strand goes when its convoy retires. -/
def setNpc (s : State) (a : Word) : State := putMe s { me s with npc := a }

/-- The next free value (Config.freeValue). Log 5. -/
def freeWord (s : State) : Word × State := (Config.freeValue s.free, { s with free := s.free + 1 })

/-- A choice among n that the spec leaves to the machine: the next of `sched.picks`, 0 where none is left. Log 9. -/
def takePick (s : State) (n : Nat) : Nat × State :=
  match s.sched.picks with
  | [] => (0, s)
  | p :: t => (if n = 0 then 0 else p % n, { s with sched := { s.sched with picks := t } })

/-- A write by die e to a memory location (R163); a write to a vacated frame has no effect (R118). -/
def memWrite (s : State) (e loc home : Nat) (bytes : List Byte) : State :=
  if vacatedFrame s loc then s else { s with ord := performWrite s.ord e loc home bytes }

/-- A read by die d of a memory location (R162); a vacated frame reads zero (R118). -/
def memRead (s : State) (d loc n : Nat) : List Byte :=
  if vacatedFrame s loc then List.replicate n 0 else Memory.getBytes (viewOf s.ord d) loc n

/-- Whether a read by die d of a memory location meets poison (R69). -/
def readPoisoned (s : State) (d loc n : Nat) : Bool := !vacatedFrame s loc && memPoisoned s.ord d loc n

/-- An atomic on a memory location (R166); on a vacated frame it has no effect and returns 0 (R118). -/
def memAtomic (s : State) (op : AtomOp) (n loc home v e : Nat) : State × AtomRes :=
  if vacatedFrame s loc then (s, ⟨0, false, 0, []⟩)
  else
    let (o, r) := atomicMem s.ord op n loc home v e
    ({ s with ord := o }, r)

/-- A write by a unit of die d at a physical address (R147): the address is the location key, its die the home die. An address
that names no die is dropped. -/
def physWrite (s : State) (d : Nat) (pa : Nat) (bytes : List Byte) : State :=
  if locMem pa ≤ 8 then memWrite s d pa (locMem pa) bytes else s

/-- A read by a unit of die d at a physical address. -/
def physRead (s : State) (d : Nat) (pa n : Nat) : List Byte := memRead s d pa n

/-- A die's clock. -/
def clockOf (s : State) (d : Nat) : Clock := NMap.getD s.clocks d Clock.reset

/-- TSC of a die in ns (R70). -/
def tscOf (s : State) (d : Nat) : Nat := (clockOf s d).acc / 2 ^ 32 % 2 ^ 64

/-- CYC of a core: working cycles since package reset, trunk cycles on trunk cores (R19, R300). -/
def cycOf (s : State) (trunk : Bool) : Nat := if trunk then s.power.trunkHalf / 2 else s.power.working

/-- The die's dispatcher. -/
def dispOf (s : State) (d : Nat) : Dispatcher := NMap.getD s.disp d Dispatcher.reset
def putDisp (s : State) (d : Nat) (x : Dispatcher) : State := { s with disp := NMap.set s.disp d x }

/-- A work queue. -/
def queueOf (s : State) (q : Nat) : WorkQueue := NMap.getD s.queues q WorkQueue.reset
def putQueue (s : State) (q : Nat) (x : WorkQueue) : State := { s with queues := NMap.set s.queues q x }

/-- A tenant function. -/
def tenantOf (s : State) (t : Nat) : Tenant := NMap.getD s.tenants t Tenant.free
def putTenant (s : State) (t : Nat) (x : Tenant) : State := { s with tenants := NMap.set s.tenants t x }

/-- A race context. -/
def raceOf (s : State) (c : Nat) : RaceCtx := NMap.getD s.race c RaceCtx.reset
def putRace (s : State) (c : Nat) (x : RaceCtx) : State := { s with race := NMap.set s.race c x }

/-- Counts in a protocol-error counter (R29, R37): a plane's port, or 100 + die for a memory controller. -/
def countProto (f : Fabric) (k : Nat) : Fabric := { f with protoErr := NMap.set f.protoErr k (NMap.getD f.protoErr k 0 + 1) }

/-- An error record for trunk firmware (R23, R26, R42). -/
def logError (s : State) (code a b : Nat) : State := { s with errors := s.errors ++ [(code, a, b)] }

/-- LANEDIS of the strand's core, and the number of its retired lane groups (R105, R117). -/
def laneDis (s : State) (st : Strand) : BitVec 8 := NMap.getD (dispOf s st.die).lanedis st.core 0
def lanesRetired (s : State) (st : Strand) : Nat := popcN 8 (laneDis s st).toNat

/-- Working bytes of a share class (R91). -/
def shareBytes (c : Nat) : Nat := if c = 0 then 524288 else if c = 1 then 262144 else 131072

/-- The register count of a count code and the width of a width code (R122, R268). -/
def budgetRegs (b : Budget) : Nat := 8 * (b.ncode.toNat + 1)
def budgetWidth (b : Budget) : Nat := 8 * 2 ^ b.wcode.toNat

/-- MAXVL of a budget and a share class with d lane groups retired (R117, R122). -/
def maxvlOf (b : Budget) (share d : Nat) : Nat :=
  min 16384 (64 * (shareBytes share / (budgetRegs b * budgetWidth b / 8) / 64)) * (8 - d) / 8

/-- The word of the syllable in progress, for EVAL (R110): the one fetched, or the encoding. -/
def sylWord (s : State) (i : Instr) : Word :=
  match s.arg with
  | .syllable w => w.setWidth 64
  | _ => wordOf ((encodeNat i).getD 0)

/-- The major opcode of a syllable word (R254). -/
def majorOf (w : BitVec 32) : Nat := w.toNat / 2 ^ 26

/-- The race and token majors, which take effect last (R126, R364). -/
def isLate (w : BitVec 32) : Bool := majorOf w == 0x3B || majorOf w == 0x3D

/-- Whether a syllable is DONE. -/
def isDone (w : BitVec 32) : Bool := majorOf w == 0x1B && w.toNat % 2048 == 0

/-- The place of the syllable in progress in the order of R126 within its convoy: race and token syllables after the others, DONE
last. -/
def convoyPos (s : State) : Nat :=
  match s.arg with
  | .syllable w => (if isDone w then 8 else if isLate w then 4 else 0) + s.slot % 4
  | _ => s.slot % 4

end Sys2Proof.Machine
end

