-- ==== Sys2Proof/Machine/Trace.lean ====
section
/-! DEFINITION. Trace records and rings (R74 to R80), and the latching of a snapshot (R82, R83). -/

namespace Sys2Proof.Machine

/-- The SRC word (R74): die, kind (0 strand, 1 engine, 2 trunk unit) and index. -/
def srcWord (die kind idx : Nat) : Nat := die % 16 * 4096 + kind % 4 * 1024 + idx % 1024

/-- The SRC word of a strand: 4 × core + slot (R74). -/
def strandSrc (st : Strand) : Nat := srcWord st.die 0 (4 * st.core + st.slotNo)

/-- A die's trace ring. -/
def ringOf (s : State) (d : Nat) : TraceRing := NMap.getD s.trace d TraceRing.reset
def putRing (s : State) (d : Nat) (r : TraceRing) : State := { s with trace := NMap.set s.trace d r }

/-- The 32 bytes of a trace record (R74). The payload is 16 bytes. -/
def traceBytes (ts code src seq : Nat) (payload : List Byte) : List Byte :=
  bytesOf 8 ts ++ bytesOf 2 code ++ bytesOf 2 src ++ bytesOf 4 seq ++ payload

/-- The writer puts a record into die d's ring (R79, R80): a full ring drops its oldest record first. A disabled ring discards
the record uncounted (R81). -/
def tracePut (s : State) (d code src : Nat) (payload : List Byte) : State :=
  let r := ringOf s d
  if !r.en then s
  else
    let n := 2 ^ r.size
    let r1 := if r.head - r.tail = n then { r with tail := r.tail + 1, drop := r.drop + 1 } else r
    let pa := r.base.toNat / 2 ^ 16 * 2 ^ 16 + 32 * (r1.head % n)
    let s1 := physWrite s 0 pa (traceBytes (tscOf s d) code src r1.head payload)
    putRing s1 d { r1 with head := r1.head + 1 }

/-- Records that a source lost and has not reported, die d's ring (R78). -/
def lostOf (s : State) (d src : Nat) : Nat := NMap.getD (ringOf s d).lostAt src 0

/-- An engine or a trunk unit writes a record (R78): it never waits; where its queue is full the record is lost and counted. Whether
the queue is full is a choice of the machine. Before its next record it reports what it lost. -/
def traceUnit (s : State) (d code src : Nat) (payload : List Byte) : State :=
  if !(ringOf s d).en then s
  else
    let (full, s1) := takePick s 2
    let r := ringOf s1 d
    if full = 1 then
      putRing s1 d { r with lost := r.lost + 1, lostAt := NMap.set r.lostAt src (lostOf s1 d src + 1) }
    else
      let n := lostOf s1 d src
      let s2 :=
        if n = 0 then s1
        else
          let s' := tracePut s1 d 0x0002 src (bytesOf 8 n ++ bytesOf 8 0)
          let r' := ringOf s' d
          putRing s' d { r' with lostAt := NMap.erase r'.lostAt src }
      tracePut s2 d code src payload

/-- A bubble-count change record in every enabled ring with THR = 1 (R75). SRC names the power controller as a unit of die 0; TS in the ring of a die is
that die's TSC: the spec does not say which die writes the record (DESIGN CHOICE, log 48). -/
def traceBubble (s : State) (new old : Nat) (trip : Bool) : State :=
  (List.range 9).foldl (fun s d =>
    if (ringOf s d).thr then
      traceUnit s d 0x0030 (srcWord 0 2 0) ([BitVec.ofNat 8 new, BitVec.ofNat 8 old, BitVec.ofNat 8 (boolN trip)] ++ List.replicate 13 0)
    else s) s

/-- A collective step record (R75, R76): kind 0 start, 1 end. -/
def traceStep (s : State) (d : Nat) (isEnd : Bool) (src : Nat) (sync gen kind step part : Nat) : State :=
  if (ringOf s d).coll then
    traceUnit s d (if isEnd then 0x0011 else 0x0010) src
      (bytesOf 8 sync ++ bytesOf 4 gen ++ bytesOf 1 kind ++ bytesOf 1 step ++ bytesOf 2 part)
  else s

/-- THRCTL as it reads (R21, R23). -/
def thrctl (p : Power) : Nat :=
  p.limitW % 65536 + p.minBub % 8 * 2 ^ 16 + boolN p.force * 2 ^ 19 + p.curBub % 8 * 2 ^ 20 + boolN p.trip * 2 ^ 23 +
    boolN p.shut * 2 ^ 24

/-- Strand slots of a die that hold a record. -/
def heldSlots (s : State) (d : Nat) : Nat :=
  (s.strands.filter fun x => x.1 / 512 == d && !x.2.trunk && x.2.run != .idle).length

/-- Whether a cluster affinity allows a cluster of a die (R100). -/
def affAllows (aff die cluster : Nat) : Bool := aff == 255 || (die == 1 + aff / 32 && cluster == aff % 32)

/-- Whether a record may run on a cluster: its affinity, and for a resumed record the cluster where it last ran (R100, R102). -/
def recAllows (r : Record) (die cluster : Nat) : Bool :=
  if r.resume then r.cluster == some (die * 32 + cluster) else affAllows r.aff die cluster

/-- Ready records that wait for a slot on a die. -/
def readyOn (s : State) (d : Nat) : List Record :=
  s.ready.filter fun r => !r.parked && (List.range 32).any (recAllows r d)

/-- The values a snapshot latches, by trunk control window offset (R83). -/
def snapValues (s : State) : NMap Word :=
  let die0 : List (Nat × Nat) :=
    [(0x8000, tscOf s 0)] ++ (List.range 32).map (fun c => (0x8008 + 8 * c, cycOf s true)) ++
      [(0x8800, (ringOf s 0).head)] ++ (List.range 2).map (fun k => (0x8820 + 8 * k, NMap.getD s.eth.sentFrames k 0)) ++
      [(0x8830, s.raceOps), (0x8838, thrctl s.power)]
  let die := fun d : Nat =>
    let b := 0x8000 + 0x1000 * d
    [(b, tscOf s d)] ++ (List.range 128).map (fun c => (b + 8 + 8 * c, cycOf s false)) ++
      [(b + 0x800, (ringOf s d).head), (b + 0x808, (dispOf s d).fltHead), (b + 0x810, heldSlots s d), (b + 0x818, (readyOn s d).length)] ++
      (List.range 6).map (fun j => (b + 0x820 + 8 * j, NMap.getD s.fabric.sent (6 * (d - 1) + j) 0)) ++
      (List.range 6).map (fun j => (b + 0x850 + 8 * j, NMap.getD s.fabric.accepted (6 * (d - 1) + j) 0))
  (die0 ++ ((List.range 8).map fun d => die (d + 1)).flatten).map fun (k, v) => (k, wordOf v)

/-- Whether the P- and D-dies are held (R16, R23): in a bubble, or in the shutdown hold. -/
def pdHeld (s : State) : Bool := s.power.shut || s.power.inBubble

/-- Every block latches its snapshot registers (R82, R83): ignored and counted while a snapshot is held. The latched TRHEAD does not count the record
of the same trigger. Log 87. -/
def latchSnapshot (s : State) : State :=
  if s.snap.valid then { s with snap := { s.snap with miss := min 0xFFFF (s.snap.miss + 1) } }
  else
    let n := (s.snap.num + 1) % 65536
    let s1 := { s with snap := { s.snap with valid := true, num := n, latched := snapValues s } }
    (List.range 9).foldl (fun s d =>
      if (ringOf s d).snap then traceUnit s d 0x0040 (srcWord d 2 1) (bytesOf 8 n ++ bytesOf 8 0) else s) s1

/-- The meridian trigger (R20, R82): one that falls in a bubble latches in the first working cycle after it. -/
def fireSnapshot (s : State) : State :=
  if pdHeld s then { s with snap := { s.snap with pend := s.snap.pend + 1 } } else latchSnapshot s

/-- A working cycle latches the triggers that fell in the bubbles before it (R20). -/
def latchPending (s : State) : State :=
  (List.range s.snap.pend).foldl (fun s _ => latchSnapshot s) { s with snap := { s.snap with pend := 0 } }

end Sys2Proof.Machine
end

