-- ==== Sys2Proof/Machine/Join.lean ====
section
/-! DEFINITION. Join cells, launches and the ready records (R93 to R99, R108). -/

namespace Sys2Proof.Machine

/-- Makes a record ready (R103): ready since now, after every record already ready. -/
def enqueueRec (s : State) (r : Record) : State :=
  { s with
    ready := s.ready ++ [{ r with readyAt := s.power.working, order := s.orderNo, passed := [] }],
    orderNo := s.orderNo + 1 }

/-- A launch of a queue by its id and period. -/
def launchOf (s : State) (q id : Nat) : Option Launch := (queueOf s q).live.find? fun l => l.id == id

/-- The number of the launch that an id names (R93): one of the present period of the queue, else the latest of an earlier one that still runs. -/
def launchNo (x : WorkQueue) (id : Nat) : Nat :=
  ((x.live.filter fun l => l.id % 2 ^ 32 == id).getLast?.map (·.id)).getD (x.epoch * 2 ^ 32 + id)

/-- Changes a launch of a queue. -/
def updLaunch (s : State) (q id : Nat) (f : Launch → Launch) : State :=
  let x := queueOf s q
  putQueue s q { x with live := x.live.map fun l => if l.id = id then f l else l }

/-- The first cell number at or after n that is not live, within 2^20 cells (R98). -/
def freeCellFrom (cells : NMap Cell) : Nat → Nat → Nat
  | 0, n => n % 2 ^ 20
  | k + 1, n => if (NMap.get? cells (n % 2 ^ 20)).isNone then n % 2 ^ 20 else freeCellFrom cells k (n + 1)

/-- Allocates a join cell (R98): its number is the machine's choice among the free ones. Log 10. -/
def allocCell (s : State) (c : Cell) : Nat × State :=
  let (p, s1) := takePick s (2 ^ 20)
  let n := freeCellFrom s1.cells s1.cells.length (s1.nextCell + 1 + p)
  (n, { s1 with cells := NMap.set s1.cells n c, nextCell := n })

/-- Free cells of the join memory. -/
def freeCells (s : State) : Nat := 2 ^ 20 - s.cells.length

/-- Sets a cell's continuation (R98). -/
def setCont (s : State) (c : Nat) (k : Cont) : State :=
  match NMap.get? s.cells c with
  | none => s
  | some x => { s with cells := NMap.set s.cells c { x with cont := k } }

/-- Adds to a cell's count. -/
def addCell (s : State) (c n : Nat) : State :=
  match NMap.get? s.cells c with
  | none => s
  | some x => { s with cells := NMap.set s.cells c { x with count := x.count + n } }

/-- Subtracts n from a cell's count; at zero its continuation runs and the cell is freed (R98). `fuel` bounds the chain of parents by
the number of cells. -/
def subCellN : Nat → State → Nat → Nat → State
  | 0, s, _, _ => s
  | k + 1, s, c, n =>
    match NMap.get? s.cells c with
    | none => s
    | some x =>
      if n < x.count then { s with cells := NMap.set s.cells c { x with count := x.count - n } }
      else
        let s1 := { s with cells := NMap.erase s.cells c }
        match x.cont with
        | .unset => s1
        | .complete q id => updLaunch s1 q id fun l => { l with finished := true }
        | .subParent j => subCellN k s1 j 1
        | .enqueue r => enqueueRec s1 r

/-- Subtracts n from a cell's count. -/
def subCell (s : State) (c n : Nat) : State := subCellN (s.cells.length + 1) s c n

/-- A record of a gang, or one strand. -/
def recSize (r : Record) : Nat := if r.gang then r.gsize else 1

/-- The strands that still run a saved record: the members that have not ended. -/
def liveMembers (r : Record) : Nat := if r.slots.isEmpty then recSize r else r.slots.length

/-- Frees the save slots that a record holds (R108, R115). -/
def freeSlots (s : State) (r : Record) : State :=
  let x := dispOf s r.svDie
  if r.slots.isEmpty then s
  else putDisp s r.svDie { x with saved := x.saved.filter fun e => !hasN r.slots e.1 }

/-- Releases the array slices that a record holds, by its child cell (R199). -/
def freeArray (s : State) (owner : Nat) : State :=
  { s with mx := s.mx.map fun e => (e.1, e.2.filter fun h => h.owner != owner) }

/-- The window index of an id below another modulo 2^32: (a − b) mod 2^32. -/
def idDiff (a b : Nat) : Nat := (a + 2 ^ 32 - b % 2 ^ 32) % 2 ^ 32

/-- Whether WQCOMP covers an id (R94). -/
def covers (comp d : Nat) : Bool := idDiff comp d < 2 ^ 31

/-- The id after another: modulo 2^32, skipping 0 (R93). -/
def nextId (id : Nat) : Nat := if (id + 1) % 2 ^ 32 = 0 then 1 else (id + 1) % 2 ^ 32

/-- Advances the completion watermark over the ids that have completed (R95). -/
def advanceComp : Nat → Nat → List Nat → Nat × List Nat
  | 0, c, l => (c, l)
  | k + 1, c, l => if hasN l (nextId c) then advanceComp k (nextId c) (eraseN l (nextId c)) else (c, l)

/-- Notes that a launch has completed: it leaves the queue's launches, and WQCOMP moves when R95 allows; the ids of an earlier period do not count. -/
def noteComplete (x : WorkQueue) (id : Nat) : WorkQueue :=
  let done := if id / 2 ^ 32 = x.epoch then insertN x.doneIds (id % 2 ^ 32) else x.doneIds
  let (c, l) := advanceComp done.length x.comp done
  { x with comp := c, doneIds := l, live := x.live.filter fun l => l.id != id }

/-- A cancellation of a launch of a queue (R108): the state and the report word. `status` is 1, or 4 under a tenant reset. A launch whose root cell has
reached zero counts as complete, also before its completion has been made: the spec does not say (DESIGN CHOICE, log 105). -/
def cancelLaunch (s : State) (q id status : Nat) : State × Word :=
  match launchOf s q id with
  | none => (s, wordOf (2 ^ 62))
  | some l =>
    if l.finished then (s, wordOf (2 ^ 62))
    else
      let mine := fun r : Record => r.queue == q && r.launch == id
      let ready := s.ready.filter mine
      let parked := ((List.range 8).map fun d =>
        ((dispOf s (d + 1)).saved.filter fun e => mine e.2.strand.rec_ && e.2.parked && e.1 == e.2.strand.rec_.slots.headD 4096).map
          (·.2.strand.rec_)).flatten
      let removed := ready ++ parked
      let unexp := if l.ready then ceilDiv l.e l.gran - l.next else 0
      let s1 := { s with ready := s.ready.filter fun r => !mine r }
      let s2 := removed.foldl freeSlots s1
      let s3 := removed.foldl (fun s r => match r.child with | some c => freeArray s c | none => s) s2
      let s4 := updLaunch s3 q id fun l =>
        { l with cancelled := true, status := status, next := ceilDiv l.e l.gran, ready := true, finished := l.finished || l.root.isNone }
      let s5 := removed.foldl (fun s r =>
        match r.child with
        | some c => subCell (setCont s c (.subParent r.parent)) c (liveMembers r)
        | none => subCell s r.parent 1) s4
      let s6 :=
        match l.root with
        | some c => if unexp = 0 then s5 else subCell s5 c unexp
        | none => s5
      let ran := l.dispatched != 0
      (s6, wordOf (boolN ran * 2 ^ 63 + removed.length % 2 ^ 32))

end Sys2Proof.Machine
end

