-- ==== Sys2Proof/Machine/Save.lean ====
section
/-! DEFINITION. The save slot: what a save writes and what a restore reads back (R115, R116, R137). -/

namespace Sys2Proof.Machine

/-- The key by which a strand's record holds array slices: its child cell. -/
def mxOwner (st : Strand) : Nat := st.rec_.child.getD (2 ^ 20 + st.sid)

/-- The array state that a strand's record holds (R199, R200). -/
def holdOf (s : State) (st : Strand) : Option MxHold :=
  (NMap.getD s.mx st.clusterKey []).find? fun h => h.owner == mxOwner st && h.rank == st.rank

/-- RPTK and RPTROT (R136). -/
def rptkWord (r : Repeat) : Nat := boolN r.active * 2 ^ 63 + r.conv % 4 * 2 ^ 32 + r.kidx % 2 ^ 32
def rptrotWord (r : Repeat) : Nat := r.nstg % 8 * 4096 + r.rbase % 64 * 64 + r.rsize % 64

/-- TOKEXP and TOKLAND (R154). -/
def tokexpWord (t : Token) : Nat := boolN t.busy * 2 ^ 63 + t.expected % 2 ^ 32
def toklandWord (t : Token) : Nat := boolN t.pend * 2 ^ 63 + t.landed % 2 ^ 32

/-- The budget word (R116). -/
def budgetWord (b : Budget) (p : Option Budget) : Nat :=
  b.ncode.toNat + b.wcode.toNat * 8 +
    match p with
    | none => 0
    | some q => 256 + q.ncode.toNat * 512 + q.wcode.toNat * 4096

/-- The type-slot word (R116). -/
def typeWord (a b : TypeSlot) : Nat := a.ty.toNat + a.mode.toNat * 16 + b.ty.toNat * 256 + b.mode.toNat * 4096

/-- The array words (R116). -/
def arrayWord0 : Option MxHold → Nat
  | none => 0
  | some h =>
    h.grant % 1024 + h.slices.toNat * 2 ^ 10 + h.shadow.cursor % 8192 * 2 ^ 18 + h.active.cursor % 8192 * 2 ^ 31 +
      boolN h.shadow.fresh * 2 ^ 44 + boolN h.active.fresh * 2 ^ 45 + boolN h.shadow.sparse * 2 ^ 46 + boolN h.active.sparse * 2 ^ 47 +
      h.shadow.width % 16 * 2 ^ 48 + h.active.width % 16 * 2 ^ 52
def arrayWord1 : Option MxHold → Nat
  | none => 0
  | some h => h.shadow.n % 256 + h.shadow.m % 256 * 256 + h.active.n % 256 * 65536 + h.active.m % 256 * 2 ^ 24

/-- Word 0 of a continuation record (R101). -/
def recWord0 (r : Record) (resume : Bool) : Nat :=
  r.code.toNat / 16 * 16 + boolN r.gang * 8 + r.share % 4 * 2 + boolN resume

/-- The fixed part of a save slot, 1024 bytes (R115). EPC is the convoy and the syllable index (R110). -/
def saveFixed (st : Strand) (hold : Option MxHold) (epc : Nat) : List Byte :=
  let w := fun n : Nat => bytesOf 8 n
  w (recWord0 st.rec_ true) ++ w st.rec_.frame.toNat ++ w st.rec_.first.toNat ++
    w (st.rec_.parent % 2 ^ 32 * 2 ^ 32 + st.rec_.count % 2 ^ 32) ++ w st.cause.toNat ++ w epc ++ w st.vstart ++ w 0 ++
    (st.regs.map fun r => w r.toNat).flatten ++ (st.eas.map eaBytes).flatten ++ (st.fds.map fun d => bytesOf 4 d.toNat).flatten ++
    w st.vl ++ w st.vstart ++ w st.vhwm ++ w (budgetWord st.budget st.pending) ++ w (typeWord st.vt0 st.vt1) ++ w st.fflags.toNat ++
    w st.spbound.toNat ++ w st.rpt.rpc.toNat ++ w (rptkWord st.rpt) ++ w st.rpt.trip ++ w st.rpt.map0 ++ w st.rpt.map1 ++
    w (rptrotWord st.rpt) ++ (st.toks.map fun t => w (tokexpWord t)).flatten ++ (st.toks.map fun t => w (toklandWord t)).flatten ++
    w (boolN st.barw + st.bargen.toNat * 2 ^ 32) ++ w (arrayWord0 hold) ++ w (arrayWord1 hold) ++
    w (st.dirty ||| st.kept).toNat ++ ((st.iq ++ st.oq).map fun q => BitVec.ofNat 8 q.length) ++ List.replicate 112 0

/-- Bytes of a predicate register in a slot (R115). -/
def predBytes (vhwm : Nat) (p : Pred) : List Byte := bytesOf (8 * ceilDiv vhwm 64) (p.toNat % 2 ^ vhwm)

/-- Bytes of a vector register in a slot (R115): W-bit containers below VHWM, padded to 64 bytes. -/
def vregBytes (wb vhwm : Nat) (r : List Word) : List Byte :=
  let b := ((List.range vhwm).map fun i => bytesOf wb (r.getD i 0).toNat).flatten
  b ++ List.replicate (64 * ceilDiv (vhwm * wb) 64 - b.length) 0

/-- The registers whose copies stand in the slot, in increasing number: those written since the last restore, and those that keep their
earlier copy (R115). Log 84. -/
def slotRegs (st : Strand) : List Nat := (List.range 56).filter fun i => st.dirty.getLsbD i || st.kept.getLsbD i

/-- The index partition in a save (R213): count, kind, then key and value of each entry. Log 26. -/
def indexBytes (st : Strand) : List Byte :=
  bytesOf 4 st.xents.length ++ bytesOf 4 (boolN (st.xkind == .i64)) ++
    (st.xents.map fun e => bytesOf 8 e.key.toNat ++ bytesOf 56 e.val.toNat).flatten

/-- The race binding and the candidate set in a save (R368). Log 26. -/
def bindBytes (st : Strand) : List Byte :=
  let r := st.race
  bytesOf 4 (r.ctx % 64 + r.shard % 64 * 256 + boolN r.bound * 2 ^ 15) ++ bytesOf 4 r.tag ++ bytesOf 8 r.cands.length ++
    (r.cands.map fun c => bytesOf 4 c.1 ++ bytesOf 4 c.2).flatten

/-- An out-queue's group with other bits at its inactive positions. -/
def fillGroup (fill : BitVec 2048) (g : Group) : Group := { g with data := (g.data &&& g.act) ||| (fill &&& ~~~g.act) }

/-- The variable part of a slot, from offset 0x400 (R115, R213, R368); `fill` stands at the inactive positions of the out-queues, to which
R131 gives no value. -/
def saveVar (st : Strand) (fill : BitVec 2048) : List Byte :=
  ((List.range 7).map fun i => predBytes st.vhwm (st.preds.getD (i + 1) 0)).flatten ++
    ((st.iq.flatten ++ st.oq.flatten.map (fillGroup fill)).map fun g => bytesOf 256 g.data.toNat).flatten ++
    ((slotRegs st).map fun i => vregBytes (budgetWidth st.budget / 8) st.vhwm (st.vregs.getD i [])).flatten ++
    indexBytes st ++ bindBytes st

/-- The physical address of a save slot (R105). -/
def slotAddr (x : Dispatcher) (n : Nat) : Nat := x.svBase.toNat / 2 ^ 20 * 2 ^ 20 + n * 2 ^ x.svLog

/-- Writes a strand's context into a save slot of its die and keeps it there (R115). -/
def saveInto (s : State) (st : Strand) (n epc : Nat) (parked : Bool) : State :=
  let x := dispOf s st.die
  let img := saveFixed st (holdOf s st) epc ++ saveVar st (Config.freeGroup s.free)
  let s1 := physWrite { s with free := s.free + 1 } st.die (slotAddr x n) img
  putDisp s1 st.die { x with saved := NMap.set x.saved n { strand := { st with epc := wordOf epc }, parked := parked } }

/-- A word of a slot image. -/
def imgWord (img : List Byte) (off : Nat) : Nat := leAt img off 8

/-- A token restored from its words (R116). Where an instruction had taken the fault of a PEND token the engine starts again at TOKLAND;
a PEND token whose fault no instruction has taken stays as it was saved (R155). -/
def tokRestore (t : Token) (e l : Nat) : Token :=
  let pend := bitsN l 63 1 == 1 && !t.taken
  { t with busy := bitsN e 63 1 == 1, expected := e % 2 ^ 32, pend := pend, landed := l % 2 ^ 32, done := if pend then t.done else [],
           taken := false }

/-- Offsets of a slot image: the queues' groups, the vector registers, and the index partition after them (R115, R213). -/
def qOff (vhwm : Nat) : Nat := 0x400 + 56 * ceilDiv vhwm 64
def vOff (st : Strand) (vhwm : Nat) : Nat := qOff vhwm + 256 * ((st.iq ++ st.oq).map List.length).foldl (· + ·) 0
def xOff (st : Strand) (vhwm wb : Nat) : Nat := vOff st vhwm + (slotRegs st).length * (64 * ceilDiv (vhwm * wb) 64)

/-- VHWM and the bytes of an element as a slot's image gives them (R116). -/
def imgVhwm (img : List Byte) : Nat := min (imgWord img 0x290) 16384
def imgWidth (img : List Byte) : Nat := budgetWidth ⟨BitVec.ofNat 3 (imgWord img 0x298), BitVec.ofNat 2 (imgWord img 0x298 / 8)⟩ / 8

/-- The value of an index entry from its 56 bytes (R211, R213): an i64, or an EA with its reserved bits zero (R193). -/
def xValue (i64 : Bool) (n : Nat) : EA := if i64 then BitVec.ofNat 512 (n % 2 ^ 64) else eaClean (BitVec.ofNat 512 n)

/-- A strand read back from its slot's image (R115, R116): every word from 0x000 to 0x36F that R116 and R115 place, the predicates, the queue
contents, the registers whose copies stand in the slot, the index partition (R213), the race binding and the candidate set (R368). The checks of
R137 follow in `rptBad`. -/
def restoreFrom (st : Strand) (img : List Byte) : Strand :=
  let w := imgWord img
  let vhwm := imgVhwm img
  let b := w 0x298
  let t := w 0x2A0
  let pb := 8 * ceilDiv vhwm 64
  let qn := (st.iq ++ st.oq).map List.length
  let gOff := fun i k => qOff vhwm + 256 * ((qn.take i).foldl (· + ·) 0 + k)
  let grp := fun (i : Nat) (q : List Group) =>
    (List.range q.length).map fun k => { (q.getD k ⟨0, 0, 0, []⟩) with data := BitVec.ofNat 2048 (leAt img (gOff i k) 256) }
  let wb := imgWidth img
  let vsz := 64 * ceilDiv (vhwm * wb) 64
  let vreg := fun i =>
    match findIdx? (· == i) (slotRegs st) with
    | none => []
    | some k => (List.range vhwm).map fun e => wordOf (leAt img (vOff st vhwm + k * vsz + e * wb) wb)
  let x := xOff st vhwm wb
  let xn := min (leAt img x 4) 16384
  let r := x + 8 + 64 * xn
  let rw := leAt img r 4
  { st with
    cause := wordOf (w 0x20)
    epc := wordOf (w 0x28)
    pc := wordOf (w 0x28 / 16 * 16)
    regs := (List.range 32).map fun r => if r = 0 then 0 else wordOf (w (0x40 + 8 * r))
    eas := (List.range 4).map fun k => eaOfBytes (sliceBytes img (0x140 + 64 * k) 64)
    fds := (List.range 16).map fun k => BitVec.ofNat 32 (leAt img (0x240 + 4 * k) 4)
    vl := min (w 0x280) 16384
    vstart := min (w 0x288) 16384
    vsyl := if w 0x28 = st.epc.toNat && min (w 0x288) 16384 == st.vstart then st.vsyl else 4
    resumeAt := if w 0x28 = st.epc.toNat && min (w 0x288) 16384 == st.vstart then st.resumeAt else 0
    vhwm := vhwm
    budget := ⟨BitVec.ofNat 3 b, BitVec.ofNat 2 (b / 8)⟩
    pending := if bitsN b 8 1 = 1 then some ⟨BitVec.ofNat 3 (b / 512), BitVec.ofNat 2 (b / 4096)⟩ else none
    vt0 := ⟨BitVec.ofNat 4 t, BitVec.ofNat 2 (t / 16)⟩
    vt1 := ⟨BitVec.ofNat 4 (t / 256), BitVec.ofNat 2 (t / 4096)⟩
    fflags := BitVec.ofNat 5 (w 0x2A8)
    spbound := wordOf (bitsN (w 0x2B0) 32 25 * 2 ^ 32 + bitsN (w 0x2B0) 0 24)
    rpt :=
      { active := bitsN (w 0x2C0) 63 1 == 1, conv := bitsN (w 0x2C0) 32 2, kidx := w 0x2C0 % 2 ^ 32,
        rpc := wordOf (w 0x2B8 / 16 * 16), trip := w 0x2C8 % 2 ^ 32, map0 := w 0x2D0 % 2 ^ 32, map1 := w 0x2D8 % 2 ^ 32,
        nstg := bitsN (w 0x2E0) 12 3, rbase := bitsN (w 0x2E0) 6 6, rsize := bitsN (w 0x2E0) 0 6 }
    toks := (List.range 8).map fun k => tokRestore (st.toks.getD k Token.idle) (w (0x2E8 + 8 * k)) (w (0x328 + 8 * k))
    barw := bitsN (w 0x368) 0 1 == 1
    bargen := BitVec.ofNat 32 (w 0x368 / 2 ^ 32)
    preds := (List.range 8).map fun p =>
      if p = 0 then 0 else BitVec.ofNat 16384 (leAt img (0x400 + pb * (p - 1)) pb % 2 ^ vhwm)
    iq := (List.range 4).map fun i => grp i (st.iq.getD i [])
    oq := (List.range 4).map fun i => grp (4 + i) (st.oq.getD i [])
    vregs := (List.range 56).map vreg
    xkind := if leAt img (x + 4) 4 % 2 = 1 then .i64 else .ea
    xents := (List.range xn).map fun k =>
      { key := wordOf (leAt img (x + 8 + 64 * k) 8), val := xValue (leAt img (x + 4) 4 % 2 = 1) (leAt img (x + 16 + 64 * k) 56) }
    race :=
      { bound := bitsN rw 15 1 == 1, ctx := rw % 64, shard := bitsN rw 8 6, tag := leAt img (r + 4) 4,
        cands := (List.range (min (leAt img (r + 8) 8) 4096)).map fun k => (leAt img (r + 16 + 8 * k) 4, leAt img (r + 20 + 8 * k) 4) }
    dirty := 0
    kept := st.dirty ||| st.kept
    lateStop := false }

/-- Whether the repeat state of a restored strand fails a check of R137. -/
def rptBad (st : Strand) : Bool :=
  let a := st.rpt.rpc.toNat
  st.rpt.active && (decide (st.rpt.trip + st.rpt.nstg ≤ st.rpt.kidx) || decide (st.pc.toNat < a + 0x10) || decide (a + 0x4F < st.pc.toNat))

/-- The bytes of a slot that a restore reads: the fixed part says where the index partition stands, its count where the candidate set stands, and the
set's count where the image ends. -/
def slotImage (s : State) (d a : Nat) (st : Strand) : List Byte :=
  let img := physRead s d a 1024
  let x := xOff st (imgVhwm img) (imgWidth img)
  let xn := min (leAt (physRead s d (a + x) 4) 0 4) 16384
  let r := x + 8 + 64 * xn
  let cn := min (leAt (physRead s d (a + r + 8) 8) 0 8) 4096
  physRead s d a (r + 16 + 8 * cn)

/-- Reads a saved strand back from its slot (R109, R115). -/
def restoreSlot (s : State) (d n : Nat) (v : Saved) : Strand := restoreFrom v.strand (slotImage s d (slotAddr (dispOf s d) n) v.strand)

end Sys2Proof.Machine
end

