-- ==== Sys2Proof/Machine/Ops.lean ====
section
/-! DEFINITION. How a syllable ends, taking an exception, and the return from one (R109 to R113, R126, R297). -/

namespace Sys2Proof.Machine

/-- The bytes of a fault or error record (R112). -/
def faultBytes (cause kind tenant syl launch epc eval vstart src slot lane chain elem tsc rank gsize : Nat) : List Byte :=
  bytesOf 1 cause ++ bytesOf 1 kind ++ bytesOf 1 tenant ++ bytesOf 1 syl ++ bytesOf 4 launch ++ bytesOf 8 epc ++ bytesOf 8 eval ++
    bytesOf 4 vstart ++ bytesOf 2 src ++ bytesOf 2 slot ++ bytesOf 2 lane ++ bytesOf 2 chain ++ bytesOf 4 elem ++ bytesOf 8 tsc ++
    bytesOf 1 rank ++ bytesOf 1 gsize ++ List.replicate 14 0

/-- Free records of a die's fault ring (R112). -/
def ringRoom (x : Dispatcher) : Nat := 2 ^ x.fltSize - (x.fltHead - x.fltTail)

/-- Writes a record at the head of a die's fault ring. -/
def ringPut (s : State) (d : Nat) (bytes : List Byte) : State :=
  let x := dispOf s d
  let s1 := physWrite s d (x.fltBase.toNat / 4096 * 4096 + 64 * (x.fltHead % 2 ^ x.fltSize)) bytes
  putDisp s1 d { x with fltHead := x.fltHead + 1 }

/-- A report that a full ring drops and counts (R112, R113); nothing is written while EN = 0. -/
def ringReport (s : State) (d : Nat) (bytes : List Byte) : State :=
  let x := dispOf s d
  if !x.fltEn then s
  else if ringRoom x = 0 then putDisp s d { x with fltLost := x.fltLost + 1 }
  else ringPut s d bytes

/-- The fault record of a strand (R112): kind 0, 3 or 4; `slot` is the save slot number, 0xFFFF for kind 3. -/
def strandRecord (st : Strand) (kind slot : Nat) : List Byte :=
  let f := kind != 4
  faultBytes (if f then st.cause.toNat else 0) kind st.rec_.tenant (if f then st.fslot else 0) st.rec_.launch
    (if f then st.epc.toNat else st.pc.toNat) (if f then st.eval.toNat else 0) (if f then st.vstart else 0) (strandSrc st) slot 0 0
    (if f then st.felem else 0) st.ftsc st.rank (if st.rec_.gang then st.rec_.gsize else 0)

/-- Whether a request's flit is held (R36). -/
def heldTag (s : State) (tag : Nat) : Bool := s.fabric.tx.any fun t => t.unacked.any fun x => x.held && x.tag == tag

/-- Groups that a queue holds (R131). -/
def queueRoom : Nat := 16

/-- Whether a syllable still waits on a full queue of a strand: more groups stand in it than it holds (R131, R132). -/
def overfull (st : Strand) : Bool := (st.iq ++ st.oq).any fun q => decide (queueRoom < q.length)

/-- Whether an access that has left is answered though nothing comes back for it: every die has applied it (R27, R178). -/
def ownDone (o : Ordering_) (x : Outstanding) : Bool := !x.clock.isEmpty && reachedAll o x.clock

/-- Whether nothing of a strand is outstanding, so that it can be saved (R114, R155, R416): its copies have landed, its accesses have left and been
answered, and its late failures have been taken. -/
def drained (s : State) (st : Strand) : Bool :=
  st.toks.all (fun t => !t.busy || t.pend) && st.outst.all (ownDone s.ord) && st.pq.isEmpty && (st.late.isEmpty || st.lateStop) &&
    st.answers.all fun a => a.data.isSome || heldTag s a.tag

/-- What stays of a request that a fault overtakes (R36): an atomic that has been sent, and a request whose flit is held, which is sent again on
resume. -/
def stashOne (s : State) (a : Answer) : Option Answer :=
  match a.data with
  | some .failed => if heldTag s a.tag then some { a with slot := a.slot + 32, data := none } else none
  | some .noValue => none
  | _ => if a.atomic then some { a with slot := a.slot + 32 } else none

/-- Puts the requests of some slots aside. -/
def stash (s : State) (p : Nat → Bool) (st : Strand) : Strand :=
  { st with answers := st.answers.filterMap fun a => if p a.slot then stashOne s a else some a }

/-- Forgets what the syllables of a convoy asked of other packages, but for what stands for its access on resume: the convoy asks again when it
issues again. -/
def dropAnswers (s : State) (st : Strand) : Strand := stash s (fun k => k < 7) st

/-! A convoy that waits, and the stop of its strand. -/

/-- What a strand's record holds of its cluster's array. -/
def mxMine (s : State) (st : Strand) : List MxHold :=
  (NMap.getD s.mx st.clusterKey []).filter fun h => h.owner == mxOwner st && h.rank == st.rank

/-- Puts back what a strand's record held of the array. -/
def mxPut (s : State) (st : Strand) (l : List MxHold) : State :=
  if mxMine s st = l then s
  else
    { s with
      mx := NMap.set s.mx st.clusterKey
        ((NMap.getD s.mx st.clusterKey []).filter (fun h => !(h.owner == mxOwner st && h.rank == st.rank)) ++ l) }

/-- The old values that VAMO.RET has brought to a queue since a convoy began (R332). -/
def refill (now old : List Group) : List Group :=
  old.map fun g => if g.wait.isEmpty then g else (now.find? fun h => h.id == g.id && h.act == g.act).getD g

/-- A strand at the start of a convoy, with what has happened to it outside the convoy since: what its accesses, copies, requests and failures
are at, its candidate set, which the race unit changes, and how it is scheduled (R111, R127, R367). -/
def undoStrand (now start : Strand) : Strand :=
  { start with
    run := now.run
    rec_ := now.rec_
    toks := now.toks
    iq := List.zipWith refill now.iq start.iq
    olds := now.olds
    fflags := start.fflags ||| now.brought
    brought := now.brought
    pq := now.pq
    race := now.race
    armed := now.armed
    nextFill := now.nextFill
    nextGrp := now.nextGrp
    lookFuel := now.lookFuel
    outst := now.outst
    answers := now.answers
    late := now.late
    faulted := now.faulted
    reported := now.reported
    lateStop := now.lateStop
    fslot := now.fslot
    felem := now.felem
    ftsc := now.ftsc
    stopOrder := now.stopOrder }

/-- The element numbers of the notes that a convoy in progress keeps of itself: a VLDSC's tickets, the first and how many, and how far a trunk
strand's copy has come. They do not outlive the convoy's stop. -/
def ticketElem : Nat := 2 ^ 30
def stepElem : Nat := 2 ^ 30 + 1
def isOwnNote (a : Answer) : Bool := decide (a.slot < 7) && (a.elem == ticketElem || a.elem == stepElem)

/-- The tickets that a VLDSC of a convoy in progress has drawn (R177). -/
def notedTickets (st : Strand) : List Nat :=
  (st.answers.map fun a => if a.slot < 7 && a.elem == ticketElem then
      match a.data with
      | some (.bytes b) => (List.range (leAt b 8 8)).map fun k => leAt b 0 8 + k
      | _ => []
    else []).flatten

/-- The tickets of the queued SC elements of a convoy in progress. -/
def queuedTickets (st : Strand) : List Nat := st.wbuf.filterMap fun x => match x with
  | .acc a => match a.kind with
    | .ticketed _ t => some t
    | _ => none
  | _ => none

/-- The tickets that the SC accesses of a convoy in progress have drawn and not performed (R177). -/
def openTickets (st : Strand) : List Nat := queuedTickets st ++ notedTickets st

/-- The trace records of a strand's TRMARK syllables are written when their convoy retires, with its time (R77). -/
def marksOf (s : State) (sid : Nat) : State :=
  let st := strandOf s sid
  st.marks.foldl (fun s (code, pay) =>
    let r := ringOf s st.die
    if r.en && r.user then tracePut s st.die code (strandSrc st) pay else s)
    (if st.marks.isEmpty then s else putStrand s sid { st with marks := [] })

/-- What the convoys that have retired queued enters the path queues at a stop, and their trace records are written, also where a full queue held them
back (R131). -/
def commitStop (s : State) (sid : Nat) : State :=
  let s1 := marksOf s sid
  let st := strandOf s1 sid
  if st.wbuf.isEmpty then s1 else putStrand s1 sid { st with pq := st.pq ++ st.wbuf, wbuf := [] }

/-- A stop takes a strand whose convoy waits at that convoy's start (R127, R294): nothing of the convoy stands. -/
def abandon (s : State) (sid : Nat) : State :=
  match NMap.get? s.held sid with
  | none => commitStop s sid
  | some h =>
    let now := strandOf s sid
    let st := undoStrand { now with answers := now.answers.filter (!isOwnNote ·) } h.start
    let mine := (openTickets now).filter fun t => !hasN (openTickets h.start) t
    let s1 := putStrand { s with held := NMap.erase s.held sid, ord := dropTickets s.ord mine } sid st
    mxPut (commitStop s1 sid) st h.mx

/-- Puts a strand into a list in rising rank. -/
def insRank (x : Strand) : List Strand → List Strand
  | [] => [x]
  | y :: t => if x.rank ≤ y.rank then x :: y :: t else y :: insRank x t

/-- The resident strands that run the record of a strand: its gang in rising rank, or itself (R100, R109). -/
def gangOf (s : State) (st : Strand) : List Strand :=
  ((s.strands.filter fun x => !x.2.trunk && x.2.run != .idle && x.2.rec_.child == st.rec_.child && x.2.die == st.die &&
    (st.rec_.child.isSome || x.2.sid == st.sid)).map (·.2)).foldr insRank []

/-- The save slot that a strand's record already holds for it (R115): the slot whose saved strand has its rank. -/
def ownSlot (s : State) (st : Strand) : Option Nat :=
  st.rec_.slots.find? fun n =>
    match NMap.get? (dispOf s st.die).saved n with
    | some v => v.strand.rank == st.rank
    | none => false

/-- The free save slots of a die, lowest first. -/
def freeSlotsOf (x : Dispatcher) : List Nat := (List.range x.svCount).filter fun n => (NMap.get? x.saved n).isNone

/-- Gives each strand of a list its save slot: its own, or the next free one. -/
def assignSlots (s : State) : List Strand → List Nat → List (Strand × Nat)
  | [], _ => []
  | st :: t, free =>
    match ownSlot s st, free with
    | some n, fr => (st, n) :: assignSlots s t fr
    | none, n :: fr => (st, n) :: assignSlots s t fr
    | none, [] => []

/-- The members that hold no save slot. -/
def lackSlots (s : State) (g : List Strand) : Nat := (g.filter fun st => (ownSlot s st).isNone).length

/-- Gives the flits of a strand to another strand number: a saved strand's held flits wait under a number of their own (R36). -/
def moveFlits (s : State) (a b : Nat) : State :=
  if s.fabric.tx.isEmpty then s
  else
    { s with
      fabric := { s.fabric with
        tx := s.fabric.tx.map fun t => { t with unacked := t.unacked.map fun x => if x.sid = a then { x with sid := b } else x } } }

/-- The number under which a saved strand's flits wait: by its child cell and rank. -/
def savedSid (st : Strand) : Nat := 8192 + 32 * mxOwner st + st.rank

/-- Saves the strands of a record and takes them off their slots (R109, R115). `parked`: the record waits for RESUMEW or KILLW. -/
def saveAll (s : State) (as_ : List (Strand × Nat)) (parked : Bool) : State :=
  let ns := as_.map (·.2)
  as_.foldl (fun s (m, n) =>
    let s := abandon s m.sid
    let st := strandOf s m.sid
    let r := { st.rec_ with slots := ns, svDie := st.die, cluster := some st.clusterKey, resume := true, parked := parked }
    let s1 := saveInto s { dropAnswers s st with rec_ := r, early := [] } n (if st.faulted then st.epc.toNat else st.pc.toNat) parked
    moveFlits { s1 with strands := NMap.erase s1.strands st.sid } st.sid (savedSid st)) s

/-- The stopped strand that has been stopped longest, not before a stop order. -/
def oldestStopped (s : State) (d lo : Nat) : Option Strand :=
  (s.strands.foldl (fun (b : Option Strand) x =>
    let st := x.2
    if !st.trunk && st.die == d && st.run == .stopped && st.faulted && decide (lo ≤ st.stopOrder) then
      match b with
      | none => some st
      | some y => if st.stopOrder < y.stopOrder then some st else b
    else b) none)

/-- Writes the kind-3 reports of the members that faulted and have none (R113). -/
def reportWaiting (s : State) (g : List Strand) : State :=
  g.foldl (fun s st =>
    if st.faulted && !st.reported then
      putStrand (ringReport s st.die (strandRecord st 3 0xFFFF)) st.sid { strandOf s st.sid with reported := true }
    else s) s

/-- Serves the stopped strands of a die, longest stopped first (R109, R113): each whose record has save slots for all its members, and
whose fault records fit the ring, is saved, parked and reported. `held` says that an earlier record waits for slots. -/
def serveStopped : Nat → State → Nat → Nat → Bool → State
  | 0, s, _, _, _ => s
  | k + 1, s, d, lo, held =>
    match oldestStopped s d lo with
    | none => s
    | some st =>
      let g := gangOf s st
      let x := dispOf s d
      let lack := lackSlots s g
      let enough := lack = 0 || (!held && decide (lack ≤ (freeSlotsOf x).length))
      if !enough then serveStopped k (reportWaiting s g) d (st.stopOrder + 1) true
      else if !(g.all (drained s)) || ringRoom x < g.length then serveStopped k s d (st.stopOrder + 1) (held || lack != 0)
      else
        let as_ := assignSlots s g (freeSlotsOf x)
        let s1 := saveAll s as_ true
        let s2 := as_.foldl (fun s (m, n) => ringPut s d (strandRecord m (if m.faulted then 0 else 4) n)) s1
        serveStopped k s2 d (st.stopOrder + 1) held

/-- Serves the stopped strands of a die while its fault ring is enabled (R113). -/
def serveFaults (s : State) (d : Nat) : State :=
  if (dispOf s d).fltEn && !pdHeld s then serveStopped s.strands.length s d 0 false else s

/-- A strand of a P- or D-die stops at its convoy (R109, R111): CAUSE, EPC and EVAL are written, its gang stops with it, and the die
saves it as soon as it can. -/
def stopFaulted (s : State) (st : Strand) (cause : Nat) (eval : Word) (elem : Nat) : State :=
  let g := gangOf s st
  let s1 := g.foldl (fun s m =>
    if m.sid = st.sid || m.run = .stopped then s
    else
      let s := abandon s m.sid
      putStrand s m.sid { strandOf s m.sid with run := .stopped, faulted := false, ftsc := tscOf s m.die, early := [] }) s
  let s2 := putStrand s1 st.sid
    { st with run := .stopped, faulted := true, reported := false, cause := wordOf cause, epc := wordOf (st.pc.toNat / 16 * 16 + s.slot % 4),
              eval := eval, fslot := s.slot % 4, felem := elem, ftsc := tscOf s st.die, stopOrder := s.orderNo }
  serveFaults { s2 with orderNo := s.orderNo + 1 } st.die

/-- The security root records that a trunk strand stopped (R297), in the measurement log. Log 11. -/
def logTrunkStop (s : State) (core : Nat) : State :=
  { s with sec := { s.sec with log := s.sec.log ++ [{ n := 8, ty := 0, digest := 0, value := bytesOf 1 core }] } }

/-- A memory controller that turned an access away has counted it (R147), an engine's where the engine stopped. -/
def countBeyond (s : State) (cause : Nat) (eval : Word) : State :=
  if cause = cLink && !((me s).toks.any fun t => t.pend && t.taken && t.eval == eval) then
    match ownBeyond s (me s) eval with
    | some d => { s with fabric := countProto s.fabric (100 + d) }
    | none => s
  else s

/-- TAKING AN EXCEPTION (R109 to R111, R297), from a state in which nothing of the convoy stands but what R111 keeps. On a trunk strand
CAUSE, EPC and EVAL are written, TH is set and fetch continues at TVEC; a fault while TH = 1 stops the strand. On a P- or D-die
strand the strand stops, and its record is parked. -/
def takeException (s : State) (cause : Nat) (eval : Word) (elem : Nat) : State :=
  let s := countBeyond (abandon { s with convoy := none } s.cur) cause eval
  let s := { s with ord := dropTickets s.ord (notedTickets (me s)) }
  let st := dropAnswers s { me s with early := [], answers := (me s).answers.filter (!isOwnNote ·) }
  if st.trunk then
    if st.th then logTrunkStop (putMe s { st with run := .dead }) st.core
    else
      let tv := wordOf (st.tvec.toNat / 16 * 16)
      putMe s { st with cause := wordOf cause, epc := wordOf (st.pc.toNat / 16 * 16 + s.slot % 4), eval := eval, th := true, pc := tv, npc := tv }
  else stopFaulted s st cause eval elem

/-- THE RETURN FROM AN EXCEPTION (R297): TH clears, and the convoy EPC[63:4] issues again. -/
def returnException (s : State) : State :=
  let st := me s
  putMe s { st with th := false, npc := wordOf (st.epc.toNat / 16 * 16) }

/-- Undoes what the convoy in progress has changed (R111). Outside a convoy nothing is to undo. -/
def rollback (s : State) : State :=
  match s.convoy with
  | none => s
  | some c =>
    { s with
      strands := c.strands
      ord := c.ord
      disp := c.disp
      queues := c.queues
      cells := c.cells
      nextCell := c.nextCell
      ready := c.ready
      orderNo := c.orderNo
      mx := c.mx
      race := c.race
      raceOps := c.raceOps
      rot := c.rot
      streams := c.streams
      dettab := c.dettab
      trace := c.trace
      clocks := c.clocks
      snap := c.snap
      power := c.power
      fabric := c.fabric
      eth := c.eth
      sec := c.sec
      tenants := c.tenants
      errors := c.errors
      tnroot := c.tnroot
      tkroot := c.tkroot
      tlb := c.tlb
      tlbInv := c.tlbInv
      tweight := c.tweight }

/-- The parts of the machine that a convoy may change, as they stand. -/
def checkpoint (s : State) (ws : List (BitVec 32)) (replay : Bool) : Convoy :=
  { words := ws, replay := replay, strands := s.strands, ord := s.ord, disp := s.disp, queues := s.queues, cells := s.cells, nextCell := s.nextCell,
    ready := s.ready,
    orderNo := s.orderNo, mx := s.mx, race := s.race, raceOps := s.raceOps, rot := s.rot, streams := s.streams,
    dettab := s.dettab, trace := s.trace, clocks := s.clocks, snap := s.snap, power := s.power, fabric := s.fabric,
    eth := s.eth, sec := s.sec, tenants := s.tenants, errors := s.errors, tnroot := s.tnroot, tkroot := s.tkroot,
    tlb := s.tlb, tlbInv := s.tlbInv, tweight := s.tweight }

/-- The state in which the convoy in progress goes back, on a fault, to a strand and its array holding as they stood at its start, and to everything
else as it stands now (R111). -/
def openConvoy (s : State) (start : Strand) (mx : List MxHold) (ws : List (BitVec 32)) (replay : Bool) : State :=
  let now := me s
  let st := undoStrand now start
  let mine := (queuedTickets now).filter fun t => !hasN (queuedTickets start) t
  let back := mxPut { putMe s st with ord := dropTickets s.ord mine } st mx
  { s with convoy := some (checkpoint back ws replay) }

/-- What a syllable that cannot be rolled back has done stands from now on: a scalar atomic, LAUNCH, CANCEL, BAR (R393). It has been noted, so that
the convoy, issued again, does not do it twice. -/
def standNow (s : State) : State :=
  match s.convoy with
  | none => s
  | some c =>
    let start := NMap.getD c.strands s.cur (me s)
    openConvoy s start (mxMine { s with mx := c.mx } start) c.words c.replay

/-- How a syllable ends. -/
inductive Res where
  /-- It has taken effect. -/
  | ok (s : State)
  /-- It faults, and nothing of its convoy stands: cause, EVAL, element index (R111, R112). -/
  | trap (cause : Nat) (eval : Word) (elem : Nat)
  /-- It faults with elements committed: `s` is the rolled-back state with them (R111). -/
  | part (s : State) (cause : Nat) (eval : Word) (elem : Nat)
  /-- It waits: `s` is the state that the earlier syllables left, with the moves that the wait made. The convoy goes on at this syllable. -/
  | wait (s : State)

/-- Keeps a convoy that waits (R126): the strand and its array holding as they stood at its start, and the syllable that goes on. -/
def holdConvoy (s s' : State) : State :=
  match s.convoy with
  | none => s'
  | some c =>
    let start := NMap.getD c.strands s.cur (strandOf s s.cur)
    { s' with
      convoy := none
      held := NMap.set s'.held s.cur
        { pos := convoyPos s, words := c.words, replay := c.replay, start := start, mx := mxMine { s with mx := c.mx } start } }

/-- The state a syllable leaves. -/
def finish (s : State) : Res → Out State
  | .ok s' => .next s'
  | .trap c e n => .next (takeException (rollback s) c e n)
  | .part s' c e n => .next (takeException s' c e n)
  | .wait s' => .next (holdConvoy s s')

/-- The element index at which the syllable in progress starts (R111): VSTART belongs to the syllable that faulted at it, or to the one that EPC
names; every other syllable of a convoy that issues again starts at 0. Where a late failure has taken VSTART (R416), the syllable goes on where its elements
were committed. Logs 19 and 92. -/
def startOf (s : State) : Nat :=
  let st := me s
  if (if st.vsyl = 4 then st.epc.toNat % 4 else st.vsyl) = s.slot % 4 then (if st.vstart = 0 then st.resumeAt else st.vstart) else 0

/-- Illegal-instruction at a syllable (R253). -/
def illegal (s : State) (i : Instr) : Res := .trap cIllegal (sylWord s i) 0

/-- The unavailable fault of a vector syllable on a trunk strand (R121), else the meaning. -/
def vecOnly (s : State) (i : Instr) (r : Unit → Res) : Res :=
  if (me s).trunk then .trap cUnavailable (sylWord s i) 0 else r ()

end Sys2Proof.Machine
end

