-- ==== Sys2Proof/Machine/Fabric.lean ====
section
/-! DEFINITION. The source side of the scale-up fabric: streams, spraying, retry and failures (R24 to R41), sync words (R157), and
how a failure reaches the strand (R36, R37, R416). -/

namespace Sys2Proof.Machine

/-- PATH codes of a flit (R28). -/
def pathCode : Path → Nat
  | .ls => 0
  | .bt => 1
  | .cl => 2
  | .mx => 3
  | .rc => 4

/-- KIND codes of R29. -/
def kRdreq : Nat := 0
def kWrreq : Nat := 1
def kAtreq : Nat := 2
def kRdata : Nat := 3
def kWdone : Nat := 4
def kCldat : Nat := 5
def kXsdat : Nat := 6
def kDack : Nat := 7
def kNak : Nat := 8
def kUnav : Nat := 9

/-- The 16-byte descriptor that opens a request's payload (R31). -/
def descBytes (addr count op esz tag : Nat) : List Byte :=
  bytesOf 8 addr ++ bytesOf 2 count ++ bytesOf 1 op ++ bytesOf 1 esz ++ bytesOf 4 tag

/-- Size codes of R31: 1, 2, 4, 8 bytes. -/
def sizeCode (n : Nat) : Nat := Nat.log2 n

/-- The source die that a flit names: dies 1 to 8; traffic of the trunk die leaves through die 1. Log 13. -/
def fabricDie (d : Nat) : Nat := if d = 0 then 1 else d

/-! The bytes of a flit (R28, R30). -/

/-- One bit of the reflected CRC-64 with the polynomial 0x42F0_E1EB_A9EA_3693 (R30). -/
def flitCrcBit (c : Word) : Word := if c.getLsbD 0 then (c >>> 1) ^^^ 0xC96C5795D7870F42#64 else c >>> 1

/-- One byte of the CRC. -/
def flitCrcByte (c : Word) (b : Byte) : Word := (List.range 8).foldl (fun c _ => flitCrcBit c) (c ^^^ b.setWidth 64)

/-- The CRC-64 of R30: initial value and final XOR all ones. -/
def crc64 (bs : List Byte) : Word := ~~~(bs.foldl flitCrcByte (~~~0#64))

/-- The header of a flit (R28). -/
def flitHeader (x : Flit) : Nat :=
  x.payload.length % 256 + x.seq % 65536 * 2 ^ 8 + x.zero % 4 * 2 ^ 24 + x.try_ % 8 * 2 ^ 26 + x.path % 8 * 2 ^ 29 + x.kind % 16 * 2 ^ 32 +
    x.srcDie % 16 * 2 ^ 36 + x.dstDie % 16 * 2 ^ 40 + x.srcPkg % 1024 * 2 ^ 44 + x.dstPkg % 1024 * 2 ^ 54

/-- The 256 bytes of a flit: header, payload, CRC over both (R28, R30). -/
def flitBytes (x : Flit) : List Byte :=
  let b := bytesOf 8 (flitHeader x) ++ sliceBytes x.payload 0 240
  b ++ bytesOf 8 (crc64 b).toNat

/-- The flit that 256 bytes on a plane hold (R25, R28, R30). A LEN above 240 stays visible in the payload's length. -/
def flitOf (plane : Nat) (fec : Bool) (b : List Byte) : Flit :=
  let h := leAt b 0 8
  { dstPkg := bitsN h 54 10, srcPkg := bitsN h 44 10, dstDie := bitsN h 40 4, srcDie := bitsN h 36 4, kind := bitsN h 32 4,
    path := bitsN h 29 3, try_ := bitsN h 26 3, zero := bitsN h 24 2, seq := bitsN h 8 16, plane := plane,
    crcOk := fec && (crc64 (sliceBytes b 0 248)).toNat == leAt b 248 8, payload := sliceBytes (sliceBytes b 8 240) 0 (bitsN h 0 8) }

/-- Planes that may be chosen: enabled in PLANEEN, reached over bridges that stand, and up (R33, R34, R42). -/
def planesUsable (f : Fabric) (die : Nat) : List Nat := (planesEnabled f die).filter fun k => f.planeUp.getLsbD k

/-- The plane of a flit (R33, R34): the next in the die's rotation that the flit has not used, else the next in rotation. -/
def choosePlane (f : Fabric) (die : Nat) (used : List Nat) : Option Nat :=
  let avail := planesUsable f die
  let fresh := avail.filter fun k => !hasN used k
  let c := if fresh.isEmpty then avail else fresh
  let r := NMap.getD f.rotor die 0
  match c.find? fun k => decide (r ≤ k) with
  | some k => some k
  | none => c.head?

/-- Transmits a flit on a plane, if one is usable (R34); a flit that finds none waits at the source, its tries counted. -/
def transmit (f : Fabric) (die : Nat) (x : SentFlit) : Fabric × SentFlit :=
  match choosePlane f die x.used with
  | none => (f, { x with due := true })
  | some k =>
    let fl := { x.flit with plane := k, try_ := x.tries }
    ({ f with outbox := f.outbox ++ [fl], rotor := NMap.set f.rotor die ((k + 1) % 48), sent := NMap.set f.sent k (NMap.getD f.sent k 0 + 1) },
     { x with flit := fl, used := insertN x.used k, due := false })

/-- A stream of the source side. -/
def txOf (f : Fabric) (k : StreamKey) : TxStream := (f.tx.find? fun t => t.key == k).getD { key := k, next := 0, unacked := [], acked := [] }

/-- Replaces a stream of the source side. -/
def putTx (f : Fabric) (t : TxStream) : Fabric :=
  if f.tx.any fun u => u.key == t.key then { f with tx := f.tx.map fun u => if u.key == t.key then t else u }
  else { f with tx := f.tx ++ [t] }

/-- A flit of a stream. -/
def mkFlit (f : Fabric) (k : StreamKey) (kind seq : Nat) (payload : List Byte) : Flit :=
  { dstPkg := k.dstPkg, srcPkg := f.pkgId, dstDie := k.dstDie, srcDie := k.srcDie, kind := kind, path := k.path, try_ := 0, zero := 0,
    seq := seq % 65536, plane := 0, crcOk := true, payload := payload }

/-- Sends a request flit on its stream (R32, R33), on other planes than those of `avoid` while there are others; none while 4096 flits of the stream
are unacknowledged. Its SEQ is the stream's next, or the one given, where it goes again. -/
def sendReqAs (f : Fabric) (k : StreamKey) (kind : Nat) (payload : List Byte) (sid tag : Nat) (va : Word) (group : Nat)
    (avoid : List Nat) (seq : Option Nat) : Option Fabric :=
  let t := txOf f k
  if 4096 ≤ t.unacked.length then none
  else
    let x : SentFlit :=
      { flit := mkFlit f k kind (seq.getD t.next) payload, tries := 0, used := avoid, held := false, due := false, sid := sid, tag := tag, va := va,
        group := group, out := none }
    let (f1, x1) := transmit f k.srcDie x
    some (putTx f1 { t with next := if seq.isSome then t.next else t.next + 1, unacked := t.unacked ++ [x1] })
def sendReq (f : Fabric) (k : StreamKey) (kind : Nat) (payload : List Byte) (sid tag : Nat) (va : Word) (group : Nat) :
    Option Fabric := sendReqAs f k kind payload sid tag va group [] none

/-- Changes the unacknowledged flits of a list with a step that may transmit. -/
def mapFlits (g : Fabric → SentFlit → Fabric × SentFlit) : Fabric → List SentFlit → Fabric × List SentFlit
  | f, [] => (f, [])
  | f, x :: l =>
    let (f1, x1) := g f x
    let (f2, l2) := mapFlits g f1 l
    (f2, x1 :: l2)

/-- Changes the unacknowledged flits of every stream. -/
def mapStreams (f : Fabric) (g : StreamKey → Fabric → SentFlit → Fabric × SentFlit) : Fabric :=
  f.tx.foldl (fun f t =>
    let (f1, l) := mapFlits (g t.key) f t.unacked
    putTx f1 { t with unacked := l }) f

/-- Hands a flit to a plane. -/
def handOut (f : Fabric) (k : Nat) (x : Flit) : Fabric :=
  { f with outbox := f.outbox ++ [{ x with plane := k }], sent := NMap.set f.sent k (NMap.getD f.sent k 0 + 1) }

/-- Hands a flit without a SEQ of its own (DACK, UNAV) to the next plane of a die's rotation; it waits at its die where no plane is usable (R34). -/
def emit (f : Fabric) (die : Nat) (x : Flit) : Fabric :=
  match choosePlane f die [] with
  | none => { f with due := f.due ++ [(die, x)] }
  | some k => { handOut f k x with rotor := NMap.set f.rotor die ((k + 1) % 48) }

/-- The flits that wait at their sources for a plane are sent (R34). -/
def sendDue (f : Fabric) : Fabric :=
  let f1 := mapStreams f fun k f x => if x.due && !x.held then transmit f k.srcDie x else (f, x)
  if f1.due.isEmpty then f1 else f1.due.foldl (fun f x => emit f x.1 x.2) { f1 with due := [] }

/-- Whether a request's flit has still to leave: no plane has taken it (R381). -/
def toLeave (f : Fabric) (tag : Nat) : Bool := f.tx.any fun t => t.unacked.any fun x => x.tag == tag && x.used.isEmpty

/-- The step-start records of the collectives whose last outgoing fragment has left (R76, R381). -/
def collStarts (s : State) : State :=
  if s.fabric.starts.isEmpty then s
  else
    let go := fun (c : CollStep) => !(c.tags.any (toLeave s.fabric))
    let s1 := { s with fabric := { s.fabric with starts := s.fabric.starts.filter fun c => !go c } }
    (s.fabric.starts.filter go).foldl (fun s c => traceStep s c.die false c.src c.sync c.gen c.kind 0 c.part) s1

/-- A step whose fragment is discarded before it has left writes no step-start record. -/
def dropStarts (f : Fabric) (gone : SentFlit → Bool) : Fabric :=
  if f.starts.isEmpty then f
  else
    let lost := fun (tag : Nat) => f.tx.any fun t => t.unacked.any fun x => x.tag == tag && x.used.isEmpty && gone x
    { f with starts := f.starts.filter fun c => !c.tags.any lost }

/-- The waiting flits are sent, with the records that this makes due. -/
def sendWaiting (s : State) : State := collStarts { s with fabric := sendDue s.fabric }

/-- Whether flits are held anywhere (FABCTL.HELD, R36). -/
def anyHeld (f : Fabric) : Bool := f.tx.any fun t => t.unacked.any (·.held)

/-- Sends the held flits of a strand again, with their SEQ (R36): they perform once, and their accesses are outstanding again. TRY starts anew; the
planes that failed are taken last (R155). Log 85. -/
def resendFlits (s : State) (sid : Nat) : State :=
  let mine := fun (x : SentFlit) => x.held && x.sid == sid
  let outs := (s.fabric.tx.map fun t => (t.unacked.filter mine).filterMap (·.out)).flatten
  if s.fabric.tx.all fun t => t.unacked.all fun x => !mine x then s
  else
    let f := mapStreams s.fabric fun k f x =>
      if mine x then transmit f k.srcDie { x with held := false, tries := 0, out := none } else (f, x)
    let st := strandOf s sid
    putStrand { s with fabric := { f with held := anyHeld f } } sid { st with outst := st.outst ++ outs }

/-- Whether a request's flit stands in a retry buffer. -/
def flitTag (s : State) (tag : Nat) : Bool := s.fabric.tx.any fun t => t.unacked.any fun x => x.tag == tag

/-- The element number of the note of an atomic that performed ahead of its turn (R169). -/
def aheadElem : Nat := 2 ^ 30 + 4

/-- The requests that a fault put aside stand for their accesses again (R36), where the strand resumes the convoy that sent them and their flits, if
they were held, have not been discarded; an atomic that performed ahead of its turn keeps its note until its convoy comes. -/
def unstash (s : State) (st : Strand) : Strand :=
  { st with
    answers := st.answers.filterMap fun a =>
      if a.slot < 32 then (if 8 ≤ a.slot && a.slot < 16 then none else some a)
      else if a.data.isNone && !a.atomic && !flitTag s a.tag then none
      else if a.slot < 40 && a.pc != st.pc.toNat && a.elem != aheadElem then none
      else some { a with slot := a.slot - 32 } }

/-- A fresh requester tag, never 0. -/
def newTag (f : Fabric) : Nat × Fabric := (f.nextTag % (2 ^ 32 - 1) + 1, { f with nextTag := f.nextTag + 1 })

/-- The stream of a strand's path to a peer die. -/
def streamTo (st : Strand) (p : Path) (pkg pa : Nat) : StreamKey :=
  { srcDie := fabricDie st.die, dstPkg := pkg, dstDie := pa / 2 ^ 52 % 16, path := pathCode p }

/-- The mark of a read request for a scratchpad (R341): bit 63 of the address, which no physical address has. Log 25. -/
def spadMark : Nat := 2 ^ 63

/-- The destination address that a descriptor carries (R31). -/
def wireAddr (pa : Nat) : Nat := pa % 2 ^ 52 + if spadMark ≤ pa then spadMark else 0

/-- The element-size byte of a request (R31); a request for a scratchpad carries the sender's tenant in bits 7:2 (R342). Log 14. -/
def wireSize (st : Strand) (size pa : Nat) : Nat := sizeCode (min 8 size) + if spadMark ≤ pa then 4 * st.tenant else 0

/-- Whether a strand still waits for an answer to a tag. -/
def outstanding (st : Strand) (tag : Nat) : Bool := st.outst.any fun o => o.tag == tag

/-- Removes an answered access. -/
def answered (st : Strand) (tag : Nat) : Strand := { st with outst := st.outst.filter fun o => o.tag != tag }

/-- A late failure reaches a strand (R416). -/
def addLate (st : Strand) (cause : Nat) (eval : Word) : Strand := { st with late := st.late ++ [{ cause := cause, eval := eval }] }

/-- The answer that a convoy in progress holds for a slot and element. -/
def answerOf (st : Strand) (slot elem : Nat) : Option Answer :=
  st.answers.find? fun a => a.slot == slot && a.elem == elem && (4 ≤ slot || a.pc == st.pc.toNat)

/-- Notes what came back for a tag. -/
def setAnswer (st : Strand) (tag : Nat) (data : Reply) : Strand :=
  { st with answers := st.answers.map fun a => if a.tag = tag then { a with data := some data } else a }

/-- The ticket of an answered access, if it has one, has performed (R177). -/
def ticketDone (s : State) (st : Strand) (tag : Nat) : State :=
  match (st.outst.find? fun o => o.tag == tag).bind (·.ticket) with
  | some _ => { s with ord := passTicket s.ord }
  | none => s

/-- Brings an old value to its in-queue position (R332). -/
def fillOne (x : Fill) (v : Nat) (g : Group) : Group :=
  if g.id == x.id && hasN g.wait x.elem then
    { g with data := g.data ||| (BitVec.ofNat 2048 (v % 2 ^ x.w) <<< (x.elem * x.w % 2048)), wait := eraseN g.wait x.elem }
  else g

/-- The element number of the note that a syllable's accesses have entered their path queue before their convoy retired: it holds the number of a
VAMO.RET and the flags that its old values have brought. -/
def leftElem : Nat := 2 ^ 30 + 3

/-- Whether an entry is the note of a VAMO.RET of the convoy in progress. -/
def leftIs (id : Nat) (a : Answer) : Bool :=
  a.slot < 7 && a.elem == leftElem && (match a.data with
    | some (.bytes b) => id != 0 && leAt b 0 8 == id
    | _ => false)

/-- Such a note with more flags. -/
def leftFlags (fl : FFlags) (a : Answer) : Answer :=
  match a.data with
  | some (.bytes b) => { a with data := some (.bytes (sliceBytes b 0 8 ++ bytesOf 1 (Nat.lor (leAt b 8 1) fl.toNat))) }
  | _ => a

/-- The old value of an element of VAMO.RET reaches its strand, zero bits where the element failed (R416), with its flags, which count from the
retirement of its convoy (R332). -/
def bringOld (st : Strand) (x : Option Fill) (v : Nat) (fl : FFlags) : Strand :=
  match x with
  | none => st
  | some x =>
    let st1 := { st with
      iq := putAt 4 [] st.iq x.q ((st.iq.getD x.q []).map (fillOne x v))
      olds := st.olds.map fun (e : Nat × Group) => (e.1, fillOne x v e.2) }
    if st.answers.any (leftIs x.id) then
      { st1 with answers := st.answers.map fun a => if leftIs x.id a then leftFlags fl a else a }
    else { st1 with fflags := st.fflags ||| fl, brought := st.brought ||| fl }

/-- The planes on which a request of a copy has failed: the restarted copy goes on others (R155). -/
def avoidPlanes (st : Strand) (tag : Nat) (planes : List Nat) : Strand :=
  match st.answers.find? fun a => a.tag == tag && decide (8 ≤ a.slot) && decide (a.slot < 16) with
  | none => st
  | some a =>
    let t := st.toks.getD (a.slot - 8) Token.idle
    { st with toks := putAt 8 Token.idle st.toks (a.slot - 8) { t with avoid := planes.foldl insertN t.avoid } }

/-- The flags that an atomic's old value raises for its issuer (R284, R332). -/
def outFlags (o : Outstanding) (old : Nat) : FFlags :=
  match o.op with
  | some (op, v) => (atomNew op 32 old v.toNat 0).2
  | none => 0

/-- An answer to an access that has left its queue (R178, R416): the old value goes to its in-queue position, and an atomic without one met poison. -/
def answerOut (st : Strand) (o : Outstanding) (r : Reply) : Strand :=
  let st1 := answered st o.tag
  match r with
  | .bytes b => bringOld st1 o.fill (numOf b) (outFlags o (numOf b))
  | _ => if o.atomic then addLate (bringOld st1 o.fill 0 0) cData o.va else st1

/-- The accesses of a strand on pages of this package's own id are answered once every die has applied them (R27, R178), a copy's elements too. -/
def answerOwn (o : Ordering_) (st : Strand) : Strand :=
  let st1 :=
    if st.answers.any fun a => a.data.isNone && !a.clock.isEmpty && reachedAll o a.clock then
      { st with answers := st.answers.map fun a =>
          if a.data.isNone && !a.clock.isEmpty && reachedAll o a.clock then { a with data := some (.bytes []) } else a }
    else st
  (st1.outst.filter (ownDone o)).foldl (fun st x => answerOut st x (.bytes (bytesOf 8 x.old))) st1

/-! The answers that this package owes (R31, R39, R178). -/

/-- The stream of the answers to a flit. -/
def backKey (x : Flit) : StreamKey := { srcDie := x.dstDie, dstPkg := x.srcPkg, dstDie := x.srcDie, path := x.path }

/-- The strand number of flits that serve no strand: the answers of this package. -/
def noSid : Nat := 2 ^ 30

/-- The requester tag of a request (R31) and of an answer. -/
def reqTag (x : Flit) : Nat := leAt x.payload 12 4
def ansTag (x : Flit) : Nat := leAt x.payload 0 4

/-- Sends an answer on its stream (R31, R32): it opens with the requester's tag. None where the stream has no room. -/
def sendAnswer (f : Fabric) (x : Flit) (kind : Nat) (data : List Byte) : Option Fabric :=
  sendReq f (backKey x) kind (bytesOf 4 (reqTag x) ++ data) noSid 0 0 0

/-- The WDONEs that are owed leave, once every die has applied what they answer (R39, R178) and where their stream has room. -/
def payOwed (o : Ordering_) (f : Fabric) : Fabric :=
  if f.owed.isEmpty then f
  else
    f.owed.foldl (fun f x =>
      match if reachedAll o x.clock then sendAnswer f x.req kWdone x.data else none with
      | some f1 => f1
      | none => { f with owed := f.owed ++ [x] }) { f with owed := [] }

/-- What every die has applied is answered: to this package's strands, and to others. -/
def answerOwns (s0 : State) : State :=
  let s := if s0.fabric.owed.isEmpty then s0 else { s0 with fabric := payOwed s0.ord s0.fabric }
  if s.strands.any fun x => (x.2.outst.any (ownDone s.ord)) || x.2.answers.any fun a => a.data.isNone && !a.clock.isEmpty then
    { s with strands := s.strands.map fun x => (x.1, answerOwn s.ord x.2) }
  else s

/-- The failure of the request with a tag (R36, R37): for an access that waits at its syllable, a failed reply; for one that left its queue,
a late failure. -/
def failTag (s : State) (sid tag : Nat) : State :=
  let st := strandOf s sid
  if st.answers.any fun a => a.tag == tag then putStrand s sid (setAnswer st tag .failed)
  else
    match st.outst.find? fun o => o.tag == tag with
    | some o => putStrand (ticketDone s st tag) sid (addLate (bringOld (answered st tag) o.fill 0 0) cLink o.va)
    | none => s

/-- The key of a peer word's scratchpad byte in its package (R339). -/
def peerKey (w : Nat) : Nat := spadKey (bitsN w 29 4) (bitsN w 24 5) (bitsN w 0 24)

/-- The key of a peer word's sync word (R339). -/
def peerSync (w : Nat) : Nat := spadKey (bitsN w 29 4) (bitsN w 24 5) (16 * bitsN w 44 20)

/-- Whether a peer word is well formed for n bytes (R339). `swoff`: SWOFF may be nonzero. -/
def peerOk (w n : Nat) (swoff : Bool) : Bool :=
  bitsN w 43 1 == 0 && (swoff || bitsN w 44 20 == 0) && bitsN w 33 10 < 768 && 1 ≤ bitsN w 29 4 && bitsN w 29 4 ≤ 8 &&
    bitsN w 0 24 + n ≤ 0x1000000

/-- A sync word's arrival of n bytes (R157): the new TARGET, COUNT, GEN and FLAGS, and whether GEN advanced. -/
def syncStep (target count gen flags n : Nat) (pois : Bool) : (Nat × Nat × Nat × Nat) × Bool :=
  let fp := if pois then Nat.lor flags 2 else flags
  if target = 0 then ((target, count, gen, Nat.lor fp 1), false)
  else
    let c := count + n
    if c < target then ((target, c % 2 ^ 32, gen, fp), false)
    else ((target, (c - target) % 2 ^ 32, (gen + 1) % 2 ^ 32, if target < c then Nat.lor fp 1 else fp), true)

/-- The four words of a sync word. -/
def syncRead (o : Ordering_) (key : Nat) : Nat × Nat × Nat × Nat :=
  let b := Memory.getBytes o.spad key 16
  (leAt b 0 4, leAt b 4 4, leAt b 8 4, leAt b 12 4)

/-- An arrival at a sync word (R157), one indivisible step; `true` when GEN advances. -/
def syncArrive (o : Ordering_) (key n : Nat) (pois : Bool) : Ordering_ × Bool :=
  let (t, c, g, f) := syncRead o key
  let ((t', c', g', f'), adv) := syncStep t c g f n pois
  ({ o with spad := Memory.setBytes o.spad key (bytesOf 4 t' ++ bytesOf 4 c' ++ bytesOf 4 g' ++ bytesOf 4 f') }, adv)

/-- Whether a record of a tenant holds a slot on a cluster, or is parked or requeued for it (R342). -/
def tenantAt (s : State) (tenant cluster : Nat) : Bool :=
  (s.strands.any fun x => !x.2.trunk && x.2.run != .idle && x.2.rec_.tenant == tenant && x.2.clusterKey == cluster) ||
    (s.ready.any fun r => r.tenant == tenant && r.resume && r.cluster == some cluster) ||
    (s.disp.any fun x => x.2.saved.any fun v => v.2.strand.rec_.tenant == tenant && v.2.strand.clusterKey == cluster)

/-- A fragment written into a scratchpad of this package and counted into its sync word (R157, R340). -/
def fragLand (o : Ordering_) (key sync : Nat) (bytes : List Byte) : Ordering_ :=
  (syncArrive (spadWrite o key bytes) sync bytes.length false).1

end Sys2Proof.Machine
end

