-- ==== Sys2Proof/Machine/Units.lean ====
section
/-! DEFINITION. The work-queue unit (R84 to R99), and how a unit of the trunk die reads and writes in a tenant's address space
(R168). -/

namespace Sys2Proof.Machine

/-- A unit of die 0 that works in a tenant's address space: translation sees it as a strand of that tenant on die 0. -/
def unitStrand (tenant : Nat) : Strand := { Strand.idle 0 false with rec_ := { Record.none with tenant := tenant } }

/-- The checks of R146 for a unit: the scratchpad aperture and the window fail. -/
def checkUnit (s : State) (tenant : Nat) (acc : Acc) (va : Word) : Except Nat Place :=
  if !canonical va || inSpad va || inWindow va then .error cTranslation else translate s (unitStrand tenant) acc va

/-- A unit's read of a place of this package: through the view of die 0, or of the home die of an own-id page (R162, R168). -/
def unitLocal (s : State) (n : Nat) : Place → Except Nat (List Byte)
  | .mem loc _ => if readPoisoned s 0 loc n then .error cData else .ok (memRead s 0 loc n)
  | .own loc home => if readPoisoned s home loc n then .error cData else .ok (memRead s home loc n)
  | _ => .error cLink

/-- An access at its issue. -/
def mkAcc (p : Path) (pl : Place) (va : Word) (n : Nat) (k : AccKind) (rel acq dom : Bool) : Access :=
  { path := p, place := pl, va := va, size := n, kind := k, rel := rel, acq := acq, dom := dom, group := 0, ordered := false,
    fill := none, slot := 0, mark := 2 ^ 64 }

/-- The number under which the units' writes to other packages stand: a path queue that issues no convoy. -/
def unitSid : Nat := 320

/-- What a unit's read gives. -/
inductive UnitGot where
  | bytes (b : List Byte) (s : State)
  | fail (cause : Nat) (s : State)
  /-- A request to another package has just left. -/
  | asked (s : State)
  /-- No answer has come back yet, or the stream has no room. -/
  | waiting

/-- The slot under which the units' reads of other packages stand. -/
def unitSlot : Nat := 64

/-- A write of the units to another package enters their path queue, and leaves as a store does (R153). -/
def unitSend (s : State) (pkg pa : Nat) (va : Word) (bytes : List Byte) (rel : Bool) : State :=
  let st := strandOf s unitSid
  putStrand s unitSid { st with pq := st.pq ++ [.acc (mkAcc .ls (.peer pkg pa) va bytes.length (.write bytes) rel false false)] }

/-- A unit's write through the view of die 0; one to a peer page leaves from there as a store does (R153), with release order where `rel`. Log 16. -/
def unitPut (s : State) (tenant : Nat) (va : Word) (bytes : List Byte) (rel : Bool) : Option State :=
  match checkUnit s tenant .store va with
  | .ok (.mem loc home) => some (memWrite s 0 loc home bytes)
  | .ok (.own loc home) => some (memWrite s home loc home bytes)
  | .ok (.peer pkg pa) => some (unitSend s pkg pa va bytes rel)
  | _ => none
def unitWrite (s : State) (tenant : Nat) (va : Word) (bytes : List Byte) : Option State := unitPut s tenant va bytes false

/-- Whether a write of the units to a package stands in their path queue. -/
def unitWrites (st : Strand) (pkg : Nat) : Bool := st.pq.any fun x => match x with
  | .acc a => (match a.place with
    | .peer p _ => p == pkg
    | _ => false)
  | _ => false

/-- Asks another package for bytes on behalf of a unit of die 0, behind the units' writes to it. -/
def unitAsk (slot : Nat) (s : State) (elem pkg pa n : Nat) (va : Word) : UnitGot :=
  let st := strandOf s unitSid
  let (tag, f1) := newTag s.fabric
  if unitWrites st pkg then .waiting
  else
    match sendReq f1 (streamTo st .ls pkg pa) kRdreq (descBytes (wireAddr pa) n 0 3 tag) unitSid tag va 0 with
    | none => .waiting
    | some f2 =>
      .asked (putStrand { s with fabric := f2 } unitSid
        { st with answers := st.answers ++ [{ slot := slot, elem := elem, tag := tag, data := none, atomic := false, pc := 0 }] })

/-- A unit's read, which may lie on another package: there it takes the value at the home die (R162, R168), and the unit waits for the answer. `slot`
and `elem` name the read, and `used` is the state in which its answer is used up. -/
def unitGetBy (slot : Nat) (used s : State) (tenant : Nat) (va : Word) (n elem : Nat) : UnitGot :=
  match checkUnit s tenant .load va with
  | .error c => .fail c s
  | .ok (.peer pkg pa) =>
    match answerOf (strandOf s unitSid) slot elem with
    | none => unitAsk slot s elem pkg pa n va
    | some x =>
      match x.data with
      | none => .waiting
      | some (.bytes b) => .bytes b used
      | some _ => .fail cLink used
  | .ok p =>
    match unitLocal s n p with
    | .ok b => .bytes b s
    | .error c => .fail c s

/-- The units without the answers that `p` names. -/
def unitForget (s : State) (p : Answer → Bool) : State :=
  let st := strandOf s unitSid
  if st.answers.any p then putStrand s unitSid { st with answers := st.answers.filter fun a => !p a } else s

/-- A read whose answer serves once. -/
def unitGet (s : State) (tenant : Nat) (va : Word) (n elem : Nat) : UnitGot :=
  unitGetBy unitSlot (unitForget s fun a => a.slot == unitSlot && a.elem == elem) s tenant va n elem

/-- The numbers of the reads of a queue's next packet and of a launch's count. -/
def packetElem (q : Nat) (x : WorkQueue) : Nat := 2 * ((x.epoch * 8192 + q) * 2 ^ 24 + x.head)
def countElem (q : Nat) (l : Launch) : Nat := 2 * (l.id * 8192 + q) + 1

/-- The tenant of a queue (R84). -/
def queueTenant (q : Nat) : Nat := if q < 512 then q / 8 else (q - 512) / 64

/-- Packet slots of a queue's ring (R85). -/
def queueSlots (x : WorkQueue) : Nat := 2 ^ x.size

/-- Packets that a queue holds (R85). -/
def queueHeld (x : WorkQueue) : Nat := (x.tail + 64 * queueSlots x - x.head) % (64 * queueSlots x) / 64

/-- Writes a queue's error record (R90); a record that cannot be written is dropped. -/
def queueError (s : State) (q cause idx off w0 wf : Nat) : State :=
  let e := (queueOf s q).err.toNat / 32 * 32
  if e = 0 then s
  else
    (unitWrite s (queueTenant q) (wordOf e)
      (bytesOf 2 q ++ bytesOf 1 cause ++ bytesOf 1 idx ++ bytesOf 4 off ++ bytesOf 8 w0 ++ bytesOf 8 wf ++ bytesOf 8 0)).getD s

/-- Stops a queue (R89, R90). -/
def stopQueue (s : State) (q cause idx off w0 wf : Nat) : State :=
  queueError (putQueue s q { queueOf s q with stop := cause }) q cause idx off w0 wf

/-- The stop cause that a tail gives, 0 for a valid one (R89). -/
def tailCause (x : WorkQueue) (v : Nat) : Nat := if v % 64 ≠ 0 then 1 else if 64 * queueSlots x ≤ v then 2 else 0

/-- Checks the tail that a queue holds (R89). -/
def checkTail (s : State) (q : Nat) : State :=
  let x := queueOf s q
  let c := tailCause x x.tail
  if c = 0 then s else stopQueue s q c 0 x.tail 0 0

/-- A write to WQTAIL (R87, R89): a device-side queue ignores it. -/
def writeTail (s : State) (q : Nat) (v : Word) : State :=
  if 512 ≤ q then s
  else
    let s1 := putQueue s q { queueOf s q with tail := v.toNat }
    if (queueOf s q).stop ≠ 0 then s1 else checkTail s1 q

/-- A write to WQCTL (R88). -/
def writeWqctl (s : State) (q : Nat) (v : Word) : State :=
  let x := queueOf s q
  let en := bitW v 0
  let sz := bitsW v 8 5
  if x.en then putQueue s q { x with en := en }
  else if sz < 6 || 16 < sz then s
  else if en then
    putQueue s q { x with size := sz, en := true, head := 0, tail := 0, comp := 0, nextId := 1, stop := 0, doneIds := [],
                          epoch := x.epoch + 1 }
  else putQueue s q { x with size := sz }

/-- A write of CLR to WQSTAT (R89). -/
def clearStop (s : State) (q : Nat) : State := checkTail (putQueue s q { queueOf s q with stop := 0 }) q

/-- The gang capacity of a share class (R92). -/
def gangCap (share : Nat) : Nat := 4 * 2 ^ share

/-- Whether word w0 of a packet is malformed (R92). -/
def badW0 (host : Bool) (w : Nat) : Bool :=
  let ty := bitsN w 0 8
  let gang := bitsN w 11 1
  let gs := bitsN w 32 8
  let sh := bitsN w 12 2
  !(1 ≤ ty && ty ≤ 4) || (ty == 3 && host) || bitsN w 48 16 != 0 || bitsN w 14 2 != 0 || (ty != 4 && sh == 3) ||
    (if ty = 4 then gang != 0 || gs != 0 else if gang = 0 then gs != 0 else !(1 ≤ gs && gs ≤ 16 && gs ≤ gangCap sh))

/-- Whether a packet's dependence names an earlier launch (R92). -/
def depOk (id dep : Nat) : Bool := dep == 0 || (1 ≤ idDiff id dep && decide (idDiff id dep ≤ 2 ^ 31 - 1))

/-- The first malformed word of a packet (R92). -/
def badWord (host : Bool) (id : Nat) (w : Nat → Nat) : Option Nat :=
  let ty := bitsN (w 0) 0 8
  if badW0 host (w 0) then some 0
  else if ty ≠ 4 && w 1 % 16 ≠ 0 then some 1
  else if ty = 2 && w 2 % 8 ≠ 0 then some 2
  else if (ty ≠ 3 && w 3 / 2 ^ 32 ≠ 0) || !depOk id (w 3 % 2 ^ 32) then some 3
  else if w 4 % 16 ≠ 0 then some 4
  else none

/-- A launch read from a packet (R91). -/
def mkLaunch (id : Nat) (w : Nat → Nat) : Launch :=
  let ty := bitsN (w 0) 0 8
  { id := id, ty := if ty = 1 then .direct else if ty = 2 then .indirect else if ty = 3 then .child else .marker,
    prio := bitsN (w 0) 8 3, share := bitsN (w 0) 12 2, gang := bitsN (w 0) 11 1 == 1, gsize := bitsN (w 0) 32 8,
    gran := bitsN (w 0) 16 16 + 1, aff := bitsN (w 0) 40 8, entry := wordOf (w 1), countW := wordOf (w 2), dep := w 3 % 2 ^ 32,
    plink := w 3 / 2 ^ 32, crec := wordOf (w 4), args := [wordOf (w 5), wordOf (w 6), wordOf (w 7)], ready := false, e := 0,
    next := 0, root := none, dispatched := 0, cancelled := false, killed := false, status := 0, finished := false }

/-- The id before another, skipping 0 (R93). -/
def prevId (id : Nat) : Nat := if id = 1 then 2 ^ 32 - 1 else (id + 2 ^ 32 - 1) % 2 ^ 32

/-- The id n launches before another. -/
def idBack : Nat → Nat → Nat
  | 0, id => id
  | n + 1, id => idBack n (prevId id)

/-- The launch id of the packet at WQHEAD (R93): a device-side queue has handed out the ids of the packets it holds. -/
def headId (q : Nat) (x : WorkQueue) : Nat := if q < 512 then x.nextId else idBack (queueHeld x) x.nextId

/-- The records of a ready launch (R97). -/
def recordCount (l : Launch) : Nat := ceilDiv l.e l.gran

/-- A launch of a known count is ready (R97). -/
def withCount (s : State) (q : Nat) (l : Launch) (e : Nat) : State :=
  let l1 := { l with ready := true, e := e }
  let l2 :=
    if e = 0 then { l1 with finished := true }
    else if 2 ^ 31 < recordCount l1 then { l1 with finished := true, status := 3, next := recordCount l1 }
    else l1
  updLaunch s q l.id fun _ => l2

/-- Makes a launch ready (R94, R96, R97): an indirect launch reads its count once. None while the answer of another package is awaited. -/
def readyLaunch (s : State) (q : Nat) (l : Launch) : Option State :=
  match l.ty with
  | .marker => some (updLaunch s q l.id fun _ => { l with ready := true })
  | .indirect =>
    match unitGet s (queueTenant q) l.countW 8 (countElem q l) with
    | .fail _ s1 => some (updLaunch s1 q l.id fun _ => { l with ready := true, status := 2, finished := true })
    | .bytes b s1 => some (withCount s1 q { l with clock := appliedOf s1.ord 0 } (numOf b))
    | .asked s1 => some s1
    | .waiting => none
  | _ => some (withCount s q l l.countW.toNat)

/-- Whether a launch's dependence is met (R94). A launch that is still pending when EN is set again tests WQCOMP of the new period: the spec does not say
(DESIGN CHOICE, log 106). -/
def depMet (x : WorkQueue) (l : Launch) : Bool := l.dep == 0 || covers x.comp l.dep

/-- Launches of a queue that wait for their dependence (R94). -/
def pendingSet (x : WorkQueue) : List Launch := x.live.filter fun l => !l.ready && !l.finished

/-- Whether a queue can consume a packet (R85, R88, R89, R94). -/
def canConsume (x : WorkQueue) : Bool := x.en && x.stop == 0 && x.head != x.tail && (pendingSet x).length < 16

/-- The unit takes the packet at WQHEAD, whose bytes it has read (R86, R92, R93), or stops the queue (R90). -/
def takePacket (s : State) (q : Nat) (b : List Byte) : State :=
  let x := queueOf s q
  let w := fun i => leAt b (8 * i) 8
  let id := headId q x
  match badWord (q < 512) id w with
  | some i => stopQueue s q 3 i x.head (w 0) (w i)
  | none =>
    let l0 := { mkLaunch (x.epoch * 2 ^ 32 + id) w with clock := appliedOf s.ord 0 }
    -- A launch of a tenant that is being reset is cancelled with status 4 (R118).
    let l := if (tenantOf s (queueTenant q)).phase = 2 then { l0 with cancelled := true, status := 4, finished := true } else l0
    let s1 := putQueue s q
      { x with head := (x.head + 64) % (64 * queueSlots x), nextId := if q < 512 then nextId x.nextId else x.nextId,
               live := x.live ++ [l] }
    if !l.finished && depMet (queueOf s1 q) l then (readyLaunch s1 q l).getD s1 else s1

/-- The unit reads the packet at WQHEAD and takes it, or stops the queue where its bytes cannot be read (R90). None while the answer of another package
is awaited. -/
def consumePacket (s : State) (q : Nat) : Option State :=
  let x := queueOf s q
  match unitGet s (queueTenant q) (wordOf (x.base.toNat + x.head)) 64 (packetElem q x) with
  | .fail _ s1 => some (stopQueue s1 q 4 0 x.head 0 0)
  | .bytes b s1 => some (takePacket s1 q b)
  | .asked s1 => some s1
  | .waiting => none

/-- The continuation record k of a launch (R97, R100). -/
def launchRecord (q : Nat) (l : Launch) (k root : Nat) : Record :=
  { Record.none with
    queue := q, launch := l.id, tenant := queueTenant q, prio := l.prio, share := l.share, aff := l.aff, gang := l.gang,
    gsize := l.gsize, code := l.entry, frame := 0, first := wordOf (k * l.gran), count := min l.gran (l.e - k * l.gran),
    args := l.args, parent := root, clock := l.clock }

/-- Whether a launch can produce a record (R97, R98). -/
def canExpand (s : State) (l : Launch) : Bool :=
  l.ready && !l.finished && l.ty != .marker && decide (l.next < recordCount l) && (l.root.isSome || 36920 ≤ freeCells s)

/-- The unit produces the next record of a launch (R97, R98): the first one comes with the root cell. -/
def expandRecord (s : State) (q : Nat) (l : Launch) : State :=
  let (root, s1) :=
    match l.root with
    | some c => (c, s)
    | none => allocCell s { count := recordCount l, tenant := queueTenant q, isChild := false, cont := .complete q l.id }
  let s2 := updLaunch s1 q l.id fun l => { l with root := some root, next := l.next + 1 }
  enqueueRec s2 (launchRecord q l l.next root)

/-- Whether a launch can complete (R97, R99): its root cell has reached zero, or it is a marker whose earlier launches have
completed. -/
def canComplete (x : WorkQueue) (l : Launch) : Bool :=
  l.finished || (l.ty == .marker && l.ready && (x.live.head?.map (·.id)) == some l.id)

/-- The status and count used of a completion record (R99, R108, R109). -/
def completion (l : Launch) : Nat × Nat :=
  if l.status = 2 then (2, 0)
  else if l.status = 3 then (3, l.e)
  else if l.cancelled || l.killed then (if l.status = 4 then 4 else 1, l.dispatched)
  else if l.ty = .marker then (0, 0)
  else (0, l.e)

/-- The completion of a launch (R99). The error record of cause 5 holds 0 as the failing word's index and as w0 and the failing word: the spec does not say
(DESIGN CHOICE, log 107). -/
def completeLaunch (s : State) (q : Nat) (l : Launch) : State :=
  let s1 := { s with ord := settle s.ord }
  let (st, n) := completion l
  let s2 :=
    if l.crec = 0 then s1
    else
      match unitWrite s1 (queueTenant q) l.crec (bytesOf 4 st ++ bytesOf 4 (l.id % 2 ^ 32) ++ bytesOf 8 n) with
      | some s' => s'
      | none => queueError s1 q 5 0 (queueOf s1 q).head 0 0
  let s3 := putQueue s2 q (noteComplete (queueOf s2 q) l.id)
  if l.ty = .child then subCell s3 l.plink 1 else s3

/-! RESUMEW and KILLW (R109). -/

/-- The parked record whose rank-0 strand holds a save slot; a number at or above SVCOUNT names none. -/
def parkedAt (s : State) (d n : Nat) : Option Strand :=
  if (dispOf s d).svCount ≤ n then none
  else
  match NMap.get? (dispOf s d).saved n with
  | some v => if v.parked && v.strand.rank = 0 then some v.strand else none
  | none => none

/-- RESUMEW (R109): the record is requeued with RESUME = 1. -/
def resumeRecord (s : State) (d n : Nat) : State :=
  match parkedAt s d n with
  | none => s
  | some st =>
    let x := dispOf s d
    let s1 := putDisp s d
      { x with saved := x.saved.map fun e => if hasN st.rec_.slots e.1 then (e.1, { e.2 with parked := false }) else e }
    enqueueRec s1 { st.rec_ with parked := false }

/-- Ends a record whose strands stand in save slots (R108, R109): its slots, array slices and child cell. -/
def endSaved (s : State) (r : Record) : State :=
  let s1 := freeSlots s r
  match r.child with
  | some c => subCell (setCont (freeArray s1 c) c (.subParent r.parent)) c (liveMembers r)
  | none => s1

/-- KILLW (R109): the record is terminated; its launch completes with status 1. -/
def killRecord (s : State) (d n : Nat) : State :=
  match parkedAt s d n with
  | none => s
  | some st =>
    let s1 := updLaunch s st.rec_.queue st.rec_.launch fun l => { l with killed := true }
    serveFaults (endSaved s1 st.rec_) d

end Sys2Proof.Machine
end

