-- ==== Sys2Proof/Machine/Window.lean ====
section
/-! DEFINITION. The trunk control window (R50): what each register reads as and what a store to it does. -/

namespace Sys2Proof.Machine

/-- A digest as its bytes: byte i stands in bits 8i + 7 : 8i (R52). -/
def digBytes (d : BitVec 256) : List Byte := bytesOf 32 d.toNat
def digOf (bs : List Byte) : BitVec 256 := BitVec.ofNat 256 (numOf bs)

/-- Extends MEASn by a 32-byte digest and appends the log record (R52); `value` stands in the record where `d` is no digest of
firmware's. -/
def measExtend (s : State) (n ty : Nat) (d : List Byte) (value : List Byte) : State :=
  let x := s.sec
  let m := digOf (Config.sm3 (digBytes (x.meas.getD n 0) ++ d))
  { s with sec := { x with meas := x.meas.set n m, log := x.log ++ [{ n := n, ty := ty, digest := digOf d, value := value }] } }

/-- Extends MEASn by SM3 of a value that is no digest (R52). -/
def measValue (s : State) (n ty : Nat) (value : List Byte) : State := measExtend s n ty (Config.sm3 value) value

/-- BOOTSTAT (R55). -/
def bootstat (x : Security) : Nat :=
  boolN x.wiped * 2048 + boolN x.runFw * 1024 + x.failStage % 16 * 16 + x.failCause % 16

/-- LCSTATE (R56). -/
def lcstate (x : Security) : Nat := if x.lifeCycle ≤ 4 then x.lifeCycle else 4

/-- FABCTL (R40). -/
def fabctl (f : Fabric) : Nat := f.pkgId % 1024 * 65536 + f.tmo % 16 * 4096 + boolN f.held * 2 + boolN f.en

/-- Discards the held flits (R36): whether their elements performed is unknown. -/
def discardHeld (f : Fabric) : Fabric :=
  { dropStarts f (·.held) with held := false, tx := f.tx.map fun t => { t with unacked := t.unacked.filter fun x => !x.held } }

/-- A write to FABCTL (R26, R40). -/
def writeFabctl (s : State) (v : Word) : State :=
  let f := if bitW v 1 then discardHeld s.fabric else s.fabric
  { s with fabric := { f with tmo := bitsW v 12 4, en := if 768 ≤ f.pkgId then false else bitW v 0 } }

/-- A write to THRCTL (R21). -/
def writeThrctl (s : State) (v : Word) : State :=
  let p := s.power
  { s with power := { p with limitW := bitsW v 0 16, minBub := bitsW v 16 3, force := bitW v 19, trip := p.trip && !bitW v 23 } }

/-- A write to MEASEXT (R52): IDX 6 and 7 take effect. -/
def writeMeasext (s : State) (v : Word) : State :=
  let n := bitsW v 0 3
  if n = 6 || n = 7 then measExtend s n (bitsW v 8 8) ((s.sec.measDig.map fun w => bytesOf 8 w.toNat).flatten) [] else s

/-- A write to TSSTEP (R71). -/
def writeTsstep (s : State) (d : Nat) (v : Word) : State :=
  let c := clockOf s d
  let n := v.toInt
  let c' :=
    if c.withhold ≠ 0 then { c with withhold := if n < 0 then n.natAbs * 2 ^ 32 else 0, addNs := c.addNs + n.toNat }
    else if n < 0 then { c with withhold := n.natAbs * 2 ^ 32 }
    else { c with addNs := c.addNs + n.toNat }
  { s with clocks := NMap.set s.clocks d c' }

/-- A write to TRTAIL (R80), and to FLTTAIL by the same rule (R105): only a value above the tail and at or below the head. -/
def tailRule (tail head : Nat) (v : Word) : Nat := if tail < v.toNat && v.toNat ≤ head then v.toNat else tail

def writeTrtail (s : State) (d : Nat) (v : Word) : State :=
  let r := ringOf s d
  putRing s d { r with tail := tailRule r.tail r.head v }

/-- A write to TRCTL (R81). -/
def writeTrctl (s : State) (d : Nat) (v : Word) : State :=
  let r := ringOf s d
  let sz := bitsW v 0 5
  let en := bitW v 5
  let flags := fun (r : TraceRing) => { r with snap := bitW v 11, thr := bitW v 10, coll := bitW v 9, user := bitW v 8, en := en }
  if r.en then putRing s d (flags r)
  else if sz < 10 || 26 < sz then s
  else
    let r1 := { flags r with size := sz }
    putRing s d (if en then { r1 with head := 0, tail := 0 } else r1)

/-- TRCTL as it reads (R81). -/
def trctl (r : TraceRing) : Nat :=
  boolN r.snap * 2048 + boolN r.thr * 1024 + boolN r.coll * 512 + boolN r.user * 256 + boolN r.en * 32 + r.size % 32

/-- SNAPCTL as it reads (R83). -/
def snapctl (x : Snapshot) : Nat := x.num % 65536 * 2 ^ 48 + x.miss % 65536 * 2 ^ 32 + boolN x.valid * 4 + boolN x.arm * 2

/-- Releases the held snapshot (R83). -/
def clearValid (s : State) : State := { s with snap := { s.snap with valid := false } }

/-- A write to SNAPCTL (R82, R83): VALID clears, ARM is set, then FIRE fires. -/
def writeSnapctl (s : State) (v : Word) : State :=
  let s1 := if bitW v 2 then clearValid s else s
  let s2 := { s1 with snap := { s1.snap with arm := bitW v 1 } }
  if bitW v 0 then fireSnapshot s2 else s2

/-- A write to FLTTAIL (R105, R112): freed records let stopped strands be saved. -/
def writeFlttail (s : State) (d : Nat) (v : Word) : State :=
  let x := dispOf s d
  serveFaults (putDisp s d { x with fltTail := tailRule x.fltTail x.fltHead v }) d

/-- A write to FLTCTL (R105). -/
def writeFltctl (s : State) (d : Nat) (v : Word) : State :=
  let x := dispOf s d
  let sz := bitsW v 0 5
  let en := bitW v 5
  if x.fltEn then serveFaults (putDisp s d { x with fltEn := en }) d
  else if sz < 6 || 16 < sz then s
  else serveFaults (putDisp s d { x with fltSize := sz, fltEn := en }) d

/-- A write to SVCTL (R105). -/
def writeSvctl (s : State) (d : Nat) (v : Word) : State :=
  let x := dispOf s d
  let lg := bitsW v 0 5
  if x.fltEn || lg < 15 || 20 < lg then s
  else serveFaults (putDisp s d { x with svLog := lg, svCount := bitsW v 8 12 }) d

/-- The bits of a root that are kept (R148). -/
def rootMask : Word := 0x00FFFFFFFFFFF001#64

/-- A write to TLBINV queues an invalidation (R150); none while 16 are outstanding. The applied counts of the
writing strand's die say which writes the strand made before it, its atomics at other dies among them (R166). -/
def writeTlbinv (s : State) (d : Nat) (v : Word) : Option State :=
  if 16 ≤ s.tlbInv.length then none
  else some { s with tlbInv := s.tlbInv ++ [{ v := v, counts := appliedOf s.ord d }] }

/-- Whether a byte table is bound to an open stream (R239). -/
def tableBound (s : State) (m : Nat) : Bool := s.streams.any fun x => x.2.opened && !x.2.ended && x.2.bind.table == m

/-- A byte table descriptor. -/
def dettabOf (s : State) (m : Nat) : DetTable := NMap.getD s.dettab m ⟨0, 0, 0⟩

/-- A word of a rotary table (R245). -/
def rotWord (s : State) (i k : Nat) : Word := NMap.getD (NMap.getD s.rot i []) k 0

/-- A sum with its PINF flag as R417 gives it. -/
def sumView (a : EA) (inf : Nat) : EA :=
  if 0 < inf then a ||| BitVec.ofNat 512 (2 ^ eaPinf) else a &&& ~~~(BitVec.ofNat 512 (2 ^ eaPinf))

/-- STATE of a race context (R215). -/
def raceState (c : RaceCtx) : Nat :=
  boolN c.greedy * 1024 + boolN c.empty * 512 + boolN c.bviol * 256 + c.acause % 16 * 16 + c.st % 8

/-- RCTEN (R215). -/
def rcten (c : RaceCtx) : Nat := c.tenant % 64 + boolN c.assigned * 128

/-- HOME as it reads (R215). -/
def homeWord (c : RaceCtx) : Nat :=
  c.home % 1024 + boolN c.hosts * 2 ^ 14 + boolN c.member * 2 ^ 15 + c.nmem % 64 * 2 ^ 16

/-- KTH (R215, R230). -/
def kth (c : RaceCtx) : Nat := if c.topk = 0 then 0 else c.kept.getD (c.topk - 1) 0

/-- A race context's register at an offset (R215). -/
def raceReg (c : RaceCtx) (off : Nat) : Word :=
  let ea := fun (a : EA) (base : Nat) => wordOf (bitsN a.toNat (8 * (off - base)) 64)
  if 0x180 ≤ off then (if off < 0x1C0 then ea (sumView c.zunhi c.infUn) 0x180 else 0)
  else if 0x140 ≤ off then ea c.zunlo 0x140
  else if 0x100 ≤ off then ea (sumView c.zevhi c.infEv) 0x100
  else if 0xC0 ≤ off then ea c.zevlo 0xC0
  else
    match off / 8 with
    | 0 => wordOf (raceState c)
    | 1 => wordOf (rcten c)
    | 2 => c.nkey0
    | 3 => c.nkey1
    | 4 => c.nctx
    | 5 => wordOf c.invt
    | 6 => wordOf c.margin
    | 7 => wordOf c.topk
    | 8 => wordOf c.ref
    | 9 => wordOf c.nh
    | 10 => wordOf c.vocab
    | 11 => c.btab
    | 12 => c.atab
    | 13 => wordOf c.leader
    | 14 => c.active
    | 15 => wordOf (boolN c.amaxValid * 2 ^ 63 + c.amax)
    | 16 => wordOf (kth c)
    | 17 => wordOf c.win
    | 18 => wordOf c.plo
    | 19 => wordOf c.phi
    | 20 => wordOf c.log.length
    | 21 => wordOf (homeWord c)
    | 22 => c.rblk
    | _ => 0

/-- Reads a die's dispatcher register (R105). -/
def readDisp (s : State) (d off : Nat) : Word :=
  let x := dispOf s d
  if 0x800 ≤ off then (if off < 0x900 then (NMap.getD x.arrdis ((off - 0x800) / 8) 0).setWidth 64 else 0)
  else if 0x400 ≤ off then (NMap.getD x.lanedis ((off - 0x400) / 8) 0).setWidth 64
  else
    match off / 8 with
    | 0 => wordOf (x.preq % 2 ^ 32 * 2 ^ 32 + x.ageq % 2 ^ 32)
    | 1 => x.fltBase
    | 2 => wordOf (boolN x.fltEn * 32 + x.fltSize % 32)
    | 3 => wordOf x.fltHead
    | 4 => wordOf x.fltTail
    | 5 => wordOf x.fltLost
    | 6 => x.svBase
    | 7 => wordOf (x.svCount % 4096 * 256 + x.svLog % 32)
    | _ => 0

/-- Writes a die's dispatcher register (R105). -/
def writeDisp (s : State) (d off : Nat) (v : Word) : State :=
  let x := dispOf s d
  if 0x800 ≤ off then
    if off < 0x900 then
      putDisp s d { x with arrdis := NMap.set x.arrdis ((off - 0x800) / 8) (BitVec.ofNat 8 (if d ≤ 4 then v.toNat % 256 else v.toNat % 16)) }
    else s
  else if 0x400 ≤ off then putDisp s d { x with lanedis := NMap.set x.lanedis ((off - 0x400) / 8) (v.setWidth 8) }
  else
    match off / 8 with
    | 0 => putDisp s d { x with preq := bitsW v 32 32, ageq := bitsW v 0 32 }
    | 1 => if x.fltEn then s else putDisp s d { x with fltBase := wordOf (v.toNat / 4096 * 4096) }
    | 2 => writeFltctl s d v
    | 4 => writeFlttail s d v
    | 6 => if x.fltEn then s else putDisp s d { x with svBase := wordOf (v.toNat / 2 ^ 20 * 2 ^ 20) }
    | 7 => writeSvctl s d v
    | 8 => resumeRecord s d v.toNat
    | 9 => killRecord s d v.toNat
    | _ => s

/-- Reads a queue register (R87). -/
def readQueue (s : State) (q off : Nat) : Word :=
  let x := queueOf s q
  match off / 8 with
  | 0 => x.base
  | 1 => wordOf (x.size % 32 * 256 + boolN x.en)
  | 2 => wordOf x.tail
  | 3 => wordOf x.head
  | 4 => wordOf (x.stop % 16)
  | 5 => wordOf x.nextId
  | 6 => wordOf x.comp
  | _ => x.err

/-- Writes a queue register (R87 to R89). -/
def writeQueue (s : State) (q off : Nat) (v : Word) : State :=
  let x := queueOf s q
  match off / 8 with
  | 0 => if x.en then s else putQueue s q { x with base := wordOf (v.toNat / 4096 * 4096) }
  | 1 => writeWqctl s q v
  | 2 => writeTail s q v
  | 4 => if bitW v 7 then clearStop s q else s
  | 7 => putQueue s q { x with err := wordOf (v.toNat / 32 * 32) }
  | _ => s

/-- Reads a trace or time register of a die (R81). -/
def readTrace (s : State) (d off : Nat) : Word :=
  let r := ringOf s d
  match off / 8 with
  | 0 => wordOf (tscOf s d)
  | 1 => (clockOf s d).incr
  | 3 => r.base
  | 4 => wordOf (trctl r)
  | 5 => wordOf r.head
  | 6 => wordOf r.tail
  | 7 => wordOf r.drop
  | 8 => wordOf r.lost
  | _ => 0

/-- Writes a trace or time register of a die (R81). -/
def writeTrace (s : State) (d off : Nat) (v : Word) : State :=
  let r := ringOf s d
  match off / 8 with
  | 1 => { s with clocks := NMap.set s.clocks d { clockOf s d with incr := v } }
  | 2 => writeTsstep s d v
  | 3 => if r.en then s else putRing s d { r with base := wordOf (v.toNat / 65536 * 65536) }
  | 4 => writeTrctl s d v
  | 6 => writeTrtail s d v
  | _ => s

/-- Reads a register of the first page (R50). -/
def readFirst (s : State) (off : Nat) : Word :=
  match off / 8 with
  | 0 => wordOf (bootstat s.sec)
  | 1 => wordOf (lcstate s.sec)
  | 2 => wordOf (thrctl s.power)
  | 3 => wordOf (fabctl s.fabric)
  | 4 => s.fabric.planeEn.setWidth 64
  | 5 => s.fabric.planeUp.setWidth 64
  | 8 => s.sec.measDig.getD 0 0
  | 9 => s.sec.measDig.getD 1 0
  | 10 => s.sec.measDig.getD 2 0
  | 11 => s.sec.measDig.getD 3 0
  | 16 => s.sec.lcNonce.extractLsb' 0 64
  | 17 => s.sec.lcNonce.extractLsb' 64 64
  | 18 => s.sec.lcNonce.extractLsb' 128 64
  | 19 => s.sec.lcNonce.extractLsb' 192 64
  | _ => 0

/-- Writes a register of the first page (R50). -/
def writeFirst (s : State) (off : Nat) (v : Word) : State :=
  let dig := fun k => { s with sec := { s.sec with measDig := s.sec.measDig.set k v } }
  match off / 8 with
  | 2 => writeThrctl s v
  | 3 => writeFabctl s v
  | 4 => sendWaiting { s with fabric := { s.fabric with planeEn := v.setWidth 48 } }
  | 8 => dig 0
  | 9 => dig 1
  | 10 => dig 2
  | 11 => dig 3
  | 12 => writeMeasext s v
  | _ => s

/-- Reads a word of the trunk control window (R50); an unlisted offset reads 0. -/
def windowRead (s : State) (off : Nat) : Word :=
  if off < 0x1000 then readFirst s off
  else if off < 0x1900 then readTrace s ((off - 0x1000) / 0x100) (off % 0x100)
  else if off < 0x8000 then 0
  else if off < 0x11000 then
    if off = 0x8F00 then wordOf (snapctl s.snap) else if off = 0x8F08 then s.snap.at_ else NMap.getD s.snap.latched off 0
  else if off < 0x20000 then 0
  else if off < 0x68000 then readQueue s ((off - 0x20000) / 0x40) (off % 0x40)
  else if off < 0x70000 then 0
  else if off < 0x78000 then readDisp s ((off - 0x70000) / 0x1000 + 1) (off % 0x1000)
  else if off < 0x79000 then 0
  else if off < 0x79200 then wordOf (NMap.getD s.tweight ((off - 0x79000) / 8) 1)
  else if off < 0x7A000 then 0
  else if off < 0x7A200 then NMap.getD s.tnroot ((off - 0x7A000) / 8) 0
  else if off = 0x7A200 then s.tkroot
  else if off = 0x7A210 then boolW (!s.tlbInv.isEmpty)
  else if off < 0x80000 then 0
  else if off < 0x88000 then raceReg (raceOf s ((off - 0x80000) / 0x200)) (off % 0x200)
  else if off < 0xA0000 then 0
  else if off < 0xB0000 then rotWord s ((off - 0xA0000) / 0x400) (off % 0x400 / 8)
  else if off < 0xB0100 then
    let t := dettabOf s ((off - 0xB0000) / 0x20)
    match off % 0x20 / 8 with
    | 0 => wordOf t.base
    | 1 => wordOf t.ntok
    | 2 => wordOf t.pool
    | _ => 0
  else 0

/-- A store to a word of the trunk control window by a strand of die d (R50), performed when it leaves its path queue (R168); none
where it must wait (R150). -/
def windowWrite (s : State) (d off : Nat) (v : Word) : Option State :=
  if off < 0x1000 then some (writeFirst s off v)
  else if off < 0x1900 then some (writeTrace s ((off - 0x1000) / 0x100) (off % 0x100) v)
  else if off < 0x8000 then some s
  else if off < 0x11000 then
    if off = 0x8F00 then some (writeSnapctl s v)
    else if off = 0x8F08 then some { s with snap := { s.snap with at_ := v } }
    else some s
  else if off < 0x20000 then some s
  else if off < 0x68000 then some (writeQueue s ((off - 0x20000) / 0x40) (off % 0x40) v)
  else if off < 0x70000 then some s
  else if off < 0x78000 then some (writeDisp s ((off - 0x70000) / 0x1000 + 1) (off % 0x1000) v)
  else if off < 0x79000 then some s
  else if off < 0x79200 then some { s with tweight := NMap.set s.tweight ((off - 0x79000) / 8) (v.toNat % 256) }
  else if off < 0x7A000 then some s
  else if off < 0x7A200 then some { s with tnroot := NMap.set s.tnroot ((off - 0x7A000) / 8) (v &&& rootMask) }
  else if off = 0x7A200 then some { s with tkroot := v &&& rootMask }
  else if off = 0x7A208 then writeTlbinv s d v
  else if off < 0x80000 then some s
  else if off < 0x88000 then
    if off % 0x200 = 8 then
      let c := (off - 0x80000) / 0x200
      some (putRace s c { raceOf s c with tenant := bitsW v 0 6, assigned := bitW v 7 })
    else some s
  else if off < 0xA0000 then some s
  else if off < 0xB0000 then
    let i := (off - 0xA0000) / 0x400
    some { s with rot := NMap.set s.rot i (NMap.set (NMap.getD s.rot i []) (off % 0x400 / 8) v) }
  else if off < 0xB0100 then
    let m := (off - 0xB0000) / 0x20
    if tableBound s m then some s
    else
      let t := dettabOf s m
      let t' :=
        match off % 0x20 / 8 with
        | 0 => { t with base := v.toNat / 64 * 64 }
        | 1 => { t with ntok := v.toNat % 2 ^ 32 }
        | 2 => { t with pool := v.toNat % 2 ^ 32 }
        | _ => t
      some { s with dettab := NMap.set s.dettab m t' }
  else some s

end Sys2Proof.Machine
end

