-- ==== Sys2Proof/Machine/Leave.lean ====
section
/-! DEFINITION. How accesses leave their path queues and perform (R160 to R179). -/

namespace Sys2Proof.Machine

/-- The space and first byte of a place, for overlap. -/
def placeKey : Place → Nat × Nat
  | .mem loc _ => (0, loc)
  | .own loc _ => (0, loc)
  | .spad key => (1, key)
  | .window off => (2, off)
  | .peer pkg pa => (3 + pkg, pa)

/-- Whether the bytes of two accesses overlap (R169). -/
def overlaps (a b : Access) : Bool :=
  let (p, x) := placeKey a.place
  let (q, y) := placeKey b.place
  p == q && decide (x < y + b.size) && decide (y < x + a.size)

/-- Whether an access reads, and whether it writes (R160): an atomic does both. -/
def isRead (a : Access) : Bool :=
  match a.kind with
  | .read => true
  | .move _ => true
  | .atomic _ _ _ => true
  | _ => false
def isWrite (a : Access) : Bool :=
  match a.kind with
  | .read => false
  | _ => true

/-- Whether a fence kind needs an earlier access to have left, and whether it holds a later one (R170). -/
def fenceEarly (kind : Nat) (a : Access) : Bool := if kind ≤ 1 then isRead a else if kind = 2 then isWrite a else true
def fenceLate (kind : Nat) (a : Access) : Bool := if kind = 0 then isRead a else if kind = 3 then true else isWrite a

/-- Whether a place is on another package. -/
def isPeer : Place → Bool
  | .peer _ _ => true
  | _ => false

/-- Whether every element of a copy has left its path queue (R178): it has landed, or its writes to another package have been sent. -/
def copyLeft (st : Strand) (k : Nat) (t : Token) : Bool :=
  let n := if t.kind = .gathsp then t.expected else ceilDiv t.expected t.unit
  let lo := if t.kind = .gathsp then t.landed else ceilDiv t.landed t.unit
  t.started && st.answers.any (fun a => a.slot == 8 + k && a.elem % 2 == 1) &&
    (List.range (n - lo)).all fun i =>
      hasN t.done (lo + i) || st.answers.any fun a => a.slot == 8 + k && a.elem / 1024 == lo + i && a.elem % 2 == 1

/-- Whether a strand has a copy in progress among the first `mark` that it armed: its elements are accesses of the BT path that have not
left. -/
def copying (st : Strand) (mark : Nat) : Bool :=
  st.toks.zipIdx.any fun (t, k) => t.busy && !t.pend && decide (t.serial < mark) && !copyLeft st k t

/-- Whether a write of a copy to another package has not been answered (R179). -/
def copyUnanswered (st : Strand) : Bool := st.answers.any fun a => decide (8 ≤ a.slot) && decide (a.slot < 16) && a.elem % 2 == 1 && a.data.isNone

/-- What a domain-scope release or fence waits for beside the path queues (R179, R293, R416): an answer to every access to another package, on the
path of the fence, and no failure that has not been taken. -/
def unanswered (st : Strand) (p : Option Path) : Bool :=
  (st.outst.any fun o => !o.again && (match p with
    | none => true
    | some q => o.path == q)) || ((p.isNone || p == some .bt) && copyUnanswered st)

/-- An access of an item that has not left: it waits, or it is an atomic that waits for its clock. -/
def itemAcc : QItem → Option Access
  | .acc a => some a
  | .done a _ => some a
  | _ => none

/-- Whether one earlier access of the issue stream holds access `a` (R167, R169, R171, R172). -/
def accHolds (b a : Access) : Bool :=
  if b.group ≠ 0 && b.group = a.group then b.ordered
  else b.acq || a.rel || (b.path == a.path && overlaps a b)

/-- Whether one earlier item of the issue stream holds access `a`. `pre` lists the items before that one. -/
def itemHolds (st : Strand) (pre : List QItem) (x : QItem) (a : Access) : Bool :=
  match x with
  | .acc b => accHolds b a
  | .done b _ => accHolds b a
  | .fence scope kind mark =>
    fenceLate kind a &&
      ((pre.any fun y => match itemAcc y with | some b => b.path == a.path && fenceEarly kind b | none => false) ||
        (scope == 5 && 2 ≤ kind && unanswered st (some a.path)) || !st.late.isEmpty || (a.path == .bt && copying st mark))
  | .fencex p q mark =>
    a.path == q && ((pre.any fun y => match itemAcc y with | some b => b.path == p | none => false) || (p == .bt && copying st mark))
  | .acqWait tag => outstanding st tag

/-- Whether some earlier item holds access `a`. -/
def heldBy (st : Strand) (a : Access) : List QItem → List QItem → Bool
  | _, [] => false
  | pre, x :: t => itemHolds st pre x a || heldBy st a (pre ++ [x]) t

/-- Whether an access may leave, given the items before it (R169 to R173, R175, R179); a failure that has not been taken holds a release (R416). -/
def mayLeave (st : Strand) (pre : List QItem) (a : Access) : Bool :=
  !heldBy st a [] pre && !(a.rel && (copying st a.mark || !st.late.isEmpty || (a.dom && unanswered st none)))

/-- Whether an atomic that has performed leaves (R166, R178): the issuer's die has applied its clock, for one on a page of this package's own id every
die. -/
def doneOver (o : Ordering_) (st : Strand) (a : Access) (hc : List Nat) : Bool :=
  match a.place with
  | .own _ _ => reachedAll o hc
  | _ => reached o st.die hc

/-- Drops fences that have nothing left to hold for at the head of the issue stream, and acquire waits that are over. -/
def dropHead (st : Strand) : List QItem → List QItem
  | [] => []
  | .fence scope kind mark :: t =>
    if (scope == 5 && 2 ≤ kind && unanswered st none) || !st.late.isEmpty || copying st mark then .fence scope kind mark :: t else dropHead st t
  | .fencex p q mark :: t => if p == .bt && copying st mark then .fencex p q mark :: t else dropHead st t
  | .acqWait tag :: t => if outstanding st tag then .acqWait tag :: t else dropHead st t
  | x :: t => x :: t

/-- Atomics whose clock the issuer's die has reached leave (R166), and fences with nothing left to hold for go. -/
def dropFences (o : Ordering_) (st : Strand) (l : List QItem) : List QItem :=
  dropHead st (l.filter fun x => match x with
    | .done a hc => !doneOver o st a hc
    | _ => true)

/-- The operation code that an ATREQ carries (R31, R265). -/
def aopCode : AtomOp → Nat
  | .add => 0
  | .swap => 1
  | .cas => 2
  | .and => 3
  | .or => 4
  | .xor => 5
  | .max => 6
  | .min => 7
  | .maxn => 8
  | .minn => 9
  | .addF32 => 10
  | .maxF32 => 11
  | .minF32 => 12
  | .ea => 13

/-- Sends a request of a strand to a peer place with the destination address of R31, and keeps it outstanding (R178, R416). -/
def sendPeer (s : State) (sid : Nat) (a : Access) (pkg pa addr kind op : Nat) (data : List Byte) (xsend : Bool) (ticket : Option Nat) :
    Option (State × Nat) :=
  let st := strandOf s sid
  let (tag, f1) := newTag s.fabric
  let esz := sizeCode (min 8 a.size) + if xsend then 4 * st.tenant else 0
  match sendReq f1 (streamTo st a.path pkg pa) kind (descBytes addr data.length op esz tag ++ data) sid tag a.va a.group with
  | none => none
  | some f2 =>
    let o : Outstanding :=
      { tag := tag, path := a.path, va := a.va, place := .peer pkg pa, xsend := xsend, ticket := ticket, atomic := kind == kAtreq, fill := a.fill,
        op := match a.kind with
          | .atomic op _ v => some (op, v)
          | _ => none
        again := false }
    some (putStrand { s with fabric := f2 } sid { st with outst := st.outst ++ [o] }, tag)

/-- Keeps an access on a page of this package's own id outstanding until every die has applied its counts (R27, R178). -/
def keepOwn (s : State) (sid : Nat) (a : Access) (clock : List Nat) (op : Option (AtomOp × BitVec 512)) (old : Nat) : State :=
  let st := strandOf s sid
  let (tag, f1) := newTag s.fabric
  putStrand { s with fabric := f1 } sid
    { st with
      outst := st.outst ++
        [{ tag := tag, path := a.path, va := a.va, place := a.place, xsend := false, ticket := none, atomic := op.isSome, fill := a.fill, op := op,
           again := false, clock := clock, old := old }] }

/-- An atomic that has entered its path queue performs at its home die (R166): it stays until the issuer's die has reached its clock. One that meets
poison is a late failure (R416). On a page of this package's own id it leaves at once, but with acquire order, and its old value comes once every die
has applied it (R27, R178). -/
def atomQueued (s : State) (sid : Nat) (a : Access) (op : AtomOp) (v : Nat) (loc home : Nat) (own : Bool) : State :=
  let (s1, r) := memAtomic s op a.size loc home v 0
  let st := strandOf s1 sid
  if r.poisoned then putStrand s1 sid (addLate (bringOld st a.fill 0 0) cData a.va)
  else if own && !a.acq then keepOwn s1 sid a r.hc (some (op, BitVec.ofNat 512 v)) r.old
  else
    let st1 := bringOld st a.fill r.old r.flags
    putStrand s1 sid { st1 with pq := .done a r.hc :: st1.pq }

/-- An access meets a bridge that has gone down since it was issued (R42, R416): it does not perform, and its ticket is given up. -/
def bridgeFail (s : State) (sid : Nat) (a : Access) : State :=
  let s1 := putStrand s sid (addLate (bringOld (strandOf s sid) a.fill 0 0) cLink a.va)
  match a.kind with
  | .ticketed _ t => { s1 with ord := dropTickets s1.ord [t] }
  | _ => s1

/-- The die whose memory an access of this package goes to. -/
def homeOf (a : Access) : Option Nat :=
  match a.place, a.kind with
  | _, .read => none
  | _, .move _ => none
  | .mem _ home, _ => some home
  | .own _ home, _ => some home
  | _, _ => none

/-- Performs a ticketed element of a strand on die e when its turn has come (R177): every die has then applied it. -/
def ticketPut (s : State) (e t : Nat) (w : State) : Option State :=
  if t = s.ord.performed then some { w with ord := passTicket (reachAll w.ord (appliedOf w.ord e)) } else none

/-- A copy's engine starts (R160). -/
def startCopy (s : State) (sid k : Nat) : State :=
  let st := strandOf s sid
  let t := st.toks.getD k Token.idle
  putStrand s sid { st with toks := putAt 8 Token.idle st.toks k { t with started := true } }

/-- Performs an access that leaves its queue (R162 to R168, R177, R178) over bridges that stand; none where it cannot perform now. -/
def performWay (s : State) (sid : Nat) (a : Access) : Option State :=
  let st := strandOf s sid
  let e := st.die
  match a.place, a.kind with
  | _, .read => some s
  | _, .move k => some ((k.map (startCopy s sid)).getD s)
  | .mem loc home, .write b => some (memWrite s e loc home b)
  | .mem loc home, .ticketed b t => ticketPut s e t (memWrite s e loc home b)
  | .mem loc home, .atomic op n v => some (atomQueued s sid { a with size := n } op v.toNat loc home false)
  | .own loc home, .write b =>
    let s1 := memWrite s home loc home b
    some (if reachedAll s1.ord (appliedOf s1.ord home) then s1 else keepOwn s1 sid a (appliedOf s1.ord home) none 0)
  | .own loc home, .ticketed b t => ticketPut s home t (memWrite s home loc home b)
  | .own loc home, .atomic op n v => some (atomQueued s sid { a with size := n } op v.toNat loc home true)
  | .spad key, .write b => some { s with ord := spadWrite s.ord key b }
  | .spad key, .ticketed b t => ticketPut s e t { s with ord := spadWrite s.ord key b }
  | .spad key, .atomic op n v =>
    let (o, r) := atomicSpad s.ord op n key v.toNat 0
    let s1 := { s with ord := o }
    some (putStrand s1 sid
      (if r.poisoned then addLate (bringOld st a.fill 0 0) cData a.va else bringOld st a.fill r.old r.flags))
  | .spad key, .frag b sync =>
    if tenantAt s st.tenant (key / 2 ^ 24) && bridgeUp s e (key / 2 ^ 29) then some { s with ord := fragLand s.ord key sync b }
    else some (putStrand s sid (addLate st cLink a.va))
  | .window off, .write b => windowWrite s e off (wordOf (numOf b))
  | .peer pkg pa, .write b => (sendPeer s sid a pkg pa (pa % 2 ^ 52) kWrreq 0 b false none).map (·.1)
  | .peer pkg pa, .ticketed b t =>
    if t = s.ord.performed && !(s.strands.any fun x => x.2.outst.any fun o => o.ticket == some t) then
      (sendPeer s sid a pkg pa (pa % 2 ^ 52) kWrreq 0 b false (some t)).map (·.1)
    else none
  | .peer pkg pa, .atomic op n v =>
    (sendPeer s sid { a with size := n } pkg pa (pa % 2 ^ 52) kAtreq (aopCode op) (bytesOf n v.toNat) false none).map fun (s1, tag) =>
      let st1 := strandOf s1 sid
      if a.acq then putStrand s1 sid { st1 with pq := .acqWait tag :: st1.pq } else s1
  | .peer pkg pa, .frag b sync => (sendPeer s sid a pkg pa (pa % 2 ^ 29 + sync % 2 ^ 24 / 16 * 2 ^ 44) kXsdat 0 b true none).map (·.1)
  | _, _ => none

/-- Performs an access that leaves its queue: one that needs a bridge which is down fails (R42, R416). -/
def performAcc (s : State) (sid : Nat) (a : Access) : Option State :=
  if (homeOf a).any fun home => !bridgeUp s (strandOf s sid).die home then some (bridgeFail s sid a) else performWay s sid a

/-- The item at a position leaves and performs, if it may (R162, R169). What stays of it, the wait of an acquire atomic sent to a peer or of an
atomic for its clock, keeps its place in the stream. -/
def leaveAt (s : State) (sid i : Nat) : Option State :=
  let st := answerOwn s.ord (strandOf s sid)
  if !st.trunk && pdHeld s then none
  else
    match st.pq[i]? with
    | some (.acc a) =>
      if mayLeave st (st.pq.take i) a then
        let s0 := putStrand s sid { st with pq := [] }
        match performAcc s0 sid a with
        | none => none
        | some s1 =>
          let st1 := strandOf s1 sid
          let st2 := { st1 with pq := st.pq.take i ++ st1.pq ++ st.pq.drop (i + 1) }
          some (putStrand s1 sid { st2 with pq := dropFences s1.ord st2 st2.pq })
      else none
    | some (.done a hc) =>
      if doneOver s.ord st a hc then
        let st1 := { st with pq := dropAt st.pq i }
        some (putStrand s sid { st1 with pq := dropFences s.ord st1 st1.pq })
      else none
    | _ => none

/-- The first position from which an access may leave. -/
def firstLeave (s : State) (sid : Nat) : Nat → Nat → Option State
  | 0, _ => none
  | n + 1, i =>
    match leaveAt s sid i with
    | some s' => some s'
    | none => firstLeave s sid n (i + 1)

/-- The queued atomics of a strand that wait for their clock. -/
def queueClocks (l : List QItem) : List (Access × List Nat) := l.filterMap fun x => match x with
  | .done a hc => some (a, hc)
  | _ => none

/-- The dies apply what an atomic waits for (R166, R178). -/
def reachFor (o : Ordering_) (st : Strand) (x : Access × List Nat) : Ordering_ :=
  match x.1.place with
  | .own _ _ => reachAll o x.2
  | _ => reach o st.die x.2

/-- The dies apply what the queued atomics of a strand wait for (R166), and they leave; what the dies have applied on pages of this package's own id is
answered. A held strand makes no move (R16, R23). -/
def reachMe (s : State) (sid : Nat) : State :=
  let st := strandOf s sid
  if !st.trunk && pdHeld s then s
  else
    let o := (queueClocks st.pq).foldl (fun o x => reachFor o st x) s.ord
    let st1 := answerOwn o st
    putStrand { s with ord := o } sid { st1 with pq := dropFences o st1 st1.pq }

/-- Accesses of a strand leave in order while any can, at most `fuel` of them. -/
def flushN : Nat → State → Nat → State
  | 0, s, _ => s
  | n + 1, s, sid =>
    match firstLeave s sid (strandOf s sid).pq.length 0 with
    | none => s
    | some s' => flushN n (if (queueClocks (strandOf s' sid).pq).isEmpty then s' else reachMe s' sid) sid

/-- Every access of a strand that can leave does. -/
def flushStrand (s : State) (sid : Nat) : State :=
  if (strandOf s sid).pq.isEmpty || (!(strandOf s sid).trunk && pdHeld s) then s
  else
    let s0 := reachMe s sid
    let s1 := flushN (strandOf s0 sid).pq.length s0 sid
    let st := strandOf s1 sid
    putStrand s1 sid { st with pq := dropFences s1.ord st st.pq }

/-- The issue stream of the strand whose convoy issues: what it queued before, and what this convoy has added. -/
def streamOf (st : Strand) : List QItem := st.pq ++ st.wbuf

/-! The accesses of the convoy in progress that must leave before a later one of its syllables (R126, R169 to R173). They enter their path queue before
the convoy retires, and a note of each such syllable says so: the syllable, issued again, does not issue them again. Log 20. -/

/-- Whether a fence between two accesses holds the later one back for the earlier one. -/
def fenceBetween (b a : Access) : QItem → Bool
  | .fence _ kind _ => fenceLate kind a && b.path == a.path && fenceEarly kind b
  | .fencex p q _ => a.path == q && b.path == p
  | _ => false

/-- The syllables of a convoy whose accesses hold a later access, and the fences that stand behind the place. -/
def ownHolders (a : Access) : List QItem → List Nat × List QItem
  | [] => ([], [])
  | x :: t =>
    let (l, fs) := ownHolders a t
    match x with
    | .acc b => (if accHolds b a || fs.any (fenceBetween b a) then insertN l b.slot else l, fs)
    | _ => (l, x :: fs)

/-- The slot of an item of the convoy in progress; a fence has none. -/
def itemSlot : QItem → Option Nat
  | .acc a => some a.slot
  | _ => none

/-- The syllables whose accesses must leave before those of a list of syllables, and these. -/
def closeOwn : Nat → List QItem → List Nat → List Nat
  | 0, _, l => l
  | n + 1, w, l =>
    let more := l.map fun k =>
      let pre := w.takeWhile fun x => itemSlot x != some k
      (w.filterMap fun x => match x with
        | .acc a => if a.slot = k then some (ownHolders a pre).1 else none
        | _ => none).flatten
    closeOwn n w (more.flatten.foldl insertN l)

/-- Notes what a syllable of a convoy that has not retired has done outside its strand, with the bytes that it gave back: the syllable, issued again
after a stop of the strand, does not do it twice. -/
def noteDone (st : Strand) (slot elem : Nat) (b : List Byte) : Strand :=
  { st with answers := st.answers ++ [{ slot := slot, elem := elem, tag := 0, data := some (.bytes b), atomic := true, pc := st.pc.toNat }] }

/-- The number of the VAMO.RET whose elements are among some items of a slot; 0 for none. -/
def fillId (l : List QItem) (k : Nat) : Nat :=
  (l.findSome? fun x => match x with
    | .acc a => if a.slot = k then a.fill.map (·.id) else none
    | _ => none).getD 0

/-- The groups of a number that stand in the in-queues, with their queue. -/
def groupsOf (st : Strand) (id : Nat) : List (Nat × Group) :=
  (st.iq.zipIdx.map fun (q, k) => (q.filter fun g => g.id == id).map fun g => (k, g)).flatten

/-- The accesses of some syllables of the convoy in progress enter their path queue, with the fences between them, and leave where they can. -/
def enterSlots (s : State) (l : List Nat) : State :=
  if l.isEmpty then s
  else
    let st := me s
    let mine := fun x => (itemSlot x).any (hasN l ·)
    let moved := ((st.wbuf.filter fun x => mine x || (itemSlot x).isNone).reverse.dropWhile fun x => (itemSlot x).isNone).reverse
    let ids := (l.map (fillId moved)).filter (· != 0)
    let st1 := l.foldl (fun st k => noteDone st k leftElem (bytesOf 8 (fillId moved k) ++ [0])) st
    flushStrand (putMe s
      { st1 with
        pq := st.pq ++ moved, wbuf := st.wbuf.filter fun x => !mine x, olds := st.olds ++ (ids.map (groupsOf st)).flatten }) s.cur

/-- The accesses of the convoy in progress that hold a later access enter their path queue. -/
def enterFor (s : State) (a : Access) : State := enterSlots s (closeOwn 4 (me s).wbuf (ownHolders a (me s).wbuf).1)

/-- All of them do. -/
def enterAll (s : State) : State := enterSlots s (((me s).wbuf.filterMap itemSlot).foldl insertN [])

/-- Those that write do, and what must leave before them. -/
def enterWrites (s : State) : State :=
  enterSlots s (closeOwn 4 (me s).wbuf (((me s).wbuf.filterMap fun x => match x with
    | .acc a => if isWrite a then some a.slot else none
    | _ => none).foldl insertN []))

/-- Whether something that a convoy has done since a state cannot be taken back: a request has left, a failure has come, or a syllable has been noted as
done; that accesses have entered their path queue can be. -/
def stands (r s1 : State) : Bool :=
  let a := me r
  let b := me s1
  (b.outst.any fun o => !a.outst.any (· == o)) || decide (a.late.length < b.late.length) ||
    b.answers.any fun x => (x.tag == 0 || x.atomic) && x.elem != leftElem && !a.answers.any (· == x)

/-- Whether accesses of the convoy in progress have entered their path queue since a state of the strand, and whether anything has been asked since. -/
def hasLeft (st st1 : Strand) : Bool := st1.answers.any fun x => x.elem == leftElem && decide (x.slot < 7) && !st.answers.any (· == x)
def hasAsked (st st1 : Strand) : Bool := st1.answers.any fun x => x.elem != leftElem && !st.answers.any (· == x)

/-- Makes way for an access that performs at its issue: the state in which no earlier item holds it, or none where it must wait. The accesses of
earlier convoys leave first, those of this convoy only where they hold it. A run ahead makes no way. -/
def makeWay (s : State) (a : Access) : Option State :=
  if mayLeave (me s) (streamOf (me s)) a then some s
  else if s.look.isSome then none
  else
    let s1 := flushStrand s s.cur
    if mayLeave (me s1) (streamOf (me s1)) a then some s1
    else
      let s2 := enterFor s1 a
      if mayLeave (me s2) (streamOf (me s2)) a then some s2 else none

/-- The tokens of a strand that have a copy in progress. -/
def busyToks (st : Strand) : List Nat := (List.range 8).filter fun k => let t := st.toks.getD k Token.idle; t.busy && !t.pend

/-- Whether the syllable in progress has been noted as done, and what it gave back. -/
def doneBefore (s : State) (elem : Nat) : Option (List Byte) :=
  match (answerOf (me s) s.slot elem).bind (·.data) with
  | some (.bytes b) => some b
  | _ => none

/-- The element number of such a note. -/
def noteElem : Nat := 2 ^ 30 + 2

/-- The RED forms of a convoy that waits have entered their path queue at issue (R161): those that may leave do. -/
def issueReds : Nat → State → List QItem → State
  | 0, s, _ => s
  | n + 1, s, pre =>
    let st := me s
    match st.wbuf.drop pre.length with
    | [] => s
    | .acc a :: t =>
      let red := a.group = 0 && (match a.kind with
        | .atomic _ _ _ => true
        | _ => false)
      if red && mayLeave st (st.pq ++ pre) a then
        match performAcc (putMe s { st with wbuf := pre ++ t }) s.cur a with
        | some s1 => issueReds n (putMe s1 (noteDone (me s1) a.slot noteElem [])) pre
        | none => issueReds n s (pre ++ [.acc a])
      else issueReds n s (pre ++ [.acc a])
    | x :: _ => issueReds n s (pre ++ [x])

/-- The state that a waiting syllable leaves: the accesses of earlier convoys leave where they can, and the RED forms of this one. -/
def waitHere (s : State) : State :=
  let s1 := flushStrand s s.cur
  issueReds (me s1).wbuf.length s1 []

/-- The state that a syllable leaves whose access must wait: what the accesses of its own convoy that hold it have done, where it cannot be taken back
(`s2` is the state with it), else nothing of the convoy. -/
def waitOr (s s2 : State) : State :=
  let h := waitHere s
  if stands h s2 then s2 else h
def waitFor (s : State) (a : Access) : State := waitOr s (enterFor (flushStrand s s.cur) a)

/-- Whether a syllable's accesses have entered their path queue before. -/
def hasEntered (st : Strand) (slot : Nat) : Bool := (answerOf st slot leftElem).isSome && decide (slot < 4)

/-- Puts an item at the end of what the convoy in progress adds to the issue stream (R161). -/
def markItem (st : Strand) (slot : Nat) : QItem → QItem
  | .acc a => .acc { a with mark := st.armed, slot := slot }
  | .fence sc k _ => .fence sc k st.armed
  | .fencex p q _ => .fencex p q st.armed
  | x => x
/-- The last group number of a strand, with those of some items. -/
def lastGroup (st : Strand) (l : List QItem) : Nat :=
  l.foldl (fun m x => match x with
    | .acc a => max m a.group
    | _ => m) st.nextGrp
def addItems (st : Strand) (slot : Nat) (l : List QItem) : Strand :=
  if hasEntered st slot then st else { st with wbuf := st.wbuf ++ l.map (markItem st slot), nextGrp := lastGroup st l }
/-- Items that enter the path queues at once, after what the convoys before have queued. -/
def commitItems (st : Strand) (slot : Nat) (l : List QItem) : Strand :=
  if hasEntered st slot then { st with pq := st.pq ++ st.wbuf, wbuf := [] }
  else { st with pq := st.pq ++ st.wbuf ++ l.map (markItem st slot), wbuf := [], nextGrp := lastGroup st l }
def queueItem (s : State) (x : QItem) : State := putMe s (addItems (me s) s.slot [x])

/-- The convoy's items enter the path queues when it retires (R161). Behind a syllable that still waits on a full queue no later convoy retires
(R130, R131). -/
def commitQueue (o : Ordering_) (st : Strand) : Strand :=
  if overfull st then st else { st with pq := dropFences o st (st.pq ++ st.wbuf), wbuf := [] }

/-- The trace records of TRMARK are written when the convoy retires (R77), but while a syllable waits on a full queue its convoy has not. -/
def writeMarks (s : State) : State := if overfull (me s) then s else marksOf s s.cur

/-- Every strand's accesses leave while any can, and every die applies every write. -/
def drainAll (s : State) : State :=
  let s1 := s.strands.foldl (fun s x => if x.2.pq.isEmpty then s else flushStrand s x.1) s
  answerOwns { s1 with ord := settle s1.ord }

end Sys2Proof.Machine
end

