-- ==== Sys2Proof/Machine/Operands.lean ====
section
/-! DEFINITION. The scalar operand forms: extended immediates and convoy offsets (R255), bit-field widths (R279), access sizes
(R256), f32 operands (R280), scopes and orders (R257). -/

namespace Sys2Proof.Machine

/-- The sign-extended imm16, the zero-extended imm16 (R255). -/
def immS (i : BitVec 16) : Word := sext64 i
def immZ (i : BitVec 16) : Word := zext64 i

/-- The address n convoys from the one in progress (R255). -/
def convoyAt {n : Nat} (s : State) (off : BitVec n) : Word := (me s).pc + 16 * sext64 off

/-- The address of the next convoy. -/
def nextConvoy (s : State) : Word := (me s).pc + 16

/-- The width that a register-width bit-field operation uses (R279). -/
def widReg (w : Word) : Nat := min (bitsW w 0 7) 64

/-- field(x, off, wid) of R279. -/
def fieldOf (x : Word) (off wid : Nat) : Nat := x.toNat / 2 ^ off % 2 ^ wid

/-- The extracts and the insert of R279. -/
def bfxn (x : Word) (off wid : Nat) : Word := wordOf (fieldOf x off wid)
def bfx (x : Word) (off wid : Nat) : Word := if wid = 0 then 0 else wordOfInt (signedN wid (fieldOf x off wid))
def bfi (d x : Word) (off wid : Nat) : Word :=
  let top := min (off + wid) 64
  let n := top - off
  let hole := (2 ^ n - 1) * 2 ^ off
  wordOf (Nat.lor (d.toNat - Nat.land d.toNat hole) (x.toNat % 2 ^ n * 2 ^ off))

/-- The bytes of an access of size code `sz` (R256). -/
def accSize (sz : BitVec 3) : Nat := 2 ^ (sz.toNat % 4)

/-- The value of a load of size code `sz` from its bytes (R256). -/
def loadValue (sz : BitVec 3) (bs : List Byte) : Word :=
  if 4 ≤ sz.toNat then wordOfInt (signedN (8 * accSize sz) (numOf bs)) else wordOf (numOf bs)

/-- The address of a scalar load or store (R256, R282). -/
def lsAddr (s : State) (o : LOps) : Word := getS s o.sa + sext64 o.imm

/-- An f32 operand: bits 31:0 (R280). -/
def f32Bits (w : Word) : Nat := w.toNat % 2 ^ 32
def fpReg (s : State) (r : BitVec 5) : Fp := fpOf f32 (f32Bits (getS s r))

/-- Whether an ord code has release order, acquire order (R257). -/
def ordRel (o : BitVec 2) : Bool := 2 ≤ o.toNat
def ordAcq (o : BitVec 2) : Bool := o.toNat % 2 == 1

/-- Whether a scope code is domain (R120). -/
def isDom (c : BitVec 3) : Bool := c.toNat == 5

/-- A path code of FENCEX (R257). -/
def pathOf (c : BitVec 3) : Path :=
  match c.toNat with
  | 0 => .ls
  | 1 => .bt
  | 2 => .cl
  | 3 => .mx
  | _ => .rc

end Sys2Proof.Machine
end

