-- ==== Sys2Proof/Machine/Issue.lean ====
section
/-! DEFINITION. Accesses that perform at their issue: reads, and atomics that return their old value (R161, R162, R166, R178, R283). -/

namespace Sys2Proof.Machine

/-- What an access that performs at its issue gives. -/
inductive Got where
  /-- Its bytes, the flags of an atomic, and the state it leaves. -/
  | bytes (b : List Byte) (fl : FFlags) (s : State)
  /-- It fails (R69, R36). -/
  | fail (cause : Nat)
  /-- The convoy waits and goes on at this syllable from this state. -/
  | wait (s : State)

/-- The planes that a request of a copy's engine avoids, by its slot: those on which the copy has failed (R155). -/
def avoidOf (st : Strand) (slot : Nat) : List Nat := if 8 ≤ slot && slot < 16 then (st.toks.getD (slot - 8) Token.idle).avoid else []

/-- Sends a request of the issuing strand whose answer its convoy waits for (R31), with the destination address and the element-size byte of its
descriptor; a stream without room waits. -/
def askWire (s : State) (slot elem : Nat) (p : Path) (pkg pa kind op addr n esz : Nat) (data : List Byte) (va : Word) : State :=
  let st := me s
  let (tag, f1) := newTag s.fabric
  match sendReqAs f1 (streamTo st p pkg pa) kind (descBytes addr n op esz tag ++ data) s.cur tag va 0 (avoidOf st slot) none with
  | none => s
  | some f2 =>
    putMe { s with fabric := f2 }
      { st with
        answers := st.answers ++ [{ slot := slot, elem := elem, tag := tag, data := none, atomic := kind == kAtreq, pc := st.pc.toNat }] }

/-- A request for an address of another package. -/
def askPeer (s : State) (slot elem : Nat) (p : Path) (pkg pa kind op size : Nat) (data : List Byte) (va : Word) : State :=
  askWire s slot elem p pkg pa kind op (wireAddr pa) (if data.isEmpty then size else data.length) (wireSize (me s) size pa) data va

/-- How many convoys ahead of the next one a syllable runs. -/
def lookDepth (s : State) : Nat := (s.look.map (·.depth)).getD 0

/-- The addresses of the convoys after the next one, on the way to the one where a syllable runs. -/
def lookPath (s : State) : List Word := (s.look.map fun l => l.path.drop 1).getD []

/-- The value that a load of the syllable in progress took before its turn (R130, R133, R169). -/
def earlyOf (s : State) (elem : Nat) (a : Access) : Option (List Byte) :=
  ((me s).early.find? fun e =>
    e.ahead == lookDepth s && e.slot == s.slot && e.elem == elem && e.va == a.va && e.bytes.length == a.size && e.path == lookPath s).map (·.bytes)

/-- A read from this package's memory or a scratchpad (R162), a read that meets poison (R69); none for another package and the window. -/
def localRead (s : State) (a : Access) : Option (Except Nat (List Byte)) :=
  match a.place with
  | .mem loc _ => some (if readPoisoned s (me s).die loc a.size then .error cData else .ok (memRead s (me s).die loc a.size))
  | .own loc home => some (if readPoisoned s home loc a.size then .error cData else .ok (memRead s home loc a.size))
  | .spad key => some (if spadPoisoned s.ord key a.size then .error cData else .ok (Memory.getBytes s.ord.spad key a.size))
  | _ => none

/-- A load or an atomic that a run ahead passes over: it stays behind, and later accesses must not pass it where it holds them (R169). -/
def passOver (s : State) (l : Look) (a : Access) : State := { queueItem s (.acc a) with look := some l }

/-- A load in a run ahead (R130, R169): it leaves now and its value waits for its turn, or it stays behind. One that would fail does not leave (R133).
-/
def lookRead (s : State) (l : Look) (elem : Nat) (a : Access) : Got :=
  let none_ := List.replicate a.size (0 : Byte)
  match l.atom, l.left with
  | true, _ => .bytes none_ 0 (passOver s l a)
  | false, some (n + 1) => .bytes none_ 0 (passOver s { l with left := some n } a)
  | false, left =>
    if left.isSome && l.hit then .bytes none_ 0 s
    else if !mayLeave (me s) (streamOf (me s)) a then .wait s
    else
      match localRead s a, a.place, answerOf (me s) s.slot elem with
      | some (.ok b), _, _ =>
        let e : Early := { ahead := l.depth, path := lookPath s, slot := s.slot, elem := elem, va := a.va, bytes := b }
        .bytes b 0 { putMe s { me s with early := (me s).early ++ [e] } with look := some { l with hit := true } }
      | none, .peer _ _, some { data := some (.bytes b), .. } => .bytes b 0 s
      | none, .peer pkg pa, none =>
        .wait { askPeer s s.slot elem a.path pkg pa kRdreq 0 a.size [] a.va with look := some { l with hit := true, asked := true } }
      | _, _, _ => .wait s

/-- A read at its issue (R162): from the view of the strand's die, the scratchpad, a register of the window, the home die of an own-id
page, or a peer's answer; or the value that it took before its turn. -/
def readNow (s : State) (elem : Nat) (a : Access) : Got :=
  match earlyOf s elem a, s.look with
  | some b, _ => .bytes b 0 s
  | none, some l => lookRead s l elem a
  | none, none =>
    match makeWay s a with
    | none => .wait (waitFor s a)
    | some s1 =>
      match localRead s1 a with
      | some (.ok b) => .bytes b 0 s1
      | some (.error c) => .fail c
      | none =>
        match a.place with
        | .window off => .bytes (bytesOf 8 (windowRead s1 off).toNat) 0 s1
        | .peer pkg pa =>
          match answerOf (me s) s.slot elem with
          | none => .wait (askPeer s1 s.slot elem a.path pkg pa kRdreq 0 a.size [] a.va)
          | some x =>
            match x.data with
            | none => .wait (waitHere s)
            | some (.bytes b) => .bytes b 0 s1
            | some _ => .fail cLink
        | _ => .wait s

/-- The data of an ATREQ (R31): the operand, and for a compare-and-swap the expected value after it. R31 gives no order of the two. Log 88. -/
def atomData (op : AtomOp) (n v e : Nat) : List Byte := bytesOf n v ++ (if op = .cas then bytesOf n e else [])

/-- Whether no convoy on the way of a run ahead stands where this one does: its notes then name it. -/
def onlyOnce (s : State) (l : Look) : Bool := decide ((l.path.filter (· == (me s).pc)).length ≤ 1)

/-- What a value-returning atomic leaves in its path queue until the dies have applied its clock (R166, R178). -/
def keepDone (s : State) (a : Access) (hc : List Nat) : State :=
  let st := me s
  match a.place with
  | .spad _ => s
  | _ => putMe s { st with pq := st.pq ++ [.done a hc] }

/-- A value-returning atomic performs at its home in this package (R166, R283): the state and what it gives; none for another place. -/
def atomLocal (s : State) (a : Access) (op : AtomOp) (v e : Nat) : Option (State × AtomRes) :=
  match a.place with
  | .mem loc h => some (memAtomic s op a.size loc h v e)
  | .own loc h => some (memAtomic s op a.size loc h v e)
  | .spad key => let (o, r) := atomicSpad s.ord op a.size key v e; some ({ s with ord := o }, r)
  | _ => none

/-- A value-returning atomic in a run ahead: it leaves before its turn where the run looks for it (R159, R169), noted for its turn, or stays behind. -/
def lookAtom (s : State) (l : Look) (elem : Nat) (a : Access) (op : AtomOp) (v e : Nat) : Got :=
  let none_ := List.replicate a.size (0 : Byte)
  if !l.atom || l.hit || (answerOf (me s) s.slot aheadElem).isSome || (answerOf (me s) s.slot elem).isSome then .bytes none_ 0 (passOver s l a)
  else
    match l.left with
    | some (n + 1) => .bytes none_ 0 (passOver s { l with left := some n } a)
    | _ =>
      if !(mayLeave (me s) (streamOf (me s)) a && onlyOnce s l) then .wait s
      else
        let hit := { l with hit := true }
        match a.place, atomLocal s a op v e with
        | _, some (s1, r) =>
          if r.poisoned then .wait s
          else
            let b := bytesOf a.size r.old
            let s2 := keepDone s1 a r.hc
            .bytes b r.flags { putMe s2 (noteDone (me s2) s.slot aheadElem b) with look := some hit }
        | .peer pkg pa, none =>
          .wait { askPeer s s.slot aheadElem a.path pkg pa kAtreq (aopCode op) a.size (atomData op a.size v e) a.va with look := some hit }
        | _, none => .wait s

/-- An atomic that returns its old value, at its issue (R166, R283): `e` is the expected value of CAS. It leaves once the issuer's die has applied the
clock that comes back, on a page of this package's own id every die (R27, R178). One that performed before its strand stopped, or ahead of its turn, is
not performed again; what it has done stands. -/
def atomNow (s : State) (elem : Nat) (a : Access) (op : AtomOp) (v e : Nat) : Got :=
  match s.look with
  | some l => lookAtom s l elem a op v e
  | none =>
    match (answerOf (me s) s.slot aheadElem).orElse fun _ => answerOf (me s) s.slot elem with
    | some x =>
      match x.data with
      | none => .wait (waitHere s)
      | some (.bytes b) => .bytes b (atomNew op (8 * a.size) (numOf b) v e).2 s
      | some .noValue => .fail cData
      | some .failed => .fail cLink
    | none =>
      match makeWay s a with
      | none => .wait (waitFor s a)
      | some s1 =>
        match a.place, atomLocal s1 a op v e with
        | _, some (s2, r) =>
          if r.poisoned then .fail cData
          else
            let b := bytesOf a.size r.old
            let s3 := { s2 with ord := reachFor s2.ord (me s2) (a, r.hc) }
            .bytes b r.flags (standNow (putMe s3 (noteDone (me s3) s.slot elem b)))
        | .peer pkg pa, none => .wait (askPeer s1 s.slot elem a.path pkg pa kAtreq (aopCode op) a.size (atomData op a.size v e) a.va)
        | _, none => .fail cMisaligned

/-- A RED form, or AMOEA, in a run ahead that looks for an atomic: it performs before its turn, noted for its turn, or stays behind (R159, R161, R169).
-/
def lookRed (s : State) (l : Look) (a : Access) : Option State :=
  if l.hit then some (passOver s l a)
  else
    match l.left with
    | some (n + 1) => some (passOver s { l with left := some n } a)
    | _ =>
      let st := me s
      if !(mayLeave st (streamOf st) a && onlyOnce s l) then none
      else
        (performAcc (putMe s { st with pq := [], wbuf := [] }) s.cur a).map fun s1 =>
          let st1 := me s1
          { putMe s1 (noteDone { st1 with pq := st.pq ++ st1.pq, wbuf := st.wbuf } s.slot aheadElem []) with look := some { l with hit := true } }

/-- The reads of an element of several 8-byte words in this package: each word is an access of its own (R176). The element's bytes are gathered from
them; another package is asked once. -/
def readWords (s : State) (elem : Nat) (a : Access) : Nat → Nat → Got
  | 0, _ => .bytes [] 0 s
  | n + 1, j =>
    let place : Place := match a.place with
      | .mem loc h => .mem (loc + 8 * j) h
      | .own loc h => .own (loc + 8 * j) h
      | .spad key => .spad (key + 8 * j)
      | p => p
    let va := a.va + wordOf (8 * j)
    match readNow s (2 ^ 24 + elem * 8 + j) { a with place := place, va := va, size := 8 } with
    | .wait s1 => .wait s1
    | .fail c => .fail c
    | .bytes b _ s1 =>
      match readWords s1 elem a n (j + 1) with
      | .wait s2 =>
        let st := me s2
        .wait
          (if s2.look.isSome || st.early.any fun x => x.ahead == 0 && x.slot == s.slot && x.elem == 2 ^ 24 + elem * 8 + j then s2
           else putMe s2 { st with early := st.early ++ [{ ahead := 0, slot := s.slot, elem := 2 ^ 24 + elem * 8 + j, va := va, bytes := b }] })
      | .fail c => .fail c
      | .bytes t _ s2 => .bytes (b ++ t) 0 s2

/-- The read of an element of any size (R176). -/
def readWide (s : State) (elem : Nat) (a : Access) : Got :=
  if a.size ≤ 8 || isPeer a.place then readNow s elem a else readWords s elem a (a.size / 8) 0

/-- Ends a syllable on what its one access gave. -/
def Got.res (g : Got) (va : Word) (elem : Nat) (k : List Byte → FFlags → State → Res) : Res :=
  match g with
  | .bytes b fl s => k b fl s
  | .fail c => .trap c va elem
  | .wait s => .wait s

end Sys2Proof.Machine
end

