-- ==== Sys2Proof/Machine/Fetch.lean ====
section
/-! DEFINITION. Fetching a convoy (R124, R146, R288), the checks of a repeat frame (R134) and which syllables a convoy may hold
together (R125). -/

namespace Sys2Proof.Machine

/-- The four words of 16 bytes (R124). -/
def wordsOf (b : List Byte) : List (BitVec 32) := (List.range 4).map fun m => BitVec.ofNat 32 (leAt b (4 * m) 4)

/-- The four syllable words at a convoy address, or the cause of the fetch fault. -/
def fetchWords (s : State) (st : Strand) (pc : Word) : Except Nat (List (BitVec 32)) :=
  match checkScalar s st .fetch 16 pc with
  | .error c => .error c
  | .ok (.mem loc _) =>
    if readPoisoned s st.die loc 16 then .error cData else .ok (wordsOf (memRead s st.die loc 16))
  | .ok _ => .error cTranslation

/-- The instruction cache lines of a core, and the bytes that a line holds for a location (R299). -/
def linesOf (s : State) (st : Strand) : List (Nat × List Byte) := NMap.getD s.icache (st.sid / 4) []
def lineOf (s : State) (st : Strand) (loc : Nat) : Option (List Byte) := ((linesOf s st).find? fun l => l.1 == loc).map (·.2)

/-- The location of a convoy. -/
def convoyLoc (s : State) (st : Strand) (pc : Word) : Option Nat :=
  match checkScalar s st .fetch 16 pc with
  | .ok (.mem loc _) => some loc
  | _ => none

/-- The words of a convoy as the core fetched it earlier, where memory holds others now (R299). -/
def staleWords (s : State) (st : Strand) (pc : Word) : Option (List (BitVec 32)) :=
  match convoyLoc s st pc with
  | none => none
  | some loc =>
    match lineOf s st loc with
    | none => none
    | some b => if b = memRead s st.die loc 16 then none else some (wordsOf b)

/-- The core holds the convoy at a location as it reads now, and the convoys after it, which the strand fetches ahead, as it first read them (R299).
How far it fetches ahead is the model's choice: four convoys, within a 64 KiB frame. Log 21. -/
def noteLines (s : State) (st : Strand) (loc : Nat) : State :=
  let ahead := (List.range 4).map fun k => loc + 16 * (k + 1)
  let old := (linesOf s st).filter fun l => l.1 != loc
  let new := (ahead.filter fun a => a / 2 ^ 16 == loc / 2 ^ 16 && !old.any fun l => l.1 == a).map fun a => (a, memRead s st.die a 16)
  { s with icache := NMap.set s.icache (st.sid / 4) (old ++ (loc, memRead s st.die loc 16) :: new) }

/-- Fetches the convoy at an address: where the core holds other words than memory, either may issue (R299). -/
def fetchConvoy (s : State) (st : Strand) (pc : Word) : Except Nat (List (BitVec 32)) × State :=
  match fetchWords s st pc with
  | .error c => (.error c, s)
  | .ok ws =>
    let keep := fun s => match convoyLoc s st pc with
      | some loc => noteLines s st loc
      | none => s
    match staleWords s st pc with
    | none => (.ok ws, keep s)
    | some old =>
      let (p, s1) := takePick s 2
      if p = 1 then (.ok old, s1) else (.ok ws, keep s1)

/-- Whether the decoder refuses a word. -/
def undecodable (w : BitVec 32) : Bool :=
  match decodeSyllable w.toNat with
  | .ok _ => false
  | .error _ => true

/-- The majors of access-side vector memory syllables (R125). -/
def isVmem (mj : Nat) : Bool := (0x30 ≤ mj && mj ≤ 0x36) || mj == 0x38 || mj == 0x39

/-- The majors that a captured convoy may hold (R134). -/
def capturable (mj : Nat) : Bool := (0x21 ≤ mj && mj ≤ 0x36) || mj == 0x38 || mj == 0x39 || mj == 0x3A

/-- Whether a syllable is a control transfer (R125): majors 0x10 to 0x18, DONE, TRAP, ERET. -/
def isTransfer (w : BitVec 32) : Bool :=
  let mj := majorOf w
  let fn := w.toNat % 2048
  (0x10 ≤ mj && mj ≤ 0x18) || (mj == 0x1B && fn == 0) || (mj == 0x1A && (fn % 16 == 5 || fn % 16 == 6))

/-- The first slot that breaks R125, if any: a non-empty syllable after a control transfer, or a second access-side vector memory
syllable. -/
def badSlot : Nat → Bool → Bool → List (BitVec 32) → Option Nat
  | _, _, _, [] => none
  | k, tr, vm, w :: t =>
    if w = 0 then badSlot (k + 1) tr vm t
    else if tr || (vm && isVmem (majorOf w)) then some k
    else badSlot (k + 1) (isTransfer w) (vm || isVmem (majorOf w)) t

/-- The stage of captured syllable i (R134). -/
def stageOf (map0 map1 i : Nat) : Nat := (map1 * 2 ^ 32 + map0) / 8 ^ i % 8

/-- The first captured syllable that R134 does not allow, by index: `ws` are the sixteen words. -/
def badCapture (stages map0 map1 : Nat) : Nat → List (BitVec 32) → Option Nat
  | _, [] => none
  | i, w :: t =>
    if w = 0 then badCapture stages map0 map1 (i + 1) t
    else if !capturable (majorOf w) || undecodable w || decide (stages ≤ stageOf map0 map1 i) then some i
    else badCapture stages map0 map1 (i + 1) t

/-- The words of the four convoys that a frame at A captures, or the convoy whose fetch faults and its cause. -/
def captureWords (s : State) (st : Strand) (a : Word) : Nat → Except (Word × Nat) (List (BitVec 32))
  | 0 => .ok []
  | c + 1 =>
    match captureWords s st a c with
    | .error e => .error e
    | .ok ws =>
      let pc := a + wordOf (16 * (c + 1))
      match fetchWords s st pc with
      | .error e => .error (pc, e)
      | .ok l => .ok (ws ++ l)

/-- The words that a frame at A captures: each convoy as memory holds it, or all as the core fetched them earlier (R299). -/
def captureConvoys (s : State) (st : Strand) (a : Word) : Except (Word × Nat) (List (BitVec 32)) × State :=
  match captureWords s st a 4 with
  | .error e => (.error e, s)
  | .ok cs =>
    let old := ((List.range 4).map fun c => (staleWords s st (a + wordOf (16 * (c + 1)))).getD ((cs.drop (4 * c)).take 4)).flatten
    if old = cs then (.ok cs, s)
    else
      let (p, s1) := takePick s 2
      (.ok (if p = 1 then old else cs), s1)

/-- The words of the convoy in progress, or those at the strand's pc. -/
def ownWords (s : State) : Except Nat (List (BitVec 32)) :=
  match s.convoy with
  | some c => .ok c.words
  | none => fetchWords s (me s) (me s).pc

end Sys2Proof.Machine
end

