-- ==== Sys2Proof/Machine/ScalarMem.lean ====
section
/-! DEFINITION. Scalar loads, stores and atomics (R282 to R286). -/

namespace Sys2Proof.Machine

/-- Checks a scalar access (R146) and goes on with its place; the strand's TLB then holds its leaf. -/
def withPlace (s : State) (acc : Acc) (n : Nat) (va : Word) (k : Place → State → Res) : Res :=
  match checkScalar s (me s) acc n va with
  | .error c => .trap c va 0
  | .ok p => k p (tlbFill s (me s) va)

def execLd (o : LOps) (s : State) : Out State :=
  let va := lsAddr s o
  let n := accSize o.sz
  finish s <| withPlace s .load n va fun p s1 =>
    (readNow s1 0 (mkAcc .ls p va n .read false false false)).res va 0 fun b _ s2 => .ok (setS s2 o.sd (loadValue o.sz b))

/-- ST: the write enters the path queue when the convoy retires (R161). -/
def execSt (o : LOps) (s : State) : Out State :=
  let va := lsAddr s o
  let n := accSize o.sz
  finish s <| withPlace s .store n va fun p s1 =>
    .ok (queueItem s1 (.acc (mkAcc .ls p va n (.write (bytesOf n (getS s o.sd).toNat)) false false false)))

/-- An atomic that returns its old value (R283, R285): operand s[sb], expected value the old s[sd]. -/
def amo (s : State) (op : AtomOp) (n : Nat) (sd sa sb : BitVec 5) (ord : BitVec 2) (scope : BitVec 3) : Out State :=
  let va := getS s sa
  finish s <| withPlace s .atomic n va fun p s1 =>
    let v := (getS s sb).toNat % 2 ^ (8 * n)
    let e := (getS s sd).toNat % 2 ^ (8 * n)
    let a := mkAcc .ls p va n (.atomic op n (BitVec.ofNat 512 v)) (ordRel ord) (ordAcq ord) (isDom scope)
    (atomNow s1 0 a op v e).res va 0 fun b fl s2 => .ok (setS (addFlags s2 fl) sd (wordOf (numOf b)))

/-- A RED form, and AMOEA: the atomic enters the path queue and returns nothing (R283, R286). One that performed while its convoy waited, before its
strand stopped, or ahead of its turn is not performed again. -/
def red (s : State) (op : AtomOp) (n : Nat) (va : Word) (v : BitVec 512) (ord : BitVec 2) (scope : BitVec 3) : Res :=
  withPlace s .atomic n va fun p s1 =>
    let a := mkAcc .ls p va n (.atomic op n v) (ordRel ord) (ordAcq ord) (isDom scope)
    if (doneBefore s1 noteElem).isSome || (doneBefore s1 aheadElem).isSome then .ok s1
    else
      match s1.look.filter (·.atom) with
      | none => .ok (queueItem s1 (.acc a))
      | some l => match lookRed s1 l a with
        | some s2 => .ok s2
        | none => .wait s1

/-- The operand of an n-byte atomic. -/
def redVal (s : State) (n : Nat) (sb : BitVec 5) : BitVec 512 := BitVec.ofNat 512 ((getS s sb).toNat % 2 ^ (8 * n))

/-- 4 or 8 bytes. -/
def szDbl (d : Bool) : Nat := if d then 8 else 4

def amoI (s : State) (op : AtomOp) (o : AOps) : Out State := amo s op (szDbl o.dbl) o.sd o.sa o.sb o.ord o.scope
def amoF (s : State) (op : AtomOp) (o : AfOps) : Out State := amo s op 4 o.sd o.sa o.sb o.ord o.scope
def redI (s : State) (op : AtomOp) (o : RedOps) : Out State :=
  finish s (red s op (szDbl o.dbl) (getS s o.sa) (redVal s (szDbl o.dbl) o.sb) o.ord o.scope)
def redF (s : State) (op : AtomOp) (o : RedfOps) : Out State := finish s (red s op 4 (getS s o.sa) (redVal s 4 o.sb) o.ord o.scope)

def execAmoadd (o : AOps) (s : State) : Out State := amoI s .add o
def execAmoswap (o : AOps) (s : State) : Out State := amoI s .swap o
def execAmocas (o : AOps) (s : State) : Out State := amoI s .cas o
def execAmoand (o : AOps) (s : State) : Out State := amoI s .and o
def execAmoor (o : AOps) (s : State) : Out State := amoI s .or o
def execAmoxor (o : AOps) (s : State) : Out State := amoI s .xor o
def execAmomax (o : AOps) (s : State) : Out State := amoI s .max o
def execAmomin (o : AOps) (s : State) : Out State := amoI s .min o
def execAmomaxn (o : AOps) (s : State) : Out State := amoI s .maxn o
def execAmominn (o : AOps) (s : State) : Out State := amoI s .minn o
def execAmoaddF32 (o : AfOps) (s : State) : Out State := amoF s .addF32 o
def execAmomaxF32 (o : AfOps) (s : State) : Out State := amoF s .maxF32 o
def execAmominF32 (o : AfOps) (s : State) : Out State := amoF s .minF32 o
def execRedadd (o : RedOps) (s : State) : Out State := redI s .add o
def execRedswap (o : RedOps) (s : State) : Out State := redI s .swap o
def execRedand (o : RedOps) (s : State) : Out State := redI s .and o
def execRedor (o : RedOps) (s : State) : Out State := redI s .or o
def execRedxor (o : RedOps) (s : State) : Out State := redI s .xor o
def execRedmax (o : RedOps) (s : State) : Out State := redI s .max o
def execRedmin (o : RedOps) (s : State) : Out State := redI s .min o
def execRedmaxn (o : RedOps) (s : State) : Out State := redI s .maxn o
def execRedminn (o : RedOps) (s : State) : Out State := redI s .minn o
def execRedaddF32 (o : RedfOps) (s : State) : Out State := redF s .addF32 o
def execRedmaxF32 (o : RedfOps) (s : State) : Out State := redF s .maxF32 o
def execRedminF32 (o : RedfOps) (s : State) : Out State := redF s .minF32 o

/-- AMOEA (R286): EA_MERGE of ea k into a 64-byte cell. A poisoned ea k is consumed data (R69). Log 17. -/
def execAmoea (o : AeOps) (s : State) : Out State :=
  let va := getS s o.sa
  let st := me s
  finish s <|
    if st.eaPois.getLsbD o.ea.toNat then .trap cData va 0
    else red s .ea 64 va (eaClean (st.eas.getD o.ea.toNat eaInit)) o.ord o.scope

end Sys2Proof.Machine
end

