-- ==== Sys2Proof/Machine/Control.lean ====
section
/-! DEFINITION. Branches and jumps, repeat frames, fences, waits, barriers, traps and system registers (R134, R287, R288, R293 to
R300). -/

namespace Sys2Proof.Machine

/-- A branch (R287). -/
def branch (s : State) (o : BOps) (f : Word → Word → Bool) : Out State :=
  .next (if f (getS s o.sa) (getS s o.sb) then setNpc s (convoyAt s o.off) else s)

def execBeq (o : BOps) (s : State) : Out State := branch s o fun a b => a == b
def execBne (o : BOps) (s : State) : Out State := branch s o fun a b => a != b
def execBlt (o : BOps) (s : State) : Out State := branch s o fun a b => a.slt b
def execBge (o : BOps) (s : State) : Out State := branch s o fun a b => !a.slt b
def execBltn (o : BOps) (s : State) : Out State := branch s o fun a b => a.ult b
def execBgen (o : BOps) (s : State) : Out State := branch s o fun a b => !a.ult b

def execJ (o : JOps) (s : State) : Out State := .next (setNpc s (convoyAt s o.off))

def execJal (o : JalOps) (s : State) : Out State := .next (setNpc (setS s o.sd (nextConvoy s)) (convoyAt s o.off))

/-- JALR: the target is computed before sd is written (R287). -/
def execJalr (o : IOps) (s : State) : Out State :=
  let t := getS s o.sa + 16 * immS o.imm
  finish s <| if t.toNat % 16 ≠ 0 then .trap cMisaligned t 0 else .ok (setNpc (setS s o.sd (nextConvoy s)) t)

/-- A fault at syllable m of the convoy at `pc` before any replay runs (R134). -/
def frameFault (s : State) (pc : Word) (m cause : Nat) (eval : Word) : Res :=
  let s1 := rollback s
  .part { putMe s1 { me s1 with pc := pc } with slot := m } cause eval 0

/-- REPF (R134, R135): the frame is checked, then its replays follow, one captured convoy a step. Slots 1 to 3 of its convoy are
data. -/
def execRepf (o : RepfOps) (s : State) : Out State :=
  let st := me s
  let a := st.pc
  finish s <| vecOnly s (.repf o) fun _ =>
    if s.slot % 4 ≠ 0 then illegal s (.repf o)
    else
      match ownWords s with
      | .error c => .trap c a 0
      | .ok ws =>
        let w1 := (ws.getD 1 0).toNat
        let w2 := (ws.getD 2 0).toNat
        let w3 := ws.getD 3 0
        let n := o.stg.toNat + 1
        if o.rsize.toNat ≠ 0 && budgetRegs st.budget < o.rbase.toNat + o.rsize.toNat then illegal s (.repf o)
        else if 65536 ≤ w2 then frameFault s a 2 cIllegal ((ws.getD 2 0).setWidth 64)
        else if w3 ≠ 0 then frameFault s a 3 cIllegal (w3.setWidth 64)
        else
          match captureConvoys s st a with
          | (.error (pc, c), _) => frameFault s pc 0 c pc
          | (.ok cs, s) =>
            match badCapture n w1 w2 0 cs with
            | some i => frameFault s (a + wordOf (16 * (i / 4 + 1))) (i % 4) cIllegal ((cs.getD i 0).setWidth 64)
            | none =>
              let trip := (getS s o.str).toNat % 2 ^ 32
              if trip = 0 then .ok (setNpc s (a + 0x50))
              else
                let r : Repeat :=
                  { active := true, conv := 0, kidx := 0, rpc := a, trip := trip, map0 := w1, map1 := w2, nstg := o.stg.toNat,
                    rbase := o.rbase.toNat, rsize := o.rsize.toNat }
                .ok (setNpc (putMe s { me s with rpt := r, cap := cs }) (a + 0x10))

/-- FENCE (R170, R293). -/
def execFence (o : FenceOps) (s : State) : Out State := .next (queueItem s (.fence o.scope.toNat o.kind.toNat 0))

/-- FENCEX (R175). -/
def execFencex (o : FencexOps) (s : State) : Out State := .next (queueItem s (.fencex (pathOf o.p) (pathOf o.q) 0))

/-- A token of a strand. -/
def tokOf (st : Strand) (k : Nat) : Token := st.toks.getD k Token.idle
def setTok (st : Strand) (k : Nat) (t : Token) : Strand := { st with toks := putAt 8 Token.idle st.toks k t }

/-- The fault of the PEND token k (R155): VSTART is the landed count, and the copy restarts there on resume. -/
def pendFault (s : State) (k : Nat) : Res :=
  let s1 := rollback s
  let t := tokOf (me s1) k
  .part (putMe s1 { setTok (me s1) k { t with taken := true } with vstart := t.landed, vsyl := s.slot % 4, resumeAt := 0 }) t.cause t.eval 0

/-- Waits until the tokens of a list are idle (R154, R155), then goes on. -/
def awaitToks (s : State) (ks : List Nat) (k : Unit → Res) : Res :=
  match ks.find? fun i => (tokOf (me s) i).pend with
  | some i => pendFault s i
  | none => if ks.any fun i => (tokOf (me s) i).busy then .wait (waitHere s) else k ()

/-- CWAIT (R294). -/
def execCwait (o : CwaitOps) (s : State) : Out State :=
  finish s <| awaitToks s ((List.range 8).filter fun k => o.mask.getLsbD k) fun _ => .ok s

/-- Whether WAITSW's condition holds (R158). -/
def genReached (gen g : Nat) : Bool := idDiff gen g < 2 ^ 31

/-- WAITSW (R158, R294): an acquire read of the sync word. -/
def execWaitsw (o : S2ab) (s : State) : Out State :=
  let va := getS s o.sa
  finish s <|
    if va.toNat % 16 ≠ 0 then .trap cMisaligned va 0
    else if !inSpad va then .trap cTranslation va 0
    else
      match checkElem s (me s) .load 16 va with
      | .error c => .trap c va 0
      | .ok p =>
        (readNow s 0 (mkAcc .ls p va 16 .read false true false)).res va 0 fun b _ s1 =>
          if genReached (leAt b 8 4) ((getS s o.sb).toNat % 2 ^ 32) then .ok s1 else .wait (waitHere s)

/-- The bytes of a barrier object after an arrival (R295). -/
def barArrive (b : List Byte) : List Byte :=
  let count := leAt b 0 4
  let arrived := leAt b 4 4 + 1
  let gen := leAt b 8 4
  if max count 1 ≤ arrived then sliceBytes b 0 4 ++ bytesOf 4 0 ++ bytesOf 4 ((gen + 1) % 2 ^ 32) ++ sliceBytes b 12 4
  else sliceBytes b 0 4 ++ bytesOf 4 arrived ++ sliceBytes b 8 8

/-- The strand waits at a barrier whose generation it found (R295). -/
def barWaits (s : State) (va : Word) (gen : Nat) : State :=
  putMe s { me s with barw := true, bargen := BitVec.ofNat 32 gen, barAddr := va }

/-- BAR's arrival at a home die of this package: one atomic with release order (R166, R171, R295), made once. It counts as a write of the home die, which
has applied what the issuer's die has: the barrier orders the participants' writes (R173). -/
def barHere (s : State) (va : Word) (a : Access) (loc home : Nat) : Res :=
  if readPoisoned s home loc 16 then .trap cData va 0
  else
    let s0 := { s with ord := reach s.ord home (appliedOf s.ord (me s).die) }
    let b := memRead s0 home loc 16
    let s1 := memWrite s0 home loc home (barArrive b)
    let s2 := { s1 with ord := reachFor s1.ord (me s1) (a, appliedOf s1.ord home) }
    .ok (barWaits (standNow (putMe s2 (noteDone (me s2) s2.slot noteElem b))) va (leAt b 8 4))

/-- BAR (R295). The arrival at a peer page is an ATREQ of operation code 15 with byte count 16 and no data: R31 gives no code for it (DESIGN CHOICE,
log 18). -/
def execBar (o : BarOps) (s : State) : Out State :=
  let va := getS s o.sa
  finish s <|
    if o.scope.toNat = 1 && !(me s).rec_.gang then illegal s (.bar o)
    else withPlace s .atomic 16 va fun p s1 =>
      let a := mkAcc .ls p va 16 (.atomic .add 16 0) true false (isDom o.scope)
      match doneBefore s1 noteElem with
      | some b => .ok (barWaits s1 va (leAt b 8 4))
      | none =>
        match makeWay s1 a with
        | none => .wait (waitFor s a)
        | some s2 =>
          match p with
          | .mem loc home => barHere s2 va a loc home
          | .own loc home => barHere s2 va a loc home
          | .spad _ => .trap cTranslation va 0
          | .window _ => .trap cMisaligned va 0
          | .peer pkg pa =>
            match answerOf (me s) s.slot 0 with
            | none => .wait (askPeer s2 s.slot 0 .ls pkg pa kAtreq 15 16 [] va)
            | some x =>
              match x.data with
              | none => .wait (waitHere s)
              | some (.bytes b) => .ok (barWaits s2 va (leAt b 8 4))
              | some .noValue => .trap cData va 0
              | some .failed => .trap cLink va 0

/-- TRAP (R296). -/
def execTrap (o : S1a) (s : State) : Out State := finish s (.trap cTrap (getS s o.sa) 0)

/-- ERET (R297). -/
def execEret (s : State) : Out State :=
  finish s <| if (me s).trunk && (me s).th then
      let s1 := resendFlits (returnException s) s.cur
      .ok (putMe s1 { me s1 with answers := (unstash s1 { me s1 with pc := (me s1).npc }).answers })
    else illegal s .eret

/-! System registers (R298, R300). -/

/-- STATUS (R300). -/
def statusWord (st : Strand) : Word :=
  wordOf (st.tenant % 64 * 2 ^ 26 + st.slotNo % 4 * 2 ^ 24 + st.die % 16 * 2 ^ 20 + st.core % 128 * 2 ^ 13 + boolN st.barw * 4 +
    boolN st.th * 2 + boolN st.trunk)

/-- The numbers of P/D-only registers, of the trunk-only register, and of the rest (R300). -/
def sysPd (n : Nat) : Bool := (0x04 ≤ n && n ≤ 0x09) || n == 0x0B || (0x10 ≤ n && n ≤ 0x15) || (0x20 ≤ n && n ≤ 0x2F)
def sysTrunk (n : Nat) : Bool := n == 0x0D
def sysBoth (n : Nat) : Bool := n ≤ 0x03 || n == 0x0A || n == 0x0C || n == 0x0E || (0x40 ≤ n && n ≤ 0x5F)

/-- Whether a register exists for a kind of strand (R298). -/
def sysOk (trunk : Bool) (n : Nat) : Bool := sysBoth n || (if trunk then sysTrunk n else sysPd n)

/-- GRANT (R199). -/
def grantOf (s : State) (st : Strand) : Nat :=
  match holdOf s st with
  | some h => h.grant
  | none => 0

/-- What a system register reads as (R300). -/
def sysRead (s : State) (st : Strand) (n : Nat) : Word :=
  if 0x40 ≤ n then (s.sec.meas.getD ((n - 0x40) / 4) 0).extractLsb' (64 * ((n - 0x40) % 4)) 64
  else if 0x28 ≤ n then wordOf (toklandWord (tokOf st (n - 0x28)))
  else if 0x20 ≤ n then wordOf (tokexpWord (tokOf st (n - 0x20)))
  else
    match n with
    | 0x00 => statusWord st
    | 0x01 => st.cause
    | 0x02 => st.epc
    | 0x03 => st.eval
    | 0x04 => wordOf st.vstart
    | 0x05 => wordOf st.vhwm
    | 0x06 => wordOf st.vl
    | 0x07 => wordOf st.maxvl
    | 0x08 => wordOf (grantOf s st)
    | 0x09 => (laneDis s st).setWidth 64
    | 0x0A => st.fflags.setWidth 64
    | 0x0B => st.spbound
    | 0x0C => wordOf (cycOf s st.trunk)
    | 0x0D => st.tvec
    | 0x0E => st.bargen.setWidth 64
    | 0x10 => st.rpt.rpc
    | 0x11 => wordOf (rptkWord st.rpt)
    | 0x12 => wordOf st.rpt.trip
    | 0x13 => wordOf st.rpt.map0
    | 0x14 => wordOf st.rpt.map1
    | _ => wordOf (rptrotWord st.rpt)

/-- The fields of SPBOUND that a write keeps (R141). -/
def spboundMask : Word := 0x01FFFFFF00FFFFFF#64

/-- A write to a system register (R298, R300): only its writable fields. -/
def sysWrite (st : Strand) (n : Nat) (v : Word) : Strand :=
  match n with
  | 0x00 => if st.trunk then { st with th := bitW v 1 } else st
  | 0x01 => if st.trunk then { st with cause := v } else st
  | 0x02 => if st.trunk then { st with epc := v &&& 0xFFFFFFFFFFFFFFF3#64 } else st
  | 0x03 => if st.trunk then { st with eval := v } else st
  | 0x0A => { st with fflags := v.setWidth 5 }
  | 0x0B => { st with spbound := v &&& spboundMask }
  | 0x0D => { st with tvec := wordOf (v.toNat / 16 * 16) }
  | _ => st

/-- The numbers of the VAMO.RET syllables whose groups stood in the in-queues when the convoy in progress began. -/
def olderFills (s : State) : List Nat :=
  let st := match s.convoy with
    | some c => NMap.getD c.strands s.cur (me s)
    | none => me s
  (st.iq.flatten.map (·.id)).filter (· != 0)

/-- Whether FFLAGS waits for flags: those of a VAMO.RET of an earlier convoy, which count from its retirement (R332), come with its old values. -/
def flagsDue (s : State) (n : Nat) : Bool := n == 0x0A && (me s).iq.any fun q => q.any fun g => !g.wait.isEmpty && hasN (olderFills s) g.id

/-- SYSR (R298). -/
def execSysr (o : SysrOps) (s : State) : Out State :=
  let st := me s
  finish s <|
    if !sysOk st.trunk o.reg.toNat then illegal s (.sysr o)
    else if flagsDue s o.reg.toNat then .wait (waitHere s)
    else .ok (setS s o.sd (sysRead s st o.reg.toNat))

/-- SYSW (R298). -/
def execSysw (o : SyswOps) (s : State) : Out State :=
  let st := me s
  finish s <|
    if !sysOk st.trunk o.reg.toNat then illegal s (.sysw o)
    else if flagsDue s o.reg.toNat then .wait (waitHere s)
    else .ok (putMe s (sysWrite st o.reg.toNat (getS s o.sa)))

/-- Whether a store of the issuing strand has not left its path queue. -/
def storesLeft (st : Strand) : Bool := (streamOf st).any fun x => match itemAcc x with
  | some a => isWrite a
  | none => false

/-- ICINV (R299): the dispatch queues drain, every earlier store leaves its path queue, and the core drops its instruction cache lines, with the
convoys that were fetched ahead. -/
def execIcinv (s : State) : Out State :=
  let s1 := enterWrites (flushStrand s s.cur)
  finish s <| if storesLeft (me s1) || overfull (me s1) then .wait (waitOr s s1) else .ok { s1 with icache := NMap.erase s1.icache ((me s1).sid / 4) }

/-- TRMARK (R77): its record is written when the convoy retires. -/
def execTrmark (o : S2ab) (s : State) : Out State :=
  let st := me s
  .next (putMe s
    { st with
      marks := st.marks ++ [(0x8000 + (getS s o.sa).toNat % 2 ^ 15, bytesOf 8 (getS s o.sb).toNat ++ bytesOf 8 st.pc.toNat)] })

/-- The empty syllable (R124). -/
def execEmptySyllable (s : State) : Out State := .next s

/-- YIELD gives up the core's issue slots for the rest of the four-cycle window (R107, R290): the other resident strands issue. -/
def execYield (s : State) : Out State :=
  let st := me s
  .next (if st.trunk then s else putMe s { st with yielded := s.power.working / 4 + 1 })

end Sys2Proof.Machine
end

