-- ==== Sys2Proof/Machine/Blocks.lean ====
section
/-! DEFINITION. Self-describing blocks and format descriptors (R188 to R192), and block-pair sums (R196). -/

namespace Sys2Proof.Machine

/-- E(w) (R188). -/
def blkE (w : Nat) : Nat := if w = 0 then 0 else 496 / w

/-- B(w) (R189). -/
def blkB (w : Nat) : Nat := if blkE w = 0 then 0 else 512 / blkE w

/-- A format descriptor (R190). -/
structure FmtDesc where
  sign : Bool
  ebits : Nat
  mbits : Nat
  wid : Nat
  bias : Int
  spec : Bool
  /-- The must-be-zero bits are 0. -/
  mbz : Bool
  deriving DecidableEq, Repr

/-- Reads a descriptor word (R190). -/
def fdOf (d : BitVec 32) : FmtDesc :=
  let n := d.toNat
  { sign := n % 2 == 1, ebits := bitsN n 2 3, mbits := bitsN n 5 3, wid := bitsN n 8 4, bias := signedN 8 (bitsN n 16 8),
    spec := bitsN n 24 1 == 1, mbz := bitsN n 1 1 == 0 && bitsN n 12 4 == 0 && bitsN n 25 7 == 0 }

/-- Whether a descriptor is valid (R190). -/
def fdValid (d : FmtDesc) : Bool :=
  d.mbz && d.ebits ≤ 5 && d.wid == boolN d.sign + d.ebits + d.mbits && 1 ≤ d.wid && d.wid ≤ 8 && (!d.spec || 1 ≤ d.ebits)

/-- The number of magnitude bits. -/
def fdMag (d : FmtDesc) : Nat := d.ebits + d.mbits

/-- The exponent of a descriptor's unit u (R196). -/
def fdUnit (d : FmtDesc) : Int := if d.ebits = 0 then -d.bias else 1 - d.bias - d.mbits

/-- The magnitude code read in units of u (R191, R196). -/
def fdInt (d : FmtDesc) (mag : Nat) : Nat :=
  if d.ebits = 0 then mag
  else
    let e := mag / 2 ^ d.mbits
    let m := mag % 2 ^ d.mbits
    if e = 0 then m else (2 ^ d.mbits + m) * 2 ^ (e - 1)

/-- An element that decodes to a NaN (R191). -/
def fdIsNaN (d : FmtDesc) (x : Nat) : Bool := d.spec && x % 2 ^ fdMag d == 2 ^ fdMag d - 1

/-- The sign of an element (R191). -/
def fdNeg (d : FmtDesc) (x : Nat) : Bool := d.sign && x / 2 ^ (d.wid - 1) % 2 == 1

/-- `dec` (R191): scale is the SCALE byte. -/
def fdDec (d : FmtDesc) (scale x : Nat) : Fp :=
  if scale = 0x80 then .fin false 0 0
  else if fdIsNaN d x then .nan false
  else .fin (fdNeg d x) (fdInt d (x % 2 ^ fdMag d)) (fdUnit d + signedN 8 scale)

/-- The largest magnitude code of a finite element. -/
def fdMaxCode (d : FmtDesc) : Nat := 2 ^ fdMag d - 1 - boolN d.spec

/-- FCODE and SCALE of a block, its payload (R188). -/
def blkFcode (b : Nat) : Nat := b % 256
def blkScale (b : Nat) : Nat := b / 256 % 256
def blkPayload (b : Nat) : Nat := b / 65536

/-- Whether FCODE selects a descriptor (R188). -/
def blkFcodeOk (b : Nat) : Bool := blkFcode b < 16

/-- Element i of a block of width w (R188). -/
def blkElem (w b i : Nat) : Nat := bitsN (blkPayload b) (i * w) w

/-- The magnitude code at or below |t| = m × 2^e in the unbounded format, how the remainder compares with half the step to
the next code, and whether there is a remainder (R192). -/
def fdFloor (d : FmtDesc) (m : Nat) (e : Int) : Nat × Ordering × Bool :=
  let top : Int := e + bitLen m - 1
  let u := fdUnit d
  let q := if d.ebits = 0 then u else max (top - d.mbits) u
  let (s, _) := roundAt .rtz false m e false q
  let be := (q - u).toNat + 1
  let code := if d.ebits = 0 then s else (be - 1) * 2 ^ d.mbits + s
  if q ≤ e then (code, .lt, false)
  else
    let sh := (q - e).toNat
    let r := m % 2 ^ sh
    (code, compare (2 * r) (2 ^ sh), r != 0)

/-- One element of `vbq_block` (R192): its code and its flags. sc is the block's scale as a number. -/
def vbqElem (d : FmtDesc) (rtz : Bool) (sc : Int) (x : Fp) : Nat × FFlags :=
  let sgnBit := fun s : Bool => if s && d.sign then 2 ^ (d.wid - 1) else 0
  match x with
  | .nan _ => (if d.spec then 2 ^ fdMag d - 1 else 0, flNV)
  | .inf s =>
    if s && !d.sign then (0, flNV)
    else (sgnBit s + fdMaxCode d, flOF ||| flNX ||| raiseIf (fdInt d (fdMaxCode d) == 0) flUF)
  | .fin s m e =>
    if s && m != 0 && !d.sign then (0, flNV)
    else if m = 0 then (sgnBit s, 0)
    else
      let (c, h, rem) := fdFloor d m (e - sc)
      let up := !rtz && (h == .gt || (h == .eq && c % 2 == 1))
      let c' := if up then c + 1 else c
      let ovr := fdMaxCode d < c'
      let c'' := if ovr then fdMaxCode d else c'
      (sgnBit s + c'', raiseIf (rem || ovr) flNX ||| raiseIf ovr flOF ||| raiseIf (fdInt d c'' == 0) flUF)

/-- ceil(log2(m × 2^e / (n × 2^k))) for nonzero m and n. -/
def ceilLog2Ratio (m : Nat) (e : Int) (n : Nat) (k : Int) : Int :=
  let j : Int := (e + bitLen m) - (k + bitLen n)
  match cmpFp (.fin false m e) (.fin false n (k + j)) with
  | .gt => j + 1
  | _ => j

/-- The largest magnitude among the finite values (R192). -/
def maxFinite : List Fp → Nat × Int
  | [] => (0, 0)
  | .fin _ m e :: t =>
    let (n, k) := maxFinite t
    match cmpFp (.fin false m e) (.fin false n k) with
    | .gt => (m, e)
    | _ => (n, k)
  | _ :: t => maxFinite t

/-- Packs codes of width w from bit 0 upward. -/
def packCodes (w : Nat) : List Nat → Nat
  | [] => 0
  | c :: t => c + 2 ^ w * packCodes w t

/-- `vbq_block` (R192): the 64-byte block as a number, and the flags. fdn is the descriptor's number. -/
def vbqBlock (fdn : Nat) (d : FmtDesc) (rtz : Bool) (xs : List Fp) : Nat × FFlags :=
  if xs.all Fp.isZero then (fdn + 0x80 * 256, 0)
  else
    let (m, e) := maxFinite xs
    let lf := fdInt d (fdMaxCode d)
    let sc : Int := if m = 0 || lf = 0 then 0 else min 127 (max (-127) (ceilLog2Ratio m e lf (fdUnit d)))
    let rs := xs.map (vbqElem d rtz sc)
    (fdn + wrapN 8 sc * 256 + packCodes d.wid (rs.map (·.1)) * 65536, orFlags (rs.map (·.2)))

/-- One signed product of `pair` and whether it is a zero with negative sign (R196). -/
def pairTerm (da db : FmtDesc) (za zb : Bool) (x y : Nat) : Int × Bool :=
  let nx := !za && fdNeg da x
  let ny := !zb && fdNeg db y
  let mx := if za then 0 else fdInt da (x % 2 ^ fdMag da)
  let my := if zb then 0 else fdInt db (y % 2 ^ fdMag db)
  let p := mx * my
  (if nx != ny then -(p : Int) else p, nx != ny && p == 0)

/-- A sum of block-pair products over elements: pairs of element codes of blocks with descriptors da, db and SCALE bytes sa,
sb (R196, R204). The two windows never overflow, so one sum stands for both. -/
def pairSum (da db : FmtDesc) (sa sb : Nat) (els : List (Nat × Nat)) : Fp :=
  let za := sa == 0x80
  let zb := sb == 0x80
  if els.any fun (x, y) => (!za && fdIsNaN da x) || (!zb && fdIsNaN db y) then .nan false
  else
    let ts := els.map fun (x, y) => pairTerm da db za zb x y
    let t : Int := ts.foldl (fun acc p => acc + p.1) 0
    if t = 0 then .fin (ts.all (·.2)) 0 0
    else .fin (t < 0) t.natAbs
      (fdUnit da + fdUnit db + (if za then 0 else signedN 8 sa) + (if zb then 0 else signedN 8 sb))

end Sys2Proof.Machine
end

