-- ==== Sys2Proof/Machine/Vec.lean ====
section
/-! DEFINITION. Vector operands: types, masks, queues, sources and destinations (R123, R131, R258, R259, R301 to R304). -/

namespace Sys2Proof.Machine

/-- The width of a type code in bits; 0 for a code that is no type (R259). -/
def tyWidth (c : Nat) : Nat :=
  if c ≤ 3 then 8 * 2 ^ c else if c ≤ 7 then 8 * 2 ^ (c - 4) else if c ≤ 9 then 16 else if c = 10 then 32 else 0

/-- Integer, FP and any classes of R301. -/
def tyInt (c : Nat) : Bool := c ≤ 7
def tySigned (c : Nat) : Bool := c ≤ 3
def tyFp (c : Nat) : Bool := 8 ≤ c && c ≤ 10
def tyAny (c : Nat) : Bool := c ≤ 10

/-- The format of an FP type code. -/
def tyFmt (c : Nat) : Fmt := if c = 8 then f16 else if c = 9 then bf16 else f32

/-- The type slot a ts bit selects (R259). -/
def slotOf (st : Strand) (ts : Bool) : TypeSlot := if ts then st.vt1 else st.vt0
def slotTy (st : Strand) (ts : Bool) : Nat := (slotOf st ts).ty.toNat
def slotMode (st : Strand) (ts : Bool) : Rm := rmOf (slotOf st ts).mode

/-- Bit i of a predicate register; p0 reads all true (R121). -/
def predBit (st : Strand) (p i : Nat) : Bool := if p = 0 then true else (st.preds.getD p 0).getLsbD i

/-- Writes predicate bits by a list of (index, value); p0 discards them (R121). -/
def predSet (st : Strand) (p : Nat) (bits : List (Nat × Bool)) : Strand :=
  if p = 0 then st
  else
    let v := bits.foldl (fun (v : Nat) (i, b) => if b then Nat.lor v (2 ^ i) else v - Nat.land v (2 ^ i)) (st.preds.getD p 0).toNat
    { st with preds := putAt 8 0 st.preds p (BitVec.ofNat 16384 v) }

/-- The active elements below VL under a mask (R304). -/
def maskOf (st : Strand) (m : BitVec 3) : List Bool := (List.range st.vl).map (predBit st m.toNat)

/-- A field that names a vector register names one of the budget, wide enough for w bits (R123, R301). Queues and `vz` fit any
width. -/
def fieldFits (st : Strand) (f w : Nat) : Bool :=
  56 ≤ f || (decide (f < budgetRegs st.budget) && decide (w ≤ budgetWidth st.budget))

/-- Groups that n elements of w bits take (R131). -/
def groupsFor (n w : Nat) : Nat := ceilDiv (n * w) 2048

/-- The bits of a list of groups, as a number. -/
def groupBits : List Group → Nat
  | [] => 0
  | g :: t => g.data.toNat + 2 ^ 2048 * groupBits t
def groupMarks : List Group → Nat
  | [] => 0
  | g :: t => g.act.toNat + 2 ^ 2048 * groupMarks t

/-- Cuts a number into n pieces of w bits. -/
def cutBits (w : Nat) : Nat → Nat → List Nat
  | 0, _ => []
  | n + 1, x => x % 2 ^ w :: cutBits w n (x / 2 ^ w)

/-- Elements start to vl − 1 of the stream at a queue's head, each with its mark, and the queue after they are consumed (R131); the
head group is the one that holds element `start`. None when the queue lacks a group. -/
def qread (q : List Group) (start vl w : Nat) : Option (List (Nat × Bool) × List Group) :=
  let g0 := start * w / 2048
  let n := groupsFor vl w - g0
  if vl ≤ start then some ([], q)
  else if q.length < n then none
  else
    let skip := start - g0 * (2048 / w)
    let gs := q.take n
    let els := (cutBits w (vl - start + skip) (groupBits gs)).drop skip
    let marks := (cutBits w (vl - start + skip) (groupMarks gs)).drop skip
    some (els.zip (marks.map fun m => m % 2 == 1), q.drop n)

/-- Appends bits and marks after `used` bits of an open last group (0: none is open), `len` bits long. -/
def qappend (q : List Group) (used len bits marks : Nat) : List Group :=
  let lastD := if used = 0 then 0 else ((q.getLastD ⟨0, 0, 0, []⟩).data.toNat) % 2 ^ used
  let lastM := if used = 0 then 0 else ((q.getLastD ⟨0, 0, 0, []⟩).act.toNat) % 2 ^ used
  let base := if used = 0 then q else q.dropLast
  let n := ceilDiv (used + len) 2048
  let d := lastD + bits * 2 ^ used
  let m := lastM + marks * 2 ^ used
  base ++ (List.zipWith (fun x y => (⟨BitVec.ofNat 2048 x, BitVec.ofNat 2048 y, 0, []⟩ : Group)) (cutBits 2048 n d) (cutBits 2048 n m))

/-- Appends elements from index `start` of a syllable's stream, w bits each, with their marks (R131). A positive start continues the
group that holds it (R326). -/
def qpush (q : List Group) (start w : Nat) (els : List (Nat × Bool)) : List Group :=
  if els.isEmpty then q
  else
    qappend q (start * w % 2048) (els.length * w) (packCodes w (els.map fun e => e.1 % 2 ^ w))
      (packCodes w (els.map fun e => if e.2 then 2 ^ w - 1 else 0))

/-- Appends positions that old values will fill (R332): `id` names the syllable, and each group that it touches lists its active elements. -/
def qpushWait (q : List Group) (start w id : Nat) (els : List (Nat × Bool)) : List Group :=
  let q1 := qpush q start w els
  let from_ := if start * w % 2048 = 0 then q.length else q.length - 1
  let idx := els.zipIdx.filterMap fun (e, k) => if e.2 then some (start + k) else none
  q1.take from_ ++ (q1.drop from_).zipIdx.map fun (g, k) =>
    { g with id := id, wait := idx.filter fun i => i * w / 2048 == start * w / 2048 + k }

/-- Queue k of a strand. -/
def iqOf (st : Strand) (k : Nat) : List Group := st.iq.getD k []
def oqOf (st : Strand) (k : Nat) : List Group := st.oq.getD k []
def setIq (st : Strand) (k : Nat) (q : List Group) : Strand := { st with iq := putAt 4 [] st.iq k q }
def setOq (st : Strand) (k : Nat) (q : List Group) : Strand := { st with oq := putAt 4 [] st.oq k q }

/-- n elements of w bits of a source field (R258, R301): a register's low bits, the head of an in-queue, consumed whole, or zeros. -/
def vsrcN (st : Strand) (f n w : Nat) : Option (List Nat × Strand) :=
  if f < 56 then
    let r := st.vregs.getD f []
    some ((List.range n).map fun i => (r.getD i 0).toNat % 2 ^ w, st)
  else if f < 60 then
    match qread (iqOf st (f - 56)) 0 n w with
    | none => none
    | some (els, q) => some (els.map (·.1), setIq st (f - 56) q)
  else some (List.replicate n 0, st)

/-- VL elements of a source field. -/
def vsrc (st : Strand) (f w : Nat) : Option (List Nat × Strand) := vsrcN st f st.vl w

/-- The list r with element i of `els` put where its mark is set. -/
def mergeReg : List (Nat × Bool) → List Word → List Word
  | [], r => r
  | (v, true) :: t, r => wordOf v :: mergeReg t r.tail
  | (_, false) :: t, r => r.headD 0 :: mergeReg t r.tail

/-- Marks a register written since the last restore (R115). -/
def markDirty (st : Strand) (f : Nat) : Strand := { st with dirty := st.dirty ||| BitVec.ofNat 56 (2 ^ f) }

/-- Writes elements 0 to n − 1 to a destination field (R258, R301, R304): active elements of a register, every position of an
out-queue with its mark. -/
def vdst (st : Strand) (f w : Nat) (els : List (Nat × Bool)) : Strand :=
  if f < 56 then
    markDirty { st with vregs := putAt 56 [] st.vregs f (mergeReg (els.map fun e => (e.1 % 2 ^ w, e.2)) (st.vregs.getD f [])) } f
  else setOq st (f - 56) (qpush (oqOf st (f - 56)) 0 w (els.map fun e => (if e.2 then e.1 else 0, e.2)))

/-- Reads several sources in operand order. -/
def vsrcs (st : Strand) : List (Nat × Nat) → Option (List (List Nat) × Strand)
  | [] => some ([], st)
  | (f, w) :: t =>
    match vsrc st f w with
    | none => none
    | some (a, st1) =>
      match vsrcs st1 t with
      | none => none
      | some (as_, st2) => some (a :: as_, st2)

/-- The result of one active element: its bits and its flags. -/
abbrev ElRes := Nat × FFlags

/-- One element-wise operation: element i of each source and the old destination. -/
abbrev ElOp := Nat → List Nat → Nat → ElRes

/-- The elements of the sources at index i. -/
def rowAt (as_ : List (List Nat)) (i : Nat) : List Nat := as_.map fun a => a.getD i 0

/-- An element-wise syllable (R304): sources (field, width), a destination field and width, a mask. Registers are checked against the
budget and the widths (R301), a starved queue is an illegal-instruction (R132), and the flags of the active elements accrue. -/
def velem (s : State) (i : Instr) (srcs : List (Nat × Nat)) (vd wd : Nat) (act : List Bool) (f : ElOp) : Res :=
  let st := me s
  if !(srcs.all fun x => fieldFits st x.1 x.2) || !fieldFits st vd wd then illegal s i
  else
    match vsrcs st srcs with
    | none => illegal s i
    | some (as_, st1) =>
      let old := if vd < 56 then st.vregs.getD vd [] else []
      let rs := act.zipIdx.map fun (a, k) => if a then (f k (rowAt as_ k) ((old.getD k 0).toNat % 2 ^ wd), true) else ((0, 0), false)
      let st2 := vdst st1 vd wd (rs.map fun r => (r.1.1, r.2))
      .ok (putMe s { st2 with fflags := st2.fflags ||| orFlags (rs.map fun r => r.1.2) })

/-- A slot type outside the class an instruction accepts is an illegal-instruction at issue (R301). -/
def withTy (s : State) (i : Instr) (ts : Bool) (cls : Nat → Bool) (k : Nat → Res) : Res :=
  let c := slotTy (me s) ts
  if cls c then k c else illegal s i

/-- The VS operand of a width (R303). -/
def vsOperand (s : State) (ss : BitVec 5) (w : Nat) : Nat := (getS s ss).toNat % 2 ^ w

/-- A vector-vector syllable over the slot's type. -/
def vv (s : State) (i : Instr) (o : V3) (cls : Nat → Bool) (f : Nat → ElOp) : Out State :=
  finish s <| vecOnly s i fun _ => withTy s i o.ts cls fun c =>
    let w := tyWidth c
    velem s i [(o.va.toNat, w), (o.vb.toNat, w)] o.vd.toNat w (maskOf (me s) o.m) (f c)

/-- A unary vector syllable over the slot's type. -/
def vu (s : State) (i : Instr) (o : V2) (cls : Nat → Bool) (f : Nat → ElOp) : Out State :=
  finish s <| vecOnly s i fun _ => withTy s i o.ts cls fun c =>
    let w := tyWidth c
    velem s i [(o.va.toNat, w)] o.vd.toNat w (maskOf (me s) o.m) (f c)

/-- A vector-scalar syllable over the slot's type: the VS operand stands as the second source of every element. -/
def vs (s : State) (i : Instr) (o : Vs3) (cls : Nat → Bool) (f : Nat → ElOp) : Out State :=
  finish s <| vecOnly s i fun _ => withTy s i o.ts cls fun c =>
    let w := tyWidth c
    let b := vsOperand s o.ss w
    velem s i [(o.va.toNat, w)] o.vd.toNat w (maskOf (me s) o.m) (fun k as_ old => f c k (as_ ++ [b]) old)

end Sys2Proof.Machine
end

