-- ==== Sys2Proof/Machine/VecMem.lean ====
section
/-! DEFINITION. Vector loads and stores, gathers and scatters, vector atomics and ticketed accesses (R321 to R334). -/

namespace Sys2Proof.Machine

/-- Element i of a vector access: its address, whether it is active, and what a store writes. -/
structure El where
  i : Nat
  va : Word
  act : Bool
  data : Nat
  deriving DecidableEq, Repr

/-- What the checks of a vector access find (R326): the elements that may perform with their places (none: inactive), the fault that
ends the access, the token whose fault it is (R155), and the VL that a trim leaves. -/
structure Scan where
  els : List (El × Option Place)
  stop : Option (Nat × Nat × Word)
  tok : Option Nat
  vl : Nat
  deriving DecidableEq, Repr

/-- The checks of R146 in index order up to the first element that fails. -/
def scanFrom (s : State) (st : Strand) (acc : Acc) (n : Nat) : List El → List (El × Option Place) × Option (Nat × Nat × Word)
  | [] => ([], none)
  | e :: t =>
    if e.act then
      match checkElem s st acc n e.va with
      | .error c => ([], some (e.i, c, e.va))
      | .ok p =>
        let (l, r) := scanFrom s st acc n t
        ((e, some p) :: l, r)
    else
      let (l, r) := scanFrom s st acc n t
      ((e, none) :: l, r)

/-- TRIM_VL (R142): a failing element that is not the lowest active one trims where its cause trims; otherwise it faults. -/
def trimVl (vl : Nat) (trims : Bool) (els : List (El × Option Place)) (i : Nat) (f : Nat × Nat × Word) : Scan :=
  if trims && els.any (·.2.isSome) then { els := els, stop := none, tok := none, vl := i }
  else { els := els, stop := some f, tok := none, vl := vl }

/-- The scan of a vector access. -/
def scanEls (s : State) (st : Strand) (acc : Acc) (n : Nat) (els : List El) : Scan :=
  match scanFrom s st acc n els with
  | (l, none) => { els := l, stop := none, tok := none, vl := st.vl }
  | (l, some (i, c, ev)) => trimVl st.vl (c == cSpad) l i (i, c, ev)

/-- Bytes that n counts of a token's unit stand for (R154). -/
def tokBytes (t : Token) (n : Nat) : Nat := if t.kind = .gathsp then n * t.unit else n

/-- Whether n bytes at an address need bytes of a token's destination that have not landed (R324). -/
def tokHolds (t : Token) (va : Word) (n : Nat) : Bool :=
  (t.busy || t.pend) && decide (va.toNat < t.dst.toNat + tokBytes t t.expected) &&
    decide (t.dst.toNat + tokBytes t t.landed < va.toNat + n)

/-- Whether an element waits on a token. -/
def elHeld (t : Token) (n : Nat) (e : El × Option Place) : Bool := e.2.isSome && tokHolds t e.1.va n

/-- The elements before the first that a token holds, and that element. -/
def beforeHeld (t : Token) (n : Nat) : List (El × Option Place) → List (El × Option Place) × Option Nat
  | [] => ([], none)
  | e :: r =>
    if elHeld t n e then ([], some e.1.i)
    else
      let (l, h) := beforeHeld t n r
      (e :: l, h)

/-- A token wait on a scan (R155, R324): the scan, ended at the first held element where the token is PEND, and the elements that the token still
holds. -/
def tokScan (st : Strand) (wait : Bool) (tk n : Nat) (sc : Scan) : Scan × (El × Option Place → Bool) :=
  let t := tokOf st tk
  if !wait then (sc, fun _ => false)
  else if t.pend then
    match beforeHeld t n sc.els with
    | (_, none) => (sc, fun _ => false)
    | (l, some i) => ({ els := l, stop := some (i, t.cause, t.eval), tok := some tk, vl := st.vl }, fun _ => false)
  else (sc, elHeld t n)

/-- The elements start to VL − 1 with addresses, all active. -/
def elsAll (start vl : Nat) (addr : Nat → Word) : List El :=
  (List.range (vl - start)).map fun k => { i := start + k, va := addr (start + k), act := true, data := 0 }

/-- The elements start to VL − 1 with addresses, and with marks and data from lists that begin at `start`. -/
def elsOf (start vl : Nat) (addr : Nat → Word) (marks : List Bool) (data : List Nat) : List El :=
  (List.range (vl - start)).map fun k =>
    { i := start + k, va := addr (start + k), act := marks.getD k false, data := data.getD k 0 }

/-- The state once a strand's TLB holds the leaves of the elements. -/
def fillEls (s : State) (els : List (El × Option Place)) : State :=
  els.foldl (fun s e => if e.2.isSome then tlbFill s (me s) e.1.va else s) s

/-! Loads. -/

/-- How the reads of a load end. -/
inductive LoadEnd where
  | done (vals : List (Nat × Bool)) (s : State)
  | stop (vals : List (Nat × Bool)) (f : Nat × Nat × Word)
  | wait (s : State)

/-- Sends the requests of the elements on other packages that have not been sent (R178); none where none is to be sent. A run ahead asks element by
element. -/
def askAll (s : State) (mk : Place → Word → Access) (els : List (El × Option Place)) : Option State :=
  let missing := els.filterMap fun e =>
    match e.2 with
    | some (.peer pkg pa) => if (answerOf (me s) s.slot e.1.i).isNone then some (e.1, pkg, pa) else none
    | _ => none
  match if s.look.isSome then [] else missing with
  | [] => none
  | (e, pkg, pa) :: _ =>
    match makeWay s (mk (.peer pkg pa) e.va) with
    | none => some (waitFor s (mk (.peer pkg pa) e.va))
    | some b =>
      some (missing.foldl (fun b (e, pkg, pa) =>
        let a := mk (.peer pkg pa) e.va
        askPeer b s.slot e.i a.path pkg pa kRdreq 0 a.size [] a.va) b)

/-- Keeps what an element of a load has read while the syllable waits for others. A run ahead keeps what it reads by itself. -/
def keepRead (s : State) (e : El) (b : List Byte) : State :=
  let st := me s
  if s.look.isSome || st.early.any fun x => x.ahead == 0 && x.slot == s.slot && x.elem == e.i then s
  else putMe s { st with early := st.early ++ [{ ahead := 0, slot := s.slot, elem := e.i, va := e.va, bytes := b }] }

/-- The reads of a load in index order, by the reading `rd` of one element. Where an element must wait, the others that need not are read,
and keep their values (R167, R324). -/
def loadEls (rd : State → El → Place → Got) (held : El × Option Place → Bool) : State → List (El × Option Place) → LoadEnd
  | s, [] => .done [] s
  | s, (e, p) :: t =>
    match p with
    | none =>
      match loadEls rd held s t with
      | .done l s' => .done ((0, false) :: l) s'
      | .stop l f => .stop ((0, false) :: l) f
      | .wait s' => .wait s'
    | some pl =>
      if held (e, p) then
        match loadEls rd held s t with
        | .wait s' => .wait s'
        | .done _ s' => .wait s'
        | .stop _ _ => .wait s
      else
        match rd s e pl with
        | .fail c => .stop [] (e.i, c, e.va)
        | .wait s1 => .wait s1
        | .bytes b _ s1 =>
          match loadEls rd held s1 t with
          | .done l s' => .done ((numOf b, true) :: l) s'
          | .stop l f => .stop ((numOf b, true) :: l) f
          | .wait s' => .wait (keepRead s' e b)

/-- A faulting access commits its elements below f: `upd` is what they leave, VSTART becomes f, for this syllable (R111). -/
def partAt (s : State) (f : Nat × Nat × Word) (upd : Strand → Strand) : Res :=
  let b := rollback s
  .part (putMe b { upd (me b) with vstart := f.1, vsyl := s.slot % 4, resumeAt := 0 }) f.2.1 f.2.2 f.1

/-- A token's fault has been taken (R155). -/
def takeTok (sc : Scan) (st : Strand) : Strand :=
  match sc.tok with
  | none => st
  | some k => setTok st k { tokOf st k with taken := true }

/-- The end of a load: the values enter in-queue q from element `start` (R131); a fault commits those below it. `upd` is what the
access consumes whole, `updAt f` what it consumes below f. -/
def loadFinish (s : State) (q w start : Nat) (sc : Scan) (r : LoadEnd) (upd : Strand → Strand) (updAt : Nat → Strand → Strand) : Res :=
  let push := fun (st : Strand) (vals : List (Nat × Bool)) => setIq st q (qpush (iqOf st q) start w vals)
  match r with
  | .wait s1 => .wait s1
  | .stop vals f => partAt s f fun st => push (updAt f.1 st) vals
  | .done vals s1 =>
    match sc.stop with
    | some f => partAt s f fun st => takeTok sc (push (updAt f.1 st) vals)
    | none => .ok (putMe s1 { push (upd (me s1)) vals with vl := sc.vl })

/-- A fresh group number for the elements of a syllable. -/
def nextGroup (st : Strand) : Nat := st.nextGrp + 1

/-- A vector load over its scan: its requests to other packages are all sent first, but those of an ordered form one after the other. -/
def loadRun (s : State) (q w start : Nat) (ordered : Bool) (mk0 : Place → Word → Access) (sc : Scan) (held : El × Option Place → Bool)
    (upd : Strand → Strand) (updAt : Nat → Strand → Strand) : Res :=
  let g := nextGroup (me s)
  let mk := fun p va => { mk0 p va with group := g, ordered := ordered }
  match if ordered then none else askAll s mk (sc.els.filter fun e => !held e) with
  | some s1 => .wait s1
  | none => loadFinish s q w start sc (loadEls (fun s e p => readNow s e.i (mk p e.va)) held (fillEls s sc.els) sc.els) upd updAt

/-- The access of an element of a VM syllable: its ord acts at domain scope (R325). -/
def vmAcc (k : AccKind) (n : Nat) (ord : BitVec 2) (p : Place) (va : Word) : Access :=
  mkAcc .ls p va n k (ordRel ord) (ordAcq ord) true

/-- Bytes of a VM element (R322). -/
def vmSize (sz : BitVec 2) : Nat := 2 ^ sz.toNat

/-- VLD and VLDS over an address function. -/
def vload (s : State) (i : Instr) (o : VmOps) (addr : Nat → Word) : Out State :=
  finish s <| vecOnly s i fun _ =>
    let st := me s
    let n := vmSize o.sz
    let start := startOf s
    let (sc, held) := tokScan st o.wait o.tk.toNat n (scanEls s st .load n (elsAll start st.vl addr))
    loadRun s o.q.toNat (8 * n) start false (vmAcc .read n o.ord) sc held id fun _ => id

/-- The addresses of R327. -/
def contAddr (s : State) (sa sb : BitVec 5) (n : Nat) : Nat → Word := fun i => getS s sa + getS s sb + wordOf (i * n)
def strideAddr (s : State) (sa sb : BitVec 5) : Nat → Word := fun i => getS s sa + wordOf i * getS s sb

def execVld (o : VmOps) (s : State) : Out State := vload s (.vld o) o (contAddr s o.sa o.sb (vmSize o.sz))
def execVlds (o : VmOps) (s : State) : Out State := vload s (.vlds o) o (strideAddr s o.sa o.sb)

/-! Stores. -/

/-- The queued accesses of the active elements. -/
def groupItems (g : Nat) (ordered : Bool) (mk : El → Place → Access) (els : List (El × Option Place)) : List QItem :=
  els.filterMap fun e => e.2.map fun p => QItem.acc { mk e.1 p with group := g, ordered := ordered }

/-- Drops the groups of an out-queue that elements start to f − 1 of w bits use up (R111). -/
def dropBelow (st : Strand) (q start f w : Nat) : Strand := setOq st q ((oqOf st q).drop (f * w / 2048 - start * w / 2048))

/-- Drops the groups of an out-queue that elements start to vl − 1 use (R131). -/
def dropAll (st : Strand) (q start vl w : Nat) : Strand :=
  setOq st q (if vl ≤ start then oqOf st q else (oqOf st q).drop (groupsFor vl w - start * w / 2048))

/-- The end of a store: its elements enter the issue stream when the convoy retires (R161); a fault commits those below it. `upd` and `updAt` are what
the syllable drains, whole or below f. Elements that have entered their path queue before do not enter it again. -/
def storeRun (s : State) (sc : Scan) (ordered : Bool) (mk : El → Place → Access) (upd : Strand → Strand) (updAt : Nat → Strand → Strand) :
    Res :=
  let items := fun (st : Strand) => groupItems (nextGroup st) ordered mk sc.els
  match if hasEntered (me s) s.slot then none else sc.stop with
  | none =>
    let s1 := fillEls s sc.els
    let st := me s1
    .ok (putMe s1 { addItems (upd st) s.slot (items st) with vl := sc.vl })
  | some f => partAt s f fun st => takeTok sc (commitItems (updAt f.1 st) s.slot (items st))

/-- VST and VSTS over an address function. A token holds the whole syllable: its elements enter the path queue together, when the convoy retires. -/
def vstore (s : State) (i : Instr) (o : VmOps) (addr : Nat → Word) : Out State :=
  finish s <| vecOnly s i fun _ =>
    let st := me s
    let n := vmSize o.sz
    let w := 8 * n
    let q := o.q.toNat
    let start := startOf s
    match qread (oqOf st q) start st.vl w with
    | none => illegal s i
    | some (d, _) =>
      let (sc, held) := tokScan st o.wait o.tk.toNat n (scanEls s st .store n (elsOf start st.vl addr (d.map (·.2)) (d.map (·.1))))
      if !hasEntered st s.slot && sc.els.any held then .wait (waitHere s)
      else
        storeRun s sc false (fun e p => vmAcc (.write (bytesOf n e.data)) n o.ord p e.va) (fun st1 => dropAll st1 q start st.vl w)
          (fun f st1 => dropBelow st1 q start f w)

def execVst (o : VmOps) (s : State) : Out State := vstore s (.vst o) o (contAddr s o.sa o.sb (vmSize o.sz))
def execVsts (o : VmOps) (s : State) : Out State := vstore s (.vsts o) o (strideAddr s o.sa o.sb)

/-! Gather and scatter (R328). -/

/-- The address of an index (R328). -/
def indexAddr (s : State) (sa : BitVec 5) (shift : BitVec 2) (start : Nat) (ix : List (Nat × Bool)) : Nat → Word := fun i =>
  getS s sa + wordOf ((ix.getD (i - start) (0, false)).1 * 2 ^ shift.toNat)

/-- VLDX: indices and marks from an out-queue. -/
def gather (s : State) (i : Instr) (o : VxOps) (ordered : Bool) : Out State :=
  finish s <| vecOnly s i fun _ =>
    let st := me s
    let n := vmSize o.sz
    let k := o.ix.toNat
    let start := startOf s
    match qread (oqOf st k) start st.vl 32 with
    | none => illegal s i
    | some (ix, _) =>
      let sc := scanEls s st .load n (elsOf start st.vl (indexAddr s o.sa o.shift start ix) (ix.map (·.2)) [])
      loadRun s o.q.toNat (8 * n) start ordered (vmAcc .read n o.ord) sc (fun _ => false) (fun st1 => dropAll st1 k start st.vl 32)
        (fun f st1 => dropBelow st1 k start f 32)

def execVldxO (o : VxOps) (s : State) : Out State := gather s (.vldxO o) o true
def execVldxU (o : VxOps) (s : State) : Out State := gather s (.vldxU o) o false

/-- What a syllable with two out-queue operands of w and v bits has used up where it stops at f: the groups below f of each. Where one queue serves
both, the groups of the second operand stand behind those of the first that are left (R111, R323, R360). -/
def dropBoth (st : Strand) (q k start f vl w v : Nat) : Strand :=
  let st1 := dropBelow st q start f w
  if q ≠ k then dropBelow st1 k start f v
  else
    let left := groupsFor vl w - f * w / 2048
    setOq st1 k ((oqOf st1 k).take left ++ (oqOf st1 k).drop (left + (f * v / 2048 - start * v / 2048)))

/-- VSTX: an element is active where both its index and its data are (R323). The data is drained first where one out-queue serves
both. -/
def scatter (s : State) (i : Instr) (o : VxOps) (ordered : Bool) : Out State :=
  finish s <| vecOnly s i fun _ =>
    let st := me s
    let n := vmSize o.sz
    let w := 8 * n
    let q := o.q.toNat
    let k := o.ix.toNat
    let start := startOf s
    match qread (oqOf st q) start st.vl w with
    | none => illegal s i
    | some (d, _) =>
      let st0 := dropAll st q start st.vl w
      match qread (oqOf st0 k) start st.vl 32 with
      | none => illegal s i
      | some (ix, _) =>
        let marks := List.zipWith (fun a b => a && b) (d.map (·.2)) (ix.map (·.2))
        let sc := scanEls s st .store n (elsOf start st.vl (indexAddr s o.sa o.shift start ix) marks (d.map (·.1)))
        storeRun s sc ordered (fun e p => vmAcc (.write (bytesOf n e.data)) n o.ord p e.va)
          (fun st1 => dropAll (dropAll st1 q start st.vl w) k start st.vl 32)
          (fun f st1 => dropBoth st1 q k start f st.vl w 32)

def execVstxO (o : VxOps) (s : State) : Out State := scatter s (.vstxO o) o true
def execVstxU (o : VxOps) (s : State) : Out State := scatter s (.vstxU o) o false

/-! Vector atomics (R332, R333). -/

/-- The operation of a VAMO's aop field (R265, R332). -/
def vamoOp (a : Nat) : AtomOp :=
  match a with
  | 0 => .add
  | 1 => .swap
  | 3 => .and
  | 4 => .or
  | 5 => .xor
  | 6 => .max
  | 7 => .min
  | 8 => .maxn
  | 9 => .minn
  | 10 => .addF32
  | 11 => .maxF32
  | _ => .minF32

/-- The address of element i of a VAMO. -/
def vamoAddr (s : State) (o : VamoOps) : Nat → Word := fun i => getS s o.sa + wordOf (i * szDbl o.dbl)

/-- The scan of a VAMO: every active element is checked before any performs (R333). -/
def vamoScan (s : State) (o : VamoOps) (start : Nat) (d : List (Nat × Bool)) : Scan :=
  scanEls s (me s) .atomic (szDbl o.dbl) (elsOf start (me s).vl (vamoAddr s o) (d.map (·.2)) (d.map (·.1)))

/-- The access of an element of a VAMO. -/
def vamoAcc (o : VamoOps) (e : El) (p : Place) : Access :=
  vmAcc (.atomic (vamoOp o.aop.toNat) (szDbl o.dbl) (BitVec.ofNat 512 e.data)) (szDbl o.dbl) o.ord p e.va

/-- VAMO: the atomics enter the path queue when the convoy retires. -/
def execVamo (o : VamoOps) (s : State) : Out State :=
  finish s <| vecOnly s (.vamo o) fun _ =>
    let st := me s
    let w := 8 * szDbl o.dbl
    let q := o.q.toNat
    let start := startOf s
    match qread (oqOf st q) start st.vl w with
    | none => illegal s (.vamo o)
    | some (d, _) =>
      storeRun s (vamoScan s o start d) false (vamoAcc o) (fun st1 => dropAll st1 q start st.vl w) (fun f st1 => dropBelow st1 q start f w)

/-- The groups of a VAMO.RET whose elements entered their path queue before: they stand in in-queue q again. -/
def pushOlds (st : Strand) (slot q : Nat) : Strand :=
  match (answerOf st slot leftElem).bind (·.data) with
  | some (.bytes b) => setIq st q (iqOf st q ++ (st.olds.filter fun e => e.1 == q && e.2.id == leAt b 0 8).map (·.2))
  | _ => st

/-- VAMO.RET (R161, R332): as VAMO, and in-queue q receives the positions that the old values fill when they come; nothing consumes them before. -/
def execVamoRet (o : VamoOps) (s : State) : Out State :=
  finish s <| vecOnly s (.vamoRet o) fun _ =>
    let st := me s
    let w := 8 * szDbl o.dbl
    let q := o.q.toNat
    let start := startOf s
    match qread (oqOf st q) start st.vl w with
    | none => illegal s (.vamoRet o)
    | some (d, _) =>
      let sc := vamoScan s o start d
      let id := st.nextFill
      let push := fun (st1 : Strand) =>
        if hasEntered st1 s.slot then pushOlds st1 s.slot q
        else { setIq st1 q (qpushWait (iqOf st1 q) start w id (sc.els.map fun e => (0, e.2.isSome))) with nextFill := id + 1 }
      storeRun s sc false (fun e p => { vamoAcc o e p with fill := some { q := q, id := id, elem := e.i, w := w } })
        (fun st1 => push (dropAll st1 q start st.vl w)) (fun f st1 => push (dropBelow st1 q start f w))

/-! Ticketed accesses (R177, R334). -/

/-- The tickets of the VLDSC in progress: those that it drew when it was issued, or now (R177). The number of the first, and the state. -/
def drawTickets (s : State) (count : Nat) : Nat × State :=
  match doneBefore s ticketElem with
  | some b => (leAt b 0 8, s)
  | none =>
    let t := s.ord.nextTicket
    let s1 := { s with ord := { s.ord with nextTicket := t + count } }
    (t, putMe s1 (noteDone (me s1) s.slot ticketElem (bytesOf 8 t ++ bytesOf 8 count)))

/-- A ticketed read (R177): it performs when every smaller ticket has, and the turn then passes on. -/
def readTicketed (t : Nat) (s : State) (e : El) (a : Access) : Got :=
  if s.ord.performed = t then
    match readNow s e.i a with
    | .bytes b fl s1 => .bytes b fl { s1 with ord := passTicket s1.ord }
    | r => r
  else
    match earlyOf s e.i a with
    | some b => .bytes b 0 s
    | none => .wait (waitHere s)

/-- Whether an SC element of a strand waits for its turn. -/
def holdsTicket (st : Strand) : Bool := (streamOf st).any fun x => match x with
  | .acc a => match a.kind with
    | .ticketed _ _ => true
    | _ => false
  | _ => false

/-- A read that a run ahead leaves behind. -/
def skipRead (s : State) (a : Access) : Got := .bytes (List.replicate a.size 0) 0 (queueItem s (.acc a))

/-- VLDSC: its elements draw their tickets at issue, and perform in index order. A run ahead that needs its groups (R130, R132) draws them early where
every ticket drawn has performed; one that looks for another access passes it over. -/
def execVldsc (o : VscOps) (s : State) : Out State :=
  finish s <| vecOnly s (.vldsc o) fun _ =>
    let st := me s
    let n := vmSize o.sz
    let start := startOf s
    let sc := scanEls s st .load n (elsAll start st.vl (contAddr s o.sa o.sb n))
    let acc := fun (e : El) p => vmAcc .read n 0 p e.va
    let push := fun (r : LoadEnd) => loadFinish s o.q.toNat (8 * n) start sc r id fun _ => id
    if s.look.any fun l => l.atom || l.left.isSome then push (loadEls (fun s e p => skipRead s (acc e p)) (fun _ => false) s sc.els)
    else if s.look.isSome && (s.ord.performed != s.ord.nextTicket || holdsTicket st) then .wait s
    else
      let (t, s1) := drawTickets (fillEls s sc.els) sc.els.length
      let s2 := if s1.ord.performed = t || s.look.isSome then s1 else flushStrand s1 s1.cur
      push (loadEls (fun s e p => readTicketed (t + (e.i - start)) s e (acc e p)) (fun _ => false) s2 sc.els)

/-- Gives the active elements their tickets in index order. -/
def ticketItems (o : VscOps) (g t : Nat) (els : List (El × Option Place)) : List QItem :=
  ((els.filter (·.2.isSome)).zipIdx.filterMap fun (e, k) =>
    e.2.map fun p =>
      QItem.acc { vmAcc (.ticketed (bytesOf (vmSize o.sz) e.1.data) (t + k)) (vmSize o.sz) 0 p e.1.va with group := g, ordered := true })

/-- VSTSC: each active element draws its ticket at issue and performs in index order. -/
def execVstsc (o : VscOps) (s : State) : Out State :=
  finish s <| vecOnly s (.vstsc o) fun _ =>
    let st := me s
    let n := vmSize o.sz
    let w := 8 * n
    let q := o.q.toNat
    let start := startOf s
    match qread (oqOf st q) start st.vl w with
    | none => illegal s (.vstsc o)
    | some (d, _) =>
      let sc := scanEls s st .store n (elsOf start st.vl (contAddr s o.sa o.sb n) (d.map (·.2)) (d.map (·.1)))
      let count := (sc.els.filter (·.2.isSome)).length
      let left := s.look.isSome || hasEntered st s.slot
      let draw := fun (s : State) => if left then s else { s with ord := { s.ord with nextTicket := s.ord.nextTicket + count } }
      match if left then none else sc.stop with
      | none =>
        let s1 := fillEls s sc.els
        let st1 := me s1
        .ok (putMe (draw s1)
          { addItems (dropAll st1 q start st.vl w) s.slot (ticketItems o (nextGroup st1) s1.ord.nextTicket sc.els) with vl := sc.vl })
      | some f =>
        let b := draw (rollback s)
        let st1 := me b
        let t := b.ord.nextTicket - count
        .part (putMe b
          { commitItems (dropBelow st1 q start f.1 w) s.slot (ticketItems o (nextGroup st1) t sc.els) with
            vstart := f.1, vsyl := s.slot % 4, resumeAt := 0 })
          f.2.1 f.2.2 f.1

end Sys2Proof.Machine
end

