-- ==== Sys2Proof/Machine/Engines.lean ====
section
/-! DEFINITION. Copy engines: COPY, GATHSP, XFETCH and their elements, and XSEND (R154, R155, R336 to R343). -/

namespace Sys2Proof.Machine

/-- Elements that a copy moves (R336): bytes in runs of the element size, or rows. -/
def copyCount (t : Token) : Nat := if t.kind = .gathsp then t.expected else ceilDiv t.expected t.unit

/-- Elements of the landed prefix. -/
def landedEls (t : Token) : Nat := if t.kind = .gathsp then t.landed else ceilDiv t.landed t.unit

/-- Counts that the first n elements stand for (R154). -/
def elsToCount (t : Token) (n : Nat) : Nat := if t.kind = .gathsp then n else min t.expected (n * t.unit)

/-- Source address, destination address and bytes of element e; none for an inactive row. A peer word advances in its OFF field. -/
def copyEl (t : Token) (e : Nat) : Option (Word × Word × Nat) :=
  match t.kind with
  | .gathsp => (t.rows.getD e none).map fun r => (t.src + wordOf (r * t.unit), t.dst + wordOf (e * t.unit), t.unit)
  | _ => some (t.src + wordOf (e * t.unit), t.dst + wordOf (e * t.unit), min t.unit (t.expected - e * t.unit))

/-- The landed prefix after element e, counted from a number of landed elements. -/
def growPrefix : Nat → Nat → List Nat → Nat × List Nat
  | 0, p, l => (p, l)
  | k + 1, p, l => if hasN l p then growPrefix k (p + 1) (eraseN l p) else (p, l)

/-- Element e lands (R154): the landed count grows past a prefix that has wholly landed, and BUSY clears at the end. -/
def landEl (t : Token) (e : Nat) : Token :=
  let l := insertN t.done e
  let (p, l') := growPrefix l.length (landedEls t) l
  let c := elsToCount t p
  { t with done := l', landed := c, busy := c != t.expected }

/-- Inactive rows at the front of a copy count as landed at once (R338). -/
def landInactive (t : Token) : Token :=
  ((List.range t.rows.length).filter fun e => (t.rows.getD e none).isNone).foldl landEl t

/-- What an engine's part of an element gives. -/
inductive EngGot where
  /-- Its bytes, and which of its 8-byte words are poisoned. -/
  | bytes (b : List Byte) (pois : List Bool)
  /-- A request has been sent, or its answer is awaited. -/
  | asked (s : State)
  | fail (cause : Nat)

/-- Requests of at most 224 bytes that n bytes take (R31): offset and size. -/
def chunksOf (n : Nat) : List (Nat × Nat) := (List.range (ceilDiv n 224)).map fun k => (224 * k, min 224 (n - 224 * k))

/-- Asks a peer in chunks for strand `sid` under a slot; answered chunks are collected in order. Element keys hold the chunk and the
direction. -/
def chunkAsk (s : State) (sid slot e dir pkg pa kind : Nat) (p : Path) (n : Nat) (data : List Byte) (va : Word) : EngGot :=
  let key := fun k => e * 1024 + 2 * k + dir
  let cs := (chunksOf n).zipIdx
  let st := strandOf s sid
  let missing := cs.filter fun c => (answerOf st slot (key c.2)).isNone
  if !missing.isEmpty then
    let s1 := missing.foldl (fun b (c, k) =>
      askPeer b slot (key k) p pkg (pa + c.1) kind 0 c.2 (if kind = kRdreq then [] else sliceBytes data c.1 c.2) va) { s with cur := sid }
    .asked { s1 with cur := s.cur }
  else
    let rs := cs.map fun c => ((answerOf st slot (key c.2)).bind (·.data))
    if rs.any (· == some .failed) then .fail cLink
    else if rs.any (· == none) then .asked s
    else .bytes ((rs.map fun r => match r with | some (.bytes b) => b | _ => []).flatten) []

/-- The strand as an engine sees it: its scratchpad ranges were checked when the copy was issued (R141). -/
def engineStrand (st : Strand) : Strand := { st with spbound := spboundFull }

/-- Which 8-byte words of n bytes are poisoned (R68). -/
def poisWords (n : Nat) (f : Nat → Nat → Bool) : List Bool := (List.range (ceilDiv n 8)).map fun j => f (8 * j) (min 8 (n - 8 * j))

/-- Reads an engine element's source (R168): poison travels with it (R69). -/
def engineRead (s : State) (sid slot e : Nat) (p : Path) (va : Word) (n : Nat) (size : Nat) : EngGot :=
  let st := strandOf s sid
  match checkElem s (engineStrand st) .load size va with
  | .error c => .fail c
  | .ok (.mem loc _) => .bytes (memRead s st.die loc n) (poisWords n fun o k => readPoisoned s st.die (loc + o) k)
  | .ok (.own loc home) => .bytes (memRead s home loc n) (poisWords n fun o k => readPoisoned s home (loc + o) k)
  | .ok (.spad key) => .bytes (Memory.getBytes s.ord.spad key n) (poisWords n fun o k => spadPoisoned s.ord (key + o) k)
  | .ok (.window _) => .fail cMisaligned
  | .ok (.peer pkg pa) => chunkAsk s sid slot e 0 pkg pa kRdreq p n [] va

/-- Whether a strand's die reaches a die or a package by the bridges and planes (R33, R42). -/
def wayTo (s : State) (st : Strand) (pkg die : Nat) : Bool :=
  if pkg = s.fabric.pkgId then bridgeUp s st.die die else portWay s.fabric st.die

/-- Reads bytes of a peer scratchpad (R339, R341, R342). A read request for a scratchpad carries bits 28:0 of the word and the mark of `spadMark`. Log
25. -/
def peerRead (s : State) (sid slot e : Nat) (word : Nat) (n : Nat) : EngGot :=
  let st := strandOf s sid
  let pkg := bitsN word 33 10
  if !wayTo s st pkg (bitsN word 29 4) then .fail cLink
  else if pkg = s.fabric.pkgId then
    let key := peerKey word
    if tenantAt s st.tenant (key / 2 ^ 24) then
      .bytes (Memory.getBytes s.ord.spad key n) (poisWords n fun o k => spadPoisoned s.ord (key + o) k)
    else .fail cLink
  else chunkAsk s sid slot e 0 pkg (spadMark + bitsN word 29 4 * 2 ^ 52 + word % 2 ^ 29) kRdreq .bt n [] (wordOf word)

/-- Marks what a poisoned element was written to (R68, R69). -/
def poisonMem (s : State) (loc n : Nat) : State := { s with ord := { s.ord with poison := poisonAdd s.ord.poison (granule loc) loc n } }
def poisonSpad (s : State) (key n : Nat) : State := { s with ord := { s.ord with spadPoison := poisonAdd s.ord.spadPoison 8 key n } }

/-- Marks the poisoned words of an element. -/
def markWords (mark : State → Nat → Nat → State) (base n : Nat) (pois : List Bool) (s : State) : State :=
  pois.zipIdx.foldl (fun s (b, j) => if b then mark s (base + 8 * j) (min 8 (n - 8 * j)) else s) s

/-- The 8-byte words of an element are written one after the other (R167). -/
def memWords (s : State) (e loc home : Nat) (b : List Byte) : State :=
  (List.range (ceilDiv b.length 8)).foldl (fun s j => memWrite s e (loc + 8 * j) home (sliceBytes b (8 * j) (min 8 (b.length - 8 * j)))) s

/-- How an engine's write ends. -/
inductive EngPut where
  | done (s : State)
  | asked (s : State)
  | fail (cause : Nat)

/-- Writes an engine element to a page of this package's own id: it is answered once every die has applied it (R27, R178). -/
def ownWrite (s : State) (sid slot e loc home : Nat) (b : List Byte) (pois : List Bool) : EngPut :=
  let st := strandOf s sid
  let key := e * 1024 + 1
  match answerOf st slot key with
  | some a => if a.data.isSome || reachedAll s.ord a.clock then .done s else .asked s
  | none =>
    let s1 := markWords poisonMem loc b.length pois (memWords s home loc home b)
    let c := appliedOf s1.ord home
    if reachedAll s1.ord c then .done s1
    else
      .asked (putStrand s1 sid
        { st with
          answers := st.answers ++ [{ slot := slot, elem := key, tag := 0, data := none, atomic := false, pc := st.pc.toNat, clock := c }] })

/-- Writes an engine element (R163, R168). Poisoned bytes never leave the package (R69). -/
def engineWrite (s : State) (sid slot e : Nat) (p : Path) (va : Word) (size : Nat) (b : List Byte) (pois : List Bool) : EngPut :=
  let st := strandOf s sid
  let n := b.length
  match checkElem s (engineStrand st) .store size va with
  | .error c => .fail c
  | .ok (.mem loc home) => .done (markWords poisonMem loc n pois (memWords s st.die loc home b))
  | .ok (.own loc home) => ownWrite s sid slot e loc home b pois
  | .ok (.spad key) => .done (markWords poisonSpad key n pois { s with ord := spadWrite s.ord key b })
  | .ok (.window _) => .fail cMisaligned
  | .ok (.peer pkg pa) =>
    if pois.any id then .fail cData
    else
      match chunkAsk s sid slot e 1 pkg pa kWrreq p n b va with
      | .bytes _ _ => .done s
      | .asked s1 => .asked s1
      | .fail c => .fail c

/-- The bytes an element's alignment check covers: the whole element. -/
def elSize (t : Token) (n : Nat) : Nat := if t.kind = .gathsp then n else t.unit

/-- A row with the words of it that were read before the rest (R176). -/
def withGot (t : Token) (e : Nat) (b : List Byte) (pois : List Bool) : List Byte × List Bool :=
  if t.got.isEmpty then (b, pois)
  else
    let ws := (List.range (ceilDiv b.length 8)).map fun j => (NMap.get? t.got (e * 2048 + j)).getD (sliceBytes b (8 * j) 8, pois.getD j false)
    ((ws.map (·.1)).flatten, ws.map (·.2))

/-- How an element of a copy ends: it has landed, with its bytes and whether some are poisoned, it waits for an answer, or it fails with a cause and
an address. -/
inductive ElEnd where
  | landed (s : State) (n : Nat) (pois : Bool)
  | asked (s : State)
  | fail (cause : Nat) (eval : Word)

/-- Moves element e of a copy: the source is read, then the destination is written (R160). -/
def moveEl (s : State) (sid slot : Nat) (t : Token) (e : Nat) : ElEnd :=
  match copyEl t e with
  | none => .landed s 0 false
  | some (src, dst, n) =>
    let got := if t.kind = .xfetch then peerRead s sid slot e src.toNat n else engineRead s sid slot e .bt src n (elSize t n)
    match got with
    | .fail c => .fail c src
    | .asked s1 => .asked s1
    | .bytes b0 pois0 =>
      let (b, pois) := withGot t e b0 pois0
      match engineWrite s sid slot e .bt dst (elSize t n) b pois with
      | .fail c => .fail c dst
      | .asked s1 => .asked s1
      | .done s1 => .landed s1 b.length (pois.any id)

/-- Whether element e of a token is still to land. -/
def elOpen (t : Token) (e : Nat) : Bool := t.busy && !t.pend && decide (e < copyCount t) && decide (landedEls t ≤ e) && !hasN t.done e

/-- Changes a token of a strand. -/
def updTok (s : State) (sid k : Nat) (f : Token → Token) : State :=
  let st := strandOf s sid
  putStrand s sid (setTok st k (f (tokOf st k)))

/-- The source and destination ranges of a token. -/
def tokRanges (t : Token) : List (Nat × Nat) :=
  (t.dst.toNat, tokBytes t t.expected) ::
    (match t.kind with
     | .copy => [(t.src.toNat, t.expected)]
     | .gathsp => t.rows.filterMap fun r => r.map fun r => ((t.src + wordOf (r * t.unit)).toNat, t.unit)
     | .xfetch => [])

/-- Whether two copies of a strand touch bytes in common, one of them writing: the later one then waits (R169). -/
def tokClash (a b : Token) : Bool :=
  let hit := fun (x y : Nat × Nat) => decide (x.1 < y.1 + y.2) && decide (y.1 < x.1 + x.2)
  (tokRanges b).any (hit (a.dst.toNat, tokBytes a a.expected)) || (tokRanges a).any (hit (b.dst.toNat, tokBytes b b.expected))

/-- Whether a copy that was armed earlier and is in progress holds a copy. -/
def tokBlocked (st : Strand) (t : Token) : Bool :=
  st.toks.any fun u => u.busy && !u.pend && decide (u.serial < t.serial) && tokClash u t

/-- Whether the engine of a strand's token can work on element e: its start has left the path queue, no earlier copy holds it, and the strand's die is
not held (R16, R23, R160, R169). -/
def engineOpen (s : State) (sid k e : Nat) : Bool :=
  let st := strandOf s sid
  let t := tokOf st k
  (NMap.get? s.strands sid).isSome && elOpen t e && t.started && (st.trunk || !pdHeld s) && !tokBlocked st t

/-- A KV stream's fragment counts into its layer's sync word (R157, R250): a copy of a strand of P-die i to memory of D-die i + 4, into a word of a
scratchpad there. How a copy names that word the spec does not say: the event names it. Log 89. -/
def kvSyncOk (s : State) (sid : Nat) (t : Token) (e sync : Nat) : Bool :=
  let st := strandOf s sid
  1 ≤ st.die && st.die ≤ 4 && sync % 16 == 0 && sync / 2 ^ 29 == st.die + 4 &&
    match copyEl t e with
    | none => false
    | some (_, dst, n) =>
      match checkElem s (engineStrand st) .store (elSize t n) dst with
      | .ok (.mem _ home) => home == st.die + 4
      | _ => false

/-- One step of element e of a strand's token k: none where it cannot move or fails. A fragment is counted after its bytes have been written and the
word's die has applied them: who sees the count sees the bytes (R157, R158). -/
def landStep (s : State) (sid k e : Nat) (sync : Option Nat) : Option State :=
  let t := tokOf (strandOf s sid) k
  if !engineOpen s sid k e || (sync.any fun w => !kvSyncOk s sid t e w) then none
  else
    match moveEl s sid (8 + k) t e with
    | .landed s1 n pois =>
      let s2 := updTok s1 sid k fun t => landEl { t with got := t.got.filter fun g => g.1 / 2048 != e } e
      match sync with
      | none => some s2
      | some w =>
        let st := strandOf s2 sid
        some { s2 with ord := (syncArrive (reach s2.ord (st.die + 4) (appliedOf s2.ord st.die)) w n pois).1 }
    | .asked s1 => some s1
    | .fail _ _ => none

/-- One 8-byte word of a row is read ahead of the rest of it (R176). -/
def wordStep (s : State) (sid k e j : Nat) : Option State :=
  let t := tokOf (strandOf s sid) k
  if !engineOpen s sid k e || t.kind ≠ .gathsp || t.unit ≤ 8 * j || (NMap.get? t.got (e * 2048 + j)).isSome then none
  else
    match copyEl t e with
    | none => none
    | some (src, _, _) =>
      let va := src + wordOf (8 * j)
      match checkElem s (engineStrand (strandOf s sid)) .load 8 va with
      | .ok (.peer _ _) => none
      | _ =>
        match engineRead s sid (8 + k) e .bt va 8 8 with
        | .bytes b pois => some (updTok s sid k fun t => { t with got := NMap.set t.got (e * 2048 + j) (b, pois.any id) })
        | _ => none

/-- The engine stops a copy at element e (R155): PEND is set and the token keeps what its fault will say. -/
def pendAt (s : State) (sid k : Nat) (c : Nat) (ev : Word) : State :=
  let s0 := { countBeyond { s with cur := sid } c ev with cur := s.cur }
  let s1 := updTok s0 sid k fun t => { t with pend := true, cause := c, eval := ev, got := [] }
  let st := strandOf s1 sid
  putStrand s1 sid (stash s1 (fun n => n == 8 + k) st)

/-- The address of an element of a copy that lies on another package: the source's where it does. -/
def elRemote (s : State) (st : Strand) (t : Token) (e : Nat) : Option Word :=
  match copyEl t e with
  | none => none
  | some (src, dst, n) =>
    let far := fun (acc : Acc) (va : Word) =>
      match checkElem s (engineStrand st) acc (elSize t n) va with
      | .ok (.peer _ _) => true
      | _ => false
    if if t.kind = .xfetch then bitsN src.toNat 33 10 != s.fabric.pkgId else far .load src then some src
    else if far .store dst then some dst
    else none

/-- Whether element e of a token fails with data-error now: poisoned bytes would leave the package (R69). -/
def elPoisoned (s : State) (sid k e : Nat) : Bool :=
  match moveEl s sid (8 + k) (tokOf (strandOf s sid) k) e with
  | .fail c _ => c == cData
  | _ => false

/-- Element e of token k faults (R155): by the checks of R146, or with link-failure where its request fails. A data-error is the first poisoned
element's (R69). -/
def faultStep (s : State) (sid k e : Nat) (link : Bool) : Option State :=
  let st := strandOf s sid
  let t := tokOf st k
  if !engineOpen s sid k e then none
  else match if link then elRemote s st t e else none with
  | some va => some (pendAt s sid k cLink va)
  | none =>
    match moveEl s sid (8 + k) t e with
    | .fail c ev =>
      if c = cData && ((List.range e).any fun i => elOpen t i && elPoisoned s sid k i) then none else some (pendAt s sid k c ev)
    | _ => none

/-- ENGINE_ELEMENT_LAND: strand, token, element; with the sync word that a KV stream's fragment counts into; or one word of a row. -/
def execEngineElementLand (s : State) : Out State :=
  let r := match s.arg with
    | .n3 sid k e => landStep s sid k e none
    | .land sid k e w => landStep s sid k e (some w)
    | .word sid k e j => wordStep s sid k e j
    | _ => none
  match r with
  | some s1 => .next s1
  | none => .refused (.notEnabled "ENGINE_ELEMENT_LAND")

/-- ENGINE_ELEMENT_FAULT: strand, token, element, and whether its request failed. -/
def execEngineElementFault (s : State) : Out State :=
  match s.arg with
  | .n3b sid k e link =>
    match faultStep s sid k e link with
    | some s1 => .next s1
    | none => .refused (.notEnabled "ENGINE_ELEMENT_FAULT")
  | _ => .refused (.notEnabled "ENGINE_ELEMENT_FAULT")

/-! Issue. -/

/-- The access that stands for an engine operation in the issue stream: it waits behind acquires, fences toward its path, and, as a
release, behind every earlier access (R171 to R175, R337). -/
def engineAcc (p : Path) (rel : Bool) (tok : Option Nat) : Access := mkAcc p (.window (2 ^ 64)) 0 0 (.move tok) rel false rel

/-- The first element, from `lo`, whose scratchpad bytes lie outside SPBOUND (R141, R336): its index and its address. -/
def spadBad (st : Strand) (ranges : Nat → List (Word × Nat)) : Nat → Nat → Option (Nat × Word)
  | 0, _ => none
  | n + 1, lo =>
    match (ranges lo).find? fun r => inSpad r.1 && !spInRange st (r.1.toNat % 2 ^ 48) r.2 with
    | some r => some (lo, r.1)
    | none => spadBad st ranges n (lo + 1)

/-- The ranges of element e that SPBOUND bounds. -/
def elRanges (t : Token) (e : Nat) : List (Word × Nat) :=
  match copyEl t e with
  | none => []
  | some (src, dst, n) => if t.kind = .xfetch then [(dst, n)] else [(src, n), (dst, n)]

/-- The lowest active element of a copy from `lo` (R142): an inactive row is none. -/
def firstActive (t : Token) (lo : Nat) : Nat :=
  if t.kind = .gathsp then lo + ((t.rows.drop lo).takeWhile Option.isNone).length else lo

/-- The strand that has armed token k, with what stands for the copy's start in its path queue. -/
def armStrand (st : Strand) (slot k : Nat) (t : Token) (upd : Strand → Strand) (vl : Nat) (items : List QItem) : Strand :=
  let st1 := { st with answers := st.answers.filter fun a => a.slot != 8 + k }
  let st2 := upd (setTok st1 k { t with serial := st1.armed, started := items.isEmpty })
  noteDone { st2 with pq := st2.pq ++ items, armed := st1.armed + 1, vl := vl } slot noteElem (bytesOf 8 vl)

/-- The copy's start, behind the fences of its convoy too: the token's engine waits for it (R160, R169). -/
def armItems (st : Strand) (slot k : Nat) (t : Token) (rel : Bool) : List QItem :=
  if t.busy then st.wbuf.filter (fun x => (itemSlot x).isNone) ++ [markItem st slot (.acc (engineAcc .bt rel (some k)))] else []

/-- A copy in a run ahead: one that feeds an earlier syllable is armed and starts before its turn (R130, R132), where nothing holds it back; every other is
passed over, and what waits for its token waits. -/
def armAhead (s : State) (l : Look) (k : Nat) (t : Token) (rel : Bool) (upd : Strand → Strand) (vl : Nat) : Res :=
  let a := engineAcc .bt rel (some k)
  let st := me s
  if l.atom || l.left.isSome then .ok (queueItem (putMe s { upd (setTok st k { t with started := false }) with vl := vl }) (.acc a))
  else if mayLeave st (streamOf st) a && onlyOnce s l then .ok (putMe s (armStrand st s.slot k t upd vl []))
  else .wait s

/-- Arms a token with a copy, trimmed by its scratchpad ranges (R142, R154, R336): `start` is the first count, `upd` what the syllable
consumes, `updAt f` what it consumes below f. A copy that was armed before its strand stopped in the same convoy is not armed again. -/
def armCopy (s : State) (k : Nat) (t : Token) (start : Nat) (rel : Bool) (upd : Strand → Strand) (updAt : Nat → Strand → Strand) : Res :=
  let st := me s
  let t0 := tokOf st k
  match doneBefore s noteElem with
  | some b => .ok (putMe s { upd st with vl := numOf b })
  | none =>
  if t0.pend then partAt s (0, t0.cause, t0.eval) fun st => setTok st k { tokOf st k with taken := true }
  else
    let lo := if t.kind = .gathsp then start else start / t.unit
    let bad := if st.trunk then none else spadBad st (elRanges t) (copyCount t - lo) lo
    let (fault, vl) : Option (Nat × Word) × Nat :=
      match bad with
      | none => (none, t.expected)
      | some (e, va) => if firstActive t lo = e then (some (e, va), t.expected) else (none, elsToCount t e)
    match fault with
    | some (e, va) => let f := elsToCount { t with expected := 2 ^ 64 } e; partAt s (f, cSpad, va) (updAt f)
    | none =>
      let t1 := landInactive { t with expected := vl, busy := vl != 0, landed := min start vl, rows := t.rows.take vl }
      if t0.busy then .wait (waitHere s)
      else
        match s.look with
        | some l => armAhead s l k t1 rel upd vl
        | none =>
          let s1 := enterFor s (engineAcc .bt rel (some k))
          let s2 := putMe s1 (armStrand (me s1) s.slot k t1 upd vl (armItems (me s1) s.slot k t1 rel))
          .ok (flushStrand s2 s2.cur)

/-- A token newly armed. -/
def newTok (kind : CopyKind) (dst src : Word) (unit n : Nat) (rows : List (Option Nat)) : Token :=
  { Token.idle with busy := true, expected := n, kind := kind, dst := dst, src := src, unit := unit, rows := rows }

/-- How far a trunk strand's copy of the convoy in progress has come, and the note of it. -/
def stepOf (s : State) : Nat := ((doneBefore s stepElem).map numOf).getD 0
def noteStep (s : State) (e : Nat) : State :=
  let st := me s
  putMe s (noteDone { st with answers := st.answers.filter fun a => !(a.slot == s.slot && a.elem == stepElem) } s.slot stepElem (bytesOf 8 e))

/-- The 64 elements that a trunk strand moves (R336), in index order; those before a failed one have landed, and its index goes to EVAL. Log 24. -/
def trunkMove (t : Token) : Nat → State → Nat → Res
  | 0, s, _ => .ok s
  | n + 1, s, e =>
    match moveEl s s.cur s.slot t e with
    | .landed s1 _ _ => trunkMove t n s1 (e + 1)
    | .asked s1 => .wait (noteStep s1 e)
    | .fail c _ => .part (rollback (standNow s)) c (wordOf e) 0

/-- COPY and XFETCH on a trunk strand. A run ahead passes over them. -/
def trunkCopy (s : State) (t : Token) (rel : Bool) : Res :=
  if s.look.isSome then .ok (queueItem s (.acc (engineAcc .bt rel none)))
  else
  match makeWay s (engineAcc .bt rel none) with
  | none => .wait (waitFor s (engineAcc .bt rel none))
  | some s1 => trunkMove { t with expected := 64 * t.unit } (64 - stepOf s) s1 (stepOf s)

/-- COPY (R337). A VL that is no multiple of the element is an issue check, made before the addresses. Log 38. -/
def execCopy (o : CopyOps) (s : State) : Out State :=
  let st := me s
  let n := vmSize o.sz
  let dst := getS s o.sa
  let src := getS s o.sb
  finish s <|
    if st.trunk && o.tk != 0 then illegal s (.copy o)
    else if !st.trunk && st.vl % n != 0 then illegal s (.copy o)
    else if dst.toNat % n ≠ 0 then partAt s (0, cMisaligned, dst) id
    else if src.toNat % n ≠ 0 then partAt s (0, cMisaligned, src) id
    else if st.trunk then trunkCopy s (newTok .copy dst src n 0 []) o.rel
    else armCopy s o.tk.toNat (newTok .copy dst src n st.vl []) (startOf s) o.rel id fun _ => id

/-- XFETCH (R339, R341). -/
def execXfetch (o : CopyOps) (s : State) : Out State :=
  let st := me s
  let n := vmSize o.sz
  let dst := getS s o.sa
  let w := getS s o.sb
  let count := if st.trunk then 64 * n else st.vl
  finish s <|
    if st.trunk && o.tk != 0 then illegal s (.xfetch o)
    else if !peerOk w.toNat count false then partAt s (0, cTranslation, w) id
    else if dst.toNat % n ≠ 0 then partAt s (0, cMisaligned, dst) id
    else if st.trunk then trunkCopy s (newTok .xfetch dst w n 0 []) o.rel
    else armCopy s o.tk.toNat (newTok .xfetch dst w n st.vl []) (startOf s) o.rel id fun _ => id

/-- GATHSP (R338). -/
def execGathsp (o : GathOps) (s : State) : Out State :=
  finish s <| vecOnly s (.gathsp o) fun _ =>
    let st := me s
    let n := 64 * 2 ^ (4 * o.sz.toNat + o.scale.toNat)
    let dst := getS s o.sa
    let src := getS s o.sb
    let q := o.q.toNat
    let start := startOf s
    if dst.toNat % n ≠ 0 then partAt s (0, cMisaligned, dst) id
    else if src.toNat % n ≠ 0 then partAt s (0, cMisaligned, src) id
    else
      match qread (oqOf st q) start st.vl 32 with
      | none => illegal s (.gathsp o)
      | some (ix, _) =>
        let rows := List.replicate start none ++ ix.map fun x => if x.2 then some x.1 else none
        armCopy s o.tk.toNat (newTok .gathsp dst src n st.vl rows) start o.rel (fun st1 => dropAll st1 q start st.vl 32)
          fun f st1 => dropBelow st1 q start f 32

/-! XSEND (R339, R340). -/

/-- How the reads of an XSEND's source end. -/
inductive SendEnd where
  | done (b : List Byte) (s : State)
  | stop (b : List Byte) (f : Nat × Nat × Word)
  | wait (s : State)

/-- Reads the source elements in index order: `sz` bytes each, the last one cut at the count. -/
def sendEls (sz : Nat) (rel : Bool) : State → List (El × Option Place) → SendEnd
  | s, [] => .done [] s
  | s, (e, p) :: t =>
    match p with
    | none => .stop [] (e.i, cTranslation, e.va)
    | some p =>
      match readWide s e.i (mkAcc .cl p e.va sz .read rel false rel) with
      | .wait s1 => .wait s1
      | .fail c => .stop [] (e.i, c, e.va)
      | .bytes b _ s1 =>
        match sendEls sz rel s1 t with
        | .done l s2 => .done (b ++ l) s2
        | .stop l f => .stop (b ++ l) f
        | .wait s2 => .wait s2

/-- The fragments of bytes that start at count `start`: up to 224 bytes each, counted into the sync word of the peer word. -/
def fragItems (s : State) (w : Nat) (rel : Bool) (start : Nat) (b : List Byte) : List QItem :=
  (chunksOf b.length).map fun (off, n) =>
    let w' := w + start + off
    let k : AccKind := .frag (sliceBytes b off n) (peerSync w)
    let p : Place :=
      if bitsN w 33 10 = s.fabric.pkgId then .spad (peerKey w')
      else .peer (bitsN w 33 10) (bitsN w 29 4 * 2 ^ 52 + w' % 2 ^ 29)
    .acc { mkAcc .cl p (wordOf w') n k rel false rel with group := nextGroup (me s) }

/-- The fragments of a trunk strand's XSEND land before it retires (R336): `l` lists them from the byte `off` on; the index of a failed fragment's
first element goes to EVAL. -/
def trunkSend (sz : Nat) : State → List QItem → Nat → Res
  | s, [], _ => .ok s
  | s, .acc a :: t, off =>
    match a.place, a.kind with
    | .spad key, .frag b sync =>
      match makeWay s a with
      | none => .wait (noteStep (waitFor s a) off)
      | some s1 =>
        if tenantAt s1 (me s1).tenant (key / 2 ^ 24) && bridgeUp s1 (me s1).die (key / 2 ^ 29) then
          trunkSend sz { s1 with ord := fragLand s1.ord key sync b } t (off + b.length)
        else .part (rollback (standNow s)) cLink (wordOf (off / sz)) 0
    | .peer pkg pa, .frag b sync =>
      match answerOf (me s) s.slot (2 ^ 21 + off) with
      | none =>
        match makeWay s a with
        | none => .wait (noteStep (waitFor s a) off)
        | some s1 =>
          .wait (noteStep (askWire s1 s.slot (2 ^ 21 + off) .cl pkg pa kXsdat 0 (pa % 2 ^ 29 + sync % 2 ^ 24 / 16 * 2 ^ 44) b.length
            (sizeCode sz + 4 * (me s1).tenant) b a.va) off)
      | some x =>
        match x.data with
        | none => .wait (noteStep (waitHere s) off)
        | some (.bytes _) => trunkSend sz s t (off + b.length)
        | some _ => .part (rollback (standNow s)) cLink (wordOf (off / sz)) 0
    | _, _ => .trap cLink (wordOf (off / sz)) 0
  | s, _ :: t, off => trunkSend sz s t off

/-- XSEND: the source is read before the syllable retires, and its fragments leave afterwards (R340); those of a trunk strand land before it retires
(R336). A destination that no plane or bridge reaches faults at issue (R33, R42). -/
def execXsend (o : XsendOps) (s : State) : Out State :=
  let st := me s
  let n := vmSize o.sz
  let w := getS s o.sa
  let src := getS s o.sb
  let count := if st.trunk then 64 * n else st.vl
  let start := if st.trunk then 0 else startOf s
  let lo := start / n
  let els : List El :=
    (List.range (ceilDiv count n - lo)).map fun k => { i := (lo + k) * n, va := src + wordOf ((lo + k) * n), act := true, data := 0 }
  let part := fun (b : List Byte) (f : Nat × Nat × Word) =>
    if st.trunk then Res.trap f.2.1 (wordOf (f.1 / n)) 0
    else partAt s f fun st1 => commitItems st1 s.slot (fragItems (rollback s) w.toNat o.rel start b)
  finish s <|
    if !peerOk w.toNat count true then partAt s (0, cTranslation, w) id
    else if !wayTo s st (bitsN w.toNat 33 10) (bitsN w.toNat 29 4) then part [] (start, cLink, w)
    else
      let sc := scanEls s st .load n els
      let vl := if sc.stop.isNone && !st.trunk then min st.vl (if sc.els.length < els.length then (lo + sc.els.length) * n else st.vl) else st.vl
      match askAll s (fun p va => mkAcc .cl p va n .read o.rel false o.rel) sc.els with
      | some s1 => .wait s1
      | none =>
        match sendEls n o.rel (fillEls s sc.els) sc.els with
        | .wait s1 => .wait s1
        | .stop b f => part b f
        | .done b s1 =>
          match sc.stop with
          | some f => part b f
          | none =>
            let s2 := putMe s1 { me s1 with vl := vl }
            if st.trunk && s2.look.isNone then trunkSend n s2 ((fragItems s2 w.toNat o.rel 0 b).drop (stepOf s2 / 224)) (stepOf s2)
            else .ok (putMe s2 (addItems (me s2) s.slot (fragItems s2 w.toNat o.rel start (b.take (vl - start)))))

end Sys2Proof.Machine
end

