-- ==== Sys2Proof/Machine/Collect.lean ====
section
/-! DEFINITION. The collectives (R376 to R381). -/

namespace Sys2Proof.Machine

/-- The element size of a collective's function code (R376). -/
def collSize (fn : Nat) : Nat :=
  match fn with
  | 0 => 64
  | 4 => 8
  | 2 => 8
  | 1 => 1
  | _ => 4

/-- The kind code of a step record (R75). -/
def collKind (fn : Nat) : Nat := if fn = 1 then 1 else if fn = 2 then 2 else 0

/-- K of CLARGMAX (R376). -/
def pairKey (x : Nat) : Nat := ordKey (x % 2 ^ 32) * 2 ^ 32 + (0xFFFFFFFF - x / 2 ^ 32 % 2 ^ 32)

/-- The merge of an arriving element x into the held y (R376). -/
def collMerge (fn y x : Nat) : Nat :=
  match fn with
  | 0 => (eaMerge (eaClean (BitVec.ofNat 512 y)) (eaClean (BitVec.ofNat 512 x))).toNat
  | 4 => (y + x) % 2 ^ 64
  | 8 => fsel true y x
  | 12 => fsel false y x
  | 1 => x
  | _ => if pairKey y < pairKey x then x else y

/-- Merges bytes element by element. -/
def collBytes (fn : Nat) (held b : List Byte) : List Byte :=
  let n := collSize fn
  ((List.range (b.length / n)).map fun k => bytesOf n (collMerge fn (leAt held (n * k) n) (leAt b (n * k) n))).flatten

/-- A contribution reaches a result area and is counted into the participant's sync word as one arrival (R157, R378, R381): the step's end is
recorded when its generation advances. A granule whose held elements are poisoned stays so, but where the arriving bytes replace them (R68). -/
def collLand (s : State) (fn key sync part : Nat) (b : List Byte) : State :=
  let o1 := spadWrite s.ord key (collBytes fn (Memory.getBytes s.ord.spad key b.length) b)
  let o2 := if fn = 1 then o1 else { o1 with spadPoison := s.ord.spadPoison }
  let gen := (syncRead o2 sync).2.2.1
  let (o3, adv) := syncArrive o2 sync b.length false
  let s1 := { s with ord := o3 }
  let cl := key / 2 ^ 24
  if adv then
    traceStep s1 (cl / 32) true (srcWord (cl / 32) 1 (cl % 32)) (0xFF00 * 2 ^ 48 + sync % 2 ^ 24) ((gen + 1) % 2 ^ 32) (collKind fn) 0 part
  else s1

/-- What a collective's descriptor gives its issuer (R377). -/
structure Group1 where
  npart : Nat
  root : Nat
  own : Nat
  deriving DecidableEq, Repr

/-- How a step of a collective's issue ends. -/
inductive CollGot (α : Type) where
  | ok (v : α) (s : State)
  | fail (cause : Nat) (va : Word)
  | wait (s : State)

/-- Reads a word of the descriptor on the CL path (R376, R377), once for the syllable. -/
def descWord (s : State) (va : Word) (k : Nat) : CollGot Nat :=
  match checkElem s (me s) .load 8 va with
  | .error c => .fail c va
  | .ok p =>
    match readNow s (20000 + k) (mkAcc .cl p va 8 .read false false false) with
    | .wait s1 => .wait s1
    | .fail c => .fail c va
    | .bytes b _ s1 => .ok (numOf b) (keepRead s1 { i := 20000 + k, va := va, act := true, data := 0 } b)

/-- Whether an entry is one that R377 allows. -/
def entryOk (w count : Nat) : Bool := peerOk w count true

/-- Whether an entry names a strand's own package, die and cluster (R377). -/
def entryMine (s : State) (st : Strand) (w : Nat) : Bool :=
  !st.trunk && bitsN w 33 10 == s.fabric.pkgId && bitsN w 29 4 == st.die && bitsN w 24 5 == st.cluster

/-- The header and the issuer's own entry (R377). -/
def descHead (s : State) (fn : Nat) (d : Word) (idx count : Nat) : CollGot Group1 :=
  match descWord s d 0 with
  | .wait s1 => .wait s1
  | .fail c va => .fail c va
  | .ok w0 s1 =>
    let np := w0 % 65536
    let root := w0 / 65536 % 65536
    if w0 / 2 ^ 32 ≠ 0 || np = 0 || 1024 < np || np ≤ idx || (fn = 1 && np ≤ root) then .fail cTranslation d
    else
      match descWord s1 (d + 8) 1 with
      | .wait s2 => .wait s2
      | .fail c va => .fail c va
      | .ok w1 s2 =>
        if w1 ≠ 0 then .fail cTranslation (d + 8)
        else
          let va := d + wordOf (16 + 8 * idx)
          match descWord s2 va (2 + idx) with
          | .wait s3 => .wait s3
          | .fail c ev => .fail c ev
          | .ok e s3 =>
            if entryOk e count && entryMine s3 (me s3) e then .ok { npart := np, root := root, own := e } s3 else .fail cTranslation va

/-- The entries of the other participants, in increasing order. -/
def descOthers (d : Word) (idx count : Nat) : State → List Nat → CollGot (List (Nat × Nat))
  | s, [] => .ok [] s
  | s, p :: t =>
    if p = idx then descOthers d idx count s t
    else
      let va := d + wordOf (16 + 8 * p)
      match descWord s va (2 + p) with
      | .wait s1 => .wait s1
      | .fail c ev => .fail c ev
      | .ok e s1 =>
        if !entryOk e count then .fail cTranslation va
        else
          match descOthers d idx count s1 t with
          | .ok l s2 => .ok ((p, e) :: l) s2
          | .fail c ev => .fail c ev
          | .wait s2 => .wait s2

/-- The virtual address of the first byte of n at a scratchpad offset that lies outside SPBOUND (R377). -/
def outOfBound (st : Strand) (off n : Nat) : Option Word :=
  if spInRange st off n then none
  else some (wordOf (spadBase + if off < spBase st || spLimit st ≤ off then off else spLimit st))

/-- Bytes of a fragment: whole elements, at most 224 bytes (R378). -/
def collFrag (fn : Nat) : Nat := 224 / collSize fn * collSize fn

/-- The fragments of a contribution for the participants: participant, entry, key of its answer, offset, size. -/
def collFrags (fn count : Nat) (ps : List (Nat × Nat)) : List (Nat × Nat × Nat × Nat × Nat) :=
  let n := collFrag fn
  (ps.map fun pe => (List.range (ceilDiv count n)).map fun k =>
    (pe.1, pe.2, 1 + pe.1 * 4096 + k, n * k, min n (count - n * k))).flatten

/-- The slot under which a collective of syllable slot m keeps its answers, through waits, faults and saves. -/
def collSlot (m : Nat) : Nat := 16 + m % 4

/-- The answers of a collective: those noted under the convoy that issues. Element 0 is the note that its own contribution has merged; it holds
the generation of R381. -/
def collNotes (st : Strand) (m : Nat) : List Answer :=
  let l := st.answers.filter fun a => a.slot == collSlot m
  if l.any fun a => a.elem == 0 && a.pc == st.pc.toNat then l else []

/-- Whether a note is that of a fragment that another package turned away: it goes again on resume (R379). -/
def goesAgain (a : Answer) : Bool := a.data.isNone && a.tag == 0

/-- The SEQ with which a fragment goes again. -/
def againSeq (st : Strand) (m key : Nat) : Option Nat :=
  (st.answers.find? fun a => a.slot == collSlot m && a.elem == key && goesAgain a).bind (·.seq)

/-- Drops a collective's answers. -/
def dropNotes (st : Strand) (m : Nat) : Strand := { st with answers := st.answers.filter fun a => a.slot != collSlot m }

/-- Adds a note; that of a fragment that goes again gives way to it. -/
def addNote (s : State) (m elem tag : Nat) (d : Option Reply) : State :=
  let l := (me s).answers.filter fun a => !(a.slot == collSlot m && a.elem == elem && goesAgain a)
  putMe s { me s with answers := l ++ [{ slot := collSlot m, elem := elem, tag := tag, data := d, atomic := false, pc := (me s).pc.toNat }] }

/-- Sends one fragment (R378, R379); none where its stream has no room. Within the package it lands at once, where a record of the tenant stands
(R342). A fragment that no plane or bridge lets out is noted without a value (R33, R42). The CLDAT address carries OFF, CLUS, the participant's
index and SWOFF. A fragment that was turned away goes with its SEQ. Log 32. -/
def collSend (s : State) (m fn : Nat) (b : List Byte) (f : Nat × Nat × Nat × Nat × Nat) : Option State :=
  let (p, e, key, off, n) := f
  let data := sliceBytes b off n
  let st := me s
  if !wayTo s st (bitsN e 33 10) (bitsN e 29 4) then some (addNote s m key 0 (some .noValue))
  else if bitsN e 33 10 = s.fabric.pkgId then
    if tenantAt s st.tenant (peerKey e / 2 ^ 24) then
      some (addNote (collLand s fn (peerKey e + off) (peerSync e) p data) m key 0 (some (.bytes [])))
    else some (addNote s m key 0 (some .failed))
  else
    let (tag, f1) := newTag s.fabric
    let pa := bitsN e 29 4 * 2 ^ 52
    let addr := e % 2 ^ 29 + off + p * 2 ^ 33 + e / 2 ^ 44 * 2 ^ 44
    match sendReqAs f1 (streamTo st .cl (bitsN e 33 10) pa) kCldat
        (descBytes addr n fn (sizeCode (min 8 (collSize fn)) + 4 * st.tenant) tag ++ data) s.cur tag (wordOf (e % 2 ^ 44 + off)) 0 []
        (againSeq st m key) with
    | none => none
    | some f2 => some (addNote { s with fabric := f2 } m key tag none)

/-- Sends fragments in increasing participant index, up to the first that has no room (R379). -/
def collSends (m fn : Nat) (b : List Byte) : State → List (Nat × Nat × Nat × Nat × Nat) → State
  | s, [] => s
  | s, f :: t =>
    match collSend s m fn b f with
    | none => s
    | some s1 => collSends m fn b s1 t

/-- The issuer's own contribution (R378): merged locally and counted as one arrival; the note of it holds the generation that the collective
completes to. -/
def collOwn (s : State) (m fn idx own : Nat) (b : List Byte) : State :=
  let gen := ((syncRead s.ord (peerSync own)).2.2.1 + 1) % 2 ^ 32
  let s1 := if b.isEmpty then s else collLand s fn (peerKey own) (peerSync own) idx b
  addNote (putMe s1 (dropNotes (me s1) m)) m 0 0 (some (.bytes (bytesOf 4 gen)))

/-- The element number of the note that the step-start record is written. -/
def startElem : Nat := 2 ^ 23

/-- The step-start record becomes due, once, when every fragment has been sent; it is written when the last of them has left (R76, R381). -/
def collStart (s : State) (m fn idx own : Nat) (fs : List (Nat × Nat × Nat × Nat × Nat)) : State :=
  let st := me s
  let notes := collNotes st m
  let sent := fun (f : Nat × Nat × Nat × Nat × Nat) => notes.any fun a => a.elem == f.2.2.1 && a.data != some .noValue && !goesAgain a
  if !fs.all sent || notes.any (·.elem == startElem) then s
  else
    let gen :=
      match notes.find? fun a => a.elem == 0 with
      | some { data := some (.bytes g), .. } => numOf g
      | _ => 0
    let c : CollStep :=
      { tags := (notes.map (·.tag)).filter (· != 0), die := st.die, src := srcWord st.die 1 st.cluster,
        sync := 0xFF00 * 2 ^ 48 + peerSync own % 2 ^ 24, gen := gen, kind := collKind fn, part := idx }
    let s1 := collStarts { s with fabric := { s.fabric with starts := s.fabric.starts ++ [c] } }
    addNote s1 m startElem 0 (some (.bytes []))

/-- What stays of a fragment's note where the collective faults: one that was turned away goes again with its SEQ, a held one stands for its flit (R36),
and one that no plane or bridge let out is forgotten. -/
def keepNote (s : State) (a : Answer) : Option Answer :=
  match a.data with
  | some .failed =>
    if a.tag != 0 && heldTag s a.tag then some { a with data := none }
    else if a.seq.isSome then some { a with data := none, tag := 0 }
    else none
  | some .noValue => none
  | _ => some a

/-- The fault of a collective with undelivered fragments (R379): VSTART is the lowest participant index with one. EVAL is to be a virtual address
(R110), and the spec does not say which: a free value. Logs 39 and 104. -/
def collFault (s : State) (m : Nat) (fs : List (Nat × Nat × Nat × Nat × Nat)) : Res :=
  let notes := collNotes (me s) m
  let undone := fun key => match notes.find? fun a => a.elem == key with
    | some { data := some (.bytes _), .. } => false
    | _ => true
  let low := ((fs.filter fun f => undone f.2.2.1).map (·.1)).foldl min 1024
  let (ev, s1) := freeWord s
  partAt s1 (low, cLink, ev) fun st => { dropNotes st m with answers := (dropNotes st m).answers ++ notes.filterMap (keepNote s) }

/-- A collective that is complete: its convoy does not do it twice. -/
def collDone (s : State) (m : Nat) : State :=
  let st := noteDone (dropNotes (me s) m) s.slot noteElem []
  putMe s { st with early := st.early.filter fun e => !(e.ahead == 0 && e.slot == s.slot) }

/-- A collective in a run ahead has no effect; it stands in the stream as a read of the CL path. -/
def collPassed (s : State) : State := queueItem s (.acc (mkAcc .cl (.window (2 ^ 64)) 0 0 .read false false false))

/-- A collective once its operands have been read (R378, R379): `b` is the issuer's contribution (none: it sends nothing), `ps` the other
participants. -/
def collRun (s : State) (fn idx own : Nat) (b : List Byte) (count : Nat) (ps : List (Nat × Nat)) : Res :=
  let m := s.slot
  let fs := collFrags fn count ps
  if s.look.isSome then .ok (collPassed s)
  else
    let fresh := (collNotes (me s) m).isEmpty
    let s1 := if fresh then collOwn s m fn idx own b else s
    let missing := fs.filter fun f => !(collNotes (me s1) m).any fun a => a.elem == f.2.2.1 && !goesAgain a
    let s2 := collStart (collSends m fn b s1 missing) m fn idx own fs
    let notes := collNotes (me s2) m
    let landed := fun (f : Nat × Nat × Nat × Nat × Nat) => notes.any fun a => a.elem == f.2.2.1 && (match a.data with
      | some (.bytes _) => true
      | _ => false)
    if fs.all landed then .ok (collDone s2 m)
    else if fresh || !missing.isEmpty then .wait s2
    else if notes.any fun a => a.data == some .failed || a.data == some .noValue then collFault s m fs
    else .wait (waitHere s2)

/-- A fault of a collective before anything is sent. A run ahead passes over it: the reads that it has passed over gave no values. -/
def collStop (s : State) (cause : Nat) (va : Word) : Res := if s.look.isSome then .ok (collPassed s) else partAt s (0, cause, va) id

/-- A collective (R376 to R379). -/
def collective (s : State) (i : Instr) (o : S3) (fn : Nat) : Out State :=
  finish s <|
    let w := (getS s o.sd).toNat
    let d := getS s o.sa
    let src := getS s o.sb
    let n := collSize fn
    let count := w % 8192
    let idx := bitsN w 16 10
    if w / 2 ^ 26 ≠ 0 || bitsN w 13 3 ≠ 0 || count = 0 || 4096 < count || count % n ≠ 0 then illegal s i
    else if (doneBefore s noteElem).isSome then .ok s
    else if d.toNat % 64 ≠ 0 then collStop s cMisaligned d
    else
      match descHead s fn d idx count with
      | .wait s1 => .wait s1
      | .fail c va => collStop s c va
      | .ok g s1 =>
        let st := me s1
        let spad := match outOfBound st (bitsN g.own 0 24) count with
          | some va => some va
          | none => outOfBound st (16 * bitsN g.own 44 20) 16
        match spad with
        | some va => collStop s cSpad va
        | none =>
          if fn = 1 && g.root ≠ idx then collRun s1 fn idx g.own [] count []
          else
            match descOthers d idx count s1 (List.range g.npart) with
            | .wait s2 => .wait s2
            | .fail c va => collStop s c va
            | .ok ps s2 =>
              let els : List El := (List.range (count / n)).map fun k => { i := k, va := src + wordOf (n * k), act := true, data := 0 }
              let sc := scanFrom s2 (me s2) .load n els
              match askAll s2 (fun p va => mkAcc .cl p va n .read false false false) sc.1 with
              | some s3 => .wait s3
              | none =>
                match sc.2 with
                | some f => collStop s f.2.1 f.2.2
                | none =>
                  match sendEls n false (fillEls s2 sc.1) sc.1 with
                  | .wait s3 => .wait s3
                  | .stop _ f => collStop s f.2.1 f.2.2
                  | .done b s3 =>
                    let keep := els.foldl (fun s e => keepRead s e (sliceBytes b (n * e.i) n)) s3
                    collRun keep fn idx g.own b count ps

def execClredEa (o : S3) (s : State) : Out State := collective s (.clredEa o) o 0
def execClredI64 (o : S3) (s : State) : Out State := collective s (.clredI64 o) o 4
def execClredF32max (o : S3) (s : State) : Out State := collective s (.clredF32max o) o 8
def execClredF32min (o : S3) (s : State) : Out State := collective s (.clredF32min o) o 12
def execClbcast (o : S3) (s : State) : Out State := collective s (.clbcast o) o 1
def execClargmax (o : S3) (s : State) : Out State := collective s (.clargmax o) o 2

end Sys2Proof.Machine
end

