-- ==== Sys2Proof/Machine/Tile.lean ====
section
/-! DEFINITION. Sparse tiles: the header, its CRC, the checks, the metadata (R204 to R206). -/

namespace Sys2Proof.Machine

/-- One bit of CRC-16: polynomial 0x1021, no reflection (R204). -/
def crcBit (crc : Nat) (bit : Nat) : Nat :=
  let top := crc / 32768 % 2
  let c := crc * 2 % 65536
  if top ≠ bit then Nat.xor c 0x1021 else c

/-- The CRC over one byte, most significant bit first. -/
def crcByte (crc : Nat) (b : Byte) : Nat := (List.range 8).foldl (fun c i => crcBit c (b.toNat / 2 ^ (7 - i) % 2)) crc

/-- CRC-16, initial value 0xFFFF (R204). -/
def crc16 (bs : List Byte) : Nat := bs.foldl crcByte 0xFFFF

/-- The fields of a tile header (R204). -/
structure TileHdr where
  code : Nat
  transp : Bool
  incomplete : Bool
  n : Nat
  m : Nat
  wid : Nat
  rowb : Nat
  kgroups : Nat
  colb : Nat
  rowsDone : Nat
  paycnt : Nat
  metaoff : Nat
  zeros : Bool
  crcOk : Bool
  deriving DecidableEq, Repr

/-- Reads a header from its 64 bytes. -/
def tileHdr (b : List Byte) : TileHdr :=
  let fl := leAt b 1 1
  { code := leAt b 0 1, transp := bitsN fl 0 1 == 1, incomplete := bitsN fl 1 1 == 1, n := leAt b 2 1, m := leAt b 3 1,
    wid := leAt b 4 1, rowb := leAt b 6 2, kgroups := leAt b 8 4, colb := leAt b 12 2, rowsDone := leAt b 14 2,
    paycnt := leAt b 16 4, metaoff := leAt b 20 4,
    zeros := fl / 4 == 0 && leAt b 5 1 == 0 && (sliceBytes b 24 38).all (· == 0),
    crcOk := leAt b 62 2 == crc16 (sliceBytes b 0 62) }

/-- log2 of M. -/
def mLog (m : Nat) : Nat := Nat.log2 m

/-- COLB and MROW of a tile (R204, R205). -/
def tileColb (kgroups n wid : Nat) : Nat := ceilDiv (kgroups * n) (blkE wid)
def tileMrow (kgroups n m : Nat) : Nat := 8 * ceilDiv (kgroups * n * mLog m) 64

/-- Check 4 of R206. -/
def tileBad4 (n m wid : Nat) (transp : Bool) : Bool :=
  !(m == 2 || m == 4 || m == 8 || m == 16) || !(1 ≤ n && n ≤ m - 1) || !(1 ≤ wid && wid ≤ 8) || (transp && 4 < m)

/-- Check 5 of R206. -/
def tileBad5 (cols : Nat) (h : TileHdr) : Bool :=
  h.rowb == 0 || h.kgroups == 0 || decide (cols < h.rowb) || h.colb != tileColb h.kgroups h.n h.wid ||
    h.paycnt != h.rowb * h.colb || h.metaoff % 64 != 0 || decide (h.metaoff < 64 * (1 + h.paycnt)) ||
    (h.transp && h.rowb % h.m != 0)

/-- The first check of R206 that a header fails, 0 for none; `load`: the tile is loaded into a plane. -/
def tileCheck (cols : Nat) (load : Bool) (h : TileHdr) : Nat :=
  if h.code ≠ 0xF0 then 1
  else if !h.crcOk then 2
  else if !h.zeros then 3
  else if tileBad4 h.n h.m h.wid h.transp then 4
  else if tileBad5 cols h then 5
  else if load && h.incomplete then 6
  else 0

/-- The EVAL of a header failure (R206). -/
def tileEval (check : Nat) : Word := wordOf (0xFFFFFFFF * 2 ^ 32 + check)

/-- The indices of group g of a row from the row's metadata as a number (R205). -/
def groupIdx (h : TileHdr) (md g : Nat) : List Nat :=
  (List.range h.n).map fun j => bitsN md ((g * h.n + j) * mLog h.m) (mLog h.m)

/-- Whether a list rises strictly. -/
def rising : List Nat → Bool
  | a :: b :: t => decide (a < b) && rising (b :: t)
  | _ => true

/-- The indices of every group of a row. -/
def rowIdx (h : TileHdr) (md : Nat) : List (List Nat) := (List.range h.kgroups).map (groupIdx h md)

/-- The first group whose indices do not rise strictly: row and group. -/
def badOrder (rows : List (List (List Nat))) : Option (Nat × Nat) :=
  (rows.zipIdx.filterMap fun (gs, r) => (findIdx? (fun g => !rising g) gs).map fun g => (r, g)).head?

/-- Whether each dense position of M rows and one group is kept by exactly N rows (R206). -/
def squareOk (h : TileHdr) (rows : List (List (List Nat))) (r0 g : Nat) : Bool :=
  (List.range h.m).all fun p => ((List.range h.m).filter fun i => hasN ((rows.getD (r0 + i) []).getD g []) p).length == h.n

/-- The first square that fails: row r0 and group. -/
def badSquare (h : TileHdr) (rows : List (List (List Nat))) : Option (Nat × Nat) :=
  if !h.transp then none
  else
    (((List.range (h.rowb / h.m)).map fun k =>
      (List.range h.kgroups).filterMap fun g => if squareOk h rows (h.m * k) g then none else some (h.m * k, g)).flatten).head?

/-- The first metadata failure of a tile (R206). -/
def badMeta (h : TileHdr) (rows : List (List (List Nat))) : Option (Nat × Nat) :=
  match badOrder rows with
  | some x => some x
  | none => badSquare h rows

/-- The metadata of row r of a tile's bytes, as a number. -/
def rowMeta (h : TileHdr) (bytes : List Byte) (r : Nat) : Nat :=
  let mr := tileMrow h.kgroups h.n h.m
  leAt bytes (h.metaoff + r * mr) mr

/-- The dense positions that a row keeps, in order (R207). -/
def keptPositions (h : TileHdr) (gs : List (List Nat)) : List Nat := (gs.zipIdx.map fun (g, k) => g.map fun j => k * h.m + j).flatten

/-- The bytes of a header, with its CRC (R204). -/
def hdrBytes (transp incomplete : Bool) (n m wid rowb kgroups rowsDone : Nat) : List Byte :=
  let colb := tileColb kgroups n wid
  let pay := rowb * colb
  let b :=
    bytesOf 1 0xF0 ++ bytesOf 1 (boolN transp + 2 * boolN incomplete) ++ bytesOf 1 n ++ bytesOf 1 m ++ bytesOf 1 wid ++ bytesOf 1 0 ++
      bytesOf 2 rowb ++ bytesOf 4 kgroups ++ bytesOf 2 colb ++ bytesOf 2 rowsDone ++ bytesOf 4 pay ++ bytesOf 4 (64 * (1 + pay)) ++
      List.replicate 38 0
  b ++ bytesOf 2 (crc16 b)

end Sys2Proof.Machine
end

