-- ==== Sys2Proof/Machine/Trans.lean ====
section
/-! DEFINITION. The correctly rounded transcendental results (R307, R218, R246): exp, ln, sine and cosine. Each is an enclosure
in fixed point, widened by a bound on its error, taken at a higher precision until both ends round alike. -/

namespace Sys2Proof.Machine

/-- An enclosure's half width in units of the fixed point: it covers every truncation of the series below. -/
def encErr : Int := 2 ^ 16

/-- Σ term / n for the exponential series in fixed point p. -/
def expSeries (p : Nat) (r : Int) : Nat → Nat → Int → Int → Int
  | 0, _, _, acc => acc
  | fuel + 1, n, term, acc =>
    let t := term * r / (2 ^ p * (n + 1))
    expSeries p r fuel (n + 1) t (acc + t)

/-- Σ z^(2n+1) / (2n+1) in fixed point p. -/
def atanhSeries (p : Nat) (zz : Int) : Nat → Nat → Int → Int → Int
  | 0, _, _, acc => acc
  | fuel + 1, n, pow, acc => atanhSeries p zz fuel (n + 2) (pow * zz / 2 ^ p) (acc + pow / n)

/-- atanh of z = a / b in fixed point p, for |z| ≤ 1/3. -/
def atanhFix (p : Nat) (a b : Int) : Int :=
  let z := a * 2 ^ p / b
  atanhSeries p (z * z / 2 ^ p) (p / 3 + 4) 1 z 0

/-- ln 2 in fixed point p. -/
def ln2Fix (p : Nat) : Int := 2 * atanhFix p 1 3

/-- ln(m × 2^e) in fixed point p, m nonzero. -/
def lnFix (p m : Nat) (e : Int) : Int :=
  let b := bitLen m
  let big := 3 * 2 ^ b ≤ 4 * m
  let one : Int := if big then 2 ^ b else 2 ^ (b - 1)
  let k : Int := e + (if big then (b : Int) else (b : Int) - 1)
  k * ln2Fix p + 2 * atanhFix p ((m : Int) - one) ((m : Int) + one)

/-- Rounds a nonzero value enclosed by lo and hi, in units of 2^q, when both ends round alike. -/
def rndEnc (f : Fmt) (md : Rm) (lo hi : Int) (q : Int) : Option (Nat × FFlags) :=
  if 0 < lo then
    let a := rndMag f md false lo.natAbs q true
    let b := rndMag f md false hi.natAbs q true
    if a = b then some a else none
  else if hi < 0 then
    let a := rndMag f md true hi.natAbs q true
    let b := rndMag f md true lo.natAbs q true
    if a = b then some a else none
  else none

/-- Tries precisions in turn. -/
def tryPrec (g : Nat → Option (Nat × FFlags)) : List Nat → Nat × FFlags
  | [] => (0, 0)
  | p :: t =>
    match g p with
    | some r => r
    | none => tryPrec g t

/-- The precisions of the enclosures. -/
def encPrecs : List Nat := [112, 192, 384, 768, 1536]

/-- e^x for a finite nonzero x = ±m × 2^e (R307). -/
def expFin (f : Fmt) (md : Rm) (neg : Bool) (m : Nat) (e : Int) : Nat × FFlags :=
  if 7 ≤ e + bitLen m - 1 then
    if neg then rndMag f md false 1 (-300) true else rndMag f md false 1 300 true
  else if e + bitLen m < -64 then
    if neg then rndMag f md false (2 ^ 128 - 1) (-128) true else rndMag f md false (2 ^ 128) (-128) true
  else
    tryPrec (fun p =>
      let xm : Int := if neg then -(m : Int) else m
      let x := if 0 ≤ e + p then xm * 2 ^ (e + p).toNat else xm / 2 ^ (-(e + p)).toNat
      let l2 := ln2Fix p
      let k := (2 * x + l2) / (2 * l2)
      let r := x - k * l2
      let one : Int := 2 ^ p
      let v := expSeries p r p 0 one one
      rndEnc f md (v - encErr) (v + encErr) (k - p)) encPrecs

/-- VFEXP (R307, R308). -/
def fpExp (f : Fmt) (md : Rm) (x : Fp) : Nat × FFlags :=
  match x with
  | .nan s => (fmtNaN f, raiseIf s flNV)
  | .inf s => (if s then 0 else fmtInf f, 0)
  | .fin s m e => if m = 0 then rnd f md (.fin false 1 0) else expFin f md s m e

/-- VFLOG (R307, R308). -/
def fpLog (f : Fmt) (md : Rm) (x : Fp) : Nat × FFlags :=
  match x with
  | .nan s => (fmtNaN f, raiseIf s flNV)
  | .inf s => if s then (fmtNaN f, flNV) else (fmtInf f, 0)
  | .fin s m e =>
    if m = 0 then (fmtSign f + fmtInf f, flDZ)
    else if s then (fmtNaN f, flNV)
    else if cmpFp (.fin false m e) (.fin false 1 0) = .eq then (0, 0)
    else
      tryPrec (fun p =>
        let v := lnFix p m e
        rndEnc f md (v - encErr) (v + encErr) (-p)) encPrecs

/-- One step of the mixing rounds of NOISE (R218). -/
def noiseRound (xy : Nat × Nat) : Nat × Nat :=
  let (x, y) := xy
  let y' := (y + (rotl64 (wordOf x) 17).toNat) % 2 ^ 64
  ((Nat.xor x y' * 0xD1342543DE82EF95) % 2 ^ 64, y')

/-- NOISE (R218): the f32 pattern. -/
def noise (k0 k1 c : Word) (t : Nat) : Nat :=
  let s0 := ((c ^^^ k0).toNat, (wordOf t ^^^ k1).toNat)
  let s4 := noiseRound (noiseRound (noiseRound (noiseRound s0)))
  let w := s4.1 / 2 ^ 40
  (tryPrec (fun p =>
    let l := -lnFix p (2 * w + 1) (-25)
    let lo := (l - encErr).toNat
    let hi := (l + encErr).toNat
    if lo = 0 then none
    else
      rndEnc f32 .rne (-lnFix p hi (-p) - encErr) (-lnFix p lo (-p) + encErr) (-p)) encPrecs).1

/-- π in fixed point p, by Machin's formula. -/
def atanInv (p : Nat) (n : Int) : Nat → Nat → Int → Int → Int
  | 0, _, _, acc => acc
  | fuel + 1, k, pow, acc =>
    let t := pow / (2 * k + 1)
    atanInv p n fuel (k + 1) (pow / (n * n)) (if k % 2 = 0 then acc + t else acc - t)

def piFix (p : Nat) : Int :=
  4 * (4 * atanInv p 5 (p / 4 + 4) 0 (2 ^ p / 5) 0 - atanInv p 239 (p / 4 + 4) 0 (2 ^ p / 239) 0)

/-- The alternating series from term n on: `start` is 1 (cosine, n = 0) or φ (sine, n = 1). -/
def trigSeries (p : Nat) (xx : Int) : Nat → Nat → Int → Int → Int
  | 0, _, _, acc => acc
  | fuel + 1, n, term, acc =>
    let t := -(term * xx / 2 ^ p) / ((n + 1) * (n + 2))
    trigSeries p xx fuel (n + 2) t (acc + t)

/-- cos (or sin) of (π/2) × f / 2^30, 0 < f < 2^30, rounded to f32 under RNE with a sign. -/
def trigQuarter (sine neg : Bool) (f : Nat) : Nat :=
  (tryPrec (fun p =>
    let x := piFix p * f / 2 ^ 31
    let xx := x * x / 2 ^ p
    let one : Int := 2 ^ p
    let v := if sine then trigSeries p xx (p / 4 + 8) 1 x x else trigSeries p xx (p / 4 + 8) 0 one one
    let w := if neg then -v else v
    rndEnc f32 .rne (w - encErr) (w + encErr) (-p)) encPrecs).1

/-- The coefficients c and s of R246 for an angle a in 2^-32 turns, as f32 patterns. -/
def rotCoef (a : Nat) : Nat × Nat :=
  let q := a / 2 ^ 30 % 4
  let f := a % 2 ^ 30
  let one := 0x3F800000
  let mone := 0xBF800000
  if f = 0 then
    match q with
    | 0 => (one, 0)
    | 1 => (0, one)
    | 2 => (mone, 0)
    | _ => (0, mone)
  else
    match q with
    | 0 => (trigQuarter false false f, trigQuarter true false f)
    | 1 => (trigQuarter true true f, trigQuarter false false f)
    | 2 => (trigQuarter false true f, trigQuarter true true f)
    | _ => (trigQuarter true false f, trigQuarter false true f)

end Sys2Proof.Machine
end

