-- ==== Sys2Proof/Machine/VecInt.lean ====
section
/-! DEFINITION. Configuration (R305), vector integer arithmetic (R306), compares, select and predicates (R310 to R312). -/

namespace Sys2Proof.Machine

/-- VCFG records the pending budget (R122, R305). -/
def execVcfg (o : VcfgOps) (s : State) : Out State :=
  finish s <| vecOnly s (.vcfg o) fun _ =>
    if o.ncode = 7 then illegal s (.vcfg o)
    else .ok (putMe s { me s with pending := some ⟨o.ncode, o.wcode⟩ })

/-- A budget taking effect (R122, R123, R115): a new width empties and dirties every register; more registers read 0. MAXVL is that of
the budget, the share class and the retired lane groups. -/
def applyBudget (s : State) (st : Strand) : Strand :=
  let mx := fun b => maxvlOf b st.rec_.share (lanesRetired s st)
  match st.pending with
  | none => { st with maxvl := mx st.budget }
  | some b =>
    let vr :=
      if b.wcode ≠ st.budget.wcode then List.replicate 56 []
      else
        let n := min (budgetRegs b) (budgetRegs st.budget)
        st.vregs.zipIdx.map fun (r, k) => if k < n then r else []
    let dr := if b.wcode ≠ st.budget.wcode then BitVec.ofNat 56 (2 ^ 56 - 1) else st.dirty
    { st with budget := b, pending := none, vregs := vr, dirty := dr, maxvl := mx b }

/-- VSETL (R122, R305). -/
def execVsetl (o : S2) (s : State) : Out State :=
  finish s <| vecOnly s (.vsetl o) fun _ =>
    let st := applyBudget s (me s)
    let vl := min (getS s o.sa).toNat st.maxvl
    .ok (putMe s (swrite { st with vl := vl, vhwm := max st.vhwm vl } o.sd.toNat (wordOf vl)))

/-- VGETL (R305). -/
def execVgetl (o : S1d) (s : State) : Out State :=
  finish s <| vecOnly s (.vgetl o) fun _ => .ok (setS s o.sd (wordOf (me s).vl))

/-- VSETT (R259, R305). -/
def execVsett (o : VsettOps) (s : State) : Out State :=
  finish s <| vecOnly s (.vsett o) fun _ =>
    if 10 < o.ty.toNat then illegal s (.vsett o)
    else
      let t : TypeSlot := ⟨o.ty, o.mode⟩
      .ok (putMe s (if o.slot then { me s with vt1 := t } else { me s with vt0 := t }))

/-- An element as an integer of its type. -/
def elInt (c : Nat) (x : Nat) : Int := if tySigned c then signedN (tyWidth c) x else (x : Int)

/-- The range of an integer type. -/
def tyLo (c : Nat) : Int := if tySigned c then -(2 : Int) ^ (tyWidth c - 1) else 0
def tyHi (c : Nat) : Int := if tySigned c then (2 : Int) ^ (tyWidth c - 1) - 1 else (2 : Int) ^ tyWidth c - 1

/-- An element operation from a function on the two source elements. -/
def op2 (f : Nat → Nat → Nat → Nat) (c : Nat) : ElOp := fun _ as_ _ => (f c (as_.getD 0 0) (as_.getD 1 0), 0)

/-- The results of R306: type code, a, b. -/
def opAdd (c a b : Nat) : Nat := (a + b) % 2 ^ tyWidth c
def opSub (c a b : Nat) : Nat := (a + 2 ^ tyWidth c - b) % 2 ^ tyWidth c
def opMul (c a b : Nat) : Nat := a * b % 2 ^ tyWidth c
def opMulh (c a b : Nat) : Nat := wrapN (tyWidth c) (elInt c a * elInt c b / 2 ^ tyWidth c)
def opMin (c a b : Nat) : Nat := if elInt c b < elInt c a then b else a
def opMax (c a b : Nat) : Nat := if elInt c a < elInt c b then b else a
def opAbsd (c a b : Nat) : Nat := wrapN (tyWidth c) ((elInt c a - elInt c b).natAbs : Int)
def opSadd (c a b : Nat) : Nat := wrapN (tyWidth c) (clampInt (tyLo c) (tyHi c) (elInt c a + elInt c b))
def opSsub (c a b : Nat) : Nat := wrapN (tyWidth c) (clampInt (tyLo c) (tyHi c) (elInt c a - elInt c b))
def opAnd (_ a b : Nat) : Nat := Nat.land a b
def opOr (_ a b : Nat) : Nat := Nat.lor a b
def opXor (_ a b : Nat) : Nat := Nat.xor a b
def opSll (c a b : Nat) : Nat := a * 2 ^ (b % tyWidth c) % 2 ^ tyWidth c
def opSrl (c a b : Nat) : Nat := a / 2 ^ (b % tyWidth c)
def opSra (c a b : Nat) : Nat := wrapN (tyWidth c) (signedN (tyWidth c) a / 2 ^ (b % tyWidth c))

def execVadd (o : V3) (s : State) : Out State := vv s (.vadd o) o tyInt (op2 opAdd)
def execVsub (o : V3) (s : State) : Out State := vv s (.vsub o) o tyInt (op2 opSub)
def execVmul (o : V3) (s : State) : Out State := vv s (.vmul o) o tyInt (op2 opMul)
def execVmulh (o : V3) (s : State) : Out State := vv s (.vmulh o) o tyInt (op2 opMulh)
def execVmin (o : V3) (s : State) : Out State := vv s (.vmin o) o tyInt (op2 opMin)
def execVmax (o : V3) (s : State) : Out State := vv s (.vmax o) o tyInt (op2 opMax)
def execVabsd (o : V3) (s : State) : Out State := vv s (.vabsd o) o tyInt (op2 opAbsd)
def execVsadd (o : V3) (s : State) : Out State := vv s (.vsadd o) o tyInt (op2 opSadd)
def execVand (o : V3) (s : State) : Out State := vv s (.vand o) o tyInt (op2 opAnd)
def execVor (o : V3) (s : State) : Out State := vv s (.vor o) o tyInt (op2 opOr)
def execVxor (o : V3) (s : State) : Out State := vv s (.vxor o) o tyInt (op2 opXor)
def execVssub (o : V3) (s : State) : Out State := vv s (.vssub o) o tyInt (op2 opSsub)
def execVsll (o : V3) (s : State) : Out State := vv s (.vsll o) o tyInt (op2 opSll)
def execVsrl (o : V3) (s : State) : Out State := vv s (.vsrl o) o tyInt (op2 opSrl)
def execVsra (o : V3) (s : State) : Out State := vv s (.vsra o) o tyInt (op2 opSra)

def execVaddVs (o : Vs3) (s : State) : Out State := vs s (.vaddVs o) o tyInt (op2 opAdd)
def execVsubVs (o : Vs3) (s : State) : Out State := vs s (.vsubVs o) o tyInt (op2 opSub)
def execVmulVs (o : Vs3) (s : State) : Out State := vs s (.vmulVs o) o tyInt (op2 opMul)
def execVmulhVs (o : Vs3) (s : State) : Out State := vs s (.vmulhVs o) o tyInt (op2 opMulh)
def execVminVs (o : Vs3) (s : State) : Out State := vs s (.vminVs o) o tyInt (op2 opMin)
def execVmaxVs (o : Vs3) (s : State) : Out State := vs s (.vmaxVs o) o tyInt (op2 opMax)
def execVabsdVs (o : Vs3) (s : State) : Out State := vs s (.vabsdVs o) o tyInt (op2 opAbsd)
def execVsaddVs (o : Vs3) (s : State) : Out State := vs s (.vsaddVs o) o tyInt (op2 opSadd)
def execVandVs (o : Vs3) (s : State) : Out State := vs s (.vandVs o) o tyInt (op2 opAnd)
def execVorVs (o : Vs3) (s : State) : Out State := vs s (.vorVs o) o tyInt (op2 opOr)
def execVxorVs (o : Vs3) (s : State) : Out State := vs s (.vxorVs o) o tyInt (op2 opXor)
def execVssubVs (o : Vs3) (s : State) : Out State := vs s (.vssubVs o) o tyInt (op2 opSsub)
def execVsllVs (o : Vs3) (s : State) : Out State := vs s (.vsllVs o) o tyInt (op2 opSll)
def execVsrlVs (o : Vs3) (s : State) : Out State := vs s (.vsrlVs o) o tyInt (op2 opSrl)
def execVsraVs (o : Vs3) (s : State) : Out State := vs s (.vsraVs o) o tyInt (op2 opSra)

/-- VMV copies bits of any type (R306). -/
def execVmv (o : V2) (s : State) : Out State := vu s (.vmv o) o tyAny fun _ _ as_ _ => (as_.getD 0 0, 0)

/-- VMV, VS form: every active element receives the VS operand (R272). -/
def execVmvVs (o : Vs2) (s : State) : Out State :=
  finish s <| vecOnly s (.vmvVs o) fun _ => withTy s (.vmvVs o) o.ts tyAny fun c =>
    velem s (.vmvVs o) [] o.vd.toNat (tyWidth c) (maskOf (me s) o.m) fun _ _ _ => (vsOperand s o.ss (tyWidth c), 0)

/-- VCLZ (R306). -/
def execVclz (o : V2) (s : State) : Out State := vu s (.vclz o) o tyInt fun c _ as_ _ => (clzN (tyWidth c) (as_.getD 0 0), 0)

/-- Active elements below an index. -/
def activeBelow (act : List Bool) (i : Nat) : Nat := ((act.take i).filter (· == true)).length

/-- VIOTA (R306). -/
def execViota (o : V1) (s : State) : Out State :=
  finish s <| vecOnly s (.viota o) fun _ => withTy s (.viota o) o.ts tyInt fun c =>
    let act := maskOf (me s) o.m
    velem s (.viota o) [] o.vd.toNat (tyWidth c) act fun k _ _ => (activeBelow act k % 2 ^ tyWidth c, 0)

/-- The relations of VCMP: 0 EQ, 1 NE, 2 LT, 3 LE, 4 GT, 5 GE (R270). -/
def intRel (c : Nat) (a b : Int) : Bool :=
  match c with
  | 0 => decide (a = b)
  | 1 => decide (a ≠ b)
  | 2 => decide (a < b)
  | 3 => decide (a ≤ b)
  | 4 => decide (b < a)
  | _ => decide (b ≤ a)

/-- A compare into a predicate (R304, R310): active bits of pd below VL. -/
def vcompare (s : State) (i : Instr) (srcs : List (Nat × Nat)) (pd : BitVec 3) (act : List Bool) (f : List Nat → Bool × FFlags) :
    Res :=
  let st := me s
  if !(srcs.all fun x => fieldFits st x.1 x.2) then illegal s i
  else
    match vsrcs st srcs with
    | none => illegal s i
    | some (as_, st1) =>
      let rs := (act.zipIdx.filter (·.1)).map fun (_, k) => (k, f (rowAt as_ k))
      let st2 := predSet st1 pd.toNat (rs.map fun r => (r.1, r.2.1))
      .ok (putMe s { st2 with fflags := st2.fflags ||| orFlags (rs.map fun r => r.2.2) })

/-- The integer relation on two elements. -/
def cmpInt (cond c : Nat) (as_ : List Nat) : Bool × FFlags := (intRel cond (elInt c (as_.getD 0 0)) (elInt c (as_.getD 1 0)), 0)

/-- The FP relation on two elements (R310). -/
def cmpFpEl (cond c : Nat) (as_ : List Nat) : Bool × FFlags :=
  vfcmp cond (fpOf (tyFmt c) (as_.getD 0 0)) (fpOf (tyFmt c) (as_.getD 1 0))

def execVcmp (o : VcmpOps) (s : State) : Out State :=
  finish s <| vecOnly s (.vcmp o) fun _ => withTy s (.vcmp o) o.ts tyInt fun c =>
    vcompare s (.vcmp o) [(o.va.toNat, tyWidth c), (o.vb.toNat, tyWidth c)] o.pd (maskOf (me s) o.m) (cmpInt o.cond.toNat c)

def execVfcmp (o : VcmpOps) (s : State) : Out State :=
  finish s <| vecOnly s (.vfcmp o) fun _ => withTy s (.vfcmp o) o.ts tyFp fun c =>
    vcompare s (.vfcmp o) [(o.va.toNat, tyWidth c), (o.vb.toNat, tyWidth c)] o.pd (maskOf (me s) o.m) (cmpFpEl o.cond.toNat c)

def execVcmpVs (o : VscmpOps) (s : State) : Out State :=
  finish s <| vecOnly s (.vcmpVs o) fun _ => withTy s (.vcmpVs o) o.ts tyInt fun c =>
    vcompare s (.vcmpVs o) [(o.va.toNat, tyWidth c)] o.pd (maskOf (me s) o.m)
      fun as_ => cmpInt o.cond.toNat c (as_ ++ [vsOperand s o.ss (tyWidth c)])

def execVfcmpVs (o : VscmpOps) (s : State) : Out State :=
  finish s <| vecOnly s (.vfcmpVs o) fun _ => withTy s (.vfcmpVs o) o.ts tyFp fun c =>
    vcompare s (.vfcmpVs o) [(o.va.toNat, tyWidth c)] o.pd (maskOf (me s) o.m)
      fun as_ => cmpFpEl o.cond.toNat c (as_ ++ [vsOperand s o.ss (tyWidth c)])

/-- VSEL: m is the selector; every element below VL is written (R311). -/
def execVsel (o : V3) (s : State) : Out State :=
  finish s <| vecOnly s (.vsel o) fun _ => withTy s (.vsel o) o.ts tyAny fun c =>
    let st := me s
    let w := tyWidth c
    velem s (.vsel o) [(o.va.toNat, w), (o.vb.toNat, w)] o.vd.toNat w (List.replicate st.vl true)
      fun k as_ _ => (if predBit st o.m.toNat k then as_.getD 0 0 else as_.getD 1 0, 0)

/-- Predicate logic on bits 0 to VL − 1 (R312). -/
def predLogic (s : State) (i : Instr) (pd : BitVec 3) (f : Nat → Bool) : Out State :=
  finish s <| vecOnly s i fun _ =>
    .ok (putMe s (predSet (me s) pd.toNat ((List.range (me s).vl).map fun k => (k, f k))))

def execPand (o : P3) (s : State) : Out State :=
  predLogic s (.pand o) o.pd fun k => predBit (me s) o.pa.toNat k && predBit (me s) o.pb.toNat k
def execPor (o : P3) (s : State) : Out State :=
  predLogic s (.por o) o.pd fun k => predBit (me s) o.pa.toNat k || predBit (me s) o.pb.toNat k
def execPxor (o : P3) (s : State) : Out State :=
  predLogic s (.pxor o) o.pd fun k => predBit (me s) o.pa.toNat k != predBit (me s) o.pb.toNat k
def execPnot (o : P2) (s : State) : Out State := predLogic s (.pnot o) o.pd fun k => !predBit (me s) o.pa.toNat k

/-- PPOPC (R312). -/
def execPpopc (o : Ps) (s : State) : Out State :=
  finish s <| vecOnly s (.ppopc o) fun _ =>
    .ok (setS s o.sd (wordOf ((List.range (me s).vl).filter (predBit (me s) o.pa.toNat)).length))

/-- PFIRST (R312). -/
def execPfirst (o : Ps) (s : State) : Out State :=
  finish s <| vecOnly s (.pfirst o) fun _ =>
    .ok (setS s o.sd (match (List.range (me s).vl).find? (predBit (me s) o.pa.toNat) with
      | some k => wordOf k
      | none => BitVec.ofNat 64 (2 ^ 64 - 1)))

end Sys2Proof.Machine
end

