-- ==== Sys2Proof/Machine/VecFp.lean ====
section
/-! DEFINITION. Vector floating point (R307 to R309), permutes and slides (R313), reductions and scans (R314 to R316), exact
accumulator operations (R317) and block formats (R318 to R320). -/

namespace Sys2Proof.Machine

/-- An FP element operation on two elements, in the slot's format and mode. -/
def fp2 (s : State) (ts : Bool) (f : Fmt → Rm → Fp → Fp → Nat × FFlags) (c : Nat) : ElOp := fun _ as_ _ =>
  f (tyFmt c) (slotMode (me s) ts) (fpOf (tyFmt c) (as_.getD 0 0)) (fpOf (tyFmt c) (as_.getD 1 0))

/-- An FP element operation on one element. -/
def fp1 (s : State) (ts : Bool) (f : Fmt → Rm → Fp → Nat × FFlags) (c : Nat) : ElOp := fun _ as_ _ =>
  f (tyFmt c) (slotMode (me s) ts) (fpOf (tyFmt c) (as_.getD 0 0))

/-- VFFMA: a × b + old vd (R307). -/
def fp3 (s : State) (ts : Bool) (c : Nat) : ElOp := fun _ as_ old =>
  fpFma (tyFmt c) (slotMode (me s) ts) (fpOf (tyFmt c) (as_.getD 0 0)) (fpOf (tyFmt c) (as_.getD 1 0)) (fpOf (tyFmt c) old)

/-- VFSCL: a × 2^n, n an i32 (R307). -/
def fpScl (s : State) (ts : Bool) (c : Nat) : ElOp := fun _ as_ _ =>
  fpScale (tyFmt c) (slotMode (me s) ts) (fpOf (tyFmt c) (as_.getD 0 0)) (signedN 32 (as_.getD 1 0))

/-- 1 / a (R307, R308). -/
def fpRcp (f : Fmt) (md : Rm) (a : Fp) : Nat × FFlags := fpDiv f md (.fin false 1 0) a

def execVfadd (o : V3) (s : State) : Out State := vv s (.vfadd o) o tyFp (fp2 s o.ts fpAdd)
def execVfsub (o : V3) (s : State) : Out State := vv s (.vfsub o) o tyFp (fp2 s o.ts fpSub)
def execVfmul (o : V3) (s : State) : Out State := vv s (.vfmul o) o tyFp (fp2 s o.ts fpMul)
def execVffma (o : V3) (s : State) : Out State :=
  if 56 ≤ o.vd.toNat then finish s (vecOnly s (.vffma o) fun _ => illegal s (.vffma o)) else vv s (.vffma o) o tyFp (fp3 s o.ts)
def execVfmin (o : V3) (s : State) : Out State := vv s (.vfmin o) o tyFp (fp2 s o.ts fun f _ a b => fpMinMax f false a b)
def execVfmax (o : V3) (s : State) : Out State := vv s (.vfmax o) o tyFp (fp2 s o.ts fun f _ a b => fpMinMax f true a b)
def execVfdiv (o : V3) (s : State) : Out State := vv s (.vfdiv o) o tyFp (fp2 s o.ts fpDiv)

/-- VFSCL reads vb at 32 bits (R307). -/
def execVfscl (o : V3) (s : State) : Out State :=
  finish s <| vecOnly s (.vfscl o) fun _ => withTy s (.vfscl o) o.ts tyFp fun c =>
    velem s (.vfscl o) [(o.va.toNat, tyWidth c), (o.vb.toNat, 32)] o.vd.toNat (tyWidth c) (maskOf (me s) o.m) (fpScl s o.ts c)

def execVfsqrt (o : V2) (s : State) : Out State := vu s (.vfsqrt o) o tyFp (fp1 s o.ts fpSqrt)
def execVfexp (o : V2) (s : State) : Out State := vu s (.vfexp o) o tyFp (fp1 s o.ts fpExp)
def execVflog (o : V2) (s : State) : Out State := vu s (.vflog o) o tyFp (fp1 s o.ts fpLog)
def execVfrcp (o : V2) (s : State) : Out State := vu s (.vfrcp o) o tyFp (fp1 s o.ts fpRcp)

def execVfaddVs (o : Vs3) (s : State) : Out State := vs s (.vfaddVs o) o tyFp (fp2 s o.ts fpAdd)
def execVfsubVs (o : Vs3) (s : State) : Out State := vs s (.vfsubVs o) o tyFp (fp2 s o.ts fpSub)
def execVfmulVs (o : Vs3) (s : State) : Out State := vs s (.vfmulVs o) o tyFp (fp2 s o.ts fpMul)
def execVffmaVs (o : Vs3) (s : State) : Out State :=
  if 56 ≤ o.vd.toNat then finish s (vecOnly s (.vffmaVs o) fun _ => illegal s (.vffmaVs o))
  else vs s (.vffmaVs o) o tyFp (fp3 s o.ts)
def execVfminVs (o : Vs3) (s : State) : Out State := vs s (.vfminVs o) o tyFp (fp2 s o.ts fun f _ a b => fpMinMax f false a b)
def execVfmaxVs (o : Vs3) (s : State) : Out State := vs s (.vfmaxVs o) o tyFp (fp2 s o.ts fun f _ a b => fpMinMax f true a b)
def execVfdivVs (o : Vs3) (s : State) : Out State := vs s (.vfdivVs o) o tyFp (fp2 s o.ts fpDiv)

/-- VFSCL, VS form: the exponent is bits 31:0 of the operand (R303). -/
def execVfsclVs (o : Vs3) (s : State) : Out State :=
  finish s <| vecOnly s (.vfsclVs o) fun _ => withTy s (.vfsclVs o) o.ts tyFp fun c =>
    velem s (.vfsclVs o) [(o.va.toNat, tyWidth c)] o.vd.toNat (tyWidth c) (maskOf (me s) o.m)
      fun k as_ old => fpScl s o.ts c k (as_ ++ [vsOperand s o.ss 32]) old

/-- The exact value of an element (R314). -/
def elVal (c x : Nat) : Fp := if tyInt c then fpOfInt (elInt c x) else fpOf (tyFmt c) x

/-- One conversion of R309: from type a to type b. Equal types copy the value; a NaN result is the canonical one (R181, R308). -/
def cvtEl (a b : Nat) (md : Rm) (x : Nat) : ElRes :=
  if a = b && (tyInt a || !(fpOf (tyFmt a) x).isNaN) then (x, 0)
  else if tyInt a && tyInt b then (wrapN (tyWidth b) (clampInt (tyLo b) (tyHi b) (elInt a x)), 0)
  else if tyInt b then
    let (i, fl) := fpToInt md (tyLo b) (tyHi b) (fpOf (tyFmt a) x)
    (wrapN (tyWidth b) i, fl)
  else if tyInt a then rnd (tyFmt b) md (fpOfInt (elInt a x))
  else fpConv (tyFmt b) md (fpOf (tyFmt a) x)

/-- VFCVT (R309). -/
def execVfcvt (o : V2) (s : State) : Out State :=
  finish s <| vecOnly s (.vfcvt o) fun _ => withTy s (.vfcvt o) o.ts tyAny fun b => withTy s (.vfcvt o) (!o.ts) tyAny fun a =>
    velem s (.vfcvt o) [(o.va.toNat, tyWidth a)] o.vd.toNat (tyWidth b) (maskOf (me s) o.m)
      fun _ as_ _ => cvtEl a b (slotMode (me s) o.ts) (as_.getD 0 0)

/-! Permutes and slides (R313): the source is read whole before any element is written. -/

/-- A permute: `pick` gives element i from the whole source, or keeps the old element. -/
def vperm (s : State) (i : Instr) (srcs : List (Nat × Nat)) (vd w : Nat) (act : List Bool) (pick : List (List Nat) → Nat → Nat) :
    Res :=
  let st := me s
  if !(srcs.all fun x => fieldFits st x.1 x.2) || !fieldFits st vd w then illegal s i
  else
    match vsrcs st srcs with
    | none => illegal s i
    | some (as_, st1) => .ok (putMe s (vdst st1 vd w (act.zipIdx.map fun (a, k) => (if a then pick as_ k else 0, a))))

def execVperm (o : V3) (s : State) : Out State :=
  finish s <| vecOnly s (.vperm o) fun _ => withTy s (.vperm o) o.ts tyAny fun c =>
    let w := tyWidth c
    vperm s (.vperm o) [(o.va.toNat, w), (o.vb.toNat, w)] o.vd.toNat w (maskOf (me s) o.m)
      fun as_ k =>
        let j := (as_.getD 1 []).getD k 0
        if (me s).vl ≤ j then 0 else (as_.getD 0 []).getD j 0

/-- VCOMPRESS: the mask selects; the first k positions are written, k the number selected. -/
def execVcompress (o : V2) (s : State) : Out State :=
  finish s <| vecOnly s (.vcompress o) fun _ => withTy s (.vcompress o) o.ts tyAny fun c =>
    let w := tyWidth c
    let sel := maskOf (me s) o.m
    let n := (sel.filter (· == true)).length
    vperm s (.vcompress o) [(o.va.toNat, w)] o.vd.toNat w ((List.range (me s).vl).map fun k => decide (k < n))
      fun as_ k => ((((as_.getD 0 []).zip sel).filter (·.2)).map (·.1)).getD k 0

def execVexpand (o : V2) (s : State) : Out State :=
  finish s <| vecOnly s (.vexpand o) fun _ => withTy s (.vexpand o) o.ts tyAny fun c =>
    let w := tyWidth c
    let act := maskOf (me s) o.m
    vperm s (.vexpand o) [(o.va.toNat, w)] o.vd.toNat w act fun as_ k => (as_.getD 0 []).getD (activeBelow act k) 0

/-- VSLIDEUP: elements below the distance keep their values. -/
def execVslideup (o : Vs3) (s : State) : Out State :=
  finish s <| vecOnly s (.vslideup o) fun _ => withTy s (.vslideup o) o.ts tyAny fun c =>
    let w := tyWidth c
    let d := (getS s o.ss).toNat
    vperm s (.vslideup o) [(o.va.toNat, w)] o.vd.toNat w ((maskOf (me s) o.m).zipIdx.map fun (a, k) => a && decide (d ≤ k))
      fun as_ k => (as_.getD 0 []).getD (k - d) 0

def execVslidedn (o : Vs3) (s : State) : Out State :=
  finish s <| vecOnly s (.vslidedn o) fun _ => withTy s (.vslidedn o) o.ts tyAny fun c =>
    let w := tyWidth c
    let d := (getS s o.ss).toNat
    vperm s (.vslidedn o) [(o.va.toNat, w)] o.vd.toNat w (maskOf (me s) o.m)
      fun as_ k => if k + d < (me s).vl then (as_.getD 0 []).getD (k + d) 0 else 0

/-! Reductions and scans. -/

/-- Reads sources for a reduction: the active rows, and the strand after the queues are consumed. -/
def vreduce (s : State) (i : Instr) (srcs : List (Nat × Nat)) (act : List Bool) (k : List (List Nat) → Strand → Res) : Res :=
  let st := me s
  if !(srcs.all fun x => fieldFits st x.1 x.2) then illegal s i
  else
    match vsrcs st srcs with
    | none => illegal s i
    | some (as_, st1) => k ((act.zipIdx.filter (·.1)).map fun (_, j) => rowAt as_ j) st1

/-- Exact accumulator k of a strand. -/
def eaOf (st : Strand) (k : Nat) : EA := st.eas.getD k eaInit

/-- Replaces an exact accumulator; its poison clears with it. -/
def setEa (st : Strand) (k : Nat) (a : EA) : Strand :=
  { st with eas := putAt 4 EA.init st.eas k a, eaPois := st.eaPois &&& ~~~(BitVec.ofNat 4 (2 ^ k)) }

/-- Adds to an exact accumulator, whose poison stays. -/
def addEa (st : Strand) (k : Nat) (a : EA) : Strand := { st with eas := putAt 4 EA.init st.eas k a }

/-- Whether an exact accumulator is poisoned (R68). -/
def eaPoisoned (st : Strand) (k : Nat) : Bool := st.eaPois.getLsbD k

/-- VREDSUM (R314). -/
def execVredsum (o : VredOps) (s : State) : Out State :=
  finish s <| vecOnly s (.vredsum o) fun _ => withTy s (.vredsum o) o.ts tyAny fun c =>
    vreduce s (.vredsum o) [(o.va.toNat, tyWidth c)] (maskOf (me s) o.m) fun rows st =>
      let vals := rows.map fun r => elVal c (r.getD 0 0)
      let st1 := addEa st o.ea.toNat (vals.foldl eaAdd (eaOf st o.ea.toNat))
      .ok (putMe s { st1 with fflags := st1.fflags ||| nvSNaN vals })

/-- VDOT: the exact product of each pair (R314). -/
def execVdot (o : VdotOps) (s : State) : Out State :=
  finish s <| vecOnly s (.vdot o) fun _ => withTy s (.vdot o) o.ts tyAny fun c =>
    vreduce s (.vdot o) [(o.va.toNat, tyWidth c), (o.vb.toNat, tyWidth c)] (maskOf (me s) o.m) fun rows st =>
      let ps := rows.map fun r => mulFp (elVal c (r.getD 0 0)) (elVal c (r.getD 1 0))
      let sn := orFlags (rows.map fun r => nvSNaN [elVal c (r.getD 0 0), elVal c (r.getD 1 0)])
      let st1 := addEa st o.ea.toNat ((ps.map (·.1)).foldl eaAdd (eaOf st o.ea.toNat))
      .ok (putMe s { st1 with fflags := st1.fflags ||| sn ||| raiseIf (ps.any (·.2)) flNV })

/-- VSCAN (R315): each active element is the sum of vb[i] and every active va[j], j ≤ i; an FP sum is exact and rounded once. A
signalling NaN among the terms of an element raises NV. -/
def execVscan (o : V3) (s : State) : Out State :=
  finish s <| vecOnly s (.vscan o) fun _ => withTy s (.vscan o) o.ts tyAny fun c =>
    let w := tyWidth c
    let act := maskOf (me s) o.m
    let st := me s
    if !fieldFits st o.va.toNat w || !fieldFits st o.vb.toNat w || !fieldFits st o.vd.toNat w then illegal s (.vscan o)
    else
      match vsrcs st [(o.va.toNat, w), (o.vb.toNat, w)] with
      | none => illegal s (.vscan o)
      | some (as_, st1) =>
        let a := as_.getD 0 []
        let b := as_.getD 1 []
        let md := slotMode st o.ts
        let out := (act.zipIdx.foldl (fun (acc : (Nat × EA × FFlags) × List (ElRes × Bool)) (x : Bool × Nat) =>
          let ((isum, ea, sn), l) := acc
          if x.1 then
            let v := a.getD x.2 0
            let u := b.getD x.2 0
            let isum' := (isum + v) % 2 ^ w
            let ea' := if tyInt c then ea else eaAdd ea (elVal c v)
            let sn' := if tyInt c then sn else sn ||| nvSNaN [elVal c v]
            let r : ElRes :=
              if tyInt c then ((isum' + u) % 2 ^ w, 0)
              else
                let (r, fl) := eaRound (tyFmt c) md (eaAdd ea' (elVal c u))
                (r, fl ||| sn' ||| nvSNaN [elVal c u])
            ((isum', ea', sn'), l ++ [(r, true)])
          else ((isum, ea, sn), l ++ [((0, 0), false)])) ((0, eaInit, 0), [])).2
        let st2 := vdst st1 o.vd.toNat w (out.map fun r => (r.1.1, r.2))
        .ok (putMe s { st2 with fflags := st2.fflags ||| orFlags (out.map fun r => r.1.2) })

/-- The largest or smallest of a list of integers, from a start value. -/
def foldInt (isMax : Bool) (l : List Int) (d : Int) : Int := l.foldl (fun a b => if isMax then max a b else min a b) d

/-- VREDMAX and VREDMIN (R316). -/
def vredMinMax (s : State) (i : Instr) (o : VminOps) (isMax : Bool) : Out State :=
  finish s <| vecOnly s i fun _ => withTy s i o.ts tyAny fun c =>
    vreduce s i [(o.va.toNat, tyWidth c)] (maskOf (me s) o.m) fun rows st =>
      let xs := rows.map fun r => r.getD 0 0
      if tyInt c then
        let v := foldInt isMax (xs.map (elInt c)) (if isMax then tyLo c else tyHi c)
        .ok (putMe s (swrite st o.sd.toNat (wordOfInt v)))
      else
        let f := tyFmt c
        let vals := xs.map (fpOf f)
        let v :=
          match vals with
          | [] => if isMax then fmtSign f + fmtInf f else fmtInf f
          | x :: t => (rnd f .rne (t.foldl (fpSel isMax) x)).1
        .ok (putMe s (swrite { st with fflags := st.fflags ||| nvSNaN vals } o.sd.toNat (wordOf v)))

def execVredmax (o : VminOps) (s : State) : Out State := vredMinMax s (.vredmax o) o true
def execVredmin (o : VminOps) (s : State) : Out State := vredMinMax s (.vredmin o) o false

/-- The key by which VARGMAX compares (R316). -/
def argKey (c x : Nat) : Int :=
  if tyInt c then elInt c x
  else
    let v := fpOf (tyFmt c) x
    (ordKey (if v.isNaN then fmtNaN f32 else (rnd f32 .rne v).1) : Int)

/-- The first index of greatest key. -/
def argMax : List (Nat × Int) → Option (Nat × Int)
  | [] => none
  | (i, k) :: t =>
    match argMax t with
    | none => some (i, k)
    | some (j, l) => if k < l then some (j, l) else some (i, k)

def execVargmax (o : VminOps) (s : State) : Out State :=
  finish s <| vecOnly s (.vargmax o) fun _ => withTy s (.vargmax o) o.ts tyAny fun c =>
    let st := me s
    if !fieldFits st o.va.toNat (tyWidth c) then illegal s (.vargmax o)
    else
      match vsrc st o.va.toNat (tyWidth c) with
      | none => illegal s (.vargmax o)
      | some (a, st1) =>
        let l := ((maskOf st o.m).zipIdx.filter (·.1)).map fun (_, k) => (k, argKey c (a.getD k 0))
        let r := match argMax l with
          | some (k, _) => wordOf k
          | none => BitVec.ofNat 64 (2 ^ 64 - 1)
        .ok (putMe s (swrite st1 o.sd.toNat r))

/-! Exact accumulator operations (R317). -/

/-- VEAADD. The spec names EARND and EAST alone as trapping on poison (R69, R317): a poisoned source makes ed poisoned (DESIGN CHOICE, log 27). -/
def execVeaadd (o : Ea2) (s : State) : Out State :=
  finish s <| vecOnly s (.veaadd o) fun _ =>
    let st := me s
    let p := if eaPoisoned st o.es.toNat then st.eaPois ||| BitVec.ofNat 4 (2 ^ o.ed.toNat) else st.eaPois
    .ok (putMe s { addEa st o.ed.toNat (eaMerge (eaOf st o.ed.toNat) (eaOf st o.es.toNat)) with eaPois := p })

/-- EARND. EVAL of the data-error of a poisoned accumulator, which has no address, is its number (DESIGN CHOICE, log 27). -/
def execEarnd (o : EarndOps) (s : State) : Out State :=
  finish s <| vecOnly s (.earnd o) fun _ => withTy s (.earnd o) o.ts tyFp fun c =>
    let st := me s
    if eaPoisoned st o.ea.toNat then .trap cData (wordOf o.ea.toNat) 0
    else
      let (r, fl) := eaRound (tyFmt c) (slotMode st o.ts) (eaOf st o.ea.toNat)
      .ok (putMe s (swrite { st with fflags := st.fflags ||| fl } o.sd.toNat (wordOf r)))

/-- EALD consumes one group; a starved queue is an illegal-instruction (R132). -/
def execEald (o : EaldOps) (s : State) : Out State :=
  finish s <| vecOnly s (.eald o) fun _ =>
    let st := me s
    match iqOf st o.q.toNat with
    | [] => illegal s (.eald o)
    | g :: t => .ok (putMe s (setEa (setIq st o.q.toNat t) o.ea.toNat (eaClean (g.data.setWidth 512))))

/-- EAST appends one group, all positions active; a poisoned accumulator takes data-error, its number in EVAL (DESIGN CHOICE, log 27). -/
def execEast (o : EastOps) (s : State) : Out State :=
  finish s <| vecOnly s (.east o) fun _ =>
    let st := me s
    if eaPoisoned st o.ea.toNat then .trap cData (wordOf o.ea.toNat) 0
    else
      let g : Group := ⟨(eaClean (eaOf st o.ea.toNat)).setWidth 2048, BitVec.ofNat 2048 (2 ^ 2048 - 1), 0, []⟩
      .ok (putMe s (setOq st o.q.toNat (oqOf st o.q.toNat ++ [g])))

def execEaclr (o : Ea1) (s : State) : Out State :=
  finish s <| vecOnly s (.eaclr o) fun _ => .ok (putMe s (setEa (me s) o.ea.toNat eaInit))

/-! Block formats. -/

/-- Cuts a list into runs of n, n nonzero. -/
def runsOf {α : Type} (n : Nat) : Nat → List α → List (List α)
  | 0, _ => []
  | k + 1, l => if l.isEmpty then [] else l.take n :: runsOf n k (l.drop n)

/-- Pads a list of values with +0. -/
def padZero (n : Nat) (l : List Fp) : List Fp := l ++ List.replicate (n - l.length) (.fin false 0 0)

/-- The blocks of `vbq_block` over runs of E values (R318), and the flags. -/
def vbqAll (fdn : Nat) (d : FmtDesc) (rtz : Bool) (xs : List Fp) : List Nat × FFlags :=
  let bs := (runsOf (blkE d.wid) xs.length xs).map fun r => vbqBlock fdn d rtz (padZero (blkE d.wid) r)
  (bs.map (·.1), orFlags (bs.map (·.2)))

/-- The 16 words of a block. -/
def blkWords (b : Nat) : List Nat := cutBits 32 16 b

/-- VBQ (R318). -/
def execVbq (o : VbqOps) (s : State) : Out State :=
  finish s <| vecOnly s (.vbq o) fun _ =>
    let st := me s
    let c := slotTy st o.ts
    let md := slotMode st o.ts
    let d := fdOf (st.fds.getD o.fd.toNat 0)
    if !(c == 10 || c == 9) || md == .rup || md == .rdn then illegal s (.vbq o)
    else if !fieldFits st o.va.toNat (tyWidth c) then illegal s (.vbq o)
    else if o.vd.toNat < 56 && !(fieldFits st o.vd.toNat 32 && budgetWidth st.budget == 32) then illegal s (.vbq o)
    else if !fdValid d then .trap cBlock (wordOf o.fd.toNat) 0
    else if st.maxvl < 16 * ceilDiv st.vl (blkE d.wid) then illegal s (.vbq o)
    else
      match vsrc st o.va.toNat (tyWidth c) with
      | none => illegal s (.vbq o)
      | some (a, st1) =>
        let (bs, fl) := vbqAll o.fd.toNat d (md == .rtz) (a.map (fpOf (tyFmt c)))
        let st2 := vdst st1 o.vd.toNat 32 ((bs.map blkWords).flatten.map fun x => (x, true))
        .ok (putMe s { st2 with fflags := st2.fflags ||| fl })

/-- VBDQ (R319). -/
def execVbdq (o : VbqOps) (s : State) : Out State :=
  finish s <| vecOnly s (.vbdq o) fun _ => withTy s (.vbdq o) o.ts tyFp fun c =>
    let st := me s
    let w := tyWidth c
    let d := fdOf (st.fds.getD o.fd.toNat 0)
    if !fieldFits st o.vd.toNat w || !fieldFits st o.va.toNat 32 then illegal s (.vbdq o)
    else if !fdValid d then .trap cBlock (wordOf o.fd.toNat) 0
    else
      let e := blkE d.wid
      let n := ceilDiv st.vl e
      match vsrcN st o.va.toNat (16 * n) 32 with
      | none => illegal s (.vbdq o)
      | some (ws, st1) =>
        let bs := (runsOf 16 n ws).map (packCodes 32)
        match findIdx? (fun b => blkFcode b != o.fd.toNat) bs with
        | some k => .trap cBlock (wordOf k) k
        | none =>
          let rs := (List.range st.vl).map fun i =>
            let b := bs.getD (i / e) 0
            rnd (tyFmt c) (slotMode st o.ts) (fdDec d (blkScale b) (blkElem d.wid b (i % e)))
          let st2 := vdst st1 o.vd.toNat w (rs.map fun r => (r.1, true))
          .ok (putMe s { st2 with fflags := st2.fflags ||| orFlags (rs.map (·.2)) })

/-- FMTSET (R320). -/
def execFmtset (o : FmtOps) (s : State) : Out State :=
  finish s <| vecOnly s (.fmtset o) fun _ =>
    .ok (putMe s { me s with fds := putAt 16 0 (me s).fds o.fd.toNat ((getS s o.sa).setWidth 32) })

end Sys2Proof.Machine
end

