-- ==== Sys2Proof/Machine/Matrix.lean ====
section
/-! DEFINITION. The matrix array (R198 to R208, R344 to R356). -/

namespace Sys2Proof.Machine

/-- Rows, columns and slices of a die's array (R198). -/
def mxRows (die : Nat) : Nat := if die ≤ 4 then 512 else 256
def mxCols (die : Nat) : Nat := if die ≤ 4 then 512 else 256
def mxSlices (die : Nat) : Nat := if die ≤ 4 then 8 else 4

/-- ACCR of a grant (R198). -/
def mxAccr (die g : Nat) : Nat := if die ≤ 4 then g / 4 else g

/-- The held slices of a strand, lowest first: weight row k lies in the (k / 64)-th of them (R346). -/
def heldSlices (h : MxHold) : List Nat := (List.range 8).filter fun k => h.slices.getLsbD k

/-- Accumulator rows of one slice (R346). -/
def sliceRows (die : Nat) : Nat := if die ≤ 4 then 16 else 64

/-- The slice that holds a weight row, and the slice and the row within it of an accumulator row (R346). -/
def weightSlice (h : MxHold) (k : Nat) : Option Nat := (heldSlices h)[k / 64]?
def accSlice (die : Nat) (h : MxHold) (a : Nat) : Option (Nat × Nat) :=
  ((heldSlices h)[a / sliceRows die]?).map fun n => (n, a % sliceRows die)

/-- The accumulator row of a strand that is a row of a slice (R346); none where the strand does not hold the slice. -/
def accRowAt (die : Nat) (h : MxHold) (slice row : Nat) : Option Nat :=
  if row < sliceRows die then (findIdx? (· == slice) (heldSlices h)).map fun i => i * sliceRows die + row else none

/-- The holds of a cluster. -/
def mxOf (s : State) (ck : Nat) : List MxHold := NMap.getD s.mx ck []

/-- The hold of the issuing strand, or one of no rows. -/
def myHold (s : State) : MxHold :=
  (holdOf s (me s)).getD
    { owner := mxOwner (me s), rank := (me s).rank, slices := 0, grant := 0, shadow := MxPlane.empty, active := MxPlane.empty, acc := [],
      accPois := [] }

/-- Without the hold of a strand. -/
def mxDrop (s : State) (st : Strand) : State :=
  { s with mx := NMap.set s.mx st.clusterKey ((mxOf s st.clusterKey).filter fun h => !(h.owner == mxOwner st && h.rank == st.rank)) }

/-- Replaces the issuing strand's hold. -/
def putHold (s : State) (h : MxHold) : State :=
  let s1 := mxDrop s (me s)
  { s1 with mx := NMap.set s1.mx (me s).clusterKey (mxOf s1 (me s).clusterKey ++ [h]) }

/-- Whether a slice of a strand's cluster belongs to another strand whose convoy waits: what that convoy has released is free once it retires (R111,
R199). -/
def mxKept (s : State) (st : Strand) (k : Nat) : Bool :=
  s.held.any fun x => x.1 != st.sid && (strandOf s x.1).clusterKey == st.clusterKey && x.2.mx.any fun h => h.slices.getLsbD k

/-- Slices of a cluster that no strand holds and that are not retired, lowest first (R117, R199). -/
def mxFree (s : State) (st : Strand) : List Nat :=
  let dis := NMap.getD (dispOf s st.die).arrdis st.cluster 0
  (List.range (mxSlices st.die)).filter fun k =>
    !dis.getLsbD k && !((mxOf s st.clusterKey).any fun h => h.slices.getLsbD k) && !mxKept s st k

/-- MXATT (R199, R347). -/
def execMxatt (o : S2) (s : State) : Out State :=
  finish s <| vecOnly s (.mxatt o) fun _ =>
    let st := me s
    let q := (getS s o.sa).toNat
    if q % 64 ≠ 0 then illegal s (.mxatt o)
    else
      let s1 := mxDrop s st
      let take := (mxFree s1 st).take (min q (mxRows st.die) / 64)
      let g := 64 * take.length
      let h : MxHold :=
        { owner := mxOwner st, rank := st.rank, slices := BitVec.ofNat 8 ((take.map (2 ^ ·)).foldl (· + ·) 0), grant := g,
          shadow := MxPlane.empty, active := MxPlane.empty, acc := [], accPois := [] }
      .ok (setS (if g = 0 then s1 else putHold s1 h) o.sd (wordOf g))

/-- MXDET (R199). -/
def execMxdet (s : State) : Out State := finish s <| vecOnly s .mxdet fun _ => .ok (mxDrop s (me s))

/-- n 512-bit blocks at the head of an in-queue. -/
def blocksOf (st : Strand) (q n : Nat) : Option (List Nat × Strand) :=
  match qread (iqOf st q) 0 n 512 with
  | none => none
  | some (els, l) => some (els.map (·.1), setIq st q l)

/-- The descriptor that a block selects. -/
def blkDesc (st : Strand) (b : Nat) : FmtDesc := fdOf (st.fds.getD (blkFcode b) 0)

/-- Whether a block's FCODE and descriptor pass R188. -/
def blkValid (st : Strand) (b : Nat) : Bool := blkFcodeOk b && fdValid (blkDesc st b)

/-- The blocks of a dense load added to a plane (R349, R350); an error names the failing block. -/
def loadDense (st : Strand) (g cols : Nat) (p : MxPlane) (bs : List Nat) : Except Nat MxPlane :=
  let w := if p.cursor = 0 then (blkDesc st (bs.headD 0)).wid else p.width
  let bp := if blkE w = 0 then 0 else g / blkE w
  match findIdx? (fun (b, k) => !blkValid st b || blkE (blkDesc st b).wid != blkE w || bp == 0 || decide (cols * bp ≤ p.cursor + k)) bs.zipIdx with
  | some k => .error k
  | none =>
    .ok { p with dense := p.dense ++ bs.map (BitVec.ofNat 512), cursor := p.cursor + bs.length, fresh := false, sparse := false, width := w,
                 bp := bp, n := 0, m := 0, kgroups := 0, rows := [] }

/-- A sparse load (R206, R351): the plane, or the fault's cause and EVAL. -/
def loadSparse (st : Strand) (g cols : Nat) (bs : List Nat) : Except (Nat × Word × Nat) MxPlane :=
  let bytes := (bs.map (bytesOf 64)).flatten
  let h := tileHdr (bytes.take 64)
  let bp := if blkE h.wid = 0 then 0 else g / blkE h.wid
  let k0 := tileCheck cols true h
  let k := if k0 = 6 || k0 = 0 then
      if bs.length ≠ h.metaoff / 64 + ceilDiv (h.rowb * tileMrow h.kgroups h.n h.m) 64 || bp < h.colb then 5 else k0
    else k0
  if k ≠ 0 then .error (cSparse, tileEval k, 0)
  else
    let rows := (List.range h.rowb).map fun r => rowIdx h (rowMeta h bytes r)
    match badMeta h rows with
    | some (r, gr) => .error (cSparse, wordOf (r * 2 ^ 32 + gr), 0)
    | none =>
      let pay := (bs.drop 1).take h.paycnt
      match findIdx? (fun b => !blkValid st b || (blkDesc st b).wid != h.wid) pay with
      | some i => .error (cBlock, wordOf (1 + i), 1 + i)
      | none =>
        .ok { dense := [], cursor := bs.length, fresh := true, sparse := true, width := h.wid, bp := bp, n := h.n, m := h.m,
              kgroups := h.kgroups,
              rows := rows.zipIdx.map fun (gs, r) => (((pay.drop (r * h.colb)).take h.colb).map (BitVec.ofNat 512), keptPositions h gs) }

/-- MXLDS (R348 to R351): a faulting load leaves the shadow plane as it was. -/
def execMxlds (o : MxldsOps) (s : State) : Out State :=
  finish s <| vecOnly s (.mxlds o) fun _ =>
    let st := me s
    let c := getS s o.sa
    let h := myHold s
    let cols := mxCols st.die
    if 2 ^ 32 ≤ c.toNat then illegal s (.mxlds o)
    else if c = 0 then .ok s
    else
      match blocksOf st o.q.toNat c.toNat with
      | none => illegal s (.mxlds o)
      | some (bs, st1) =>
        let p := if h.shadow.fresh then { MxPlane.empty with fresh := false } else h.shadow
        let put := fun (p' : MxPlane) => Res.ok (putHold (putMe s st1) { h with shadow := p' })
        if p.cursor = 0 && blkFcode (bs.headD 0) = 0xF0 then
          match loadSparse st h.grant cols bs with
          | .error (cause, ev, e) => .trap cause ev e
          | .ok p' => put p'
        else
          match loadDense st h.grant cols p bs with
          | .error k => .trap cBlock (wordOf k) k
          | .ok p' => put p'

/-- MXSWAP (R201, R348). -/
def execMxswap (s : State) : Out State :=
  finish s <| vecOnly s .mxswap fun _ =>
    match holdOf s (me s) with
    | none => .ok s
    | some h => .ok (putHold s { h with shadow := { h.active with fresh := true }, active := h.shadow })

/-- Blocks per streamed row (R352). -/
def streamBlocks (p : MxPlane) : Nat := if p.sparse then ceilDiv (p.kgroups * p.m) (blkE p.width) else p.bp

/-- The cell of an accumulator row and column. -/
def accCell (h : MxHold) (row col : Nat) : EA := NMap.getD h.acc (row * 512 + col) eaInit

/-- The pair sum of two blocks over elements given as (streamed, stored) positions. -/
def blockPair (st : Strand) (w x y : Nat) (els : List (Nat × Nat)) : Fp :=
  pairSum (blkDesc st x) (blkDesc st y) (blkScale x) (blkScale y) (els.map fun (i, j) => (blkElem w x i, blkElem w y j))

/-- The contributions of a streamed row to column c of a dense plane (R202). -/
def denseTerms (st : Strand) (p : MxPlane) (xs : List Nat) (c : Nat) : List Fp :=
  (List.range p.bp).filterMap fun j =>
    (p.dense[c * p.bp + j]?).map fun y => blockPair st p.width (xs.getD j 0) y.toNat ((List.range (blkE p.width)).map fun i => (i, i))

/-- The contributions of a streamed row to a column of a sparse plane (R207): one for each pair of blocks with positions in common. -/
def sparseTerms (st : Strand) (p : MxPlane) (xs : List Nat) (row : List (BitVec 512) × List Nat) : List Fp :=
  let e := blkE p.width
  let kept := row.2.zipIdx
  ((List.range (streamBlocks p)).map fun j =>
    row.1.zipIdx.filterMap fun (y, k) =>
      let els := kept.filterMap fun (pos, i) => if pos / e = j && i / e = k then some (pos % e, i % e) else none
      if els.isEmpty then none else some (blockPair st p.width (xs.getD j 0) y.toNat els)).flatten

/-- The contributions of a streamed row by column. -/
def rowTerms (st : Strand) (p : MxPlane) (xs : List Nat) (cols : Nat) : List (Nat × List Fp) :=
  if p.sparse then p.rows.zipIdx.map fun (r, c) => (c, sparseTerms st p xs r)
  else (List.range (min cols (ceilDiv p.dense.length p.bp))).map fun c => (c, denseTerms st p xs c)

/-- Adds a streamed row into accumulator row `row` (R202). -/
def streamRow (st : Strand) (cols : Nat) (h : MxHold) (row : Nat) (xs : List Nat) : MxHold :=
  { h with acc := (rowTerms st h.active xs cols).foldl (fun acc (c, ts) =>
      if ts.isEmpty then acc else NMap.set acc (row * 512 + c) (ts.foldl eaAdd (NMap.getD acc (row * 512 + c) eaInit))) h.acc }

/-- MXSTRM (R202, R207, R352). -/
def execMxstrm (o : MxstrmOps) (s : State) : Out State :=
  finish s <| vecOnly s (.mxstrm o) fun _ =>
    let st := me s
    let h := myHold s
    let a := (getS s o.sa).toNat
    let r := (getS s o.sb).toNat
    if h.grant = 0 || h.active.width = 0 || mxAccr st.die h.grant < a + r then illegal s (.mxstrm o)
    else if r = 0 then .ok s
    else
      let k := streamBlocks h.active
      match blocksOf st o.q.toNat (r * k) with
      | none => illegal s (.mxstrm o)
      | some (bs, st1) =>
        match findIdx? (fun b => !blkValid st b || blkE (blkDesc st b).wid != blkE h.active.width) bs with
        | some i => .trap cBlock (wordOf i) i
        | none =>
          let h1 := (List.range r).foldl (fun h j => streamRow st (mxCols st.die) h (a + j) ((bs.drop (j * k)).take k)) h
          .ok (putHold (putMe s st1) h1)

/-- The fields of a drain word (R353). -/
structure DrainWord where
  nrow : Nat
  ncol : Nat
  blk : Bool
  fd : Nat
  mbz : Bool
  deriving DecidableEq, Repr

/-- Reads a drain word for an array of `cols` columns. -/
def drainWord (cols : Nat) (w : Word) : DrainWord :=
  let nc := bitsW w 16 16
  let blk := bitW w 32
  { nrow := bitsW w 0 16, ncol := if nc = 0 then cols else nc, blk := blk, fd := bitsW w 36 4,
    mbz := bitsW w 40 24 == 0 && bitsW w 33 3 == 0 && (blk || bitsW w 36 4 == 0) }

/-- A position of a drain: its bits, flags, and whether a cell it reads is poisoned. -/
abbrev DrainPos := Nat × FFlags × Bool

/-- The positions of accumulator row `row`, plain drain. -/
def drainRow (h : MxHold) (f : Fmt) (md : Rm) (ncol row : Nat) : List DrainPos :=
  (List.range ncol).map fun c =>
    let (v, fl) := eaRound f md (accCell h row c)
    (v, fl, hasN h.accPois (row * 512 + c))

/-- The positions of accumulator row `row`, block drain: 16 words of 32 bits for each block; the flags stand with its first position. -/
def drainBlocks (h : MxHold) (fdn : Nat) (d : FmtDesc) (rtz : Bool) (ncol row : Nat) : List DrainPos :=
  let e := blkE d.wid
  ((List.range (ceilDiv ncol e)).map fun k =>
    let cs := (List.range (min e (ncol - k * e))).map (k * e + ·)
    let rs := cs.map fun c => eaRound f32 .rne (accCell h row c)
    let (b, fl) := vbqBlock fdn d rtz (padZero e (rs.map fun r => fpOf f32 r.1))
    let pois := cs.any fun c => hasN h.accPois (row * 512 + c)
    (blkWords b).zipIdx.map fun (w, i) => (w, if i = 0 then fl ||| orFlags (rs.map (·.2)) else 0, pois && i == 0)).flatten

/-- MXDRAIN (R203, R353, R354). -/
def execMxdrain (o : MxdrainOps) (s : State) : Out State :=
  finish s <| vecOnly s (.mxdrain o) fun _ =>
    let st := me s
    let h := myHold s
    let cols := mxCols st.die
    let a := (getS s o.sa).toNat
    let dw := drainWord cols (getS s o.sb)
    let ty := slotTy st o.slot
    let md := slotMode st o.slot
    let d := fdOf (st.fds.getD dw.fd 0)
    if !dw.mbz || cols < dw.ncol || mxAccr st.die h.grant < a + dw.nrow || h.grant = 0 || (!dw.blk && !(ty == 10 || ty == 9)) ||
        (dw.blk && (md == .rup || md == .rdn)) then illegal s (.mxdrain o)
    else if dw.blk && !fdValid d then .trap cBlock (wordOf dw.fd) 0
    else
      let w := if dw.blk then 32 else tyWidth ty
      let start := startOf s
      let all := ((List.range dw.nrow).map fun r =>
        if dw.blk then drainBlocks h dw.fd d (md == .rtz) dw.ncol (a + r) else drainRow h (tyFmt ty) md dw.ncol (a + r)).flatten
      let ps := all.drop start
      let push := fun (ps : List DrainPos) (st : Strand) =>
        { setOq st o.q.toNat (qpush (oqOf st o.q.toNat) start w (ps.map fun p => (p.1, true))) with
          fflags := st.fflags ||| orFlags (ps.map fun p => p.2.1) }
      match findIdx? (fun p => p.2.2) ps with
      | some k => partAt s (start + k, cData, wordOf (start + k)) (push (ps.take k))
      | none => .ok (putMe s (push ps st))

/-- MXCLR (R355). -/
def execMxclr (o : S2ab) (s : State) : Out State :=
  finish s <| vecOnly s (.mxclr o) fun _ =>
    let st := me s
    let h := myHold s
    let a := (getS s o.sa).toNat
    let r := (getS s o.sb).toNat
    if h.grant = 0 || mxAccr st.die h.grant < a + r then illegal s (.mxclr o)
    else
      let keep := fun k : Nat => !(decide (a ≤ k / 512) && decide (k / 512 < a + r))
      .ok (putHold s { h with acc := h.acc.filter fun x => keep x.1, accPois := h.accPois.filter keep })

/-- The status word of MXSTAT (R356). -/
def mxStatus (die : Nat) (h : MxHold) : Nat :=
  mxAccr die h.grant % 512 * 2 ^ 49 + h.shadow.cursor % 8192 * 2 ^ 36 + h.shadow.width % 16 * 2 ^ 32 + h.active.width % 16 * 2 ^ 28 +
    boolN h.shadow.sparse * 2 ^ 27 + boolN h.active.sparse * 2 ^ 26 + h.slices.toNat * 2 ^ 16 + h.grant % 1024

/-- MXSTAT (R356). -/
def execMxstat (o : S1d) (s : State) : Out State :=
  finish s <| vecOnly s (.mxstat o) fun _ => .ok (setS s o.sd (wordOf (mxStatus (me s).die (myHold s))))

end Sys2Proof.Machine
end

