-- ==== Sys2Proof/Machine/Race.lean ====
section
/-! DEFINITION. The bounded race: noise, bounds, scores, the leader, the sums and the log, and the race syllables (R215 to R234, R363 to
R375, R417). -/

namespace Sys2Proof.Machine

/-- −∞, +∞ and 1.0 as f32 patterns. -/
def f32NegInf : Nat := 0xFF800000
def f32PosInf : Nat := 0x7F800000
def f32One : Nat := 0x3F800000

/-- An adjustment entry (R219): BAN, θ, b, and whether it is malformed. -/
structure Adjust where
  ban : Bool
  theta : Fp
  bias : Fp
  bad : Bool
  deriving DecidableEq, Repr

/-- θ = 1 and b = +0. -/
def Adjust.none : Adjust := { ban := false, theta := .fin false 1 0, bias := .fin false 0 0, bad := false }

/-- Whether a bf16 pattern is positive and finite. -/
def bfPos (x : Nat) : Bool := decide (0 < x) && decide (x < 0x7F80)

/-- Whether an f32 pattern is finite, and whether it lies below zero. -/
def f32Fin (x : Nat) : Bool := x / 2 ^ 23 % 256 != 255
def f32Below (x : Nat) : Bool := x / 2 ^ 31 % 2 == 1 && x % 2 ^ 31 != 0

/-- Reads an adjustment entry (R219): a malformed one bans its token. -/
def adjustOf (w : Nat) : Adjust :=
  let th := bitsN w 32 16
  let b := bitsN w 0 32
  if bitsN w 49 15 ≠ 0 || !f32Fin b || !(th == 0 || bfPos th) then { Adjust.none with ban := true, bad := true }
  else
    { ban := bitsN w 48 1 == 1, theta := if th = 0 then .fin false 1 0 else fpOf bf16 th, bias := fpOf f32 b, bad := false }

/-- Rounds a datum divided by a positive integer, once. -/
def rndDiv (md : Rm) (x : Fp) (n : Nat) : Nat :=
  match x with
  | .fin s m e =>
    if m = 0 then (rnd f32 md x).1 else (rndSt f32 md (.fin s (m * 2 ^ 80 / n) (e - 80)) (m * 2 ^ 80 % n != 0)).1
  | _ => (rnd f32 md x).1

/-- `adjust` of R220 on an f32 pattern: x / θ + b or x × θ + b is exact and is rounded once. -/
def adjust (a : Adjust) (md : Rm) (x : Nat) : Nat :=
  if a.ban then f32NegInf
  else
    match fpOf f32 x, a.theta with
    | .nan _, _ => f32NegInf
    | .inf s, _ => if s then f32NegInf else f32PosInf
    | .fin s m e, .fin _ n k =>
      if s && m != 0 then (rnd f32 md (addFp md (.fin s (m * n) (e + k)) a.bias).1).1
      else if m = 0 then (rnd f32 md (addFp md (.fin s 0 0) a.bias).1).1
      else
        match a.bias with
        | .fin bs bm be => rndDiv md (addFp md (.fin s m (e - k)) (.fin bs (bm * n) be)).1 n
        | _ => f32NegInf
    | _, _ => f32NegInf

/-- exp((x − REF) × INVT) rounded once (R222). -/
def raceTerm (c : RaceCtx) (md : Rm) (x : Nat) : Nat :=
  match fpOf f32 x with
  | .nan _ => 0
  | .inf s => if s then 0 else f32PosInf
  | v => (fpExp f32 md (mulFp (addFp md v (fpOf f32 c.ref).neg).1 (fpOf f32 c.invt)).1).1

/-- The noise of a token in a context; 0 when GREEDY (R218, R222). -/
def raceNoise (c : RaceCtx) (t : Nat) : Nat := if c.greedy then 0 else noise c.nkey0 c.nkey1 c.nctx t

/-- RN(RN(x × INVT) + g), or with RU (R222). -/
def raceScaled (c : RaceCtx) (md : Rm) (x g : Nat) : Nat :=
  (fpAdd f32 md (fpOf f32 (fpMul f32 md (fpOf f32 x) (fpOf f32 c.invt)).1) (fpOf f32 g)).1

/-- What a coarse score gives a token (R221, R222): B, B′, L′, H, blo, bhi. -/
structure RaceBound where
  b : Nat
  bp : Nat
  lp : Nat
  h : Nat
  blo : Nat
  bhi : Nat
  deriving DecidableEq, Repr

/-- B and L of a coarse score (R221). -/
def rawBounds (c : RaceCtx) (x eps : Nat) : Nat × Nat :=
  let e := fpOf f16 eps
  let bad := !f32Fin x || !f32Fin c.nh || f32Below c.nh || e.isNaN || e.isInf || (e.sign && !e.isZero)
  if bad then (f32PosInf, f32NegInf)
  else
    let u := fpOf f32 (fpMul f32 .rup e (fpOf f32 c.nh)).1
    ((fpAdd f32 .rup (fpOf f32 x) u).1, (fpSub f32 .rdn (fpOf f32 x) u).1)

/-- AMAX − MARGIN as an exact datum, where MARGIN is finite and AMAX is valid (R231). -/
def raceFloor (c : RaceCtx) : Option Fp :=
  if c.st = 2 && f32Fin c.margin && c.amaxValid then some (addFp .rne (fpOf f32 c.amax) (fpOf f32 c.margin).neg).1 else none

/-- Whether an f32 pattern lies below the floor of phase B. -/
def belowFloor (c : RaceCtx) (x : Nat) : Bool :=
  match raceFloor c with
  | none => false
  | some f => cmpFp (fpOf f32 x) f == .lt

/-- Whether a token is one of the kept ones of phase A (R230, R231). -/
def keptToken (c : RaceCtx) (t : Nat) : Bool := c.topk == 0 || c.kept.any fun k => k % 2 ^ 32 == 0xFFFFFFFF - t

/-- The bounds of a token (R221, R222, R230, R231). -/
def raceBound (c : RaceCtx) (t x eps : Nat) (a : Adjust) : RaceBound :=
  let (b, l) := rawBounds c x eps
  let bp := adjust a .rup b
  let lp := adjust a .rdn l
  if c.st = 1 || c.greedy then { b := b, bp := bp, lp := lp, h := bp, blo := 0, bhi := 0 }
  else
    { b := b, bp := bp, lp := lp, h := raceScaled c .rup bp (raceNoise c t),
      blo := if belowFloor c lp then 0 else raceTerm c .rdn lp, bhi := raceTerm c .rup bp }

/-- Adds a term to a sum, or removes it: a term of +∞ is counted (R417). -/
def sumTerm (x : EA × Nat) (bits : Nat) (sub : Bool) : EA × Nat :=
  let v := fpOf f32 bits
  if v.isInf then (x.1, if sub then x.2 - 1 else x.2 + 1) else (eaAdd x.1 (if sub then v.neg else v), x.2)

/-- Adds or removes bound terms (R224, R225). -/
def unTerms (c : RaceCtx) (blo bhi : Nat) (sub : Bool) : RaceCtx :=
  let lo := sumTerm (c.zunlo, 0) blo sub
  let hi := sumTerm (c.zunhi, c.infUn) bhi sub
  { c with zunlo := lo.1, zunhi := hi.1, infUn := hi.2 }

/-- Adds or removes evaluated terms (R225). -/
def evTerms (c : RaceCtx) (tlo thi : Nat) (sub : Bool) : RaceCtx :=
  let lo := sumTerm (c.zevlo, 0) tlo sub
  let hi := sumTerm (c.zevhi, c.infEv) thi sub
  { c with zevlo := lo.1, zevhi := hi.1, infEv := hi.2 }

/-- The fold of R226 against a leader key. -/
def foldLog (c : RaceCtx) (leader : Nat) : RaceCtx :=
  let lim := leader / 2 ^ 32
  let back := c.log.filter fun r => decide (r.h < lim)
  let c1 := { c with log := c.log.filter fun r => decide (lim ≤ r.h) }
  if c.greedy then c1 else back.foldl (fun c r => unTerms (evTerms c r.tlo r.thi true) r.blo r.bhi false) c1

/-- The packed key of a token and a score (R223). -/
def packKey (s t : Nat) : Nat := ordKey s * 2 ^ 32 + (0xFFFFFFFF - t)

/-- Whether a race is running (R217): open, phase A or phase B. -/
def racing (c : RaceCtx) : Bool := decide (c.st ≤ 2)

/-- Enters aborted (R217, R234). -/
def abortRace (c : RaceCtx) (cause : Nat) : RaceCtx := if racing c then { c with st := 4, acause := cause, merging := none } else c

/-- What presenting a coarse score does (R224, R230, R231): the context, and H where the token becomes a candidate. -/
def presentBound (c : RaceCtx) (t x eps : Nat) (a : Adjust) : RaceCtx × Option Nat :=
  if c.vocab ≤ t || hasN c.bounded t then (c, none)
  else
    let b := raceBound c t x eps a
    let c1 := { c with bounded := insertN c.bounded t }
    if b.bp = f32NegInf || (c.st = 2 && (!keptToken c t || belowFloor c b.bp)) then (c1, none)
    else if c.st = 1 || c.greedy then (c1, some b.h)
    else (unTerms { c1 with added := NMap.set c1.added t (b.blo, b.bhi) } b.blo b.bhi false, some b.h)

/-- Inserts a packed key into the TOPK largest (R230). -/
def keepKey (k : Nat) : List Nat → List Nat
  | [] => [k]
  | x :: t => if x < k then k :: x :: t else x :: keepKey k t

/-- An exact logit in phase A (R230). -/
def updateA (c : RaceCtx) (t lp : Nat) : RaceCtx :=
  let c1 := if !c.amaxValid || ordKey c.amax < ordKey lp then { c with amaxValid := true, amax := lp } else c
  { c1 with kept := (keepKey (packKey lp t) c1.kept).take c1.topk }

/-- Steps 3 and 4 of R225 for an eligible token. -/
def updateLeader (c : RaceCtx) (t l lp : Nat) (b : RaceBound) : RaceCtx :=
  let s := if c.greedy then lp else raceScaled c .rne lp (raceNoise c t)
  let tlo := if c.greedy then 0 else raceTerm c .rdn lp
  let thi := if c.greedy then 0 else raceTerm c .rup lp
  let k := packKey s t
  let c1 := if c.leader < k then foldLog { c with leader := k, leadLo := tlo, leadHi := thi } k else c
  if ordKey b.h < c1.leader / 2 ^ 32 then (if c.greedy then c1 else unTerms c1 b.blo b.bhi false)
  else if 4096 ≤ c1.log.length then abortRace c1 3
  else
    let viol := cmpFp (fpOf f32 l) (fpOf f32 b.b) == .gt
    let r : LogRec := { t := t, h := ordKey b.h, tlo := tlo, thi := thi, blo := b.blo, bhi := b.bhi, viol := viol }
    let c2 := { c1 with log := c1.log ++ [r] }
    if c.greedy then c2 else evTerms c2 tlo thi false

/-- Whether RCUPD takes a token (R225). -/
def updTakes (c : RaceCtx) (t : Nat) : Bool := racing c && hasN c.bounded t && !hasN c.evaluated t

/-- An exact logit (R225, R230, R231). -/
def presentExact (c : RaceCtx) (t l x eps : Nat) (a : Adjust) : RaceCtx :=
  let b := raceBound c t x eps a
  let lp := adjust a .rne l
  let c1 := { c with evaluated := insertN c.evaluated t }
  if c.st = 1 then (if lp = f32NegInf then c1 else updateA c1 t lp)
  else
    let c2 :=
      match NMap.get? c1.added t with
      | some (blo, bhi) => unTerms { c1 with added := NMap.erase c1.added t } blo bhi true
      | none => c1
    if lp = f32NegInf || (c.st = 2 && (!keptToken c t || belowFloor c lp)) then c2 else updateLeader c2 t l lp b

/-- Clears what RCINIT and entry into phase B clear (R217, R230, R417). -/
def clearRace (c : RaceCtx) : RaceCtx :=
  { c with
    leader := 0, log := [], zevlo := EA.init, zevhi := EA.init, zunlo := EA.init, zunhi := EA.init, infEv := 0, infUn := 0,
    bounded := [], added := [], evaluated := [], leadLo := 0, leadHi := 0, epoch := c.epoch + 1, merging := none }

/-- Entry into phase B (R230, R367). -/
def enterPhaseB (c : RaceCtx) : RaceCtx := { clearRace c with st := 2, active := c.mask }

/-- RCINIT's effect (R217, R369). -/
def initRace (c : RaceCtx) (mask : Word) : RaceCtx :=
  let trunc := c.margin != f32PosInf || c.topk != 0
  { clearRace c with
    st := if trunc then 1 else 0, greedy := c.invt == 0, empty := false, bviol := false, acause := 0, amaxValid := false, amax := 0,
    kept := [], active := mask, mask := mask, win := 0xFFFFFFFF, plo := 0, phi := 0 }

/-- Resolution against a final leader F whose token's terms are tlo and thi (R228). -/
def resolveRace (c0 : RaceCtx) (f tlo thi : Nat) : RaceCtx :=
  let c := foldLog c0 f
  let viol := c.log.any (·.viol)
  if f = 0 then { c with st := 3, bviol := viol, win := 0xFFFFFFFF, empty := true, plo := 0, phi := 0 }
  else
    let w := 0xFFFFFFFF - f % 2 ^ 32
    if c.greedy then { c with st := 3, bviol := viol, win := w, plo := f32One, phi := f32One }
    else
      let zlo := (eaRound f32 .rdn (eaMerge c.zevlo c.zunlo)).1
      let zhi := (eaRound f32 .rup (eaMerge (sumView c.zevhi c.infEv) (sumView c.zunhi c.infUn))).1
      let plo := if zhi = f32PosInf then 0 else (fpDiv f32 .rdn (fpOf f32 tlo) (fpOf f32 zhi)).1
      let phi :=
        if zlo % 2 ^ 31 = 0 then f32One
        else (fpMinMax f32 false (fpOf f32 f32One) (fpOf f32 (fpDiv f32 .rup (fpOf f32 thi) (fpOf f32 zlo)).1)).1
      { c with st := 3, bviol := viol, win := w, plo := plo, phi := phi }

/-! The remote block (R232, R233). The race unit works for context c as strand number 256 + c, which never issues a convoy: its path queue,
its outstanding accesses and its answers are the race unit's. -/

/-- The number under which the race unit's accesses for a context stand. -/
def raceSid (c : Nat) : Nat := 256 + c

/-- Whether a context is part of a race over several packages. -/
def multiRace (c : RaceCtx) : Bool := c.hosts || c.member

/-- Where bytes of the remote block lie. -/
def blockPlace (s : State) (x : RaceCtx) (acc : Acc) (off : Nat) : Except Nat Place := checkUnit s x.tenant acc (x.rblk + wordOf off)

/-- Aborts a context whose access to its remote block fails (R233). Log 29. -/
def abortCtx (s : State) (c cause : Nat) : State := putRace s c (abortRace (raceOf s c) cause)

/-- Queues an access of the race unit to a context's remote block. -/
def queueBlock (s : State) (c off n : Nat) (acc : Acc) (k : AccKind) (rel : Bool) : State :=
  let x := raceOf s c
  match blockPlace s x acc off with
  | .error _ => abortCtx s c 4
  | .ok p =>
    let st := strandOf s (raceSid c)
    let a := mkAcc .ls p (x.rblk + wordOf off) n k rel false rel
    putStrand s (raceSid c) { st with pq := st.pq ++ [.acc a] }

/-- Queues an atomic on a context's remote block. -/
def blockAtomic (s : State) (c off n : Nat) (op : AtomOp) (v : Nat) (rel : Bool) : State :=
  queueBlock s c off n .atomic (.atomic op n (BitVec.ofNat 512 v)) rel

/-- Queues a write of 8 bytes to a context's remote block. -/
def blockWrite (s : State) (c off v : Nat) (rel : Bool) : State := queueBlock s c off 8 .store (.write (bytesOf 8 v)) rel

/-- Puts a context back after its LEADER may have risen (R232). -/
def putLeader (s : State) (c : Nat) (x : RaceCtx) : State :=
  let old := (raceOf s c).leader
  let s1 := putRace s c x
  if multiRace x && decide (old < x.leader) then blockAtomic s1 c 0 8 .maxn x.leader false else s1

/-- A context whose ACTIVE has reached 0 (R228, R230, R232). -/
def activeEmpty (s : State) (c : Nat) : State :=
  let x := raceOf s c
  if x.st = 1 then putRace s c (enterPhaseB x)
  else if x.member then blockAtomic s c 8 8 .and (2 ^ 64 - 1 - x.mask.toNat) true
  else if x.hosts then s
  else putRace s c (resolveRace x x.leader x.leadLo x.leadHi)

/-! The syllables. -/

/-- Whether a strand owns a context (R215, R364). -/
def ownsCtx (s : State) (st : Strand) (c : Nat) : Bool :=
  let x := raceOf s c
  st.trunk || (x.assigned && x.tenant == st.tenant)

/-- The checks of the context operand (R273, R364), then the race unit performs the syllable, in its turn (R224): it waits behind a merge of the
context. The unit counts every race syllable that passes the checks, refused ones too, as a race operation, and none of its own steps for a race over
several packages: R83 does not say what it counts (DESIGN CHOICE, log 90). -/
def withCtx (s : State) (ss : BitVec 5) (hi : Bool) (k : Nat → State → Res) : Res :=
  let v := getS s ss
  let c := v.toNat % 64
  if (if hi then v.toNat % 2 ^ 32 else v.toNat) / 64 ≠ 0 then .trap cNotOwned v 0
  else if !ownsCtx s (me s) c then .trap cNotOwned (wordOf c) 0
  else if (raceOf s c).merging.isSome then .wait (waitHere s)
  else k c { s with raceOps := s.raceOps + 1 }

/-- Empties a candidate set whose tag is not the context's epoch (R367). -/
def freshBind (b : RaceBind) (c epoch : Nat) : RaceBind := if b.bound && b.ctx == c && b.tag != epoch then { b with cands := [] } else b

/-- Whether a strand is bound to a context. -/
def boundTo (b : RaceBind) (c : Nat) : Bool := b.bound && b.ctx == c

/-- Makes the strand's candidate set current for a context. -/
def freshMe (s : State) (c : Nat) : State := putMe s { me s with race := freshBind (me s).race c (raceOf s c).epoch }

/-- A new race forgets what the unit asked of the remote block for the one before. -/
def freshBlock (s : State) (c : Nat) : State :=
  match NMap.get? s.strands (raceSid c) with
  | none => s
  | some st => putStrand s (raceSid c) { st with outst := [], answers := [], late := [] }

/-- RCINIT (R366, R369). -/
def execRcinit (o : RcinitOps) (s : State) : Out State :=
  finish s <| withCtx s o.ss false fun c s1 =>
    let x := raceOf s1 c
    let mask := getS s1 o.smask
    let trunc := x.margin != f32PosInf || x.topk != 0
    if racing x || mask = 0 || (trunc && multiRace x) then .ok (freshMe s1 c) else .ok (freshMe (freshBlock (putRace s1 c (initRace x mask)) c) c)

/-- RCNOISE (R370). -/
def execRcnoise (o : RcvOps) (s : State) : Out State :=
  finish s <| vecOnly s (.rcnoise o) fun _ => withCtx s o.ss false fun c s0 =>
    let s1 := freshMe s0 c
    let x := raceOf s1 c
    velem s1 (.rcnoise o) [(o.va.toNat, 32)] o.vd.toNat 32 (maskOf (me s1) o.m) fun _ as_ _ =>
      (noise x.nkey0 x.nkey1 x.nctx (as_.headD 0), 0)

/-- A read of a race table, an RC-path read of the issuing strand (R219, R221, R364). The tables stay within a package (R28): a peer page gives
link-failure. Log 30. -/
def tableRead (s : State) (elem : Nat) (va : Word) (n : Nat) : Got :=
  match checkScalar s (me s) .load n va with
  | .error c => .fail c
  | .ok (.peer _ _) => .fail cLink
  | .ok p => readNow s elem (mkAcc .rc p va n .read false false false)

/-- What the tables hold for a token. -/
inductive TabGot where
  | ok (eps : Nat) (a : Adjust) (s : State)
  | fail (cause : Nat) (va : Word)
  | wait (s : State)

/-- Reads EPS and the adjustment entry of a token (R219, R221). -/
def tokenTables (s : State) (x : RaceCtx) (elem t : Nat) : TabGot :=
  let va := x.btab + wordOf (2 * t)
  match tableRead s elem va 2 with
  | .wait s1 => .wait s1
  | .fail c => .fail c va
  | .bytes b _ s1 =>
    if x.atab = 0 then .ok (numOf b) Adjust.none s1
    else
      let vb := x.atab + wordOf (8 * t)
      match tableRead s1 elem vb 8 with
      | .wait s2 => .wait s2
      | .fail c => .fail c vb
      | .bytes d _ s2 => .ok (numOf b) (adjustOf (numOf d)) s2

/-- Inserts a candidate in falling ord_key(H), the lower token first (R224, R367). -/
def insCand (h t : Nat) : List (Nat × Nat) → List (Nat × Nat)
  | [] => [(h, t)]
  | (k, u) :: r => if packKey k u < packKey h t then (h, t) :: (k, u) :: r else (k, u) :: insCand h t r

/-- An active element that RCBOUND has presented: index, token, coarse score, EPS, adjustment. -/
structure RcEl where
  i : Nat
  t : Nat
  c : Nat
  eps : Nat
  adj : Adjust
  deriving DecidableEq, Repr

/-- Presents an element to a context for a strand (R371): the context, the strand's set, and the value of vd. -/
def presentOne (x : RaceCtx) (b : RaceBind) (e : RcEl) : RaceCtx × RaceBind × Nat :=
  match presentBound x e.t e.c e.eps e.adj with
  | (x1, none) => (x1, b, f32NegInf)
  | (x1, some h) => (x1, { b with tag := if b.cands.isEmpty then x1.epoch else b.tag, cands := insCand h e.t b.cands }, h)

/-- Presents elements in order: the results with their indices. -/
def presentEls (x : RaceCtx) (b : RaceBind) : List RcEl → RaceCtx × RaceBind × List (Nat × Nat)
  | [] => (x, b, [])
  | e :: r =>
    let (x1, b1, v) := presentOne x b e
    let (x2, b2, l) := presentEls x1 b1 r
    (x2, b2, (e.i, v) :: l)

/-- How RCBOUND's elements end. -/
inductive RcEnd where
  | done (els : List RcEl) (s : State)
  /-- The candidate set is full at element i, token t. -/
  | full (els : List RcEl) (i t : Nat) (s : State)
  | fail (els : List RcEl) (i cause : Nat) (va : Word)
  | wait (s : State)

/-- Puts an element in front. -/
def RcEnd.cons (e : RcEl) : RcEnd → RcEnd
  | .done l s => .done (e :: l) s
  | .full l i t s => .full (e :: l) i t s
  | .fail l i c va => .fail (e :: l) i c va
  | .wait s => .wait s

/-- Visits the active elements (index, coarse score) in increasing order (R371): a token that is ignored is not looked up. -/
def visitEls (t0 : Nat) : State → RaceCtx → RaceBind → List (Nat × Nat) → RcEnd
  | s, _, _, [] => .done [] s
  | s, x, b, (i, c) :: r =>
    let t := t0 + i
    if 4096 ≤ b.cands.length then .full [] i t s
    else if x.vocab ≤ t || hasN x.bounded t then
      RcEnd.cons { i := i, t := t, c := c, eps := 0, adj := Adjust.none } (visitEls t0 s x b r)
    else
      match tokenTables s x i t with
      | .wait s1 => .wait s1
      | .fail cause va => .fail [] i cause va
      | .ok eps a s1 =>
        let e : RcEl := { i := i, t := t, c := c, eps := eps, adj := a }
        let (x1, b1, _) := presentOne x b e
        RcEnd.cons e (visitEls t0 s1 x1 b1 r)

/-- Writes results at their indices to a 32-bit destination, from element start to vl − 1. -/
def rcWrite (st : Strand) (vd start vl : Nat) (rs : List (Nat × Nat)) : Strand :=
  if vd < 56 then vdst st vd 32 ((List.range vl).map fun i => match NMap.get? rs i with | some v => (v, true) | none => (0, false))
  else
    setOq st (vd - 56) (qpush (oqOf st (vd - 56)) start 32 ((List.range (vl - start)).map fun k =>
      match NMap.get? rs (start + k) with | some v => (v, true) | none => (0, false)))

/-- NV where an adjustment entry was malformed (R219). -/
def rcFlags (els : List RcEl) : FFlags := raiseIf (els.any fun e => e.adj.bad) flNV

/-- What presented elements leave in a state (R371). -/
def rcApply (s : State) (c vd start vl : Nat) (els : List RcEl) : State :=
  let st := me s
  let (x, b, rs) := presentEls (raceOf s c) st.race els
  let st1 := rcWrite { st with race := b, fflags := st.fflags ||| rcFlags els } vd start vl rs
  putMe (putRace s c x) st1

/-- RCBOUND (R366, R371). -/
def execRcbound (o : RcvOps) (s : State) : Out State :=
  finish s <| vecOnly s (.rcbound o) fun _ => withCtx s o.ss true fun c s0 =>
    let s1 := freshMe s0 c
    let st := me s1
    let start := startOf s
    let vd := o.vd.toNat
    let t0 := (getS s o.ss).toNat / 2 ^ 32
    if !fieldFits st o.va.toNat 32 || !fieldFits st vd 32 then illegal s (.rcbound o)
    else
      match vsrc st o.va.toNat 32 with
      | none => illegal s (.rcbound o)
      | some (cs, st1) =>
        let s2 := putMe s1 st1
        let act := maskOf st o.m
        let x := raceOf s2 c
        let els := (cs.zipIdx.map fun (v, i) => (i, v)).filter fun e => act.getD e.1 false && decide (start ≤ e.1)
        if !racing x || !boundTo st.race c then
          .ok (putMe s2 (rcWrite st1 vd start st.vl (els.map fun e => (e.1, f32NegInf))))
        else
          match visitEls t0 s2 x st1.race els with
          | .wait s3 => .wait s3
          | .done l s3 => .ok (rcApply s3 c vd start st.vl l)
          | .full l i t s3 =>
            if l.isEmpty then partAt s (i, cIndexFull, wordOf t) id
            else
              let s4 := rcApply s3 c vd start i l
              .ok (putMe s4 { me s4 with vl := i })
          | .fail l f cause va =>
            let b := freshMe (rollback s) c
            let s3 := rcApply b c vd start f l
            .part (putMe s3 { me s3 with vstart := f, vsyl := s.slot % 4, resumeAt := 0 }) cause va f

/-- RCPICK (R366, R372). -/
def execRcpick (o : RcpickOps) (s : State) : Out State :=
  finish s <| withCtx s o.ss false fun c s0 =>
    let s1 := freshMe s0 c
    let st := me s1
    let none_ : Word := 0xFFFFFFFFFFFFFFFF#64
    if !racing (raceOf s1 c) || !boundTo st.race c then .ok (setS s1 o.sd none_)
    else
      match st.race.cands with
      | [] => .ok (setS s1 o.sd none_)
      | (_, t) :: r => .ok (setS (putMe s1 { st with race := { st.race with cands := r } }) o.sd (wordOf t))

/-- RCUPD (R366, R373). -/
def execRcupd (o : RcupdOps) (s : State) : Out State :=
  finish s <| withCtx s o.ss false fun c s0 =>
    let s1 := freshMe s0 c
    let x := raceOf s1 c
    let t := (getS s o.st).toNat % 2 ^ 32
    let v := (getS s o.sv).toNat
    if !updTakes x t then .ok s1
    else
      match tokenTables s1 x 0 t with
      | .wait s2 => .wait s2
      | .fail cause va => partAt s (0, cause, va) id
      | .ok eps a s2 => .ok (addFlags (putLeader s2 c (presentExact x t (v % 2 ^ 32) (v / 2 ^ 32) eps a)) (raiseIf a.bad flNV))

/-- LEADERM as the race unit reads it with acquire for the strand in progress (R227, R232). -/
inductive LeadGot where
  | key (k : Nat)
  | failed
  | wait (s : State)

/-- Asks another package on a stream of die 0, where the race unit stands, for the strand in progress. -/
def askRace (s : State) (pkg pa n : Nat) (va : Word) : State :=
  let st := me s
  let (tag, f1) := newTag s.fabric
  let key : StreamKey := { srcDie := fabricDie 0, dstPkg := pkg, dstDie := pa / 2 ^ 52, path := pathCode .ls }
  match sendReq f1 key kRdreq (descBytes (wireAddr pa) n 0 3 tag) s.cur tag va 0 with
  | none => s
  | some f2 =>
    putMe { s with fabric := f2 }
      { st with answers := st.answers ++ [{ slot := s.slot, elem := 0, tag := tag, data := none, atomic := false, pc := st.pc.toNat }] }

/-- Reads LEADERM. -/
def readLeaderm (s : State) (c : Nat) : LeadGot :=
  let x := raceOf s c
  let loc := fun (d l : Nat) => if readPoisoned s d l 8 then LeadGot.failed else .key (numOf (memRead s d l 8))
  match blockPlace s x .load 0 with
  | .error _ => .failed
  | .ok (.mem l _) => loc 0 l
  | .ok (.own l home) => loc home l
  | .ok (.peer pkg pa) =>
    match answerOf (me s) s.slot 0 with
    | none => .wait (askRace s pkg pa 8 x.rblk)
    | some a =>
      match a.data with
      | none => .wait (waitHere s)
      | some (.bytes b) => .key (numOf b)
      | some _ => .failed
  | .ok _ => .failed

/-- Writes every bit of a predicate (R373). -/
def predAll (st : Strand) (p : Nat) (v : Bool) : Strand :=
  if p = 0 then st else { st with preds := putAt 8 0 st.preds p (if v then BitVec.allOnes 16384 else 0) }

/-- Whether RCDROP drops (R227, R230): `h` is the largest remaining H, `l` the packed key it is compared with. -/
def dropTest (x : RaceCtx) (h : Option Nat) (l : Nat) : Bool :=
  match h with
  | none => true
  | some h =>
    if x.st = 1 then
      (!f32Fin x.margin || (x.amaxValid && decide (ordKey h ≤ ordKey x.amax))) && (x.topk == 0 || decide (ordKey h < kth x / 2 ^ 32))
    else decide (ordKey h < l / 2 ^ 32)

/-- The bit of the strand's shard. -/
def shardBit (st : Strand) : Word := 1#64 <<< st.race.shard

/-- RCDROP of a shard whose bit is set, once L* is known: the bit clears where the test says so. -/
def dropShard (s : State) (c pd l : Nat) : State :=
  let st := me s
  let x := raceOf s c
  if dropTest x (st.race.cands.head?.map (·.1)) l then
    let s1 := putMe s (predAll st pd true)
    let a := x.active &&& ~~~(shardBit st)
    let s2 := putRace s1 c { x with active := a }
    if a = 0 then activeEmpty s2 c else s2
  else putMe s (predAll st pd false)

/-- RCDROP (R227, R230, R366, R373). -/
def execRcdrop (o : RcdropOps) (s : State) : Out State :=
  let pd := o.pd.toNat
  let go := fun _ : Unit => withCtx s o.ss false fun c s0 =>
    let s1 := freshMe s0 c
    let x := raceOf s1 c
    let yes := fun s : State => Res.ok (putMe s (predAll (me s) pd true))
    if !racing x || !boundTo (me s1).race c || x.active &&& shardBit (me s1) = 0 then yes s1
    else if multiRace x then
      match readLeaderm s c with
      | .wait s2 => .wait s2
      | .failed => yes (abortCtx s1 c 4)
      | .key k => .ok (dropShard s1 c pd (max x.leader k))
    else .ok (dropShard s1 c pd x.leader)
  finish s <| if pd = 0 then go () else vecOnly s (.rcdrop o) go

/-- RCWAIT (R375). -/
def execRcwait (o : RcwaitOps) (s : State) : Out State :=
  finish s <| withCtx s o.ss false fun c s1 => if racing (raceOf s1 c) then .wait (waitHere s) else .ok (freshMe s1 c)

/-- The items of RCREAD (R375). -/
def raceItem (x : RaceCtx) (i : Nat) : Word :=
  match i with
  | 0 => wordOf x.win
  | 1 => wordOf x.plo
  | 2 => wordOf x.phi
  | _ => wordOf (raceState x)

/-- RCREAD (R375). -/
def execRcread (o : RcreadOps) (s : State) : Out State :=
  finish s <| withCtx s o.ss false fun c s1 =>
    let s2 := freshMe s1 c
    .ok (setS s2 o.sd (raceItem (raceOf s2 c) o.item.toNat))

/-- The value that −0 is stored as (R216). -/
def noNegZero (n : Nat) : Nat := if n = 2 ^ 31 then 0 else n

/-- A write of RCSET to a context register (R216, R374); none where the value is refused. -/
def setRaceReg (x : RaceCtx) (sel : Nat) (w : Word) : Option RaceCtx :=
  let v := w.toNat
  match sel with
  | 0 => some { x with nkey0 := w }
  | 1 => some { x with nkey1 := w }
  | 2 => some { x with nctx := w }
  | 3 => if v < 2 ^ 32 && f32Fin v && !f32Below v then some { x with invt := noNegZero v } else none
  | 4 => if v < 2 ^ 32 && !(fpOf f32 v).isNaN && !f32Below v then some { x with margin := noNegZero v } else none
  | 5 => if v ≤ 64 then some { x with topk := v } else none
  | 6 => if v < 2 ^ 32 && f32Fin v then some { x with ref := v } else none
  | 7 => if v < 2 ^ 32 then some { x with nh := v } else none
  | 8 => if 1 ≤ v && v ≤ 262144 then some { x with vocab := v } else none
  | 9 => if v % 2 = 0 then some { x with btab := w } else none
  | 10 => if v % 8 = 0 then some { x with atab := w } else none
  | 11 =>
    let hosts := bitsN v 14 1 == 1
    let member := bitsN v 15 1 == 1
    if bitsN v 0 10 ≤ 767 && bitsN v 10 4 = 0 && v < 2 ^ 22 && !(hosts && member) then
      some { x with home := bitsN v 0 10, hosts := hosts, member := member, nmem := bitsN v 16 6 }
    else none
  | 12 => if v % 64 = 0 then some { x with rblk := w } else none
  | _ => none

/-- RCSET ABORT (R233, R374). -/
def abortBySet (s : State) (c : Nat) : State :=
  let x := raceOf s c
  if !racing x then s
  else
    let s1 := abortCtx s c 1
    if x.hosts then blockWrite s1 c 0x18 2 true else s1

/-- RCSET (R366, R367, R374). -/
def execRcset (o : RcsetOps) (s : State) : Out State :=
  let sel := o.sel.toNat
  finish s <|
    if (12 < sel && sel < 16) || 17 < sel then illegal s (.rcset o)
    else withCtx s o.ss false fun c s0 =>
      let s1 := freshMe s0 c
      let v := getS s1 o.sv
      if sel = 16 then .ok (abortBySet s1 c)
      else if sel = 17 then
        if 64 ≤ v.toNat then .ok s1
        else .ok (putMe s1 { me s1 with race := { bound := true, ctx := c, shard := v.toNat, tag := 0, cands := [] } })
      else if racing (raceOf s1 c) then .ok s1
      else
        match setRaceReg (raceOf s1 c) sel v with
        | some x => .ok (putRace s1 c x)
        | none => .ok s1

/-! The race unit's own steps for a race over several packages (R232, R233). -/

/-- Whether the race unit has no queued or unanswered access for a context. -/
def blockIdle (s : State) (c : Nat) : Bool :=
  let st := strandOf s (raceSid c)
  st.pq.isEmpty && st.outst.isEmpty && st.late.isEmpty

/-- What a poll of the remote block finds; a failed one is forgotten with it. -/
inductive Poll where
  | bytes (b : List Byte) (s : State)
  | asked (s : State)
  | failed
  | waiting

/-- The race unit reads n bytes of a context's remote block with acquire: at once within the package, by a request and its answer from
another. -/
def pollBlock (s : State) (c off n : Nat) : Poll :=
  let x := raceOf s c
  let sid := raceSid c
  let st := strandOf s sid
  match blockPlace s x .load off with
  | .error _ => .failed
  | .ok (.mem l _) => if readPoisoned s 0 l n then .failed else .bytes (memRead s 0 l n) s
  | .ok (.own l home) => if readPoisoned s home l n then .failed else .bytes (memRead s home l n) s
  | .ok (.peer pkg pa) =>
    match st.answers.head? with
    | none =>
      let (tag, f1) := newTag s.fabric
      match sendReq f1 (streamTo st .ls pkg pa) kRdreq (descBytes (wireAddr pa) n 0 3 tag) sid tag (x.rblk + wordOf off) 0 with
      | none => .waiting
      | some f2 =>
        .asked (putStrand { s with fabric := f2 } sid
          { st with answers := [{ slot := 0, elem := 0, tag := tag, data := none, atomic := false, pc := 0 }] })
    | some a =>
      match a.data with
      | none => .waiting
      | some (.bytes b) => .bytes b (putStrand s sid { st with answers := [] })
      | some _ => .failed
  | .ok _ => .failed

/-- A failed read of the remote block aborts its context (R233). -/
def abortBlock (s : State) (c cause : Nat) : State :=
  let sid := raceSid c
  abortCtx (putStrand s sid { strandOf s sid with answers := [] }) c cause

/-- Whether a context waits for the other packages of its race. -/
def awaitsRace (x : RaceCtx) : Bool := racing x && x.st != 1 && x.active == 0 && multiRace x

/-- The terms tlo and thi of a winner that a context of this package does not hold (R222): those of its adjusted logit, which another package computed
and R232 does not carry. The race and the winner fix it (R229). DESIGN CHOICE, log 31. -/
def farTerms (x : RaceCtx) (f : Nat) : Nat × Nat :=
  let lp := (Config.winnerLogit f x.nctx x.nkey0 x.nkey1 x.invt).toNat
  (raceTerm x .rdn lp, raceTerm x .rup lp)

/-- One step of a home context (R232): FINAL and FSTATE are written once RACTIVE is 0 (`fin`), or the four cells are merged and the race resolves
once ZDONE = NMEM. It never resolves while RACTIVE holds a bit (R233). -/
def homeStep (s : State) (c : Nat) (fin : Bool) : Option State :=
  let x := raceOf s c
  if !(awaitsRace x && x.hosts && blockIdle s c) then none
  else
    match pollBlock s c 0 320 with
    | .bytes b s1 =>
      let fstate := leAt b 0x18 8
      if fin then
        if fstate = 0 && leAt b 8 8 = 0 then
          some (blockWrite (blockWrite s1 c 0x10 (max x.leader (leAt b 0 8)) false) c 0x18 1 true)
        else none
      else if fstate = 1 && leAt b 8 8 = 0 && leAt b 0x20 8 = x.nmem then
        let f := leAt b 0x10 8
        let cell := fun k => eaOfBytes (sliceBytes b (0x40 + 64 * k) 64)
        let y := foldLog x f
        let x1 :=
          { y with
            zevlo := eaMerge y.zevlo (cell 0), zevhi := eaMerge (sumView y.zevhi y.infEv) (cell 1),
            zunlo := eaMerge y.zunlo (cell 2), zunhi := eaMerge (sumView y.zunhi y.infUn) (cell 3) }
        let x2 := { x1 with infEv := boolN (eaFlag x1.zevhi eaPinf), infUn := boolN (eaFlag x1.zunhi eaPinf) }
        let own := if x.leader = f then some (x.leadLo, x.leadHi) else
          ((s.race.find? fun y => y.2.leader == f && y.2.member && y.2.nctx == x.nctx).map fun y => (y.2.leadLo, y.2.leadHi))
        let (lo, hi) := own.getD (farTerms x f)
        some (putRace s1 c (resolveRace x2 f lo hi))
      else none
    | .failed => some (abortBlock s c 4)
    | .asked s1 => some s1
    | .waiting => none

/-- A member that sees FSTATE = 1 (R232): it folds and merges its sums. -/
def mergeMember (s : State) (c f : Nat) : State :=
  let x := foldLog (raceOf s c) f
  let cell := fun (s : State) (k : Nat) (a : EA) => blockAtomic s c (0x40 + 64 * k) 64 .ea a.toNat false
  let s1 := cell (cell (cell (cell (putRace s c { x with merging := some f }) 0 x.zevlo) 1 (sumView x.zevhi x.infEv)) 2 x.zunlo) 3 (sumView x.zunhi x.infUn)
  blockAtomic s1 c 0x20 8 .add 1 true

/-- The end of a member's race, once its sums have been merged (R232): a failed access has aborted it before (R233). -/
def endMember (s : State) (c f : Nat) : State :=
  let x := raceOf s c
  let w := if f = 0 then 0xFFFFFFFF else 0xFFFFFFFF - f % 2 ^ 32
  putRace s c { x with st := 3, win := w, empty := f == 0, bviol := x.log.any (·.viol), plo := 0, phi := f32One, merging := none }

/-- One step of a member context (R232, R233): it reads FINAL and FSTATE; `abort` asks for the abort of R233, else for the merge and the end. -/
def memberStep (s : State) (c : Nat) (abort : Bool) : Option State :=
  let x := raceOf s c
  if !(racing x && x.member) then none
  else
    match x.merging with
    | some f => if !abort && blockIdle s c then some (endMember s c f) else none
    | none =>
      match pollBlock s c 0x10 16 with
      | .waiting => none
      | .failed => some (abortBlock s c 4)
      | .asked s1 => some s1
      | .bytes b s1 =>
        let fstate := leAt b 8 8
        if fstate = 2 then (if abort then some (abortCtx s1 c 5) else none)
        else if fstate = 1 && awaitsRace x then (if abort then none else some (mergeMember s1 c (leAt b 0 8)))
        else if s1.strands = s.strands then none
        else some s1

/-- The four steps, on a context number. -/
def raceEvent (s : State) (name : String) (f : Nat → Option State) : Out State :=
  match s.arg with
  | .n1 c =>
    match f (c % 64) with
    | some s1 => .next s1
    | none => .refused (.notEnabled name)
  | _ => .refused (.notEnabled name)

def execHomeFinalize (s : State) : Out State := raceEvent s "HOME_FINALIZE" fun c => homeStep s c true
def execHomeResolve (s : State) : Out State := raceEvent s "HOME_RESOLVE" fun c => homeStep s c false
def execMemberMerge (s : State) : Out State := raceEvent s "MEMBER_MERGE" fun c => memberStep s c false
def execMemberAbort (s : State) : Out State := raceEvent s "MEMBER_ABORT" fun c => memberStep s c true

/-- Contexts whose accesses to the remote block have failed enter aborted (R233). A failed write of another unit is reported to nobody. Log 16. -/
def raceLates (s : State) : State :=
  let s1 := (List.range 64).foldl (fun s c =>
    let st := strandOf s (raceSid c)
    if st.late.isEmpty then s else abortCtx (putStrand s (raceSid c) { st with late := [] }) c 4) s
  let u := strandOf s1 unitSid
  if u.late.isEmpty then s1 else putStrand s1 unitSid { u with late := [] }

end Sys2Proof.Machine
end

