-- ==== Sys2Proof/Machine/Records.lean ====
section
/-! DEFINITION. Record control: DONE, LAUNCH and CANCEL (R98, R101, R108, R289, R291, R292). -/

namespace Sys2Proof.Machine

/-- A successor record from the 32 bytes that DONE reads (R98, R101). -/
def successorOf (r : Record) (b : List Byte) : Record :=
  { Record.none with
    queue := r.queue, launch := r.launch, tenant := r.tenant, prio := r.prio, share := r.share, aff := r.aff,
    clock := r.clock, code := wordOf (leAt b 0 8 / 16 * 16), frame := wordOf (leAt b 8 8), first := wordOf (leAt b 16 8), count := leAt b 24 4,
    args := r.args, parent := r.parent }

/-- Whether word 0 of a successor is malformed (R289). -/
def successorBad (r : Record) (b : List Byte) : Bool :=
  let w := leAt b 0 8
  bitsN w 3 1 == 1 || bitsN w 0 1 == 1 || bitsN w 1 2 == 3 || bitsN w 1 2 != r.share

/-- Releases the array slices of a strand (R199). -/
def releaseHold (s : State) (st : Strand) : State :=
  match holdOf s st with
  | none => s
  | some _ =>
    let l := (NMap.getD s.mx st.clusterKey []).filter fun h => !(h.owner == mxOwner st && h.rank == st.rank)
    { s with mx := NMap.set s.mx st.clusterKey l }

/-- Frees the save slot of a strand that ends (R115). The slots of its gang's other members stay. -/
def releaseSlot (s : State) (st : Strand) : State :=
  match ownSlot s st with
  | none => s
  | some n =>
    let x := dispOf s st.die
    let s1 := putDisp s st.die { x with saved := NMap.erase x.saved n }
    { s1 with strands := s1.strands.map fun e =>
        if e.2.rec_.child == st.rec_.child && e.2.die == st.die then (e.1, { e.2 with rec_ := { e.2.rec_ with slots := eraseN e.2.rec_.slots n } })
        else e }

/-- The end of a strand (R98, R289), before waiting faults are served: its child cell's continuation is set and its count falls, and the slot, the array
slices and the index partition are free. -/
def takeOff (s : State) (st : Strand) (succ : Option Record) : State :=
  let s1 := releaseSlot (releaseHold s st) st
  let s2 := { s1 with strands := NMap.erase s1.strands st.sid }
  match st.rec_.child with
  | none => s2
  | some c =>
    let unset := match NMap.get? s2.cells c with
      | some x => x.cont == .unset
      | none => false
    let k : Cont :=
      match succ with
      | some r => .enqueue r
      | none => .subParent st.rec_.parent
    subCell (if st.rank = 0 || unset then setCont s2 c k else s2) c 1

/-- The end of a strand; waiting faults are then served (R113). -/
def endStrand (s : State) (st : Strand) (succ : Option Record) : State := serveFaults (takeOff s st succ) st.die

/-- The address of a successor: s[sa] as the race syllables of the convoy found it (R364). -/
def doneAddr (s : State) (sa : BitVec 5) : Word :=
  let l := (me s).beforeRace
  if l.isEmpty || sa = 0 then getS s sa else l.getD sa.toNat 0

/-- Whether accesses of the issuing strand are under way: in its path queues, or not answered (R289). -/
def underWay (st : Strand) : Bool := !st.pq.isEmpty || unanswered st none || overfull st

/-- The end of DONE, once its successor is known: what its own convoy queued leaves too, and the strand ends. Where that must wait, what cannot be taken
back is noted, so that DONE, issued again, does not do it twice (R416). -/
def doneEnd (s : State) (succ : Option Record) : Res :=
  let s1 := enterAll s
  if !(me s1).late.isEmpty || underWay (me s1) then .wait (waitOr s s1)
  else
    let s2 := writeMarks s1
    .ok (endStrand s2 (me s2) succ)

/-- DONE (R289): it waits for the strand's stores, outstanding accesses and tokens, takes their faults in order, reads a successor, and
ends the strand. A late failure that reaches the strand while DONE waits is taken before the convoy goes on (R416). -/
def execDone (o : S1a) (s : State) : Out State :=
  let st := me s
  finish s <|
    if st.trunk then illegal s (.done o)
    else
      let s1 := flushStrand s s.cur
      if !(me s1).late.isEmpty || underWay (me s1) then .wait (waitHere s)
      else
        awaitToks s1 (List.range 8) fun _ =>
          let va := doneAddr s o.sa
          if o.sa = 0 || st.rank ≠ 0 then doneEnd s1 none
          else
            withPlace s1 .load 32 va fun p s2 =>
              (readNow s2 0 (mkAcc .ls p va 32 .read false false false)).res va 0 fun b _ s3 =>
                if successorBad st.rec_ b then .trap cLaunch va 0 else doneEnd s3 (some (successorOf st.rec_ b))

/-- Whether a join link names a live child cell of a tenant (R291). -/
def linkOk (s : State) (tenant c : Nat) : Bool :=
  match NMap.get? s.cells c with
  | some x => x.isChild && x.tenant == tenant
  | none => false

/-- The address of the slot at WQTAIL (R85, R291). -/
def tailSlot (x : WorkQueue) : Word := wordOf (x.base.toNat + x.tail)

/-- Steps 6 and 7 of LAUNCH (R291), one step: the parent cell's count rises, the packet stands in the slot at WQTAIL, where die 0 sees it after the
strand's earlier accesses (R173), and the launch id goes to sd. -/
def enqueueLaunch (s : State) (q : Nat) (sd : BitVec 5) (place : Place) (b : List Byte) : State :=
  let x := queueOf s q
  let w3 := leAt b 24 8
  let s1 := if leAt b 0 1 = 3 then addCell s (w3 / 2 ^ 32) 1 else s
  let s2 :=
    match place with
    | .mem loc home => memWrite s1 (me s1).die loc home b
    | .own loc home => memWrite s1 home loc home b
    | .peer pkg pa => unitSend s1 pkg pa (tailSlot x) b true
    | _ => s1
  let e := match place with
    | .own _ home => home
    | _ => (me s1).die
  let s3 := { s2 with ord := reach s2.ord 0 (appliedOf s2.ord e) }
  let s4 := putQueue s3 q { x with tail := (x.tail + 64) % (64 * queueSlots x), nextId := nextId x.nextId }
  setS (standNow (putMe s4 (noteDone (me s4) s.slot noteElem (bytesOf 8 x.nextId)))) sd (wordOf x.nextId)

/-- LAUNCH (R291), made once. -/
def execLaunch (o : S3) (s : State) : Out State :=
  let st := me s
  let va := getS s o.sa
  let n := getS s o.sb
  let q := 512 + 64 * st.tenant + n.toNat
  finish s <|
    if st.trunk then illegal s (.launch o)
    else match doneBefore s noteElem with
    | some b => .ok (setS s o.sd (wordOf (numOf b)))
    | none =>
      withPlace s .load 64 va fun p s1 =>
        (readNow s1 0 (mkAcc .ls p va 64 .read true false false)).res va 0 fun b _ s2 =>
          let x := queueOf s2 q
          let w := fun i => leAt b (8 * i) 8
          let plink := w 3 / 2 ^ 32
          if 63 < n.toNat || !x.en || x.stop ≠ 0 then .trap cLaunch n 0
          else if (badWord false x.nextId w).isSome then .trap cLaunch va 0
          else if leAt b 0 1 = 3 && !linkOk s2 st.tenant plink then .trap cLaunch (wordOf plink) 0
          else if queueSlots x - 1 ≤ queueHeld x then .wait (waitHere s)
          else
            match checkScalar s2 (me s2) .store 64 (tailSlot x) with
            | .error c => .trap c (tailSlot x) 0
            | .ok pl => .ok (enqueueLaunch s2 q o.sd pl b)

/-- Serves every die's stopped strands. -/
def serveAll (s : State) : State := (List.range 8).foldl (fun s d => serveFaults s (d + 1)) s

/-- The queue that CANCEL names (R292). -/
def cancelQueue (st : Strand) (v : Nat) : Option Nat :=
  if st.trunk then (if v < 4608 then some v else none)
  else if v < 8 then some (8 * st.tenant + v)
  else if v < 72 then some (512 + 64 * st.tenant + (v - 8))
  else none

/-- CANCEL (R108, R292), made once. -/
def execCancel (o : S3) (s : State) : Out State :=
  let v := getS s o.sa
  finish s <|
    match doneBefore s noteElem, cancelQueue (me s) v.toNat with
    | some b, _ => .ok (setS s o.sd (wordOf (numOf b)))
    | none, none => .trap cLaunch v 0
    | none, some q =>
      let (s1, r) := cancelLaunch s q (launchNo (queueOf s q) ((getS s o.sb).toNat % 2 ^ 32)) 1
      let s2 := serveAll s1
      .ok (setS (standNow (putMe s2 (noteDone (me s2) s.slot noteElem (bytesOf 8 r.toNat)))) o.sd r)

end Sys2Proof.Machine
end

