-- ==== Sys2Proof/Machine/Sched.lean ====
section
/-! DEFINITION. The dispatchers (R100 to R106, R114, R115): placement and choice, dispatch and restore, aging and pre-emption. -/

namespace Sys2Proof.Machine

/-- How an event ends: it takes place, or its conditions do not hold. -/
def event (name : String) (r : Option State) : Out State :=
  match r with
  | some s => .next s
  | none => .refused (.notEnabled name)

/-- A P- or D-die number. -/
def computeDie (d : Nat) : Bool := 1 ≤ d && d ≤ 8

/-! Placement (R102). -/

/-- The strand number of a slot of a die, 0 to 511. -/
def slotSid (d k : Nat) : Nat := 512 * d + k

/-- Whether a strand slot holds no record. -/
def slotFree (s : State) (sid : Nat) : Bool := (strandOf s sid).run == .idle

/-- Bytes of a core's register file that its resident strands hold (R102). -/
def shareUsed (s : State) (d core : Nat) : Nat :=
  (List.range 4).foldl (fun n k =>
    let st := strandOf s (slotSid d (4 * core + k))
    if st.run == .idle then n else n + shareBytes st.rec_.share) 0

/-- Whether all lane groups of a core are retired (R117). -/
def coreRetired (s : State) (d core : Nat) : Bool := NMap.getD (dispOf s d).lanedis core 0 == 0xFF#8

/-- The slots of a core that can take strands of a share class, given the bytes in use, lowest first. -/
def takeSlots (s : State) (d core share : Nat) : List Nat → Nat → List Nat
  | [], _ => []
  | k :: t, used =>
    if slotFree s (slotSid d (4 * core + k)) && decide (used + shareBytes share ≤ 524288) then
      (4 * core + k) :: takeSlots s d core share t (used + shareBytes share)
    else takeSlots s d core share t used

/-- The slots of a cluster that can take strands of a share class at once (R102). -/
def clusterSlots (s : State) (d cluster share : Nat) : List Nat :=
  ((List.range 4).map fun i =>
    let core := 4 * cluster + i
    if coreRetired s d core then [] else takeSlots s d core share (List.range 4) (shareUsed s d core)).flatten

/-- Whether a cluster is reserved for another record that still waits (R103); while AGEQ is 0 a die reserves none. -/
def heldForOther (s : State) (d cluster : Nat) (r : Record) : Bool :=
  (dispOf s d).ageq != 0 && (dispOf s d).reserved.any fun e => e.1 == cluster && e.2 != r.order && s.ready.any fun x => x.order == e.2

/-- Whether a record matches slots of a cluster now (R100, R102, R103): all its strands, or none. -/
def matchesIn (s : State) (r : Record) (d cluster : Nat) : Bool :=
  !r.parked && recAllows r d cluster && !heldForOther s d cluster r && decide (liveMembers r ≤ (clusterSlots s d cluster r.share).length)

/-- Whether a record matches slots of a die now. -/
def matchesOn (s : State) (r : Record) (d : Nat) : Bool := (List.range 32).any (matchesIn s r d)

/-- Whether slots of a die are a placement of a record (R100, R102): its number of free slots of one cluster, whose cores hold its
shares. -/
def placeOk (s : State) (r : Record) (d : Nat) (slots : List Nat) : Bool :=
  match slots with
  | [] => false
  | k :: _ =>
    let cl := k / 16
    slots.length == liveMembers r && slots.Nodup && matchesIn s r d cl &&
      slots.all fun x => decide (x < 512) && x / 16 == cl && slotFree s (slotSid d x) && !coreRetired s d (x / 4) &&
        decide (shareUsed s d (x / 4) + (slots.filter fun y => y / 4 == x / 4).length * shareBytes r.share ≤ 524288)

/-! Choice (R103, R104). -/

/-- The aging quantum of a die (R105). -/
def ageqOf (s : State) (d : Nat) : Nat := (dispOf s d).ageq

/-- The aged priority of a record on a die (R104). -/
def agedPrio (s : State) (d : Nat) (r : Record) : Nat :=
  if ageqOf s d = 0 then r.prio else min 7 (r.prio + (s.power.working - r.readyAt) / ageqOf s d)

/-- The weight of a tenant (R105): 0 acts as 1. -/
def weightOf (s : State) (t : Nat) : Nat := max 1 (NMap.getD s.tweight t 1)

/-- The tenant that is served at a priority, of those with a matching record, and its dispatches with this one (R103). -/
def nextTenant (s : State) (x : Dispatcher) (prio : Nat) (ts : List Nat) : Nat × Nat :=
  let (last, n) := NMap.getD x.rr prio (63, 256)
  if hasN ts last && n < weightOf s last then (last, n + 1)
  else
    match ts.find? fun t => decide (last < t) with
    | some t => (t, 1)
    | none => (ts.headD 0, 1)

/-- The record of a list that became ready first. -/
def oldestRec : List Record → Option Record
  | [] => none
  | r :: t =>
    match oldestRec t with
    | none => some r
    | some x => if r.order < x.order then some r else some x

/-- The record that a die's dispatcher takes next, its aged priority, and the round-robin state it leaves (R103). -/
def chooseRec (s : State) (d : Nat) : Option (Record × Nat × (Nat × Nat)) :=
  let c := s.ready.filter fun r => matchesOn s r d
  let p := c.foldl (fun m r => max m (agedPrio s d r)) 0
  let cp := c.filter fun r => agedPrio s d r == p
  let ts := cp.foldl (fun l r => insertN l r.tenant) []
  let (t, n) := nextTenant s (dispOf s d) p ts
  (oldestRec (cp.filter fun r => r.tenant == t)).map fun r => (r, p, (t, n))

/-- Notes the gang records that a die passes over now (R103). -/
def notePassed (s : State) (d : Nat) : State :=
  { s with
    ready := s.ready.map fun r =>
      if r.gang && !r.parked && (List.range 32).any (recAllows r d) && !matchesOn s r d && (NMap.get? r.passed d).isNone then
        { r with passed := NMap.set r.passed d s.power.working }
      else r }

/-! Dispatch (R98, R106). -/

/-- The scalar registers of a fresh strand (R106). -/
def freshRegs (r : Record) (child rank : Nat) : List Word :=
  [0, r.first, wordOf r.count, r.frame, r.args.getD 0 0, r.args.getD 1 0, r.args.getD 2 0, wordOf child, wordOf (r.launch % 2 ^ 32),
    wordOf (if r.gang then rank else 0)] ++ List.replicate 22 0

/-- A strand of a freshly dispatched record (R106). -/
def freshStrand (s : State) (r : Record) (child rank sid : Nat) : Strand :=
  let x := Strand.idle sid false
  { x with
    run := .running, rec_ := r, rank := rank, pc := r.code, npc := r.code, regs := freshRegs r child rank,
    maxvl := maxvlOf x.budget r.share (lanesRetired s x), since := s.power.working, dispOrder := s.orderNo }

/-- Puts strands of a fresh record on their slots, in increasing rank. -/
def placeFresh (s : State) (r : Record) (child d : Nat) : Nat → List Nat → State
  | _, [] => s
  | rank, k :: t =>
    let sid := slotSid d k
    placeFresh (putStrand s sid (freshStrand s r child rank sid)) r child d (rank + 1) t

/-- Whether a record counts elements of its launch: a successor does too (R108). -/
def countDispatched (s : State) (r : Record) : State :=
  updLaunch s r.queue r.launch fun l => { l with dispatched := l.dispatched + r.count }

/-- Dispatches a fresh record (R98, R106): it receives its child cell, and its first convoy sees every write that its launch packet sees, as after an
acquire read of the packet on the record's die (R172). -/
def dispatchFresh (s : State) (r : Record) (d : Nat) (slots : List Nat) : State :=
  let (c, s1) := allocCell s { count := liveMembers r, tenant := r.tenant, isChild := true, cont := .unset }
  let s2 := countDispatched { s1 with ord := reach s1.ord d r.clock } r
  let r1 := { r with child := some c, cluster := some (d * 32 + slots.headD 0 / 16) }
  { placeFresh s2 r1 c d 0 slots with orderNo := s.orderNo + 1 }

/-- Restores a saved strand to a slot (R106, R109, R115): the state of its save slot, its pc at the saved EPC. A repeat state that fails
a check of R137 is an illegal-instruction at EPC, with ACTIVE clear. -/
def restoreTo (s : State) (d sid n : Nat) (v : Saved) (r : Record) : State :=
  let x := restoreSlot s d n v
  let st := { x with
    run := .running, sid := sid, rec_ := r, npc := x.pc, cap := [], pq := [], wbuf := [], marks := [], beforeRace := [], early := [],
    fed := if x.pc = v.strand.pc then x.fed else [], outst := [], answers := (unstash s x).answers, since := s.power.working,
    dispOrder := s.orderNo, faulted := false, reported := false, lateStop := false, yielded := 0 }
  let bad := rptBad st
  let st1 := if bad then { st with rpt := { st.rpt with active := false } } else st
  let s1 := resendFlits (moveFlits (putStrand s sid st1) (savedSid v.strand) sid) sid
  if bad then
    let w := match fetchWords s1 st1 st1.pc with
      | .ok ws => ws.getD (st.epc.toNat % 4) 0
      | .error _ => 0
    let s2 := takeException { s1 with cur := sid, slot := st.epc.toNat % 4 } cIllegal (w.setWidth 64) 0
    { s2 with cur := s.cur, slot := s.slot }
  else s1

/-- Restores the strands of a resumed record, one for each save slot. -/
def restoreAll (s : State) (r : Record) (d : Nat) : List Nat → List Nat → State
  | n :: ns, k :: ks =>
    let s1 :=
      match NMap.get? (dispOf s r.svDie).saved n with
      | some v => restoreTo s d (slotSid d k) n v r
      | none => s
    restoreAll s1 r d ns ks
  | _, _ => s

/-- Places a record on slots of a die (R103, R106). -/
def dispatchRec (s : State) (r : Record) (d : Nat) (slots : List Nat) : State :=
  let s1 :=
    { s with
      ready := s.ready.filter fun y => y.order != r.order
      disp := s.disp.map fun x => (x.1, { x.2 with reserved := x.2.reserved.filter fun e => e.2 != r.order }) }
  if r.resume then { restoreAll s1 { r with parked := false } d r.slots slots with orderNo := s.orderNo + 1 }
  else dispatchFresh s1 r d slots

/-- The dispatcher of a die serves its next record (R103): `slots` is its placement among the free slots. -/
def dispatchStep (s : State) (d : Nat) (slots : List Nat) : Option State :=
  if !computeDie d || pdHeld s then none
  else
    match chooseRec s d with
    | none => none
    | some (r, p, rr) =>
      if placeOk s r d slots then
        let s1 := notePassed s d
        let x := dispOf s1 d
        some (dispatchRec (putDisp s1 d { x with rr := NMap.set x.rr p rr }) { r with passed := [] } d slots)
      else none

/-- RECORD_DISPATCH: the die and the slots. -/
def execRecordDispatch (s : State) : Out State :=
  match s.arg with
  | .place d slots => event "RECORD_DISPATCH" (dispatchStep s d slots)
  | _ => event "RECORD_DISPATCH" none

/-- The first slots that hold a record, in the first cluster where it matches. -/
def firstPlace (s : State) (r : Record) (d : Nat) : Option (List Nat) :=
  ((List.range 32).find? (matchesIn s r d)).map fun cl => (clusterSlots s d cl r.share).take (liveMembers r)

/-! Aging (R103, R104). -/

/-- Whether a gang record has been passed over by a die for one aging quantum (R103). -/
def agedOver (s : State) (d : Nat) (r : Record) : Bool :=
  match NMap.get? r.passed d with
  | none => false
  | some c => r.gang && !r.parked && decide (c + ageqOf s d ≤ s.power.working) && !matchesOn s r d

/-- Free slots of a cluster. -/
def freeIn (s : State) (d cluster : Nat) : Nat := ((List.range 16).filter fun k => slotFree s (slotSid d (16 * cluster + k))).length

/-- The allowed, unreserved cluster with the most free slots (R103), the lowest among equals. -/
def reserveCluster (s : State) (d : Nat) (r : Record) : Option Nat :=
  (List.range 32).foldl (fun (b : Option Nat) k =>
    if !recAllows r d k || heldForOther s d k r then b
    else
      match b with
      | none => some k
      | some j => if freeIn s d j < freeIn s d k then some k else b) none

/-- Whether a die has reserved a cluster for a record: each reserves by its own AGEQ (R103, R104). -/
def hasReserve (s : State) (d : Nat) (r : Record) : Bool := (dispOf s d).reserved.any fun e => e.2 == r.order

/-- Reserves clusters of a die for the gang records that it has passed over for one quantum (R103). -/
def reserveStep (s : State) (d : Nat) : State :=
  s.ready.foldl (fun s r =>
    if agedOver s d r && !hasReserve s d r then
      match reserveCluster s d r with
      | some k => let x := dispOf s d; putDisp s d { x with reserved := x.reserved ++ [(k, r.order)] }
      | none => s
    else s) s

/-- AGING_QUANTUM: a quantum of a die's AGEQ ends. Aged priorities follow from the working cycles that a record has waited (R104); the
gang records that the die passes over are noted, and those passed over for one quantum get a cluster reserved (R103). -/
def agingStep (s : State) (d : Nat) : Option State :=
  if !computeDie d || ageqOf s d = 0 || pdHeld s then none else some (reserveStep (notePassed s d) d)

def execAgingQuantum (s : State) : Out State :=
  match s.arg with
  | .n1 d => event "AGING_QUANTUM" (agingStep s d)
  | _ => event "AGING_QUANTUM" none

/-! Pre-emption (R114, R115). -/

/-- Whether pre-emption may choose a strand: it runs. -/
def preemptable (st : Strand) : Bool := !st.trunk && st.run == .running

/-- Whether a record would match in a strand's cluster were the strand's record gone (R102, R114): a gang leaves whole, and a gang needs GSIZE
slots. -/
def wouldMatch (s : State) (r : Record) (st : Strand) : Bool :=
  let g := (gangOf s st).map (·.sid)
  matchesIn { s with strands := s.strands.filter fun x => !hasN g x.1 } r st.die st.cluster

/-- Free save slots that a pre-emption may take: those that no stopped strand waits for (R113, R114). -/
def saveRoom (s : State) (d : Nat) : Nat :=
  match oldestStopped s d 0 with
  | none => (freeSlotsOf (dispOf s d)).length
  | some st => if lackSlots s (gangOf s st) = 0 then (freeSlotsOf (dispOf s d)).length else 0

/-- Whether a strand's record can be saved (R114): its members all run, and save slots are free for those that hold none. -/
def canPreempt (s : State) (st : Strand) : Bool :=
  let g := gangOf s st
  g.all (fun m => m.run == .running) && decide (lackSlots s g ≤ saveRoom s st.die)

/-- The strand of a list with the lowest packet priority, the latest dispatched among equals (R114). -/
def lowestStrand : List Strand → Option Strand
  | [] => none
  | st :: t =>
    match lowestStrand t with
    | none => some st
    | some x =>
      if x.rec_.prio < st.rec_.prio || (x.rec_.prio == st.rec_.prio && decide (st.dispOrder ≤ x.dispOrder)) then some x else some st

/-- The resident strands of a die that pre-emption may choose. -/
def victims (s : State) (d : Nat) : List Strand := (s.strands.filter fun x => preemptable x.2 && x.2.die == d).map (·.2)

/-- Every member of a strand's record stops issuing and drains (R114). -/
def beginDrain (s : State) (st : Strand) : State :=
  (gangOf s st).foldl (fun s m => putStrand s m.sid { m with run := .draining }) s

/-- PREEMPT_PRIORITY: a ready record of a die that finds no slot pre-empts the lowest resident record below its packet priority. -/
def preemptPrio (s : State) (d order : Nat) : Option State :=
  match s.ready.find? fun r => r.order == order && !r.parked with
  | none => none
  | some r =>
    if !computeDie d || matchesOn s r d || pdHeld s then none
    else
      match lowestStrand ((victims s d).filter fun st => wouldMatch s r st && decide (st.rec_.prio < r.prio)) with
      | none => none
      | some st => if canPreempt s st then some (beginDrain s st) else none

def execPreemptPriority (s : State) : Out State :=
  match s.arg with
  | .n2 d o => event "PREEMPT_PRIORITY" (preemptPrio s d o)
  | _ => event "PREEMPT_PRIORITY" none

/-- Whether a record waits for a slot that a strand holds, at its packet priority or above (R114). -/
def wantedBy (s : State) (st : Strand) : Bool :=
  s.ready.any fun r => !r.parked && decide (st.rec_.prio ≤ r.prio) && wouldMatch s r st && !matchesOn s r st.die

/-- PREEMPTION_QUANTUM: a record has run PREQ working cycles while a record of its priority or above waits. -/
def preemptQuantum (s : State) (sid : Nat) : Option State :=
  let st := strandOf s sid
  let q := (dispOf s st.die).preq
  if !pdHeld s && preemptable st && q != 0 && decide (st.since + q ≤ s.power.working) && wantedBy s st && canPreempt s st then some (beginDrain s st)
  else none

def execPreemptionQuantum (s : State) : Out State :=
  match s.arg with
  | .n1 sid => event "PREEMPTION_QUANTUM" (preemptQuantum s sid)
  | _ => event "PREEMPTION_QUANTUM" none

/-- PREEMPT_SAVE (R114, R115): once its members have drained, their full queues too (R131), and hold no late failure, a record is saved and requeued. Where save slots are
lacking by then, the pre-emption does not happen. -/
def preemptSave (s : State) (sid : Nat) : Option State :=
  let st := strandOf s sid
  let g := gangOf s st
  if pdHeld s || st.run != .draining || !(g.all fun m => m.run == .draining) then none
  else if saveRoom s st.die < lackSlots s g then some (g.foldl (fun s m => putStrand s m.sid { m with run := .running }) s)
  else if !(g.all fun m => drained s m && m.late.isEmpty && !overfull m) then none
  else
    let as_ := assignSlots s g (freeSlotsOf (dispOf s st.die))
    let r := { st.rec_ with slots := as_.map (·.2), svDie := st.die, cluster := some st.clusterKey, resume := true, parked := false }
    some (enqueueRec (saveAll s as_ false) r)

def execPreemptSave (s : State) : Out State :=
  match s.arg with
  | .n1 sid => event "PREEMPT_SAVE" (preemptSave s sid)
  | _ => event "PREEMPT_SAVE" none

/-- SAVE_SLOT_FREED (R113): the stopped strands of a die are saved while slots and the ring allow. -/
def execSaveSlotFreed (s : State) : Out State :=
  match s.arg with
  | .n1 d => event "SAVE_SLOT_FREED" (if computeDie d && !pdHeld s then some (serveFaults s d) else none)
  | _ => event "SAVE_SLOT_FREED" none

/-- RESUMEW (R109): die and save slot number. -/
def execResumew (s : State) : Out State :=
  match s.arg with
  | .nw d v => event "RESUMEW" (if computeDie d then some (resumeRecord s d v.toNat) else none)
  | _ => event "RESUMEW" none

/-- KILLW (R109). -/
def execKillw (s : State) : Out State :=
  match s.arg with
  | .nw d v => event "KILLW" (if computeDie d then some (killRecord s d v.toNat) else none)
  | _ => event "KILLW" none

/-- FLTTAIL_WRITE (R105, R112). -/
def execFlttailWrite (s : State) : Out State :=
  match s.arg with
  | .nw d v => event "FLTTAIL_WRITE" (if computeDie d then some (writeFlttail s d v) else none)
  | _ => event "FLTTAIL_WRITE" none

/-- FLTCTL_WRITE (R105). -/
def execFltctlWrite (s : State) : Out State :=
  match s.arg with
  | .nw d v => event "FLTCTL_WRITE" (if computeDie d then some (writeFltctl s d v) else none)
  | _ => event "FLTCTL_WRITE" none

/-! The end of a resetting tenant's records (R118). -/

/-- Ends the running strands of a tenant at their convoy boundary (R118): nothing of a convoy that waits stands, their queued accesses leave first, and
no successor of theirs runs. -/
def endTenantStrands (s : State) (t : Nat) : State :=
  (s.strands.filter fun x => !x.2.trunk && x.2.run != .idle && x.2.rec_.tenant == t && 512 ≤ x.1).foldl (fun s x =>
    let s1 := flushStrand (abandon s x.1) x.1
    let st := strandOf s1 x.1
    let s2 := match st.rec_.child with
      | some c => setCont s1 c (.subParent st.rec_.parent)
      | none => s1
    takeOff s2 st none) s

/-- The running records of the tenants that are being reset end, and waiting faults are then served (R113). While the P- and D-dies are held their
strands stay where they are (R16, R23). -/
def endTenants (s : State) : State :=
  let l := (s.tenants.filter fun e => e.2.phase == 2).map (·.1)
  if pdHeld s || l.isEmpty then s else serveAll (l.foldl endTenantStrands s)

/-! Work queues (R87 to R99). -/

/-- WQTAIL_WRITE (R89). -/
def execWqtailWrite (s : State) : Out State :=
  match s.arg with
  | .nw q v => event "WQTAIL_WRITE" (if q < 4608 then some (writeTail s q v) else none)
  | _ => event "WQTAIL_WRITE" none

/-- WQCTL_WRITE (R88). -/
def execWqctlWrite (s : State) : Out State :=
  match s.arg with
  | .nw q v => event "WQCTL_WRITE" (if q < 4608 then some (writeWqctl s q v) else none)
  | _ => event "WQCTL_WRITE" none

/-- WQSTAT_CLR (R89). -/
def execWqstatClr (s : State) : Out State :=
  match s.arg with
  | .n1 q => event "WQSTAT_CLR" (if q < 4608 then some (clearStop s q) else none)
  | _ => event "WQSTAT_CLR" none

/-- PACKET_CONSUME (R86, R92). -/
def execPacketConsume (s : State) : Out State :=
  match s.arg with
  | .n1 q => event "PACKET_CONSUME" (if canConsume (queueOf s q) then consumePacket s q else none)
  | _ => event "PACKET_CONSUME" none

/-- LAUNCH_READY (R94, R96): a pending launch whose dependence is met. -/
def launchReady (s : State) (q id : Nat) : Option State :=
  match (pendingSet (queueOf s q)).find? fun l => l.id == id with
  | none => none
  | some l => if depMet (queueOf s q) l then readyLaunch s q l else none

def execLaunchReady (s : State) : Out State :=
  match s.arg with
  | .n2 q id => event "LAUNCH_READY" (launchReady s q id)
  | _ => event "LAUNCH_READY" none

/-- RECORD_EXPAND (R97, R98). -/
def recordExpand (s : State) (q id : Nat) : Option State :=
  match launchOf s q id with
  | none => none
  | some l => if canExpand s l then some (expandRecord s q l) else none

def execRecordExpand (s : State) : Out State :=
  match s.arg with
  | .n2 q id => event "RECORD_EXPAND" (recordExpand s q id)
  | _ => event "RECORD_EXPAND" none

/-- LAUNCH_COMPLETE (R99). -/
def launchComplete (s : State) (q id : Nat) : Option State :=
  match launchOf s q id with
  | none => none
  | some l => if canComplete (queueOf s q) l then some (completeLaunch s q l) else none

def execLaunchComplete (s : State) : Out State :=
  match s.arg with
  | .n2 q id => event "LAUNCH_COMPLETE" (launchComplete s q id)
  | _ => event "LAUNCH_COMPLETE" none

/-- LAUNCH_ENQUEUE (R291): steps 5 to 7 of LAUNCH for the strand at `cur`: the queue has room, and the packet at an address stands its
checks. -/
def launchEnqueue (s : State) (q sd pa : Nat) : Option State :=
  let st := me s
  let x := queueOf s q
  match checkScalar s st .load 64 (wordOf pa) with
  | .ok (.mem loc _) =>
    let b := memRead s st.die loc 64
    let w := fun i => leAt b (8 * i) 8
    if st.trunk || st.run != .running || pdHeld s || q / 64 != 8 + st.tenant || !x.en || x.stop != 0 || (badWord false x.nextId w).isSome ||
        (leAt b 0 1 == 3 && !linkOk s st.tenant (w 3 / 2 ^ 32)) || decide (queueSlots x - 1 ≤ queueHeld x) || readPoisoned s st.die loc 64 then none
    else
      match checkScalar s st .store 64 (tailSlot x) with
      | .ok p => some (enqueueLaunch s q (BitVec.ofNat 5 sd) p b)
      | .error _ => none
  | _ => none

def execLaunchEnqueue (s : State) : Out State :=
  match s.arg with
  | .n3 q sd pa => event "LAUNCH_ENQUEUE" (launchEnqueue s q sd pa)
  | _ => event "LAUNCH_ENQUEUE" none

end Sys2Proof.Machine
end

