-- ==== Sys2Proof/Machine/Moves.lean ====
section
/-! DEFINITION. The moves that the machine makes between convoys: the ordering machine's (R162 to R177), late failures (R416), the end of a
barrier wait (R295), TLB invalidations (R150), soft errors (R68, R117) and the illegal-instruction exception (R253). -/

namespace Sys2Proof.Machine

/-- Takes an exception at the convoy where a strand stands, between two convoys: at a syllable index. -/
def takeAt (s : State) (sid slot cause : Nat) (eval : Word) (elem : Nat) : State :=
  let s1 := takeException { s with cur := sid, slot := slot, convoy := none } cause eval elem
  { s1 with cur := s.cur, slot := s.slot }

/-- Whether a strand takes a late failure now (R416, R114): it issues, drains, or is stopped and waits to be saved; of several, a stop takes one, and
the next is taken after the resume. -/
def takesLate (st : Strand) : Bool :=
  st.run == .running || st.run == .draining || (st.run == .stopped && !(st.faulted && st.lateStop))

/-- LATE_FAILURE (R416): the first late failure of a strand is a fault at its first unretired convoy, syllable index 0, VSTART 0; where a fault of that
convoy has committed elements (R111), the convoy keeps by itself the place where they end. The race unit's own accesses abort their context (R233); the
strands of a held die take nothing (R16, R23). Log 92. -/
def lateFailure (s : State) (sid : Nat) : Option State :=
  let st := strandOf s sid
  match st.late with
  | [] => none
  | x :: t =>
    if 256 ≤ sid && sid ≤ unitSid then some (raceLates s)
    else if takesLate st && (st.trunk || !pdHeld s) then
      let st1 :=
        if st.run == .stopped && st.faulted && st.vstart != 0 then
          { st with resumeAt := st.vstart, vsyl := if st.vsyl = 4 then st.epc.toNat % 4 else st.vsyl }
        else st
      some (takeAt (putStrand s sid { st1 with late := t, vstart := 0, lateStop := true }) sid 0 x.cause x.eval 0)
    else none

def execLateFailure (s : State) : Out State :=
  match s.arg with
  | .n1 sid => event "LATE_FAILURE" (lateFailure s sid)
  | _ => event "LATE_FAILURE" none

/-- PATH_QUEUE_LEAVE (R162, R169): strand and position in its issue stream. -/
def pathLeave (s : State) (sid i : Nat) : Option State := (leaveAt s sid i).map raceLates

/-- A position past the issue stream names a load that has not been issued (R130, R159): the one after so many others. Its leaving is asked for, and
the step makes it. -/
def execPathQueueLeave (s : State) : Out State :=
  match s.arg with
  | .n2 sid i =>
    let n := (strandOf s sid).pq.length
    event "PATH_QUEUE_LEAVE"
      (if i < n then pathLeave s sid i else some { s with look := some { depth := 0, path := [], atom := false, left := some (i - n), hit := false, asked := false } })
  | _ => event "PATH_QUEUE_LEAVE" none

/-- Whether an item of an issue stream is an atomic. -/
def itemAtomic : Option QItem → Bool
  | some (.acc a) => match a.kind with
    | .atomic _ _ _ => true
    | _ => false
  | _ => false

/-- ATOMIC_PERFORM (R166): a queued atomic performs at its home die. A position past the issue stream names an atomic that has not been issued (R159,
R169): the one after so many others. Its performing is asked for, and the step makes it. -/
def atomicPerform (s : State) (sid i : Nat) : Option State :=
  let n := (strandOf s sid).pq.length
  if n ≤ i then some { s with look := some { depth := 0, path := [], atom := true, left := some (i - n), hit := false, asked := false } }
  else if itemAtomic (strandOf s sid).pq[i]? then pathLeave s sid i
  else none

def execAtomicPerform (s : State) : Out State :=
  match s.arg with
  | .n2 sid i => event "ATOMIC_PERFORM" (atomicPerform s sid i)
  | _ => event "ATOMIC_PERFORM" none

/-- APPLY_WRITE (R164, R165): die and position in its apply buffer. -/
def execApplyWrite (s : State) : Out State :=
  match s.arg with
  | .n2 d i => event "APPLY_WRITE" ((applyAt s.ord d i).map fun o => answerOwns { s with ord := o })
  | _ => event "APPLY_WRITE" none

/-- The position of the item that holds a ticket. -/
def ticketAt (st : Strand) (t : Nat) : Option Nat :=
  findIdx? (fun x => match x with
    | .acc a => match a.kind with
      | .ticketed _ u => u == t
      | _ => false
    | _ => false) st.pq

/-- TICKET_ADVANCE (R177): the turn passes on: the element of a strand that holds the lowest ticket not yet performed leaves and performs, and
the next ticket's element may leave. Elements draw their tickets where they issue, in VLDSC and VSTSC. -/
def ticketAdvance (s : State) (sid : Nat) : Option State :=
  match ticketAt (strandOf s sid) s.ord.performed with
  | none => none
  | some i => leaveAt s sid i

def execTicketAdvance (s : State) : Out State :=
  match s.arg with
  | .n1 sid => event "TICKET_ADVANCE" (ticketAdvance s sid)
  | _ => event "TICKET_ADVANCE" none

/-! The end of a barrier wait (R295). -/

/-- What a read of GEN gives: the state after it, a wait, or a fault. -/
inductive GenGot where
  | gen (g : Nat) (s : State)
  | asked (s : State)
  | waiting
  | fault (cause : Nat)

/-- A waiting strand reads GEN with acquire (R172): in its die's view, at the home die of an own page, or by a request to a peer whose answer is kept
under slot 6. -/
def readGen (s : State) (sid : Nat) : GenGot :=
  let st := strandOf s sid
  let va := st.barAddr
  match checkScalar s st .load 16 va with
  | .error c => .fault c
  | .ok (.mem loc _) => if readPoisoned s st.die loc 16 then .fault cData else .gen (leAt (memRead s st.die loc 16) 8 4) s
  | .ok (.own loc home) =>
    if readPoisoned s home loc 16 then .fault cData
    else .gen (leAt (memRead s home loc 16) 8 4) { s with ord := reach s.ord st.die (appliedOf s.ord home) }
  | .ok (.peer pkg pa) =>
    match answerOf st 6 0 with
    | none =>
      let (tag, f1) := newTag s.fabric
      match sendReq f1 (streamTo st .ls pkg pa) kRdreq (descBytes (wireAddr pa) 16 0 3 tag) sid tag va 0 with
      | none => .waiting
      | some f2 =>
        .asked (putStrand { s with fabric := f2 } sid
          { st with answers := st.answers ++ [{ slot := 6, elem := 0, tag := tag, data := none, atomic := false, pc := 0 }] })
    | some a =>
      match a.data with
      | none => .waiting
      | some (.bytes b) => .gen (leAt b 8 4) (putStrand s sid { st with answers := st.answers.filter fun a => a.slot != 6 })
      | some _ => .fault cLink
  | .ok _ => .fault cTranslation

/-- BARRIER_WAIT_END (R295): a strand that waits at a barrier sees GEN change and goes on. At a peer page the event may also be the request that
reads GEN; a read that fails is a fault at the convoy where the strand stands. -/
def barrierEnd (s : State) (sid : Nat) : Option State :=
  let st := strandOf s sid
  if !(st.barw && st.run == .running) || (!st.trunk && pdHeld s) then none
  else
    match readGen s sid with
    | .gen g s1 =>
      if g ≠ st.bargen.toNat then some (putStrand s1 sid { strandOf s1 sid with barw := false })
      else if s1.strands = s.strands then none
      else some s1
    | .asked s1 => some s1
    | .waiting => none
    | .fault c => some (takeAt (putStrand s sid { st with answers := st.answers.filter fun a => a.slot != 6 }) sid 0 c st.barAddr 0)

def execBarrierWaitEnd (s : State) : Out State :=
  match s.arg with
  | .n1 sid => event "BARRIER_WAIT_END" (barrierEnd s sid)
  | _ => event "BARRIER_WAIT_END" none

/-! TLB invalidation (R150). -/

/-- TLBINV: the die of the writing strand, and the value. -/
def execTlbinv (s : State) : Out State :=
  match s.arg with
  | .nw d v => event "TLBINV" (if d < 9 then writeTlbinv s d v else none)
  | _ => event "TLBINV" none

/-- Whether an invalidation matches a TLB entry (R150). -/
def invMatches (v : Word) (e : TlbEntry) : Bool :=
  e.tenant == (if bitW v 7 then 64 else bitsW v 0 6) &&
    (if bitW v 8 then !leafGlobal e.leaf
     else
       let n := sizeBits (leafSize e.leaf)
       e.vbase % 2 ^ 57 / 2 ^ n == bitsW v 16 41 * 2 ^ 16 / 2 ^ n)

/-- TLB_INVALIDATION_FINISH (R150): the oldest invalidation finishes once every die has applied what the writer's die had applied when it left; the
matching entries are dropped. A walk of the model is one move, so none is in progress. -/
def tlbFinish (s : State) : Option State :=
  match s.tlbInv with
  | [] => none
  | x :: t =>
    if (List.range 9).all fun d => reached s.ord d x.counts then
      some { s with tlbInv := t, tlb := s.tlb.filter fun e => !invMatches x.v e }
    else none

def execTlbInvalidationFinish (s : State) : Out State := event "TLB_INVALIDATION_FINISH" (tlbFinish s)

/-! Soft errors (R68, R117). -/

/-- Codes of the error records for trunk firmware: corrected ECC errors are counted by their records. -/
def errEcc : Nat := 6

/-- Files an error report of a strand (R112, R117). EVAL of a report is not given by the spec: a free value. -/
def softReport (s : State) (st : Strand) (kind lane elem slot : Nat) : State :=
  let (ev, s1) := freeWord s
  ringReport s1 st.die
    (faultBytes 0 kind st.rec_.tenant slot st.rec_.launch (st.pc.toNat / 16 * 16 + slot % 4) ev.toNat st.vstart (strandSrc st) 0xFFFF lane 0
      elem (tscOf s st.die) st.rank (if st.rec_.gang then st.rec_.gsize else 0))

/-- Poisons a cell of a row slice: the accumulator element of the record that holds the slice (R68, R117, R346). -/
def poisonAcc (die : Nat) (l : List MxHold) (row column slice : Nat) : List MxHold :=
  l.map fun h =>
    match accRowAt die h slice row with
    | some a => { h with accPois := insertN h.accPois (a * 512 + column) }
    | none => h

/-- A soft error (R68, R117). The syllable whose lane check failed is one of the four of the strand's convoy, the machine's choice; EVAL of a lane's
data-error names no address of the spec: a free value. -/
def softError (s : State) : SoftError → Option State
  | .laneCorrected sid lane elem =>
    let st := strandOf s sid
    if st.trunk || st.run != .running then none
    else
      let (k, s1) := takePick s 4
      some (softReport s1 st 1 lane elem k)
  | .laneUncorrected sid lane elem =>
    let st := strandOf s sid
    if st.trunk || st.run != .running then none
    else
      let (k, s1) := takePick s 4
      let s2 := softReport s1 st 2 lane elem k
      let (ev, s3) := freeWord s2
      some (takeAt s3 sid k cData ev elem)
  | .array cluster row column slice chain elem =>
    let d := cluster / 32
    if !computeDie d then none
    else
      let l := NMap.getD s.mx cluster []
      let holder := (l.find? fun h => h.slices.getLsbD slice).bind fun h =>
        ((s.strands.find? fun x => !x.2.trunk && x.2.run != .idle && mxOwner x.2 == h.owner && x.2.rank == h.rank).map (·.2))
      let st := holder.getD (Strand.idle 0 false)
      let (ev, s1) := freeWord { s with mx := NMap.set s.mx cluster (poisonAcc d l row column slice) }
      some (ringReport s1 d
        (faultBytes 0 2 st.rec_.tenant 0 st.rec_.launch st.pc.toNat ev.toNat 0 (srcWord d 1 (cluster % 32)) 0xFFFF column
          (slice % 256 + chain % 2 * 256) elem (tscOf s d) st.rank (if st.rec_.gang then st.rec_.gsize else 0)))
  | .eccCorrected pa => some (logError s errEcc pa 0)
  | .memory pa =>
    let g := granule pa
    if locMem pa ≤ 9 then some (poisonMem s (pa / g * g) g) else none
  | .l2 die pa =>
    let p := (die, pa / 8 * 8)
    if computeDie die && locMem pa ≤ 9 then
      some { s with ord := { s.ord with l2Poison := if s.ord.l2Poison.any (· == p) then s.ord.l2Poison else s.ord.l2Poison ++ [p] } }
    else none
  | .scratchpad key => some (poisonSpad s (key / 8 * 8) 8)
  | .accumulator sid ea =>
    let st := strandOf s sid
    if st.trunk || st.run == .idle then none
    else
      let s1 := putStrand s sid { st with eaPois := st.eaPois ||| BitVec.ofNat 4 (2 ^ (ea % 4)) }
      some (softReport s1 st 2 0 0 0)

/-- SOFT_ERROR. -/
def execSoftError (s : State) : Out State :=
  match s.arg with
  | .soft e => event "SOFT_ERROR" (softError s e)
  | _ => event "SOFT_ERROR" none

/-- ILLEGAL_INSTRUCTION (R253): a syllable that encodes no instruction takes the exception, EVAL the syllable. -/
def execIllegalInstruction (s : State) : Out State :=
  match s.arg with
  | .syllable w => if undecodable w then finish s (.trap cIllegal (w.setWidth 64) 0) else event "ILLEGAL_INSTRUCTION" none
  | _ => event "ILLEGAL_INSTRUCTION" none

/-! The machine's own moves, made as soon as they can be. -/

/-- The elements of a token's engine that are open land or fault, in turn, while any can. -/
def runEngine : Nat → State → Nat → Nat → State
  | 0, s, _, _ => s
  | n + 1, s, sid, k =>
    let t := (strandOf s sid).toks.getD k Token.idle
    let e := landedEls t
    match landStep s sid k e none with
    | some s1 => runEngine n s1 sid k
    | none =>
      match faultStep s sid k e false with
      | some s1 => s1
      | none => s

/-- Every engine of a strand runs. -/
def runEngines (s : State) (sid : Nat) : State :=
  if !(strandOf s sid).trunk && pdHeld s then s
  else
  (List.range 8).foldl (fun s k =>
    let t := (strandOf s sid).toks.getD k Token.idle
    if t.busy && !t.pend then runEngine (copyCount t + 1) s sid k else s) s

/-- The steps of a context's race over several packages that can be made. -/
def raceMoves (s : State) : State :=
  s.race.foldl (fun s e =>
    let x := raceOf s e.1
    if !awaitsRace x then s
    else
      let s1 := (homeStep s e.1 true).getD s
      let s2 := (homeStep s1 e.1 false).getD s1
      let s3 := (memberStep s2 e.1 true).getD s2
      (memberStep s3 e.1 false).getD s3) s

/-- The strands that wait at a barrier and can go on do. -/
def barrierMoves (s : State) : State :=
  s.strands.foldl (fun s x => if x.2.barw then (barrierEnd s x.1).getD s else s) s

/-- Every move of the ordering machine, the engines and the race unit that can be made. -/
def eagerMoves (s : State) : State :=
  let s1 := drainAll s
  let s2 := s1.strands.foldl (fun s x => if x.2.toks.any fun t => t.busy && !t.pend then runEngines s x.1 else s) s1
  let s3 := raceLates (raceMoves s2)
  barrierMoves (answerOwns { s3 with ord := settle s3.ord })

end Sys2Proof.Machine
end

