-- ==== Sys2Proof/Machine/Net.lean ====
section
/-! DEFINITION. The receiving side of the scale-up fabric (R28 to R42): acceptance, acknowledgement, retry, the requests that this package performs for
others, and what their answers do. -/

namespace Sys2Proof.Machine

/-- Codes of the error records for trunk firmware: strap error (R26), thermal shutdown (R23), bridge down (R42). -/
def errStrap : Nat := 1
def errShut : Nat := 2
def errBridge : Nat := 3

/-! Sending without a stream: DACK, NAK and UNAV carry no SEQ of their own. -/

/-- A flit back to the source of another. -/
def replyFlit (f : Fabric) (x : Flit) (kind : Nat) (payload : List Byte) : Flit :=
  { dstPkg := x.srcPkg, srcPkg := f.pkgId, dstDie := x.srcDie, srcDie := x.dstDie, kind := kind, path := x.path, try_ := 0, zero := 0,
    seq := x.seq, plane := 0, crcOk := true, payload := payload }

/-- The acknowledgement of a flit (R29, R34). -/
def sendDack (f : Fabric) (x : Flit) : Fabric := emit f x.dstDie (replyFlit f x kDack (bytesOf 4 (x.seq % 65536)))

/-- A destination-unavailable reply (R37): it carries the request's tag. -/
def sendUnav (f : Fabric) (x : Flit) : Fabric := emit f x.dstDie (replyFlit f x kUnav (bytesOf 4 (reqTag x)))

/-- Whether the header of a flit is in error at a fabric port (R28, R29). -/
def headerBad (x : Flit) : Bool :=
  !(1 ≤ x.dstDie && x.dstDie ≤ 8) || !(1 ≤ x.srcDie && x.srcDie ≤ 8) || 9 < x.kind || 2 < x.path || x.zero != 0 || 240 < x.payload.length

/-- Whether a flit is a request (R31). -/
def isRequest (kind : Nat) : Bool := kind ≤ 2 || kind == 5 || kind == 6

/-! The destination's record of a stream (R35, R38). -/

/-- Whether a record is that of a flit's stream. -/
def rxIs (x : Flit) (r : RxStream) : Bool := r.srcPkg == x.srcPkg && r.srcDie == x.srcDie && r.dstDie == x.dstDie && r.path == x.path

/-- The record of a flit's stream. -/
def rxOf (f : Fabric) (x : Flit) : RxStream :=
  (f.rx.find? (rxIs x)).getD { srcPkg := x.srcPkg, srcDie := x.srcDie, dstDie := x.dstDie, path := x.path, low := 0, waiting := [], again := [] }

/-- Replaces a record. -/
def putRx (f : Fabric) (x : Flit) (r : RxStream) : Fabric :=
  if f.rx.any (rxIs x) then { f with rx := f.rx.map fun q => if rxIs x q then r else q } else { f with rx := f.rx ++ [r] }

/-- The full sequence number of a flit, or none where it lies below the record. -/
def fullSeq (r : RxStream) (x : Flit) : Option Nat :=
  let d := (x.seq + 65536 - r.low % 65536) % 65536
  if 32768 ≤ d then none else some (r.low + d)

/-- Whether a flit has already been accepted (R35). -/
def isDup (r : RxStream) (x : Flit) : Bool :=
  match fullSeq r x with
  | none => true
  | some n => r.waiting.any fun y => y.seq == n

/-- Inserts an accepted flit in SEQ order, its SEQ in full. -/
def insertFlit (x : Flit) : List Flit → List Flit
  | [] => [x]
  | y :: t => if x.seq < y.seq then x :: y :: t else y :: insertFlit x t

/-! What a delivered flit does. -/

/-- The strand that waits for an answer to a tag. -/
def ownerOf (s : State) (tag : Nat) : Option Nat :=
  if tag = 0 then none
  else (s.strands.find? fun x => (x.2.outst.any fun o => o.tag == tag) || x.2.answers.any fun a => a.tag == tag && a.slot != 7).map (·.1)

/-- A request has been answered: an acknowledged or held flit of it is not sent again (R331, R416). -/
def dropFlit (f : Fabric) (tag : Nat) : Fabric :=
  let tx := f.tx.map fun t =>
    { t with acked := t.acked.filter fun x => x.tag != tag, unacked := t.unacked.filter fun x => !(x.held && x.tag == tag) }
  { f with tx := tx, held := tx.any fun t => t.unacked.any (·.held) }

/-- An answer reaches the strand that waits for it (R178, R416): bytes, or an old value that is none (R29). -/
def answer (s0 : State) (tag : Nat) (r : Reply) : State :=
  let s := { s0 with fabric := dropFlit s0.fabric tag }
  match ownerOf s tag with
  | none => s
  | some sid =>
    let st := strandOf s sid
    match st.outst.find? fun o => o.tag == tag with
    | some o => putStrand (ticketDone s st tag) sid (answerOut st o r)
    | none => putStrand s sid (setAnswer st tag r)

/-- The request with a tag fails (R36, R37). -/
def failRequest (s : State) (tag : Nat) : State :=
  match ownerOf s tag with
  | none => s
  | some sid => raceLates (failTag s sid tag)

/-- Sends an answer on its stream, where that has room. -/
def sendBack (s : State) (x : Flit) (kind : Nat) (data : List Byte) : State :=
  match sendAnswer s.fabric x kind data with
  | none => s
  | some f => { s with fabric := f }

/-- A request that this package turns away after its port has accepted it (R37, R342, R147). -/
def turnAway (s : State) (x : Flit) : State := { s with fabric := sendUnav s.fabric x }

/-- Whether n bytes at an offset lie within a die's memory (R147). -/
def inCapacity (d off n : Nat) : Bool := (off + n - 1) / 2 ^ 16 < memFrames d

/-- A request beyond a die's capacity (R37, R147). -/
def beyond (s : State) (x : Flit) : State := turnAway { s with fabric := countProto s.fabric (100 + x.dstDie) } x

/-- The address, byte count, operation and element size of a request (R31), and its data. -/
def reqAddr (x : Flit) : Nat := leAt x.payload 0 8
def reqCount (x : Flit) : Nat := leAt x.payload 8 2
def reqOp (x : Flit) : Nat := leAt x.payload 10 1
def reqSize (x : Flit) : Nat := 2 ^ (leAt x.payload 11 1 % 4)
def reqData (x : Flit) : List Byte := x.payload.drop 16
/-- The sender's tenant of a request for a scratchpad. Log 14. -/
def reqTenant (x : Flit) : Nat := leAt x.payload 11 1 / 4

/-- The scratchpad byte that a request names in the addressed die: CLUS and OFF of R339. -/
def reqSpad (x : Flit) : Nat := spadKey x.dstDie (bitsN (reqAddr x) 24 5) (bitsN (reqAddr x) 0 24)

/-- A read request performs at its home die (R178), or reads a scratchpad where a record stands (R342). Poisoned bytes never leave the
package (R69): the request is turned away. -/
def doRead (s : State) (x : Flit) : State :=
  let n := reqCount x
  if spadMark ≤ reqAddr x then
    let key := reqSpad x
    if tenantAt s (reqTenant x) (key / 2 ^ 24) && !spadPoisoned s.ord key n then sendBack s x kRdata (Memory.getBytes s.ord.spad key n)
    else turnAway s x
  else
    let off := reqAddr x
    let loc := memLoc x.dstDie off
    if !inCapacity x.dstDie off n then beyond s x
    else if readPoisoned s x.dstDie loc n then turnAway s x
    else sendBack s x kRdata (memRead s x.dstDie loc n)

/-- The answer to a write or an atomic of a home die is owed until every die of the package has applied what that die has (R39, R178). -/
def sendDone (s : State) (x : Flit) (data : List Byte) : State :=
  let f := s.fabric
  { s with fabric := payOwed s.ord { f with owed := f.owed ++ [{ req := x, data := data, clock := appliedOf s.ord x.dstDie }] } }

/-- A write request performs as a write of its home die (R178). -/
def doWrite (s : State) (x : Flit) : State :=
  let off := reqAddr x
  let b := (reqData x).take (reqCount x)
  if !inCapacity x.dstDie off b.length then beyond s x
  else sendDone (memWrite s x.dstDie (memLoc x.dstDie off) x.dstDie b) x []

/-- The operation of an operation code (R31, R265). -/
def aopOf (n : Nat) : Option AtomOp :=
  match n with
  | 0 => some .add
  | 1 => some .swap
  | 2 => some .cas
  | 3 => some .and
  | 4 => some .or
  | 5 => some .xor
  | 6 => some .max
  | 7 => some .min
  | 8 => some .maxn
  | 9 => some .minn
  | 10 => some .addF32
  | 11 => some .maxF32
  | 12 => some .minF32
  | 13 => some .ea
  | _ => none

/-- An atomic request performs at its home die (R166, R178): its answer carries the old value, or none on poison (R29). Code 15 is the arrival at
a barrier (log 18). -/
def doAtomic (s : State) (x : Flit) : State :=
  let off := reqAddr x
  let loc := memLoc x.dstDie off
  let d := reqData x
  if reqOp x = 15 then
    if !inCapacity x.dstDie off 16 then beyond s x
    else if readPoisoned s x.dstDie loc 16 then sendBack s x kWdone []
    else
      let b := memRead s x.dstDie loc 16
      sendDone (memWrite s x.dstDie loc x.dstDie (barArrive b)) x b
  else
    match aopOf (reqOp x) with
    | none => turnAway s x
    | some op =>
      let n := if op = .ea then 64 else if op = .addF32 || op = .maxF32 || op = .minF32 then 4 else reqSize x
      if !inCapacity x.dstDie off n then beyond s x
      else
        let (s1, r) := memAtomic s op n loc x.dstDie (leAt d 0 n) (leAt d n n)
        if r.poisoned then sendBack s1 x kWdone [] else sendDone s1 x (bytesOf n r.old)

/-- An XSEND fragment is written and then counted into its sync word (R157, R340). -/
def doFragment (s : State) (x : Flit) : State :=
  let key := reqSpad x
  let sync := spadKey x.dstDie (bitsN (reqAddr x) 24 5) (16 * bitsN (reqAddr x) 44 20)
  if tenantAt s (reqTenant x) (key / 2 ^ 24) then
    sendBack { s with ord := fragLand s.ord key sync ((reqData x).take (reqCount x)) } x kWdone []
  else turnAway s x

/-- A collective fragment merges into the result area and counts into its sync word (R378). Log 32. -/
def doCollect (s : State) (x : Flit) : State :=
  let a := reqAddr x
  let sync := spadKey x.dstDie (bitsN a 24 5) (16 * bitsN a 44 20)
  collLand s (reqOp x) (reqSpad x) sync (bitsN a 33 10) ((reqData x).take (reqCount x))

/-- What a delivered flit of a stream does. -/
def perform (s : State) (x : Flit) : State :=
  if x.kind = kRdreq then doRead s x
  else if x.kind = kWrreq then doWrite s x
  else if x.kind = kAtreq then doAtomic s x
  else if x.kind = kRdata then answer s (ansTag x) (.bytes (x.payload.drop 4))
  else if x.kind = kWdone then answer s (ansTag x) (if x.payload.length ≤ 4 then .noValue else .bytes (x.payload.drop 4))
  else if x.kind = kCldat then doCollect s x
  else if x.kind = kXsdat then doFragment s x
  else s

/-- Whether a flit can be delivered: a request's answer needs room on its stream (R32). -/
def canDeliver (s : State) (x : Flit) : Bool := !isRequest x.kind || decide ((txOf s.fabric (backKey x)).unacked.length < 4096)

/-- Delivers the accepted flits of a stream in SEQ order (R38), at most `fuel` of them. -/
def deliverN : Nat → State → Flit → State
  | 0, s, _ => s
  | n + 1, s, x =>
    let r := rxOf s.fabric x
    match r.waiting with
    | [] => s
    | y :: t =>
      if y.seq = r.low && canDeliver s y then
        deliverN n (perform { s with fabric := putRx s.fabric x { r with low := r.low + 1, waiting := t } } y) x
      else s

/-- Delivers what can be delivered on a stream. -/
def deliver (s : State) (x : Flit) : State := deliverN ((rxOf s.fabric x).waiting.length + 1) s x

/-- Delivers what can be delivered on every stream. -/
def deliverAll (s : State) : State := (s.fabric.rx.map (·.waiting)).foldl (fun s l => match l with | [] => s | y :: _ => deliver s y) s

/-- Accepts a flit into the record of its stream (R35). -/
def acceptFlit (f : Fabric) (x : Flit) : Fabric :=
  let r := rxOf f x
  match fullSeq r x with
  | none => f
  | some n => putRx f x { r with waiting := insertFlit { x with seq := n } r.waiting }

/-- A flit whose request is not performed still takes its place in its stream; a collective's fragment comes again with its SEQ (R379). -/
def skipFlit (f : Fabric) (x : Flit) : Fabric :=
  let f1 := acceptFlit f { x with kind := kDack }
  match if x.kind = kCldat then fullSeq (rxOf f x) x else none with
  | some n => putRx f1 x { rxOf f1 x with again := insertN (rxOf f1 x).again n }
  | none => f1

/-- The SEQ in full of a fragment that comes again after it was turned away, which no record has as performed (R379). -/
def comesAgain (r : RxStream) (x : Flit) : Option Nat := if x.kind = kCldat then r.again.find? fun n => n % 65536 == x.seq % 65536 else none

/-! The source side (R34, R36, R37). -/

/-- The stream that an acknowledgement, a NAK or an UNAV is about. -/
def aboutKey (x : Flit) : StreamKey := { srcDie := x.dstDie, dstPkg := x.srcPkg, dstDie := x.srcDie, path := x.path }

/-- The flit of a stream with a SEQ that has been sent and is neither acknowledged nor held. -/
def flightOf (f : Fabric) (k : StreamKey) (seq : Nat) : Option SentFlit :=
  (txOf f k).unacked.find? fun y => y.flit.seq == seq % 65536 && !y.held

/-- Changes or removes a flit of a stream. -/
def updFlight (f : Fabric) (k : StreamKey) (seq : Nat) (g : SentFlit → Option SentFlit) : Fabric :=
  let t := txOf f k
  putTx f { t with unacked := t.unacked.filterMap fun y => if y.flit.seq = seq % 65536 && !y.held then g y else some y }

/-- Whether a flit carries a write or an atomic. -/
def carriesWrite (x : SentFlit) : Bool := x.flit.kind == kWrreq || x.flit.kind == kAtreq

/-- Whether the failure of flit `y` makes another one held: it is the same, or belongs to the same vector syllable and has no WDONE (R331). -/
def heldWith (y x : SentFlit) : Bool :=
  x.sid == y.sid && !x.held && (x.tag == y.tag || (y.group != 0 && x.group == y.group && carriesWrite x && carriesWrite y))

/-- The eighth transmission of a request that is no read has failed (R36, R331): its flits stay as held ones, each with its access. The in-queue
positions of held elements of VAMO.RET receive zero bits, and their old values are discarded (R416). Log 92. -/
def holdFlits (s : State) (y : SentFlit) : State :=
  let st := strandOf s y.sid
  let hold := fun (x : SentFlit) =>
    { x with
      held := true
      due := false
      out := (st.outst.find? fun o => o.tag == x.tag).map fun o => { o with ticket := none, fill := none, again := o.again || x.tag == y.tag } }
  let tags := ((s.fabric.tx.map fun t => (t.unacked ++ t.acked).filter (heldWith y)).flatten.map (·.tag)).filter (· != y.tag)
  let f := { s.fabric with
    held := true
    tx := s.fabric.tx.map fun t =>
      { t with
        unacked := (t.unacked.map fun x => if heldWith y x then hold x else x) ++ (t.acked.filter (heldWith y)).map hold
        acked := t.acked.filter fun x => !heldWith y x } }
  let st1 := (st.outst.filter fun o => hasN tags o.tag).foldl (fun st o => bringOld st o.fill 0 0) st
  putStrand { s with fabric := f } y.sid { st1 with outst := st1.outst.filter fun o => !hasN tags o.tag }

/-- The planes on which the request of a copy's element failed are noted for its restart (R155). -/
def noteAvoid (s : State) (tag : Nat) (planes : List Nat) : State :=
  match ownerOf s tag with
  | none => s
  | some sid => putStrand s sid (avoidPlanes (strandOf s sid) tag planes)

/-- A flit's transmission has failed (R34, R36): it is sent again, or after the eighth time its access fails, and a request other than a read is
held. -/
def sendFailed (s : State) (k : StreamKey) (seq : Nat) : Option State :=
  match flightOf s.fabric k seq with
  | none => none
  | some y =>
    if y.tries < 7 then
      let (f1, y1) := transmit s.fabric k.srcDie { y with tries := y.tries + 1 }
      some (collStarts { s with fabric := updFlight f1 k seq fun _ => some y1 })
    else
      let s1 := noteAvoid s y.tag y.used
      if isRequest y.flit.kind && y.flit.kind != kRdreq then some (failRequest (holdFlits s1 y) y.tag)
      else some (failRequest { s1 with fabric := updFlight s1.fabric k seq fun _ => none } y.tag)

/-- A DACK stops the timer of a flit it names (R34): a write or an atomic of a vector syllable is kept until its WDONE (R331), and a collective's
fragment counts as accepted (R379). -/
def ackOne (s : State) (k : StreamKey) (seq : Nat) : State :=
  match flightOf s.fabric k seq with
  | none => s
  | some y =>
    let f := updFlight s.fabric k seq fun _ => none
    let t := txOf f k
    let s1 := { s with
      fabric := if y.group ≠ 0 && carriesWrite y then putTx f { t with acked := t.acked ++ [{ y with due := false }] } else f }
    if y.flit.kind = kCldat then answer s1 y.tag (.bytes []) else s1

/-- The SEQ values of a DACK's payload (R29). -/
def dackSeqs (b : List Byte) : List Nat := (List.range (b.length / 4)).map fun i => leAt b (4 * i) 4

/-- The SEQ of a collective's fragment that was turned away is noted: it goes again with it (R379). -/
def noteSeq (s : State) (tag seq : Nat) : State :=
  match ownerOf s tag with
  | none => s
  | some sid =>
    let st := strandOf s sid
    putStrand s sid
      { st with answers := st.answers.map fun a => if a.tag == tag && decide (16 ≤ a.slot) && decide (a.slot < 32) then { a with seq := some seq } else a }

/-- An UNAV fails its access at once, and its flit is dropped (R37). A collective's fragment goes again when its syllable resumes (R379). Log 104. -/
def unavail (s : State) (x : Flit) : State :=
  let k := aboutKey x
  let y := flightOf s.fabric k x.seq
  let tag := if 4 ≤ x.payload.length then ansTag x else (y.map (·.tag)).getD 0
  let s1 := noteSeq (noteAvoid s tag ((y.map (·.used)).getD [])) tag x.seq
  let f := updFlight s1.fabric k x.seq fun y => if y.tag = tag then none else some y
  failRequest { s1 with fabric := dropFlit f tag } tag

/-- A flit of a stream that passed its checks (R34, R35, R37). R83 does not say which flits a port counts as accepted: the model counts those that
it takes into its receive buffer, and no acknowledgement, no duplicate and no request that it turns away (DESIGN CHOICE, log 94). A duplicate of an
accepted request that arrives while EN = 0 or in the shutdown hold is answered by UNAV and not acknowledged again: R35 wants the one, R37 the other
(DESIGN CHOICE, log 111). A collective's fragment that was turned away performs when it comes again with its SEQ (R379, log 104). -/
def receiveStream (s : State) (x : Flit) : State :=
  let f := s.fabric
  let r := rxOf f x
  if isRequest x.kind && (!f.en || s.power.shut) then
    let f1 := if isDup r x then f else skipFlit f x
    deliver { s with fabric := sendUnav f1 x } x
  else if isDup r x then
    match comesAgain r x with
    | none => { s with fabric := sendDack f x }
    | some n =>
      if tenantAt s (reqTenant x) (reqSpad x / 2 ^ 24) then
        let f1 := putRx f x { r with again := eraseN r.again n }
        doCollect { s with fabric := sendDack { f1 with accepted := NMap.set f1.accepted x.plane (NMap.getD f1.accepted x.plane 0 + 1) } x } x
      else { s with fabric := sendUnav f x }
  else if x.kind = kCldat && !tenantAt s (reqTenant x) (reqSpad x / 2 ^ 24) then
    deliver { s with fabric := sendUnav (skipFlit f x) x } x
  else
    let f1 := sendDack { acceptFlit f x with accepted := NMap.set f.accepted x.plane (NMap.getD f.accepted x.plane 0 + 1) } x
    deliver { s with fabric := f1 } x

/-- A flit arrives at a fabric port (R28 to R30, R34): a port without lock receives nothing, a failed CRC is answered by NAK on the same plane, and
a header error, a reserved KIND among them, is counted and not acknowledged. A flit that would have to cross a bridge that is down is lost (R42).
Log 93. -/
def receive (s : State) (kind : Nat) (x : Flit) : Option State :=
  let f := s.fabric
  if 48 ≤ x.plane || !f.planeUp.getLsbD x.plane || (x.kind ≤ 9 && x.kind != kind) then none
  else if !x.crcOk then some { s with fabric := handOut f x.plane (replyFlit f x kNak []) }
  else if headerBad x || x.dstPkg != f.pkgId then some { s with fabric := countProto f x.plane }
  else if !bridgesUp f (planeDie x.plane) x.dstDie then some s
  else if kind = kDack then some (deliverAll ((dackSeqs x.payload).foldl (fun s q => ackOne s (aboutKey x) q) s))
  else if kind = kNak then some ((sendFailed s (aboutKey x) x.seq).getD s)
  else if kind = kUnav then some (unavail s x)
  else some (receiveStream s x)

/-- The events of arriving flits. -/
def flitEvent (s : State) (name : String) (kind : Nat) : Out State :=
  match s.arg with
  | .flit x => event name (receive s kind x)
  | .wire k fec b => event name (receive s kind (flitOf k fec b))
  | _ => event name none

/-- RDREQ (R31). -/
def execRdreq (s : State) : Out State := flitEvent s "RDREQ" kRdreq
/-- WRREQ (R35). -/
def execWrreq (s : State) : Out State := flitEvent s "WRREQ" kWrreq
/-- ATREQ (R166). -/
def execAtreq (s : State) : Out State := flitEvent s "ATREQ" kAtreq
/-- RDATA (R178). -/
def execRdata (s : State) : Out State := flitEvent s "RDATA" kRdata
/-- WDONE (R39). -/
def execWdone (s : State) : Out State := flitEvent s "WDONE" kWdone
/-- CLDAT (R378). -/
def execCldat (s : State) : Out State := flitEvent s "CLDAT" kCldat
/-- XSDAT (R340). -/
def execXsdat (s : State) : Out State := flitEvent s "XSDAT" kXsdat
/-- DACK (R34). -/
def execDack (s : State) : Out State := flitEvent s "DACK" kDack
/-- NAK (R34). -/
def execNak (s : State) : Out State := flitEvent s "NAK" kNak
/-- UNAV (R37). -/
def execUnav (s : State) : Out State := flitEvent s "UNAV" kUnav

/-- PLANE_TIMER_EXPIRY (R34). -/
def execPlaneTimerExpiry (s : State) : Out State :=
  match s.arg with
  | .timer k seq => event "PLANE_TIMER_EXPIRY" (sendFailed s k seq)
  | _ => event "PLANE_TIMER_EXPIRY" none

/-- A port gains or loses lock (R34, R40); flits that waited for a plane are sent. -/
def setLock (s : State) (k : Nat) (up : Bool) : Option State :=
  if 48 ≤ k then none
  else
    let m : BitVec 48 := BitVec.ofNat 48 (2 ^ k)
    some (sendWaiting { s with fabric := { s.fabric with planeUp := if up then s.fabric.planeUp ||| m else s.fabric.planeUp &&& ~~~m } })

/-- PORT_LOCK_LOST (R40). -/
def execPortLockLost (s : State) : Out State :=
  match s.arg with
  | .n1 k => event "PORT_LOCK_LOST" (setLock s k false)
  | _ => event "PORT_LOCK_LOST" none

/-- PORT_LOCK_GAINED (R40). -/
def execPortLockGained (s : State) : Out State :=
  match s.arg with
  | .n1 k => event "PORT_LOCK_GAINED" (setLock s k true)
  | _ => event "PORT_LOCK_GAINED" none

/-- BRIDGE_DOWN (R42): the bridge between two dies is down until the next package reset, and an error record names them. -/
def bridgeDown (s : State) (a b : Nat) : Option State :=
  let p := (min a b, max a b)
  if 8 < p.2 || bridgesOf p.1 p.2 != [p] then none
  else
    let l := s.fabric.bridgesDown
    some (logError { s with fabric := { s.fabric with bridgesDown := if l.any (· == p) then l else l ++ [p] } } errBridge p.1 p.2)

def execBridgeDown (s : State) : Out State :=
  match s.arg with
  | .n2 a b => event "BRIDGE_DOWN" (bridgeDown s a b)
  | _ => event "BRIDGE_DOWN" none

/-- FABCTL_HELD_DISCARD (R36). -/
def execFabctlHeldDiscard (s : State) : Out State := .next { s with fabric := discardHeld s.fabric }

end Sys2Proof.Machine
end

