-- ==== Sys2Proof/Machine/Clock.lean ====
section
/-! DEFINITION. Cycles, throttling and shutdown (R16 to R23), disciplined time (R70 to R72), the trigger (R82, R83) and loss
of power (R60). -/

namespace Sys2Proof.Machine

/-! Throttling (R17, R22, R23). -/

/-- Puts a new bubble count in force and records the change with TRIP (R21, R75). -/
def setBubbles (s : State) (b : Nat) : State :=
  let old := s.power.curBub
  let s1 := { s with power := { s.power with curBub := b } }
  if b = old then s1 else traceBubble s1 b old s.power.trip

/-- The bubble count after an interval with measured power `m` (R22). A package that runs draws power, so no measurement meets LIMITW = 0. -/
def nextBubbles (p : Power) (m : Nat) : Nat :=
  let b := p.curBub
  let w := max m 1
  if p.tripNow then 7
  else if p.force then p.minBub
  else if b < p.minBub then p.minBub
  else if p.limitW < w && b < 7 then b + 1
  else if p.minBub < b && w * (9 - b) ≤ p.limitW * (8 - b) then b - 1
  else b

/-- THROTTLE_INTERVAL_END: the measured power in watts. An interval ends with its 1024th frame; b = 7 that a trip has applied at that boundary stands
(R23). -/
def throttleEnd (s : State) (w : Nat) : Option State :=
  if s.power.frame < 1024 || s.power.shut then none
  else
    let b := if s.power.tripEnd then 7 else nextBubbles s.power w
    some (setBubbles { s with power := { s.power with frame := 0, tripEnd := false } } b)

def execThrottleIntervalEnd (s : State) : Out State :=
  match s.arg with
  | .n1 w => event "THROTTLE_INTERVAL_END" (throttleEnd s w)
  | _ => event "THROTTLE_INTERVAL_END" none

/-- THERMAL_TRIP (R23): TRIP is set, and b = 7 applies at the next frame boundary. -/
def execThermalTrip (s : State) : Out State := .next { s with power := { s.power with trip := true, tripNow := true, tripSeen := true } }

/-- THERMAL_TRIP_CLEAR (R23): the rule of R22 applies again. -/
def execThermalTripClear (s : State) : Out State := .next { s with power := { s.power with tripNow := false } }

/-- THERMAL_SHUTDOWN (R23): die and sensor. The hold begins at the next frame boundary. -/
def thermalShutdown (s : State) (die sensor : Nat) : Option State :=
  if computeDie die then some (logError { s with power := { s.power with shutNext := true } } errShut die sensor) else none

def execThermalShutdown (s : State) : Out State :=
  match s.arg with
  | .n2 d k => event "THERMAL_SHUTDOWN" (thermalShutdown s d k)
  | _ => event "THERMAL_SHUTDOWN" none

/-- The boundary that ends a frame: a shutdown hold, or a trip since the last boundary, takes force (R17, R23). CURBUB reads 7 in the hold, and its
record says so. Log 86. -/
def frameEnd (s : State) : State :=
  let p := s.power
  let s1 := { s with power := { p with cycleInFrame := 0, bubblesDone := 0, frame := p.frame + 1, tripSeen := p.tripNow } }
  if p.shutNext then setBubbles { s1 with power := { s1.power with shut := true, shutNext := false } } 7
  else if p.tripNow || p.tripSeen then setBubbles { s1 with power := { s1.power with tripEnd := decide (1024 ≤ p.frame + 1) } } 7
  else s1

/-- Whether the next cycle may be a bubble or a working cycle: a frame holds exactly b bubbles (R17). -/
def cycleOk (p : Power) (bubble : Bool) : Bool :=
  if p.shut then bubble
  else decide (p.frame < 1024) && (if bubble then decide (p.bubblesDone < p.curBub) else decide (p.curBub - p.bubblesDone ≤ 7 - p.cycleInFrame))

/-- ARITHMETIC_CYCLE (R16, R19): whether the cycle is a bubble. Trunk cores make five cycles in two of them (R3). In a working cycle the records of a
resetting tenant end that a bubble held (R118). -/
def arithCycle (s : State) (bubble : Bool) : Option State :=
  let p := s.power
  if !cycleOk p bubble then none
  else if p.shut then some { s with power := { p with trunkHalf := p.trunkHalf + 5 } }
  else
    let p1 :=
      { p with
        cycleInFrame := p.cycleInFrame + 1, bubblesDone := p.bubblesDone + boolN bubble, working := p.working + boolN (!bubble),
        trunkHalf := p.trunkHalf + 5, inBubble := bubble }
    let s0 := { s with power := p1 }
    let s1 := if bubble then s0 else latchPending (endTenants s0)
    some (if p1.cycleInFrame = 8 then frameEnd s1 else s1)

def execArithmeticCycle (s : State) : Out State :=
  match s.arg with
  | .bit b => event "ARITHMETIC_CYCLE" (arithCycle s b)
  | _ => event "ARITHMETIC_CYCLE" none

/-! Time (R70 to R73). -/

/-- A clock after one reference cycle (R70, R71): a negative step withholds TSINCR, cycle by cycle, exactly what it asks. -/
def clockCycle (c : Clock) : Clock :=
  let i := c.incr.toNat
  let add := if c.withhold = 0 then i else i - c.withhold
  { c with acc := (c.acc + add + c.addNs * 2 ^ 32) % 2 ^ 96, withhold := c.withhold - i, addNs := 0 }

/-- TSC_REFERENCE_CYCLE: the die. -/
def refCycle (s : State) (d : Nat) : Option State :=
  if d < 9 then some { s with clocks := NMap.set s.clocks d (clockCycle (clockOf s d)) } else none

def execTscReferenceCycle (s : State) : Out State :=
  match s.arg with
  | .n1 d => event "TSC_REFERENCE_CYCLE" (refCycle s d)
  | _ => event "TSC_REFERENCE_CYCLE" none

/-- TSSTEP_WRITE (R71): die and value. -/
def execTsstepWrite (s : State) : Out State :=
  match s.arg with
  | .nw d v => event "TSSTEP_WRITE" (if d < 9 then some (writeTsstep s d v) else none)
  | _ => event "TSSTEP_WRITE" none

/-- TRTAIL_WRITE (R80). -/
def execTrtailWrite (s : State) : Out State :=
  match s.arg with
  | .nw d v => event "TRTAIL_WRITE" (if d < 9 then some (writeTrtail s d v) else none)
  | _ => event "TRTAIL_WRITE" none

/-- TRCTL_WRITE (R81). -/
def execTrctlWrite (s : State) : Out State :=
  match s.arg with
  | .nw d v => event "TRCTL_WRITE" (if d < 9 then some (writeTrctl s d v) else none)
  | _ => event "TRCTL_WRITE" none

/-- SNAPSHOT_FIRE (R82). -/
def execSnapshotFire (s : State) : Out State := .next (fireSnapshot s)

/-- SNAPAT_MATCH (R82). -/
def snapMatch (s : State) : Option State :=
  if s.snap.arm && decide (s.snap.at_.toNat ≤ tscOf s 0) then some (fireSnapshot { s with snap := { s.snap with arm := false } }) else none

def execSnapatMatch (s : State) : Out State := event "SNAPAT_MATCH" (snapMatch s)

/-- SNAPSHOT_VALID_CLEAR (R83). -/
def execSnapshotValidClear (s : State) : Out State := .next (clearValid s)

/-- POWER_LOSS (R60): everything stops, and a pending life-cycle request is lost. -/
def execPowerLoss (s : State) : Out State := .next { s with powered := false, sec := { s.sec with token := none } }

end Sys2Proof.Machine
end

