-- ==== Sys2Proof/Machine/Token.lean ====
section
/-! DEFINITION. The detokeniser and the token syllables (R45 to R47, R235, R239 to R242, R382 to R384). -/

namespace Sys2Proof.Machine

/-- A stream that no firmware has opened. -/
def Stream.closed : Stream :=
  { opened := false, ended := false, tenant := 0,
    bind := { stream := 0, port := 0, dstAddr := [], dstUdp := 0, srcUdp := 0, vlan := none, limit := 0, table := 0, ring := 0,
              ringLog := 0, echoHead := 0 },
    bseq := 0, pending := [], errors := 0 }

/-- A text stream. -/
def streamOfN (s : State) (n : Nat) : Stream := NMap.getD s.streams n Stream.closed
def putStream (s : State) (n : Nat) (x : Stream) : State := { s with streams := NMap.set s.streams n x }

/-- Whether a stream is open and has neither ended nor aborted. -/
def streamLive (x : Stream) : Bool := x.opened && !x.ended

/-- The payload of a frame's datagram: the 16-byte stream header, its fields highest byte first, and the text (R45). -/
def frameBytes (f : TextFrame) : List Byte :=
  [1#8, BitVec.ofNat 8 (boolN f.fEnd + 2 * boolN f.fAbort + 4 * boolN f.fResent + 8 * boolN f.fGone)] ++ bytesBE 2 f.stream ++
    [BitVec.ofNat 8 f.tenant, 0#8] ++ bytesBE 2 f.text.length ++ bytesBE 8 f.bseq ++ f.text

/-- The sum of the 16-bit words of bytes, highest byte first. -/
def sumWords : List Byte → Nat
  | [] => 0
  | [a] => 256 * a.toNat
  | a :: b :: t => 256 * a.toNat + b.toNat + sumWords t

/-- A UDP datagram with its checksum over the pseudo header (R44). -/
def udpBytes (src dst : List Byte) (sport dport : Nat) (payload : List Byte) : List Byte :=
  let n := 8 + payload.length
  let sum := sumWords src + sumWords dst + 17 + n + sport + dport + n + sumWords payload
  bytesBE 2 sport ++ bytesBE 2 dport ++ bytesBE 2 n ++ bytesBE 2 (65535 - sum % 65535) ++ payload

/-- One bit of the frame check sequence's CRC-32, least significant bit first (IEEE 802.3, R44). -/
def fcsBit (c : BitVec 32) : BitVec 32 := if c.getLsbD 0 then (c >>> 1) ^^^ 0xEDB88320#32 else c >>> 1

/-- One byte of it. -/
def fcsByte (c : BitVec 32) (b : Byte) : BitVec 32 := (List.range 8).foldl (fun c _ => fcsBit c) (c ^^^ b.setWidth 32)

/-- The frame check sequence of a frame's bytes, as it is sent. -/
def fcsOf (b : List Byte) : List Byte := bytesOf 4 (~~~(b.foldl fcsByte (~~~0#32))).toNat

/-- A frame that a MAC sends, from what follows its MAC addresses: padded to the shortest frame, and with its FCS (IEEE 802.3, R44). `dst` is the IP address
that it goes to. Log 91. -/
def sealFrame (port : Nat) (dst : Option (List Byte)) (b : List Byte) : List Byte :=
  let p := b ++ List.replicate (48 - b.length) 0
  p ++ fcsOf ((bytesOf 12 (Config.macAddrs port dst).toNat).reverse ++ p)

/-- The frame of a UDP datagram, after its MAC addresses (R44, R47): VLAN tag, type, IP header, datagram, FCS. -/
def ipFrame (port : Nat) (vlan : Option Nat) (dst : List Byte) (sport dport : Nat) (payload : List Byte) : List Byte :=
  let tag := match vlan with
    | some v => bytesBE 2 0x8100 ++ bytesBE 2 v
    | none => []
  sealFrame port (some dst)
    (tag ++ bytesBE 2 (if dst.length = 4 then 0x0800 else 0x86DD) ++ Config.ipHeader port dst (8 + payload.length) ++
      udpBytes (Config.portAddr port dst.length) dst sport dport payload)

/-- Hands a text frame to its MAC (R44, R45, R47). -/
def sendFrame (s : State) (f0 : TextFrame) : State :=
  let f := { f0 with wire := ipFrame f0.port f0.bind.vlan f0.bind.dstAddr f0.bind.srcUdp f0.bind.dstUdp (frameBytes f0) }
  { s with
    eth := { s.eth with text := s.eth.text ++ [f], sentFrames := NMap.set s.eth.sentFrames f.port (NMap.getD s.eth.sentFrames f.port 0 + 1) } }

/-- A frame of a stream. -/
def mkFrame (n : Nat) (x : Stream) (bseq : Nat) (text : List Byte) : TextFrame :=
  { port := x.bind.port, stream := n, tenant := x.tenant, fEnd := false, fAbort := false, fResent := false, fGone := false, bseq := bseq,
    text := text, bind := x.bind, wire := [] }

/-- Error record code of a stream abort for trunk firmware (R69, R241). -/
def errStream : Nat := 5

/-- One ABORT frame ends the stream; its pending bytes are discarded (R46, R242). -/
def abortStream (s : State) (n : Nat) (count : Bool) : State :=
  let x := streamOfN s n
  if !streamLive x then s
  else
    let s1 := putStream s n { x with ended := true, pending := [], errors := x.errors + boolN count }
    sendFrame s1 { mkFrame n x x.bseq [] with fAbort := true }

/-- The abort for a failed ring write or for poison, with its error record (R69, R241). -/
def abortError (s : State) (n : Nat) : State := logError (abortStream s n true) errStream n (streamOfN s n).tenant

/-- The continuation bytes that a lead byte needs; none for a byte that opens no well-formed sequence (R240). -/
def utf8Need (b : Nat) : Option Nat :=
  if b < 0x80 then some 0
  else if b < 0xC2 then none
  else if b < 0xE0 then some 1
  else if b < 0xF0 then some 2
  else if b < 0xF5 then some 3
  else none

/-- Whether a byte may stand as continuation k of a lead byte (R240). -/
def utf8Cont (lead k b : Nat) : Bool :=
  let lo := if k = 0 then (if lead = 0xE0 then 0xA0 else if lead = 0xF0 then 0x90 else 0x80) else 0x80
  let hi := if k = 0 then (if lead = 0xED then 0x9F else if lead = 0xF4 then 0x8F else 0xBF) else 0xBF
  decide (lo ≤ b) && decide (b ≤ hi)

/-- U+FFFD. -/
def utf8Bad : List Byte := [0xEF#8, 0xBF#8, 0xBD#8]

/-- A byte that follows nothing: the characters it releases and what stays pending. -/
def utf8Start (b : Byte) : List (List Byte) × List Byte :=
  match utf8Need b.toNat with
  | some 0 => ([[b]], [])
  | some _ => ([], [b])
  | none => ([utf8Bad], [])

/-- A byte after pending bytes (R240). -/
def utf8Step (pend : List Byte) (b : Byte) : List (List Byte) × List Byte :=
  match pend with
  | [] => utf8Start b
  | lead :: r =>
    if utf8Cont lead.toNat r.length b.toNat then
      if utf8Need lead.toNat = some (r.length + 1) then ([pend ++ [b]], []) else ([], pend ++ [b])
    else
      let (c, p) := utf8Start b
      (utf8Bad :: c, p)

/-- Decodes bytes in order: the characters released and what stays pending (R240). -/
def utf8Run : List Byte → List Byte → List (List Byte) × List Byte
  | pend, [] => ([], pend)
  | pend, b :: t =>
    let (c, p) := utf8Step pend b
    let (d, q) := utf8Run p t
    (c ++ d, q)

/-- The bytes of a token in a byte table (R239); `none` where its bytes are poisoned; the flag says that it is ill-formed. -/
def tokenBytes (s : State) (m t : Nat) : Option (List Byte × Bool) :=
  let d := dettabOf s m
  let bad : Option (List Byte × Bool) := some ([0xFF#8], true)
  if d.ntok = 0 || 2 ^ 24 < d.ntok || d.ntok ≤ t then bad
  else
    let ea := memLoc 0 (d.base + 8 * t)
    if readPoisoned s 0 ea 8 then none
    else
      let e := numOf (memRead s 0 ea 8)
      let len := bitsN e 32 8
      let off := bitsN e 0 32
      if bitsN e 40 24 ≠ 0 || 64 < len || d.pool < off + len then bad
      else
        let sa := memLoc 0 (d.base + 8 * d.ntok + off)
        if 0 < len && readPoisoned s 0 sa len then none else some (memRead s 0 sa len, false)

/-- Cuts characters into frames of at most `lim` text bytes, each as full as it goes (R241). -/
def cutFrames (lim : Nat) : List (List Byte) → List Byte → List (List Byte)
  | [], cur => if cur.isEmpty then [] else [cur]
  | c :: t, cur => if lim < cur.length + c.length then cur :: cutFrames lim t c else cutFrames lim t (cur ++ c)

/-- Sends text from a stream offset in frames of a stream; `resent` marks the answer to a resend request. -/
def sendText (s : State) (n : Nat) (x : Stream) (resent : Bool) : Nat → List (List Byte) → State
  | _, [] => s
  | off, t :: r => sendText (sendFrame s { mkFrame n x off t with fResent := resent }) n x resent (off + t.length) r

/-- Writes bytes into the echo ring from a stream offset, through the view of die 0 in the tenant's address space (R168, R241), up to the first that
cannot be written. -/
def ringWrite (x : Stream) : State → Nat → List Byte → State × Bool
  | s, _, [] => (s, true)
  | s, off, b :: t =>
    match unitWrite s x.tenant (x.bind.ring + wordOf (off % 2 ^ x.bind.ringLog)) [b] with
    | some s1 => ringWrite x s1 (off + 1) t
    | none => (s, false)

/-- What released characters do (R241): the echo ring, then ECHOHEAD with release order, then text frames; nothing where none is released. -/
def releaseChars (s : State) (n : Nat) (cs : List (List Byte)) : State :=
  let x := streamOfN s n
  let bytes := cs.flatten
  if bytes.isEmpty then s
  else
    let (s1, ok) := ringWrite x s x.bseq bytes
    match if ok then unitPut s1 x.tenant x.bind.echoHead (bytesOf 8 (x.bseq + bytes.length)) true else none with
    | none => abortError s1 n
    | some s2 =>
      let s3 := putStream s2 n { x with bseq := x.bseq + bytes.length }
      sendText s3 n x false x.bseq (cutFrames x.bind.limit cs [])

/-- The detokeniser takes a token of a live stream (R239 to R241). -/
def emitToken (s : State) (n t : Nat) : State :=
  let x := streamOfN s n
  match tokenBytes s x.bind.table t with
  | none => abortError s n
  | some (b, bad) =>
    let (cs, pend) := utf8Run x.pending b
    releaseChars (putStream s n { x with pending := pend, errors := x.errors + boolN bad }) n cs

/-- The end of a live stream (R242). -/
def flushStream (s : State) (n : Nat) : State :=
  let x := streamOfN s n
  let s1 := if x.pending.isEmpty then s else releaseChars (putStream s n { x with pending := [] }) n [utf8Bad]
  let y := streamOfN s1 n
  if !streamLive y then s1 else sendFrame (putStream s1 n { y with ended := true }) { mkFrame n y y.bseq [] with fEnd := true }

/-- A refused emission: it is counted (R382). -/
def refuseStream (s : State) (n : Nat) : State := let x := streamOfN s n; putStream s n { x with errors := x.errors + 1 }

/-- Whether a strand owns a stream (R66, R382). A trunk strand owns every stream, as it owns every context. Log 33. -/
def ownsStream (s : State) (st : Strand) (n : Nat) : Bool := st.trunk || hasN (tenantOf s st.tenant).streams n

/-- TKEMIT (R235, R382). -/
def execTkemit (o : S3) (s : State) : Out State :=
  let slot := getS s o.sd
  let cv := getS s o.sa
  let sv := getS s o.sb
  let c := cv.toNat % 64
  let n := sv.toNat % 4096
  finish s <|
    if 64 ≤ cv.toNat then .trap cNotOwned cv 0
    else if 4096 ≤ sv.toNat then .trap cNotOwned sv 0
    else if !ownsCtx s (me s) c then .trap cNotOwned (wordOf c) 0
    else if !ownsStream s (me s) n then .trap cNotOwned (wordOf n) 0
    else withPlace s .store 4 slot fun p s1 =>
      let x := raceOf s1 c
      if x.st ≠ 3 || x.empty || !streamLive (streamOfN s1 n) then .ok (refuseStream s1 n)
      else
        let a := mkAcc .ls p slot 4 (.write (bytesOf 4 x.win)) true false false
        match (makeWay s1 a).bind fun s2 => performAcc s2 s.cur a with
        | none => .wait (waitFor s a)
        | some s2 => .ok (emitToken s2 n x.win)

/-- TKFLUSH (R242, R383). -/
def execTkflush (o : S1a) (s : State) : Out State :=
  let sv := getS s o.sa
  let n := sv.toNat % 4096
  finish s <|
    if 4096 ≤ sv.toNat then .trap cNotOwned sv 0
    else if !ownsStream s (me s) n then .trap cNotOwned (wordOf n) 0
    else if streamLive (streamOfN s n) then .ok (flushStream s n)
    else .ok (refuseStream s n)

/-- The oldest byte of a stream that its echo ring still holds (R47, R241). -/
def oldestHeld (x : Stream) : Nat := x.bseq - 2 ^ x.bind.ringLog

/-- The slot under which the reads of echo rings on other packages stand. -/
def ringAsk : Nat := 65

/-- The pieces of a range of a stream, cut at multiples of 64. -/
def ringPieces : Nat → Nat → Nat → List (Nat × Nat)
  | 0, _, _ => []
  | f + 1, off, n =>
    if n = 0 then []
    else
      let k := min n (64 - off % 64)
      (off, k) :: ringPieces f (off + k) (n - k)

/-- Reads pieces of the echo ring of stream n. -/
def ringGet (s : State) (n : Nat) (x : Stream) : List (Nat × Nat) → UnitGot
  | [] => .bytes [] s
  | (off, k) :: t =>
    let o := off % 2 ^ x.bind.ringLog
    match unitGetBy ringAsk s s x.tenant (x.bind.ring + wordOf o) k (n * 2 ^ 24 + o) with
    | .bytes b _ =>
      match ringGet s n x t with
      | .bytes c _ => .bytes (b ++ c) s
      | r => r
    | r => r

/-- The units without the answers that stream n's ring has given. -/
def ringForget (s : State) (n : Nat) : State := unitForget s fun a => a.slot == ringAsk && a.elem / 2 ^ 24 == n

/-- Whether a byte continues a character. -/
def utf8More (b : Byte) : Bool := decide (0x80 ≤ b.toNat) && decide (b.toNat < 0xC0)

/-- Bytes in groups that frames keep whole: a group opens at a byte that continues no character (R46). -/
def charGroups : List Byte → List Byte → List (List Byte)
  | cur, [] => if cur.isEmpty then [] else [cur]
  | cur, b :: t =>
    if utf8More b && cur.length < 4 then charGroups (cur ++ [b]) t
    else if cur.isEmpty then charGroups [b] t
    else cur :: charGroups [b] t

/-- The groups that open before an offset. -/
def groupsBefore : Nat → List (List Byte) → List (List Byte)
  | _, [] => []
  | n, g :: t => if n = 0 then [] else g :: groupsBefore (n - g.length) t

/-- How many bytes before an offset its character begins (R46). -/
def charBack (l : List Byte) : Nat := ((List.range l.length).find? fun k => !utf8More (l.getD k 0)).getD 0

/-- The answer to a request for bytes from a stream offset (R47): the whole characters that hold them, in frames with RESENT set, or a frame with
GONE. Where the first character began in bytes that have been overwritten, its remaining bytes are sent, since they are held, though R46 wants whole
characters (DESIGN CHOICE, log 110). Bytes beyond what the stream has sent are not sent, and nothing is after END or ABORT (R46, R384). A ring that cannot
be read aborts the stream. The state, and whether the request has been answered: it waits for bytes that lie on another package. -/
def resendTry (s : State) (n bseq len : Nat) : State × Bool :=
  let x := streamOfN s n
  let lo := oldestHeld x
  if !streamLive x then (s, true)
  else if bseq < lo then (sendFrame s { mkFrame n x lo [] with fResent := true, fGone := true }, true)
  else if x.bseq ≤ bseq || len = 0 then (s, true)
  else
    let pre := min 3 (bseq - lo)
    let m := pre + min (len + 3) (x.bseq - bseq)
    match ringGet s n x (ringPieces m (bseq - pre) m) with
    | .fail _ s1 => (abortError s1 n, true)
    | .asked s1 => (s1, false)
    | .waiting => (s, false)
    | .bytes b s1 =>
      let back := charBack ((b.take (pre + 1)).reverse)
      let gs := groupsBefore (back + len) (charGroups [] (b.drop (pre - back)))
      (sendText s1 n x true (bseq - back) (cutFrames x.bind.limit gs []), true)

/-- Serves requests in turn, up to one that waits. -/
def serveResends : List (Nat × Nat × Nat) → State → State
  | [], s => { s with eth := { s.eth with resends := [] } }
  | (n, bseq, len) :: t, s =>
    match resendTry s n bseq len with
    | (s1, true) => serveResends t (ringForget s1 n)
    | (s1, false) => { s1 with eth := { s1.eth with resends := (n, bseq, len) :: t } }

/-- A request for bytes from a stream offset (R47) is answered behind those that wait. -/
def resend (s : State) (n bseq len : Nat) : State := serveResends (s.eth.resends ++ [(n, bseq, len)]) s

/-- What waits for the bytes of a ring goes on. -/
def resendsGo (s : State) : State := if s.eth.resends.isEmpty then s else serveResends s.eth.resends s

end Sys2Proof.Machine
end

