-- ==== Sys2Proof/Machine/Mac.lean ====
section
/-! DEFINITION. The Ethernet MACs: received frames (R44, R48, R49), PTP messages (R73) and requests for text (R47). -/

namespace Sys2Proof.Machine

/-! Frames as they arrive (R44). -/

/-- What a received frame is: a discarded one, a datagram on the request port with its source address, a PTP message, or a frame for trunk firmware.
-/
inductive EthIn where
  | drop (f : EthFrame)
  | request (src payload : List Byte)
  | ptp (m : List Byte)
  | firmware
  deriving DecidableEq, Repr

/-- A UDP datagram from its source and destination addresses (R44, R48, R73): a nonzero checksum is checked. -/
def udpIn (port : Nat) (src dst b : List Byte) : EthIn :=
  let n := numBE (sliceBytes b 4 2)
  let dport := numBE (sliceBytes b 2 2)
  let u := b.take n
  let sum := sumWords src + sumWords dst + 17 + n + sumWords u
  if numBE (sliceBytes b 6 2) ≠ 0 && sum % 65535 ≠ 0 then .drop (.badUdpChecksum port)
  else if dport = 319 || dport = 320 then .ptp (u.drop 8)
  else if dport = Config.requestPort then .request src (u.drop 8)
  else .firmware

/-- An IPv4 packet: options and fragments are discarded. -/
def ip4In (port : Nat) (b : List Byte) : EthIn :=
  if leAt b 0 1 % 16 ≠ 5 || numBE (sliceBytes b 6 2) % 2 ^ 14 ≠ 0 then .drop (.fragmentOrOptions port)
  else if leAt b 9 1 = 17 then udpIn port (sliceBytes b 12 4) (sliceBytes b 16 4) (b.drop 20)
  else .firmware

/-- An IPv6 packet: extension headers are discarded. -/
def ip6In (port : Nat) (b : List Byte) : EthIn :=
  let nh := leAt b 6 1
  if hasN [0, 43, 44, 50, 51, 60, 135, 139, 140] nh then .drop (.fragmentOrOptions port)
  else if nh = 17 then udpIn port (sliceBytes b 8 16) (sliceBytes b 24 16) (b.drop 40)
  else .firmware

/-- A frame after its MAC addresses: one 802.1Q tag is accepted, a second one is not; PAUSE and priority flow control are discarded. -/
def frameIn (port : Nat) (fcs : Bool) (b0 : List Byte) : EthIn :=
  let b := if numBE (b0.take 2) = 0x8100 then b0.drop 4 else b0
  let ty := numBE (b.take 2)
  if !fcs then .drop (.badFcs port)
  else if 9216 < b0.length + 16 then .drop (.oversize port (b0.length + 16))
  else if ty = 0x8808 then .drop (.pauseOrPfc port)
  else if ty = 0x8100 then .drop (.fragmentOrOptions port)
  else if ty = 0x0800 then ip4In port (b.drop 2)
  else if ty = 0x86DD then ip6In port (b.drop 2)
  else if ty = 0x88F7 then .ptp (b.drop 2)
  else .firmware

/-- The message type and the sequence id of a PTP message (IEEE 1588-2019). -/
def ptpType (m : List Byte) : Nat := leAt m 0 1 % 16
def ptpSeq (m : List Byte) : Nat := numBE (sliceBytes m 30 2)

/-- Replaces bytes of a message. -/
def putBytes (m : List Byte) (i : Nat) (b : List Byte) : List Byte := m.take i ++ b ++ m.drop (i + b.length)

/-- A timestamp of n ns in the form of IEEE 1588-2019: 48 bits of seconds, 32 bits of ns. -/
def ptpStamp (n : Nat) : List Byte := bytesBE 6 (n / 10 ^ 9) ++ bytesBE 4 (n % 10 ^ 9)

/-- The time of receipt of the request that a Pdelay_Resp answers. -/
def ptpAsked (s : State) (port : Nat) (m : List Byte) : Option Nat :=
  (s.eth.ptpRx.reverse.find? fun x => x.1 == port && ptpType x.2.1 == 2 && ptpSeq x.2.1 == ptpSeq m).map (·.2.2)

/-- What the MAC writes into a one-step message (R73): originTimestamp of a Sync, the residence in correctionField of a Pdelay_Resp. The residence
of a response whose request is not known is a free value. -/
def oneStep (s : State) (port : Nat) (m : List Byte) : List Byte × State :=
  let now := tscOf s 0
  if ptpType m = 0 then (putBytes m 34 (ptpStamp now), s)
  else if ptpType m = 3 then
    let (res, s1) := match ptpAsked s port m with
      | some t => (now - t, s)
      | none => let (w, s1) := freeWord s; (w.toNat, s1)
    (putBytes m 8 (bytesBE 8 ((numBE (sliceBytes m 8 8) + res * 2 ^ 16) % 2 ^ 64)), s1)
  else (m, s)

/-- Counts a frame that leaves an Ethernet port. -/
def countSent (e : Ethernet) (port : Nat) : Ethernet := { e with sentFrames := NMap.set e.sentFrames port (NMap.getD e.sentFrames port 0 + 1) }

/-- Whether a message is an event message, which is timestamped (IEEE 1588-2019). -/
def ptpEvent (m : List Byte) : Bool := decide (ptpType m < 4)

/-- A PTP message in its frame (R73): event port 319, general port 320; the UDP checksum and the FCS cover what the MAC has written. -/
def ptpFrame (port : Nat) (tr : PtpTransport) (m : List Byte) : List Byte :=
  let k := if ptpType m < 8 then 319 else 320
  match tr with
  | .layer2 => sealFrame port none (bytesBE 2 0x88F7 ++ m)
  | .udp dst => ipFrame port none dst k k m

/-- Firmware sets the step mode of a port (R73). The spec gives no register for it: the message that firmware hands over brings it. Log 95. -/
def setStep (e : Ethernet) (port : Nat) (one : Bool) : Ethernet :=
  { e with twoStep := if one then eraseN e.twoStep port else insertN e.twoStep port }

/-- PTP_EVENT_TRANSMIT (R73): in one-step mode the MAC writes its time into a Sync or a Pdelay_Resp; of every other event message the transmit
timestamp is returned to firmware. -/
def ptpTransmit (s : State) (port : Nat) (one : Bool) (tr : PtpTransport) (m : List Byte) : Option State :=
  if 2 ≤ port then none
  else
    let s0 := { s with eth := setStep s.eth port one }
    let writes := !hasN s0.eth.twoStep port && (ptpType m == 0 || ptpType m == 3)
    let (m1, s1) := if writes then oneStep s0 port m else (m, s0)
    let e := countSent s1.eth port
    let stamps := if writes || !ptpEvent m then e.ptpTxStamps else e.ptpTxStamps ++ [(port, tscOf s 0)]
    some { s1 with eth := { e with ptpTx := e.ptpTx ++ [(port, ptpFrame port tr m1)], ptpTxStamps := stamps } }

def execPtpEventTransmit (s : State) : Out State :=
  match s.arg with
  | .ptp port one tr m => event "PTP_EVENT_TRANSMIT" (ptpTransmit s port one tr m)
  | _ => event "PTP_EVENT_TRANSMIT" none

/-- PTP_EVENT_RECEIVE (R73): an event message goes to firmware with its timestamp, another without one. -/
def ptpReceive (s : State) (port : Nat) (m : List Byte) : Option State :=
  if 2 ≤ port then none
  else if ptpEvent m then some { s with eth := { s.eth with ptpRx := s.eth.ptpRx ++ [(port, m, tscOf s 0)] } }
  else some { s with eth := { s.eth with toFirmware := s.eth.toFirmware ++ [(port, m)] } }

def execPtpEventReceive (s : State) : Out State :=
  match s.arg with
  | .ptp port _ _ m => event "PTP_EVENT_RECEIVE" (ptpReceive s port m)
  | .frame p fcs b =>
    match frameIn p fcs b with
    | .ptp m => event "PTP_EVENT_RECEIVE" (ptpReceive s p m)
    | _ => event "PTP_EVENT_RECEIVE" none
  | _ => event "PTP_EVENT_RECEIVE" none

/-! Received Ethernet frames (R44, R48, R49). -/

/-- The datagram that a payload on the request port holds (R45, R48). Log 75. -/
def datagramOf (port : Nat) (src b : List Byte) : Datagram :=
  let len := numBE (sliceBytes b 6 2)
  { port := port, src := src, ver := leAt b 0 1, kind := leAt b 1 1, stream := numBE (sliceBytes b 2 2), tenant := leAt b 4 1, len := len,
    bseq := numBE (sliceBytes b 8 8), text := (b.drop 16).take len }

/-- Counts a discarded frame of a port, and of a tenant where it names one. -/
def discard (s : State) (port : Nat) (tenant : Option Nat) : State :=
  let e := s.eth
  let e1 := { e with discards := NMap.set e.discards port (NMap.getD e.discards port 0 + 1) }
  { s with
    eth := match tenant with
      | none => e1
      | some t => { e1 with tenantDiscards := NMap.set e1.tenantDiscards t (NMap.getD e1.tenantDiscards t 0 + 1) } }

/-- A frame that is no request, PTP event or management request (R44, R49). -/
def ethFrame (s : State) : EthFrame → Option State
  | .badFcs p => if p < 2 then some (discard s p none) else none
  | .pauseOrPfc p => if p < 2 then some (discard s p none) else none
  | .fragmentOrOptions p => if p < 2 then some (discard s p none) else none
  | .oversize p len => if p < 2 && decide (9216 < len) then some (discard s p none) else none
  | .badUdpChecksum p => if p < 2 then some (discard s p none) else none
  | .badKind p t => if p < 2 then some (discard s p (if t < 64 then some t else none)) else none
  | .filterMiss p t => if p < 2 then some (discard s p (if t < 64 then some t else none)) else none
  | .ringFull p t => if p < 2 then some (discard s p (if t < 64 then some t else none)) else none
  | .toFirmware p b => if p < 2 then some { s with eth := { s.eth with toFirmware := s.eth.toFirmware ++ [(p, b)] } } else none

/-- ETHERNET_FRAME_RECEIVE. -/
def execEthernetFrameReceive (s : State) : Out State :=
  match s.arg with
  | .eth f => event "ETHERNET_FRAME_RECEIVE" (ethFrame s f)
  | .packet p src b =>
    let d := datagramOf p src b
    event "ETHERNET_FRAME_RECEIVE" (if 1 ≤ d.kind && d.kind ≤ 4 then none else ethFrame s (.badKind p d.tenant))
  | .frame p fcs b =>
    match frameIn p fcs b with
    | .drop f => event "ETHERNET_FRAME_RECEIVE" (ethFrame s f)
    | .firmware => event "ETHERNET_FRAME_RECEIVE" (ethFrame s (.toFirmware p b))
    | .request src u =>
      let d := datagramOf p src u
      event "ETHERNET_FRAME_RECEIVE" (if 1 ≤ d.kind && d.kind ≤ 4 then none else ethFrame s (.badKind p d.tenant))
    | .ptp _ => event "ETHERNET_FRAME_RECEIVE" none
  | _ => event "ETHERNET_FRAME_RECEIVE" none

/-- Whether a datagram passes its tenant's source filter (R49). -/
def passes (s : State) (d : Datagram) : Bool :=
  d.ver == 1 && decide (d.tenant < 64) && decide (d.stream < 4096) && (tenantOf s d.tenant).filter.any (· == d.src)

/-- An inbound datagram on the request port (R48, R49): it is placed with die 0's TSC in the tenant's receive ring, or discarded and
counted. -/
def datagram (s : State) (kind : Nat) (d : Datagram) : Option State :=
  if 2 ≤ d.port || d.kind ≠ kind then none
  else if !passes s d then some (discard s d.port (if d.tenant < 64 then some d.tenant else none))
  else
    let t := tenantOf s d.tenant
    some (putTenant s d.tenant { t with ring := t.ring ++ [(d, tscOf s 0)] })

/-- The datagram of an event: given by its fields, by its payload, or in its frame. -/
def argDatagram : Arg → Option Datagram
  | .dgram d => some d
  | .packet p src b => some (datagramOf p src b)
  | .frame p fcs b =>
    match frameIn p fcs b with
    | .request src u => some (datagramOf p src u)
    | _ => none
  | _ => none

/-- The events of datagrams. -/
def dgramEvent (s : State) (name : String) (kind : Nat) : Out State := event name ((argDatagram s.arg).bind (datagram s kind))

/-- NEW_REQUEST (R48). -/
def execNewRequest (s : State) : Out State := dgramEvent s "NEW_REQUEST" 1
/-- REQUEST_TEXT_CONTINUED (R48). -/
def execRequestTextContinued (s : State) : Out State := dgramEvent s "REQUEST_TEXT_CONTINUED" 2
/-- CANCEL_GENERATION (R48). -/
def execCancelGeneration (s : State) : Out State := dgramEvent s "CANCEL_GENERATION" 3

/-- RESEND_REQUEST (R47, R48): the datagram stands in the ring like every accepted one, and the bytes that it asks of a stream of its tenant are sent
again. One that names a stream of another tenant is answered by nothing: the spec does not say what it gets (DESIGN CHOICE, log 96). -/
def resendRequest (s : State) (d : Datagram) : Option State :=
  (datagram s 4 d).map fun s1 =>
    if passes s d && (streamOfN s d.stream).tenant == d.tenant then resend s1 d.stream d.bseq d.len else s1

def execResendRequest (s : State) : Out State :=
  event "RESEND_REQUEST" ((argDatagram s.arg).bind (resendRequest s))

end Sys2Proof.Machine
end

