-- ==== Sys2Proof/Machine/Boot.lean ====
section
/-! DEFINITION. Package reset and boot, the life cycle, and measurement (R51 to R61). -/

namespace Sys2Proof.Machine

/-- Extends MEASn by SM3 of a value with an event type (R52). The event types of the ROM's own records are log 34's. -/
def romExtend (s : State) (n : Nat) (value : List Byte) : State := measValue s n 0 value

/-- Appends a record to the measurement log that extends nothing: register 8. Log 11. -/
def noteLog (s : State) (ty : Nat) (value : List Byte) : State :=
  { s with sec := { s.sec with log := s.sec.log ++ [{ n := 8, ty := ty, digest := 0, value := value }] } }

/-- What a reset leaves (R51, R58, R61): every register at its reset value, every memory wiped, the fuses and the boot flash kept, and the request
area kept unless power was lost. -/
def afterReset (s : State) (k : ResetKind) : State :=
  let x := s.sec
  let r := State.reset
  { r with
    sched := s.sched
    free := s.free
    fabric := Fabric.reset s.fabric.pkgId
    eth := { r.eth with replies := s.eth.replies }
    sec :=
      { r.sec with
        lifeCycle := x.lifeCycle, slotHash := x.slotHash, revoked := x.revoked, ownerHash := x.ownerHash, minSvn := x.minSvn,
        seed := x.seed, flash := x.flash, ownerCounter := x.ownerCounter, draws := x.draws,
        token := if k = .powerOn then none else x.token,
        priorNonce := if k = .firmware then x.lcNonce else 0 } }

/-! The life-cycle request (R57 to R60). -/

/-- The fields of a token (R58). -/
def tokTarget (t : List Byte) : Nat := leAt t 0 1
def tokNonce (t : List Byte) : List Byte := sliceBytes t 1 32
def tokKey (t : List Byte) : List Byte := sliceBytes t 33 64
def tokBody (t : List Byte) : List Byte := t.take (t.length - 64)
def tokSig (t : List Byte) : List Byte := t.drop (t.length - 64)

/-- The length of a token with its target (R58). -/
def tokLenOk (t : List Byte) : Bool := t.length == (if tokTarget t = 1 then 321 else 161)

/-- An identifier of a signature as its bytes. -/
def ascii (s : String) : List Byte := s.toList.map fun c => BitVec.ofNat 8 c.toNat

/-- Whether a transition is one of R57. -/
def transOk (old new : Nat) : Bool := (new == old + 1 && decide (new ≤ 3)) || (new == 4 && decide (old ≤ 3))

/-- Whether the key of a hash may authorise a transition (R57): Turmal for provisioned, the owner for deployed and returned, either for
decommissioned. -/
def authOk (x : Security) (new : Nat) (h : List Byte) : Bool :=
  let turmal := h == Config.turmalKeyHash
  let owner := h == digBytes x.ownerHash
  if new = 1 then turmal else if new = 4 then turmal || owner else owner

/-- Whether the ROM accepts a token (R58, R59). -/
def tokenOk (x : Security) (t : List Byte) : Bool :=
  x.priorNonce != 0 && tokLenOk t && tokNonce t == digBytes x.priorNonce && transOk x.lifeCycle (tokTarget t) &&
    authOk x (tokTarget t) (Config.sm3 (tokKey t)) && Config.sm2Verify (tokKey t) (ascii "TURMAL-LC") (tokBody t) (tokSig t)

/-- The fuses after a transition (R56, R57, R60): every fuse of the identity seed is programmed where the key is destroyed, since fuses only change
from 0 to 1. Log 103. -/
def fuseNew (x : Security) (t : List Byte) : Security :=
  let n := tokTarget t
  if n = 1 then
    { x with
      lifeCycle := 1, seed := Config.entropy x.draws, draws := x.draws + 1,
      slotHash := (List.range 4).map fun i => digOf (sliceBytes t (97 + 32 * i) 32), ownerHash := digOf (sliceBytes t 225 32) }
  else if n = 4 then { x with lifeCycle := 4, seed := BitVec.allOnes 256 }
  else { x with lifeCycle := n }

/-- Step 0, first part: a pending request is performed or its rejection is written to the log; PRIORNONCE clears once a token has been
read, and the request area with it (R59, R61). -/
def lifeRequest (s : State) : State :=
  match s.sec.token with
  | none => s
  | some t =>
    let clear := fun (x : Security) => { x with token := none, priorNonce := 0 }
    if tokenOk s.sec t then { s with sec := clear (fuseNew s.sec t) }
    else noteLog { s with sec := clear s.sec } 1 (t.take 1)

/-- The image of the fuses as they stand (R51). -/
def fusesOf (x : Security) : List Byte := Config.fuseImage x.lifeCycle x.slotHash x.revoked x.ownerHash x.minSvn

/-- Step 0 (R51, R58, R61): the nonce is drawn, the request performed, memory wiped, and MEAS0 extended three times. -/
def bootStep0 (s : State) : State :=
  let s1 := { s with sec := { s.sec with lcNonce := Config.entropy s.sec.draws, draws := s.sec.draws + 1 } }
  let s2 := lifeRequest s1
  let s3 := romExtend (romExtend s2 0 [BitVec.ofNat 8 (lcstate s2.sec)]) 0 (fusesOf s2.sec)
  let s4 := romExtend s3 0 (Config.wipeRecord s.sec.draws)
  { s4 with ord := Ordering_.reset, sec := { s4.sec with wiped := true } }

/-! Stages 1 to 4 (R53 to R55). -/

/-- The bytes of trunk SRAM, and the longest image body. -/
def sramBytes : Nat := 4096 * 65536
def maxBody : Nat := 64 * 2 ^ 20

/-- The image of a stage in the boot flash. -/
def imageOf (x : Security) (stage : Nat) : Image := x.flash.getD (stage - 1) ⟨[], []⟩

/-- The fields of an image header (R53). -/
def hdrStage (h : List Byte) : Nat := leAt h 4 1
def hdrSlot (h : List Byte) : Nat := leAt h 5 1
def hdrSvn (h : List Byte) : Nat := leAt h 6 2
def hdrLen (h : List Byte) : Nat := leAt h 8 8
def hdrLoad (h : List Byte) : Nat := leAt h 16 8

/-- The body of an image as loaded: LEN bytes of the flash. -/
def bodyOf (i : Image) : List Byte := sliceBytes i.body 0 (hdrLen i.header)

/-- The first check of R54 that a header fails, 0 if none. No check names the range of KEYSLOT: one above 3 fails check 3 (DESIGN CHOICE, log 109). -/
def headerCause (x : Security) (stage : Nat) (i : Image) : Nat :=
  let h := i.header
  let len := hdrLen h
  let load := hdrLoad h
  if sliceBytes h 0 4 != [0x59#8, 0x53#8, 0x49#8, 0x4D#8] || hdrStage h ≠ stage then 1
  else if (sliceBytes h 184 72).any (· != 0#8) || len % 64 ≠ 0 || len < 64 || maxBody < len || load % 64 ≠ 0 || sramBytes < load + len then 2
  else if 3 < hdrSlot h || x.revoked.getD (hdrSlot h) true || Config.sm3 (sliceBytes h 56 64) != digBytes (x.slotHash.getD (hdrSlot h) 0) then 3
  else if !Config.sm2Verify (sliceBytes h 56 64) (ascii "TURMAL-BOOT") (sliceBytes h 0 120) (sliceBytes h 120 64) then 4
  else if hdrSvn h < x.minSvn.getD (stage - 1) 0 then 5
  else if Config.sm3 (bodyOf i) != sliceBytes h 24 32 then 6
  else 0

/-- Loads, verifies and measures the stages from one on (R51, R54, R55); a check that fails ends the boot. -/
def bootStages : Nat → State → Nat → State
  | 0, s, _ => s
  | n + 1, s, stage =>
    let i := imageOf s.sec stage
    let c := headerCause s.sec stage i
    if c ≠ 0 then { s with sec := { s.sec with boot := .halted, failStage := stage, failCause := c } }
    else
      let s1 := physWrite s 0 (memLoc 0 (hdrLoad i.header)) (bodyOf i)
      bootStages n (measExtend s1 stage 0 (sliceBytes i.header 24 32) []) (stage + 1)

/-- Step 5 (R51): the key slot and SVN of each stage are extended into MEAS5, the P- and D-dies are released, and trunk firmware runs on trunk core
0. -/
def bootStep5 (s : State) : State :=
  let s1 := (List.range 4).foldl (fun s k => romExtend s 5 (sliceBytes (imageOf s.sec (k + 1)).header 5 3)) s
  let s2 := putStrand s1 0 { strandOf s1 0 with run := .running }
  { s2 with ord := settle s2.ord, sec := { s2.sec with boot := .done, runFw := true } }

/-- The boot of R51, from the state that a reset leaves. A decommissioned package starts no firmware (R57). -/
def bootRun (s : State) : State :=
  let s0 := bootStep0 s
  if lcstate s0.sec = 4 then { s0 with sec := { s0.sec with boot := .halted } }
  else
    let s1 := bootStages 4 s0 1
    if s1.sec.boot = .halted then s1 else bootStep5 s1

/-- A strapped id of 768 or above is recorded as an error (R26). -/
def strapCheck (s : State) : State := if 768 ≤ s.fabric.pkgId then logError s errStrap s.fabric.pkgId 0 else s

/-- A package reset (R51). -/
def packageReset (s : State) (k : ResetKind) : State := bootRun (strapCheck (afterReset s k))

/-- PACKAGE_RESET (R51, R58): without power only a power-on reset starts the package. -/
def execPackageReset (s : State) : Out State :=
  match s.arg with
  | .reset k => event "PACKAGE_RESET" (if s.powered || k = .powerOn then some (packageReset s k) else none)
  | _ => event "PACKAGE_RESET" none

/-- MEAS_EXTEND (R52): the value written to MEASEXT. -/
def execMeasExtend (s : State) : Out State :=
  match s.arg with
  | .w v => event "MEAS_EXTEND" (some (writeMeasext s v))
  | _ => event "MEAS_EXTEND" none

/-- Whether a window register has a write of its own among the operations: MEASEXT, SNAPCTL, TSSTEP, TRCTL, TRTAIL, a queue's tail, control and
status, FLTCTL, FLTTAIL, RESUMEW, KILLW and TLBINV. -/
def ownEvent (off : Nat) : Bool :=
  off == 0x60 || off == 0x8F00 || off == 0x7A208 ||
    (decide (0x1000 ≤ off) && decide (off < 0x1900) && hasN [2, 4, 6] (off % 0x100 / 8)) ||
    (decide (0x20000 ≤ off) && decide (off < 0x68000) && hasN [1, 2, 4] (off % 0x40 / 8)) ||
    (decide (0x70000 ≤ off) && decide (off < 0x78000) && hasN [2, 4, 8, 9] (off % 0x1000 / 8))

/-- REGISTER_WRITE (R50): offset and value. -/
def execRegisterWrite (s : State) : Out State :=
  match s.arg with
  | .nw off v => event "REGISTER_WRITE" (if off % 8 ≠ 0 || ownEvent off then none else windowWrite s 0 off v)
  | _ => event "REGISTER_WRITE" none

end Sys2Proof.Machine
end

