-- ==== Sys2Proof/Machine/Index.lean ====
section
/-! DEFINITION. The index scratchpad (R211, R212, R360 to R362). -/

namespace Sys2Proof.Machine

/-- Entries of a strand's partition (R211). -/
def partSize (share : Nat) : Nat := if share = 0 then 1024 else if share = 1 then 512 else 256

/-- The entry of a key. -/
def findEntry (l : List XEntry) (k : Word) : Option XEntry := l.find? fun e => e.key == k

/-- Changes the entry of a key, or appends one (R212). -/
def putEntry (l : List XEntry) (k : Word) (f : Option EA → EA) : List XEntry :=
  match findEntry l k with
  | some _ => l.map fun e => if e.key = k then { e with val := f (some e.val) } else e
  | none => l ++ [{ key := k, val := f none }]

/-- A value of a partition kind (R360): the i64 stands in bits 63:0. -/
def i64Val (n : Nat) : EA := BitVec.ofNat 512 (n % 2 ^ 64)

/-- The width of a value in a value queue (R360): XACC of an EA partition adds f32 elements. -/
def valWidth (k : XKind) (acc : Bool) : Nat :=
  match k with
  | .i64 => 64
  | .ea => if acc then 32 else 2048

/-- An element of an index syllable: index, active, key, value bits. -/
abbrev XEl := Nat × Bool × Word × Nat

/-- The elements before the first that finds the partition full, what they leave, and that element's index and key. -/
def indexEls (cap : Nat) (f : Nat → Option EA → EA) : List XEl → List XEntry → List XEntry × Option (Nat × Word)
  | [], l => (l, none)
  | (i, act, k, v) :: t, l =>
    if !act then indexEls cap f t l
    else if (findEntry l k).isNone && cap ≤ l.length then (l, some (i, k))
    else indexEls cap f t (putEntry l k (f v))

/-- Elements start to VL − 1 of two lists that begin at `start`. -/
def xels (start : Nat) (keys : List (Nat × Bool)) (vals : List Nat) : List XEl :=
  keys.zipIdx.map fun (x, j) => (start + j, x.2, wordOf x.1, vals.getD j 0)

/-- XINS and XACC: keys from out-queue q, values from out-queue k, which the keys are drained from first where one queue serves both. -/
def indexPut (s : State) (i : Instr) (o : XqOps) (acc : Bool) (f : XKind → Nat → Option EA → EA) : Out State :=
  finish s <| vecOnly s i fun _ =>
    let st := me s
    let q := o.q.toNat
    let k := o.k.toNat
    let w := valWidth st.xkind acc
    let start := startOf s
    match qread (oqOf st q) start st.vl 64 with
    | none => illegal s i
    | some (keys, _) =>
      let st0 := dropAll st q start st.vl 64
      match qread (oqOf st0 k) start st.vl w with
      | none => illegal s i
      | some (vals, _) =>
        let els := xels start keys (vals.map (·.1))
        let (l, full) := indexEls (partSize st.rec_.share) (f st.xkind) els st.xents
        let lowest := ((els.find? fun e => e.2.1).map (·.1)).getD 0
        let st1 := { dropAll st0 k start st.vl w with xents := l }
        let last := match full with
          | none => st.vl
          | some (j, _) => j
        let fl := if acc && st.xkind == .ea then
            nvSNaN ((els.filter fun e => e.2.1 && decide (e.1 < last)).map fun e => fpOf f32 e.2.2.2)
          else 0
        match full with
        | none => .ok (putMe s { st1 with fflags := st1.fflags ||| fl })
        | some (j, key) =>
          if j = lowest then
            partAt s (j, cIndexFull, key) fun b => dropBoth b q k start j st.vl 64 w
          else .ok (putMe s { st1 with fflags := st1.fflags ||| fl, vl := j })

/-- The value that XINS leaves: an EA image, or an i64. -/
def insVal (k : XKind) (v : Nat) (_ : Option EA) : EA :=
  match k with
  | .i64 => i64Val v
  | .ea => eaClean (BitVec.ofNat 512 v)

/-- The value that XACC leaves (R212). -/
def accVal (k : XKind) (v : Nat) (old : Option EA) : EA :=
  match k with
  | .i64 => i64Val ((old.getD 0).toNat + v)
  | .ea => eaAdd (old.getD eaInit) (fpOf f32 v)

def execXins (o : XqOps) (s : State) : Out State := indexPut s (.xins o) o false insVal
def execXacc (o : XqOps) (s : State) : Out State := indexPut s (.xacc o) o true accVal

/-- The bits that a value takes in a value queue. -/
def valBits (v : Option EA) : Nat := match v with
  | some x => x.toNat
  | none => 0

/-- XLOOK: an inactive or absent element pushes zero bits; the predicate bits of active elements are written (R212, R360). -/
def execXlook (o : XlookOps) (s : State) : Out State :=
  finish s <| vecOnly s (.xlook o) fun _ =>
    let st := me s
    let q := o.q.toNat
    let start := startOf s
    match qread (oqOf st q) start st.vl 64 with
    | none => illegal s (.xlook o)
    | some (keys, _) =>
      let rs := (xels start keys []).map fun e => (e.1, e.2.1, if e.2.1 then (findEntry st.xents e.2.2.1).map (·.val) else none)
      let st1 := dropAll st q start st.vl 64
      let st2 := setIq st1 o.k.toNat
        (qpush (iqOf st1 o.k.toNat) start (valWidth st.xkind false) (rs.map fun r => (valBits r.2.2, r.2.1)))
      .ok (putMe s (predSet st2 o.p.toNat ((rs.filter fun r => r.2.1).map fun r => (r.1, r.2.2.isSome))))

/-- XCLR (R211). -/
def execXclr (o : XclrOps) (s : State) : Out State :=
  finish s <| vecOnly s (.xclr o) fun _ => .ok (putMe s { me s with xents := [], xkind := if o.i64 then .i64 else .ea })

/-- XDRAIN (R362): VL is trimmed to the entries, and the oldest are pushed and removed. -/
def execXdrain (o : XqOps) (s : State) : Out State :=
  finish s <| vecOnly s (.xdrain o) fun _ =>
    let st := me s
    let vl := min st.vl st.xents.length
    let out := st.xents.take vl
    let st1 := setIq st o.q.toNat (qpush (iqOf st o.q.toNat) 0 64 (out.map fun e => (e.key.toNat, true)))
    let st2 := setIq st1 o.k.toNat
      (qpush (iqOf st1 o.k.toNat) 0 (valWidth st.xkind false) (out.map fun e => (e.val.toNat, true)))
    .ok (putMe s { st2 with vl := vl, xents := st.xents.drop vl })

end Sys2Proof.Machine
end

