-- ==== Sys2Proof/Machine/Mgmt.lean ====
section
/-! DEFINITION. The management protocol (R62 to R67) and the reset of a tenant (R118, R119). -/

namespace Sys2Proof.Machine

/-- The statuses of R65. -/
def msDone : Nat := 0
def msBadSig : Nat := 1
def msMalformed : Nat := 2
def msState : Nat := 3
def msNoResource : Nat := 4

/-- A reply (R65): it echoes OP and the counter and carries the status. Its layout mirrors the request's. Log 35. -/
def replyBytes (r : MgmtReq) (status : Nat) (body : List Byte) : List Byte :=
  [1#8, BitVec.ofNat 8 r.op, BitVec.ofNat 8 r.tenant, BitVec.ofNat 8 status] ++ bytesOf 8 r.counter ++ bytesOf 4 body.length ++ body

/-- The UDP port of the management protocol (R65). -/
def mgmtPort : Nat := 4410

/-- How many bytes of body a reply's frame holds (R44): 9216 less the frame's other bytes. -/
def replyRoom (r : MgmtReq) : Nat := 9216 - (12 + (if r.vlan.isSome then 4 else 0) + 2 + (if r.src.length = 4 then 20 else 40) + 8 + 16 + 4)

/-- The frame of a reply (R44, R65): one UDP datagram back to the sender, on the VLAN of the request. A body beyond the frame's room is cut there. Log
112. -/
def replyFrame (r : MgmtReq) (status : Nat) (body : List Byte) : List Byte :=
  ipFrame r.port r.vlan r.src mgmtPort r.sport (replyBytes r status (body.take (replyRoom r)))

/-- Sends a reply on the request's port. -/
def sendReply (s : State) (r : MgmtReq) (status : Nat) (body : List Byte) : State :=
  { s with eth := { countSent s.eth r.port with replies := s.eth.replies ++ [(r.port, replyFrame r status body)] } }

/-- The bytes of a request that a signature follows (R65). -/
def signedPart (r : MgmtReq) : List Byte :=
  [BitVec.ofNat 8 r.ver, BitVec.ofNat 8 r.op, BitVec.ofNat 8 r.tenant, BitVec.ofNat 8 r.zero] ++ bytesOf 8 r.counter ++ bytesOf 4 r.len ++ r.body

/-- Whether a request is malformed in its header. -/
def badHeader (r : MgmtReq) : Bool := r.ver != 1 || r.zero != 0 || r.len != r.body.length

/-- An owner signature (R65): `key` is the owner's key, whose hash is fused. -/
def ownerSigned (x : Security) (r : MgmtReq) : Bool :=
  Config.sm3 r.key == digBytes x.ownerHash && Config.sm2Verify r.key (ascii "YS4-OWNER") (signedPart r) r.sig &&
    decide (x.ownerCounter < r.counter)

/-- A Turmal signature (R65): the request carries the key before its signature. R65 gives an identifier for owner signatures alone; the model takes
"YS4-OWNER" here too, over the request with the key (DESIGN CHOICE, log 97). -/
def turmalSigned (r : MgmtReq) : Bool :=
  Config.sm3 r.key == Config.turmalKeyHash && Config.sm2Verify r.key (ascii "YS4-OWNER") (signedPart r ++ r.key) r.sig

/-- Keeps the counter of an accepted owner operation (R65). -/
def acceptOwner (s : State) (r : MgmtReq) : State := { s with sec := { s.sec with ownerCounter := r.counter } }

/-- Whether trunk firmware serves the protocol, and whether the recovery responder does (R55, R57, R65). -/
def fwServes (s : State) (r : MgmtReq) : Bool := s.sec.runFw && decide (r.port < 2)
def recServes (s : State) (r : MgmtReq) : Bool := s.sec.boot == .halted && r.port == 0

/-- An open operation (R65): served by firmware and by the recovery responder; a decommissioned package answers STATUS alone (R57). A request that
the responder does not serve, or whose OP names no operation, gets no reply, since R65 gives no status for it: no such event takes place (DESIGN
CHOICE, log 98). -/
def openOp (s : State) (r : MgmtReq) (op : Nat) (f : State → State) : Option State :=
  if r.op ≠ op then none
  else if !(fwServes s r || (recServes s r && (lcstate s.sec != 4 || op == 1))) then none
  else some (if badHeader r then sendReply s r msMalformed [] else f s)

/-- An owner operation of trunk firmware (R65); `deployed`: it needs the deployed state. -/
def ownerOp (s : State) (r : MgmtReq) (op : Nat) (deployed : Bool) (f : State → State) : Option State :=
  if r.op ≠ op || !fwServes s r then none
  else some (
    if badHeader r then sendReply s r msMalformed []
    else if !ownerSigned s.sec r then sendReply s r msBadSig []
    else
      let s1 := acceptOwner s r
      if deployed && lcstate s.sec != 2 then sendReply s1 r msState [] else f s1)

/-! Open operations (R62 to R65). -/

/-- STATUS: BOOTSTAT, LCSTATE, PKGID. -/
def doStatus (s : State) (r : MgmtReq) : State :=
  sendReply s r msDone (bytesOf 8 (bootstat s.sec) ++ bytesOf 8 (lcstate s.sec) ++ bytesOf 2 s.fabric.pkgId)

def execStatus (s : State) : Out State :=
  match s.arg with
  | .mgmt r => event "STATUS" (openOp s r 1 fun s => doStatus s r)
  | _ => event "STATUS" none

/-- Bytes 0 to 311 of a quote (R63, R64). -/
def quoteBody (s : State) (count : Nat) (nonce : List Byte) : List Byte :=
  [1#8, BitVec.ofNat 8 (lcstate s.sec)] ++ bytesOf 2 s.fabric.pkgId ++ bytesOf 4 (bootstat s.sec) ++ bytesOf 8 count ++ nonce ++
    (s.sec.meas.map digBytes).flatten ++ bytesOf 4 s.sec.log.length ++ bytesOf 4 0

/-- QUOTE (R63, R64): none is signed without a device identity key (R57). -/
def doQuote (s : State) (r : MgmtReq) : State :=
  let lc := lcstate s.sec
  if r.body.length ≠ 32 then sendReply s r msMalformed []
  else if lc = 0 || lc = 4 then sendReply s r msState []
  else
    let n := s.sec.quotes + 1
    let q := quoteBody s n r.body
    sendReply { s with sec := { s.sec with quotes := n } } r msDone (q ++ bytesOf 64 (Config.sm2Sign (digBytes s.sec.seed) (ascii "YS4-QUOTE") q).toNat)

def execQuote (s : State) : Out State :=
  match s.arg with
  | .mgmt r => event "QUOTE" (openOp s r 2 fun s => doQuote s r)
  | _ => event "QUOTE" none

/-- A measurement log record as bytes (R52). Log 35. -/
def recordBytes (m : MeasRec) : List Byte :=
  [BitVec.ofNat 8 m.n, BitVec.ofNat 8 m.ty] ++ bytesOf 2 m.value.length ++ digBytes m.digest ++ m.value

/-- The byte strings of a list that fit a room, whole and in order. -/
def fitRoom : Nat → List (List Byte) → List Byte
  | _, [] => []
  | n, b :: t => if n < b.length then [] else b ++ fitRoom (n - b.length) t

/-- LOG: the records from the index that the body holds, as many as the reply's frame holds whole (log 112). -/
def doLog (s : State) (r : MgmtReq) : State :=
  if r.body.length ≠ 4 then sendReply s r msMalformed []
  else sendReply s r msDone (fitRoom (replyRoom r) ((s.sec.log.drop (leAt r.body 0 4)).map recordBytes))

def execLog (s : State) : Out State :=
  match s.arg with
  | .mgmt r => event "LOG" (openOp s r 3 fun s => doLog s r)
  | _ => event "LOG" none

/-- CERT (R62). -/
def execCert (s : State) : Out State :=
  match s.arg with
  | .mgmt r => event "CERT" (openOp s r 4 fun s => sendReply s r msDone Config.certChain)
  | _ => event "CERT" none

/-- A counter of a map as 8 bytes. -/
def counterBytes (m : NMap Nat) (n : Nat) : List Byte := ((List.range n).map fun k => bytesOf 8 (NMap.getD m k 0)).flatten

/-- COUNTERS: Ethernet discards by port and tenant, frames sent, the fabric's protocol errors, flits sent and accepted, streams' errors, and the error
records. Log 35. -/
def doCounters (s : State) (r : MgmtReq) : State :=
  sendReply s r msDone
    (counterBytes s.eth.discards 2 ++ counterBytes s.eth.tenantDiscards 64 ++ counterBytes s.eth.sentFrames 2 ++
      counterBytes s.fabric.protoErr 109 ++ counterBytes s.fabric.sent 48 ++ counterBytes s.fabric.accepted 48 ++
      (s.streams.map fun x => bytesOf 4 x.1 ++ bytesOf 8 x.2.errors).flatten ++
      (s.errors.map fun e => bytesOf 8 e.1 ++ bytesOf 8 e.2.1 ++ bytesOf 8 e.2.2).flatten)

def execCounters (s : State) : Out State :=
  match s.arg with
  | .mgmt r => event "COUNTERS" (openOp s r 5 fun s => doCounters s r)
  | _ => event "COUNTERS" none

/-! Tenants (R66, R67, R118, R119). -/

/-- What a tenant's configuration event extends into MEAS7: the tenant and its resources (R67). Log 34. -/
def tenantValue (t : Nat) (x : Tenant) : List Byte :=
  [BitVec.ofNat 8 t] ++ (x.contexts.map fun c => BitVec.ofNat 8 c) ++ (x.streams.map fun n => bytesOf 2 n).flatten

/-- Whether some tenant owns a context or a stream. -/
def contextFree (s : State) (c : Nat) : Bool := decide (c < 64) && !(raceOf s c).assigned && !s.tenants.any fun t => hasN t.2.contexts c
def streamFree (s : State) (n : Nat) : Bool := decide (n < 4096) && !s.tenants.any fun t => hasN t.2.streams n

/-- TENANT-CREATE (R66, R67). -/
def doCreate (s : State) (r : MgmtReq) (cs ns : List Nat) (weight : Nat) : State :=
  let t := r.tenant
  if 64 ≤ t then sendReply s r msMalformed []
  else if (tenantOf s t).phase ≠ 0 || !cs.all (contextFree s) || !ns.all (streamFree s) then sendReply s r msNoResource []
  else
    let x : Tenant := { Tenant.free with phase := 1, contexts := cs, streams := ns }
    let s1 := cs.foldl (fun s c => putRace s c { raceOf s c with tenant := t, assigned := true }) (putTenant s t x)
    let s2 := { s1 with tweight := NMap.set s1.tweight t (weight % 256) }
    sendReply (measValue s2 7 1 (tenantValue t x)) r msDone []

def execTenantCreate (s : State) : Out State :=
  match s.arg with
  | .mgmtCreate r cs ns w => event "TENANT_CREATE" (ownerOp s r 0x10 true fun s => doCreate s r cs ns w)
  | _ => event "TENANT_CREATE" none

/-- The queues of a tenant (R84). -/
def queuesOf (t : Nat) : List Nat := (List.range 8).map (8 * t + ·) ++ (List.range 64).map (512 + 64 * t + ·)

/-- Discards the held flits of a tenant's strands (R118). -/
def dropHeld (s : State) (sids : List Nat) : State :=
  let f := dropStarts s.fabric fun x => x.held && hasN sids x.sid
  let tx := f.tx.map fun t => { t with unacked := t.unacked.filter fun x => !(x.held && hasN sids x.sid) }
  { s with fabric := { f with tx := tx, held := tx.any fun t => t.unacked.any (·.held) } }

/-- The strand numbers of a tenant's running and saved strands. -/
def tenantSids (s : State) (t : Nat) : List Nat :=
  ((s.strands.filter fun x => !x.2.trunk && x.2.rec_.tenant == t && x.2.run != .idle).map (·.1)) ++
    (s.disp.map fun d => (d.2.saved.filter fun v => v.2.strand.rec_.tenant == t).map fun v => savedSid v.2.strand).flatten

/-- Cancels every live launch of a queue with status 4 (R108, R118). -/
def cancelAll (s : State) (q : Nat) : State := (queueOf s q).live.foldl (fun s l => (cancelLaunch s q l.id 4).1) s

/-- A race context in one of the states of R217 enters aborted with ACAUSE 2 (R118, R217, R234). Log 78. -/
def abortTenantCtx (s : State) (c : Nat) : State := putRace s c (abortRace (raceOf s c) 2)

/-- The race contexts that are a tenant's (R215). -/
def tenantCtxs (s : State) (t : Nat) : List Nat := (List.range 64).filter fun c => (raceOf s c).assigned && (raceOf s c).tenant == t

/-- The step counter of a batch, as trunk firmware reads it (R119). -/
def batchStep (s : State) (b : Batch) : Nat := leAt (memRead s 0 b.steps 8) 0 8

/-- The bits of a batch's rows that are not a tenant's. -/
def rowsLeft (t : Nat) (rows : List Nat) : Nat := packCodes 1 (rows.map fun r => boolN (r != t))

/-- Clears the rows of a tenant in a batch's live-row mask (R118). -/
def vacateRows (s : State) (t : Nat) (b : Batch) : State :=
  let n := ceilDiv b.rows.length 8
  if hasN b.rows t then
    physWrite s 0 b.live (bytesOf n (Nat.land (numOf (memRead s 0 b.live n)) (rowsLeft t b.rows)))
  else s

/-- Notes the step counter of a batch that holds a row of a tenant, at the vacated point (R119). -/
def vacateBatch (s : State) (t : Nat) (b : Batch) : Batch :=
  if hasN b.rows t then { b with vacatedAt := NMap.set b.vacatedAt t (batchStep s b) } else b

/-- The start of a tenant reset (R118), one sequence point: the vacated bit, the batches' rows, the contexts, the streams, and the
launches. -/
def beginReset (s : State) (t : Nat) (destroy : Bool) (waiting : List (Nat × List Byte)) : State :=
  let x := tenantOf s t
  let sids := tenantSids s t
  let s1 := putTenant s t { x with phase := 2, vacated := true, destroy := destroy, waiting := waiting }
  let s2 := { s1.batches.foldl (fun s b => vacateRows s t b) s1 with batches := s1.batches.map (vacateBatch s1 t) }
  let s3 := (tenantCtxs s t).foldl abortTenantCtx s2
  let s4 := x.streams.foldl (fun s n => abortStream s n false) s3
  let s5 := (queuesOf t).foldl cancelAll s4
  dropHeld (endTenants s5) sids

/-- TENANT-RESET and TENANT-DESTROY (R67): the reply follows when the reset completes; a request that meets a reset in progress begins no second
one. Where that request is a TENANT-DESTROY, the reset in progress ends by freeing the tenant: R67 does not say what it then does (DESIGN CHOICE,
log 99). -/
def doTenantReset (s : State) (r : MgmtReq) (destroy : Bool) : State :=
  let t := r.tenant
  let x := tenantOf s t
  let w := (r.port, replyFrame r msDone [])
  if 64 ≤ t then sendReply s r msMalformed []
  else if x.phase = 0 then sendReply s r msNoResource []
  else if x.phase = 2 then putTenant s t { x with destroy := x.destroy || destroy, waiting := x.waiting ++ [w] }
  else beginReset s t destroy [w]

def execTenantReset (s : State) : Out State :=
  match s.arg with
  | .mgmt r => event "TENANT_RESET" (ownerOp s r 0x11 true fun s => doTenantReset s r false)
  | _ => event "TENANT_RESET" none

def execTenantDestroy (s : State) : Out State :=
  match s.arg with
  | .mgmt r => event "TENANT_DESTROY" (ownerOp s r 0x12 true fun s => doTenantReset s r true)
  | _ => event "TENANT_DESTROY" none

/-- Wipes frames to zero with valid ECC, in every view and every L2 (R119). -/
def wipeFrames (o : Ordering_) (frames : List Nat) : Ordering_ :=
  let gone := fun loc => hasN frames (loc / 2 ^ 16)
  { o with views := o.views.map fun m => m.filter fun c => !gone c.1, poison := o.poison.filter (fun p => !gone p),
           l2Poison := o.l2Poison.filter fun p => !gone p.2 }

/-- An empty queue (R67): its registers of position as when EN was set. -/
def emptyQueue (x : WorkQueue) : WorkQueue :=
  { x with head := 0, tail := 0, comp := 0, nextId := if x.en then 1 else 0, stop := 0, live := [], doneIds := [] }

/-- Frees a tenant's resources (R67). -/
def freeTenant (s : State) (t : Nat) : State :=
  let x := tenantOf s t
  let s1 := (tenantCtxs s t).foldl (fun s c => putRace s c { raceOf s c with tenant := 0, assigned := false }) s
  let s2 := x.streams.foldl (fun s n => putStream s n Stream.closed) s1
  let s3 := putTenant s2 t Tenant.free
  { s3 with tnroot := NMap.erase s3.tnroot t, tweight := NMap.erase s3.tweight t, queues := s3.queues.filter fun q => !hasN (queuesOf t) q.1 }

/-- TENANT_RESET_COMPLETE (R67, R119): the launches have completed, and every batch that held a row has passed its step at the vacated
point. The receive ring is emptied with the queues, which R67 does not say (DESIGN CHOICE, log 100). -/
def tenantComplete (s : State) (t : Nat) : Option State :=
  let x := tenantOf s t
  let past := s.batches.all fun b => match NMap.get? b.vacatedAt t with
    | none => true
    | some n => decide (n < batchStep s b)
  if x.phase ≠ 2 || !((queuesOf t).all fun q => (queueOf s q).live.isEmpty) || !past then none
  else
    let s1 := { s with ord := wipeFrames (settle s.ord) x.frames, tlb := s.tlb.filter fun e => e.tenant != t }
    let s2 := (queuesOf t).foldl (fun s q => if (NMap.get? s.queues q).isSome then putQueue s q (emptyQueue (queueOf s q)) else s) s1
    let s3 := { s2 with batches := s2.batches.map fun b => { b with vacatedAt := NMap.erase b.vacatedAt t } }
    let s4 := putTenant s3 t { x with phase := 1, vacated := false, destroy := false, ring := [], waiting := [] }
    let s5 := measValue s4 7 2 (tenantValue t x)
    let s6 := if x.destroy then measValue (freeTenant s5 t) 7 3 (tenantValue t x) else s5
    let e := x.waiting.foldl (fun e w => countSent e w.1) s6.eth
    some { s6 with eth := { e with replies := e.replies ++ x.waiting } }

def execTenantResetComplete (s : State) : Out State :=
  match s.arg with
  | .n1 t => event "TENANT_RESET_COMPLETE" (tenantComplete s t)
  | _ => event "TENANT_RESET_COMPLETE" none

/-! Streams and filters (R47, R49, R239). -/

/-- Whether a stream's binding is one of R47 and R239. -/
def bindOk (b : StreamBinding) : Bool :=
  decide (b.port < 2) && decide (64 ≤ b.limit) && decide (b.limit ≤ 8192) && decide (b.table < 8) && decide (12 ≤ b.ringLog) &&
    decide (b.ringLog ≤ 24) && b.ring.toNat % 2 ^ b.ringLog == 0

/-- STREAM-OPEN (R47): BSEQ starts at 0. -/
def doOpen (s : State) (r : MgmtReq) (b : StreamBinding) : State :=
  if 64 ≤ r.tenant || !bindOk b then sendReply s r msMalformed []
  else if !hasN (tenantOf s r.tenant).streams b.stream || streamLive (streamOfN s b.stream) then sendReply s r msNoResource []
  else
    let x : Stream := { Stream.closed with opened := true, tenant := r.tenant, bind := b }
    sendReply (putStream s b.stream x) r msDone []

def execStreamOpen (s : State) : Out State :=
  match s.arg with
  | .mgmtStream r b => event "STREAM_OPEN" (ownerOp s r 0x13 true fun s => doOpen s r b)
  | _ => event "STREAM_OPEN" none

/-- STREAM-CLOSE (R47). -/
def doClose (s : State) (r : MgmtReq) (n : Nat) : State :=
  if !hasN (tenantOf s r.tenant).streams n then sendReply s r msNoResource []
  else sendReply (putStream s n { streamOfN s n with opened := false, pending := [] }) r msDone []

def execStreamClose (s : State) : Out State :=
  match s.arg with
  | .mgmtN r n => event "STREAM_CLOSE" (ownerOp s r 0x13 true fun s => doClose s r n)
  | _ => event "STREAM_CLOSE" none

/-- FILTER-SET (R49). -/
def doFilter (s : State) (r : MgmtReq) (addrs : List (List Byte)) : State :=
  if 64 ≤ r.tenant then sendReply s r msMalformed []
  else if (tenantOf s r.tenant).phase = 0 then sendReply s r msNoResource []
  else sendReply (putTenant s r.tenant { tenantOf s r.tenant with filter := addrs }) r msDone []

def execFilterSet (s : State) : Out State :=
  match s.arg with
  | .mgmtFilter r addrs => event "FILTER_SET" (ownerOp s r 0x14 true fun s => doFilter s r addrs)
  | _ => event "FILTER_SET" none

/-! Life cycle, SVN and recovery (R55, R58, R65). -/

/-- Whether a token is signed by the Turmal key (R58, R65). -/
def tokenTurmal (t : List Byte) : Bool :=
  Config.sm3 (tokKey t) == Config.turmalKeyHash && Config.sm2Verify (tokKey t) (ascii "TURMAL-LC") (tokBody t) (tokSig t)

/-- LC-REQUEST (R58, R65), whose body is the token: it is stored in the request area, and firmware resets the package. -/
def lcRequest (s : State) (r : MgmtReq) (t : List Byte) : Option State :=
  if r.op ≠ 0x20 || !fwServes s r then none
  else some (
    if badHeader r || !tokLenOk t then sendReply s r msMalformed []
    else
      let owner := ownerSigned s.sec r
      if !owner && !tokenTurmal t then sendReply s r msBadSig []
      else
        let s1 := sendReply (if owner then acceptOwner s r else s) r msDone []
        packageReset { s1 with sec := { s1.sec with token := some t } } .firmware)

def execLcRequest (s : State) : Out State :=
  match s.arg with
  | .mgmt r => event "LC_REQUEST" (lcRequest s r r.body)
  | _ => event "LC_REQUEST" none

/-- SVN-RAISE (R54, R65): a fuse only ever rises. -/
def doSvn (s : State) (r : MgmtReq) (stage svn : Nat) : State :=
  if stage < 1 || 4 < stage || 65536 ≤ svn then sendReply s r msMalformed []
  else
    let l := s.sec.minSvn
    sendReply { s with sec := { s.sec with minSvn := l.set (stage - 1) (max svn (l.getD (stage - 1) 0)) } } r msDone []

def execSvnRaise (s : State) : Out State :=
  match s.arg with
  | .mgmtN2 r stage svn => event "SVN_RAISE" (ownerOp s r 0x21 false fun s => doSvn s r stage svn)
  | _ => event "SVN_RAISE" none

/-- Replaces bytes of a stage's image area; bytes that nothing has written are 0. Log 7. -/
def areaWrite (a : List Byte) (off : Nat) (d : List Byte) : List Byte :=
  (if a.length < off then a ++ List.replicate (off - a.length) 0 else a.take off) ++ d ++ a.drop (off + d.length)

/-- The boot flash with data written into a stage's image area (R55). -/
def flashWrite (f : List Image) (stage off : Nat) (d : List Byte) : List Image :=
  let l := (List.range 4).map fun i => f.getD i ⟨[], []⟩
  let i := l.getD (stage - 1) ⟨[], []⟩
  let a := areaWrite (i.header ++ i.body) off d
  l.set (stage - 1) ⟨a.take 256, a.drop 256⟩

/-- The body of RECOVER-WRITE (R65): STAGE, FLAGS, two zero bytes, OFFSET, data. -/
def recStage (r : MgmtReq) : Nat := leAt r.body 0 1
def recFlags (r : MgmtReq) : Nat := leAt r.body 1 1
def recOff (r : MgmtReq) : Nat := leAt r.body 4 8
def recData (r : MgmtReq) : List Byte := r.body.drop 12

/-- RECOVER-WRITE (R55, R65): trunk firmware answers it with status 3; the recovery responder takes data for the stage that failed, and LAST
resets the package. -/
def recoverWrite (s : State) (r : MgmtReq) : Option State :=
  let stage := recStage r
  let off := recOff r
  let d := recData r
  if r.op ≠ 0x30 then none
  else if fwServes s r then some (sendReply s r msState [])
  else if !recServes s r || lcstate s.sec = 4 then none
  else some (
    let bad := badHeader r || decide (r.body.length < 12) || stage != s.sec.failStage || 2 ≤ recFlags r || leAt r.body 2 2 != 0 ||
      off % 64 != 0 || d.length % 64 != 0 ||
      8192 < d.length || 64 * 2 ^ 20 + 256 < off + d.length
    let owner := ownerSigned s.sec r
    if bad then sendReply s r msMalformed []
    else if !owner && !turmalSigned r then sendReply s r msBadSig []
    else
      let s1 := if owner then acceptOwner s r else s
      let s2 := sendReply { s1 with sec := { s1.sec with flash := flashWrite s1.sec.flash stage off d } } r msDone []
      if recFlags r = 1 then packageReset s2 .other else s2)

def execRecoverWrite (s : State) : Out State :=
  match s.arg with
  | .mgmt r => event "RECOVER_WRITE" (recoverWrite s r)
  | _ => event "RECOVER_WRITE" none

end Sys2Proof.Machine
end

