-- ==== Sys2Proof/Machine/Prune.lean ====
section
/-! DEFINITION. PRUNE and SPHDR (R209, R210, R357 to R359). -/

namespace Sys2Proof.Machine

/-- A parameter block (R357). -/
structure PruneBlk where
  src : Word
  limit : Nat
  kgroups : Nat
  rowb : Nat
  n : Nat
  m : Nat
  wid : Nat
  transp : Bool
  zeros : Bool
  deriving DecidableEq, Repr

/-- Reads a parameter block from its 32 bytes. -/
def pruneBlk (b : List Byte) : PruneBlk :=
  { src := wordOf (leAt b 0 8), limit := leAt b 8 8, kgroups := leAt b 16 4, rowb := leAt b 20 2, n := leAt b 22 1, m := leAt b 23 1,
    wid := leAt b 24 1, transp := leAt b 25 1 % 2 == 1, zeros := leAt b 25 1 / 2 == 0 && (sliceBytes b 26 6).all (· == 0) }

/-- The first of checks 3 to 5 of R206 that a parameter block fails, 0 for none (R357). -/
def pruneCheck (cols : Nat) (p : PruneBlk) (wid : Nat) : Nat :=
  if !p.zeros then 3
  else if tileBad4 p.n p.m wid p.transp then 4
  else if p.rowb = 0 || p.kgroups = 0 || cols < p.rowb || (p.transp && p.rowb % p.m ≠ 0) then 5
  else 0

/-- A relaxed LS-path access of n bytes. -/
def plainAcc (k : AccKind) (n : Nat) (p : Place) (va : Word) : Access := mkAcc .ls p va n k false false false

/-- Reads at consecutive elements: numbers, addresses and a size. -/
def pruneReads (s : State) (n : Nat) (els : List El) (k : List (List Byte) → State → Res) (fail : Nat → Word → Res) : Res :=
  match scanFrom s (me s) .load n els with
  | (_, some (_, c, ev)) => fail c ev
  | (l, none) =>
    let mk := fun p va => { plainAcc .read n p va with group := nextGroup (me s) }
    match askAll s mk l with
    | some s1 => .wait s1
    | none =>
      match loadEls (fun s e p => readNow s e.i (mk p e.va)) (fun _ => false) (fillEls s l) l with
      | .wait s1 => .wait s1
      | .stop _ f => fail f.2.1 f.2.2
      | .done vals s1 => k (vals.map fun v => bytesOf n v.1) s1

/-- A fault before anything is written: VSTART stays where the syllable began. -/
def pruneFail (s : State) (start : Nat) (cause : Nat) (ev : Word) : Res := partAt s (start, cause, ev) id

/-- The parameter block's read. -/
def blkEls (va : Word) : List El := [{ i := 2 ^ 40, va := va, act := true, data := 0 }]

/-- The 8-byte words of bytes that stand at an address, as queued writes of one group (R357): none where an address fails its checks. -/
def wordItems (s : State) (g : Nat) (va : Word) (b : List Byte) : Except (Nat × Word) (List QItem) :=
  let els : List El := (List.range (ceilDiv b.length 8)).map fun k =>
    { i := k, va := va + wordOf (8 * k), act := true, data := leAt b (8 * k) 8 }
  match scanFrom s (me s) .store 8 els with
  | (_, some (_, c, ev)) => .error (c, ev)
  | (l, none) => .ok (groupItems g false (fun e p => plainAcc (.write (bytesOf 8 e.data)) 8 p e.va) l)

/-- Queues several writes in order, each a group of its own: overlapping ones keep program order (R169). -/
def writeAll (s : State) : Nat → List (Word × List Byte) → Except (Nat × Word) (List QItem)
  | _, [] => .ok []
  | g, (va, b) :: t =>
    match wordItems s g va b, writeAll s (g + 1) t with
    | .ok x, .ok y => .ok (x ++ y)
    | .error e, _ => .error e
    | _, .error e => .error e

/-- SPHDR (R357, R358). -/
def execSphdr (o : VmAb) (s : State) : Out State :=
  finish s <| vecOnly s (.sphdr o) fun _ =>
    let st := me s
    let h := getS s o.sa
    let pb := getS s o.sb
    if pb.toNat % 32 ≠ 0 then pruneFail s 0 cMisaligned pb
    else if h.toNat % 64 ≠ 0 then pruneFail s 0 cMisaligned h
    else
      pruneReads s 32 (blkEls pb) (fun l s1 =>
        let p := pruneBlk (l.headD [])
        match wordItems s1 (nextGroup (me s1)) h (hdrBytes p.transp false p.n p.m p.wid p.rowb p.kgroups p.rowb) with
        | .error (c, ev) => pruneFail s 0 c ev
        | .ok items =>
          let k := pruneCheck (mxCols st.die) p p.wid
          if k ≠ 0 then pruneFail s 0 cSparse (tileEval k)
          else .ok (putMe s1 (addItems (me s1) s.slot items))) (pruneFail s 0)

/-- The magnitude class of a value: 2 NaN, 1 infinity, 0 finite (R209). -/
def magClass : Fp → Nat
  | .nan _ => 2
  | .inf _ => 1
  | .fin _ _ _ => 0

/-- Whether |a| is greater than |b| (R209). -/
def magGt (a b : Fp) : Bool :=
  if magClass a ≠ magClass b then decide (magClass b < magClass a)
  else
    match a, b with
    | .fin _ m e, .fin _ n k => cmpFp (.fin false m e) (.fin false n k) == .gt
    | _, _ => false

/-- The indices that a group keeps without TRANSP: the N largest magnitudes, the lower index among equals (R209). -/
def keepGroup (n : Nat) (g : List Fp) : List Nat :=
  (List.range g.length).filter fun i =>
    let x := g.getD i (.fin false 0 0)
    let better := (List.range g.length).filter fun j =>
      let y := g.getD j (.fin false 0 0)
      magGt y x || (decide (j < i) && !magGt x y)
    better.length < n

/-- The patterns of n bits among m, rising (R209). -/
def patterns (m n : Nat) : List Nat := (List.range (2 ^ m)).filter fun p => popcN m p == n

/-- Every choice of k row patterns, in lexicographic order. -/
def rowChoices (ps : List Nat) : Nat → List (List Nat)
  | 0 => [[]]
  | k + 1 => (ps.map fun p => (rowChoices ps k).map fun l => p :: l).flatten

/-- The score of a mask: NaNs, infinities, and the exact sum of finite magnitudes in units of 2^lo. -/
def maskScore (lo : Int) (sq : List (List Fp)) (mask : List Nat) : Nat × Nat × Nat :=
  (sq.zip mask).foldl (fun (acc : Nat × Nat × Nat) (row, p) =>
    row.zipIdx.foldl (fun acc (x, i) =>
      if p / 2 ^ i % 2 = 1 then
        match x with
        | .nan _ => (acc.1 + 1, acc.2.1, acc.2.2)
        | .inf _ => (acc.1, acc.2.1 + 1, acc.2.2)
        | .fin _ m e => (acc.1, acc.2.1, acc.2.2 + m * 2 ^ (e - lo).toNat)
      else acc) acc) (0, 0, 0)

/-- Whether one score is greater than another. -/
def scoreGt (a b : Nat × Nat × Nat) : Bool :=
  decide (b.1 < a.1) || (a.1 == b.1 && (decide (b.2.1 < a.2.1) || (a.2.1 == b.2.1 && decide (b.2.2 < a.2.2))))

/-- The least exponent among finite values, at most 0. -/
def leastExp (l : List Fp) : Int := l.foldl (fun m x => match x with | .fin _ _ e => min m e | _ => m) 0

/-- The mask of a square with TRANSP (R209): the greatest score, the lowest patterns among equals. -/
def bestMask (m n : Nat) (sq : List (List Fp)) : List Nat :=
  let lo := leastExp sq.flatten
  let ok := (rowChoices (patterns m n) m).filter fun mask =>
    (List.range m).all fun i => (mask.filter fun p => p / 2 ^ i % 2 = 1).length == n
  match ok with
  | [] => []
  | x :: t => t.foldl (fun b c => if scoreGt (maskScore lo sq c) (maskScore lo sq b) then c else b) x

/-- The indices of a pattern. -/
def patIdx (m p : Nat) : List Nat := (List.range m).filter fun i => p / 2 ^ i % 2 = 1

/-- The dense values of row r: groups of M, from the row's source blocks (R359). -/
def rowGroups (d : FmtDesc) (p : PruneBlk) (bs : List Nat) : List (List Fp) :=
  let e := blkE d.wid
  (List.range p.kgroups).map fun g => (List.range p.m).map fun i =>
    let k := g * p.m + i
    let b := bs.getD (k / e) 0
    fdDec d (blkScale b) (blkElem d.wid b (k % e))

/-- The kept indices of every row and group. -/
def keepAll (p : PruneBlk) (rows : List (List (List Fp))) : List (List (List Nat)) :=
  if p.transp then
    (List.range rows.length).map fun r =>
      (List.range p.kgroups).map fun g =>
        let r0 := r / p.m * p.m
        let sq := (List.range p.m).map fun i => (rows.getD (r0 + i) []).getD g []
        patIdx p.m ((bestMask p.m p.n sq).getD (r % p.m) 0)
  else rows.map fun gs => gs.map (keepGroup p.n)

/-- The metadata bytes of a row (R205). -/
def metaBytes (p : PruneBlk) (idx : List (List Nat)) : List Byte := bytesOf (tileMrow p.kgroups p.n p.m) (packCodes (mLog p.m) idx.flatten)

/-- The payload blocks of a row, with flags (R209, R359). -/
def payBlocks (fdn : Nat) (d : FmtDesc) (gs : List (List Fp)) (idx : List (List Nat)) : List Nat × FFlags :=
  let vals := ((gs.zip idx).map fun (g, l) => l.map fun i => g.getD i (.fin false 0 0)).flatten
  vbqAll fdn d false vals

/-- A pruned tile's rows as writes: payload then metadata (R210). -/
def rowWrites (h : Word) (p : PruneBlk) (wid r : Nat) (pay : List Nat) (idx : List (List Nat)) : List (Word × List Byte) :=
  let colb := tileColb p.kgroups p.n wid
  let off := 64 * (1 + p.rowb * colb)
  [(h + wordOf (64 * (1 + r * colb)), (pay.map (bytesOf 64)).flatten),
   (h + wordOf (off + r * tileMrow p.kgroups p.n p.m), metaBytes p idx)]

/-- The first of `k` consecutive accesses of n bytes that fails its checks: cause and address (R146, R357). -/
def firstBad (s : State) (acc : Acc) (n : Nat) : Nat → Word → Option (Nat × Word)
  | 0, _ => none
  | k + 1, va =>
    match checkElem s (me s) acc n va with
    | .error c => some (c, va)
    | .ok _ => firstBad s acc n k (va + wordOf n)

/-- The rows that the byte limit lets be written (R210, R359). -/
def rowsFit (p : PruneBlk) (wid : Nat) : Nat :=
  let off := 64 * (1 + p.rowb * tileColb p.kgroups p.n wid)
  ((List.range p.rowb).find? fun r => p.limit < off + (r + 1) * tileMrow p.kgroups p.n p.m).getD p.rowb

/-- PRUNE once its parameter block and its source have been read: `start` is the first row to write. -/
def pruneWrite (s : State) (h : Word) (p : PruneBlk) (fdn : Nat) (d : FmtDesc) (start : Nat) (srcs : List (List Nat)) (s1 : State) : Res :=
  let rows := srcs.map (rowGroups d p)
  let keep := keepAll p rows
  let fit := rowsFit p d.wid
  let hdr := fun (inc : Bool) (done : Nat) => (h, hdrBytes p.transp inc p.n p.m d.wid p.rowb p.kgroups done)
  let full := fit = p.rowb
  let todo := (List.range p.rowb).filter fun r => decide (start ≤ r) && decide (r < fit)
  let outs := todo.map fun r => (r, payBlocks fdn d (rows.getD r []) (keep.getD r []))
  let body := (outs.map fun x => rowWrites h p d.wid x.1 x.2.1 (keep.getD x.1 [])).flatten
  let ws := (if start = 0 then [hdr true 0] else []) ++ body ++ [if full then hdr false p.rowb else hdr true (max start fit)]
  let fl := orFlags (outs.map fun x => x.2.2)
  if p.limit < 64 then pruneFail s 0 cPack (wordOf p.limit)
  else if full then
    match writeAll s1 (nextGroup (me s1)) ws with
    | .error (c, ev) => pruneFail s start c ev
    | .ok items => .ok (putMe s1 { addItems (me s1) s.slot items with fflags := (me s1).fflags ||| fl })
  else
    let b := rollback s
    match writeAll b (nextGroup (me b)) ws with
    | .error (c, ev) => pruneFail s start c ev
    | .ok items =>
      partAt s (max start fit, cPack, wordOf p.limit) fun st =>
        { commitItems st s.slot items with fflags := st.fflags ||| fl }

/-- The source blocks as elements (R359). -/
def srcEls (p : PruneBlk) (rb : Nat) : List El :=
  (List.range (p.rowb * rb)).map fun k => { i := k, va := p.src + wordOf (64 * k), act := true, data := 0 }

/-- The addresses that PRUNE uses (R357): every source block, and of the tile the header and the rows that it writes. -/
def pruneBad (s : State) (h : Word) (p : PruneBlk) (wid rb start : Nat) : Option (Nat × Word) :=
  let fit := rowsFit p wid
  let colb := tileColb p.kgroups p.n wid
  let mrow := tileMrow p.kgroups p.n p.m
  ((firstBad s .load 64 (p.rowb * rb) p.src).or (firstBad s .store 8 8 h)).or
    ((firstBad s .store 8 (8 * colb * (fit - start)) (h + wordOf (64 * (1 + start * colb)))).or
      (firstBad s .store 8 (mrow / 8 * (fit - start)) (h + wordOf (64 * (1 + p.rowb * colb) + start * mrow))))

/-- PRUNE (R209, R210, R357, R359). VSTART counts rows. -/
def execPrune (o : VmAb) (s : State) : Out State :=
  finish s <| vecOnly s (.prune o) fun _ =>
    let st := me s
    let pb := getS s o.sa
    let h := getS s o.sb
    let start := startOf s
    let fail := pruneFail s start
    if pb.toNat % 32 ≠ 0 then fail cMisaligned pb
    else if h.toNat % 64 ≠ 0 then fail cMisaligned h
    else
      pruneReads s 32 (blkEls pb) (fun l s1 =>
        let p := pruneBlk (l.headD [])
        if p.src.toNat % 64 ≠ 0 then fail cMisaligned p.src
        else
          pruneReads s1 64 (srcEls { p with rowb := 1 } 1) (fun l1 s2 =>
            let b0 := numOf (l1.headD [])
            let d := blkDesc st b0
            if !blkValid st b0 then fail cBlock p.src
            else
              let rb := ceilDiv (p.kgroups * p.m) (blkE d.wid)
              match pruneBad s2 h p d.wid rb start with
              | some (c, ev) => fail c ev
              | none =>
                if p.zeros && p.transp && !(p.m == 2 || p.m == 4) then illegal s (.prune o)
                else
                  let k := pruneCheck (mxCols st.die) p d.wid
                  if k ≠ 0 then fail cSparse (tileEval k)
                  else
                    pruneReads s2 64 (srcEls p rb) (fun ls s3 =>
                      let bs := ls.map numOf
                      match findIdx? (fun b => blkFcode b != blkFcode b0) bs with
                      | some i => fail cBlock (p.src + wordOf (64 * i))
                      | none =>
                        pruneWrite s h p (blkFcode b0) d start ((List.range p.rowb).map fun r => (bs.drop (r * rb)).take rb) s3) fail) fail) fail

end Sys2Proof.Machine
end

