-- ==== Sys2Proof/Machine/Rotary.lean ====
section
/-! DEFINITION. The rotary load (R243 to R248, R335). -/

namespace Sys2Proof.Machine

/-- A KV page descriptor (R243). -/
structure KvDesc where
  paddr : Nat
  pbase : Int
  vrows : Nat
  kfmt : Nat
  pair : Nat
  kwid : Nat
  hdim : Nat
  rtab : Nat
  zero : Bool
  deriving DecidableEq, Repr

/-- Reads a descriptor from its 32 bytes (R243). -/
def kvDesc (b : List Byte) : KvDesc :=
  { paddr := leAt b 0 8, pbase := signedN 32 (leAt b 8 4), vrows := leAt b 12 1, kfmt := leAt b 13 1, pair := leAt b 14 1,
    kwid := leAt b 15 1, hdim := leAt b 16 2, rtab := leAt b 18 1, zero := (sliceBytes b 19 13).all (· == 0) }

/-- Whether a descriptor keeps the rules of R243. -/
def kvOk (d : KvDesc) : Bool :=
  d.zero && d.paddr % 64 == 0 && d.vrows ≤ 64 && d.kfmt ≤ 1 && d.pair ≤ 1 &&
    (if d.kfmt = 1 then 1 ≤ d.kwid && d.kwid ≤ 8 else d.kwid == 0) &&
    d.hdim % 2 == 0 && 2 ≤ d.hdim && d.hdim ≤ 512 && d.rtab ≤ 63

/-- The row stride RS (R243). -/
def kvStride (d : KvDesc) : Nat := if d.kfmt = 0 then 64 * ceilDiv (2 * d.hdim) 64 else 64 * ceilDiv d.hdim (blkE d.kwid)

/-- The pair of a dimension, and the pair's two dimensions (R247). -/
def kvPair (d : KvDesc) (dim : Nat) : Nat × Nat × Nat :=
  if d.pair = 0 then (dim / 2, 2 * (dim / 2), 2 * (dim / 2) + 1)
  else
    let j := dim % (d.hdim / 2)
    (j, j, j + d.hdim / 2)

/-- The address and size of the read that dimension `dim` of row r needs. -/
def kvRead (d : KvDesc) (r dim : Nat) : Word × Nat :=
  if d.kfmt = 0 then (wordOf (d.paddr + r * kvStride d + 2 * dim), 2)
  else (wordOf (d.paddr + r * kvStride d + 64 * (dim / blkE d.kwid)), 64)

/-- The value of dimension `dim` from what was read; none for a bad block (R244). -/
def kvValue (st : Strand) (d : KvDesc) (dim : Nat) (b : List Byte) : Option Fp :=
  if d.kfmt = 0 then some (fpOf bf16 (numOf b))
  else
    let x := numOf b
    let fd := fdOf (st.fds.getD (blkFcode x) 0)
    if blkFcodeOk x && fdValid fd && fd.wid == d.kwid then some (fdDec fd (blkScale x) (blkElem d.kwid x (dim % blkE d.kwid)))
    else none

/-- The exact two-term sum ±, rounded once; a NaN raises NV (R247). -/
def rotTerm (a b c d : Fp) (neg : Bool) : Nat × FFlags :=
  let p := (mulFp a b).1
  let q0 := (mulFp c d).1
  let q := if neg then q0.neg else q0
  if p.isNaN || q.isNaN then (fmtNaN f32, flNV)
  else
    let (r, bad) := addFp .rne p q
    if bad || r.isNaN then (fmtNaN f32, flNV) else rnd f32 .rne r

/-- The rotated element of dimension `dim` (R246, R247). -/
def rotElem (s : State) (d : KvDesc) (r dim : Nat) (x y : Fp) : Nat × FFlags :=
  let (j, d0, _) := kvPair d dim
  let w := rotWord s d.rtab (j / 2)
  let th := bitsW w (32 * (j % 2)) 32
  let a := ((d.pbase + (r : Int)) * (th : Int) % (2 : Int) ^ 32).toNat
  let (c, sn) := rotCoef a
  let fc := fpOf f32 c
  let fs := fpOf f32 sn
  if dim = d0 then rotTerm x fc y fs true else rotTerm x fs y fc false

/-- A plan for the elements of a rotary load: index, row, dimension, and the two reads. -/
structure RotEl where
  i : Nat
  r : Nat
  dim : Nat
  va0 : Word
  p0 : Place
  va1 : Word
  p1 : Place
  deriving DecidableEq, Repr

/-- The elements up to the first that fails: a row at or above VROWS, or a key-row address that fails its checks (R248, R335). The
failure: index, cause, EVAL, whether it trims. -/
def rotScan (s : State) (st : Strand) (d : KvDesc) (va : Word) (row0 : Nat) :
    Nat → Nat → List RotEl × Option (Nat × Nat × Word × Bool)
  | 0, _ => ([], none)
  | n + 1, i =>
    let r := row0 + i / d.hdim
    let dim := i % d.hdim
    if d.vrows ≤ r then ([], some (i, cBlock, va, true))
    else
      let (_, d0, d1) := kvPair d dim
      let (a0, n0) := kvRead d r d0
      let (a1, n1) := kvRead d r d1
      match checkElem s st .load n0 a0 with
      | .error c => ([], some (i, c, a0, c == cSpad))
      | .ok p0 =>
        match checkElem s st .load n1 a1 with
        | .error c => ([], some (i, c, a1, c == cSpad))
        | .ok p1 =>
          let (l, f) := rotScan s st d va row0 n (i + 1)
          ({ i := i, r := r, dim := dim, va0 := a0, p0 := p0, va1 := a1, p1 := p1 } :: l, f)

/-- How the reads of a rotary load end. -/
inductive RotEnd where
  | done (vals : List (Nat × Bool)) (fl : FFlags) (s : State)
  | stop (vals : List (Nat × Bool)) (fl : FFlags) (f : Nat × Nat × Word)
  | wait (s : State)

/-- The access of a key-row read. -/
def rotAcc (o : RotOps) (n : Nat) (p : Place) (va : Word) : Access := vmAcc .read n o.ord p va

/-- Keeps what the reads of a rotary element have given while the syllable waits for others (R249). -/
def keepRot (s : State) (e : RotEl) (b0 : List Byte) (b1 : Option (List Byte)) : State :=
  let s1 := keepRead s { i := 2 * e.i, va := e.va0, act := true, data := 0 } b0
  match b1 with
  | none => s1
  | some b => keepRead s1 { i := 2 * e.i + 1, va := e.va1, act := true, data := 0 } b

/-- Reads and rotates the elements in order. -/
def rotEls (o : RotOps) (d : KvDesc) : State → List RotEl → RotEnd
  | s, [] => .done [] 0 s
  | s, e :: t =>
    let (_, d0, d1) := kvPair d e.dim
    let n := if d.kfmt = 0 then 2 else 64
    match readWide s (2 * e.i) (rotAcc o n e.p0 e.va0) with
    | .wait s1 => .wait s1
    | .fail c => .stop [] 0 (e.i, c, e.va0)
    | .bytes b0 _ s1 =>
      match readWide s1 (2 * e.i + 1) (rotAcc o n e.p1 e.va1) with
      | .wait s2 => .wait (keepRot s2 e b0 none)
      | .fail c => .stop [] 0 (e.i, c, e.va1)
      | .bytes b1 _ s2 =>
        match kvValue (me s) d d0 b0, kvValue (me s) d d1 b1 with
        | some x, some y =>
          let (v, fl) := rotElem s d e.r e.dim x y
          match rotEls o d s2 t with
          | .done l f s3 => .done ((v, true) :: l) (fl ||| f) s3
          | .stop l f x => .stop ((v, true) :: l) (fl ||| f) x
          | .wait s3 => .wait (keepRot s3 e b0 (some b1))
        | k0, _ =>
          -- A run ahead does not know the bytes of a block that it has passed over.
          if s.look.isSome then
            match rotEls o d s2 t with
            | .done l f s3 => .done ((0, true) :: l) f s3
            | .stop l f x => .stop ((0, true) :: l) f x
            | .wait s3 => .wait (keepRot s3 e b0 (some b1))
          else .stop [] 0 (e.i, cBlock, if k0.isNone then e.va0 else e.va1)

/-- The reads of a rotary load as elements, for the requests to other packages. -/
def rotReads (l : List RotEl) : List (El × Option Place) :=
  (l.map fun e => [({ i := 2 * e.i, va := e.va0, act := true, data := 0 }, some e.p0),
    ({ i := 2 * e.i + 1, va := e.va1, act := true, data := 0 }, some e.p1)]).flatten

/-- The four words of a descriptor, read on the LS path (R335). Their element numbers lie above those of any key-row read. -/
def rotDescEls (va : Word) : List El :=
  (List.range 4).map fun k => { i := 2 ^ 20 + k, va := va + wordOf (8 * k), act := true, data := 0 }

/-- The access of a descriptor word: with ord acquire every key-row read waits for it. -/
def rotDescAcc (o : RotOps) (p : Place) (va : Word) : Access := vmAcc .read 8 o.ord p va

/-- The end of a rotary load. -/
def rotFinish (s : State) (q start : Nat) (r : RotEnd) (stop : Option (Nat × Nat × Word)) (vl : Nat) : Res :=
  let push := fun (st : Strand) (vals : List (Nat × Bool)) (fl : FFlags) =>
    { setIq st q (qpush (iqOf st q) start 32 vals) with fflags := st.fflags ||| fl }
  match r with
  | .wait s1 => .wait s1
  | .stop vals fl f => partAt s f fun st => push st vals fl
  | .done vals fl s1 =>
    match stop with
    | some f => partAt s f fun st => push st vals fl
    | none => .ok (putMe s1 { push (me s1) vals fl with vl := vl })

/-- VLDROT once its descriptor has been read. -/
def rotRun (o : RotOps) (s : State) (va : Word) (start : Nat) (d : KvDesc) : Res :=
  let st := me s
  if !kvOk d then partAt s (start, cBlock, va) id
  else
    let (l, f) := rotScan s st d va (getS s o.sb).toNat (st.vl - start) start
    let (stop, vl) :=
      match f with
      | none => (none, st.vl)
      | some (i, c, ev, trims) => if trims && start < i then (none, i) else (some (i, c, ev), st.vl)
    match askAll s (rotAcc o (if d.kfmt = 0 then 2 else 64)) (rotReads l) with
    | some s1 => .wait s1
    | none => rotFinish s o.q.toNat start (rotEls o d (fillEls s (rotReads l)) l) stop vl

/-- Whether a run ahead that looks for one access has passed over what a syllable read: its values are not known. -/
def passedOver (s s1 : State) : Bool := match s.look, s1.look with
  | some a, some b => a.atom || (a.left.isSome && (a.left != b.left || a.hit != b.hit))
  | _, _ => false

/-- VLDROT (R335). A fault of the descriptor is taken at the first element. While the syllable waits for key rows it keeps the descriptor that it has
read. -/
def execVldrot (o : RotOps) (s : State) : Out State :=
  finish s <| vecOnly s (.vldrot o) fun _ =>
    let st := me s
    let va := getS s o.sa
    let start := startOf s
    if st.vl ≤ start then .ok s
    else if va.toNat % 32 ≠ 0 then partAt s (start, cMisaligned, va) id
    else
      let (els, bad) := scanFrom s st .load 8 (rotDescEls va)
      match bad with
      | some (_, c, ev) => partAt s (start, c, ev) id
      | none =>
        match askAll s (rotDescAcc o) els with
        | some s1 => .wait s1
        | none =>
          match loadEls (fun s e p => readNow s e.i (rotDescAcc o p e.va)) (fun _ => false) (fillEls s els) els with
          | .wait s1 => .wait s1
          | .stop _ f => partAt s (start, f.2.1, f.2.2) id
          | .done vals s1 =>
            let ws := vals.map fun v => bytesOf 8 v.1
            if passedOver s s1 then rotFinish s o.q.toNat start (.done (List.replicate (st.vl - start) (0, true)) 0 s1) none st.vl
            else
            match rotRun o s1 va start (kvDesc ws.flatten) with
            | .wait s2 => .wait (((rotDescEls va).zip ws).foldl (fun s x => keepRead s x.1 x.2) s2)
            | r => r

end Sys2Proof.Machine
end

