-- ==== Sys2Proof/Machine/Scalar.lean ====
section
/-! DEFINITION. Scalar integer arithmetic, bit fields and f32 (R277 to R281). -/

namespace Sys2Proof.Machine

/-- An S-format operation: s[sd] receives f(s[sa], s[sb]) (R277). -/
def alu (s : State) (o : S3) (f : Word → Word → Word) : Out State := .next (setS s o.sd (f (getS s o.sa) (getS s o.sb)))

/-- An S-format operation on one operand (R277). -/
def alu1 (s : State) (o : S2) (f : Word → Word) : Out State := .next (setS s o.sd (f (getS s o.sa)))

/-- An I-format operation (R277). -/
def aluI (s : State) (o : IOps) (b : Word) (f : Word → Word → Word) : Out State := .next (setS s o.sd (f (getS s o.sa) b))

/-- Bits 127:64 of the signed and of the unsigned product (R277). -/
def mulHigh (a b : Word) : Word := ((a.signExtend 128 * b.signExtend 128) >>> 64).setWidth 64
def mulHighN (a b : Word) : Word := ((a.setWidth 128 * b.setWidth 128) >>> 64).setWidth 64

/-- Division (R278). -/
def divS (a b : Word) : Word := if b = 0 then BitVec.allOnes 64 else a.sdiv b
def divU (a b : Word) : Word := if b = 0 then BitVec.allOnes 64 else a / b
def remS (a b : Word) : Word := if b = 0 then a else a.srem b
def remU (a b : Word) : Word := if b = 0 then a else a % b

/-- A shift amount: b[5:0] (R277). -/
def shamt (b : Word) : Nat := b.toNat % 64

def execAdd (o : S3) (s : State) : Out State := alu s o (· + ·)
def execSub (o : S3) (s : State) : Out State := alu s o (· - ·)
def execMul (o : S3) (s : State) : Out State := alu s o (· * ·)
def execMulh (o : S3) (s : State) : Out State := alu s o mulHigh
def execMulhn (o : S3) (s : State) : Out State := alu s o mulHighN
def execDiv (o : S3) (s : State) : Out State := alu s o divS
def execDivn (o : S3) (s : State) : Out State := alu s o divU
def execRem (o : S3) (s : State) : Out State := alu s o remS
def execRemn (o : S3) (s : State) : Out State := alu s o remU
def execAnd (o : S3) (s : State) : Out State := alu s o (· &&& ·)
def execOr (o : S3) (s : State) : Out State := alu s o (· ||| ·)
def execXor (o : S3) (s : State) : Out State := alu s o (· ^^^ ·)
def execSll (o : S3) (s : State) : Out State := alu s o fun a b => a <<< shamt b
def execSrl (o : S3) (s : State) : Out State := alu s o fun a b => a >>> shamt b
def execSra (o : S3) (s : State) : Out State := alu s o fun a b => a.sshiftRight (shamt b)
def execSlt (o : S3) (s : State) : Out State := alu s o fun a b => boolW (a.slt b)
def execSltn (o : S3) (s : State) : Out State := alu s o fun a b => boolW (a.ult b)
def execMin (o : S3) (s : State) : Out State := alu s o fun a b => if b.slt a then b else a
def execMax (o : S3) (s : State) : Out State := alu s o fun a b => if a.slt b then b else a
def execMinn (o : S3) (s : State) : Out State := alu s o fun a b => if b.ult a then b else a
def execMaxn (o : S3) (s : State) : Out State := alu s o fun a b => if a.ult b then b else a
def execClz (o : S2) (s : State) : Out State := alu1 s o fun a => wordOf (clzN 64 a.toNat)
def execCtz (o : S2) (s : State) : Out State := alu1 s o fun a => wordOf (ctzFrom 64 a.toNat)
def execPopc (o : S2) (s : State) : Out State := alu1 s o fun a => wordOf (popcN 64 a.toNat)

/-- SEL reads sd as its condition (R277). -/
def execSel (o : S3) (s : State) : Out State :=
  .next (setS s o.sd (if getS s o.sd ≠ 0 then getS s o.sa else getS s o.sb))

def execAddi (o : IOps) (s : State) : Out State := aluI s o (immS o.imm) (· + ·)
def execAndi (o : IOps) (s : State) : Out State := aluI s o (immZ o.imm) (· &&& ·)
def execOri (o : IOps) (s : State) : Out State := aluI s o (immZ o.imm) (· ||| ·)
def execXori (o : IOps) (s : State) : Out State := aluI s o (immZ o.imm) (· ^^^ ·)
def execSlti (o : IOps) (s : State) : Out State := aluI s o (immS o.imm) fun a b => boolW (a.slt b)
def execSltin (o : IOps) (s : State) : Out State := aluI s o (immS o.imm) fun a b => boolW (a.ult b)
def execLui (o : UOps) (s : State) : Out State := .next (setS s o.sd (immS o.imm <<< 16))
def execAddpc (o : UOps) (s : State) : Out State := .next (setS s o.sd (convoyAt s o.imm))

def execSllImm (o : ShOps) (s : State) : Out State := .next (setS s o.sd (getS s o.sa <<< o.off.toNat))
def execSrlImm (o : ShOps) (s : State) : Out State := .next (setS s o.sd (getS s o.sa >>> o.off.toNat))
def execSraImm (o : ShOps) (s : State) : Out State := .next (setS s o.sd ((getS s o.sa).sshiftRight o.off.toNat))
def execBfx (o : BfOps) (s : State) : Out State := .next (setS s o.sd (bfx (getS s o.sa) o.off.toNat o.wid.toNat))
def execBfxn (o : BfOps) (s : State) : Out State := .next (setS s o.sd (bfxn (getS s o.sa) o.off.toNat o.wid.toNat))
def execBfi (o : BfOps) (s : State) : Out State := .next (setS s o.sd (bfi (getS s o.sd) (getS s o.sa) o.off.toNat o.wid.toNat))
def execBfxReg (o : BfrOps) (s : State) : Out State := .next (setS s o.sd (bfx (getS s o.sa) o.off.toNat (widReg (getS s o.rw))))
def execBfxnReg (o : BfrOps) (s : State) : Out State := .next (setS s o.sd (bfxn (getS s o.sa) o.off.toNat (widReg (getS s o.rw))))
def execBfiReg (o : BfrOps) (s : State) : Out State :=
  .next (setS s o.sd (bfi (getS s o.sd) (getS s o.sa) o.off.toNat (widReg (getS s o.rw))))

/-! Scalar f32 (R280, R281). -/

/-- Writes a result and accrues its flags. -/
def fpRes (s : State) (sd : BitVec 5) (r : Nat × FFlags) : Out State := .next (setS (addFlags s r.2) sd (wordOf r.1))

def execFadd (o : F3) (s : State) : Out State := fpRes s o.sd (fpAdd f32 (rmOf o.mode) (fpReg s o.sa) (fpReg s o.sb))
def execFsub (o : F3) (s : State) : Out State := fpRes s o.sd (fpSub f32 (rmOf o.mode) (fpReg s o.sa) (fpReg s o.sb))
def execFmul (o : F3) (s : State) : Out State := fpRes s o.sd (fpMul f32 (rmOf o.mode) (fpReg s o.sa) (fpReg s o.sb))
def execFfma (o : F3) (s : State) : Out State :=
  fpRes s o.sd (fpFma f32 (rmOf o.mode) (fpReg s o.sa) (fpReg s o.sb) (fpReg s o.sd))
def execFmin (o : S3) (s : State) : Out State := fpRes s o.sd (fpMinMax f32 false (fpReg s o.sa) (fpReg s o.sb))
def execFmax (o : S3) (s : State) : Out State := fpRes s o.sd (fpMinMax f32 true (fpReg s o.sa) (fpReg s o.sb))
def execFsqrt (o : F1) (s : State) : Out State := fpRes s o.sd (fpSqrt f32 (rmOf o.mode) (fpReg s o.sa))
def execFcmp (o : FcmpOps) (s : State) : Out State :=
  let (b, fl) := fcmp o.cond.toNat (fpReg s o.sa) (fpReg s o.sb)
  fpRes s o.sd (boolN b, fl)

/-- f32 to an integer of R264's conversions: saturated (R186). -/
def toIntRes (lo hi : Int) (md : Rm) (x : Fp) : Word × FFlags :=
  let (i, fl) := fpToInt md lo hi x
  (wordOfInt i, fl)

/-- The conversions of R264 on s[sa] (R281). -/
def fcvtRes (conv : Nat) (md : Rm) (w : Word) : Word × FFlags :=
  let x := fpOf f32 (f32Bits w)
  let fl := fun (r : Nat × FFlags) => (wordOf r.1, r.2)
  match conv with
  | 0 => toIntRes (-(2 : Int) ^ 63) ((2 : Int) ^ 63 - 1) md x
  | 1 => toIntRes 0 ((2 : Int) ^ 64 - 1) md x
  | 2 => fl (rnd f32 md (fpOfInt w.toInt))
  | 3 => fl (rnd f32 md (fpOfInt (w.toNat : Int)))
  | 4 => toIntRes (-(2 : Int) ^ 31) ((2 : Int) ^ 31 - 1) md x
  | 5 => toIntRes 0 ((2 : Int) ^ 32 - 1) md x
  | 6 => fl (rnd f32 md (fpOfInt (signedN 32 w.toNat)))
  | 7 => fl (rnd f32 md (fpOfInt ((f32Bits w : Nat) : Int)))
  | 8 => fl (fpConv f16 md x)
  | 9 => fl (fpConv f32 md (fpOf f16 (w.toNat % 65536)))
  | 10 => fl (fpConv bf16 md x)
  | _ => fl (fpConv f32 md (fpOf bf16 (w.toNat % 65536)))

def execFcvt (o : FcvtOps) (s : State) : Out State :=
  let (v, fl) := fcvtRes o.conv.toNat (rmOf o.mode) (getS s o.sa)
  .next (setS (addFlags s fl) o.sd v)

end Sys2Proof.Machine
end

