-- ==== Sys2Proof/Machine/Dispatch.lean ====
section
/-! DEFINITION. The dispatch: one arm per constructor of `Instr`, each a direct call of its meaning. -/

namespace Sys2Proof.Machine

def exec (i : Instr) (s : State) : Host.Outcome State Fault Refusal :=
  match i with
  | .add o => Sys2Proof.Machine.execAdd o s
  | .sub o => Sys2Proof.Machine.execSub o s
  | .mul o => Sys2Proof.Machine.execMul o s
  | .mulh o => Sys2Proof.Machine.execMulh o s
  | .mulhn o => Sys2Proof.Machine.execMulhn o s
  | .div o => Sys2Proof.Machine.execDiv o s
  | .divn o => Sys2Proof.Machine.execDivn o s
  | .rem o => Sys2Proof.Machine.execRem o s
  | .remn o => Sys2Proof.Machine.execRemn o s
  | .and o => Sys2Proof.Machine.execAnd o s
  | .or o => Sys2Proof.Machine.execOr o s
  | .xor o => Sys2Proof.Machine.execXor o s
  | .sll o => Sys2Proof.Machine.execSll o s
  | .srl o => Sys2Proof.Machine.execSrl o s
  | .sra o => Sys2Proof.Machine.execSra o s
  | .slt o => Sys2Proof.Machine.execSlt o s
  | .sltn o => Sys2Proof.Machine.execSltn o s
  | .min o => Sys2Proof.Machine.execMin o s
  | .max o => Sys2Proof.Machine.execMax o s
  | .minn o => Sys2Proof.Machine.execMinn o s
  | .maxn o => Sys2Proof.Machine.execMaxn o s
  | .clz o => Sys2Proof.Machine.execClz o s
  | .ctz o => Sys2Proof.Machine.execCtz o s
  | .popc o => Sys2Proof.Machine.execPopc o s
  | .sel o => Sys2Proof.Machine.execSel o s
  | .addi o => Sys2Proof.Machine.execAddi o s
  | .andi o => Sys2Proof.Machine.execAndi o s
  | .ori o => Sys2Proof.Machine.execOri o s
  | .xori o => Sys2Proof.Machine.execXori o s
  | .slti o => Sys2Proof.Machine.execSlti o s
  | .sltin o => Sys2Proof.Machine.execSltin o s
  | .lui o => Sys2Proof.Machine.execLui o s
  | .addpc o => Sys2Proof.Machine.execAddpc o s
  | .sllImm o => Sys2Proof.Machine.execSllImm o s
  | .srlImm o => Sys2Proof.Machine.execSrlImm o s
  | .sraImm o => Sys2Proof.Machine.execSraImm o s
  | .bfx o => Sys2Proof.Machine.execBfx o s
  | .bfxn o => Sys2Proof.Machine.execBfxn o s
  | .bfi o => Sys2Proof.Machine.execBfi o s
  | .bfxReg o => Sys2Proof.Machine.execBfxReg o s
  | .bfxnReg o => Sys2Proof.Machine.execBfxnReg o s
  | .bfiReg o => Sys2Proof.Machine.execBfiReg o s
  | .fadd o => Sys2Proof.Machine.execFadd o s
  | .fsub o => Sys2Proof.Machine.execFsub o s
  | .fmul o => Sys2Proof.Machine.execFmul o s
  | .ffma o => Sys2Proof.Machine.execFfma o s
  | .fmin o => Sys2Proof.Machine.execFmin o s
  | .fmax o => Sys2Proof.Machine.execFmax o s
  | .fcmp o => Sys2Proof.Machine.execFcmp o s
  | .fcvt o => Sys2Proof.Machine.execFcvt o s
  | .fsqrt o => Sys2Proof.Machine.execFsqrt o s
  | .ld o => Sys2Proof.Machine.execLd o s
  | .st o => Sys2Proof.Machine.execSt o s
  | .amoadd o => Sys2Proof.Machine.execAmoadd o s
  | .amoswap o => Sys2Proof.Machine.execAmoswap o s
  | .amocas o => Sys2Proof.Machine.execAmocas o s
  | .amoand o => Sys2Proof.Machine.execAmoand o s
  | .amoor o => Sys2Proof.Machine.execAmoor o s
  | .amoxor o => Sys2Proof.Machine.execAmoxor o s
  | .amomax o => Sys2Proof.Machine.execAmomax o s
  | .amomin o => Sys2Proof.Machine.execAmomin o s
  | .amomaxn o => Sys2Proof.Machine.execAmomaxn o s
  | .amominn o => Sys2Proof.Machine.execAmominn o s
  | .amoaddF32 o => Sys2Proof.Machine.execAmoaddF32 o s
  | .amomaxF32 o => Sys2Proof.Machine.execAmomaxF32 o s
  | .amominF32 o => Sys2Proof.Machine.execAmominF32 o s
  | .amoea o => Sys2Proof.Machine.execAmoea o s
  | .redadd o => Sys2Proof.Machine.execRedadd o s
  | .redswap o => Sys2Proof.Machine.execRedswap o s
  | .redand o => Sys2Proof.Machine.execRedand o s
  | .redor o => Sys2Proof.Machine.execRedor o s
  | .redxor o => Sys2Proof.Machine.execRedxor o s
  | .redmax o => Sys2Proof.Machine.execRedmax o s
  | .redmin o => Sys2Proof.Machine.execRedmin o s
  | .redmaxn o => Sys2Proof.Machine.execRedmaxn o s
  | .redminn o => Sys2Proof.Machine.execRedminn o s
  | .redaddF32 o => Sys2Proof.Machine.execRedaddF32 o s
  | .redmaxF32 o => Sys2Proof.Machine.execRedmaxF32 o s
  | .redminF32 o => Sys2Proof.Machine.execRedminF32 o s
  | .beq o => Sys2Proof.Machine.execBeq o s
  | .bne o => Sys2Proof.Machine.execBne o s
  | .blt o => Sys2Proof.Machine.execBlt o s
  | .bge o => Sys2Proof.Machine.execBge o s
  | .bltn o => Sys2Proof.Machine.execBltn o s
  | .bgen o => Sys2Proof.Machine.execBgen o s
  | .j o => Sys2Proof.Machine.execJ o s
  | .jal o => Sys2Proof.Machine.execJal o s
  | .jalr o => Sys2Proof.Machine.execJalr o s
  | .repf o => Sys2Proof.Machine.execRepf o s
  | .fence o => Sys2Proof.Machine.execFence o s
  | .fencex o => Sys2Proof.Machine.execFencex o s
  | .cwait o => Sys2Proof.Machine.execCwait o s
  | .waitsw o => Sys2Proof.Machine.execWaitsw o s
  | .bar o => Sys2Proof.Machine.execBar o s
  | .trap o => Sys2Proof.Machine.execTrap o s
  | .sysr o => Sys2Proof.Machine.execSysr o s
  | .sysw o => Sys2Proof.Machine.execSysw o s
  | .trmark o => Sys2Proof.Machine.execTrmark o s
  | .done o => Sys2Proof.Machine.execDone o s
  | .launch o => Sys2Proof.Machine.execLaunch o s
  | .cancel o => Sys2Proof.Machine.execCancel o s
  | .vcfg o => Sys2Proof.Machine.execVcfg o s
  | .vsetl o => Sys2Proof.Machine.execVsetl o s
  | .vgetl o => Sys2Proof.Machine.execVgetl o s
  | .vsett o => Sys2Proof.Machine.execVsett o s
  | .vadd o => Sys2Proof.Machine.execVadd o s
  | .vsub o => Sys2Proof.Machine.execVsub o s
  | .vmul o => Sys2Proof.Machine.execVmul o s
  | .vmulh o => Sys2Proof.Machine.execVmulh o s
  | .vmin o => Sys2Proof.Machine.execVmin o s
  | .vmax o => Sys2Proof.Machine.execVmax o s
  | .vabsd o => Sys2Proof.Machine.execVabsd o s
  | .vsadd o => Sys2Proof.Machine.execVsadd o s
  | .vand o => Sys2Proof.Machine.execVand o s
  | .vor o => Sys2Proof.Machine.execVor o s
  | .vxor o => Sys2Proof.Machine.execVxor o s
  | .vssub o => Sys2Proof.Machine.execVssub o s
  | .vsll o => Sys2Proof.Machine.execVsll o s
  | .vsrl o => Sys2Proof.Machine.execVsrl o s
  | .vsra o => Sys2Proof.Machine.execVsra o s
  | .vmv o => Sys2Proof.Machine.execVmv o s
  | .vclz o => Sys2Proof.Machine.execVclz o s
  | .viota o => Sys2Proof.Machine.execViota o s
  | .vfadd o => Sys2Proof.Machine.execVfadd o s
  | .vfsub o => Sys2Proof.Machine.execVfsub o s
  | .vfmul o => Sys2Proof.Machine.execVfmul o s
  | .vffma o => Sys2Proof.Machine.execVffma o s
  | .vfmin o => Sys2Proof.Machine.execVfmin o s
  | .vfmax o => Sys2Proof.Machine.execVfmax o s
  | .vfdiv o => Sys2Proof.Machine.execVfdiv o s
  | .vfscl o => Sys2Proof.Machine.execVfscl o s
  | .vfsqrt o => Sys2Proof.Machine.execVfsqrt o s
  | .vfexp o => Sys2Proof.Machine.execVfexp o s
  | .vflog o => Sys2Proof.Machine.execVflog o s
  | .vfrcp o => Sys2Proof.Machine.execVfrcp o s
  | .vfcvt o => Sys2Proof.Machine.execVfcvt o s
  | .vredsum o => Sys2Proof.Machine.execVredsum o s
  | .vdot o => Sys2Proof.Machine.execVdot o s
  | .vscan o => Sys2Proof.Machine.execVscan o s
  | .vredmax o => Sys2Proof.Machine.execVredmax o s
  | .vredmin o => Sys2Proof.Machine.execVredmin o s
  | .vargmax o => Sys2Proof.Machine.execVargmax o s
  | .veaadd o => Sys2Proof.Machine.execVeaadd o s
  | .earnd o => Sys2Proof.Machine.execEarnd o s
  | .eald o => Sys2Proof.Machine.execEald o s
  | .east o => Sys2Proof.Machine.execEast o s
  | .eaclr o => Sys2Proof.Machine.execEaclr o s
  | .vperm o => Sys2Proof.Machine.execVperm o s
  | .vcompress o => Sys2Proof.Machine.execVcompress o s
  | .vexpand o => Sys2Proof.Machine.execVexpand o s
  | .vcmp o => Sys2Proof.Machine.execVcmp o s
  | .vfcmp o => Sys2Proof.Machine.execVfcmp o s
  | .vsel o => Sys2Proof.Machine.execVsel o s
  | .pand o => Sys2Proof.Machine.execPand o s
  | .por o => Sys2Proof.Machine.execPor o s
  | .pxor o => Sys2Proof.Machine.execPxor o s
  | .pnot o => Sys2Proof.Machine.execPnot o s
  | .ppopc o => Sys2Proof.Machine.execPpopc o s
  | .pfirst o => Sys2Proof.Machine.execPfirst o s
  | .vaddVs o => Sys2Proof.Machine.execVaddVs o s
  | .vsubVs o => Sys2Proof.Machine.execVsubVs o s
  | .vmulVs o => Sys2Proof.Machine.execVmulVs o s
  | .vmulhVs o => Sys2Proof.Machine.execVmulhVs o s
  | .vminVs o => Sys2Proof.Machine.execVminVs o s
  | .vmaxVs o => Sys2Proof.Machine.execVmaxVs o s
  | .vabsdVs o => Sys2Proof.Machine.execVabsdVs o s
  | .vsaddVs o => Sys2Proof.Machine.execVsaddVs o s
  | .vandVs o => Sys2Proof.Machine.execVandVs o s
  | .vorVs o => Sys2Proof.Machine.execVorVs o s
  | .vxorVs o => Sys2Proof.Machine.execVxorVs o s
  | .vssubVs o => Sys2Proof.Machine.execVssubVs o s
  | .vsllVs o => Sys2Proof.Machine.execVsllVs o s
  | .vsrlVs o => Sys2Proof.Machine.execVsrlVs o s
  | .vsraVs o => Sys2Proof.Machine.execVsraVs o s
  | .vmvVs o => Sys2Proof.Machine.execVmvVs o s
  | .vfaddVs o => Sys2Proof.Machine.execVfaddVs o s
  | .vfsubVs o => Sys2Proof.Machine.execVfsubVs o s
  | .vfmulVs o => Sys2Proof.Machine.execVfmulVs o s
  | .vffmaVs o => Sys2Proof.Machine.execVffmaVs o s
  | .vfminVs o => Sys2Proof.Machine.execVfminVs o s
  | .vfmaxVs o => Sys2Proof.Machine.execVfmaxVs o s
  | .vfdivVs o => Sys2Proof.Machine.execVfdivVs o s
  | .vfsclVs o => Sys2Proof.Machine.execVfsclVs o s
  | .vslideup o => Sys2Proof.Machine.execVslideup o s
  | .vslidedn o => Sys2Proof.Machine.execVslidedn o s
  | .vcmpVs o => Sys2Proof.Machine.execVcmpVs o s
  | .vfcmpVs o => Sys2Proof.Machine.execVfcmpVs o s
  | .vbq o => Sys2Proof.Machine.execVbq o s
  | .vbdq o => Sys2Proof.Machine.execVbdq o s
  | .fmtset o => Sys2Proof.Machine.execFmtset o s
  | .vld o => Sys2Proof.Machine.execVld o s
  | .vlds o => Sys2Proof.Machine.execVlds o s
  | .vst o => Sys2Proof.Machine.execVst o s
  | .vsts o => Sys2Proof.Machine.execVsts o s
  | .vldxO o => Sys2Proof.Machine.execVldxO o s
  | .vldxU o => Sys2Proof.Machine.execVldxU o s
  | .vstxO o => Sys2Proof.Machine.execVstxO o s
  | .vstxU o => Sys2Proof.Machine.execVstxU o s
  | .vamo o => Sys2Proof.Machine.execVamo o s
  | .vamoRet o => Sys2Proof.Machine.execVamoRet o s
  | .vldsc o => Sys2Proof.Machine.execVldsc o s
  | .vstsc o => Sys2Proof.Machine.execVstsc o s
  | .vldrot o => Sys2Proof.Machine.execVldrot o s
  | .copy o => Sys2Proof.Machine.execCopy o s
  | .gathsp o => Sys2Proof.Machine.execGathsp o s
  | .xsend o => Sys2Proof.Machine.execXsend o s
  | .xfetch o => Sys2Proof.Machine.execXfetch o s
  | .xins o => Sys2Proof.Machine.execXins o s
  | .xlook o => Sys2Proof.Machine.execXlook o s
  | .xacc o => Sys2Proof.Machine.execXacc o s
  | .xclr o => Sys2Proof.Machine.execXclr o s
  | .xdrain o => Sys2Proof.Machine.execXdrain o s
  | .prune o => Sys2Proof.Machine.execPrune o s
  | .sphdr o => Sys2Proof.Machine.execSphdr o s
  | .mxatt o => Sys2Proof.Machine.execMxatt o s
  | .mxlds o => Sys2Proof.Machine.execMxlds o s
  | .mxstrm o => Sys2Proof.Machine.execMxstrm o s
  | .mxdrain o => Sys2Proof.Machine.execMxdrain o s
  | .mxclr o => Sys2Proof.Machine.execMxclr o s
  | .mxstat o => Sys2Proof.Machine.execMxstat o s
  | .rcinit o => Sys2Proof.Machine.execRcinit o s
  | .rcnoise o => Sys2Proof.Machine.execRcnoise o s
  | .rcbound o => Sys2Proof.Machine.execRcbound o s
  | .rcpick o => Sys2Proof.Machine.execRcpick o s
  | .rcupd o => Sys2Proof.Machine.execRcupd o s
  | .rcdrop o => Sys2Proof.Machine.execRcdrop o s
  | .rcwait o => Sys2Proof.Machine.execRcwait o s
  | .rcread o => Sys2Proof.Machine.execRcread o s
  | .rcset o => Sys2Proof.Machine.execRcset o s
  | .clredEa o => Sys2Proof.Machine.execClredEa o s
  | .clredI64 o => Sys2Proof.Machine.execClredI64 o s
  | .clredF32max o => Sys2Proof.Machine.execClredF32max o s
  | .clredF32min o => Sys2Proof.Machine.execClredF32min o s
  | .clbcast o => Sys2Proof.Machine.execClbcast o s
  | .clargmax o => Sys2Proof.Machine.execClargmax o s
  | .tkemit o => Sys2Proof.Machine.execTkemit o s
  | .tkflush o => Sys2Proof.Machine.execTkflush o s
  | .emptySyllable => Sys2Proof.Machine.execEmptySyllable s
  | .eret => Sys2Proof.Machine.execEret s
  | .icinv => Sys2Proof.Machine.execIcinv s
  | .yield => Sys2Proof.Machine.execYield s
  | .mxdet => Sys2Proof.Machine.execMxdet s
  | .mxswap => Sys2Proof.Machine.execMxswap s
  | .packageReset => Sys2Proof.Machine.execPackageReset s
  | .throttleIntervalEnd => Sys2Proof.Machine.execThrottleIntervalEnd s
  | .thermalTrip => Sys2Proof.Machine.execThermalTrip s
  | .thermalTripClear => Sys2Proof.Machine.execThermalTripClear s
  | .thermalShutdown => Sys2Proof.Machine.execThermalShutdown s
  | .registerWrite => Sys2Proof.Machine.execRegisterWrite s
  | .measExtend => Sys2Proof.Machine.execMeasExtend s
  | .rdreq => Sys2Proof.Machine.execRdreq s
  | .wrreq => Sys2Proof.Machine.execWrreq s
  | .atreq => Sys2Proof.Machine.execAtreq s
  | .rdata => Sys2Proof.Machine.execRdata s
  | .wdone => Sys2Proof.Machine.execWdone s
  | .cldat => Sys2Proof.Machine.execCldat s
  | .xsdat => Sys2Proof.Machine.execXsdat s
  | .dack => Sys2Proof.Machine.execDack s
  | .nak => Sys2Proof.Machine.execNak s
  | .unav => Sys2Proof.Machine.execUnav s
  | .planeTimerExpiry => Sys2Proof.Machine.execPlaneTimerExpiry s
  | .portLockLost => Sys2Proof.Machine.execPortLockLost s
  | .portLockGained => Sys2Proof.Machine.execPortLockGained s
  | .bridgeDown => Sys2Proof.Machine.execBridgeDown s
  | .fabctlHeldDiscard => Sys2Proof.Machine.execFabctlHeldDiscard s
  | .newRequest => Sys2Proof.Machine.execNewRequest s
  | .requestTextContinued => Sys2Proof.Machine.execRequestTextContinued s
  | .cancelGeneration => Sys2Proof.Machine.execCancelGeneration s
  | .resendRequest => Sys2Proof.Machine.execResendRequest s
  | .ptpEventReceive => Sys2Proof.Machine.execPtpEventReceive s
  | .status => Sys2Proof.Machine.execStatus s
  | .quote => Sys2Proof.Machine.execQuote s
  | .log => Sys2Proof.Machine.execLog s
  | .cert => Sys2Proof.Machine.execCert s
  | .counters => Sys2Proof.Machine.execCounters s
  | .tenantCreate => Sys2Proof.Machine.execTenantCreate s
  | .tenantReset => Sys2Proof.Machine.execTenantReset s
  | .tenantDestroy => Sys2Proof.Machine.execTenantDestroy s
  | .streamOpen => Sys2Proof.Machine.execStreamOpen s
  | .streamClose => Sys2Proof.Machine.execStreamClose s
  | .filterSet => Sys2Proof.Machine.execFilterSet s
  | .lcRequest => Sys2Proof.Machine.execLcRequest s
  | .svnRaise => Sys2Proof.Machine.execSvnRaise s
  | .recoverWrite => Sys2Proof.Machine.execRecoverWrite s
  | .tsstepWrite => Sys2Proof.Machine.execTsstepWrite s
  | .trtailWrite => Sys2Proof.Machine.execTrtailWrite s
  | .trctlWrite => Sys2Proof.Machine.execTrctlWrite s
  | .snapshotFire => Sys2Proof.Machine.execSnapshotFire s
  | .snapatMatch => Sys2Proof.Machine.execSnapatMatch s
  | .snapshotValidClear => Sys2Proof.Machine.execSnapshotValidClear s
  | .wqtailWrite => Sys2Proof.Machine.execWqtailWrite s
  | .wqctlWrite => Sys2Proof.Machine.execWqctlWrite s
  | .wqstatClr => Sys2Proof.Machine.execWqstatClr s
  | .packetConsume => Sys2Proof.Machine.execPacketConsume s
  | .launchReady => Sys2Proof.Machine.execLaunchReady s
  | .recordExpand => Sys2Proof.Machine.execRecordExpand s
  | .launchComplete => Sys2Proof.Machine.execLaunchComplete s
  | .recordDispatch => Sys2Proof.Machine.execRecordDispatch s
  | .agingQuantum => Sys2Proof.Machine.execAgingQuantum s
  | .preemptPriority => Sys2Proof.Machine.execPreemptPriority s
  | .preemptionQuantum => Sys2Proof.Machine.execPreemptionQuantum s
  | .preemptSave => Sys2Proof.Machine.execPreemptSave s
  | .saveSlotFreed => Sys2Proof.Machine.execSaveSlotFreed s
  | .resumew => Sys2Proof.Machine.execResumew s
  | .killw => Sys2Proof.Machine.execKillw s
  | .flttailWrite => Sys2Proof.Machine.execFlttailWrite s
  | .fltctlWrite => Sys2Proof.Machine.execFltctlWrite s
  | .softError => Sys2Proof.Machine.execSoftError s
  | .tenantResetComplete => Sys2Proof.Machine.execTenantResetComplete s
  | .tlbinv => Sys2Proof.Machine.execTlbinv s
  | .tlbInvalidationFinish => Sys2Proof.Machine.execTlbInvalidationFinish s
  | .engineElementLand => Sys2Proof.Machine.execEngineElementLand s
  | .engineElementFault => Sys2Proof.Machine.execEngineElementFault s
  | .pathQueueLeave => Sys2Proof.Machine.execPathQueueLeave s
  | .atomicPerform => Sys2Proof.Machine.execAtomicPerform s
  | .applyWrite => Sys2Proof.Machine.execApplyWrite s
  | .ticketAdvance => Sys2Proof.Machine.execTicketAdvance s
  | .lateFailure => Sys2Proof.Machine.execLateFailure s
  | .barrierWaitEnd => Sys2Proof.Machine.execBarrierWaitEnd s
  | .launchEnqueue => Sys2Proof.Machine.execLaunchEnqueue s
  | .homeFinalize => Sys2Proof.Machine.execHomeFinalize s
  | .memberMerge => Sys2Proof.Machine.execMemberMerge s
  | .homeResolve => Sys2Proof.Machine.execHomeResolve s
  | .memberAbort => Sys2Proof.Machine.execMemberAbort s
  | .illegalInstruction => Sys2Proof.Machine.execIllegalInstruction s
  | .powerLoss => Sys2Proof.Machine.execPowerLoss s
  | .ethernetFrameReceive => Sys2Proof.Machine.execEthernetFrameReceive s
  | .ptpEventTransmit => Sys2Proof.Machine.execPtpEventTransmit s
  | .tscReferenceCycle => Sys2Proof.Machine.execTscReferenceCycle s
  | .arithmeticCycle => Sys2Proof.Machine.execArithmeticCycle s

end Sys2Proof.Machine
end

