-- ==== Sys2Proof/Machine/Rename.lean ====
section
/-! DEFINITION. The renaming of vector registers inside a repeat frame (R135). -/

namespace Sys2Proof.Machine

/-- rot(n, k) of R135 on a 6-bit vector field: queues and vz are never renamed. -/
def rotField (rbase rsize k : Nat) (n : BitVec 6) : BitVec 6 :=
  if rsize ≠ 0 && decide (n.toNat < 56) && decide (rbase ≤ n.toNat) && decide (n.toNat < rbase + rsize) then
    BitVec.ofNat 6 (rbase + (n.toNat - rbase + k) % rsize)
  else n

/-! The operand forms that name vector registers, each field renamed by `f`. -/

def renV3 (f : BitVec 6 → BitVec 6) (o : V3) : V3 := { o with vd := f o.vd, va := f o.va, vb := f o.vb }
def renV2 (f : BitVec 6 → BitVec 6) (o : V2) : V2 := { o with vd := f o.vd, va := f o.va }
def renV1 (f : BitVec 6 → BitVec 6) (o : V1) : V1 := { o with vd := f o.vd }
def renVredOps (f : BitVec 6 → BitVec 6) (o : VredOps) : VredOps := { o with va := f o.va }
def renVdotOps (f : BitVec 6 → BitVec 6) (o : VdotOps) : VdotOps := { o with va := f o.va, vb := f o.vb }
def renVminOps (f : BitVec 6 → BitVec 6) (o : VminOps) : VminOps := { o with va := f o.va }
def renVcmpOps (f : BitVec 6 → BitVec 6) (o : VcmpOps) : VcmpOps := { o with va := f o.va, vb := f o.vb }
def renVs3 (f : BitVec 6 → BitVec 6) (o : Vs3) : Vs3 := { o with vd := f o.vd, va := f o.va }
def renVs2 (f : BitVec 6 → BitVec 6) (o : Vs2) : Vs2 := { o with vd := f o.vd }
def renVscmpOps (f : BitVec 6 → BitVec 6) (o : VscmpOps) : VscmpOps := { o with va := f o.va }
def renVbqOps (f : BitVec 6 → BitVec 6) (o : VbqOps) : VbqOps := { o with vd := f o.vd, va := f o.va }

/-- An instruction with every vector register field renamed (R135). RCNOISE and RCBOUND stand in no frame (R134). -/
def renameInstr (f : BitVec 6 → BitVec 6) : Instr → Instr
  | .add o => .add o
  | .sub o => .sub o
  | .mul o => .mul o
  | .mulh o => .mulh o
  | .mulhn o => .mulhn o
  | .div o => .div o
  | .divn o => .divn o
  | .rem o => .rem o
  | .remn o => .remn o
  | .and o => .and o
  | .or o => .or o
  | .xor o => .xor o
  | .sll o => .sll o
  | .srl o => .srl o
  | .sra o => .sra o
  | .slt o => .slt o
  | .sltn o => .sltn o
  | .min o => .min o
  | .max o => .max o
  | .minn o => .minn o
  | .maxn o => .maxn o
  | .clz o => .clz o
  | .ctz o => .ctz o
  | .popc o => .popc o
  | .sel o => .sel o
  | .addi o => .addi o
  | .andi o => .andi o
  | .ori o => .ori o
  | .xori o => .xori o
  | .slti o => .slti o
  | .sltin o => .sltin o
  | .lui o => .lui o
  | .addpc o => .addpc o
  | .sllImm o => .sllImm o
  | .srlImm o => .srlImm o
  | .sraImm o => .sraImm o
  | .bfx o => .bfx o
  | .bfxn o => .bfxn o
  | .bfi o => .bfi o
  | .bfxReg o => .bfxReg o
  | .bfxnReg o => .bfxnReg o
  | .bfiReg o => .bfiReg o
  | .fadd o => .fadd o
  | .fsub o => .fsub o
  | .fmul o => .fmul o
  | .ffma o => .ffma o
  | .fmin o => .fmin o
  | .fmax o => .fmax o
  | .fcmp o => .fcmp o
  | .fcvt o => .fcvt o
  | .fsqrt o => .fsqrt o
  | .ld o => .ld o
  | .st o => .st o
  | .amoadd o => .amoadd o
  | .amoswap o => .amoswap o
  | .amocas o => .amocas o
  | .amoand o => .amoand o
  | .amoor o => .amoor o
  | .amoxor o => .amoxor o
  | .amomax o => .amomax o
  | .amomin o => .amomin o
  | .amomaxn o => .amomaxn o
  | .amominn o => .amominn o
  | .amoaddF32 o => .amoaddF32 o
  | .amomaxF32 o => .amomaxF32 o
  | .amominF32 o => .amominF32 o
  | .amoea o => .amoea o
  | .redadd o => .redadd o
  | .redswap o => .redswap o
  | .redand o => .redand o
  | .redor o => .redor o
  | .redxor o => .redxor o
  | .redmax o => .redmax o
  | .redmin o => .redmin o
  | .redmaxn o => .redmaxn o
  | .redminn o => .redminn o
  | .redaddF32 o => .redaddF32 o
  | .redmaxF32 o => .redmaxF32 o
  | .redminF32 o => .redminF32 o
  | .beq o => .beq o
  | .bne o => .bne o
  | .blt o => .blt o
  | .bge o => .bge o
  | .bltn o => .bltn o
  | .bgen o => .bgen o
  | .j o => .j o
  | .jal o => .jal o
  | .jalr o => .jalr o
  | .repf o => .repf o
  | .fence o => .fence o
  | .fencex o => .fencex o
  | .cwait o => .cwait o
  | .waitsw o => .waitsw o
  | .bar o => .bar o
  | .trap o => .trap o
  | .sysr o => .sysr o
  | .sysw o => .sysw o
  | .trmark o => .trmark o
  | .done o => .done o
  | .launch o => .launch o
  | .cancel o => .cancel o
  | .vcfg o => .vcfg o
  | .vsetl o => .vsetl o
  | .vgetl o => .vgetl o
  | .vsett o => .vsett o
  | .vadd o => .vadd (renV3 f o)
  | .vsub o => .vsub (renV3 f o)
  | .vmul o => .vmul (renV3 f o)
  | .vmulh o => .vmulh (renV3 f o)
  | .vmin o => .vmin (renV3 f o)
  | .vmax o => .vmax (renV3 f o)
  | .vabsd o => .vabsd (renV3 f o)
  | .vsadd o => .vsadd (renV3 f o)
  | .vand o => .vand (renV3 f o)
  | .vor o => .vor (renV3 f o)
  | .vxor o => .vxor (renV3 f o)
  | .vssub o => .vssub (renV3 f o)
  | .vsll o => .vsll (renV3 f o)
  | .vsrl o => .vsrl (renV3 f o)
  | .vsra o => .vsra (renV3 f o)
  | .vmv o => .vmv (renV2 f o)
  | .vclz o => .vclz (renV2 f o)
  | .viota o => .viota (renV1 f o)
  | .vfadd o => .vfadd (renV3 f o)
  | .vfsub o => .vfsub (renV3 f o)
  | .vfmul o => .vfmul (renV3 f o)
  | .vffma o => .vffma (renV3 f o)
  | .vfmin o => .vfmin (renV3 f o)
  | .vfmax o => .vfmax (renV3 f o)
  | .vfdiv o => .vfdiv (renV3 f o)
  | .vfscl o => .vfscl (renV3 f o)
  | .vfsqrt o => .vfsqrt (renV2 f o)
  | .vfexp o => .vfexp (renV2 f o)
  | .vflog o => .vflog (renV2 f o)
  | .vfrcp o => .vfrcp (renV2 f o)
  | .vfcvt o => .vfcvt (renV2 f o)
  | .vredsum o => .vredsum (renVredOps f o)
  | .vdot o => .vdot (renVdotOps f o)
  | .vscan o => .vscan (renV3 f o)
  | .vredmax o => .vredmax (renVminOps f o)
  | .vredmin o => .vredmin (renVminOps f o)
  | .vargmax o => .vargmax (renVminOps f o)
  | .veaadd o => .veaadd o
  | .earnd o => .earnd o
  | .eald o => .eald o
  | .east o => .east o
  | .eaclr o => .eaclr o
  | .vperm o => .vperm (renV3 f o)
  | .vcompress o => .vcompress (renV2 f o)
  | .vexpand o => .vexpand (renV2 f o)
  | .vcmp o => .vcmp (renVcmpOps f o)
  | .vfcmp o => .vfcmp (renVcmpOps f o)
  | .vsel o => .vsel (renV3 f o)
  | .pand o => .pand o
  | .por o => .por o
  | .pxor o => .pxor o
  | .pnot o => .pnot o
  | .ppopc o => .ppopc o
  | .pfirst o => .pfirst o
  | .vaddVs o => .vaddVs (renVs3 f o)
  | .vsubVs o => .vsubVs (renVs3 f o)
  | .vmulVs o => .vmulVs (renVs3 f o)
  | .vmulhVs o => .vmulhVs (renVs3 f o)
  | .vminVs o => .vminVs (renVs3 f o)
  | .vmaxVs o => .vmaxVs (renVs3 f o)
  | .vabsdVs o => .vabsdVs (renVs3 f o)
  | .vsaddVs o => .vsaddVs (renVs3 f o)
  | .vandVs o => .vandVs (renVs3 f o)
  | .vorVs o => .vorVs (renVs3 f o)
  | .vxorVs o => .vxorVs (renVs3 f o)
  | .vssubVs o => .vssubVs (renVs3 f o)
  | .vsllVs o => .vsllVs (renVs3 f o)
  | .vsrlVs o => .vsrlVs (renVs3 f o)
  | .vsraVs o => .vsraVs (renVs3 f o)
  | .vmvVs o => .vmvVs (renVs2 f o)
  | .vfaddVs o => .vfaddVs (renVs3 f o)
  | .vfsubVs o => .vfsubVs (renVs3 f o)
  | .vfmulVs o => .vfmulVs (renVs3 f o)
  | .vffmaVs o => .vffmaVs (renVs3 f o)
  | .vfminVs o => .vfminVs (renVs3 f o)
  | .vfmaxVs o => .vfmaxVs (renVs3 f o)
  | .vfdivVs o => .vfdivVs (renVs3 f o)
  | .vfsclVs o => .vfsclVs (renVs3 f o)
  | .vslideup o => .vslideup (renVs3 f o)
  | .vslidedn o => .vslidedn (renVs3 f o)
  | .vcmpVs o => .vcmpVs (renVscmpOps f o)
  | .vfcmpVs o => .vfcmpVs (renVscmpOps f o)
  | .vbq o => .vbq (renVbqOps f o)
  | .vbdq o => .vbdq (renVbqOps f o)
  | .fmtset o => .fmtset o
  | .vld o => .vld o
  | .vlds o => .vlds o
  | .vst o => .vst o
  | .vsts o => .vsts o
  | .vldxO o => .vldxO o
  | .vldxU o => .vldxU o
  | .vstxO o => .vstxO o
  | .vstxU o => .vstxU o
  | .vamo o => .vamo o
  | .vamoRet o => .vamoRet o
  | .vldsc o => .vldsc o
  | .vstsc o => .vstsc o
  | .vldrot o => .vldrot o
  | .copy o => .copy o
  | .gathsp o => .gathsp o
  | .xsend o => .xsend o
  | .xfetch o => .xfetch o
  | .xins o => .xins o
  | .xlook o => .xlook o
  | .xacc o => .xacc o
  | .xclr o => .xclr o
  | .xdrain o => .xdrain o
  | .prune o => .prune o
  | .sphdr o => .sphdr o
  | .mxatt o => .mxatt o
  | .mxlds o => .mxlds o
  | .mxstrm o => .mxstrm o
  | .mxdrain o => .mxdrain o
  | .mxclr o => .mxclr o
  | .mxstat o => .mxstat o
  | .rcinit o => .rcinit o
  | .rcnoise o => .rcnoise o
  | .rcbound o => .rcbound o
  | .rcpick o => .rcpick o
  | .rcupd o => .rcupd o
  | .rcdrop o => .rcdrop o
  | .rcwait o => .rcwait o
  | .rcread o => .rcread o
  | .rcset o => .rcset o
  | .clredEa o => .clredEa o
  | .clredI64 o => .clredI64 o
  | .clredF32max o => .clredF32max o
  | .clredF32min o => .clredF32min o
  | .clbcast o => .clbcast o
  | .clargmax o => .clargmax o
  | .tkemit o => .tkemit o
  | .tkflush o => .tkflush o
  | .emptySyllable => .emptySyllable
  | .eret => .eret
  | .icinv => .icinv
  | .yield => .yield
  | .mxdet => .mxdet
  | .mxswap => .mxswap
  | .packageReset => .packageReset
  | .throttleIntervalEnd => .throttleIntervalEnd
  | .thermalTrip => .thermalTrip
  | .thermalTripClear => .thermalTripClear
  | .thermalShutdown => .thermalShutdown
  | .registerWrite => .registerWrite
  | .measExtend => .measExtend
  | .rdreq => .rdreq
  | .wrreq => .wrreq
  | .atreq => .atreq
  | .rdata => .rdata
  | .wdone => .wdone
  | .cldat => .cldat
  | .xsdat => .xsdat
  | .dack => .dack
  | .nak => .nak
  | .unav => .unav
  | .planeTimerExpiry => .planeTimerExpiry
  | .portLockLost => .portLockLost
  | .portLockGained => .portLockGained
  | .bridgeDown => .bridgeDown
  | .fabctlHeldDiscard => .fabctlHeldDiscard
  | .newRequest => .newRequest
  | .requestTextContinued => .requestTextContinued
  | .cancelGeneration => .cancelGeneration
  | .resendRequest => .resendRequest
  | .ptpEventReceive => .ptpEventReceive
  | .status => .status
  | .quote => .quote
  | .log => .log
  | .cert => .cert
  | .counters => .counters
  | .tenantCreate => .tenantCreate
  | .tenantReset => .tenantReset
  | .tenantDestroy => .tenantDestroy
  | .streamOpen => .streamOpen
  | .streamClose => .streamClose
  | .filterSet => .filterSet
  | .lcRequest => .lcRequest
  | .svnRaise => .svnRaise
  | .recoverWrite => .recoverWrite
  | .tsstepWrite => .tsstepWrite
  | .trtailWrite => .trtailWrite
  | .trctlWrite => .trctlWrite
  | .snapshotFire => .snapshotFire
  | .snapatMatch => .snapatMatch
  | .snapshotValidClear => .snapshotValidClear
  | .wqtailWrite => .wqtailWrite
  | .wqctlWrite => .wqctlWrite
  | .wqstatClr => .wqstatClr
  | .packetConsume => .packetConsume
  | .launchReady => .launchReady
  | .recordExpand => .recordExpand
  | .launchComplete => .launchComplete
  | .recordDispatch => .recordDispatch
  | .agingQuantum => .agingQuantum
  | .preemptPriority => .preemptPriority
  | .preemptionQuantum => .preemptionQuantum
  | .preemptSave => .preemptSave
  | .saveSlotFreed => .saveSlotFreed
  | .resumew => .resumew
  | .killw => .killw
  | .flttailWrite => .flttailWrite
  | .fltctlWrite => .fltctlWrite
  | .softError => .softError
  | .tenantResetComplete => .tenantResetComplete
  | .tlbinv => .tlbinv
  | .tlbInvalidationFinish => .tlbInvalidationFinish
  | .engineElementLand => .engineElementLand
  | .engineElementFault => .engineElementFault
  | .pathQueueLeave => .pathQueueLeave
  | .atomicPerform => .atomicPerform
  | .applyWrite => .applyWrite
  | .ticketAdvance => .ticketAdvance
  | .lateFailure => .lateFailure
  | .barrierWaitEnd => .barrierWaitEnd
  | .launchEnqueue => .launchEnqueue
  | .homeFinalize => .homeFinalize
  | .memberMerge => .memberMerge
  | .homeResolve => .homeResolve
  | .memberAbort => .memberAbort
  | .illegalInstruction => .illegalInstruction
  | .powerLoss => .powerLoss
  | .ethernetFrameReceive => .ethernetFrameReceive
  | .ptpEventTransmit => .ptpEventTransmit
  | .tscReferenceCycle => .tscReferenceCycle
  | .arithmeticCycle => .arithmeticCycle

end Sys2Proof.Machine
end

