-- ==== Sys2Proof/Machine/Ahead.lean ====
section
/-! DEFINITION. The syllables of a convoy: the checks before one issues (R125, R252), their order (R126, R364), the run ahead of the access side, the execute
side and the sequencer (R130 to R132), and one syllable run. -/

namespace Sys2Proof.Machine

/-! The checks on a convoy before any of its syllables issues (R125, R252). -/

/-- Whether a trunk strand takes the unavailable fault at a syllable, whatever its other fields hold: the majors of R121, and GATHSP, RCNOISE, RCBOUND
and an RCDROP that names a predicate (R261). -/
def trunkBarred (w : BitVec 32) : Bool :=
  let mj := majorOf w
  let fn := w.toNat
  mj == 0x19 || (0x20 ≤ mj && mj ≤ 0x35) || (0x38 ≤ mj && mj ≤ 0x3A) || (mj == 0x36 && fn % 8 == 1) ||
    (mj == 0x3B && (fn % 16 == 1 || fn % 16 == 2 || (fn % 16 == 5 && bitsN fn 20 3 != 0)))

/-- The cause that a slot's checks give, if any; `bad` is the slot that breaks R125. -/
def slotCause (trunk : Bool) (bad : Option Nat) (k : Nat) (w : BitVec 32) : Option Nat :=
  if w = 0 then none
  else if trunk && trunkBarred w then some cUnavailable
  else if undecodable w || (majorOf w == 0x19 && k != 0) || bad == some k then some cIllegal
  else none

/-- The lowest-numbered slot of a list that fails a check, and its cause (R252). -/
def slotFault (trunk : Bool) (bad : Option Nat) : Nat → List (BitVec 32) → Option (Nat × Nat)
  | _, [] => none
  | k, w :: t =>
    match slotCause trunk bad k w with
    | some c => some (k, c)
    | none => slotFault trunk bad (k + 1) t

/-- Whether a convoy begins a repeat frame: its slots 1 to 3 are then data (R134). -/
def isRepf (trunk : Bool) (ws : List (BitVec 32)) : Bool := !trunk && majorOf (ws.getD 0 0) == 0x19

/-- The checks of R252 on a convoy. -/
def convoyFault (trunk : Bool) (ws : List (BitVec 32)) : Option (Nat × Nat) :=
  if isRepf trunk ws then slotFault trunk none 0 (ws.take 1) else slotFault trunk (badSlot 0 false false ws) 0 ws

/-! The order of a convoy's syllables (R126, R364). -/

/-- The slots of a convoy in the order in which they take effect: race and token syllables after the others, DONE last. -/
def slotOrder (ws : List (BitVec 32)) : List Nat :=
  let ks := List.range ws.length
  let w := fun k => ws.getD k 0
  (ks.filter fun k => !isLate (w k) && !isDone (w k)) ++ (ks.filter fun k => isLate (w k)) ++ ks.filter fun k => isDone (w k)

/-- The slots that run of an ordinary convoy: slots 1 to 3 of REPF's are data (R134). -/
def slotsOf (trunk : Bool) (ws : List (BitVec 32)) : List Nat := if isRepf trunk ws then [0] else slotOrder ws

/-- The place of a slot in that order. -/
def slotPos (ws : List (BitVec 32)) (k : Nat) : Nat :=
  let w := ws.getD k 0
  (if isDone w then 8 else if isLate w then 4 else 0) + k % 4

/-! Repeat frames (R135). -/

/-- The repeat state after a replayed convoy has retired (R135, R136). -/
def nextReplay (r : Repeat) : Repeat :=
  if r.conv < 3 then { r with conv := r.conv + 1 }
  else if r.kidx + 1 < r.trip + r.nstg then { r with conv := 0, kidx := r.kidx + 1 }
  else { r with conv := 0, kidx := r.kidx + 1, active := false }

/-- Where the frame's next convoy stands: a captured convoy, or the convoy after the frame (R134, R135). -/
def replayPc (r : Repeat) : Word := if r.active then r.rpc + wordOf (0x10 + 16 * r.conv) else r.rpc + 0x50

/-- Whether captured syllable i runs in replay k (R135). -/
def stageRuns (r : Repeat) (i : Nat) : Bool :=
  let d := stageOf r.map0 r.map1 i
  decide (d ≤ r.kidx) && decide (r.kidx - d < r.trip)

/-- The words of the captured convoy that issues next: a syllable whose iteration is not one of the frame's stands empty. -/
def replayWords (st : Strand) : List (BitVec 32) :=
  (List.range 4).map fun m =>
    let i := 4 * st.rpt.conv + m
    if stageRuns st.rpt i then st.cap.getD i 0 else 0

/-- How the vector registers of a strand's convoy are renamed (R135). -/
def renamer (st : Strand) (replay : Bool) : Instr → Instr :=
  if replay then renameInstr (rotField st.rpt.rbase st.rpt.rsize st.rpt.kidx) else id

/-- A strand whose replayed convoy has retired. -/
def stepRepeat (st : Strand) : Strand :=
  let r := nextReplay st.rpt
  { st with rpt := r, npc := replayPc r, cap := if r.active then st.cap else [] }

/-! A convoy opens, and passes on. -/

/-- A convoy begins: what it may change is kept, and its successor is the next convoy (R111, R126). -/
def beginConvoy (s : State) (ws : List (BitVec 32)) (replay : Bool) : State :=
  let s1 := { s with convoy := some (checkpoint s ws replay) }
  putMe s1 { me s1 with npc := (me s1).pc + 16, brought := 0 }

/-- The flags that the old values of a convoy's VAMO.RETs have raised before it retired (R332). -/
def leftRaised (st : Strand) : FFlags :=
  st.answers.foldl (fun fl a =>
    if a.slot < 7 && a.elem == leftElem && a.pc == st.pc.toNat then
      match a.data with
      | some (.bytes b) => fl ||| BitVec.ofNat 5 (leAt b 8 1)
      | _ => fl
    else fl) 0

/-- A strand whose convoy is over: VSTART is 0, and the answers that the convoy asked for are used up. -/
def passStrand (st : Strand) : Strand :=
  { st with
    pc := st.npc, vstart := 0, vsyl := 4, resumeAt := 0, olds := [], beforeRace := [], lookFuel := 320, fflags := st.fflags ||| leftRaised st,
    answers := st.answers.filter fun a => !(decide (a.slot < 7) && a.pc == st.pc.toNat) }

/-- Executes one syllable of the convoy in progress; `ren` renames its vector registers. -/
def runPlain (ren : Instr → Instr) (s : State) (k : Nat) (w : BitVec 32) : Out State :=
  let s1 := { s with arg := .syllable w, slot := k }
  match decodeSyllable w.toNat with
  | .ok i => exec (ren i) s1
  | .error _ => exec .illegalInstruction s1

/-! The run ahead (R130 to R133, R169). It works on a copy of the machine, of which the loads' values, the pushed groups, the requests and the copies
armed are kept. -/

/-- The access side's majors, and the execute side's (R130, R260). -/
def accessSide (mj : Nat) : Bool := (0x30 ≤ mj && mj ≤ 0x36) || mj == 0x38 || mj == 0x39
def executeSide (mj : Nat) : Bool := (0x21 ≤ mj && mj ≤ 0x2F) || mj == 0x3A || mj == 0x3B

/-- The number under which VL stands among the registers whose values a run ahead does not know. -/
def vlReg : Nat := 32

/-- A run ahead: the copy, the answers that the strand held where it began, the convoy at which it stands with the slots still to run, the scalar registers
whose values are not known yet, whether it has guessed a branch, the syllables that have pushed groups, by convoys ahead and slot, and what finds a loop
that changes nothing: an earlier state of the strand, the convoys passed, and when the next is kept. -/
structure Ahead where
  s : State
  base : List Answer
  words : List (BitVec 32)
  replay : Bool
  todo : List Nat
  unknown : List Nat
  guessed : Bool
  pushed : List (Nat × Nat)
  mark : Option Strand
  passed : Nat
  nextMark : Nat

/-- How a run ahead ends. -/
inductive AheadEnd where
  | found (a : Ahead)
  /-- A syllable waits for something else than the run ahead. -/
  | blocked (s : State)
  /-- A syllable takes a fault. -/
  | faulted (s : State)
  /-- Nothing further can be run ahead. -/
  | stuck (s : State)
  /-- It has passed as many syllables as one try may. -/
  | tired (s : State)

/-- The scalar registers that a word reads, and VL, by its format (R254). -/
def wordReads (w : BitVec 32) : List Nat :=
  let mj := majorOf w
  let fn := w.toNat
  let f := fun lo => bitsN fn lo 5
  if (2 ≤ mj && mj ≤ 7) || mj == 0x0C || mj == 0x18 then [f 16]
  else if mj == 8 || mj == 9 || mj == 0x16 || mj == 0x17 then []
  else if mj == 0x0A || mj == 0x0D || (0x10 ≤ mj && mj ≤ 0x15) then [f 21, f 16]
  else if mj == 0x19 then [f 21]
  else if mj == 0x1A then (if hasN [3, 10] (fn % 16) then [f 16, f 11] else if hasN [5, 8] (fn % 16) then [f 16] else [])
  else if mj == 0x20 then (if fn % 8 = 1 then [f 16] else if fn % 8 = 2 then [vlReg] else [])
  else if accessSide mj then [f 18, f 13, vlReg]
  else if 0x21 ≤ mj && mj ≤ 0x2F then [f 20, f 14, f 9, vlReg]
  else if mj == 0x3B then [f 20, f 14, f 9] ++ (if hasN [1, 2] (fn % 16) then [vlReg] else [])
  else [f 21, f 16, f 11]

/-- The scalar registers that a word may write, and VL. -/
def wordWrites (w : BitVec 32) : List Nat :=
  let mj := majorOf w
  let fn := w.toNat
  let d := bitsN fn 21 5
  let l :=
    if mj == 0x0D || (0x10 ≤ mj && mj ≤ 0x16) || mj == 0x19 || accessSide mj || mj == 0x3C || mj == 0x3D then []
    else if mj == 0x1A then (if fn % 16 = 7 then [d] else [])
    else if mj == 0x20 then (if fn % 8 = 1 then [d, vlReg] else if fn % 8 = 2 then [d] else [])
    else if (0x21 ≤ mj && mj ≤ 0x2F) then [bitsN fn 20 5]
    else if mj == 0x3B then bitsN fn 20 5 :: (if fn % 16 = 2 then [vlReg] else [])
    else [d]
  l.filter (· != 0)

/-- The syllables of register operands alone on the scalar side. -/
def plainScalar (mj : Nat) : Bool := 1 ≤ mj && mj ≤ 0x0B

/-- The syllables that end a run ahead: what they do waits for what is before them and holds what is behind (BAR, ERET, ICINV, DONE), or WAITSW where a run
looks for one access, since it acquires (R172). -/
def endsAhead (looks : Bool) (w : BitVec 32) : Bool :=
  let mj := majorOf w
  let fn := w.toNat % 16
  (mj == 0x1A && (hasN [4, 6, 9] fn || (fn == 3 && looks))) || isDone w

/-- The syllables that a run ahead passes over without running them: LAUNCH and CANCEL, and the token syllables. -/
def passesAhead (w : BitVec 32) : Bool := (majorOf w == 0x1B && hasN [2, 3] (w.toNat % 2048)) || majorOf w == 0x3D

/-- RCWAIT and RCREAD, which acquire (R172, R375). -/
def raceAcquire (w : BitVec 32) : Bool := majorOf w == 0x3B && hasN [6, 7] (w.toNat % 16)

/-- The access that stands for such a syllable where it is passed over. -/
def acquireItem : QItem := .acc (mkAcc .rc (.window (2 ^ 64)) 0 0 .read false true false)

/-- The slot write of a TKEMIT that is passed over (R382). -/
def emitItem (s : State) (w : BitVec 32) : Option QItem :=
  let va := getS s (BitVec.ofNat 5 (bitsN w.toNat 21 5))
  if w.toNat % 2048 ≠ 0 then none
  else
    match checkScalar s (me s) .store 4 va with
    | .ok p => some (.acc (mkAcc .ls p va 4 (.write (List.replicate 4 0)) true false false))
    | .error _ => none

/-- The system registers whose values are those of the moment at which SYSR runs, or of syllables that a run ahead may have passed over. -/
def liveReg (w : BitVec 32) : Bool :=
  let n := bitsN w.toNat 4 7
  majorOf w == 0x1A && w.toNat % 16 == 7 && (hasN [0x05, 0x08, 0x0A, 0x0C] n || (0x20 ≤ n && n ≤ 0x2F))

/-- The groups that the queues of a strand hold. -/
def groupCount (l : List (List Group)) : Nat := l.foldl (fun n q => n + q.length) 0

/-- A run ahead after a syllable: what was passed over leaves its register unknown, what ran makes it known, and a push is noted. -/
def afterSlot (a : Ahead) (k : Nat) (w : BitVec 32) (s1 : State) : Ahead :=
  let mj := majorOf w
  let grew := fun (f : Strand → List (List Group)) => decide (groupCount (f (me a.s)) < groupCount (f (me s1)))
  let unread := mj == 0x0E || (mj == 0x0C && decide ((me a.s).wbuf.length < (me s1).wbuf.length)) || liveReg w
  let scalar := plainScalar mj || mj == 0x0C || mj == 0x17 || mj == 0x18 || mj == 0x1A || mj == 0x20
  { a with
    s := s1
    unknown :=
      if unread then wordWrites w ++ a.unknown
      else if scalar then a.unknown.filter fun r => !hasN (wordWrites w) r
      else a.unknown
    pushed := if grew (·.iq) || grew (·.oq) then a.pushed ++ [(lookDepth a.s, k)] else a.pushed }

/-- The strand at its next captured convoy, within a frame (R135). -/
def atConvoy (st : Strand) : Strand := if st.rpt.active then { st with pc := replayPc st.rpt } else st

/-- The convoy at which a strand stands, as memory or its frame holds it; none where it cannot issue. -/
def comingWords (s : State) : Option (List (BitVec 32) × Bool) :=
  let st := me s
  if st.rpt.active then (if st.cap.length = 16 then some (replayWords st, true) else none)
  else
    match fetchWords s st st.pc with
    | .ok ws => if (convoyFault st.trunk ws).isSome then none else some (ws, false)
    | .error _ => none

/-- A run ahead at the convoy where its copy stands. -/
def aheadAt (a : Ahead) : Option Ahead :=
  let s0 := putMe a.s (atConvoy (me a.s))
  (comingWords s0).map fun (ws, r) =>
    { a with s := beginConvoy s0 ws r, words := ws, replay := r, todo := if r then slotOrder ws else slotsOf (me s0).trunk ws }

/-- A strand that passes on in a run ahead: the notes of what it has done early stay for their convoys. -/
def passAhead (base : List Answer) (st : Strand) : Strand :=
  { passStrand st with
    answers := st.answers.filter fun a => !(decide (a.slot < 7) && a.pc == st.pc.toNat && base.any (· == a)), lookFuel := st.lookFuel }

/-- Whether a run ahead comes back to a convoy of which it holds notes: they name the earlier passage. -/
def comesBack (a : Ahead) (pc : Word) : Bool :=
  (a.s.look.any fun l => l.path.any (· == pc)) && (me a.s).answers.any fun x => decide (x.slot < 7) && x.pc == pc.toNat && !a.base.any (· == x)

/-- How a run ahead passes on to the next convoy. -/
inductive AheadNext where
  | go (a : Ahead)
  | faulted
  /-- It turns in a loop that changes nothing. -/
  | stuck
  | tired

/-- A run ahead passes on. -/
def aheadNext (a : Ahead) : AheadNext :=
  let st0 := if a.replay then stepRepeat (me a.s) else me a.s
  let st := atConvoy (passAhead a.base st0)
  if comesBack a st.pc then .tired
  else if a.mark.any fun m => m.pc == st.pc && m == st then .stuck
  else
    let s1 := { putMe a.s st with convoy := none, look := a.s.look.map fun l => { l with depth := l.depth + 1, path := l.path ++ [st.pc] } }
    let b :=
      if a.passed = a.nextMark then { a with s := s1, passed := a.passed + 1, mark := some st, nextMark := 2 * a.nextMark + 1 }
      else { a with s := s1, passed := a.passed + 1 }
    match aheadAt b with
    | some c => .go c
    | none => .faulted

/-- Whether a syllable has consumed groups whose old values have not come (R332). -/
def waitingUsed (st st1 : Strand) : List Nat :=
  (List.zipWith (fun (q r : List Group) => ((q.take (q.length - r.length)).filter fun g => !g.wait.isEmpty).map (·.id)) st.iq st1.iq).flatten
def usedWaiting (st st1 : Strand) : Bool := !(waitingUsed st st1).isEmpty

/-- The strand with zero groups behind what its in-queues, or its out-queues, hold. -/
def padQueues (st : Strand) (inq : Bool) : Strand :=
  let pad := fun (q : List Group) => q ++ List.replicate 512 ⟨0, 0, 0, []⟩
  if inq then { st with iq := st.iq.map pad } else { st with oq := st.oq.map pad }

/-- An access syllable whose data have not been produced: its accesses stand in the stream, and nothing else of it. Of one that takes its addresses from
an out-queue they are not known. -/
def accessItems (ren : Instr → Instr) (s : State) (k : Nat) (w : BitVec 32) : Option State :=
  if majorOf w == 0x32 || (majorOf w == 0x36 && w.toNat % 8 == 1) then none
  else if majorOf w == 0x39 then some s
  else
    let s1 := { putMe s (padQueues (me s) false) with look := s.look.map fun l => { l with left := some (2 ^ 64), hit := false } }
    match runPlain ren s1 k w with
    | .next s2 => if s2.convoy.isSome then some (putMe s { me s with wbuf := (me s2).wbuf }) else none
    | _ => none

/-- The syllables that make accesses or act on a unit: behind a BAR of their convoy they wait for its generation, which BAR reads with acquire order
(R172, R173, R295). -/
def afterBar (w : BitVec 32) : Bool :=
  let mj := majorOf w
  (0x0C ≤ mj && mj ≤ 0x0E) || (0x30 ≤ mj && mj ≤ 0x39) || (0x3B ≤ mj && mj ≤ 0x3D) || mj == 0x1B || (mj == 0x1A && hasN [3, 4, 6, 9] (w.toNat % 16))

/-- A syllable that a run ahead does not run: what it would write is not known. -/
def notRun (a : Ahead) (w : BitVec 32) : Ahead := { a with unknown := wordWrites w ++ a.unknown }

/-- What a run ahead does at a word whose slot has been taken off `todo`. -/
inductive AheadStep where
  | go (a : Ahead)
  | done (e : AheadEnd)

/-- A syllable of a side that the run does not run. -/
def skipSlot (ren : Instr → Instr) (a : Ahead) (k : Nat) (w : BitVec 32) (looks : Bool) : AheadStep :=
  let mj := majorOf w
  if executeSide mj then
    .go (notRun (if raceAcquire w && looks then { a with s := queueItem a.s acquireItem } else a) w)
  else if mj == 0x38 || (wordReads w).any (hasN a.unknown ·) then .done (.stuck a.s)
  else
    match accessItems ren a.s k w with
    | some s1 => .go { a with s := s1 }
    | none => .done (.stuck a.s)

/-- A branch on a register that is not known: the run that looks for a load guesses (R133). -/
def guessBranch (a : Ahead) (w : BitVec 32) : Ahead :=
  let (p, s1) := takePick a.s 2
  let off := signedN 16 (w.toNat % 2 ^ 16)
  { a with s := if p = 1 then setNpc s1 ((me s1).pc + 16 * BitVec.ofInt 64 off) else s1, guessed := true }

/-- One syllable of a run ahead. -/
def aheadSlot (skip : Nat → Bool) (a : Ahead) (k : Nat) (w : BitVec 32) : AheadStep :=
  let mj := majorOf w
  let ren := renamer (me a.s) a.replay
  let looks := a.s.look.any fun l => l.atom || l.left.isSome
  let loads := a.s.look.any fun l => !l.atom && l.left.isSome
  let blind := (wordReads w).any (hasN a.unknown ·)
  if w = 0 then .go a
  else if (me a.s).barw && afterBar w then .done (.blocked a.s)
  else if endsAhead looks w || (mj == 0x19 && a.guessed) then .done (.stuck a.s)
  else if skip mj && !(raceAcquire w && !looks) then skipSlot ren a k w looks
  else if blind then
    if plainScalar mj || (mj == 0x1A && w.toNat % 16 == 10) then .go (notRun a w)
    else if loads && 0x10 ≤ mj && mj ≤ 0x15 then .go (guessBranch a w)
    else .done (.stuck a.s)
  else if passesAhead w then
    .go (notRun (match if mj == 0x3D then emitItem a.s w else none with
      | some x => { a with s := queueItem { a.s with slot := k } x }
      | none => a) w)
  else
    match runPlain ren a.s k w with
    | .next s1 =>
      if s1.convoy.isSome then (if usedWaiting (me a.s) (me s1) then .done (.blocked a.s) else .go (afterSlot a k w s1))
      else if (NMap.get? s1.held s1.cur).isSome then .done (.blocked s1)
      else .done (.faulted a.s)
    | _ => .done (.stuck a.s)

/-- Runs ahead until `enough`; syllables of the majors in `skip` are not run. -/
def aheadRun (skip : Nat → Bool) (enough : Ahead → Bool) : Nat → Ahead → AheadEnd
  | 0, a => .tired a.s
  | n + 1, a =>
    if enough a then .found a
    else
      match a.todo with
      | [] =>
        match aheadNext a with
        | .go b => aheadRun skip enough n b
        | .faulted => .faulted a.s
        | .stuck => .stuck a.s
        | .tired => .tired a.s
      | k :: t =>
        match aheadSlot skip { a with todo := t } k (a.words.getD k 0) with
        | .go b => aheadRun skip enough n b
        | .done e => e

/-- The copy of the machine for a run ahead. -/
def lookFrom (s : State) (atom : Bool) (left : Option Nat) : State :=
  { s with
    held := NMap.erase s.held s.cur
    look := some { depth := 0, path := [(me s).pc], atom := atom, left := left, hit := false, asked := false } }

/-- A run ahead that begins. -/
def aheadFrom (s : State) (words : List (BitVec 32)) (replay : Bool) (todo : List Nat) : Ahead :=
  { s := s, base := (me s).answers, words := words, replay := replay, todo := todo, unknown := [], guessed := false, pushed := [], mark := none,
    passed := 0, nextMark := 1 }

/-- What a run ahead has noted or asked. -/
def newAnswers (st f : Strand) : List Answer := f.answers.filter fun a => !st.answers.any (· == a)

/-- What a run ahead has done for its strand stands: requests sent, values read, copies armed, tickets drawn, and the branches that it guessed. -/
def adoptRun (s s2 : State) : State :=
  let st := me s
  let f := me s2
  putMe
    { s with
      fabric := s2.fabric
      sched := { s.sched with picks := s2.sched.picks }
      ord := { s.ord with nextTicket := s2.ord.nextTicket, performed := s2.ord.performed, dead := s2.ord.dead } }
    { st with answers := st.answers ++ newAnswers st f, early := f.early, toks := f.toks, armed := f.armed }

/-- What a run that looked for a load leaves: the value that it took. -/
def adoptLoad (s s2 : State) : State :=
  let st := me s
  let f := me s2
  putMe { s with fabric := s2.fabric, sched := { s.sched with picks := s2.sched.picks } }
    { st with answers := st.answers ++ newAnswers st f, early := f.early }

/-- What a run that looked for an atomic leaves: what the atomic did (R166), and its note. -/
def adoptAtom (s s2 : State) : State :=
  let st := me s
  let f := me s2
  putMe { s with fabric := s2.fabric, ord := s2.ord }
    { st with
      answers := st.answers ++ newAnswers st f, pq := f.pq, late := st.late ++ f.late.drop st.late.length
      outst := st.outst ++ f.outst.filter fun o => !st.outst.any (·.tag == o.tag) }

/-- A try of a run ahead has ended without a result: the next one goes further. -/
def lookFurther (s : State) : State := putMe s { me s with lookFuel := (me s).lookFuel + 320 }

/-- The state that a run ahead has reached where it stopped. -/
def AheadEnd.state : AheadEnd → State
  | .found a => a.s
  | .blocked s => s
  | .faulted s => s
  | .stuck s => s
  | .tired s => s

/-- A load, or an atomic, leaves before its turn (R130, R159, R169): the one after n others that have not been issued. A load takes its value, or is asked
of another package; an atomic performs. The convoys before it do not stand. A run that has not come far enough goes further the next time. -/
def leaveAhead (s : State) (sid n : Nat) (atom : Bool) : Option State :=
  let s0 := { s with cur := sid }
  let c := lookFrom s0 atom (some n)
  let a : Option Ahead :=
    match NMap.get? s.held sid with
    | some h =>
      some (aheadFrom { c with convoy := some (checkpoint c h.words h.replay) } h.words h.replay
        ((slotOrder h.words).filter fun k => h.pos ≤ slotPos h.words k))
    | none => aheadAt (aheadFrom c [] false [])
  let back := fun (s1 : State) => { s1 with cur := s.cur }
  let hit := fun (s2 : State) => s2.look.any fun l => l.hit || l.asked
  let kept := fun (s2 : State) => back (if atom then adoptAtom s0 s2 else adoptLoad s0 s2)
  match a.map (aheadRun executeSide (fun a => hit a.s) (me s0).lookFuel) with
  | none => none
  | some e =>
    if hit e.state then some (kept e.state)
    else
      match e with
      | .tired _ => some (back (lookFurther s0))
      | _ => none

/-! Queues that run empty, and queues that are full (R131, R132). -/

/-- Whether a syllable takes effect or waits in a state. -/
def proceeds (ren : Instr → Instr) (s : State) (k : Nat) (w : BitVec 32) : Bool :=
  match runPlain ren s k w with
  | .next s1 => s1.convoy.isSome || (NMap.get? s1.held s1.cur).isSome
  | _ => false

/-- The run ahead from a slot of the convoy in progress. -/
def aheadHere (s : State) (k : Nat) (left : List Nat) : Ahead :=
  let (ws, r) := match s.convoy with
    | some c => (c.words, c.replay)
    | none => ([], false)
  aheadFrom { lookFrom s false none with slot := k } ws r left

/-- The queues of a strand with the groups that a run ahead has pushed, and what else it has done. -/
def takeFed (s : State) (a : Ahead) (inq : Bool) : State :=
  let s1 := adoptRun s a.s
  let st := me s1
  let f := me a.s
  putMe s1 { st with iq := if inq then f.iq else st.iq, oq := if inq then st.oq else f.oq, fed := st.fed ++ a.pushed }

/-- Whether a syllable has consumed groups of a VAMO.RET that has not been issued, whose old values come only after its convoy has retired (R332). -/
def usedFuture (st st1 : Strand) (next : Nat) : Bool := (waitingUsed st st1).any fun id => decide (next ≤ id)

/-- Whether what a run ahead has pushed lets a syllable proceed. -/
def fedEnough (ren : Instr → Instr) (s : State) (k : Nat) (w : BitVec 32) (inq : Bool) (a : Ahead) : Bool :=
  let s0 := takeFed s a inq
  !a.pushed.isEmpty && proceeds ren s0 k w &&
    match runPlain ren s0 k w with
    | .next s1 => !usedFuture (me s0) (me s1) (me s).nextFill
    | _ => false

/-- A convoy that waits while a run ahead cannot go on. -/
def waitAhead (s s2 : State) : Out State := .next (holdConvoy s (waitHere (adoptRun s s2)))

/-- A syllable whose queue ran empty (R132): it goes on with the groups that a later syllable, in a later slot or convoy, pushes, waits for one that
cannot push yet, or takes the fault. `left` are the slots of its convoy after it. -/
def feed (ren : Instr → Instr) (s : State) (k : Nat) (w : BitVec 32) (left : List Nat) (fault : State) : Out State :=
  let inq := !accessSide (majorOf w)
  let a := aheadHere s k left
  let start := if inq then some a else (accessItems ren a.s k w).map fun s1 => { a with s := s1 }
  match (start.map (aheadRun (if inq then executeSide else accessSide) (fedEnough ren s k w inq) (me s).lookFuel)).getD (.stuck a.s) with
  | .found a => runPlain ren (takeFed s a inq) k w
  | .blocked s2 => waitAhead s s2
  | .tired _ => .next (holdConvoy s (waitHere (lookFurther s)))
  | .faulted _ => .next fault
  | .stuck _ => .next fault

/-- Whether a faulting syllable lacks groups: with more behind its queues it would proceed. -/
def starved (ren : Instr → Instr) (s : State) (k : Nat) (w : BitVec 32) : Bool :=
  let mj := majorOf w
  !(me s).trunk && (accessSide mj || executeSide mj) && proceeds ren (putMe s (padQueues (me s) (!accessSide mj))) k w

/-- Whether the out-queues, or the in-queues, of a strand hold more than their room (R131). -/
def outFull (st : Strand) : Bool := st.oq.any fun q => decide (queueRoom < q.length)
def inFull (st : Strand) : Bool := st.iq.any fun q => decide (queueRoom < q.length)

/-- What a run ahead that began behind a syllable (`s1`) leaves where that syllable waits after all. -/
def adoptAfter (s s1 s2 : State) : State :=
  if (me s1).answers = (me s).answers && (me s1).toks = (me s).toks then adoptRun s s2 else s

/-- A syllable has appended to an out-queue more than it holds: it needs syllables ahead that drain it (R132). -/
def drainAhead (s s1 : State) (k : Nat) (left : List Nat) : Out State :=
  match aheadRun executeSide (fun a => !outFull (me a.s)) (me s).lookFuel (aheadHere s1 k left) with
  | .found _ => .next s1
  | .blocked s2 => .next (holdConvoy s (waitHere (adoptAfter s s1 s2)))
  | .tired _ => .next (holdConvoy s (waitHere (lookFurther s)))
  | _ => finish s (.trap cIllegal (sylWord s .illegalInstruction) 0)

/-- A load has pushed to an in-queue more than it holds: it waits until syllables ahead have made room (R131). R132 names no fault for it, so where they
cannot, it waits. Log 49. -/
def roomAhead (s s1 : State) (k : Nat) (left : List Nat) : Out State :=
  match aheadRun (fun _ => false) (fun a => !inFull (me a.s)) (me s).lookFuel (aheadHere s1 k left) with
  | .found _ => .next s1
  | .stuck _ => .next s1
  | .blocked s2 => .next (holdConvoy s (waitHere (adoptAfter s s1 s2)))
  | .tired _ => .next (holdConvoy s (waitHere (lookFurther s)))
  | .faulted _ => .next (holdConvoy s (waitHere s))

/-! Race and token syllables (R364). They take effect after the other syllables of their convoy; log 41 says what becomes of them where the convoy waits
behind one. -/

/-- The elements that a vector race syllable has written, by index. -/
def lateVec (st : Strand) (vd start : Nat) : List (Nat × Nat) :=
  if vd < 56 then (List.range st.vl).map fun i => (i, ((st.vregs.getD vd []).getD i 0).toNat % 2 ^ 32)
  else
    let q := oqOf st (vd - 56)
    match qread (q.drop (q.length - (groupsFor st.vl 32 - start * 32 / 2048))) start st.vl 32 with
    | none => []
    | some (l, _) => (l.zipIdx.filter fun e => e.1.2).map fun e => (start + e.2, e.1.1)

/-- What a late syllable has given its strand, as bytes: a scalar, a predicate's bit, or VL, start, flags and elements. -/
def lateBytes (i : Instr) (s s1 : State) : List Byte :=
  let st := me s1
  let vec := fun (vd : Nat) =>
    let start := startOf s
    bytesOf 4 st.vl ++ bytesOf 4 start ++ bytesOf 1 st.fflags.toNat ++
      ((lateVec st vd start).map fun e => bytesOf 4 e.1 ++ bytesOf 4 e.2).flatten
  match i with
  | .rcpick o => bytesOf 8 (getS s1 o.sd).toNat
  | .rcread o => bytesOf 8 (getS s1 o.sd).toNat
  | .rcdrop o => bytesOf 1 (boolN (predBit st o.pd.toNat 0))
  | .rcnoise o => vec o.vd.toNat
  | .rcbound o => vec o.vd.toNat
  | .rcupd _ => bytesOf 1 st.fflags.toNat
  | _ => []

/-- Gives a strand again what a late syllable gave it. -/
def lateApply (i : Instr) (b : List Byte) (s : State) : State :=
  let vec := fun (o : RcvOps) =>
    let st := match vsrc (me s) o.va.toNat 32 with
      | some (_, st1) => st1
      | none => me s
    let vl := leAt b 0 4
    let act := maskOf st o.m
    let els := ((List.range ((b.length - 9) / 8)).map fun k => (leAt b (9 + 8 * k) 4, leAt b (13 + 8 * k) 4)).filter fun e => act.getD e.1 false
    putMe s { rcWrite st o.vd.toNat (leAt b 4 4) vl els with vl := vl, fflags := st.fflags ||| BitVec.ofNat 5 (leAt b 8 1) }
  match i with
  | .rcpick o => setS s o.sd (wordOf (leAt b 0 8))
  | .rcread o => setS s o.sd (wordOf (leAt b 0 8))
  | .rcdrop o => putMe s (predAll (me s) o.pd.toNat (leAt b 0 1 == 1))
  | .rcnoise o => vec o
  | .rcbound o => vec o
  | .rcupd _ => addFlags s (BitVec.ofNat 5 (leAt b 0 1))
  | _ => s

/-- The instruction of a word, renamed. -/
def lateInstr (ren : Instr → Instr) (w : BitVec 32) : Instr :=
  match decodeSyllable w.toNat with
  | .ok i => ren i
  | .error _ => .illegalInstruction

/-! One syllable of the convoy in progress. -/

/-- A syllable that finds in its queues what it needs: groups pushed ahead where they run empty. -/
def runFed (ren : Instr → Instr) (s : State) (k : Nat) (w : BitVec 32) (left : List Nat) : Out State :=
  match runPlain ren s k w with
  | .next s1 =>
    if s1.convoy.isNone && (NMap.get? s1.held s1.cur).isNone && starved ren s k w then feed ren s k w left s1 else .next s1
  | r => r

/-- The syllables of the convoy in progress whose old values stand in some groups. -/
def fillSlots (st : Strand) (ids : List Nat) : List Nat :=
  (st.wbuf.filterMap fun x => match x with
    | .acc a => if a.fill.any fun f => hasN ids f.id then some a.slot else none
    | _ => none).foldl insertN []

/-- A syllable that consumes no group before its old value has come (R332); those of its own convoy's VAMO.RET come once their atomics have left. `next`
goes on with the state before the syllable and the one after it. -/
def runUsed (ren : Instr → Instr) (s : State) (k : Nat) (w : BitVec 32) (left : List Nat) (next : State → State → Out State) : Out State :=
  match runFed ren s k w left with
  | .next s1 =>
    if s1.convoy.isNone then .next s1
    else if !usedWaiting (me s) (me s1) then next s s1
    else
      let s2 := enterSlots s (closeOwn 4 (me s).wbuf (fillSlots (me s) (waitingUsed (me s) (me s1))))
      match runFed ren s2 k w left with
      | .next s3 =>
        if s3.convoy.isNone then .next s3
        else if usedWaiting (me s2) (me s3) then .next (holdConvoy s (waitOr s s2))
        else next s2 s3
      | r => r
  | r => r

/-- A syllable whose groups had been pushed before its turn pushes them only once. -/
def unfeed (s s1 : State) (k : Nat) (w : BitVec 32) : State :=
  let st := me s
  let st1 := me s1
  if !(st.fed.any (· == (0, k))) then s1
  else
    let st2 := { st1 with fed := st1.fed.filter (· != (0, k)) }
    putMe s1 (if accessSide (majorOf w) then { st2 with iq := st.iq } else { st2 with oq := st.oq })

/-- The state in which a slot's syllable begins: DONE will find the scalar registers as they stood before the first race or token syllable (R364). -/
def atSlot (s0 : State) (k : Nat) (w : BitVec 32) : State :=
  let st := me s0
  { (if isLate w && st.beforeRace.isEmpty then putMe s0 { st with beforeRace := st.regs } else s0) with arg := .syllable w, slot := k }

/-- Runs one syllable of the convoy in progress; `left` are the slots after it. A race or token syllable that has been performed is not performed
again. -/
def runSlot (ren : Instr → Instr) (s0 : State) (k : Nat) (w : BitVec 32) (left : List Nat) : Out State :=
  let s := atSlot s0 k w
  let mj := majorOf w
  if (me s).barw && afterBar w then .next (holdConvoy s (waitHere s))
  else
    match if isLate w then doneBefore s noteElem else none with
    | some b => .next (unfeed s (lateApply (lateInstr ren w) b s) k w)
    | none =>
      runUsed ren s k w left fun s s1 =>
        let s2 := unfeed s s1 k w
        if executeSide mj && outFull (me s2) then drainAhead s s2 k left
        else if accessSide mj && inFull (me s2) then roomAhead s s2 k left
        else .next s2

end Sys2Proof.Machine
end

