-- ==== Sys2Proof/Machine/Convoy.lean ====
section
/-! DEFINITION. A step of the package: the next event, or the next convoy of a strand (R124 to R137, R252), and the machine's own moves. -/

namespace Sys2Proof.Machine

/-! Running a convoy (R126). -/

/-- A strand whose convoy has retired: its accesses enter the path queues, and what was read or pushed ahead comes one convoy nearer. A value read ahead
on a way that the strand does not go is lost (R133). -/
def retireStrand (o : Ordering_) (st : Strand) : Strand :=
  commitQueue o
    { passStrand st with
      early := (st.early.filter fun e => e.ahead != 0 && e.path.head? == some st.npc).map fun e => { e with ahead := e.ahead - 1, path := e.path.drop 1 }
      fed := (st.fed.filter fun e => e.1 != 0).map fun e => (e.1 - 1, e.2) }

/-- The convoy retires, with its trace records (R77). A strand that DONE has ended is not there any more. -/
def retire (s : State) : State :=
  let s1 := { s with convoy := none }
  if (me s).run = .idle then s1 else writeMarks (putMe s1 (retireStrand s1.ord (me s1)))

/-- A replayed convoy retires. -/
def retireReplay (s : State) : State := retire (putMe s (stepRepeat (me s)))

/-- What the slots of a convoy that have run leave open for a later one that waits: the state from which the slots are run again, and what the race and
token syllables since have given the strand. -/
structure Trail where
  back : Option State
  late : List (Nat × List Byte)

/-- The trail behind a slot that has run. Behind the first slot whose own convoy's accesses have entered their path queue, and behind the first race or
token syllable, a wait runs the slots again from there. Logs 20 and 41. -/
def Trail.step (tr : Trail) (ren : Instr → Instr) (s : State) (k : Nat) (w : BitVec 32) (s1 : State) : Trail :=
  let b := atSlot s k w
  let fresh := isLate w && (doneBefore b noteElem).isNone
  { back := if tr.back.isSome || !(fresh || hasLeft (me s) (me s1)) then tr.back else some b
    late := if fresh then tr.late ++ [(k, lateBytes (lateInstr ren w) b s1)] else tr.late }

/-- Whether a syllable waits for what an earlier one of its convoy may bring about: RCWAIT. -/
def raceWait (w : BitVec 32) : Bool := majorOf w == 0x3B && w.toNat % 16 == 6

/-- The fault of a later race or token syllable of a convoy, its remaining slots run from a state. -/
def laterFault (ren : Instr → Instr) (ws : List (BitVec 32)) : List Nat → State → Option State
  | [], _ => none
  | k :: t, s =>
    if !isLate (ws.getD k 0) then none
    else
      match runSlot ren s k (ws.getD k 0) t with
      | .next s1 =>
        if s1.convoy.isSome then laterFault ren ws t s1
        else if (NMap.get? s1.held s1.cur).isSome then none
        else some s1
      | _ => none

/-- A slot waits: `s` is the state before it, `s1` the one that it leaves. The convoy goes on at it where something that a syllable has done cannot be
taken back, and the race and token syllables before it are noted as done; RCWAIT goes on behind those that may bring its end about. Otherwise the slots run
again from the trail's state, in which what the convoy has asked and read stands. -/
def waitSlot (ren : Instr → Instr) (ws : List (BitVec 32)) (tr : Trail) (s : State) (k : Nat) (t : List Nat) (s1 : State) : State :=
  let b := tr.back.getD (atSlot s k (ws.getD k 0))
  let h := waitHere b
  let entered := hasLeft (me b) (me s1)
  let late := !tr.late.isEmpty
  if stands h s1 || (entered && hasAsked (me b) (me s1)) || (late && raceWait (ws.getD k 0)) then
    match if late then laterFault ren ws t s else none with
    | some f => f
    | none => tr.late.foldl (fun s e => putMe s (noteDone (me s) e.1 noteElem e.2)) s1
  else if entered then holdConvoy b h
  else if tr.back.isNone then s1
  else
    let st := me s1
    holdConvoy b (putMe { h with fabric := s1.fabric } { me h with answers := st.answers, early := st.early, lookFuel := st.lookFuel })

/-- Executes slots of a convoy in turn, from its resume position on, then retires it by `done`. A slot that leaves no convoy in progress has
faulted or waits, and ends it. -/
def runSlots (ren : Instr → Instr) (done : State → State) (from_ : Nat) (ws : List (BitVec 32)) : Trail → List Nat → State → Out State
  | _, [], s => .next (done s)
  | tr, k :: t, s =>
    if slotPos ws k < from_ then runSlots ren done from_ ws tr t s
    else
      match runSlot ren s k (ws.getD k 0) t with
      | .next s1 =>
        if s1.convoy.isSome then runSlots ren done from_ ws (tr.step ren s k (ws.getD k 0) s1) t s1
        else if (NMap.get? s1.held s1.cur).isSome then .next (waitSlot ren ws tr s k t s1)
        else .next s1
      | .fault f => .fault f
      | .refused r => .refused r

/-- The trail where a convoy's run begins. -/
def Trail.start : Trail := { back := none, late := [] }

/-- Takes an exception at a slot of the strand's convoy before any syllable issues. -/
def trapAt (s : State) (slot cause : Nat) (eval : Word) : Out State :=
  .next (takeException { s with slot := slot, convoy := none } cause eval 0)

/-- Runs the words of the ordinary convoy at the strand's pc. -/
def runConvoy (s : State) (ws : List (BitVec 32)) : Out State :=
  match convoyFault (me s).trunk ws with
  | some (k, c) => trapAt s k c ((ws.getD k 0).setWidth 64)
  | none => runSlots id retire 0 ws Trail.start (slotsOf (me s).trunk ws) (beginConvoy s ws false)

/-- Fetches and runs the convoy at the strand's pc (R124, R149, R288, R299). -/
def stepConvoy (s : State) : Out State :=
  let st := me s
  match fetchConvoy s st st.pc with
  | (.error c, s1) => trapAt s1 0 c st.pc
  | (.ok ws, s1) => runConvoy (tlbFill s1 st st.pc) ws

/-- One replayed convoy of a frame whose convoys are captured (R135). A captured convoy that R125 does not allow takes the fault when it is to
issue. Log 102. -/
def stepReplay (s : State) : Out State :=
  let s0 := putMe s (atConvoy (me s))
  let st := me s0
  let ws := replayWords st
  match badSlot 0 false false ((st.cap.drop (4 * st.rpt.conv)).take 4) with
  | some k => trapAt s0 k cIllegal ((st.cap.getD (4 * st.rpt.conv + k) 0).setWidth 64)
  | none => runSlots (renamer st true) retireReplay 0 ws Trail.start (slotOrder ws) (beginConvoy s0 ws true)

/-- A strand within a frame: after a restore the four convoys are captured again (R137). A capture that faults, or that R134 no longer
allows, is a fault at the convoy that would issue. -/
def stepFrame (s : State) : Out State :=
  let st := me s
  if st.cap.length = 16 then stepReplay s
  else
    match captureConvoys s st st.rpt.rpc with
    | (.error (pc, c), s1) => trapAt s1 0 c pc
    | (.ok cs, s1) =>
      match badCapture (st.rpt.nstg + 1) st.rpt.map0 st.rpt.map1 0 cs with
      | some i => trapAt s1 (i % 4) cIllegal ((cs.getD i 0).setWidth 64)
      | none => stepReplay (putMe s1 { st with cap := cs })

/-- A convoy that waits goes on at the syllable that waits (R126). -/
def resumeConvoy (s : State) (h : Hold) : Out State :=
  let s1 := openConvoy { s with held := NMap.erase s.held s.cur } h.start h.mx h.words h.replay
  runSlots (renamer (me s) h.replay) (if h.replay then retireReplay else retire) h.pos h.words Trail.start (slotsOf (me s).trunk h.words) s1

/-- A strand's next convoy, or the one that waits; a late failure that has reached it comes first (R416). -/
def stepStrand (s : State) : Out State :=
  match lateFailure s s.cur, NMap.get? s.held s.cur with
  | some s1, _ => .next s1
  | none, some h => resumeConvoy s h
  | none, none => if (me s).rpt.active then stepFrame s else stepConvoy s

/-! Which strand issues (R290): the machine's choice. -/

/-- Whether a write to TLBINV waits in a strand's path queue for one of the sixteen places (R150). -/
def tlbHeld (s : State) (st : Strand) : Bool :=
  16 ≤ s.tlbInv.length && st.pq.any fun x => match itemAcc x with
    | some a => a.place == .window 0x7A208 && isWrite a
    | none => false

/-- Whether a strand can issue: it runs, or drains with a full queue behind which its convoy has not retired (R131), does not wait at a barrier or on
TLBINV; or it has a late failure to take. None of a held die does (R16, R23). The numbers 128 to 511 name no strand. -/
def canIssue (s : State) (sid : Nat) : Bool :=
  let st := strandOf s sid
  !(decide (128 ≤ sid) && decide (sid < 512)) &&
    (st.trunk || !pdHeld s) &&
    ((!st.late.isEmpty && takesLate st) ||
      ((st.run == .running || (st.run == .draining && overfull st)) && !st.barw && !tlbHeld s st))

/-- Whether a strand has given up the issue slots of the window that runs (R107, R290). -/
def yields (s : State) (sid : Nat) : Bool := (strandOf s sid).yielded == s.power.working / 4 + 1

/-- Whether a strand can issue, behind the others of its core where it has given up the issue slots (R290). -/
def eligible (s : State) (sid : Nat) : Bool :=
  canIssue s sid &&
    !(yields s sid && s.strands.any fun x => x.1 != sid && x.1 / 4 == sid / 4 && canIssue s x.1 && !yields s x.1)

/-- The strands that can issue, by number. -/
def eligibles (s : State) : List Nat := (s.strands.map (·.1)).filter (eligible s)

/-- The strand after a number that can issue, in turn. -/
def nextAfter (s : State) (sid : Nat) : Option Nat :=
  let l := eligibles s
  match l.find? fun x => decide (sid < x) with
  | some x => some x
  | none => l.head?

/-- The strand that issues: the one at `cur` if it can, else the next that can. -/
def issuer (s : State) : Option Nat := if eligible s s.cur then some s.cur else nextAfter s s.cur

/-- Chooses the strand that issues next: by the next of `sched.picks`; where none is left, in turn if the machine moves by itself. -/
def turnOver (s : State) : State :=
  match s.sched.picks with
  | p :: t =>
    let l := eligibles s
    { s with cur := l.getD (if l.length = 0 then 0 else p % l.length) s.cur, sched := { s.sched with picks := t } }
  | [] => if s.sched.eager then { s with cur := (nextAfter s s.cur).getD s.cur } else s

/-! The machine's own moves, made at every step while `sched.eager` is set. Log 36. -/

/-- The next arithmetic cycle: a working one where the frame allows it, else a bubble (R16, R17). -/
def nextCycle (s : State) : State :=
  match arithCycle s false with
  | some s1 => s1
  | none => (arithCycle s true).getD s

/-- Time passes by one cycle: a throttle interval that is over ends, then an arithmetic cycle and a reference cycle of every die (R18, R19, R70). -/
def tick (s : State) : State :=
  let s1 :=
    if 1024 ≤ s.power.frame then
      let (w, t) := takePick s 65536
      (throttleEnd t w).getD s
    else s
  (List.range 9).foldl (fun s d => (refCycle s d).getD s) (nextCycle s1)

/-- The moves of a queue's launches (R92 to R99). -/
def queueMoves (s : State) (q : Nat) : State :=
  let s1 := if canConsume (queueOf s q) then (consumePacket s q).getD s else s
  let each := fun (f : State → Nat → Nat → Option State) (s : State) => (queueOf s q).live.foldl (fun s l => (f s q l.id).getD s) s
  each launchComplete (each recordExpand (each launchReady s1))

/-- The moves of a die's dispatcher (R100 to R115), none in the shutdown hold (R23). -/
def dieMoves (s : State) (d : Nat) : State :=
  if pdHeld s then s
  else
  let s1 :=
    match chooseRec s d with
    | none => s
    | some (r, _) =>
      match firstPlace s r d with
      | none => s
      | some l => (dispatchStep s d l).getD s
  let s2 := s1.ready.foldl (fun s r => (preemptPrio s d r.order).getD s) ((agingStep s1 d).getD s1)
  let sids := (s2.strands.map (·.1)).filter fun x => x / 512 == d
  let s3 := sids.foldl (fun s x => (preemptQuantum s x).getD s) s2
  serveFaults (sids.foldl (fun s x => (preemptSave s x).getD s) s3) d

/-- Every move that the machine can make by itself. -/
def autoMoves (s : State) : State :=
  let s1 := eagerMoves (sendWaiting s)
  let s2 := (s1.queues.map (·.1)).foldl queueMoves s1
  let s3 := (List.range 8).foldl (fun s d => dieMoves s (d + 1)) s2
  let s4 := (tlbFinish s3).getD s3
  let s5 := (snapMatch s4).getD s4
  (s5.tenants.map (·.1)).foldl (fun s t => (tenantComplete s t).getD s) s5

/-- What a step has brought about by itself: answers on pages of this package's own id, the records of the collectives that have begun, and the text that
goes again. -/
def settleStep (s : State) : State := resendsGo (collStarts (answerOwns s))

/-- What follows a convoy or an idle step. -/
def afterStep (s : State) : State :=
  let s1 := settleStep s
  if s1.sched.eager then turnOver (settleStep (autoMoves (tick s1))) else turnOver s1

/-! The step. -/

/-- Whether an instruction is an event that stands in the agenda: the rows that have no encoding, but for ILLEGAL_INSTRUCTION, which a fetched
syllable raises. -/
def isEvent (i : Instr) : Bool := (encodeNat i).isNone && i != .illegalInstruction

/-- A load leaves ahead of its turn where PATH_QUEUE_LEAVE asks for it, an atomic where ATOMIC_PERFORM does (R130, R159). -/
def serveLook (s : State) (a : Arg) : Out State :=
  match s.look, a with
  | none, _ => .next s
  | some l, .n2 sid _ =>
    let s1 := { s with look := none }
    match if canIssue s1 sid then leaveAhead s1 sid (l.left.getD 0) l.atom else none with
    | some s2 => .next s2
    | none => .refused (.notEnabled (if l.atom then "ATOMIC_PERFORM" else "PATH_QUEUE_LEAVE"))
  | some _, _ => .refused (.notEnabled "PATH_QUEUE_LEAVE")

/-- An event of the agenda takes place. Without power only a package reset can (R60). -/
def stepEvent (s : State) (i : Instr) (a : Arg) (t : List (Instr × Arg)) : Out State :=
  let s1 := { s with sched := { s.sched with agenda := t }, arg := a }
  if !isEvent i then .refused (.notEnabled "agenda")
  else if !s.powered && i != .packageReset then .fault .powerOff
  else
    match exec i s1 with
    | .next s2 =>
      match serveLook s2 a with
      | .next s3 => .next (settleStep (if s3.sched.eager && s3.powered then autoMoves (settleStep s3) else s3))
      | r => r
    | .fault f => .fault f
    | .refused r => .refused r

/-- The next convoy of the strand whose turn it is; a package in which no strand can issue lets time pass. -/
def stepIssue (s : State) : Out State :=
  match issuer s with
  | none => .next (afterStep s)
  | some c =>
    match stepStrand { s with cur := c } with
    | .next s1 => .next (afterStep s1)
    | .fault f => .fault f
    | .refused r => .refused r

/-- One step: the boot that a reset leaves to run, the next event, or a convoy. -/
def stepPackage (s : State) : Out State :=
  match s.sched.agenda with
  | (i, a) :: t => stepEvent s i a t
  | [] =>
    if !s.powered then .fault .powerOff
    else if s.sec.boot = .pending then .next (bootRun (strapCheck s))
    else stepIssue s

/-! Placing an instruction where the next step fetches it. Log 37. -/

/-- Whether the strand at `cur` is a P- or D-die strand that issues its next convoy from memory of this package. -/
def fetchReady (s : State) : Bool :=
  let st := me s
  !st.trunk && eligible s s.cur && st.late.isEmpty && !st.rpt.active && (NMap.get? s.held s.cur).isNone &&
    match checkScalar s st .fetch 16 st.pc with
    | .ok (.mem loc _) => !readPoisoned s st.die loc 16 && !vacatedFrame s loc
    | _ => false

/-- Writes bytes at a location of every view. -/
def placeBytes (s : State) (loc : Nat) (b : List Byte) : State :=
  { s with ord := { s.ord with views := s.ord.views.map fun m => Memory.setBytes m loc b } }

/-- The strand of `bareStrand`: die 5, core 0, slot 0. -/
def bareSid : Nat := 2560

/-- A strand of tenant 0 as it is dispatched (R106), at the first convoy of a page that its tenant can read, write and execute. -/
def bareStrand (s : State) : Strand := freshStrand s { Record.none with code := 0, count := 1 } 0 0 bareSid

/-- Page tables that map the first 64 KiB of tenant 0's address space to frame 16 of die 5 (R143 to R145, R148): five tables, each of them read at
index 0. -/
def barePages (s : State) : State :=
  let tbl := fun n => 0x10000 + 0x1000 * n
  let entry := fun n => bytesOf 8 (5 * 2 ^ 52 + tbl n + 1)
  let s1 := (List.range 4).foldl (fun s n => placeBytes s (memLoc 5 (tbl n)) (entry (n + 1))) s
  let s2 := placeBytes s1 (memLoc 5 (tbl 4)) (bytesOf 8 (16 * 2 ^ 24 + 5 * 2 ^ 20 + 0xF))
  { s2 with tnroot := NMap.set s2.tnroot 0 (wordOf (5 * 2 ^ 52 + tbl 0 + 1)) }

/-- A machine that has booted and whose strand at `cur` fetches its next convoy. -/
def readyToFetch (s : State) : State :=
  let s1 :=
    { s with
      powered := true
      sched := { s.sched with agenda := [], eager := false }
      sec := { s.sec with boot := .done, wiped := true, runFw := true } }
  if fetchReady s1 then s1
  else
    let s2 := { barePages s1 with cur := bareSid, held := NMap.erase s1.held bareSid, tlb := [], power := { s1.power with shut := false, inBubble := false } }
    putStrand s2 bareSid (bareStrand s2)

/-- Where the strand at `cur` fetches. -/
def fetchLoc (s : State) : Nat :=
  match checkScalar s (me s) .fetch 16 (me s).pc with
  | .ok (.mem loc _) => loc
  | _ => 0

/-- Puts a word in slot 0 of the convoy that the next step fetches, with the other slots empty; the core holds no line of its own. -/
def placeWord (s : State) (w : BitVec 32) : State :=
  let s0 := readyToFetch s
  let s1 := { s0 with icache := NMap.erase s0.icache (s0.cur / 4) }
  placeBytes s1 (fetchLoc s1) (bytesOf 4 w.toNat ++ List.replicate 12 0)

end Sys2Proof.Machine
end

