-- ==== Sys2Proof/Machine/Step.lean ====
section
/-! DEFINITION. The step of the machine, and an instruction placed where it fetches next. -/

namespace Sys2Proof.Machine

/-- One step of the package. -/
def step (s : State) : Host.Outcome State Fault Refusal := stepPackage s

/-- The machine with an instruction stored where the next step fetches it (log 37): every syllable is one 32-bit word (R1). -/
def State.withFetchWord (s : State) (nbits w : Nat) : State := placeWord s (bytesWord (wordBytes (w % 2 ^ nbits)))

end Sys2Proof.Machine
end

