-- ==== Sys2Proof/Safety.lean ====
section
/-! DEFINITION. The terms in which claims are made: what one instruction changes and what it leaves, the results that the spec's tables
give, and the invariants. -/

namespace Sys2Proof.Machine

/-! ## Frames -/

/-- Whether every view and the scratchpads of an ordering machine are in canonical form. -/
abbrev CanonicalOrd (o : Ordering_) : Prop := (∀ m ∈ o.views, Memory.wf m = true) ∧ Memory.wf o.spad = true

/-- Every byte that any die sees, and every byte of the scratchpads, reads as before. -/
def SameMemory (s t : State) : Prop :=
  (∀ d a, Memory.get (viewOf t.ord d) a = Memory.get (viewOf s.ord d) a) ∧ ∀ a, Memory.get t.ord.spad a = Memory.get s.ord.spad a

/-- Nothing changes but the strand whose convoy issues. -/
def OnlyMe (s t : State) : Prop :=
  { t with strands := s.strands } = s ∧ (∀ k, k ≠ s.cur → strandOf t k = strandOf s k) ∧ SameMemory s t

/-- The strand whose convoy issues becomes `st`, and nothing else changes. -/
def MeBecomes (s t : State) (st : Strand) : Prop := OnlyMe s t ∧ me t = st

/-- The scalar registers after a write of v to s[sd]: s0 reads 0 (R121), every other register keeps its value. -/
def RegsAfter (s t : State) (sd : BitVec 5) (v : Word) : Prop :=
  ∀ r : BitVec 5, getS t r = if r = 0 then 0 else if r = sd then v else getS s r

/-- An instruction whose whole effect is to write v to s[sd]. -/
def WritesReg (s t : State) (sd : BitVec 5) (v : Word) : Prop :=
  OnlyMe s t ∧ { me t with regs := (me s).regs } = me s ∧ RegsAfter s t sd v

/-- An instruction whose whole effect is to write v to s[sd] and to accrue flags in FFLAGS (R185). -/
def WritesRegFlags (s t : State) (sd : BitVec 5) (v : Word) (fl : FFlags) : Prop :=
  OnlyMe s t ∧ { me t with regs := (me s).regs, fflags := (me s).fflags } = me s ∧ RegsAfter s t sd v ∧
    (me t).fflags = (me s).fflags ||| fl

/-! ## Results of the scalar tables (R277 to R281) -/

/-- 1 or 0. -/
def truth (p : Prop) [Decidable p] : Word := if p then 1#64 else 0#64

/-- The number of zero bits above the highest set bit; 64 for 0. -/
def leadingZeros (n : Nat) : Nat := if n = 0 then 64 else 63 - Nat.log2 n

/-- The position of the lowest set bit; 64 for 0. -/
def trailingZeros (n : Nat) : Nat := ((List.range 64).find? n.testBit).getD 64

/-- The number of set bits. -/
def setBits (n : Nat) : Nat := ((List.range 64).filter n.testBit).length

/-- The field that bfx and bfxn extract (R279). -/
def bitField (x : Word) (off wid : Nat) : Nat := x.toNat / 2 ^ off % 2 ^ wid

/-- The field sign-extended from bit wid − 1; 0 when wid = 0 (R279). -/
def signedField (x : Word) (off wid : Nat) : Int :=
  if wid = 0 then 0
  else if bitField x off wid < 2 ^ (wid - 1) then (bitField x off wid : Int)
  else (bitField x off wid : Int) - 2 ^ wid

/-- The width that a register gives (R279): bits 6:0, at most 64. -/
def regWidth (w : Word) : Nat := min (w.toNat % 128) 64

/-- The destination and the result of the scalar integer instructions (R277 to R279), but for the bit-field inserts, from the values of
the registers that they read. `pc` is the address of the holding convoy. -/
def scalarResult (get : BitVec 5 → Word) (pc : Word) : Instr → Option (BitVec 5 × Word)
  | .add o => some (o.sd, BitVec.ofNat 64 ((get o.sa).toNat + (get o.sb).toNat))
  | .sub o => some (o.sd, BitVec.ofInt 64 ((get o.sa).toInt - (get o.sb).toInt))
  | .mul o => some (o.sd, BitVec.ofNat 64 ((get o.sa).toNat * (get o.sb).toNat))
  | .mulh o => some (o.sd, BitVec.ofInt 64 ((get o.sa).toInt * (get o.sb).toInt / 2 ^ 64))
  | .mulhn o => some (o.sd, BitVec.ofNat 64 ((get o.sa).toNat * (get o.sb).toNat / 2 ^ 64))
  | .div o => some (o.sd, if get o.sb = 0 then 0xFFFFFFFFFFFFFFFF#64 else BitVec.ofInt 64 ((get o.sa).toInt.tdiv (get o.sb).toInt))
  | .divn o => some (o.sd, if get o.sb = 0 then 0xFFFFFFFFFFFFFFFF#64 else BitVec.ofNat 64 ((get o.sa).toNat / (get o.sb).toNat))
  | .rem o => some (o.sd, if get o.sb = 0 then get o.sa else BitVec.ofInt 64 ((get o.sa).toInt.tmod (get o.sb).toInt))
  | .remn o => some (o.sd, if get o.sb = 0 then get o.sa else BitVec.ofNat 64 ((get o.sa).toNat % (get o.sb).toNat))
  | .and o => some (o.sd, get o.sa &&& get o.sb)
  | .or o => some (o.sd, get o.sa ||| get o.sb)
  | .xor o => some (o.sd, get o.sa ^^^ get o.sb)
  | .sll o => some (o.sd, BitVec.ofNat 64 ((get o.sa).toNat * 2 ^ ((get o.sb).toNat % 64)))
  | .srl o => some (o.sd, BitVec.ofNat 64 ((get o.sa).toNat / 2 ^ ((get o.sb).toNat % 64)))
  | .sra o => some (o.sd, BitVec.ofInt 64 ((get o.sa).toInt / 2 ^ ((get o.sb).toNat % 64)))
  | .slt o => some (o.sd, truth ((get o.sa).toInt < (get o.sb).toInt))
  | .sltn o => some (o.sd, truth ((get o.sa).toNat < (get o.sb).toNat))
  | .min o => some (o.sd, BitVec.ofInt 64 (min (get o.sa).toInt (get o.sb).toInt))
  | .max o => some (o.sd, BitVec.ofInt 64 (max (get o.sa).toInt (get o.sb).toInt))
  | .minn o => some (o.sd, BitVec.ofNat 64 (min (get o.sa).toNat (get o.sb).toNat))
  | .maxn o => some (o.sd, BitVec.ofNat 64 (max (get o.sa).toNat (get o.sb).toNat))
  | .clz o => some (o.sd, BitVec.ofNat 64 (leadingZeros (get o.sa).toNat))
  | .ctz o => some (o.sd, BitVec.ofNat 64 (trailingZeros (get o.sa).toNat))
  | .popc o => some (o.sd, BitVec.ofNat 64 (setBits (get o.sa).toNat))
  | .sel o => some (o.sd, if get o.sd ≠ 0 then get o.sa else get o.sb)
  | .addi o => some (o.sd, BitVec.ofInt 64 ((get o.sa).toInt + o.imm.toInt))
  | .andi o => some (o.sd, get o.sa &&& BitVec.ofNat 64 o.imm.toNat)
  | .ori o => some (o.sd, get o.sa ||| BitVec.ofNat 64 o.imm.toNat)
  | .xori o => some (o.sd, get o.sa ^^^ BitVec.ofNat 64 o.imm.toNat)
  | .slti o => some (o.sd, truth ((get o.sa).toInt < o.imm.toInt))
  | .sltin o => some (o.sd, truth ((get o.sa).toNat < (BitVec.ofInt 64 o.imm.toInt).toNat))
  | .lui o => some (o.sd, BitVec.ofInt 64 (o.imm.toInt * 2 ^ 16))
  | .addpc o => some (o.sd, pc + BitVec.ofInt 64 (16 * o.imm.toInt))
  | .sllImm o => some (o.sd, BitVec.ofNat 64 ((get o.sa).toNat * 2 ^ o.off.toNat))
  | .srlImm o => some (o.sd, BitVec.ofNat 64 ((get o.sa).toNat / 2 ^ o.off.toNat))
  | .sraImm o => some (o.sd, BitVec.ofInt 64 ((get o.sa).toInt / 2 ^ o.off.toNat))
  | .bfx o => some (o.sd, BitVec.ofInt 64 (signedField (get o.sa) o.off.toNat o.wid.toNat))
  | .bfxn o => some (o.sd, BitVec.ofNat 64 (bitField (get o.sa) o.off.toNat o.wid.toNat))
  | .bfxReg o => some (o.sd, BitVec.ofInt 64 (signedField (get o.sa) o.off.toNat (regWidth (get o.rw))))
  | .bfxnReg o => some (o.sd, BitVec.ofNat 64 (bitField (get o.sa) o.off.toNat (regWidth (get o.rw))))
  | _ => none

/-- Bit k after a bit-field insert (R279): bits off to min(off + wid, 64) − 1 come from the low bits of x, the rest stay. -/
def insertedBit (d x : Word) (off wid k : Nat) : Bool :=
  if off ≤ k ∧ k < min (off + wid) 64 then x.getLsbD (k - off) else d.getLsbD k

/-- The destination, the result and the flags of the scalar f32 instructions (R280, R281): the f32 operands are bits 31:0 of the
registers. -/
def scalarFpResult (get : BitVec 5 → Word) : Instr → Option (BitVec 5 × (Nat × FFlags))
  | .fadd o => some (o.sd, fpAdd f32 (rmOf o.mode) (fpOf f32 ((get o.sa).toNat % 2 ^ 32)) (fpOf f32 ((get o.sb).toNat % 2 ^ 32)))
  | .fsub o => some (o.sd, fpSub f32 (rmOf o.mode) (fpOf f32 ((get o.sa).toNat % 2 ^ 32)) (fpOf f32 ((get o.sb).toNat % 2 ^ 32)))
  | .fmul o => some (o.sd, fpMul f32 (rmOf o.mode) (fpOf f32 ((get o.sa).toNat % 2 ^ 32)) (fpOf f32 ((get o.sb).toNat % 2 ^ 32)))
  | .ffma o => some (o.sd, fpFma f32 (rmOf o.mode) (fpOf f32 ((get o.sa).toNat % 2 ^ 32)) (fpOf f32 ((get o.sb).toNat % 2 ^ 32))
      (fpOf f32 ((get o.sd).toNat % 2 ^ 32)))
  | .fsqrt o => some (o.sd, fpSqrt f32 (rmOf o.mode) (fpOf f32 ((get o.sa).toNat % 2 ^ 32)))
  | .fmin o => some (o.sd, fpMinMax f32 false (fpOf f32 ((get o.sa).toNat % 2 ^ 32)) (fpOf f32 ((get o.sb).toNat % 2 ^ 32)))
  | .fmax o => some (o.sd, fpMinMax f32 true (fpOf f32 ((get o.sa).toNat % 2 ^ 32)) (fpOf f32 ((get o.sb).toNat % 2 ^ 32)))
  | .fcmp o =>
    let r := fcmp o.cond.toNat (fpOf f32 ((get o.sa).toNat % 2 ^ 32)) (fpOf f32 ((get o.sb).toNat % 2 ^ 32))
    some (o.sd, (boolN r.1, r.2))
  | .fcvt o =>
    let r := fcvtRes o.conv.toNat (rmOf o.mode) (get o.sa)
    some (o.sd, (r.1.toNat, r.2))
  | _ => none

/-! ## Accesses -/

/-- The syllable in progress issues for the first time: no run ahead is in progress, and nothing that the strand holds was read before its turn or
stands for what the syllable has done (R130, R161, R178). -/
def Fresh (s : State) : Prop := s.look = none ∧ (me s).early = [] ∧ ∀ e, answerOf (me s) s.slot e = none

/-- A strand with nothing for a release to wait for: its issue stream is empty, its copies have landed, its accesses to other packages have been
answered, and it has no late failure to take (R171, R179, R416). -/
abbrev Quiet (st : Strand) : Prop := streamOf st = [] ∧ copying st (2 ^ 64) = false ∧ unanswered st none = false ∧ st.late = []

/-- A place of this package's memory: its location and its home die. -/
def memPlace : Place → Option (Nat × Nat)
  | .mem loc home => some (loc, home)
  | .own loc home => some (loc, home)
  | _ => none

/-- The strand with more items at the end of its issue stream; elements of a vector access carry the number of their syllable. -/
def withItems (st : Strand) (l : List QItem) : Strand := { st with wbuf := st.wbuf ++ l, nextGrp := lastGroup st l }

/-- The issuing strand adds an item to its issue stream, its TLB may take the leaf of an address, and nothing else changes (R149, R161). -/
def Queues (s t : State) (x : QItem) : Prop :=
  OnlyMe { s with tlb := t.tlb } t ∧ { me t with wbuf := (me s).wbuf } = me s ∧ (me t).wbuf = (me s).wbuf ++ [x]

/-- Whether the RED form in progress has performed before its turn: while its convoy waited, before its strand stopped, or in a run ahead; or has
entered its path queue (R159, R161, R416). -/
def performedBefore (s : State) : Bool :=
  (doneBefore s noteElem).isSome || (doneBefore s aheadElem).isSome || hasEntered (me s) s.slot

/-- What an instruction that cannot be rolled back has done stands from now on (R393): a fault later in the convoy goes back to the memory of `t`. -/
def StandsNow (s t : State) : Prop :=
  t.convoy.isSome = s.convoy.isSome ∧ ∀ c, t.convoy = some c → c.ord.views = t.ord.views ∧ c.ord.spad = t.ord.spad

/-- What a read of n bytes at a place of this package gives: none where it meets poison (R69), and for a place on another package. -/
def localBytes (s : State) (p : Place) (n : Nat) : Option (List Byte) :=
  match p with
  | .mem loc _ => if readPoisoned s (me s).die loc n then none else some (memRead s (me s).die loc n)
  | .own loc home => if readPoisoned s home loc n then none else some (memRead s home loc n)
  | .spad key => if spadPoisoned s.ord key n then none else some (Memory.getBytes s.ord.spad key n)
  | .window off => some (bytesOf 8 (windowRead s off).toNat)
  | .peer _ _ => none

/-- The value that a load of a size code brings (R256): little-endian, sign-extended for codes 4 to 6. -/
def loadedValue (sz : BitVec 3) (b : List Byte) : Word :=
  if 4 ≤ sz.toNat then BitVec.ofInt 64 (signedN (8 * b.length) (numOf b)) else BitVec.ofNat 64 (numOf b)

/-- The operation, the bytes, the destination, the address and operand registers, the order and the scope of an atomic that returns its old
value (R283, R285). -/
def amoForm : Instr → Option (AtomOp × Nat × BitVec 5 × BitVec 5 × BitVec 5 × BitVec 2 × BitVec 3)
  | .amoadd o => some (.add, szDbl o.dbl, o.sd, o.sa, o.sb, o.ord, o.scope)
  | .amoswap o => some (.swap, szDbl o.dbl, o.sd, o.sa, o.sb, o.ord, o.scope)
  | .amocas o => some (.cas, szDbl o.dbl, o.sd, o.sa, o.sb, o.ord, o.scope)
  | .amoand o => some (.and, szDbl o.dbl, o.sd, o.sa, o.sb, o.ord, o.scope)
  | .amoor o => some (.or, szDbl o.dbl, o.sd, o.sa, o.sb, o.ord, o.scope)
  | .amoxor o => some (.xor, szDbl o.dbl, o.sd, o.sa, o.sb, o.ord, o.scope)
  | .amomax o => some (.max, szDbl o.dbl, o.sd, o.sa, o.sb, o.ord, o.scope)
  | .amomin o => some (.min, szDbl o.dbl, o.sd, o.sa, o.sb, o.ord, o.scope)
  | .amomaxn o => some (.maxn, szDbl o.dbl, o.sd, o.sa, o.sb, o.ord, o.scope)
  | .amominn o => some (.minn, szDbl o.dbl, o.sd, o.sa, o.sb, o.ord, o.scope)
  | .amoaddF32 o => some (.addF32, 4, o.sd, o.sa, o.sb, o.ord, o.scope)
  | .amomaxF32 o => some (.maxF32, 4, o.sd, o.sa, o.sb, o.ord, o.scope)
  | .amominF32 o => some (.minF32, 4, o.sd, o.sa, o.sb, o.ord, o.scope)
  | _ => none

/-- The operation, the bytes, the address and operand registers, the order and the scope of a RED form (R283). -/
def redForm : Instr → Option (AtomOp × Nat × BitVec 5 × BitVec 5 × BitVec 2 × BitVec 3)
  | .redadd o => some (.add, szDbl o.dbl, o.sa, o.sb, o.ord, o.scope)
  | .redswap o => some (.swap, szDbl o.dbl, o.sa, o.sb, o.ord, o.scope)
  | .redand o => some (.and, szDbl o.dbl, o.sa, o.sb, o.ord, o.scope)
  | .redor o => some (.or, szDbl o.dbl, o.sa, o.sb, o.ord, o.scope)
  | .redxor o => some (.xor, szDbl o.dbl, o.sa, o.sb, o.ord, o.scope)
  | .redmax o => some (.max, szDbl o.dbl, o.sa, o.sb, o.ord, o.scope)
  | .redmin o => some (.min, szDbl o.dbl, o.sa, o.sb, o.ord, o.scope)
  | .redmaxn o => some (.maxn, szDbl o.dbl, o.sa, o.sb, o.ord, o.scope)
  | .redminn o => some (.minn, szDbl o.dbl, o.sa, o.sb, o.ord, o.scope)
  | .redaddF32 o => some (.addF32, 4, o.sa, o.sb, o.ord, o.scope)
  | .redmaxF32 o => some (.maxF32, 4, o.sa, o.sb, o.ord, o.scope)
  | .redminF32 o => some (.minF32, 4, o.sa, o.sb, o.ord, o.scope)
  | _ => none

/-- What a scalar access does, its bytes and its address (R282, R283). -/
def scalarAccess (s : State) (i : Instr) : Option (Acc × Nat × Word) :=
  match i with
  | .ld o => some (.load, accSize o.sz, getS s o.sa + o.imm.signExtend 64)
  | .st o => some (.store, accSize o.sz, getS s o.sa + o.imm.signExtend 64)
  | i =>
    match amoForm i, redForm i with
    | some (_, n, _, sa, _), _ => some (.atomic, n, getS s sa)
    | _, some (_, n, sa, _) => some (.atomic, n, getS s sa)
    | _, _ => none

/-- The new value of an atomic on n-byte values that holds `old` with operand v, and expected value e for CAS (R283, R284); none where it
writes nothing. -/
def atomicResult (op : AtomOp) (n : Nat) (old v e : Nat) : Option Nat :=
  match op with
  | .add => some ((old + v) % 2 ^ (8 * n))
  | .swap => some v
  | .cas => if old = e then some v else none
  | .and => some (old &&& v)
  | .or => some (old ||| v)
  | .xor => some (old ^^^ v)
  | .max => some (if signedN (8 * n) old < signedN (8 * n) v then v else old)
  | .min => some (if signedN (8 * n) v < signedN (8 * n) old then v else old)
  | .maxn => some (max old v)
  | .minn => some (min old v)
  | op => (atomNew op (8 * n) old v e).1

/-- The flags of an atomic (R284): those of the f32 addition rounded to nearest even, NV for a signalling NaN of the f32 selections, none for the
integer forms. -/
def atomicFlags (op : AtomOp) (old v : Nat) : FFlags :=
  match op with
  | .addF32 => (fpAdd f32 .rne (fpOf f32 old) (fpOf f32 v)).2
  | .maxF32 => nvSNaN [fpOf f32 old, fpOf f32 v]
  | .minF32 => nvSNaN [fpOf f32 old, fpOf f32 v]
  | _ => 0

/-! ## Control -/

/-- Whether a branch is taken, and its offset in convoys (R287). -/
def branchRule (get : BitVec 5 → Word) : Instr → Option (Bool × BitVec 16)
  | .beq o => some (decide (get o.sa = get o.sb), o.off)
  | .bne o => some (decide (get o.sa ≠ get o.sb), o.off)
  | .blt o => some (decide ((get o.sa).toInt < (get o.sb).toInt), o.off)
  | .bge o => some (decide ((get o.sb).toInt ≤ (get o.sa).toInt), o.off)
  | .bltn o => some (decide ((get o.sa).toNat < (get o.sb).toNat), o.off)
  | .bgen o => some (decide ((get o.sb).toNat ≤ (get o.sa).toNat), o.off)
  | _ => none

/-- The trunk strand that an exception leaves (R297): CAUSE, EPC and EVAL written, TH set, fetch at TVEC. -/
def trunkEntry (st : Strand) (slot cause : Nat) (eval : Word) : Strand :=
  { st with cause := BitVec.ofNat 64 cause, epc := BitVec.ofNat 64 (st.pc.toNat / 16 * 16 + slot % 4), eval := eval, th := true,
            pc := BitVec.ofNat 64 (st.tvec.toNat / 16 * 16), npc := BitVec.ofNat 64 (st.tvec.toNat / 16 * 16) }

/-! ## Exceptions of P- and D-die strands, and the end of a strand -/

/-- The physical address of the next record of a die's fault ring (R112). -/
def ringSlot (x : Dispatcher) : Nat := x.fltBase.toNat / 4096 * 4096 + 64 * (x.fltHead % 2 ^ x.fltSize)

/-- A P- or D-die strand that its die can save as soon as it stops (R109, R113): it is its whole record and holds no save slot, its die's fault ring
is enabled and has room, no other strand of the package has stopped, its convoy does not wait, and nothing of it is outstanding. -/
abbrev Stopping (s : State) : Prop :=
  (me s).trunk = false ∧ (me s).die ≤ 8 ∧ (me s).sid = s.cur ∧ gangOf s (me s) = [me s] ∧ NMap.get? s.held s.cur = none ∧ pdHeld s = false ∧
    (dispOf s (me s).die).fltEn = true ∧ 0 < ringRoom (dispOf s (me s).die) ∧ (me s).rec_.slots = [] ∧ (me s).wbuf = [] ∧ (me s).answers = [] ∧
    drained s (me s) = true ∧ (me s).marks = [] ∧ (∀ x ∈ s.strands, x.2.run ≠ .stopped) ∧ CanonicalOrd s.ord

/-- The 64 bytes of a fault record of the issuing strand (R112): cause c, EVAL ev, element n, of a kind and with a save slot number. -/
def FaultRecord (b : List Byte) (s : State) (c : Nat) (ev : Word) (n kind slot : Nat) : Prop :=
  let st := me s
  b.length = 64 ∧ leAt b 0 1 = c % 2 ^ 8 ∧ leAt b 1 1 = kind ∧ leAt b 2 1 = st.rec_.tenant % 2 ^ 8 ∧ leAt b 3 1 = s.slot % 4 ∧
    leAt b 4 4 = st.rec_.launch % 2 ^ 32 ∧ leAt b 8 8 = st.pc.toNat / 16 * 16 + s.slot % 4 ∧ leAt b 16 8 = ev.toNat ∧
    leAt b 24 4 = st.vstart % 2 ^ 32 ∧ leAt b 28 2 = strandSrc st % 2 ^ 16 ∧ leAt b 30 2 = slot % 2 ^ 16 ∧ leAt b 32 4 = 0 ∧
    leAt b 36 4 = n % 2 ^ 32 ∧ leAt b 40 8 = tscOf s st.die ∧ leAt b 48 1 = st.rank % 2 ^ 8 ∧
    leAt b 49 1 = (if st.rec_.gang then st.rec_.gsize else 0) % 2 ^ 8 ∧ leAt b 50 14 = 0

/-- What the fixed part of a save slot says of the issuing strand after an exception with cause c and EVAL ev (R101, R115): word 0 of its record with
RESUME set, CAUSE, EPC, VSTART and the scalar registers. -/
def SavedContext (b : List Byte) (s : State) (c : Nat) : Prop :=
  let st := me s
  leAt b 0 8 = (st.rec_.code.toNat / 16 * 16 + (if st.rec_.gang then 8 else 0) + st.rec_.share % 4 * 2 + 1) % 2 ^ 64 ∧
    leAt b 0x20 8 = c % 2 ^ 64 ∧ leAt b 0x28 8 = st.pc.toNat / 16 * 16 + s.slot % 4 ∧ leAt b 0x30 8 = st.vstart % 2 ^ 64 ∧
    ∀ r, r < 32 → r < st.regs.length → leAt b (0x40 + 8 * r) 8 = (st.regs.getD r 0).toNat

/-- What the end of the issuing strand leaves before the die serves the faults that wait (R98, R115, R199, R289): the strand slot is idle, with its
index partition; its array slices and its save slot are free; every byte of memory stays but for the convoy's trace records. Of its child
cell, with parent J: rank 0, or the first strand to end, sets the continuation, which is 'subtract 1 from J', or to enqueue the successor;
the count falls by 1; at zero the cell is free and the continuation runs. -/
def Ended (s u : State) (succ : Option Record) : Prop :=
  let st := me s
  strandOf u s.cur = Strand.idle s.cur (s.cur < 512) ∧ holdOf u st = none ∧
    (∀ ck, ck ≠ st.clusterKey → NMap.getD u.mx ck [] = NMap.getD s.mx ck []) ∧
    (NMap.getD u.mx st.clusterKey []).filter (fun h => !(h.owner == mxOwner st && h.rank == st.rank)) =
      (NMap.getD s.mx st.clusterKey []).filter (fun h => !(h.owner == mxOwner st && h.rank == st.rank)) ∧
    (∀ n, ownSlot s st = some n → NMap.get? (dispOf u st.die).saved n = none) ∧ SameMemory (writeMarks s) u ∧
    ∀ c x, st.rec_.child = some c → NMap.get? s.cells c = some x →
      (1 < x.count → u.ready = s.ready ∧ NMap.get? u.cells c = some { x with
        count := x.count - 1
        cont := if st.rank = 0 ∨ x.cont = .unset then
            match succ with
            | some r => .enqueue r
            | none => .subParent st.rec_.parent
          else x.cont }) ∧
      (x.count ≤ 1 → NMap.get? u.cells c = none ∧
        (st.rank = 0 ∨ x.cont = .unset →
          match succ with
          | some r => u.ready = s.ready ++ [{ r with readyAt := s.power.working, order := s.orderNo, passed := [] }]
          | none => ∀ y, st.rec_.parent ≠ c → NMap.get? s.cells st.rec_.parent = some y → 1 < y.count →
              NMap.get? u.cells st.rec_.parent = some { y with count := y.count - 1 } ∧ u.ready = s.ready))

/-- Whether the issuing strand's DONE can end it at once (R289): a P- or D-die strand under its own number with nothing under way, no late failure,
and idle tokens. -/
abbrev Ending (s : State) : Prop :=
  (me s).trunk = false ∧ (me s).sid = s.cur ∧ streamOf (me s) = [] ∧ unanswered (me s) none = false ∧ overfull (me s) = false ∧
    (me s).late = [] ∧ ∀ k, k < 8 → (tokOf (me s) k).busy = false ∧ (tokOf (me s) k).pend = false

/-! ## Trunk strands -/

/-- The syllables that a trunk strand may not use (R121, R261): those of the vector, queue, matrix and index state, REPF, GATHSP, and the race
syllables that read or write vector state; RCDROP only where it writes a predicate. -/
def barsTrunk : Instr → Bool
  | .repf _ | .vcfg _ | .vsetl _ | .vgetl _ | .vsett _ | .vadd _ | .vsub _ | .vmul _ | .vmulh _ | .vmin _ | .vmax _ | .vabsd _
  | .vsadd _ | .vand _ | .vor _ | .vxor _ | .vssub _ | .vsll _ | .vsrl _ | .vsra _ | .vmv _ | .vclz _ | .viota _ | .vfadd _
  | .vfsub _ | .vfmul _ | .vffma _ | .vfmin _ | .vfmax _ | .vfdiv _ | .vfscl _ | .vfsqrt _ | .vfexp _ | .vflog _ | .vfrcp _
  | .vfcvt _ | .vredsum _ | .vdot _ | .vscan _ | .vredmax _ | .vredmin _ | .vargmax _ | .veaadd _ | .earnd _ | .eald _ | .east _
  | .eaclr _ | .vperm _ | .vcompress _ | .vexpand _ | .vcmp _ | .vfcmp _ | .vsel _ | .pand _ | .por _ | .pxor _ | .pnot _
  | .ppopc _ | .pfirst _ | .vaddVs _ | .vsubVs _ | .vmulVs _ | .vmulhVs _ | .vminVs _ | .vmaxVs _ | .vabsdVs _ | .vsaddVs _
  | .vandVs _ | .vorVs _ | .vxorVs _ | .vssubVs _ | .vsllVs _ | .vsrlVs _ | .vsraVs _ | .vmvVs _ | .vfaddVs _ | .vfsubVs _
  | .vfmulVs _ | .vffmaVs _ | .vfminVs _ | .vfmaxVs _ | .vfdivVs _ | .vfsclVs _ | .vslideup _ | .vslidedn _ | .vcmpVs _
  | .vfcmpVs _ | .vbq _ | .vbdq _ | .fmtset _ | .vld _ | .vlds _ | .vst _ | .vsts _ | .vldxO _ | .vldxU _ | .vstxO _ | .vstxU _
  | .vamo _ | .vamoRet _ | .vldsc _ | .vstsc _ | .vldrot _ | .gathsp _ | .xins _ | .xlook _ | .xacc _ | .xclr _ | .xdrain _
  | .prune _ | .sphdr _ | .mxatt _ | .mxlds _ | .mxstrm _ | .mxdrain _ | .mxclr _ | .mxstat _ | .rcnoise _ | .rcbound _ | .mxdet
  | .mxswap => true
  | .rcdrop o => o.pd != 0
  | _ => false

/-! ## Vector instructions -/

/-- An element-wise instruction over the state it issues in: the source fields with their widths, the destination field and its width, which
elements are active, and the result and flags of an active element from its index, its source elements and the old destination element
(R301 to R304). -/
structure ElemForm where
  srcs : List (Nat × Nat)
  vd : Nat
  wd : Nat
  act : Nat → Bool
  res : Nat → List Nat → Nat → Nat × FFlags

/-- A strand that may move, and that waits for no die to apply what it did on a page of this package's own id (R16, R23, R178). -/
abbrev Unheld (s : State) : Prop := pdHeld s = false ∧ (∀ o ∈ (me s).outst, o.clock = []) ∧ ∀ a ∈ (me s).answers, a.clock = []

/-- Whether every field of a form is a queue or a register of the budget that is wide enough (R301). -/
def ElemForm.fits (F : ElemForm) (st : Strand) : Bool := (F.srcs.all fun x => fieldFits st x.1 x.2) && fieldFits st F.vd F.wd

/-- The elements that an element-wise instruction writes: VL of them, each with its mark and its flags. -/
def ElemForm.elems (F : ElemForm) (st : Strand) (srcs : List (List Nat)) : List ((Nat × FFlags) × Bool) :=
  (List.range st.vl).map fun k =>
    if F.act k then (F.res k (srcs.map fun l => l.getD k 0) (((if F.vd < 56 then st.vregs.getD F.vd [] else []).getD k 0).toNat % 2 ^ F.wd), true)
    else ((0, 0), false)

/-- The strand after an element-wise instruction: the elements go to the destination, the flags of the active ones accrue (R185, R304). -/
def ElemForm.after (F : ElemForm) (st st1 : Strand) (srcs : List (List Nat)) : Strand :=
  let es := F.elems st srcs
  { vdst st1 F.vd F.wd (es.map fun e => (e.1.1, e.2)) with fflags := st1.fflags ||| orFlags (es.map fun e => e.1.2) }

/-- The form of a VV instruction over the slot's type. -/
def vvForm (s : State) (o : V3) (cls : Nat → Bool) (g : Nat → Nat → Nat → Nat → Nat × FFlags) : Option ElemForm :=
  let c := slotTy (me s) o.ts
  if cls c then
    some { srcs := [(o.va.toNat, tyWidth c), (o.vb.toNat, tyWidth c)], vd := o.vd.toNat, wd := tyWidth c, act := predBit (me s) o.m.toNat,
           res := fun _ l old => g c (l.getD 0 0) (l.getD 1 0) old }
  else none

/-- The form of a VS instruction over the slot's type: the second source of every element is the low bits of s[ss] (R303). -/
def vsForm (s : State) (o : Vs3) (cls : Nat → Bool) (g : Nat → Nat → Nat → Nat → Nat × FFlags) : Option ElemForm :=
  let c := slotTy (me s) o.ts
  if cls c then
    some { srcs := [(o.va.toNat, tyWidth c)], vd := o.vd.toNat, wd := tyWidth c, act := predBit (me s) o.m.toNat,
           res := fun _ l old => g c (l.getD 0 0) ((getS s o.ss).toNat % 2 ^ tyWidth c) old }
  else none

/-- The form of a unary instruction over the slot's type. -/
def vuForm (s : State) (o : V2) (cls : Nat → Bool) (g : Nat → Nat → Nat × FFlags) : Option ElemForm :=
  let c := slotTy (me s) o.ts
  if cls c then
    some { srcs := [(o.va.toNat, tyWidth c)], vd := o.vd.toNat, wd := tyWidth c, act := predBit (me s) o.m.toNat,
           res := fun _ l _ => g c (l.getD 0 0) }
  else none

/-- An integer result on the values of two elements of type c, wrapped to the type (R306). -/
def onInts (g : Nat → Int → Int → Int) (c a b : Nat) (_ : Nat) : Nat × FFlags := (wrapN (tyWidth c) (g c (elInt c a) (elInt c b)), 0)

/-- A bitwise result on two elements (R306). -/
def onBits (g : Nat → Nat → Nat) (_ a b _ : Nat) : Nat × FFlags := (g a b, 0)

/-- The shifts of R306: by b modulo the width. -/
def shiftLeft (c a b _ : Nat) : Nat × FFlags := (a * 2 ^ (b % tyWidth c) % 2 ^ tyWidth c, 0)
def shiftRight (c a b _ : Nat) : Nat × FFlags := (a / 2 ^ (b % tyWidth c), 0)
def shiftRightSigned (c a b _ : Nat) : Nat × FFlags := (wrapN (tyWidth c) (signedN (tyWidth c) a / 2 ^ (b % tyWidth c)), 0)

/-- The number of active elements below an index. -/
def activeBefore (st : Strand) (p k : Nat) : Nat := ((List.range k).filter (predBit st p)).length

/-- The forms of the vector integer instructions, of the moves and of VSEL (R306, R311). -/
def intForm (s : State) : Instr → Option ElemForm
  | .vadd o => vvForm s o tyInt (onInts fun _ x y => x + y)
  | .vsub o => vvForm s o tyInt (onInts fun _ x y => x - y)
  | .vmul o => vvForm s o tyInt (onInts fun _ x y => x * y)
  | .vmulh o => vvForm s o tyInt (onInts fun c x y => x * y / 2 ^ tyWidth c)
  | .vmin o => vvForm s o tyInt (onInts fun _ x y => min x y)
  | .vmax o => vvForm s o tyInt (onInts fun _ x y => max x y)
  | .vabsd o => vvForm s o tyInt (onInts fun _ x y => ((x - y).natAbs : Int))
  | .vsadd o => vvForm s o tyInt (onInts fun c x y => clampInt (tyLo c) (tyHi c) (x + y))
  | .vssub o => vvForm s o tyInt (onInts fun c x y => clampInt (tyLo c) (tyHi c) (x - y))
  | .vand o => vvForm s o tyInt (onBits Nat.land)
  | .vor o => vvForm s o tyInt (onBits Nat.lor)
  | .vxor o => vvForm s o tyInt (onBits Nat.xor)
  | .vsll o => vvForm s o tyInt shiftLeft
  | .vsrl o => vvForm s o tyInt shiftRight
  | .vsra o => vvForm s o tyInt shiftRightSigned
  | .vaddVs o => vsForm s o tyInt (onInts fun _ x y => x + y)
  | .vsubVs o => vsForm s o tyInt (onInts fun _ x y => x - y)
  | .vmulVs o => vsForm s o tyInt (onInts fun _ x y => x * y)
  | .vmulhVs o => vsForm s o tyInt (onInts fun c x y => x * y / 2 ^ tyWidth c)
  | .vminVs o => vsForm s o tyInt (onInts fun _ x y => min x y)
  | .vmaxVs o => vsForm s o tyInt (onInts fun _ x y => max x y)
  | .vabsdVs o => vsForm s o tyInt (onInts fun _ x y => ((x - y).natAbs : Int))
  | .vsaddVs o => vsForm s o tyInt (onInts fun c x y => clampInt (tyLo c) (tyHi c) (x + y))
  | .vssubVs o => vsForm s o tyInt (onInts fun c x y => clampInt (tyLo c) (tyHi c) (x - y))
  | .vandVs o => vsForm s o tyInt (onBits Nat.land)
  | .vorVs o => vsForm s o tyInt (onBits Nat.lor)
  | .vxorVs o => vsForm s o tyInt (onBits Nat.xor)
  | .vsllVs o => vsForm s o tyInt shiftLeft
  | .vsrlVs o => vsForm s o tyInt shiftRight
  | .vsraVs o => vsForm s o tyInt shiftRightSigned
  | .vmv o => vuForm s o tyAny fun _ a => (a, 0)
  | .vmvVs o =>
    let c := slotTy (me s) o.ts
    if tyAny c then
      some { srcs := [], vd := o.vd.toNat, wd := tyWidth c, act := predBit (me s) o.m.toNat,
             res := fun _ _ _ => ((getS s o.ss).toNat % 2 ^ tyWidth c, 0) }
    else none
  | .vclz o => vuForm s o tyInt fun c a => (tyWidth c - (if a % 2 ^ tyWidth c = 0 then 0 else Nat.log2 (a % 2 ^ tyWidth c) + 1), 0)
  | .viota o =>
    let c := slotTy (me s) o.ts
    if tyInt c then
      some { srcs := [], vd := o.vd.toNat, wd := tyWidth c, act := predBit (me s) o.m.toNat,
             res := fun k _ _ => (activeBefore (me s) o.m.toNat k % 2 ^ tyWidth c, 0) }
    else none
  | .vsel o =>
    let c := slotTy (me s) o.ts
    if tyAny c then
      some { srcs := [(o.va.toNat, tyWidth c), (o.vb.toNat, tyWidth c)], vd := o.vd.toNat, wd := tyWidth c, act := fun _ => true,
             res := fun k l _ => (if predBit (me s) o.m.toNat k then l.getD 0 0 else l.getD 1 0, 0) }
    else none
  | _ => none

/-- A floating-point result on two elements, in the slot's format and rounding mode (R307). -/
def onFp (md : Rm) (g : Fmt → Rm → Fp → Fp → Nat × FFlags) (c a b : Nat) (_ : Nat) : Nat × FFlags :=
  g (tyFmt c) md (fpOf (tyFmt c) a) (fpOf (tyFmt c) b)

/-- The fused result on two elements and the old destination (R307). -/
def onFma (md : Rm) (c a b old : Nat) : Nat × FFlags := fpFma (tyFmt c) md (fpOf (tyFmt c) a) (fpOf (tyFmt c) b) (fpOf (tyFmt c) old)

/-- A floating-point result on one element. -/
def onFp1 (md : Rm) (g : Fmt → Rm → Fp → Nat × FFlags) (c a : Nat) : Nat × FFlags := g (tyFmt c) md (fpOf (tyFmt c) a)

/-- The forms of the vector floating-point instructions and of VFCVT (R307 to R309). VFFMA has no out-queue destination. -/
def fpForm (s : State) : Instr → Option ElemForm
  | .vfadd o => vvForm s o tyFp (onFp (slotMode (me s) o.ts) fpAdd)
  | .vfsub o => vvForm s o tyFp (onFp (slotMode (me s) o.ts) fpSub)
  | .vfmul o => vvForm s o tyFp (onFp (slotMode (me s) o.ts) fpMul)
  | .vfdiv o => vvForm s o tyFp (onFp (slotMode (me s) o.ts) fpDiv)
  | .vfmin o => vvForm s o tyFp (onFp (slotMode (me s) o.ts) (fun f _ a b => fpMinMax f false a b))
  | .vfmax o => vvForm s o tyFp (onFp (slotMode (me s) o.ts) (fun f _ a b => fpMinMax f true a b))
  | .vffma o => if o.vd.toNat < 56 then vvForm s o tyFp (onFma (slotMode (me s) o.ts)) else none
  | .vfaddVs o => vsForm s o tyFp (onFp (slotMode (me s) o.ts) fpAdd)
  | .vfsubVs o => vsForm s o tyFp (onFp (slotMode (me s) o.ts) fpSub)
  | .vfmulVs o => vsForm s o tyFp (onFp (slotMode (me s) o.ts) fpMul)
  | .vfdivVs o => vsForm s o tyFp (onFp (slotMode (me s) o.ts) fpDiv)
  | .vfminVs o => vsForm s o tyFp (onFp (slotMode (me s) o.ts) (fun f _ a b => fpMinMax f false a b))
  | .vfmaxVs o => vsForm s o tyFp (onFp (slotMode (me s) o.ts) (fun f _ a b => fpMinMax f true a b))
  | .vffmaVs o => if o.vd.toNat < 56 then vsForm s o tyFp (onFma (slotMode (me s) o.ts)) else none
  | .vfscl o =>
    let c := slotTy (me s) o.ts
    if tyFp c then
      some { srcs := [(o.va.toNat, tyWidth c), (o.vb.toNat, 32)], vd := o.vd.toNat, wd := tyWidth c, act := predBit (me s) o.m.toNat,
             res := fun _ l _ => fpScale (tyFmt c) (slotMode (me s) o.ts) (fpOf (tyFmt c) (l.getD 0 0)) (signedN 32 (l.getD 1 0)) }
    else none
  | .vfsclVs o =>
    let c := slotTy (me s) o.ts
    if tyFp c then
      some { srcs := [(o.va.toNat, tyWidth c)], vd := o.vd.toNat, wd := tyWidth c, act := predBit (me s) o.m.toNat,
             res := fun _ l _ =>
               fpScale (tyFmt c) (slotMode (me s) o.ts) (fpOf (tyFmt c) (l.getD 0 0)) (signedN 32 ((getS s o.ss).toNat % 2 ^ 32)) }
    else none
  | .vfsqrt o => vuForm s o tyFp (onFp1 (slotMode (me s) o.ts) fpSqrt)
  | .vfexp o => vuForm s o tyFp (onFp1 (slotMode (me s) o.ts) fpExp)
  | .vflog o => vuForm s o tyFp (onFp1 (slotMode (me s) o.ts) fpLog)
  | .vfrcp o => vuForm s o tyFp (onFp1 (slotMode (me s) o.ts) fun f md a => fpDiv f md (.fin false 1 0) a)
  | .vfcvt o =>
    let a := slotTy (me s) (!o.ts)
    let b := slotTy (me s) o.ts
    if tyAny a && tyAny b then
      some { srcs := [(o.va.toNat, tyWidth a)], vd := o.vd.toNat, wd := tyWidth b, act := predBit (me s) o.m.toNat,
             res := fun _ l _ => cvtEl a b (slotMode (me s) o.ts) (l.getD 0 0) }
    else none
  | _ => none

/-- A permute or slide over the state it issues in (R313): as `ElemForm`, but element k comes from the whole of the sources. -/
structure PermForm where
  srcs : List (Nat × Nat)
  vd : Nat
  wd : Nat
  act : Nat → Bool
  pick : List (List Nat) → Nat → Nat

/-- The strand after a permute: active positions of the destination are written, no flag accrues. -/
def PermForm.after (F : PermForm) (st st1 : Strand) (srcs : List (List Nat)) : Strand :=
  vdst st1 F.vd F.wd ((List.range st.vl).map fun k => (if F.act k then F.pick srcs k else 0, F.act k))

/-- Element k of the first source. -/
def elem0 (l : List (List Nat)) (k : Nat) : Nat := (l.getD 0 []).getD k 0

/-- The forms of the permutes and the slides (R313). -/
def permForm (s : State) (i : Instr) : Option PermForm :=
  let vl := (me s).vl
  match i with
  | .vperm o =>
    let c := slotTy (me s) o.ts
    if tyAny c then
      some { srcs := [(o.va.toNat, tyWidth c), (o.vb.toNat, tyWidth c)], vd := o.vd.toNat, wd := tyWidth c, act := predBit (me s) o.m.toNat,
             pick := fun l k => let j := (l.getD 1 []).getD k 0; if j < vl then elem0 l j else 0 }
    else none
  | .vcompress o =>
    let c := slotTy (me s) o.ts
    let sel := (List.range vl).filter (predBit (me s) o.m.toNat)
    if tyAny c then
      some { srcs := [(o.va.toNat, tyWidth c)], vd := o.vd.toNat, wd := tyWidth c, act := fun k => decide (k < sel.length),
             pick := fun l k => elem0 l (sel.getD k 0) }
    else none
  | .vexpand o =>
    let c := slotTy (me s) o.ts
    if tyAny c then
      some { srcs := [(o.va.toNat, tyWidth c)], vd := o.vd.toNat, wd := tyWidth c, act := predBit (me s) o.m.toNat,
             pick := fun l k => elem0 l (activeBefore (me s) o.m.toNat k) }
    else none
  | .vslideup o =>
    let c := slotTy (me s) o.ts
    let d := (getS s o.ss).toNat
    if tyAny c then
      some { srcs := [(o.va.toNat, tyWidth c)], vd := o.vd.toNat, wd := tyWidth c, act := fun k => predBit (me s) o.m.toNat k && decide (d ≤ k),
             pick := fun l k => elem0 l (k - d) }
    else none
  | .vslidedn o =>
    let c := slotTy (me s) o.ts
    let d := (getS s o.ss).toNat
    if tyAny c then
      some { srcs := [(o.va.toNat, tyWidth c)], vd := o.vd.toNat, wd := tyWidth c, act := predBit (me s) o.m.toNat,
             pick := fun l k => if k + d < vl then elem0 l (k + d) else 0 }
    else none
  | _ => none

/-- A compare into a predicate over the state it issues in (R310): sources, destination, active elements, relation and flags. -/
structure CmpForm where
  srcs : List (Nat × Nat)
  pd : BitVec 3
  act : Nat → Bool
  rel : List Nat → Bool × FFlags

/-- The relations of VCMP on integers: EQ, NE, LT, LE, GT, GE (R270, R310). -/
def intHolds (cond : Nat) (x y : Int) : Bool :=
  [decide (x = y), decide (x ≠ y), decide (x < y), decide (x ≤ y), decide (y < x), decide (y ≤ x)].getD (min cond 5) false

/-- The forms of the compares (R310). -/
def cmpForm (s : State) : Instr → Option CmpForm
  | .vcmp o =>
    let c := slotTy (me s) o.ts
    if tyInt c then
      some { srcs := [(o.va.toNat, tyWidth c), (o.vb.toNat, tyWidth c)], pd := o.pd, act := predBit (me s) o.m.toNat,
             rel := fun l => (intHolds o.cond.toNat (elInt c (l.getD 0 0)) (elInt c (l.getD 1 0)), 0) }
    else none
  | .vfcmp o =>
    let c := slotTy (me s) o.ts
    if tyFp c then
      some { srcs := [(o.va.toNat, tyWidth c), (o.vb.toNat, tyWidth c)], pd := o.pd, act := predBit (me s) o.m.toNat,
             rel := fun l => vfcmp o.cond.toNat (fpOf (tyFmt c) (l.getD 0 0)) (fpOf (tyFmt c) (l.getD 1 0)) }
    else none
  | .vcmpVs o =>
    let c := slotTy (me s) o.ts
    if tyInt c then
      some { srcs := [(o.va.toNat, tyWidth c)], pd := o.pd, act := predBit (me s) o.m.toNat,
             rel := fun l => (intHolds o.cond.toNat (elInt c (l.getD 0 0)) (elInt c ((getS s o.ss).toNat % 2 ^ tyWidth c)), 0) }
    else none
  | .vfcmpVs o =>
    let c := slotTy (me s) o.ts
    if tyFp c then
      some { srcs := [(o.va.toNat, tyWidth c)], pd := o.pd, act := predBit (me s) o.m.toNat,
             rel := fun l => vfcmp o.cond.toNat (fpOf (tyFmt c) (l.getD 0 0)) (fpOf (tyFmt c) ((getS s o.ss).toNat % 2 ^ tyWidth c)) }
    else none
  | _ => none

/-- The predicates after a write of bits below VL to p[pd]: p0 discards it, every other predicate and every other bit stays (R121, R304). -/
def PredsAfter (st st' : Strand) (pd : BitVec 3) (act val : Nat → Bool) : Prop :=
  ∀ (p : BitVec 3) (k : Nat), k < 16384 →
    predBit st' p.toNat k = if p = pd ∧ pd ≠ 0 ∧ k < st.vl ∧ act k then val k else predBit st p.toNat k

/-- The destination and bit k of the predicate logic instructions (R312). -/
def predForm (st : Strand) : Instr → Option (BitVec 3 × (Nat → Bool))
  | .pand o => some (o.pd, fun k => predBit st o.pa.toNat k && predBit st o.pb.toNat k)
  | .por o => some (o.pd, fun k => predBit st o.pa.toNat k || predBit st o.pb.toNat k)
  | .pxor o => some (o.pd, fun k => predBit st o.pa.toNat k ^^ predBit st o.pb.toNat k)
  | .pnot o => some (o.pd, fun k => !predBit st o.pa.toNat k)
  | _ => none

/-- The active elements of a source, in index order (R314). -/
def activeOf (st : Strand) (p : Nat) (l : List Nat) : List Nat :=
  ((List.range st.vl).filter (predBit st p)).map fun k => l.getD k 0

/-- Element k of VSCAN (R315): the sum of b[k] and of every active a[j], j ≤ k; an FP sum is exact and rounded once, and a signalling NaN
among its terms raises NV. -/
def scanElem (st : Strand) (c : Nat) (md : Rm) (p : Nat) (a b : List Nat) (k : Nat) : Nat × FFlags :=
  let xs := ((List.range (k + 1)).filter (predBit st p)).map fun j => a.getD j 0
  if tyInt c then ((xs.sum + b.getD k 0) % 2 ^ tyWidth c, 0)
  else
    let r := eaRound (tyFmt c) md (eaAdd ((xs.map (elVal c)).foldl eaAdd eaInit) (elVal c (b.getD k 0)))
    (r.1, r.2 ||| nvSNaN (xs.map (elVal c)) ||| nvSNaN [elVal c (b.getD k 0)])

/-! ## Vector accesses (R321 to R334) -/

/-- A vector access over the state it issues in: the bytes of an element, the token it waits for, the address of element k, whether it is
active, what an element does (loads: a read), whether its elements keep index order among themselves, its ord code, and the strand once the
out-queues it reads are consumed. -/
structure AccessForm where
  n : Nat
  wait : Option Nat
  addr : Nat → Word
  act : Nat → Bool
  kind : Nat → AccKind
  ordered : Bool
  ord : BitVec 2
  used : Strand → Strand

/-- Whether nothing holds an access form's token wait: the token's copy has ended without a fault (R155, R324). -/
def AccessForm.free (F : AccessForm) (st : Strand) : Prop := ∀ k, F.wait = some k → (tokOf st k).busy = false ∧ (tokOf st k).pend = false

/-- The elements that an access visits: from VSTART, where its syllable is the one EPC names, to VL − 1 (R111). -/
def visited (s : State) : List Nat := (List.range ((me s).vl - startOf s)).map (startOf s + ·)

/-- Every active element lies at a place that its checks give (R146). -/
def AccessForm.placed (F : AccessForm) (s : State) (a : Acc) (p : Nat → Place) : Prop :=
  ∀ k, startOf s ≤ k → k < (me s).vl → F.act k = true → checkElem s (me s) a F.n (F.addr k) = .ok (p k)

/-- The address of element k of a contiguous access: s[sa] + s[sb] + k × n (R327). -/
def contiguous (s : State) (sa sb : BitVec 5) (n k : Nat) : Word := getS s sa + getS s sb + BitVec.ofNat 64 (k * n)

/-- The address of element k of a strided access: s[sa] + k × s[sb] (R327). -/
def strided (s : State) (sa sb : BitVec 5) (k : Nat) : Word := getS s sa + BitVec.ofNat 64 k * getS s sb

/-- The address of element k of an indexed access: s[sa] + index × 2^shift (R328). -/
def indexed (s : State) (sa : BitVec 5) (shift : BitVec 2) (ix : List (Nat × Bool)) (k : Nat) : Word :=
  getS s sa + BitVec.ofNat 64 ((ix.getD (k - startOf s) (0, false)).1 * 2 ^ shift.toNat)

/-- The form of a gather (R328). -/
def gatherForm (s : State) (o : VxOps) : Option (BitVec 2 × AccessForm) :=
  (qread (oqOf (me s) o.ix.toNat) (startOf s) (me s).vl 32).map fun r =>
    (o.q, { n := 2 ^ o.sz.toNat, wait := none, addr := indexed s o.sa o.shift r.1,
            act := fun k => (r.1.getD (k - startOf s) (0, false)).2, kind := fun _ => .read, ordered := false, ord := o.ord,
            used := fun st => dropAll st o.ix.toNat (startOf s) st.vl 32 })

/-- The form of a contiguous or strided load (R327). -/
def plainLoad (o : VmOps) (addr : Nat → Word) : BitVec 2 × AccessForm :=
  (o.q,
    { n := 2 ^ o.sz.toNat, wait := if o.wait then some o.tk.toNat else none, addr := addr, act := fun _ => true, kind := fun _ => .read,
      ordered := false, ord := o.ord, used := id })

/-- The forms of the plain vector loads with their in-queues (R323, R327, R328). -/
def loadForm (s : State) : Instr → Option (BitVec 2 × AccessForm)
  | .vld o => some (plainLoad o (contiguous s o.sa o.sb (2 ^ o.sz.toNat)))
  | .vlds o => some (plainLoad o (strided s o.sa o.sb))
  | .vldxO o => gatherForm s o
  | .vldxU o => gatherForm s o
  | _ => none

/-- What a load of elements pushes (R131, R326): the value of an active element with its mark, zero bits for an inactive one. -/
def loadedEls (s : State) (F : AccessForm) (b : Nat → List Byte) : List (Nat × Bool) :=
  (visited s).map fun k => if F.act k then (numOf (b k), true) else (0, false)

/-- The form of a contiguous or strided store (R327). -/
def plainStore (s : State) (o : VmOps) (addr : Nat → Word) : Option AccessForm :=
  (qread (oqOf (me s) o.q.toNat) (startOf s) (me s).vl (8 * 2 ^ o.sz.toNat)).map fun r =>
    { n := 2 ^ o.sz.toNat, wait := if o.wait then some o.tk.toNat else none, addr := addr,
      act := fun k => (r.1.getD (k - startOf s) (0, false)).2,
      kind := fun k => .write (bytesOf (2 ^ o.sz.toNat) (r.1.getD (k - startOf s) (0, false)).1), ordered := false, ord := o.ord,
      used := fun st => dropAll st o.q.toNat (startOf s) st.vl (8 * 2 ^ o.sz.toNat) }

/-- The form of a scatter (R323, R328). -/
def scatterForm (s : State) (o : VxOps) (ordered : Bool) : Option AccessForm :=
  (qread (oqOf (me s) o.q.toNat) (startOf s) (me s).vl (8 * 2 ^ o.sz.toNat)).bind fun r =>
    (qread (oqOf (dropAll (me s) o.q.toNat (startOf s) (me s).vl (8 * 2 ^ o.sz.toNat)) o.ix.toNat) (startOf s) (me s).vl 32).map fun x =>
      { n := 2 ^ o.sz.toNat, wait := none, addr := indexed s o.sa o.shift x.1,
        act := fun k => (r.1.getD (k - startOf s) (0, false)).2 && (x.1.getD (k - startOf s) (0, false)).2,
        kind := fun k => .write (bytesOf (2 ^ o.sz.toNat) (r.1.getD (k - startOf s) (0, false)).1), ordered := ordered, ord := o.ord,
        used := fun st => dropAll (dropAll st o.q.toNat (startOf s) st.vl (8 * 2 ^ o.sz.toNat)) o.ix.toNat (startOf s) st.vl 32 }

/-- The form of VAMO and VAMO.RET (R332). -/
def vamoForm (s : State) (o : VamoOps) : Option AccessForm :=
  (qread (oqOf (me s) o.q.toNat) (startOf s) (me s).vl (8 * szDbl o.dbl)).map fun r =>
    { n := szDbl o.dbl, wait := none, addr := fun k => getS s o.sa + BitVec.ofNat 64 (k * szDbl o.dbl),
      act := fun k => (r.1.getD (k - startOf s) (0, false)).2,
      kind := fun k => .atomic (vamoOp o.aop.toNat) (szDbl o.dbl) (BitVec.ofNat 512 (r.1.getD (k - startOf s) (0, false)).1),
      ordered := false, ord := o.ord, used := fun st => dropAll st o.q.toNat (startOf s) st.vl (8 * szDbl o.dbl) }

/-- The forms of the vector stores and of VAMO (R323, R327, R328, R332). Where one out-queue gives both data and indices, the data is drained
first (R323). -/
def storeForm (s : State) : Instr → Option AccessForm
  | .vst o => plainStore s o (contiguous s o.sa o.sb (2 ^ o.sz.toNat))
  | .vsts o => plainStore s o (strided s o.sa o.sb)
  | .vstxO o => scatterForm s o true
  | .vstxU o => scatterForm s o false
  | .vamo o => vamoForm s o
  | _ => none

/-- The accesses that the active elements of a store put into the issue stream (R161, R322, R325); `fill` names the in-queue position that the old
value of element k fills (R332). -/
def storedItems (s : State) (F : AccessForm) (p : Nat → Place) (fill : Nat → Option Fill) : List QItem :=
  ((visited s).filter F.act).map fun k =>
    .acc { path := .ls, place := p k, va := F.addr k, size := F.n, kind := F.kind k, rel := decide (2 ≤ F.ord.toNat),
           acq := F.ord.toNat % 2 == 1, dom := true, group := nextGroup (me s), ordered := F.ordered, fill := fill k, slot := s.slot,
           mark := (me s).armed }

/-- Element k of a rotary load and its flags, from the bytes of its two reads (R244 to R247); none for a bad block. -/
def rotaryEl (s : State) (d : KvDesc) (row0 : Nat) (b0 b1 : List Byte) (k : Nat) : Option (Nat × FFlags) :=
  let pr := kvPair d (k % d.hdim)
  match kvValue (me s) d pr.2.1 b0, kvValue (me s) d pr.2.2 b1 with
  | some x, some y => some (rotElem s d (row0 + k / d.hdim) (k % d.hdim) x y)
  | _, _ => none

/-- The state once the issuing strand's TLB holds the leaves of some addresses (R149). -/
def filled (s : State) (vas : List Word) : State := vas.foldl (fun s va => tlbFill s (me s) va) s

/-! ## Engines, the index scratchpad and sparse tiles -/

/-- A token that a copy of the whole VL arms (R154, R336): bytes for COPY and XFETCH, rows for GATHSP. -/
def newCopy (st : Strand) (kind : CopyKind) (dst src : Word) (unit : Nat) (rows : List (Option Nat)) : Token :=
  { Token.idle with busy := true, expected := st.vl, kind := kind, dst := dst, src := src, unit := unit, rows := rows }

/-- A range of a copy that lies in the scratchpad aperture lies within SPBOUND (R141). -/
def rangeOk (st : Strand) (r : Word × Nat) : Prop := inSpad r.1 = true → spInRange st (r.1.toNat % 2 ^ 48) r.2 = true

/-- The strand once a syllable in slot `slot` has armed token k (R154): counts below VSTART and inactive rows at the front have landed, BUSY is set
while counts are open, the copy has the strand's next number, and its engine has started. Armed once, it is not armed again where the strand stops
in the same convoy. -/
def armed (st : Strand) (slot k start : Nat) (t : Token) : Strand :=
  let t1 := landInactive { t with busy := t.expected != 0, landed := min start t.expected, rows := t.rows.take t.expected }
  let st1 := setTok { st with answers := st.answers.filter fun a => a.slot != 8 + k } k { t1 with serial := st.armed, started := true }
  noteDone { st1 with armed := st.armed + 1 } slot noteElem (bytesOf 8 st.vl)

/-- What XINS or XACC finds in the state it issues in (R360): the entries it leaves, the element that finds the partition full with its key, the
lowest active element, the flags of the active elements below an index, and the strand once its queues are consumed. -/
structure IndexForm where
  ents : List XEntry
  full : Option (Nat × Word)
  lowest : Nat
  flags : Nat → FFlags
  used : Strand → Strand

/-- The form of XINS and XACC over the keys, then the values, of its out-queues. -/
def indexFormOf (s : State) (o : XqOps) (w : Nat) (f : Nat → Option EA → EA) (fl : List Fp → FFlags) : Option IndexForm :=
  let st := me s
  (qread (oqOf st o.q.toNat) (startOf s) st.vl 64).bind fun ks =>
    (qread (oqOf (dropAll st o.q.toNat (startOf s) st.vl 64) o.k.toNat) (startOf s) st.vl w).map fun vs =>
      let els : List XEl := (visited s).map fun k =>
        (k, (ks.1.getD (k - startOf s) (0, false)).2, BitVec.ofNat 64 (ks.1.getD (k - startOf s) (0, false)).1,
          (vs.1.getD (k - startOf s) (0, false)).1)
      let r := indexEls (partSize st.rec_.share) f els st.xents
      { ents := r.1, full := r.2, lowest := ((els.find? fun e => e.2.1).map (·.1)).getD 0,
        flags := fun n => fl ((els.filter fun e => e.2.1 && decide (e.1 < n)).map fun e => fpOf f32 e.2.2.2),
        used := fun st => dropAll (dropAll st o.q.toNat (startOf s) st.vl 64) o.k.toNat (startOf s) st.vl w }

/-- The forms of XINS and XACC (R212, R360): in an i64 partition XINS stores the value and XACC adds it modulo 2^64 (an absent key counts as 0);
in an EA partition XINS stores a 64-byte image and XACC adds an f32 element exactly (an absent key counts as empty). -/
def indexForm (s : State) : Instr → Option IndexForm
  | .xins o =>
    match (me s).xkind with
    | .i64 => indexFormOf s o 64 (fun v _ => BitVec.ofNat 512 (v % 2 ^ 64)) fun _ => 0
    | .ea => indexFormOf s o 2048 (fun v _ => eaClean (BitVec.ofNat 512 v)) fun _ => 0
  | .xacc o =>
    match (me s).xkind with
    | .i64 => indexFormOf s o 64 (fun v old => BitVec.ofNat 512 (((old.getD 0).toNat + v) % 2 ^ 64)) fun _ => 0
    | .ea => indexFormOf s o 32 (fun v old => eaAdd (old.getD eaInit) (fpOf f32 v)) nvSNaN
  | _ => none

/-- The rows of a tile that PRUNE writes from row `start` on (R209, R359): row, payload blocks, kept indices, flags. -/
def prunedRows (P : PruneBlk) (fdn : Nat) (d : FmtDesc) (bs : List Nat) (start : Nat) :
    List (Nat × List Nat × List (List Nat) × FFlags) :=
  let rb := ceilDiv (P.kgroups * P.m) (blkE d.wid)
  let rows := (List.range P.rowb).map fun r => rowGroups d P ((bs.drop (r * rb)).take rb)
  let keep := keepAll P rows
  ((List.range P.rowb).filter fun r => decide (start ≤ r)).map fun r =>
    let x := payBlocks fdn d (rows.getD r []) (keep.getD r [])
    (r, x.1, keep.getD r [], x.2)

/-- The writes of a whole tile in order (R210): the header with INCOMPLETE set (from row 0), each row's payload and metadata, the final
header. -/
def tileWrites (h : Word) (P : PruneBlk) (wid start : Nat) (rows : List (Nat × List Nat × List (List Nat) × FFlags)) :
    List (Word × List Byte) :=
  (if start = 0 then [(h, hdrBytes P.transp true P.n P.m wid P.rowb P.kgroups 0)] else []) ++
    (rows.map fun x => rowWrites h P wid x.1 x.2.1 x.2.2.1).flatten ++ [(h, hdrBytes P.transp false P.n P.m wid P.rowb P.kgroups P.rowb)]

/-! ## The matrix array -/

/-- Whether a hold is the one of a strand's record and rank (R199). -/
def mineHold (st : Strand) (h : MxHold) : Bool := h.owner == mxOwner st && h.rank == st.rank

/-- The array holds of the machine after an instruction of a strand: its own hold is `h`, every other hold stays, and nothing but the holds and
the strand has changed. -/
def MxBecomes (s t : State) (h : Option MxHold) : Prop :=
  { t with mx := s.mx, strands := s.strands } = s ∧ (∀ k, k ≠ s.cur → strandOf t k = strandOf s k) ∧ holdOf t (me s) = h ∧
    (∀ ck, ck ≠ (me s).clusterKey → mxOf t ck = mxOf s ck) ∧
    (mxOf t (me s).clusterKey).filter (fun x => !mineHold (me s) x) = (mxOf s (me s).clusterKey).filter (fun x => !mineHold (me s) x)

/-- The shadow plane that a load adds to (R201, R348): empty where a swap has made it fresh. -/
def loadPlane (h : MxHold) : MxPlane := if h.shadow.fresh then { MxPlane.empty with fresh := false } else h.shadow

/-! ## The race unit -/

/-- The strand once its candidate set is current for a context (R367). -/
def freshStrand0 (s : State) (c : Nat) : Strand := { me s with race := freshBind (me s).race c (raceOf s c).epoch }

/-- What a race syllable on context c changes: the count of race operations, the context, which becomes `x`, and the strand, which becomes
`st`. -/
def RaceAfter (s t : State) (c : Nat) (x : RaceCtx) (st : Strand) : Prop :=
  { t with raceOps := s.raceOps, race := s.race, strands := s.strands } = s ∧ t.raceOps = s.raceOps + 1 ∧ raceOf t c = x ∧
    (∀ k, k ≠ c → raceOf t k = raceOf s k) ∧ me t = st ∧ ∀ k, k ≠ s.cur → strandOf t k = strandOf s k

/-- The register operand that names a race syllable's context, and whether only its low 32 bits do (R273, R364). -/
def ctxOperand : Instr → Option (BitVec 5 × Bool)
  | .rcinit o => some (o.ss, false)
  | .rcnoise o => some (o.ss, false)
  | .rcbound o => some (o.ss, true)
  | .rcpick o => some (o.ss, false)
  | .rcupd o => some (o.ss, false)
  | .rcdrop o => some (o.ss, false)
  | .rcwait o => some (o.ss, false)
  | .rcread o => some (o.ss, false)
  | .rcset o => if o.sel.toNat ≤ 12 ∨ o.sel.toNat = 16 ∨ o.sel.toNat = 17 then some (o.ss, false) else none
  | _ => none

/-- The context number of an operand value, where it is one (R364). -/
def ctxOf (hi : Bool) (v : Word) : Option Nat :=
  if (if hi then v.toNat % 2 ^ 32 else v.toNat) < 64 then some (v.toNat % 64) else none

/-- Whether the race unit performs a race syllable for the issuing strand on context c (R364): a merge of the context has ended (R224). -/
def Performs (s : State) (i : Instr) (c : Nat) : Prop :=
  ∃ ss hi, ctxOperand i = some (ss, hi) ∧ ctxOf hi (getS s ss) = some c ∧ ownsCtx s (me s) c = true ∧ (raceOf s c).merging = none

/-- What the tables hold for a token, readable in this package (R219, R221). -/
def tabled (s : State) (x : RaceCtx) (t : Nat) (eps : Nat) (a : Adjust) : Prop :=
  (∃ p b, checkScalar s (me s) .load 2 (x.btab + BitVec.ofNat 64 (2 * t)) = .ok p ∧ localBytes s p 2 = some b ∧ numOf b = eps) ∧
    if x.atab = 0 then a = Adjust.none
    else ∃ p b, checkScalar s (me s) .load 8 (x.atab + BitVec.ofNat 64 (8 * t)) = .ok p ∧ localBytes s p 8 = some b ∧ adjustOf (numOf b) = a

/-- Whether a context ignores a token (R224). -/
def ignored (x : RaceCtx) (t : Nat) : Bool := decide (x.vocab ≤ t) || hasN x.bounded t

/-- The active elements of RCBOUND from VSTART on: index and coarse score (R371). -/
def boundEls (s : State) (m : BitVec 3) (cs : List Nat) : List (Nat × Nat) :=
  ((List.range (me s).vl).filter fun k => predBit (me s) m.toNat k && decide (startOf s ≤ k)).map fun k => (k, cs.getD k 0)

/-- Every bit of a predicate: p0 stays (R121, R373). -/
def AllPreds (st st' : Strand) (pd : BitVec 3) (v : Bool) : Prop :=
  { st' with preds := st.preds } = st ∧
    ∀ (p : BitVec 3) (k : Nat), k < 16384 → predBit st' p.toNat k = if p = pd ∧ pd ≠ 0 then v else predBit st p.toNat k

/-! ## Collectives and events -/

/-- The operand and the function of a collective (R376). -/
def collCode : Instr → Option (S3 × Nat)
  | .clredEa o => some (o, 0)
  | .clredI64 o => some (o, 4)
  | .clredF32max o => some (o, 8)
  | .clredF32min o => some (o, 12)
  | .clbcast o => some (o, 1)
  | .clargmax o => some (o, 2)
  | _ => none

/-- A contribution merges into a result area and counts into a sync word (R157, R378); granules that are poisoned stay so, but where a broadcast
replaces them (R68). -/
def landOrd (fn : Nat) (o : Ordering_) (key sync : Nat) (b : List Byte) : Ordering_ :=
  let o1 := spadWrite o key (collBytes fn (Memory.getBytes o.spad key b.length) b)
  (syncArrive (if fn = 1 then o1 else { o1 with spadPoison := o.spadPoison }) sync b.length false).1

/-- The KIND of the flits whose arrival an event is (R29). -/
def flitCode : Instr → Option Nat
  | .rdreq => some 0
  | .wrreq => some 1
  | .atreq => some 2
  | .rdata => some 3
  | .wdone => some 4
  | .cldat => some 5
  | .xsdat => some 6
  | .dack => some 7
  | .nak => some 8
  | .unav => some 9
  | _ => none

/-- A flit of a KIND that passes every check at a port with lock (R28 to R30, R42). -/
abbrev Arriving (s : State) (x : Flit) (kind : Nat) : Prop :=
  s.arg = .flit x ∧ x.kind = kind ∧ x.plane < 48 ∧ s.fabric.planeUp.getLsbD x.plane = true ∧ x.crcOk = true ∧ headerBad x = false ∧
    x.dstPkg = s.fabric.pkgId ∧ bridgesUp s.fabric (planeDie x.plane) x.dstDie = true

/-- A package that takes requests, and a flit that its stream may deliver at once: nothing of the stream waits, its SEQ is the next, and the stream
of its answer has room (R32, R35, R38, R40). -/
abbrev FirstInTurn (s : State) (x : Flit) : Prop :=
  s.fabric.en = true ∧ s.power.shut = false ∧ (rxOf s.fabric x).waiting = [] ∧ x.seq = (rxOf s.fabric x).low % 65536 ∧
    (isRequest x.kind = true → (txOf s.fabric (backKey x)).unacked.length < 4096)

/-- The fabric once such a flit has been accepted, counted, acknowledged and delivered (R34, R35, R38). -/
def takenFlit (f : Fabric) (x : Flit) : Fabric :=
  putRx (sendDack { acceptFlit f x with accepted := NMap.set f.accepted x.plane (NMap.getD f.accepted x.plane 0 + 1) } x) x
    { rxOf f x with low := (rxOf f x).low + 1, waiting := [] }

/-- The kind of the datagrams whose arrival an event is (R48). -/
def dgramCode : Instr → Option Nat
  | .newRequest => some 1
  | .requestTextContinued => some 2
  | .cancelGeneration => some 3
  | .resendRequest => some 4
  | _ => none

/-- The port of a received frame, and whether an oversize frame is longer than R44 admits. -/
def framePort : EthFrame → Nat
  | .badFcs p => p
  | .pauseOrPfc p => p
  | .fragmentOrOptions p => p
  | .oversize p _ => p
  | .badUdpChecksum p => p
  | .badKind p _ => p
  | .filterMiss p _ => p
  | .ringFull p _ => p
  | .toFirmware p _ => p
def frameLong : EthFrame → Bool
  | .oversize _ n => decide (9216 < n)
  | _ => true

/-- The operation code of an open management operation (R65). -/
def openCode : Instr → Option Nat
  | .status => some 1
  | .quote => some 2
  | .log => some 3
  | .cert => some 4
  | .counters => some 5
  | _ => none

/-- The request of an owner operation, its code, and whether it needs the deployed state (R65). -/
def ownerCode : Instr → Arg → Option (MgmtReq × Nat × Bool)
  | .tenantCreate, .mgmtCreate r _ _ _ => some (r, 0x10, true)
  | .tenantReset, .mgmt r => some (r, 0x11, true)
  | .tenantDestroy, .mgmt r => some (r, 0x12, true)
  | .streamOpen, .mgmtStream r _ => some (r, 0x13, true)
  | .streamClose, .mgmtN r _ => some (r, 0x13, true)
  | .filterSet, .mgmtFilter r _ => some (r, 0x14, true)
  | .svnRaise, .mgmtN2 r _ _ => some (r, 0x21, false)
  | _, _ => none

/-- The name of an event that needs data. -/
def needsData : Instr → Option String
  | .packageReset => some "PACKAGE_RESET"
  | .throttleIntervalEnd => some "THROTTLE_INTERVAL_END"
  | .thermalShutdown => some "THERMAL_SHUTDOWN"
  | .registerWrite => some "REGISTER_WRITE"
  | .measExtend => some "MEAS_EXTEND"
  | .rdreq => some "RDREQ"
  | .wrreq => some "WRREQ"
  | .atreq => some "ATREQ"
  | .rdata => some "RDATA"
  | .wdone => some "WDONE"
  | .cldat => some "CLDAT"
  | .xsdat => some "XSDAT"
  | .dack => some "DACK"
  | .nak => some "NAK"
  | .unav => some "UNAV"
  | .planeTimerExpiry => some "PLANE_TIMER_EXPIRY"
  | .portLockLost => some "PORT_LOCK_LOST"
  | .portLockGained => some "PORT_LOCK_GAINED"
  | .bridgeDown => some "BRIDGE_DOWN"
  | .newRequest => some "NEW_REQUEST"
  | .requestTextContinued => some "REQUEST_TEXT_CONTINUED"
  | .cancelGeneration => some "CANCEL_GENERATION"
  | .resendRequest => some "RESEND_REQUEST"
  | .ptpEventReceive => some "PTP_EVENT_RECEIVE"
  | .status => some "STATUS"
  | .quote => some "QUOTE"
  | .log => some "LOG"
  | .cert => some "CERT"
  | .counters => some "COUNTERS"
  | .tenantCreate => some "TENANT_CREATE"
  | .tenantReset => some "TENANT_RESET"
  | .tenantDestroy => some "TENANT_DESTROY"
  | .streamOpen => some "STREAM_OPEN"
  | .streamClose => some "STREAM_CLOSE"
  | .filterSet => some "FILTER_SET"
  | .lcRequest => some "LC_REQUEST"
  | .svnRaise => some "SVN_RAISE"
  | .recoverWrite => some "RECOVER_WRITE"
  | .tsstepWrite => some "TSSTEP_WRITE"
  | .trtailWrite => some "TRTAIL_WRITE"
  | .trctlWrite => some "TRCTL_WRITE"
  | .wqtailWrite => some "WQTAIL_WRITE"
  | .wqctlWrite => some "WQCTL_WRITE"
  | .wqstatClr => some "WQSTAT_CLR"
  | .packetConsume => some "PACKET_CONSUME"
  | .launchReady => some "LAUNCH_READY"
  | .recordExpand => some "RECORD_EXPAND"
  | .launchComplete => some "LAUNCH_COMPLETE"
  | .recordDispatch => some "RECORD_DISPATCH"
  | .agingQuantum => some "AGING_QUANTUM"
  | .preemptPriority => some "PREEMPT_PRIORITY"
  | .preemptionQuantum => some "PREEMPTION_QUANTUM"
  | .preemptSave => some "PREEMPT_SAVE"
  | .saveSlotFreed => some "SAVE_SLOT_FREED"
  | .resumew => some "RESUMEW"
  | .killw => some "KILLW"
  | .flttailWrite => some "FLTTAIL_WRITE"
  | .fltctlWrite => some "FLTCTL_WRITE"
  | .softError => some "SOFT_ERROR"
  | .tenantResetComplete => some "TENANT_RESET_COMPLETE"
  | .tlbinv => some "TLBINV"
  | .engineElementLand => some "ENGINE_ELEMENT_LAND"
  | .engineElementFault => some "ENGINE_ELEMENT_FAULT"
  | .pathQueueLeave => some "PATH_QUEUE_LEAVE"
  | .atomicPerform => some "ATOMIC_PERFORM"
  | .applyWrite => some "APPLY_WRITE"
  | .ticketAdvance => some "TICKET_ADVANCE"
  | .lateFailure => some "LATE_FAILURE"
  | .barrierWaitEnd => some "BARRIER_WAIT_END"
  | .launchEnqueue => some "LAUNCH_ENQUEUE"
  | .homeFinalize => some "HOME_FINALIZE"
  | .memberMerge => some "MEMBER_MERGE"
  | .homeResolve => some "HOME_RESOLVE"
  | .memberAbort => some "MEMBER_ABORT"
  | .illegalInstruction => some "ILLEGAL_INSTRUCTION"
  | .ethernetFrameReceive => some "ETHERNET_FRAME_RECEIVE"
  | .ptpEventTransmit => some "PTP_EVENT_TRANSMIT"
  | .tscReferenceCycle => some "TSC_REFERENCE_CYCLE"
  | .arithmeticCycle => some "ARITHMETIC_CYCLE"
  | _ => none

/-! ## Canonical memory -/

/-- Whether all the memory that a state holds is in canonical form: the memory itself, and what a convoy in progress would go back to. -/
def Canonical (s : State) : Prop := CanonicalOrd s.ord ∧ ∀ c, s.convoy = some c → CanonicalOrd c.ord

/-! ## The step -/

/-- Whether the next step issues the convoy of words `ws` of strand c: nothing stands in the agenda, the package has booted, the strand is the
one that issues, it has no late failure to take, no repeat frame and no convoy that waits, and its core holds no other words for the
convoy's address (R299). -/
def Issuing (s : State) (c : Nat) (ws : List (BitVec 32)) : Prop :=
  s.sched.agenda = [] ∧ s.powered = true ∧ s.sec.boot ≠ .pending ∧ issuer s = some c ∧ (strandOf s c).late = [] ∧
    (strandOf s c).rpt.active = false ∧ NMap.get? s.held c = none ∧
    fetchWords { s with cur := c } (strandOf s c) (strandOf s c).pc = .ok ws ∧
    staleWords { s with cur := c } (strandOf s c) (strandOf s c).pc = none

/-- The state in which the syllables of strand c's convoy run: the core has fetched it (R149, R299), and what it may change is kept (R111). -/
def opened (s : State) (c : Nat) (ws : List (BitVec 32)) : State :=
  let st := strandOf s c
  let s1 := (fetchConvoy { s with cur := c } st st.pc).2
  beginConvoy (tlbFill s1 st st.pc) ws false

/-- Whether the next step issues the captured convoy of strand c's repeat frame (R135): as `Issuing`, but that a frame whose sixteen words stand
captured is in progress, and that R125 allows the captured convoy. -/
def Replaying (s : State) (c : Nat) : Prop :=
  s.sched.agenda = [] ∧ s.powered = true ∧ s.sec.boot ≠ .pending ∧ issuer s = some c ∧ (strandOf s c).late = [] ∧
    (strandOf s c).rpt.active = true ∧ NMap.get? s.held c = none ∧ (strandOf s c).cap.length = 16 ∧
    badSlot 0 false false (((strandOf s c).cap.drop (4 * (strandOf s c).rpt.conv)).take 4) = none

/-- The words of a replayed convoy (R135): those of captured convoy c whose syllable i has an iteration j = k − stage(i) of the frame, 0 ≤ j < trip;
the others stand empty. -/
def frameWords (st : Strand) : List (BitVec 32) :=
  let r := st.rpt
  (List.range 4).map fun m =>
    let i := 4 * r.conv + m
    let j : Int := (r.kidx : Int) - stageOf r.map0 r.map1 i
    if 0 ≤ j ∧ j < r.trip then st.cap.getD i 0 else 0

/-- The state in which the syllables of that convoy run: the strand stands at the captured convoy, and what it may change is kept (R111, R137). -/
def replayOpened (s : State) (c : Nat) : State :=
  let st := strandOf s c
  beginConvoy (putMe { s with cur := c } { st with pc := st.rpt.rpc + BitVec.ofNat 64 (0x10 + 16 * st.rpt.conv) }) (frameWords st) true

/-- Runs decoded instructions in turn, each with its slot and its word, its registers renamed by `ren`, then ends the convoy by `done`; `tr` is what
the earlier ones leave open for one that waits. An instruction that leaves no convoy in progress has faulted or waits, and ends it. A race or token
syllable that has been performed only gives its result again (R364). -/
def runDecoded (ren : Instr → Instr) (done : State → State) (ws : List (BitVec 32)) (tr : Trail) (s : State) :
    List (Nat × BitVec 32 × Instr) → Out State
  | [] => .next (afterStep (done s))
  | (k, w, i) :: l =>
    let s1 := atSlot s k w
    match if isLate w then doneBefore s1 noteElem else none with
    | some b => runDecoded ren done ws (tr.step ren s k w (lateApply (ren i) b s1)) (lateApply (ren i) b s1) l
    | none =>
      match exec (ren i) s1 with
      | .next t =>
        if t.convoy.isSome then runDecoded ren done ws (tr.step ren s k w t) t l
        else if (NMap.get? t.held t.cur).isSome then .next (afterStep (waitSlot ren ws tr s k (l.map (·.1)) t))
        else .next (afterStep t)
      | .fault f => .fault f
      | .refused r => .refused r

/-- Whether a convoy's syllables run as they stand: none is behind a BAR of its convoy (R295), none that faults lacks groups, none consumes groups
whose old values have not come, none has been fed before its turn, and none fills a queue beyond its room (R131, R132, R332). -/
def Steady (ren : Instr → Instr) (s : State) : List (Nat × BitVec 32 × Instr) → Prop
  | [] => True
  | (k, w, i) :: l =>
    let s1 := atSlot s k w
    ((me s1).barw && afterBar w) = false ∧ (me s1).fed = [] ∧
      match if isLate w then doneBefore s1 noteElem else none with
      | some b => (lateApply (ren i) b s1).convoy.isSome ∧ Steady ren (lateApply (ren i) b s1) l
      | none =>
        ∀ t, exec (ren i) s1 = .next t →
          (t.convoy = none → NMap.get? t.held t.cur = none → starved ren s1 k w = false) ∧
            (t.convoy.isSome → usedWaiting (me s1) (me t) = false ∧ (executeSide (majorOf w) = true → outFull (me t) = false) ∧
              (accessSide (majorOf w) = true → inFull (me t) = false) ∧ Steady ren t l)

/-- A request is answered by a frame with a status and no body (R44, R65), and the frame is counted on its port (R83). -/
def Replies (s t : State) (r : MgmtReq) (status : Nat) : Prop :=
  t.eth.replies = s.eth.replies ++ [(r.port, replyFrame r status [])] ∧
    NMap.getD t.eth.sentFrames r.port 0 = NMap.getD s.eth.sentFrames r.port 0 + 1

/-! ## The trunk control window (R50) -/

/-- What a store to the registers of the window's first page leaves (R21, R40, R52): a write of V to the word at `off` leaves t. -/
def FirstPageWrites (s t : State) (off : Nat) (v : Word) : Prop :=
  (off = 0x10 → t = { s with
    power := { s.power with
      limitW := v.toNat % 2 ^ 16, minBub := v.toNat / 2 ^ 16 % 8, force := v.getLsbD 19, trip := s.power.trip && !v.getLsbD 23 } }) ∧
  (off = 0x18 →
    let f := if v.getLsbD 1 then discardHeld s.fabric else s.fabric
    t = { s with fabric := { f with tmo := v.toNat / 2 ^ 12 % 16, en := decide (s.fabric.pkgId < 768) && v.getLsbD 0 } }) ∧
  (off = 0x20 → t = sendWaiting { s with fabric := { s.fabric with planeEn := v.setWidth 48 } }) ∧
  (∀ k, k < 4 → off = 0x40 + 8 * k → t = { s with sec := { s.sec with measDig := s.sec.measDig.set k v } }) ∧
  (off < 0x1000 → off ∉ [0x10, 0x18, 0x20, 0x40, 0x48, 0x50, 0x58, 0x60] → t = s)

/-- What a store to a time or trace register of die d leaves (R70, R81): TSINCR, TRBASE (only while the ring is disabled), SNAPAT. -/
def TimeWrites (s t : State) (off : Nat) (v : Word) : Prop :=
  (∀ d, d < 9 → off = 0x1008 + 0x100 * d →
    t = { s with clocks := NMap.set s.clocks d { clockOf s d with incr := v } }) ∧
  (∀ d, d < 9 → off = 0x1018 + 0x100 * d →
    t = if (ringOf s d).en then s else putRing s d { ringOf s d with base := wordOf (v.toNat / 65536 * 65536) }) ∧
  (off = 0x8F08 → t = { s with snap := { s.snap with at_ := v } })

/-- What a store to a work-queue or dispatcher register leaves (R87, R105): the bases and sizes only while the queue or the ring is disabled; LANEDIS
and ARRDIS keep a bit for each lane group and array slice. -/
def QueueWrites (s t : State) (off : Nat) (v : Word) : Prop :=
  (∀ q, q < 4608 → off = 0x20000 + 0x40 * q →
    t = if (queueOf s q).en then s else putQueue s q { queueOf s q with base := wordOf (v.toNat / 4096 * 4096) }) ∧
  (∀ q, q < 4608 → off = 0x20038 + 0x40 * q → t = putQueue s q { queueOf s q with err := wordOf (v.toNat / 32 * 32) }) ∧
  ∀ d, 1 ≤ d → d ≤ 8 →
    let x := dispOf s d
    let b := 0x70000 + 0x1000 * (d - 1)
    (off = b → t = putDisp s d { x with preq := v.toNat / 2 ^ 32, ageq := v.toNat % 2 ^ 32 }) ∧
    (off = b + 8 → t = if x.fltEn then s else putDisp s d { x with fltBase := wordOf (v.toNat / 4096 * 4096) }) ∧
    (off = b + 0x30 → t = if x.fltEn then s else putDisp s d { x with svBase := wordOf (v.toNat / 2 ^ 20 * 2 ^ 20) }) ∧
    (off = b + 0x38 → t =
      if x.fltEn = true ∨ v.toNat % 32 < 15 ∨ 20 < v.toNat % 32 then s
      else serveFaults (putDisp s d { x with svLog := v.toNat % 32, svCount := v.toNat / 256 % 4096 }) d) ∧
    (∀ c, c < 128 → off = b + 0x400 + 8 * c → t = putDisp s d { x with lanedis := NMap.set x.lanedis c (v.setWidth 8) }) ∧
    ∀ c, c < 32 → off = b + 0x800 + 8 * c →
      t = putDisp s d { x with arrdis := NMap.set x.arrdis c (BitVec.ofNat 8 (v.toNat % if d ≤ 4 then 256 else 16)) }

/-- What a store to a tenant's weight or root, to a race context's tenant or to a table's descriptor leaves (R101, R148, R215, R239, R245): a byte
table that an open stream uses keeps its descriptor. -/
def TableWrites (s t : State) (off : Nat) (v : Word) : Prop :=
  (∀ n, n < 64 → off = 0x79000 + 8 * n → t = { s with tweight := NMap.set s.tweight n (v.toNat % 256) }) ∧
  (∀ n, n < 64 → off = 0x7A000 + 8 * n → t = { s with tnroot := NMap.set s.tnroot n (v &&& 0x00FFFFFFFFFFF001#64) }) ∧
  (off = 0x7A200 → t = { s with tkroot := v &&& 0x00FFFFFFFFFFF001#64 }) ∧
  (∀ c, c < 64 → off = 0x80008 + 0x200 * c →
    t = putRace s c { raceOf s c with tenant := v.toNat % 64, assigned := v.getLsbD 7 }) ∧
  (∀ i k, i < 64 → k < 128 → off = 0xA0000 + 0x400 * i + 8 * k →
    t = { s with rot := NMap.set s.rot i (NMap.set (NMap.getD s.rot i []) k v) }) ∧
  ∀ m, m < 8 →
    let x := dettabOf s m
    let put := fun (y : DetTable) => if tableBound s m then s else { s with dettab := NMap.set s.dettab m y }
    (off = 0xB0000 + 0x20 * m → t = put { x with base := v.toNat / 64 * 64 }) ∧
    (off = 0xB0008 + 0x20 * m → t = put { x with ntok := v.toNat % 2 ^ 32 }) ∧
    (off = 0xB0010 + 0x20 * m → t = put { x with pool := v.toNat % 2 ^ 32 })

/-- What a store of v to the word at `off` of the trunk control window leaves (R50); the registers whose write is an event of its own (TRTAIL,
SNAPCTL, WQTAIL, ...) have clauses of their own. -/
def ControlWrites (s t : State) (off : Nat) (v : Word) : Prop :=
  FirstPageWrites s t off v ∧ TimeWrites s t off v ∧ QueueWrites s t off v ∧ TableWrites s t off v

end Sys2Proof.Machine
end

