-- ==== Sys2Proof/Certificates/Slice0/Obligations.lean ====
section
/-! DEFINITION. The statements for the provers. -/

open Sys2Proof Sys2Proof.Machine

/-! ## Scalar instructions -/

/-- R277, R278, R279: every scalar integer instruction but the bit-field inserts completes, writes its result whole to sd (s0 discards it,
R121) and changes nothing else: no other register, no flag, no special register, no byte of memory. -/
def Obligations.ScalarResults : Prop :=
  ∀ (i : Instr) (s : State) (sd : BitVec 5) (v : Word), scalarResult (getS s) (me s).pc i = some (sd, v) →
    ∃ t, exec i s = .next t ∧ WritesReg s t sd v

/-- R279: BFI and its register-width form complete, replace bits off to min(off + wid, 64) − 1 of sd by the low bits of s[sa], and change
nothing else. -/
def Obligations.BitFieldInserts : Prop :=
  (∀ (o : BfOps) (s : State), ∃ t v, exec (.bfi o) s = .next t ∧ WritesReg s t o.sd v ∧
    ∀ k, k < 64 → v.getLsbD k = insertedBit (getS s o.sd) (getS s o.sa) o.off.toNat o.wid.toNat k) ∧
  (∀ (o : BfrOps) (s : State), ∃ t v, exec (.bfiReg o) s = .next t ∧ WritesReg s t o.sd v ∧
    ∀ k, k < 64 → v.getLsbD k = insertedBit (getS s o.sd) (getS s o.sa) o.off.toNat (regWidth (getS s o.rw)) k)

/-- R280, R281, R185: every scalar f32 instruction completes, writes its result to sd, accrues its flags in FFLAGS, and changes nothing
else. -/
def Obligations.ScalarFpResults : Prop :=
  ∀ (i : Instr) (s : State) (sd : BitVec 5) (v : Nat) (fl : FFlags), scalarFpResult (getS s) i = some (sd, (v, fl)) →
    ∃ t, exec i s = .next t ∧ WritesRegFlags s t sd (BitVec.ofNat 64 v) fl

/-! ## Scalar accesses -/

/-- R282, R256: LD on an address that R146 admits, at a place of this package without poison and with nothing earlier of the strand to wait
for, completes: it writes the value of the size code to sd, the TLB may take the leaf, and nothing else changes. The model's own choices
in it: log 49, log 51. -/
def Obligations.LoadResults : Prop :=
  ∀ (o : LOps) (s : State) (p : Place) (b : List Byte), Fresh s → streamOf (me s) = [] →
    checkScalar s (me s) .load (accSize o.sz) (getS s o.sa + o.imm.signExtend 64) = .ok p →
    localBytes s p (accSize o.sz) = some b →
    ∃ t, exec (.ld o) s = .next t ∧ WritesReg { s with tlb := t.tlb } t o.sd (loadedValue o.sz b)

/-- R282, R161: ST on an address that R146 admits completes: a write of the low bytes of s[sd] at that place enters the strand's issue
stream. No register, no flag and no byte of memory changes until the write leaves the path queue. One that has entered its path queue before
its strand stopped in the same convoy completes and does not enter it again. The model's own choices in it: log 20. -/
def Obligations.StoreIssues : Prop :=
  ∀ (o : LOps) (s : State) (p : Place),
    checkScalar s (me s) .store (accSize o.sz) (getS s o.sa + o.imm.signExtend 64) = .ok p →
    ∃ t, exec (.st o) s = .next t ∧
      if hasEntered (me s) s.slot = true then MeBecomes { s with tlb := t.tlb } t (me s)
      else
        Queues s t (.acc { path := .ls, place := p, va := getS s o.sa + o.imm.signExtend 64, size := accSize o.sz,
                           kind := .write (bytesOf (accSize o.sz) (getS s o.sd).toNat), rel := false, acq := false, dom := false, group := 0,
                           ordered := false, fill := none, slot := s.slot, mark := (me s).armed })

/-- R283, R286, R161: a RED form, and AMOEA of an accumulator that is not poisoned, on an address that R146 admits completes: the atomic enters the
strand's issue stream with its order and scope, and nothing else changes. One that has performed before its turn, or has entered its path
queue before its strand stopped in the same convoy, completes and does nothing again. The model's own choices in it: log 17, log 20. -/
def Obligations.RedIssues : Prop :=
  (∀ (i : Instr) (s : State) (op : AtomOp) (n : Nat) (sa sb : BitVec 5) (ord : BitVec 2) (scope : BitVec 3) (p : Place),
    redForm i = some (op, n, sa, sb, ord, scope) → s.look = none → checkScalar s (me s) .atomic n (getS s sa) = .ok p →
    ∃ t, exec i s = .next t ∧
      if performedBefore s = false then
        Queues s t (.acc { path := .ls, place := p, va := getS s sa, size := n,
                           kind := .atomic op n (BitVec.ofNat 512 ((getS s sb).toNat % 2 ^ (8 * n))), rel := decide (2 ≤ ord.toNat),
                           acq := ord.toNat % 2 == 1, dom := scope.toNat == 5, group := 0, ordered := false, fill := none,
                           slot := s.slot, mark := (me s).armed })
      else MeBecomes { s with tlb := t.tlb } t (me s)) ∧
  (∀ (o : AeOps) (s : State) (p : Place), (me s).eaPois.getLsbD o.ea.toNat = false → s.look = none →
    checkScalar s (me s) .atomic 64 (getS s o.sa) = .ok p →
    ∃ t, exec (.amoea o) s = .next t ∧
      if performedBefore s = false then
        Queues s t (.acc { path := .ls, place := p, va := getS s o.sa, size := 64,
                           kind := .atomic .ea 64 (eaClean ((me s).eas.getD o.ea.toNat eaInit)), rel := decide (2 ≤ o.ord.toNat),
                           acq := o.ord.toNat % 2 == 1, dom := o.scope.toNat == 5, group := 0, ordered := false, fill := none,
                           slot := s.slot, mark := (me s).armed })
      else MeBecomes { s with tlb := t.tlb } t (me s))

/-- R166, R283, R284, R285: an atomic that returns its old value, on memory of this package that is not poisoned, with nothing
earlier of the strand outstanding, completes: sd receives the old value, zero-extended; the location receives the operation's new value
where it writes one; FFLAGS accrues the operation's flags (none for the integer forms); the issuer's die (on a page of this package's own
id every die, R27) applies what the home die has applied; the strand notes that the atomic has performed, and nothing else changes. What it
has done stands when a later syllable of its convoy faults (R393). -/
def Obligations.AtomicResults : Prop :=
  ∀ (i : Instr) (s : State) (op : AtomOp) (n : Nat) (sd sa sb : BitVec 5) (ord : BitVec 2) (scope : BitVec 3) (p : Place) (loc home : Nat),
    amoForm i = some (op, n, sd, sa, sb, ord, scope) → Fresh s → Quiet (me s) → memPlace p = some (loc, home) →
    checkScalar s (me s) .atomic n (getS s sa) = .ok p → vacatedFrame s loc = false → memPoisoned s.ord home loc n = false →
    let old := numOf (Memory.getBytes (viewOf s.ord home) loc n)
    let v := (getS s sb).toNat % 2 ^ (8 * n)
    let o1 := match atomicResult op n old v ((getS s sd).toNat % 2 ^ (8 * n)) with
      | some x => performWrite s.ord home loc home (bytesOf n x)
      | none => s.ord
    ∃ t, exec i s = .next t ∧ RegsAfter s t sd (BitVec.ofNat 64 old) ∧ (me t).fflags = (me s).fflags ||| atomicFlags op old v ∧
      { me t with regs := (me s).regs, fflags := (me s).fflags } = noteDone (me s) s.slot 0 (bytesOf n old) ∧
      t.ord = (match p with
        | .own _ _ => reachAll o1 (appliedOf o1 home)
        | _ => reach o1 (me s).die (appliedOf o1 home)) ∧
      StandsNow s t ∧ { t with strands := s.strands, tlb := s.tlb, ord := s.ord, convoy := s.convoy } = s ∧
      ∀ k, k ≠ s.cur → strandOf t k = strandOf s k

/-- R146, R109 to R111: a scalar load, store or atomic whose address fails a check takes the exception of that check with EVAL the address,
and nothing of its convoy stands (AMOEA: of an accumulator that is not poisoned). R139, R140: the checks in their order: a misaligned
address, then an address that is not canonical, lies in the scratchpad aperture, or lies in the trunk control window of a strand that
is not trunk. -/
def Obligations.AccessFaults : Prop :=
  (∀ (i : Instr) (s : State) (a : Acc) (n c : Nat) (va : Word), scalarAccess s i = some (a, n, va) →
    checkScalar s (me s) a n va = .error c → exec i s = .next (takeException (rollback s) c va 0)) ∧
  (∀ (o : AeOps) (s : State) (c : Nat), (me s).eaPois.getLsbD o.ea.toNat = false →
    checkScalar s (me s) .atomic 64 (getS s o.sa) = .error c →
    exec (.amoea o) s = .next (takeException (rollback s) c (getS s o.sa) 0)) ∧
  (∀ (s : State) (st : Strand) (a : Acc) (n : Nat) (va : Word),
    (va.toNat % n ≠ 0 → checkScalar s st a n va = .error 0x03) ∧
    (va.toNat % n = 0 → va.toNat / 2 ^ 56 ≠ 0 → va.toNat / 2 ^ 56 ≠ 255 → checkScalar s st a n va = .error 0x04) ∧
    (va.toNat % n = 0 → va.toNat / 2 ^ 48 = 0xFF00 → checkScalar s st a n va = .error 0x04) ∧
    (va.toNat % n = 0 → 0xFFFE ≤ va.toNat / 2 ^ 48 → st.trunk = false → checkScalar s st a n va = .error 0x04))

/-! ## Control and system instructions -/

/-- R287, R255: branches and jumps complete. A taken branch goes to the convoy off convoys away when its convoy retires, a branch that is not
taken changes nothing; JAL and JALR write the address of the next convoy to sd, JALR computes its target from s[sa] before that, and takes
misaligned with EVAL the target where bits 3:0 of it are not zero. -/
def Obligations.BranchesAndJumps : Prop :=
  (∀ (i : Instr) (s : State) (taken : Bool) (off : BitVec 16), branchRule (getS s) i = some (taken, off) →
    ∃ t, exec i s = .next t ∧
      MeBecomes s t (if taken then { me s with npc := (me s).pc + 16 * off.signExtend 64 } else me s)) ∧
  (∀ (o : JOps) (s : State), ∃ t, exec (.j o) s = .next t ∧ MeBecomes s t { me s with npc := (me s).pc + 16 * o.off.signExtend 64 }) ∧
  (∀ (o : JalOps) (s : State), ∃ t, exec (.jal o) s = .next t ∧ OnlyMe s t ∧
    { me t with regs := (me s).regs, npc := (me s).npc } = me s ∧ RegsAfter s t o.sd ((me s).pc + 16) ∧
    (me t).npc = (me s).pc + 16 * o.off.signExtend 64) ∧
  (∀ (o : IOps) (s : State), (getS s o.sa + 16 * o.imm.signExtend 64).toNat % 16 = 0 →
    ∃ t, exec (.jalr o) s = .next t ∧ OnlyMe s t ∧ { me t with regs := (me s).regs, npc := (me s).npc } = me s ∧
      RegsAfter s t o.sd ((me s).pc + 16) ∧ (me t).npc = getS s o.sa + 16 * o.imm.signExtend 64) ∧
  (∀ (o : IOps) (s : State), (getS s o.sa + 16 * o.imm.signExtend 64).toNat % 16 ≠ 0 →
    exec (.jalr o) s = .next (takeException (rollback s) 0x03 (getS s o.sa + 16 * o.imm.signExtend 64) 0))

/-- R170, R175, R293, R154, R158, R294, R299, R124, R107, R290: FENCE and FENCEX complete: each enters the strand's issue stream (once: not again
where it has entered it before its strand stopped in the same convoy). CWAIT whose tokens are idle and WAITSW whose generation has been reached
complete and change nothing. ICINV with nothing earlier in the path queues and no full queue completes: its core drops its instruction cache lines,
with the convoys fetched ahead, and nothing else changes. YIELD on a P- or D-die gives up the core's issue slots for the rest of the four-cycle
window, on the trunk die it changes nothing, as the empty syllable does everywhere. The model's own choices in it: log 20, log 21, log 49. -/
def Obligations.FencesAndWaits : Prop :=
  (∀ (o : FenceOps) (s : State), ∃ t, exec (.fence o) s = .next t ∧
    if hasEntered (me s) s.slot = true then MeBecomes s t (me s) else Queues s t (.fence o.scope.toNat o.kind.toNat (me s).armed)) ∧
  (∀ (o : FencexOps) (s : State), ∃ t, exec (.fencex o) s = .next t ∧
    if hasEntered (me s) s.slot = true then MeBecomes s t (me s) else Queues s t (.fencex (pathOf o.p) (pathOf o.q) (me s).armed)) ∧
  (∀ (o : CwaitOps) (s : State), (∀ k, k < 8 → o.mask.getLsbD k = true → (tokOf (me s) k).busy = false ∧ (tokOf (me s) k).pend = false) →
    exec (.cwait o) s = .next s) ∧
  (∀ (o : S2ab) (s : State) (key : Nat), (getS s o.sa).toNat % 16 = 0 → inSpad (getS s o.sa) = true →
    checkElem s (me s) .load 16 (getS s o.sa) = .ok (.spad key) → spadPoisoned s.ord key 16 = false → Fresh s → streamOf (me s) = [] →
    (leAt (Memory.getBytes s.ord.spad key 16) 8 4 + 2 ^ 32 - (getS s o.sb).toNat % 2 ^ 32) % 2 ^ 32 < 2 ^ 31 →
    exec (.waitsw o) s = .next s) ∧
  (∀ s : State, streamOf (me s) = [] → overfull (me s) = false →
    ∃ t, exec .icinv s = .next t ∧ NMap.get? t.icache ((me s).sid / 4) = none ∧ { t with icache := s.icache } = s ∧
      ∀ c, c ≠ (me s).sid / 4 → NMap.get? t.icache c = NMap.get? s.icache c) ∧
  (∀ s : State, ∃ t, exec .yield s = .next t ∧
    MeBecomes s t (if (me s).trunk then me s else { me s with yielded := s.power.working / 4 + 1 })) ∧
  (∀ s : State, exec .emptySyllable s = .next s)

/-- R295, R166: BAR in memory of this package, of a strand with nothing earlier to wait for, completes: the 16-byte object takes the arrival (the
last arrival clears ARRIVED and raises GEN; COUNT and bytes 12 to 15 stay) in one atomic at its home die, which has applied what the
issuer's die has; the strand's die (on a page of this package's own id every die) applies what the home die has applied, and the strand
holds the generation it found and waits (STATUS.BARW). The arrival stands when a later syllable of its convoy faults. A cluster barrier of a
record that is no gang is illegal. The model's own choices in it: log 18. -/
def Obligations.BarrierArrival : Prop :=
  (∀ (o : BarOps) (s : State) (p : Place) (loc home : Nat), (o.scope.toNat = 1 → (me s).rec_.gang = true) → Fresh s → Quiet (me s) →
    memPlace p = some (loc, home) → checkScalar s (me s) .atomic 16 (getS s o.sa) = .ok p →
    vacatedFrame s loc = false → memPoisoned s.ord home loc 16 = false →
    let o0 := reach s.ord home (appliedOf s.ord (me s).die)
    let b := Memory.getBytes (viewOf o0 home) loc 16
    let count := numOf (b.take 4)
    let arrived := numOf ((b.drop 4).take 4) + 1
    let gen := numOf ((b.drop 8).take 4)
    let b' := if max count 1 ≤ arrived then b.take 4 ++ bytesOf 4 0 ++ bytesOf 4 ((gen + 1) % 2 ^ 32) ++ b.drop 12
              else b.take 4 ++ bytesOf 4 arrived ++ b.drop 8
    let o1 := performWrite o0 home loc home b'
    ∃ t, exec (.bar o) s = .next t ∧
      t.ord = (match p with
        | .own _ _ => reachAll o1 (appliedOf o1 home)
        | _ => reach o1 (me s).die (appliedOf o1 home)) ∧
      StandsNow s t ∧ { t with strands := s.strands, tlb := s.tlb, ord := s.ord, convoy := s.convoy } = s ∧
      me t = { noteDone (me s) s.slot noteElem b with barw := true, bargen := BitVec.ofNat 32 gen, barAddr := getS s o.sa } ∧
      ∀ k, k ≠ s.cur → strandOf t k = strandOf s k) ∧
  (∀ (o : BarOps) (s : State), o.scope.toNat = 1 → (me s).rec_.gang = false →
    exec (.bar o) s = .next (takeException (rollback s) 0x01 (sylWord s (.bar o)) 0))

/-- R296: TRAP takes cause 0x10 with EVAL = s[sa], and nothing of its convoy stands. -/
def Obligations.TrapTakesException : Prop :=
  ∀ (o : S1a) (s : State), exec (.trap o) s = .next (takeException (rollback s) 0x10 (getS s o.sa) 0)

/-- R297, R127: an exception of a trunk strand with TH = 0 writes CAUSE, EPC (the convoy's address, the syllable's index) and EVAL, sets TH and goes
on at TVEC; every register and every byte of memory stays. With TH = 1 the strand stops. A strand whose convoy waits is taken back to that
convoy's start first; the flags of the old values that have come since stay (R185). None of the strands has a trace record to write. The
model's own choices in it: log 11. -/
def Obligations.TrunkException : Prop :=
  (∀ (s : State) (c n : Nat) (ev : Word), (me s).trunk = true → (me s).th = false → NMap.get? s.held s.cur = none → (me s).marks = [] →
    let t := takeException s c ev n
    me t = trunkEntry (dropAnswers s { me s with
        pq := (me s).pq ++ (me s).wbuf, wbuf := [], early := [], answers := (me s).answers.filter (!isOwnNote ·) }) s.slot c ev ∧
    (∀ r, getS t r = getS s r) ∧ SameMemory s t ∧
    { t with strands := s.strands, convoy := s.convoy, ord := s.ord, fabric := s.fabric } = s ∧
    { t.ord with performed := s.ord.performed, dead := s.ord.dead } = s.ord ∧
    { t.fabric with protoErr := s.fabric.protoErr } = s.fabric) ∧
  (∀ (s : State) (c n : Nat) (ev : Word), (me s).trunk = true → (me s).th = true → NMap.get? s.held s.cur = none → (me s).marks = [] →
    (me (takeException s c ev n)).run = .dead ∧ SameMemory s (takeException s c ev n)) ∧
  (∀ (s : State) (h : Hold), NMap.get? s.held s.cur = some h → h.start.marks = [] →
    let t := abandon s s.cur
    NMap.get? t.held s.cur = none ∧ (∀ r, getS t r = sread h.start r.toNat) ∧ (me t).pc = h.start.pc ∧ (me t).npc = h.start.npc ∧
      (me t).preds = h.start.preds ∧ (me t).vregs = h.start.vregs ∧ (me t).eas = h.start.eas ∧ (me t).vl = h.start.vl ∧
      (me t).fflags = h.start.fflags ||| (me s).brought ∧ (me t).wbuf = [] ∧ (me t).pq = (me s).pq ++ h.start.wbuf ∧ SameMemory s t)

/-- R109 to R115: an exception of a P- or D-die strand stops the strand at its convoy with CAUSE, EPC (the convoy's address, the syllable's index)
and EVAL written; every register and every byte of memory stays, while the die's fault ring is off. The other members of its gang stop with it and
have not faulted. With FLTCTL.EN = 1 and a free save slot the strand's context stands in the slot, its record is parked, the strand slot is free,
and a fault record of kind 0 stands at the head of the ring; without a free slot the strand stays stopped and a record of kind 3 is written. The
last clause says what it means that a convoy that faults retires nothing: `rollback` gives back every strand (its registers, its queues with their
pointers), every view of memory, every scratchpad, and every unit's state as they stood where the convoy began; what remains is no part of the
convoy's effect (the agenda, the syllable in progress, the instruction caches, the count of free values). -/
def Obligations.StrandException : Prop :=
  (∀ (s : State) (c n : Nat) (ev : Word), (me s).trunk = false → (dispOf s (me s).die).fltEn = false →
    (me s).sid = s.cur → gangOf s (me s) = [me s] → NMap.get? s.held s.cur = none → (me s).marks = [] →
    let t := takeException s c ev n
    (me t).run = .stopped ∧ (me t).faulted = true ∧ (me t).cause = BitVec.ofNat 64 c ∧
      (me t).epc = BitVec.ofNat 64 ((me s).pc.toNat / 16 * 16 + s.slot % 4) ∧ (me t).eval = ev ∧ (me t).pc = (me s).pc ∧
      (∀ r, getS t r = getS s r) ∧ SameMemory s t) ∧
  (∀ (s : State) (c n k : Nat) (ev : Word), (me s).trunk = false → (dispOf s (me s).die).fltEn = false → (me s).sid = s.cur →
    NMap.get? s.held s.cur = none →
    strandOf s k ∈ gangOf s (me s) → k ≠ s.cur → (strandOf s k).sid = k → (strandOf s k).run = .running → NMap.get? s.held k = none →
    let t := takeException s c ev n
    (strandOf t k).run = .stopped ∧ (strandOf t k).faulted = false ∧ (strandOf t k).regs = (strandOf s k).regs ∧
      (strandOf t k).pc = (strandOf s k).pc) ∧
  (∀ (s : State) (c n m : Nat) (ev : Word) (l : List Nat), Stopping s → freeSlotsOf (dispOf s (me s).die) = m :: l →
    let t := takeException s c ev n
    let d := (me s).die
    let x := dispOf s d
    let a := slotAddr x m
    let r := ringSlot x
    locMem a ≤ 8 → vacatedFrame s a = false → locMem r ≤ 8 → vacatedFrame s r = false → (r + 64 ≤ a ∨ a + 1024 ≤ r) →
    strandOf t s.cur = Strand.idle s.cur (s.cur < 512) ∧ (dispOf t d).fltHead = x.fltHead + 1 ∧
      FaultRecord (Memory.getBytes (viewOf t.ord d) r 64) s c ev n 0 m ∧
      SavedContext (Memory.getBytes (viewOf t.ord d) a 1024) s c ∧
      ∃ v, NMap.get? (dispOf t d).saved m = some v ∧ v.parked = true ∧ v.strand.rec_.slots = [m] ∧ v.strand.rec_.parked = true ∧
        v.strand.regs = (me s).regs ∧ v.strand.vregs = (me s).vregs ∧ v.strand.preds = (me s).preds) ∧
  (∀ (s : State) (c n : Nat) (ev : Word), Stopping s → freeSlotsOf (dispOf s (me s).die) = [] →
    let t := takeException s c ev n
    let d := (me s).die
    let x := dispOf s d
    let r := ringSlot x
    locMem r ≤ 8 → vacatedFrame s r = false →
    (me t).run = .stopped ∧ (me t).faulted = true ∧ (me t).reported = true ∧ (∀ q, getS t q = getS s q) ∧
      (dispOf t d).fltHead = x.fltHead + 1 ∧ FaultRecord (Memory.getBytes (viewOf t.ord d) r 64) s c ev n 3 0xFFFF) ∧
  (∀ (s s0 : State) (ws : List (BitVec 32)) (replay : Bool), s.convoy = some (checkpoint s0 ws replay) →
    { rollback s with
      powered := s0.powered, sched := s0.sched, arg := s0.arg, cur := s0.cur, slot := s0.slot, convoy := s0.convoy, look := s0.look, held := s0.held,
      icache := s0.icache, batches := s0.batches, free := s0.free } = s0)

/-- R297, R36: ERET of a trunk strand with TH = 1 clears TH and issues the convoy at EPC bits 63:4 next; every register and every byte of memory
stays; requests whose flits were held are sent again. Anywhere else it is illegal. -/
def Obligations.ExceptionReturn : Prop :=
  (∀ s : State, (me s).trunk = true → (me s).th = true →
    ∃ t, exec .eret s = .next t ∧ (me t).th = false ∧ (me t).npc = BitVec.ofNat 64 ((me s).epc.toNat / 16 * 16) ∧
      { me t with th := true, npc := (me s).npc, answers := (me s).answers, outst := (me s).outst } = me s ∧ SameMemory s t ∧
      ∀ k, k ≠ s.cur → strandOf t k = strandOf s k) ∧
  (∀ s : State, ((me s).trunk && (me s).th) = false → exec .eret s = .next (takeException (rollback s) 0x01 (sylWord s .eret) 0))

/-- R298, R300: SYSR of a register that the strand's kind has completes and writes its value to sd; SYSW completes and writes its writable fields:
STATUS.TH, CAUSE, EPC bits 63:4 and 1:0 and EVAL on a trunk strand only, FFLAGS, SPBOUND and TVEC; a read-only register keeps its value. FFLAGS
waits for the flags of a VAMO.RET of an earlier convoy whose old values are to come (R332). A register that the kind does not have is illegal. The
last clauses say what every register reads as. The model's own choices in it: log 56. -/
def Obligations.SystemRegisters : Prop :=
  (∀ (o : SysrOps) (s : State), sysOk (me s).trunk o.reg.toNat = true →
    flagsDue s o.reg.toNat = false →
    ∃ t, exec (.sysr o) s = .next t ∧ WritesReg s t o.sd (sysRead s (me s) o.reg.toNat)) ∧
  (∀ (o : SyswOps) (s : State), sysOk (me s).trunk o.reg.toNat = true →
    flagsDue s o.reg.toNat = false →
    ∃ t, exec (.sysw o) s = .next t ∧ OnlyMe s t ∧
      ((o.reg = 0x0A ∧ me t = { me s with fflags := (getS s o.sa).setWidth 5 }) ∨
       (o.reg = 0x0B ∧ me t = { me s with spbound := getS s o.sa &&& 0x01FFFFFF00FFFFFF#64 }) ∨
       (o.reg = 0x0D ∧ me t = { me s with tvec := getS s o.sa &&& 0xFFFFFFFFFFFFFFF0#64 }) ∨
       (o.reg = 0x00 ∧ (me s).trunk = true ∧ me t = { me s with th := (getS s o.sa).getLsbD 1 }) ∨
       (o.reg = 0x01 ∧ (me s).trunk = true ∧ me t = { me s with cause := getS s o.sa }) ∨
       (o.reg = 0x02 ∧ (me s).trunk = true ∧ me t = { me s with epc := getS s o.sa &&& 0xFFFFFFFFFFFFFFF3#64 }) ∨
       (o.reg = 0x03 ∧ (me s).trunk = true ∧ me t = { me s with eval := getS s o.sa }) ∨
       (me t = me s ∧ o.reg ≠ 0x0A ∧ o.reg ≠ 0x0B ∧ o.reg ≠ 0x0D ∧ ((me s).trunk = false ∨ 3 < o.reg.toNat)))) ∧
  (∀ (o : SysrOps) (s : State), sysOk (me s).trunk o.reg.toNat = false →
    exec (.sysr o) s = .next (takeException (rollback s) 0x01 (sylWord s (.sysr o)) 0)) ∧
  (∀ (o : SyswOps) (s : State), sysOk (me s).trunk o.reg.toNat = false →
    exec (.sysw o) s = .next (takeException (rollback s) 0x01 (sylWord s (.sysw o)) 0)) ∧
  (∀ (s : State) (st : Strand), sysRead s st 0x01 = st.cause ∧ sysRead s st 0x02 = st.epc ∧ sysRead s st 0x03 = st.eval ∧
    sysRead s st 0x04 = BitVec.ofNat 64 st.vstart ∧ sysRead s st 0x05 = BitVec.ofNat 64 st.vhwm ∧ sysRead s st 0x06 = BitVec.ofNat 64 st.vl ∧
    sysRead s st 0x07 = BitVec.ofNat 64 st.maxvl ∧ sysRead s st 0x0A = st.fflags.setWidth 64 ∧ sysRead s st 0x0B = st.spbound ∧
    sysRead s st 0x0C = BitVec.ofNat 64 (if st.trunk then s.power.trunkHalf / 2 else s.power.working) ∧
    sysRead s st 0x0D = st.tvec ∧ sysRead s st 0x0E = st.bargen.setWidth 64) ∧
  (∀ (s : State) (st : Strand), (sysRead s st 0x00).getLsbD 0 = st.trunk ∧ (sysRead s st 0x00).getLsbD 1 = st.th ∧
    (sysRead s st 0x00).getLsbD 2 = st.barw ∧ (sysRead s st 0x00).extractLsb' 3 10 = 0 ∧
    (sysRead s st 0x00).extractLsb' 13 7 = BitVec.ofNat 7 st.core ∧ (sysRead s st 0x00).extractLsb' 20 4 = BitVec.ofNat 4 st.die ∧
    (sysRead s st 0x00).extractLsb' 24 2 = BitVec.ofNat 2 st.slotNo ∧ (sysRead s st 0x00).extractLsb' 26 6 = BitVec.ofNat 6 st.tenant ∧
    (sysRead s st 0x00).extractLsb' 32 32 = 0) ∧
  (∀ (s : State) (st : Strand), sysRead s st 0x08 = BitVec.ofNat 64 (((holdOf s st).map (·.grant)).getD 0) ∧
    sysRead s st 0x09 = (NMap.getD (dispOf s st.die).lanedis st.core 0).setWidth 64 ∧
    sysRead s st 0x10 = st.rpt.rpc ∧ (sysRead s st 0x11).getLsbD 63 = st.rpt.active ∧
    (sysRead s st 0x11).extractLsb' 34 29 = 0 ∧ (sysRead s st 0x11).extractLsb' 32 2 = BitVec.ofNat 2 st.rpt.conv ∧
    (sysRead s st 0x11).extractLsb' 0 32 = BitVec.ofNat 32 st.rpt.kidx ∧ sysRead s st 0x12 = BitVec.ofNat 64 st.rpt.trip ∧
    sysRead s st 0x13 = BitVec.ofNat 64 st.rpt.map0 ∧ sysRead s st 0x14 = BitVec.ofNat 64 st.rpt.map1 ∧
    (sysRead s st 0x15).extractLsb' 12 3 = BitVec.ofNat 3 st.rpt.nstg ∧ (sysRead s st 0x15).extractLsb' 6 6 = BitVec.ofNat 6 st.rpt.rbase ∧
    (sysRead s st 0x15).extractLsb' 0 6 = BitVec.ofNat 6 st.rpt.rsize ∧ (sysRead s st 0x15).extractLsb' 15 49 = 0) ∧
  (∀ (s : State) (st : Strand) (k : Nat), k < 8 →
    (sysRead s st (0x20 + k)).getLsbD 63 = (tokOf st k).busy ∧ (sysRead s st (0x20 + k)).extractLsb' 32 31 = 0 ∧
    (sysRead s st (0x20 + k)).extractLsb' 0 32 = BitVec.ofNat 32 (tokOf st k).expected ∧
    (sysRead s st (0x28 + k)).getLsbD 63 = (tokOf st k).pend ∧ (sysRead s st (0x28 + k)).extractLsb' 32 31 = 0 ∧
    (sysRead s st (0x28 + k)).extractLsb' 0 32 = BitVec.ofNat 32 (tokOf st k).landed) ∧
  (∀ (s : State) (st : Strand) (m j : Nat), m < 8 → j < 4 →
    sysRead s st (0x40 + 4 * m + j) = (s.sec.meas.getD m 0).extractLsb' (64 * j) 64)

/-- R121, R261: on a trunk strand every vector, queue, matrix and index syllable, REPF, and the race syllables that use vector state take
unavailable with EVAL the syllable, and nothing of the convoy stands. -/
def Obligations.TrunkUnavailable : Prop :=
  ∀ (i : Instr) (s : State), barsTrunk i = true → (me s).trunk = true →
    exec i s = .next (takeException (rollback s) 0x02 (sylWord s i) 0)

/-- R134, R135: REPF in slot 0, with its data words and its captured convoys legal and no other words of them held by its core, completes: with a
trip count of 0 the strand goes on after the captured convoys; else the repeat registers hold the frame, the sixteen words are captured, and the
strand goes to the first captured convoy. The other clauses are R135's replays, R136 and R137: a step of a strand within a frame runs the syllables
of captured convoy CONV that have an iteration in replay KIDX, as a convoy at RPTPC + 0x10 + 16 × CONV, every vector register field n read as rot(n,
KIDX), queues and vz as they are; when the convoy retires, the next captured convoy follows, after the fourth the next replay, and after replay trip
+ s − 2 the frame ends at RPTPC + 0x50 with ACTIVE clear. -/
def Obligations.RepeatFrame : Prop :=
  (∀ (o : RepfOps) (s : State) (ws cs : List (BitVec 32)), (me s).trunk = false → s.slot % 4 = 0 →
    ownWords s = .ok ws → (o.rsize = 0 ∨ o.rbase.toNat + o.rsize.toNat ≤ budgetRegs (me s).budget) →
    (ws.getD 2 0).toNat < 65536 → ws.getD 3 0 = 0 → captureWords s (me s) (me s).pc 4 = .ok cs →
    (∀ c, c < 4 → staleWords s (me s) ((me s).pc + BitVec.ofNat 64 (16 * (c + 1))) = none) →
    badCapture (o.stg.toNat + 1) (ws.getD 1 0).toNat (ws.getD 2 0).toNat 0 cs = none →
    ∃ t, exec (.repf o) s = .next t ∧
      MeBecomes s t (if (getS s o.str).toNat % 2 ^ 32 = 0 then { me s with npc := (me s).pc + 0x50 }
        else { me s with
          rpt := { active := true, conv := 0, kidx := 0, rpc := (me s).pc, trip := (getS s o.str).toNat % 2 ^ 32,
                   map0 := (ws.getD 1 0).toNat, map1 := (ws.getD 2 0).toNat, nstg := o.stg.toNat, rbase := o.rbase.toNat,
                   rsize := o.rsize.toNat }
          cap := cs
          npc := (me s).pc + 0x10 })) ∧
  (∀ (s : State) (c : Nat) (is_ : Nat → Instr),
    let st := strandOf s c
    let ws := frameWords st
    let ren := renameInstr (rotField st.rpt.rbase st.rpt.rsize st.rpt.kidx)
    let l := (slotOrder ws).map fun k => (k, ws.getD k 0, is_ k)
    Replaying s c → (∀ k, k < 4 → decodeSyllable (ws.getD k 0).toNat = .ok (is_ k)) → Steady ren (replayOpened s c) l →
    step s = runDecoded ren retireReplay ws Trail.start (replayOpened s c) l) ∧
  (∀ st : Strand, st.rpt.active = true → stepRepeat st =
    if st.rpt.conv < 3 then
      { st with rpt := { st.rpt with conv := st.rpt.conv + 1 }, npc := st.rpt.rpc + BitVec.ofNat 64 (0x10 + 16 * (st.rpt.conv + 1)) }
    else if st.rpt.kidx < st.rpt.trip + (st.rpt.nstg + 1) - 2 then
      { st with rpt := { st.rpt with conv := 0, kidx := st.rpt.kidx + 1 }, npc := st.rpt.rpc + 0x10 }
    else { st with rpt := { st.rpt with conv := 0, kidx := st.rpt.kidx + 1, active := false }, npc := st.rpt.rpc + 0x50, cap := [] }) ∧
  (∀ (rbase rsize k : Nat) (n : BitVec 6), rbase + rsize ≤ 56 → (rotField rbase rsize k n).toNat =
    if 0 < rsize ∧ rbase ≤ n.toNat ∧ n.toNat < rbase + rsize then rbase + (n.toNat - rbase + k) % rsize else n.toNat) ∧
  (∀ (f : BitVec 6 → BitVec 6) (o : V3), renameInstr f (.vadd o) = .vadd { o with vd := f o.vd, va := f o.va, vb := f o.vb }) ∧
  (∀ (f : BitVec 6 → BitVec 6) (o : VredOps), renameInstr f (.vredsum o) = .vredsum { o with va := f o.va }) ∧
  ∀ (f : BitVec 6 → BitVec 6) (o : Vs3), renameInstr f (.vaddVs o) = .vaddVs { o with vd := f o.vd, va := f o.va }

/-! ## Records and launches -/

/-- R289, R98, R101: DONE of a P- or D-die strand that has nothing under way and no late failure, and whose tokens are idle, completes and ends the
strand: its slot is idle, its array slices, its index partition and its save slot are free, and its child cell's count falls. Where it
names no successor, or the strand's rank is not 0, the cell's continuation is to subtract 1 from the parent; a DONE of rank 0 that names a
successor whose word 0 is well-formed reads it and sets the continuation to enqueue it; one whose word 0 is malformed takes launch with
EVAL its address. The die then serves the faults that wait for a slot (R113). On a trunk strand DONE is illegal. -/
def Obligations.RecordEnds : Prop :=
  (∀ (o : S1a) (s : State), Ending s → (o.sa = 0 ∨ (me s).rank ≠ 0) →
    ∃ t u, exec (.done o) s = .next t ∧ t = serveFaults u (me s).die ∧ Ended s u none) ∧
  (∀ (o : S1a) (s : State) (p : Place) (b : List Byte), Ending s → o.sa ≠ 0 → (me s).rank = 0 → Fresh s →
    checkScalar s (me s) .load 32 (doneAddr s o.sa) = .ok p → localBytes s p 32 = some b → successorBad (me s).rec_ b = false →
    ∃ t u, exec (.done o) s = .next t ∧ t = serveFaults u (me s).die ∧ Ended s u (some (successorOf (me s).rec_ b))) ∧
  (∀ (o : S1a) (s : State) (p : Place) (b : List Byte), Ending s → o.sa ≠ 0 → (me s).rank = 0 → Fresh s →
    checkScalar s (me s) .load 32 (doneAddr s o.sa) = .ok p → localBytes s p 32 = some b → successorBad (me s).rec_ b = true →
    exec (.done o) s = .next (takeException (rollback s) 0x11 (doneAddr s o.sa) 0)) ∧
  (∀ (o : S1a) (s : State), (me s).trunk = true → exec (.done o) s = .next (takeException (rollback s) 0x01 (sylWord s (.done o)) 0))

/-- R291: LAUNCH whose packet and slot pass their checks completes: the packet stands in the slot at WQTAIL, where die 0 has applied it, WQTAIL
moves on by one slot, a packet of type 3 raises its parent cell's count, and sd receives the launch id. It stands when a later syllable of its
convoy faults (R393). One that had launched before its strand stopped in the same convoy only writes its id again. A packet whose slot lies on
another package leaves for it as a store of the unit does (R153). The model's own choices in it: log 16. -/
def Obligations.LaunchEnqueues : Prop :=
  (∀ (o : S3) (s : State) (loc home loc' home' : Nat),
    let s1 := tlbFill s (me s) (getS s o.sa)
    let q := 512 + 64 * (me s).tenant + (getS s o.sb).toNat
    let x := queueOf s q
    let b := memRead s (me s).die loc 64
    let w := fun i => leAt b (8 * i) 8
    let o1 := performWrite s.ord (me s).die loc' home' b
    (me s).trunk = false → Fresh s → Quiet (me s) →
    checkScalar s (me s) .load 64 (getS s o.sa) = .ok (.mem loc home) → readPoisoned s (me s).die loc 64 = false →
    (getS s o.sb).toNat ≤ 63 → x.en = true → x.stop = 0 → badWord false x.nextId w = none →
    (leAt b 0 1 = 3 → linkOk s (me s).tenant (w 3 / 2 ^ 32) = true) → queueHeld x < queueSlots x - 1 →
    checkScalar s1 (me s) .store 64 (BitVec.ofNat 64 (x.base.toNat + x.tail)) = .ok (.mem loc' home') →
    vacatedFrame s loc' = false →
    ∃ t, exec (.launch o) s = .next t ∧ RegsAfter s t o.sd (BitVec.ofNat 64 x.nextId) ∧
      { me t with regs := (me s).regs } = noteDone (me s) s.slot noteElem (bytesOf 8 x.nextId) ∧
      queueOf t q = { x with tail := (x.tail + 64) % (64 * queueSlots x), nextId := nextId x.nextId } ∧
      (∀ k, k ≠ q → queueOf t k = queueOf s k) ∧
      (leAt b 0 1 ≠ 3 → t.cells = s.cells) ∧
      (leAt b 0 1 = 3 → ∀ y, NMap.get? s.cells (w 3 / 2 ^ 32) = some y →
        NMap.get? t.cells (w 3 / 2 ^ 32) = some { y with count := y.count + 1 }) ∧
      t.ord = reach o1 0 (appliedOf o1 (me s).die) ∧ StandsNow s t ∧ (∀ k, k ≠ s.cur → strandOf t k = strandOf s k)) ∧
  (∀ (o : S3) (s : State) (loc home pkg pa : Nat),
    let s1 := tlbFill s (me s) (getS s o.sa)
    let q := 512 + 64 * (me s).tenant + (getS s o.sb).toNat
    let x := queueOf s q
    let b := memRead s (me s).die loc 64
    let va := BitVec.ofNat 64 (x.base.toNat + x.tail)
    (me s).trunk = false → Fresh s → Quiet (me s) → s.cur ≠ unitSid →
    checkScalar s (me s) .load 64 (getS s o.sa) = .ok (.mem loc home) → readPoisoned s (me s).die loc 64 = false →
    (getS s o.sb).toNat ≤ 63 → x.en = true → x.stop = 0 → badWord false x.nextId (fun i => leAt b (8 * i) 8) = none → leAt b 0 1 ≠ 3 →
    queueHeld x < queueSlots x - 1 → checkScalar s1 (me s) .store 64 va = .ok (.peer pkg pa) →
    ∃ t, exec (.launch o) s = .next t ∧ RegsAfter s t o.sd (BitVec.ofNat 64 x.nextId) ∧
      queueOf t q = { x with tail := (x.tail + 64) % (64 * queueSlots x), nextId := nextId x.nextId } ∧
      strandOf t unitSid = { strandOf s unitSid with
        pq := (strandOf s unitSid).pq ++ [.acc (mkAcc .ls (.peer pkg pa) va b.length (.write b) true false false)] } ∧
      SameMemory { s with ord := reach s.ord 0 (appliedOf s.ord (me s).die) } t) ∧
  (∀ (o : S3) (s : State) (b : List Byte), (me s).trunk = false → doneBefore s noteElem = some b →
    ∃ t, exec (.launch o) s = .next t ∧ WritesReg s t o.sd (BitVec.ofNat 64 (numOf b)))

/-- R292, R108: CANCEL of a queue that its operand names completes: the launch is cancelled and sd receives the report word; a value outside
the range takes launch with EVAL = s[sa]. A launch that is not live, or has finished, is left alone and reports bit 62. Of a live one the
report has bit 63 set where a record of it has been dispatched, and in bits 31:0 the number of records removed: its ready records and its
parked ones, whose save slots are free. No record of it is left to expand, and its status is 1. The model's own choices in it: log 105. -/
def Obligations.CancelReports : Prop :=
  (∀ (o : S3) (s : State) (q : Nat), cancelQueue (me s) (getS s o.sa).toNat = some q → doneBefore s noteElem = none →
    let r := cancelLaunch s q (launchNo (queueOf s q) ((getS s o.sb).toNat % 2 ^ 32)) 1
    ∃ t, exec (.cancel o) s = .next t ∧ RegsAfter (serveAll r.1) t o.sd r.2 ∧
      { t with strands := (serveAll r.1).strands, convoy := (serveAll r.1).convoy } = serveAll r.1 ∧ StandsNow (serveAll r.1) t ∧
      (∀ k, k ≠ s.cur → strandOf t k = strandOf (serveAll r.1) k) ∧
      { me t with regs := (me (serveAll r.1)).regs } = noteDone (me (serveAll r.1)) s.slot noteElem (bytesOf 8 r.2.toNat)) ∧
  (∀ (o : S3) (s : State) (b : List Byte), doneBefore s noteElem = some b →
    ∃ t, exec (.cancel o) s = .next t ∧ WritesReg s t o.sd (BitVec.ofNat 64 (numOf b))) ∧
  (∀ (o : S3) (s : State), cancelQueue (me s) (getS s o.sa).toNat = none → doneBefore s noteElem = none →
    exec (.cancel o) s = .next (takeException (rollback s) 0x11 (getS s o.sa) 0)) ∧
  (∀ (st : Strand) (v : Nat), cancelQueue st v =
    if st.trunk = true then (if v < 4608 then some v else none)
    else if v < 8 then some (8 * st.tenant + v)
    else if v < 72 then some (512 + 64 * st.tenant + (v - 8)) else none) ∧
  (∀ (s : State) (q id status : Nat), (∀ l, launchOf s q id = some l → l.finished = true) →
    cancelLaunch s q id status = (s, BitVec.ofNat 64 (2 ^ 62))) ∧
  (∀ (s : State) (q id status : Nat) (l : Launch), launchOf s q id = some l → l.finished = false →
    let r := cancelLaunch s q id status
    let mine := fun (x : Record) => x.queue == q && x.launch == id
    let parked := ((List.range 8).map fun d => (dispOf s (d + 1)).saved.filter fun e =>
      mine e.2.strand.rec_ && e.2.parked && e.1 == e.2.strand.rec_.slots.headD 4096).flatten
    r.2.getLsbD 63 = decide (l.dispatched ≠ 0) ∧ r.2.extractLsb' 32 31 = 0 ∧
      r.2.extractLsb' 0 32 = BitVec.ofNat 32 ((s.ready.filter mine).length + parked.length) ∧
      (∀ x, x ∈ s.ready → mine x = false → x ∈ r.1.ready) ∧ (∀ x, x ∈ r.1.ready → mine x = true → s.orderNo ≤ x.order) ∧
      (∀ e, e ∈ parked → ∀ k, k ∈ e.2.strand.rec_.slots → NMap.get? (dispOf r.1 e.2.strand.rec_.svDie).saved k = none) ∧
      ∃ l', launchOf r.1 q id = some l' ∧ l'.cancelled = true ∧ l'.status = status ∧ l'.next = ceilDiv l.e l.gran)

/-! ## Vector instructions -/

/-- R117, R122, R123, R259, R305, R320: VCFG (of a count code that is not reserved) records the pending budget; VSETL puts it in force with the MAXVL
of the budget, the share class and the retired lane groups, sets VL to the smaller of s[sa] and MAXVL and writes it to sd; a change of W
makes every element of every vector register 0, a change of the count alone keeps the registers below both counts and the others read 0;
VGETL writes VL to sd; VSETT of a type code up to 10 sets a type slot; FMTSET writes a format descriptor. Each completes and changes
nothing else. The last clause gives MAXVL of every budget with d retired lane groups. -/
def Obligations.VectorConfiguration : Prop :=
  (∀ (o : VcfgOps) (s : State), (me s).trunk = false → o.ncode ≠ 7 →
    ∃ t, exec (.vcfg o) s = .next t ∧ MeBecomes s t { me s with pending := some ⟨o.ncode, o.wcode⟩ }) ∧
  (∀ (o : S2) (s : State), (me s).trunk = false →
    let b := (me s).pending.getD (me s).budget
    let mv := maxvlOf b (me s).rec_.share (lanesRetired s (me s))
    let vl := min (getS s o.sa).toNat mv
    let el := fun (st : Strand) (i k : Nat) => (st.vregs.getD i []).getD k 0
    ∃ t, exec (.vsetl o) s = .next t ∧ OnlyMe s t ∧ RegsAfter s t o.sd (BitVec.ofNat 64 vl) ∧
      { me t with regs := (me s).regs, vregs := (me s).vregs, dirty := (me s).dirty } =
        { me s with budget := b, pending := none, maxvl := mv, vl := vl, vhwm := max (me s).vhwm vl } ∧
      ((me s).pending = none → (me t).vregs = (me s).vregs) ∧
      (∀ p, (me s).pending = some p → p.wcode ≠ (me s).budget.wcode → ∀ i k, el (me t) i k = 0) ∧
      (∀ p, (me s).pending = some p → p.wcode = (me s).budget.wcode → ∀ i k, el (me t) i k =
        if i < min (budgetRegs p) (budgetRegs (me s).budget) then el (me s) i k else 0)) ∧
  (∀ (o : S1d) (s : State), (me s).trunk = false →
    ∃ t, exec (.vgetl o) s = .next t ∧ WritesReg s t o.sd (BitVec.ofNat 64 (me s).vl)) ∧
  (∀ (o : VsettOps) (s : State), (me s).trunk = false → o.ty.toNat ≤ 10 →
    ∃ t, exec (.vsett o) s = .next t ∧
      MeBecomes s t (if o.slot then { me s with vt1 := ⟨o.ty, o.mode⟩ } else { me s with vt0 := ⟨o.ty, o.mode⟩ })) ∧
  (∀ (o : FmtOps) (s : State), (me s).trunk = false →
    ∃ t, exec (.fmtset o) s = .next t ∧ OnlyMe s t ∧ { me t with fds := (me s).fds } = me s ∧
      ∀ k, k < 16 → (me t).fds.getD k 0 = if k = o.fd.toNat then (getS s o.sa).setWidth 32 else (me s).fds.getD k 0) ∧
  (∀ (b : Budget) (share d : Nat), maxvlOf b share d =
    min 16384 (64 * ((if share = 0 then 524288 else if share = 1 then 262144 else 131072) /
      ((8 * (b.ncode.toNat + 1)) * (8 * 2 ^ b.wcode.toNat) / 8) / 64)) * (8 - d) / 8)

/-- R301 to R304, R306, R311: every vector integer instruction, move and VSEL of a P- or D-die strand whose type slot its class admits,
whose fields fit the budget and whose queues hold its elements completes: the active elements of the destination receive their results
modulo the width, inactive elements and elements from VL on stay, no flag changes, and nothing else but the consumed queues. -/
def Obligations.VectorIntResults : Prop :=
  ∀ (i : Instr) (s : State) (F : ElemForm) (srcs : List (List Nat)) (st1 : Strand), intForm s i = some F → (me s).trunk = false →
    F.fits (me s) = true → vsrcs (me s) F.srcs = some (srcs, st1) →
    ∃ t, exec i s = .next t ∧ MeBecomes s t (F.after (me s) st1 srcs)

/-- R301 to R304, R307 to R309: the same of every vector floating-point instruction and of VFCVT, whose flags accrue in FFLAGS. -/
def Obligations.VectorFpResults : Prop :=
  ∀ (i : Instr) (s : State) (F : ElemForm) (srcs : List (List Nat)) (st1 : Strand), fpForm s i = some F → (me s).trunk = false →
    F.fits (me s) = true → vsrcs (me s) F.srcs = some (srcs, st1) →
    ∃ t, exec i s = .next t ∧ MeBecomes s t (F.after (me s) st1 srcs)

/-- R313: every permute and slide completes: the whole source is read, then the active positions of the destination are written. -/
def Obligations.PermuteResults : Prop :=
  ∀ (i : Instr) (s : State) (F : PermForm) (srcs : List (List Nat)) (st1 : Strand), permForm s i = some F → (me s).trunk = false →
    (F.srcs.all fun x => fieldFits (me s) x.1 x.2) = true → fieldFits (me s) F.vd F.wd = true → vsrcs (me s) F.srcs = some (srcs, st1) →
    ∃ t, exec i s = .next t ∧ MeBecomes s t (F.after (me s) st1 srcs)

/-- R310, R304, R312, R121: every vector compare completes: the active bits of pd below VL receive the relation, p0 discards it, every other bit
stays, and the flags of the active elements accrue. PAND, POR, PXOR and PNOT complete and write bits 0 to VL − 1 of pd; PPOPC and PFIRST
complete and write the number of true bits below VL, and the lowest true index or all ones, to sd. -/
def Obligations.PredicateResults : Prop :=
  (∀ (i : Instr) (s : State) (F : CmpForm) (srcs : List (List Nat)) (st1 : Strand), cmpForm s i = some F → (me s).trunk = false →
    (F.srcs.all fun x => fieldFits (me s) x.1 x.2) = true → vsrcs (me s) F.srcs = some (srcs, st1) →
    ∃ t, exec i s = .next t ∧ OnlyMe s t ∧ { me t with preds := st1.preds, fflags := st1.fflags } = st1 ∧
      PredsAfter (me s) (me t) F.pd F.act (fun k => (F.rel (srcs.map fun l => l.getD k 0)).1) ∧
      (me t).fflags =
        st1.fflags ||| orFlags (((List.range (me s).vl).filter F.act).map fun k => (F.rel (srcs.map fun l => l.getD k 0)).2)) ∧
  (∀ (i : Instr) (s : State) (pd : BitVec 3) (f : Nat → Bool), predForm (me s) i = some (pd, f) → (me s).trunk = false →
    ∃ t, exec i s = .next t ∧ OnlyMe s t ∧ { me t with preds := (me s).preds } = me s ∧ PredsAfter (me s) (me t) pd (fun _ => true) f) ∧
  (∀ (o : Ps) (s : State), (me s).trunk = false → ∃ t, exec (.ppopc o) s = .next t ∧
    WritesReg s t o.sd (BitVec.ofNat 64 ((List.range (me s).vl).filter (predBit (me s) o.pa.toNat)).length)) ∧
  (∀ (o : Ps) (s : State), (me s).trunk = false → ∃ t, exec (.pfirst o) s = .next t ∧
    WritesReg s t o.sd (((List.range (me s).vl).find? (predBit (me s) o.pa.toNat)).elim 0xFFFFFFFFFFFFFFFF#64 (BitVec.ofNat 64)))

/-- R258, R301, R304: what the write of a vector destination leaves. A register's marked elements hold the values modulo the width, all others
stay, and every other register stays; an out-queue takes the elements at its end and no register changes. R131: elements of 8, 16, 32 or
64 bits pushed into an empty queue are read back with their marks, and the queue is empty again. The model's own choices in it: log 12. -/
def Obligations.VectorDestinations : Prop :=
  (∀ (st : Strand) (f w : Nat) (es : List (Nat × Bool)) (g k : Nat), f < 56 → g < 56 →
    ((vdst st f w es).vregs.getD g []).getD k 0 =
      if g = f ∧ (es.getD k (0, false)).2 = true then BitVec.ofNat 64 ((es.getD k (0, false)).1 % 2 ^ w)
      else (st.vregs.getD g []).getD k 0) ∧
  (∀ (st : Strand) (f w : Nat) (es : List (Nat × Bool)) (j : Nat), 56 ≤ f → j < 4 →
    (vdst st f w es).vregs = st.vregs ∧
    oqOf (vdst st f w es) j =
      if j = f - 56 then qpush (oqOf st j) 0 w (es.map fun e => (if e.2 then e.1 else 0, e.2)) else oqOf st j) ∧
  (∀ (w : Nat) (es : List (Nat × Bool)), (w = 8 ∨ w = 16 ∨ w = 32 ∨ w = 64) →
    qread (qpush [] 0 w es) 0 es.length w = some (es.map fun e => (e.1 % 2 ^ w, e.2), []))

/-- R314 to R316: VREDSUM and VDOT add the exact values, and the exact products, of the active elements to ea; VREDMAX, VREDMIN and VARGMAX
write the greatest, the least and the first index of the greatest active element to sd; VSCAN writes the running sums. Each completes. -/
def Obligations.ReductionResults : Prop :=
  (∀ (o : VredOps) (s : State) (a : List Nat) (st1 : Strand), (me s).trunk = false → tyAny (slotTy (me s) o.ts) = true →
    fieldFits (me s) o.va.toNat (tyWidth (slotTy (me s) o.ts)) = true →
    vsrcs (me s) [(o.va.toNat, tyWidth (slotTy (me s) o.ts))] = some ([a], st1) →
    let xs := (activeOf (me s) o.m.toNat a).map (elVal (slotTy (me s) o.ts))
    ∃ t, exec (.vredsum o) s = .next t ∧
      MeBecomes s t { addEa st1 o.ea.toNat (xs.foldl eaAdd (eaOf st1 o.ea.toNat)) with fflags := st1.fflags ||| nvSNaN xs }) ∧
  (∀ (o : VdotOps) (s : State) (a b : List Nat) (st1 : Strand), (me s).trunk = false → tyAny (slotTy (me s) o.ts) = true →
    fieldFits (me s) o.va.toNat (tyWidth (slotTy (me s) o.ts)) = true → fieldFits (me s) o.vb.toNat (tyWidth (slotTy (me s) o.ts)) = true →
    vsrcs (me s) [(o.va.toNat, tyWidth (slotTy (me s) o.ts)), (o.vb.toNat, tyWidth (slotTy (me s) o.ts))] = some ([a, b], st1) →
    let ps := (List.range (me s).vl).filter (predBit (me s) o.m.toNat) |>.map fun k =>
      mulFp (elVal (slotTy (me s) o.ts) (a.getD k 0)) (elVal (slotTy (me s) o.ts) (b.getD k 0))
    let nv := (List.range (me s).vl).filter (predBit (me s) o.m.toNat) |>.map fun k =>
      nvSNaN [elVal (slotTy (me s) o.ts) (a.getD k 0), elVal (slotTy (me s) o.ts) (b.getD k 0)]
    ∃ t, exec (.vdot o) s = .next t ∧
      MeBecomes s t { addEa st1 o.ea.toNat ((ps.map (·.1)).foldl eaAdd (eaOf st1 o.ea.toNat)) with
        fflags := st1.fflags ||| orFlags nv ||| raiseIf (ps.any (·.2)) flNV }) ∧
  (∀ (o : V3) (s : State) (a b : List Nat) (st1 : Strand), (me s).trunk = false → tyAny (slotTy (me s) o.ts) = true →
    fieldFits (me s) o.va.toNat (tyWidth (slotTy (me s) o.ts)) = true → fieldFits (me s) o.vb.toNat (tyWidth (slotTy (me s) o.ts)) = true →
    fieldFits (me s) o.vd.toNat (tyWidth (slotTy (me s) o.ts)) = true →
    vsrcs (me s) [(o.va.toNat, tyWidth (slotTy (me s) o.ts)), (o.vb.toNat, tyWidth (slotTy (me s) o.ts))] = some ([a, b], st1) →
    let es := (List.range (me s).vl).map fun k =>
      if predBit (me s) o.m.toNat k then (scanElem (me s) (slotTy (me s) o.ts) (slotMode (me s) o.ts) o.m.toNat a b k, true) else ((0, 0), false)
    ∃ t, exec (.vscan o) s = .next t ∧
      MeBecomes s t { vdst st1 o.vd.toNat (tyWidth (slotTy (me s) o.ts)) (es.map fun e => (e.1.1, e.2)) with
        fflags := st1.fflags ||| orFlags (es.map fun e => e.1.2) }) ∧
  (∀ (o : VminOps) (s : State) (a : List Nat) (st1 : Strand), (me s).trunk = false → tyInt (slotTy (me s) o.ts) = true →
    fieldFits (me s) o.va.toNat (tyWidth (slotTy (me s) o.ts)) = true →
    vsrcs (me s) [(o.va.toNat, tyWidth (slotTy (me s) o.ts))] = some ([a], st1) →
    let xs := (activeOf (me s) o.m.toNat a).map (elInt (slotTy (me s) o.ts))
    (∃ t, exec (.vredmax o) s = .next t ∧
      MeBecomes s t (swrite st1 o.sd.toNat (BitVec.ofInt 64 (xs.foldl max (tyLo (slotTy (me s) o.ts)))))) ∧
    (∃ t, exec (.vredmin o) s = .next t ∧
      MeBecomes s t (swrite st1 o.sd.toNat (BitVec.ofInt 64 (xs.foldl min (tyHi (slotTy (me s) o.ts))))))) ∧
  (∀ (o : VminOps) (s : State) (a : List Nat) (st1 : Strand), (me s).trunk = false → tyFp (slotTy (me s) o.ts) = true →
    fieldFits (me s) o.va.toNat (tyWidth (slotTy (me s) o.ts)) = true →
    vsrcs (me s) [(o.va.toNat, tyWidth (slotTy (me s) o.ts))] = some ([a], st1) →
    let f := tyFmt (slotTy (me s) o.ts)
    let xs := (activeOf (me s) o.m.toNat a).map (fpOf f)
    let st2 := { st1 with fflags := st1.fflags ||| nvSNaN xs }
    (∃ t, exec (.vredmax o) s = .next t ∧
      MeBecomes s t (swrite st2 o.sd.toNat (BitVec.ofNat 64
        (if xs = [] then fmtSign f + fmtInf f else (rnd f .rne (xs.tail.foldl (fpSel true) (xs.headD (.nan false)))).1)))) ∧
    (∃ t, exec (.vredmin o) s = .next t ∧
      MeBecomes s t (swrite st2 o.sd.toNat (BitVec.ofNat 64
        (if xs = [] then fmtInf f else (rnd f .rne (xs.tail.foldl (fpSel false) (xs.headD (.nan false)))).1))))) ∧
  (∀ (o : VminOps) (s : State) (a : List Nat) (st1 : Strand), (me s).trunk = false → tyAny (slotTy (me s) o.ts) = true →
    fieldFits (me s) o.va.toNat (tyWidth (slotTy (me s) o.ts)) = true →
    vsrcs (me s) [(o.va.toNat, tyWidth (slotTy (me s) o.ts))] = some ([a], st1) →
    let act := (List.range (me s).vl).filter (predBit (me s) o.m.toNat)
    let key := fun k => argKey (slotTy (me s) o.ts) (a.getD k 0)
    ∃ t r, exec (.vargmax o) s = .next t ∧ MeBecomes s t (swrite st1 o.sd.toNat r) ∧
      (act = [] → r = 0xFFFFFFFFFFFFFFFF#64) ∧
      (act ≠ [] → ∃ j ∈ act, r = BitVec.ofNat 64 j ∧ (∀ k ∈ act, key k ≤ key j) ∧ ∀ k ∈ act, k < j → key k < key j))

/-- R317, R194, R68: the exact accumulator instructions complete: VEAADD merges es into ed, EARND rounds an accumulator that is not poisoned
once in the slot's type and mode, EALD takes one group, EAST gives one, EACLR empties. A poisoned accumulator stops EARND and EAST with
data-error. The model's own choices in it: log 27. -/
def Obligations.AccumulatorResults : Prop :=
  (∀ (o : Ea2) (s : State), (me s).trunk = false →
    ∃ t, exec (.veaadd o) s = .next t ∧
      MeBecomes s t { addEa (me s) o.ed.toNat (eaMerge (eaOf (me s) o.ed.toNat) (eaOf (me s) o.es.toNat)) with
        eaPois := if eaPoisoned (me s) o.es.toNat then (me s).eaPois ||| BitVec.ofNat 4 (2 ^ o.ed.toNat) else (me s).eaPois }) ∧
  (∀ (o : EarndOps) (s : State), (me s).trunk = false → tyFp (slotTy (me s) o.ts) = true → eaPoisoned (me s) o.ea.toNat = false →
    let r := eaRound (tyFmt (slotTy (me s) o.ts)) (slotMode (me s) o.ts) (eaOf (me s) o.ea.toNat)
    ∃ t, exec (.earnd o) s = .next t ∧ WritesRegFlags s t o.sd (BitVec.ofNat 64 r.1) r.2) ∧
  (∀ (o : EaldOps) (s : State) (g : Group) (q : List Group), (me s).trunk = false → iqOf (me s) o.q.toNat = g :: q →
    ∃ t, exec (.eald o) s = .next t ∧
      MeBecomes s t (setEa (setIq (me s) o.q.toNat q) o.ea.toNat (eaClean (g.data.setWidth 512)))) ∧
  (∀ (o : EastOps) (s : State), (me s).trunk = false → eaPoisoned (me s) o.ea.toNat = false →
    ∃ t, exec (.east o) s = .next t ∧
      MeBecomes s t (setOq (me s) o.q.toNat (oqOf (me s) o.q.toNat ++
        [⟨(eaClean (eaOf (me s) o.ea.toNat)).setWidth 2048, BitVec.allOnes 2048, 0, []⟩]))) ∧
  (∀ (o : Ea1) (s : State), (me s).trunk = false →
    ∃ t, exec (.eaclr o) s = .next t ∧ MeBecomes s t (setEa (me s) o.ea.toNat eaInit)) ∧
  (∀ (o : EarndOps) (s : State), (me s).trunk = false → tyFp (slotTy (me s) o.ts) = true → eaPoisoned (me s) o.ea.toNat = true →
    exec (.earnd o) s = .next (takeException (rollback s) 0x09 (BitVec.ofNat 64 o.ea.toNat) 0)) ∧
  (∀ (o : EastOps) (s : State), (me s).trunk = false → eaPoisoned (me s) o.ea.toNat = true →
    exec (.east o) s = .next (takeException (rollback s) 0x09 (BitVec.ofNat 64 o.ea.toNat) 0))

/-- R318, R319: VBQ quantises VL elements into blocks of the descriptor fd and VBDQ decodes VL elements of such blocks; each completes, and
the flags accrue. The model's own choices in it: log 42. -/
def Obligations.BlockConversions : Prop :=
  (∀ (o : VbqOps) (s : State) (a : List Nat) (st1 : Strand),
    let st := me s
    let c := slotTy st o.ts
    let md := slotMode st o.ts
    let d := fdOf (st.fds.getD o.fd.toNat 0)
    st.trunk = false → (c = 9 ∨ c = 10) → (md = .rne ∨ md = .rtz) → fieldFits st o.va.toNat (tyWidth c) = true →
    (o.vd.toNat < 56 → fieldFits st o.vd.toNat 32 = true ∧ budgetWidth st.budget = 32) → fdValid d = true →
    16 * ceilDiv st.vl (blkE d.wid) ≤ st.maxvl → vsrc st o.va.toNat (tyWidth c) = some (a, st1) →
    let r := vbqAll o.fd.toNat d (md == .rtz) (a.map (fpOf (tyFmt c)))
    ∃ t, exec (.vbq o) s = .next t ∧
      MeBecomes s t { vdst st1 o.vd.toNat 32 ((r.1.map blkWords).flatten.map fun x => (x, true)) with fflags := st1.fflags ||| r.2 }) ∧
  (∀ (o : VbqOps) (s : State) (ws : List Nat) (st1 : Strand),
    let st := me s
    let c := slotTy st o.ts
    let d := fdOf (st.fds.getD o.fd.toNat 0)
    let e := blkE d.wid
    let bs := (runsOf 16 (ceilDiv st.vl e) ws).map (packCodes 32)
    st.trunk = false → tyFp c = true → fieldFits st o.vd.toNat (tyWidth c) = true → fieldFits st o.va.toNat 32 = true → fdValid d = true →
    vsrcN st o.va.toNat (16 * ceilDiv st.vl e) 32 = some (ws, st1) → (∀ b ∈ bs, blkFcode b = o.fd.toNat) →
    let rs := (List.range st.vl).map fun i =>
      rnd (tyFmt c) (slotMode st o.ts) (fdDec d (blkScale (bs.getD (i / e) 0)) (blkElem d.wid (bs.getD (i / e) 0) (i % e)))
    ∃ t, exec (.vbdq o) s = .next t ∧
      MeBecomes s t { vdst st1 o.vd.toNat (tyWidth c) (rs.map fun r => (r.1, true)) with fflags := st1.fflags ||| orFlags (rs.map (·.2)) })

/-! ## Vector accesses -/

/-- R321 to R328, R131: a contiguous, strided or indexed vector load of a P- or D-die strand with nothing earlier to wait for, whose active
elements lie at places of this package without poison, completes: the elements enter the in-queue in index order, an inactive one as zero
bits with its mark, the index queue is consumed, the TLB may take leaves, and nothing else changes. The model's own choices in it: log 49,
log 51. -/
def Obligations.VectorLoads : Prop :=
  ∀ (i : Instr) (s : State) (q : BitVec 2) (F : AccessForm) (p : Nat → Place) (b : Nat → List Byte), loadForm s i = some (q, F) →
    (me s).trunk = false → Fresh s → Quiet (me s) → F.free (me s) → F.placed s .load p →
    (∀ k, k ∈ visited s → F.act k = true → localBytes s (p k) F.n = some (b k)) →
    ∃ t, exec i s = .next t ∧ OnlyMe { s with tlb := t.tlb } t ∧
      me t = setIq (F.used (me s)) q.toNat (qpush (iqOf (F.used (me s)) q.toNat) (startOf s) (8 * F.n) (loadedEls s F b))

/-- R161, R321 to R328, R332: a contiguous, strided or indexed vector store, and VAMO, of a P- or D-die strand whose active elements pass their
checks completes: one access for each active element enters the strand's issue stream in index order, with its order and scope domain, the
out-queues it reads are consumed, the TLB may take leaves, and nothing else changes; memory changes when an access leaves the path queue. -/
def Obligations.VectorStores : Prop :=
  ∀ (i : Instr) (s : State) (F : AccessForm) (p : Nat → Place), storeForm s i = some F → (me s).trunk = false → F.free (me s) →
    hasEntered (me s) s.slot = false → F.placed s (match i with | .vamo _ => .atomic | _ => .store) p →
    ∃ t, exec i s = .next t ∧ OnlyMe { s with tlb := t.tlb } t ∧ me t = withItems (F.used (me s)) (storedItems s F p fun _ => none)

/-- R332, R333, R161, R166: VAMO.RET of a P- or D-die strand whose active elements pass their checks completes: one atomic for each active element
enters the strand's issue stream, the operands are consumed, and the in-queue takes a position for each element, which waits for its old
value where the element is active. An element that leaves its path queue performs at its home die, the old value goes to its position with
the operation's flags, and the element stays in the stream until the strand's die has applied what the home die had; on a page of this
package's own id (R27, R178) the old value comes once every die has applied it. Once every old value
has come, whatever the order, the queue gives them back in index order, zero bits for an inactive element, with their marks. -/
def Obligations.VectorAtomicResults : Prop :=
  (∀ (o : VamoOps) (s : State) (F : AccessForm) (p : Nat → Place), vamoForm s o = some F → (me s).trunk = false →
    hasEntered (me s) s.slot = false → F.placed s .atomic p →
    let st := F.used (me s)
    let id := (me s).nextFill
    let w := 8 * szDbl o.dbl
    ∃ t, exec (.vamoRet o) s = .next t ∧ OnlyMe { s with tlb := t.tlb } t ∧
      me t = withItems
        { setIq st o.q.toNat (qpushWait (iqOf st o.q.toNat) (startOf s) w id ((visited s).map fun k => (0, F.act k))) with nextFill := id + 1 }
        (storedItems s F p fun k => some { q := o.q.toNat, id := id, elem := k, w := w })) ∧
  (∀ (s : State) (sid : Nat) (a : Access) (op : AtomOp) (n loc home : Nat) (v : BitVec 512), a.place = .mem loc home →
    bridgeUp s (strandOf s sid).die home = true → a.kind = .atomic op n v → a.size = n → vacatedFrame s loc = false → memPoisoned s.ord home loc n = false →
    let old := numOf (Memory.getBytes (viewOf s.ord home) loc n)
    let o1 := match (atomNew op (8 * n) old v.toNat 0).1 with
      | some x => performWrite s.ord home loc home (bytesOf n x)
      | none => s.ord
    let st := bringOld (strandOf s sid) a.fill old (atomicFlags op old v.toNat)
    ∃ t, performAcc s sid a = some t ∧ t.ord = o1 ∧ { t with strands := s.strands, ord := s.ord } = s ∧
      (∀ k, k ≠ sid → strandOf t k = strandOf s k) ∧ strandOf t sid = { st with pq := .done a (appliedOf o1 home) :: st.pq }) ∧
  (∀ (s : State) (sid : Nat) (a : Access) (op : AtomOp) (n loc home : Nat) (v : BitVec 512), a.place = .own loc home → a.acq = false →
    bridgeUp s (strandOf s sid).die home = true → a.kind = .atomic op n v → a.size = n → vacatedFrame s loc = false →
    memPoisoned s.ord home loc n = false →
    let old := numOf (Memory.getBytes (viewOf s.ord home) loc n)
    let o1 := match (atomNew op (8 * n) old v.toNat 0).1 with
      | some x => performWrite s.ord home loc home (bytesOf n x)
      | none => s.ord
    ∃ t x, performAcc s sid a = some t ∧ t.ord = o1 ∧ { t with strands := s.strands, ord := s.ord, fabric := s.fabric } = s ∧
      (∀ k, k ≠ sid → strandOf t k = strandOf s k) ∧
      strandOf t sid = { strandOf s sid with outst := (strandOf s sid).outst ++ [x] } ∧ x.clock = appliedOf o1 home ∧ x.old = old ∧
      x.fill = a.fill) ∧
  (∀ (w id : Nat) (es : List (Nat × Bool)) (l : List Nat), (w = 32 ∨ w = 64) →
    l.Perm ((List.range es.length).filter fun k => (es.getD k (0, false)).2) →
    let q := l.foldl (fun q k => q.map (fillOne { q := 0, id := id, elem := k, w := w } (es.getD k (0, false)).1))
      (qpushWait [] 0 w id (es.map fun e => (0, e.2)))
    qread q 0 es.length w = some (es.map fun e => (if e.2 then e.1 % 2 ^ w else 0, e.2), []) ∧ ∀ g ∈ q, g.wait = [])

/-- R177, R334: VLDSC, once every smaller ticket has performed, and VSTSC complete: each active element draws the next ticket in index order;
VLDSC reads in its turn and its tickets count as performed, VSTSC puts accesses with its tickets into the issue stream. The model's own
choices in it: log 49, log 72. -/
def Obligations.TicketedAccesses : Prop :=
  (∀ (o : VscOps) (s : State) (p : Nat → Place) (b : Nat → List Byte), (me s).trunk = false → Fresh s → streamOf (me s) = [] →
    s.ord.performed = s.ord.nextTicket → s.ord.dead = [] →
    (∀ k, k ∈ visited s →
      checkElem s (me s) .load (2 ^ o.sz.toNat) (contiguous s o.sa o.sb (2 ^ o.sz.toNat) k) = .ok (p k) ∧
      localBytes s (p k) (2 ^ o.sz.toNat) = some (b k)) →
    let count := (visited s).length
    ∃ t, exec (.vldsc o) s = .next t ∧
      t.ord = { s.ord with nextTicket := s.ord.nextTicket + count, performed := s.ord.performed + count } ∧
      { t with strands := s.strands, tlb := s.tlb, ord := s.ord } = s ∧ (∀ k, k ≠ s.cur → strandOf t k = strandOf s k) ∧
      me t = setIq (noteDone (me s) s.slot ticketElem (bytesOf 8 s.ord.nextTicket ++ bytesOf 8 count)) o.q.toNat
        (qpush (iqOf (me s) o.q.toNat) (startOf s) (8 * 2 ^ o.sz.toNat) ((visited s).map fun k => (numOf (b k), true)))) ∧
  (∀ (o : VscOps) (s : State) (d : List (Nat × Bool)) (r : List Group) (p : Nat → Place), (me s).trunk = false → s.look = none →
    hasEntered (me s) s.slot = false → qread (oqOf (me s) o.q.toNat) (startOf s) (me s).vl (8 * 2 ^ o.sz.toNat) = some (d, r) →
    let el := fun k => d.getD (k - startOf s) (0, false)
    let active := (visited s).filter fun k => (el k).2
    (∀ k, k ∈ active →
      checkElem s (me s) .store (2 ^ o.sz.toNat) (contiguous s o.sa o.sb (2 ^ o.sz.toNat) k) = .ok (p k)) →
    ∃ t, exec (.vstsc o) s = .next t ∧ t.ord = { s.ord with nextTicket := s.ord.nextTicket + active.length } ∧
      { t with strands := s.strands, tlb := s.tlb, ord := s.ord } = s ∧ (∀ k, k ≠ s.cur → strandOf t k = strandOf s k) ∧
      me t = withItems (dropAll (me s) o.q.toNat (startOf s) (me s).vl (8 * 2 ^ o.sz.toNat))
        (active.zipIdx.map fun x =>
          .acc { path := .ls, place := p x.1, va := contiguous s o.sa o.sb (2 ^ o.sz.toNat) x.1, size := 2 ^ o.sz.toNat,
                 kind := .ticketed (bytesOf (2 ^ o.sz.toNat) (el x.1).1) (s.ord.nextTicket + x.2), rel := false, acq := false, dom := true,
                 group := nextGroup (me s), ordered := true, fill := none, slot := s.slot, mark := (me s).armed }))

/-- R335, R243 to R247: VLDROT with no element to load changes nothing; of a P- or D-die strand with nothing earlier to wait for, with a well-
formed descriptor, whose rows are valid and whose key rows and blocks are readable in this package, it completes: every element from
VSTART to VL − 1 enters the in-queue rotated, rounded once to f32, and the flags accrue. The model's own choices in it: log 23, log 50. -/
def Obligations.RotaryLoads : Prop :=
  (∀ (o : RotOps) (s : State), (me s).trunk = false → (me s).vl ≤ startOf s → exec (.vldrot o) s = .next s) ∧
  (∀ (o : RotOps) (s : State) (q : Nat → Place) (w : Nat → List Byte) (p0 p1 : Nat → Place) (b0 b1 : Nat → List Byte)
    (v : Nat → Nat × FFlags), (me s).trunk = false → Fresh s → Quiet (me s) →
    startOf s < (me s).vl → (getS s o.sa).toNat % 32 = 0 →
    (∀ k, k < 4 → checkElem s (me s) .load 8 (getS s o.sa + BitVec.ofNat 64 (8 * k)) = .ok (q k) ∧ localBytes s (q k) 8 = some (w k)) →
    let d := kvDesc (w 0 ++ w 1 ++ w 2 ++ w 3)
    let s1 := filled s ((List.range 4).map fun k => getS s o.sa + BitVec.ofNat 64 (8 * k))
    kvOk d = true →
    (∀ k, k ∈ visited s →
      let r := (getS s o.sb).toNat + k / d.hdim
      let a0 := kvRead d r (kvPair d (k % d.hdim)).2.1
      let a1 := kvRead d r (kvPair d (k % d.hdim)).2.2
      r < d.vrows ∧ checkElem s1 (me s1) .load a0.2 a0.1 = .ok (p0 k) ∧ localBytes s (p0 k) a0.2 = some (b0 k) ∧
      checkElem s1 (me s1) .load a1.2 a1.1 = .ok (p1 k) ∧ localBytes s (p1 k) a1.2 = some (b1 k) ∧
      rotaryEl s d (getS s o.sb).toNat (b0 k) (b1 k) k = some (v k)) →
    ∃ t, exec (.vldrot o) s = .next t ∧ OnlyMe { s with tlb := t.tlb } t ∧
      me t = { setIq (me s) o.q.toNat
          (qpush (iqOf (me s) o.q.toNat) (startOf s) 32 ((visited s).map fun k => ((v k).1, true))) with
        fflags := (me s).fflags ||| orFlags ((visited s).map fun k => (v k).2) })

/-! ## Engines, the index scratchpad, sparse tiles and the matrix array -/

/-- R154, R336 to R339, R341: COPY, XFETCH and GATHSP of a P- or D-die strand with nothing earlier to wait for, on an idle token, with aligned
operands, complete: the token is busy with the copy and expects VL (bytes, or rows), the engine moves the elements afterwards, GATHSP
consumes its rows, and nothing else changes. R336, R337, R339: COPY and XFETCH of a trunk strand name token 0 and move 64 elements before
they complete; COPY of any other token is illegal. The model's own choices in it: log 38, log 61. -/
def Obligations.CopiesStart : Prop :=
  (∀ (o : CopyOps) (s : State), (me s).trunk = false → Fresh s → Quiet (me s) → Unheld s →
    (∀ k, k < 8 → (tokOf (me s) k).busy = false) → (tokOf (me s) o.tk.toNat).pend = false → (me s).vl % 2 ^ o.sz.toNat = 0 → (getS s o.sa).toNat % 2 ^ o.sz.toNat = 0 →
    (getS s o.sb).toNat % 2 ^ o.sz.toNat = 0 →
    (∀ e r, e < ceilDiv (me s).vl (2 ^ o.sz.toNat) →
      r ∈ elRanges (newCopy (me s) .copy (getS s o.sa) (getS s o.sb) (2 ^ o.sz.toNat) []) e → rangeOk (me s) r) →
    ∃ t, exec (.copy o) s = .next t ∧
      MeBecomes s t (armed (me s) s.slot o.tk.toNat (startOf s) (newCopy (me s) .copy (getS s o.sa) (getS s o.sb) (2 ^ o.sz.toNat) []))) ∧
  (∀ (o : CopyOps) (s : State), (me s).trunk = false → Fresh s → Quiet (me s) → Unheld s →
    (∀ k, k < 8 → (tokOf (me s) k).busy = false) → (tokOf (me s) o.tk.toNat).pend = false → peerOk (getS s o.sb).toNat (me s).vl false = true →
    (getS s o.sa).toNat % 2 ^ o.sz.toNat = 0 →
    (∀ e r, e < ceilDiv (me s).vl (2 ^ o.sz.toNat) →
      r ∈ elRanges (newCopy (me s) .xfetch (getS s o.sa) (getS s o.sb) (2 ^ o.sz.toNat) []) e → rangeOk (me s) r) →
    ∃ t, exec (.xfetch o) s = .next t ∧
      MeBecomes s t (armed (me s) s.slot o.tk.toNat (startOf s) (newCopy (me s) .xfetch (getS s o.sa) (getS s o.sb) (2 ^ o.sz.toNat) []))) ∧
  (∀ (o : GathOps) (s : State) (ix : List (Nat × Bool)) (g : List Group),
    let n := 64 * 2 ^ (4 * o.sz.toNat + o.scale.toNat)
    let rows := List.replicate (startOf s) none ++ ix.map fun x => if x.2 then some x.1 else none
    (me s).trunk = false → Fresh s → Quiet (me s) → Unheld s → (∀ k, k < 8 → (tokOf (me s) k).busy = false) →
    (tokOf (me s) o.tk.toNat).pend = false →
    (getS s o.sa).toNat % n = 0 → (getS s o.sb).toNat % n = 0 →
    qread (oqOf (me s) o.q.toNat) (startOf s) (me s).vl 32 = some (ix, g) →
    (∀ e r, e < (me s).vl → r ∈ elRanges (newCopy (me s) .gathsp (getS s o.sa) (getS s o.sb) n rows) e → rangeOk (me s) r) →
    ∃ t, exec (.gathsp o) s = .next t ∧
      MeBecomes s t (dropAll (armed (me s) s.slot o.tk.toNat (startOf s) (newCopy (me s) .gathsp (getS s o.sa) (getS s o.sb) n rows)) o.q.toNat
        (startOf s) (me s).vl 32)) ∧
  (∀ (o : CopyOps) (s : State) (ls hs ld hd : Nat → Nat), (me s).trunk = true → o.tk = 0 → Fresh s → Quiet (me s) →
    (getS s o.sa).toNat % 2 ^ o.sz.toNat = 0 → (getS s o.sb).toNat % 2 ^ o.sz.toNat = 0 →
    (∀ e, e < 64 →
      let src := getS s o.sb + BitVec.ofNat 64 (e * 2 ^ o.sz.toNat)
      let dst := getS s o.sa + BitVec.ofNat 64 (e * 2 ^ o.sz.toNat)
      (tlbFind s (me s) src).isSome = true ∧ (tlbFind s (me s) dst).isSome = true ∧
      checkElem s (me s) .load (2 ^ o.sz.toNat) src = .ok (.mem (ls e) (hs e)) ∧ memPoisoned s.ord (me s).die (ls e) (2 ^ o.sz.toNat) = false ∧
      vacatedFrame s (ls e) = false ∧ checkElem s (me s) .store (2 ^ o.sz.toNat) dst = .ok (.mem (ld e) (hd e)) ∧
      vacatedFrame s (ld e) = false) →
    ∃ t, exec (.copy o) s = .next t ∧ { t with ord := s.ord } = s ∧
      t.ord = (List.range 64).foldl (fun x e =>
        performWrite x (me s).die (ld e) (hd e) (Memory.getBytes (viewOf x (me s).die) (ls e) (2 ^ o.sz.toNat))) s.ord) ∧
  (∀ (o : CopyOps) (s : State) (ld hd : Nat → Nat), (me s).trunk = true → o.tk = 0 → Fresh s → Quiet (me s) →
    peerOk (getS s o.sb).toNat (64 * 2 ^ o.sz.toNat) false = true →
    (getS s o.sa).toNat % 2 ^ o.sz.toNat = 0 →
    let word := fun e => (getS s o.sb + BitVec.ofNat 64 (e * 2 ^ o.sz.toNat)).toNat
    (∀ e, e < 64 →
      let dst := getS s o.sa + BitVec.ofNat 64 (e * 2 ^ o.sz.toNat)
      bitsN (word e) 33 10 = s.fabric.pkgId ∧ tenantAt s 0 (peerKey (word e) / 2 ^ 24) = true ∧
      bridgeUp s (me s).die (peerKey (word e) / 2 ^ 29) = true ∧ spadPoisoned s.ord (peerKey (word e)) (2 ^ o.sz.toNat) = false ∧
      (tlbFind s (me s) dst).isSome = true ∧ checkElem s (me s) .store (2 ^ o.sz.toNat) dst = .ok (.mem (ld e) (hd e)) ∧
      vacatedFrame s (ld e) = false) →
    ∃ t, exec (.xfetch o) s = .next t ∧ { t with ord := s.ord } = s ∧
      t.ord = (List.range 64).foldl (fun x e =>
        performWrite x (me s).die (ld e) (hd e) (Memory.getBytes s.ord.spad (peerKey (word e)) (2 ^ o.sz.toNat))) s.ord) ∧
  (∀ (o : CopyOps) (s : State), (me s).trunk = true → o.tk ≠ 0 → (getS s o.sa).toNat % 2 ^ o.sz.toNat = 0 →
    (getS s o.sb).toNat % 2 ^ o.sz.toNat = 0 → exec (.copy o) s = .next (takeException (rollback s) 0x01 (sylWord s (.copy o)) 0))

/-- R339, R340, R157, R336: XSEND with nothing earlier to wait for, whose peer word is well formed, whose destination can be reached and whose source
elements are readable in this package, completes: on a P- or D-die the fragments of its bytes enter the issue stream on the CL path; on the
trunk die they land before it completes, each written to the named scratchpad and counted into the sync word. The TLB may take leaves, and
nothing else changes. The model's own choices in it: log 44. -/
def Obligations.SendsIssue : Prop :=
  (∀ (o : XsendOps) (s : State) (p : Nat → Place) (b : Nat → List Byte),
    let n := 2 ^ o.sz.toNat
    let w := (getS s o.sa).toNat
    let els := (List.range (ceilDiv (me s).vl n - startOf s / n)).map (startOf s / n + ·)
    (me s).trunk = false → Fresh s → Quiet (me s) → peerOk w (me s).vl true = true → wayTo s (me s) (bitsN w 33 10) (bitsN w 29 4) = true →
    (∀ e, e ∈ els → checkElem s (me s) .load n (getS s o.sb + BitVec.ofNat 64 (e * n)) = .ok (p e) ∧ localBytes s (p e) n = some (b e)) →
    ∃ t, exec (.xsend o) s = .next t ∧ OnlyMe { s with tlb := t.tlb } t ∧
      me t = addItems (me s) s.slot (fragItems s w o.rel (startOf s) (((els.map b).flatten).take ((me s).vl - startOf s)))) ∧
  (∀ (o : XsendOps) (s : State) (p : Nat → Place) (b : Nat → List Byte),
    let n := 2 ^ o.sz.toNat
    let w := (getS s o.sa).toNat
    let bytes := ((List.range 64).map b).flatten
    (me s).trunk = true → Fresh s → Quiet (me s) → peerOk w (64 * n) true = true → bitsN w 33 10 = s.fabric.pkgId →
    bridgeUp s (me s).die (bitsN w 29 4) = true →
    (∀ c, c ∈ chunksOf (64 * n) → tenantAt s (me s).tenant (peerKey (w + c.1) / 2 ^ 24) = true ∧
      bridgeUp s (me s).die (peerKey (w + c.1) / 2 ^ 29) = true) →
    (∀ e, e < 64 → checkElem s (me s) .load n (getS s o.sb + BitVec.ofNat 64 (e * n)) = .ok (p e) ∧ localBytes s (p e) n = some (b e)) →
    ∃ t, exec (.xsend o) s = .next t ∧ { t with strands := s.strands, tlb := s.tlb, ord := s.ord } = s ∧
      (∀ k, strandOf t k = strandOf s k) ∧
      t.ord = (chunksOf (64 * n)).foldl (fun x c =>
        (syncArrive (spadWrite x (peerKey (w + c.1)) (sliceBytes bytes c.1 c.2)) (peerSync w) c.2 false).1) s.ord)

/-- R211, R212, R360 to R362: XINS and XACC complete and leave what R212 says of each active key in index order; a key that finds the
partition full trims VL where it is not the lowest active element, and takes index-full with EVAL the key where it is. XLOOK pushes the
values found and writes the predicate; XCLR empties the partition and sets its kind; XDRAIN trims VL to the entries, pushes the oldest and
removes them. The model's own choices in it: log 49. -/
def Obligations.IndexScratchpad : Prop :=
  (∀ (i : Instr) (s : State) (F : IndexForm), indexForm s i = some F → (me s).trunk = false → F.full = none →
    ∃ t, exec i s = .next t ∧ MeBecomes s t { F.used (me s) with xents := F.ents, fflags := (me s).fflags ||| F.flags (me s).vl }) ∧
  (∀ (i : Instr) (s : State) (F : IndexForm) (j : Nat) (key : Word), indexForm s i = some F → (me s).trunk = false →
    F.full = some (j, key) → j ≠ F.lowest →
    ∃ t, exec i s = .next t ∧ MeBecomes s t { F.used (me s) with xents := F.ents, fflags := (me s).fflags ||| F.flags j, vl := j }) ∧
  (∀ (i : Instr) (s : State) (F : IndexForm) (j : Nat) (key : Word), indexForm s i = some F → (me s).trunk = false →
    F.full = some (j, key) → j = F.lowest →
    ∃ b, exec i s = .next (takeException b 0x0C key j) ∧ (me b).vstart = j ∧ (me b).xents = (me (rollback s)).xents) ∧
  (∀ (o : XlookOps) (s : State) (keys : List (Nat × Bool)) (g : List Group), (me s).trunk = false →
    qread (oqOf (me s) o.q.toNat) (startOf s) (me s).vl 64 = some (keys, g) →
    let found := fun k => if (keys.getD (k - startOf s) (0, false)).2 then
        (findEntry (me s).xents (BitVec.ofNat 64 (keys.getD (k - startOf s) (0, false)).1)).map (·.val)
      else none
    let st := dropAll (me s) o.q.toNat (startOf s) (me s).vl 64
    ∃ t, exec (.xlook o) s = .next t ∧ OnlyMe s t ∧
      { me t with preds := (me s).preds } = setIq st o.k.toNat
        (qpush (iqOf st o.k.toNat) (startOf s) (if (me s).xkind = .i64 then 64 else 2048)
          ((visited s).map fun k => (((found k).getD 0).toNat, (keys.getD (k - startOf s) (0, false)).2))) ∧
      PredsAfter (me s) (me t) o.p (fun k => decide (startOf s ≤ k) && (keys.getD (k - startOf s) (0, false)).2) (fun k => (found k).isSome)) ∧
  (∀ (o : XclrOps) (s : State), (me s).trunk = false →
    ∃ t, exec (.xclr o) s = .next t ∧ MeBecomes s t { me s with xents := [], xkind := if o.i64 then .i64 else .ea }) ∧
  (∀ (o : XqOps) (s : State), (me s).trunk = false →
    let vl := min (me s).vl (me s).xents.length
    let out := (me s).xents.take vl
    let w := if (me s).xkind = .i64 then 64 else 2048
    let st := setIq (me s) o.q.toNat (qpush (iqOf (me s) o.q.toNat) 0 64 (out.map fun e => (e.key.toNat, true)))
    ∃ t, exec (.xdrain o) s = .next t ∧
      MeBecomes s t { setIq st o.k.toNat (qpush (iqOf st o.k.toNat) 0 w (out.map fun e => (e.val.toNat, true))) with
        vl := vl, xents := (me s).xents.drop vl })

/-- R206, R209, R210, R357 to R359: SPHDR with nothing earlier to wait for, whose parameter block passes its checks, completes and queues the 64-byte
header; PRUNE, whose source blocks carry one valid descriptor, whose addresses pass their checks and whose tile fits LIMIT, completes: the
header with INCOMPLETE set, payload and metadata of every row from VSTART on, and the final header enter the issue stream, and the flags
accrue. R357: every address is checked before checks 3 to 5, TRANSP with M other than 2 and 4 is illegal, and one that fails a check takes
sparse-format. The model's own choices in it: log 49, log 51. -/
def Obligations.SparseTiles : Prop :=
  (∀ (o : VmAb) (s : State) (q : Place) (b : List Byte) (items : List QItem),
    let s1 := filled s [getS s o.sb]
    let P := pruneBlk b
    (me s).trunk = false → Fresh s → streamOf (me s) = [] → (getS s o.sb).toNat % 32 = 0 → (getS s o.sa).toNat % 64 = 0 →
    checkElem s (me s) .load 32 (getS s o.sb) = .ok q → localBytes s q 32 = some b →
    wordItems s1 (nextGroup (me s)) (getS s o.sa) (hdrBytes P.transp false P.n P.m P.wid P.rowb P.kgroups P.rowb) = .ok items →
    if pruneCheck (mxCols (me s).die) P P.wid = 0 then
      ∃ t, exec (.sphdr o) s = .next t ∧ OnlyMe { s with tlb := t.tlb } t ∧ me t = addItems (me s) s.slot items
    else
      exec (.sphdr o) s = .next (takeException (putMe (rollback s) { me (rollback s) with vstart := 0, vsyl := s.slot % 4, resumeAt := 0 }) 0x0E
        (tileEval (pruneCheck (mxCols (me s).die) P P.wid)) 0)) ∧
  (∀ (o : VmAb) (s : State) (q q0 : Place) (b b0 : List Byte) (p : Nat → Place) (src : Nat → List Byte),
    let P := pruneBlk b
    let d := blkDesc (me s) (numOf b0)
    let rb := ceilDiv (P.kgroups * P.m) (blkE d.wid)
    let s1 := filled s [getS s o.sa]
    let s2 := filled s1 [P.src]
    let s3 := filled s2 ((List.range (P.rowb * rb)).map fun k => P.src + BitVec.ofNat 64 (64 * k))
    let out := prunedRows P (blkFcode (numOf b0)) d ((List.range (P.rowb * rb)).map fun k => numOf (src k)) (startOf s)
    (me s).trunk = false → Fresh s → streamOf (me s) = [] → (getS s o.sa).toNat % 32 = 0 → (getS s o.sb).toNat % 64 = 0 →
    checkElem s (me s) .load 32 (getS s o.sa) = .ok q → localBytes s q 32 = some b → P.src.toNat % 64 = 0 →
    checkElem s1 (me s) .load 64 P.src = .ok q0 → localBytes s q0 64 = some b0 → blkValid (me s) (numOf b0) = true →
    pruneBad s2 (getS s o.sb) P d.wid rb (startOf s) = none →
    (P.zeros = true → P.transp = true → P.m ≠ 2 → P.m ≠ 4 →
      exec (.prune o) s = .next (takeException (rollback s) 0x01 (sylWord s (.prune o)) 0)) ∧
    ∀ items : List QItem, (P.transp = false ∨ P.m = 2 ∨ P.m = 4) → pruneCheck (mxCols (me s).die) P d.wid = 0 →
      (∀ k, k < P.rowb * rb → checkElem s2 (me s) .load 64 (P.src + BitVec.ofNat 64 (64 * k)) = .ok (p k) ∧
        localBytes s (p k) 64 = some (src k) ∧ blkFcode (numOf (src k)) = blkFcode (numOf b0)) →
      rowsFit P d.wid = P.rowb → 64 ≤ P.limit →
      writeAll s3 (nextGroup (me s)) (tileWrites (getS s o.sb) P d.wid (startOf s) out) = .ok items →
      ∃ t, exec (.prune o) s = .next t ∧ OnlyMe { s with tlb := t.tlb } t ∧
        me t = { addItems (me s) s.slot items with fflags := (me s).fflags ||| orFlags (out.map fun x => x.2.2.2) })

/-- R198 to R203, R207, R347 to R356: the matrix array. MXATT grants whole slices that are free; MXDET gives the rows back; MXLDS adds blocks to
the shadow plane; MXSWAP exchanges the planes; MXSTRM adds every streamed row exactly into its accumulator row; MXDRAIN pushes rounded
accumulators whose cells are not poisoned; MXCLR empties rows; MXSTAT reads the state. Each completes and leaves every other hold as it was. -/
def Obligations.MatrixArray : Prop :=
  (∀ (o : S2) (s : State), (me s).trunk = false → (getS s o.sa).toNat % 64 = 0 →
    let take := (mxFree (mxDrop s (me s)) (me s)).take (min (getS s o.sa).toNat (mxRows (me s).die) / 64)
    ∃ t, exec (.mxatt o) s = .next t ∧ RegsAfter s t o.sd (BitVec.ofNat 64 (64 * take.length)) ∧
      { me t with regs := (me s).regs } = me s ∧
      MxBecomes s t (if take.length = 0 then none else some
        { owner := mxOwner (me s), rank := (me s).rank, slices := BitVec.ofNat 8 ((take.map (2 ^ ·)).foldl (· + ·) 0),
          grant := 64 * take.length, shadow := MxPlane.empty, active := MxPlane.empty, acc := [], accPois := [] })) ∧
  (∀ s : State, (me s).trunk = false → ∃ t, exec .mxdet s = .next t ∧ MxBecomes s t none ∧ me t = me s) ∧
  (∀ (o : MxldsOps) (s : State), (me s).trunk = false → getS s o.sa = 0 → exec (.mxlds o) s = .next s) ∧
  (∀ (o : MxldsOps) (s : State) (bs : List Nat) (st1 : Strand) (p : MxPlane), (me s).trunk = false → getS s o.sa ≠ 0 →
    (getS s o.sa).toNat < 2 ^ 32 → blocksOf (me s) o.q.toNat (getS s o.sa).toNat = some (bs, st1) →
    (if (loadPlane (myHold s)).cursor = 0 ∧ blkFcode (bs.headD 0) = 0xF0 then
      loadSparse (me s) (myHold s).grant (mxCols (me s).die) bs = .ok p
    else loadDense (me s) (myHold s).grant (mxCols (me s).die) (loadPlane (myHold s)) bs = .ok p) →
    ∃ t, exec (.mxlds o) s = .next t ∧ me t = st1 ∧ MxBecomes s t (some { myHold s with shadow := p })) ∧
  (∀ s : State, (me s).trunk = false → holdOf s (me s) = none → exec .mxswap s = .next s) ∧
  (∀ (s : State) (h : MxHold), (me s).trunk = false → holdOf s (me s) = some h →
    ∃ t, exec .mxswap s = .next t ∧ me t = me s ∧
      MxBecomes s t (some { h with shadow := { h.active with fresh := true }, active := h.shadow })) ∧
  (∀ (o : MxstrmOps) (s : State), (me s).trunk = false → (myHold s).grant ≠ 0 → (myHold s).active.width ≠ 0 →
    (getS s o.sa).toNat ≤ mxAccr (me s).die (myHold s).grant → getS s o.sb = 0 → exec (.mxstrm o) s = .next s) ∧
  (∀ (o : MxstrmOps) (s : State) (bs : List Nat) (st1 : Strand),
    let h := myHold s
    let k := streamBlocks h.active
    (me s).trunk = false → h.grant ≠ 0 → h.active.width ≠ 0 →
    (getS s o.sa).toNat + (getS s o.sb).toNat ≤ mxAccr (me s).die h.grant → getS s o.sb ≠ 0 →
    blocksOf (me s) o.q.toNat ((getS s o.sb).toNat * k) = some (bs, st1) →
    (∀ b, b ∈ bs → blkValid (me s) b = true ∧ blkE (blkDesc (me s) b).wid = blkE h.active.width) →
    ∃ t, exec (.mxstrm o) s = .next t ∧ me t = st1 ∧
      MxBecomes s t (some ((List.range (getS s o.sb).toNat).foldl (fun h j =>
        streamRow (me s) (mxCols (me s).die) h ((getS s o.sa).toNat + j) ((bs.drop (j * k)).take k)) h))) ∧
  (∀ (o : MxdrainOps) (s : State),
    let st := me s
    let h := myHold s
    let dw := drainWord (mxCols st.die) (getS s o.sb)
    let d := fdOf (st.fds.getD dw.fd 0)
    let md := slotMode st o.slot
    let ps := (((List.range dw.nrow).map fun r =>
      if dw.blk then drainBlocks h dw.fd d (md == .rtz) dw.ncol ((getS s o.sa).toNat + r)
      else drainRow h (tyFmt (slotTy st o.slot)) md dw.ncol ((getS s o.sa).toNat + r)).flatten).drop (startOf s)
    st.trunk = false → dw.mbz = true → dw.ncol ≤ mxCols st.die → h.grant ≠ 0 →
    (getS s o.sa).toNat + dw.nrow ≤ mxAccr st.die h.grant → (dw.blk = true → fdValid d = true ∧ (md = .rne ∨ md = .rtz)) →
    (dw.blk = false → slotTy st o.slot = 9 ∨ slotTy st o.slot = 10) → (∀ x, x ∈ ps → x.2.2 = false) →
    ∃ t, exec (.mxdrain o) s = .next t ∧
      MeBecomes s t { setOq st o.q.toNat (qpush (oqOf st o.q.toNat) (startOf s) (if dw.blk then 32 else tyWidth (slotTy st o.slot))
          (ps.map fun x => (x.1, true))) with
        fflags := st.fflags ||| orFlags (ps.map fun x => x.2.1) }) ∧
  (∀ (o : S2ab) (s : State), (me s).trunk = false → (myHold s).grant ≠ 0 →
    (getS s o.sa).toNat + (getS s o.sb).toNat ≤ mxAccr (me s).die (myHold s).grant →
    ∃ t h, exec (.mxclr o) s = .next t ∧ me t = me s ∧ MxBecomes s t (some h) ∧
      { h with acc := (myHold s).acc, accPois := (myHold s).accPois } = myHold s ∧
      ∀ row col, col < 512 →
        accCell h row col = (if (getS s o.sa).toNat ≤ row ∧ row < (getS s o.sa).toNat + (getS s o.sb).toNat then eaInit
          else accCell (myHold s) row col)) ∧
  (∀ (o : S1d) (s : State), (me s).trunk = false →
    ∃ t, exec (.mxstat o) s = .next t ∧ WritesReg s t o.sd (BitVec.ofNat 64 (mxStatus (me s).die (myHold s))))

/-! ## The race unit and the detokeniser -/

/-- R364: a race syllable whose operand names no context, or a context that the strand does not own, takes not-owned: EVAL is the operand, or the
context number. -/
def Obligations.ContextChecks : Prop :=
  ∀ (i : Instr) (s : State) (ss : BitVec 5) (hi : Bool), ctxOperand i = some (ss, hi) →
    (me s).trunk = false ∨ barsTrunk i = false →
    (ctxOf hi (getS s ss) = none → exec i s = .next (takeException (rollback s) 0x0A (getS s ss) 0)) ∧
    (∀ c, ctxOf hi (getS s ss) = some c → ownsCtx s (me s) c = false →
      exec i s = .next (takeException (rollback s) 0x0A (BitVec.ofNat 64 c) 0))

/-- R217 to R222, R230, R367, R369, R370, R374, R375: RCINIT starts a race in an idle context and is ignored in one that runs; RCNOISE writes
the noise of each token; RCWAIT of a context that has ended and RCREAD complete; RCSET writes a register of an idle context where the
value is admitted, binds the strand to a shard, and is otherwise ignored. R216: a key, the noise context, NKEY and NH take what they are
given; INVT, MARGIN, TOPK, REF, VOCAB, BTAB, ATAB, the race word and RBLK take only the values of their rules. The model's own choices in
it: log 41. -/
def Obligations.RaceControl : Prop :=
  (∀ (o : RcinitOps) (s : State) (c : Nat), Performs s (.rcinit o) c →
    let x := raceOf s c
    ∃ t, exec (.rcinit o) s = .next t ∧
      if racing x = true ∨ getS s o.smask = 0 ∨ ((x.margin ≠ f32PosInf ∨ x.topk ≠ 0) ∧ multiRace x = true) then
        RaceAfter s t c x (freshStrand0 s c)
      else
        let u := freshBlock s c
        RaceAfter u t c (initRace x (getS s o.smask)) { me u with race := freshBind (me s).race c (x.epoch + 1) }) ∧
  (∀ (o : RcvOps) (s : State) (c : Nat) (srcs : List (List Nat)) (st1 : Strand),
    let x := raceOf s c
    let st := freshStrand0 s c
    let F : ElemForm :=
      { srcs := [(o.va.toNat, 32)], vd := o.vd.toNat, wd := 32, act := predBit (me s) o.m.toNat,
        res := fun _ l _ => (noise x.nkey0 x.nkey1 x.nctx (l.getD 0 0), 0) }
    (me s).trunk = false → Performs s (.rcnoise o) c → F.fits (me s) = true → vsrcs st F.srcs = some (srcs, st1) →
    ∃ t, exec (.rcnoise o) s = .next t ∧ RaceAfter s t c x (F.after st st1 srcs)) ∧
  (∀ (o : RcwaitOps) (s : State) (c : Nat), Performs s (.rcwait o) c → racing (raceOf s c) = false →
    ∃ t, exec (.rcwait o) s = .next t ∧ RaceAfter s t c (raceOf s c) (freshStrand0 s c)) ∧
  (∀ (o : RcreadOps) (s : State) (c : Nat), Performs s (.rcread o) c →
    ∃ t, exec (.rcread o) s = .next t ∧
      RaceAfter s t c (raceOf s c) (swrite (freshStrand0 s c) o.sd.toNat (raceItem (raceOf s c) o.item.toNat))) ∧
  (∀ (o : RcsetOps) (s : State) (c : Nat), Performs s (.rcset o) c → o.sel.toNat ≤ 12 →
    let x := raceOf s c
    ∃ t, exec (.rcset o) s = .next t ∧
      RaceAfter s t c (if racing x then x else (setRaceReg x o.sel.toNat (getS s o.sv)).getD x) (freshStrand0 s c)) ∧
  (∀ (o : RcsetOps) (s : State) (c : Nat), Performs s (.rcset o) c → o.sel = 17 →
    ∃ t, exec (.rcset o) s = .next t ∧
      RaceAfter s t c (raceOf s c)
        (if (getS s o.sv).toNat < 64 then
          { freshStrand0 s c with race := { bound := true, ctx := c, shard := (getS s o.sv).toNat, tag := 0, cands := [] } }
        else freshStrand0 s c)) ∧
  (∀ (o : RcsetOps) (s : State) (c : Nat), Performs s (.rcset o) c → o.sel = 16 → (raceOf s c).hosts = false →
    ∃ t, exec (.rcset o) s = .next t ∧ RaceAfter s t c (abortRace (raceOf s c) 1) (freshStrand0 s c)) ∧
  (∀ (x : RaceCtx) (w : Word),
    setRaceReg x 0 w = some { x with nkey0 := w } ∧ setRaceReg x 1 w = some { x with nkey1 := w } ∧
    setRaceReg x 2 w = some { x with nctx := w } ∧
    (setRaceReg x 5 w = if w.toNat ≤ 64 then some { x with topk := w.toNat } else none) ∧
    (setRaceReg x 7 w = if w.toNat < 2 ^ 32 then some { x with nh := w.toNat } else none) ∧
    (setRaceReg x 8 w = if 1 ≤ w.toNat ∧ w.toNat ≤ 262144 then some { x with vocab := w.toNat } else none) ∧
    (setRaceReg x 9 w = if w.toNat % 2 = 0 then some { x with btab := w } else none) ∧
    (setRaceReg x 10 w = if w.toNat % 8 = 0 then some { x with atab := w } else none) ∧
    (setRaceReg x 12 w = if w.toNat % 64 = 0 then some { x with rblk := w } else none))

/-- R224, R225, R227, R230, R366, R371 to R373: RCBOUND, RCPICK, RCUPD and RCDROP complete. In a context that has ended, or for a strand that
is not bound to it, RCBOUND writes −∞, RCPICK writes all ones and RCDROP reports true. In a running one RCBOUND presents its active
elements in order, RCPICK removes and writes the best candidate, RCUPD presents an exact logit, and RCDROP clears the shard's bit where no
candidate can beat L*. The model's own choices in it: log 45, log 46, log 47. -/
def Obligations.RacePresentation : Prop :=
  (∀ (o : RcvOps) (s : State) (c : Nat) (cs : List Nat) (st1 : Strand),
    let st := freshStrand0 s c
    (me s).trunk = false → Performs s (.rcbound o) c → fieldFits (me s) o.va.toNat 32 = true → fieldFits (me s) o.vd.toNat 32 = true →
    vsrc st o.va.toNat 32 = some (cs, st1) → racing (raceOf s c) = false ∨ boundTo st.race c = false →
    ∃ t, exec (.rcbound o) s = .next t ∧
      RaceAfter s t c (raceOf s c) (rcWrite st1 o.vd.toNat (startOf s) (me s).vl ((boundEls s o.m cs).map fun e => (e.1, f32NegInf)))) ∧
  (∀ (o : RcvOps) (s : State) (c : Nat) (cs : List Nat) (st1 : Strand) (tab : Nat → Nat × Adjust),
    let st := freshStrand0 s c
    let x := raceOf s c
    let tok := fun k => (getS s o.ss).toNat / 2 ^ 32 + k
    let els : List RcEl := (boundEls s o.m cs).map fun e =>
      { i := e.1, t := tok e.1, c := e.2, eps := if ignored x (tok e.1) then 0 else (tab e.1).1,
        adj := if ignored x (tok e.1) then Adjust.none else (tab e.1).2 }
    let r := presentEls x st.race els
    (me s).trunk = false → Performs s (.rcbound o) c → fieldFits (me s) o.va.toNat 32 = true → fieldFits (me s) o.vd.toNat 32 = true →
    vsrc st o.va.toNat 32 = some (cs, st1) → Fresh s → streamOf (me s) = [] → racing x = true → boundTo st.race c = true →
    st.race.cands.length + els.length ≤ 4096 →
    (∀ e, e ∈ els → ignored x e.t = false → tabled s x e.t e.eps e.adj) →
    ∃ t, exec (.rcbound o) s = .next t ∧
      RaceAfter s t c r.1 (rcWrite { st1 with race := r.2.1, fflags := st1.fflags ||| rcFlags els } o.vd.toNat (startOf s) (me s).vl r.2.2)) ∧
  (∀ (o : RcpickOps) (s : State) (c : Nat), Performs s (.rcpick o) c →
    let st := freshStrand0 s c
    ∃ t, exec (.rcpick o) s = .next t ∧
      RaceAfter s t c (raceOf s c)
        (match racing (raceOf s c) && boundTo st.race c, st.race.cands with
         | true, e :: r => swrite { st with race := { st.race with cands := r } } o.sd.toNat (BitVec.ofNat 64 e.2)
         | _, _ => swrite st o.sd.toNat 0xFFFFFFFFFFFFFFFF#64)) ∧
  (∀ (o : RcupdOps) (s : State) (c : Nat), Performs s (.rcupd o) c →
    updTakes (raceOf s c) ((getS s o.st).toNat % 2 ^ 32) = false →
    ∃ t, exec (.rcupd o) s = .next t ∧ RaceAfter s t c (raceOf s c) (freshStrand0 s c)) ∧
  (∀ (o : RcupdOps) (s : State) (c eps : Nat) (a : Adjust),
    let x := raceOf s c
    let tok := (getS s o.st).toNat % 2 ^ 32
    let v := (getS s o.sv).toNat
    Performs s (.rcupd o) c → Fresh s → streamOf (me s) = [] → updTakes x tok = true → multiRace x = false → tabled s x tok eps a →
    ∃ t, exec (.rcupd o) s = .next t ∧
      RaceAfter s t c (presentExact x tok (v % 2 ^ 32) (v / 2 ^ 32) eps a)
        { freshStrand0 s c with fflags := (me s).fflags ||| raiseIf a.bad flNV }) ∧
  (∀ (o : RcdropOps) (s : State) (c : Nat), (me s).trunk = false → Performs s (.rcdrop o) c →
    racing (raceOf s c) = false ∨ boundTo (freshStrand0 s c).race c = false →
    ∃ t, exec (.rcdrop o) s = .next t ∧ RaceAfter s t c (raceOf s c) (me t) ∧ AllPreds (freshStrand0 s c) (me t) o.pd true) ∧
  (∀ (o : RcdropOps) (s : State) (c : Nat), (me s).trunk = false → Performs s (.rcdrop o) c → racing (raceOf s c) = true →
    boundTo (freshStrand0 s c).race c = true → multiRace (raceOf s c) = false →
    let x := raceOf s c
    let st := freshStrand0 s c
    let bit : Word := 1#64 <<< st.race.shard
    let drops := dropTest x (st.race.cands.head?.map (·.1)) x.leader
    let a := x.active &&& ~~~bit
    ∃ t, exec (.rcdrop o) s = .next t ∧ AllPreds st (me t) o.pd (decide (x.active &&& bit = 0) || drops) ∧
      RaceAfter s t c
        (if x.active &&& bit = 0 ∨ drops = false then x
         else if a ≠ 0 then { x with active := a }
         else if x.st = 1 then enterPhaseB { x with active := a } else resolveRace { x with active := a } x.leader x.leadLo x.leadHi)
        (me t))

/-- R235, R239 to R242, R382, R383: TKEMIT and TKFLUSH complete. TKEMIT of a race that has not resolved to a winner, or to a stream that is
not live, counts an error on the stream; else it writes the winner to the token slot as a release and the detokeniser takes it. TKFLUSH
flushes a live stream and ends it, and counts an error otherwise. An operand that names nothing the strand owns takes not-owned. The
model's own choices in it: log 33. -/
def Obligations.TokenSyllables : Prop :=
  (∀ (o : S3) (s : State) (p : Place), (getS s o.sa).toNat < 64 → (getS s o.sb).toNat < 4096 →
    ownsCtx s (me s) (getS s o.sa).toNat = true → ownsStream s (me s) (getS s o.sb).toNat = true →
    checkScalar s (me s) .store 4 (getS s o.sd) = .ok p →
    let x := raceOf s (getS s o.sa).toNat
    x.st ≠ 3 ∨ x.empty = true ∨ streamLive (streamOfN s (getS s o.sb).toNat) = false →
    ∃ t, exec (.tkemit o) s = .next t ∧ { t with tlb := s.tlb, streams := s.streams } = s ∧
      streamOfN t (getS s o.sb).toNat = { streamOfN s (getS s o.sb).toNat with errors := (streamOfN s (getS s o.sb).toNat).errors + 1 } ∧
      ∀ k, k ≠ (getS s o.sb).toNat → streamOfN t k = streamOfN s k) ∧
  (∀ (o : S3) (s : State) (loc home : Nat), (getS s o.sa).toNat < 64 → (getS s o.sb).toNat < 4096 →
    ownsCtx s (me s) (getS s o.sa).toNat = true → ownsStream s (me s) (getS s o.sb).toNat = true → streamOf (me s) = [] →
    copying (me s) (2 ^ 64) = false → (me s).late = [] → checkScalar s (me s) .store 4 (getS s o.sd) = .ok (.mem loc home) →
    vacatedFrame s loc = false → bridgeUp s (me s).die home = true →
    let x := raceOf s (getS s o.sa).toNat
    x.st = 3 → x.empty = false → streamLive (streamOfN s (getS s o.sb).toNat) = true →
    ∃ s1, exec (.tkemit o) s = .next (emitToken s1 (getS s o.sb).toNat x.win) ∧
      s1.ord = performWrite s.ord (me s).die loc home (bytesOf 4 x.win) ∧
      { s1 with tlb := s.tlb, ord := s.ord } = s) ∧
  (∀ (o : S1a) (s : State), (getS s o.sa).toNat < 4096 → ownsStream s (me s) (getS s o.sa).toNat = true →
    streamLive (streamOfN s (getS s o.sa).toNat) = true → exec (.tkflush o) s = .next (flushStream s (getS s o.sa).toNat)) ∧
  (∀ (o : S1a) (s : State), (getS s o.sa).toNat < 4096 → ownsStream s (me s) (getS s o.sa).toNat = true →
    streamLive (streamOfN s (getS s o.sa).toNat) = false →
    ∃ t, exec (.tkflush o) s = .next t ∧ { t with streams := s.streams } = s ∧
      streamOfN t (getS s o.sa).toNat = { streamOfN s (getS s o.sa).toNat with errors := (streamOfN s (getS s o.sa).toNat).errors + 1 } ∧
      ∀ k, k ≠ (getS s o.sa).toNat → streamOfN t k = streamOfN s k) ∧
  (∀ (o : S1a) (s : State), 4096 ≤ (getS s o.sa).toNat →
    exec (.tkflush o) s = .next (takeException (rollback s) 0x0A (getS s o.sa) 0)) ∧
  (∀ (o : S3) (s : State), 64 ≤ (getS s o.sa).toNat →
    exec (.tkemit o) s = .next (takeException (rollback s) 0x0A (getS s o.sa) 0))

/-! ## Operations and events -/

/-- R376 to R378: a collective whose operand, descriptor and source pass their checks, whose participants all stand in this package, and of
which nothing has been sent, completes: its own contribution and the contribution to every other participant merge into the result areas
and count into the sync words; the strand notes that it is done, and no register changes. A broadcast merges only where its issuer is the
root. The model's own choices in it: log 14, log 50. -/
def Obligations.Collectives : Prop :=
  ∀ (i : Instr) (s : State) (o : S3) (fn np root idx : Nat) (W : Nat → Nat) (p q : Nat → Place) (b : Nat → List Byte),
    let w := (getS s o.sd).toNat
    let n := collSize fn
    let count := w % 8192
    let d := getS s o.sa
    let sends := decide (fn ≠ 1) || decide (root = idx)
    let others := if sends then (List.range np).filter fun k => decide (k ≠ idx) else []
    let bytes := if sends then ((List.range (count / n)).map b).flatten else []
    let fs := collFrags fn count (others.map fun k => (k, W (2 + k)))
    collCode i = some (o, fn) → w = count + 65536 * idx → 1 ≤ count → count ≤ 4096 → count % n = 0 → d.toNat % 64 = 0 →
    1 ≤ np → np ≤ 1024 → idx < np → (fn = 1 → root < np) → root < 65536 → W 0 = np + 65536 * root → W 1 = 0 →
    Fresh s → streamOf (me s) = [] → collNotes (me s) s.slot = [] → s.fabric.starts = [] →
    (∀ k, k < 2 + np → (k < 2 ∨ k = 2 + idx ∨ sends = true) → W k < 2 ^ 64 ∧
      checkElem s (me s) .load 8 (d + BitVec.ofNat 64 (8 * k)) = .ok (p k) ∧ localBytes s (p k) 8 = some (bytesOf 8 (W k))) →
    entryMine s (me s) (W (2 + idx)) = true →
    (∀ k, k < np → (k = idx ∨ sends = true) → peerOk (W (2 + k)) count true = true ∧ bitsN (W (2 + k)) 33 10 = s.fabric.pkgId ∧
      (k ≠ idx → bridgeUp s (me s).die (bitsN (W (2 + k)) 29 4) = true ∧
        tenantAt s (me s).tenant (peerKey (W (2 + k)) / 2 ^ 24) = true)) →
    spInRange (me s) (bitsN (W (2 + idx)) 0 24) count = true → spInRange (me s) (16 * bitsN (W (2 + idx)) 44 20) 16 = true →
    (sends = true → ∀ k, k < count / n →
      checkElem s (me s) .load n (getS s o.sb + BitVec.ofNat 64 (n * k)) = .ok (q k) ∧ localBytes s (q k) n = some (b k)) →
    let o2 := fs.foldl (fun x f => landOrd fn x (peerKey f.2.1 + f.2.2.2.1) (peerSync f.2.1) (sliceBytes bytes f.2.2.2.1 f.2.2.2.2))
      (if bytes = [] then s.ord else landOrd fn s.ord (peerKey (W (2 + idx))) (peerSync (W (2 + idx))) bytes)
    ∃ t, exec i s = .next t ∧ me t = noteDone (dropNotes (me s) s.slot) s.slot noteElem [] ∧ (∀ k, k ≠ s.cur → strandOf t k = strandOf s k) ∧
      { t with strands := s.strands, tlb := s.tlb, ord := s.ord, trace := s.trace, sched := s.sched } = s ∧
      t.ord.spad = o2.spad ∧ t.ord.spadPoison = o2.spadPoison

/-- R3, R16 to R23, R50 to R52, R58, R60, R70, R71: power, time and reset. Each event completes where its conditions hold; a store to a register of
the trunk control window leaves what `ControlWrites` says, register by register. Where the machine moves by itself, time passes by one arithmetic
cycle and one reference cycle of each die at a step, bubbles among them. The model's own choices in it: log 7, log 36, log 57 (a measured power
counts as 1 W or more), log 64, log 73, log 86. -/
def Obligations.PowerTimeAndReset : Prop :=
  (∀ (s : State) (w : Nat), s.arg = .n1 w → 1024 ≤ s.power.frame → s.power.shut = false →
    let p := s.power
    let m := max w 1
    ∃ t, exec .throttleIntervalEnd s = .next t ∧ t.power = { p with
      frame := 0
      tripEnd := false
      curBub :=
        if p.tripEnd then 7 else if p.tripNow then 7 else if p.force then p.minBub else if p.curBub < p.minBub then p.minBub
        else if p.limitW < m ∧ p.curBub < 7 then p.curBub + 1
        else if p.minBub < p.curBub ∧ m * (9 - p.curBub) ≤ p.limitW * (8 - p.curBub) then p.curBub - 1 else p.curBub }) ∧
  (∀ s : State, exec .thermalTrip s = .next { s with power := { s.power with trip := true, tripNow := true, tripSeen := true } }) ∧
  (∀ s : State, exec .thermalTripClear s = .next { s with power := { s.power with tripNow := false } }) ∧
  (∀ (s : State) (d k : Nat), s.arg = .n2 d k → 1 ≤ d → d ≤ 8 →
    exec .thermalShutdown s = .next
      { s with power := { s.power with shutNext := true }, errors := s.errors ++ [(errShut, d, k)] }) ∧
  (∀ (s : State) (bubble : Bool), s.arg = .bit bubble →
    let p := s.power
    (if p.shut then bubble = true
     else p.frame < 1024 ∧ if bubble then p.bubblesDone < p.curBub else p.curBub - p.bubblesDone ≤ 7 - p.cycleInFrame) →
    ∃ t, exec .arithmeticCycle s = .next t ∧ t.power.trunkHalf = p.trunkHalf + 5 ∧
      (p.shut = true → t = { s with power := { p with trunkHalf := p.trunkHalf + 5 } }) ∧
      (p.shut = false → t.power.working = p.working + (if bubble then 0 else 1) ∧ t.power.inBubble = bubble ∧
        (bubble = true → t.snap = s.snap) ∧
        (bubble = false → t.snap.pend = 0 ∧ (0 < s.snap.pend → t.snap.valid = true) ∧ (s.snap.pend = 0 → t.snap = s.snap)) ∧
        (p.cycleInFrame < 7 → t.power.cycleInFrame = p.cycleInFrame + 1 ∧ t.power.frame = p.frame ∧ t.power.curBub = p.curBub ∧
          t.power.shut = false) ∧
        (p.cycleInFrame = 7 → t.power.cycleInFrame = 0 ∧ t.power.bubblesDone = 0 ∧ t.power.frame = p.frame + 1 ∧
          t.power.shut = p.shutNext ∧
          t.power.curBub = if p.shutNext = true ∨ p.tripNow = true ∨ p.tripSeen = true then 7 else p.curBub))) ∧
  (∀ (s : State) (d : Nat), d < 9 →
    (tick s).power.trunkHalf = s.power.trunkHalf + 5 ∧ clockOf (tick s) d = clockCycle (clockOf s d)) ∧
  (∀ (s : State) (d : Nat), s.arg = .n1 d → d < 9 →
    let c := clockOf s d
    ∃ t, exec .tscReferenceCycle s = .next t ∧ { t with clocks := s.clocks } = s ∧
      clockOf t d = clockCycle c ∧
      clockCycle c = { c with
        acc := (c.acc + (if c.withhold = 0 then c.incr.toNat else c.incr.toNat - c.withhold) + c.addNs * 2 ^ 32) % 2 ^ 96
        withhold := c.withhold - c.incr.toNat
        addNs := 0 }) ∧
  (∀ (s : State) (d : Nat) (v : Word), s.arg = .nw d v → d < 9 → (clockOf s d).withhold = 0 → (clockOf s d).addNs = 0 →
    ∃ t, exec .tsstepWrite s = .next t ∧ { t with clocks := s.clocks } = s ∧
      clockOf t d = if v.toInt < 0 then { clockOf s d with withhold := v.toInt.natAbs * 2 ^ 32 }
        else { clockOf s d with addNs := v.toNat }) ∧
  (∀ s : State, exec .powerLoss s = .next { s with powered := false, sec := { s.sec with token := none } }) ∧
  (∀ (s : State) (k : ResetKind), s.arg = .reset k → s.powered = true ∨ k = .powerOn →
    ∃ t, exec .packageReset s = .next t ∧ t.powered = true ∧ t.fabric.pkgId = s.fabric.pkgId ∧ t.ord.spad = [] ∧ t.queues = [] ∧
      t.ready = [] ∧ ((t.sec.boot = .done ∧ t.sec.runFw = true) ∨ (t.sec.boot = .halted ∧ t.sec.runFw = false)) ∧
      ∀ d, 1 ≤ d → d ≤ 8 → ∀ k, k < 512 → (strandOf t (512 * d + k)).run = .idle) ∧
  (∀ (s : State) (off : Nat) (v : Word), s.arg = .nw off v → off % 8 = 0 → ownEvent off = false →
    ∃ t, windowWrite s 0 off v = some t ∧ exec .registerWrite s = .next t ∧ ControlWrites s t off v) ∧
  (∀ (s : State) (v : Word), s.arg = .w v → v.toNat % 8 ≠ 6 → v.toNat % 8 ≠ 7 → exec .measExtend s = .next s) ∧
  (∀ (s : State) (v : Word), s.arg = .w v → v.toNat % 8 = 6 ∨ v.toNat % 8 = 7 →
    let dig := (s.sec.measDig.map fun x => bytesOf 8 x.toNat).flatten
    exec .measExtend s = .next { s with
      sec := { s.sec with
        meas := s.sec.meas.set (v.toNat % 8)
          (digOf (Config.sm3 (digBytes (s.sec.meas.getD (v.toNat % 8) 0) ++ dig)))
        log := s.sec.log ++ [{ n := v.toNat % 8, ty := v.toNat / 256 % 256, digest := digOf dig, value := [] }] } })

/-- R20, R75, R77, R80 to R83: the trace rings and the snapshot. TRMARK's record is written when its convoy retires, which a queue that overflows
holds back, with the time of that; a trigger in a bubble latches in the first working cycle after it. The model's own choices in it: log 64, log 87.
-/
def Obligations.TraceAndSnapshot : Prop :=
  (∀ (o : S2ab) (s : State),
    exec (.trmark o) s = .next (putMe s { me s with
      marks := (me s).marks ++
        [(0x8000 + (getS s o.sa).toNat % 32768, bytesOf 8 (getS s o.sb).toNat ++ bytesOf 8 (me s).pc.toNat)] })) ∧
  (∀ (s : State) (code : Nat) (pay : List Byte), (me s).marks = [(code, pay)] → (me s).run ≠ .idle →
    overfull (me s) = false →
    let s1 := putMe { s with convoy := none } { retireStrand s.ord (me s) with marks := [] }
    let r := ringOf s (me s).die
    retire s = if r.en = true ∧ r.user = true then tracePut s1 (me s).die code (strandSrc (me s)) pay else s1) ∧
  (∀ (s : State) (d : Nat) (v : Word), s.arg = .nw d v → d < 9 →
    ∃ t, exec .trtailWrite s = .next t ∧ { t with trace := s.trace } = s ∧ ringOf t d = { ringOf s d with
      tail := if (ringOf s d).tail < v.toNat ∧ v.toNat ≤ (ringOf s d).head then v.toNat else (ringOf s d).tail }) ∧
  (∀ (s : State) (d : Nat) (v : Word), s.arg = .nw d v → d < 9 →
    let r := ringOf s d
    let size := v.toNat % 32
    let flags := { r with snap := v.getLsbD 11, thr := v.getLsbD 10, coll := v.getLsbD 9, user := v.getLsbD 8, en := v.getLsbD 5 }
    ∃ t, exec .trctlWrite s = .next t ∧ { t with trace := s.trace } = s ∧
      ringOf t d = (if r.en then flags else if size < 10 ∨ 26 < size then r
        else if v.getLsbD 5 then { flags with size := size, head := 0, tail := 0 } else { flags with size := size })) ∧
  (∀ s : State, pdHeld s = true →
    exec .snapshotFire s = .next { s with snap := { s.snap with pend := s.snap.pend + 1 } }) ∧
  (∀ s : State, pdHeld s = false → s.snap.valid = true →
    exec .snapshotFire s = .next { s with snap := { s.snap with miss := min 0xFFFF (s.snap.miss + 1) } }) ∧
  (∀ s : State, pdHeld s = false → s.snap.valid = false → ∃ t, exec .snapshotFire s = .next t ∧
    t.snap = { s.snap with valid := true, num := (s.snap.num + 1) % 65536, latched := snapValues s }) ∧
  (∀ s : State, s.snap.arm = true → s.snap.at_.toNat ≤ tscOf s 0 →
    ∃ t, exec .snapatMatch s = .next t ∧ t.snap.arm = false ∧
      (pdHeld s = true → t.snap.pend = s.snap.pend + 1) ∧
      (pdHeld s = false → t.snap.valid = true ∧ (s.snap.valid = false → t.snap.num = (s.snap.num + 1) % 65536))) ∧
  (∀ s : State, exec .snapshotValidClear s = .next { s with snap := { s.snap with valid := false } })

/-- R85 to R99, R291: work queues and launches. A tail outside the ring stops its queue; a packet whose words pass R92 becomes a launch and moves
the head; a launch of a tenant that is being reset is cancelled with status 4; a launch whose dependence is met becomes ready; a ready launch yields
records; a launch that can complete does. What the unit reads may lie on another package (R162, R168): the answer brings it. The model's own
choices in it: log 10, log 16, log 59, log 101, log 106, log 107. -/
def Obligations.WorkQueues : Prop :=
  (∀ (s : State) (q : Nat) (v : Word), s.arg = .nw q v → 512 ≤ q → q < 4608 → exec .wqtailWrite s = .next s) ∧
  (∀ (s : State) (q : Nat) (v : Word), s.arg = .nw q v → q < 512 →
    let x := queueOf s q
    ∃ t, exec .wqtailWrite s = .next t ∧ (queueOf t q).tail = v.toNat ∧
      (queueOf t q).stop = if x.stop ≠ 0 then x.stop else if v.toNat % 64 ≠ 0 then 1
        else if 64 * 2 ^ x.size ≤ v.toNat then 2 else 0) ∧
  (∀ (s : State) (q : Nat) (v : Word), s.arg = .nw q v → q < 4608 →
    let x := queueOf s q
    let size := v.toNat / 256 % 32
    ∃ t, exec .wqctlWrite s = .next t ∧ { t with queues := s.queues } = s ∧ (∀ k, k ≠ q → queueOf t k = queueOf s k) ∧
      queueOf t q = (if x.en then { x with en := v.getLsbD 0 } else if size < 6 ∨ 16 < size then x
        else if v.getLsbD 0 then
          { x with size := size, en := true, head := 0, tail := 0, comp := 0, nextId := 1, stop := 0, doneIds := [],
                   epoch := x.epoch + 1 }
        else { x with size := size })) ∧
  (∀ (s : State) (q : Nat), s.arg = .n1 q → q < 4608 →
    let x := queueOf s q
    ∃ t, exec .wqstatClr s = .next t ∧ (queueOf t q).stop = if x.tail % 64 ≠ 0 then 1 else if 64 * 2 ^ x.size ≤ x.tail then 2 else 0) ∧
  (∀ (s : State) (q : Nat), s.arg = .n1 q →
    let x := queueOf s q
    let got := unitGet s (queueTenant q) (BitVec.ofNat 64 (x.base.toNat + x.head)) 64 (packetElem q x)
    x.en = true → x.stop = 0 → x.head ≠ x.tail → (pendingSet x).length < 16 →
    (∀ c u, got = .fail c u → ∃ t, exec .packetConsume s = .next t ∧ (queueOf t q).stop = 4) ∧
    (∀ u, got = .asked u → exec .packetConsume s = .next u) ∧
    (∀ b u, got = .bytes b u →
      (∀ i, badWord (decide (q < 512)) (headId q x) (fun i => leAt b (8 * i) 8) = some i →
        ∃ t, exec .packetConsume s = .next t ∧ (queueOf t q).stop = 3) ∧
      (badWord (decide (q < 512)) (headId q x) (fun i => leAt b (8 * i) 8) = none →
        let l := mkLaunch (x.epoch * 2 ^ 32 + headId q x) fun i => leAt b (8 * i) 8
        ∃ t, exec .packetConsume s = .next t ∧ (queueOf t q).head = (x.head + 64) % (64 * queueSlots x) ∧
          (queueOf t q).live.map (·.id) = x.live.map (·.id) ++ [l.id] ∧
          ((tenantOf s (queueTenant q)).phase = 2 →
            (queueOf t q).live = x.live ++
              [{ l with clock := appliedOf s.ord 0, cancelled := true, status := 4, finished := true }])))) ∧
  (∀ (s : State) (tenant n e : Nat) (va : Word),
    (∀ c, checkUnit s tenant .load va = .error c → unitGet s tenant va n e = .fail c s) ∧
    (∀ loc home, checkUnit s tenant .load va = .ok (.mem loc home) →
      unitGet s tenant va n e = if readPoisoned s 0 loc n = true then .fail cData s else .bytes (memRead s 0 loc n) s) ∧
    (∀ pkg pa x b, checkUnit s tenant .load va = .ok (.peer pkg pa) → answerOf (strandOf s unitSid) unitSlot e = some x →
      x.data = some (.bytes b) → ∃ u, unitGet s tenant va n e = .bytes b u)) ∧
  (∀ (s : State) (q id : Nat) (l : Launch), s.arg = .n2 q id → (pendingSet (queueOf s q)).find? (fun l => l.id == id) = some l →
    depMet (queueOf s q) l = true →
    (∀ t, readyLaunch s q l = some t → exec .launchReady s = .next t) ∧
    (l.ty = .indirect → ∀ c u, unitGet s (queueTenant q) l.countW 8 (countElem q l) = .fail c u →
      ∃ t, exec .launchReady s = .next t ∧ ∀ l', launchOf t q id = some l' → l'.status = 2 ∧ l'.finished = true)) ∧
  (∀ (s : State) (q id : Nat) (l : Launch), s.arg = .n2 q id → launchOf s q id = some l → l.ready = true → l.finished = false →
    l.ty ≠ .marker → l.next < recordCount l → l.root.isSome = true ∨ 36920 ≤ freeCells s →
    ∃ t, exec .recordExpand s = .next t ∧ t.ready.length = s.ready.length + 1 ∧
      ((t.ready.getLast?).map fun r => (r.first, r.count, r.code, r.launch)) =
        some (BitVec.ofNat 64 (l.next * l.gran), min l.gran (l.e - l.next * l.gran), l.entry, l.id)) ∧
  (∀ (s : State) (q id : Nat) (l : Launch), s.arg = .n2 q id → launchOf s q id = some l → canComplete (queueOf s q) l = true →
    exec .launchComplete s = .next (completeLaunch s q l)) ∧
  (∀ (s : State) (q sd pa loc home loc' home' : Nat),
    let x := queueOf s q
    let b := memRead s (me s).die loc 64
    let w := fun i => leAt b (8 * i) 8
    s.arg = .n3 q sd pa → (me s).trunk = false → (me s).run = .running → pdHeld s = false → q / 64 = 8 + (me s).tenant → x.en = true → x.stop = 0 →
    checkScalar s (me s) .load 64 (BitVec.ofNat 64 pa) = .ok (.mem loc home) → readPoisoned s (me s).die loc 64 = false →
    badWord false x.nextId w = none → (leAt b 0 1 = 3 → linkOk s (me s).tenant (w 3 / 2 ^ 32) = true) →
    queueHeld x < queueSlots x - 1 →
    checkScalar s (me s) .store 64 (BitVec.ofNat 64 (x.base.toNat + x.tail)) = .ok (.mem loc' home') → vacatedFrame s loc' = false →
    let o := performWrite s.ord (me s).die loc' home' b
    ∃ t, exec .launchEnqueue s = .next t ∧
      queueOf t q = { x with tail := (x.tail + 64) % (64 * queueSlots x), nextId := nextId x.nextId } ∧
      t.ord = reach o 0 (appliedOf o (me s).die) ∧ (sd < 32 → getS t (BitVec.ofNat 5 sd) = if sd = 0 then 0 else BitVec.ofNat 64 x.nextId))

/-- R16, R23, R102 to R106, R109, R112 to R115: dispatch, pre-emption and faults of a P- or D-die, none of them in a bubble or in the shutdown hold.
A number at or above SVCOUNT names no parked record. The model's own choices in it: log 66, log 67, log 68. -/
def Obligations.DispatchAndFaults : Prop :=
  (∀ (s : State) (d : Nat) (slots : List Nat) (r : Record) (p : Nat) (rr : Nat × Nat), s.arg = .place d slots → 1 ≤ d → d ≤ 8 →
    pdHeld s = false → chooseRec s d = some (r, p, rr) → placeOk s r d slots = true → r.resume = false →
    ∃ t, exec .recordDispatch s = .next t ∧
      ∀ j, j < slots.length → (strandOf t (512 * d + slots.getD j 0)).run = .running ∧
        (strandOf t (512 * d + slots.getD j 0)).pc = r.code ∧ (strandOf t (512 * d + slots.getD j 0)).rank = j) ∧
  (∀ (s : State) (d : Nat), s.arg = .n1 d → 1 ≤ d → d ≤ 8 → (dispOf s d).ageq ≠ 0 → pdHeld s = false →
    exec .agingQuantum s = .next (reserveStep (notePassed s d) d)) ∧
  (∀ (s : State) (d n : Nat) (r : Record) (st : Strand), s.arg = .n2 d n → 1 ≤ d → d ≤ 8 →
    s.ready.find? (fun r => r.order == n && !r.parked) = some r → matchesOn s r d = false → pdHeld s = false →
    lowestStrand ((victims s d).filter fun st => wouldMatch s r st && decide (st.rec_.prio < r.prio)) = some st →
    canPreempt s st = true → exec .preemptPriority s = .next (beginDrain s st)) ∧
  (∀ (s : State) (sid : Nat),
    let st := strandOf s sid
    s.arg = .n1 sid → st.trunk = false → st.run = .running → (dispOf s st.die).preq ≠ 0 →
    st.since + (dispOf s st.die).preq ≤ s.power.working → wantedBy s st = true → canPreempt s st = true → pdHeld s = false →
    exec .preemptionQuantum s = .next (beginDrain s st)) ∧
  (∀ (s : State) (sid : Nat),
    let st := strandOf s sid
    let g := gangOf s st
    s.arg = .n1 sid → st.run = .draining → (∀ m, m ∈ g → m.run = .draining ∧ drained s m = true ∧ m.late = [] ∧ overfull m = false) →
    pdHeld s = false →
    lackSlots s g ≤ saveRoom s st.die →
    ∃ t, exec .preemptSave s = .next t ∧ t.ready.length = s.ready.length + 1 ∧
      (t.ready.getLast?.map fun r => (r.resume, r.parked, r.child)) = some (true, false, st.rec_.child)) ∧
  (∀ (s : State) (d : Nat), s.arg = .n1 d → 1 ≤ d → d ≤ 8 → pdHeld s = false → exec .saveSlotFreed s = .next (serveFaults s d)) ∧
  (∀ (s : State) (d : Nat) (v : Word), s.arg = .nw d v → 1 ≤ d → d ≤ 8 → parkedAt s d v.toNat = none →
    exec .resumew s = .next s ∧ exec .killw s = .next s) ∧
  (∀ (s : State) (d n : Nat), (dispOf s d).svCount ≤ n → parkedAt s d n = none) ∧
  (∀ (s : State) (d : Nat) (v : Word) (st : Strand), s.arg = .nw d v → 1 ≤ d → d ≤ 8 → parkedAt s d v.toNat = some st →
    ∃ t, exec .resumew s = .next t ∧
      t.ready = s.ready ++ [{ st.rec_ with parked := false, readyAt := s.power.working, order := s.orderNo, passed := [] }]) ∧
  (∀ (s : State) (d : Nat) (v : Word) (st : Strand), s.arg = .nw d v → 1 ≤ d → d ≤ 8 → parkedAt s d v.toNat = some st →
    exec .killw s = .next (serveFaults
      (endSaved (updLaunch s st.rec_.queue st.rec_.launch fun l => { l with killed := true }) st.rec_) d)) ∧
  (∀ (s : State) (d : Nat) (v : Word), s.arg = .nw d v → 1 ≤ d → d ≤ 8 →
    let x := dispOf s d
    exec .flttailWrite s = .next (serveFaults (putDisp s d { x with
      fltTail := if x.fltTail < v.toNat ∧ v.toNat ≤ x.fltHead then v.toNat else x.fltTail }) d)) ∧
  (∀ (s : State) (d : Nat) (v : Word), s.arg = .nw d v → 1 ≤ d → d ≤ 8 →
    let x := dispOf s d
    let size := v.toNat % 32
    exec .fltctlWrite s = .next
      (if x.fltEn then serveFaults (putDisp s d { x with fltEn := v.getLsbD 5 }) d
       else if size < 6 ∨ 16 < size then s
       else serveFaults (putDisp s d { x with fltSize := size, fltEn := v.getLsbD 5 }) d))

/-- R28 to R40, R42, R331, R340, R378: flits and planes. A flit that arrives at a port with lock is answered by NAK where its CRC fails, is counted
where its header is in error (a reserved KIND among them) or names another package, is lost where it would have to cross a bridge that is down, and
is received otherwise: a request that a package not enabled, or in the shutdown hold, receives is answered by UNAV; a flit that the stream has
accepted before is acknowledged and does not perform again, but a collective's fragment that was turned away and comes again with its SEQ (R379); the
first flit of a stream, in its turn, performs at its home die. A write or an atomic is answered once every die has applied it (R178). DACK, NAK and
UNAV act on the flits sent. A plane timer sends again, up to eight times; then a request other than a read is held, and the access fails. A flit
without a usable plane waits at its source. The model's own choices in it: log 12, log 14, log 25, log 31, log 32, log 70, log 71, log 85, log 93,
log 94, log 104, log 111. -/
def Obligations.FabricEvents : Prop :=
  (∀ (i : Instr) (s : State) (kind : Nat) (x : Flit), flitCode i = some kind → s.arg = .flit x → x.kind = kind ∨ 9 < x.kind →
    x.plane < 48 → s.fabric.planeUp.getLsbD x.plane = true →
    ∃ t, exec i s = .next t ∧
      (x.crcOk = false → t = { s with fabric := handOut s.fabric x.plane (replyFlit s.fabric x kNak []) }) ∧
      (x.crcOk = true → headerBad x = true ∨ x.dstPkg ≠ s.fabric.pkgId →
        t = { s with fabric := countProto s.fabric x.plane }) ∧
      (x.crcOk = true → headerBad x = false → x.dstPkg = s.fabric.pkgId → bridgesUp s.fabric (planeDie x.plane) x.dstDie = false → t = s) ∧
      (x.crcOk = true → headerBad x = false → x.dstPkg = s.fabric.pkgId → bridgesUp s.fabric (planeDie x.plane) x.dstDie = true →
        (kind = 7 → t = deliverAll ((dackSeqs x.payload).foldl (fun s q => ackOne s (aboutKey x) q) s)) ∧
        (kind = 8 → (flightOf s.fabric (aboutKey x) x.seq = none → t = s) ∧
          (flightOf s.fabric (aboutKey x) x.seq ≠ none → sendFailed s (aboutKey x) x.seq = some t)) ∧
        (kind = 9 → 4 ≤ x.payload.length →
          let tag := leAt x.payload 0 4
          let s1 := noteSeq (noteAvoid s tag (((flightOf s.fabric (aboutKey x) x.seq).map (·.used)).getD [])) tag x.seq
          t = failRequest { s1 with
            fabric := dropFlit (updFlight s1.fabric (aboutKey x) x.seq fun y => if y.tag = tag then none else some y) tag } tag) ∧
        (kind ≤ 6 → s.fabric.en = true → s.power.shut = false → isDup (rxOf s.fabric x) x = true →
          (comesAgain (rxOf s.fabric x) x = none → t = { s with fabric := sendDack s.fabric x }) ∧
          ∀ n, comesAgain (rxOf s.fabric x) x = some n →
            if tenantAt s (reqTenant x) (reqSpad x / 2 ^ 24) = true then
              let f := putRx s.fabric x { rxOf s.fabric x with again := eraseN (rxOf s.fabric x).again n }
              t = doCollect { s with
                fabric := sendDack { f with accepted := NMap.set f.accepted x.plane (NMap.getD f.accepted x.plane 0 + 1) } x } x
            else t = { s with fabric := sendUnav s.fabric x }))) ∧
  (∀ (f : Fabric) (die : Nat) (x : Flit), planesUsable f die = [] → emit f die x = { f with due := f.due ++ [(die, x)] }) ∧
  (∀ x : Flit, 9 < x.kind → headerBad x = true) ∧
  (∀ (s : State) (k : StreamKey) (seq : Nat),
    (flightOf s.fabric k seq = none → ackOne s k seq = s) ∧
    (∀ y, flightOf s.fabric k seq = some y → y.group = 0 → y.flit.kind ≠ 5 →
      ackOne s k seq = { s with fabric := updFlight s.fabric k seq fun _ => none })) ∧
  (∀ (i : Instr) (s : State) (kind : Nat) (x : Flit), flitCode i = some kind → Arriving s x kind →
    s.fabric.en = false ∨ s.power.shut = true → kind ∈ [0, 1, 2, 5, 6] → (rxOf s.fabric x).waiting = [] → x.seq = (rxOf s.fabric x).low % 65536 →
    ∃ t, exec i s = .next t ∧ t.ord = s.ord ∧ t.strands = s.strands ∧
      t.fabric.outbox = (sendUnav s.fabric x).outbox ∧ t.fabric.due = (sendUnav s.fabric x).due ∧ (rxOf t.fabric x).low = (rxOf s.fabric x).low + 1) ∧
  (∀ (i : Instr) (s : State) (kind : Nat) (x : Flit), flitCode i = some kind → Arriving s x kind → kind ≤ 6 → FirstInTurn s x →
    (kind = 5 → tenantAt s (reqTenant x) (reqSpad x / 2 ^ 24) = true) →
    let y := { x with seq := (rxOf s.fabric x).low }
    let s1 := { s with fabric := takenFlit s.fabric x }
    ∃ t, exec i s = .next t ∧
      (kind = 0 → t = doRead s1 y) ∧ (kind = 1 → t = doWrite s1 y) ∧ (kind = 2 → t = doAtomic s1 y) ∧
      (kind = 3 → t = answer s1 (leAt x.payload 0 4) (.bytes (x.payload.drop 4))) ∧
      (kind = 4 → t = answer s1 (leAt x.payload 0 4) (if x.payload.length ≤ 4 then .noValue else .bytes (x.payload.drop 4))) ∧
      (kind = 5 → t = doCollect s1 y) ∧ (kind = 6 → t = doFragment s1 y)) ∧
  (∀ (s : State) (x : Flit),
    let a := leAt x.payload 0 8
    let n := leAt x.payload 8 2
    let loc := memLoc x.dstDie a
    let b := (x.payload.drop 16).take n
    let key := spadKey x.dstDie (bitsN a 24 5) (bitsN a 0 24)
    let sync := spadKey x.dstDie (bitsN a 24 5) (16 * bitsN a 44 20)
    (a < 2 ^ 63 → inCapacity x.dstDie a n = false →
      doRead s x = turnAway { s with fabric := countProto s.fabric (100 + x.dstDie) } x) ∧
    (a < 2 ^ 63 → inCapacity x.dstDie a n = true → readPoisoned s x.dstDie loc n = true → doRead s x = turnAway s x) ∧
    (a < 2 ^ 63 → inCapacity x.dstDie a n = true → readPoisoned s x.dstDie loc n = false →
      doRead s x = sendBack s x kRdata (memRead s x.dstDie loc n)) ∧
    (2 ^ 63 ≤ a → tenantAt s (leAt x.payload 11 1 / 4) (key / 2 ^ 24) = true → spadPoisoned s.ord key n = false →
      doRead s x = sendBack s x kRdata (Memory.getBytes s.ord.spad key n)) ∧
    (inCapacity x.dstDie a b.length = false → doWrite s x = turnAway { s with fabric := countProto s.fabric (100 + x.dstDie) } x) ∧
    (inCapacity x.dstDie a b.length = true → vacatedFrame s loc = false →
      let o := performWrite s.ord x.dstDie loc x.dstDie b
      doWrite s x = sendDone { s with ord := o } x []) ∧
    (∀ op m, aopOf (leAt x.payload 10 1) = some op → inCapacity x.dstDie a m = true →
      m = (if op = .ea then 64 else if op = .addF32 ∨ op = .maxF32 ∨ op = .minF32 then 4 else reqSize x) →
      vacatedFrame s loc = false → memPoisoned s.ord x.dstDie loc m = false →
      let r := atomicMem s.ord op m loc x.dstDie (leAt (x.payload.drop 16) 0 m) (leAt (x.payload.drop 16) m m)
      doAtomic s x = sendDone { s with ord := r.1 } x
        (bytesOf m (numOf (Memory.getBytes (viewOf s.ord x.dstDie) loc m)))) ∧
    (tenantAt s (leAt x.payload 11 1 / 4) (key / 2 ^ 24) = false → doFragment s x = turnAway s x) ∧
    (tenantAt s (leAt x.payload 11 1 / 4) (key / 2 ^ 24) = true →
      doFragment s x = sendBack { s with ord := fragLand s.ord key sync b } x kWdone []) ∧
    (doCollect s x).ord.spad = (landOrd (leAt x.payload 10 1) s.ord key sync b).spad ∧
    (doCollect s x).ord.spadPoison = (landOrd (leAt x.payload 10 1) s.ord key sync b).spadPoison) ∧
  (∀ (s : State) (x : Flit) (data : List Byte), s.fabric.owed = [] → (txOf s.fabric (backKey x)).unacked.length < 4096 →
    (reachedAll s.ord (appliedOf s.ord x.dstDie) = true → sendDone s x data = sendBack s x kWdone data) ∧
    (reachedAll s.ord (appliedOf s.ord x.dstDie) = false → sendDone s x data = { s with
      fabric := { s.fabric with owed := [{ req := x, data := data, clock := appliedOf s.ord x.dstDie }] } })) ∧
  (∀ (s : State) (x : Flit) (kind : Nat) (data : List Byte), (txOf s.fabric (backKey x)).unacked.length < 4096 →
    ∃ f, sendBack s x kind data = { s with fabric := f } ∧ (txOf f (backKey x)).next = (txOf s.fabric (backKey x)).next + 1) ∧
  (∀ (s : State) (k : StreamKey) (seq : Nat) (y : SentFlit), s.arg = .timer k seq → flightOf s.fabric k seq = some y →
    ∃ t, exec .planeTimerExpiry s = .next t ∧ sendFailed s k seq = some t ∧
      (y.tries < 7 → t = collStarts { s with
        fabric := updFlight (transmit s.fabric k.srcDie { y with tries := y.tries + 1 }).1 k seq
          fun _ => some (transmit s.fabric k.srcDie { y with tries := y.tries + 1 }).2 }) ∧
      let s1 := noteAvoid s y.tag y.used
      (7 ≤ y.tries → isRequest y.flit.kind = true → y.flit.kind ≠ 0 →
        t = failRequest (holdFlits s1 y) y.tag ∧ (holdFlits s1 y).fabric.held = true ∧
        ∀ u, u ∈ s.fabric.tx → ∀ z, z ∈ u.unacked → z.held = false → z.sid = y.sid → z.tag = y.tag →
          ∃ u', u' ∈ (holdFlits s1 y).fabric.tx ∧ u'.key = u.key ∧
            ∃ z', z' ∈ u'.unacked ∧ z'.flit = z.flit ∧ z'.held = true) ∧
      (7 ≤ y.tries → isRequest y.flit.kind = false ∨ y.flit.kind = 0 →
        t = failRequest { s1 with fabric := updFlight s1.fabric k seq fun _ => none } y.tag)) ∧
  (∀ (s : State) (sid tag : Nat), ownerOf s tag = some sid →
    ((strandOf s sid).answers.any (fun a => a.tag == tag) = true →
      failRequest s tag = raceLates (putStrand s sid (setAnswer (strandOf s sid) tag .failed))) ∧
    (∀ o, (strandOf s sid).answers.any (fun a => a.tag == tag) = false → (strandOf s sid).outst.find? (fun o => o.tag == tag) = some o →
      failRequest s tag = raceLates (putStrand (ticketDone s (strandOf s sid) tag) sid
        (addLate (bringOld (answered (strandOf s sid) tag) o.fill 0 0) cLink o.va)))) ∧
  (∀ (s : State) (k : Nat), s.arg = .n1 k → k < 48 →
    (∃ t, exec .portLockLost s = .next t ∧ ∀ j, j < 48 → t.fabric.planeUp.getLsbD j = (s.fabric.planeUp.getLsbD j && decide (j ≠ k))) ∧
    (∃ t, exec .portLockGained s = .next t ∧ ∀ j, j < 48 → t.fabric.planeUp.getLsbD j = (s.fabric.planeUp.getLsbD j || decide (j = k)))) ∧
  (∀ (s : State) (a b : Nat), s.arg = .n2 a b → a < b → b ≤ 8 → a = 0 ∨ a + 4 = b →
    ∃ t, exec .bridgeDown s = .next t ∧ (a, b) ∈ t.fabric.bridgesDown ∧ (∀ p, p ∈ s.fabric.bridgesDown → p ∈ t.fabric.bridgesDown) ∧
      t.errors = s.errors ++ [(errBridge, a, b)] ∧ { t with fabric := s.fabric, errors := s.errors } = s) ∧
  (∀ s : State, exec .fabctlHeldDiscard s = .next { s with fabric := discardHeld s.fabric })

/-- R44 to R49, R73: received and sent Ethernet frames. A request datagram, given by its fields, by its payload or in its frame, that passes its
tenant's filter stands in the tenant's receive ring with the time; any other is counted and discarded. PTP event messages are stamped: in one-step
mode the MAC writes the time into a Sync and the residence into a Pdelay_Resp, every other event message brings its timestamp to firmware. The
model's own choices in it: log 74, log 75, log 91, log 95, log 96. -/
def Obligations.EthernetEvents : Prop :=
  (∀ (i : Instr) (s : State) (kind : Nat) (d : Datagram), dgramCode i = some kind → argDatagram s.arg = some d → d.kind = kind → d.port < 2 →
    ∃ t, exec i s = .next t ∧
      (passes s d = false → t = discard s d.port (if d.tenant < 64 then some d.tenant else none)) ∧
      (passes s d = true → kind ≠ 4 →
        t = putTenant s d.tenant { tenantOf s d.tenant with ring := (tenantOf s d.tenant).ring ++ [(d, tscOf s 0)] }) ∧
      (passes s d = true → kind = 4 →
        let s1 := putTenant s d.tenant { tenantOf s d.tenant with ring := (tenantOf s d.tenant).ring ++ [(d, tscOf s 0)] }
        t = if (streamOfN s d.stream).tenant = d.tenant then resend s1 d.stream d.bseq d.len else s1)) ∧
  (∀ (s : State) (f : EthFrame), s.arg = .eth f → framePort f < 2 → frameLong f = true →
    ∃ t, exec .ethernetFrameReceive s = .next t ∧ { t with eth := s.eth } = s) ∧
  (∀ (s : State) (port : Nat) (b : List Byte), s.arg = .eth (.toFirmware port b) → port < 2 →
    exec .ethernetFrameReceive s = .next { s with eth := { s.eth with toFirmware := s.eth.toFirmware ++ [(port, b)] } }) ∧
  (∀ (s : State) (port : Nat), s.arg = .eth (.badFcs port) → port < 2 →
    ∃ t, exec .ethernetFrameReceive s = .next t ∧ NMap.getD t.eth.discards port 0 = NMap.getD s.eth.discards port 0 + 1) ∧
  (∀ (s : State) (port : Nat) (b : List Byte), s.arg = .frame port false b → port < 2 →
    exec .ethernetFrameReceive s = .next (discard s port none)) ∧
  (∀ (s : State) (port : Nat) (one : Bool) (tr : PtpTransport) (m : List Byte), s.arg = .ptp port one tr m → port < 2 →
    exec .ptpEventReceive s = .next (if ptpType m < 4 then
        { s with eth := { s.eth with ptpRx := s.eth.ptpRx ++ [(port, m, tscOf s 0)] } }
      else { s with eth := { s.eth with toFirmware := s.eth.toFirmware ++ [(port, m)] } })) ∧
  (∀ (s : State) (port : Nat) (one : Bool) (tr : PtpTransport) (m : List Byte), s.arg = .ptp port one tr m → port < 2 →
    one = false ∨ (ptpType m ≠ 0 ∧ ptpType m ≠ 3) →
    ∃ t, exec .ptpEventTransmit s = .next t ∧ t.eth.ptpTx = s.eth.ptpTx ++ [(port, ptpFrame port tr m)] ∧
      t.eth.ptpTxStamps = s.eth.ptpTxStamps ++ (if ptpType m < 4 then [(port, tscOf s 0)] else []) ∧
      NMap.getD t.eth.sentFrames port 0 = NMap.getD s.eth.sentFrames port 0 + 1) ∧
  (∀ (s : State) (port : Nat) (tr : PtpTransport) (m : List Byte), s.arg = .ptp port true tr m → port < 2 →
    ptpType m = 0 ∨ (ptpType m = 3 ∧ (ptpAsked s port m).isSome = true) →
    let residence := tscOf s 0 - (ptpAsked s port m).getD 0
    let m1 := if ptpType m = 0 then putBytes m 34 (ptpStamp (tscOf s 0))
      else putBytes m 8 (bytesBE 8 ((numBE (sliceBytes m 8 8) + residence * 2 ^ 16) % 2 ^ 64))
    ∃ t, exec .ptpEventTransmit s = .next t ∧ t.eth.ptpTx = s.eth.ptpTx ++ [(port, ptpFrame port tr m1)] ∧
      t.eth.ptpTxStamps = s.eth.ptpTxStamps ∧ NMap.getD t.eth.sentFrames port 0 = NMap.getD s.eth.sentFrames port 0 + 1)

/-- R47, R49, R52, R54, R55, R57, R58, R62 to R67, R118, R119: the management protocol of trunk firmware. A request with a bad header is
answered with status 2; an owner operation whose signature fails with status 1, and outside the deployed state with status 3 where it
needs that state; an operation that passes takes effect and is answered with status 0. The model's own choices in it: log 34, log 35, log
76, log 77, log 78, log 91, log 97, log 98, log 99, log 100, log 112. -/
def Obligations.ManagementEvents : Prop :=
  (∀ (i : Instr) (s : State) (r : MgmtReq) (op : Nat), openCode i = some op → s.arg = .mgmt r → r.op = op →
    fwServes s r = true ∨ (recServes s r = true ∧ (lcstate s.sec ≠ 4 ∨ op = 1)) →
    ∃ t, exec i s = .next t ∧ (badHeader r = true → t = sendReply s r 2 []) ∧
      (badHeader r = false → op = 1 →
        t = sendReply s r 0 (bytesOf 8 (bootstat s.sec) ++ bytesOf 8 (lcstate s.sec) ++ bytesOf 2 s.fabric.pkgId)) ∧
      (badHeader r = false → op = 2 → r.body.length = 32 → lcstate s.sec ≠ 0 → lcstate s.sec ≠ 4 → t.sec.quotes = s.sec.quotes + 1) ∧
      (badHeader r = false → op = 3 → r.body.length = 4 →
        t = sendReply s r 0 (fitRoom (replyRoom r) ((s.sec.log.drop (leAt r.body 0 4)).map recordBytes))) ∧
      (badHeader r = false → op = 4 → t = sendReply s r 0 Config.certChain) ∧
      { t with eth := s.eth, sec := s.sec } = s) ∧
  (∀ (i : Instr) (s : State) (r : MgmtReq) (op : Nat) (needs : Bool), ownerCode i s.arg = some (r, op, needs) → r.op = op →
    fwServes s r = true →
    ∃ t, exec i s = .next t ∧ (badHeader r = true → t = sendReply s r 2 []) ∧
      (badHeader r = false → ownerSigned s.sec r = false → t = sendReply s r 1 []) ∧
      (badHeader r = false → ownerSigned s.sec r = true → needs = true → lcstate s.sec ≠ 2 → t = sendReply (acceptOwner s r) r 3 []) ∧
      (badHeader r = false → ownerSigned s.sec r = true → (needs = true → lcstate s.sec = 2) → op ≠ 0x11 → op ≠ 0x12 →
        t.sec.ownerCounter = r.counter)) ∧
  (∀ (s : State) (r : MgmtReq) (cs ns : List Nat) (w : Nat), s.arg = .mgmtCreate r cs ns w → r.op = 0x10 → fwServes s r = true →
    badHeader r = false → ownerSigned s.sec r = true → lcstate s.sec = 2 → r.tenant < 64 → (tenantOf s r.tenant).phase = 0 →
    cs.all (contextFree s) = true → ns.all (streamFree s) = true →
    ∃ t, exec .tenantCreate s = .next t ∧ tenantOf t r.tenant = { Tenant.free with phase := 1, contexts := cs, streams := ns } ∧
      (∀ c, c ∈ cs → (raceOf t c).assigned = true ∧ (raceOf t c).tenant = r.tenant) ∧ NMap.getD t.tweight r.tenant 1 = w % 256 ∧
      Replies s t r 0) ∧
  (∀ (s : State) (r : MgmtReq) (b : StreamBinding), s.arg = .mgmtStream r b → r.op = 0x13 → fwServes s r = true →
    badHeader r = false → ownerSigned s.sec r = true → lcstate s.sec = 2 → r.tenant < 64 → bindOk b = true →
    hasN (tenantOf s r.tenant).streams b.stream = true → streamLive (streamOfN s b.stream) = false →
    ∃ t, exec .streamOpen s = .next t ∧
      streamOfN t b.stream = { Stream.closed with opened := true, tenant := r.tenant, bind := b } ∧ Replies s t r 0) ∧
  (∀ (s : State) (r : MgmtReq) (n : Nat), s.arg = .mgmtN r n → r.op = 0x13 → fwServes s r = true → badHeader r = false →
    ownerSigned s.sec r = true → lcstate s.sec = 2 → hasN (tenantOf s r.tenant).streams n = true →
    ∃ t, exec .streamClose s = .next t ∧ streamOfN t n = { streamOfN s n with opened := false, pending := [] } ∧ Replies s t r 0) ∧
  (∀ (s : State) (r : MgmtReq) (l : List (List Byte)), s.arg = .mgmtFilter r l → r.op = 0x14 → fwServes s r = true →
    badHeader r = false → ownerSigned s.sec r = true → lcstate s.sec = 2 → r.tenant < 64 → (tenantOf s r.tenant).phase ≠ 0 →
    ∃ t, exec .filterSet s = .next t ∧ tenantOf t r.tenant = { tenantOf s r.tenant with filter := l } ∧ Replies s t r 0) ∧
  (∀ (i : Instr) (s : State) (r : MgmtReq), (i = .tenantReset ∧ r.op = 0x11) ∨ (i = .tenantDestroy ∧ r.op = 0x12) → s.arg = .mgmt r →
    fwServes s r = true → badHeader r = false → ownerSigned s.sec r = true → lcstate s.sec = 2 → r.tenant < 64 →
    (tenantOf s r.tenant).phase = 1 →
    exec i s = .next (beginReset (acceptOwner s r) r.tenant (decide (r.op = 0x12)) [(r.port, replyFrame r 0 [])])) ∧
  (∀ (s : State) (tn : Nat), s.arg = .n1 tn → (tenantOf s tn).phase = 2 → (∀ q, q ∈ queuesOf tn → (queueOf s q).live = []) →
    (∀ b, b ∈ s.batches → ∀ n, NMap.get? b.vacatedAt tn = some n → n < batchStep s b) →
    ∃ t, exec .tenantResetComplete s = .next t ∧ t.eth.replies = s.eth.replies ++ (tenantOf s tn).waiting ∧
      (∀ p, NMap.getD t.eth.sentFrames p 0 =
        NMap.getD s.eth.sentFrames p 0 + ((tenantOf s tn).waiting.filter fun w => w.1 == p).length) ∧
      ((tenantOf s tn).destroy = false → (tenantOf t tn).phase = 1 ∧ (tenantOf t tn).vacated = false) ∧
      ((tenantOf s tn).destroy = true → tenantOf t tn = Tenant.free)) ∧
  (∀ (s : State) (r : MgmtReq) (stage svn : Nat), s.arg = .mgmtN2 r stage svn → r.op = 0x21 → fwServes s r = true →
    badHeader r = false → ownerSigned s.sec r = true → 1 ≤ stage → stage ≤ 4 → svn < 65536 →
    ∃ t, exec .svnRaise s = .next t ∧
      t.sec.minSvn = s.sec.minSvn.set (stage - 1) (max svn (s.sec.minSvn.getD (stage - 1) 0)) ∧ Replies s t r 0) ∧
  (∀ (s : State) (r : MgmtReq), s.arg = .mgmt r → r.op = 0x20 → fwServes s r = true →
    badHeader r = false → tokLenOk r.body = true → ownerSigned s.sec r = true ∨ tokenTurmal r.body = true →
    let s1 := sendReply (if ownerSigned s.sec r = true then acceptOwner s r else s) r 0 []
    exec .lcRequest s = .next (packageReset { s1 with sec := { s1.sec with token := some r.body } } .firmware)) ∧
  (∀ (s : State) (r : MgmtReq), s.arg = .mgmt r → r.op = 0x30 → fwServes s r = true →
    exec .recoverWrite s = .next (sendReply s r 3 [])) ∧
  (∀ (s : State) (r : MgmtReq), s.arg = .mgmt r → r.op = 0x30 → fwServes s r = false → recServes s r = true → lcstate s.sec ≠ 4 →
    badHeader r = false → 12 ≤ r.body.length → leAt r.body 0 1 = s.sec.failStage → leAt r.body 1 1 < 2 → leAt r.body 2 2 = 0 →
    leAt r.body 4 8 % 64 = 0 → (r.body.length - 12) % 64 = 0 → r.body.length - 12 ≤ 8192 →
    leAt r.body 4 8 + (r.body.length - 12) ≤ 64 * 2 ^ 20 + 256 →
    ownerSigned s.sec r = true ∨ turmalSigned r = true →
    ∃ t, exec .recoverWrite s = .next (if leAt r.body 1 1 = 1 then packageReset t .other else t) ∧
      t.sec.flash = flashWrite s.sec.flash s.sec.failStage (leAt r.body 4 8) (r.body.drop 12) ∧
      t.sec.ownerCounter = (if ownerSigned s.sec r = true then r.counter else s.sec.ownerCounter) ∧ Replies s t r 0)

/-- R150, R155, R160 to R169, R177, R224, R232, R233, R250, R253, R295, R416, R68, R112, R117: the moves of the ordering machine, of the engines and
of the race unit, soft errors, and the illegal-instruction exception. A write that a die applies replaces, in that die's view alone, the bytes whose
held value does not lie later in the coherence order (R165), and counts; what every die has applied is answered (R27, R178). The strands of a held
die make no move (R16, R23). The model's own choices in it: log 24, log 29, log 60, log 63, log 69, log
72, log 89, log 92. -/
def Obligations.MachineMoves : Prop :=
  (∀ (s : State) (d : Nat) (v : Word), s.arg = .nw d v → d < 9 → s.tlbInv.length < 16 →
    exec .tlbinv s = .next { s with tlbInv := s.tlbInv ++ [{ v := v, counts := appliedOf s.ord d }] }) ∧
  (∀ (s : State) (x : TlbInv) (r : List TlbInv), s.tlbInv = x :: r → (∀ d, d < 9 → reached s.ord d x.counts = true) →
    exec .tlbInvalidationFinish s = .next { s with tlbInv := r, tlb := s.tlb.filter fun e => !invMatches x.v e }) ∧
  (∀ (s : State) (sid k e n : Nat) (s1 : State) (pois : Bool), engineOpen s sid k e = true →
    moveEl s sid (8 + k) (tokOf (strandOf s sid) k) e = .landed s1 n pois →
    let s2 := updTok s1 sid k fun t => landEl { t with got := t.got.filter fun g => g.1 / 2048 != e } e
    (s.arg = .n3 sid k e → exec .engineElementLand s = .next s2) ∧
    (∀ w, s.arg = .land sid k e w → kvSyncOk s sid (tokOf (strandOf s sid) k) e w = true →
      exec .engineElementLand s = .next { s2 with
        ord := (syncArrive (reach s2.ord ((strandOf s2 sid).die + 4) (appliedOf s2.ord (strandOf s2 sid).die)) w n pois).1 })) ∧
  (∀ (s : State) (sid k e : Nat) (src dst : Word) (n loc home loc' home' : Nat),
    let st := strandOf s sid
    let t := tokOf st k
    copyEl t e = some (src, dst, n) → t.kind ≠ .xfetch → t.got = [] →
    checkElem s (engineStrand st) .load (elSize t n) src = .ok (.mem loc home) →
    checkElem s (engineStrand st) .store (elSize t n) dst = .ok (.mem loc' home') →
    (∀ o j, o + j ≤ n → readPoisoned s st.die (loc + o) j = false) →
    moveEl s sid (8 + k) t e = .landed (memWords s st.die loc' home' (memRead s st.die loc n)) n false) ∧
  (∀ (s : State) (sid k e c : Nat) (ev : Word), s.arg = .n3b sid k e false → engineOpen s sid k e = true →
    moveEl s sid (8 + k) (tokOf (strandOf s sid) k) e = .fail c ev →
    (c = cData → ∀ i, i < e → elOpen (tokOf (strandOf s sid) k) i = true → elPoisoned s sid k i = false) →
    ∃ t, exec .engineElementFault s = .next t ∧
      tokOf (strandOf t sid) k =
        if k < 8 then { tokOf (strandOf s sid) k with pend := true, cause := c, eval := ev, got := [] } else Token.idle) ∧
  (∀ (s : State) (sid loc home : Nat) (a : Access) (r : List QItem),
    let st := strandOf s sid
    s.arg = .n2 sid 0 → st.pq = .acc a :: r → a.place = .mem loc home → st.trunk = true ∨ pdHeld s = false →
    (a.rel = true → copying st a.mark = false ∧ st.late = [] ∧ (a.dom = true → unanswered st none = false)) →
    (∀ o, o ∈ st.outst → o.clock = []) → (∀ x, x ∈ st.answers → x.clock = []) → bridgeUp s st.die home = true →
    vacatedFrame s loc = false → (∀ c, c ≤ 64 → (strandOf s (256 + c)).late = []) →
    (∀ b, a.kind = .write b →
      ∃ t, exec .pathQueueLeave s = .next t ∧ t.ord = performWrite s.ord st.die loc home b ∧
        (strandOf t sid).pq = dropFences t.ord st r ∧ ∀ k, k ≠ sid → strandOf t k = strandOf s k) ∧
    (∀ op n v, a.kind = .atomic op n v → memPoisoned s.ord home loc n = false →
      let x := atomicMem s.ord op n loc home v.toNat 0
      ∃ t, exec .atomicPerform s = .next t ∧ exec .pathQueueLeave s = .next t ∧ t.ord = x.1 ∧
        (strandOf t sid).pq = dropFences t.ord st (.done { a with size := n } x.2.hc :: r) ∧
        ∀ k, k ≠ sid → strandOf t k = strandOf s k)) ∧
  (∀ (s : State) (sid i : Nat), s.arg = .n2 sid i → (strandOf s sid).pq.length ≤ i →
    let l : Look :=
      { depth := 0, path := [], atom := false, left := some (i - (strandOf s sid).pq.length), hit := false, asked := false }
    exec .pathQueueLeave s = .next { s with look := some l } ∧
      exec .atomicPerform s = .next { s with look := some { l with atom := true } }) ∧
  (∀ (s : State) (d i : Nat) (w : WriteMsg), s.arg = .n2 d i → d < 9 → CanonicalOrd s.ord →
    (s.ord.applyBuf.getD d [])[i]? = some w → canApply s.ord d w = true → w.src < 9 →
    let o := if w.home = d then givePos s.ord w.id else s.ord
    let p := (NMap.get? o.pos w.id).getD 0
    ∃ o1, exec .applyWrite s = .next (answerOwns { s with ord := o1 }) ∧ o1.spad = s.ord.spad ∧
      (∀ a, Memory.get (viewOf o1 d) a =
        if w.loc ≤ a ∧ a < w.loc + w.bytes.length ∧ heldLater o d a p = false then w.bytes.getD (a - w.loc) 0
        else Memory.get (viewOf s.ord d) a) ∧
      (∀ e, e < 9 → clockAt (appliedOf o1 d) e = clockAt (appliedOf s.ord d) e + if e = w.src then 1 else 0) ∧
      (∀ k, k < 9 → k ≠ d → viewOf o1 k = viewOf s.ord k ∧ appliedOf o1 k = appliedOf s.ord k) ∧
      o1.nextPos = s.ord.nextPos + if w.home = d then 1 else 0) ∧
  (∀ s : State, (answerOwns s).ord = s.ord ∧
    (s.fabric.owed = [] → (∀ x, x ∈ s.strands → (∀ o, o ∈ x.2.outst → o.clock = []) ∧ ∀ a, a ∈ x.2.answers → a.clock = []) →
      answerOwns s = s)) ∧
  (∀ (s : State) (sid loc home : Nat) (a : Access) (r : List QItem) (b : List Byte),
    let st := strandOf s sid
    s.arg = .n1 sid → st.pq = .acc a :: r → a.place = .mem loc home → a.kind = .ticketed b s.ord.performed → a.rel = false →
    (∀ o, o ∈ st.outst → o.clock = []) → (∀ x, x ∈ st.answers → x.clock = []) → bridgeUp s st.die home = true →
    st.trunk = true ∨ pdHeld s = false → vacatedFrame s loc = false →
    let o := performWrite s.ord st.die loc home b
    ∃ t, exec .ticketAdvance s = .next t ∧ t.ord = passTicket (reachAll o (appliedOf o st.die))) ∧
  (∀ (s : State) (sid : Nat) (x : LateFail) (r : List LateFail),
    let st := strandOf s sid
    s.arg = .n1 sid → st.late = x :: r →
    (sid < 256 ∨ 320 < sid → takesLate st = true → st.trunk = true ∨ pdHeld s = false →
      let st1 := if st.run = .stopped ∧ st.faulted = true ∧ st.vstart ≠ 0 then
          { st with resumeAt := st.vstart, vsyl := if st.vsyl = 4 then st.epc.toNat % 4 else st.vsyl }
        else st
      exec .lateFailure s = .next (takeAt (putStrand s sid { st1 with late := r, vstart := 0, lateStop := true }) sid 0 x.cause x.eval 0)) ∧
    (256 ≤ sid → sid ≤ 320 → exec .lateFailure s = .next (raceLates s))) ∧
  (∀ (s : State) (sid loc home : Nat),
    let st := strandOf s sid
    s.arg = .n1 sid → st.barw = true → st.run = .running → st.trunk = true ∨ pdHeld s = false →
    checkScalar s st .load 16 st.barAddr = .ok (.mem loc home) → readPoisoned s st.die loc 16 = false →
    leAt (memRead s st.die loc 16) 8 4 ≠ st.bargen.toNat →
    exec .barrierWaitEnd s = .next (putStrand s sid { st with barw := false })) ∧
  (∀ (s : State) (pa : Nat), s.arg = .soft (.memory pa) → locMem pa ≤ 9 →
    ∃ t, exec .softError s = .next t ∧ (∀ d, memPoisoned t.ord d pa 1 = true) ∧ SameMemory s t) ∧
  (∀ (s : State) (die pa : Nat), s.arg = .soft (.l2 die pa) → 1 ≤ die → die ≤ 8 → locMem pa ≤ 9 →
    ∃ t, exec .softError s = .next t ∧ memPoisoned t.ord die pa 1 = true ∧
      (∀ d, d ≠ die → memPoisoned t.ord d pa 1 = memPoisoned s.ord d pa 1) ∧ SameMemory s t) ∧
  (∀ (s : State) (key : Nat), s.arg = .soft (.scratchpad key) →
    ∃ t, exec .softError s = .next t ∧ spadPoisoned t.ord key 1 = true ∧ SameMemory s t) ∧
  (∀ (s : State) (sid ea : Nat), s.arg = .soft (.accumulator sid ea) → (strandOf s sid).trunk = false → (strandOf s sid).run ≠ .idle →
    ∃ t, exec .softError s = .next t ∧ (strandOf t sid).eaPois = (strandOf s sid).eaPois ||| BitVec.ofNat 4 (2 ^ (ea % 4))) ∧
  (∀ (s : State) (w : BitVec 32), s.arg = .syllable w → undecodable w = true →
    exec .illegalInstruction s = .next (takeException (rollback s) 0x01 (w.setWidth 64) 0)) ∧
  (∀ (s : State) (c loc home : Nat),
    let x := raceOf s c
    s.arg = .n1 c → c < 64 → awaitsRace x = true → x.hosts = true → blockIdle s c = true →
    checkUnit s x.tenant .load x.rblk = .ok (.mem loc home) → readPoisoned s 0 loc 320 = false →
    (leAt (memRead s 0 loc 320) 0x18 8 = 0 → leAt (memRead s 0 loc 320) 8 8 = 0 →
      exec .homeFinalize s = .next (blockWrite (blockWrite s c 0x10 (max x.leader (leAt (memRead s 0 loc 320) 0 8)) false) c 0x18 1 true)) ∧
    (leAt (memRead s 0 loc 320) 0x18 8 = 1 → leAt (memRead s 0 loc 320) 8 8 = 0 → leAt (memRead s 0 loc 320) 0x20 8 = x.nmem →
      ∃ t, exec .homeResolve s = .next t ∧ (raceOf t c).st = 3)) ∧
  (∀ (s : State) (c : Nat),
    let x := raceOf s c
    s.arg = .n1 c → c < 64 → racing x = true → x.member = true →
    (∀ loc home, x.merging = none → checkUnit s x.tenant .load (x.rblk + 0x10) = .ok (.mem loc home) → readPoisoned s 0 loc 16 = false →
      (leAt (memRead s 0 loc 16) 8 8 = 1 → awaitsRace x = true →
        exec .memberMerge s = .next (mergeMember s c (leAt (memRead s 0 loc 16) 0 8))) ∧
      (leAt (memRead s 0 loc 16) 8 8 = 2 → exec .memberAbort s = .next (abortCtx s c 5))) ∧
    (∀ f, x.merging = some f → blockIdle s c = true →
      ∃ t, exec .memberMerge s = .next t ∧ (raceOf t c).st = 3 ∧ (raceOf t c).merging = none ∧
        (raceOf t c).win = if f = 0 then 0xFFFFFFFF else 0xFFFFFFFF - f % 2 ^ 32))

/-- An event whose data does not stand in the state is refused by its name (the model's choice, log 9 and log 81). -/
def Obligations.EventsNeedTheirData : Prop :=
  ∀ (i : Instr) (s : State) (name : String), needsData i = some name → s.arg = .none → exec i s = .refused (.notEnabled name)

/-! ## Reset, memory, decoding and the step -/

/-- R21, R40, R52, R55, R70, R81, R83, R87, R105, R148, R150, R215, R239, R61: what reset leaves. The registers of the trunk control window read
their reset values, every word of the snapshot windows (SNAPCTL, SNAPAT and the latched values), of the rotary tables and of the byte-table
descriptors reads 0, each register of each race context reads the value that R215 gives it, every measurement register is zero, and every byte of
memory and of the scratchpads is zero. Life-cycle and nonce registers have no clause (their values are the fuses' and the boot's). The model's own
choices in it: log 1, log 2, log 101. -/
def Obligations.ResetState : Prop :=
  let r := windowRead State.reset
  State.reset.powered = true ∧ r 0x0000 = 0 ∧ r 0x0010 = 0x1004 ∧ bitsN (r 0x0018).toNat 0 16 = 0x3000 ∧
    State.reset.fabric.tmo = 3 ∧ State.reset.fabric.en = false ∧ State.reset.fabric.held = false ∧ r 0x0020 = 0 ∧ r 0x0028 = 0 ∧
    (∀ k, k < 4 → r (0x0040 + 8 * k) = 0) ∧ r 0x0060 = 0 ∧
    (∀ d, d < 9 → r (0x1000 + 0x100 * d) = 0 ∧ r (0x1008 + 0x100 * d) = 0x1AAAAAAAB ∧ r (0x1010 + 0x100 * d) = 0 ∧
      r (0x1018 + 0x100 * d) = 0 ∧ r (0x1020 + 0x100 * d) = 0x0A ∧ r (0x1028 + 0x100 * d) = 0 ∧
      r (0x1030 + 0x100 * d) = 0 ∧ r (0x1038 + 0x100 * d) = 0 ∧ r (0x1040 + 0x100 * d) = 0) ∧
    (∀ off, 0x8000 ≤ off → off < 0x11000 → r off = 0) ∧
    (∀ q, q < 4608 → r (0x20000 + 0x40 * q) = 0 ∧ r (0x20008 + 0x40 * q) = 0x600 ∧ r (0x20010 + 0x40 * q) = 0 ∧
      r (0x20018 + 0x40 * q) = 0 ∧ r (0x20020 + 0x40 * q) = 0 ∧ r (0x20028 + 0x40 * q) = 0 ∧ r (0x20030 + 0x40 * q) = 0 ∧
      r (0x20038 + 0x40 * q) = 0) ∧
    (∀ d, d < 8 → (∀ k, k < 10 → r (0x70000 + 0x1000 * d + 8 * k) = 0) ∧ (∀ c, c < 128 → r (0x70400 + 0x1000 * d + 8 * c) = 0) ∧
      ∀ k, k < 32 → r (0x70800 + 0x1000 * d + 8 * k) = 0) ∧
    (∀ t, t < 64 → r (0x79000 + 8 * t) = 1 ∧ r (0x7A000 + 8 * t) = 0) ∧ r 0x7A200 = 0 ∧ r 0x7A208 = 0 ∧ r 0x7A210 = 0 ∧
    (∀ c, c < 64 →
      let b := 0x80000 + 0x200 * c
      r b = 4 ∧ r (b + 0x30) = 0x7F800000 ∧ r (b + 0x88) = 0xFFFFFFFF ∧
      (∀ k, k < 24 → k ∉ [0, 6, 17] → r (b + 8 * k) = 0) ∧
      ∀ e, e < 4 → ∀ k, k < 8 → r (b + 0xC0 + 0x40 * e + 8 * k) = eaInit.extractLsb' (64 * k) 64) ∧
    (∀ off, 0xA0000 ≤ off → off < 0xB0100 → r off = 0) ∧
    (∀ n, n < 8 → State.reset.sec.meas.getD n 1 = 0) ∧
    (∀ d a, Memory.get (viewOf State.reset.ord d) a = 0) ∧ ∀ a, Memory.get State.reset.ord.spad a = 0

/-- Reset memory is in canonical form. The model's own choices in it: log 1. -/
def Obligations.ResetCanonical : Prop :=
  Canonical State.reset

/-- Every step keeps the memory of every die and the scratchpads in canonical form: strictly rising addresses, and no entry that an unlisted
address would read as. The model's own choices in it: log 1. -/
def Obligations.StepKeepsMemoryCanonical : Prop :=
  ∀ s t : State, Canonical s → step s = .next t → Canonical t

/-- R252, R253: decoding the word of a well-formed syllable gives that syllable, with every operand at every value that its encoding admits. -/
def Obligations.DecodeEncode : Prop :=
  ∀ (i : Instr) (w : Nat), i.wf = true → encodeNat i = some w → w < 2 ^ 32 ∧ decodeSyllable w = .ok i

/-- Words written out from the encodings of the spec decode to the syllables that they stand for. -/
def Obligations.WordsDecode : Prop :=
  decodeTableWord 32 0x00000000 = some .emptySyllable ∧
  decodeTableWord 32 0x09400008 = some (.addi ⟨10, 0, 8⟩) ∧
  decodeTableWord 32 0x2864F083 = some (.bfx ⟨3, 4, 60, 8⟩) ∧
  decodeTableWord 32 0x39645133 = some (.amocas ⟨11, 4, 10, 1, 4, true⟩) ∧
  decodeTableWord 32 0x380400D3 = some (.redswap ⟨4, 0, 2, 4, true⟩) ∧
  decodeTableWord 32 0x44A60000 = some (.bne ⟨5, 6, 0⟩) ∧
  decodeTableWord 32 0x581FFFFC = some (.j ⟨0x1FFFFC⟩) ∧
  decodeTableWord 32 0x68000140 = some (.fence ⟨2, 4⟩) ∧
  decodeTableWord 32 0x64E88100 = some (.repf ⟨7, 2, 8, 4⟩) ∧
  decodeTableWord 32 0x80000080 = some (.vcfg ⟨2, 0⟩) ∧
  decodeTableWord 32 0x979E0282 = some (.vfmul ⟨57, 56, 2, true, false, 0, false⟩) ∧
  decodeTableWord 32 0xBB8E1A02 = some (.vfmulVs ⟨56, 56, 13, false, 0, false⟩) ∧
  decodeTableWord 32 0xB0906003 = some (.ppopc ⟨9, 1⟩) ∧
  decodeTableWord 32 0xC0140800 = some (.vld ⟨0, 5, 0, 2, 0, false, 0⟩) ∧
  decodeTableWord 32 0xD8308810 = some (.copy ⟨12, 4, 2, false, 2⟩) ∧
  decodeTableWord 32 0xE0002C02 = some (.xacc ⟨0, 1⟩) ∧
  decodeTableWord 32 0xE800700C = some (.mxstrm ⟨0, 14, 1⟩) ∧
  decodeTableWord 32 0xED129008 = some (.rcset ⟨17, 10, 8⟩) ∧
  decodeTableWord 32 0xF0E53000 = some (.clredEa ⟨7, 5, 6⟩) ∧
  decodeTableWord 32 0xF5285000 = some (.tkemit ⟨9, 8, 10⟩)

/-- R111, R124 to R126, R134, R252, R299: a step of a booted package with no event to serve, whose issuing strand has no late failure, no repeat
frame and no convoy that waits, and whose core holds no older words of the convoy: a convoy whose slots fail the checks of R252 takes the exception
of the lowest of them; any other, where no queue makes a syllable wait, runs the decoded instructions of its slots in their order, each by `exec`,
and retires after the last; REPF runs alone. The machine then goes on as `afterStep` says. The second clause is the convoy with one instruction. The
model's own choices in it: log 20, log 21, log 36, log 49. -/
def Obligations.StepRunsDecoded : Prop :=
  (∀ (s : State) (c : Nat) (ws : List (BitVec 32)) (is_ : Nat → Instr),
    let tr := (strandOf s c).trunk
    let l := (slotsOf tr ws).map fun k => (k, ws.getD k 0, is_ k)
    Issuing s c ws → convoyFault tr ws = none → (∀ k, k ∈ slotsOf tr ws → decodeSyllable (ws.getD k 0).toNat = .ok (is_ k)) →
    Steady id (opened s c ws) l → step s = runDecoded id retire ws Trail.start (opened s c ws) l) ∧
  (∀ (s : State) (c : Nat) (w : BitVec 32) (i : Instr),
    let ws : List (BitVec 32) := [w, 0, 0, 0]
    Issuing s c ws → convoyFault (strandOf s c).trunk ws = none → isRepf (strandOf s c).trunk ws = false →
    decodeSyllable w.toNat = .ok i → isLate w = false → isDone w = false →
    Steady id (opened s c ws) [(0, w, i), (1, 0, .emptySyllable), (2, 0, .emptySyllable), (3, 0, .emptySyllable)] →
    step s =
      match exec i (atSlot (opened s c ws) 0 w) with
      | .next t =>
        .next (afterStep
          (if t.convoy.isSome then retire { t with arg := .syllable 0, slot := 3 }
           else if (NMap.get? t.held t.cur).isSome then waitSlot id ws Trail.start (opened s c ws) 0 [1, 2, 3] t
           else t))
      | .fault f => .fault f
      | .refused r => .refused r) ∧
  (∀ (s : State) (c k cause : Nat) (ws : List (BitVec 32)), Issuing s c ws → convoyFault (strandOf s c).trunk ws = some (k, cause) →
    let s1 := tlbFill (fetchConvoy { s with cur := c } (strandOf s c) (strandOf s c).pc).2 (strandOf s c) (strandOf s c).pc
    step s = .next (afterStep (takeException { s1 with slot := k, convoy := none } cause ((ws.getD k 0).setWidth 64) 0)))
end

