-- ==== Sys2Proof/Laws/Maps.lean ====
section
/-! SUPPORT. Numbered maps and fixed-size files: what a read gives after a write. -/

namespace Sys2Proof.Machine

@[simp] theorem NMap.get?_set_same {α : Type} (m : NMap α) (n : Nat) (v : α) : NMap.get? (NMap.set m n v) n = some v := by
  induction m with
  | nil => simp [NMap.set, NMap.get?]
  | cons x t ih =>
    obtain ⟨k, w⟩ := x
    simp only [NMap.set]
    split
    · simp [NMap.get?]
    · split
      · simp [NMap.get?]
      · rename_i h1 h2
        have : ¬k = n := fun h => h2 h.symm
        simp [NMap.get?, this, ih]

theorem NMap.get?_set_ne {α : Type} (m : NMap α) (n k : Nat) (v : α) (h : k ≠ n) : NMap.get? (NMap.set m n v) k = NMap.get? m k := by
  induction m with
  | nil => simp [NMap.set, NMap.get?, Ne.symm h]
  | cons x t ih =>
    obtain ⟨j, w⟩ := x
    simp only [NMap.set]
    split
    · simp [NMap.get?, Ne.symm h]
    · split
      · rename_i h1 h2
        subst h2
        simp [NMap.get?, Ne.symm h]
      · simp [NMap.get?, ih]

@[simp] theorem NMap.getD_set_same {α : Type} (m : NMap α) (n : Nat) (v d : α) : NMap.getD (NMap.set m n v) n d = v := by
  simp [NMap.getD]

theorem NMap.getD_set_ne {α : Type} (m : NMap α) (n k : Nat) (v d : α) (h : k ≠ n) :
    NMap.getD (NMap.set m n v) k d = NMap.getD m k d := by
  simp [NMap.getD, NMap.get?_set_ne _ _ _ _ h]

@[simp] theorem NMap.get?_erase_same {α : Type} (m : NMap α) (n : Nat) : NMap.get? (NMap.erase m n) n = none := by
  induction m with
  | nil => rfl
  | cons x t ih =>
    simp only [NMap.erase]
    split
    · exact ih
    · rename_i h
      simp [NMap.get?, h, ih]

theorem NMap.get?_erase_ne {α : Type} (m : NMap α) (n k : Nat) (h : k ≠ n) : NMap.get? (NMap.erase m n) k = NMap.get? m k := by
  induction m with
  | nil => rfl
  | cons x t ih =>
    simp only [NMap.erase]
    split
    · rename_i e
      subst e
      simp [NMap.get?, Ne.symm h, ih]
    · simp [NMap.get?, ih]

@[simp] theorem length_putAt {α : Type} (n : Nat) (d : α) (l : List α) (i : Nat) (v : α) : (putAt n d l i v).length = n := by
  simp [putAt]

theorem getD_putAt {α : Type} (n : Nat) (d : α) (l : List α) (i : Nat) (v : α) (k : Nat) (h : k < n) :
    (putAt n d l i v).getD k d = if k = i then v else l.getD k d := by
  simp [putAt, List.getD, h]

theorem putAt_get? {α : Type} (n : Nat) (d : α) (l : List α) (i : Nat) (v : α) (k : Nat) (h : k < n) :
    (putAt n d l i v)[k]?.getD d = if k = i then v else l[k]?.getD d := by
  simpa [List.getD_eq_getElem?_getD] using getD_putAt n d l i v k h

end Sys2Proof.Machine
end

