-- ==== Sys2Proof/Laws/State.lean ====
section
/-! SUPPORT. One lemma per field of `State` and of `Strand` for each update that leaves it, and what each update leaves in the fields it
writes. -/

namespace Sys2Proof.Machine

/-! `putStrand` -/

@[simp] theorem putStrand_powered (s : State) (n : Nat) (st : Strand) : (putStrand s n st).powered = s.powered := rfl
@[simp] theorem putStrand_sched (s : State) (n : Nat) (st : Strand) : (putStrand s n st).sched = s.sched := rfl
@[simp] theorem putStrand_arg (s : State) (n : Nat) (st : Strand) : (putStrand s n st).arg = s.arg := rfl
@[simp] theorem putStrand_cur (s : State) (n : Nat) (st : Strand) : (putStrand s n st).cur = s.cur := rfl
@[simp] theorem putStrand_slot (s : State) (n : Nat) (st : Strand) : (putStrand s n st).slot = s.slot := rfl
@[simp] theorem putStrand_convoy (s : State) (n : Nat) (st : Strand) : (putStrand s n st).convoy = s.convoy := rfl
@[simp] theorem putStrand_look (s : State) (n : Nat) (st : Strand) : (putStrand s n st).look = s.look := rfl
@[simp] theorem putStrand_held (s : State) (n : Nat) (st : Strand) : (putStrand s n st).held = s.held := rfl
@[simp] theorem putStrand_icache (s : State) (n : Nat) (st : Strand) : (putStrand s n st).icache = s.icache := rfl
@[simp] theorem putStrand_ord (s : State) (n : Nat) (st : Strand) : (putStrand s n st).ord = s.ord := rfl
@[simp] theorem putStrand_tnroot (s : State) (n : Nat) (st : Strand) : (putStrand s n st).tnroot = s.tnroot := rfl
@[simp] theorem putStrand_tkroot (s : State) (n : Nat) (st : Strand) : (putStrand s n st).tkroot = s.tkroot := rfl
@[simp] theorem putStrand_tlb (s : State) (n : Nat) (st : Strand) : (putStrand s n st).tlb = s.tlb := rfl
@[simp] theorem putStrand_tlbInv (s : State) (n : Nat) (st : Strand) : (putStrand s n st).tlbInv = s.tlbInv := rfl
@[simp] theorem putStrand_tweight (s : State) (n : Nat) (st : Strand) : (putStrand s n st).tweight = s.tweight := rfl
@[simp] theorem putStrand_disp (s : State) (n : Nat) (st : Strand) : (putStrand s n st).disp = s.disp := rfl
@[simp] theorem putStrand_queues (s : State) (n : Nat) (st : Strand) : (putStrand s n st).queues = s.queues := rfl
@[simp] theorem putStrand_cells (s : State) (n : Nat) (st : Strand) : (putStrand s n st).cells = s.cells := rfl
@[simp] theorem putStrand_nextCell (s : State) (n : Nat) (st : Strand) : (putStrand s n st).nextCell = s.nextCell := rfl
@[simp] theorem putStrand_ready (s : State) (n : Nat) (st : Strand) : (putStrand s n st).ready = s.ready := rfl
@[simp] theorem putStrand_orderNo (s : State) (n : Nat) (st : Strand) : (putStrand s n st).orderNo = s.orderNo := rfl
@[simp] theorem putStrand_mx (s : State) (n : Nat) (st : Strand) : (putStrand s n st).mx = s.mx := rfl
@[simp] theorem putStrand_race (s : State) (n : Nat) (st : Strand) : (putStrand s n st).race = s.race := rfl
@[simp] theorem putStrand_raceOps (s : State) (n : Nat) (st : Strand) : (putStrand s n st).raceOps = s.raceOps := rfl
@[simp] theorem putStrand_rot (s : State) (n : Nat) (st : Strand) : (putStrand s n st).rot = s.rot := rfl
@[simp] theorem putStrand_streams (s : State) (n : Nat) (st : Strand) : (putStrand s n st).streams = s.streams := rfl
@[simp] theorem putStrand_dettab (s : State) (n : Nat) (st : Strand) : (putStrand s n st).dettab = s.dettab := rfl
@[simp] theorem putStrand_trace (s : State) (n : Nat) (st : Strand) : (putStrand s n st).trace = s.trace := rfl
@[simp] theorem putStrand_clocks (s : State) (n : Nat) (st : Strand) : (putStrand s n st).clocks = s.clocks := rfl
@[simp] theorem putStrand_snap (s : State) (n : Nat) (st : Strand) : (putStrand s n st).snap = s.snap := rfl
@[simp] theorem putStrand_power (s : State) (n : Nat) (st : Strand) : (putStrand s n st).power = s.power := rfl
@[simp] theorem putStrand_fabric (s : State) (n : Nat) (st : Strand) : (putStrand s n st).fabric = s.fabric := rfl
@[simp] theorem putStrand_eth (s : State) (n : Nat) (st : Strand) : (putStrand s n st).eth = s.eth := rfl
@[simp] theorem putStrand_sec (s : State) (n : Nat) (st : Strand) : (putStrand s n st).sec = s.sec := rfl
@[simp] theorem putStrand_tenants (s : State) (n : Nat) (st : Strand) : (putStrand s n st).tenants = s.tenants := rfl
@[simp] theorem putStrand_batches (s : State) (n : Nat) (st : Strand) : (putStrand s n st).batches = s.batches := rfl
@[simp] theorem putStrand_errors (s : State) (n : Nat) (st : Strand) : (putStrand s n st).errors = s.errors := rfl
@[simp] theorem putStrand_free (s : State) (n : Nat) (st : Strand) : (putStrand s n st).free = s.free := rfl

/-! `putMe` -/

@[simp] theorem putMe_powered (s : State) (st : Strand) : (putMe s st).powered = s.powered := rfl
@[simp] theorem putMe_sched (s : State) (st : Strand) : (putMe s st).sched = s.sched := rfl
@[simp] theorem putMe_arg (s : State) (st : Strand) : (putMe s st).arg = s.arg := rfl
@[simp] theorem putMe_cur (s : State) (st : Strand) : (putMe s st).cur = s.cur := rfl
@[simp] theorem putMe_slot (s : State) (st : Strand) : (putMe s st).slot = s.slot := rfl
@[simp] theorem putMe_convoy (s : State) (st : Strand) : (putMe s st).convoy = s.convoy := rfl
@[simp] theorem putMe_look (s : State) (st : Strand) : (putMe s st).look = s.look := rfl
@[simp] theorem putMe_held (s : State) (st : Strand) : (putMe s st).held = s.held := rfl
@[simp] theorem putMe_icache (s : State) (st : Strand) : (putMe s st).icache = s.icache := rfl
@[simp] theorem putMe_ord (s : State) (st : Strand) : (putMe s st).ord = s.ord := rfl
@[simp] theorem putMe_tnroot (s : State) (st : Strand) : (putMe s st).tnroot = s.tnroot := rfl
@[simp] theorem putMe_tkroot (s : State) (st : Strand) : (putMe s st).tkroot = s.tkroot := rfl
@[simp] theorem putMe_tlb (s : State) (st : Strand) : (putMe s st).tlb = s.tlb := rfl
@[simp] theorem putMe_tlbInv (s : State) (st : Strand) : (putMe s st).tlbInv = s.tlbInv := rfl
@[simp] theorem putMe_tweight (s : State) (st : Strand) : (putMe s st).tweight = s.tweight := rfl
@[simp] theorem putMe_disp (s : State) (st : Strand) : (putMe s st).disp = s.disp := rfl
@[simp] theorem putMe_queues (s : State) (st : Strand) : (putMe s st).queues = s.queues := rfl
@[simp] theorem putMe_cells (s : State) (st : Strand) : (putMe s st).cells = s.cells := rfl
@[simp] theorem putMe_nextCell (s : State) (st : Strand) : (putMe s st).nextCell = s.nextCell := rfl
@[simp] theorem putMe_ready (s : State) (st : Strand) : (putMe s st).ready = s.ready := rfl
@[simp] theorem putMe_orderNo (s : State) (st : Strand) : (putMe s st).orderNo = s.orderNo := rfl
@[simp] theorem putMe_mx (s : State) (st : Strand) : (putMe s st).mx = s.mx := rfl
@[simp] theorem putMe_race (s : State) (st : Strand) : (putMe s st).race = s.race := rfl
@[simp] theorem putMe_raceOps (s : State) (st : Strand) : (putMe s st).raceOps = s.raceOps := rfl
@[simp] theorem putMe_rot (s : State) (st : Strand) : (putMe s st).rot = s.rot := rfl
@[simp] theorem putMe_streams (s : State) (st : Strand) : (putMe s st).streams = s.streams := rfl
@[simp] theorem putMe_dettab (s : State) (st : Strand) : (putMe s st).dettab = s.dettab := rfl
@[simp] theorem putMe_trace (s : State) (st : Strand) : (putMe s st).trace = s.trace := rfl
@[simp] theorem putMe_clocks (s : State) (st : Strand) : (putMe s st).clocks = s.clocks := rfl
@[simp] theorem putMe_snap (s : State) (st : Strand) : (putMe s st).snap = s.snap := rfl
@[simp] theorem putMe_power (s : State) (st : Strand) : (putMe s st).power = s.power := rfl
@[simp] theorem putMe_fabric (s : State) (st : Strand) : (putMe s st).fabric = s.fabric := rfl
@[simp] theorem putMe_eth (s : State) (st : Strand) : (putMe s st).eth = s.eth := rfl
@[simp] theorem putMe_sec (s : State) (st : Strand) : (putMe s st).sec = s.sec := rfl
@[simp] theorem putMe_tenants (s : State) (st : Strand) : (putMe s st).tenants = s.tenants := rfl
@[simp] theorem putMe_batches (s : State) (st : Strand) : (putMe s st).batches = s.batches := rfl
@[simp] theorem putMe_errors (s : State) (st : Strand) : (putMe s st).errors = s.errors := rfl
@[simp] theorem putMe_free (s : State) (st : Strand) : (putMe s st).free = s.free := rfl

/-! `setS` -/

@[simp] theorem setS_powered (s : State) (r : BitVec 5) (v : Word) : (setS s r v).powered = s.powered := rfl
@[simp] theorem setS_sched (s : State) (r : BitVec 5) (v : Word) : (setS s r v).sched = s.sched := rfl
@[simp] theorem setS_arg (s : State) (r : BitVec 5) (v : Word) : (setS s r v).arg = s.arg := rfl
@[simp] theorem setS_cur (s : State) (r : BitVec 5) (v : Word) : (setS s r v).cur = s.cur := rfl
@[simp] theorem setS_slot (s : State) (r : BitVec 5) (v : Word) : (setS s r v).slot = s.slot := rfl
@[simp] theorem setS_convoy (s : State) (r : BitVec 5) (v : Word) : (setS s r v).convoy = s.convoy := rfl
@[simp] theorem setS_look (s : State) (r : BitVec 5) (v : Word) : (setS s r v).look = s.look := rfl
@[simp] theorem setS_held (s : State) (r : BitVec 5) (v : Word) : (setS s r v).held = s.held := rfl
@[simp] theorem setS_icache (s : State) (r : BitVec 5) (v : Word) : (setS s r v).icache = s.icache := rfl
@[simp] theorem setS_ord (s : State) (r : BitVec 5) (v : Word) : (setS s r v).ord = s.ord := rfl
@[simp] theorem setS_tnroot (s : State) (r : BitVec 5) (v : Word) : (setS s r v).tnroot = s.tnroot := rfl
@[simp] theorem setS_tkroot (s : State) (r : BitVec 5) (v : Word) : (setS s r v).tkroot = s.tkroot := rfl
@[simp] theorem setS_tlb (s : State) (r : BitVec 5) (v : Word) : (setS s r v).tlb = s.tlb := rfl
@[simp] theorem setS_tlbInv (s : State) (r : BitVec 5) (v : Word) : (setS s r v).tlbInv = s.tlbInv := rfl
@[simp] theorem setS_tweight (s : State) (r : BitVec 5) (v : Word) : (setS s r v).tweight = s.tweight := rfl
@[simp] theorem setS_disp (s : State) (r : BitVec 5) (v : Word) : (setS s r v).disp = s.disp := rfl
@[simp] theorem setS_queues (s : State) (r : BitVec 5) (v : Word) : (setS s r v).queues = s.queues := rfl
@[simp] theorem setS_cells (s : State) (r : BitVec 5) (v : Word) : (setS s r v).cells = s.cells := rfl
@[simp] theorem setS_nextCell (s : State) (r : BitVec 5) (v : Word) : (setS s r v).nextCell = s.nextCell := rfl
@[simp] theorem setS_ready (s : State) (r : BitVec 5) (v : Word) : (setS s r v).ready = s.ready := rfl
@[simp] theorem setS_orderNo (s : State) (r : BitVec 5) (v : Word) : (setS s r v).orderNo = s.orderNo := rfl
@[simp] theorem setS_mx (s : State) (r : BitVec 5) (v : Word) : (setS s r v).mx = s.mx := rfl
@[simp] theorem setS_race (s : State) (r : BitVec 5) (v : Word) : (setS s r v).race = s.race := rfl
@[simp] theorem setS_raceOps (s : State) (r : BitVec 5) (v : Word) : (setS s r v).raceOps = s.raceOps := rfl
@[simp] theorem setS_rot (s : State) (r : BitVec 5) (v : Word) : (setS s r v).rot = s.rot := rfl
@[simp] theorem setS_streams (s : State) (r : BitVec 5) (v : Word) : (setS s r v).streams = s.streams := rfl
@[simp] theorem setS_dettab (s : State) (r : BitVec 5) (v : Word) : (setS s r v).dettab = s.dettab := rfl
@[simp] theorem setS_trace (s : State) (r : BitVec 5) (v : Word) : (setS s r v).trace = s.trace := rfl
@[simp] theorem setS_clocks (s : State) (r : BitVec 5) (v : Word) : (setS s r v).clocks = s.clocks := rfl
@[simp] theorem setS_snap (s : State) (r : BitVec 5) (v : Word) : (setS s r v).snap = s.snap := rfl
@[simp] theorem setS_power (s : State) (r : BitVec 5) (v : Word) : (setS s r v).power = s.power := rfl
@[simp] theorem setS_fabric (s : State) (r : BitVec 5) (v : Word) : (setS s r v).fabric = s.fabric := rfl
@[simp] theorem setS_eth (s : State) (r : BitVec 5) (v : Word) : (setS s r v).eth = s.eth := rfl
@[simp] theorem setS_sec (s : State) (r : BitVec 5) (v : Word) : (setS s r v).sec = s.sec := rfl
@[simp] theorem setS_tenants (s : State) (r : BitVec 5) (v : Word) : (setS s r v).tenants = s.tenants := rfl
@[simp] theorem setS_batches (s : State) (r : BitVec 5) (v : Word) : (setS s r v).batches = s.batches := rfl
@[simp] theorem setS_errors (s : State) (r : BitVec 5) (v : Word) : (setS s r v).errors = s.errors := rfl
@[simp] theorem setS_free (s : State) (r : BitVec 5) (v : Word) : (setS s r v).free = s.free := rfl

/-! `addFlags` -/

@[simp] theorem addFlags_powered (s : State) (f : FFlags) : (addFlags s f).powered = s.powered := rfl
@[simp] theorem addFlags_sched (s : State) (f : FFlags) : (addFlags s f).sched = s.sched := rfl
@[simp] theorem addFlags_arg (s : State) (f : FFlags) : (addFlags s f).arg = s.arg := rfl
@[simp] theorem addFlags_cur (s : State) (f : FFlags) : (addFlags s f).cur = s.cur := rfl
@[simp] theorem addFlags_slot (s : State) (f : FFlags) : (addFlags s f).slot = s.slot := rfl
@[simp] theorem addFlags_convoy (s : State) (f : FFlags) : (addFlags s f).convoy = s.convoy := rfl
@[simp] theorem addFlags_look (s : State) (f : FFlags) : (addFlags s f).look = s.look := rfl
@[simp] theorem addFlags_held (s : State) (f : FFlags) : (addFlags s f).held = s.held := rfl
@[simp] theorem addFlags_icache (s : State) (f : FFlags) : (addFlags s f).icache = s.icache := rfl
@[simp] theorem addFlags_ord (s : State) (f : FFlags) : (addFlags s f).ord = s.ord := rfl
@[simp] theorem addFlags_tnroot (s : State) (f : FFlags) : (addFlags s f).tnroot = s.tnroot := rfl
@[simp] theorem addFlags_tkroot (s : State) (f : FFlags) : (addFlags s f).tkroot = s.tkroot := rfl
@[simp] theorem addFlags_tlb (s : State) (f : FFlags) : (addFlags s f).tlb = s.tlb := rfl
@[simp] theorem addFlags_tlbInv (s : State) (f : FFlags) : (addFlags s f).tlbInv = s.tlbInv := rfl
@[simp] theorem addFlags_tweight (s : State) (f : FFlags) : (addFlags s f).tweight = s.tweight := rfl
@[simp] theorem addFlags_disp (s : State) (f : FFlags) : (addFlags s f).disp = s.disp := rfl
@[simp] theorem addFlags_queues (s : State) (f : FFlags) : (addFlags s f).queues = s.queues := rfl
@[simp] theorem addFlags_cells (s : State) (f : FFlags) : (addFlags s f).cells = s.cells := rfl
@[simp] theorem addFlags_nextCell (s : State) (f : FFlags) : (addFlags s f).nextCell = s.nextCell := rfl
@[simp] theorem addFlags_ready (s : State) (f : FFlags) : (addFlags s f).ready = s.ready := rfl
@[simp] theorem addFlags_orderNo (s : State) (f : FFlags) : (addFlags s f).orderNo = s.orderNo := rfl
@[simp] theorem addFlags_mx (s : State) (f : FFlags) : (addFlags s f).mx = s.mx := rfl
@[simp] theorem addFlags_race (s : State) (f : FFlags) : (addFlags s f).race = s.race := rfl
@[simp] theorem addFlags_raceOps (s : State) (f : FFlags) : (addFlags s f).raceOps = s.raceOps := rfl
@[simp] theorem addFlags_rot (s : State) (f : FFlags) : (addFlags s f).rot = s.rot := rfl
@[simp] theorem addFlags_streams (s : State) (f : FFlags) : (addFlags s f).streams = s.streams := rfl
@[simp] theorem addFlags_dettab (s : State) (f : FFlags) : (addFlags s f).dettab = s.dettab := rfl
@[simp] theorem addFlags_trace (s : State) (f : FFlags) : (addFlags s f).trace = s.trace := rfl
@[simp] theorem addFlags_clocks (s : State) (f : FFlags) : (addFlags s f).clocks = s.clocks := rfl
@[simp] theorem addFlags_snap (s : State) (f : FFlags) : (addFlags s f).snap = s.snap := rfl
@[simp] theorem addFlags_power (s : State) (f : FFlags) : (addFlags s f).power = s.power := rfl
@[simp] theorem addFlags_fabric (s : State) (f : FFlags) : (addFlags s f).fabric = s.fabric := rfl
@[simp] theorem addFlags_eth (s : State) (f : FFlags) : (addFlags s f).eth = s.eth := rfl
@[simp] theorem addFlags_sec (s : State) (f : FFlags) : (addFlags s f).sec = s.sec := rfl
@[simp] theorem addFlags_tenants (s : State) (f : FFlags) : (addFlags s f).tenants = s.tenants := rfl
@[simp] theorem addFlags_batches (s : State) (f : FFlags) : (addFlags s f).batches = s.batches := rfl
@[simp] theorem addFlags_errors (s : State) (f : FFlags) : (addFlags s f).errors = s.errors := rfl
@[simp] theorem addFlags_free (s : State) (f : FFlags) : (addFlags s f).free = s.free := rfl

/-! `setNpc` -/

@[simp] theorem setNpc_powered (s : State) (a : Word) : (setNpc s a).powered = s.powered := rfl
@[simp] theorem setNpc_sched (s : State) (a : Word) : (setNpc s a).sched = s.sched := rfl
@[simp] theorem setNpc_arg (s : State) (a : Word) : (setNpc s a).arg = s.arg := rfl
@[simp] theorem setNpc_cur (s : State) (a : Word) : (setNpc s a).cur = s.cur := rfl
@[simp] theorem setNpc_slot (s : State) (a : Word) : (setNpc s a).slot = s.slot := rfl
@[simp] theorem setNpc_convoy (s : State) (a : Word) : (setNpc s a).convoy = s.convoy := rfl
@[simp] theorem setNpc_look (s : State) (a : Word) : (setNpc s a).look = s.look := rfl
@[simp] theorem setNpc_held (s : State) (a : Word) : (setNpc s a).held = s.held := rfl
@[simp] theorem setNpc_icache (s : State) (a : Word) : (setNpc s a).icache = s.icache := rfl
@[simp] theorem setNpc_ord (s : State) (a : Word) : (setNpc s a).ord = s.ord := rfl
@[simp] theorem setNpc_tnroot (s : State) (a : Word) : (setNpc s a).tnroot = s.tnroot := rfl
@[simp] theorem setNpc_tkroot (s : State) (a : Word) : (setNpc s a).tkroot = s.tkroot := rfl
@[simp] theorem setNpc_tlb (s : State) (a : Word) : (setNpc s a).tlb = s.tlb := rfl
@[simp] theorem setNpc_tlbInv (s : State) (a : Word) : (setNpc s a).tlbInv = s.tlbInv := rfl
@[simp] theorem setNpc_tweight (s : State) (a : Word) : (setNpc s a).tweight = s.tweight := rfl
@[simp] theorem setNpc_disp (s : State) (a : Word) : (setNpc s a).disp = s.disp := rfl
@[simp] theorem setNpc_queues (s : State) (a : Word) : (setNpc s a).queues = s.queues := rfl
@[simp] theorem setNpc_cells (s : State) (a : Word) : (setNpc s a).cells = s.cells := rfl
@[simp] theorem setNpc_nextCell (s : State) (a : Word) : (setNpc s a).nextCell = s.nextCell := rfl
@[simp] theorem setNpc_ready (s : State) (a : Word) : (setNpc s a).ready = s.ready := rfl
@[simp] theorem setNpc_orderNo (s : State) (a : Word) : (setNpc s a).orderNo = s.orderNo := rfl
@[simp] theorem setNpc_mx (s : State) (a : Word) : (setNpc s a).mx = s.mx := rfl
@[simp] theorem setNpc_race (s : State) (a : Word) : (setNpc s a).race = s.race := rfl
@[simp] theorem setNpc_raceOps (s : State) (a : Word) : (setNpc s a).raceOps = s.raceOps := rfl
@[simp] theorem setNpc_rot (s : State) (a : Word) : (setNpc s a).rot = s.rot := rfl
@[simp] theorem setNpc_streams (s : State) (a : Word) : (setNpc s a).streams = s.streams := rfl
@[simp] theorem setNpc_dettab (s : State) (a : Word) : (setNpc s a).dettab = s.dettab := rfl
@[simp] theorem setNpc_trace (s : State) (a : Word) : (setNpc s a).trace = s.trace := rfl
@[simp] theorem setNpc_clocks (s : State) (a : Word) : (setNpc s a).clocks = s.clocks := rfl
@[simp] theorem setNpc_snap (s : State) (a : Word) : (setNpc s a).snap = s.snap := rfl
@[simp] theorem setNpc_power (s : State) (a : Word) : (setNpc s a).power = s.power := rfl
@[simp] theorem setNpc_fabric (s : State) (a : Word) : (setNpc s a).fabric = s.fabric := rfl
@[simp] theorem setNpc_eth (s : State) (a : Word) : (setNpc s a).eth = s.eth := rfl
@[simp] theorem setNpc_sec (s : State) (a : Word) : (setNpc s a).sec = s.sec := rfl
@[simp] theorem setNpc_tenants (s : State) (a : Word) : (setNpc s a).tenants = s.tenants := rfl
@[simp] theorem setNpc_batches (s : State) (a : Word) : (setNpc s a).batches = s.batches := rfl
@[simp] theorem setNpc_errors (s : State) (a : Word) : (setNpc s a).errors = s.errors := rfl
@[simp] theorem setNpc_free (s : State) (a : Word) : (setNpc s a).free = s.free := rfl

/-! `queueItem` -/

@[simp] theorem queueItem_powered (s : State) (x : QItem) : (queueItem s x).powered = s.powered := rfl
@[simp] theorem queueItem_sched (s : State) (x : QItem) : (queueItem s x).sched = s.sched := rfl
@[simp] theorem queueItem_arg (s : State) (x : QItem) : (queueItem s x).arg = s.arg := rfl
@[simp] theorem queueItem_cur (s : State) (x : QItem) : (queueItem s x).cur = s.cur := rfl
@[simp] theorem queueItem_slot (s : State) (x : QItem) : (queueItem s x).slot = s.slot := rfl
@[simp] theorem queueItem_convoy (s : State) (x : QItem) : (queueItem s x).convoy = s.convoy := rfl
@[simp] theorem queueItem_look (s : State) (x : QItem) : (queueItem s x).look = s.look := rfl
@[simp] theorem queueItem_held (s : State) (x : QItem) : (queueItem s x).held = s.held := rfl
@[simp] theorem queueItem_icache (s : State) (x : QItem) : (queueItem s x).icache = s.icache := rfl
@[simp] theorem queueItem_ord (s : State) (x : QItem) : (queueItem s x).ord = s.ord := rfl
@[simp] theorem queueItem_tnroot (s : State) (x : QItem) : (queueItem s x).tnroot = s.tnroot := rfl
@[simp] theorem queueItem_tkroot (s : State) (x : QItem) : (queueItem s x).tkroot = s.tkroot := rfl
@[simp] theorem queueItem_tlb (s : State) (x : QItem) : (queueItem s x).tlb = s.tlb := rfl
@[simp] theorem queueItem_tlbInv (s : State) (x : QItem) : (queueItem s x).tlbInv = s.tlbInv := rfl
@[simp] theorem queueItem_tweight (s : State) (x : QItem) : (queueItem s x).tweight = s.tweight := rfl
@[simp] theorem queueItem_disp (s : State) (x : QItem) : (queueItem s x).disp = s.disp := rfl
@[simp] theorem queueItem_queues (s : State) (x : QItem) : (queueItem s x).queues = s.queues := rfl
@[simp] theorem queueItem_cells (s : State) (x : QItem) : (queueItem s x).cells = s.cells := rfl
@[simp] theorem queueItem_nextCell (s : State) (x : QItem) : (queueItem s x).nextCell = s.nextCell := rfl
@[simp] theorem queueItem_ready (s : State) (x : QItem) : (queueItem s x).ready = s.ready := rfl
@[simp] theorem queueItem_orderNo (s : State) (x : QItem) : (queueItem s x).orderNo = s.orderNo := rfl
@[simp] theorem queueItem_mx (s : State) (x : QItem) : (queueItem s x).mx = s.mx := rfl
@[simp] theorem queueItem_race (s : State) (x : QItem) : (queueItem s x).race = s.race := rfl
@[simp] theorem queueItem_raceOps (s : State) (x : QItem) : (queueItem s x).raceOps = s.raceOps := rfl
@[simp] theorem queueItem_rot (s : State) (x : QItem) : (queueItem s x).rot = s.rot := rfl
@[simp] theorem queueItem_streams (s : State) (x : QItem) : (queueItem s x).streams = s.streams := rfl
@[simp] theorem queueItem_dettab (s : State) (x : QItem) : (queueItem s x).dettab = s.dettab := rfl
@[simp] theorem queueItem_trace (s : State) (x : QItem) : (queueItem s x).trace = s.trace := rfl
@[simp] theorem queueItem_clocks (s : State) (x : QItem) : (queueItem s x).clocks = s.clocks := rfl
@[simp] theorem queueItem_snap (s : State) (x : QItem) : (queueItem s x).snap = s.snap := rfl
@[simp] theorem queueItem_power (s : State) (x : QItem) : (queueItem s x).power = s.power := rfl
@[simp] theorem queueItem_fabric (s : State) (x : QItem) : (queueItem s x).fabric = s.fabric := rfl
@[simp] theorem queueItem_eth (s : State) (x : QItem) : (queueItem s x).eth = s.eth := rfl
@[simp] theorem queueItem_sec (s : State) (x : QItem) : (queueItem s x).sec = s.sec := rfl
@[simp] theorem queueItem_tenants (s : State) (x : QItem) : (queueItem s x).tenants = s.tenants := rfl
@[simp] theorem queueItem_batches (s : State) (x : QItem) : (queueItem s x).batches = s.batches := rfl
@[simp] theorem queueItem_errors (s : State) (x : QItem) : (queueItem s x).errors = s.errors := rfl
@[simp] theorem queueItem_free (s : State) (x : QItem) : (queueItem s x).free = s.free := rfl

/-! `putDisp` -/

@[simp] theorem putDisp_powered (s : State) (d : Nat) (x : Dispatcher) : (putDisp s d x).powered = s.powered := rfl
@[simp] theorem putDisp_sched (s : State) (d : Nat) (x : Dispatcher) : (putDisp s d x).sched = s.sched := rfl
@[simp] theorem putDisp_arg (s : State) (d : Nat) (x : Dispatcher) : (putDisp s d x).arg = s.arg := rfl
@[simp] theorem putDisp_cur (s : State) (d : Nat) (x : Dispatcher) : (putDisp s d x).cur = s.cur := rfl
@[simp] theorem putDisp_slot (s : State) (d : Nat) (x : Dispatcher) : (putDisp s d x).slot = s.slot := rfl
@[simp] theorem putDisp_convoy (s : State) (d : Nat) (x : Dispatcher) : (putDisp s d x).convoy = s.convoy := rfl
@[simp] theorem putDisp_look (s : State) (d : Nat) (x : Dispatcher) : (putDisp s d x).look = s.look := rfl
@[simp] theorem putDisp_strands (s : State) (d : Nat) (x : Dispatcher) : (putDisp s d x).strands = s.strands := rfl
@[simp] theorem putDisp_held (s : State) (d : Nat) (x : Dispatcher) : (putDisp s d x).held = s.held := rfl
@[simp] theorem putDisp_icache (s : State) (d : Nat) (x : Dispatcher) : (putDisp s d x).icache = s.icache := rfl
@[simp] theorem putDisp_ord (s : State) (d : Nat) (x : Dispatcher) : (putDisp s d x).ord = s.ord := rfl
@[simp] theorem putDisp_tnroot (s : State) (d : Nat) (x : Dispatcher) : (putDisp s d x).tnroot = s.tnroot := rfl
@[simp] theorem putDisp_tkroot (s : State) (d : Nat) (x : Dispatcher) : (putDisp s d x).tkroot = s.tkroot := rfl
@[simp] theorem putDisp_tlb (s : State) (d : Nat) (x : Dispatcher) : (putDisp s d x).tlb = s.tlb := rfl
@[simp] theorem putDisp_tlbInv (s : State) (d : Nat) (x : Dispatcher) : (putDisp s d x).tlbInv = s.tlbInv := rfl
@[simp] theorem putDisp_tweight (s : State) (d : Nat) (x : Dispatcher) : (putDisp s d x).tweight = s.tweight := rfl
@[simp] theorem putDisp_queues (s : State) (d : Nat) (x : Dispatcher) : (putDisp s d x).queues = s.queues := rfl
@[simp] theorem putDisp_cells (s : State) (d : Nat) (x : Dispatcher) : (putDisp s d x).cells = s.cells := rfl
@[simp] theorem putDisp_nextCell (s : State) (d : Nat) (x : Dispatcher) : (putDisp s d x).nextCell = s.nextCell := rfl
@[simp] theorem putDisp_ready (s : State) (d : Nat) (x : Dispatcher) : (putDisp s d x).ready = s.ready := rfl
@[simp] theorem putDisp_orderNo (s : State) (d : Nat) (x : Dispatcher) : (putDisp s d x).orderNo = s.orderNo := rfl
@[simp] theorem putDisp_mx (s : State) (d : Nat) (x : Dispatcher) : (putDisp s d x).mx = s.mx := rfl
@[simp] theorem putDisp_race (s : State) (d : Nat) (x : Dispatcher) : (putDisp s d x).race = s.race := rfl
@[simp] theorem putDisp_raceOps (s : State) (d : Nat) (x : Dispatcher) : (putDisp s d x).raceOps = s.raceOps := rfl
@[simp] theorem putDisp_rot (s : State) (d : Nat) (x : Dispatcher) : (putDisp s d x).rot = s.rot := rfl
@[simp] theorem putDisp_streams (s : State) (d : Nat) (x : Dispatcher) : (putDisp s d x).streams = s.streams := rfl
@[simp] theorem putDisp_dettab (s : State) (d : Nat) (x : Dispatcher) : (putDisp s d x).dettab = s.dettab := rfl
@[simp] theorem putDisp_trace (s : State) (d : Nat) (x : Dispatcher) : (putDisp s d x).trace = s.trace := rfl
@[simp] theorem putDisp_clocks (s : State) (d : Nat) (x : Dispatcher) : (putDisp s d x).clocks = s.clocks := rfl
@[simp] theorem putDisp_snap (s : State) (d : Nat) (x : Dispatcher) : (putDisp s d x).snap = s.snap := rfl
@[simp] theorem putDisp_power (s : State) (d : Nat) (x : Dispatcher) : (putDisp s d x).power = s.power := rfl
@[simp] theorem putDisp_fabric (s : State) (d : Nat) (x : Dispatcher) : (putDisp s d x).fabric = s.fabric := rfl
@[simp] theorem putDisp_eth (s : State) (d : Nat) (x : Dispatcher) : (putDisp s d x).eth = s.eth := rfl
@[simp] theorem putDisp_sec (s : State) (d : Nat) (x : Dispatcher) : (putDisp s d x).sec = s.sec := rfl
@[simp] theorem putDisp_tenants (s : State) (d : Nat) (x : Dispatcher) : (putDisp s d x).tenants = s.tenants := rfl
@[simp] theorem putDisp_batches (s : State) (d : Nat) (x : Dispatcher) : (putDisp s d x).batches = s.batches := rfl
@[simp] theorem putDisp_errors (s : State) (d : Nat) (x : Dispatcher) : (putDisp s d x).errors = s.errors := rfl
@[simp] theorem putDisp_free (s : State) (d : Nat) (x : Dispatcher) : (putDisp s d x).free = s.free := rfl

/-! `putQueue` -/

@[simp] theorem putQueue_powered (s : State) (q : Nat) (x : WorkQueue) : (putQueue s q x).powered = s.powered := rfl
@[simp] theorem putQueue_sched (s : State) (q : Nat) (x : WorkQueue) : (putQueue s q x).sched = s.sched := rfl
@[simp] theorem putQueue_arg (s : State) (q : Nat) (x : WorkQueue) : (putQueue s q x).arg = s.arg := rfl
@[simp] theorem putQueue_cur (s : State) (q : Nat) (x : WorkQueue) : (putQueue s q x).cur = s.cur := rfl
@[simp] theorem putQueue_slot (s : State) (q : Nat) (x : WorkQueue) : (putQueue s q x).slot = s.slot := rfl
@[simp] theorem putQueue_convoy (s : State) (q : Nat) (x : WorkQueue) : (putQueue s q x).convoy = s.convoy := rfl
@[simp] theorem putQueue_look (s : State) (q : Nat) (x : WorkQueue) : (putQueue s q x).look = s.look := rfl
@[simp] theorem putQueue_strands (s : State) (q : Nat) (x : WorkQueue) : (putQueue s q x).strands = s.strands := rfl
@[simp] theorem putQueue_held (s : State) (q : Nat) (x : WorkQueue) : (putQueue s q x).held = s.held := rfl
@[simp] theorem putQueue_icache (s : State) (q : Nat) (x : WorkQueue) : (putQueue s q x).icache = s.icache := rfl
@[simp] theorem putQueue_ord (s : State) (q : Nat) (x : WorkQueue) : (putQueue s q x).ord = s.ord := rfl
@[simp] theorem putQueue_tnroot (s : State) (q : Nat) (x : WorkQueue) : (putQueue s q x).tnroot = s.tnroot := rfl
@[simp] theorem putQueue_tkroot (s : State) (q : Nat) (x : WorkQueue) : (putQueue s q x).tkroot = s.tkroot := rfl
@[simp] theorem putQueue_tlb (s : State) (q : Nat) (x : WorkQueue) : (putQueue s q x).tlb = s.tlb := rfl
@[simp] theorem putQueue_tlbInv (s : State) (q : Nat) (x : WorkQueue) : (putQueue s q x).tlbInv = s.tlbInv := rfl
@[simp] theorem putQueue_tweight (s : State) (q : Nat) (x : WorkQueue) : (putQueue s q x).tweight = s.tweight := rfl
@[simp] theorem putQueue_disp (s : State) (q : Nat) (x : WorkQueue) : (putQueue s q x).disp = s.disp := rfl
@[simp] theorem putQueue_cells (s : State) (q : Nat) (x : WorkQueue) : (putQueue s q x).cells = s.cells := rfl
@[simp] theorem putQueue_nextCell (s : State) (q : Nat) (x : WorkQueue) : (putQueue s q x).nextCell = s.nextCell := rfl
@[simp] theorem putQueue_ready (s : State) (q : Nat) (x : WorkQueue) : (putQueue s q x).ready = s.ready := rfl
@[simp] theorem putQueue_orderNo (s : State) (q : Nat) (x : WorkQueue) : (putQueue s q x).orderNo = s.orderNo := rfl
@[simp] theorem putQueue_mx (s : State) (q : Nat) (x : WorkQueue) : (putQueue s q x).mx = s.mx := rfl
@[simp] theorem putQueue_race (s : State) (q : Nat) (x : WorkQueue) : (putQueue s q x).race = s.race := rfl
@[simp] theorem putQueue_raceOps (s : State) (q : Nat) (x : WorkQueue) : (putQueue s q x).raceOps = s.raceOps := rfl
@[simp] theorem putQueue_rot (s : State) (q : Nat) (x : WorkQueue) : (putQueue s q x).rot = s.rot := rfl
@[simp] theorem putQueue_streams (s : State) (q : Nat) (x : WorkQueue) : (putQueue s q x).streams = s.streams := rfl
@[simp] theorem putQueue_dettab (s : State) (q : Nat) (x : WorkQueue) : (putQueue s q x).dettab = s.dettab := rfl
@[simp] theorem putQueue_trace (s : State) (q : Nat) (x : WorkQueue) : (putQueue s q x).trace = s.trace := rfl
@[simp] theorem putQueue_clocks (s : State) (q : Nat) (x : WorkQueue) : (putQueue s q x).clocks = s.clocks := rfl
@[simp] theorem putQueue_snap (s : State) (q : Nat) (x : WorkQueue) : (putQueue s q x).snap = s.snap := rfl
@[simp] theorem putQueue_power (s : State) (q : Nat) (x : WorkQueue) : (putQueue s q x).power = s.power := rfl
@[simp] theorem putQueue_fabric (s : State) (q : Nat) (x : WorkQueue) : (putQueue s q x).fabric = s.fabric := rfl
@[simp] theorem putQueue_eth (s : State) (q : Nat) (x : WorkQueue) : (putQueue s q x).eth = s.eth := rfl
@[simp] theorem putQueue_sec (s : State) (q : Nat) (x : WorkQueue) : (putQueue s q x).sec = s.sec := rfl
@[simp] theorem putQueue_tenants (s : State) (q : Nat) (x : WorkQueue) : (putQueue s q x).tenants = s.tenants := rfl
@[simp] theorem putQueue_batches (s : State) (q : Nat) (x : WorkQueue) : (putQueue s q x).batches = s.batches := rfl
@[simp] theorem putQueue_errors (s : State) (q : Nat) (x : WorkQueue) : (putQueue s q x).errors = s.errors := rfl
@[simp] theorem putQueue_free (s : State) (q : Nat) (x : WorkQueue) : (putQueue s q x).free = s.free := rfl

/-! `putTenant` -/

@[simp] theorem putTenant_powered (s : State) (q : Nat) (x : Tenant) : (putTenant s q x).powered = s.powered := rfl
@[simp] theorem putTenant_sched (s : State) (q : Nat) (x : Tenant) : (putTenant s q x).sched = s.sched := rfl
@[simp] theorem putTenant_arg (s : State) (q : Nat) (x : Tenant) : (putTenant s q x).arg = s.arg := rfl
@[simp] theorem putTenant_cur (s : State) (q : Nat) (x : Tenant) : (putTenant s q x).cur = s.cur := rfl
@[simp] theorem putTenant_slot (s : State) (q : Nat) (x : Tenant) : (putTenant s q x).slot = s.slot := rfl
@[simp] theorem putTenant_convoy (s : State) (q : Nat) (x : Tenant) : (putTenant s q x).convoy = s.convoy := rfl
@[simp] theorem putTenant_look (s : State) (q : Nat) (x : Tenant) : (putTenant s q x).look = s.look := rfl
@[simp] theorem putTenant_strands (s : State) (q : Nat) (x : Tenant) : (putTenant s q x).strands = s.strands := rfl
@[simp] theorem putTenant_held (s : State) (q : Nat) (x : Tenant) : (putTenant s q x).held = s.held := rfl
@[simp] theorem putTenant_icache (s : State) (q : Nat) (x : Tenant) : (putTenant s q x).icache = s.icache := rfl
@[simp] theorem putTenant_ord (s : State) (q : Nat) (x : Tenant) : (putTenant s q x).ord = s.ord := rfl
@[simp] theorem putTenant_tnroot (s : State) (q : Nat) (x : Tenant) : (putTenant s q x).tnroot = s.tnroot := rfl
@[simp] theorem putTenant_tkroot (s : State) (q : Nat) (x : Tenant) : (putTenant s q x).tkroot = s.tkroot := rfl
@[simp] theorem putTenant_tlb (s : State) (q : Nat) (x : Tenant) : (putTenant s q x).tlb = s.tlb := rfl
@[simp] theorem putTenant_tlbInv (s : State) (q : Nat) (x : Tenant) : (putTenant s q x).tlbInv = s.tlbInv := rfl
@[simp] theorem putTenant_tweight (s : State) (q : Nat) (x : Tenant) : (putTenant s q x).tweight = s.tweight := rfl
@[simp] theorem putTenant_disp (s : State) (q : Nat) (x : Tenant) : (putTenant s q x).disp = s.disp := rfl
@[simp] theorem putTenant_queues (s : State) (q : Nat) (x : Tenant) : (putTenant s q x).queues = s.queues := rfl
@[simp] theorem putTenant_cells (s : State) (q : Nat) (x : Tenant) : (putTenant s q x).cells = s.cells := rfl
@[simp] theorem putTenant_nextCell (s : State) (q : Nat) (x : Tenant) : (putTenant s q x).nextCell = s.nextCell := rfl
@[simp] theorem putTenant_ready (s : State) (q : Nat) (x : Tenant) : (putTenant s q x).ready = s.ready := rfl
@[simp] theorem putTenant_orderNo (s : State) (q : Nat) (x : Tenant) : (putTenant s q x).orderNo = s.orderNo := rfl
@[simp] theorem putTenant_mx (s : State) (q : Nat) (x : Tenant) : (putTenant s q x).mx = s.mx := rfl
@[simp] theorem putTenant_race (s : State) (q : Nat) (x : Tenant) : (putTenant s q x).race = s.race := rfl
@[simp] theorem putTenant_raceOps (s : State) (q : Nat) (x : Tenant) : (putTenant s q x).raceOps = s.raceOps := rfl
@[simp] theorem putTenant_rot (s : State) (q : Nat) (x : Tenant) : (putTenant s q x).rot = s.rot := rfl
@[simp] theorem putTenant_streams (s : State) (q : Nat) (x : Tenant) : (putTenant s q x).streams = s.streams := rfl
@[simp] theorem putTenant_dettab (s : State) (q : Nat) (x : Tenant) : (putTenant s q x).dettab = s.dettab := rfl
@[simp] theorem putTenant_trace (s : State) (q : Nat) (x : Tenant) : (putTenant s q x).trace = s.trace := rfl
@[simp] theorem putTenant_clocks (s : State) (q : Nat) (x : Tenant) : (putTenant s q x).clocks = s.clocks := rfl
@[simp] theorem putTenant_snap (s : State) (q : Nat) (x : Tenant) : (putTenant s q x).snap = s.snap := rfl
@[simp] theorem putTenant_power (s : State) (q : Nat) (x : Tenant) : (putTenant s q x).power = s.power := rfl
@[simp] theorem putTenant_fabric (s : State) (q : Nat) (x : Tenant) : (putTenant s q x).fabric = s.fabric := rfl
@[simp] theorem putTenant_eth (s : State) (q : Nat) (x : Tenant) : (putTenant s q x).eth = s.eth := rfl
@[simp] theorem putTenant_sec (s : State) (q : Nat) (x : Tenant) : (putTenant s q x).sec = s.sec := rfl
@[simp] theorem putTenant_batches (s : State) (q : Nat) (x : Tenant) : (putTenant s q x).batches = s.batches := rfl
@[simp] theorem putTenant_errors (s : State) (q : Nat) (x : Tenant) : (putTenant s q x).errors = s.errors := rfl
@[simp] theorem putTenant_free (s : State) (q : Nat) (x : Tenant) : (putTenant s q x).free = s.free := rfl

/-! `putRace` -/

@[simp] theorem putRace_powered (s : State) (q : Nat) (x : RaceCtx) : (putRace s q x).powered = s.powered := rfl
@[simp] theorem putRace_sched (s : State) (q : Nat) (x : RaceCtx) : (putRace s q x).sched = s.sched := rfl
@[simp] theorem putRace_arg (s : State) (q : Nat) (x : RaceCtx) : (putRace s q x).arg = s.arg := rfl
@[simp] theorem putRace_cur (s : State) (q : Nat) (x : RaceCtx) : (putRace s q x).cur = s.cur := rfl
@[simp] theorem putRace_slot (s : State) (q : Nat) (x : RaceCtx) : (putRace s q x).slot = s.slot := rfl
@[simp] theorem putRace_convoy (s : State) (q : Nat) (x : RaceCtx) : (putRace s q x).convoy = s.convoy := rfl
@[simp] theorem putRace_look (s : State) (q : Nat) (x : RaceCtx) : (putRace s q x).look = s.look := rfl
@[simp] theorem putRace_strands (s : State) (q : Nat) (x : RaceCtx) : (putRace s q x).strands = s.strands := rfl
@[simp] theorem putRace_held (s : State) (q : Nat) (x : RaceCtx) : (putRace s q x).held = s.held := rfl
@[simp] theorem putRace_icache (s : State) (q : Nat) (x : RaceCtx) : (putRace s q x).icache = s.icache := rfl
@[simp] theorem putRace_ord (s : State) (q : Nat) (x : RaceCtx) : (putRace s q x).ord = s.ord := rfl
@[simp] theorem putRace_tnroot (s : State) (q : Nat) (x : RaceCtx) : (putRace s q x).tnroot = s.tnroot := rfl
@[simp] theorem putRace_tkroot (s : State) (q : Nat) (x : RaceCtx) : (putRace s q x).tkroot = s.tkroot := rfl
@[simp] theorem putRace_tlb (s : State) (q : Nat) (x : RaceCtx) : (putRace s q x).tlb = s.tlb := rfl
@[simp] theorem putRace_tlbInv (s : State) (q : Nat) (x : RaceCtx) : (putRace s q x).tlbInv = s.tlbInv := rfl
@[simp] theorem putRace_tweight (s : State) (q : Nat) (x : RaceCtx) : (putRace s q x).tweight = s.tweight := rfl
@[simp] theorem putRace_disp (s : State) (q : Nat) (x : RaceCtx) : (putRace s q x).disp = s.disp := rfl
@[simp] theorem putRace_queues (s : State) (q : Nat) (x : RaceCtx) : (putRace s q x).queues = s.queues := rfl
@[simp] theorem putRace_cells (s : State) (q : Nat) (x : RaceCtx) : (putRace s q x).cells = s.cells := rfl
@[simp] theorem putRace_nextCell (s : State) (q : Nat) (x : RaceCtx) : (putRace s q x).nextCell = s.nextCell := rfl
@[simp] theorem putRace_ready (s : State) (q : Nat) (x : RaceCtx) : (putRace s q x).ready = s.ready := rfl
@[simp] theorem putRace_orderNo (s : State) (q : Nat) (x : RaceCtx) : (putRace s q x).orderNo = s.orderNo := rfl
@[simp] theorem putRace_mx (s : State) (q : Nat) (x : RaceCtx) : (putRace s q x).mx = s.mx := rfl
@[simp] theorem putRace_raceOps (s : State) (q : Nat) (x : RaceCtx) : (putRace s q x).raceOps = s.raceOps := rfl
@[simp] theorem putRace_rot (s : State) (q : Nat) (x : RaceCtx) : (putRace s q x).rot = s.rot := rfl
@[simp] theorem putRace_streams (s : State) (q : Nat) (x : RaceCtx) : (putRace s q x).streams = s.streams := rfl
@[simp] theorem putRace_dettab (s : State) (q : Nat) (x : RaceCtx) : (putRace s q x).dettab = s.dettab := rfl
@[simp] theorem putRace_trace (s : State) (q : Nat) (x : RaceCtx) : (putRace s q x).trace = s.trace := rfl
@[simp] theorem putRace_clocks (s : State) (q : Nat) (x : RaceCtx) : (putRace s q x).clocks = s.clocks := rfl
@[simp] theorem putRace_snap (s : State) (q : Nat) (x : RaceCtx) : (putRace s q x).snap = s.snap := rfl
@[simp] theorem putRace_power (s : State) (q : Nat) (x : RaceCtx) : (putRace s q x).power = s.power := rfl
@[simp] theorem putRace_fabric (s : State) (q : Nat) (x : RaceCtx) : (putRace s q x).fabric = s.fabric := rfl
@[simp] theorem putRace_eth (s : State) (q : Nat) (x : RaceCtx) : (putRace s q x).eth = s.eth := rfl
@[simp] theorem putRace_sec (s : State) (q : Nat) (x : RaceCtx) : (putRace s q x).sec = s.sec := rfl
@[simp] theorem putRace_tenants (s : State) (q : Nat) (x : RaceCtx) : (putRace s q x).tenants = s.tenants := rfl
@[simp] theorem putRace_batches (s : State) (q : Nat) (x : RaceCtx) : (putRace s q x).batches = s.batches := rfl
@[simp] theorem putRace_errors (s : State) (q : Nat) (x : RaceCtx) : (putRace s q x).errors = s.errors := rfl
@[simp] theorem putRace_free (s : State) (q : Nat) (x : RaceCtx) : (putRace s q x).free = s.free := rfl

/-! `logError` -/

@[simp] theorem logError_powered (s : State) (k a b : Nat) : (logError s k a b).powered = s.powered := rfl
@[simp] theorem logError_sched (s : State) (k a b : Nat) : (logError s k a b).sched = s.sched := rfl
@[simp] theorem logError_arg (s : State) (k a b : Nat) : (logError s k a b).arg = s.arg := rfl
@[simp] theorem logError_cur (s : State) (k a b : Nat) : (logError s k a b).cur = s.cur := rfl
@[simp] theorem logError_slot (s : State) (k a b : Nat) : (logError s k a b).slot = s.slot := rfl
@[simp] theorem logError_convoy (s : State) (k a b : Nat) : (logError s k a b).convoy = s.convoy := rfl
@[simp] theorem logError_look (s : State) (k a b : Nat) : (logError s k a b).look = s.look := rfl
@[simp] theorem logError_strands (s : State) (k a b : Nat) : (logError s k a b).strands = s.strands := rfl
@[simp] theorem logError_held (s : State) (k a b : Nat) : (logError s k a b).held = s.held := rfl
@[simp] theorem logError_icache (s : State) (k a b : Nat) : (logError s k a b).icache = s.icache := rfl
@[simp] theorem logError_ord (s : State) (k a b : Nat) : (logError s k a b).ord = s.ord := rfl
@[simp] theorem logError_tnroot (s : State) (k a b : Nat) : (logError s k a b).tnroot = s.tnroot := rfl
@[simp] theorem logError_tkroot (s : State) (k a b : Nat) : (logError s k a b).tkroot = s.tkroot := rfl
@[simp] theorem logError_tlb (s : State) (k a b : Nat) : (logError s k a b).tlb = s.tlb := rfl
@[simp] theorem logError_tlbInv (s : State) (k a b : Nat) : (logError s k a b).tlbInv = s.tlbInv := rfl
@[simp] theorem logError_tweight (s : State) (k a b : Nat) : (logError s k a b).tweight = s.tweight := rfl
@[simp] theorem logError_disp (s : State) (k a b : Nat) : (logError s k a b).disp = s.disp := rfl
@[simp] theorem logError_queues (s : State) (k a b : Nat) : (logError s k a b).queues = s.queues := rfl
@[simp] theorem logError_cells (s : State) (k a b : Nat) : (logError s k a b).cells = s.cells := rfl
@[simp] theorem logError_nextCell (s : State) (k a b : Nat) : (logError s k a b).nextCell = s.nextCell := rfl
@[simp] theorem logError_ready (s : State) (k a b : Nat) : (logError s k a b).ready = s.ready := rfl
@[simp] theorem logError_orderNo (s : State) (k a b : Nat) : (logError s k a b).orderNo = s.orderNo := rfl
@[simp] theorem logError_mx (s : State) (k a b : Nat) : (logError s k a b).mx = s.mx := rfl
@[simp] theorem logError_race (s : State) (k a b : Nat) : (logError s k a b).race = s.race := rfl
@[simp] theorem logError_raceOps (s : State) (k a b : Nat) : (logError s k a b).raceOps = s.raceOps := rfl
@[simp] theorem logError_rot (s : State) (k a b : Nat) : (logError s k a b).rot = s.rot := rfl
@[simp] theorem logError_streams (s : State) (k a b : Nat) : (logError s k a b).streams = s.streams := rfl
@[simp] theorem logError_dettab (s : State) (k a b : Nat) : (logError s k a b).dettab = s.dettab := rfl
@[simp] theorem logError_trace (s : State) (k a b : Nat) : (logError s k a b).trace = s.trace := rfl
@[simp] theorem logError_clocks (s : State) (k a b : Nat) : (logError s k a b).clocks = s.clocks := rfl
@[simp] theorem logError_snap (s : State) (k a b : Nat) : (logError s k a b).snap = s.snap := rfl
@[simp] theorem logError_power (s : State) (k a b : Nat) : (logError s k a b).power = s.power := rfl
@[simp] theorem logError_fabric (s : State) (k a b : Nat) : (logError s k a b).fabric = s.fabric := rfl
@[simp] theorem logError_eth (s : State) (k a b : Nat) : (logError s k a b).eth = s.eth := rfl
@[simp] theorem logError_sec (s : State) (k a b : Nat) : (logError s k a b).sec = s.sec := rfl
@[simp] theorem logError_tenants (s : State) (k a b : Nat) : (logError s k a b).tenants = s.tenants := rfl
@[simp] theorem logError_batches (s : State) (k a b : Nat) : (logError s k a b).batches = s.batches := rfl
@[simp] theorem logError_free (s : State) (k a b : Nat) : (logError s k a b).free = s.free := rfl

/-! `setTok` -/

@[simp] theorem setTok_run (st : Strand) (k : Nat) (t : Token) : (setTok st k t).run = st.run := rfl
@[simp] theorem setTok_trunk (st : Strand) (k : Nat) (t : Token) : (setTok st k t).trunk = st.trunk := rfl
@[simp] theorem setTok_sid (st : Strand) (k : Nat) (t : Token) : (setTok st k t).sid = st.sid := rfl
@[simp] theorem setTok_rec (st : Strand) (k : Nat) (t : Token) : (setTok st k t).rec_ = st.rec_ := rfl
@[simp] theorem setTok_rank (st : Strand) (k : Nat) (t : Token) : (setTok st k t).rank = st.rank := rfl
@[simp] theorem setTok_pc (st : Strand) (k : Nat) (t : Token) : (setTok st k t).pc = st.pc := rfl
@[simp] theorem setTok_npc (st : Strand) (k : Nat) (t : Token) : (setTok st k t).npc = st.npc := rfl
@[simp] theorem setTok_regs (st : Strand) (k : Nat) (t : Token) : (setTok st k t).regs = st.regs := rfl
@[simp] theorem setTok_preds (st : Strand) (k : Nat) (t : Token) : (setTok st k t).preds = st.preds := rfl
@[simp] theorem setTok_vregs (st : Strand) (k : Nat) (t : Token) : (setTok st k t).vregs = st.vregs := rfl
@[simp] theorem setTok_iq (st : Strand) (k : Nat) (t : Token) : (setTok st k t).iq = st.iq := rfl
@[simp] theorem setTok_oq (st : Strand) (k : Nat) (t : Token) : (setTok st k t).oq = st.oq := rfl
@[simp] theorem setTok_eas (st : Strand) (k : Nat) (t : Token) : (setTok st k t).eas = st.eas := rfl
@[simp] theorem setTok_eaPois (st : Strand) (k : Nat) (t : Token) : (setTok st k t).eaPois = st.eaPois := rfl
@[simp] theorem setTok_fds (st : Strand) (k : Nat) (t : Token) : (setTok st k t).fds = st.fds := rfl
@[simp] theorem setTok_vt0 (st : Strand) (k : Nat) (t : Token) : (setTok st k t).vt0 = st.vt0 := rfl
@[simp] theorem setTok_vt1 (st : Strand) (k : Nat) (t : Token) : (setTok st k t).vt1 = st.vt1 := rfl
@[simp] theorem setTok_vl (st : Strand) (k : Nat) (t : Token) : (setTok st k t).vl = st.vl := rfl
@[simp] theorem setTok_maxvl (st : Strand) (k : Nat) (t : Token) : (setTok st k t).maxvl = st.maxvl := rfl
@[simp] theorem setTok_vstart (st : Strand) (k : Nat) (t : Token) : (setTok st k t).vstart = st.vstart := rfl
@[simp] theorem setTok_vsyl (st : Strand) (k : Nat) (t : Token) : (setTok st k t).vsyl = st.vsyl := rfl
@[simp] theorem setTok_vhwm (st : Strand) (k : Nat) (t : Token) : (setTok st k t).vhwm = st.vhwm := rfl
@[simp] theorem setTok_budget (st : Strand) (k : Nat) (t : Token) : (setTok st k t).budget = st.budget := rfl
@[simp] theorem setTok_pending (st : Strand) (k : Nat) (t : Token) : (setTok st k t).pending = st.pending := rfl
@[simp] theorem setTok_dirty (st : Strand) (k : Nat) (t : Token) : (setTok st k t).dirty = st.dirty := rfl
@[simp] theorem setTok_kept (st : Strand) (k : Nat) (t : Token) : (setTok st k t).kept = st.kept := rfl
@[simp] theorem setTok_cause (st : Strand) (k : Nat) (t : Token) : (setTok st k t).cause = st.cause := rfl
@[simp] theorem setTok_epc (st : Strand) (k : Nat) (t : Token) : (setTok st k t).epc = st.epc := rfl
@[simp] theorem setTok_eval (st : Strand) (k : Nat) (t : Token) : (setTok st k t).eval = st.eval := rfl
@[simp] theorem setTok_th (st : Strand) (k : Nat) (t : Token) : (setTok st k t).th = st.th := rfl
@[simp] theorem setTok_tvec (st : Strand) (k : Nat) (t : Token) : (setTok st k t).tvec = st.tvec := rfl
@[simp] theorem setTok_barw (st : Strand) (k : Nat) (t : Token) : (setTok st k t).barw = st.barw := rfl
@[simp] theorem setTok_bargen (st : Strand) (k : Nat) (t : Token) : (setTok st k t).bargen = st.bargen := rfl
@[simp] theorem setTok_barAddr (st : Strand) (k : Nat) (t : Token) : (setTok st k t).barAddr = st.barAddr := rfl
@[simp] theorem setTok_fflags (st : Strand) (k : Nat) (t : Token) : (setTok st k t).fflags = st.fflags := rfl
@[simp] theorem setTok_spbound (st : Strand) (k : Nat) (t : Token) : (setTok st k t).spbound = st.spbound := rfl
@[simp] theorem setTok_rpt (st : Strand) (k : Nat) (t : Token) : (setTok st k t).rpt = st.rpt := rfl
@[simp] theorem setTok_cap (st : Strand) (k : Nat) (t : Token) : (setTok st k t).cap = st.cap := rfl
@[simp] theorem setTok_xkind (st : Strand) (k : Nat) (t : Token) : (setTok st k t).xkind = st.xkind := rfl
@[simp] theorem setTok_xents (st : Strand) (k : Nat) (t : Token) : (setTok st k t).xents = st.xents := rfl
@[simp] theorem setTok_race (st : Strand) (k : Nat) (t : Token) : (setTok st k t).race = st.race := rfl
@[simp] theorem setTok_wbuf (st : Strand) (k : Nat) (t : Token) : (setTok st k t).wbuf = st.wbuf := rfl
@[simp] theorem setTok_pq (st : Strand) (k : Nat) (t : Token) : (setTok st k t).pq = st.pq := rfl
@[simp] theorem setTok_marks (st : Strand) (k : Nat) (t : Token) : (setTok st k t).marks = st.marks := rfl
@[simp] theorem setTok_beforeRace (st : Strand) (k : Nat) (t : Token) : (setTok st k t).beforeRace = st.beforeRace := rfl
@[simp] theorem setTok_early (st : Strand) (k : Nat) (t : Token) : (setTok st k t).early = st.early := rfl
@[simp] theorem setTok_olds (st : Strand) (k : Nat) (t : Token) : (setTok st k t).olds = st.olds := rfl
@[simp] theorem setTok_brought (st : Strand) (k : Nat) (t : Token) : (setTok st k t).brought = st.brought := rfl
@[simp] theorem setTok_resumeAt (st : Strand) (k : Nat) (t : Token) : (setTok st k t).resumeAt = st.resumeAt := rfl
@[simp] theorem setTok_lookFuel (st : Strand) (k : Nat) (t : Token) : (setTok st k t).lookFuel = st.lookFuel := rfl
@[simp] theorem setTok_nextGrp (st : Strand) (k : Nat) (t : Token) : (setTok st k t).nextGrp = st.nextGrp := rfl
@[simp] theorem setTok_fed (st : Strand) (k : Nat) (t : Token) : (setTok st k t).fed = st.fed := rfl
@[simp] theorem setTok_armed (st : Strand) (k : Nat) (t : Token) : (setTok st k t).armed = st.armed := rfl
@[simp] theorem setTok_nextFill (st : Strand) (k : Nat) (t : Token) : (setTok st k t).nextFill = st.nextFill := rfl
@[simp] theorem setTok_outst (st : Strand) (k : Nat) (t : Token) : (setTok st k t).outst = st.outst := rfl
@[simp] theorem setTok_answers (st : Strand) (k : Nat) (t : Token) : (setTok st k t).answers = st.answers := rfl
@[simp] theorem setTok_late (st : Strand) (k : Nat) (t : Token) : (setTok st k t).late = st.late := rfl
@[simp] theorem setTok_since (st : Strand) (k : Nat) (t : Token) : (setTok st k t).since = st.since := rfl
@[simp] theorem setTok_dispOrder (st : Strand) (k : Nat) (t : Token) : (setTok st k t).dispOrder = st.dispOrder := rfl
@[simp] theorem setTok_faulted (st : Strand) (k : Nat) (t : Token) : (setTok st k t).faulted = st.faulted := rfl
@[simp] theorem setTok_reported (st : Strand) (k : Nat) (t : Token) : (setTok st k t).reported = st.reported := rfl
@[simp] theorem setTok_lateStop (st : Strand) (k : Nat) (t : Token) : (setTok st k t).lateStop = st.lateStop := rfl
@[simp] theorem setTok_fslot (st : Strand) (k : Nat) (t : Token) : (setTok st k t).fslot = st.fslot := rfl
@[simp] theorem setTok_felem (st : Strand) (k : Nat) (t : Token) : (setTok st k t).felem = st.felem := rfl
@[simp] theorem setTok_ftsc (st : Strand) (k : Nat) (t : Token) : (setTok st k t).ftsc = st.ftsc := rfl
@[simp] theorem setTok_stopOrder (st : Strand) (k : Nat) (t : Token) : (setTok st k t).stopOrder = st.stopOrder := rfl
@[simp] theorem setTok_yielded (st : Strand) (k : Nat) (t : Token) : (setTok st k t).yielded = st.yielded := rfl

/-! `setIq` -/

@[simp] theorem setIq_run (st : Strand) (k : Nat) (q : List Group) : (setIq st k q).run = st.run := rfl
@[simp] theorem setIq_trunk (st : Strand) (k : Nat) (q : List Group) : (setIq st k q).trunk = st.trunk := rfl
@[simp] theorem setIq_sid (st : Strand) (k : Nat) (q : List Group) : (setIq st k q).sid = st.sid := rfl
@[simp] theorem setIq_rec (st : Strand) (k : Nat) (q : List Group) : (setIq st k q).rec_ = st.rec_ := rfl
@[simp] theorem setIq_rank (st : Strand) (k : Nat) (q : List Group) : (setIq st k q).rank = st.rank := rfl
@[simp] theorem setIq_pc (st : Strand) (k : Nat) (q : List Group) : (setIq st k q).pc = st.pc := rfl
@[simp] theorem setIq_npc (st : Strand) (k : Nat) (q : List Group) : (setIq st k q).npc = st.npc := rfl
@[simp] theorem setIq_regs (st : Strand) (k : Nat) (q : List Group) : (setIq st k q).regs = st.regs := rfl
@[simp] theorem setIq_preds (st : Strand) (k : Nat) (q : List Group) : (setIq st k q).preds = st.preds := rfl
@[simp] theorem setIq_vregs (st : Strand) (k : Nat) (q : List Group) : (setIq st k q).vregs = st.vregs := rfl
@[simp] theorem setIq_oq (st : Strand) (k : Nat) (q : List Group) : (setIq st k q).oq = st.oq := rfl
@[simp] theorem setIq_eas (st : Strand) (k : Nat) (q : List Group) : (setIq st k q).eas = st.eas := rfl
@[simp] theorem setIq_eaPois (st : Strand) (k : Nat) (q : List Group) : (setIq st k q).eaPois = st.eaPois := rfl
@[simp] theorem setIq_fds (st : Strand) (k : Nat) (q : List Group) : (setIq st k q).fds = st.fds := rfl
@[simp] theorem setIq_toks (st : Strand) (k : Nat) (q : List Group) : (setIq st k q).toks = st.toks := rfl
@[simp] theorem setIq_vt0 (st : Strand) (k : Nat) (q : List Group) : (setIq st k q).vt0 = st.vt0 := rfl
@[simp] theorem setIq_vt1 (st : Strand) (k : Nat) (q : List Group) : (setIq st k q).vt1 = st.vt1 := rfl
@[simp] theorem setIq_vl (st : Strand) (k : Nat) (q : List Group) : (setIq st k q).vl = st.vl := rfl
@[simp] theorem setIq_maxvl (st : Strand) (k : Nat) (q : List Group) : (setIq st k q).maxvl = st.maxvl := rfl
@[simp] theorem setIq_vstart (st : Strand) (k : Nat) (q : List Group) : (setIq st k q).vstart = st.vstart := rfl
@[simp] theorem setIq_vsyl (st : Strand) (k : Nat) (q : List Group) : (setIq st k q).vsyl = st.vsyl := rfl
@[simp] theorem setIq_vhwm (st : Strand) (k : Nat) (q : List Group) : (setIq st k q).vhwm = st.vhwm := rfl
@[simp] theorem setIq_budget (st : Strand) (k : Nat) (q : List Group) : (setIq st k q).budget = st.budget := rfl
@[simp] theorem setIq_pending (st : Strand) (k : Nat) (q : List Group) : (setIq st k q).pending = st.pending := rfl
@[simp] theorem setIq_dirty (st : Strand) (k : Nat) (q : List Group) : (setIq st k q).dirty = st.dirty := rfl
@[simp] theorem setIq_kept (st : Strand) (k : Nat) (q : List Group) : (setIq st k q).kept = st.kept := rfl
@[simp] theorem setIq_cause (st : Strand) (k : Nat) (q : List Group) : (setIq st k q).cause = st.cause := rfl
@[simp] theorem setIq_epc (st : Strand) (k : Nat) (q : List Group) : (setIq st k q).epc = st.epc := rfl
@[simp] theorem setIq_eval (st : Strand) (k : Nat) (q : List Group) : (setIq st k q).eval = st.eval := rfl
@[simp] theorem setIq_th (st : Strand) (k : Nat) (q : List Group) : (setIq st k q).th = st.th := rfl
@[simp] theorem setIq_tvec (st : Strand) (k : Nat) (q : List Group) : (setIq st k q).tvec = st.tvec := rfl
@[simp] theorem setIq_barw (st : Strand) (k : Nat) (q : List Group) : (setIq st k q).barw = st.barw := rfl
@[simp] theorem setIq_bargen (st : Strand) (k : Nat) (q : List Group) : (setIq st k q).bargen = st.bargen := rfl
@[simp] theorem setIq_barAddr (st : Strand) (k : Nat) (q : List Group) : (setIq st k q).barAddr = st.barAddr := rfl
@[simp] theorem setIq_fflags (st : Strand) (k : Nat) (q : List Group) : (setIq st k q).fflags = st.fflags := rfl
@[simp] theorem setIq_spbound (st : Strand) (k : Nat) (q : List Group) : (setIq st k q).spbound = st.spbound := rfl
@[simp] theorem setIq_rpt (st : Strand) (k : Nat) (q : List Group) : (setIq st k q).rpt = st.rpt := rfl
@[simp] theorem setIq_cap (st : Strand) (k : Nat) (q : List Group) : (setIq st k q).cap = st.cap := rfl
@[simp] theorem setIq_xkind (st : Strand) (k : Nat) (q : List Group) : (setIq st k q).xkind = st.xkind := rfl
@[simp] theorem setIq_xents (st : Strand) (k : Nat) (q : List Group) : (setIq st k q).xents = st.xents := rfl
@[simp] theorem setIq_race (st : Strand) (k : Nat) (q : List Group) : (setIq st k q).race = st.race := rfl
@[simp] theorem setIq_wbuf (st : Strand) (k : Nat) (q : List Group) : (setIq st k q).wbuf = st.wbuf := rfl
@[simp] theorem setIq_pq (st : Strand) (k : Nat) (q : List Group) : (setIq st k q).pq = st.pq := rfl
@[simp] theorem setIq_marks (st : Strand) (k : Nat) (q : List Group) : (setIq st k q).marks = st.marks := rfl
@[simp] theorem setIq_beforeRace (st : Strand) (k : Nat) (q : List Group) : (setIq st k q).beforeRace = st.beforeRace := rfl
@[simp] theorem setIq_early (st : Strand) (k : Nat) (q : List Group) : (setIq st k q).early = st.early := rfl
@[simp] theorem setIq_olds (st : Strand) (k : Nat) (q : List Group) : (setIq st k q).olds = st.olds := rfl
@[simp] theorem setIq_brought (st : Strand) (k : Nat) (q : List Group) : (setIq st k q).brought = st.brought := rfl
@[simp] theorem setIq_resumeAt (st : Strand) (k : Nat) (q : List Group) : (setIq st k q).resumeAt = st.resumeAt := rfl
@[simp] theorem setIq_lookFuel (st : Strand) (k : Nat) (q : List Group) : (setIq st k q).lookFuel = st.lookFuel := rfl
@[simp] theorem setIq_nextGrp (st : Strand) (k : Nat) (q : List Group) : (setIq st k q).nextGrp = st.nextGrp := rfl
@[simp] theorem setIq_fed (st : Strand) (k : Nat) (q : List Group) : (setIq st k q).fed = st.fed := rfl
@[simp] theorem setIq_armed (st : Strand) (k : Nat) (q : List Group) : (setIq st k q).armed = st.armed := rfl
@[simp] theorem setIq_nextFill (st : Strand) (k : Nat) (q : List Group) : (setIq st k q).nextFill = st.nextFill := rfl
@[simp] theorem setIq_outst (st : Strand) (k : Nat) (q : List Group) : (setIq st k q).outst = st.outst := rfl
@[simp] theorem setIq_answers (st : Strand) (k : Nat) (q : List Group) : (setIq st k q).answers = st.answers := rfl
@[simp] theorem setIq_late (st : Strand) (k : Nat) (q : List Group) : (setIq st k q).late = st.late := rfl
@[simp] theorem setIq_since (st : Strand) (k : Nat) (q : List Group) : (setIq st k q).since = st.since := rfl
@[simp] theorem setIq_dispOrder (st : Strand) (k : Nat) (q : List Group) : (setIq st k q).dispOrder = st.dispOrder := rfl
@[simp] theorem setIq_faulted (st : Strand) (k : Nat) (q : List Group) : (setIq st k q).faulted = st.faulted := rfl
@[simp] theorem setIq_reported (st : Strand) (k : Nat) (q : List Group) : (setIq st k q).reported = st.reported := rfl
@[simp] theorem setIq_lateStop (st : Strand) (k : Nat) (q : List Group) : (setIq st k q).lateStop = st.lateStop := rfl
@[simp] theorem setIq_fslot (st : Strand) (k : Nat) (q : List Group) : (setIq st k q).fslot = st.fslot := rfl
@[simp] theorem setIq_felem (st : Strand) (k : Nat) (q : List Group) : (setIq st k q).felem = st.felem := rfl
@[simp] theorem setIq_ftsc (st : Strand) (k : Nat) (q : List Group) : (setIq st k q).ftsc = st.ftsc := rfl
@[simp] theorem setIq_stopOrder (st : Strand) (k : Nat) (q : List Group) : (setIq st k q).stopOrder = st.stopOrder := rfl
@[simp] theorem setIq_yielded (st : Strand) (k : Nat) (q : List Group) : (setIq st k q).yielded = st.yielded := rfl

/-! `setOq` -/

@[simp] theorem setOq_run (st : Strand) (k : Nat) (q : List Group) : (setOq st k q).run = st.run := rfl
@[simp] theorem setOq_trunk (st : Strand) (k : Nat) (q : List Group) : (setOq st k q).trunk = st.trunk := rfl
@[simp] theorem setOq_sid (st : Strand) (k : Nat) (q : List Group) : (setOq st k q).sid = st.sid := rfl
@[simp] theorem setOq_rec (st : Strand) (k : Nat) (q : List Group) : (setOq st k q).rec_ = st.rec_ := rfl
@[simp] theorem setOq_rank (st : Strand) (k : Nat) (q : List Group) : (setOq st k q).rank = st.rank := rfl
@[simp] theorem setOq_pc (st : Strand) (k : Nat) (q : List Group) : (setOq st k q).pc = st.pc := rfl
@[simp] theorem setOq_npc (st : Strand) (k : Nat) (q : List Group) : (setOq st k q).npc = st.npc := rfl
@[simp] theorem setOq_regs (st : Strand) (k : Nat) (q : List Group) : (setOq st k q).regs = st.regs := rfl
@[simp] theorem setOq_preds (st : Strand) (k : Nat) (q : List Group) : (setOq st k q).preds = st.preds := rfl
@[simp] theorem setOq_vregs (st : Strand) (k : Nat) (q : List Group) : (setOq st k q).vregs = st.vregs := rfl
@[simp] theorem setOq_iq (st : Strand) (k : Nat) (q : List Group) : (setOq st k q).iq = st.iq := rfl
@[simp] theorem setOq_eas (st : Strand) (k : Nat) (q : List Group) : (setOq st k q).eas = st.eas := rfl
@[simp] theorem setOq_eaPois (st : Strand) (k : Nat) (q : List Group) : (setOq st k q).eaPois = st.eaPois := rfl
@[simp] theorem setOq_fds (st : Strand) (k : Nat) (q : List Group) : (setOq st k q).fds = st.fds := rfl
@[simp] theorem setOq_toks (st : Strand) (k : Nat) (q : List Group) : (setOq st k q).toks = st.toks := rfl
@[simp] theorem setOq_vt0 (st : Strand) (k : Nat) (q : List Group) : (setOq st k q).vt0 = st.vt0 := rfl
@[simp] theorem setOq_vt1 (st : Strand) (k : Nat) (q : List Group) : (setOq st k q).vt1 = st.vt1 := rfl
@[simp] theorem setOq_vl (st : Strand) (k : Nat) (q : List Group) : (setOq st k q).vl = st.vl := rfl
@[simp] theorem setOq_maxvl (st : Strand) (k : Nat) (q : List Group) : (setOq st k q).maxvl = st.maxvl := rfl
@[simp] theorem setOq_vstart (st : Strand) (k : Nat) (q : List Group) : (setOq st k q).vstart = st.vstart := rfl
@[simp] theorem setOq_vsyl (st : Strand) (k : Nat) (q : List Group) : (setOq st k q).vsyl = st.vsyl := rfl
@[simp] theorem setOq_vhwm (st : Strand) (k : Nat) (q : List Group) : (setOq st k q).vhwm = st.vhwm := rfl
@[simp] theorem setOq_budget (st : Strand) (k : Nat) (q : List Group) : (setOq st k q).budget = st.budget := rfl
@[simp] theorem setOq_pending (st : Strand) (k : Nat) (q : List Group) : (setOq st k q).pending = st.pending := rfl
@[simp] theorem setOq_dirty (st : Strand) (k : Nat) (q : List Group) : (setOq st k q).dirty = st.dirty := rfl
@[simp] theorem setOq_kept (st : Strand) (k : Nat) (q : List Group) : (setOq st k q).kept = st.kept := rfl
@[simp] theorem setOq_cause (st : Strand) (k : Nat) (q : List Group) : (setOq st k q).cause = st.cause := rfl
@[simp] theorem setOq_epc (st : Strand) (k : Nat) (q : List Group) : (setOq st k q).epc = st.epc := rfl
@[simp] theorem setOq_eval (st : Strand) (k : Nat) (q : List Group) : (setOq st k q).eval = st.eval := rfl
@[simp] theorem setOq_th (st : Strand) (k : Nat) (q : List Group) : (setOq st k q).th = st.th := rfl
@[simp] theorem setOq_tvec (st : Strand) (k : Nat) (q : List Group) : (setOq st k q).tvec = st.tvec := rfl
@[simp] theorem setOq_barw (st : Strand) (k : Nat) (q : List Group) : (setOq st k q).barw = st.barw := rfl
@[simp] theorem setOq_bargen (st : Strand) (k : Nat) (q : List Group) : (setOq st k q).bargen = st.bargen := rfl
@[simp] theorem setOq_barAddr (st : Strand) (k : Nat) (q : List Group) : (setOq st k q).barAddr = st.barAddr := rfl
@[simp] theorem setOq_fflags (st : Strand) (k : Nat) (q : List Group) : (setOq st k q).fflags = st.fflags := rfl
@[simp] theorem setOq_spbound (st : Strand) (k : Nat) (q : List Group) : (setOq st k q).spbound = st.spbound := rfl
@[simp] theorem setOq_rpt (st : Strand) (k : Nat) (q : List Group) : (setOq st k q).rpt = st.rpt := rfl
@[simp] theorem setOq_cap (st : Strand) (k : Nat) (q : List Group) : (setOq st k q).cap = st.cap := rfl
@[simp] theorem setOq_xkind (st : Strand) (k : Nat) (q : List Group) : (setOq st k q).xkind = st.xkind := rfl
@[simp] theorem setOq_xents (st : Strand) (k : Nat) (q : List Group) : (setOq st k q).xents = st.xents := rfl
@[simp] theorem setOq_race (st : Strand) (k : Nat) (q : List Group) : (setOq st k q).race = st.race := rfl
@[simp] theorem setOq_wbuf (st : Strand) (k : Nat) (q : List Group) : (setOq st k q).wbuf = st.wbuf := rfl
@[simp] theorem setOq_pq (st : Strand) (k : Nat) (q : List Group) : (setOq st k q).pq = st.pq := rfl
@[simp] theorem setOq_marks (st : Strand) (k : Nat) (q : List Group) : (setOq st k q).marks = st.marks := rfl
@[simp] theorem setOq_beforeRace (st : Strand) (k : Nat) (q : List Group) : (setOq st k q).beforeRace = st.beforeRace := rfl
@[simp] theorem setOq_early (st : Strand) (k : Nat) (q : List Group) : (setOq st k q).early = st.early := rfl
@[simp] theorem setOq_olds (st : Strand) (k : Nat) (q : List Group) : (setOq st k q).olds = st.olds := rfl
@[simp] theorem setOq_brought (st : Strand) (k : Nat) (q : List Group) : (setOq st k q).brought = st.brought := rfl
@[simp] theorem setOq_resumeAt (st : Strand) (k : Nat) (q : List Group) : (setOq st k q).resumeAt = st.resumeAt := rfl
@[simp] theorem setOq_lookFuel (st : Strand) (k : Nat) (q : List Group) : (setOq st k q).lookFuel = st.lookFuel := rfl
@[simp] theorem setOq_nextGrp (st : Strand) (k : Nat) (q : List Group) : (setOq st k q).nextGrp = st.nextGrp := rfl
@[simp] theorem setOq_fed (st : Strand) (k : Nat) (q : List Group) : (setOq st k q).fed = st.fed := rfl
@[simp] theorem setOq_armed (st : Strand) (k : Nat) (q : List Group) : (setOq st k q).armed = st.armed := rfl
@[simp] theorem setOq_nextFill (st : Strand) (k : Nat) (q : List Group) : (setOq st k q).nextFill = st.nextFill := rfl
@[simp] theorem setOq_outst (st : Strand) (k : Nat) (q : List Group) : (setOq st k q).outst = st.outst := rfl
@[simp] theorem setOq_answers (st : Strand) (k : Nat) (q : List Group) : (setOq st k q).answers = st.answers := rfl
@[simp] theorem setOq_late (st : Strand) (k : Nat) (q : List Group) : (setOq st k q).late = st.late := rfl
@[simp] theorem setOq_since (st : Strand) (k : Nat) (q : List Group) : (setOq st k q).since = st.since := rfl
@[simp] theorem setOq_dispOrder (st : Strand) (k : Nat) (q : List Group) : (setOq st k q).dispOrder = st.dispOrder := rfl
@[simp] theorem setOq_faulted (st : Strand) (k : Nat) (q : List Group) : (setOq st k q).faulted = st.faulted := rfl
@[simp] theorem setOq_reported (st : Strand) (k : Nat) (q : List Group) : (setOq st k q).reported = st.reported := rfl
@[simp] theorem setOq_lateStop (st : Strand) (k : Nat) (q : List Group) : (setOq st k q).lateStop = st.lateStop := rfl
@[simp] theorem setOq_fslot (st : Strand) (k : Nat) (q : List Group) : (setOq st k q).fslot = st.fslot := rfl
@[simp] theorem setOq_felem (st : Strand) (k : Nat) (q : List Group) : (setOq st k q).felem = st.felem := rfl
@[simp] theorem setOq_ftsc (st : Strand) (k : Nat) (q : List Group) : (setOq st k q).ftsc = st.ftsc := rfl
@[simp] theorem setOq_stopOrder (st : Strand) (k : Nat) (q : List Group) : (setOq st k q).stopOrder = st.stopOrder := rfl
@[simp] theorem setOq_yielded (st : Strand) (k : Nat) (q : List Group) : (setOq st k q).yielded = st.yielded := rfl

/-! `markDirty` -/

@[simp] theorem markDirty_run (st : Strand) (f : Nat) : (markDirty st f).run = st.run := rfl
@[simp] theorem markDirty_trunk (st : Strand) (f : Nat) : (markDirty st f).trunk = st.trunk := rfl
@[simp] theorem markDirty_sid (st : Strand) (f : Nat) : (markDirty st f).sid = st.sid := rfl
@[simp] theorem markDirty_rec (st : Strand) (f : Nat) : (markDirty st f).rec_ = st.rec_ := rfl
@[simp] theorem markDirty_rank (st : Strand) (f : Nat) : (markDirty st f).rank = st.rank := rfl
@[simp] theorem markDirty_pc (st : Strand) (f : Nat) : (markDirty st f).pc = st.pc := rfl
@[simp] theorem markDirty_npc (st : Strand) (f : Nat) : (markDirty st f).npc = st.npc := rfl
@[simp] theorem markDirty_regs (st : Strand) (f : Nat) : (markDirty st f).regs = st.regs := rfl
@[simp] theorem markDirty_preds (st : Strand) (f : Nat) : (markDirty st f).preds = st.preds := rfl
@[simp] theorem markDirty_vregs (st : Strand) (f : Nat) : (markDirty st f).vregs = st.vregs := rfl
@[simp] theorem markDirty_iq (st : Strand) (f : Nat) : (markDirty st f).iq = st.iq := rfl
@[simp] theorem markDirty_oq (st : Strand) (f : Nat) : (markDirty st f).oq = st.oq := rfl
@[simp] theorem markDirty_eas (st : Strand) (f : Nat) : (markDirty st f).eas = st.eas := rfl
@[simp] theorem markDirty_eaPois (st : Strand) (f : Nat) : (markDirty st f).eaPois = st.eaPois := rfl
@[simp] theorem markDirty_fds (st : Strand) (f : Nat) : (markDirty st f).fds = st.fds := rfl
@[simp] theorem markDirty_toks (st : Strand) (f : Nat) : (markDirty st f).toks = st.toks := rfl
@[simp] theorem markDirty_vt0 (st : Strand) (f : Nat) : (markDirty st f).vt0 = st.vt0 := rfl
@[simp] theorem markDirty_vt1 (st : Strand) (f : Nat) : (markDirty st f).vt1 = st.vt1 := rfl
@[simp] theorem markDirty_vl (st : Strand) (f : Nat) : (markDirty st f).vl = st.vl := rfl
@[simp] theorem markDirty_maxvl (st : Strand) (f : Nat) : (markDirty st f).maxvl = st.maxvl := rfl
@[simp] theorem markDirty_vstart (st : Strand) (f : Nat) : (markDirty st f).vstart = st.vstart := rfl
@[simp] theorem markDirty_vsyl (st : Strand) (f : Nat) : (markDirty st f).vsyl = st.vsyl := rfl
@[simp] theorem markDirty_vhwm (st : Strand) (f : Nat) : (markDirty st f).vhwm = st.vhwm := rfl
@[simp] theorem markDirty_budget (st : Strand) (f : Nat) : (markDirty st f).budget = st.budget := rfl
@[simp] theorem markDirty_pending (st : Strand) (f : Nat) : (markDirty st f).pending = st.pending := rfl
@[simp] theorem markDirty_kept (st : Strand) (f : Nat) : (markDirty st f).kept = st.kept := rfl
@[simp] theorem markDirty_cause (st : Strand) (f : Nat) : (markDirty st f).cause = st.cause := rfl
@[simp] theorem markDirty_epc (st : Strand) (f : Nat) : (markDirty st f).epc = st.epc := rfl
@[simp] theorem markDirty_eval (st : Strand) (f : Nat) : (markDirty st f).eval = st.eval := rfl
@[simp] theorem markDirty_th (st : Strand) (f : Nat) : (markDirty st f).th = st.th := rfl
@[simp] theorem markDirty_tvec (st : Strand) (f : Nat) : (markDirty st f).tvec = st.tvec := rfl
@[simp] theorem markDirty_barw (st : Strand) (f : Nat) : (markDirty st f).barw = st.barw := rfl
@[simp] theorem markDirty_bargen (st : Strand) (f : Nat) : (markDirty st f).bargen = st.bargen := rfl
@[simp] theorem markDirty_barAddr (st : Strand) (f : Nat) : (markDirty st f).barAddr = st.barAddr := rfl
@[simp] theorem markDirty_fflags (st : Strand) (f : Nat) : (markDirty st f).fflags = st.fflags := rfl
@[simp] theorem markDirty_spbound (st : Strand) (f : Nat) : (markDirty st f).spbound = st.spbound := rfl
@[simp] theorem markDirty_rpt (st : Strand) (f : Nat) : (markDirty st f).rpt = st.rpt := rfl
@[simp] theorem markDirty_cap (st : Strand) (f : Nat) : (markDirty st f).cap = st.cap := rfl
@[simp] theorem markDirty_xkind (st : Strand) (f : Nat) : (markDirty st f).xkind = st.xkind := rfl
@[simp] theorem markDirty_xents (st : Strand) (f : Nat) : (markDirty st f).xents = st.xents := rfl
@[simp] theorem markDirty_race (st : Strand) (f : Nat) : (markDirty st f).race = st.race := rfl
@[simp] theorem markDirty_wbuf (st : Strand) (f : Nat) : (markDirty st f).wbuf = st.wbuf := rfl
@[simp] theorem markDirty_pq (st : Strand) (f : Nat) : (markDirty st f).pq = st.pq := rfl
@[simp] theorem markDirty_marks (st : Strand) (f : Nat) : (markDirty st f).marks = st.marks := rfl
@[simp] theorem markDirty_beforeRace (st : Strand) (f : Nat) : (markDirty st f).beforeRace = st.beforeRace := rfl
@[simp] theorem markDirty_early (st : Strand) (f : Nat) : (markDirty st f).early = st.early := rfl
@[simp] theorem markDirty_olds (st : Strand) (f : Nat) : (markDirty st f).olds = st.olds := rfl
@[simp] theorem markDirty_brought (st : Strand) (f : Nat) : (markDirty st f).brought = st.brought := rfl
@[simp] theorem markDirty_resumeAt (st : Strand) (f : Nat) : (markDirty st f).resumeAt = st.resumeAt := rfl
@[simp] theorem markDirty_lookFuel (st : Strand) (f : Nat) : (markDirty st f).lookFuel = st.lookFuel := rfl
@[simp] theorem markDirty_nextGrp (st : Strand) (f : Nat) : (markDirty st f).nextGrp = st.nextGrp := rfl
@[simp] theorem markDirty_fed (st : Strand) (f : Nat) : (markDirty st f).fed = st.fed := rfl
@[simp] theorem markDirty_armed (st : Strand) (f : Nat) : (markDirty st f).armed = st.armed := rfl
@[simp] theorem markDirty_nextFill (st : Strand) (f : Nat) : (markDirty st f).nextFill = st.nextFill := rfl
@[simp] theorem markDirty_outst (st : Strand) (f : Nat) : (markDirty st f).outst = st.outst := rfl
@[simp] theorem markDirty_answers (st : Strand) (f : Nat) : (markDirty st f).answers = st.answers := rfl
@[simp] theorem markDirty_late (st : Strand) (f : Nat) : (markDirty st f).late = st.late := rfl
@[simp] theorem markDirty_since (st : Strand) (f : Nat) : (markDirty st f).since = st.since := rfl
@[simp] theorem markDirty_dispOrder (st : Strand) (f : Nat) : (markDirty st f).dispOrder = st.dispOrder := rfl
@[simp] theorem markDirty_faulted (st : Strand) (f : Nat) : (markDirty st f).faulted = st.faulted := rfl
@[simp] theorem markDirty_reported (st : Strand) (f : Nat) : (markDirty st f).reported = st.reported := rfl
@[simp] theorem markDirty_lateStop (st : Strand) (f : Nat) : (markDirty st f).lateStop = st.lateStop := rfl
@[simp] theorem markDirty_fslot (st : Strand) (f : Nat) : (markDirty st f).fslot = st.fslot := rfl
@[simp] theorem markDirty_felem (st : Strand) (f : Nat) : (markDirty st f).felem = st.felem := rfl
@[simp] theorem markDirty_ftsc (st : Strand) (f : Nat) : (markDirty st f).ftsc = st.ftsc := rfl
@[simp] theorem markDirty_stopOrder (st : Strand) (f : Nat) : (markDirty st f).stopOrder = st.stopOrder := rfl
@[simp] theorem markDirty_yielded (st : Strand) (f : Nat) : (markDirty st f).yielded = st.yielded := rfl

/-! `setEa` -/

@[simp] theorem setEa_run (st : Strand) (k : Nat) (a : EA) : (setEa st k a).run = st.run := rfl
@[simp] theorem setEa_trunk (st : Strand) (k : Nat) (a : EA) : (setEa st k a).trunk = st.trunk := rfl
@[simp] theorem setEa_sid (st : Strand) (k : Nat) (a : EA) : (setEa st k a).sid = st.sid := rfl
@[simp] theorem setEa_rec (st : Strand) (k : Nat) (a : EA) : (setEa st k a).rec_ = st.rec_ := rfl
@[simp] theorem setEa_rank (st : Strand) (k : Nat) (a : EA) : (setEa st k a).rank = st.rank := rfl
@[simp] theorem setEa_pc (st : Strand) (k : Nat) (a : EA) : (setEa st k a).pc = st.pc := rfl
@[simp] theorem setEa_npc (st : Strand) (k : Nat) (a : EA) : (setEa st k a).npc = st.npc := rfl
@[simp] theorem setEa_regs (st : Strand) (k : Nat) (a : EA) : (setEa st k a).regs = st.regs := rfl
@[simp] theorem setEa_preds (st : Strand) (k : Nat) (a : EA) : (setEa st k a).preds = st.preds := rfl
@[simp] theorem setEa_vregs (st : Strand) (k : Nat) (a : EA) : (setEa st k a).vregs = st.vregs := rfl
@[simp] theorem setEa_iq (st : Strand) (k : Nat) (a : EA) : (setEa st k a).iq = st.iq := rfl
@[simp] theorem setEa_oq (st : Strand) (k : Nat) (a : EA) : (setEa st k a).oq = st.oq := rfl
@[simp] theorem setEa_fds (st : Strand) (k : Nat) (a : EA) : (setEa st k a).fds = st.fds := rfl
@[simp] theorem setEa_toks (st : Strand) (k : Nat) (a : EA) : (setEa st k a).toks = st.toks := rfl
@[simp] theorem setEa_vt0 (st : Strand) (k : Nat) (a : EA) : (setEa st k a).vt0 = st.vt0 := rfl
@[simp] theorem setEa_vt1 (st : Strand) (k : Nat) (a : EA) : (setEa st k a).vt1 = st.vt1 := rfl
@[simp] theorem setEa_vl (st : Strand) (k : Nat) (a : EA) : (setEa st k a).vl = st.vl := rfl
@[simp] theorem setEa_maxvl (st : Strand) (k : Nat) (a : EA) : (setEa st k a).maxvl = st.maxvl := rfl
@[simp] theorem setEa_vstart (st : Strand) (k : Nat) (a : EA) : (setEa st k a).vstart = st.vstart := rfl
@[simp] theorem setEa_vsyl (st : Strand) (k : Nat) (a : EA) : (setEa st k a).vsyl = st.vsyl := rfl
@[simp] theorem setEa_vhwm (st : Strand) (k : Nat) (a : EA) : (setEa st k a).vhwm = st.vhwm := rfl
@[simp] theorem setEa_budget (st : Strand) (k : Nat) (a : EA) : (setEa st k a).budget = st.budget := rfl
@[simp] theorem setEa_pending (st : Strand) (k : Nat) (a : EA) : (setEa st k a).pending = st.pending := rfl
@[simp] theorem setEa_dirty (st : Strand) (k : Nat) (a : EA) : (setEa st k a).dirty = st.dirty := rfl
@[simp] theorem setEa_kept (st : Strand) (k : Nat) (a : EA) : (setEa st k a).kept = st.kept := rfl
@[simp] theorem setEa_cause (st : Strand) (k : Nat) (a : EA) : (setEa st k a).cause = st.cause := rfl
@[simp] theorem setEa_epc (st : Strand) (k : Nat) (a : EA) : (setEa st k a).epc = st.epc := rfl
@[simp] theorem setEa_eval (st : Strand) (k : Nat) (a : EA) : (setEa st k a).eval = st.eval := rfl
@[simp] theorem setEa_th (st : Strand) (k : Nat) (a : EA) : (setEa st k a).th = st.th := rfl
@[simp] theorem setEa_tvec (st : Strand) (k : Nat) (a : EA) : (setEa st k a).tvec = st.tvec := rfl
@[simp] theorem setEa_barw (st : Strand) (k : Nat) (a : EA) : (setEa st k a).barw = st.barw := rfl
@[simp] theorem setEa_bargen (st : Strand) (k : Nat) (a : EA) : (setEa st k a).bargen = st.bargen := rfl
@[simp] theorem setEa_barAddr (st : Strand) (k : Nat) (a : EA) : (setEa st k a).barAddr = st.barAddr := rfl
@[simp] theorem setEa_fflags (st : Strand) (k : Nat) (a : EA) : (setEa st k a).fflags = st.fflags := rfl
@[simp] theorem setEa_spbound (st : Strand) (k : Nat) (a : EA) : (setEa st k a).spbound = st.spbound := rfl
@[simp] theorem setEa_rpt (st : Strand) (k : Nat) (a : EA) : (setEa st k a).rpt = st.rpt := rfl
@[simp] theorem setEa_cap (st : Strand) (k : Nat) (a : EA) : (setEa st k a).cap = st.cap := rfl
@[simp] theorem setEa_xkind (st : Strand) (k : Nat) (a : EA) : (setEa st k a).xkind = st.xkind := rfl
@[simp] theorem setEa_xents (st : Strand) (k : Nat) (a : EA) : (setEa st k a).xents = st.xents := rfl
@[simp] theorem setEa_race (st : Strand) (k : Nat) (a : EA) : (setEa st k a).race = st.race := rfl
@[simp] theorem setEa_wbuf (st : Strand) (k : Nat) (a : EA) : (setEa st k a).wbuf = st.wbuf := rfl
@[simp] theorem setEa_pq (st : Strand) (k : Nat) (a : EA) : (setEa st k a).pq = st.pq := rfl
@[simp] theorem setEa_marks (st : Strand) (k : Nat) (a : EA) : (setEa st k a).marks = st.marks := rfl
@[simp] theorem setEa_beforeRace (st : Strand) (k : Nat) (a : EA) : (setEa st k a).beforeRace = st.beforeRace := rfl
@[simp] theorem setEa_early (st : Strand) (k : Nat) (a : EA) : (setEa st k a).early = st.early := rfl
@[simp] theorem setEa_olds (st : Strand) (k : Nat) (a : EA) : (setEa st k a).olds = st.olds := rfl
@[simp] theorem setEa_brought (st : Strand) (k : Nat) (a : EA) : (setEa st k a).brought = st.brought := rfl
@[simp] theorem setEa_resumeAt (st : Strand) (k : Nat) (a : EA) : (setEa st k a).resumeAt = st.resumeAt := rfl
@[simp] theorem setEa_lookFuel (st : Strand) (k : Nat) (a : EA) : (setEa st k a).lookFuel = st.lookFuel := rfl
@[simp] theorem setEa_nextGrp (st : Strand) (k : Nat) (a : EA) : (setEa st k a).nextGrp = st.nextGrp := rfl
@[simp] theorem setEa_fed (st : Strand) (k : Nat) (a : EA) : (setEa st k a).fed = st.fed := rfl
@[simp] theorem setEa_armed (st : Strand) (k : Nat) (a : EA) : (setEa st k a).armed = st.armed := rfl
@[simp] theorem setEa_nextFill (st : Strand) (k : Nat) (a : EA) : (setEa st k a).nextFill = st.nextFill := rfl
@[simp] theorem setEa_outst (st : Strand) (k : Nat) (a : EA) : (setEa st k a).outst = st.outst := rfl
@[simp] theorem setEa_answers (st : Strand) (k : Nat) (a : EA) : (setEa st k a).answers = st.answers := rfl
@[simp] theorem setEa_late (st : Strand) (k : Nat) (a : EA) : (setEa st k a).late = st.late := rfl
@[simp] theorem setEa_since (st : Strand) (k : Nat) (a : EA) : (setEa st k a).since = st.since := rfl
@[simp] theorem setEa_dispOrder (st : Strand) (k : Nat) (a : EA) : (setEa st k a).dispOrder = st.dispOrder := rfl
@[simp] theorem setEa_faulted (st : Strand) (k : Nat) (a : EA) : (setEa st k a).faulted = st.faulted := rfl
@[simp] theorem setEa_reported (st : Strand) (k : Nat) (a : EA) : (setEa st k a).reported = st.reported := rfl
@[simp] theorem setEa_lateStop (st : Strand) (k : Nat) (a : EA) : (setEa st k a).lateStop = st.lateStop := rfl
@[simp] theorem setEa_fslot (st : Strand) (k : Nat) (a : EA) : (setEa st k a).fslot = st.fslot := rfl
@[simp] theorem setEa_felem (st : Strand) (k : Nat) (a : EA) : (setEa st k a).felem = st.felem := rfl
@[simp] theorem setEa_ftsc (st : Strand) (k : Nat) (a : EA) : (setEa st k a).ftsc = st.ftsc := rfl
@[simp] theorem setEa_stopOrder (st : Strand) (k : Nat) (a : EA) : (setEa st k a).stopOrder = st.stopOrder := rfl
@[simp] theorem setEa_yielded (st : Strand) (k : Nat) (a : EA) : (setEa st k a).yielded = st.yielded := rfl

/-! `addEa` -/

@[simp] theorem addEa_run (st : Strand) (k : Nat) (a : EA) : (addEa st k a).run = st.run := rfl
@[simp] theorem addEa_trunk (st : Strand) (k : Nat) (a : EA) : (addEa st k a).trunk = st.trunk := rfl
@[simp] theorem addEa_sid (st : Strand) (k : Nat) (a : EA) : (addEa st k a).sid = st.sid := rfl
@[simp] theorem addEa_rec (st : Strand) (k : Nat) (a : EA) : (addEa st k a).rec_ = st.rec_ := rfl
@[simp] theorem addEa_rank (st : Strand) (k : Nat) (a : EA) : (addEa st k a).rank = st.rank := rfl
@[simp] theorem addEa_pc (st : Strand) (k : Nat) (a : EA) : (addEa st k a).pc = st.pc := rfl
@[simp] theorem addEa_npc (st : Strand) (k : Nat) (a : EA) : (addEa st k a).npc = st.npc := rfl
@[simp] theorem addEa_regs (st : Strand) (k : Nat) (a : EA) : (addEa st k a).regs = st.regs := rfl
@[simp] theorem addEa_preds (st : Strand) (k : Nat) (a : EA) : (addEa st k a).preds = st.preds := rfl
@[simp] theorem addEa_vregs (st : Strand) (k : Nat) (a : EA) : (addEa st k a).vregs = st.vregs := rfl
@[simp] theorem addEa_iq (st : Strand) (k : Nat) (a : EA) : (addEa st k a).iq = st.iq := rfl
@[simp] theorem addEa_oq (st : Strand) (k : Nat) (a : EA) : (addEa st k a).oq = st.oq := rfl
@[simp] theorem addEa_eaPois (st : Strand) (k : Nat) (a : EA) : (addEa st k a).eaPois = st.eaPois := rfl
@[simp] theorem addEa_fds (st : Strand) (k : Nat) (a : EA) : (addEa st k a).fds = st.fds := rfl
@[simp] theorem addEa_toks (st : Strand) (k : Nat) (a : EA) : (addEa st k a).toks = st.toks := rfl
@[simp] theorem addEa_vt0 (st : Strand) (k : Nat) (a : EA) : (addEa st k a).vt0 = st.vt0 := rfl
@[simp] theorem addEa_vt1 (st : Strand) (k : Nat) (a : EA) : (addEa st k a).vt1 = st.vt1 := rfl
@[simp] theorem addEa_vl (st : Strand) (k : Nat) (a : EA) : (addEa st k a).vl = st.vl := rfl
@[simp] theorem addEa_maxvl (st : Strand) (k : Nat) (a : EA) : (addEa st k a).maxvl = st.maxvl := rfl
@[simp] theorem addEa_vstart (st : Strand) (k : Nat) (a : EA) : (addEa st k a).vstart = st.vstart := rfl
@[simp] theorem addEa_vsyl (st : Strand) (k : Nat) (a : EA) : (addEa st k a).vsyl = st.vsyl := rfl
@[simp] theorem addEa_vhwm (st : Strand) (k : Nat) (a : EA) : (addEa st k a).vhwm = st.vhwm := rfl
@[simp] theorem addEa_budget (st : Strand) (k : Nat) (a : EA) : (addEa st k a).budget = st.budget := rfl
@[simp] theorem addEa_pending (st : Strand) (k : Nat) (a : EA) : (addEa st k a).pending = st.pending := rfl
@[simp] theorem addEa_dirty (st : Strand) (k : Nat) (a : EA) : (addEa st k a).dirty = st.dirty := rfl
@[simp] theorem addEa_kept (st : Strand) (k : Nat) (a : EA) : (addEa st k a).kept = st.kept := rfl
@[simp] theorem addEa_cause (st : Strand) (k : Nat) (a : EA) : (addEa st k a).cause = st.cause := rfl
@[simp] theorem addEa_epc (st : Strand) (k : Nat) (a : EA) : (addEa st k a).epc = st.epc := rfl
@[simp] theorem addEa_eval (st : Strand) (k : Nat) (a : EA) : (addEa st k a).eval = st.eval := rfl
@[simp] theorem addEa_th (st : Strand) (k : Nat) (a : EA) : (addEa st k a).th = st.th := rfl
@[simp] theorem addEa_tvec (st : Strand) (k : Nat) (a : EA) : (addEa st k a).tvec = st.tvec := rfl
@[simp] theorem addEa_barw (st : Strand) (k : Nat) (a : EA) : (addEa st k a).barw = st.barw := rfl
@[simp] theorem addEa_bargen (st : Strand) (k : Nat) (a : EA) : (addEa st k a).bargen = st.bargen := rfl
@[simp] theorem addEa_barAddr (st : Strand) (k : Nat) (a : EA) : (addEa st k a).barAddr = st.barAddr := rfl
@[simp] theorem addEa_fflags (st : Strand) (k : Nat) (a : EA) : (addEa st k a).fflags = st.fflags := rfl
@[simp] theorem addEa_spbound (st : Strand) (k : Nat) (a : EA) : (addEa st k a).spbound = st.spbound := rfl
@[simp] theorem addEa_rpt (st : Strand) (k : Nat) (a : EA) : (addEa st k a).rpt = st.rpt := rfl
@[simp] theorem addEa_cap (st : Strand) (k : Nat) (a : EA) : (addEa st k a).cap = st.cap := rfl
@[simp] theorem addEa_xkind (st : Strand) (k : Nat) (a : EA) : (addEa st k a).xkind = st.xkind := rfl
@[simp] theorem addEa_xents (st : Strand) (k : Nat) (a : EA) : (addEa st k a).xents = st.xents := rfl
@[simp] theorem addEa_race (st : Strand) (k : Nat) (a : EA) : (addEa st k a).race = st.race := rfl
@[simp] theorem addEa_wbuf (st : Strand) (k : Nat) (a : EA) : (addEa st k a).wbuf = st.wbuf := rfl
@[simp] theorem addEa_pq (st : Strand) (k : Nat) (a : EA) : (addEa st k a).pq = st.pq := rfl
@[simp] theorem addEa_marks (st : Strand) (k : Nat) (a : EA) : (addEa st k a).marks = st.marks := rfl
@[simp] theorem addEa_beforeRace (st : Strand) (k : Nat) (a : EA) : (addEa st k a).beforeRace = st.beforeRace := rfl
@[simp] theorem addEa_early (st : Strand) (k : Nat) (a : EA) : (addEa st k a).early = st.early := rfl
@[simp] theorem addEa_olds (st : Strand) (k : Nat) (a : EA) : (addEa st k a).olds = st.olds := rfl
@[simp] theorem addEa_brought (st : Strand) (k : Nat) (a : EA) : (addEa st k a).brought = st.brought := rfl
@[simp] theorem addEa_resumeAt (st : Strand) (k : Nat) (a : EA) : (addEa st k a).resumeAt = st.resumeAt := rfl
@[simp] theorem addEa_lookFuel (st : Strand) (k : Nat) (a : EA) : (addEa st k a).lookFuel = st.lookFuel := rfl
@[simp] theorem addEa_nextGrp (st : Strand) (k : Nat) (a : EA) : (addEa st k a).nextGrp = st.nextGrp := rfl
@[simp] theorem addEa_fed (st : Strand) (k : Nat) (a : EA) : (addEa st k a).fed = st.fed := rfl
@[simp] theorem addEa_armed (st : Strand) (k : Nat) (a : EA) : (addEa st k a).armed = st.armed := rfl
@[simp] theorem addEa_nextFill (st : Strand) (k : Nat) (a : EA) : (addEa st k a).nextFill = st.nextFill := rfl
@[simp] theorem addEa_outst (st : Strand) (k : Nat) (a : EA) : (addEa st k a).outst = st.outst := rfl
@[simp] theorem addEa_answers (st : Strand) (k : Nat) (a : EA) : (addEa st k a).answers = st.answers := rfl
@[simp] theorem addEa_late (st : Strand) (k : Nat) (a : EA) : (addEa st k a).late = st.late := rfl
@[simp] theorem addEa_since (st : Strand) (k : Nat) (a : EA) : (addEa st k a).since = st.since := rfl
@[simp] theorem addEa_dispOrder (st : Strand) (k : Nat) (a : EA) : (addEa st k a).dispOrder = st.dispOrder := rfl
@[simp] theorem addEa_faulted (st : Strand) (k : Nat) (a : EA) : (addEa st k a).faulted = st.faulted := rfl
@[simp] theorem addEa_reported (st : Strand) (k : Nat) (a : EA) : (addEa st k a).reported = st.reported := rfl
@[simp] theorem addEa_lateStop (st : Strand) (k : Nat) (a : EA) : (addEa st k a).lateStop = st.lateStop := rfl
@[simp] theorem addEa_fslot (st : Strand) (k : Nat) (a : EA) : (addEa st k a).fslot = st.fslot := rfl
@[simp] theorem addEa_felem (st : Strand) (k : Nat) (a : EA) : (addEa st k a).felem = st.felem := rfl
@[simp] theorem addEa_ftsc (st : Strand) (k : Nat) (a : EA) : (addEa st k a).ftsc = st.ftsc := rfl
@[simp] theorem addEa_stopOrder (st : Strand) (k : Nat) (a : EA) : (addEa st k a).stopOrder = st.stopOrder := rfl
@[simp] theorem addEa_yielded (st : Strand) (k : Nat) (a : EA) : (addEa st k a).yielded = st.yielded := rfl

/-! `swrite` -/

@[simp] theorem swrite_run (st : Strand) (r : Nat) (v : Word) : (swrite st r v).run = st.run := by unfold swrite; split <;> rfl
@[simp] theorem swrite_trunk (st : Strand) (r : Nat) (v : Word) : (swrite st r v).trunk = st.trunk := by unfold swrite; split <;> rfl
@[simp] theorem swrite_sid (st : Strand) (r : Nat) (v : Word) : (swrite st r v).sid = st.sid := by unfold swrite; split <;> rfl
@[simp] theorem swrite_rec (st : Strand) (r : Nat) (v : Word) : (swrite st r v).rec_ = st.rec_ := by unfold swrite; split <;> rfl
@[simp] theorem swrite_rank (st : Strand) (r : Nat) (v : Word) : (swrite st r v).rank = st.rank := by unfold swrite; split <;> rfl
@[simp] theorem swrite_pc (st : Strand) (r : Nat) (v : Word) : (swrite st r v).pc = st.pc := by unfold swrite; split <;> rfl
@[simp] theorem swrite_npc (st : Strand) (r : Nat) (v : Word) : (swrite st r v).npc = st.npc := by unfold swrite; split <;> rfl
@[simp] theorem swrite_preds (st : Strand) (r : Nat) (v : Word) : (swrite st r v).preds = st.preds := by unfold swrite; split <;> rfl
@[simp] theorem swrite_vregs (st : Strand) (r : Nat) (v : Word) : (swrite st r v).vregs = st.vregs := by unfold swrite; split <;> rfl
@[simp] theorem swrite_iq (st : Strand) (r : Nat) (v : Word) : (swrite st r v).iq = st.iq := by unfold swrite; split <;> rfl
@[simp] theorem swrite_oq (st : Strand) (r : Nat) (v : Word) : (swrite st r v).oq = st.oq := by unfold swrite; split <;> rfl
@[simp] theorem swrite_eas (st : Strand) (r : Nat) (v : Word) : (swrite st r v).eas = st.eas := by unfold swrite; split <;> rfl
@[simp] theorem swrite_eaPois (st : Strand) (r : Nat) (v : Word) : (swrite st r v).eaPois = st.eaPois := by unfold swrite; split <;> rfl
@[simp] theorem swrite_fds (st : Strand) (r : Nat) (v : Word) : (swrite st r v).fds = st.fds := by unfold swrite; split <;> rfl
@[simp] theorem swrite_toks (st : Strand) (r : Nat) (v : Word) : (swrite st r v).toks = st.toks := by unfold swrite; split <;> rfl
@[simp] theorem swrite_vt0 (st : Strand) (r : Nat) (v : Word) : (swrite st r v).vt0 = st.vt0 := by unfold swrite; split <;> rfl
@[simp] theorem swrite_vt1 (st : Strand) (r : Nat) (v : Word) : (swrite st r v).vt1 = st.vt1 := by unfold swrite; split <;> rfl
@[simp] theorem swrite_vl (st : Strand) (r : Nat) (v : Word) : (swrite st r v).vl = st.vl := by unfold swrite; split <;> rfl
@[simp] theorem swrite_maxvl (st : Strand) (r : Nat) (v : Word) : (swrite st r v).maxvl = st.maxvl := by unfold swrite; split <;> rfl
@[simp] theorem swrite_vstart (st : Strand) (r : Nat) (v : Word) : (swrite st r v).vstart = st.vstart := by unfold swrite; split <;> rfl
@[simp] theorem swrite_vsyl (st : Strand) (r : Nat) (v : Word) : (swrite st r v).vsyl = st.vsyl := by unfold swrite; split <;> rfl
@[simp] theorem swrite_vhwm (st : Strand) (r : Nat) (v : Word) : (swrite st r v).vhwm = st.vhwm := by unfold swrite; split <;> rfl
@[simp] theorem swrite_budget (st : Strand) (r : Nat) (v : Word) : (swrite st r v).budget = st.budget := by unfold swrite; split <;> rfl
@[simp] theorem swrite_pending (st : Strand) (r : Nat) (v : Word) : (swrite st r v).pending = st.pending := by unfold swrite; split <;> rfl
@[simp] theorem swrite_dirty (st : Strand) (r : Nat) (v : Word) : (swrite st r v).dirty = st.dirty := by unfold swrite; split <;> rfl
@[simp] theorem swrite_kept (st : Strand) (r : Nat) (v : Word) : (swrite st r v).kept = st.kept := by unfold swrite; split <;> rfl
@[simp] theorem swrite_cause (st : Strand) (r : Nat) (v : Word) : (swrite st r v).cause = st.cause := by unfold swrite; split <;> rfl
@[simp] theorem swrite_epc (st : Strand) (r : Nat) (v : Word) : (swrite st r v).epc = st.epc := by unfold swrite; split <;> rfl
@[simp] theorem swrite_eval (st : Strand) (r : Nat) (v : Word) : (swrite st r v).eval = st.eval := by unfold swrite; split <;> rfl
@[simp] theorem swrite_th (st : Strand) (r : Nat) (v : Word) : (swrite st r v).th = st.th := by unfold swrite; split <;> rfl
@[simp] theorem swrite_tvec (st : Strand) (r : Nat) (v : Word) : (swrite st r v).tvec = st.tvec := by unfold swrite; split <;> rfl
@[simp] theorem swrite_barw (st : Strand) (r : Nat) (v : Word) : (swrite st r v).barw = st.barw := by unfold swrite; split <;> rfl
@[simp] theorem swrite_bargen (st : Strand) (r : Nat) (v : Word) : (swrite st r v).bargen = st.bargen := by unfold swrite; split <;> rfl
@[simp] theorem swrite_barAddr (st : Strand) (r : Nat) (v : Word) : (swrite st r v).barAddr = st.barAddr := by unfold swrite; split <;> rfl
@[simp] theorem swrite_fflags (st : Strand) (r : Nat) (v : Word) : (swrite st r v).fflags = st.fflags := by unfold swrite; split <;> rfl
@[simp] theorem swrite_spbound (st : Strand) (r : Nat) (v : Word) : (swrite st r v).spbound = st.spbound := by unfold swrite; split <;> rfl
@[simp] theorem swrite_rpt (st : Strand) (r : Nat) (v : Word) : (swrite st r v).rpt = st.rpt := by unfold swrite; split <;> rfl
@[simp] theorem swrite_cap (st : Strand) (r : Nat) (v : Word) : (swrite st r v).cap = st.cap := by unfold swrite; split <;> rfl
@[simp] theorem swrite_xkind (st : Strand) (r : Nat) (v : Word) : (swrite st r v).xkind = st.xkind := by unfold swrite; split <;> rfl
@[simp] theorem swrite_xents (st : Strand) (r : Nat) (v : Word) : (swrite st r v).xents = st.xents := by unfold swrite; split <;> rfl
@[simp] theorem swrite_race (st : Strand) (r : Nat) (v : Word) : (swrite st r v).race = st.race := by unfold swrite; split <;> rfl
@[simp] theorem swrite_wbuf (st : Strand) (r : Nat) (v : Word) : (swrite st r v).wbuf = st.wbuf := by unfold swrite; split <;> rfl
@[simp] theorem swrite_pq (st : Strand) (r : Nat) (v : Word) : (swrite st r v).pq = st.pq := by unfold swrite; split <;> rfl
@[simp] theorem swrite_marks (st : Strand) (r : Nat) (v : Word) : (swrite st r v).marks = st.marks := by unfold swrite; split <;> rfl
@[simp] theorem swrite_beforeRace (st : Strand) (r : Nat) (v : Word) : (swrite st r v).beforeRace = st.beforeRace := by unfold swrite; split <;> rfl
@[simp] theorem swrite_early (st : Strand) (r : Nat) (v : Word) : (swrite st r v).early = st.early := by unfold swrite; split <;> rfl
@[simp] theorem swrite_olds (st : Strand) (r : Nat) (v : Word) : (swrite st r v).olds = st.olds := by unfold swrite; split <;> rfl
@[simp] theorem swrite_brought (st : Strand) (r : Nat) (v : Word) : (swrite st r v).brought = st.brought := by unfold swrite; split <;> rfl
@[simp] theorem swrite_resumeAt (st : Strand) (r : Nat) (v : Word) : (swrite st r v).resumeAt = st.resumeAt := by unfold swrite; split <;> rfl
@[simp] theorem swrite_lookFuel (st : Strand) (r : Nat) (v : Word) : (swrite st r v).lookFuel = st.lookFuel := by unfold swrite; split <;> rfl
@[simp] theorem swrite_nextGrp (st : Strand) (r : Nat) (v : Word) : (swrite st r v).nextGrp = st.nextGrp := by unfold swrite; split <;> rfl
@[simp] theorem swrite_fed (st : Strand) (r : Nat) (v : Word) : (swrite st r v).fed = st.fed := by unfold swrite; split <;> rfl
@[simp] theorem swrite_armed (st : Strand) (r : Nat) (v : Word) : (swrite st r v).armed = st.armed := by unfold swrite; split <;> rfl
@[simp] theorem swrite_nextFill (st : Strand) (r : Nat) (v : Word) : (swrite st r v).nextFill = st.nextFill := by unfold swrite; split <;> rfl
@[simp] theorem swrite_outst (st : Strand) (r : Nat) (v : Word) : (swrite st r v).outst = st.outst := by unfold swrite; split <;> rfl
@[simp] theorem swrite_answers (st : Strand) (r : Nat) (v : Word) : (swrite st r v).answers = st.answers := by unfold swrite; split <;> rfl
@[simp] theorem swrite_late (st : Strand) (r : Nat) (v : Word) : (swrite st r v).late = st.late := by unfold swrite; split <;> rfl
@[simp] theorem swrite_since (st : Strand) (r : Nat) (v : Word) : (swrite st r v).since = st.since := by unfold swrite; split <;> rfl
@[simp] theorem swrite_dispOrder (st : Strand) (r : Nat) (v : Word) : (swrite st r v).dispOrder = st.dispOrder := by unfold swrite; split <;> rfl
@[simp] theorem swrite_faulted (st : Strand) (r : Nat) (v : Word) : (swrite st r v).faulted = st.faulted := by unfold swrite; split <;> rfl
@[simp] theorem swrite_reported (st : Strand) (r : Nat) (v : Word) : (swrite st r v).reported = st.reported := by unfold swrite; split <;> rfl
@[simp] theorem swrite_lateStop (st : Strand) (r : Nat) (v : Word) : (swrite st r v).lateStop = st.lateStop := by unfold swrite; split <;> rfl
@[simp] theorem swrite_fslot (st : Strand) (r : Nat) (v : Word) : (swrite st r v).fslot = st.fslot := by unfold swrite; split <;> rfl
@[simp] theorem swrite_felem (st : Strand) (r : Nat) (v : Word) : (swrite st r v).felem = st.felem := by unfold swrite; split <;> rfl
@[simp] theorem swrite_ftsc (st : Strand) (r : Nat) (v : Word) : (swrite st r v).ftsc = st.ftsc := by unfold swrite; split <;> rfl
@[simp] theorem swrite_stopOrder (st : Strand) (r : Nat) (v : Word) : (swrite st r v).stopOrder = st.stopOrder := by unfold swrite; split <;> rfl
@[simp] theorem swrite_yielded (st : Strand) (r : Nat) (v : Word) : (swrite st r v).yielded = st.yielded := by unfold swrite; split <;> rfl

/-! `predSet` -/

@[simp] theorem predSet_run (st : Strand) (p : Nat) (l : List (Nat × Bool)) : (predSet st p l).run = st.run := by unfold predSet; split <;> rfl
@[simp] theorem predSet_trunk (st : Strand) (p : Nat) (l : List (Nat × Bool)) : (predSet st p l).trunk = st.trunk := by unfold predSet; split <;> rfl
@[simp] theorem predSet_sid (st : Strand) (p : Nat) (l : List (Nat × Bool)) : (predSet st p l).sid = st.sid := by unfold predSet; split <;> rfl
@[simp] theorem predSet_rec (st : Strand) (p : Nat) (l : List (Nat × Bool)) : (predSet st p l).rec_ = st.rec_ := by unfold predSet; split <;> rfl
@[simp] theorem predSet_rank (st : Strand) (p : Nat) (l : List (Nat × Bool)) : (predSet st p l).rank = st.rank := by unfold predSet; split <;> rfl
@[simp] theorem predSet_pc (st : Strand) (p : Nat) (l : List (Nat × Bool)) : (predSet st p l).pc = st.pc := by unfold predSet; split <;> rfl
@[simp] theorem predSet_npc (st : Strand) (p : Nat) (l : List (Nat × Bool)) : (predSet st p l).npc = st.npc := by unfold predSet; split <;> rfl
@[simp] theorem predSet_regs (st : Strand) (p : Nat) (l : List (Nat × Bool)) : (predSet st p l).regs = st.regs := by unfold predSet; split <;> rfl
@[simp] theorem predSet_vregs (st : Strand) (p : Nat) (l : List (Nat × Bool)) : (predSet st p l).vregs = st.vregs := by unfold predSet; split <;> rfl
@[simp] theorem predSet_iq (st : Strand) (p : Nat) (l : List (Nat × Bool)) : (predSet st p l).iq = st.iq := by unfold predSet; split <;> rfl
@[simp] theorem predSet_oq (st : Strand) (p : Nat) (l : List (Nat × Bool)) : (predSet st p l).oq = st.oq := by unfold predSet; split <;> rfl
@[simp] theorem predSet_eas (st : Strand) (p : Nat) (l : List (Nat × Bool)) : (predSet st p l).eas = st.eas := by unfold predSet; split <;> rfl
@[simp] theorem predSet_eaPois (st : Strand) (p : Nat) (l : List (Nat × Bool)) : (predSet st p l).eaPois = st.eaPois := by unfold predSet; split <;> rfl
@[simp] theorem predSet_fds (st : Strand) (p : Nat) (l : List (Nat × Bool)) : (predSet st p l).fds = st.fds := by unfold predSet; split <;> rfl
@[simp] theorem predSet_toks (st : Strand) (p : Nat) (l : List (Nat × Bool)) : (predSet st p l).toks = st.toks := by unfold predSet; split <;> rfl
@[simp] theorem predSet_vt0 (st : Strand) (p : Nat) (l : List (Nat × Bool)) : (predSet st p l).vt0 = st.vt0 := by unfold predSet; split <;> rfl
@[simp] theorem predSet_vt1 (st : Strand) (p : Nat) (l : List (Nat × Bool)) : (predSet st p l).vt1 = st.vt1 := by unfold predSet; split <;> rfl
@[simp] theorem predSet_vl (st : Strand) (p : Nat) (l : List (Nat × Bool)) : (predSet st p l).vl = st.vl := by unfold predSet; split <;> rfl
@[simp] theorem predSet_maxvl (st : Strand) (p : Nat) (l : List (Nat × Bool)) : (predSet st p l).maxvl = st.maxvl := by unfold predSet; split <;> rfl
@[simp] theorem predSet_vstart (st : Strand) (p : Nat) (l : List (Nat × Bool)) : (predSet st p l).vstart = st.vstart := by unfold predSet; split <;> rfl
@[simp] theorem predSet_vsyl (st : Strand) (p : Nat) (l : List (Nat × Bool)) : (predSet st p l).vsyl = st.vsyl := by unfold predSet; split <;> rfl
@[simp] theorem predSet_vhwm (st : Strand) (p : Nat) (l : List (Nat × Bool)) : (predSet st p l).vhwm = st.vhwm := by unfold predSet; split <;> rfl
@[simp] theorem predSet_budget (st : Strand) (p : Nat) (l : List (Nat × Bool)) : (predSet st p l).budget = st.budget := by unfold predSet; split <;> rfl
@[simp] theorem predSet_pending (st : Strand) (p : Nat) (l : List (Nat × Bool)) : (predSet st p l).pending = st.pending := by unfold predSet; split <;> rfl
@[simp] theorem predSet_dirty (st : Strand) (p : Nat) (l : List (Nat × Bool)) : (predSet st p l).dirty = st.dirty := by unfold predSet; split <;> rfl
@[simp] theorem predSet_kept (st : Strand) (p : Nat) (l : List (Nat × Bool)) : (predSet st p l).kept = st.kept := by unfold predSet; split <;> rfl
@[simp] theorem predSet_cause (st : Strand) (p : Nat) (l : List (Nat × Bool)) : (predSet st p l).cause = st.cause := by unfold predSet; split <;> rfl
@[simp] theorem predSet_epc (st : Strand) (p : Nat) (l : List (Nat × Bool)) : (predSet st p l).epc = st.epc := by unfold predSet; split <;> rfl
@[simp] theorem predSet_eval (st : Strand) (p : Nat) (l : List (Nat × Bool)) : (predSet st p l).eval = st.eval := by unfold predSet; split <;> rfl
@[simp] theorem predSet_th (st : Strand) (p : Nat) (l : List (Nat × Bool)) : (predSet st p l).th = st.th := by unfold predSet; split <;> rfl
@[simp] theorem predSet_tvec (st : Strand) (p : Nat) (l : List (Nat × Bool)) : (predSet st p l).tvec = st.tvec := by unfold predSet; split <;> rfl
@[simp] theorem predSet_barw (st : Strand) (p : Nat) (l : List (Nat × Bool)) : (predSet st p l).barw = st.barw := by unfold predSet; split <;> rfl
@[simp] theorem predSet_bargen (st : Strand) (p : Nat) (l : List (Nat × Bool)) : (predSet st p l).bargen = st.bargen := by unfold predSet; split <;> rfl
@[simp] theorem predSet_barAddr (st : Strand) (p : Nat) (l : List (Nat × Bool)) : (predSet st p l).barAddr = st.barAddr := by unfold predSet; split <;> rfl
@[simp] theorem predSet_fflags (st : Strand) (p : Nat) (l : List (Nat × Bool)) : (predSet st p l).fflags = st.fflags := by unfold predSet; split <;> rfl
@[simp] theorem predSet_spbound (st : Strand) (p : Nat) (l : List (Nat × Bool)) : (predSet st p l).spbound = st.spbound := by unfold predSet; split <;> rfl
@[simp] theorem predSet_rpt (st : Strand) (p : Nat) (l : List (Nat × Bool)) : (predSet st p l).rpt = st.rpt := by unfold predSet; split <;> rfl
@[simp] theorem predSet_cap (st : Strand) (p : Nat) (l : List (Nat × Bool)) : (predSet st p l).cap = st.cap := by unfold predSet; split <;> rfl
@[simp] theorem predSet_xkind (st : Strand) (p : Nat) (l : List (Nat × Bool)) : (predSet st p l).xkind = st.xkind := by unfold predSet; split <;> rfl
@[simp] theorem predSet_xents (st : Strand) (p : Nat) (l : List (Nat × Bool)) : (predSet st p l).xents = st.xents := by unfold predSet; split <;> rfl
@[simp] theorem predSet_race (st : Strand) (p : Nat) (l : List (Nat × Bool)) : (predSet st p l).race = st.race := by unfold predSet; split <;> rfl
@[simp] theorem predSet_wbuf (st : Strand) (p : Nat) (l : List (Nat × Bool)) : (predSet st p l).wbuf = st.wbuf := by unfold predSet; split <;> rfl
@[simp] theorem predSet_pq (st : Strand) (p : Nat) (l : List (Nat × Bool)) : (predSet st p l).pq = st.pq := by unfold predSet; split <;> rfl
@[simp] theorem predSet_marks (st : Strand) (p : Nat) (l : List (Nat × Bool)) : (predSet st p l).marks = st.marks := by unfold predSet; split <;> rfl
@[simp] theorem predSet_beforeRace (st : Strand) (p : Nat) (l : List (Nat × Bool)) : (predSet st p l).beforeRace = st.beforeRace := by unfold predSet; split <;> rfl
@[simp] theorem predSet_early (st : Strand) (p : Nat) (l : List (Nat × Bool)) : (predSet st p l).early = st.early := by unfold predSet; split <;> rfl
@[simp] theorem predSet_olds (st : Strand) (p : Nat) (l : List (Nat × Bool)) : (predSet st p l).olds = st.olds := by unfold predSet; split <;> rfl
@[simp] theorem predSet_brought (st : Strand) (p : Nat) (l : List (Nat × Bool)) : (predSet st p l).brought = st.brought := by unfold predSet; split <;> rfl
@[simp] theorem predSet_resumeAt (st : Strand) (p : Nat) (l : List (Nat × Bool)) : (predSet st p l).resumeAt = st.resumeAt := by unfold predSet; split <;> rfl
@[simp] theorem predSet_lookFuel (st : Strand) (p : Nat) (l : List (Nat × Bool)) : (predSet st p l).lookFuel = st.lookFuel := by unfold predSet; split <;> rfl
@[simp] theorem predSet_nextGrp (st : Strand) (p : Nat) (l : List (Nat × Bool)) : (predSet st p l).nextGrp = st.nextGrp := by unfold predSet; split <;> rfl
@[simp] theorem predSet_fed (st : Strand) (p : Nat) (l : List (Nat × Bool)) : (predSet st p l).fed = st.fed := by unfold predSet; split <;> rfl
@[simp] theorem predSet_armed (st : Strand) (p : Nat) (l : List (Nat × Bool)) : (predSet st p l).armed = st.armed := by unfold predSet; split <;> rfl
@[simp] theorem predSet_nextFill (st : Strand) (p : Nat) (l : List (Nat × Bool)) : (predSet st p l).nextFill = st.nextFill := by unfold predSet; split <;> rfl
@[simp] theorem predSet_outst (st : Strand) (p : Nat) (l : List (Nat × Bool)) : (predSet st p l).outst = st.outst := by unfold predSet; split <;> rfl
@[simp] theorem predSet_answers (st : Strand) (p : Nat) (l : List (Nat × Bool)) : (predSet st p l).answers = st.answers := by unfold predSet; split <;> rfl
@[simp] theorem predSet_late (st : Strand) (p : Nat) (l : List (Nat × Bool)) : (predSet st p l).late = st.late := by unfold predSet; split <;> rfl
@[simp] theorem predSet_since (st : Strand) (p : Nat) (l : List (Nat × Bool)) : (predSet st p l).since = st.since := by unfold predSet; split <;> rfl
@[simp] theorem predSet_dispOrder (st : Strand) (p : Nat) (l : List (Nat × Bool)) : (predSet st p l).dispOrder = st.dispOrder := by unfold predSet; split <;> rfl
@[simp] theorem predSet_faulted (st : Strand) (p : Nat) (l : List (Nat × Bool)) : (predSet st p l).faulted = st.faulted := by unfold predSet; split <;> rfl
@[simp] theorem predSet_reported (st : Strand) (p : Nat) (l : List (Nat × Bool)) : (predSet st p l).reported = st.reported := by unfold predSet; split <;> rfl
@[simp] theorem predSet_lateStop (st : Strand) (p : Nat) (l : List (Nat × Bool)) : (predSet st p l).lateStop = st.lateStop := by unfold predSet; split <;> rfl
@[simp] theorem predSet_fslot (st : Strand) (p : Nat) (l : List (Nat × Bool)) : (predSet st p l).fslot = st.fslot := by unfold predSet; split <;> rfl
@[simp] theorem predSet_felem (st : Strand) (p : Nat) (l : List (Nat × Bool)) : (predSet st p l).felem = st.felem := by unfold predSet; split <;> rfl
@[simp] theorem predSet_ftsc (st : Strand) (p : Nat) (l : List (Nat × Bool)) : (predSet st p l).ftsc = st.ftsc := by unfold predSet; split <;> rfl
@[simp] theorem predSet_stopOrder (st : Strand) (p : Nat) (l : List (Nat × Bool)) : (predSet st p l).stopOrder = st.stopOrder := by unfold predSet; split <;> rfl
@[simp] theorem predSet_yielded (st : Strand) (p : Nat) (l : List (Nat × Bool)) : (predSet st p l).yielded = st.yielded := by unfold predSet; split <;> rfl

/-! What the updates leave in the fields that they write. -/

@[simp] theorem strandOf_putStrand_same (s : State) (n : Nat) (st : Strand) : strandOf (putStrand s n st) n = st := by
  simp [strandOf, putStrand]

theorem strandOf_putStrand_ne (s : State) (n k : Nat) (st : Strand) (h : k ≠ n) :
    strandOf (putStrand s n st) k = strandOf s k := by
  simp [strandOf, putStrand, NMap.getD_set_ne _ _ _ _ _ h]

@[simp] theorem me_putMe (s : State) (st : Strand) : me (putMe s st) = st := by simp [me, putMe]

theorem strandOf_putMe_ne (s : State) (k : Nat) (st : Strand) (h : k ≠ s.cur) : strandOf (putMe s st) k = strandOf s k := by
  simp [putMe, strandOf_putStrand_ne _ _ _ _ h]

@[simp] theorem putMe_strands_back (s : State) (st : Strand) : { putMe s st with strands := s.strands } = s := rfl

@[simp] theorem putMe_putMe_me (s : State) (a b : Strand) : me (putMe (putMe s a) b) = b := by simp

theorem sread_swrite (st : Strand) (r k : Nat) (v : Word) (hk : k < 32) :
    sread (swrite st r v) k = if k = 0 then 0 else if k = r then v else sread st k := by
  unfold sread swrite
  split
  · rfl
  · split
    · subst_vars; simp_all
    · simp [putAt_get? _ _ _ _ _ _ hk]

theorem getS_setS (s : State) (sd r : BitVec 5) (v : Word) :
    getS (setS s sd v) r = if r = 0 then 0 else if r = sd then v else getS s r := by
  have h := sread_swrite (me s) sd.toNat r.toNat v r.isLt
  simp only [getS, setS, me_putMe, h, BitVec.toNat_eq]
  rfl

@[simp] theorem dispOf_putDisp (s : State) (d : Nat) (x : Dispatcher) : dispOf (putDisp s d x) d = x := by simp [dispOf, putDisp]
@[simp] theorem queueOf_putQueue (s : State) (q : Nat) (x : WorkQueue) : queueOf (putQueue s q x) q = x := by simp [queueOf, putQueue]
@[simp] theorem tenantOf_putTenant (s : State) (q : Nat) (x : Tenant) : tenantOf (putTenant s q x) q = x := by simp [tenantOf, putTenant]
@[simp] theorem raceOf_putRace (s : State) (q : Nat) (x : RaceCtx) : raceOf (putRace s q x) q = x := by simp [raceOf, putRace]

theorem tokOf_setTok (st : Strand) (k j : Nat) (t : Token) (h : j < 8) : tokOf (setTok st k t) j = if j = k then t else tokOf st j := by
  simp [tokOf, setTok, putAt_get? _ _ _ _ _ _ h]

theorem iqOf_setIq (st : Strand) (k j : Nat) (q : List Group) (h : j < 4) : iqOf (setIq st k q) j = if j = k then q else iqOf st j := by
  simp [iqOf, setIq, putAt_get? _ _ _ _ _ _ h]

theorem oqOf_setOq (st : Strand) (k j : Nat) (q : List Group) (h : j < 4) : oqOf (setOq st k q) j = if j = k then q else oqOf st j := by
  simp [oqOf, setOq, putAt_get? _ _ _ _ _ _ h]

end Sys2Proof.Machine
end

