-- ==== Sys2Proof/Laws/Frames.lean ====
section
/-! SUPPORT. What the shared operations on the issuing strand leave: the frames of `Safety`. -/

namespace Sys2Proof.Machine

theorem sameMemory_of_ord (s t : State) (h : t.ord = s.ord) : SameMemory s t := ⟨fun _ _ => by rw [h], fun _ => by rw [h]⟩

theorem onlyMe_refl (s : State) : OnlyMe s s := ⟨rfl, fun _ _ => rfl, sameMemory_of_ord _ _ rfl⟩

theorem onlyMe_putMe (s : State) (st : Strand) : OnlyMe s (putMe s st) :=
  ⟨rfl, fun k h => strandOf_putMe_ne s k st h, sameMemory_of_ord _ _ rfl⟩

theorem onlyMe_setS (s : State) (r : BitVec 5) (v : Word) : OnlyMe s (setS s r v) := onlyMe_putMe _ _

theorem meBecomes_putMe (s : State) (st : Strand) : MeBecomes s (putMe s st) st := ⟨onlyMe_putMe _ _, me_putMe _ _⟩

theorem meBecomes_refl (s : State) : MeBecomes s s (me s) := ⟨onlyMe_refl _, rfl⟩

@[simp] theorem me_setS (s : State) (r : BitVec 5) (v : Word) : me (setS s r v) = swrite (me s) r.toNat v := me_putMe _ _

/-- A write to a scalar register changes no other field of the strand. -/
theorem swrite_regs (st : Strand) (r : Nat) (v : Word) : { swrite st r v with regs := st.regs } = st := by
  unfold swrite
  split <;> rfl

/-- Reading a scalar register after a write. -/
theorem regsAfter_setS (s : State) (r : BitVec 5) (v : Word) : RegsAfter s (setS s r v) r v := fun k => getS_setS s r k v

theorem writesReg_setS (s : State) (r : BitVec 5) (v : Word) : WritesReg s (setS s r v) r v :=
  ⟨onlyMe_setS _ _ _, by rw [me_setS]; exact swrite_regs _ _ _, regsAfter_setS _ _ _⟩

end Sys2Proof.Machine
end

