-- ==== Sys2Proof/Laws/Access.lean ====
section
/-! SUPPORT. What the shared operations of accesses give where nothing holds them: reads at issue, the scan of a vector access, its reads
and its queued stores. -/

namespace Sys2Proof.Machine

/-- An access of a strand that has nothing earlier to wait for goes at once. -/
theorem makeWay_quiet (s : State) (a : Access) (h : Quiet (me s)) (hm : a.mark = 2 ^ 64) : makeWay s a = some s := by
  obtain ⟨h1, h2, h3, h4⟩ := h
  rw [← hm] at h2
  simp [makeWay, mayLeave, heldBy, h1, h2, h3, h4]

/-- An access without release goes at once where the issue stream is empty. -/
theorem makeWay_plain (s : State) (a : Access) (h1 : streamOf (me s) = []) (h2 : a.rel = false) : makeWay s a = some s := by
  simp [makeWay, mayLeave, heldBy, h1, h2]

/-- A strand that has read nothing before its turn finds no value of its own. -/
theorem earlyOf_nil (s : State) (e : Nat) (a : Access) (h : (me s).early = []) : earlyOf s e a = none := by simp [earlyOf, h]

/-- A read that goes at once, at a place of this package without poison, gives its bytes and changes nothing. -/
theorem readNow_local (s : State) (e : Nat) (a : Access) (b : List Byte) (h : makeWay s a = some s) (hl : s.look = none) (he : (me s).early = [])
    (hb : localBytes s a.place a.size = some b) : readNow s e a = .bytes b 0 s := by
  unfold readNow
  rw [earlyOf_nil s e a he, hl, h]
  unfold localBytes at hb
  unfold localRead
  cases hp : a.place <;> simp only [hp] at hb ⊢ <;> first | (split at hb <;> simp_all) | simp_all

/-- The TLB may take leaves; nothing else changes. -/
theorem tlbFill_eq (s : State) (st : Strand) (va : Word) : ∃ l, tlbFill s st va = { s with tlb := l } := by
  unfold tlbFill
  split
  · exact ⟨s.tlb, rfl⟩
  · split
    · exact ⟨s.tlb, rfl⟩
    · split
      · exact ⟨s.tlb, rfl⟩
      · exact ⟨_, rfl⟩

theorem fillEls_eq (s : State) (els : List (El × Option Place)) : ∃ l, fillEls s els = { s with tlb := l } := by
  unfold fillEls
  induction els generalizing s with
  | nil => exact ⟨s.tlb, rfl⟩
  | cons x t ih =>
    simp only [List.foldl_cons]
    split
    · obtain ⟨l, hl⟩ := tlbFill_eq s (me s) x.1.va
      rw [hl]
      obtain ⟨l2, h2⟩ := ih { s with tlb := l }
      exact ⟨l2, h2⟩
    · exact ih s

/-- A scan in which every active element passes its checks. -/
theorem scanFrom_ok (s : State) (st : Strand) (acc : Acc) (n : Nat) (els : List El) (p : Nat → Place)
    (h : ∀ e ∈ els, e.act = true → checkElem s st acc n e.va = .ok (p e.i)) :
    scanFrom s st acc n els = (els.map fun e => (e, if e.act then some (p e.i) else none), none) := by
  induction els with
  | nil => rfl
  | cons e t ih =>
    have ht := ih fun x hx => h x (by simp [hx])
    cases ha : e.act with
    | true =>
      have hc := h e (by simp) ha
      simp [scanFrom, ha, hc, ht]
    | false => simp [scanFrom, ha, ht]

theorem scanEls_ok (s : State) (st : Strand) (acc : Acc) (n : Nat) (els : List El) (p : Nat → Place)
    (h : ∀ e ∈ els, e.act = true → checkElem s st acc n e.va = .ok (p e.i)) :
    scanEls s st acc n els = { els := els.map fun e => (e, if e.act then some (p e.i) else none), stop := none, tok := none, vl := st.vl } := by
  simp [scanEls, scanFrom_ok s st acc n els p h]

/-- A token whose copy has ended without a fault holds nothing. -/
theorem elHeld_idle (t : Token) (n : Nat) (e : El × Option Place) (h : t.busy = false) (hp : t.pend = false) : elHeld t n e = false := by
  simp [elHeld, tokHolds, h, hp]

theorem tokScan_free (st : Strand) (wait : Bool) (tk n : Nat) (sc : Scan)
    (h : wait = true → (tokOf st tk).busy = false ∧ (tokOf st tk).pend = false) : tokScan st wait tk n sc = (sc, fun _ => false) := by
  unfold tokScan
  cases wait with
  | false => rfl
  | true =>
    obtain ⟨h1, h2⟩ := h rfl
    have : elHeld (tokOf st tk) n = fun _ => false := funext fun e => elHeld_idle _ _ _ h1 h2
    simp [h2, this]

/-- A load whose active elements all lie at places of this package asks no other package. -/
theorem askAll_local (s : State) (mk : Place → Word → Access) (els : List (El × Option Place))
    (h : ∀ x ∈ els, ∀ p, x.2 = some p → isPeer p = false) : askAll s mk els = none := by
  unfold askAll
  generalize hm : List.filterMap _ els = m
  cases m with
  | nil => simp
  | cons y t =>
    have hy : y ∈ y :: t := by simp
    rw [← hm, List.mem_filterMap] at hy
    obtain ⟨x, hx, he⟩ := hy
    have := h x hx
    cases hp : x.2 with
    | none => simp [hp] at he
    | some p => cases p <;> simp_all [isPeer]

/-- Reads that all go at once give the values in index order, zero bits for an inactive element. -/
theorem loadEls_ok (rd : State → El → Place → Got) (s : State) (els : List (El × Option Place)) (v : El → List Byte)
    (h : ∀ x ∈ els, ∀ p, x.2 = some p → rd s x.1 p = .bytes (v x.1) 0 s) :
    loadEls rd (fun _ => false) s els = .done (els.map fun x => if x.2.isSome then (numOf (v x.1), true) else (0, false)) s := by
  induction els with
  | nil => rfl
  | cons x t ih =>
    obtain ⟨e, p⟩ := x
    have ht := ih fun y hy => h y (by simp [hy])
    cases p with
    | none => simp [loadEls, ht]
    | some p =>
      have hr := h (e, some p) (by simp) p rfl
      simp only at hr
      simp [loadEls, ht, hr]

/-- A place that this package reads itself is not on another package. -/
theorem local_not_peer (s : State) (p : Place) (n : Nat) (b : List Byte) (h : localBytes s p n = some b) : isPeer p = false := by
  cases p <;> simp_all [localBytes, isPeer]

/-- The TLB does not bear on what a place holds. -/
theorem localBytes_tlb (s : State) (l : List TlbEntry) (p : Place) (n : Nat) : localBytes { s with tlb := l } p n = localBytes s p n := by
  cases p <;> rfl

/-- A vector load whose reads all go at once pushes its elements. -/
theorem loadRun_ok (s : State) (q w start n : Nat) (ordered : Bool) (ord : BitVec 2) (els : List El) (upd : Strand → Strand)
   (updAt : Nat → Strand → Strand) (p : Nat → Place) (b : Nat → List Byte) (hf : Fresh s) (hq : Quiet (me s))
   (hb : ∀ e ∈ els, e.act = true → localBytes s (p e.i) n = some (b e.i)) :
   ∃ l, loadRun s q w start ordered (vmAcc .read n ord)
       { els := els.map fun e => (e, if e.act then some (p e.i) else none), stop := none, tok := none, vl := (me s).vl } (fun _ => false) upd updAt =
    .ok (putMe { s with tlb := l } { setIq (upd (me s)) q (qpush (iqOf (upd (me s)) q) start w (els.map fun e => if e.act then (numOf (b e.i), true) else (0, false))) with vl := (me s).vl }) := by
  have ha : ∀ mk, askAll s mk (els.map fun e => (e, if e.act then some (p e.i) else none)) = none := by
    intro mk
    apply askAll_local
    intro x hx q hq
    simp only [List.mem_map] at hx
    obtain ⟨e, he, rfl⟩ := hx
    by_cases hact : e.act = true
    · simp [hact] at hq; subst hq; exact local_not_peer _ _ _ _ (hb e he hact)
    · simp [hact] at hq
  obtain ⟨l, hl⟩ := fillEls_eq s (els.map fun e => (e, if e.act then some (p e.i) else none))
  refine ⟨l, ?_⟩
  unfold loadRun
  have hfil : ∀ x : List (El × Option Place), (x.filter fun _ => !false) = x := fun x => by simp
  simp only [hfil, ha, hl, ite_self]
  have hm : me { s with tlb := l } = me s := rfl
  rw [loadEls_ok (v := fun e => b e.i)]
  · have hl2 : ((els.map fun e => (e, if e.act then some (p e.i) else none)).map fun x => if x.2.isSome then (numOf (b x.1.i), true) else (0, false)) =
        els.map fun e => if e.act then (numOf (b e.i), true) else (0, false) := by
      rw [List.map_map]
      apply List.map_congr_left
      intro e he
      by_cases hact : e.act = true <;> simp [hact]
    simp only [loadFinish, hm, hl2]
  · intro x hx q hq'
    simp only [List.mem_map] at hx
    obtain ⟨e, he, rfl⟩ := hx
    by_cases hact : e.act = true
    · simp [hact] at hq'; subst hq'
      apply readNow_local
      · exact makeWay_quiet _ _ (by rw [hm]; exact hq) rfl
      · exact hf.1
      · rw [hm]; exact hf.2.1
      · exact (localBytes_tlb _ _ _ _).trans (hb e he hact)
    · simp [hact] at hq'

/-- The elements of an access that takes marks and data from queues. -/
theorem elsOf_mem (start vl : Nat) (addr : Nat → Word) (marks : List Bool) (data : List Nat) (e : El) (h : e ∈ elsOf start vl addr marks data) :
   start ≤ e.i ∧ e.i < vl ∧ e.va = addr e.i ∧ e.act = marks.getD (e.i - start) false ∧ e.data = data.getD (e.i - start) 0 := by
  simp only [elsOf, List.mem_map, List.mem_range] at h
  obtain ⟨k, hk, rfl⟩ := h
  simp; omega

/-- The elements of an access whose elements are all active. -/
theorem elsAll_mem (start vl : Nat) (addr : Nat → Word) (e : El) (h : e ∈ elsAll start vl addr) :
    start ≤ e.i ∧ e.i < vl ∧ e.va = addr e.i ∧ e.act = true := by
  simp only [elsAll, List.mem_map, List.mem_range] at h
  obtain ⟨k, hk, rfl⟩ := h
  simp
  omega

theorem mem_visited (s : State) (k : Nat) : k ∈ visited s ↔ startOf s ≤ k ∧ k < (me s).vl := by
  simp only [visited, List.mem_map, List.mem_range]
  constructor
  · rintro ⟨j, hj, rfl⟩; omega
  · rintro ⟨h1, h2⟩; exact ⟨k - startOf s, by omega, by omega⟩

/-- The queued accesses of a store are those of its active elements, in index order. -/
theorem groupItems_ok (g : Nat) (ordered : Bool) (mk : El → Place → Access) (els : List El) (p : Nat → Place) :
    groupItems g ordered mk (els.map fun e => (e, if e.act then some (p e.i) else none)) =
      (els.filter (·.act)).map fun e => QItem.acc { mk e (p e.i) with group := g, ordered := ordered } := by
  induction els with
  | nil => rfl
  | cons e t ih =>
    unfold groupItems at ih ⊢
    cases he : e.act <;> simp_all

/-- An element of a mapped list. -/
theorem getDm {α β : Type} (l : List α) (f : α → β) (d : α) (e : β) (he : f d = e) (k : Nat) : (l.map f).getD k e = f (l.getD k d) := by
  subst he; rw [List.getD_map]
/-- A change of the issuing strand on top of new TLB entries. -/
theorem onlyMe_tlb (s : State) (l : List TlbEntry) (st : Strand) : OnlyMe { s with tlb := (putMe { s with tlb := l } st).tlb } (putMe { s with tlb := l } st) := onlyMe_putMe _ _

/-- The place of an item in its convoy does not bear on the group numbers. -/
theorem lastGroup_mark (st st1 : Strand) (k : Nat) (l : List QItem) : lastGroup st (l.map (markItem st1 k)) = lastGroup st l := by
  unfold lastGroup
  rw [List.foldl_map]
  congr 1
  funext m x
  cases x <;> rfl

/-- What a syllable that is issued for the first time adds to the issue stream. -/
theorem addItems_fresh (st : Strand) (k : Nat) (l : List QItem) (h : hasEntered st k = false) :
    addItems st k l = withItems st (l.map (markItem st k)) := by
  simp [addItems, h, withItems, lastGroup_mark]

/-- A store whose elements all pass queues the accesses of its active elements. -/
theorem storeRun_ok (s : State) (els : List El) (p : Nat → Place) (F : AccessForm) (ordered : Bool) (mk : El → Place → Access) (upd : Strand → Strand)
   (updAt : Nat → Strand → Strand) (hi : els.map (·.i) = visited s) (ha : ∀ e ∈ els, e.act = F.act e.i)
   (hmk : ∀ e ∈ els, e.act = true → { mk e (p e.i) with group := nextGroup (me s), ordered := ordered, slot := s.slot, mark := (me s).armed } =
      { path := .ls, place := p e.i, va := F.addr e.i, size := F.n, kind := F.kind e.i, rel := decide (2 ≤ F.ord.toNat),
           acq := F.ord.toNat % 2 == 1, dom := true, group := nextGroup (me s), ordered := F.ordered, fill := none, slot := s.slot,
           mark := (me s).armed })
   (hu : upd (me s) = F.used (me s)) (hv : (F.used (me s)).vl = (me s).vl)
   (hr : (F.used (me s)).armed = (me s).armed) (hn : hasEntered (me s) s.slot = false) (hg : hasEntered (F.used (me s)) s.slot = false) :
   ∃ t, finish s (storeRun s
       { els := els.map fun e => (e, if e.act then some (p e.i) else none), stop := none, tok := none, vl := (me s).vl } ordered mk upd updAt) = .next t ∧
      OnlyMe { s with tlb := t.tlb } t ∧ me t = withItems (F.used (me s)) (storedItems s F p fun _ => none) := by
  obtain ⟨l, hl⟩ := fillEls_eq s (els.map fun e => (e, if e.act then some (p e.i) else none))
  have hm : me { s with tlb := l } = me s := rfl
  have hit : (groupItems (nextGroup (me s)) ordered mk (els.map fun e => (e, if e.act then some (p e.i) else none))).map
      (markItem (F.used (me s)) s.slot) = storedItems s F p fun _ => none := by
    rw [groupItems_ok, List.map_map]
    unfold storedItems
    rw [← hi, List.filter_map, List.map_map]
    have : els.filter (F.act ∘ fun x => x.i) = els.filter (·.act) := by
      apply List.filter_congr; intro e he; simp [ha e he]
    rw [this]
    apply List.map_congr_left
    intro e he
    rw [List.mem_filter] at he
    simp only [Function.comp_apply, markItem, hr]
    exact congrArg QItem.acc (hmk e he.1 he.2)
  refine ⟨_, by simp only [storeRun, hn]; rfl, ?_, ?_⟩
  · rw [hl]; exact onlyMe_tlb _ _ _
  · rw [hl]
    simp only [hm, me_putMe, hu, addItems_fresh _ _ _ hg, hit]
    rw [← hv]
    rfl

theorem elsOf_i (s : State) (addr : Nat → Word) (a : List Bool) (b : List Nat) : (elsOf (startOf s) (me s).vl addr a b).map (·.i) = visited s := by
  simp [elsOf, visited, List.map_map, Function.comp_def]

end Sys2Proof.Machine
end

