-- ==== Sys2Proof/Laws/Memory.lean ====
section
/-! SUPPORT. Memory: a read after a write, and that every memory operation keeps the canonical form. -/

namespace Sys2Proof.Machine

/-! ## The canonical form -/

theorem Memory.wfFrom_mono (m : Memory) (lo lo' : Nat) (h : lo' ≤ lo) (hw : Memory.wfFrom lo m = true) : Memory.wfFrom lo' m = true := by
  cases m with
  | nil => rfl
  | cons c t =>
    obtain ⟨a, b⟩ := c
    simp only [Memory.wfFrom, Bool.and_eq_true, decide_eq_true_eq] at hw ⊢
    exact ⟨⟨by omega, hw.1.2⟩, hw.2⟩

/-- A write of one byte keeps the canonical form. -/
theorem Memory.wfFrom_set (m : Memory) (lo a : Nat) (b : Byte) (hl : lo ≤ a) (hw : Memory.wfFrom lo m = true) :
    Memory.wfFrom lo (Memory.set m a b) = true := by
  induction m generalizing lo with
  | nil =>
    simp only [Memory.set]
    split <;> simp_all [Memory.wfFrom]
  | cons c t ih =>
    obtain ⟨k, v⟩ := c
    simp only [Memory.wfFrom, Bool.and_eq_true, decide_eq_true_eq, bne_iff_ne] at hw
    obtain ⟨⟨h1, h2⟩, h3⟩ := hw
    have hv : ¬v = 0#8 := h2
    simp only [Memory.set]
    split
    · split
      · simp [Memory.wfFrom, h1, hv, h3]
      · rename_i hb
        have hb' : ¬b = 0#8 := hb
        have : a + 1 ≤ k := by omega
        simp [Memory.wfFrom, hl, hv, h3, hb', this]
    · split
      · split
        · exact Memory.wfFrom_mono t _ _ (by omega) h3
        · rename_i hb
          have hb' : ¬b = 0#8 := hb
          subst_vars
          simp [Memory.wfFrom, hl, h3, hb']
      · have := ih (k + 1) (by omega) h3
        simp [Memory.wfFrom, h1, hv, this]

theorem Memory.wf_set (m : Memory) (a : Nat) (b : Byte) (h : Memory.wf m = true) : Memory.wf (Memory.set m a b) = true :=
  Memory.wfFrom_set m 0 a b (Nat.zero_le _) h

theorem Memory.wf_setBytes (l : List Byte) (m : Memory) (a : Nat) (h : Memory.wf m = true) : Memory.wf (Memory.setBytes m a l) = true := by
  induction l generalizing m a with
  | nil => exact h
  | cons b t ih => exact ih _ _ (Memory.wf_set m a b h)

/-- Dropping entries keeps the canonical form. -/
theorem Memory.wfFrom_filter (p : Host.Cell → Bool) (m : Memory) (lo : Nat) (h : Memory.wfFrom lo m = true) :
    Memory.wfFrom lo (m.filter p) = true := by
  induction m generalizing lo with
  | nil => rfl
  | cons c t ih =>
    obtain ⟨k, v⟩ := c
    simp only [Memory.wfFrom, Bool.and_eq_true, decide_eq_true_eq, bne_iff_ne] at h
    obtain ⟨⟨h1, h2⟩, h3⟩ := h
    have hv : ¬v = 0#8 := h2
    rw [List.filter_cons]
    split
    · simp [Memory.wfFrom, h1, hv, ih _ h3]
    · exact Memory.wfFrom_mono _ _ _ (by omega) (ih _ h3)

theorem Memory.wf_filter (p : Host.Cell → Bool) (m : Memory) (h : Memory.wf m = true) : Memory.wf (m.filter p) = true :=
  Memory.wfFrom_filter p m 0 h

theorem Memory.wf_clearRange (m : Memory) (a n : Nat) (h : Memory.wf m = true) : Memory.wf (Memory.clearRange m a n) = true :=
  Memory.wf_filter _ m h

/-! ## A read after a write -/

/-- An address below every entry of a canonical memory reads 0. -/
theorem Memory.get_below (m : Memory) (lo a : Nat) (hw : Memory.wfFrom lo m = true) (h : a < lo) : Memory.get m a = 0 := by
  induction m generalizing lo with
  | nil => rfl
  | cons c t ih =>
    obtain ⟨k, v⟩ := c
    simp only [Memory.wfFrom, Bool.and_eq_true, decide_eq_true_eq] at hw
    obtain ⟨⟨h1, _⟩, h3⟩ := hw
    have hk : ¬k = a := by omega
    simp only [Memory.get, if_neg hk]
    exact ih (k + 1) h3 (by omega)

theorem Memory.getFrom_set (m : Memory) (lo a c : Nat) (b : Byte) (hw : Memory.wfFrom lo m = true) :
    Memory.get (Memory.set m a b) c = if c = a then b else Memory.get m c := by
  induction m generalizing lo with
  | nil =>
    simp only [Memory.set]
    by_cases hc : c = a
    · split <;> simp_all [Memory.get]
    · have ha : ¬a = c := fun h => hc h.symm
      split <;> simp [Memory.get, ha]
  | cons x t ih =>
    obtain ⟨k, v⟩ := x
    have hw0 := hw
    simp only [Memory.wfFrom, Bool.and_eq_true, decide_eq_true_eq] at hw
    obtain ⟨⟨h1, _⟩, h3⟩ := hw
    simp only [Memory.set]
    split
    · rename_i hak
      split
      · rename_i hb
        by_cases hc : c = a
        · subst hc
          have hk : ¬k = c := by omega
          simp only [Memory.get, if_neg hk, if_true, hb]
          exact Memory.get_below t (k + 1) c h3 (by omega)
        · simp [hc]
      · by_cases hc : c = a
        · subst hc; simp [Memory.get]
        · have : ¬a = c := fun h => hc h.symm
          simp [Memory.get, hc, this]
    · split
      · rename_i hak
        subst hak
        split
        · rename_i hb
          by_cases hc : c = a
          · subst hc
            simp only [if_true, hb]
            exact Memory.get_below t (c + 1) c h3 (by omega)
          · have : ¬a = c := fun h => hc h.symm
            simp [Memory.get, hc, this]
        · by_cases hc : c = a
          · subst hc; simp [Memory.get]
          · have : ¬a = c := fun h => hc h.symm
            simp [Memory.get, hc, this]
      · rename_i hka1 hka2
        by_cases hk : k = c
        · subst hk
          have : ¬k = a := fun h => hka2 h.symm
          simp [Memory.get, this]
        · simp only [Memory.get, if_neg hk]
          exact ih (k + 1) h3

/-- Reading a byte of a canonical memory after a write of a byte. -/
theorem Memory.get_set (m : Memory) (a c : Nat) (b : Byte) (hw : Memory.wf m = true) :
    Memory.get (Memory.set m a b) c = if c = a then b else Memory.get m c :=
  Memory.getFrom_set m 0 a c b hw

/-- Reading a byte of a canonical memory after a write of bytes. -/
theorem Memory.get_setBytes (l : List Byte) (m : Memory) (a c : Nat) (hw : Memory.wf m = true) :
    Memory.get (Memory.setBytes m a l) c = if a ≤ c ∧ c < a + l.length then l.getD (c - a) 0 else Memory.get m c := by
  induction l generalizing m a with
  | nil =>
    simp [Memory.setBytes]
  | cons b t ih =>
    simp only [Memory.setBytes, ih _ _ (Memory.wf_set m a b hw), Memory.get_set m a c b hw, List.length_cons]
    by_cases h1 : a + 1 ≤ c ∧ c < a + 1 + t.length
    · have h2 : a ≤ c ∧ c < a + (t.length + 1) := by omega
      have h3 : c - a = (c - (a + 1)) + 1 := by omega
      rw [if_pos h1, if_pos h2, h3, List.getD_cons_succ]
    · rw [if_neg h1]
      by_cases h4 : c = a
      · subst h4
        have : c ≤ c ∧ c < c + (t.length + 1) := by omega
        simp [this]
      · have : ¬(a ≤ c ∧ c < a + (t.length + 1)) := by omega
        rw [if_neg h4, if_neg this]

@[simp] theorem Memory.length_getBytes (m : Memory) (a n : Nat) : (Memory.getBytes m a n).length = n := by
  induction n generalizing a with
  | zero => rfl
  | succ n ih => simp [Memory.getBytes, ih]

/-- A read of bytes away from a write of bytes. -/
theorem Memory.getBytes_setBytes_off (l : List Byte) (m : Memory) (a c n : Nat) (hw : Memory.wf m = true) (h : c + n ≤ a ∨ a + l.length ≤ c) :
    Memory.getBytes (Memory.setBytes m a l) c n = Memory.getBytes m c n := by
  induction n generalizing c with
  | zero => rfl
  | succ n ih =>
    have h1 : ¬(a ≤ c ∧ c < a + l.length) := by omega
    simp only [Memory.getBytes, Memory.get_setBytes l m a c hw, if_neg h1, ih (c + 1) (by omega)]

/-! ## Numbers and bytes -/

@[simp] theorem length_bytesOf (k n : Nat) : (bytesOf k n).length = k := by
  induction k generalizing n with
  | zero => rfl
  | succ k ih => simp [bytesOf, ih]

/-- The number that the bytes of a number hold. -/
theorem numOf_bytesOf (k n : Nat) : numOf (bytesOf k n) = n % 2 ^ (8 * k) := by
  induction k generalizing n with
  | zero => simp [bytesOf, numOf, Nat.mod_one]
  | succ k ih =>
    have h := ih (n / 256)
    simp only [numOf] at h ⊢
    have he : 2 ^ (8 * (k + 1)) = 256 * 2 ^ (8 * k) := by rw [Nat.mul_add, Nat.pow_add]; omega
    simp only [bytesOf, List.foldr_cons, BitVec.toNat_ofNat, h, he, Nat.mod_mul]

theorem numOf_lt (l : List Byte) : numOf l < 2 ^ (8 * l.length) := by
  induction l with
  | nil => simp [numOf]
  | cons b t ih =>
    simp only [numOf, List.foldr_cons, List.length_cons] at ih ⊢
    have h := b.isLt
    have he : 2 ^ (8 * (t.length + 1)) = 256 * 2 ^ (8 * t.length) := by rw [Nat.mul_add, Nat.pow_add]; omega
    rw [he]
    omega

end Sys2Proof.Machine
end

