-- ==== Sys2Proof/Laws/Order.lean ====
section
/-! SUPPORT. The ordering machine: every operation keeps its memories in canonical form, and none of the applying poisons a granule. -/

namespace Sys2Proof.Machine

/-! ## The canonical form -/

theorem mem_putAt {α : Type} (n : Nat) (d : α) (l : List α) (i : Nat) (v x : α) (h : x ∈ putAt n d l i v) : x = v ∨ x = d ∨ x ∈ l := by
  obtain ⟨k, -, rfl⟩ := List.mem_map.1 h
  split
  · exact .inl rfl
  · rw [List.getD_eq_getElem?_getD]
    cases hk : l[k]? with
    | none => exact .inr (.inl rfl)
    | some y => exact .inr (.inr (List.mem_of_getElem? hk))

theorem wf_viewOf (o : Ordering_) (d : Nat) (h : CanonicalOrd o) : Memory.wf (viewOf o d) = true := by
  unfold viewOf
  rw [List.getD_eq_getElem?_getD]
  cases hk : o.views[d]? with
  | none => rfl
  | some m => exact h.1 m (List.mem_of_getElem? hk)

/-- The canonical form speaks of the views and the scratchpads alone. -/
theorem CanonicalOrd.of_eq {o o' : Ordering_} (h : CanonicalOrd o) (hv : o'.views = o.views) (hs : o'.spad = o.spad) : CanonicalOrd o' := by
  unfold CanonicalOrd; rw [hv, hs]; exact h

theorem canonical_setView (o : Ordering_) (d loc : Nat) (b : List Byte) (h : CanonicalOrd o) : CanonicalOrd (setView o d loc b) := by
  refine ⟨fun m hm => ?_, h.2⟩
  rcases mem_putAt _ _ _ _ _ _ hm with rfl | rfl | hm
  · exact Memory.wf_setBytes _ _ _ (wf_viewOf o d h)
  · rfl
  · exact h.1 m hm

theorem canonical_holdWrite (o : Ordering_) (d loc n id : Nat) (h : CanonicalOrd o) : CanonicalOrd (holdWrite o d loc n id) := h.of_eq rfl rfl

theorem canonical_bumpApplied (o : Ordering_) (d e : Nat) (h : CanonicalOrd o) : CanonicalOrd (bumpApplied o d e) := h.of_eq rfl rfl

theorem canonical_givePos (o : Ordering_) (id : Nat) (h : CanonicalOrd o) : CanonicalOrd (givePos o id) := h.of_eq rfl rfl

theorem canonical_pruneOrder (o : Ordering_) (h : CanonicalOrd o) : CanonicalOrd (pruneOrder o) := by
  unfold pruneOrder; split
  · exact h.of_eq rfl rfl
  · exact h

/-- A write (R163). -/
theorem canonical_performWrite (o : Ordering_) (e loc home : Nat) (b : List Byte) (h : CanonicalOrd o) :
    CanonicalOrd (performWrite o e loc home b) := by
  have h1 := canonical_bumpApplied _ e e (canonical_holdWrite _ e loc b.length o.nextWrite
    (canonical_setView { o with nextWrite := o.nextWrite + 1 } e loc b (h.of_eq rfl rfl)))
  unfold performWrite
  simp only
  split
  · exact (canonical_givePos _ o.nextWrite h1).of_eq rfl rfl
  · exact h1.of_eq rfl rfl

theorem canonical_installBytes (b : List Byte) (o : Ordering_) (d id p loc : Nat) (h : CanonicalOrd o) :
    CanonicalOrd (installBytes o d id p loc b) := by
  induction b generalizing o loc with
  | nil => exact h
  | cons x t ih =>
    refine ih _ _ ?_
    split
    · exact h
    · exact canonical_holdWrite _ _ _ _ _ (canonical_setView _ _ _ _ h)

/-- The applying of a write (R164, R165). -/
theorem canonical_applyAt (o o' : Ordering_) (d i : Nat) (ha : applyAt o d i = some o') (h : CanonicalOrd o) : CanonicalOrd o' := by
  unfold applyAt at ha
  simp only at ha
  split at ha
  · cases ha
  · split at ha
    · cases ha
      rename_i w _ _
      refine canonical_pruneOrder _ (CanonicalOrd.of_eq (canonical_bumpApplied _ d w.src (canonical_installBytes w.bytes _ d w.id _ w.loc ?_)) rfl rfl)
      split
      · exact canonical_givePos _ _ h
      · exact h
    · cases ha

theorem canonical_settleN (n : Nat) (o : Ordering_) (h : CanonicalOrd o) : CanonicalOrd (settleN n o) := by
  induction n generalizing o with
  | zero => exact h
  | succ n ih =>
    simp only [settleN]
    split
    · exact h
    · split
      · exact h
      · rename_i ha
        exact ih _ (canonical_applyAt _ _ _ _ ha h)

theorem canonical_settle (o : Ordering_) (h : CanonicalOrd o) : CanonicalOrd (settle o) := canonical_settleN _ _ h

/-- A write to a scratchpad (R163). -/
theorem canonical_spadWrite (o : Ordering_) (k : Nat) (b : List Byte) (h : CanonicalOrd o) : CanonicalOrd (spadWrite o k b) :=
  ⟨h.1, Memory.wf_setBytes _ _ _ h.2⟩

/-- An atomic on memory (R166). -/
theorem canonical_atomicMem (o : Ordering_) (op : AtomOp) (n loc home v e : Nat) (h : CanonicalOrd o) :
    CanonicalOrd (atomicMem o op n loc home v e).1 := by
  unfold atomicMem
  split
  · exact h
  · simp only
    split
    · exact canonical_performWrite _ _ _ _ _ h
    · exact h

/-- An atomic on scratchpad bytes (R166). -/
theorem canonical_atomicSpad (o : Ordering_) (op : AtomOp) (n k v e : Nat) (h : CanonicalOrd o) :
    CanonicalOrd (atomicSpad o op n k v e).1 := by
  unfold atomicSpad
  split
  · exact h
  · simp only
    split
    · exact canonical_spadWrite _ _ _ h
    · exact h

/-- An arrival at a sync word (R157). -/
theorem canonical_syncArrive (o : Ordering_) (k n : Nat) (p : Bool) (h : CanonicalOrd o) : CanonicalOrd (syncArrive o k n p).1 := by
  unfold syncArrive
  generalize syncRead o k = r
  obtain ⟨t, c, g, f⟩ := r
  dsimp only
  generalize syncStep t c g f n p = q
  exact ⟨h.1, Memory.wf_setBytes _ _ _ h.2⟩

/-- A fragment's landing (R340). -/
theorem canonical_fragLand (o : Ordering_) (k y : Nat) (b : List Byte) (h : CanonicalOrd o) : CanonicalOrd (fragLand o k y b) :=
  canonical_syncArrive _ _ _ _ (canonical_spadWrite _ _ _ h)

/-- The wiping of frames (R67). -/
theorem canonical_wipeFrames (o : Ordering_) (l : List Nat) (h : CanonicalOrd o) : CanonicalOrd (wipeFrames o l) := by
  refine ⟨fun m hm => ?_, h.2⟩
  obtain ⟨m', hm', rfl⟩ := List.mem_map.1 hm
  exact Memory.wf_filter _ _ (h.1 m' hm')

/-! ## Poison -/

theorem poisonedIn_filter (l : List Nat) (f : Nat → Bool) (g loc n : Nat) (h : poisonedIn l g loc n = false) :
    poisonedIn (l.filter f) g loc n = false := by
  simp only [poisonedIn, List.any_eq_false] at h ⊢
  exact fun x hx => h x (List.mem_filter.1 hx).1

theorem poison_performWrite (o : Ordering_) (e loc home : Nat) (b : List Byte) :
    (performWrite o e loc home b).poison = poisonClear o.poison (granule loc) loc b.length := by
  unfold performWrite
  simp only
  split <;> rfl

theorem poison_installBytes (b : List Byte) (o : Ordering_) (d id p loc : Nat) : (installBytes o d id p loc b).poison = o.poison := by
  induction b generalizing o loc with
  | nil => rfl
  | cons x t ih =>
    simp only [installBytes, ih]
    split <;> rfl

theorem poison_applyAt (o o' : Ordering_) (d i : Nat) (h : applyAt o d i = some o') : o'.poison = o.poison := by
  unfold applyAt at h
  simp only at h
  split at h
  · cases h
  · split at h
    · cases h
      unfold pruneOrder
      split <;> simp [bumpApplied, poison_installBytes] <;> split <;> rfl
    · cases h

theorem poison_settleN (n : Nat) (o : Ordering_) : (settleN n o).poison = o.poison := by
  induction n generalizing o with
  | zero => rfl
  | succ n ih =>
    simp only [settleN]
    split
    · rfl
    · split
      · rfl
      · rename_i h; rw [ih, poison_applyAt _ _ _ _ h]

@[simp] theorem poison_settle (o : Ordering_) : (settle o).poison = o.poison := poison_settleN _ _

theorem l2Poison_performWrite (o : Ordering_) (e loc home : Nat) (b : List Byte) :
    (performWrite o e loc home b).l2Poison = l2Clear o.l2Poison e loc b.length := by
  unfold performWrite
  simp only
  split <;> rfl

/-- A write poisons nothing (R68, R138). -/
theorem poison_performWrite_false (o : Ordering_) (e loc home : Nat) (b : List Byte) (d l m : Nat) (h : memPoisoned o d l m = false) :
    memPoisoned (performWrite o e loc home b) d l m = false := by
  simp only [memPoisoned, Bool.or_eq_false_iff] at h ⊢
  refine ⟨?_, ?_⟩
  · rw [poison_performWrite]; exact poisonedIn_filter _ _ _ _ _ h.1
  · rw [l2Poison_performWrite, l2Clear, List.any_eq_false]
    exact fun x hx => (List.any_eq_false.1 h.2) x (List.mem_filter.1 hx).1

/-- An atomic poisons nothing (R69). -/
theorem poison_atomicMem (o : Ordering_) (op : AtomOp) (n loc home v e d l m : Nat) (h : memPoisoned o d l m = false) :
    memPoisoned (atomicMem o op n loc home v e).1 d l m = false := by
  unfold atomicMem
  split
  · exact h
  · simp only
    split
    · exact poison_performWrite_false _ _ _ _ _ _ _ _ h
    · exact h

/-! ## Reaching a clock -/

/-- The moves that let a die reach a clock keep the canonical form (R166). -/
theorem canonical_reachN (d : Nat) (hc : List Nat) (n : Nat) (o : Ordering_) (h : CanonicalOrd o) : CanonicalOrd (reachN d hc n o) := by
  induction n generalizing o with
  | zero => exact h
  | succ n ih =>
    simp only [reachN]
    split
    · exact h
    · split
      · exact h
      · rename_i o' ha
        obtain ⟨x, -, hx⟩ := Option.bind_eq_some_iff.1 ha
        exact ih _ (canonical_applyAt _ _ _ _ hx h)

theorem canonical_reach (o : Ordering_) (d : Nat) (hc : List Nat) (h : CanonicalOrd o) : CanonicalOrd (reach o d hc) := canonical_reachN _ _ _ _ h

theorem canonical_reachAll (o : Ordering_) (hc : List Nat) (h : CanonicalOrd o) : CanonicalOrd (reachAll o hc) := by
  unfold reachAll
  generalize List.range 9 = l
  induction l generalizing o with
  | nil => exact h
  | cons d t ih => exact ih _ (canonical_reach _ _ _ h)

/-- A die that has reached a clock has nothing to do for it. -/
theorem reach_reached (o : Ordering_) (d : Nat) (hc : List Nat) (h : reached o d hc = true) : reach o d hc = o := by
  unfold reach
  cases waitingWrites o <;> simp [reachN, h]

end Sys2Proof.Machine
end

