-- ==== Sys2Proof/Tests/Slice0.lean ====
section
/-! SUPPORT. Tests on fixed values: decoding, ill-formed syllables, results worked out by hand from the spec's tables, and for each statement
of Certificates/Slice0/Obligations.lean a state and operands that meet its hypotheses, at the boundary values of its clauses. -/

set_option maxRecDepth 100000

namespace Sys2Proof.Tests

open Sys2Proof Sys2Proof.Machine

/-! ## States -/

/-- A booted machine whose strand 2560 (die 5, tenant 0) runs at address 0, with 64 KiB mapped from address 0. -/
def base : State := readyToFetch State.reset

/-- That machine with registers written and the strand changed. -/
def pState (regs : List (Nat × Word)) (f : Strand → Strand) : State :=
  putStrand base bareSid (f (regs.foldl (fun st x => swrite st x.1 x.2) (strandOf base bareSid)))

/-- The machine with trunk strand 0 at `cur`. -/
def trunkState (regs : List (Nat × Word)) (f : Strand → Strand) : State :=
  let st : Strand := { Strand.idle 0 true with run := .running, pc := 0x100 }
  { putStrand base 0 (f (regs.foldl (fun st x => swrite st x.1 x.2) st)) with cur := 0 }

/-- The state that an instruction leaves; the machine as it was where it leaves none. -/
def after (o : Out State) : State :=
  match o with
  | .next t => t
  | _ => base

/-- The strand's convoy has retired and its accesses have left their path queues. -/
def leaveAll (s : State) : State := flushStrand (putMe s (commitQueue s.ord (me s))) s.cur

/-- Whether an outcome is a next state. -/
def goesOn (o : Out State) : Bool :=
  match o with
  | .next _ => true
  | _ => false

/-- Register d after an instruction. -/
def result (i : Instr) (regs : List (Nat × Word)) (d : BitVec 5) : Word := getS (after (exec i (pState regs id))) d

/-- Whether an element passes its checks, and whether it can be read in this package. -/
def places (s : State) (a : Acc) (n : Nat) (va : Word) : Bool :=
  match checkElem s (me s) a n va with
  | .ok _ => true
  | .error _ => false
def reads (s : State) (a : Acc) (n : Nat) (va : Word) : Bool :=
  match checkElem s (me s) a n va with
  | .ok p => (localBytes s p n).isSome
  | .error _ => false
def scalarReads (s : State) (a : Acc) (n : Nat) (va : Word) : Bool :=
  match checkScalar s (me s) a n va with
  | .ok p => (localBytes s p n).isSome
  | .error _ => false

/-- Where nothing was read before its turn and no answer stands, a syllable issues for the first time. -/
theorem fresh_of {s : State} (hl : s.look = none) (he : (me s).early = []) (ha : (me s).answers = []) : Fresh s :=
  ⟨hl, he, fun e => by simp [answerOf, ha]⟩

/-- No byte is poisoned where no granule is. -/
theorem no_poison {s : State} {d loc n : Nat} (h : s.ord.poison = []) (h2 : s.ord.l2Poison = []) : readPoisoned s d loc n = false := by
  simp [readPoisoned, memPoisoned, poisonedIn, h, h2]

/-- The place of address a of the mapped page. -/
def pagePlace (a : Nat) : Place := .mem (memLoc 5 (0x100000 + a)) 5

/-! ## Decoding -/

/-- Words built from the fields of spec/opcode_table.json (R252 to R276). -/
theorem test_decode_scalar_register : (([
    (0x0689C800, .add ⟨20, 9, 25⟩),
    (0x06CEA801, .sub ⟨22, 14, 21⟩),
    (0x06057002, .mul ⟨16, 5, 14⟩),
    (0x0530B803, .mulh ⟨9, 16, 23⟩),
    (0x060ED804, .mulhn ⟨16, 14, 27⟩),
    (0x041E7005, .div ⟨0, 30, 14⟩),
    (0x060FA006, .divn ⟨16, 15, 20⟩),
    (0x04C83007, .rem ⟨6, 8, 6⟩),
    (0x0638C808, .remn ⟨17, 24, 25⟩),
    (0x066BD009, .and ⟨19, 11, 26⟩),
    (0x05C5C80A, .or ⟨14, 5, 25⟩),
    (0x04D3800B, .xor ⟨6, 19, 16⟩),
    (0x053BC00C, .sll ⟨9, 27, 24⟩),
    (0x05B9C00D, .srl ⟨13, 25, 24⟩),
    (0x07ECA00E, .sra ⟨31, 12, 20⟩),
    (0x07E7200F, .slt ⟨31, 7, 4⟩),
    (0x05357010, .sltn ⟨9, 21, 14⟩),
    (0x0479A011, .min ⟨3, 25, 20⟩),
    (0x066C4012, .max ⟨19, 12, 8⟩),
    (0x05EF3013, .minn ⟨15, 15, 6⟩),
    (0x05008814, .maxn ⟨8, 0, 17⟩),
    (0x07AC0015, .clz ⟨29, 12⟩),
    (0x05C20016, .ctz ⟨14, 2⟩),
    (0x07670017, .popc ⟨27, 7⟩),
    (0x077C1818, .sel ⟨27, 28, 3⟩)] : List (Nat × Instr)).all fun x => decodeTableWord 32 x.1 == some x.2) = true := by decide

/-- Words built from the fields of spec/opcode_table.json (R252 to R276). -/
theorem test_decode_immediate : (([
    (0x0B594492, .addi ⟨26, 25, 17554⟩),
    (0x0CDD2CFC, .andi ⟨6, 29, 11516⟩),
    (0x116139C1, .ori ⟨11, 1, 14785⟩),
    (0x14E20B28, .xori ⟨7, 2, 2856⟩),
    (0x1B0747DA, .slti ⟨24, 7, 18394⟩),
    (0x1C836241, .sltin ⟨4, 3, 25153⟩),
    (0x2040A692, .lui ⟨2, 42642⟩),
    (0x26209E0A, .addpc ⟨17, 40458⟩),
    (0x2B4B4C00, .sllImm ⟨26, 11, 19⟩),
    (0x2838B801, .srlImm ⟨1, 24, 46⟩),
    (0x2B9DEC02, .sraImm ⟨28, 29, 59⟩),
    (0x2A5D5383, .bfx ⟨18, 29, 20, 56⟩),
    (0x28F748C4, .bfxn ⟨7, 23, 18, 12⟩),
    (0x2B3FE565, .bfi ⟨25, 31, 57, 22⟩),
    (0x2876CD66, .bfxReg ⟨3, 22, 51, 22⟩),
    (0x28BAF1E7, .bfxnReg ⟨5, 26, 60, 30⟩),
    (0x2BEA68F8, .bfiReg ⟨31, 10, 26, 15⟩)] : List (Nat × Instr)).all fun x => decodeTableWord 32 x.1 == some x.2) = true := by decide

/-- Words built from the fields of spec/opcode_table.json (R252 to R276). -/
theorem test_decode_scalar_fp : (([
    (0x2D708010, .fadd ⟨11, 16, 16, 1⟩),
    (0x2CC6B021, .fsub ⟨6, 6, 22, 2⟩),
    (0x2E5D1032, .fmul ⟨18, 29, 2, 3⟩),
    (0x2E1D4803, .ffma ⟨16, 29, 9, 0⟩),
    (0x2D02E804, .fmin ⟨8, 2, 29⟩),
    (0x2EB0D005, .fmax ⟨21, 16, 26⟩),
    (0x2FC0F846, .fcmp ⟨30, 0, 31, 1⟩),
    (0x2EF50137, .fcvt ⟨23, 21, 4, 3⟩),
    (0x2CD80008, .fsqrt ⟨6, 24, 0⟩)] : List (Nat × Instr)).all fun x => decodeTableWord 32 x.1 == some x.2) = true := by decide

/-- Words built from the fields of spec/opcode_table.json (R252 to R276). -/
theorem test_decode_scalar_memory_a : (([
    (0x33F93E4E, .ld ⟨31, 25, 1, 7758⟩),
    (0x340740D6, .st ⟨0, 7, 2, 214⟩),
    (0x39D6F82E, .amoadd ⟨14, 22, 31, 1, 3, false⟩),
    (0x38AE68C3, .amoswap ⟨5, 14, 13, 2, 0, true⟩),
    (0x3A72C10B, .amocas ⟨19, 18, 24, 0, 2, true⟩),
    (0x3A1611D2, .amoand ⟨16, 22, 2, 2, 4, false⟩),
    (0x38783262, .amoor ⟨3, 24, 6, 3, 0, false⟩),
    (0x38B632AA, .amoxor ⟨5, 22, 6, 1, 2, false⟩),
    (0x38488363, .amomax ⟨2, 8, 16, 3, 0, true⟩),
    (0x3ADEC3CA, .amomin ⟨22, 30, 24, 2, 2, false⟩),
    (0x3A44242A, .amomaxn ⟨18, 4, 4, 1, 2, false⟩),
    (0x3AF4DC82, .amominn ⟨23, 20, 27, 0, 0, false⟩),
    (0x38412522, .amoaddF32 ⟨2, 1, 4, 1, 0⟩),
    (0x3A60FDAA, .amomaxF32 ⟨19, 0, 31, 1, 2⟩),
    (0x39D5AE46, .amominF32 ⟨14, 21, 21, 2, 1⟩),
    (0x38130EAF, .amoea ⟨19, 1, 1, 3⟩),
    (0x380FB836, .redadd ⟨15, 23, 1, 5, false⟩),
    (0x381C98CF, .redswap ⟨28, 19, 2, 3, true⟩),
    (0x3817F1C6, .redand ⟨23, 30, 2, 1, false⟩),
    (0x3819BA2A, .redor ⟨25, 23, 1, 2, false⟩),
    (0x381172F2, .redxor ⟨17, 14, 3, 4, false⟩),
    (0x380BF36B, .redmax ⟨11, 30, 3, 2, true⟩),
    (0x38168382, .redmin ⟨22, 16, 0, 0, false⟩),
    (0x380E5443, .redmaxn ⟨14, 10, 2, 0, true⟩),
    (0x380014EB, .redminn ⟨0, 2, 3, 2, true⟩),
    (0x381DDD76, .redaddF32 ⟨29, 27, 3, 5⟩)] : List (Nat × Instr)).all fun x => decodeTableWord 32 x.1 == some x.2) = true := by decide

/-- Words built from the fields of spec/opcode_table.json (R252 to R276). -/
theorem test_decode_scalar_memory_b : (([
    (0x38171DE6, .redmaxF32 ⟨23, 3, 3, 1⟩),
    (0x381CAE66, .redminF32 ⟨28, 21, 3, 1⟩)] : List (Nat × Instr)).all fun x => decodeTableWord 32 x.1 == some x.2) = true := by decide

/-- Words built from the fields of spec/opcode_table.json (R252 to R276). -/
theorem test_decode_control : (([
    (0x00000000, .emptySyllable),
    (0x408101F0, .beq ⟨4, 1, 496⟩),
    (0x4656F2D6, .bne ⟨18, 22, 62166⟩),
    (0x49102B8A, .blt ⟨8, 16, 11146⟩),
    (0x4C1B5391, .bge ⟨0, 27, 21393⟩),
    (0x52BB71DE, .bltn ⟨21, 27, 29150⟩),
    (0x56AF4B41, .bgen ⟨21, 15, 19265⟩),
    (0x581E70EC, .j ⟨1994988⟩),
    (0x5E3EB26D, .jal ⟨17, 2011757⟩),
    (0x63C275C9, .jalr ⟨30, 2, 30153⟩),
    (0x655C6240, .repf ⟨10, 7, 6, 9⟩),
    (0x68000000, .fence ⟨0, 0⟩),
    (0x68000211, .fencex ⟨4, 1⟩),
    (0x68033002, .cwait ⟨102⟩),
    (0x68013003, .waitsw ⟨1, 6⟩),
    (0x68060044, .bar ⟨6, 4⟩),
    (0x680A0005, .trap ⟨10⟩),
    (0x68000006, .eret),
    (0x69E004F7, .sysr ⟨15, 79⟩),
    (0x681204E8, .sysw ⟨18, 78⟩),
    (0x68000009, .icinv),
    (0x681C580A, .trmark ⟨28, 11⟩),
    (0x6C050000, .done ⟨5⟩),
    (0x6C000001, .yield),
    (0x6E6D3802, .launch ⟨19, 13, 7⟩),
    (0x6E90D803, .cancel ⟨20, 16, 27⟩)] : List (Nat × Instr)).all fun x => decodeTableWord 32 x.1 == some x.2) = true := by decide

/-- Words built from the fields of spec/opcode_table.json (R252 to R276). -/
theorem test_decode_vector_state_and_integer : (([
    (0x80000080, .vcfg ⟨2, 0⟩),
    (0x83010001, .vsetl ⟨24, 1⟩),
    (0x81C00002, .vgetl ⟨14⟩),
    (0x80000203, .vsett ⟨2, 0, false⟩),
    (0x8702596C, .vadd ⟨48, 9, 25, false, true, 5, true⟩),
    (0x876BEC7E, .vmul ⟨54, 47, 44, false, true, 7, true⟩),
    (0x86A68753, .vmulh ⟨42, 26, 7, false, true, 2, false⟩),
    (0x8B20E24C, .vmin ⟨50, 3, 34, false, true, 1, true⟩),
    (0x8B81B275, .vmax ⟨56, 6, 50, false, true, 6, true⟩),
    (0x8938E912, .vabsd ⟨19, 35, 41, false, false, 2, false⟩),
    (0x89D6C973, .vsadd ⟨29, 27, 9, false, true, 6, false⟩),
    (0x8E067930, .vand ⟨32, 25, 57, false, false, 6, false⟩),
    (0x8FBBF619, .vor ⟨59, 47, 54, false, false, 3, false⟩),
    (0x8EEECEEA, .vxor ⟨46, 59, 14, true, true, 5, false⟩),
    (0x8E04F8FB, .vssub ⟨32, 19, 56, true, true, 7, false⟩),
    (0x91D01724, .vsll ⟨29, 0, 23, false, false, 4, true⟩),
    (0x9192EBC1, .vsrl ⟨25, 11, 43, true, true, 0, false⟩),
    (0x92BA817A, .vsra ⟨43, 42, 1, false, true, 7, false⟩),
    (0x91F08017, .vmv ⟨31, 2, false, 2, true⟩),
    (0x920BC193, .vclz ⟨32, 47, true, 2, false⟩),
    (0x93000217, .viota ⟨48, 2, true⟩)] : List (Nat × Instr)).all fun x => decodeTableWord 32 x.1 == some x.2) = true := by decide

/-- Words built from the fields of spec/opcode_table.json (R252 to R276). -/
theorem test_decode_vector_fp_and_accumulators : (([
    (0x9440D5E8, .vfadd ⟨4, 3, 21, true, true, 5, false⟩),
    (0x96C39D15, .vfsub ⟨44, 14, 29, false, false, 2, true⟩),
    (0x9703935A, .vfmul ⟨48, 14, 19, false, true, 3, false⟩),
    (0x973A4FCB, .vffma ⟨51, 41, 15, true, true, 1, false⟩),
    (0x98D591D0, .vfmin ⟨13, 22, 17, true, true, 2, false⟩),
    (0x9BB05169, .vfmax ⟨59, 1, 17, false, true, 5, false⟩),
    (0x98BC8992, .vfdiv ⟨11, 50, 9, true, false, 2, false⟩),
    (0x998684E7, .vfscl ⟨24, 26, 4, true, true, 4, true⟩),
    (0x9C03C0B4, .vfsqrt ⟨0, 15, true, 6, true⟩),
    (0x9C21408D, .vfexp ⟨2, 5, true, 1, true⟩),
    (0x9EE0C0A2, .vflog ⟨46, 3, true, 4, false⟩),
    (0x9C24C0BB, .vfrcp ⟨2, 19, true, 7, false⟩),
    (0xA0DD00BC, .vfcvt ⟨13, 52, true, 7, true⟩),
    (0xA40E00AC, .vredsum ⟨0, 56, true, 5, true⟩),
    (0xA437B595, .vdot ⟨3, 30, 53, true, false, 2, true⟩),
    (0xA70C5BE6, .vscan ⟨48, 49, 27, true, true, 4, true⟩),
    (0xA469408B, .vredmax ⟨6, 37, true, 1, false⟩),
    (0xA5268123, .vredmin ⟨18, 26, false, 4, false⟩),
    (0xA44E822F, .vargmax ⟨4, 58, false, 5, true⟩),
    (0xA800C000, .veaadd ⟨0, 3⟩),
    (0xA9808005, .earnd ⟨24, 2, true⟩),
    (0xA83E8002, .eald ⟨3, 2⟩),
    (0xABA00102, .east ⟨2, 0⟩),
    (0xA8200202, .eaclr ⟨2⟩),
    (0xB15BC41D, .vfcmp ⟨2, 5, 47, 4, false, false, 3, true⟩)] : List (Nat × Instr)).all fun x => decodeTableWord 32 x.1 == some x.2) = true := by decide

/-- Words built from the fields of spec/opcode_table.json (R252 to R276). -/
theorem test_decode_vector_scalar : (([
    (0xB784B2F0, .vaddVs ⟨56, 18, 25, false, 7, true⟩),
    (0xB478D821, .vsubVs ⟨7, 35, 12, false, 1, false⟩),
    (0xB4EDCA62, .vmulVs ⟨14, 55, 5, false, 3, false⟩),
    (0xB7BD0EB3, .vmulhVs ⟨59, 52, 7, false, 5, true⟩),
    (0xB428B524, .vminVs ⟨2, 34, 26, true, 1, false⟩),
    (0xB653B555, .vmaxVs ⟨37, 14, 26, true, 2, true⟩),
    (0xB7797046, .vabsdVs ⟨55, 37, 24, false, 2, false⟩),
    (0xB5255D07, .vsaddVs ⟨18, 21, 14, true, 0, false⟩),
    (0xB4DBCC08, .vandVs ⟨13, 47, 6, false, 0, false⟩),
    (0xB68B0889, .vorVs ⟨40, 44, 4, false, 4, false⟩),
    (0xB454FF1A, .vxorVs ⟨5, 19, 31, true, 0, true⟩),
    (0xB4E05FDB, .vssubVs ⟨14, 1, 15, true, 6, true⟩),
    (0xB481564C, .vsllVs ⟨8, 5, 11, false, 2, false⟩),
    (0xB5AF210D, .vsrlVs ⟨26, 60, 16, true, 0, false⟩),
    (0xB4EDABEE, .vsraVs ⟨14, 54, 21, true, 7, false⟩),
    (0xB570023F, .vmvVs ⟨23, 1, 1, true⟩),
    (0xBAEA75B0, .vfaddVs ⟨46, 41, 26, true, 5, true⟩),
    (0xB9873561, .vfsubVs ⟨24, 28, 26, true, 3, false⟩),
    (0xBAED5502, .vfmulVs ⟨46, 53, 10, true, 0, false⟩),
    (0xB82506B3, .vffmaVs ⟨2, 20, 3, false, 5, true⟩),
    (0xB869A054, .vfminVs ⟨6, 38, 16, false, 2, true⟩),
    (0xBAF42645, .vfmaxVs ⟨47, 16, 19, false, 2, false⟩),
    (0xB9C3E0A6, .vfdivVs ⟨28, 15, 16, false, 5, false⟩),
    (0xBB68A2D7, .vfsclVs ⟨54, 34, 17, false, 6, true⟩),
    (0xB96A256A, .vcmpVs ⟨2, 6, 40, 18, true, 3, false⟩),
    (0xB827CE5B, .vfcmpVs ⟨0, 2, 31, 7, false, 2, true⟩)] : List (Nat × Instr)).all fun x => decodeTableWord 32 x.1 == some x.2) = true := by decide

/-- Words built from the fields of spec/opcode_table.json (R252 to R276). -/
theorem test_decode_permute_and_predicate : (([
    (0xAD55D460, .vperm ⟨21, 23, 20, false, true, 4, false⟩),
    (0xACBBC095, .vcompress ⟨11, 47, true, 2, true⟩),
    (0xAC57C092, .vexpand ⟨5, 31, true, 2, false⟩),
    (0xB28780D4, .vcmp ⟨5, 0, 30, 0, true, true, 2, true⟩),
    (0xB24804FA, .vsel ⟨36, 32, 4, true, true, 7, false⟩),
    (0xB0504603, .pand ⟨5, 1, 6⟩),
    (0xB0510D03, .por ⟨5, 4, 5⟩),
    (0xB010D403, .pxor ⟨1, 3, 4⟩),
    (0xB0505803, .pnot ⟨5, 1⟩),
    (0xB0616003, .ppopc ⟨6, 5⟩),
    (0xB1E0E803, .pfirst ⟨30, 3⟩),
    (0xBB384D88, .vslideup ⟨51, 33, 6, true, 4, false⟩),
    (0xB81510F9, .vslidedn ⟨1, 20, 8, false, 7, true⟩),
    (0xBC9BC600, .vbq ⟨9, 47, 6, false, false⟩),
    (0xBE23C805, .vbdq ⟨34, 15, 8, false, true⟩),
    (0xBC718002, .fmtset ⟨7, 6⟩)] : List (Nat × Instr)).all fun x => decodeTableWord 32 x.1 == some x.2) = true := by decide

/-- Words built from the fields of spec/opcode_table.json (R252 to R276). -/
theorem test_decode_vector_memory : (([
    (0xC0954F50, .vld ⟨1, 5, 10, 3, 3, true, 2⟩),
    (0xC136E071, .vlds ⟨2, 13, 23, 0, 0, true, 6⟩),
    (0xC40A6748, .vst ⟨0, 2, 19, 1, 3, true, 1⟩),
    (0xC52E8C01, .vsts ⟨2, 11, 20, 3, 0, false, 0⟩),
    (0xC85422C0, .vldxO ⟨0, 21, 1, 0, 2, 3⟩),
    (0xC8FC0CC1, .vldxU ⟨1, 31, 0, 3, 0, 3⟩),
    (0xC8680202, .vstxO ⟨0, 26, 0, 0, 2, 0⟩),
    (0xC8204D03, .vstxU ⟨0, 8, 2, 3, 1, 0⟩),
    (0xCD6C0800, .vamo ⟨2, 27, 0, false, 0⟩),
    (0xCC3A0C01, .vamoRet ⟨0, 14, 8, true, 0⟩),
    (0xD01A8400, .vldsc ⟨0, 6, 20, 1⟩),
    (0xD120C401, .vstsc ⟨2, 8, 6, 1⟩),
    (0xD57FEB00, .vldrot ⟨2, 31, 31, 3⟩),
    (0xD83CEE08, .copy ⟨15, 7, 3, true, 1⟩),
    (0xD8E72451, .gathsp ⟨1, 25, 25, 1, false, 1, 2⟩),
    (0xD845E002, .xsend ⟨17, 15, 0, false⟩),
    (0xD845EA0B, .xfetch ⟨17, 15, 2, true, 1⟩)] : List (Nat × Instr)).all fun x => decodeTableWord 32 x.1 == some x.2) = true := by decide

/-- Words built from the fields of spec/opcode_table.json (R252 to R276). -/
theorem test_decode_index_tiles_and_matrix : (([
    (0xE1002C00, .xins ⟨2, 1⟩),
    (0xE1806C01, .xlook ⟨3, 0, 3⟩),
    (0xE1006C02, .xacc ⟨2, 3⟩),
    (0xE0000003, .xclr ⟨false⟩),
    (0xE0006C04, .xdrain ⟨0, 3⟩),
    (0xE431A000, .prune ⟨12, 13⟩),
    (0xE44B0001, .sphdr ⟨18, 24⟩),
    (0xEAA90000, .mxatt ⟨21, 9⟩),
    (0xE8000001, .mxdet),
    (0xE8030012, .mxlds ⟨3, 2⟩),
    (0xE8000003, .mxswap),
    (0xE817480C, .mxstrm ⟨23, 9, 1⟩),
    (0xE811D015, .mxdrain ⟨17, 26, false, 2⟩),
    (0xE81D5006, .mxclr ⟨29, 10⟩),
    (0xE9A00007, .mxstat ⟨13⟩)] : List (Nat × Instr)).all fun x => decodeTableWord 32 x.1 == some x.2) = true := by decide

/-- Words built from the fields of spec/opcode_table.json (R252 to R276). -/
theorem test_decode_race_collective_token : (([
    (0xEC044A00, .rcinit ⟨17, 5⟩),
    (0xEDC968C1, .rcnoise ⟨28, 37, 20, false, 6⟩),
    (0xED26FF02, .rcbound ⟨18, 27, 31, true, 0⟩),
    (0xED503E03, .rcpick ⟨21, 31⟩),
    (0xEC77DE04, .rcupd ⟨7, 31, 15⟩),
    (0xEC301405, .rcdrop ⟨3, 10⟩),
    (0xEC002406, .rcwait ⟨18⟩),
    (0xECB0E207, .rcread ⟨11, 3, 17⟩),
    (0xEC435A08, .rcset ⟨4, 13, 13⟩),
    (0xF1587800, .clredEa ⟨10, 24, 15⟩),
    (0xF17A6804, .clredI64 ⟨11, 26, 13⟩),
    (0xF0E3E008, .clredF32max ⟨7, 3, 28⟩),
    (0xF378E80C, .clredF32min ⟨27, 24, 29⟩),
    (0xF047D001, .clbcast ⟨2, 7, 26⟩),
    (0xF1923002, .clargmax ⟨12, 18, 6⟩),
    (0xF44F7800, .tkemit ⟨2, 15, 15⟩),
    (0xF40C0001, .tkflush ⟨12⟩)] : List (Nat × Instr)).all fun x => decodeTableWord 32 x.1 == some x.2) = true := by decide

/-- Words built from the fields of spec/opcode_table.json (R252 to R276). -/
theorem test_decode_system : (([
    (0x865A3A79, .vsub ⟨37, 40, 58, false, true, 7, false⟩)] : List (Nat × Instr)).all fun x => decodeTableWord 32 x.1 == some x.2) = true := by decide

/-- R253, R260: the empty majors, majors without instructions, function codes without a row, and field values that must not be. -/
theorem test_decode_refuses : [0x00000001, 0xFFFFFFFF, 0xFC000000, 0x04000019, 0x0400001F, 0x80000038, 0x680001F3].all
    (fun w => decodeTableWord 32 w == none) = true := by decide

/-- Illegal field values (R253 to R276): each is refused by `wf`. -/
theorem test_ill_formed : [Instr.fcmp ⟨1, 2, 3, 6⟩, .fcvt ⟨1, 2, 12, 0⟩, .ld ⟨1, 2, 7, 0⟩, .st ⟨1, 2, 4, 0⟩,
    .amoadd ⟨0, 2, 3, 0, 0, true⟩, .amoadd ⟨1, 2, 3, 0, 6, true⟩, .amoaddF32 ⟨0, 2, 3, 0, 0⟩, .amoea ⟨1, 0, 0, 7⟩,
    .redadd ⟨2, 3, 0, 6, true⟩, .redaddF32 ⟨2, 3, 0, 6⟩, .fence ⟨0, 6⟩, .fencex ⟨5, 0⟩, .fencex ⟨0, 5⟩, .fencex ⟨2, 2⟩, .bar ⟨1, 6⟩,
    .sysr ⟨1, 0x0F⟩, .sysw ⟨1, 0x60⟩, .vcfg ⟨0, 7⟩, .vsett ⟨0, 11, false⟩, .vadd ⟨60, 0, 0, false, false, 0, false⟩,
    .vadd ⟨0, 61, 0, false, false, 0, false⟩, .vffma ⟨56, 0, 0, false, false, 0, false⟩, .vmv ⟨60, 0, false, 0, false⟩,
    .viota ⟨60, 0, false⟩, .vredsum ⟨0, 61, false, 0, false⟩, .vdot ⟨0, 0, 61, false, false, 0, false⟩, .vredmax ⟨1, 61, false, 0, false⟩,
    .vcmp ⟨6, 1, 0, 0, false, false, 0, false⟩, .vfcmp ⟨0, 1, 61, 0, false, false, 0, false⟩, .vaddVs ⟨60, 0, 1, false, 0, false⟩,
    .vffmaVs ⟨56, 0, 1, false, 0, false⟩, .vmvVs ⟨60, 1, 0, false⟩, .vcmpVs ⟨6, 1, 0, 1, false, 0, false⟩,
    .vfcmpVs ⟨0, 1, 61, 1, false, 0, false⟩, .vbq ⟨60, 0, 0, false, false⟩, .vld ⟨0, 1, 2, 0, 0, false, 1⟩,
    .vamo ⟨0, 1, 2, false, 0⟩, .vamoRet ⟨0, 1, 10, true, 0⟩, .gathsp ⟨0, 1, 2, 2, false, 1, 0⟩, .rcnoise ⟨60, 0, 1, false, 0⟩,
    .rcset ⟨13, 1, 2⟩].all (fun i => !i.wf) = true := by decide

/-! ## Scalar instructions -/

/-- R277 to R279, by hand from the tables: wraps, signs, division corners, shift amounts modulo 64, extracts past bit 63. -/
theorem test_scalar_results :
    result (.add ⟨3, 5, 6⟩) [(5, 0xFFFFFFFFFFFFFFFF), (6, 2)] 3 = 1 ∧
    result (.sub ⟨3, 5, 6⟩) [(5, 1), (6, 2)] 3 = 0xFFFFFFFFFFFFFFFF ∧
    result (.mulh ⟨3, 5, 6⟩) [(5, 0xFFFFFFFFFFFFFFFF), (6, 2)] 3 = 0xFFFFFFFFFFFFFFFF ∧
    result (.mulhn ⟨3, 5, 6⟩) [(5, 0xFFFFFFFFFFFFFFFF), (6, 2)] 3 = 1 ∧
    result (.div ⟨3, 5, 0⟩) [(5, 7)] 3 = 0xFFFFFFFFFFFFFFFF ∧
    result (.div ⟨3, 5, 6⟩) [(5, 0xFFFFFFFFFFFFFFF9), (6, 2)] 3 = 0xFFFFFFFFFFFFFFFD ∧
    result (.rem ⟨3, 5, 6⟩) [(5, 0xFFFFFFFFFFFFFFF9), (6, 2)] 3 = 0xFFFFFFFFFFFFFFFF ∧
    result (.rem ⟨3, 5, 6⟩) [(5, 0x8000000000000000), (6, 0xFFFFFFFFFFFFFFFF)] 3 = 0 ∧
    result (.remn ⟨3, 5, 0⟩) [(5, 7)] 3 = 7 ∧
    result (.sll ⟨3, 5, 6⟩) [(5, 1), (6, 65)] 3 = 2 ∧
    result (.sra ⟨3, 5, 6⟩) [(5, 0x8000000000000000), (6, 63)] 3 = 0xFFFFFFFFFFFFFFFF ∧
    result (.slt ⟨3, 5, 6⟩) [(5, 0xFFFFFFFFFFFFFFFF), (6, 0)] 3 = 1 ∧
    result (.sltn ⟨3, 5, 6⟩) [(5, 0xFFFFFFFFFFFFFFFF), (6, 0)] 3 = 0 ∧
    result (.min ⟨3, 5, 6⟩) [(5, 0xFFFFFFFFFFFFFFFF), (6, 1)] 3 = 0xFFFFFFFFFFFFFFFF ∧
    result (.minn ⟨3, 5, 6⟩) [(5, 0xFFFFFFFFFFFFFFFF), (6, 1)] 3 = 1 ∧
    result (.clz ⟨3, 5⟩) [(5, 1)] 3 = 63 ∧ result (.ctz ⟨3, 0⟩) [] 3 = 64 ∧ result (.popc ⟨3, 5⟩) [(5, 0xF0F)] 3 = 8 ∧
    result (.sel ⟨3, 5, 6⟩) [(3, 1), (5, 7), (6, 8)] 3 = 7 ∧
    result (.addi ⟨3, 5, 0xFFFF⟩) [(5, 1)] 3 = 0 ∧ result (.andi ⟨3, 5, 0xFFFF⟩) [(5, 0x12345678)] 3 = 0x5678 ∧
    result (.sltin ⟨3, 5, 0xFFFF⟩) [(5, 5)] 3 = 1 ∧ result (.lui ⟨3, 0x8000⟩) [] 3 = 0xFFFFFFFF80000000 ∧
    result (.addpc ⟨3, 2⟩) [] 3 = 0x20 ∧
    result (.bfx ⟨3, 5, 60, 8⟩) [(5, 0xA000000000000000)] 3 = 0x0A ∧ result (.bfx ⟨3, 5, 60, 4⟩) [(5, 0xA000000000000000)] 3 = 0xFFFFFFFFFFFFFFFA ∧
    result (.bfxn ⟨3, 5, 60, 4⟩) [(5, 0xA000000000000000)] 3 = 0xA ∧
    result (.add ⟨0, 5, 5⟩) [(5, 1)] 0 = 0 := by decide

/-- R279: bits off to off + wid − 1 come from the source, also where the field passes bit 63. -/
theorem test_bit_field_inserts :
    result (.bfi ⟨3, 5, 8, 8⟩) [(3, 0xFFFFFFFF), (5, 0x12)] 3 = 0xFFFF12FF ∧
    result (.bfi ⟨3, 5, 60, 8⟩) [(3, 0), (5, 0xFF)] 3 = 0xF000000000000000 ∧
    result (.bfiReg ⟨3, 5, 0, 6⟩) [(3, 7), (5, 0xFF), (6, 0)] 3 = 7 := by decide

/-- R280, R281: 1.5 + 2.25 = 3.75; 1/0-like overflow gives +∞ with OF and NX; a compare with a NaN is false; −1.0 to an integer. -/
theorem test_scalar_fp :
    result (.fadd ⟨3, 5, 6, 0⟩) [(5, 0x3FC00000), (6, 0x40100000)] 3 = 0x40700000 ∧
    result (.fmul ⟨3, 5, 6, 0⟩) [(5, 0x7F7FFFFF), (6, 0x40000000)] 3 = 0x7F800000 ∧
    result (.fsqrt ⟨3, 5, 0⟩) [(5, 0x40800000)] 3 = 0x40000000 ∧
    result (.fcmp ⟨3, 5, 6, 0⟩) [(5, 0x7FC00000), (6, 0x7FC00000)] 3 = 0 := by decide

/-- Every scalar integer instruction has a result, whatever the operands hold: here the first of each form. -/
theorem witness_ScalarResults :
    scalarResult (getS (pState [(5, 3)] id)) 0 (.add ⟨3, 5, 5⟩) = some (3, 6) ∧
    scalarResult (getS (pState [(5, 3)] id)) 0 (.sel ⟨0, 5, 0⟩) = some (0, 0) ∧
    scalarResult (getS (pState [(5, 3)] id)) 0x40 (.addpc ⟨31, 0xFFFF⟩) = some (31, 0x30) := by decide

theorem witness_ScalarFpResults :
    (scalarFpResult (getS (pState [(5, 0x3F800000)] id)) (.fadd ⟨3, 5, 5, 0⟩)) = some (3, (0x40000000, 0)) ∧
    (scalarFpResult (getS (pState [] id)) (.fcvt ⟨3, 5, 0, 0⟩)).isSome = true := by decide

/-! ## Scalar accesses -/

/-- R282, R256: a load of each size at both ends of the page. -/
theorem witness_LoadResults :
    Fresh (pState [(5, 0xFFF8)] id) ∧ streamOf (me (pState [(5, 0xFFF8)] id)) = [] ∧
    scalarReads (pState [(5, 0xFFF8)] id) .load 8 0xFFF8 = true ∧ scalarReads (pState [] id) .load 1 0 = true :=
  ⟨fresh_of (by decide) (by decide) (by decide), by decide⟩

theorem witness_StoreIssues :
    checkScalar (pState [(5, 0x1000)] id) (me (pState [(5, 0x1000)] id)) .store 8 (getS (pState [(5, 0x1000)] id) 5 + (8 : BitVec 13).signExtend 64)
      = .ok (pagePlace 0x1008) := by decide

/-- R161, R282: the stored bytes reach memory when the write leaves the path queue, little-endian. -/
theorem test_store_then_load :
    let s := after (exec (.st ⟨6, 5, 3, 0⟩) (pState [(5, 0x1000), (6, 0x1122334455667788)] id))
    let t := leaveAll s
    memRead t 5 (memLoc 5 0x101000) 8 = [0x88, 0x77, 0x66, 0x55, 0x44, 0x33, 0x22, 0x11] ∧
    getS (after (exec (.ld ⟨7, 5, 4, 1⟩) t)) 7 = 0x77 ∧ getS (after (exec (.ld ⟨7, 5, 4, 0⟩) t)) 7 = 0xFFFFFFFFFFFFFF88 := by decide

theorem witness_RedIssues :
    redForm (.redadd ⟨5, 6, 3, 5, true⟩) = some (.add, 8, 5, 6, 3, 5) ∧
    checkScalar (pState [(5, 0x1000)] id) (me (pState [(5, 0x1000)] id)) .atomic 8 0x1000 = .ok (pagePlace 0x1000) ∧
    (me (pState [(5, 0x1000)] id)).eaPois.getLsbD 3 = false ∧
    checkScalar (pState [(5, 0x1000)] id) (me (pState [(5, 0x1000)] id)) .atomic 64 0x1000 = .ok (pagePlace 0x1000) := by decide

theorem witness_AtomicResults : amoForm (.amocas ⟨7, 5, 6, 3, 0, true⟩) = some (.cas, 8, 7, 5, 6, 3, 0) ∧
    let s := pState [(5, 0x1000), (6, 3)] id
    Fresh s ∧ Quiet (me s) ∧
    checkScalar s (me s) .atomic 8 (getS s 5) = .ok (pagePlace 0x1000) ∧ vacatedFrame s (memLoc 5 0x101000) = false ∧
    memPoisoned s.ord 5 (memLoc 5 0x101000) 8 = false :=
  ⟨rfl, fresh_of (by decide) (by decide) (by decide), by decide⟩

/-- R283: two additions; the second returns the first's sum. CAS writes where the old value is the expected one. -/
theorem test_atomics :
    let s := pState [(5, 0x1000), (6, 3)] id
    let t := after (exec (.amoadd ⟨7, 5, 6, 0, 0, true⟩) s)
    getS t 7 = 0 ∧ getS (after (exec (.amoadd ⟨7, 5, 6, 0, 0, true⟩) { t with slot := 1 })) 7 = 3 ∧
    memRead (after (exec (.amocas ⟨0x7, 5, 6, 0, 0, false⟩) s)) 5 (memLoc 5 0x101000) 4 = [3, 0, 0, 0] := by decide

theorem witness_AccessFaults :
    scalarAccess (pState [(5, 0x10000)] id) (.ld ⟨3, 5, 3, 0⟩) = some (.load, 8, 0x10000) ∧
    checkScalar (pState [] id) (me (pState [] id)) .load 8 0x10000 = .error 0x04 ∧
    checkScalar (pState [] id) (me (pState [] id)) .atomic 64 0x10000 = .error 0x04 ∧
    checkScalar (pState [] id) (me (pState [] id)) .load 8 0x1001 = .error 0x03 ∧
    checkScalar (pState [] id) (me (pState [] id)) .load 8 0x0100000000000000 = .error 0x04 ∧
    checkScalar (pState [] id) (me (pState [] id)) .load 8 0xFF00000000000000 = .error 0x04 ∧
    checkScalar (pState [] id) (me (pState [] id)) .load 8 0xFFFE000000000000 = .error 0x04 := by decide

/-! ## Control and system instructions -/

/-- R287: a taken branch, one that is not taken, and the link of JAL. -/
theorem test_branches :
    (me (after (exec (.beq ⟨5, 6, 0xFFFF⟩) (pState [(5, 1), (6, 1)] fun st => { st with pc := 0x40, npc := 0x50 })))).npc = 0x30 ∧
    (me (after (exec (.bne ⟨5, 6, 0xFFFF⟩) (pState [(5, 1), (6, 1)] fun st => { st with pc := 0x40, npc := 0x50 })))).npc = 0x50 ∧
    getS (after (exec (.jal ⟨1, 2⟩) (pState [] fun st => { st with pc := 0x40 }))) 1 = 0x50 ∧
    (me (after (exec (.jalr ⟨5, 5, 1⟩) (pState [(5, 0x100)] id)))).npc = 0x110 := by decide

theorem witness_BranchesAndJumps :
    branchRule (getS (pState [(5, 1)] id)) (.bltn ⟨0, 5, 3⟩) = some (true, 3) ∧
    branchRule (getS (pState [(5, 1)] id)) (.bge ⟨0, 5, 3⟩) = some (false, 3) ∧
    (getS (pState [(5, 0x100)] id) 5 + 16 * (1 : BitVec 16).signExtend 64).toNat % 16 = 0 ∧
    (getS (pState [(5, 0x101)] id) 5 + 16 * (1 : BitVec 16).signExtend 64).toNat % 16 ≠ 0 := by decide

theorem witness_FencesAndWaits :
    let s := pState [(5, 0xFF00000000000010)] id
    Fresh s ∧
    (∀ k < 8, (0xFF : BitVec 8).getLsbD k = true → (tokOf (me s) k).busy = false ∧ (tokOf (me s) k).pend = false) ∧
    (getS s 5).toNat % 16 = 0 ∧ inSpad (getS s 5) = true ∧
    checkElem s (me s) .load 16 (getS s 5) = .ok (.spad (spadKey 5 0 0x10)) ∧ spadPoisoned s.ord (spadKey 5 0 0x10) 16 = false ∧
    streamOf (me s) = [] ∧ overfull (me s) = false ∧
    (leAt (Memory.getBytes s.ord.spad (spadKey 5 0 0x10) 16) 8 4 + 2 ^ 32 - (getS s 0).toNat % 2 ^ 32) % 2 ^ 32 < 2 ^ 31 :=
  ⟨fresh_of (by decide) (by decide) (by decide), by decide⟩

theorem witness_BarrierArrival :
    let s := pState [(5, 0x1000)] id
    Fresh s ∧ ((0 : BitVec 3).toNat = 1 → (me s).rec_.gang = true) ∧ Quiet (me s) ∧
    checkScalar s (me s) .atomic 16 (getS s 5) = .ok (pagePlace 0x1000) ∧ vacatedFrame s (memLoc 5 0x101000) = false ∧
    memPoisoned s.ord 5 (memLoc 5 0x101000) 16 = false ∧ (1 : BitVec 3).toNat = 1 ∧ (me s).rec_.gang = false :=
  ⟨fresh_of (by decide) (by decide) (by decide), by decide⟩

theorem witness_TrunkException :
    (me (trunkState [] id)).trunk = true ∧ (me (trunkState [] id)).th = false ∧
    (me (trunkState [] fun st => { st with th := true })).th = true ∧ NMap.get? (trunkState [] id).held 0 = none ∧ (me (trunkState [] id)).marks = [] ∧
    (NMap.get? { trunkState [] id with held := [(0, { pos := 2, words := [], replay := false, start := Strand.idle 0 true, mx := [] })] }.held 0).isSome
      = true := by decide

/-- R297: the saved convoy and syllable, and the handler's address. -/
theorem test_trunk_exception :
    let t := takeException { trunkState [] (fun st => { st with tvec := 0x200 }) with slot := 2 } 0x10 7 0
    (me t).pc = 0x200 ∧ (me t).epc = 0x102 ∧ (me t).cause = 0x10 ∧ (me t).eval = 7 ∧ (me t).th = true := by decide

theorem witness_StrandException :
    let s := pState [] id
    (me s).trunk = false ∧ (dispOf s (me s).die).fltEn = false ∧ (me s).sid = s.cur ∧ gangOf s (me s) = [me s] ∧
      NMap.get? s.held s.cur = none ∧ (me s).marks = [] := by decide

/-- R111: a convoy in progress, whose fault gives back the register that an earlier syllable wrote. -/
theorem witness_StrandException_rollback :
    let s := beginConvoy base [0, 0, 0, 0] false
    s.convoy = some (checkpoint base [0, 0, 0, 0] false) ∧ getS (rollback (setS s 5 7)) 5 = 0 ∧ getS (setS s 5 7) 5 = 7 := by decide

/-- The strand and a second member of its gang, in another slot of its die. -/
def gangState : State :=
  let s := pState [] fun st => { st with rec_ := { st.rec_ with gang := true, gsize := 2, child := some 9 } }
  putStrand s 2564 { me s with sid := 2564, rank := 1 }

theorem witness_StrandException_gang :
    let s := gangState
    (me s).trunk = false ∧ (dispOf s (me s).die).fltEn = false ∧ (me s).sid = s.cur ∧ strandOf s 2564 ∈ gangOf s (me s) ∧ 2564 ≠ s.cur ∧
      (strandOf s 2564).sid = 2564 ∧ (strandOf s 2564).run = .running ∧ NMap.get? s.held 2564 = none := by decide

/-- A die with its fault ring at 0x200000 and `n` save slots at 0x300000 in its memory. -/
def saverState (n : Nat) (f : Dispatcher → Dispatcher) : State :=
  let s := pState [(7, 0x77)] id
  putDisp s 5 (f { dispOf s 5 with
    fltEn := true, fltSize := 6, fltBase := BitVec.ofNat 64 (memLoc 5 0x200000), svBase := BitVec.ofNat 64 (memLoc 5 0x300000), svLog := 20,
    svCount := n })

theorem witness_StrandException_saved :
    let s := saverState 4096 fun x => { x with saved := [(0, { strand := me base, parked := true })], fltHead := 63 }
    let x := dispOf s 5
    Stopping s ∧ (freeSlotsOf { x with svCount := 2 }).head? = some 1 ∧ locMem (slotAddr x 1) ≤ 8 ∧ vacatedFrame s (slotAddr x 1) = false ∧
      locMem (ringSlot x) ≤ 8 ∧ vacatedFrame s (ringSlot x) = false ∧ ringSlot x + 64 ≤ slotAddr x 1 ∧
      Stopping (saverState 0 id) ∧ freeSlotsOf (dispOf (saverState 0 id) 5) = [] := by decide

/-- R112, R115: the fault record of a strand that is saved; its save slot is taken and the strand slot is free. -/
theorem test_strand_saved :
    let t := takeException (saverState 1 id) 0x10 7 0
    Memory.getBytes (viewOf t.ord 5) (memLoc 5 0x200000) 4 = [0x10, 0, 0, 0] ∧ memRead t 5 (memLoc 5 0x300000 + 0x40 + 8 * 7) 1 = [0x77] ∧
      (strandOf t bareSid).run = .idle ∧ (dispOf t 5).fltHead = 1 := by decide

theorem witness_ExceptionReturn :
    let s := trunkState [] fun st => { st with th := true, epc := 0x303 }
    (me s).trunk = true ∧ (me s).th = true ∧ (me (after (exec .eret s))).npc = 0x300 ∧ (me (after (exec .eret s))).th = false ∧
    ((me (pState [] id)).trunk && (me (pState [] id)).th) = false := by decide

theorem witness_SystemRegisters :
    sysOk false 0x00 = true ∧ sysOk false 0x5F = true ∧ sysOk false 0x0D = false ∧ sysOk true 0x0D = true ∧ sysOk true 0x20 = false ∧
    flagsDue base 0x0A = false ∧
    flagsDue (pState [] fun st => { st with iq := [[⟨0, 0, 0, [1]⟩]] }) 0x0B = false := by decide

theorem witness_TrunkUnavailable :
    barsTrunk (.vadd ⟨1, 2, 3, false, false, 0, false⟩) = true ∧ barsTrunk (.rcdrop ⟨1, 2⟩) = true ∧ (me (trunkState [] id)).trunk = true := by decide

theorem witness_RepeatFrame :
    let s := placeBytes (pState [(5, 3)] id) (memLoc 5 0x100000) (bytesOf 4 0x64E88100 ++ bytesOf 4 0 ++ bytesOf 4 0xFFFF ++ bytesOf 4 0)
    (me s).trunk = false ∧ s.slot % 4 = 0 ∧ ownWords s = .ok [0x64E88100, 0, 0xFFFF, 0] ∧
    (∀ c < 4, staleWords s (me s) ((me s).pc + BitVec.ofNat 64 (16 * (c + 1))) = none) ∧
    (8 : BitVec 6).toNat + 0 ≤ budgetRegs (me s).budget ∧ (0xFFFF : BitVec 32).toNat < 65536 ∧
    captureWords s (me s) (me s).pc 4 = .ok (List.replicate 16 0) ∧ badCapture 3 0 0xFFFF 0 (List.replicate 16 0) = none := by decide

/-! ## Records and launches -/

theorem witness_RecordEnds :
    let s := placeBytes (pState [(5, 0x1000)] fun st => { st with rec_ := { st.rec_ with share := 2 } }) (memLoc 5 0x101000) (bytesOf 8 0x2004)
    let b := bytesOf 8 0x2004 ++ List.replicate 24 (0 : Byte)
    Fresh s ∧ Ending s ∧ ((0 : BitVec 5) = 0 ∨ (me s).rank ≠ 0) ∧ (5 : BitVec 5) ≠ 0 ∧ (me s).rank = 0 ∧ doneAddr s 5 = 0x1000 ∧
    checkScalar s (me s) .load 32 (doneAddr s 5) = .ok (pagePlace 0x1000) ∧ localBytes s (pagePlace 0x1000) 32 = some b ∧
    successorBad (me s).rec_ b = false ∧ successorBad (me base).rec_ b = true ∧ (me (trunkState [] id)).trunk = true :=
  ⟨fresh_of (by decide) (by decide) (by decide), by decide⟩

/-- R98, R289: DONE of one of three strands of a launch frees its slot, and the child cell counts one less. -/
theorem test_done :
    let s := { pState [] fun st => { st with rec_ := { st.rec_ with child := some 9, parent := 4 } } with
      cells := [(9, { count := 3, tenant := 0, isChild := true, cont := .unset })] }
    let t := after (exec (.done ⟨0⟩) s)
    (strandOf t bareSid).run = .idle ∧ ((NMap.get? t.cells 9).map fun x => (x.count, x.cont)) = some (2, .subParent 4) := by decide

/-- A direct packet of one element at address 0x2000, and a device-side queue of tenant 0 with its ring at 0x4000. -/
def launchState : State :=
  let s := placeBytes (pState [(5, 0x2000), (6, 63)] id) (memLoc 5 0x102000)
    (bytesOf 8 1 ++ bytesOf 8 0 ++ bytesOf 8 1 ++ List.replicate 40 0)
  putQueue s 575 { WorkQueue.reset with base := 0x4000, en := true, nextId := 1 }

theorem witness_LaunchEnqueues :
    let s := launchState
    let s1 := tlbFill s (me s) (getS s 5)
    let x := queueOf s 575
    let b := memRead s (me s).die (memLoc 5 0x102000) 64
    Fresh s ∧ Quiet (me s) ∧ 512 + 64 * (me s).tenant + (getS s 6).toNat = 575 ∧ (me s).trunk = false ∧
    checkScalar s (me s) .load 64 (getS s 5) = .ok (pagePlace 0x2000) ∧ readPoisoned s 5 (memLoc 5 0x102000) 64 = false ∧
    (getS s 6).toNat ≤ 63 ∧ x.en = true ∧ x.stop = 0 ∧ badWord false x.nextId (fun i => leAt b (8 * i) 8) = none ∧
    leAt b 0 1 ≠ 3 ∧ queueHeld x < queueSlots x - 1 ∧
    checkScalar s1 (me s) .store 64 (BitVec.ofNat 64 (x.base.toNat + x.tail)) = .ok (pagePlace 0x4000) ∧
    vacatedFrame s (memLoc 5 0x104000) = false ∧ (me s).pc.toNat = 0 :=
  ⟨fresh_of (by decide) (by decide) (by decide), by decide⟩

/-- The same machine with its queue's ring at 0x10000, which a leaf gives to package 1 (R145). -/
def launchPeerState : State :=
  let s := placeBytes launchState (memLoc 5 0x14008) (bytesOf 8 (3 * 2 ^ 24 + 2 * 2 ^ 20 + 1 * 2 ^ 10 + 2 * 2 ^ 8 + 7))
  { putQueue s 575 { WorkQueue.reset with base := 0x10000, en := true, nextId := 1 } with
    fabric := { s.fabric with en := true, planeUp := 0xFFFFFFFFFFFF, planeEn := 0xFFFFFFFFFFFF } }

theorem witness_LaunchEnqueues_peer :
    let s := launchPeerState
    let s1 := tlbFill s (me s) (getS s 5)
    let x := queueOf s 575
    Fresh s ∧ Quiet (me s) ∧ (me s).trunk = false ∧ s.cur ≠ unitSid ∧ checkScalar s (me s) .load 64 (getS s 5) = .ok (pagePlace 0x2000) ∧
    x.en = true ∧ x.stop = 0 ∧ queueHeld x < queueSlots x - 1 ∧
    (match checkScalar s1 (me s) .store 64 (BitVec.ofNat 64 (x.base.toNat + x.tail)) with | .ok (.peer 1 _) => true | _ => false) = true ∧
    (strandOf (after (exec (.launch ⟨7, 5, 6⟩) s)) unitSid).pq.length = 1 ∧ getS (after (exec (.launch ⟨7, 5, 6⟩) s)) 7 = 1 :=
  ⟨fresh_of (by decide) (by decide) (by decide), by decide⟩

/-- A syllable of slot 0 that has done its work before its strand stopped, with a result of 1. -/
def notedState : State :=
  pState [] fun st => noteDone st 0 noteElem (bytesOf 8 1)

theorem witness_LaunchEnqueues_again : (me notedState).trunk = false ∧ doneBefore notedState noteElem = some (bytesOf 8 1) := by decide

/-- R291, R93: the id goes to sd and the tail moves on. -/
theorem test_launch :
    let t := after (exec (.launch ⟨7, 5, 6⟩) launchState)
    getS t 7 = 1 ∧ (queueOf t 575).tail = 64 ∧ (queueOf t 575).nextId = 2 := by decide

theorem witness_CancelReports :
    cancelQueue (me (pState [] id)) 71 = some (512 + 63) ∧ cancelQueue (me (pState [] id)) 72 = none ∧
    cancelQueue (me (trunkState [] id)) 4607 = some 4607 ∧ cancelQueue (me (trunkState [] id)) 4608 = none ∧
    doneBefore (pState [] id) noteElem = none ∧ doneBefore notedState noteElem = some (bytesOf 8 1) ∧
    (∀ l, launchOf base 0 1 = some l → l.finished = true) ∧
    (let l : Launch := { mkLaunch 1 (fun i => [1, 0, 3].getD i 0) with gran := 2, e := 3 }
     launchOf (putQueue base 0 { WorkQueue.reset with live := [l] }) 0 1 = some l ∧ l.finished = false) :=
  ⟨by decide, by decide, by decide, by decide, by decide, by decide,
    fun l h => by rw [(by decide : launchOf base 0 1 = none)] at h; exact absurd h (by simp), by decide⟩

/-- R108: a launch that is not live reports bit 62. -/
theorem test_cancel : result (.cancel ⟨7, 0, 0⟩) [] 7 = 0x4000000000000000 := by decide

/-! ## Vector instructions -/

/-- Two elements of 32 bits: v1 = (7, −1), v2 = (2, 2), v3 = (9, 9); types i32 and f32. -/
def vState (f : Strand → Strand) : State :=
  pState [(5, 0x1000), (6, 2)] fun st => f { st with
    vl := 2, vt0 := ⟨2, 0⟩, vt1 := ⟨10, 0⟩
    vregs := [[], [7, 0xFFFFFFFF], [2, 2], [9, 9], [0x3F800000, 0x40000000]] ++ List.replicate 51 []
    preds := [0, 1] ++ List.replicate 6 0
    iq := [qpush [] 0 32 [(5, true), (6, true)], [], [], []]
    oq := [qpush [] 0 32 [(0, true), (1, true)], qpush [] 0 64 [(3, true), (9, false)], [], []] }

/-- Register d of the strand that an instruction leaves. -/
def vresult (i : Instr) (f : Strand → Strand) (d : Nat) : List Word := (me (after (exec i (vState f)))).vregs.getD d []

theorem witness_VectorConfiguration :
    (me (vState id)).trunk = false ∧ (6 : BitVec 3) ≠ 7 ∧ (10 : BitVec 4).toNat ≤ 10 ∧
    maxvlOf ⟨0, 2⟩ 0 0 = 16384 ∧ maxvlOf ⟨6, 3⟩ 2 0 = 256 := by decide

/-- R306, R304: by hand; the inactive element of the last row stays. -/
theorem test_vector_integer :
    vresult (.vadd ⟨3, 1, 2, false, false, 0, false⟩) id 3 = [9, 1] ∧
    vresult (.vmulh ⟨3, 1, 2, false, false, 0, false⟩) id 3 = [0, 0xFFFFFFFF] ∧
    vresult (.vsll ⟨3, 1, 2, false, false, 0, false⟩) id 3 = [28, 0xFFFFFFFC] ∧
    vresult (.vmax ⟨3, 1, 2, false, false, 1, false⟩) id 3 = [7, 9] ∧
    vresult (.vclz ⟨3, 1, false, 0, false⟩) id 3 = [29, 0] ∧
    vresult (.vsubVs ⟨3, 1, 6, false, 0, false⟩) id 3 = [5, 0xFFFFFFFD] ∧
    vresult (.vfadd ⟨3, 4, 4, false, false, 0, true⟩) id 3 = [0x40000000, 0x40800000] ∧
    vresult (.vsel ⟨3, 1, 2, false, false, 1, false⟩) id 3 = [7, 2] ∧
    vresult (.vadd ⟨3, 56, 2, true, false, 0, false⟩) id 3 = [7, 8] := by decide

theorem witness_VectorIntResults :
    (me (vState id)).trunk = false ∧
    (([.vadd ⟨3, 56, 60, true, false, 1, false⟩, .vaddVs ⟨7, 1, 6, false, 0, false⟩, .vmvVs ⟨56, 6, 0, false⟩, .viota ⟨3, 1, false⟩,
       .vclz ⟨3, 1, false, 0, false⟩, .vsel ⟨3, 1, 2, false, false, 1, true⟩] : List Instr).all fun i =>
      (intForm (vState id) i).any fun F => F.fits (me (vState id)) && (vsrcs (me (vState id)) F.srcs).isSome) = true := by decide

theorem witness_VectorFpResults :
    (me (vState id)).trunk = false ∧
    (([.vfadd ⟨3, 4, 4, false, false, 0, true⟩, .vffmaVs ⟨55 - 48, 4, 6, false, 0, true⟩, .vfscl ⟨3, 4, 1, false, false, 0, true⟩,
       .vfsqrt ⟨3, 4, false, 0, true⟩, .vfcvt ⟨3, 1, false, 0, true⟩] : List Instr).all fun i =>
      (fpForm (vState id) i).any fun F => F.fits (me (vState id)) && (vsrcs (me (vState id)) F.srcs).isSome) = true := by decide

/-- R313: an index past VL gives 0; a slide by 1. -/
theorem test_permutes :
    vresult (.vperm ⟨3, 1, 2, false, false, 0, false⟩) id 3 = [0, 0] ∧
    vresult (.vslidedn ⟨3, 1, 7, false, 0, false⟩) (fun st => swrite st 7 1) 3 = [0xFFFFFFFF, 0] ∧
    vresult (.vslideup ⟨3, 1, 7, false, 0, false⟩) (fun st => swrite st 7 1) 3 = [9, 7] ∧
    vresult (.vcompress ⟨3, 1, false, 1, false⟩) id 3 = [7, 9] := by decide

theorem witness_PermuteResults :
    (me (vState id)).trunk = false ∧
    (([.vperm ⟨3, 1, 2, false, false, 0, false⟩, .vexpand ⟨56, 1, false, 1, false⟩, .vslideup ⟨3, 1, 6, false, 0, false⟩] : List Instr).all fun i =>
      (permForm (vState id) i).any fun F => (F.srcs.all fun x => fieldFits (me (vState id)) x.1 x.2) && fieldFits (me (vState id)) F.vd F.wd &&
        (vsrcs (me (vState id)) F.srcs).isSome) = true := by decide

theorem witness_PredicateResults :
    (me (vState id)).trunk = false ∧
    (([.vcmp ⟨2, 2, 1, 2, false, false, 0, false⟩, .vfcmpVs ⟨0, 0, 4, 6, false, 1, true⟩] : List Instr).all fun i =>
      (cmpForm (vState id) i).any fun F => (F.srcs.all fun x => fieldFits (me (vState id)) x.1 x.2) && (vsrcs (me (vState id)) F.srcs).isSome) = true ∧
    (predForm (me (vState id)) (.pnot ⟨0, 1⟩)).isSome = true := by decide

/-- R310, R312: −1 < 2 is signed; the count and the first of p1. -/
theorem test_predicates :
    predBit (me (after (exec (.vcmp ⟨2, 2, 1, 2, false, false, 0, false⟩) (vState id)))) 2 0 = false ∧
    predBit (me (after (exec (.vcmp ⟨2, 2, 1, 2, false, false, 0, false⟩) (vState id)))) 2 1 = true ∧
    getS (after (exec (.ppopc ⟨9, 1⟩) (vState id))) 9 = 1 ∧ getS (after (exec (.pfirst ⟨9, 2⟩) (vState id))) 9 = 0xFFFFFFFFFFFFFFFF := by decide

theorem witness_VectorDestinations : (55 < 56 ∧ 56 ≤ 56 ∧ 3 < 4) ∧ (64 = 8 ∨ 64 = 16 ∨ 64 = 32 ∨ 64 = 64) ∧
    qread (qpush [] 0 64 [(2 ^ 64 + 1, true), (7, false)]) 0 2 64 = some ([(1, true), (7, false)], []) := by decide

theorem witness_ReductionResults :
    let st := me (vState id)
    st.trunk = false ∧ tyAny (slotTy st false) = true ∧ tyInt (slotTy st false) = true ∧ tyFp (slotTy st true) = true ∧
    fieldFits st 1 32 = true ∧ fieldFits st 2 32 = true ∧ fieldFits st 3 32 = true ∧ (vsrcs st [(1, 32)]).isSome = true ∧
    (vsrcs st [(1, 32), (2, 32)]).isSome = true := by decide

/-- R314 to R316: 7 + (−1) = 6; 7 × 2 + (−1) × 2 = 12; the greatest, the least, its index; a running sum. -/
theorem test_reductions :
    getS (after (exec (.earnd ⟨9, 1, true⟩) (after (exec (.vredsum ⟨1, 1, false, 0, false⟩) (vState id))))) 9 = 0x40C00000 ∧
    getS (after (exec (.earnd ⟨9, 1, true⟩) (after (exec (.vdot ⟨1, 1, 2, false, false, 0, false⟩) (vState id))))) 9 = 0x41400000 ∧
    getS (after (exec (.vredmax ⟨9, 1, false, 0, false⟩) (vState id))) 9 = 7 ∧
    getS (after (exec (.vredmin ⟨9, 1, false, 0, false⟩) (vState id))) 9 = 0xFFFFFFFFFFFFFFFF ∧
    getS (after (exec (.vargmax ⟨9, 2, false, 0, false⟩) (vState id))) 9 = 0 ∧
    vresult (.vscan ⟨3, 1, 2, false, false, 0, false⟩) id 3 = [9, 8] := by decide

theorem witness_AccumulatorResults :
    let st := me (vState id)
    st.trunk = false ∧ tyFp (slotTy st true) = true ∧ eaPoisoned st 3 = false ∧ (iqOf st 0).length = 1 ∧
    eaPoisoned { st with eaPois := 8 } 3 = true := by decide

/-- E4M3 in descriptor 0, and an empty block of 16 words in v5. -/
theorem witness_BlockConversions :
    let st := { me (vState id) with fds := [0x00070871] ++ List.replicate 15 0, vregs := (me (vState id)).vregs.set 5 (List.replicate 16 0) }
    st.trunk = false ∧ slotTy st true = 10 ∧ slotMode st true = .rne ∧ fieldFits st 4 32 = true ∧ fieldFits st 3 32 = true ∧
    budgetWidth st.budget = 32 ∧ fdValid (fdOf (st.fds.getD 0 0)) = true ∧
    16 * ceilDiv st.vl (blkE (fdOf (st.fds.getD 0 0)).wid) ≤ st.maxvl ∧ (vsrc st 4 32).isSome = true ∧
    tyFp (slotTy st true) = true ∧ (vsrcN st 5 (16 * ceilDiv st.vl (blkE (fdOf (st.fds.getD 0 0)).wid)) 32).map (·.1) = some (List.replicate 16 0) ∧
    (runsOf 16 1 (List.replicate 16 0)).map (packCodes 32) = [0] ∧ blkFcode 0 = 0 := by decide

/-! ## Vector accesses -/

/-- Two rows in out-queue 0 as indices (0 and 1), two 32-bit data elements in out-queue 1, the second inactive. -/
def aState (f : Strand → Strand) : State :=
  vState fun st => f { st with oq := [qpush [] 0 32 [(0, true), (1, true)], qpush [] 0 32 [(3, true), (9, false)],
    qpush [] 0 64 [(5, true), (6, true)], []] }

theorem witness_VectorLoads :
    let s := aState fun st => { st with vstart := 0 }
    Fresh s ∧ Quiet (me s) ∧ (me s).trunk = false ∧ visited s = [0, 1] ∧
    ((loadForm s (.vld ⟨0, 5, 0, 2, 0, true, 3⟩)).any fun x => x.2.wait == some 3 && (visited s).all fun k =>
      x.2.act k && reads s .load x.2.n (x.2.addr k)) = true ∧
    (tokOf (me s) 3).busy = false ∧ (tokOf (me s) 3).pend = false ∧
    ((loadForm s (.vldxU ⟨0, 5, 0, 2, 0, 2⟩)).any fun x => (visited s).all fun k => x.2.act k && reads s .load x.2.n (x.2.addr k)) = true :=
  ⟨fresh_of (by decide) (by decide) (by decide), by decide⟩

/-- R322, R131: 32-bit elements at 0x1000 arrive in index order. -/
theorem test_vector_load :
    let s := placeBytes (aState id) (memLoc 5 0x101000) [1, 0, 0, 0, 2, 0, 0, 0]
    qread (iqOf (me (after (exec (.vld ⟨2, 5, 0, 2, 0, false, 0⟩) s))) 2) 0 2 32 = some ([(1, true), (2, true)], []) := by decide

theorem witness_VectorStores :
    let s := aState id
    (me s).trunk = false ∧
    (([.vst ⟨1, 5, 0, 2, 0, false, 0⟩, .vstxO ⟨1, 5, 0, 2, 3, 2⟩, .vamo ⟨1, 5, 4, false, 0⟩] : List Instr).all fun i =>
      (storeForm s i).any fun F => F.act 0 && !F.act 1 && places s .store F.n (F.addr 0)) = true ∧
    places s .atomic 4 0x1000 = true ∧ hasEntered (me s) s.slot = false := by decide

/-- R161, R326: the active element reaches memory once its write leaves the path queue; the inactive one writes nothing. -/
theorem test_vector_store :
    let s := placeBytes (aState id) (memLoc 5 0x101000) [7, 7, 7, 7, 7, 7, 7, 7]
    memRead (leaveAll (after (exec (.vst ⟨1, 5, 0, 2, 0, false, 0⟩) s))) 5 (memLoc 5 0x101000) 8 = [3, 0, 0, 0, 7, 7, 7, 7] := by decide

theorem witness_VectorAtomicResults :
    (let s := aState id
     (me s).trunk = false ∧ hasEntered (me s) s.slot = false ∧ bridgeUp s 5 5 = true ∧ ((vamoForm s ⟨1, 5, 0, false, 0⟩).any fun F => F.act 0 && !F.act 1 && places s .atomic F.n (F.addr 0)) = true) ∧
    (let s := aState id
     let a := mkAcc .ls (pagePlace 0x1000) 0x1000 4 (.atomic .add 4 3) false false true
     memPlace a.place = some (memLoc 5 0x101000, 5) ∧ a.kind = .atomic .add 4 3 ∧ a.size = 4 ∧ vacatedFrame s (memLoc 5 0x101000) = false ∧
     memPoisoned s.ord 5 (memLoc 5 0x101000) 4 = false) ∧
    [2, 0].Perm ((List.range 3).filter fun k => (([(7, true), (8, false), (9, true)] : List (Nat × Bool)).getD k (0, false)).2) := by decide

/-- R332: the old value of the active element enters the in-queue once the element has left its path queue, and the sum stands in memory. -/
theorem test_vector_atomic :
    let s := placeBytes (aState id) (memLoc 5 0x101000) [4, 0, 0, 0]
    let t := leaveAll (after (exec (.vamoRet ⟨1, 5, 0, false, 0⟩) s))
    qread (iqOf (me t) 1) 0 2 32 = some ([(4, true), (0, false)], []) ∧ memRead t 5 (memLoc 5 0x101000) 4 = [7, 0, 0, 0] := by decide

theorem witness_TicketedAccesses :
    let s := aState id
    Fresh s ∧ (me s).trunk = false ∧ streamOf (me s) = [] ∧ s.ord.performed = s.ord.nextTicket ∧ s.ord.dead = [] ∧
    (∀ k ∈ visited s, checkElem s (me s) .load 8 (contiguous s 5 0 8 k) = .ok (pagePlace (0x1000 + 8 * k)) ∧
      localBytes s (pagePlace (0x1000 + 8 * k)) 8 = some (List.replicate 8 0)) ∧
    qread (oqOf (me s) 1) (startOf s) (me s).vl 32 = some ([(3, true), (9, false)], []) ∧
    checkElem s (me s) .store 4 (contiguous s 5 0 4 0) = .ok (pagePlace 0x1000) ∧ s.look = none ∧ hasEntered (me s) s.slot = false :=
  ⟨fresh_of (by decide) (by decide) (by decide), by decide⟩

/-- A descriptor at 0x2000 of bf16 keys at 0x3000: 2 valid rows, 2 dimensions, pairs of neighbours (R243). -/
def rotState : State :=
  placeBytes (placeBytes (vState fun st => swrite (swrite st 8 0x2000) 9 0) (memLoc 5 0x102000)
    (bytesOf 8 0x3000 ++ bytesOf 4 0 ++ [2, 0, 0, 0] ++ bytesOf 2 2 ++ List.replicate 14 0)) (memLoc 5 0x103000) [0x80, 0x3F, 0x00, 0x40]

theorem witness_RotaryLoads :
    (let s := vState fun st => { st with vl := 0 }
     (me s).trunk = false ∧ (me s).vl ≤ startOf s) ∧
    let s := rotState
    let w := fun k => (bytesOf 8 0x3000 ++ bytesOf 4 0 ++ [2, 0, 0, 0] ++ bytesOf 2 2 ++ List.replicate 14 0 : List Byte).drop (8 * k) |>.take 8
    let d := kvDesc (w 0 ++ w 1 ++ w 2 ++ w 3)
    let s1 := filled s ((List.range 4).map fun k => getS s 8 + BitVec.ofNat 64 (8 * k))
    Fresh s ∧ Quiet (me s) ∧ (me s).trunk = false ∧ startOf s < (me s).vl ∧
    (getS s 8).toNat % 32 = 0 ∧
    (∀ k < 4, checkElem s (me s) .load 8 (getS s 8 + BitVec.ofNat 64 (8 * k)) = .ok (pagePlace (0x2000 + 8 * k)) ∧
      localBytes s (pagePlace (0x2000 + 8 * k)) 8 = some (w k)) ∧ kvOk d = true ∧
    (∀ k ∈ visited s,
      let a0 := kvRead d ((getS s 9).toNat + k / d.hdim) (kvPair d (k % d.hdim)).2.1
      let a1 := kvRead d ((getS s 9).toNat + k / d.hdim) (kvPair d (k % d.hdim)).2.2
      (getS s 9).toNat + k / d.hdim < d.vrows ∧ checkElem s1 (me s1) .load a0.2 a0.1 = .ok (pagePlace 0x3000) ∧
      localBytes s (pagePlace 0x3000) a0.2 = some [0x80, 0x3F] ∧ checkElem s1 (me s1) .load a1.2 a1.1 = .ok (pagePlace 0x3002) ∧
      localBytes s (pagePlace 0x3002) a1.2 = some [0x00, 0x40] ∧
      (rotaryEl s d (getS s 9).toNat [0x80, 0x3F] [0x00, 0x40] k).isSome = true) :=
  ⟨by decide, fresh_of (by decide) (by decide) (by decide), by decide⟩

/-! ## Engines, the index scratchpad, sparse tiles and the matrix array -/

/-- A trunk strand with the leaves of two pages of the tenant in its TLB, at 0x1000 and 0x8000. -/
def trunkPages : State :=
  filled { trunkState [(5, 0x8000), (6, 0x1000)] id with tkroot := NMap.getD base.tnroot 0 0 } [0x8000, 0x1000]

theorem witness_CopiesStart :
    let s := vState fun st => swrite (swrite st 8 0x2000) 9 0x1000
    let okR := fun (t : Token) (n : Nat) => (List.range n).all fun e => (elRanges t e).all fun r => !inSpad r.1
    Fresh s ∧ Quiet (me s) ∧ (me s).trunk = false ∧ (∀ k < 8, (tokOf (me s) k).busy = false) ∧ (tokOf (me s) 7).pend = false ∧
    (me s).vl % 2 = 0 ∧ (getS s 8).toNat % 2 = 0 ∧ (getS s 9).toNat % 2 = 0 ∧
    okR (newCopy (me s) .copy (getS s 8) (getS s 9) 2 []) (ceilDiv (me s).vl 2) = true ∧ Unheld s :=
  ⟨fresh_of (by decide) (by decide) (by decide), by decide⟩

theorem witness_CopiesStart_xfetch :
    let s := vState fun st => swrite (swrite st 8 0x2000) 9 (5 * 2 ^ 29)
    peerOk (getS s 9).toNat (me s).vl false = true ∧ (tokOf (me s) 0).pend = false ∧ (getS s 8).toNat % 1 = 0 ∧
    ((List.range 2).all fun e => (elRanges (newCopy (me s) .xfetch (getS s 8) (getS s 9) 1 []) e).all fun r => !inSpad r.1) = true := by
  decide

theorem witness_CopiesStart_gathsp :
    let s := aState fun st => swrite (swrite st 8 0x2000) 9 0x4000
    let rows := [some 0, some 1]
    (tokOf (me s) 3).pend = false ∧ (getS s 8).toNat % 64 = 0 ∧ (getS s 9).toNat % 64 = 0 ∧
    qread (oqOf (me s) 0) (startOf s) (me s).vl 32 = some ([(0, true), (1, true)], []) ∧
    ((List.range 2).all fun e => (elRanges (newCopy (me s) .gathsp (getS s 8) (getS s 9) 64 rows) e).all fun r => !inSpad r.1) = true := by
  decide

theorem witness_CopiesStart_trunk :
    let s := trunkPages
    Fresh s ∧ Quiet (me s) ∧ (me s).trunk = true ∧
    (getS s 5).toNat % 8 = 0 ∧ (getS s 6).toNat % 8 = 0 ∧
    (∀ e < 64,
      let src := getS s 6 + BitVec.ofNat 64 (e * 8)
      let dst := getS s 5 + BitVec.ofNat 64 (e * 8)
      (tlbFind s (me s) src).isSome = true ∧ (tlbFind s (me s) dst).isSome = true ∧
      checkElem s (me s) .load 8 src = .ok (.mem (memLoc 5 (0x101000 + e * 8)) 5) ∧ memPoisoned s.ord 0 (memLoc 5 (0x101000 + e * 8)) 8 = false ∧
      vacatedFrame s (memLoc 5 (0x101000 + e * 8)) = false ∧
      checkElem s (me s) .store 8 dst = .ok (.mem (memLoc 5 (0x108000 + e * 8)) 5) ∧
      vacatedFrame s (memLoc 5 (0x108000 + e * 8)) = false) :=
  ⟨fresh_of (by decide) (by decide) (by decide), by decide⟩

theorem witness_CopiesStart_trunk_xfetch :
    let s := filled { trunkState [(5, 0x8000), (6, 5 * 2 ^ 29)] id with tkroot := NMap.getD base.tnroot 0 0 } [0x8000]
    let word := fun e => (getS s 6 + BitVec.ofNat 64 (e * 8)).toNat
    peerOk (getS s 6).toNat (64 * 8) false = true ∧ (getS s 5).toNat % 8 = 0 ∧
    (∀ e < 64,
      let dst := getS s 5 + BitVec.ofNat 64 (e * 8)
      bitsN (word e) 33 10 = s.fabric.pkgId ∧ tenantAt s 0 (peerKey (word e) / 2 ^ 24) = true ∧
      bridgeUp s (me s).die (peerKey (word e) / 2 ^ 29) = true ∧ spadPoisoned s.ord (peerKey (word e)) 8 = false ∧
      (tlbFind s (me s) dst).isSome = true ∧ checkElem s (me s) .store 8 dst = .ok (.mem (memLoc 5 (0x108000 + e * 8)) 5) ∧
      vacatedFrame s (memLoc 5 (0x108000 + e * 8)) = false) ∧
    (me s).trunk = true ∧ (1 : BitVec 3) ≠ 0 := by decide

theorem witness_SendsIssue :
    let s := vState fun st => swrite (swrite st 8 (5 * 2 ^ 29)) 9 0x1000
    Fresh s ∧ Quiet (me s) ∧ peerOk (getS s 8).toNat (me s).vl true = true ∧
    wayTo s (me s) (bitsN (getS s 8).toNat 33 10) (bitsN (getS s 8).toNat 29 4) = true ∧
    (List.range (ceilDiv (me s).vl 2 - startOf s / 2)).map (startOf s / 2 + ·) = [0] ∧
    checkElem s (me s) .load 2 (getS s 9) = .ok (pagePlace 0x1000) ∧ localBytes s (pagePlace 0x1000) 2 = some [0, 0] :=
  ⟨fresh_of (by decide) (by decide) (by decide), by decide⟩

theorem witness_SendsIssue_trunk :
    let s := filled { trunkState [(5, 5 * 2 ^ 29), (6, 0x1000)] id with tkroot := NMap.getD base.tnroot 0 0 } [0x1000]
    let w := (getS s 5).toNat
    Fresh s ∧ Quiet (me s) ∧ (me s).trunk = true ∧ peerOk w (64 * 8) true = true ∧ bitsN w 33 10 = s.fabric.pkgId ∧
    bridgeUp s (me s).die (bitsN w 29 4) = true ∧
    (∀ c ∈ chunksOf (64 * 8), tenantAt s (me s).tenant (peerKey (w + c.1) / 2 ^ 24) = true ∧
      bridgeUp s (me s).die (peerKey (w + c.1) / 2 ^ 29) = true) ∧
    (∀ e < 64, checkElem s (me s) .load 8 (getS s 6 + BitVec.ofNat 64 (e * 8)) = .ok (.mem (memLoc 5 (0x101000 + e * 8)) 5) ∧
      localBytes s (.mem (memLoc 5 (0x101000 + e * 8)) 5) 8 = some (List.replicate 8 0)) :=
  ⟨fresh_of (by decide) (by decide) (by decide), by decide⟩

/-- Keys 5 and 6 with values 3 (active) and 9; an index partition that holds `n` other keys, of a record with a quarter of the memory. -/
def xState (n : Nat) (act : Bool) : State :=
  vState fun st => { st with
    rec_ := { st.rec_ with share := 2 }
    oq := [qpush [] 0 64 [(5, true), (6, act)], qpush [] 0 64 [(3, true), (9, act)], [], []]
    xkind := .i64, xents := (List.range n).map fun k => { key := BitVec.ofNat 64 (1000 + k), val := 1 } }

theorem witness_IndexScratchpad :
    (me (xState 2 true)).trunk = false ∧
    ((indexForm (xState 2 true) (.xins ⟨0, 1⟩)).any fun F => F.full == none && F.ents.length == 4) = true ∧
    qread (oqOf (me (xState 2 true)) 0) 0 2 64 = some ([(5, true), (6, true)], []) := by decide

theorem witness_IndexScratchpad_full :
    ((indexForm (xState 255 true) (.xacc ⟨0, 1⟩)).any fun F => F.full == some (1, 6) && F.lowest == 0) = true ∧
    ((indexForm (xState 256 true) (.xins ⟨0, 1⟩)).any fun F => F.full == some (0, 5) && F.lowest == 0) = true := by decide

/-- R212: XACC adds to the value of a key that stands, and starts an absent key at 0. -/
theorem test_index :
    let t := after (exec (.xacc ⟨0, 1⟩) (vState fun st => { st with
      oq := [qpush [] 0 64 [(5, true), (6, true)], qpush [] 0 64 [(3, true), (9, true)], [], []], xkind := .i64, xents := [⟨5, 4⟩] }))
    (me t).xents = [⟨5, 7⟩, ⟨6, 9⟩] := by decide

/-- A parameter block at 0x2000 (R357): source 0x4000, limit 256, one group, one row, 1 of 2, E4M3. -/
def pruneState : State :=
  let s := vState fun st => { swrite (swrite st 8 0x2000) 9 0x3000 with fds := [0x00070871] ++ List.replicate 15 0 }
  placeBytes s (memLoc 5 0x102000)
    (bytesOf 8 0x4000 ++ bytesOf 8 256 ++ bytesOf 4 1 ++ bytesOf 2 1 ++ [1, 2, 8, 0] ++ List.replicate 6 0)

def pruneBytes : List Byte := bytesOf 8 0x4000 ++ bytesOf 8 256 ++ bytesOf 4 1 ++ bytesOf 2 1 ++ [1, 2, 8, 0] ++ List.replicate 6 0

/-- Whether a run of writes passes its checks. -/
def placed (x : Except (Nat × Word) (List QItem)) : Bool :=
  match x with
  | .ok _ => true
  | .error _ => false

theorem witness_SparseTiles :
    let s := pruneState
    let P := pruneBlk pruneBytes
    Fresh s ∧ (me s).trunk = false ∧ streamOf (me s) = [] ∧ (getS s 8).toNat % 32 = 0 ∧ (getS s 9).toNat % 64 = 0 ∧
    checkElem s (me s) .load 32 (getS s 8) = .ok (pagePlace 0x2000) ∧ localBytes s (pagePlace 0x2000) 32 = some pruneBytes ∧
    pruneCheck (mxCols (me s).die) P P.wid = 0 ∧
    placed (wordItems (filled s [getS s 8]) (nextGroup (me s)) (getS s 9) (hdrBytes P.transp false P.n P.m P.wid P.rowb P.kgroups P.rowb)) = true :=
  ⟨fresh_of (by decide) (by decide) (by decide), by decide⟩

theorem witness_SparseTiles_prune :
    let s := pruneState
    let P := pruneBlk pruneBytes
    let b0 : List Byte := List.replicate 64 0
    let d := blkDesc (me s) (numOf b0)
    let s1 := filled s [getS s 8]
    let s2 := filled s1 [P.src]
    let s3 := filled s2 ((List.range (P.rowb * ceilDiv (P.kgroups * P.m) (blkE d.wid))).map fun k => P.src + BitVec.ofNat 64 (64 * k))
    let out := prunedRows P (blkFcode (numOf b0)) d [numOf b0] (startOf s)
    P.rowb * ceilDiv (P.kgroups * P.m) (blkE d.wid) = 1 ∧ P.src.toNat % 64 = 0 ∧
    checkElem s1 (me s) .load 64 P.src = .ok (pagePlace 0x4000) ∧ localBytes s (pagePlace 0x4000) 64 = some b0 ∧
    blkValid (me s) (numOf b0) = true ∧ pruneBad s2 (getS s 9) P d.wid 1 (startOf s) = none ∧ P.transp = false ∧ P.zeros = true ∧
    pruneCheck (mxCols (me s).die) P d.wid = 0 ∧ checkElem s2 (me s) .load 64 P.src = .ok (pagePlace 0x4000) ∧
    rowsFit P d.wid = P.rowb ∧ 64 ≤ P.limit ∧
    placed (writeAll s3 (nextGroup (me s)) (tileWrites (getS s 9) P d.wid (startOf s) out)) = true := by decide

/-- A hold of 64 rows whose active plane is one E4M3 block. -/
def mxState (f : MxHold → MxHold) : State :=
  let s := vState fun st => { swrite (swrite (swrite st 8 1) 9 1) 10 64 with
    fds := [0x00070871] ++ List.replicate 15 0, iq := [qpush [] 0 512 [(0x7F00, true)], [], [], []] }
  let plane := { MxPlane.empty with fresh := false, dense := [0x7F00], cursor := 1, width := 8, bp := 1 }
  let h : MxHold :=
    { owner := mxOwner (me s), rank := (me s).rank, slices := 1, grant := 64, shadow := MxPlane.empty, active := plane, acc := [],
      accPois := [] }
  { s with mx := NMap.set s.mx (me s).clusterKey [f h] }

theorem witness_MatrixArray :
    let s := mxState id
    (me s).trunk = false ∧ (getS s 10).toNat % 64 = 0 ∧ (mxFree (mxDrop s (me s)) (me s)).take (min 64 (mxRows (me s).die) / 64) = [0] ∧
    getS s 0 = 0 ∧ getS s 8 ≠ 0 ∧ (getS s 8).toNat < 2 ^ 32 ∧
    ((blocksOf (me s) 0 1).map fun x => x.1) = some [0x7F00] ∧ (loadPlane (myHold s)).cursor = 0 ∧ blkFcode 0x7F00 ≠ 0xF0 ∧
    (match loadDense (me s) 64 (mxCols (me s).die) (loadPlane (myHold s)) [0x7F00] with | .ok p => p.cursor == 1 | .error _ => false) = true ∧
    holdOf (vState id) (me (vState id)) = none ∧ (holdOf s (me s)).isSome = true := by decide

theorem witness_MatrixArray_stream :
    let s := mxState id
    (myHold s).grant ≠ 0 ∧ (myHold s).active.width ≠ 0 ∧ streamBlocks (myHold s).active = 1 ∧
    (getS s 10).toNat ≤ mxAccr (me s).die (myHold s).grant ∧ (getS s 8).toNat + (getS s 9).toNat ≤ mxAccr (me s).die (myHold s).grant ∧
    blkValid (me s) 0x7F00 = true ∧ blkE (blkDesc (me s) 0x7F00).wid = blkE (myHold s).active.width := by decide

/-- A drain of 2 rows of 2 columns (R355): bits 15:0 and 31:16 of s[sb]. -/
theorem witness_MatrixArray_drain :
    let s := mxState id
    let dw := drainWord (mxCols (me s).die) 0x00020002
    dw.mbz = true ∧ dw.ncol ≤ mxCols (me s).die ∧ dw.blk = false ∧ slotTy (me s) true = 10 ∧
    (getS s 8).toNat + dw.nrow ≤ mxAccr (me s).die (myHold s).grant ∧
    (drainRow (myHold s) (tyFmt 10) .rne dw.ncol 1 ++ drainRow (myHold s) (tyFmt 10) .rne dw.ncol 2).all (fun x => !x.2.2) = true ∧
    (drainWord 256 0x100020001).blk = true ∧ (drainWord 256 0x100020001).mbz = true ∧ fdValid (fdOf ((me s).fds.getD 0 0)) = true ∧
    slotMode (me s) true = .rne ∧
    (drainBlocks (myHold s) 0 (fdOf ((me s).fds.getD 0 0)) false 2 1).all (fun x => !x.2.2) = true := by decide

/-- R198, R347 on a D-die: 128 rows are two free slices. -/
theorem test_matrix_attach : result (.mxatt ⟨7, 5⟩) [(5, 128)] 7 = 128 := by decide

/-! ## The race unit and the detokeniser -/

/-- Race context 0 of tenant 0 and the strand's binding to it; v1 holds two f32 scores. -/
def rState (f : RaceCtx → RaceCtx) (g : RaceBind → RaceBind) : State :=
  putRace (vState fun st => { st with
      vregs := st.vregs.set 1 [0x3F800000, 0x40000000]
      race := g { bound := true, ctx := 0, shard := 1, tag := 1, cands := [(0x40000000, 7)] } })
    0 (f { RaceCtx.reset with assigned := true, st := 0, vocab := 100, epoch := 1, active := 3, mask := 3, btab := 0x3000 })

theorem witness_ContextChecks :
    ctxOperand (.rcbound ⟨3, 1, 5, false, 0⟩) = some (5, true) ∧ (me (rState id id)).trunk = false ∧ barsTrunk (.rcpick ⟨3, 0⟩) = false ∧
    ctxOf false 64 = none ∧ ctxOf true 0xFFFFFFFF00000040 = none ∧ ctxOf true 0xFFFFFFFF0000003F = some 63 ∧ ctxOf false 63 = some 63 ∧
    ownsCtx (rState id id) (me (rState id id)) 63 = false := by decide

/-- Register 0 names context 0, which the strand owns. -/
theorem performs_zero (f : RaceCtx → RaceCtx) (g : RaceBind → RaceBind) (i : Instr) (ss : BitVec 5) (hi : Bool)
    (h : ctxOperand i = some (ss, hi)) (hc : ctxOf hi (getS (rState f g) ss) = some 0) (ho : ownsCtx (rState f g) (me (rState f g)) 0 = true)
    (hm : (raceOf (rState f g) 0).merging = none) : Performs (rState f g) i 0 := ⟨ss, hi, h, hc, ho, hm⟩

theorem witness_RaceControl :
    Performs (rState id id) (.rcinit ⟨5, 0⟩) 0 ∧ Performs (rState id id) (.rcnoise ⟨3, 1, 0, false, 0⟩) 0 ∧
    Performs (rState id id) (.rcread ⟨7, 3, 0⟩) 0 ∧ Performs (rState id id) (.rcset ⟨12, 5, 0⟩) 0 ∧
    Performs (rState id id) (.rcset ⟨17, 5, 0⟩) 0 ∧ Performs (rState id id) (.rcset ⟨16, 5, 0⟩) 0 ∧
    (raceOf (rState id id) 0).hosts = false ∧ racing (raceOf (rState (fun x => { x with st := 3 }) id) 0) = false ∧
    Performs (rState (fun x => { x with st := 3 }) id) (.rcwait ⟨0⟩) 0 ∧
    (vsrcs (freshStrand0 (rState id id) 0) [(1, 32)]).isSome = true ∧ fieldFits (me (rState id id)) 1 32 = true ∧
    fieldFits (me (rState id id)) 3 32 = true :=
  ⟨performs_zero id id _ 0 false rfl (by decide) (by decide) (by decide), performs_zero id id _ 0 false rfl (by decide) (by decide) (by decide),
    performs_zero id id _ 0 false rfl (by decide) (by decide) (by decide), performs_zero id id _ 0 false rfl (by decide) (by decide) (by decide),
    performs_zero id id _ 0 false rfl (by decide) (by decide) (by decide), performs_zero id id _ 0 false rfl (by decide) (by decide) (by decide), by decide, by decide,
    performs_zero _ id _ 0 false rfl (by decide) (by decide) (by decide), by decide, by decide, by decide⟩

theorem witness_RacePresentation :
    let s := rState id id
    Fresh s ∧ (me s).trunk = false ∧ fieldFits (me s) 1 32 = true ∧ fieldFits (me s) 3 32 = true ∧
    (vsrc (freshStrand0 s 0) 1 32).isSome = true ∧ streamOf (me s) = [] ∧ racing (raceOf s 0) = true ∧ boundTo (freshStrand0 s 0).race 0 = true ∧
    (freshStrand0 s 0).race.cands.length + 2 ≤ 4096 ∧
    boundEls s 0 [0x3F800000, 0x40000000] = [(0, 0x3F800000), (1, 0x40000000)] ∧ ignored (raceOf s 0) 0 = false ∧
    ignored (raceOf s 0) 100 = true ∧ (raceOf s 0).atab = 0 ∧
    (∀ t < 2, checkScalar s (me s) .load 2 ((raceOf s 0).btab + BitVec.ofNat 64 (2 * t)) = .ok (pagePlace (0x3000 + 2 * t)) ∧
      localBytes s (pagePlace (0x3000 + 2 * t)) 2 = some [0, 0]) ∧
    Performs s (.rcbound ⟨3, 1, 0, false, 0⟩) 0 ∧ Performs s (.rcpick ⟨7, 0⟩) 0 ∧ Performs s (.rcupd ⟨5, 6, 0⟩) 0 ∧
    Performs s (.rcdrop ⟨1, 0⟩) 0 ∧ updTakes (raceOf s 0) 0 = false ∧ multiRace (raceOf s 0) = false :=
  ⟨fresh_of (by decide) (by decide) (by decide), by decide, by decide, by decide, by decide, by decide, by decide, by decide, by decide, by decide, by decide, by decide, by decide, by decide,
    performs_zero id id _ 0 true rfl (by decide) (by decide) (by decide), performs_zero id id _ 0 false rfl (by decide) (by decide) (by decide),
    performs_zero id id _ 0 false rfl (by decide) (by decide) (by decide), performs_zero id id _ 0 false rfl (by decide) (by decide) (by decide), by decide, by decide⟩

theorem witness_RacePresentation_ended :
    racing (raceOf (rState (fun x => { x with st := 4 }) id) 0) = false ∧
    boundTo (freshStrand0 (rState id fun b => { b with bound := false }) 0).race 0 = false ∧
    updTakes (raceOf (rState (fun x => { x with bounded := [0] }) id) 0) 0 = true ∧
    tabled (rState id id) (raceOf (rState id id) 0) 1 0 Adjust.none :=
  ⟨by decide, by decide, by decide, ⟨⟨pagePlace 0x3002, [0, 0], by decide, by decide, by decide⟩, by
    rw [if_pos (by decide : (raceOf (rState id id) 0).atab = 0)]⟩⟩

/-- R367: RCPICK takes the best candidate; a candidate set of another race is empty. -/
theorem test_rcpick :
    getS (after (exec (.rcpick ⟨7, 0⟩) (rState id id))) 7 = 7 ∧
    getS (after (exec (.rcpick ⟨7, 0⟩) (rState id fun b => { b with tag := 0 }))) 7 = 0xFFFFFFFFFFFFFFFF := by decide

/-- Stream 0 belongs to tenant 0 and is open; race context 0 has resolved. -/
def tkState (open_ : Bool) (st : Nat) : State :=
  putStream (putTenant (rState (fun x => { x with st := st, win := 65 }) id) 0 { Tenant.free with phase := 1, streams := [0] }) 0
    { Stream.closed with opened := open_ }

theorem witness_TokenSyllables :
    let s := tkState true 3
    ownsCtx s (me s) (getS s 0).toNat = true ∧ ownsStream s (me s) (getS s 0).toNat = true ∧ streamOf (me s) = [] ∧
    copying (me s) (2 ^ 64) = false ∧ (me s).late = [] ∧ checkScalar s (me s) .store 4 (getS s 5) = .ok (pagePlace 0x1000) ∧
    vacatedFrame s (memLoc 5 0x101000) = false ∧ bridgeUp s (me s).die 5 = true ∧ (raceOf s 0).st = 3 ∧ (raceOf s 0).empty = false ∧ streamLive (streamOfN s 0) = true ∧
    (raceOf (tkState true 2) 0).st ≠ 3 ∧ streamLive (streamOfN (tkState false 3) 0) = false ∧
    4096 ≤ (getS s 5).toNat ∧ (getS s 6).toNat < 64 ∧ 64 ≤ (getS s 5).toNat := by decide

/-! ## Operations and events -/

/-- A descriptor at 0x2000 of two participants on cluster 0 of die 5 (R377), with result areas at 0 and 0x100 and sync words at 0x1000 and
0x1010; the contribution stands at 0x3000. -/
def collState : State :=
  placeBytes (placeBytes (vState fun st => swrite (swrite (swrite st 8 8) 9 0x2000) 10 0x3000) (memLoc 5 0x102000)
    ((bytesOf 8 2 ++ bytesOf 8 0 ++ bytesOf 8 (0x100 * 2 ^ 44 + 5 * 2 ^ 29)) ++ bytesOf 8 (0x101 * 2 ^ 44 + 5 * 2 ^ 29 + 0x100)))
    (memLoc 5 0x103000) (bytesOf 8 7)

/-- Words of that descriptor. -/
def collWord : Nat → Nat
  | 0 => 2
  | 2 => 0x100 * 2 ^ 44 + 5 * 2 ^ 29
  | 3 => 0x101 * 2 ^ 44 + 5 * 2 ^ 29 + 0x100
  | _ => 0

theorem witness_Collectives :
    let s := collState
    collCode (.clredI64 ⟨8, 9, 10⟩) = some (⟨8, 9, 10⟩, 4) ∧ collSize 4 = 8 ∧ (getS s 8).toNat = 8 + 65536 * 0 ∧ (getS s 9).toNat % 64 = 0 ∧
    collWord 0 = 2 + 65536 * 0 ∧ collWord 1 = 0 ∧ Fresh s ∧ streamOf (me s) = [] ∧ collNotes (me s) s.slot = [] ∧ s.fabric.starts = [] ∧
    (∀ k < 4, collWord k < 2 ^ 64 ∧ checkElem s (me s) .load 8 (getS s 9 + BitVec.ofNat 64 (8 * k)) = .ok (pagePlace (0x2000 + 8 * k)) ∧
      localBytes s (pagePlace (0x2000 + 8 * k)) 8 = some (bytesOf 8 (collWord k))) ∧
    entryMine s (me s) (collWord 2) = true ∧
    (∀ k < 2, peerOk (collWord (2 + k)) 8 true = true ∧ bitsN (collWord (2 + k)) 33 10 = s.fabric.pkgId ∧
      (k ≠ 0 → bridgeUp s (me s).die (bitsN (collWord (2 + k)) 29 4) = true ∧
        tenantAt s (me s).tenant (peerKey (collWord (2 + k)) / 2 ^ 24) = true)) ∧
    spInRange (me s) (bitsN (collWord 2) 0 24) 8 = true ∧ spInRange (me s) (16 * bitsN (collWord 2) 44 20) 16 = true ∧
    checkElem s (me s) .load 8 (getS s 10) = .ok (pagePlace 0x3000) ∧ localBytes s (pagePlace 0x3000) 8 = some (bytesOf 8 7) :=
  ⟨by decide, by decide, by decide, by decide, by decide, by decide, fresh_of (by decide) (by decide) (by decide), by decide⟩

/-- R376, R378: a sum of two equal contributions in the result areas of both participants. -/
theorem test_collective :
    let t := after (exec (.clredI64 ⟨8, 9, 10⟩) collState)
    Memory.getBytes t.ord.spad (spadKey 5 0 0) 8 = bytesOf 8 7 ∧ Memory.getBytes t.ord.spad (spadKey 5 0 0x100) 8 = bytesOf 8 7 := by decide

/-- The machine with an event's data. -/
def withArg (a : Arg) : State := { base with arg := a }

theorem witness_PowerTimeAndReset :
    (1024 ≤ ({ base.power with frame := 1024 } : Power).frame ∧ base.power.shut = false) ∧ (1 ≤ 8 ∧ 8 ≤ 8) ∧
    (base.power.frame < 1024 ∧ base.power.curBub - base.power.bubblesDone ≤ 7 - base.power.cycleInFrame) ∧
    (({ base.power with curBub := 7 } : Power).bubblesDone < ({ base.power with curBub := 7 } : Power).curBub) ∧
    base.power.cycleInFrame < 7 ∧ ({ base.power with cycleInFrame := 7 } : Power).cycleInFrame = 7 ∧
    ({ base.power with tripSeen := true } : Power).tripSeen = true ∧ 8 < 9 ∧
    ((clockOf base 8).withhold = 0 ∧ (clockOf base 8).addNs = 0) ∧ base.powered = true ∧ ownEvent 0x10 = false ∧ 0x10 % 8 = 0 ∧
    (8 : Word).toNat % 8 ≠ 6 ∧ (8 : Word).toNat % 8 ≠ 7 ∧ (6 : Word).toNat % 8 = 6 ∧ (15 : Word).toNat % 8 = 7 := by decide

theorem witness_TraceAndSnapshot :
    base.snap.valid = false ∧ ({ base.snap with valid := true } : Snapshot).valid = true ∧ pdHeld base = false ∧
    pdHeld { base with power := { base.power with inBubble := true } } = true ∧ pdHeld { base with power := { base.power with shut := true } } = true ∧
    (let s := pState [] fun st => { st with marks := [(0x8001, List.replicate 16 0)] }
     (me s).marks = [(0x8001, List.replicate 16 0)] ∧ (me s).run ≠ .idle ∧ overfull (me s) = false) ∧
    (let s := { base with snap := { base.snap with arm := true } }
     s.snap.arm = true ∧ s.snap.at_.toNat ≤ tscOf s 0) := by decide

/-- R77: TRMARK's record is written when its convoy retires. -/
theorem test_trmark :
    let s := putRing (pState [(5, 1)] id) 5 { ringOf base 5 with en := true, user := true }
    let t := after (exec (.trmark ⟨5, 0⟩) s)
    (ringOf t 5).head = 0 ∧ (ringOf (retire t) 5).head = 1 := by decide

/-- R16 to R19: over the limit a bubble is added, up to 7; a trip forces 7. -/
theorem test_throttle :
    (after (exec .throttleIntervalEnd { withArg (.n1 0x1005) with power := { base.power with frame := 1024, curBub := 6 } })).power.curBub = 7 ∧
    (after (exec .throttleIntervalEnd { withArg (.n1 0x1004) with power := { base.power with frame := 1024, curBub := 6 } })).power.curBub = 6 ∧
    (after (exec .throttleIntervalEnd { withArg (.n1 0) with power := { base.power with frame := 1024, tripNow := true } })).power.curBub = 7 := by
  decide

/-- A host queue of tenant 0 with its ring at 0x4000, one direct packet for 3 elements in runs of 2, and launches in flight. -/
def wqState (a : Arg) (f : WorkQueue → WorkQueue) : State :=
  let s := placeBytes { base with arg := a } (memLoc 5 0x104000)
    (bytesOf 8 1 ++ bytesOf 8 0 ++ bytesOf 8 3 ++ List.replicate 40 0)
  putQueue s 0 (f { WorkQueue.reset with base := 0x4000, en := true, tail := 64, nextId := 1 })

/-- A launch of 3 elements in runs of 2. -/
def sampleLaunch : Launch := { mkLaunch 1 (fun i => [1, 0, 3].getD i 0) with gran := 2, e := 3 }

theorem witness_WorkQueues :
    let s := wqState (.n1 0) id
    let x := queueOf s 0
    x.en = true ∧ x.stop = 0 ∧ x.head ≠ x.tail ∧ (pendingSet x).length < 16 ∧
    (match unitGet s (queueTenant 0) (BitVec.ofNat 64 (x.base.toNat + x.head)) 64 (packetElem 0 x) with
     | .bytes b _ => badWord true (headId 0 x) (fun i => leAt b (8 * i) 8) == none
     | _ => false) = true ∧
    (match unitGet (wqState (.n1 0) fun x => { x with base := 0x10000 }) 0 0x10000 64 0 with | .fail _ _ => true | _ => false) = true ∧
    (match unitGet s 0 0x5000 64 0 with
     | .bytes b _ => badWord true 1 (fun i => leAt b (8 * i) 8) == some 0
     | _ => false) = true ∧ (511 < 512 ∧ 512 ≤ 4607 ∧ 4607 < 4608) ∧
    (tenantOf (putTenant s 0 { tenantOf s 0 with phase := 2 }) 0).phase = 2 := by decide

theorem witness_WorkQueues_launch :
    (let x := { WorkQueue.reset with live := [sampleLaunch] }
     (pendingSet x).find? (fun l => l.id == 1) = some sampleLaunch ∧ depMet x sampleLaunch = true) ∧
    (let l := { sampleLaunch with ready := true }
     let s := wqState (.n2 0 1) fun x => { x with live := [l] }
     launchOf s 0 1 = some l ∧ l.ready = true ∧ l.finished = false ∧ l.ty ≠ .marker ∧ l.next < recordCount l ∧ 36920 ≤ freeCells s) ∧
    (let l := { sampleLaunch with ready := true, finished := true }
     let s := wqState (.n2 0 1) fun x => { x with live := [l] }
     launchOf s 0 1 = some l ∧ canComplete (queueOf s 0) l = true) := by decide

theorem witness_WorkQueues_enqueue :
    let s := { launchState with arg := .n3 575 7 0x2000 }
    let x := queueOf s 575
    let b := memRead s (me s).die (memLoc 5 0x102000) 64
    (me s).trunk = false ∧ (me s).run = .running ∧ 575 / 64 = 8 + (me s).tenant ∧ x.en = true ∧ x.stop = 0 ∧
    checkScalar s (me s) .load 64 (BitVec.ofNat 64 0x2000) = .ok (pagePlace 0x2000) ∧ readPoisoned s 5 (memLoc 5 0x102000) 64 = false ∧
    badWord false x.nextId (fun i => leAt b (8 * i) 8) = none ∧ leAt b 0 1 ≠ 3 ∧ queueHeld x < queueSlots x - 1 ∧
    checkScalar s (me s) .store 64 (BitVec.ofNat 64 (x.base.toNat + x.tail)) = .ok (pagePlace 0x4000) ∧
    vacatedFrame s (memLoc 5 0x104000) = false := by decide

/-- R97: the second record of 3 elements in runs of 2 has one element. -/
theorem test_record_expand :
    let t := after (exec .recordExpand (wqState (.n2 0 1) fun x => { x with live := [{ sampleLaunch with ready := true, next := 1 }] }))
    t.ready.map (fun r => (r.first, r.count)) = [(2, 1)] := by decide

/-- A ready record of priority 3 on a die whose only usable core is that of the running strand; save slots stand. -/
def dispState (f : Strand → Strand) (g : Dispatcher → Dispatcher) : State :=
  let s := pState [] f
  { putDisp s 5 (g { dispOf s 5 with svCount := 4, lanedis := (List.range 127).map fun k => (k + 1, 0xFF#8) }) with
    ready := [{ Record.none with prio := 3, code := 0x40, count := 1, order := 9 }], power := { s.power with working := 100 } }

theorem witness_DispatchAndFaults :
    (let s := { pState [] id with ready := [{ Record.none with code := 0x40, count := 1 }] }
     pdHeld s = false ∧ ((chooseRec s 5).any fun x => placeOk s x.1 5 [511] && !x.1.resume) = true) ∧
    (dispOf (dispState id fun x => { x with ageq := 1 }) 5).ageq ≠ 0 ∧
    (let s := dispState id id
     let r := { Record.none with prio := 3, code := 0x40, count := 1, order := 9 }
     s.ready.find? (fun r => r.order == 9 && !r.parked) = some r ∧ matchesOn s r 5 = false ∧
     lowestStrand ((victims s 5).filter fun st => wouldMatch s r st && decide (st.rec_.prio < r.prio)) = some (me s) ∧
     canPreempt s (me s) = true) ∧
    (let s := dispState id fun x => { x with preq := 100 }
     let st := strandOf s bareSid
     st.trunk = false ∧ st.run = .running ∧ (dispOf s st.die).preq ≠ 0 ∧ st.since + (dispOf s st.die).preq ≤ s.power.working ∧
     wantedBy s st = true ∧ canPreempt s st = true) ∧
    (let s := dispState (fun st => { st with run := .draining }) id
     let st := strandOf s bareSid
     st.run = .draining ∧ (∀ m ∈ gangOf s st, m.run = .draining ∧ drained s m = true ∧ m.late = [] ∧ overfull m = false) ∧
     lackSlots s (gangOf s st) ≤ saveRoom s st.die) ∧
    parkedAt (dispState id id) 5 0 = none ∧ (dispOf (dispState id id) 5).svCount ≤ 4 ∧ pdHeld (dispState id id) = false ∧
    (let st := me base
     parkedAt (dispState id fun x => { x with saved := [(3, { strand := st, parked := true })] }) 5 3 = some st) := by decide

/-- A write request of package 1, die 2, to die 5 of this package, of 4 bytes at address 0x200000. -/
def sampleFlit : Flit :=
  { dstPkg := 0, srcPkg := 1, dstDie := 5, srcDie := 2, kind := 1, path := 0, try_ := 0, zero := 0, seq := 0, plane := 47, crcOk := true,
    payload := bytesOf 8 0x200000 ++ bytesOf 2 4 ++ [0, 0, 0, 0, 0, 0, 1, 2, 3, 4] }

/-- The machine whose planes have lock, with its fabric enabled. -/
def fabState (x : Flit) : State :=
  { base with arg := .flit x, fabric := { base.fabric with en := true, planeUp := 0xFFFFFFFFFFFF, planeEn := 0xFFFFFFFFFFFF } }

theorem witness_FabricEvents :
    let s := fabState sampleFlit
    let x := sampleFlit
    flitCode .wrreq = some 1 ∧ Arriving s x 1 ∧ FirstInTurn s x ∧ vacatedFrame s (memLoc 5 0x200000) = false ∧
    isDup { rxOf s.fabric x with low := 1 } x = true ∧ headerBad { x with dstDie := 9 } = true ∧ headerBad { x with kind := 10 } = true ∧
    bridgesUp { s.fabric with bridgesDown := bridgesOf 8 5 } (planeDie x.plane) x.dstDie = false ∧
    ({ s.power with shut := true } : Power).shut = true ∧ 1 ∈ [0, 1, 2, 5, 6] ∧ planesUsable base.fabric 5 = [] ∧ s.fabric.owed = [] ∧
    reachedAll s.ord (appliedOf s.ord 5) = true ∧ reachedAll (performWrite s.ord 5 0 5 [1]) (appliedOf (performWrite s.ord 5 0 5 [1]) 5) = false ∧
    comesAgain (rxOf s.fabric x) x = none ∧
    comesAgain { rxOf s.fabric x with low := 1, again := [0] } { x with kind := 5 } = some 0 := by decide

/-- The requests of R31 to the same place: capacity, the scratchpad mark, an atomic of 4 bytes. -/
theorem witness_FabricEvents_requests :
    let s := fabState sampleFlit
    let a := leAt sampleFlit.payload 0 8
    let key := spadKey 5 (bitsN (2 ^ 63) 24 5) (bitsN (2 ^ 63) 0 24)
    a < 2 ^ 63 ∧ inCapacity 5 (2 ^ 51) 4 = false ∧ inCapacity 5 a 4 = true ∧ readPoisoned s 5 (memLoc 5 a) 4 = false ∧
    readPoisoned { s with ord := { s.ord with poison := [memLoc 5 a] } } 5 (memLoc 5 a) 4 = true ∧
    tenantAt s 0 (key / 2 ^ 24) = true ∧ tenantAt s 63 (key / 2 ^ 24) = false ∧ spadPoisoned s.ord key 4 = false ∧
    aopOf 0 = some .add ∧ memPoisoned s.ord 5 (memLoc 5 a) 4 = false ∧ vacatedFrame s (memLoc 5 a) = false ∧
    (txOf s.fabric (backKey sampleFlit)).unacked.length < 4096 := by decide

/-- R35, R38: the bytes of the request stand at the home die. -/
theorem test_wrreq : memRead (after (exec .wrreq (fabState sampleFlit))) 5 (memLoc 5 0x200000) 4 = [1, 2, 3, 4] := by decide

/-- R30: the check value of this CRC-64 over the bytes of "123456789", as catalogues of CRCs give it. -/
theorem test_crc64 : crc64 ((List.range 9).map fun i => BitVec.ofNat 8 (0x31 + i)) = 0x995DC9BBDF1939FA#64 := by decide

/-- R28, R30: the 256 bytes of a flit hold it, and a changed byte fails the check. -/
theorem test_flit_wire :
    flitOf 47 true (flitBytes sampleFlit) = sampleFlit ∧ (flitOf 47 true ((flitBytes sampleFlit).set 100 1)).crcOk = false := by decide +kernel

theorem witness_FabricEvents_timer :
    let k : StreamKey := { srcDie := 5, dstPkg := 1, dstDie := 2, path := 0 }
    let y : SentFlit := { flit := sampleFlit, tries := 7, used := [], held := false, due := false, sid := bareSid, tag := 9, va := 0, group := 0,
                          out := none }
    let u : TxStream := { key := k, next := 1, unacked := [y, { y with flit := { sampleFlit with seq := 1 } }], acked := [] }
    let s := pState [] fun st => { st with
      outst := [{ tag := 9, path := .ls, va := 0, place := .peer 1 0, xsend := false, ticket := none, atomic := false, fill := none,
                  op := none, again := false }] }
    flightOf (putTx s.fabric u) k 0 = some y ∧ 7 ≤ y.tries ∧ ({ y with tries := 6 } : SentFlit).tries < 7 ∧ isRequest y.flit.kind = true ∧
    y.flit.kind ≠ 0 ∧ isRequest 4 = false ∧ u ∈ (putTx s.fabric u).tx ∧ ownerOf s 9 = some bareSid ∧ (strandOf s bareSid).answers = [] ∧
    (0 < 8 ∧ 4 + 4 = 8) := by decide

/-- A request datagram of tenant 0 from an admitted address. -/
def sampleDgram : Datagram := { port := 0, src := [10, 0, 0, 1], ver := 1, kind := 1, stream := 0, tenant := 0, len := 0, bseq := 0, text := [] }

theorem witness_EthernetEvents :
    let s := putTenant { base with arg := .dgram sampleDgram } 0 { Tenant.free with phase := 1, filter := [[10, 0, 0, 1]] }
    dgramCode .newRequest = some 1 ∧ sampleDgram.kind = 1 ∧ sampleDgram.port < 2 ∧ passes s sampleDgram = true ∧ passes base sampleDgram = false ∧
    passes s { sampleDgram with kind := 4 } = true ∧ (streamOfN s 0).tenant = 0 ∧ framePort (.badFcs 1) < 2 ∧
    frameLong (.oversize 0 9217) = true ∧
    argDatagram (.packet 0 [10, 0, 0, 1] (1 :: 1 :: List.replicate 14 0)) = some (datagramOf 0 [10, 0, 0, 1] (1 :: 1 :: List.replicate 14 0)) ∧
    (ptpType [0] = 0 ∧ ptpType [1] = 1 ∧ ptpType [3] = 3 ∧ ptpType [11] = 11) ∧
    (ptpAsked { s with eth := { s.eth with ptpRx := [(1, 2 :: List.replicate 43 0, 5)] } } 1 (3 :: List.replicate 43 0)).isSome = true := by decide

/-- R45: the header of a text frame, highest byte first. -/
theorem test_frame_bytes :
    frameBytes { port := 0, stream := 0x123, tenant := 5, fEnd := true, fAbort := false, fResent := false, fGone := true, bseq := 0x0102,
                 text := [0x41, 0x42], bind := Stream.closed.bind, wire := [] } =
      [1, 9, 1, 0x23, 5, 0, 0, 2, 0, 0, 0, 0, 0, 0, 1, 2, 0x41, 0x42] := by decide

/-- R48: a datagram's header, highest byte first. -/
theorem test_datagram :
    let d := datagramOf 1 [10, 0, 0, 1] [1, 2, 1, 0x23, 5, 0, 0, 2, 0, 0, 0, 0, 0, 0, 1, 2, 0x41, 0x42]
    (d.kind, d.stream, d.tenant, d.bseq, d.text) = (2, 0x123, 5, 0x102, [0x41, 0x42]) := by decide

/-- A management request of an operation on tenant 1. -/
def sampleReq (op len : Nat) : MgmtReq :=
  { port := 0, src := [10, 0, 0, 2], sport := 0x6000, vlan := none, ver := 1, op := op, tenant := 1, zero := 0, counter := 1, len := len, body := List.replicate len 0, key := [], sig := [] }

theorem witness_ManagementEvents :
    (([(.status, 1), (.quote, 2), (.log, 3), (.cert, 4), (.counters, 5)] : List (Instr × Nat)).all fun x => openCode x.1 == some x.2) = true ∧
    fwServes base (sampleReq 1 0) = true ∧ badHeader (sampleReq 1 0) = false ∧ badHeader { sampleReq 1 0 with ver := 2 } = true ∧
    (sampleReq 2 32).body.length = 32 ∧ (sampleReq 3 4).body.length = 4 ∧
    (let s := { base with sec := { base.sec with boot := .halted, runFw := false, failStage := 1 } }
     let r := { sampleReq 0x30 12 with body := [1, 0, 0, 0] ++ bytesOf 8 64 }
     fwServes s r = false ∧ recServes s r = true ∧ lcstate s.sec ≠ 4 ∧ badHeader r = false ∧ 12 ≤ r.body.length ∧
     leAt r.body 0 1 = s.sec.failStage ∧ leAt r.body 1 1 = 0 ∧ leAt r.body 2 2 = 0 ∧ leAt r.body 4 8 % 64 = 0 ∧ (r.body.length - 12) % 64 = 0 ∧
     8192 % 64 = 0 ∧ 64 * 2 ^ 20 + 256 - 8192 + 8192 ≤ 64 * 2 ^ 20 + 256) ∧
    lcstate { base.sec with lifeCycle := 2 } = 2 ∧ (tenantOf base 1).phase = 0 ∧ contextFree base 63 = true ∧ streamFree base 4095 = true ∧
    ownerCode .tenantReset (.mgmt (sampleReq 0x11 0)) = some (sampleReq 0x11 0, 0x11, true) ∧ ownerSigned base.sec { sampleReq 0x11 0 with counter := 0 } = false ∧
    bindOk { Stream.closed.bind with limit := 64, ringLog := 12 } = true ∧ bindOk { Stream.closed.bind with limit := 8192, ringLog := 24 } = true ∧
    tokLenOk (sampleReq 0x20 161).body = true := by
  refine ⟨by decide, by decide, by decide, by decide, by decide, by decide, by decide, by decide, by decide, by decide, by decide, by decide, ?_,
    by decide, by decide, by decide⟩
  simp [ownerSigned, sampleReq, base]

/-- An owner's signature is a matter of the package's keys (log 4): where SM3 and SM2 accept it, the counter alone remains. -/
theorem witness_ManagementEvents_reset :
    let s := { putTenant base 0 { tenantOf base 0 with phase := 2, destroy := true } with
      batches := [{ rows := [1], live := 0, steps := memLoc 5 0x104000, vacatedAt := [(0, 0)] }] }
    let s1 := placeBytes s (memLoc 5 0x104000) [1]
    (tenantOf s1 0).phase = 2 ∧ (∀ q ∈ queuesOf 0, (queueOf s1 q).live = []) ∧ (tenantOf s1 0).destroy = true ∧
    (∀ b ∈ s1.batches, 0 < batchStep s1 b) ∧ (tenantOf base 0).destroy = false ∧ (tenantOf { base with tenants := [] } 0).phase = 0 ∧
    leAt ([1, 1, 0, 0] ++ bytesOf 8 64) 1 1 = 1 := by decide

theorem witness_ManagementEvents_signed (x : Security) (r : MgmtReq) (hk : Config.sm3 r.key = digBytes x.ownerHash)
    (hs : Config.sm2Verify r.key (ascii "YS4-OWNER") (signedPart r) r.sig = true) (hc : x.ownerCounter < r.counter) :
    ownerSigned x r = true := by simp [ownerSigned, hk, hs, hc]

/-! ## The machine's moves -/

/-- A write of 4 bytes at 0x1000 of die 5's page at the front of the path queue. -/
def frontWrite (k : AccKind) : Access :=
  mkAcc .ls (pagePlace 0x1000) 0x1000 4 k false false true

theorem witness_MachineMoves :
    (9 ≤ 9 ∧ base.tlbInv.length < 16) ∧
    (∀ d < 9, reached base.ord d ({ v := 0, counts := appliedOf base.ord 5 } : TlbInv).counts = true) ∧
    (let t : Token := { Token.idle with busy := true, expected := 2, dst := 0x2000, src := 0x1000 }
     let s := pState [] fun st => setTok st 7 t
     engineOpen s bareSid 7 1 = true ∧
     (match moveEl s bareSid 15 t 1 with | .landed _ 1 false => true | _ => false) = true ∧
     (match moveEl s bareSid 15 { t with src := 0x10000 } 1 with | .fail c va => c == 0x04 && va == 0x10001 | _ => false) = true ∧
     copyEl t 1 = some (0x1001, 0x2001, 1) ∧ t.kind ≠ .xfetch ∧ t.got = [] ∧
     checkElem s (engineStrand (strandOf s bareSid)) .load (elSize t 1) 0x1001 = .ok (pagePlace 0x1001) ∧
     checkElem s (engineStrand (strandOf s bareSid)) .store (elSize t 1) 0x2001 = .ok (pagePlace 0x2001) ∧
     (∀ o j, o + j ≤ 1 → readPoisoned s 5 (memLoc 5 0x101001 + o) j = false)) ∧
    (let s := pState [] fun st => { st with pq := [.acc (frontWrite (.write [1, 2, 3, 4]))] }
     (strandOf s bareSid).pq = [.acc (frontWrite (.write [1, 2, 3, 4]))] ∧ (frontWrite (.write [])).rel = false ∧ pdHeld s = false ∧
     vacatedFrame s (memLoc 5 0x101000) = false ∧ (∀ c < 65, (strandOf s (256 + c)).late = []) ∧
     copying (strandOf s bareSid) (2 ^ 64) = false ∧ (strandOf s bareSid).late = [] ∧ unanswered (strandOf s bareSid) none = false ∧
     (∀ o ∈ (strandOf s bareSid).outst, o.clock = []) ∧ (∀ x ∈ (strandOf s bareSid).answers, x.clock = []) ∧ bridgeUp s 5 5 = true) ∧
    memPoisoned base.ord 5 (memLoc 5 0x101000) 4 = false ∧
    (let o := performWrite base.ord 5 (memLoc 5 0x101000) 5 [1, 2, 3, 4]
     CanonicalOrd o ∧ ((o.applyBuf.getD 1 [])[0]?.any fun w => canApply o 1 w && decide (w.src < 9)) = true) ∧
    (frontWrite (.ticketed [0] base.ord.performed)).rel = false := by
  refine ⟨by decide, by decide, ⟨by decide, by decide, by decide, by decide, by decide, by decide, by decide, by decide, fun o j h => ?_⟩, by decide,
    by decide, by decide, by decide⟩
  exact no_poison (by decide) (by decide)

/-- A copy of a KV stream on P-die 1 to memory of D-die 5, whose sync word lies in a scratchpad there. -/
theorem witness_MachineMoves_stream :
    let t : Token := { Token.idle with busy := true, expected := 1, dst := 0x2000, src := 0x1000 }
    let s := putStrand base 512 (setTok { me base with sid := 512 } 7 t)
    engineOpen s 512 7 0 = true ∧ kvSyncOk s 512 (tokOf (strandOf s 512) 7) 0 (5 * 2 ^ 29 + 16) = true ∧
    (match moveEl s 512 15 t 0 with | .landed _ 1 false => true | _ => false) = true := by decide

/-- R161, R162: a write performs at its home die when it leaves the path queue. -/
theorem test_path_queue :
    let s := { pState [] (fun st => { st with pq := [.acc (frontWrite (.write [1, 2, 3, 4]))] }) with arg := .n2 bareSid 0 }
    memRead (after (exec .pathQueueLeave s)) 5 (memLoc 5 0x101000) 4 = [1, 2, 3, 4] := by decide

theorem witness_MachineMoves_waits :
    (let s := pState [] fun st => { st with late := [{ cause := 0x0E, eval := 8 }] }
     (strandOf s bareSid).late = [{ cause := 0x0E, eval := 8 }] ∧ 320 ≤ bareSid ∧ (strandOf s bareSid).run = .running ∧
      takesLate (strandOf s bareSid) = true ∧ pdHeld s = false ∧ (255 < 256 ∧ 256 ≤ 320 ∧ 320 < 321)) ∧
    (let s := pState [] fun st => { st with barw := true, barAddr := 0x1000, bargen := 1 }
     (strandOf s bareSid).barw = true ∧ checkScalar s (strandOf s bareSid) .load 16 (strandOf s bareSid).barAddr = .ok (pagePlace 0x1000) ∧
     readPoisoned s 5 (memLoc 5 0x101000) 16 = false ∧ pdHeld s = false ∧
     leAt (memRead s 5 (memLoc 5 0x101000) 16) 8 4 ≠ (strandOf s bareSid).bargen.toNat) ∧
    locMem (memLoc 8 0) ≤ 9 ∧ (1 ≤ 8 ∧ 8 ≤ 8) ∧ (me base).trunk = false ∧ (me base).run ≠ .idle ∧ undecodable 1 = true := by decide

/-- A race over several packages: context 0 hosts it, and its remote block stands at 0x3000. -/
def blkState (f : RaceCtx → RaceCtx) (b : List Byte) : State :=
  placeBytes (putRace base 0 (f { RaceCtx.reset with assigned := true, st := 0, active := 0, hosts := true, nmem := 2, rblk := 0x3000 }))
    (memLoc 5 0x103000) b

theorem witness_MachineMoves_race :
    (let s := blkState id []
     awaitsRace (raceOf s 0) = true ∧ (raceOf s 0).hosts = true ∧ blockIdle s 0 = true ∧
     checkUnit s (raceOf s 0).tenant .load (raceOf s 0).rblk = .ok (pagePlace 0x3000) ∧ readPoisoned s 0 (memLoc 5 0x103000) 320 = false ∧
     leAt (memRead s 0 (memLoc 5 0x103000) 320) 0x18 8 = 0 ∧ leAt (memRead s 0 (memLoc 5 0x103000) 320) 8 8 = 0) ∧
    (let s := blkState id (List.replicate 24 0 ++ bytesOf 8 1 ++ bytesOf 8 2)
     leAt (memRead s 0 (memLoc 5 0x103000) 320) 0x18 8 = 1 ∧ leAt (memRead s 0 (memLoc 5 0x103000) 320) 0x20 8 = (raceOf s 0).nmem) ∧
    (let s := blkState (fun x => { x with hosts := false, member := true }) (List.replicate 24 0 ++ bytesOf 8 1)
     racing (raceOf s 0) = true ∧ (raceOf s 0).member = true ∧ awaitsRace (raceOf s 0) = true ∧
     (raceOf s 0).merging = none ∧ checkUnit s (raceOf s 0).tenant .load ((raceOf s 0).rblk + 0x10) = .ok (pagePlace 0x3010) ∧
     readPoisoned s 0 (memLoc 5 0x103010) 16 = false ∧
     leAt (memRead s 0 (memLoc 5 0x103010) 16) 8 8 = 1) ∧
    (let s := blkState (fun x => { x with hosts := false, member := true }) (List.replicate 24 0 ++ bytesOf 8 2)
     leAt (memRead s 0 (memLoc 5 0x103010) 16) 8 8 = 2) ∧
    (let s := blkState (fun x => { x with hosts := false, member := true, merging := some 0 }) []
     racing (raceOf s 0) = true ∧ (raceOf s 0).merging = some 0 ∧ blockIdle s 0 = true) := by decide

theorem witness_EventsNeedTheirData : needsData .wrreq = some "WRREQ" ∧ base.arg = .none := by decide

/-! ## Memory, decoding and the step -/

theorem base_canonical : Canonical base := ⟨⟨by decide, by decide⟩, by intro c h; cases h⟩

theorem witness_StepKeepsMemoryCanonical : Canonical base ∧ goesOn (step base) = true := ⟨base_canonical, by decide⟩

theorem witness_DecodeEncode :
    (Instr.vld ⟨3, 31, 31, 3, 3, true, 7⟩).wf = true ∧ (encodeNat (.vld ⟨3, 31, 31, 3, 3, true, 7⟩)).isSome = true ∧
    (Instr.addi ⟨31, 31, 0xFFFF⟩).wf = true ∧ (encodeNat (.addi ⟨31, 31, 0xFFFF⟩)).isSome = true := by decide

/-- `Steady` where no syllable is one of the race unit or the detokeniser and none stops, as a value that computes. -/
def calm (ren : Instr → Instr) (s : State) : List (Nat × BitVec 32 × Instr) → Bool
  | [] => true
  | (k, w, i) :: l =>
    let s1 := atSlot s k w
    !isLate w && !((me s1).barw && afterBar w) && (me s1).fed.isEmpty &&
      match exec (ren i) s1 with
      | .next t => t.convoy.isSome && !usedWaiting (me s1) (me t) && (!executeSide (majorOf w) || !outFull (me t)) &&
          (!accessSide (majorOf w) || !inFull (me t)) && calm ren t l
      | _ => true

theorem steady_of_calm (ren : Instr → Instr) (l : List (Nat × BitVec 32 × Instr)) : ∀ s, calm ren s l = true → Steady ren s l := by
  induction l with
  | nil => exact fun _ _ => trivial
  | cons x l ih =>
    obtain ⟨k, w, i⟩ := x
    intro s h
    unfold calm at h
    simp only [Bool.and_eq_true, Bool.not_eq_true', List.isEmpty_iff] at h
    obtain ⟨⟨⟨hl, hb⟩, hf⟩, h⟩ := h
    unfold Steady
    refine ⟨hb, hf, ?_⟩
    simp only [hl, Bool.false_eq_true, if_false]
    intro t ht
    simp only [ht, Bool.and_eq_true, Bool.not_eq_true', Bool.or_eq_true] at h
    obtain ⟨⟨⟨⟨h1, h2⟩, h3⟩, h4⟩, h5⟩ := h
    refine ⟨fun hn => by simp [hn] at h1, fun _ => ⟨h2, fun he => ?_, fun he => ?_, ih t h5⟩⟩
    · rcases h3 with h3 | h3
      · rw [he] at h3; exact absurd h3 (by decide)
      · exact h3
    · rcases h4 with h4 | h4
      · rw [he] at h4; exact absurd h4 (by decide)
      · exact h4

/-- ADDI s10, s0, 8 where the next step fetches. -/
def placedAddi : State := State.reset.withFetchWord 32 0x09400008

theorem witness_StepRunsDecoded :
    Issuing placedAddi bareSid [0x09400008, 0, 0, 0] ∧ convoyFault (strandOf placedAddi bareSid).trunk [0x09400008, 0, 0, 0] = none ∧
    isRepf (strandOf placedAddi bareSid).trunk [0x09400008, 0, 0, 0] = false ∧
    decodeSyllable (0x09400008 : BitVec 32).toNat = .ok (.addi ⟨10, 0, 8⟩) ∧ isLate 0x09400008 = false ∧ isDone 0x09400008 = false ∧
    slotsOf false [0x09400008, 0, 0, 0] = [0, 1, 2, 3] ∧ decodeSyllable (0 : BitVec 32).toNat = .ok .emptySyllable ∧
    Steady id (opened placedAddi bareSid [0x09400008, 0, 0, 0])
      [(0, 0x09400008, .addi ⟨10, 0, 8⟩), (1, 0, .emptySyllable), (2, 0, .emptySyllable), (3, 0, .emptySyllable)] :=
  ⟨⟨by decide, by decide, by decide, by decide, by decide, by decide, by decide, by decide⟩, by decide, by decide, by decide, by decide,
    by decide, by decide, by decide, steady_of_calm _ _ _ (by decide)⟩

theorem witness_StepRunsDecoded_fault :
    Issuing (State.reset.withFetchWord 32 1) bareSid [1, 0, 0, 0] ∧
    convoyFault (strandOf (State.reset.withFetchWord 32 1) bareSid).trunk [1, 0, 0, 0] = some (0, 0x01) :=
  ⟨⟨by decide, by decide, by decide, by decide, by decide, by decide, by decide, by decide⟩, by decide⟩

/-- R252: one step runs the placed instruction and moves to the next convoy. -/
theorem test_step :
    let t := after (step placedAddi)
    (strandOf t bareSid).pc = 16 ∧ sread (strandOf t bareSid) 10 = 8 := by decide

/-- A frame of two iterations and one stage in its last replay: captured convoy 0 is VADD v1, v2, v2 on i32, and v1 and v2 rotate. -/
def frameState : State :=
  vState fun st => { st with
    pc := 0x10
    rpt := { active := true, conv := 0, kidx := 1, rpc := 0, trip := 2, map0 := 0, map1 := 0, nstg := 0, rbase := 1, rsize := 2 }
    cap := 0x84108200 :: List.replicate 15 0 }

/-- R135: replay 1 adds v1 (what v2 names) into v2 (what v1 names). -/
theorem witness_RepeatFrame_replay :
    let s := frameState
    let w : BitVec 32 := 0x84108200
    Replaying s bareSid ∧ frameWords (strandOf s bareSid) = [w, 0, 0, 0] ∧ decodeSyllable w.toNat = .ok (.vadd ⟨1, 2, 2, false, false, 0, false⟩) ∧
    decodeSyllable (0 : BitVec 32).toNat = .ok .emptySyllable ∧ slotOrder [w, 0, 0, 0] = [0, 1, 2, 3] ∧ 1 + 2 ≤ 56 ∧
    Steady (renameInstr (rotField 1 2 1)) (replayOpened s bareSid) [(0, w, .vadd ⟨1, 2, 2, false, false, 0, false⟩), (1, 0, .emptySyllable),
      (2, 0, .emptySyllable), (3, 0, .emptySyllable)] :=
  ⟨⟨by decide, by decide, by decide, by decide, by decide, by decide, by decide, by decide, by decide⟩, by decide, by decide, by decide,
    by decide, by decide, steady_of_calm _ _ _ (by decide)⟩

/-- R135: the sum of v1 = (7, −1) stands in v2, and the fourth captured convoy of the last replay ends the frame. -/
theorem test_replay :
    let t := after (step frameState)
    (strandOf t bareSid).vregs.getD 2 [] = [14, 0xFFFFFFFE] ∧ (strandOf t bareSid).vregs.getD 1 [] = [7, 0xFFFFFFFF] ∧
    (strandOf t bareSid).pc = 0x20 ∧ (strandOf t bareSid).rpt.conv = 1 ∧
    (stepRepeat { me frameState with rpt := { (me frameState).rpt with conv := 3 } }).rpt.active = false := by decide

end Sys2Proof.Tests
end

section
/-! SUPPORT. O46 fails. In a working cycle the records of a resetting tenant end (R118), and the accesses of its strands leave their path queues. The
statement ranges over every state, so such a strand may hold a store to the trunk control window, which the checks of R50 and R140 let trunk strands
alone issue; the store then writes a clock's register in a step for which the statement has time pass and nothing else befall the clock. -/

namespace Sys2Proof.Machine

/-- A store of 7 to TSINCR of die 0 (R81). -/
def tsincrStore : Access := mkAcc .ls (.window 0x1008) 0 8 (.write (bytesOf 8 7)) false false false

/-- Tenant 0 is being reset while its strand 512, on die 1, runs with that store in its path queue; all else is as a reset leaves it. -/
def resettingState : State :=
  { State.reset with
    tenants := [(0, { Tenant.free with phase := 2 })],
    strands := [(512, { Strand.idle 512 false with run := .running, pq := [.acc tsincrStore] })] }

/-- R70: a reference cycle adds TSINCR to the accumulator and does not write it. -/
@[simp] theorem clockCycle_incr (c : Clock) : (clockCycle c).incr = c.incr := by cases c; rfl

theorem incr_resettingState : (clockOf resettingState 0).incr = 0x1AAAAAAAB#64 := by decide

/-- The cycle of this step is a working one: the records end, and the store performs. -/
theorem incr_tick_resettingState : (clockOf (tick resettingState) 0).incr = 7#64 := by decide

/-- Refutes O46 by its clause on `tick`: in `resettingState` the clock of die 0 does not come to `clockCycle` of what it was, for the step writes
its TSINCR. -/
theorem not_powerTimeAndReset : ¬ Obligations.PowerTimeAndReset := by
  unfold Obligations.PowerTimeAndReset
  rintro ⟨-, -, -, -, -, hTick, -⟩
  obtain ⟨-, hClock⟩ := hTick resettingState 0 (by decide)
  have hIncr : 7#64 = 0x1AAAAAAAB#64 := by
    rw [← incr_tick_resettingState, hClock, clockCycle_incr, incr_resettingState]
  exact absurd hIncr (by decide)

end Sys2Proof.Machine
end

section
/-! SUPPORT. The regions of the trunk control window, and what reset leaves in their registers. -/

namespace Sys2Proof.Machine

/-! Which register file a word of the window belongs to (R50). -/

theorem windowRead_trace (s : State) {d k : Nat} (hd : d < 9) (hk : k < 0x100) :
    windowRead s (0x1000 + k + 0x100 * d) = readTrace s d k := by
  have hDie : (0x1000 + k + 0x100 * d - 0x1000) / 0x100 = d := by omega
  have hReg : (0x1000 + k + 0x100 * d) % 0x100 = k := by omega
  rw [windowRead, if_neg (by omega), if_pos (by omega), hDie, hReg]

theorem windowRead_snapshot (s : State) {off : Nat} (hlo : 0x8000 ≤ off) (hhi : off < 0x11000) :
    windowRead s off =
      if off = 0x8F00 then wordOf (snapctl s.snap) else if off = 0x8F08 then s.snap.at_ else NMap.getD s.snap.latched off 0 := by
  rw [windowRead, if_neg (by omega), if_neg (by omega), if_neg (by omega), if_pos hhi]

theorem windowRead_queue (s : State) {q k : Nat} (hq : q < 4608) (hk : k < 0x40) :
    windowRead s (0x20000 + k + 0x40 * q) = readQueue s q k := by
  have hNum : (0x20000 + k + 0x40 * q - 0x20000) / 0x40 = q := by omega
  have hReg : (0x20000 + k + 0x40 * q) % 0x40 = k := by omega
  rw [windowRead, if_neg (by omega), if_neg (by omega), if_neg (by omega), if_neg (by omega), if_neg (by omega), if_pos (by omega), hNum, hReg]

/-- Between the work queues and the race contexts. -/
theorem windowRead_middle (s : State) {off : Nat} (hlo : 0x70000 ≤ off) (hhi : off < 0x80000) :
    windowRead s off =
      if off < 0x78000 then readDisp s ((off - 0x70000) / 0x1000 + 1) (off % 0x1000)
      else if off < 0x79000 then 0
      else if off < 0x79200 then wordOf (NMap.getD s.tweight ((off - 0x79000) / 8) 1)
      else if off < 0x7A000 then 0
      else if off < 0x7A200 then NMap.getD s.tnroot ((off - 0x7A000) / 8) 0
      else if off = 0x7A200 then s.tkroot
      else if off = 0x7A210 then boolW (!s.tlbInv.isEmpty)
      else 0 := by
  rw [windowRead, if_neg (by omega), if_neg (by omega), if_neg (by omega), if_neg (by omega), if_neg (by omega), if_neg (by omega),
    if_neg (by omega), if_pos hhi]

theorem windowRead_disp (s : State) {d k : Nat} (hd : d < 8) (hk : k < 0x1000) :
    windowRead s (0x70000 + k + 0x1000 * d) = readDisp s (d + 1) k := by
  have hDie : (0x70000 + k + 0x1000 * d - 0x70000) / 0x1000 = d := by omega
  have hReg : (0x70000 + k + 0x1000 * d) % 0x1000 = k := by omega
  rw [windowRead_middle s (by omega) (by omega), if_pos (by omega), hDie, hReg]

theorem windowRead_tweight (s : State) {t : Nat} (ht : t < 64) :
    windowRead s (0x79000 + 8 * t) = wordOf (NMap.getD s.tweight t 1) := by
  rw [windowRead_middle s (by omega) (by omega), if_neg (by omega), if_neg (by omega), if_pos (by omega), Nat.add_sub_cancel_left,
    Nat.mul_div_cancel_left t (by decide)]

theorem windowRead_tnroot (s : State) {t : Nat} (ht : t < 64) : windowRead s (0x7A000 + 8 * t) = NMap.getD s.tnroot t 0 := by
  rw [windowRead_middle s (by omega) (by omega), if_neg (by omega), if_neg (by omega), if_neg (by omega), if_neg (by omega),
    if_pos (by omega), Nat.add_sub_cancel_left, Nat.mul_div_cancel_left t (by decide)]

theorem windowRead_race (s : State) {c k : Nat} (hc : c < 64) (hk : k < 0x200) :
    windowRead s (0x80000 + 0x200 * c + k) = raceReg (raceOf s c) k := by
  have hNum : (0x80000 + 0x200 * c + k - 0x80000) / 0x200 = c := by omega
  have hReg : (0x80000 + 0x200 * c + k) % 0x200 = k := by omega
  rw [windowRead]
  iterate 15 rw [if_neg (by omega)]
  rw [if_pos (by omega), hNum, hReg]

/-- The rotary tables and the byte-table descriptors: no table stands, so each word is the default of its file. -/
theorem windowRead_tables_of_none (s : State) {off : Nat} (hlo : 0xA0000 ≤ off) (hhi : off < 0xB0100) (hRot : s.rot = [])
    (hDet : s.dettab = []) : windowRead s off = 0 := by
  rw [windowRead]
  iterate 17 rw [if_neg (by omega)]
  split
  · rw [rotWord, hRot]
    rfl
  · rw [dettabOf, hDet]
    split <;> rfl

/-! The register files at reset: R81, R83, R87, R105, R148, R150, R215. -/

theorem windowRead_snapshot_reset {off : Nat} (hlo : 0x8000 ≤ off) (hhi : off < 0x11000) : windowRead State.reset off = 0 := by
  rw [windowRead_snapshot _ hlo hhi]
  split
  · decide
  · split <;> rfl

theorem readDisp_reset_low (d : Nat) : ∀ k, k < 10 → readDisp State.reset d (8 * k) = 0 := by
  change ∀ k, k < 10 → readDisp State.reset 0 (8 * k) = 0
  decide

theorem readDisp_reset_lanes (d : Nat) {k : Nat} (hlo : 0x400 ≤ k) (hhi : k < 0x800) : readDisp State.reset d k = 0 := by
  rw [readDisp, if_neg (by omega), if_pos hlo]
  rfl

theorem readDisp_reset_arrays (d : Nat) {k : Nat} (hlo : 0x800 ≤ k) (hhi : k < 0x900) : readDisp State.reset d k = 0 := by
  rw [readDisp, if_pos hlo, if_pos hhi]
  rfl

/-- The registers of a race context below its sums, other than STATE, MARGIN and WIN. -/
theorem raceReg_reset_plain : ∀ k, k < 24 → k ∉ [0, 6, 17] → raceReg RaceCtx.reset (8 * k) = 0 := by decide

/-- Word k of an accumulator, as `raceReg` cuts it out for a register file that begins at `base`. -/
theorem wordOf_bitsN_eaWord (a : EA) (base k : Nat) :
    wordOf (bitsN a.toNat (8 * (base + 8 * k - base)) 64) = a.extractLsb' (64 * k) 64 := by
  have hPlace : 8 * (base + 8 * k - base) = 64 * k := by omega
  rw [hPlace]
  apply BitVec.eq_of_toNat_eq
  simp [wordOf, bitsN, Nat.shiftRight_eq_div_pow]

theorem raceReg_zevlo (c : RaceCtx) {k : Nat} (hk : k < 8) : raceReg c (0xC0 + 8 * k) = c.zevlo.extractLsb' (64 * k) 64 := by
  rw [raceReg, if_neg (by omega), if_neg (by omega), if_neg (by omega), if_pos (by omega)]
  exact wordOf_bitsN_eaWord _ _ k

theorem raceReg_zevhi (c : RaceCtx) {k : Nat} (hk : k < 8) :
    raceReg c (0x100 + 8 * k) = (sumView c.zevhi c.infEv).extractLsb' (64 * k) 64 := by
  rw [raceReg, if_neg (by omega), if_neg (by omega), if_pos (by omega)]
  exact wordOf_bitsN_eaWord _ _ k

theorem raceReg_zunlo (c : RaceCtx) {k : Nat} (hk : k < 8) : raceReg c (0x140 + 8 * k) = c.zunlo.extractLsb' (64 * k) 64 := by
  rw [raceReg, if_neg (by omega), if_pos (by omega)]
  exact wordOf_bitsN_eaWord _ _ k

theorem raceReg_zunhi (c : RaceCtx) {k : Nat} (hk : k < 8) :
    raceReg c (0x180 + 8 * k) = (sumView c.zunhi c.infUn).extractLsb' (64 * k) 64 := by
  rw [raceReg, if_pos (by omega), if_pos (by omega)]
  exact wordOf_bitsN_eaWord _ _ k

theorem EA.init_eq_eaInit : EA.init = eaInit := by decide +kernel

theorem sumView_init : sumView EA.init 0 = eaInit := by decide +kernel

/-- The four sums of a race context are the initial accumulator (R193, R215). -/
theorem raceReg_reset_sum {e k : Nat} (he : e < 4) (hk : k < 8) :
    raceReg RaceCtx.reset (0xC0 + 0x40 * e + 8 * k) = eaInit.extractLsb' (64 * k) 64 := by
  match e, he with
  | 0, _ => exact (raceReg_zevlo _ hk).trans (congrArg _ EA.init_eq_eaInit)
  | 1, _ => exact (raceReg_zevhi _ hk).trans (congrArg _ sumView_init)
  | 2, _ => exact (raceReg_zunlo _ hk).trans (congrArg _ EA.init_eq_eaInit)
  | 3, _ => exact (raceReg_zunhi _ hk).trans (congrArg _ sumView_init)

/-! The measurement registers and the memories at reset (R52, R61). -/

theorem sec_meas_reset : ∀ n, n < 8 → State.reset.sec.meas.getD n 1 = 0 := by decide

theorem viewOf_reset (d : Nat) : viewOf State.reset.ord d = [] := by
  change (List.replicate 9 []).getD d [] = []
  simp only [List.getD_eq_getElem?_getD, List.getElem?_replicate]
  split <;> rfl

/-! The regions of the window at reset. -/

theorem windowRead_trace_reset {d : Nat} (hd : d < 9) :
    let r := windowRead State.reset
    r (0x1000 + 0x100 * d) = 0 ∧ r (0x1008 + 0x100 * d) = 0x1AAAAAAAB ∧ r (0x1010 + 0x100 * d) = 0 ∧
      r (0x1018 + 0x100 * d) = 0 ∧ r (0x1020 + 0x100 * d) = 0x0A ∧ r (0x1028 + 0x100 * d) = 0 ∧
      r (0x1030 + 0x100 * d) = 0 ∧ r (0x1038 + 0x100 * d) = 0 ∧ r (0x1040 + 0x100 * d) = 0 := by
  have h : ∀ k, k < 0x100 → windowRead State.reset (0x1000 + k + 0x100 * d) = readTrace State.reset 0 k :=
    fun k hk => windowRead_trace _ hd hk
  exact ⟨h 0 (by decide), (h 0x08 (by decide)).trans (by decide), h 0x10 (by decide), h 0x18 (by decide),
    (h 0x20 (by decide)).trans (by decide), h 0x28 (by decide), h 0x30 (by decide), h 0x38 (by decide), h 0x40 (by decide)⟩

theorem windowRead_queue_reset {q : Nat} (hq : q < 4608) :
    let r := windowRead State.reset
    r (0x20000 + 0x40 * q) = 0 ∧ r (0x20008 + 0x40 * q) = 0x600 ∧ r (0x20010 + 0x40 * q) = 0 ∧
      r (0x20018 + 0x40 * q) = 0 ∧ r (0x20020 + 0x40 * q) = 0 ∧ r (0x20028 + 0x40 * q) = 0 ∧ r (0x20030 + 0x40 * q) = 0 ∧
      r (0x20038 + 0x40 * q) = 0 := by
  have h : ∀ k, k < 0x40 → windowRead State.reset (0x20000 + k + 0x40 * q) = readQueue State.reset 0 k :=
    fun k hk => windowRead_queue _ hq hk
  exact ⟨h 0 (by decide), (h 0x08 (by decide)).trans (by decide), h 0x10 (by decide), h 0x18 (by decide), h 0x20 (by decide), h 0x28 (by decide),
    h 0x30 (by decide), h 0x38 (by decide)⟩

theorem windowRead_disp_reset {d : Nat} (hd : d < 8) :
    let r := windowRead State.reset
    (∀ k, k < 10 → r (0x70000 + 0x1000 * d + 8 * k) = 0) ∧ (∀ c, c < 128 → r (0x70400 + 0x1000 * d + 8 * c) = 0) ∧
      ∀ k, k < 32 → r (0x70800 + 0x1000 * d + 8 * k) = 0 := by
  refine ⟨fun k hk => ?_, fun c hc => ?_, fun k hk => ?_⟩
  · rw [Nat.add_right_comm]
    exact (windowRead_disp _ hd (by omega)).trans (readDisp_reset_low _ _ hk)
  · rw [Nat.add_right_comm, Nat.add_assoc 0x70000 0x400]
    exact (windowRead_disp _ hd (by omega)).trans (readDisp_reset_lanes _ (by omega) (by omega))
  · rw [Nat.add_right_comm, Nat.add_assoc 0x70000 0x800]
    exact (windowRead_disp _ hd (by omega)).trans (readDisp_reset_arrays _ (by omega) (by omega))

theorem windowRead_race_reset {c : Nat} (hc : c < 64) :
    let r := windowRead State.reset
    let b := 0x80000 + 0x200 * c
    r b = 4 ∧ r (b + 0x30) = 0x7F800000 ∧ r (b + 0x88) = 0xFFFFFFFF ∧
      (∀ k, k < 24 → k ∉ [0, 6, 17] → r (b + 8 * k) = 0) ∧
      ∀ e, e < 4 → ∀ k, k < 8 → r (b + 0xC0 + 0x40 * e + 8 * k) = eaInit.extractLsb' (64 * k) 64 := by
  have h : ∀ k, k < 0x200 → windowRead State.reset (0x80000 + 0x200 * c + k) = raceReg RaceCtx.reset k :=
    fun k hk => windowRead_race _ hc hk
  refine ⟨(h 0 (by decide)).trans (by decide), (h 0x30 (by decide)).trans (by decide), (h 0x88 (by decide)).trans (by decide),
    fun k hk hne => (h _ (by omega)).trans (raceReg_reset_plain k hk hne), fun e he k hk => ?_⟩
  rw [Nat.add_assoc, Nat.add_assoc, ← Nat.add_assoc 0xC0]
  exact (h _ (by omega)).trans (raceReg_reset_sum he hk)

theorem windowRead_tenant_reset {t : Nat} (ht : t < 64) :
    windowRead State.reset (0x79000 + 8 * t) = 1 ∧ windowRead State.reset (0x7A000 + 8 * t) = 0 :=
  ⟨windowRead_tweight _ ht, windowRead_tnroot _ ht⟩

/-- Settles O55: region by region of the window, each word is read from a register file that reset leaves at its default. -/
theorem resetState : Obligations.ResetState := by
  unfold Obligations.ResetState
  exact ⟨rfl, by decide, by decide, by decide, rfl, rfl, rfl, by decide, by decide, by decide, by decide,
    fun _ => windowRead_trace_reset, fun _ => windowRead_snapshot_reset, fun _ => windowRead_queue_reset, fun _ => windowRead_disp_reset,
    fun _ => windowRead_tenant_reset, by decide, by decide, by decide, fun _ => windowRead_race_reset,
    fun _ hlo hhi => windowRead_tables_of_none _ hlo hhi rfl rfl, sec_meas_reset,
    fun d a => congrArg (Memory.get · a) (viewOf_reset d), fun _ => rfl⟩

end Sys2Proof.Machine
end

section
/-! SUPPORT. What the writers of trace records change, how a strand retires, and the rules of the trace rings and the snapshot
(R20, R75 to R83). -/

namespace Sys2Proof.Machine

theorem NMap.set_set {α : Type} (m : NMap α) (n : Nat) (v w : α) : NMap.set (NMap.set m n v) n w = NMap.set m n w := by
  induction m with
  | nil => simp [NMap.set]
  | cons x t ih =>
    obtain ⟨k, u⟩ := x
    by_cases hlt : n < k
    · simp [NMap.set, hlt]
    · by_cases heq : n = k
      · simp [NMap.set, heq]
      · simp [NMap.set, hlt, heq, ih]

theorem putStrand_putStrand (s : State) (n : Nat) (a b : Strand) : putStrand (putStrand s n a) n b = putStrand s n b := by
  simp [putStrand, NMap.set_set]

/-! The frames of the writers: the components of the state that a record may change. -/

theorem physWrite_eq (s : State) (d pa : Nat) (bytes : List Byte) : ∃ o, physWrite s d pa bytes = { s with ord := o } := by
  unfold physWrite memWrite
  split
  · split
    · exact ⟨_, rfl⟩
    · exact ⟨_, rfl⟩
  · exact ⟨_, rfl⟩

theorem takePick_eq (s : State) (n : Nat) : ∃ x, (takePick s n).2 = { s with sched := x } := by
  unfold takePick
  split <;> exact ⟨_, rfl⟩

@[simp] theorem ringOf_putRing (s : State) (d : Nat) (r : TraceRing) : ringOf (putRing s d r) d = r := by simp [ringOf, putRing]

theorem tracePut_eq (s : State) (d code src : Nat) (pay : List Byte) :
    ∃ o r, tracePut s d code src pay = { s with ord := o, trace := r } := by
  rw [tracePut]
  split
  · exact ⟨_, _, rfl⟩
  · dsimp only
    obtain ⟨o, ho⟩ := physWrite_eq s 0 _ _
    rw [ho]
    exact ⟨_, _, rfl⟩

@[simp] theorem tracePut_snap (s : State) (d code src : Nat) (pay : List Byte) : (tracePut s d code src pay).snap = s.snap := by
  obtain ⟨o, r, h⟩ := tracePut_eq s d code src pay
  rw [h]

@[simp] theorem takePick_snap (s : State) (n : Nat) : (takePick s n).2.snap = s.snap := by
  obtain ⟨x, h⟩ := takePick_eq s n
  rw [h]

@[simp] theorem putRing_snap (s : State) (d : Nat) (r : TraceRing) : (putRing s d r).snap = s.snap := rfl

@[simp] theorem traceUnit_snap (s : State) (d code src : Nat) (pay : List Byte) : (traceUnit s d code src pay).snap = s.snap := by
  unfold traceUnit
  split
  · rfl
  · dsimp only
    split
    · simp
    · split <;> simp

/-! The retirement of a convoy (R77). -/

@[simp] theorem commitQueue_marks (o : Ordering_) (st : Strand) : (commitQueue o st).marks = st.marks := by
  unfold commitQueue
  split <;> rfl

@[simp] theorem commitQueue_sid (o : Ordering_) (st : Strand) : (commitQueue o st).sid = st.sid := by
  unfold commitQueue
  split <;> rfl

@[simp] theorem overfull_commitQueue (o : Ordering_) (st : Strand) : overfull (commitQueue o st) = overfull st := by
  unfold commitQueue
  split <;> rfl

theorem retireStrand_marks (o : Ordering_) (st : Strand) : (retireStrand o st).marks = st.marks := commitQueue_marks o _

theorem retireStrand_sid (o : Ordering_) (st : Strand) : (retireStrand o st).sid = st.sid := commitQueue_sid o _

theorem overfull_retireStrand (o : Ordering_) (st : Strand) : overfull (retireStrand o st) = overfull st := overfull_commitQueue o _

theorem die_eq_of_sid {a b : Strand} (h : a.sid = b.sid) : a.die = b.die := by rw [Strand.die, Strand.die, h]

theorem strandSrc_eq_of_sid {a b : Strand} (h : a.sid = b.sid) : strandSrc a = strandSrc b := by
  simp only [strandSrc, Strand.die, Strand.core, Strand.slotNo, h]

/-- One mark is written where the strand's ring takes user records, and is gone from the strand in any case. -/
theorem marksOf_single {s : State} {sid code : Nat} {pay : List Byte} (h : (strandOf s sid).marks = [(code, pay)]) :
    marksOf s sid =
      if (ringOf s (strandOf s sid).die).en = true ∧ (ringOf s (strandOf s sid).die).user = true then
        tracePut (putStrand s sid { strandOf s sid with marks := [] }) (strandOf s sid).die code (strandSrc (strandOf s sid)) pay
      else putStrand s sid { strandOf s sid with marks := [] } := by
  have hRing : ∀ st d, ringOf (putStrand s sid st) d = ringOf s d := fun _ _ => rfl
  simp [marksOf, h, hRing]

theorem retire_of_running {s : State} (hRun : (me s).run ≠ .idle) (hFull : overfull (me s) = false) :
    retire s = marksOf (putMe { s with convoy := none } (retireStrand s.ord (me s))) s.cur := by
  have hMe : me { s with convoy := none } = me s := rfl
  simp [retire, hMe, hRun, writeMarks, overfull_retireStrand, hFull]

theorem retire_single_mark {s : State} {code : Nat} {pay : List Byte} (hMark : (me s).marks = [(code, pay)]) (hRun : (me s).run ≠ .idle)
    (hFull : overfull (me s) = false) :
    retire s =
      if (ringOf s (me s).die).en = true ∧ (ringOf s (me s).die).user = true then
        tracePut (putMe { s with convoy := none } { retireStrand s.ord (me s) with marks := [] }) (me s).die code (strandSrc (me s)) pay
      else putMe { s with convoy := none } { retireStrand s.ord (me s) with marks := [] } := by
  let s0 : State := { s with convoy := none }
  have hSid := retireStrand_sid s.ord (me s)
  have hSt : strandOf (putMe s0 (retireStrand s.ord (me s))) s.cur = retireStrand s.ord (me s) := strandOf_putStrand_same _ _ _
  have hPut : ∀ st, putStrand (putMe s0 (retireStrand s.ord (me s))) s.cur st = putMe s0 st := fun st => putStrand_putStrand _ _ _ st
  have hRing : ∀ st d, ringOf (putMe s0 st) d = ringOf s d := fun _ _ => rfl
  have hMarks : (strandOf (putMe s0 (retireStrand s.ord (me s))) s.cur).marks = [(code, pay)] := by
    rw [hSt, retireStrand_marks, hMark]
  rw [retire_of_running hRun hFull, marksOf_single hMarks, hSt, hPut, hRing, die_eq_of_sid hSid, strandSrc_eq_of_sid hSid]

/-! Writes to TRTAIL and TRCTL (R80, R81). -/

theorem tailRule_eq (tail head : Nat) (v : Word) :
    tailRule tail head v = if tail < v.toNat ∧ v.toNat ≤ head then v.toNat else tail := by simp [tailRule]

theorem writeTrtail_frame (s : State) (d : Nat) (v : Word) : { writeTrtail s d v with trace := s.trace } = s := rfl

theorem ringOf_writeTrtail (s : State) (d : Nat) (v : Word) :
    ringOf (writeTrtail s d v) d = { ringOf s d with
      tail := if (ringOf s d).tail < v.toNat ∧ v.toNat ≤ (ringOf s d).head then v.toNat else (ringOf s d).tail } := by
  rw [writeTrtail, ringOf_putRing, tailRule_eq]

theorem writeTrctl_frame (s : State) (d : Nat) (v : Word) : { writeTrctl s d v with trace := s.trace } = s := by
  unfold writeTrctl
  dsimp only
  split
  · rfl
  · split <;> rfl

/-- The low five bits of a control register hold its SIZE. -/
theorem bitsW_size (v : Word) : bitsW v 0 5 = v.toNat % 32 := by simp [bitsW, bitsN]

theorem ringOf_writeTrctl (s : State) (d : Nat) (v : Word) :
    let r := ringOf s d
    let size := v.toNat % 32
    let flags := { r with snap := v.getLsbD 11, thr := v.getLsbD 10, coll := v.getLsbD 9, user := v.getLsbD 8, en := v.getLsbD 5 }
    ringOf (writeTrctl s d v) d = (if r.en then flags else if size < 10 ∨ 26 < size then r
      else if v.getLsbD 5 then { flags with size := size, head := 0, tail := 0 } else { flags with size := size }) := by
  simp only [writeTrctl, bitsW_size, bitW, Bool.or_eq_true, decide_eq_true_eq]
  split
  · simp
  · split
    · rfl
    · split <;> simp

/-! The snapshot (R20, R82, R83). -/

/-- A snapshot that is free latches: the values are those before the trigger's own trace records. -/
theorem latchSnapshot_snap {s : State} (h : s.snap.valid = false) :
    (latchSnapshot s).snap = { s.snap with valid := true, num := (s.snap.num + 1) % 65536, latched := snapValues s } := by
  rw [latchSnapshot, if_neg (by simp [h])]
  refine List.foldlRecOn (motive := fun t : State => t.snap = _) _ _ rfl fun t ht d _ => ?_
  split
  · rw [traceUnit_snap, ht]
  · exact ht

theorem latchSnapshot_of_held {s : State} (h : s.snap.valid = true) :
    latchSnapshot s = { s with snap := { s.snap with miss := min 0xFFFF (s.snap.miss + 1) } } := by
  rw [latchSnapshot, if_pos h]

theorem latchSnapshot_valid (s : State) : (latchSnapshot s).snap.valid = true := by
  cases h : s.snap.valid with
  | false => rw [latchSnapshot_snap h]
  | true => rw [latchSnapshot_of_held h]; exact h

theorem fireSnapshot_held {s : State} (h : pdHeld s = true) : fireSnapshot s = { s with snap := { s.snap with pend := s.snap.pend + 1 } } := by
  rw [fireSnapshot, if_pos h]

theorem fireSnapshot_working {s : State} (h : pdHeld s = false) : fireSnapshot s = latchSnapshot s := by
  rw [fireSnapshot, if_neg (by simp [h])]

/-- SNAPAT's match disarms, then fires. -/
theorem snapMatch_of_due {s : State} (hArm : s.snap.arm = true) (hTime : s.snap.at_.toNat ≤ tscOf s 0) :
    snapMatch s = some (fireSnapshot { s with snap := { s.snap with arm := false } }) := by
  simp [snapMatch, hArm, hTime]

theorem fireSnapshot_arm (s : State) : (fireSnapshot s).snap.arm = s.snap.arm := by
  cases hHeld : pdHeld s with
  | true => rw [fireSnapshot_held hHeld]
  | false =>
    rw [fireSnapshot_working hHeld]
    cases h : s.snap.valid with
    | false => rw [latchSnapshot_snap h]
    | true => rw [latchSnapshot_of_held h]

theorem execTrtailWrite_next {s : State} {d : Nat} {v : Word} (hArg : s.arg = .nw d v) (hd : d < 9) :
    exec .trtailWrite s = .next (writeTrtail s d v) := by
  simp [exec, execTrtailWrite, hArg, hd, event]

theorem execTrctlWrite_next {s : State} {d : Nat} {v : Word} (hArg : s.arg = .nw d v) (hd : d < 9) :
    exec .trctlWrite s = .next (writeTrctl s d v) := by
  simp [exec, execTrctlWrite, hArg, hd, event]

theorem snapat_fires {s : State} (hArm : s.snap.arm = true) (hTime : s.snap.at_.toNat ≤ tscOf s 0) :
    ∃ t, exec .snapatMatch s = .next t ∧ t.snap.arm = false ∧ (pdHeld s = true → t.snap.pend = s.snap.pend + 1) ∧
      (pdHeld s = false → t.snap.valid = true ∧ (s.snap.valid = false → t.snap.num = (s.snap.num + 1) % 65536)) := by
  refine ⟨_, congrArg (event "SNAPAT_MATCH") (snapMatch_of_due hArm hTime), fireSnapshot_arm _, fun hHeld => ?_, fun hHeld => ?_⟩
  · rw [fireSnapshot_held (s := { s with snap := { s.snap with arm := false } }) hHeld]
  · rw [fireSnapshot_working (s := { s with snap := { s.snap with arm := false } }) hHeld]
    refine ⟨latchSnapshot_valid _, fun hFree => ?_⟩
    rw [latchSnapshot_snap (s := { s with snap := { s.snap with arm := false } }) hFree]

/-- Settles O47: the rings by their control writes, TRMARK by the retirement of its convoy, the snapshot by whether a bubble, a held snapshot or
neither meets the trigger. -/
theorem traceAndSnapshot : Obligations.TraceAndSnapshot := by
  unfold Obligations.TraceAndSnapshot
  refine ⟨fun _ _ => rfl, fun s code pay hMark hRun hFull => retire_single_mark hMark hRun hFull, fun s d v hArg hd => ?_, fun s d v hArg hd => ?_,
    fun s hHeld => ?_, fun s hHeld hValid => ?_, fun s hHeld hFree => ?_, fun s hArm hTime => snapat_fires hArm hTime, fun _ => rfl⟩
  · exact ⟨_, execTrtailWrite_next hArg hd, writeTrtail_frame s d v, ringOf_writeTrtail s d v⟩
  · exact ⟨_, execTrctlWrite_next hArg hd, writeTrctl_frame s d v, ringOf_writeTrctl s d v⟩
  · exact congrArg _ (fireSnapshot_held hHeld)
  · exact congrArg _ ((fireSnapshot_working hHeld).trans (latchSnapshot_of_held hValid))
  · exact ⟨_, rfl, by rw [fireSnapshot_working hHeld, latchSnapshot_snap hFree]⟩

end Sys2Proof.Machine
end

section
/-! SUPPORT. What a dispatch places on its slots, what a save of a record leaves of the ready records, and the dispatchers' events
(R98 to R115). -/

namespace Sys2Proof.Machine

theorem computeDie_of_bounds {d : Nat} (hlo : 1 ≤ d) (hhi : d ≤ 8) : computeDie d = true := by simp [computeDie, hlo, hhi]

/-! Dispatch of a fresh record (R98, R103, R106). -/

theorem slotSid_injective (d : Nat) : Function.Injective (slotSid d) := fun _ _ h => Nat.add_left_cancel h

theorem strandOf_placeFresh_ne (r : Record) (child d sid : Nat) :
    ∀ (slots : List Nat) (rank : Nat) (s : State), (∀ k, k ∈ slots → sid ≠ slotSid d k) →
      strandOf (placeFresh s r child d rank slots) sid = strandOf s sid := by
  intro slots
  induction slots with
  | nil => exact fun _ _ _ => rfl
  | cons k t ih =>
    intro rank s h
    obtain ⟨hk, ht⟩ := List.forall_mem_cons.mp h
    rw [placeFresh, ih _ _ ht, strandOf_putStrand_ne _ _ _ _ hk]

/-- The strand of rank `rank + j` stands on the j-th slot, at the record's code. -/
theorem strandOf_placeFresh (r : Record) (child d : Nat) :
    ∀ (slots : List Nat) (rank : Nat) (s : State), slots.Nodup → ∀ j, j < slots.length →
      let st := strandOf (placeFresh s r child d rank slots) (slotSid d (slots.getD j 0))
      st.run = .running ∧ st.pc = r.code ∧ st.rank = rank + j := by
  intro slots
  induction slots with
  | nil => exact fun _ _ _ j hj => absurd hj (Nat.not_lt_zero j)
  | cons k t ih =>
    intro rank s hNodup j hj
    obtain ⟨hk, ht⟩ := List.nodup_cons.mp hNodup
    cases j with
    | zero =>
      have hOther : ∀ x, x ∈ t → slotSid d k ≠ slotSid d x := fun x hx h => hk (slotSid_injective d h ▸ hx)
      rw [placeFresh, List.getD_cons_zero, strandOf_placeFresh_ne _ _ _ _ _ _ _ hOther, strandOf_putStrand_same]
      exact ⟨rfl, rfl, rfl⟩
    | succ i =>
      have h := ih (rank + 1) (putStrand s (slotSid d k) (freshStrand s r child rank (slotSid d k))) ht i (Nat.lt_of_succ_lt_succ hj)
      rwa [Nat.add_assoc, Nat.add_comm 1 i] at h

theorem nodup_of_placeOk {s : State} {r : Record} {d : Nat} {slots : List Nat} (h : placeOk s r d slots = true) : slots.Nodup := by
  cases slots with
  | nil => exact List.nodup_nil
  | cons k t =>
    simp only [placeOk, Bool.and_eq_true, decide_eq_true_eq] at h
    obtain ⟨⟨⟨-, hNodup⟩, -⟩, -⟩ := h
    exact hNodup

/-- A fresh record's dispatch starts a strand on each of its slots, in increasing rank (R106). -/
theorem dispatchFresh_strands (s : State) (r : Record) (d : Nat) {slots : List Nat} (hNodup : slots.Nodup) {j : Nat} (hj : j < slots.length) :
    let st := strandOf (dispatchFresh s r d slots) (512 * d + slots.getD j 0)
    st.run = .running ∧ st.pc = r.code ∧ st.rank = j := by
  unfold dispatchFresh
  generalize allocCell s _ = x
  obtain ⟨c, s1⟩ := x
  have h := fun r1 s2 => strandOf_placeFresh r1 c d slots 0 s2 hNodup j hj
  rw [Nat.zero_add] at h
  exact h { r with child := some c, cluster := some (d * 32 + slots.headD 0 / 16) } _

theorem dispatchRec_of_fresh (s : State) {r : Record} (d : Nat) (slots : List Nat) (h : r.resume = false) :
    ∃ s1, dispatchRec s r d slots = dispatchFresh s1 r d slots :=
  ⟨_, by rw [dispatchRec, if_neg (by simp [h])]⟩

theorem dispatchStep_of_choice {s : State} {d p : Nat} {slots : List Nat} {r : Record} {rr : Nat × Nat} (hDie : computeDie d = true)
    (hHeld : pdHeld s = false) (hChoice : chooseRec s d = some (r, p, rr)) (hPlace : placeOk s r d slots = true) :
    ∃ s1, dispatchStep s d slots = some (dispatchRec s1 { r with passed := [] } d slots) := by
  rw [dispatchStep, if_neg (by simp [hDie, hHeld]), hChoice]
  exact ⟨_, if_pos hPlace⟩

theorem recordDispatch_fresh {s : State} {d : Nat} {slots : List Nat} {r : Record} {p : Nat} {rr : Nat × Nat} (hArg : s.arg = .place d slots)
    (hDie : computeDie d = true) (hHeld : pdHeld s = false) (hChoice : chooseRec s d = some (r, p, rr)) (hPlace : placeOk s r d slots = true)
    (hFresh : r.resume = false) :
    ∃ t, exec .recordDispatch s = .next t ∧
      ∀ j, j < slots.length → (strandOf t (512 * d + slots.getD j 0)).run = .running ∧
        (strandOf t (512 * d + slots.getD j 0)).pc = r.code ∧ (strandOf t (512 * d + slots.getD j 0)).rank = j := by
  obtain ⟨s1, hStep⟩ := dispatchStep_of_choice hDie hHeld hChoice hPlace
  obtain ⟨s2, hRec⟩ := dispatchRec_of_fresh s1 (r := { r with passed := [] }) d slots hFresh
  refine ⟨_, ?_, fun j hj => dispatchFresh_strands s2 { r with passed := [] } d (nodup_of_placeOk hPlace) hj⟩
  simp [exec, execRecordDispatch, hArg, hStep, hRec, event]

/-! Aging and pre-emption (R103, R104, R114). -/

theorem agingStep_eq {s : State} {d : Nat} (hDie : computeDie d = true) (hAge : (dispOf s d).ageq ≠ 0) (hHeld : pdHeld s = false) :
    agingStep s d = some (reserveStep (notePassed s d) d) := by
  simp [agingStep, hDie, ageqOf, hAge, hHeld]

theorem preemptPrio_eq {s : State} {d n : Nat} {r : Record} {st : Strand} (hDie : computeDie d = true)
    (hRec : s.ready.find? (fun r => r.order == n && !r.parked) = some r) (hMatch : matchesOn s r d = false) (hHeld : pdHeld s = false)
    (hVictim : lowestStrand ((victims s d).filter fun st => wouldMatch s r st && decide (st.rec_.prio < r.prio)) = some st)
    (hCan : canPreempt s st = true) : preemptPrio s d n = some (beginDrain s st) := by
  rw [preemptPrio, hRec]
  simp only [hDie, hMatch, hHeld, hVictim, hCan]
  rfl

theorem preemptQuantum_eq {s : State} {sid : Nat} (hTrunk : (strandOf s sid).trunk = false) (hRun : (strandOf s sid).run = .running)
    (hQuantum : (dispOf s (strandOf s sid).die).preq ≠ 0)
    (hTime : (strandOf s sid).since + (dispOf s (strandOf s sid).die).preq ≤ s.power.working) (hWanted : wantedBy s (strandOf s sid) = true)
    (hCan : canPreempt s (strandOf s sid) = true) (hHeld : pdHeld s = false) :
    preemptQuantum s sid = some (beginDrain s (strandOf s sid)) := by
  simp [preemptQuantum, preemptable, hTrunk, hRun, hQuantum, hTime, hWanted, hCan, hHeld]

/-! A save leaves the ready records (R109, R115). -/

@[simp] theorem physWrite_ready (s : State) (d pa : Nat) (bytes : List Byte) : (physWrite s d pa bytes).ready = s.ready := by
  obtain ⟨o, h⟩ := physWrite_eq s d pa bytes
  rw [h]

@[simp] theorem tracePut_ready (s : State) (d code src : Nat) (pay : List Byte) : (tracePut s d code src pay).ready = s.ready := by
  obtain ⟨o, r, h⟩ := tracePut_eq s d code src pay
  rw [h]

@[simp] theorem marksOf_ready (s : State) (sid : Nat) : (marksOf s sid).ready = s.ready := by
  unfold marksOf
  refine List.foldlRecOn (motive := fun t : State => t.ready = s.ready) _ _ ?_ fun t ht m _ => ?_
  · split <;> rfl
  · dsimp only
    split
    · rw [tracePut_ready, ht]
    · exact ht

@[simp] theorem commitStop_ready (s : State) (sid : Nat) : (commitStop s sid).ready = s.ready := by
  unfold commitStop
  dsimp only
  split <;> simp

@[simp] theorem mxPut_ready (s : State) (st : Strand) (l : List MxHold) : (mxPut s st l).ready = s.ready := by
  unfold mxPut
  split <;> rfl

@[simp] theorem abandon_ready (s : State) (sid : Nat) : (abandon s sid).ready = s.ready := by
  unfold abandon
  split <;> simp

@[simp] theorem moveFlits_ready (s : State) (a b : Nat) : (moveFlits s a b).ready = s.ready := by
  unfold moveFlits
  split <;> rfl

@[simp] theorem saveInto_ready (s : State) (st : Strand) (n epc : Nat) (parked : Bool) : (saveInto s st n epc parked).ready = s.ready := by
  rw [saveInto, putDisp_ready, physWrite_ready]

theorem ready_of_strands (s : State) (l : NMap Strand) : ({ s with strands := l } : State).ready = s.ready := rfl

/-- What `saveAll` does for one strand of a record and its save slot; `ns` are the record's save slots. -/
def saveMember (ns : List Nat) (parked : Bool) (s : State) (x : Strand × Nat) : State :=
  let s0 := abandon s x.1.sid
  let st := strandOf s0 x.1.sid
  let r := { st.rec_ with slots := ns, svDie := st.die, cluster := some st.clusterKey, resume := true, parked := parked }
  let s1 := saveInto s0 { dropAnswers s0 st with rec_ := r, early := [] } x.2 (if st.faulted then st.epc.toNat else st.pc.toNat) parked
  moveFlits { s1 with strands := NMap.erase s1.strands st.sid } st.sid (savedSid st)

theorem saveAll_eq_foldl (s : State) (as_ : List (Strand × Nat)) (parked : Bool) :
    saveAll s as_ parked = as_.foldl (saveMember (as_.map (·.2)) parked) s := rfl

theorem saveMember_ready (ns : List Nat) (parked : Bool) (s : State) (x : Strand × Nat) : (saveMember ns parked s x).ready = s.ready := by
  unfold saveMember
  exact (moveFlits_ready _ _ _).trans <| (ready_of_strands _ _).trans <| (saveInto_ready _ _ _ _ parked).trans (abandon_ready _ _)

@[simp] theorem saveAll_ready (s : State) (as_ : List (Strand × Nat)) (parked : Bool) : (saveAll s as_ parked).ready = s.ready := by
  rw [saveAll_eq_foldl]
  exact List.foldlRecOn (motive := fun t : State => t.ready = s.ready) _ _ rfl fun t ht x _ => (saveMember_ready _ _ t x).trans ht

/-- A drained record is saved and becomes ready again, to be resumed (R114, R115). -/
theorem preemptSave_of_drained {s : State} {sid : Nat} (hRun : (strandOf s sid).run = .draining)
    (hGang : ∀ m, m ∈ gangOf s (strandOf s sid) → m.run = .draining ∧ drained s m = true ∧ m.late = [] ∧ overfull m = false)
    (hHeld : pdHeld s = false) (hRoom : lackSlots s (gangOf s (strandOf s sid)) ≤ saveRoom s (strandOf s sid).die) :
    ∃ s1 r, preemptSave s sid = some (enqueueRec s1 r) ∧ s1.ready = s.ready ∧ r.resume = true ∧ r.parked = false ∧
      r.child = (strandOf s sid).rec_.child := by
  have hDraining : (gangOf s (strandOf s sid)).all (fun m => m.run == .draining) = true :=
    List.all_eq_true.mpr fun m hm => by simp [(hGang m hm).1]
  have hDrained : (gangOf s (strandOf s sid)).all (fun m => drained s m && m.late.isEmpty && !overfull m) = true :=
    List.all_eq_true.mpr fun m hm => by
      obtain ⟨-, hIdle, hLate, hFull⟩ := hGang m hm
      simp [hIdle, hLate, hFull]
  rw [preemptSave, if_neg (by simp [hHeld, hRun, hDraining]), if_neg (by omega), if_neg (by simp [hDrained])]
  exact ⟨_, _, rfl, saveAll_ready s _ _, rfl, rfl, rfl⟩

theorem preemptSave_requeues {s : State} {sid : Nat} (hArg : s.arg = .n1 sid) (hRun : (strandOf s sid).run = .draining)
    (hGang : ∀ m, m ∈ gangOf s (strandOf s sid) → m.run = .draining ∧ drained s m = true ∧ m.late = [] ∧ overfull m = false)
    (hHeld : pdHeld s = false) (hRoom : lackSlots s (gangOf s (strandOf s sid)) ≤ saveRoom s (strandOf s sid).die) :
    ∃ t, exec .preemptSave s = .next t ∧ t.ready.length = s.ready.length + 1 ∧
      (t.ready.getLast?.map fun r => (r.resume, r.parked, r.child)) = some (true, false, (strandOf s sid).rec_.child) := by
  obtain ⟨s1, r, hSave, hReady, hResume, hParked, hChild⟩ := preemptSave_of_drained hRun hGang hHeld hRoom
  refine ⟨enqueueRec s1 r, ?_, ?_, ?_⟩
  · simp [exec, execPreemptSave, hArg, hSave, event]
  · simp [enqueueRec, hReady]
  · simp [enqueueRec, hResume, hParked, hChild]

/-! Parked records and the fault ring (R105, R109, R112). -/

theorem parkedAt_beyond {s : State} {d n : Nat} (h : (dispOf s d).svCount ≤ n) : parkedAt s d n = none := if_pos h

theorem writeFlttail_eq (s : State) (d : Nat) (v : Word) :
    writeFlttail s d v = serveFaults (putDisp s d { dispOf s d with
      fltTail := if (dispOf s d).fltTail < v.toNat ∧ v.toNat ≤ (dispOf s d).fltHead then v.toNat else (dispOf s d).fltTail }) d := by
  rw [writeFlttail, tailRule_eq]

theorem writeFltctl_eq (s : State) (d : Nat) (v : Word) :
    writeFltctl s d v =
      if (dispOf s d).fltEn then serveFaults (putDisp s d { dispOf s d with fltEn := v.getLsbD 5 }) d
      else if v.toNat % 32 < 6 ∨ 16 < v.toNat % 32 then s
      else serveFaults (putDisp s d { dispOf s d with fltSize := v.toNat % 32, fltEn := v.getLsbD 5 }) d := by
  simp [writeFltctl, bitsW_size, bitW]

/-- RESUMEW of a parked record (R109). -/
theorem resumeRecord_ready {s : State} {d n : Nat} {st : Strand} (h : parkedAt s d n = some st) :
    (resumeRecord s d n).ready =
      s.ready ++ [{ st.rec_ with parked := false, readyAt := s.power.working, order := s.orderNo, passed := [] }] := by
  simp [resumeRecord, h, enqueueRec]

/-- KILLW of a parked record (R109). -/
theorem killRecord_eq {s : State} {d n : Nat} {st : Strand} (h : parkedAt s d n = some st) :
    killRecord s d n =
      serveFaults (endSaved (updLaunch s st.rec_.queue st.rec_.launch fun l => { l with killed := true }) st.rec_) d := by
  simp [killRecord, h]

/-- A register event of a P- or D-die, given its meaning there: the die's number is its only condition. -/
theorem event_of_computeDie {name : String} {d : Nat} {t : State} (hDie : computeDie d = true) :
    event name (if computeDie d then some t else none) = .next t := by
  rw [if_pos hDie, event]

section RegisterEvents
variable {s : State} {d : Nat} {v : Word} (hArg : s.arg = .nw d v) (hDie : computeDie d = true)
include hArg hDie

theorem execResumew_next : exec .resumew s = .next (resumeRecord s d v.toNat) := by
  simp only [exec, execResumew, hArg, event_of_computeDie hDie]

theorem execKillw_next : exec .killw s = .next (killRecord s d v.toNat) := by
  simp only [exec, execKillw, hArg, event_of_computeDie hDie]

theorem execFlttailWrite_next : exec .flttailWrite s = .next (writeFlttail s d v) := by
  simp only [exec, execFlttailWrite, hArg, event_of_computeDie hDie]

theorem execFltctlWrite_next : exec .fltctlWrite s = .next (writeFltctl s d v) := by
  simp only [exec, execFltctlWrite, hArg, event_of_computeDie hDie]

end RegisterEvents

/-- Settles O49, event by event: each event's own lemma gives its state, from the checks that its hypotheses meet. -/
theorem dispatchAndFaults : Obligations.DispatchAndFaults := by
  unfold Obligations.DispatchAndFaults
  refine ⟨?dispatch, ?aging, ?priority, ?quantum, ?save, ?freed, ?unparked, ?beyond, ?resume, ?kill, ?tail, ?control⟩
  case dispatch =>
    intro s d slots r p rr hArg hlo hhi hHeld hChoice hPlace hFresh
    exact recordDispatch_fresh hArg (computeDie_of_bounds hlo hhi) hHeld hChoice hPlace hFresh
  case aging =>
    intro s d hArg hlo hhi hAge hHeld
    simp only [exec, execAgingQuantum, hArg, agingStep_eq (computeDie_of_bounds hlo hhi) hAge hHeld, event]
  case priority =>
    intro s d n r st hArg hlo hhi hRec hMatch hHeld hVictim hCan
    simp only [exec, execPreemptPriority, hArg, preemptPrio_eq (computeDie_of_bounds hlo hhi) hRec hMatch hHeld hVictim hCan, event]
  case quantum =>
    intro s sid st hArg hTrunk hRun hQuantum hTime hWanted hCan hHeld
    simp only [exec, execPreemptionQuantum, hArg, preemptQuantum_eq hTrunk hRun hQuantum hTime hWanted hCan hHeld, event]
    rfl
  case save =>
    intro s sid st g hArg hRun hGang hHeld hRoom
    exact preemptSave_requeues hArg hRun hGang hHeld hRoom
  case freed =>
    intro s d hArg hlo hhi hHeld
    simp [exec, execSaveSlotFreed, hArg, computeDie_of_bounds hlo hhi, hHeld, event]
  case unparked =>
    intro s d v hArg hlo hhi hNone
    have hDie := computeDie_of_bounds hlo hhi
    rw [execResumew_next hArg hDie, execKillw_next hArg hDie, resumeRecord, killRecord, hNone]
    exact ⟨rfl, rfl⟩
  case beyond => exact fun s d n h => parkedAt_beyond h
  case resume =>
    intro s d v st hArg hlo hhi hParked
    exact ⟨_, execResumew_next hArg (computeDie_of_bounds hlo hhi), resumeRecord_ready hParked⟩
  case kill =>
    intro s d v st hArg hlo hhi hParked
    rw [execKillw_next hArg (computeDie_of_bounds hlo hhi), killRecord_eq hParked]
  case tail =>
    intro s d v hArg hlo hhi
    exact (execFlttailWrite_next hArg (computeDie_of_bounds hlo hhi)).trans (congrArg _ (writeFlttail_eq s d v))
  case control =>
    intro s d v hArg hlo hhi
    exact (execFltctlWrite_next hArg (computeDie_of_bounds hlo hhi)).trans (congrArg _ (writeFltctl_eq s d v))

end Sys2Proof.Machine
end

section
/-! SUPPORT. What the Ethernet MACs do with a received datagram or frame and with a PTP message (R44 to R49, R73). -/

namespace Sys2Proof.Machine

/-! Sorted lists of numbers. -/

@[simp] theorem hasN_eraseN_same (l : List Nat) (n : Nat) : hasN (eraseN l n) n = false := by simp [hasN, eraseN]

@[simp] theorem hasN_insertN_same (l : List Nat) (n : Nat) : hasN (insertN l n) n = true := by
  induction l with
  | nil => simp [insertN, hasN]
  | cons k t ih =>
    unfold insertN
    split
    · simp [hasN]
    · split
      · next h => simp [hasN, h]
      · exact (congrArg (k == n || ·) ih).trans (Bool.or_true _)

/-! Datagrams on the request port (R47 to R49). -/

/-- A datagram placed with die 0's TSC in its tenant's receive ring. -/
def placeDatagram (s : State) (d : Datagram) : State :=
  putTenant s d.tenant { tenantOf s d.tenant with ring := (tenantOf s d.tenant).ring ++ [(d, tscOf s 0)] }

theorem datagram_of_filtered {s : State} {d : Datagram} (hPort : d.port < 2) (hPass : passes s d = false) :
    datagram s d.kind d = some (discard s d.port (if d.tenant < 64 then some d.tenant else none)) := by
  simp [datagram, hPort, hPass]

theorem datagram_of_passes {s : State} {d : Datagram} (hPort : d.port < 2) (hPass : passes s d = true) :
    datagram s d.kind d = some (placeDatagram s d) := by
  simp [datagram, hPort, hPass, placeDatagram]

theorem resendRequest_of_filtered {s : State} {d : Datagram} (hKind : d.kind = 4) (hPort : d.port < 2) (hPass : passes s d = false) :
    resendRequest s d = some (discard s d.port (if d.tenant < 64 then some d.tenant else none)) := by
  have h := datagram_of_filtered hPort hPass
  rw [hKind] at h
  simp [resendRequest, h, hPass]

theorem resendRequest_of_passes {s : State} {d : Datagram} (hKind : d.kind = 4) (hPort : d.port < 2) (hPass : passes s d = true) :
    resendRequest s d = some (if (streamOfN s d.stream).tenant = d.tenant then resend (placeDatagram s d) d.stream d.bseq d.len
      else placeDatagram s d) := by
  have h := datagram_of_passes hPort hPass
  rw [hKind] at h
  simp [resendRequest, h, hPass]

/-- A datagram's event is the reception of its kind; RESEND_REQUEST alone answers besides. -/
theorem exec_of_dgramCode {i : Instr} {s : State} {kind : Nat} {d : Datagram} (hCode : dgramCode i = some kind)
    (hArg : argDatagram s.arg = some d) :
    ∃ name, exec i s = event name (if kind = 4 then resendRequest s d else datagram s kind d) := by
  unfold dgramCode at hCode
  split at hCode <;> cases hCode
  · exact ⟨"NEW_REQUEST", by change execNewRequest s = _; simp [execNewRequest, dgramEvent, hArg]⟩
  · exact ⟨"REQUEST_TEXT_CONTINUED", by change execRequestTextContinued s = _; simp [execRequestTextContinued, dgramEvent, hArg]⟩
  · exact ⟨"CANCEL_GENERATION", by change execCancelGeneration s = _; simp [execCancelGeneration, dgramEvent, hArg]⟩
  · exact ⟨"RESEND_REQUEST", by change execResendRequest s = _; simp [execResendRequest, hArg]⟩

theorem dgramEvent_received {i : Instr} {s : State} {kind : Nat} {d : Datagram} (hCode : dgramCode i = some kind)
    (hArg : argDatagram s.arg = some d) (hKind : d.kind = kind) (hPort : d.port < 2) :
    ∃ t, exec i s = .next t ∧
      (passes s d = false → t = discard s d.port (if d.tenant < 64 then some d.tenant else none)) ∧
      (passes s d = true → kind ≠ 4 → t = placeDatagram s d) ∧
      (passes s d = true → kind = 4 →
        t = if (streamOfN s d.stream).tenant = d.tenant then resend (placeDatagram s d) d.stream d.bseq d.len else placeDatagram s d) := by
  subst hKind
  obtain ⟨name, hExec⟩ := exec_of_dgramCode hCode hArg
  rw [hExec]
  by_cases hResend : d.kind = 4
  · rw [if_pos hResend]
    cases hPass : passes s d with
    | false => exact ⟨_, congrArg _ (resendRequest_of_filtered hResend hPort hPass), by simp⟩
    | true => exact ⟨_, congrArg _ (resendRequest_of_passes hResend hPort hPass), by simp [hResend]⟩
  · rw [if_neg hResend]
    cases hPass : passes s d with
    | false => exact ⟨_, congrArg _ (datagram_of_filtered hPort hPass), by simp⟩
    | true => exact ⟨_, congrArg _ (datagram_of_passes hPort hPass), by simp [hResend]⟩

/-! Other received frames (R44, R49). -/

theorem discard_frame (s : State) (port : Nat) (tenant : Option Nat) : { discard s port tenant with eth := s.eth } = s := rfl

theorem discards_discard (s : State) (port : Nat) :
    NMap.getD (discard s port none).eth.discards port 0 = NMap.getD s.eth.discards port 0 + 1 := by simp [discard]

/-- A frame of an Ethernet port is discarded or handed to firmware: Ethernet's own records alone change. -/
theorem ethFrame_accepts {s : State} {f : EthFrame} (hPort : framePort f < 2) (hLong : frameLong f = true) :
    ∃ t, ethFrame s f = some t ∧ { t with eth := s.eth } = s := by
  cases f with
  | oversize p len =>
    have hPort' : p < 2 := hPort
    have hLong' : 9216 < len := of_decide_eq_true hLong
    exact ⟨_, if_pos (by simp [hPort', hLong']), discard_frame s p none⟩
  | badFcs p => exact ⟨_, if_pos hPort, discard_frame s p none⟩
  | pauseOrPfc p => exact ⟨_, if_pos hPort, discard_frame s p none⟩
  | fragmentOrOptions p => exact ⟨_, if_pos hPort, discard_frame s p none⟩
  | badUdpChecksum p => exact ⟨_, if_pos hPort, discard_frame s p none⟩
  | badKind p t => exact ⟨_, if_pos hPort, discard_frame s p _⟩
  | filterMiss p t => exact ⟨_, if_pos hPort, discard_frame s p _⟩
  | ringFull p t => exact ⟨_, if_pos hPort, discard_frame s p _⟩
  | toFirmware p b => exact ⟨_, if_pos hPort, rfl⟩

theorem execEthernetFrameReceive_eth {s : State} {f : EthFrame} (hArg : s.arg = .eth f) :
    exec .ethernetFrameReceive s = event "ETHERNET_FRAME_RECEIVE" (ethFrame s f) := by
  change execEthernetFrameReceive s = _
  simp [execEthernetFrameReceive, hArg]

theorem frameIn_badFcs (port : Nat) (b : List Byte) : frameIn port false b = .drop (.badFcs port) := by simp [frameIn]

theorem execEthernetFrameReceive_badFcs {s : State} {port : Nat} {b : List Byte} (hArg : s.arg = .frame port false b) (hPort : port < 2) :
    exec .ethernetFrameReceive s = .next (discard s port none) := by
  change execEthernetFrameReceive s = _
  simp [execEthernetFrameReceive, hArg, frameIn_badFcs, ethFrame, hPort, event]

/-! PTP messages (R73). -/

theorem ptpReceive_eq {s : State} {port : Nat} {m : List Byte} (hPort : port < 2) :
    ptpReceive s port m = some (if ptpType m < 4 then
        { s with eth := { s.eth with ptpRx := s.eth.ptpRx ++ [(port, m, tscOf s 0)] } }
      else { s with eth := { s.eth with toFirmware := s.eth.toFirmware ++ [(port, m)] } }) := by
  rw [ptpReceive, if_neg (by omega)]
  by_cases hEvent : ptpType m < 4 <;> simp [ptpEvent, hEvent]

theorem execPtpEventReceive_next {s t : State} {port : Nat} {one : Bool} {tr : PtpTransport} {m : List Byte} (hArg : s.arg = .ptp port one tr m)
    (h : ptpReceive s port m = some t) : exec .ptpEventReceive s = .next t := by
  change execPtpEventReceive s = _
  simp only [execPtpEventReceive, hArg, h, event]

theorem execPtpEventTransmit_next {s t : State} {port : Nat} {one : Bool} {tr : PtpTransport} {m : List Byte} (hArg : s.arg = .ptp port one tr m)
    (h : ptpTransmit s port one tr m = some t) : exec .ptpEventTransmit s = .next t := by
  change execPtpEventTransmit s = _
  simp only [execPtpEventTransmit, hArg, h, event]

/-- The MAC writes into a Sync and a Pdelay_Resp of a port in one-step mode alone. -/
theorem oneStepWrites_eq (e : Ethernet) (port : Nat) (one : Bool) (m : List Byte) :
    (!hasN (setStep e port one).twoStep port && (ptpType m == 0 || ptpType m == 3)) = (one && (ptpType m == 0 || ptpType m == 3)) := by
  cases one <;> simp [setStep]

@[simp] theorem setStep_ptpTxStamps (e : Ethernet) (port : Nat) (one : Bool) : (setStep e port one).ptpTxStamps = e.ptpTxStamps := rfl

/-- The MAC counts a message and sends it in its frame. -/
def sendPtp (e : Ethernet) (port : Nat) (tr : PtpTransport) (m : List Byte) : Ethernet :=
  { countSent e port with ptpTx := e.ptpTx ++ [(port, ptpFrame port tr m)] }

/-- A message that the MAC does not write into leaves as it is; an event message brings its timestamp. -/
theorem ptpTransmit_plain {s : State} {port : Nat} {one : Bool} {tr : PtpTransport} {m : List Byte} (hPort : port < 2)
    (hPlain : one = false ∨ (ptpType m ≠ 0 ∧ ptpType m ≠ 3)) :
    ptpTransmit s port one tr m = some { s with eth := { sendPtp (setStep s.eth port one) port tr m with
      ptpTxStamps := s.eth.ptpTxStamps ++ (if ptpType m < 4 then [(port, tscOf s 0)] else []) } } := by
  have hKeeps : (one && (ptpType m == 0 || ptpType m == 3)) = false := by
    rcases hPlain with h | ⟨h0, h3⟩ <;> simp [*]
  simp only [ptpTransmit, if_neg (show ¬2 ≤ port by omega), oneStepWrites_eq, hKeeps]
  by_cases hEvent : ptpType m < 4 <;> simp [ptpEvent, hEvent, sendPtp, countSent]

/-- What R73 has the MAC write in one-step mode: its time into a Sync, the residence into a Pdelay_Resp. -/
def oneStepBytes (s : State) (port : Nat) (m : List Byte) : List Byte :=
  if ptpType m = 0 then putBytes m 34 (ptpStamp (tscOf s 0))
  else putBytes m 8 (bytesBE 8 ((numBE (sliceBytes m 8 8) + (tscOf s 0 - (ptpAsked s port m).getD 0) * 2 ^ 16) % 2 ^ 64))

theorem oneStep_eq {s : State} {port : Nat} {m : List Byte}
    (hType : ptpType m = 0 ∨ (ptpType m = 3 ∧ (ptpAsked s port m).isSome = true)) : oneStep s port m = (oneStepBytes s port m, s) := by
  rcases hType with hSync | ⟨hResp, hAsked⟩
  · simp [oneStep, oneStepBytes, hSync]
  · obtain ⟨t, ht⟩ := Option.isSome_iff_exists.mp hAsked
    simp [oneStep, oneStepBytes, hResp, ht]

theorem ptpTransmit_oneStep {s : State} {port : Nat} {tr : PtpTransport} {m : List Byte} (hPort : port < 2)
    (hType : ptpType m = 0 ∨ (ptpType m = 3 ∧ (ptpAsked s port m).isSome = true)) :
    ptpTransmit s port true tr m =
      some { s with eth := sendPtp (setStep s.eth port true) port tr (oneStepBytes s port m) } := by
  have hWrites : (true && (ptpType m == 0 || ptpType m == 3)) = true := by
    rcases hType with h | ⟨h, -⟩ <;> simp [h]
  have hStep : oneStep { s with eth := setStep s.eth port true } port m =
      (oneStepBytes s port m, { s with eth := setStep s.eth port true }) := oneStep_eq (s := { s with eth := setStep s.eth port true }) hType
  simp only [ptpTransmit, if_neg (show ¬2 ≤ port by omega), oneStepWrites_eq, hWrites, hStep]
  simp [sendPtp, countSent]

theorem sentFrames_sendPtp (e : Ethernet) (port : Nat) (tr : PtpTransport) (m : List Byte) :
    NMap.getD (sendPtp e port tr m).sentFrames port 0 = NMap.getD e.sentFrames port 0 + 1 := by simp [sendPtp, countSent]

/-- Settles O51: datagrams by their tenant's filter, frames by their kind, PTP messages by the port's step mode and their type. -/
theorem ethernetEvents : Obligations.EthernetEvents := by
  unfold Obligations.EthernetEvents
  refine ⟨?datagram, ?frame, ?firmware, ?badFcs, ?badFrame, ?ptpReceive, ?ptpPlain, ?ptpOneStep⟩
  case datagram =>
    intro i s kind d hCode hArg hKind hPort
    exact dgramEvent_received hCode hArg hKind hPort
  case frame =>
    intro s f hArg hPort hLong
    obtain ⟨t, ht, hFrame⟩ := ethFrame_accepts (s := s) hPort hLong
    exact ⟨t, by rw [execEthernetFrameReceive_eth hArg, ht, event], hFrame⟩
  case firmware =>
    intro s port b hArg hPort
    rw [execEthernetFrameReceive_eth hArg, ethFrame, if_pos hPort, event]
  case badFcs =>
    intro s port hArg hPort
    exact ⟨discard s port none, by rw [execEthernetFrameReceive_eth hArg, ethFrame, if_pos hPort, event], discards_discard s port⟩
  case badFrame => exact fun s port b hArg hPort => execEthernetFrameReceive_badFcs hArg hPort
  case ptpReceive => exact fun s port one tr m hArg hPort => execPtpEventReceive_next hArg (ptpReceive_eq hPort)
  case ptpPlain =>
    intro s port one tr m hArg hPort hPlain
    exact ⟨_, execPtpEventTransmit_next hArg (ptpTransmit_plain hPort hPlain), rfl, rfl,
      sentFrames_sendPtp (setStep s.eth port one) port tr m⟩
  case ptpOneStep =>
    intro s port tr m hArg hPort hType
    exact ⟨_, execPtpEventTransmit_next hArg (ptpTransmit_oneStep hPort hType), rfl, rfl,
      sentFrames_sendPtp (setStep s.eth port true) port tr _⟩

end Sys2Proof.Machine
end

section
/-! SUPPORT. Replies of the management protocol, and what its operations leave (R47, R49, R62 to R67, R118, R119). -/

namespace Sys2Proof.Machine

/-- A component that every step of a fold keeps. -/
theorem foldl_keeps {σ α β : Type} (g : σ → β) (f : σ → α → σ) (h : ∀ s x, g (f s x) = g s) (l : List α) (s : σ) :
    g (l.foldl f s) = g s :=
  List.foldlRecOn (motive := fun t => g t = g s) l f rfl fun t ht x _ => (h t x).trans ht

/-! Replies (R44, R65). -/



@[simp] theorem sendReply_sec (s : State) (r : MgmtReq) (status : Nat) (body : List Byte) : (sendReply s r status body).sec = s.sec := rfl

@[simp] theorem streamOfN_putStream (s : State) (n : Nat) (x : Stream) : streamOfN (putStream s n x) n = x := by
  simp [streamOfN, putStream]

theorem sendReply_frame (s : State) (r : MgmtReq) (status : Nat) (body : List Byte) :
    { sendReply s r status body with eth := s.eth, sec := s.sec } = s := rfl

/-- An operation that sends nothing else is answered by its reply. -/
theorem replies_sendReply {s t : State} (hEth : t.eth = s.eth) (r : MgmtReq) (status : Nat) : Replies s (sendReply t r status []) r status := by
  simp [Replies, sendReply, countSent, hEth]

theorem sentFrames_countSent (e : Ethernet) (port p : Nat) :
    NMap.getD (countSent e port).sentFrames p 0 = NMap.getD e.sentFrames p 0 + if port == p then 1 else 0 := by
  by_cases h : port = p
  · simp [countSent, h]
  · simp [countSent, h, NMap.getD_set_ne _ _ _ _ _ (Ne.symm h)]

/-- Each of several replies is counted on its port (R83). -/
theorem sentFrames_foldl_countSent (l : List (Nat × List Byte)) (e : Ethernet) (p : Nat) :
    NMap.getD (l.foldl (fun e w => countSent e w.1) e).sentFrames p 0 =
      NMap.getD e.sentFrames p 0 + (l.filter fun w => w.1 == p).length := by
  induction l generalizing e with
  | nil => rfl
  | cons w t ih =>
    rw [List.foldl_cons, ih, sentFrames_countSent, List.filter_cons]
    split
    · rw [List.length_cons]; omega
    · omega

/-! Open operations (R62 to R65). -/

/-- What an open operation of a code does for a request whose header is right. -/
def openAnswer (op : Nat) (r : MgmtReq) (s : State) : State :=
  match op with
  | 1 => doStatus s r
  | 2 => doQuote s r
  | 3 => doLog s r
  | 4 => sendReply s r msDone Config.certChain
  | _ => doCounters s r

theorem exec_of_openCode {i : Instr} {s : State} {r : MgmtReq} {op : Nat} (hCode : openCode i = some op) (hArg : s.arg = .mgmt r) :
    ∃ name, exec i s = event name (openOp s r op (openAnswer op r)) := by
  unfold openCode at hCode
  split at hCode <;> cases hCode
  · exact ⟨"STATUS", by change execStatus s = _; simp only [execStatus, hArg]; rfl⟩
  · exact ⟨"QUOTE", by change execQuote s = _; simp only [execQuote, hArg]; rfl⟩
  · exact ⟨"LOG", by change execLog s = _; simp only [execLog, hArg]; rfl⟩
  · exact ⟨"CERT", by change execCert s = _; simp only [execCert, hArg]; rfl⟩
  · exact ⟨"COUNTERS", by change execCounters s = _; simp only [execCounters, hArg]; rfl⟩

theorem openOp_of_serves {s : State} {r : MgmtReq} {op : Nat} {f : State → State} (hOp : r.op = op)
    (hServes : fwServes s r = true ∨ (recServes s r = true ∧ (lcstate s.sec ≠ 4 ∨ op = 1))) :
    openOp s r op f = some (if badHeader r then sendReply s r 2 [] else f s) := by
  have hSome : (fwServes s r || (recServes s r && (lcstate s.sec != 4 || op == 1))) = true := by simpa using hServes
  rw [openOp, if_neg (by simp [hOp]), if_neg (by simp only [hSome]; decide)]
  rfl

theorem doQuote_frame (s : State) (r : MgmtReq) : { doQuote s r with eth := s.eth, sec := s.sec } = s := by
  unfold doQuote
  split
  · rfl
  · dsimp only
    split <;> rfl

theorem doLog_frame (s : State) (r : MgmtReq) : { doLog s r with eth := s.eth, sec := s.sec } = s := by
  unfold doLog
  split <;> rfl

theorem openAnswer_frame (op : Nat) (r : MgmtReq) (s : State) : { openAnswer op r s with eth := s.eth, sec := s.sec } = s := by
  unfold openAnswer
  split
  · rfl
  · exact doQuote_frame s r
  · exact doLog_frame s r
  · rfl
  · rfl

/-- QUOTE of a package with a device identity key counts (R63, R64). -/
theorem doQuote_quotes {s : State} {r : MgmtReq} (hLen : r.body.length = 32) (hRaw : lcstate s.sec ≠ 0) (hEnd : lcstate s.sec ≠ 4) :
    (doQuote s r).sec.quotes = s.sec.quotes + 1 := by
  simp [doQuote, hLen, hRaw, hEnd]

theorem doLog_eq {s : State} {r : MgmtReq} (hLen : r.body.length = 4) :
    doLog s r = sendReply s r 0 (fitRoom (replyRoom r) ((s.sec.log.drop (leAt r.body 0 4)).map recordBytes)) :=
  if_neg (not_not.mpr hLen)

theorem openOperation {i : Instr} {s : State} {r : MgmtReq} {op : Nat} (hCode : openCode i = some op) (hArg : s.arg = .mgmt r) (hOp : r.op = op)
    (hServes : fwServes s r = true ∨ (recServes s r = true ∧ (lcstate s.sec ≠ 4 ∨ op = 1))) :
    ∃ t, exec i s = .next t ∧ (badHeader r = true → t = sendReply s r 2 []) ∧ (badHeader r = false → t = openAnswer op r s) ∧
      { t with eth := s.eth, sec := s.sec } = s := by
  obtain ⟨name, hExec⟩ := exec_of_openCode hCode hArg
  refine ⟨_, by rw [hExec, openOp_of_serves hOp hServes, event], fun h => if_pos h, fun h => if_neg (by simp [h]), ?_⟩
  split
  · exact sendReply_frame s r 2 []
  · exact openAnswer_frame op r s

/-! Owner operations (R65). -/

section OwnerEvents
variable {s : State} {r : MgmtReq}

theorem execTenantCreate_eq {cs ns : List Nat} {w : Nat} (hArg : s.arg = .mgmtCreate r cs ns w) :
    exec .tenantCreate s = event "TENANT_CREATE" (ownerOp s r 0x10 true fun s => doCreate s r cs ns w) := by
  change execTenantCreate s = _
  simp only [execTenantCreate, hArg]

theorem execTenantReset_eq (hArg : s.arg = .mgmt r) :
    exec .tenantReset s = event "TENANT_RESET" (ownerOp s r 0x11 true fun s => doTenantReset s r false) := by
  change execTenantReset s = _
  simp only [execTenantReset, hArg]

theorem execTenantDestroy_eq (hArg : s.arg = .mgmt r) :
    exec .tenantDestroy s = event "TENANT_DESTROY" (ownerOp s r 0x12 true fun s => doTenantReset s r true) := by
  change execTenantDestroy s = _
  simp only [execTenantDestroy, hArg]

theorem execStreamOpen_eq {b : StreamBinding} (hArg : s.arg = .mgmtStream r b) :
    exec .streamOpen s = event "STREAM_OPEN" (ownerOp s r 0x13 true fun s => doOpen s r b) := by
  change execStreamOpen s = _
  simp only [execStreamOpen, hArg]

theorem execStreamClose_eq {n : Nat} (hArg : s.arg = .mgmtN r n) :
    exec .streamClose s = event "STREAM_CLOSE" (ownerOp s r 0x13 true fun s => doClose s r n) := by
  change execStreamClose s = _
  simp only [execStreamClose, hArg]

theorem execFilterSet_eq {l : List (List Byte)} (hArg : s.arg = .mgmtFilter r l) :
    exec .filterSet s = event "FILTER_SET" (ownerOp s r 0x14 true fun s => doFilter s r l) := by
  change execFilterSet s = _
  simp only [execFilterSet, hArg]

theorem execSvnRaise_eq {stage svn : Nat} (hArg : s.arg = .mgmtN2 r stage svn) :
    exec .svnRaise s = event "SVN_RAISE" (ownerOp s r 0x21 false fun s => doSvn s r stage svn) := by
  change execSvnRaise s = _
  simp only [execSvnRaise, hArg]

end OwnerEvents

/-! The operations keep the counter of the last accepted owner operation. -/

@[simp] theorem measValue_eth (s : State) (n ty : Nat) (v : List Byte) : (measValue s n ty v).eth = s.eth := rfl
@[simp] theorem tenantOf_measValue (s : State) (n ty : Nat) (v : List Byte) (t : Nat) : tenantOf (measValue s n ty v) t = tenantOf s t := rfl

/-- The contexts of a new tenant become its own (R66). -/
def giveContext (t : Nat) (s : State) (c : Nat) : State := putRace s c { raceOf s c with tenant := t, assigned := true }
def giveContexts (t : Nat) (cs : List Nat) (s : State) : State := cs.foldl (giveContext t) s

@[simp] theorem giveContexts_sec (t : Nat) (cs : List Nat) (s : State) : (giveContexts t cs s).sec = s.sec :=
  foldl_keeps State.sec (giveContext t) (fun _ _ => rfl) cs s
@[simp] theorem giveContexts_eth (t : Nat) (cs : List Nat) (s : State) : (giveContexts t cs s).eth = s.eth :=
  foldl_keeps State.eth (giveContext t) (fun _ _ => rfl) cs s
@[simp] theorem giveContexts_tenants (t : Nat) (cs : List Nat) (s : State) : (giveContexts t cs s).tenants = s.tenants :=
  foldl_keeps State.tenants (giveContext t) (fun _ _ => rfl) cs s

theorem raceOf_putRace_ne (s : State) {c k : Nat} (x : RaceCtx) (h : c ≠ k) : raceOf (putRace s k x) c = raceOf s c :=
  NMap.getD_set_ne _ _ _ _ _ h

theorem raceOf_giveContexts (t : Nat) (cs : List Nat) (s : State) (c : Nat) :
    raceOf (giveContexts t cs s) c = if c ∈ cs then { raceOf s c with tenant := t, assigned := true } else raceOf s c := by
  induction cs generalizing s with
  | nil => rfl
  | cons k l ih =>
    refine (ih _).trans ?_
    by_cases hHead : c = k
    · simp [hHead, giveContext]
    · simp [hHead, giveContext, raceOf_putRace_ne s _ hHead]

/-- TENANT-CREATE of a free tenant with free resources (R66, R67). -/
theorem doCreate_eq {s : State} {r : MgmtReq} {cs ns : List Nat} {w : Nat} (hTenant : r.tenant < 64) (hFree : (tenantOf s r.tenant).phase = 0)
    (hContexts : cs.all (contextFree s) = true) (hStreams : ns.all (streamFree s) = true) :
    let x : Tenant := { Tenant.free with phase := 1, contexts := cs, streams := ns }
    let s1 := giveContexts r.tenant cs (putTenant s r.tenant x)
    doCreate s r cs ns w =
      sendReply (measValue { s1 with tweight := NMap.set s1.tweight r.tenant (w % 256) } 7 1 (tenantValue r.tenant x)) r 0 [] := by
  rw [doCreate, if_neg (by omega), if_neg (by simp only [hFree, hContexts, hStreams]; decide)]
  rfl

theorem doCreate_ownerCounter (s : State) (r : MgmtReq) (cs ns : List Nat) (w : Nat) :
    (doCreate s r cs ns w).sec.ownerCounter = s.sec.ownerCounter := by
  unfold doCreate
  dsimp only
  split
  · rfl
  · split
    · rfl
    · change (giveContexts r.tenant cs (putTenant s r.tenant _)).sec.ownerCounter = _
      rw [giveContexts_sec, putTenant_sec]

theorem doOpen_sec (s : State) (r : MgmtReq) (b : StreamBinding) : (doOpen s r b).sec = s.sec := by
  unfold doOpen
  split
  · rfl
  · split <;> rfl

theorem doClose_sec (s : State) (r : MgmtReq) (n : Nat) : (doClose s r n).sec = s.sec := by
  unfold doClose
  split <;> rfl

theorem doFilter_sec (s : State) (r : MgmtReq) (l : List (List Byte)) : (doFilter s r l).sec = s.sec := by
  unfold doFilter
  split
  · rfl
  · split <;> rfl

theorem doSvn_ownerCounter (s : State) (r : MgmtReq) (stage svn : Nat) : (doSvn s r stage svn).sec.ownerCounter = s.sec.ownerCounter := by
  unfold doSvn
  split <;> rfl

/-- An owner operation's event runs its operation behind the checks of R65; all but a tenant's reset and destruction keep the counter that the checks
have stored. -/
theorem exec_of_ownerCode {i : Instr} {s : State} {r : MgmtReq} {op : Nat} {needs : Bool} (hCode : ownerCode i s.arg = some (r, op, needs)) :
    ∃ name f, exec i s = event name (ownerOp s r op needs f) ∧
      (op ≠ 0x11 → op ≠ 0x12 → ∀ s, (f s).sec.ownerCounter = s.sec.ownerCounter) := by
  unfold ownerCode at hCode
  split at hCode
  case h_1 cs ns w hArg =>
    cases hCode
    exact ⟨_, _, execTenantCreate_eq hArg, fun _ _ s => doCreate_ownerCounter s r cs ns w⟩
  case h_2 hArg =>
    cases hCode
    exact ⟨_, _, execTenantReset_eq hArg, fun h _ => absurd rfl h⟩
  case h_3 hArg =>
    cases hCode
    exact ⟨_, _, execTenantDestroy_eq hArg, fun _ h => absurd rfl h⟩
  case h_4 b hArg =>
    cases hCode
    exact ⟨_, _, execStreamOpen_eq hArg, fun _ _ s => congrArg Security.ownerCounter (doOpen_sec s r b)⟩
  case h_5 n hArg =>
    cases hCode
    exact ⟨_, _, execStreamClose_eq hArg, fun _ _ s => congrArg Security.ownerCounter (doClose_sec s r n)⟩
  case h_6 l hArg =>
    cases hCode
    exact ⟨_, _, execFilterSet_eq hArg, fun _ _ s => congrArg Security.ownerCounter (doFilter_sec s r l)⟩
  case h_7 stage svn hArg =>
    cases hCode
    exact ⟨_, _, execSvnRaise_eq hArg, fun _ _ s => doSvn_ownerCounter s r stage svn⟩
  case h_8 => cases hCode

/-- The checks of R65 in their order, for a request of the right operation that firmware serves. -/
theorem ownerOp_eq {s : State} {r : MgmtReq} {op : Nat} {needs : Bool} {f : State → State} (hOp : r.op = op) (hServes : fwServes s r = true) :
    ownerOp s r op needs f = some (if badHeader r = true then sendReply s r 2 [] else if ownerSigned s.sec r = false then sendReply s r 1 []
      else if needs = true ∧ lcstate s.sec ≠ 2 then sendReply (acceptOwner s r) r 3 [] else f (acceptOwner s r)) := by
  simp [ownerOp, hOp, hServes, msMalformed, msBadSig, msState]

theorem ownerOperation {i : Instr} {s : State} {r : MgmtReq} {op : Nat} {needs : Bool} (hCode : ownerCode i s.arg = some (r, op, needs))
    (hOp : r.op = op) (hServes : fwServes s r = true) :
    ∃ t, exec i s = .next t ∧ (badHeader r = true → t = sendReply s r 2 []) ∧
      (badHeader r = false → ownerSigned s.sec r = false → t = sendReply s r 1 []) ∧
      (badHeader r = false → ownerSigned s.sec r = true → needs = true → lcstate s.sec ≠ 2 → t = sendReply (acceptOwner s r) r 3 []) ∧
      (badHeader r = false → ownerSigned s.sec r = true → (needs = true → lcstate s.sec = 2) → op ≠ 0x11 → op ≠ 0x12 →
        t.sec.ownerCounter = r.counter) := by
  obtain ⟨name, f, hExec, hCounter⟩ := exec_of_ownerCode hCode
  refine ⟨_, by rw [hExec, ownerOp_eq hOp hServes, event], fun hBad => if_pos hBad, fun hGood hUnsigned => ?_,
    fun hGood hSigned hNeeds hState => ?_, fun hGood hSigned hState hReset hDestroy => ?_⟩
  · simp [hGood, hUnsigned]
  · simp [hGood, hSigned, hNeeds, hState]
  · have hPass : ¬(needs = true ∧ lcstate s.sec ≠ 2) := fun ⟨h1, h2⟩ => h2 (hState h1)
    simp only [hGood, hSigned, if_neg hPass]
    exact hCounter hReset hDestroy (acceptOwner s r)

/-- A signed request in the state that its operation needs is performed, its counter stored. -/
theorem event_ownerOp {s : State} {r : MgmtReq} {op : Nat} {needs : Bool} {name : String} {f : State → State} (hOp : r.op = op)
    (hServes : fwServes s r = true) (hGood : badHeader r = false) (hSigned : ownerSigned s.sec r = true)
    (hState : needs = true → lcstate s.sec = 2) : event name (ownerOp s r op needs f) = .next (f (acceptOwner s r)) := by
  have hPass : ¬(needs = true ∧ lcstate s.sec ≠ 2) := fun ⟨h1, h2⟩ => h2 (hState h1)
  rw [ownerOp_eq hOp hServes, if_neg (by simp [hGood]), if_neg (by simp [hSigned]), if_neg hPass, event]

/-- A new tenant holds its resources (R66, R67). -/
theorem doCreate_effects {s : State} {r : MgmtReq} {cs ns : List Nat} {w : Nat} (hTenant : r.tenant < 64)
    (hFree : (tenantOf s r.tenant).phase = 0) (hContexts : cs.all (contextFree s) = true) (hStreams : ns.all (streamFree s) = true) :
    let t := doCreate s r cs ns w
    tenantOf t r.tenant = { Tenant.free with phase := 1, contexts := cs, streams := ns } ∧
      (∀ c, c ∈ cs → (raceOf t c).assigned = true ∧ (raceOf t c).tenant = r.tenant) ∧ NMap.getD t.tweight r.tenant 1 = w % 256 ∧
      Replies s t r 0 := by
  rw [doCreate_eq hTenant hFree hContexts hStreams]
  refine ⟨?_, fun c hc => ?_, NMap.getD_set_same _ _ _ _, replies_sendReply (giveContexts_eth _ _ _) r 0⟩
  · exact (congrArg (NMap.getD · r.tenant Tenant.free) (giveContexts_tenants _ _ _)).trans (tenantOf_putTenant s r.tenant _)
  · have hRace := raceOf_giveContexts r.tenant cs
      (putTenant s r.tenant { Tenant.free with phase := 1, contexts := cs, streams := ns }) c
    rw [if_pos hc] at hRace
    exact ⟨congrArg RaceCtx.assigned hRace, congrArg RaceCtx.tenant hRace⟩

/-- STREAM-OPEN of a stream that the tenant owns and that is not live (R47). -/
theorem doOpen_eq {s : State} {r : MgmtReq} {b : StreamBinding} (hTenant : r.tenant < 64) (hBind : bindOk b = true)
    (hOwn : hasN (tenantOf s r.tenant).streams b.stream = true) (hDead : streamLive (streamOfN s b.stream) = false) :
    doOpen s r b = sendReply (putStream s b.stream { Stream.closed with opened := true, tenant := r.tenant, bind := b }) r 0 [] := by
  rw [doOpen, if_neg (by simp [hTenant, hBind]), if_neg (by simp [hOwn, hDead])]
  rfl

theorem doClose_eq {s : State} {r : MgmtReq} {n : Nat} (hOwn : hasN (tenantOf s r.tenant).streams n = true) :
    doClose s r n = sendReply (putStream s n { streamOfN s n with opened := false, pending := [] }) r 0 [] := by
  rw [doClose, if_neg (by simp [hOwn])]
  rfl

theorem doFilter_eq {s : State} {r : MgmtReq} {l : List (List Byte)} (hTenant : r.tenant < 64) (hUsed : (tenantOf s r.tenant).phase ≠ 0) :
    doFilter s r l = sendReply (putTenant s r.tenant { tenantOf s r.tenant with filter := l }) r 0 [] := by
  rw [doFilter, if_neg (by omega), if_neg hUsed]
  rfl

theorem doSvn_eq {s : State} {r : MgmtReq} {stage svn : Nat} (hlo : 1 ≤ stage) (hhi : stage ≤ 4) (hSvn : svn < 65536) :
    doSvn s r stage svn = sendReply
      { s with sec := { s.sec with minSvn := s.sec.minSvn.set (stage - 1) (max svn (s.sec.minSvn.getD (stage - 1) 0)) } } r 0 [] := by
  rw [doSvn, if_neg (by simp only [Bool.or_eq_true, decide_eq_true_eq]; omega)]
  rfl

/-! The reset of a tenant (R67, R118, R119). -/

theorem doTenantReset_active {s : State} {r : MgmtReq} {destroy : Bool} (hTenant : r.tenant < 64) (hActive : (tenantOf s r.tenant).phase = 1) :
    doTenantReset s r destroy = beginReset s r.tenant destroy [(r.port, replyFrame r 0 [])] := by
  simp only [doTenantReset, hActive, if_neg (show ¬64 ≤ r.tenant by omega)]
  rfl

/-- Takes a context from its tenant. -/
def freeContext (s : State) (c : Nat) : State := putRace s c { raceOf s c with tenant := 0, assigned := false }
def closeStream (s : State) (n : Nat) : State := putStream s n Stream.closed

@[simp] theorem freeTenant_eth (s : State) (t : Nat) : (freeTenant s t).eth = s.eth :=
  (foldl_keeps State.eth closeStream (fun _ _ => rfl) (tenantOf s t).streams _).trans
    (foldl_keeps State.eth freeContext (fun _ _ => rfl) (tenantCtxs s t) s)

theorem tenantOf_freeTenant (s : State) (t : Nat) : tenantOf (freeTenant s t) t = Tenant.free := tenantOf_putTenant _ t _

/-- Empties a queue that has registers (R67). -/
def clearQueue (s : State) (q : Nat) : State := if (NMap.get? s.queues q).isSome then putQueue s q (emptyQueue (queueOf s q)) else s

theorem clearQueue_eth (s : State) (q : Nat) : (clearQueue s q).eth = s.eth := by
  unfold clearQueue
  split <;> rfl

/-- The state in which a reset ends (R67, R119), before its replies leave: `tenantComplete` with its checks and its replies left out. -/
def resetDone (s : State) (t : Nat) : State :=
  let x := tenantOf s t
  let s1 := { s with ord := wipeFrames (settle s.ord) x.frames, tlb := s.tlb.filter fun e => e.tenant != t }
  let s2 := (queuesOf t).foldl clearQueue s1
  let s3 := { s2 with batches := s2.batches.map fun b => { b with vacatedAt := NMap.erase b.vacatedAt t } }
  let s5 := measValue (putTenant s3 t { x with phase := 1, vacated := false, destroy := false, ring := [], waiting := [] }) 7 2 (tenantValue t x)
  if x.destroy then measValue (freeTenant s5 t) 7 3 (tenantValue t x) else s5

theorem resetDone_eth (s : State) (t : Nat) : (resetDone s t).eth = s.eth := by
  have hQueues := foldl_keeps State.eth clearQueue clearQueue_eth (queuesOf t)
  unfold resetDone
  dsimp only
  split
  · rw [measValue_eth, freeTenant_eth, measValue_eth, putTenant_eth, hQueues]
  · rw [measValue_eth, putTenant_eth, hQueues]

theorem tenantOf_resetDone (s : State) (t : Nat) :
    tenantOf (resetDone s t) t = if (tenantOf s t).destroy = true then Tenant.free
      else { tenantOf s t with phase := 1, vacated := false, destroy := false, ring := [], waiting := [] } := by
  unfold resetDone
  dsimp only
  split
  · rw [tenantOf_measValue, tenantOf_freeTenant]
  · rw [tenantOf_measValue, tenantOf_putTenant]

theorem tenantComplete_eq {s : State} {t : Nat} (hPhase : (tenantOf s t).phase = 2) (hQueues : ∀ q, q ∈ queuesOf t → (queueOf s q).live = [])
    (hPast : ∀ b, b ∈ s.batches → ∀ n, NMap.get? b.vacatedAt t = some n → n < batchStep s b) :
    tenantComplete s t = some { resetDone s t with
      eth := { (tenantOf s t).waiting.foldl (fun e w => countSent e w.1) (resetDone s t).eth with
        replies := ((tenantOf s t).waiting.foldl (fun e w => countSent e w.1) (resetDone s t).eth).replies ++ (tenantOf s t).waiting } } := by
  have hEmpty : ((queuesOf t).all fun q => (queueOf s q).live.isEmpty) = true :=
    List.all_eq_true.mpr fun q hq => by rw [hQueues q hq]; rfl
  have hAll : (s.batches.all fun b => match NMap.get? b.vacatedAt t with
      | none => true
      | some n => decide (n < batchStep s b)) = true := by
    refine List.all_eq_true.mpr fun b hb => ?_
    split
    · rfl
    · next n hn => exact decide_eq_true (hPast b hb n hn)
  unfold tenantComplete
  simp only
  rw [if_neg]
  · rfl
  · simp only [hPhase, hEmpty, Bool.or_eq_true, not_or]
    exact ⟨by decide, by rw [Bool.not_eq_true, Bool.not_eq_false']; exact hAll⟩

theorem replies_foldl_countSent (l : List (Nat × List Byte)) (e : Ethernet) : (l.foldl (fun e w => countSent e w.1) e).replies = e.replies :=
  List.foldlRecOn (motive := fun x : Ethernet => x.replies = e.replies) l _ rfl fun _ h _ _ => h

theorem execTenantResetComplete_next {s t : State} {tn : Nat} (hArg : s.arg = .n1 tn) (h : tenantComplete s tn = some t) :
    exec .tenantResetComplete s = .next t := by
  change execTenantResetComplete s = _
  simp only [execTenantResetComplete, hArg, h, event]

/-! LC-REQUEST and RECOVER-WRITE (R55, R58, R65). -/

theorem execLcRequest_next {s t : State} {r : MgmtReq} (hArg : s.arg = .mgmt r) (h : lcRequest s r r.body = some t) :
    exec .lcRequest s = .next t := by
  change execLcRequest s = _
  simp only [execLcRequest, hArg, h, event]

theorem execRecoverWrite_next {s t : State} {r : MgmtReq} (hArg : s.arg = .mgmt r) (h : recoverWrite s r = some t) :
    exec .recoverWrite s = .next t := by
  change execRecoverWrite s = _
  simp only [execRecoverWrite, hArg, h, event]

theorem lcRequest_accepted {s : State} {r : MgmtReq} (hOp : r.op = 0x20) (hServes : fwServes s r = true) (hGood : badHeader r = false)
    (hLen : tokLenOk r.body = true) (hSigned : ownerSigned s.sec r = true ∨ tokenTurmal r.body = true) :
    let s1 := sendReply (if ownerSigned s.sec r = true then acceptOwner s r else s) r 0 []
    lcRequest s r r.body = some (packageReset { s1 with sec := { s1.sec with token := some r.body } } .firmware) := by
  have hAccepted : ¬(!ownerSigned s.sec r && !tokenTurmal r.body) = true := by
    rcases hSigned with h | h <;> simp [h]
  simp only [lcRequest, hOp, hServes, hGood, hLen, if_neg hAccepted]
  rfl

theorem recoverWrite_firmware {s : State} {r : MgmtReq} (hOp : r.op = 0x30) (hServes : fwServes s r = true) :
    recoverWrite s r = some (sendReply s r 3 []) := by
  simp [recoverWrite, hOp, hServes, msState]

/-- Whether the body of RECOVER-WRITE holds data for the stage that failed (R55, R65). -/
structure RecoverBody (s : State) (r : MgmtReq) : Prop where
  header : 12 ≤ r.body.length
  stage : leAt r.body 0 1 = s.sec.failStage
  flags : leAt r.body 1 1 < 2
  zero : leAt r.body 2 2 = 0
  offset : leAt r.body 4 8 % 64 = 0
  blocks : (r.body.length - 12) % 64 = 0
  size : r.body.length - 12 ≤ 8192
  area : leAt r.body 4 8 + (r.body.length - 12) ≤ 64 * 2 ^ 20 + 256

/-- The recovery responder stores the data and answers. -/
def storeRecovery (s : State) (r : MgmtReq) : State :=
  let s1 := if ownerSigned s.sec r then acceptOwner s r else s
  sendReply { s1 with sec := { s1.sec with flash := flashWrite s.sec.flash s.sec.failStage (leAt r.body 4 8) (r.body.drop 12) } } r 0 []

theorem acceptIf_eth (s : State) (r : MgmtReq) (signed : Bool) : (if signed then acceptOwner s r else s).eth = s.eth := by
  cases signed <;> rfl

theorem storeRecovery_ownerCounter (s : State) (r : MgmtReq) :
    (storeRecovery s r).sec.ownerCounter = if ownerSigned s.sec r = true then r.counter else s.sec.ownerCounter := by
  unfold storeRecovery
  dsimp only [sendReply]
  split <;> rfl

theorem acceptIf_flash (s : State) (r : MgmtReq) (signed : Bool) : (if signed then acceptOwner s r else s).sec.flash = s.sec.flash := by
  cases signed <;> rfl

theorem recoverWrite_responder {s : State} {r : MgmtReq} (hOp : r.op = 0x30) (hFw : fwServes s r = false) (hRec : recServes s r = true)
    (hState : lcstate s.sec ≠ 4) (hGood : badHeader r = false) (hBody : RecoverBody s r)
    (hSigned : ownerSigned s.sec r = true ∨ turmalSigned r = true) :
    recoverWrite s r = some (if leAt r.body 1 1 = 1 then packageReset (storeRecovery s r) .other else storeRecovery s r) := by
  obtain ⟨hHeader, hStage, hFlags, hZero, hOffset, hBlocks, hSize, hArea⟩ := hBody
  have hAccepted : ¬(!ownerSigned s.sec r && !turmalSigned r) = true := by
    rcases hSigned with h | h <;> simp [h]
  have hLen : (recData r).length = r.body.length - 12 := List.length_drop
  have hWell : ¬(badHeader r || decide (r.body.length < 12) || recStage r != s.sec.failStage || decide (2 ≤ recFlags r) || leAt r.body 2 2 != 0 ||
      recOff r % 64 != 0 || (recData r).length % 64 != 0 || decide (8192 < (recData r).length) ||
      decide (64 * 2 ^ 20 + 256 < recOff r + (recData r).length)) = true := by
    rw [hLen, recStage, recFlags, recOff, hStage]
    simpa [hGood, hHeader, hFlags, hZero, hOffset, hBlocks, hSize] using hArea
  rw [recoverWrite, if_neg (by simp [hOp]), if_neg (by simp [hFw]), if_neg (by simp [hRec, hState])]
  refine congrArg some ((if_neg hWell).trans ((if_neg hAccepted).trans ?_))
  simp only [acceptIf_flash, recStage, hStage]
  rfl

/-- Settles O52, operation by operation: the checks of R65 give each its status, and what passes them takes effect. -/
theorem managementEvents : Obligations.ManagementEvents := by
  unfold Obligations.ManagementEvents
  refine ⟨?opened, ?owned, ?create, ?openStream, ?closeStream, ?filter, ?reset, ?complete, ?svn, ?lifeCycle, ?firmware, ?recovery⟩
  case opened =>
    intro i s r op hCode hArg hOp hServes
    obtain ⟨t, hExec, hBad, hGood, hFrame⟩ := openOperation hCode hArg hOp hServes
    refine ⟨t, hExec, hBad, ?_, ?_, ?_, ?_, hFrame⟩
    · rintro hHeader rfl
      exact hGood hHeader
    · rintro hHeader rfl hLen hRaw hEnd
      rw [hGood hHeader]
      exact doQuote_quotes hLen hRaw hEnd
    · rintro hHeader rfl hLen
      exact (hGood hHeader).trans (doLog_eq hLen)
    · rintro hHeader rfl
      exact hGood hHeader
  case owned => exact fun i s r op needs hCode hOp hServes => ownerOperation hCode hOp hServes
  case create =>
    intro s r cs ns w hArg hOp hServes hGood hSigned hState hTenant hFree hContexts hStreams
    exact ⟨_, (execTenantCreate_eq hArg).trans (event_ownerOp hOp hServes hGood hSigned fun _ => hState),
      doCreate_effects (s := acceptOwner s r) hTenant hFree hContexts hStreams⟩
  case openStream =>
    intro s r b hArg hOp hServes hGood hSigned hState hTenant hBind hOwn hDead
    refine ⟨_, (execStreamOpen_eq hArg).trans (event_ownerOp hOp hServes hGood hSigned fun _ => hState), ?_⟩
    rw [doOpen_eq (s := acceptOwner s r) hTenant hBind hOwn hDead]
    exact ⟨streamOfN_putStream _ _ _, replies_sendReply rfl r 0⟩
  case closeStream =>
    intro s r n hArg hOp hServes hGood hSigned hState hOwn
    refine ⟨_, (execStreamClose_eq hArg).trans (event_ownerOp hOp hServes hGood hSigned fun _ => hState), ?_⟩
    rw [doClose_eq (s := acceptOwner s r) hOwn]
    exact ⟨streamOfN_putStream _ _ _, replies_sendReply rfl r 0⟩
  case filter =>
    intro s r l hArg hOp hServes hGood hSigned hState hTenant hUsed
    refine ⟨_, (execFilterSet_eq hArg).trans (event_ownerOp hOp hServes hGood hSigned fun _ => hState), ?_⟩
    rw [doFilter_eq (s := acceptOwner s r) hTenant hUsed]
    exact ⟨tenantOf_putTenant _ _ _, replies_sendReply rfl r 0⟩
  case reset =>
    rintro i s r (⟨rfl, hOp⟩ | ⟨rfl, hOp⟩) hArg hServes hGood hSigned hState hTenant hActive
    · rw [execTenantReset_eq hArg, event_ownerOp hOp hServes hGood hSigned fun _ => hState,
        doTenantReset_active (s := acceptOwner s r) hTenant hActive, hOp]
      rfl
    · rw [execTenantDestroy_eq hArg, event_ownerOp hOp hServes hGood hSigned fun _ => hState,
        doTenantReset_active (s := acceptOwner s r) hTenant hActive, hOp]
      rfl
  case complete =>
    intro s tn hArg hPhase hQueues hPast
    have hTenant := tenantOf_resetDone s tn
    refine ⟨_, execTenantResetComplete_next hArg (tenantComplete_eq hPhase hQueues hPast), ?_, fun p => ?_, fun hKept => ?_, fun hDestroy => ?_⟩
    · rw [replies_foldl_countSent, resetDone_eth]
    · rw [resetDone_eth]
      exact sentFrames_foldl_countSent _ _ p
    · rw [if_neg (by simp [hKept])] at hTenant
      exact ⟨congrArg Tenant.phase hTenant, congrArg Tenant.vacated hTenant⟩
    · rw [if_pos hDestroy] at hTenant
      exact hTenant
  case svn =>
    intro s r stage svn hArg hOp hServes hGood hSigned hlo hhi hSvn
    refine ⟨_, (execSvnRaise_eq hArg).trans (event_ownerOp hOp hServes hGood hSigned nofun), ?_⟩
    rw [doSvn_eq hlo hhi hSvn]
    exact ⟨rfl, replies_sendReply rfl r 0⟩
  case lifeCycle =>
    intro s r hArg hOp hServes hGood hLen hSigned
    exact execLcRequest_next hArg (lcRequest_accepted hOp hServes hGood hLen hSigned)
  case firmware => exact fun s r hArg hOp hServes => execRecoverWrite_next hArg (recoverWrite_firmware hOp hServes)
  case recovery =>
    intro s r hArg hOp hFw hRec hState hGood hHeader hStage hFlags hZero hOffset hBlocks hSize hArea hSigned
    have hBody : RecoverBody s r := ⟨hHeader, hStage, hFlags, hZero, hOffset, hBlocks, hSize, hArea⟩
    exact ⟨storeRecovery s r, execRecoverWrite_next hArg (recoverWrite_responder hOp hFw hRec hState hGood hBody hSigned), rfl,
      storeRecovery_ownerCounter s r, replies_sendReply (acceptIf_eth s r _) r 0⟩

end Sys2Proof.Machine
end

section
/-! SUPPORT. The records of the fabric's streams, and what the sending of flits and the writing of trace records leave (R28 to R38, R75 to R80). -/

namespace Sys2Proof.Machine

/-! The record of a stream: a list keeps one, found by a test. -/

theorem find?_replace {α : Type} (p : α → Bool) (r : α) (hr : p r = true) (l : List α) :
    (if l.any p then l.map fun q => if p q then r else q else l ++ [r]).find? p = some r := by
  induction l with
  | nil => simp [hr]
  | cons q t ih =>
    cases hq : p q with
    | true => simp [hq, hr]
    | false =>
      have hNot : ¬p q = true := by simp [hq]
      rw [List.any_cons, hq, Bool.false_or]
      by_cases hAny : t.any p = true
      · rw [if_pos hAny] at ih ⊢
        rw [List.map_cons, if_neg hNot, List.find?_cons_of_neg hNot, ih]
      · rw [if_neg hAny] at ih ⊢
        rw [List.cons_append, List.find?_cons_of_neg hNot, ih]

theorem rxIs_rxOf (f : Fabric) (x : Flit) : rxIs x (rxOf f x) = true := by
  unfold rxOf
  cases h : f.rx.find? (rxIs x) with
  | none => simp [rxIs]
  | some r => exact List.find?_some h

theorem putRx_rx (f : Fabric) (x : Flit) (r : RxStream) :
    (putRx f x r).rx = if f.rx.any (rxIs x) then f.rx.map fun q => if rxIs x q then r else q else f.rx ++ [r] := by
  unfold putRx
  split <;> rfl

theorem putRx_frame (f : Fabric) (x : Flit) (r : RxStream) : putRx f x r = { f with rx := (putRx f x r).rx } := by
  unfold putRx
  split <;> rfl

/-- Reading the record of a flit's stream after writing it. -/
theorem rxOf_putRx {f : Fabric} {x : Flit} {r : RxStream} (hr : rxIs x r = true) : rxOf (putRx f x r) x = r := by
  rw [rxOf, putRx_rx, find?_replace _ _ hr]
  rfl

theorem rxOf_of_rx_eq {f g : Fabric} (h : f.rx = g.rx) (x : Flit) : rxOf f x = rxOf g x := by rw [rxOf, rxOf, h]

theorem txOf_putTx (f : Fabric) (t : TxStream) : txOf (putTx f t) t.key = t := by
  have hTx : (putTx f t).tx = if f.tx.any (fun u => u.key == t.key) then f.tx.map fun u => if u.key == t.key then t else u else f.tx ++ [t] := by
    unfold putTx
    split <;> rfl
  rw [txOf, hTx, find?_replace (fun u : TxStream => u.key == t.key) t (beq_self_eq_true t.key)]
  rfl

theorem txOf_key (f : Fabric) (k : StreamKey) : (txOf f k).key = k := by
  unfold txOf
  cases h : f.tx.find? fun t => t.key == k with
  | none => rfl
  | some t =>
    have hKey := List.find?_some h
    exact eq_of_beq hKey

theorem txOf_of_tx_eq {f g : Fabric} (h : f.tx = g.tx) (k : StreamKey) : txOf f k = txOf g k := by rw [txOf, txOf, h]

/-! Sending changes neither the records of the receiving side nor which planes are up. -/

/-- What the sending side of the fabric leaves. -/
def receiving (f : Fabric) : List RxStream × BitVec 48 := (f.rx, f.planeUp)

theorem rx_of_receiving {f g : Fabric} (h : receiving f = receiving g) : f.rx = g.rx := congrArg Prod.fst h
theorem planeUp_of_receiving {f g : Fabric} (h : receiving f = receiving g) : f.planeUp = g.planeUp := congrArg Prod.snd h

theorem receiving_emit (f : Fabric) (d : Nat) (x : Flit) : receiving (emit f d x) = receiving f := by
  unfold emit
  split <;> rfl

theorem receiving_transmit (f : Fabric) (d : Nat) (x : SentFlit) : receiving (transmit f d x).1 = receiving f := by
  unfold transmit
  split <;> rfl

theorem receiving_putTx (f : Fabric) (t : TxStream) : receiving (putTx f t) = receiving f := by
  unfold putTx
  split <;> rfl

theorem receiving_sendAnswer {f g : Fabric} {x : Flit} {kind : Nat} {data : List Byte} (h : sendAnswer f x kind data = some g) :
    receiving g = receiving f := by
  unfold sendAnswer sendReq sendReqAs at h
  dsimp only at h
  split at h
  · cases h
  · cases h
    rw [receiving_putTx, receiving_transmit]

theorem receiving_payOwed (o : Ordering_) (f : Fabric) : receiving (payOwed o f) = receiving f := by
  unfold payOwed
  split
  · rfl
  · refine (foldl_keeps receiving _ (fun f x => ?_) f.owed { f with owed := [] }).trans rfl
    split
    · next g h =>
      split at h
      · exact receiving_sendAnswer h
      · cases h
    · rfl

theorem receiving_mapFlits {g : Fabric → SentFlit → Fabric × SentFlit} (hg : ∀ f x, receiving (g f x).1 = receiving f) (l : List SentFlit)
    (f : Fabric) : receiving (mapFlits g f l).1 = receiving f := by
  induction l generalizing f with
  | nil => rfl
  | cons x t ih => exact (ih _).trans (hg f x)

theorem receiving_mapStreams {g : StreamKey → Fabric → SentFlit → Fabric × SentFlit} (hg : ∀ k f x, receiving (g k f x).1 = receiving f)
    (f : Fabric) : receiving (mapStreams f g) = receiving f := by
  refine foldl_keeps receiving _ ?_ f.tx f
  exact fun f t => (receiving_putTx _ _).trans (receiving_mapFlits (hg t.key) t.unacked f)

theorem receiving_sendDue (f : Fabric) : receiving (sendDue f) = receiving f := by
  have hStreams := receiving_mapStreams (g := fun k f x => if x.due && !x.held then transmit f k.srcDie x else (f, x))
    (fun k f x => by split; exacts [receiving_transmit f k.srcDie x, rfl]) f
  unfold sendDue
  dsimp only
  split
  · exact hStreams
  · refine Eq.trans (foldl_keeps receiving _ ?_ _ _) hStreams
    exact fun f x => receiving_emit f x.1 x.2

/-! Trace records (R75 to R80). -/

/-- A component that the ring registers, a choice and one record leave is left by a unit's record. -/
theorem traceUnit_keeps {β : Type} (g : State → β) (hRing : ∀ s d r, g (putRing s d r) = g s) (hPick : ∀ s n, g (takePick s n).2 = g s)
    (hPut : ∀ s d code src pay, g (tracePut s d code src pay) = g s) (s : State) (d code src : Nat) (pay : List Byte) :
    g (traceUnit s d code src pay) = g s := by
  unfold traceUnit
  split
  · rfl
  · dsimp only
    split
    · rw [hRing, hPick]
    · split
      · rw [hPut, hPick]
      · rw [hPut, hRing, hPut, hPick]

theorem tracePut_fabric (s : State) (d code src : Nat) (pay : List Byte) : (tracePut s d code src pay).fabric = s.fabric := by
  obtain ⟨o, r, h⟩ := tracePut_eq s d code src pay
  rw [h]

theorem takePick_ord (s : State) (n : Nat) : (takePick s n).2.ord = s.ord := by
  obtain ⟨x, h⟩ := takePick_eq s n
  rw [h]

theorem takePick_fabric (s : State) (n : Nat) : (takePick s n).2.fabric = s.fabric := by
  obtain ⟨x, h⟩ := takePick_eq s n
  rw [h]

/-- What a write to memory leaves of the ordering machine: the scratchpads and their poison. -/
def spads (o : Ordering_) : Memory × List Nat := (o.spad, o.spadPoison)

theorem spad_of_spads {o p : Ordering_} (h : spads o = spads p) : o.spad = p.spad := congrArg Prod.fst h
theorem spadPoison_of_spads {o p : Ordering_} (h : spads o = spads p) : o.spadPoison = p.spadPoison := congrArg Prod.snd h

theorem spads_performWrite (o : Ordering_) (e loc home : Nat) (b : List Byte) : spads (performWrite o e loc home b) = spads o := by
  unfold performWrite
  dsimp only
  split <;> rfl

theorem spads_physWrite (s : State) (d pa : Nat) (b : List Byte) : spads (physWrite s d pa b).ord = spads s.ord := by
  unfold physWrite memWrite
  split
  · split
    · rfl
    · exact spads_performWrite _ _ _ _ _
  · rfl

theorem spads_tracePut (s : State) (d code src : Nat) (pay : List Byte) : spads (tracePut s d code src pay).ord = spads s.ord := by
  unfold tracePut
  dsimp only
  split
  · rfl
  · exact spads_physWrite _ _ _ _

theorem traceStep_fabric (s : State) (d : Nat) (isEnd : Bool) (src sync gen kind step part : Nat) :
    (traceStep s d isEnd src sync gen kind step part).fabric = s.fabric := by
  unfold traceStep
  split
  · exact traceUnit_keeps State.fabric (fun _ _ _ => rfl) takePick_fabric tracePut_fabric _ _ _ _ _
  · rfl

theorem spads_traceStep (s : State) (d : Nat) (isEnd : Bool) (src sync gen kind step part : Nat) :
    spads (traceStep s d isEnd src sync gen kind step part).ord = spads s.ord := by
  unfold traceStep
  split
  · exact traceUnit_keeps (fun s => spads s.ord) (fun _ _ _ => rfl) (fun s n => by rw [takePick_ord]) spads_tracePut _ _ _ _ _
  · rfl

theorem receiving_collStarts (s : State) : receiving (collStarts s).fabric = receiving s.fabric := by
  unfold collStarts
  split
  · rfl
  · refine Eq.trans (foldl_keeps (fun s : State => receiving s.fabric) _ ?_ _ _) rfl
    exact fun s c => congrArg receiving (traceStep_fabric _ _ _ _ _ _ _ _ _)

/-- A collective's contribution lands as `landOrd` says; its record bears on none of the components below. -/
theorem collLand_keeps {β : Type} (g : State → β)
    (hTrace : ∀ s d isEnd src sync gen kind step part, g (traceStep s d isEnd src sync gen kind step part) = g s)
    (s : State) (fn key sync part : Nat) (b : List Byte) :
    g (collLand s fn key sync part b) = g { s with ord := landOrd fn s.ord key sync b } := by
  unfold collLand landOrd
  dsimp only
  generalize syncArrive _ _ _ _ = r
  obtain ⟨o, adv⟩ := r
  cases adv with
  | false => rfl
  | true => rw [if_pos rfl, hTrace]

end Sys2Proof.Machine
end

section
/-! SUPPORT. How a port receives a flit, and what a delivered flit does (R28 to R42, R178, R340, R378). -/

namespace Sys2Proof.Machine

/-! What a delivered flit leaves of the receiving side. -/

theorem receiving_sendBack (s : State) (x : Flit) (kind : Nat) (data : List Byte) :
    receiving (sendBack s x kind data).fabric = receiving s.fabric := by
  unfold sendBack
  split
  · rfl
  · next f h => exact receiving_sendAnswer h

theorem receiving_turnAway (s : State) (x : Flit) : receiving (turnAway s x).fabric = receiving s.fabric := receiving_emit _ _ _

theorem receiving_beyond (s : State) (x : Flit) : receiving (beyond s x).fabric = receiving s.fabric := receiving_turnAway _ _

theorem receiving_sendDone (s : State) (x : Flit) (data : List Byte) : receiving (sendDone s x data).fabric = receiving s.fabric :=
  receiving_payOwed _ _

@[simp] theorem memWrite_fabric (s : State) (e loc home : Nat) (b : List Byte) : (memWrite s e loc home b).fabric = s.fabric := by
  unfold memWrite
  split <;> rfl

@[simp] theorem memAtomic_fabric (s : State) (op : AtomOp) (n loc home v e : Nat) : (memAtomic s op n loc home v e).1.fabric = s.fabric := by
  unfold memAtomic
  split <;> rfl

@[simp] theorem ticketDone_fabric (s : State) (st : Strand) (tag : Nat) : (ticketDone s st tag).fabric = s.fabric := by
  unfold ticketDone
  split <;> rfl

theorem receiving_doRead (s : State) (x : Flit) : receiving (doRead s x).fabric = receiving s.fabric := by
  unfold doRead
  dsimp only
  split
  · split
    · exact receiving_sendBack _ _ _ _
    · exact receiving_turnAway _ _
  · split
    · exact receiving_beyond _ _
    · split
      · exact receiving_turnAway _ _
      · exact receiving_sendBack _ _ _ _

theorem receiving_doWrite (s : State) (x : Flit) : receiving (doWrite s x).fabric = receiving s.fabric := by
  unfold doWrite
  dsimp only
  split
  · exact receiving_beyond _ _
  · rw [receiving_sendDone, memWrite_fabric]

/-- The width of an atomic request's operation in bytes (R31, R265). -/
def reqWidth (op : AtomOp) (x : Flit) : Nat :=
  if op = .ea then 64 else if op = .addF32 || op = .maxF32 || op = .minF32 then 4 else reqSize x

theorem reqWidth_eq (op : AtomOp) (x : Flit) :
    reqWidth op x = if op = .ea then 64 else if op = .addF32 ∨ op = .maxF32 ∨ op = .minF32 then 4 else reqSize x := by
  simp only [reqWidth, Bool.or_eq_true, decide_eq_true_eq, or_assoc]

/-- An atomic request of n bytes at its home die, its answer included (R166, R178). -/
def atomicAt (s : State) (x : Flit) (op : AtomOp) (n : Nat) : State :=
  let a := memAtomic s op n (memLoc x.dstDie (reqAddr x)) x.dstDie (leAt (reqData x) 0 n) (leAt (reqData x) n n)
  if !inCapacity x.dstDie (reqAddr x) n then beyond s x
  else if a.2.poisoned then sendBack a.1 x kWdone [] else sendDone a.1 x (bytesOf n a.2.old)

theorem doAtomic_of_op {s : State} {x : Flit} {op : AtomOp} (hOp : aopOf (reqOp x) = some op) :
    doAtomic s x = atomicAt s x op (reqWidth op x) := by
  have hNoBarrier : reqOp x ≠ 15 := by
    intro h
    rw [h] at hOp
    cases hOp
  simp only [doAtomic, if_neg hNoBarrier, hOp]
  rfl

theorem doAtomic_of_none {s : State} {x : Flit} (hOp : aopOf (reqOp x) = none) (hNoBarrier : reqOp x ≠ 15) : doAtomic s x = turnAway s x := by
  simp [doAtomic, hNoBarrier, hOp]

theorem receiving_atomicAt (s : State) (x : Flit) (op : AtomOp) (n : Nat) : receiving (atomicAt s x op n).fabric = receiving s.fabric := by
  unfold atomicAt
  dsimp only
  split
  · exact receiving_beyond _ _
  · split
    · rw [receiving_sendBack, memAtomic_fabric]
    · rw [receiving_sendDone, memAtomic_fabric]

theorem receiving_doAtomic (s : State) (x : Flit) : receiving (doAtomic s x).fabric = receiving s.fabric := by
  by_cases hBarrier : reqOp x = 15
  · rw [doAtomic, if_pos hBarrier]
    dsimp only
    split
    · exact receiving_beyond _ _
    · split
      · exact receiving_sendBack _ _ _ _
      · rw [receiving_sendDone, memWrite_fabric]
  · cases hOp : aopOf (reqOp x) with
    | none => rw [doAtomic_of_none hOp hBarrier, receiving_turnAway]
    | some op => rw [doAtomic_of_op hOp, receiving_atomicAt]

theorem receiving_answer (s : State) (tag : Nat) (r : Reply) : receiving (answer s tag r).fabric = receiving s.fabric := by
  unfold answer
  dsimp only
  split
  · rfl
  · split
    · rw [putStrand_fabric, ticketDone_fabric]
      rfl
    · rfl

theorem receiving_doFragment (s : State) (x : Flit) : receiving (doFragment s x).fabric = receiving s.fabric := by
  unfold doFragment
  dsimp only
  split
  · exact receiving_sendBack _ _ _ _
  · exact receiving_turnAway _ _

theorem doCollect_fabric (s : State) (x : Flit) : (doCollect s x).fabric = s.fabric := by
  unfold doCollect
  exact collLand_keeps State.fabric traceStep_fabric _ _ _ _ _ _

theorem receiving_perform (s : State) (x : Flit) : receiving (perform s x).fabric = receiving s.fabric := by
  unfold perform
  split
  · exact receiving_doRead s x
  split
  · exact receiving_doWrite s x
  split
  · exact receiving_doAtomic s x
  split
  · exact receiving_answer s _ _
  split
  · exact receiving_answer s _ _
  split
  · exact congrArg receiving (doCollect_fabric s x)
  split
  · exact receiving_doFragment s x
  · rfl

/-- A flit that stands for a request that was turned away does nothing. -/
theorem perform_of_dack (s : State) {x : Flit} (h : x.kind = kDack) : perform s x = s := by
  rw [perform, h]
  rfl

/-! Acceptance and delivery in turn (R35, R38). -/

theorem canDeliver_of_answer (s : State) {x : Flit} (h : isRequest x.kind = false) : canDeliver s x = true := by simp [canDeliver, h]

theorem fullSeq_next {r : RxStream} {x : Flit} (hSeq : x.seq = r.low % 65536) : fullSeq r x = some r.low := by
  have hDist : (x.seq + 65536 - r.low % 65536) % 65536 = 0 := by omega
  rw [fullSeq, hDist, if_neg (by decide)]
  rfl

theorem isDup_next {r : RxStream} {x : Flit} (hSeq : x.seq = r.low % 65536) (hWait : r.waiting = []) : isDup r x = false := by
  rw [isDup, fullSeq_next hSeq, hWait]
  rfl

theorem acceptFlit_next {f : Fabric} {x : Flit} (hSeq : x.seq = (rxOf f x).low % 65536) (hWait : (rxOf f x).waiting = []) :
    acceptFlit f x = putRx f x { rxOf f x with waiting := [{ x with seq := (rxOf f x).low }] } := by
  rw [acceptFlit, fullSeq_next hSeq, hWait]
  rfl

/-- A stream whose one waiting flit is next in turn delivers it, and then has nothing left to deliver. -/
theorem deliver_one {s : State} {x y : Flit} (hWait : (rxOf s.fabric x).waiting = [y]) (hSeq : y.seq = (rxOf s.fabric x).low)
    (hRoom : canDeliver s y = true) :
    deliver s x = perform { s with
      fabric := putRx s.fabric x { rxOf s.fabric x with low := (rxOf s.fabric x).low + 1, waiting := [] } } y := by
  let r : RxStream := { rxOf s.fabric x with low := (rxOf s.fabric x).low + 1, waiting := [] }
  have hRec : rxIs x r = true := rxIs_rxOf s.fabric x
  have hRest : (rxOf (perform { s with fabric := putRx s.fabric x r } y).fabric x).waiting = [] := by
    rw [rxOf_of_rx_eq (rx_of_receiving (receiving_perform _ y)) x, rxOf_putRx hRec]
  have hTurn : (decide (y.seq = (rxOf s.fabric x).low) && canDeliver s y) = true := by simp [hSeq, hRoom]
  have hEnd : ∀ n, deliverN n (perform { s with fabric := putRx s.fabric x r } y) x = perform { s with fabric := putRx s.fabric x r } y := by
    intro n
    cases n with
    | zero => rfl
    | succ n => simp [deliverN, hRest]
  rw [deliver, deliverN, hWait]
  exact (if_pos hTurn).trans (hEnd _)

/-! Acknowledgements (R29, R34). -/

theorem choosePlane_of_none {f : Fabric} {die : Nat} (used : List Nat) (h : planesUsable f die = []) : choosePlane f die used = none := by
  simp [choosePlane, h]

theorem emit_rx (f : Fabric) (l : List RxStream) (d : Nat) (x : Flit) : emit { f with rx := l } d x = { emit f d x with rx := l } := by
  have hPlane : choosePlane { f with rx := l } d [] = choosePlane f d [] := rfl
  unfold emit
  rw [hPlane]
  split <;> rfl

theorem emit_tx (f : Fabric) (d : Nat) (x : Flit) : (emit f d x).tx = f.tx := by
  unfold emit
  split <;> rfl

theorem rxOf_sendDack (f : Fabric) (x y : Flit) : rxOf (sendDack f x) y = rxOf f y :=
  rxOf_of_rx_eq (rx_of_receiving (receiving_emit _ _ _)) y

theorem rxOf_sendUnav (f : Fabric) (x y : Flit) : rxOf (sendUnav f x) y = rxOf f y :=
  rxOf_of_rx_eq (rx_of_receiving (receiving_emit _ _ _)) y

/-! The first flit of a stream, in its turn. -/

section InTurn
variable {s : State} {x : Flit} (hSeq : x.seq = (rxOf s.fabric x).low % 65536) (hWait : (rxOf s.fabric x).waiting = [])
include hSeq hWait

/-- The fabric once a flit has been accepted, counted and acknowledged. -/
def acceptedFabric (f : Fabric) (x : Flit) : Fabric :=
  sendDack { acceptFlit f x with accepted := NMap.set f.accepted x.plane (NMap.getD f.accepted x.plane 0 + 1) } x

theorem rxOf_acceptedFabric :
    rxOf (acceptedFabric s.fabric x) x = { rxOf s.fabric x with waiting := [{ x with seq := (rxOf s.fabric x).low }] } := by
  have hRec : rxIs x { rxOf s.fabric x with waiting := [{ x with seq := (rxOf s.fabric x).low }] } = true := rxIs_rxOf s.fabric x
  rw [acceptedFabric, rxOf_sendDack, acceptFlit_next hSeq hWait]
  exact (rxOf_of_rx_eq rfl x).trans (rxOf_putRx hRec)

theorem acceptedFabric_tx : (acceptedFabric s.fabric x).tx = s.fabric.tx := by
  rw [acceptedFabric, sendDack, emit_tx, acceptFlit_next hSeq hWait, putRx_frame]

/-- R35, R38: a package that takes requests accepts such a flit and performs it at once. -/
theorem receiveStream_next (hEn : s.fabric.en = true) (hOpen : s.power.shut = false)
    (hRoom : isRequest x.kind = true → (txOf s.fabric (backKey x)).unacked.length < 4096)
    (hTenant : x.kind = 5 → tenantAt s (reqTenant x) (reqSpad x / 2 ^ 24) = true) :
    receiveStream s x = perform { s with fabric := takenFlit s.fabric x } { x with seq := (rxOf s.fabric x).low } := by
  have hTaken : receiveStream s x = deliver { s with fabric := acceptedFabric s.fabric x } x := by
    have hOwn : ¬(decide (x.kind = kCldat) && !tenantAt s (reqTenant x) (reqSpad x / 2 ^ 24)) = true := by
      simp only [Bool.and_eq_true, decide_eq_true_eq, not_and, Bool.not_eq_true', Bool.not_eq_false]
      exact hTenant
    rw [receiveStream]
    dsimp only
    rw [if_neg (by simp [hEn, hOpen]), if_neg (Bool.eq_false_iff.mp (isDup_next hSeq hWait)), if_neg hOwn]
    rfl
  have hRec := rxOf_acceptedFabric hSeq hWait
  have hDeliver : canDeliver { s with fabric := acceptedFabric s.fabric x } { x with seq := (rxOf s.fabric x).low } = true := by
    rw [canDeliver, txOf_of_tx_eq (acceptedFabric_tx hSeq hWait)]
    cases hReq : isRequest x.kind with
    | false => rfl
    | true => exact decide_eq_true (hRoom hReq)
  rw [hTaken, deliver_one (s := { s with fabric := acceptedFabric s.fabric x }) (congrArg RxStream.waiting hRec)
    (congrArg RxStream.low hRec).symm hDeliver, hRec]
  rfl

/-- A request that is turned away takes its place in its stream, without effect. -/
theorem rxOf_skipFlit :
    ∃ again, rxOf (skipFlit s.fabric x) x =
      { rxOf s.fabric x with waiting := [{ x with kind := kDack, seq := (rxOf s.fabric x).low }], again := again } := by
  have hRec : ∀ again, rxIs x { rxOf s.fabric x with
      waiting := [{ x with kind := kDack, seq := (rxOf s.fabric x).low }], again := again } = true := fun _ => rxIs_rxOf s.fabric x
  have hAccept : acceptFlit s.fabric { x with kind := kDack } =
      putRx s.fabric x { rxOf s.fabric x with waiting := [{ x with kind := kDack, seq := (rxOf s.fabric x).low }] } :=
    acceptFlit_next (x := { x with kind := kDack }) hSeq hWait
  have hPut := rxOf_putRx (f := s.fabric) (hRec (rxOf s.fabric x).again)
  rw [skipFlit, hAccept]
  split
  · next n _ =>
    refine ⟨insertN (rxOf s.fabric x).again n, ?_⟩
    rw [hPut]
    exact rxOf_putRx (hRec _)
  · exact ⟨_, hPut⟩

end InTurn

theorem rxFrame_trans {f g h : Fabric} (hg : g = { f with rx := g.rx }) (hh : h = { g with rx := h.rx }) : h = { f with rx := h.rx } := by
  rw [hg] at hh
  exact hh

theorem acceptFlit_frame (f : Fabric) (x : Flit) : acceptFlit f x = { f with rx := (acceptFlit f x).rx } := by
  cases hSeq : fullSeq (rxOf f x) x with
  | none =>
    have hKeep : acceptFlit f x = f := by rw [acceptFlit, hSeq]
    rw [hKeep]
  | some n =>
    have hPut : ∃ r, acceptFlit f x = putRx f x r := ⟨_, by rw [acceptFlit, hSeq]⟩
    obtain ⟨r, hPut⟩ := hPut
    rw [hPut]
    exact putRx_frame f x r

theorem skipFlit_frame (f : Fabric) (x : Flit) : skipFlit f x = { f with rx := (skipFlit f x).rx } := by
  unfold skipFlit
  dsimp only
  split
  · exact rxFrame_trans (acceptFlit_frame f _) (putRx_frame _ x _)
  · exact acceptFlit_frame f _

theorem putRx_outbox (f : Fabric) (x : Flit) (r : RxStream) : (putRx f x r).outbox = f.outbox := by rw [putRx_frame]
theorem putRx_due (f : Fabric) (x : Flit) (r : RxStream) : (putRx f x r).due = f.due := by rw [putRx_frame]

theorem replyFlit_rx (f : Fabric) (l : List RxStream) (x : Flit) (kind : Nat) (pay : List Byte) :
    replyFlit { f with rx := l } x kind pay = replyFlit f x kind pay := rfl

theorem sendUnav_rx (f : Fabric) (l : List RxStream) (x : Flit) : sendUnav { f with rx := l } x = { sendUnav f x with rx := l } := by
  rw [sendUnav, emit_rx, replyFlit_rx]
  rfl

/-- R37: a request that a package does not take is answered by UNAV and stands for no effect in its stream. -/
theorem receiveStream_turnedAway {s : State} {x : Flit} (hClosed : s.fabric.en = false ∨ s.power.shut = true) (hReq : isRequest x.kind = true)
    (hSeq : x.seq = (rxOf s.fabric x).low % 65536) (hWait : (rxOf s.fabric x).waiting = []) :
    ∃ f, receiveStream s x = { s with fabric := f } ∧ f.outbox = (sendUnav s.fabric x).outbox ∧ f.due = (sendUnav s.fabric x).due ∧
      (rxOf f x).low = (rxOf s.fabric x).low + 1 := by
  obtain ⟨again, hSkip⟩ := rxOf_skipFlit hSeq hWait
  have hAway : (isRequest x.kind && (!s.fabric.en || s.power.shut)) = true := by
    rcases hClosed with h | h <;> simp [h, hReq]
  have hStream : receiveStream s x = deliver { s with fabric := sendUnav (skipFlit s.fabric x) x } x := by
    rw [receiveStream]
    dsimp only
    rw [if_pos hAway, if_neg (Bool.eq_false_iff.mp (isDup_next hSeq hWait))]
  have hRec := (rxOf_sendUnav (skipFlit s.fabric x) x x).trans hSkip
  have hFabric : sendUnav (skipFlit s.fabric x) x = { sendUnav s.fabric x with rx := (skipFlit s.fabric x).rx } :=
    (congrArg (sendUnav · x) (skipFlit_frame s.fabric x)).trans (sendUnav_rx _ _ _)
  have hOutbox : (sendUnav (skipFlit s.fabric x) x).outbox = (sendUnav s.fabric x).outbox := by rw [hFabric]
  have hDue : (sendUnav (skipFlit s.fabric x) x).due = (sendUnav s.fabric x).due := by rw [hFabric]
  refine ⟨_, hStream.trans ((deliver_one (s := { s with fabric := sendUnav (skipFlit s.fabric x) x }) (congrArg RxStream.waiting hRec)
    (congrArg RxStream.low hRec).symm (canDeliver_of_answer _ rfl)).trans (perform_of_dack _ rfl)), ?_, ?_, ?_⟩
  · rw [putRx_outbox, hOutbox]
  · rw [putRx_due, hDue]
  · rw [rxOf_putRx (by exact rxIs_rxOf (sendUnav (skipFlit s.fabric x) x) x), hRec]

/-! Flits at a port (R28 to R30, R42). -/

/-- A flit of a KIND in {0, ..., 9} that has passed the checks of its port. -/
def received (s : State) (kind : Nat) (x : Flit) : State :=
  if kind = kDack then deliverAll ((dackSeqs x.payload).foldl (fun s q => ackOne s (aboutKey x) q) s)
  else if kind = kNak then (sendFailed s (aboutKey x) x.seq).getD s
  else if kind = kUnav then unavail s x
  else receiveStream s x

theorem receive_of_lock {s : State} {kind : Nat} {x : Flit} (hPlane : x.plane < 48) (hUp : s.fabric.planeUp.getLsbD x.plane = true)
    (hKind : x.kind = kind ∨ 9 < x.kind) :
    receive s kind x = some (if x.crcOk = false then { s with fabric := handOut s.fabric x.plane (replyFlit s.fabric x kNak []) }
      else if headerBad x = true ∨ x.dstPkg ≠ s.fabric.pkgId then { s with fabric := countProto s.fabric x.plane }
      else if bridgesUp s.fabric (planeDie x.plane) x.dstDie = false then s
      else received s kind x) := by
  have hLock : ¬(decide (48 ≤ x.plane) || !s.fabric.planeUp.getLsbD x.plane || (decide (x.kind ≤ 9) && x.kind != kind)) = true := by
    have hOwn : x.kind ≤ 9 → x.kind = kind := fun h => hKind.resolve_right (by omega)
    simpa [hUp, hPlane] using hOwn
  rw [receive, if_neg hLock]
  simp only [received, Bool.not_eq_true', Bool.or_eq_true, bne_iff_ne]
  split
  · rfl
  split
  · rfl
  split
  · rfl
  split
  · rfl
  split
  · rfl
  split <;> rfl

theorem exec_of_flitCode {i : Instr} {s : State} {kind : Nat} {x : Flit} (hCode : flitCode i = some kind) (hArg : s.arg = .flit x) :
    ∃ name, exec i s = event name (receive s kind x) := by
  unfold flitCode at hCode
  split at hCode <;> cases hCode
  · exact ⟨"RDREQ", by change execRdreq s = _; simp only [execRdreq, flitEvent, hArg]; rfl⟩
  · exact ⟨"WRREQ", by change execWrreq s = _; simp only [execWrreq, flitEvent, hArg]; rfl⟩
  · exact ⟨"ATREQ", by change execAtreq s = _; simp only [execAtreq, flitEvent, hArg]; rfl⟩
  · exact ⟨"RDATA", by change execRdata s = _; simp only [execRdata, flitEvent, hArg]; rfl⟩
  · exact ⟨"WDONE", by change execWdone s = _; simp only [execWdone, flitEvent, hArg]; rfl⟩
  · exact ⟨"CLDAT", by change execCldat s = _; simp only [execCldat, flitEvent, hArg]; rfl⟩
  · exact ⟨"XSDAT", by change execXsdat s = _; simp only [execXsdat, flitEvent, hArg]; rfl⟩
  · exact ⟨"DACK", by change execDack s = _; simp only [execDack, flitEvent, hArg]; rfl⟩
  · exact ⟨"NAK", by change execNak s = _; simp only [execNak, flitEvent, hArg]; rfl⟩
  · exact ⟨"UNAV", by change execUnav s = _; simp only [execUnav, flitEvent, hArg]; rfl⟩

/-- A flit that passes every check at its port is received. -/
theorem exec_of_arriving {i : Instr} {s : State} {kind : Nat} {x : Flit} (hCode : flitCode i = some kind) (h : Arriving s x kind) :
    exec i s = .next (received s kind x) := by
  obtain ⟨hArg, hKind, hPlane, hUp, hCrc, hHeader, hPkg, hBridge⟩ := h
  obtain ⟨name, hExec⟩ := exec_of_flitCode hCode hArg
  rw [hExec, receive_of_lock hPlane hUp (.inl hKind), if_neg (by simp [hCrc]), if_neg (by simp [hHeader, hPkg]), if_neg (by simp [hBridge]), event]

theorem received_stream {s : State} {kind : Nat} {x : Flit} (hKind : kind ≤ 6) : received s kind x = receiveStream s x := by
  rw [received, if_neg (by unfold kDack; omega), if_neg (by unfold kNak; omega), if_neg (by unfold kUnav; omega)]

theorem headerBad_of_reserved {x : Flit} (h : 9 < x.kind) : headerBad x = true := by simp [headerBad, h]

/-! Flits that the stream has accepted before (R35, R379). -/

section Duplicate
variable {s : State} {x : Flit} (hEn : s.fabric.en = true) (hOpen : s.power.shut = false) (hDup : isDup (rxOf s.fabric x) x = true)
include hEn hOpen hDup

theorem receiveStream_dup (hPast : comesAgain (rxOf s.fabric x) x = none) : receiveStream s x = { s with fabric := sendDack s.fabric x } := by
  rw [receiveStream]
  dsimp only
  rw [if_neg (by simp [hEn, hOpen]), if_pos hDup, hPast]

theorem receiveStream_again {n : Nat} (hAgain : comesAgain (rxOf s.fabric x) x = some n)
    (hTenant : tenantAt s (reqTenant x) (reqSpad x / 2 ^ 24) = true) :
    let f := putRx s.fabric x { rxOf s.fabric x with again := eraseN (rxOf s.fabric x).again n }
    receiveStream s x = doCollect { s with
      fabric := sendDack { f with accepted := NMap.set f.accepted x.plane (NMap.getD f.accepted x.plane 0 + 1) } x } x := by
  rw [receiveStream]
  dsimp only
  rw [if_neg (by simp [hEn, hOpen]), if_pos hDup, hAgain]
  exact if_pos hTenant

theorem receiveStream_againAway {n : Nat} (hAgain : comesAgain (rxOf s.fabric x) x = some n)
    (hTenant : tenantAt s (reqTenant x) (reqSpad x / 2 ^ 24) = false) : receiveStream s x = { s with fabric := sendUnav s.fabric x } := by
  rw [receiveStream]
  dsimp only
  rw [if_neg (by simp [hEn, hOpen]), if_pos hDup, hAgain]
  exact if_neg (Bool.eq_false_iff.mp hTenant)

end Duplicate

end Sys2Proof.Machine
end

section
/-! SUPPORT. What the requests of other packages give, and the source side of a stream: acknowledgements, retries, failures, planes and bridges
(R31 to R42, R178, R331, R340, R378). -/

namespace Sys2Proof.Machine

/-! Requests at their home die (R31, R178, R340, R342, R378). -/

section Requests
variable {s : State} {x : Flit}

theorem doRead_beyond (hMem : reqAddr x < 2 ^ 63) (hCap : inCapacity x.dstDie (reqAddr x) (reqCount x) = false) :
    doRead s x = beyond s x := by
  have hPlace : ¬spadMark ≤ reqAddr x := Nat.not_le.mpr hMem
  rw [doRead, if_neg hPlace]
  exact if_pos (by simp [hCap])

theorem doRead_poisoned (hMem : reqAddr x < 2 ^ 63) (hCap : inCapacity x.dstDie (reqAddr x) (reqCount x) = true)
    (hPoison : readPoisoned s x.dstDie (memLoc x.dstDie (reqAddr x)) (reqCount x) = true) : doRead s x = turnAway s x := by
  have hPlace : ¬spadMark ≤ reqAddr x := Nat.not_le.mpr hMem
  rw [doRead, if_neg hPlace]
  exact (if_neg (by simp [hCap])).trans (if_pos hPoison)

theorem doRead_memory (hMem : reqAddr x < 2 ^ 63) (hCap : inCapacity x.dstDie (reqAddr x) (reqCount x) = true)
    (hClean : readPoisoned s x.dstDie (memLoc x.dstDie (reqAddr x)) (reqCount x) = false) :
    doRead s x = sendBack s x kRdata (memRead s x.dstDie (memLoc x.dstDie (reqAddr x)) (reqCount x)) := by
  have hPlace : ¬spadMark ≤ reqAddr x := Nat.not_le.mpr hMem
  rw [doRead, if_neg hPlace]
  exact (if_neg (by simp [hCap])).trans (if_neg (by simp [hClean]))

theorem doRead_spad (hSpad : 2 ^ 63 ≤ reqAddr x) (hTenant : tenantAt s (reqTenant x) (reqSpad x / 2 ^ 24) = true)
    (hClean : spadPoisoned s.ord (reqSpad x) (reqCount x) = false) :
    doRead s x = sendBack s x kRdata (Memory.getBytes s.ord.spad (reqSpad x) (reqCount x)) := by
  have hPlace : spadMark ≤ reqAddr x := hSpad
  have hOwn : (tenantAt s (reqTenant x) (reqSpad x / 2 ^ 24) && !spadPoisoned s.ord (reqSpad x) (reqCount x)) = true := by
    rw [hTenant, hClean]
    rfl
  rw [doRead, if_pos hPlace]
  exact if_pos hOwn

theorem doWrite_beyond (hCap : inCapacity x.dstDie (reqAddr x) ((reqData x).take (reqCount x)).length = false) :
    doWrite s x = beyond s x := if_pos (by simp only [hCap]; rfl)

theorem doWrite_memory (hCap : inCapacity x.dstDie (reqAddr x) ((reqData x).take (reqCount x)).length = true)
    (hFrame : vacatedFrame s (memLoc x.dstDie (reqAddr x)) = false) :
    doWrite s x = sendDone { s with
      ord := performWrite s.ord x.dstDie (memLoc x.dstDie (reqAddr x)) x.dstDie ((reqData x).take (reqCount x)) } x [] := by
  have hWrite : ∀ b, memWrite s x.dstDie (memLoc x.dstDie (reqAddr x)) x.dstDie b =
      { s with ord := performWrite s.ord x.dstDie (memLoc x.dstDie (reqAddr x)) x.dstDie b } := fun b => if_neg (by simp [hFrame])
  rw [← hWrite]
  exact if_neg (by simp only [hCap]; decide)

/-- An atomic on memory without poison gives the old value. -/
theorem atomicMem_clean {o : Ordering_} {op : AtomOp} {n loc home v e : Nat} (hClean : memPoisoned o home loc n = false) :
    (atomicMem o op n loc home v e).2.poisoned = false ∧
      (atomicMem o op n loc home v e).2.old = numOf (Memory.getBytes (viewOf o home) loc n) := by
  unfold atomicMem
  rw [if_neg (by simp [hClean])]
  dsimp only
  split <;> exact ⟨rfl, rfl⟩

theorem atomicAt_memory {op : AtomOp} {n : Nat} (hCap : inCapacity x.dstDie (reqAddr x) n = true)
    (hFrame : vacatedFrame s (memLoc x.dstDie (reqAddr x)) = false)
    (hClean : memPoisoned s.ord x.dstDie (memLoc x.dstDie (reqAddr x)) n = false) :
    atomicAt s x op n = sendDone { s with
      ord := (atomicMem s.ord op n (memLoc x.dstDie (reqAddr x)) x.dstDie (leAt (reqData x) 0 n) (leAt (reqData x) n n)).1 } x
        (bytesOf n (numOf (Memory.getBytes (viewOf s.ord x.dstDie) (memLoc x.dstDie (reqAddr x)) n))) := by
  obtain ⟨hOk, hOld⟩ := atomicMem_clean (op := op) (v := leAt (reqData x) 0 n) (e := leAt (reqData x) n n) hClean
  have hAtomic : ∀ v e, memAtomic s op n (memLoc x.dstDie (reqAddr x)) x.dstDie v e =
      ({ s with ord := (atomicMem s.ord op n (memLoc x.dstDie (reqAddr x)) x.dstDie v e).1 },
        (atomicMem s.ord op n (memLoc x.dstDie (reqAddr x)) x.dstDie v e).2) := fun v e => if_neg (by simp [hFrame])
  unfold atomicAt
  dsimp only
  rw [hAtomic, if_neg (by simp [hCap]), hOk, hOld]
  rfl

theorem doFragment_away (hTenant : tenantAt s (reqTenant x) (reqSpad x / 2 ^ 24) = false) : doFragment s x = turnAway s x := by
  rw [doFragment]
  exact if_neg (Bool.eq_false_iff.mp hTenant)

/-- The byte that a fragment's sync word begins at (R339). -/
def reqSync (x : Flit) : Nat := spadKey x.dstDie (bitsN (reqAddr x) 24 5) (16 * bitsN (reqAddr x) 44 20)

theorem doFragment_lands (hTenant : tenantAt s (reqTenant x) (reqSpad x / 2 ^ 24) = true) :
    doFragment s x = sendBack { s with ord := fragLand s.ord (reqSpad x) (reqSync x) ((reqData x).take (reqCount x)) } x kWdone [] := by
  rw [doFragment]
  exact if_pos hTenant

/-- A collective's fragment lands in the scratchpads as `landOrd` says (R378). -/
theorem spads_doCollect :
    spads (doCollect s x).ord = spads (landOrd (reqOp x) s.ord (reqSpad x) (reqSync x) ((reqData x).take (reqCount x))) := by
  unfold doCollect
  dsimp only
  rw [collLand_keeps (fun s => spads s.ord) spads_traceStep]
  rw [reqSync]

end Requests

/-! Answers (R32, R39, R178). -/

section Answers
variable {s : State} {x : Flit} (hRoom : (txOf s.fabric (backKey x)).unacked.length < 4096)
include hRoom

/-- A stream with room takes an answer under its next SEQ. -/
theorem sendAnswer_room (kind : Nat) (data : List Byte) :
    ∃ f, sendAnswer s.fabric x kind data = some f ∧ (txOf f (backKey x)).next = (txOf s.fabric (backKey x)).next + 1 := by
  unfold sendAnswer sendReq sendReqAs
  dsimp only
  rw [if_neg (Nat.not_le.mpr hRoom)]
  refine ⟨_, rfl, ?_⟩
  have hKey : ∀ f l, txOf (putTx f { txOf s.fabric (backKey x) with next := (txOf s.fabric (backKey x)).next + 1, unacked := l }) (backKey x) =
      { txOf s.fabric (backKey x) with next := (txOf s.fabric (backKey x)).next + 1, unacked := l } := by
    intro f l
    have hPut := txOf_putTx f { txOf s.fabric (backKey x) with next := (txOf s.fabric (backKey x)).next + 1, unacked := l }
    rwa [show ({ txOf s.fabric (backKey x) with next := (txOf s.fabric (backKey x)).next + 1, unacked := l } : TxStream).key = backKey x from
      txOf_key s.fabric (backKey x)] at hPut
  exact congrArg TxStream.next (hKey _ _)

theorem sendBack_room (kind : Nat) (data : List Byte) :
    ∃ f, sendBack s x kind data = { s with fabric := f } ∧ (txOf f (backKey x)).next = (txOf s.fabric (backKey x)).next + 1 := by
  obtain ⟨f, hSend, hNext⟩ := sendAnswer_room hRoom kind data
  exact ⟨f, by rw [sendBack, hSend], hNext⟩

/-- An answer that every die has applied leaves at once. -/
theorem sendDone_reached (hNone : s.fabric.owed = []) (hAll : reachedAll s.ord (appliedOf s.ord x.dstDie) = true) (data : List Byte) :
    sendDone s x data = sendBack s x kWdone data := by
  obtain ⟨f, hSend, -⟩ := sendAnswer_room hRoom kWdone data
  have hFabric : { s.fabric with owed := [] } = s.fabric := by rw [← hNone]
  simp [sendDone, payOwed, hNone, hAll, hFabric, sendBack, hSend]

end Answers

theorem sendDone_owed {s : State} {x : Flit} (hNone : s.fabric.owed = []) (hSome : reachedAll s.ord (appliedOf s.ord x.dstDie) = false)
    (data : List Byte) : sendDone s x data = { s with
      fabric := { s.fabric with owed := [{ req := x, data := data, clock := appliedOf s.ord x.dstDie }] } } := by
  simp [sendDone, payOwed, hNone, hSome]

/-! Acknowledgements at the source (R34, R331, R379). -/

theorem ackOne_unknown {s : State} {k : StreamKey} {seq : Nat} (h : flightOf s.fabric k seq = none) : ackOne s k seq = s := by
  rw [ackOne, h]

theorem ackOne_plain {s : State} {k : StreamKey} {seq : Nat} {y : SentFlit} (h : flightOf s.fabric k seq = some y) (hGroup : y.group = 0)
    (hKind : y.flit.kind ≠ 5) : ackOne s k seq = { s with fabric := updFlight s.fabric k seq fun _ => none } := by
  have hKind' : y.flit.kind ≠ kCldat := hKind
  simp [ackOne, h, hGroup, hKind']

theorem unavail_eq {s : State} {x : Flit} (hTag : 4 ≤ x.payload.length) :
    let tag := leAt x.payload 0 4
    let s1 := noteSeq (noteAvoid s tag (((flightOf s.fabric (aboutKey x) x.seq).map (·.used)).getD [])) tag x.seq
    unavail s x = failRequest { s1 with
      fabric := dropFlit (updFlight s1.fabric (aboutKey x) x.seq fun y => if y.tag = tag then none else some y) tag } tag := by
  simp only [unavail, if_pos hTag]
  rfl

/-! A transmission that has failed (R34, R36). -/

theorem noteAvoid_fabric (s : State) (tag : Nat) (planes : List Nat) : (noteAvoid s tag planes).fabric = s.fabric := by
  unfold noteAvoid
  split <;> rfl

section Failed
variable {s : State} {k : StreamKey} {seq : Nat} {y : SentFlit} (hFlight : flightOf s.fabric k seq = some y)
include hFlight

/-- It is sent again, up to eight times. -/
theorem sendFailed_again (hTries : y.tries < 7) :
    sendFailed s k seq = some (collStarts { s with
      fabric := updFlight (transmit s.fabric k.srcDie { y with tries := y.tries + 1 }).1 k seq
        fun _ => some (transmit s.fabric k.srcDie { y with tries := y.tries + 1 }).2 }) := by
  simp only [sendFailed, hFlight, if_pos hTries]

/-- Then a request other than a read is held, and its access fails. -/
theorem sendFailed_held (hTries : 7 ≤ y.tries) (hReq : isRequest y.flit.kind = true) (hRead : y.flit.kind ≠ 0) :
    sendFailed s k seq = some (failRequest (holdFlits (noteAvoid s y.tag y.used) y) y.tag) := by
  have hHold : (isRequest y.flit.kind && y.flit.kind != kRdreq) = true := by
    rw [hReq]
    exact bne_iff_ne.mpr hRead
  simp only [sendFailed, hFlight, if_neg (Nat.not_lt.mpr hTries)]
  exact if_pos hHold

theorem sendFailed_dropped (hTries : 7 ≤ y.tries) (hKind : isRequest y.flit.kind = false ∨ y.flit.kind = 0) :
    let s1 := noteAvoid s y.tag y.used
    sendFailed s k seq = some (failRequest { s1 with fabric := updFlight s1.fabric k seq fun _ => none } y.tag) := by
  have hDrop : ¬(isRequest y.flit.kind && y.flit.kind != kRdreq) = true := by
    rcases hKind with h | h <;> simp [h, kRdreq]
  simp only [sendFailed, hFlight, if_neg (Nat.not_lt.mpr hTries)]
  exact if_neg hDrop

theorem sendFailed_some : ∃ t, sendFailed s k seq = some t := by
  by_cases hTries : y.tries < 7
  · exact ⟨_, sendFailed_again hFlight hTries⟩
  · by_cases hHold : isRequest y.flit.kind = true ∧ y.flit.kind ≠ 0
    · exact ⟨_, sendFailed_held hFlight (by omega) hHold.1 hHold.2⟩
    · have hKind : isRequest y.flit.kind = false ∨ y.flit.kind = 0 := by
        rw [not_and_or, Bool.not_eq_true, not_not] at hHold
        exact hHold
      exact ⟨_, sendFailed_dropped hFlight (by omega) hKind⟩

end Failed

/-- The flits of the failed request are held, each in its stream (R36, R331). -/
theorem holdFlits_holds {s : State} {y z : SentFlit} {u : TxStream} (hu : u ∈ s.fabric.tx) (hz : z ∈ u.unacked) (hHeld : z.held = false)
    (hSid : z.sid = y.sid) (hTag : z.tag = y.tag) :
    ∃ u', u' ∈ (holdFlits s y).fabric.tx ∧ u'.key = u.key ∧ ∃ z', z' ∈ u'.unacked ∧ z'.flit = z.flit ∧ z'.held = true := by
  have hWith : heldWith y z = true := by simp [heldWith, hHeld, hSid, hTag]
  refine ⟨_, List.mem_map_of_mem hu, rfl, _, List.mem_append_left _ (List.mem_map_of_mem hz), ?_⟩
  rw [if_pos hWith]
  exact ⟨rfl, rfl⟩

/-! The failure of a request (R36, R37, R416). -/

theorem failRequest_waiting {s : State} {sid tag : Nat} (hOwner : ownerOf s tag = some sid)
    (hWaits : (strandOf s sid).answers.any (fun a => a.tag == tag) = true) :
    failRequest s tag = raceLates (putStrand s sid (setAnswer (strandOf s sid) tag .failed)) := by
  simp only [failRequest, hOwner, failTag, if_pos hWaits]

theorem failRequest_late {s : State} {sid tag : Nat} {o : Outstanding} (hOwner : ownerOf s tag = some sid)
    (hLeft : (strandOf s sid).answers.any (fun a => a.tag == tag) = false)
    (hOut : (strandOf s sid).outst.find? (fun o => o.tag == tag) = some o) :
    failRequest s tag = raceLates (putStrand (ticketDone s (strandOf s sid) tag) sid
      (addLate (bringOld (answered (strandOf s sid) tag) o.fill 0 0) cLink o.va)) := by
  simp only [failRequest, hOwner, failTag, if_neg (Bool.eq_false_iff.mp hLeft), hOut]

/-! Planes and bridges (R34, R40, R42). -/

theorem sendWaiting_planeUp (s : State) : (sendWaiting s).fabric.planeUp = s.fabric.planeUp :=
  planeUp_of_receiving ((receiving_collStarts _).trans (receiving_sendDue _))

theorem getLsbD_planeBit {j k : Nat} (hj : j < 48) : (BitVec.ofNat 48 (2 ^ k)).getLsbD j = decide (j = k) := by
  rw [BitVec.getLsbD_ofNat, Nat.testBit_two_pow]
  simp [hj, eq_comm]

theorem setLock_lost {s : State} {k : Nat} (hk : k < 48) :
    ∃ t, setLock s k false = some t ∧ ∀ j, j < 48 → t.fabric.planeUp.getLsbD j = (s.fabric.planeUp.getLsbD j && decide (j ≠ k)) := by
  refine ⟨_, if_neg (Nat.not_le.mpr hk), fun j hj => ?_⟩
  rw [sendWaiting_planeUp]
  change (s.fabric.planeUp &&& ~~~BitVec.ofNat 48 (2 ^ k)).getLsbD j = _
  rw [BitVec.getLsbD_and, BitVec.getLsbD_not, getLsbD_planeBit hj]
  simp [hj]

theorem setLock_gained {s : State} {k : Nat} (hk : k < 48) :
    ∃ t, setLock s k true = some t ∧ ∀ j, j < 48 → t.fabric.planeUp.getLsbD j = (s.fabric.planeUp.getLsbD j || decide (j = k)) := by
  refine ⟨_, if_neg (Nat.not_le.mpr hk), fun j hj => ?_⟩
  rw [sendWaiting_planeUp]
  change (s.fabric.planeUp ||| BitVec.ofNat 48 (2 ^ k)).getLsbD j = _
  rw [BitVec.getLsbD_or, getLsbD_planeBit hj]

theorem bridgesOf_bridge {a b : Nat} (hab : a < b) (hBridge : a = 0 ∨ a + 4 = b) : bridgesOf a b = [(a, b)] := by
  rcases hBridge with rfl | rfl
  · simp [bridgesOf, Nat.ne_of_lt hab]
  · by_cases h0 : a = 0 <;> simp [bridgesOf, h0]

theorem bridgeDown_eq {s : State} {a b : Nat} (hab : a < b) (hb : b ≤ 8) (hBridge : a = 0 ∨ a + 4 = b) :
    bridgeDown s a b = some (logError { s with
      fabric := { s.fabric with
        bridgesDown := if s.fabric.bridgesDown.any (· == (a, b)) then s.fabric.bridgesDown else s.fabric.bridgesDown ++ [(a, b)] } } errBridge a b) := by
  have hMin : min a b = a := Nat.min_eq_left hab.le
  have hMax : max a b = b := Nat.max_eq_right hab.le
  simp only [bridgeDown, hMin, hMax, bridgesOf_bridge hab hBridge]
  exact if_neg (by simp [hb])

theorem mem_bridgesDown (l : List (Nat × Nat)) (p : Nat × Nat) : p ∈ if l.any (· == p) then l else l ++ [p] := by
  split
  · next h => simpa using h
  · simp

theorem subset_bridgesDown (l : List (Nat × Nat)) (p : Nat × Nat) : ∀ q, q ∈ l → q ∈ if l.any (· == p) then l else l ++ [p] := by
  intro q hq
  split
  · exact hq
  · exact List.mem_append_left _ hq

theorem execPlaneTimerExpiry_eq {s : State} {k : StreamKey} {seq : Nat} (hArg : s.arg = .timer k seq) :
    exec .planeTimerExpiry s = event "PLANE_TIMER_EXPIRY" (sendFailed s k seq) := by
  change execPlaneTimerExpiry s = _
  simp only [execPlaneTimerExpiry, hArg]

theorem execPortLockLost_eq {s : State} {k : Nat} (hArg : s.arg = .n1 k) :
    exec .portLockLost s = event "PORT_LOCK_LOST" (setLock s k false) := by
  change execPortLockLost s = _
  simp only [execPortLockLost, hArg]

theorem execPortLockGained_eq {s : State} {k : Nat} (hArg : s.arg = .n1 k) :
    exec .portLockGained s = event "PORT_LOCK_GAINED" (setLock s k true) := by
  change execPortLockGained s = _
  simp only [execPortLockGained, hArg]

theorem execBridgeDown_eq {s : State} {a b : Nat} (hArg : s.arg = .n2 a b) :
    exec .bridgeDown s = event "BRIDGE_DOWN" (bridgeDown s a b) := by
  change execBridgeDown s = _
  simp only [execBridgeDown, hArg]

/-! What arrives at a port, case by case. -/

/-- R35, R379: a flit that its stream has accepted before. -/
theorem receiveStream_before {s : State} {x : Flit} (hEn : s.fabric.en = true) (hOpen : s.power.shut = false)
    (hDup : isDup (rxOf s.fabric x) x = true) :
    (comesAgain (rxOf s.fabric x) x = none → receiveStream s x = { s with fabric := sendDack s.fabric x }) ∧
    ∀ n, comesAgain (rxOf s.fabric x) x = some n →
      if tenantAt s (reqTenant x) (reqSpad x / 2 ^ 24) = true then
        let f := putRx s.fabric x { rxOf s.fabric x with again := eraseN (rxOf s.fabric x).again n }
        receiveStream s x = doCollect { s with
          fabric := sendDack { f with accepted := NMap.set f.accepted x.plane (NMap.getD f.accepted x.plane 0 + 1) } x } x
      else receiveStream s x = { s with fabric := sendUnav s.fabric x } := by
  refine ⟨receiveStream_dup hEn hOpen hDup, fun n hAgain => ?_⟩
  split
  · next hTenant => exact receiveStream_again hEn hOpen hDup hAgain hTenant
  · next hTenant => exact receiveStream_againAway hEn hOpen hDup hAgain (Bool.eq_false_iff.mpr hTenant)

theorem request_kinds : ∀ kind, kind ∈ [0, 1, 2, 5, 6] → isRequest kind = true ∧ kind ≤ 6 := by decide

/-- What a delivered flit does, by its KIND (R29). -/
theorem perform_cases (s : State) (x : Flit) :
    (x.kind = 0 → perform s x = doRead s x) ∧ (x.kind = 1 → perform s x = doWrite s x) ∧ (x.kind = 2 → perform s x = doAtomic s x) ∧
      (x.kind = 3 → perform s x = answer s (leAt x.payload 0 4) (.bytes (x.payload.drop 4))) ∧
      (x.kind = 4 → perform s x = answer s (leAt x.payload 0 4) (if x.payload.length ≤ 4 then .noValue else .bytes (x.payload.drop 4))) ∧
      (x.kind = 5 → perform s x = doCollect s x) ∧ (x.kind = 6 → perform s x = doFragment s x) := by
  refine ⟨?_, ?_, ?_, ?_, ?_, ?_, ?_⟩ <;> intro h <;>
    simp [perform, h, kRdreq, kWrreq, kAtreq, kRdata, kWdone, kCldat, kXsdat, ansTag]

/-- Settles O50, clause by clause: the checks of a port in their order, the record of a stream, the requests at their home die, and the source side. -/
theorem fabricEvents : Obligations.FabricEvents := by
  unfold Obligations.FabricEvents
  refine ⟨?arrival, ?noPlane, fun _ => headerBad_of_reserved, ?ack, ?turnedAway, ?inTurn, ?requests, ?owed, ?answers, ?timer, ?failure, ?locks,
    ?bridge, fun _ => rfl⟩
  case arrival =>
    intro i s kind x hCode hArg hKind hPlane hUp
    obtain ⟨name, hExec⟩ := exec_of_flitCode hCode hArg
    refine ⟨_, by rw [hExec, receive_of_lock hPlane hUp hKind, event], fun hCrc => if_pos hCrc, fun hCrc hBad => ?_,
      fun hCrc hHeader hPkg hBridge => ?_, fun hCrc hHeader hPkg hBridge => ?_⟩
    · rw [if_neg (by simp [hCrc]), if_pos hBad]
    · rw [if_neg (by simp [hCrc]), if_neg (by simp [hHeader, hPkg]), if_pos hBridge]
    · rw [if_neg (by simp [hCrc]), if_neg (by simp [hHeader, hPkg]), if_neg (by simp [hBridge])]
      refine ⟨?_, ?_, ?_, fun hStream hEn hOpen hDup => ?_⟩
      · rintro rfl
        rfl
      · rintro rfl
        refine ⟨fun hNone => ?_, fun hSome => ?_⟩
        · simp [received, kDack, kNak, sendFailed, hNone]
        · obtain ⟨y, hFlight⟩ := Option.ne_none_iff_exists'.mp hSome
          obtain ⟨t, ht⟩ := sendFailed_some hFlight
          simp [received, kDack, kNak, ht]
      · rintro rfl hTag
        exact unavail_eq hTag
      · rw [received_stream hStream]
        exact receiveStream_before hEn hOpen hDup
  case noPlane =>
    intro f die x hNone
    rw [emit, choosePlane_of_none [] hNone]
  case ack => exact fun s k seq => ⟨ackOne_unknown, fun y => ackOne_plain⟩
  case turnedAway =>
    intro i s kind x hCode hArriving hClosed hKind hWait hSeq
    obtain ⟨-, hOwn, -⟩ := id hArriving
    obtain ⟨hReq, hStream⟩ := request_kinds kind hKind
    obtain ⟨f, hGives, hOutbox, hDue, hLow⟩ := receiveStream_turnedAway hClosed (hOwn.symm ▸ hReq) hSeq hWait
    exact ⟨{ s with fabric := f }, by rw [exec_of_arriving hCode hArriving, received_stream hStream, hGives], rfl, rfl, hOutbox, hDue, hLow⟩
  case inTurn =>
    intro i s kind x hCode hArriving hStream hFirst hTenant
    obtain ⟨-, hOwn, -⟩ := id hArriving
    obtain ⟨hEn, hOpen, hWait, hSeq, hRoom⟩ := hFirst
    subst hOwn
    intro y s1
    exact ⟨perform s1 y, by rw [exec_of_arriving hCode hArriving, received_stream hStream, receiveStream_next hSeq hWait hEn hOpen hRoom hTenant],
      perform_cases s1 y⟩
  case requests =>
    intro s x
    refine ⟨?_, ?_, ?_, ?_, ?_, ?_, ?_, ?_, ?_, ?_, ?_⟩
    · exact doRead_beyond
    · exact doRead_poisoned
    · exact doRead_memory
    · exact doRead_spad
    · exact doWrite_beyond
    · exact doWrite_memory
    · rintro op m hOp hCap hWidth hFrame hClean
      rw [doAtomic_of_op hOp, reqWidth_eq, ← hWidth]
      exact atomicAt_memory hCap hFrame hClean
    · exact doFragment_away
    · exact doFragment_lands
    · exact spad_of_spads (spads_doCollect (s := s) (x := x))
    · exact spadPoison_of_spads (spads_doCollect (s := s) (x := x))
  case owed =>
    exact fun s x data hNone hRoom => ⟨fun hAll => sendDone_reached hRoom hNone hAll data, fun hSome => sendDone_owed hNone hSome data⟩
  case answers => exact fun s x kind data hRoom => sendBack_room hRoom kind data
  case timer =>
    intro s k seq y hArg hFlight
    obtain ⟨t, ht⟩ := sendFailed_some hFlight
    refine ⟨t, by rw [execPlaneTimerExpiry_eq hArg, ht, event], ht, fun hTries => ?_, fun hTries hReq hRead => ⟨?_, rfl, ?_⟩,
      fun hTries hKind => ?_⟩
    · exact Option.some.inj (ht.symm.trans (sendFailed_again hFlight hTries))
    · exact Option.some.inj (ht.symm.trans (sendFailed_held hFlight hTries hReq hRead))
    · intro u hu z hz hHeld hSid hTag
      rw [← noteAvoid_fabric s y.tag y.used] at hu
      exact holdFlits_holds hu hz hHeld hSid hTag
    · exact Option.some.inj (ht.symm.trans (sendFailed_dropped hFlight hTries hKind))
  case failure => exact fun s sid tag hOwner => ⟨failRequest_waiting hOwner, fun o => failRequest_late hOwner⟩
  case locks =>
    intro s k hArg hk
    obtain ⟨t, hLost, hDown⟩ := setLock_lost (s := s) hk
    obtain ⟨u, hGained, hUp⟩ := setLock_gained (s := s) hk
    exact ⟨⟨t, by rw [execPortLockLost_eq hArg, hLost, event], hDown⟩, ⟨u, by rw [execPortLockGained_eq hArg, hGained, event], hUp⟩⟩
  case bridge =>
    intro s a b hArg hab hb hBridge
    exact ⟨_, (execBridgeDown_eq hArg).trans (congrArg (event "BRIDGE_DOWN") (bridgeDown_eq hab hb hBridge)), mem_bridgesDown _ _, subset_bridgesDown _ _, rfl, rfl⟩

end Sys2Proof.Machine
end

section
/-! SUPPORT. Canonical memory, first part: the operations of accesses, traces, cells, saves, exceptions and the fabric. `Canonical.f` says of the
model's operation `f` that canonical memory passes through it, and a proof follows `f`'s definition: its branches, and the operations that it calls.
An answer of several kinds (`Res`, `Got`, …) has a predicate `Canonical…`: that every state it holds has canonical memory. A state or a word that a
condition reads is generalized before the condition is split: the proofs do not depend on which branch is taken. -/

namespace Sys2Proof.Machine

variable {s t : State} {st : Strand} {sid : Nat} {n d q c k x y z : Nat} {b l' : List Byte} {va v : Word}

/-! How canonical memory passes from state to state. -/

/-- The canonical form speaks of the ordering machine and of the convoy in progress alone. -/
theorem Canonical.of_eq (h : Canonical s) (ho : t.ord = s.ord) (hc : t.convoy = s.convoy) : Canonical t := by
  unfold Canonical; rw [ho, hc]; exact h

theorem Canonical.withOrd {o : Ordering_} (h : Canonical s) (ho : CanonicalOrd o) : Canonical { s with ord := o } := ⟨ho, h.2⟩

theorem Canonical.withStrands {l : NMap Strand} (h : Canonical s) : Canonical { s with strands := l } := h

theorem Canonical.endConvoy (h : Canonical s) : Canonical { s with convoy := none } :=
  ⟨h.1, fun _ e => (Option.some_ne_none _ e.symm).elim⟩

theorem Canonical.openAt {ws : List (BitVec 32)} {replay : Bool} (h : Canonical s) (ht : Canonical t) :
    Canonical { s with convoy := some (checkpoint t ws replay) } :=
  ⟨h.1, by rintro _ ⟨⟩; exact ht.1⟩

protected theorem Canonical.ite {p : Prop} [Decidable p] (hs : Canonical s) (ht : Canonical t) : Canonical (if p then s else t) := by
  split
  · exact hs
  · exact ht

protected theorem Canonical.foldl {α : Type} {f : State → α → State} {l : List α} (h : Canonical s) (hf : ∀ s x, Canonical s → Canonical (f s x)) :
    Canonical (l.foldl f s) := by
  induction l generalizing s with
  | nil => exact h
  | cons x l ih => exact ih (hf s x h)

/-- The second part of a pair, where it has been given a name. -/
theorem Canonical.ofSnd {α : Type} {p : α × State} {a : α} (h : Canonical p.2) (e : p = (a, s)) : Canonical s := by subst e; exact h

/-- The first part of a pair, where it has been given a name. -/
theorem Canonical.ofFst {α : Type} {p : State × α} {a : α} (h : Canonical p.1) (e : p = (s, a)) : Canonical s := by subst e; exact h

/-! The answers of operations that may give no state. -/

/-- Whether the state that an operation gives, if any, has canonical memory. -/
def CanonicalOpt : Option State → Prop
  | none => True
  | some s => Canonical s

theorem CanonicalOpt.some {o : Option State} (h : CanonicalOpt o) (e : o = some s) : Canonical s := by subst e; exact h

theorem CanonicalOpt.getD {o : Option State} (h : CanonicalOpt o) (hs : Canonical s) : Canonical (o.getD s) := by
  cases o with
  | none => exact hs
  | some t => exact h

theorem CanonicalOpt.map {o : Option State} {f : State → State} (h : CanonicalOpt o) (hf : ∀ s, Canonical s → Canonical (f s)) :
    CanonicalOpt (o.map f) := by
  cases o with
  | none => trivial
  | some t => exact hf t h

theorem CanonicalOpt.bind {α : Type} {o : Option α} {f : α → Option State} (hf : ∀ a, CanonicalOpt (f a)) : CanonicalOpt (o.bind f) := by
  cases o with
  | none => trivial
  | some a => exact hf a

theorem CanonicalOpt.andThen {o : Option State} {f : State → Option State} (h : CanonicalOpt o) (hf : ∀ s, Canonical s → CanonicalOpt (f s)) :
    CanonicalOpt (o.bind f) := by
  cases o with
  | none => trivial
  | some t => exact hf t h

protected theorem CanonicalOpt.ite {p : Prop} [Decidable p] {o o' : Option State} (h : CanonicalOpt o) (h' : CanonicalOpt o') :
    CanonicalOpt (if p then o else o') := by
  split
  · exact h
  · exact h'

/-- Whether the next state of an outcome, if any, has canonical memory. -/
def CanonicalOut : Out State → Prop
  | .next s => Canonical s
  | .fault _ => True
  | .refused _ => True

theorem CanonicalOut.next {r : Out State} (h : CanonicalOut r) (e : r = .next s) : Canonical s := by subst e; exact h

/-- Whether the state that a syllable's result holds, if any, has canonical memory. -/
def CanonicalRes : Res → Prop
  | .ok s => Canonical s
  | .trap _ _ _ => True
  | .part s _ _ _ => Canonical s
  | .wait s => Canonical s

theorem CanonicalRes.wait {r : Res} (h : CanonicalRes r) (e : r = .wait s) : Canonical s := by subst e; exact h

protected theorem CanonicalRes.ite {p : Prop} [Decidable p] {r r' : Res} (h : CanonicalRes r) (h' : CanonicalRes r') :
    CanonicalRes (if p then r else r') := by
  split
  · exact h
  · exact h'

/-! The ordering machine's tickets. -/

theorem canonical_dropTickets {o : Ordering_} {l : List Nat} (h : CanonicalOrd o) : CanonicalOrd (dropTickets o l) := h.of_eq rfl rfl

theorem canonical_passTicket {o : Ordering_} (h : CanonicalOrd o) : CanonicalOrd (passTicket o) := h.of_eq rfl rfl

protected theorem Canonical.dropTickets {l : List Nat} (h : Canonical s) : Canonical { s with ord := dropTickets s.ord l } :=
  h.withOrd (canonical_dropTickets h.1)

protected theorem Canonical.passTicket (h : Canonical s) : Canonical { s with ord := passTicket s.ord } := h.withOrd (canonical_passTicket h.1)

/-! Strands, files and memory (Machine/Access). -/

protected theorem Canonical.tlbFill (h : Canonical s) : Canonical (tlbFill s st va) := by
  obtain ⟨l, e⟩ := tlbFill_eq s st va
  rw [e]; exact h

protected theorem Canonical.putStrand (h : Canonical s) : Canonical (putStrand s sid st) := h
protected theorem Canonical.putMe (h : Canonical s) : Canonical (putMe s st) := h
protected theorem Canonical.setS {r : BitVec 5} (h : Canonical s) : Canonical (setS s r v) := h
protected theorem Canonical.addFlags {f : FFlags} (h : Canonical s) : Canonical (addFlags s f) := h
protected theorem Canonical.setNpc (h : Canonical s) : Canonical (setNpc s v) := h
protected theorem Canonical.freeWord (h : Canonical s) : Canonical (freeWord s).2 := h
protected theorem Canonical.putDisp {r : Dispatcher} (h : Canonical s) : Canonical (putDisp s d r) := h
protected theorem Canonical.putQueue {r : WorkQueue} (h : Canonical s) : Canonical (putQueue s q r) := h
protected theorem Canonical.putTenant {r : Tenant} (h : Canonical s) : Canonical (putTenant s n r) := h
protected theorem Canonical.putRace {r : RaceCtx} (h : Canonical s) : Canonical (putRace s c r) := h
protected theorem Canonical.logError (h : Canonical s) : Canonical (logError s x y z) := h
protected theorem Canonical.putRing {r : TraceRing} (h : Canonical s) : Canonical (putRing s d r) := h

protected theorem Canonical.takePick (h : Canonical s) : Canonical (takePick s n).2 := by
  unfold takePick
  split
  · exact h
  · exact h

protected theorem Canonical.memWrite {e loc home : Nat} (h : Canonical s) : Canonical (memWrite s e loc home b) :=
  h.ite (h.withOrd (canonical_performWrite _ _ _ _ _ h.1))

protected theorem Canonical.memAtomic {op : AtomOp} {loc home e : Nat} (h : Canonical s) : Canonical (memAtomic s op n loc home x e).1 := by
  unfold memAtomic
  split
  · exact h
  · exact h.withOrd (canonical_atomicMem _ _ _ _ _ _ _ h.1)

protected theorem Canonical.physWrite (h : Canonical s) : Canonical (physWrite s d x b) := h.memWrite.ite h

/-! Trace records and the snapshot. -/

protected theorem Canonical.tracePut (h : Canonical s) : Canonical (tracePut s d x y b) := h.ite h.physWrite.putRing

protected theorem Canonical.traceUnit (h : Canonical s) : Canonical (traceUnit s d x y b) :=
  h.ite (h.takePick.putRing.ite (Canonical.tracePut (h.takePick.ite h.takePick.tracePut.putRing)))

protected theorem Canonical.traceBubble {trip : Bool} (h : Canonical s) : Canonical (traceBubble s x y trip) :=
  h.foldl fun _ _ h => h.traceUnit.ite h

protected theorem Canonical.traceStep {e : Bool} {g part : Nat} (h : Canonical s) : Canonical (traceStep s d e x y g k z part) :=
  h.traceUnit.ite h

protected theorem Canonical.latchSnapshot (h : Canonical s) : Canonical (latchSnapshot s) :=
by
  unfold latchSnapshot
  split
  · exact h
  · exact Canonical.foldl (h.of_eq rfl rfl) fun _ _ h => h.traceUnit.ite h

protected theorem Canonical.fireSnapshot (h : Canonical s) : Canonical (fireSnapshot s) := Canonical.ite h h.latchSnapshot

protected theorem Canonical.latchPending (h : Canonical s) : Canonical (latchPending s) := Canonical.foldl h fun _ _ h => h.latchSnapshot

/-! Records, launches and join cells. -/

protected theorem Canonical.enqueueRec {r : Record} (h : Canonical s) : Canonical (enqueueRec s r) := h
protected theorem Canonical.updLaunch {f : Launch → Launch} (h : Canonical s) : Canonical (updLaunch s q n f) := h
protected theorem Canonical.allocCell {r : Cell} (h : Canonical s) : Canonical (allocCell s r).2 := h.takePick
protected theorem Canonical.freeArray (h : Canonical s) : Canonical (freeArray s x) := h
protected theorem Canonical.freeSlots {r : Record} (h : Canonical s) : Canonical (freeSlots s r) := h.ite h

protected theorem Canonical.setCont {r : Cont} (h : Canonical s) : Canonical (setCont s c r) := by unfold setCont; split; exacts [h, h]
protected theorem Canonical.addCell (h : Canonical s) : Canonical (addCell s c n) := by unfold addCell; split; exacts [h, h]

protected theorem Canonical.subCellN (h : Canonical s) : Canonical (subCellN k s c n) := by
  induction k generalizing s c n with
  | zero => exact h
  | succ k ih =>
    unfold subCellN
    split
    · exact h
    · split
      · exact h
      · dsimp only
        split
        exacts [h, h, ih h, h]

protected theorem Canonical.subCell (h : Canonical s) : Canonical (subCell s c n) := h.subCellN

protected theorem Canonical.cancelLaunch (h : Canonical s) : Canonical (cancelLaunch s q n x).1 := by
  unfold cancelLaunch
  split
  · exact h
  · split
    · exact h
    · dsimp only
      generalize hs : List.foldl _ (updLaunch _ _ _ _) _ = s5
      have h5 : Canonical s5 := by
        rw [← hs]
        refine Canonical.foldl (Canonical.updLaunch (Canonical.foldl (Canonical.foldl h fun _ _ h => h.freeSlots) fun _ _ h => ?_)) fun _ _ h => ?_
        · split
          exacts [h.freeArray, h]
        · split
          exacts [h.setCont.subCell, h.subCell]
      split
      exacts [h5.ite h5.subCell, h5]

/-! Saves, faults and exceptions. -/

protected theorem Canonical.saveInto {p : Bool} (h : Canonical s) : Canonical (saveInto s st n x p) := Canonical.putDisp (Canonical.physWrite h)
protected theorem Canonical.ringPut (h : Canonical s) : Canonical (ringPut s d b) := h.physWrite.putDisp
protected theorem Canonical.ringReport (h : Canonical s) : Canonical (ringReport s d b) := h.ite (Canonical.ite h h.ringPut)
protected theorem Canonical.mxPut {l : List MxHold} (h : Canonical s) : Canonical (mxPut s st l) := h.ite h
protected theorem Canonical.moveFlits (h : Canonical s) : Canonical (moveFlits s x y) := h.ite h

protected theorem Canonical.marksOf (h : Canonical s) : Canonical (marksOf s sid) :=
  Canonical.foldl (h.ite h.putStrand) fun _ _ h => h.tracePut.ite h

protected theorem Canonical.commitStop (h : Canonical s) : Canonical (commitStop s sid) := h.marksOf.ite h.marksOf.putStrand

protected theorem Canonical.abandon (h : Canonical s) : Canonical (abandon s sid) := by
  unfold abandon
  split
  · exact h.commitStop
  · exact Canonical.mxPut (Canonical.commitStop (Canonical.putStrand h.dropTickets))

protected theorem Canonical.saveAll {l : List (Strand × Nat)} {p : Bool} (h : Canonical s) : Canonical (saveAll s l p) :=
  h.foldl fun _ _ h => Canonical.moveFlits (h.abandon.saveInto (p := p)).withStrands

protected theorem Canonical.reportWaiting {g : List Strand} (h : Canonical s) : Canonical (reportWaiting s g) :=
  h.foldl fun _ _ h => h.ringReport.putStrand.ite h

protected theorem Canonical.serveStopped {held : Bool} (h : Canonical s) : Canonical (serveStopped k s d x held) := by
  induction k generalizing s x held with
  | zero => exact h
  | succ k ih =>
    unfold serveStopped
    split
    · exact h
    · exact (ih h.reportWaiting).ite ((ih h).ite (ih (h.saveAll.foldl fun _ _ h => h.ringPut)))

protected theorem Canonical.serveFaults (h : Canonical s) : Canonical (serveFaults s d) := h.serveStopped.ite h

protected theorem Canonical.stopFaulted (h : Canonical s) : Canonical (stopFaulted s st x v y) :=
  Canonical.serveFaults (h.foldl fun _ _ h => h.ite h.abandon.putStrand)

protected theorem Canonical.logTrunkStop (h : Canonical s) : Canonical (logTrunkStop s x) := h

protected theorem Canonical.countBeyond (h : Canonical s) : Canonical (countBeyond s x v) := by
  unfold countBeyond
  split
  · split
    exacts [h, h]
  · exact h

protected theorem Canonical.takeException (h : Canonical s) : Canonical (takeException s x v y) := by
  have h1 := (Canonical.abandon h.endConvoy (sid := s.cur)).countBeyond (x := x) (v := v)
  have h2 := fun l => h1.dropTickets (l := l)
  exact ((h2 _).putMe.logTrunkStop.ite (h2 _).putMe).ite (h2 _).stopFaulted

protected theorem Canonical.returnException (h : Canonical s) : Canonical (returnException s) := h

/-- A convoy that faults goes back to memory that was canonical at its start (R111). -/
protected theorem Canonical.rollback (h : Canonical s) : Canonical (rollback s) := by
  unfold rollback
  split
  · exact h
  · exact ⟨h.2 _ ‹_›, h.2⟩

protected theorem Canonical.openConvoy {l : List MxHold} {ws : List (BitVec 32)} {p : Bool} (h : Canonical s) : Canonical (openConvoy s st l ws p) :=
  h.openAt (Canonical.mxPut h.dropTickets)

protected theorem Canonical.standNow (h : Canonical s) : Canonical (standNow s) := by
  unfold standNow
  split
  exacts [h, h.openConvoy]

protected theorem Canonical.holdConvoy (h : Canonical t) : Canonical (holdConvoy s t) := by
  unfold holdConvoy
  split
  exacts [h, h.endConvoy]

/-- What a syllable's result becomes: its state, the exception that it takes, or the convoy that waits. -/
theorem CanonicalRes.finish {r : Res} (hr : CanonicalRes r) (h : Canonical s) : CanonicalOut (finish s r) := by
  cases r with
  | ok t => exact hr
  | trap c e n => exact h.rollback.takeException
  | part t c e n => exact Canonical.takeException hr
  | wait t => exact Canonical.holdConvoy hr

theorem canonical_illegal {i : Instr} : CanonicalRes (illegal s i) := trivial

theorem CanonicalRes.vecOnly {i : Instr} {r : Unit → Res} (h : CanonicalRes (r ())) : CanonicalRes (vecOnly s i r) := CanonicalRes.ite trivial h

/-! The fabric. -/

protected theorem Canonical.collStarts (h : Canonical s) : Canonical (collStarts s) := h.ite (Canonical.foldl h fun _ _ h => h.traceStep)
protected theorem Canonical.sendWaiting (h : Canonical s) : Canonical (sendWaiting s) := Canonical.collStarts h
protected theorem Canonical.resendFlits (h : Canonical s) : Canonical (resendFlits s sid) := h.ite h

protected theorem Canonical.ticketDone (h : Canonical s) : Canonical (ticketDone s st x) := by
  unfold ticketDone
  split
  exacts [h.passTicket, h]

protected theorem Canonical.answerOwns (h : Canonical s) : Canonical (answerOwns s) := Canonical.ite (h.ite h) (h.ite h)

protected theorem Canonical.failTag (h : Canonical s) : Canonical (failTag s sid x) := by
  unfold failTag
  refine h.putStrand.ite ?_
  split
  exacts [h.ticketDone.putStrand, h]

end Sys2Proof.Machine
end

section
/-! SUPPORT. Canonical memory, second part: the units, the trunk control window, and what leaves a path queue. -/

namespace Sys2Proof.Machine

variable {s t : State} {st : Strand} {sid : Nat} {n d q c k x y z : Nat} {b : List Byte} {va v : Word} {a : Access}

/-! Reads and writes of the units. -/

/-- Whether the state that a unit's read leaves, if any, has canonical memory. -/
def CanonicalUnit : UnitGot → Prop
  | .bytes _ s => Canonical s
  | .fail _ s => Canonical s
  | .asked s => Canonical s
  | .waiting => True

theorem CanonicalUnit.bytes {r : UnitGot} (h : CanonicalUnit r) (e : r = .bytes b s) : Canonical s := by subst e; exact h
theorem CanonicalUnit.fail {r : UnitGot} (h : CanonicalUnit r) (e : r = .fail c s) : Canonical s := by subst e; exact h
theorem CanonicalUnit.asked {r : UnitGot} (h : CanonicalUnit r) (e : r = .asked s) : Canonical s := by subst e; exact h

protected theorem Canonical.unitSend {p : Bool} (h : Canonical s) : Canonical (unitSend s x y va b p) := h

protected theorem Canonical.unitPut {p : Bool} (h : Canonical s) : CanonicalOpt (unitPut s n va b p) := by
  unfold unitPut
  split
  exacts [h.memWrite, h.memWrite, h.unitSend, trivial]

protected theorem Canonical.unitWrite (h : Canonical s) : CanonicalOpt (unitWrite s n va b) := h.unitPut

protected theorem Canonical.unitAsk (h : Canonical s) : CanonicalUnit (unitAsk k s x y z n va) := by
  unfold unitAsk
  dsimp only
  split
  · trivial
  · split
    exacts [trivial, h]

protected theorem Canonical.unitGetBy (h : Canonical s) (ht : Canonical t) : CanonicalUnit (unitGetBy k t s x va n y) := by
  unfold unitGetBy
  split
  · exact h
  · split
    · exact h.unitAsk
    · split
      exacts [trivial, ht, ht]
  · split
    exacts [h, h]

protected theorem Canonical.unitForget {p : Answer → Bool} (h : Canonical s) : Canonical (unitForget s p) := h.putStrand.ite h

protected theorem Canonical.unitGet (h : Canonical s) : CanonicalUnit (unitGet s x va n y) := h.unitGetBy h.unitForget

/-! Work queues. -/

protected theorem Canonical.queueError {i w wf : Nat} (h : Canonical s) : Canonical (queueError s q c i x w wf) := h.ite (h.unitWrite.getD h)
protected theorem Canonical.stopQueue {i w wf : Nat} (h : Canonical s) : Canonical (stopQueue s q c i x w wf) := h.putQueue.queueError
protected theorem Canonical.checkTail (h : Canonical s) : Canonical (checkTail s q) := h.ite h.stopQueue
protected theorem Canonical.clearStop (h : Canonical s) : Canonical (clearStop s q) := h.putQueue.checkTail
protected theorem Canonical.writeTail (h : Canonical s) : Canonical (writeTail s q v) := h.ite (h.putQueue.ite h.putQueue.checkTail)

protected theorem Canonical.writeWqctl (h : Canonical s) : Canonical (writeWqctl s q v) :=
  h.putQueue.ite (h.ite (h.putQueue.ite h.putQueue))

protected theorem Canonical.withCount {l : Launch} (h : Canonical s) : Canonical (withCount s q l n) := h.updLaunch

protected theorem Canonical.readyLaunch {l : Launch} (h : Canonical s) : CanonicalOpt (readyLaunch s q l) := by
  unfold readyLaunch
  split
  · exact h.updLaunch
  · split
    · exact (h.unitGet.fail ‹_›).updLaunch
    · exact (h.unitGet.bytes ‹_›).withCount
    · exact h.unitGet.asked ‹_›
    · trivial
  · exact h.withCount

protected theorem Canonical.takePacket (h : Canonical s) : Canonical (takePacket s q b) := by
  unfold takePacket
  extract_lets x w id
  split
  · exact h.stopQueue
  · exact (h.putQueue.readyLaunch.getD h.putQueue).ite h.putQueue

protected theorem Canonical.consumePacket (h : Canonical s) : CanonicalOpt (consumePacket s q) := by
  unfold consumePacket
  dsimp only
  split
  · exact (h.unitGet.fail ‹_›).stopQueue
  · exact (h.unitGet.bytes ‹_›).takePacket
  · exact h.unitGet.asked ‹_›
  · trivial

protected theorem Canonical.expandRecord {l : Launch} (h : Canonical s) : Canonical (expandRecord s q l) := by
  unfold expandRecord
  split
  next heq =>
    have h1 := Canonical.ofSnd (by split; exacts [h, h.allocCell]) heq
    exact h1.updLaunch.enqueueRec

protected theorem Canonical.completeLaunch {l : Launch} (h : Canonical s) : Canonical (completeLaunch s q l) := by
  have h1 := h.withOrd (canonical_settle _ h.1)
  unfold completeLaunch
  dsimp only
  refine Canonical.ite (Canonical.subCell (Canonical.putQueue (h1.ite ?_))) (Canonical.putQueue (h1.ite ?_)) <;>
  · split
    exacts [h1.unitWrite.some ‹_›, h1.queueError]

protected theorem Canonical.resumeRecord (h : Canonical s) : Canonical (resumeRecord s d n) := by
  unfold resumeRecord
  split
  exacts [h, h.putDisp.enqueueRec]

protected theorem Canonical.endSaved {r : Record} (h : Canonical s) : Canonical (endSaved s r) := by
  unfold endSaved
  dsimp only
  split
  exacts [h.freeSlots.freeArray.setCont.subCell, h.freeSlots]

protected theorem Canonical.killRecord (h : Canonical s) : Canonical (killRecord s d n) := by
  unfold killRecord
  split
  exacts [h, h.updLaunch.endSaved.serveFaults]

/-! The registers of the trunk control window. -/

protected theorem Canonical.measExtend {m : List Byte} (h : Canonical s) : Canonical (measExtend s n x b m) := h
protected theorem Canonical.measValue (h : Canonical s) : Canonical (measValue s n x b) := h.measExtend
protected theorem Canonical.writeFabctl (h : Canonical s) : Canonical (writeFabctl s v) := h
protected theorem Canonical.writeThrctl (h : Canonical s) : Canonical (writeThrctl s v) := h
protected theorem Canonical.writeMeasext (h : Canonical s) : Canonical (writeMeasext s v) := h.measExtend.ite h
protected theorem Canonical.writeTsstep (h : Canonical s) : Canonical (writeTsstep s d v) := h
protected theorem Canonical.writeTrtail (h : Canonical s) : Canonical (writeTrtail s d v) := h.putRing
protected theorem Canonical.writeTrctl (h : Canonical s) : Canonical (writeTrctl s d v) := h.putRing.ite (h.ite h.putRing)
protected theorem Canonical.clearValid (h : Canonical s) : Canonical (clearValid s) := h

theorem Canonical.withSnap {r : Snapshot} (h : Canonical s) : Canonical { s with snap := r } := h

protected theorem Canonical.writeSnapctl (h : Canonical s) : Canonical (writeSnapctl s v) :=
  (Canonical.fireSnapshot (h.clearValid.ite h).withSnap).ite (h.clearValid.ite h).withSnap

protected theorem Canonical.writeFlttail (h : Canonical s) : Canonical (writeFlttail s d v) := h.putDisp.serveFaults

protected theorem Canonical.writeFltctl (h : Canonical s) : Canonical (writeFltctl s d v) :=
  h.putDisp.serveFaults.ite (h.ite h.putDisp.serveFaults)

protected theorem Canonical.writeSvctl (h : Canonical s) : Canonical (writeSvctl s d v) := h.ite h.putDisp.serveFaults
protected theorem Canonical.writeTlbinv (h : Canonical s) : CanonicalOpt (writeTlbinv s d v) := CanonicalOpt.ite trivial h

protected theorem Canonical.writeDisp (h : Canonical s) : Canonical (writeDisp s d x v) := by
  unfold writeDisp
  refine (h.putDisp.ite h).ite (h.putDisp.ite ?_)
  split
  exacts [h.putDisp, h.ite h.putDisp, h.writeFltctl, h.writeFlttail, h.ite h.putDisp, h.writeSvctl, h.resumeRecord, h.killRecord, h]

protected theorem Canonical.writeQueue (h : Canonical s) : Canonical (writeQueue s q x v) := by
  unfold writeQueue
  dsimp only
  split
  exacts [h.ite h.putQueue, h.writeWqctl, h.writeTail, h.clearStop.ite h, h.putQueue, h]

protected theorem Canonical.writeTrace (h : Canonical s) : Canonical (writeTrace s d x v) := by
  unfold writeTrace
  dsimp only
  split
  exacts [h, h.writeTsstep, h.ite h.putRing, h.writeTrctl, h.writeTrtail, h]

protected theorem Canonical.writeFirst (h : Canonical s) : Canonical (writeFirst s x v) := by
  unfold writeFirst
  dsimp only
  split
  exacts [h.writeThrctl, h.writeFabctl, Canonical.sendWaiting h, h, h, h, h, h.writeMeasext, h]

/-- A write to the window, region by region. -/
protected theorem Canonical.windowWrite (h : Canonical s) : CanonicalOpt (windowWrite s d x v) :=
  .ite h.writeFirst <| .ite h.writeTrace <| .ite h <| .ite (.ite h.writeSnapctl (.ite h h)) <| .ite h <| .ite h.writeQueue <| .ite h <|
  .ite h.writeDisp <| .ite h <| .ite h <| .ite h <| .ite h <| .ite h <| .ite h.writeTlbinv <| .ite h <| .ite (.ite h.putRace h) <| .ite h <|
  .ite h <| .ite (.ite h h) h

/-! Accesses that leave their path queue. -/

theorem canonical_reachFor {o : Ordering_} {r : Access × List Nat} (h : CanonicalOrd o) : CanonicalOrd (reachFor o st r) := by
  unfold reachFor
  split
  exacts [canonical_reachAll _ _ h, canonical_reach _ _ _ h]

theorem canonical_foldl_reachFor {o : Ordering_} {l : List (Access × List Nat)} (h : CanonicalOrd o) :
    CanonicalOrd (l.foldl (fun o r => reachFor o st r) o) := by
  induction l generalizing o with
  | nil => exact h
  | cons r l ih => exact ih (canonical_reachFor h)

protected theorem Canonical.reachFor {r : Access × List Nat} (h : Canonical s) : Canonical { s with ord := reachFor s.ord st r } :=
  h.withOrd (canonical_reachFor h.1)

theorem Canonical.reachDie {l : List Nat} (h : Canonical s) : Canonical { s with ord := reach s.ord d l } := h.withOrd (canonical_reach _ _ _ h.1)
protected theorem Canonical.settle (h : Canonical s) : Canonical { s with ord := settle s.ord } := h.withOrd (canonical_settle _ h.1)
protected theorem Canonical.spadWrite (h : Canonical s) : Canonical { s with ord := spadWrite s.ord k b } := h.withOrd (canonical_spadWrite _ _ _ h.1)
protected theorem Canonical.fragLand (h : Canonical s) : Canonical { s with ord := fragLand s.ord k x b } := h.withOrd (canonical_fragLand _ _ _ _ h.1)

protected theorem Canonical.atomicSpad {op : AtomOp} (h : Canonical s) : Canonical { s with ord := (atomicSpad s.ord op n k x y).1 } :=
  h.withOrd (canonical_atomicSpad _ _ _ _ _ _ h.1)

protected theorem Canonical.sendPeer {p : Bool} {w : Option Nat} {r : State × Nat} (h : Canonical s) (e : sendPeer s sid a n x y k z b p w = some r) :
    Canonical r.1 := by
  unfold sendPeer at e
  dsimp only at e
  split at e
  · cases e
  · cases e
    exact h

theorem Canonical.mapSendPeer {p : Bool} {w : Option Nat} {f : State × Nat → State} (h : Canonical s) (hf : ∀ r, Canonical r.1 → Canonical (f r)) :
    CanonicalOpt ((sendPeer s sid a n x y k z b p w).map f) := by
  cases e : sendPeer s sid a n x y k z b p w with
  | none => trivial
  | some r => exact hf r (h.sendPeer e)

protected theorem Canonical.keepOwn {l : List Nat} {w : Option (AtomOp × BitVec 512)} (h : Canonical s) : Canonical (keepOwn s sid a l w x) := h

protected theorem Canonical.atomQueued {op : AtomOp} {p : Bool} (h : Canonical s) : Canonical (atomQueued s sid a op n x y p) :=
  h.memAtomic.putStrand.ite (h.memAtomic.keepOwn.ite h.memAtomic.putStrand)

protected theorem Canonical.bridgeFail (h : Canonical s) : Canonical (bridgeFail s sid a) := by
  unfold bridgeFail
  dsimp only
  split
  exacts [h.putStrand.dropTickets, h.putStrand]

protected theorem Canonical.ticketPut (h : Canonical t) : CanonicalOpt (ticketPut s x y t) :=
  CanonicalOpt.ite (h.withOrd (canonical_passTicket (canonical_reachAll _ _ h.1))) trivial

protected theorem Canonical.startCopy (h : Canonical s) : Canonical (startCopy s sid k) := h.putStrand

theorem Canonical.getDMap {α : Type} {o : Option α} {f : α → State} (h : Canonical s) (hf : ∀ x, Canonical (f x)) :
    Canonical ((o.map f).getD s) := by
  cases o with
  | none => exact h
  | some x => exact hf x

/-- The performing of an access, by its place and kind. -/
protected theorem Canonical.performWay (h : Canonical s) : CanonicalOpt (performWay s sid a) := by
  unfold performWay
  dsimp only
  split
  · exact h
  · exact h.getDMap fun _ => h.startCopy
  · exact h.memWrite
  · exact h.memWrite.ticketPut
  · exact h.atomQueued
  · exact h.memWrite.ite h.memWrite.keepOwn
  · exact h.memWrite.ticketPut
  · exact h.atomQueued
  · exact h.spadWrite
  · exact h.spadWrite.ticketPut
  · exact h.atomicSpad.putStrand
  · exact CanonicalOpt.ite h.fragLand h.putStrand
  · exact h.windowWrite
  · exact h.mapSendPeer fun _ h => h
  · exact CanonicalOpt.ite (h.mapSendPeer fun _ h => h) trivial
  · exact h.mapSendPeer fun _ h => h.putStrand.ite h
  · exact h.mapSendPeer fun _ h => h
  · trivial

protected theorem Canonical.performAcc (h : Canonical s) : CanonicalOpt (performAcc s sid a) := CanonicalOpt.ite h.bridgeFail h.performWay

protected theorem Canonical.leaveAt (h : Canonical s) : CanonicalOpt (leaveAt s sid k) := by
  unfold leaveAt
  dsimp only
  refine CanonicalOpt.ite trivial ?_
  split
  · refine CanonicalOpt.ite ?_ trivial
    split
    · trivial
    · exact (h.putStrand.performAcc.some ‹_›).putStrand
  · exact CanonicalOpt.ite h.putStrand trivial
  · trivial

protected theorem Canonical.firstLeave (h : Canonical s) : CanonicalOpt (firstLeave s sid n k) := by
  induction n generalizing k with
  | zero => trivial
  | succ n ih =>
    unfold firstLeave
    split
    exacts [h.leaveAt.some ‹_›, ih]

protected theorem Canonical.reachMe (h : Canonical s) : Canonical (reachMe s sid) :=
  h.ite (Canonical.putStrand (h.withOrd (canonical_foldl_reachFor h.1)))

protected theorem Canonical.flushN (h : Canonical s) : Canonical (flushN n s sid) := by
  induction n generalizing s with
  | zero => exact h
  | succ n ih =>
    unfold flushN
    split
    · exact h
    · have h1 := h.firstLeave.some ‹_›
      exact ih (h1.ite h1.reachMe)

protected theorem Canonical.flushStrand (h : Canonical s) : Canonical (flushStrand s sid) := h.ite h.reachMe.flushN.putStrand

/-! Accesses that enter the path queue, and what a wait does. -/

protected theorem Canonical.enterSlots {l : List Nat} (h : Canonical s) : Canonical (enterSlots s l) := h.ite h.putMe.flushStrand
protected theorem Canonical.enterFor (h : Canonical s) : Canonical (enterFor s a) := h.enterSlots
protected theorem Canonical.enterAll (h : Canonical s) : Canonical (enterAll s) := h.enterSlots
protected theorem Canonical.enterWrites (h : Canonical s) : Canonical (enterWrites s) := h.enterSlots

protected theorem Canonical.makeWay (h : Canonical s) : CanonicalOpt (makeWay s a) := by
  have h1 : Canonical (flushStrand s s.cur) := h.flushStrand
  have h2 : Canonical (enterFor (flushStrand s s.cur) a) := h1.enterFor
  unfold makeWay
  dsimp only
  generalize enterFor (flushStrand s s.cur) a = s2 at h2
  exact .ite h (.ite trivial (.ite h1 (.ite h2 trivial)))

protected theorem Canonical.issueReds {pre : List QItem} (h : Canonical s) : Canonical (issueReds n s pre) := by
  induction n generalizing s pre with
  | zero => exact h
  | succ n ih =>
    unfold issueReds
    dsimp only
    split
    · exact h
    · refine Canonical.ite ?_ (ih h)
      split
      exacts [ih (h.putMe.performAcc.some ‹_›).putMe, ih h]
    · exact ih h

protected theorem Canonical.waitHere (h : Canonical s) : Canonical (waitHere s) := h.flushStrand.issueReds
protected theorem Canonical.waitOr (h : Canonical s) (ht : Canonical t) : Canonical (waitOr s t) := ht.ite h.waitHere
protected theorem Canonical.waitFor (h : Canonical s) : Canonical (waitFor s a) := h.waitOr h.flushStrand.enterFor
protected theorem Canonical.queueItem {r : QItem} (h : Canonical s) : Canonical (queueItem s r) := h.putMe
protected theorem Canonical.writeMarks (h : Canonical s) : Canonical (writeMarks s) := h.ite h.marksOf

protected theorem Canonical.drainAll (h : Canonical s) : Canonical (drainAll s) :=
  Canonical.answerOwns (Canonical.settle (h.foldl fun _ _ h => h.ite h.flushStrand))

end Sys2Proof.Machine
end

section
/-! SUPPORT. Canonical memory, third part: the reads and atomics that a syllable makes, fetch, scalar memory and control syllables. -/

namespace Sys2Proof.Machine

variable {s t : State} {st : Strand} {sid : Nat} {n d q c k x y z : Nat} {b : List Byte} {va v : Word} {a : Access} {fl : FFlags}

theorem Canonical.withLook {l : Option Look} (h : Canonical s) : Canonical { s with look := l } := h
theorem Canonical.withFabric {f : Fabric} (h : Canonical s) : Canonical { s with fabric := f } := h
theorem Canonical.withSlot (h : Canonical s) : Canonical { s with slot := n } := h
theorem Canonical.withCur (h : Canonical s) : Canonical { s with cur := n } := h
theorem Canonical.withIcache {l : NMap (List (Nat × List Byte))} (h : Canonical s) : Canonical { s with icache := l } := h

/-! Reads and atomics of a syllable. -/

/-- Whether the state that a read leaves, if any, has canonical memory. -/
def CanonicalGot : Got → Prop
  | .bytes _ _ s => Canonical s
  | .fail _ => True
  | .wait s => Canonical s

theorem CanonicalGot.bytes {r : Got} (h : CanonicalGot r) (e : r = .bytes b fl s) : Canonical s := by subst e; exact h
theorem CanonicalGot.wait {r : Got} (h : CanonicalGot r) (e : r = .wait s) : Canonical s := by subst e; exact h

protected theorem CanonicalGot.ite {p : Prop} [Decidable p] {r r' : Got} (h : CanonicalGot r) (h' : CanonicalGot r') :
    CanonicalGot (if p then r else r') := by
  split
  · exact h
  · exact h'

/-- A read whose bytes a syllable goes on with. -/
theorem CanonicalGot.res {r : Got} {e : Nat} {f : List Byte → FFlags → State → Res} (h : CanonicalGot r)
    (hf : ∀ b fl s, Canonical s → CanonicalRes (f b fl s)) : CanonicalRes (r.res va e f) := by
  cases r with
  | bytes b fl s => exact hf b fl s h
  | fail c => trivial
  | wait s => exact h

protected theorem Canonical.askWire {p : Path} {op n e : Nat} (h : Canonical s) : Canonical (askWire s n x p y z k op q e c b va) := by
  unfold askWire
  dsimp only
  split
  exacts [h, h.withFabric.putMe]

protected theorem Canonical.askPeer {p : Path} {op : Nat} (h : Canonical s) : Canonical (askPeer s n x p y z k op c b va) := h.askWire
protected theorem Canonical.passOver {l : Look} (h : Canonical s) : Canonical (passOver s l a) := h.queueItem.withLook

protected theorem Canonical.lookRead {l : Look} (h : Canonical s) : CanonicalGot (lookRead s l x a) := by
  unfold lookRead
  dsimp only
  split
  · exact h.passOver
  · exact h.passOver
  · refine .ite h (.ite h ?_)
    split
    exacts [h.putMe.withLook, h, h.askPeer.withLook, h]

protected theorem Canonical.readNow (h : Canonical s) : CanonicalGot (readNow s x a) := by
  unfold readNow
  split
  · exact h
  · exact h.lookRead
  · split
    · exact h.waitFor
    · have h1 := h.makeWay.some ‹_›
      split
      · exact h1
      · trivial
      · split
        · exact h1
        · split
          · exact h1.askPeer
          · split
            exacts [h.waitHere, h1, trivial]
        · exact h

protected theorem Canonical.keepDone {l : List Nat} (h : Canonical s) : Canonical (keepDone s a l) := by
  unfold keepDone
  dsimp only
  split
  exacts [h, h.putMe]

protected theorem Canonical.atomLocal {op : AtomOp} {r : State × AtomRes} (h : Canonical s) (e : atomLocal s a op x y = some r) : Canonical r.1 := by
  unfold atomLocal at e
  split at e
  · cases e; exact h.memAtomic
  · cases e; exact h.memAtomic
  · cases e; exact h.atomicSpad
  · cases e

protected theorem Canonical.lookAtom {l : Look} {op : AtomOp} (h : Canonical s) : CanonicalGot (lookAtom s l n a op x y) := by
  unfold lookAtom
  dsimp only
  refine .ite h.passOver ?_
  split
  · exact h.passOver
  · refine .ite h ?_
    split
    · have h1 := h.atomLocal ‹_›
      exact .ite h h1.keepDone.putMe.withLook
    · exact h.askPeer.withLook
    · exact h

protected theorem Canonical.atomNow {op : AtomOp} (h : Canonical s) : CanonicalGot (atomNow s n a op x y) := by
  unfold atomNow
  split
  · exact h.lookAtom
  · split
    · split
      exacts [h.waitHere, h, trivial, trivial]
    · split
      · exact h.waitFor
      · have h1 := h.makeWay.some ‹_›
        split
        · have h2 := h1.atomLocal ‹_›
          exact .ite trivial h2.reachFor.putMe.standNow
        · exact h1.askPeer
        · trivial

protected theorem Canonical.lookRed {l : Look} (h : Canonical s) : CanonicalOpt (lookRed s l a) := by
  unfold lookRed
  dsimp only
  refine .ite h.passOver ?_
  split
  · exact h.passOver
  · exact .ite trivial (h.putMe.performAcc.map fun _ h => h.putMe.withLook)

protected theorem Canonical.readWords (h : Canonical s) : CanonicalGot (readWords s x a n k) := by
  induction n generalizing s k with
  | zero => exact h
  | succ n ih =>
    unfold readWords
    dsimp only
    split
    · exact h.readNow.wait ‹_›
    · trivial
    · have h1 := ih (k := k + 1) (h.readNow.bytes ‹_›)
      split
      · exact (h1.wait ‹_›).ite (h1.wait ‹_›).putMe
      · trivial
      · exact h1.bytes ‹_›

protected theorem Canonical.readWide (h : Canonical s) : CanonicalGot (readWide s x a) := .ite h.readNow h.readWords

/-! Fetch. -/

protected theorem Canonical.noteLines (h : Canonical s) : Canonical (noteLines s st n) := h

protected theorem Canonical.fetchConvoy (h : Canonical s) : Canonical (fetchConvoy s st va).2 := by
  have keep : Canonical (match convoyLoc s st va with | some loc => noteLines s st loc | none => s) := by
    split
    exacts [h.noteLines, h]
  have keep' : Canonical (match convoyLoc (takePick s 2).2 st va with | some loc => noteLines (takePick s 2).2 st loc | none => (takePick s 2).2) := by
    split
    exacts [h.takePick.noteLines, h.takePick]
  unfold fetchConvoy
  split
  · exact h
  · dsimp only
    split
    · exact keep
    · split
      · exact h.takePick
      · exact keep'

protected theorem Canonical.captureConvoys (h : Canonical s) : Canonical (captureConvoys s st va).2 := by
  unfold captureConvoys
  split
  · exact h
  · dsimp only
    split
    · exact h
    · exact h.takePick

end Sys2Proof.Machine
end

section
/-! SUPPORT. Canonical memory, fourth part: the memory, control and system syllables of the scalar unit. -/

namespace Sys2Proof.Machine

variable {s t : State} {st : Strand} {sid : Nat} {n d q c k x y z : Nat} {b : List Byte} {va v : Word} {a : Access} {fl : FFlags}

/-! Scalar memory. -/

protected theorem Canonical.withPlace {m : Acc} {f : Place → State → Res} (h : Canonical s) (hf : ∀ p s, Canonical s → CanonicalRes (f p s)) :
    CanonicalRes (withPlace s m n va f) := by
  unfold withPlace
  split
  · trivial
  · exact hf _ _ h.tlbFill

protected theorem Canonical.execLd {o : LOps} (h : Canonical s) : CanonicalOut (execLd o s) :=
  CanonicalRes.finish (h.withPlace fun _ _ h => h.readNow.res fun _ _ _ h => h.setS) h

protected theorem Canonical.execSt {o : LOps} (h : Canonical s) : CanonicalOut (execSt o s) :=
  CanonicalRes.finish (h.withPlace fun _ _ h => h.queueItem) h

protected theorem Canonical.amo {op : AtomOp} {sd sa sb : BitVec 5} {r : BitVec 2} {p : BitVec 3} (h : Canonical s) :
    CanonicalOut (amo s op n sd sa sb r p) :=
  CanonicalRes.finish (h.withPlace fun _ _ h => h.atomNow.res fun _ _ _ h => h.addFlags.setS) h

protected theorem Canonical.red {op : AtomOp} {w : BitVec 512} {r : BitVec 2} {p : BitVec 3} (h : Canonical s) :
    CanonicalRes (red s op n va w r p) := by
  refine h.withPlace fun _ s1 h => .ite h ?_
  split
  · exact h.queueItem
  · split
    exacts [h.lookRed.some ‹_›, h]

protected theorem Canonical.redI {op : AtomOp} {o : RedOps} (h : Canonical s) : CanonicalOut (redI s op o) := h.red.finish h
protected theorem Canonical.redF {op : AtomOp} {o : RedfOps} (h : Canonical s) : CanonicalOut (redF s op o) := h.red.finish h
protected theorem Canonical.execAmoea {o : AeOps} (h : Canonical s) : CanonicalOut (execAmoea o s) := CanonicalRes.finish (.ite trivial h.red) h

/-! Control. -/

protected theorem Canonical.branch {o : BOps} {f : Word → Word → Bool} (h : Canonical s) : CanonicalOut (branch s o f) := Canonical.ite h.setNpc h
protected theorem Canonical.execJ {o : JOps} (h : Canonical s) : CanonicalOut (execJ o s) := h.setNpc
protected theorem Canonical.execJal {o : JalOps} (h : Canonical s) : CanonicalOut (execJal o s) := h.setS.setNpc
protected theorem Canonical.execJalr {o : IOps} (h : Canonical s) : CanonicalOut (execJalr o s) := CanonicalRes.finish (.ite trivial h.setS.setNpc) h

protected theorem Canonical.frameFault (h : Canonical s) : CanonicalRes (frameFault s va n c v) := h.rollback.putMe.withSlot

protected theorem Canonical.execRepf {o : RepfOps} (h : Canonical s) : CanonicalOut (execRepf o s) := by
  refine CanonicalRes.finish (CanonicalRes.vecOnly (.ite canonical_illegal ?_)) h
  split
  · trivial
  · refine .ite canonical_illegal (.ite h.frameFault (.ite h.frameFault ?_))
    split
    · exact h.frameFault
    next heq =>
      have h1 := Canonical.ofSnd h.captureConvoys heq
      split
      · exact h1.frameFault
      · exact .ite h1.setNpc h1.putMe.setNpc

/-! Waits, barriers and the system registers. -/

protected theorem Canonical.pendFault (h : Canonical s) : CanonicalRes (pendFault s k) := h.rollback.putMe

protected theorem Canonical.awaitToks {l : List Nat} {f : Unit → Res} (h : Canonical s) (hf : CanonicalRes (f ())) :
    CanonicalRes (awaitToks s l f) := by
  unfold awaitToks
  split
  exacts [h.pendFault, .ite h.waitHere hf]

protected theorem Canonical.execCwait {o : CwaitOps} (h : Canonical s) : CanonicalOut (execCwait o s) := CanonicalRes.finish (h.awaitToks h) h

protected theorem Canonical.execWaitsw {o : S2ab} (h : Canonical s) : CanonicalOut (execWaitsw o s) := by
  refine CanonicalRes.finish (.ite trivial (.ite trivial ?_)) h
  split
  · trivial
  · exact h.readNow.res fun _ _ _ h1 => .ite h1 h.waitHere

protected theorem Canonical.barWaits (h : Canonical s) : Canonical (barWaits s va n) := h.putMe

protected theorem Canonical.barHere (h : Canonical s) : CanonicalRes (barHere s va a x y) :=
  .ite trivial h.reachDie.memWrite.reachFor.putMe.standNow.barWaits

protected theorem Canonical.execBar {o : BarOps} (h : Canonical s) : CanonicalOut (execBar o s) := by
  refine CanonicalRes.finish (.ite canonical_illegal (h.withPlace fun p s1 h1 => ?_)) h
  dsimp only
  split
  · exact h1.barWaits
  · split
    · exact h.waitFor
    · have h2 := h1.makeWay.some ‹_›
      split
      · exact h2.barHere
      · exact h2.barHere
      · trivial
      · trivial
      · split
        · exact h2.askPeer
        · split
          exacts [h.waitHere, h2.barWaits, trivial, trivial]

protected theorem Canonical.execEret (h : Canonical s) : CanonicalOut (execEret s) :=
  CanonicalRes.finish (.ite h.returnException.resendFlits.putMe canonical_illegal) h

protected theorem Canonical.execSysr {o : SysrOps} (h : Canonical s) : CanonicalOut (execSysr o s) :=
  CanonicalRes.finish (.ite canonical_illegal (.ite h.waitHere h.setS)) h

protected theorem Canonical.execSysw {o : SyswOps} (h : Canonical s) : CanonicalOut (execSysw o s) :=
  CanonicalRes.finish (.ite canonical_illegal (.ite h.waitHere h.putMe)) h

protected theorem Canonical.execYield (h : Canonical s) : CanonicalOut (execYield s) := Canonical.ite h h.putMe

end Sys2Proof.Machine
end

section
/-! SUPPORT. Canonical memory, fifth part: the vector unit and vector memory. -/

namespace Sys2Proof.Machine

variable {s t : State} {st : Strand} {sid : Nat} {n d q c k x y z : Nat} {b : List Byte} {va v : Word} {a : Access} {fl : FFlags} {i : Instr}

/-! The vector unit. -/

theorem CanonicalRes.withTy {u : Bool} {p : Nat → Bool} {f : Nat → Res} (hf : ∀ k, CanonicalRes (f k)) : CanonicalRes (withTy s i u p f) :=
  CanonicalRes.ite (hf _) canonical_illegal

protected theorem Canonical.velem {l : List (Nat × Nat)} {m : List Bool} {f : ElOp} (h : Canonical s) : CanonicalRes (velem s i l x y m f) := by
  unfold velem
  refine .ite canonical_illegal ?_
  split
  exacts [canonical_illegal, h.putMe]

protected theorem Canonical.vv {o : V3} {p : Nat → Bool} {f : Nat → ElOp} (h : Canonical s) : CanonicalOut (vv s i o p f) :=
  CanonicalRes.finish (.vecOnly (.withTy fun _ => h.velem)) h

protected theorem Canonical.vu {o : V2} {p : Nat → Bool} {f : Nat → ElOp} (h : Canonical s) : CanonicalOut (vu s i o p f) :=
  CanonicalRes.finish (.vecOnly (.withTy fun _ => h.velem)) h

protected theorem Canonical.vs {o : Vs3} {p : Nat → Bool} {f : Nat → ElOp} (h : Canonical s) : CanonicalOut (vs s i o p f) :=
  CanonicalRes.finish (.vecOnly (.withTy fun _ => h.velem)) h

protected theorem Canonical.vcompare {l : List (Nat × Nat)} {r : BitVec 3} {m : List Bool} {f : List Nat → Bool × FFlags} (h : Canonical s) :
    CanonicalRes (vcompare s i l r m f) := by
  unfold vcompare
  refine .ite canonical_illegal ?_
  split
  exacts [canonical_illegal, h.putMe]

protected theorem Canonical.predLogic {r : BitVec 3} {f : Nat → Bool} (h : Canonical s) : CanonicalOut (predLogic s i r f) :=
  CanonicalRes.finish (.vecOnly h.putMe) h

/-! Permutations, reductions and blocks. -/

protected theorem Canonical.vperm {l : List (Nat × Nat)} {r : List Bool} {f : List (List Nat) → Nat → Nat} (h : Canonical s) :
    CanonicalRes (vperm s i l x y r f) := by
  unfold vperm
  refine .ite canonical_illegal ?_
  split
  exacts [canonical_illegal, h.putMe]

theorem CanonicalRes.vreduce {l : List (Nat × Nat)} {r : List Bool} {f : List (List Nat) → Strand → Res} (hf : ∀ l st, CanonicalRes (f l st)) :
    CanonicalRes (vreduce s i l r f) := by
  unfold Machine.vreduce
  refine .ite canonical_illegal ?_
  split
  exacts [canonical_illegal, hf _ _]

protected theorem Canonical.execVscan {o : V3} (h : Canonical s) : CanonicalOut (execVscan o s) := by
  refine CanonicalRes.finish (.vecOnly (.withTy fun c => .ite canonical_illegal ?_)) h
  split
  exacts [canonical_illegal, h.putMe]

protected theorem Canonical.vredMinMax {o : VminOps} {u : Bool} (h : Canonical s) : CanonicalOut (vredMinMax s i o u) :=
  CanonicalRes.finish (.vecOnly (.withTy fun _ => .vreduce fun _ _ => .ite h.putMe h.putMe)) h

protected theorem Canonical.execVargmax {o : VminOps} (h : Canonical s) : CanonicalOut (execVargmax o s) := by
  refine CanonicalRes.finish (.vecOnly (.withTy fun c => .ite canonical_illegal ?_)) h
  split
  exacts [canonical_illegal, h.putMe]

protected theorem Canonical.execEarnd {o : EarndOps} (h : Canonical s) : CanonicalOut (execEarnd o s) :=
  CanonicalRes.finish (.vecOnly (.withTy fun _ => .ite trivial h.putMe)) h

protected theorem Canonical.execEald {o : EaldOps} (h : Canonical s) : CanonicalOut (execEald o s) := by
  refine CanonicalRes.finish (.vecOnly ?_) h
  dsimp only
  split
  exacts [canonical_illegal, h.putMe]

protected theorem Canonical.execEast {o : EastOps} (h : Canonical s) : CanonicalOut (execEast o s) :=
  CanonicalRes.finish (.vecOnly (.ite trivial h.putMe)) h

protected theorem Canonical.execVbq {o : VbqOps} (h : Canonical s) : CanonicalOut (execVbq o s) := by
  refine CanonicalRes.finish (.vecOnly (.ite canonical_illegal (.ite canonical_illegal (.ite canonical_illegal (.ite trivial (.ite canonical_illegal ?_)))))) h
  split
  exacts [canonical_illegal, h.putMe]

protected theorem Canonical.execVbdq {o : VbqOps} (h : Canonical s) : CanonicalOut (execVbdq o s) := by
  refine CanonicalRes.finish (.vecOnly (.withTy fun c => .ite canonical_illegal (.ite trivial ?_))) h
  dsimp only
  split
  · exact canonical_illegal
  · split
    exacts [trivial, h.putMe]

/-! Vector loads. -/

/-- Whether the state in which a load of elements ends, if any, has canonical memory. -/
def CanonicalLoad : LoadEnd → Prop
  | .done _ s => Canonical s
  | .stop _ _ => True
  | .wait s => Canonical s

theorem CanonicalLoad.done {r : LoadEnd} {l : List (Nat × Bool)} (h : CanonicalLoad r) (e : r = .done l s) : Canonical s := by subst e; exact h
theorem CanonicalLoad.wait {r : LoadEnd} (h : CanonicalLoad r) (e : r = .wait s) : Canonical s := by subst e; exact h

protected theorem Canonical.fillEls {l : List (El × Option Place)} (h : Canonical s) : Canonical (fillEls s l) :=
  h.foldl fun _ _ h => h.tlbFill.ite h

protected theorem Canonical.askAll {f : Place → Word → Access} {l : List (El × Option Place)} (h : Canonical s) : CanonicalOpt (askAll s f l) := by
  unfold askAll
  dsimp only
  split
  · trivial
  · split
    · exact h.waitFor
    · exact (h.makeWay.some ‹_›).foldl fun _ _ h => h.askPeer

protected theorem Canonical.keepRead {e : El} (h : Canonical s) : Canonical (keepRead s e b) := h.ite h.putMe

protected theorem Canonical.loadEls {rd : State → El → Place → Got} {p : El × Option Place → Bool} {l : List (El × Option Place)} (h : Canonical s)
    (hrd : ∀ s e p, Canonical s → CanonicalGot (rd s e p)) : CanonicalLoad (loadEls rd p s l) := by
  induction l generalizing s with
  | nil => exact h
  | cons e l ih =>
    obtain ⟨e, o⟩ := e
    unfold loadEls
    split
    · have h1 := ih h
      split
      exacts [h1.done ‹_›, trivial, h1.wait ‹_›]
    · split
      · have h1 := ih h
        split
        exacts [h1.wait ‹_›, h1.done ‹_›, h]
      · have h1 := hrd s e ‹_› h
        split
        · trivial
        · exact h1.wait ‹_›
        · have h2 := ih (h1.bytes ‹_›)
          split
          exacts [h2.done ‹_›, trivial, (h2.wait ‹_›).keepRead]

/-- A load of elements that reads each as a syllable does. -/
theorem Canonical.readEls {f : Place → Word → Access} {p : El × Option Place → Bool} {l l' : List (El × Option Place)} (h : Canonical s) :
    CanonicalLoad (loadEls (fun s e o => readNow s e.i (f o e.va)) p (fillEls s l) l') :=
  h.fillEls.loadEls fun _ _ _ h => h.readNow

protected theorem Canonical.partAt {f : Nat × Nat × Word} {upd : Strand → Strand} (h : Canonical s) : CanonicalRes (partAt s f upd) := h.rollback.putMe

protected theorem CanonicalLoad.loadFinish {r : LoadEnd} {sc : Scan} {upd : Strand → Strand} {updAt : Nat → Strand → Strand} (hr : CanonicalLoad r)
    (h : Canonical s) : CanonicalRes (loadFinish s q x y sc r upd updAt) := by
  unfold loadFinish
  dsimp only
  split
  · exact hr
  · exact h.partAt
  · split
    exacts [h.partAt, Canonical.putMe hr]

protected theorem Canonical.loadRun {o : Bool} {mk : Place → Word → Access} {sc : Scan} {p : El × Option Place → Bool} {upd : Strand → Strand}
    {updAt : Nat → Strand → Strand} (h : Canonical s) : CanonicalRes (loadRun s q x y o mk sc p upd updAt) := by
  unfold loadRun
  dsimp only
  split
  next heq =>
    split at heq
    · cases heq
    · exact h.askAll.some heq
  · exact (h.fillEls.loadEls fun _ _ _ h => h.readNow).loadFinish h

protected theorem Canonical.vload {o : VmOps} {f : Nat → Word} (h : Canonical s) : CanonicalOut (vload s i o f) :=
  CanonicalRes.finish (.vecOnly h.loadRun) h

/-! Vector stores, gathers, scatters and atomics. -/

protected theorem Canonical.storeRun {sc : Scan} {o : Bool} {mk : El → Place → Access} {upd : Strand → Strand} {updAt : Nat → Strand → Strand}
    (h : Canonical s) : CanonicalRes (storeRun s sc o mk upd updAt) := by
  unfold storeRun
  dsimp only
  split
  exacts [h.fillEls.putMe, h.partAt]

protected theorem Canonical.vstore {o : VmOps} {f : Nat → Word} (h : Canonical s) : CanonicalOut (vstore s i o f) := by
  refine CanonicalRes.finish (.vecOnly ?_) h
  dsimp only
  split
  exacts [canonical_illegal, .ite h.waitHere h.storeRun]

protected theorem Canonical.gather {o : VxOps} {u : Bool} (h : Canonical s) : CanonicalOut (gather s i o u) := by
  refine CanonicalRes.finish (.vecOnly ?_) h
  dsimp only
  split
  exacts [canonical_illegal, h.loadRun]

protected theorem Canonical.scatter {o : VxOps} {u : Bool} (h : Canonical s) : CanonicalOut (scatter s i o u) := by
  refine CanonicalRes.finish (.vecOnly ?_) h
  dsimp only
  split
  · exact canonical_illegal
  · split
    exacts [canonical_illegal, h.storeRun]

protected theorem Canonical.execVamo {o : VamoOps} (h : Canonical s) : CanonicalOut (execVamo o s) := by
  refine CanonicalRes.finish (.vecOnly ?_) h
  dsimp only
  split
  exacts [canonical_illegal, h.storeRun]

protected theorem Canonical.execVamoRet {o : VamoOps} (h : Canonical s) : CanonicalOut (execVamoRet o s) := by
  refine CanonicalRes.finish (.vecOnly ?_) h
  dsimp only
  split
  exacts [canonical_illegal, h.storeRun]

/-! Ordered vector memory by tickets. -/

theorem Canonical.withTickets (h : Canonical s) : Canonical { s with ord := { s.ord with nextTicket := n } } := h.withOrd (h.1.of_eq rfl rfl)

protected theorem Canonical.drawTickets (h : Canonical s) : Canonical (drawTickets s n).2 := by
  unfold drawTickets
  split
  exacts [h, h.withTickets.putMe]

protected theorem Canonical.readTicketed {e : El} (h : Canonical s) : CanonicalGot (readTicketed n s e a) := by
  unfold readTicketed
  split
  · split
    exacts [(h.readNow.bytes ‹_›).passTicket, h.readNow]
  · split
    exacts [h, h.waitHere]

protected theorem Canonical.skipRead (h : Canonical s) : CanonicalGot (skipRead s a) := h.queueItem

protected theorem Canonical.execVldsc {o : VscOps} (h : Canonical s) : CanonicalOut (execVldsc o s) := by
  refine CanonicalRes.finish (.vecOnly (.ite ?_ (.ite h ?_))) h
  · exact (h.loadEls fun _ _ _ h => h.skipRead).loadFinish h
  · split
    next heq =>
      have h1 := Canonical.ofSnd h.fillEls.drawTickets heq
      exact ((h1.ite h1.flushStrand).loadEls fun _ _ _ h => h.readTicketed).loadFinish h

protected theorem Canonical.execVstsc {o : VscOps} (h : Canonical s) : CanonicalOut (execVstsc o s) := by
  refine CanonicalRes.finish (.vecOnly ?_) h
  dsimp only
  split
  · exact canonical_illegal
  · split
    · exact (h.fillEls.ite h.fillEls.withTickets).putMe
    · exact (h.rollback.ite h.rollback.withTickets).putMe

end Sys2Proof.Machine
end

section
/-! SUPPORT. Canonical memory, sixth part: the engines, copies, sends and collectives. -/

namespace Sys2Proof.Machine

variable {s t : State} {st : Strand} {sid : Nat} {n d q c k x y z e : Nat} {b : List Byte} {va v : Word} {a : Access} {fl : FFlags} {i : Instr}
  {p : Path} {l : List Bool} {tk : Token} {upd : Strand → Strand} {updAt : Nat → Strand → Strand}

/-! Engine reads. -/

/-- Whether the state that an engine's read leaves, if any, has canonical memory. -/
def CanonicalEngGot : EngGot → Prop
  | .bytes _ _ => True
  | .asked s => Canonical s
  | .fail _ => True

theorem CanonicalEngGot.asked {r : EngGot} (h : CanonicalEngGot r) (e : r = .asked s) : Canonical s := by subst e; exact h

protected theorem CanonicalEngGot.ite {p : Prop} [Decidable p] {r r' : EngGot} (h : CanonicalEngGot r) (h' : CanonicalEngGot r') :
    CanonicalEngGot (if p then r else r') := by
  split
  · exact h
  · exact h'

protected theorem Canonical.chunkAsk {w : Nat} (h : Canonical s) : CanonicalEngGot (chunkAsk s sid n e d x y k p w b va) := by
  unfold chunkAsk
  dsimp only
  exact .ite (Canonical.withCur (Canonical.foldl h.withCur fun _ _ h => h.askPeer)) (.ite trivial (.ite h trivial))

protected theorem Canonical.engineRead (h : Canonical s) : CanonicalEngGot (engineRead s sid n e p va x y) := by
  unfold engineRead
  dsimp only
  split
  exacts [trivial, trivial, trivial, trivial, trivial, h.chunkAsk]

protected theorem Canonical.peerRead (h : Canonical s) : CanonicalEngGot (peerRead s sid n e x y) := by
  unfold peerRead
  exact .ite trivial (.ite (.ite trivial trivial) h.chunkAsk)

/-! Engine writes. -/

/-- Whether the state that an engine's write leaves, if any, has canonical memory. -/
def CanonicalEngPut : EngPut → Prop
  | .done s => Canonical s
  | .asked s => Canonical s
  | .fail _ => True

theorem CanonicalEngPut.done {r : EngPut} (h : CanonicalEngPut r) (e : r = .done s) : Canonical s := by subst e; exact h
theorem CanonicalEngPut.asked {r : EngPut} (h : CanonicalEngPut r) (e : r = .asked s) : Canonical s := by subst e; exact h

protected theorem CanonicalEngPut.ite {p : Prop} [Decidable p] {r r' : EngPut} (h : CanonicalEngPut r) (h' : CanonicalEngPut r') :
    CanonicalEngPut (if p then r else r') := by
  split
  · exact h
  · exact h'

protected theorem Canonical.poisonMem (h : Canonical s) : Canonical (poisonMem s x y) := h.withOrd (h.1.of_eq rfl rfl)
protected theorem Canonical.poisonSpad (h : Canonical s) : Canonical (poisonSpad s x y) := h.withOrd (h.1.of_eq rfl rfl)

protected theorem Canonical.markWords {f : State → Nat → Nat → State} (h : Canonical s) (hf : ∀ s x y, Canonical s → Canonical (f s x y)) :
    Canonical (markWords f n k l s) :=
  h.foldl fun _ _ h => (hf _ _ _ h).ite h

protected theorem Canonical.memWords (h : Canonical s) : Canonical (memWords s x y z b) := h.foldl fun _ _ h => h.memWrite

protected theorem Canonical.ownWrite (h : Canonical s) : CanonicalEngPut (ownWrite s sid n e x y b l) := by
  unfold ownWrite
  dsimp only
  split
  · exact .ite h h
  · have h1 : Canonical (markWords poisonMem x b.length l (memWords s y x y b)) := h.memWords.markWords fun _ _ _ h => h.poisonMem
    exact .ite h1 h1.putStrand

protected theorem Canonical.engineWrite (h : Canonical s) : CanonicalEngPut (engineWrite s sid n e p va x b l) := by
  unfold engineWrite
  dsimp only
  split
  · trivial
  · exact h.memWords.markWords fun _ _ _ h => h.poisonMem
  · exact h.ownWrite
  · exact h.spadWrite.markWords fun _ _ _ h => h.poisonSpad
  · trivial
  · refine .ite trivial ?_
    split
    exacts [h, h.chunkAsk.asked ‹_›, trivial]

/-! The elements of a copy. -/

/-- Whether the state that an element's move leaves, if any, has canonical memory. -/
def CanonicalElEnd : ElEnd → Prop
  | .landed s _ _ => Canonical s
  | .asked s => Canonical s
  | .fail _ _ => True

theorem CanonicalElEnd.landed {r : ElEnd} {u : Bool} (h : CanonicalElEnd r) (e : r = .landed s n u) : Canonical s := by subst e; exact h
theorem CanonicalElEnd.asked {r : ElEnd} (h : CanonicalElEnd r) (e : r = .asked s) : Canonical s := by subst e; exact h

protected theorem Canonical.moveEl (h : Canonical s) : CanonicalElEnd (moveEl s sid n tk e) := by
  unfold moveEl
  split
  · exact h
  · dsimp only
    split
    · trivial
    next heq => exact (CanonicalEngGot.ite h.peerRead h.engineRead).asked heq
    · split
      exacts [trivial, h.engineWrite.asked ‹_›, h.engineWrite.done ‹_›]

protected theorem Canonical.updTok {f : Token → Token} (h : Canonical s) : Canonical (updTok s sid k f) := h.putStrand

theorem Canonical.arrive {hc : List Nat} {u : Bool} (h : Canonical s) :
    Canonical { s with ord := (syncArrive (reach s.ord d hc) x n u).1 } :=
  h.withOrd (canonical_syncArrive _ _ _ _ (canonical_reach _ _ _ h.1))

protected theorem Canonical.landStep {o : Option Nat} (h : Canonical s) : CanonicalOpt (landStep s sid k e o) := by
  unfold landStep
  refine .ite trivial ?_
  split
  · have h1 := (h.moveEl.landed ‹_›).updTok (sid := sid) (k := k) (f := fun t => landEl { t with got := t.got.filter fun g => g.1 / 2048 != e } e)
    dsimp only
    split
    exacts [h1, h1.arrive]
  · exact h.moveEl.asked ‹_›
  · trivial

protected theorem Canonical.wordStep (h : Canonical s) : CanonicalOpt (wordStep s sid k e x) := by
  unfold wordStep
  refine .ite trivial ?_
  split
  · trivial
  · dsimp only
    split
    · trivial
    · split
      exacts [h.updTok, trivial]

protected theorem Canonical.pendAt (h : Canonical s) : Canonical (pendAt s sid k c v) := h.withCur.countBeyond.withCur.updTok.putStrand

protected theorem Canonical.faultStep {u : Bool} (h : Canonical s) : CanonicalOpt (faultStep s sid k e u) := by
  unfold faultStep
  refine .ite trivial ?_
  split
  · exact h.pendAt
  · split
    exacts [.ite trivial h.pendAt, trivial]

protected theorem Canonical.execEngineElementLand (h : Canonical s) : CanonicalOut (execEngineElementLand s) := by
  unfold execEngineElementLand
  dsimp only
  split
  next heq =>
    refine CanonicalOpt.some ?_ heq
    split
    exacts [h.landStep, h.landStep, h.wordStep, trivial]
  · trivial

protected theorem Canonical.execEngineElementFault (h : Canonical s) : CanonicalOut (execEngineElementFault s) := by
  unfold execEngineElementFault
  split
  · split
    exacts [h.faultStep.some ‹_›, trivial]
  · trivial

/-! The arming of copies, and the trunk's copies. -/

protected theorem Canonical.armAhead {r : Look} {u : Bool} (h : Canonical s) : CanonicalRes (armAhead s r k tk u upd n) :=
  .ite h.putMe.queueItem (.ite h.putMe h)

protected theorem Canonical.armCopy {u : Bool} (h : Canonical s) : CanonicalRes (armCopy s k tk n u upd updAt) := by
  unfold armCopy
  dsimp only
  split
  · exact h.putMe
  · refine .ite h.partAt ?_
    split
    · exact h.partAt
    · refine .ite h.waitHere ?_
      split
      exacts [h.armAhead, h.enterFor.putMe.flushStrand]

protected theorem Canonical.noteStep (h : Canonical s) : Canonical (noteStep s e) := h.putMe

protected theorem Canonical.trunkMove (h : Canonical s) : CanonicalRes (trunkMove tk n s e) := by
  induction n generalizing s e with
  | zero => exact h
  | succ n ih =>
    unfold trunkMove
    split
    exacts [ih (h.moveEl.landed ‹_›), (h.moveEl.asked ‹_›).noteStep, h.standNow.rollback]

protected theorem Canonical.trunkCopy {u : Bool} (h : Canonical s) : CanonicalRes (trunkCopy s tk u) := by
  refine .ite h.queueItem ?_
  split
  exacts [h.waitFor, (h.makeWay.some ‹_›).trunkMove]

protected theorem Canonical.execCopy {o : CopyOps} (h : Canonical s) : CanonicalOut (execCopy o s) :=
  CanonicalRes.finish (.ite canonical_illegal (.ite canonical_illegal (.ite h.partAt (.ite h.partAt (.ite h.trunkCopy h.armCopy))))) h

protected theorem Canonical.execXfetch {o : CopyOps} (h : Canonical s) : CanonicalOut (execXfetch o s) :=
  CanonicalRes.finish (.ite canonical_illegal (.ite h.partAt (.ite h.partAt (.ite h.trunkCopy h.armCopy)))) h

protected theorem Canonical.execGathsp {o : GathOps} (h : Canonical s) : CanonicalOut (execGathsp o s) := by
  refine CanonicalRes.finish (.vecOnly (.ite h.partAt (.ite h.partAt ?_))) h
  split
  exacts [canonical_illegal, h.armCopy]

/-! Sends (XSEND). -/

/-- Whether the state in which the reading of a send's elements ends, if any, has canonical memory. -/
def CanonicalSend : SendEnd → Prop
  | .done _ s => Canonical s
  | .stop _ _ => True
  | .wait s => Canonical s

theorem CanonicalSend.done {r : SendEnd} (h : CanonicalSend r) (e : r = .done b s) : Canonical s := by subst e; exact h
theorem CanonicalSend.wait {r : SendEnd} (h : CanonicalSend r) (e : r = .wait s) : Canonical s := by subst e; exact h

protected theorem Canonical.sendEls {u : Bool} {l : List (El × Option Place)} (h : Canonical s) : CanonicalSend (sendEls n u s l) := by
  induction l generalizing s with
  | nil => exact h
  | cons e l ih =>
    obtain ⟨e, o⟩ := e
    unfold sendEls
    split
    · trivial
    · split
      · exact h.readWide.wait ‹_›
      · trivial
      · have h1 := ih (h.readWide.bytes ‹_›)
        split
        exacts [h1.done ‹_›, trivial, h1.wait ‹_›]

protected theorem Canonical.trunkSend {l : List QItem} (h : Canonical s) : CanonicalRes (trunkSend n s l k) := by
  induction l generalizing s k with
  | nil => exact h
  | cons r l ih =>
    cases r with
    | acc a =>
      unfold trunkSend
      split
      · split
        · exact h.waitFor.noteStep
        · exact .ite (ih (h.makeWay.some ‹_›).fragLand) h.standNow.rollback
      · split
        · split
          exacts [h.waitFor.noteStep, (h.makeWay.some ‹_›).askWire.noteStep]
        · split
          exacts [h.waitHere.noteStep, ih h, h.standNow.rollback]
      · trivial
    | _ => exact ih h

protected theorem Canonical.execXsend {o : XsendOps} (h : Canonical s) : CanonicalOut (execXsend o s) := by
  unfold execXsend
  extract_lets st n w src count start lo els part
  have hpart : ∀ b f, CanonicalRes (part b f) := fun b f => .ite trivial h.partAt
  refine CanonicalRes.finish (.ite h.partAt (.ite (hpart _ _) ?_)) h
  split
  · exact h.askAll.some ‹_›
  · split
    · exact h.fillEls.sendEls.wait ‹_›
    · exact hpart _ _
    · have h1 := h.fillEls.sendEls.done ‹_›
      split
      exacts [hpart _ _, .ite h1.putMe.trunkSend h1.putMe.putMe]

end Sys2Proof.Machine
end

section
/-! SUPPORT. Canonical memory, seventh part: collectives, matrix holds and races. -/

namespace Sys2Proof.Machine

variable {s t : State} {st : Strand} {sid : Nat} {n d q c k x y z e m : Nat} {b : List Byte} {va v : Word} {a : Access} {fl : FFlags} {i : Instr}

/-! Collectives. -/

protected theorem Canonical.collLand (h : Canonical s) : Canonical (collLand s n k x y b) := by
  unfold collLand
  extract_lets o1 o2 gen
  have h1 : CanonicalOrd o1 := canonical_spadWrite _ _ _ h.1
  have h2 : CanonicalOrd o2 := by
    unfold o2
    split
    exacts [h1, h1.of_eq rfl rfl]
  have h3 : Canonical { s with ord := (syncArrive o2 x b.length false).1 } := h.withOrd (canonical_syncArrive _ _ _ _ h2)
  clear_value gen o2
  dsimp only
  exact h3.traceStep.ite h3

/-- Whether the state that a descriptor's read leaves, if any, has canonical memory. -/
def CanonicalColl {α : Type} : CollGot α → Prop
  | .ok _ s => Canonical s
  | .fail _ _ => True
  | .wait s => Canonical s

theorem CanonicalColl.ok {α : Type} {r : CollGot α} {u : α} (h : CanonicalColl r) (e : r = .ok u s) : Canonical s := by subst e; exact h
theorem CanonicalColl.wait {α : Type} {r : CollGot α} (h : CanonicalColl r) (e : r = .wait s) : Canonical s := by subst e; exact h

protected theorem CanonicalColl.ite {α : Type} {p : Prop} [Decidable p] {r r' : CollGot α} (h : CanonicalColl r) (h' : CanonicalColl r') :
    CanonicalColl (if p then r else r') := by
  split
  · exact h
  · exact h'

protected theorem Canonical.descWord (h : Canonical s) : CanonicalColl (descWord s va k) := by
  unfold descWord
  split
  · trivial
  · split
    exacts [h.readNow.wait ‹_›, trivial, (h.readNow.bytes ‹_›).keepRead]

protected theorem Canonical.descHead (h : Canonical s) : CanonicalColl (descHead s n va x y) := by
  unfold descHead
  split
  · exact h.descWord.wait ‹_›
  · trivial
  · refine .ite trivial ?_
    have h1 := h.descWord.ok ‹_›
    split
    · exact h1.descWord.wait ‹_›
    · trivial
    · refine .ite trivial ?_
      have h2 := h1.descWord.ok ‹_›
      dsimp only
      split
      exacts [h2.descWord.wait ‹_›, trivial, .ite (h2.descWord.ok ‹_›) trivial]

protected theorem Canonical.descOthers {l : List Nat} (h : Canonical s) : CanonicalColl (descOthers va x y s l) := by
  induction l generalizing s with
  | nil => exact h
  | cons r l ih =>
    unfold descOthers
    refine .ite (ih h) ?_
    dsimp only
    split
    · exact h.descWord.wait ‹_›
    · trivial
    · refine .ite trivial ?_
      have h1 := ih (h.descWord.ok ‹_›)
      split
      exacts [h1.ok ‹_›, trivial, h1.wait ‹_›]

protected theorem Canonical.addNote {r : Option Reply} (h : Canonical s) : Canonical (addNote s m x y r) := h.putMe

protected theorem Canonical.collSend {f : Nat × Nat × Nat × Nat × Nat} (h : Canonical s) : CanonicalOpt (collSend s m n b f) := by
  unfold collSend
  dsimp only
  refine .ite h.addNote (.ite (.ite h.collLand.addNote h.addNote) ?_)
  split
  exacts [trivial, h.withFabric.addNote]

protected theorem Canonical.collSends {l : List (Nat × Nat × Nat × Nat × Nat)} (h : Canonical s) : Canonical (collSends m n b s l) := by
  induction l generalizing s with
  | nil => exact h
  | cons r l ih =>
    unfold collSends
    split
    exacts [h, ih (h.collSend.some ‹_›)]

protected theorem Canonical.collOwn (h : Canonical s) : Canonical (collOwn s m n x y b) := (h.ite h.collLand).putMe.addNote

protected theorem Canonical.collStart {l : List (Nat × Nat × Nat × Nat × Nat)} (h : Canonical s) : Canonical (collStart s m n x y l) :=
  h.ite h.withFabric.collStarts.addNote

protected theorem Canonical.collFault {l : List (Nat × Nat × Nat × Nat × Nat)} (h : Canonical s) : CanonicalRes (collFault s m l) := by
  unfold collFault
  dsimp only
  exact h.freeWord.partAt

protected theorem Canonical.collDone (h : Canonical s) : Canonical (collDone s m) := h.putMe
protected theorem Canonical.collPassed (h : Canonical s) : Canonical (collPassed s) := h.queueItem

protected theorem Canonical.collRun {l : List (Nat × Nat)} (h : Canonical s) : CanonicalRes (collRun s n x y b k l) := by
  unfold collRun
  extract_lets m fs fresh s1 missing s2 notes landed
  split
  · exact h.collPassed
  · have h1 : Canonical s1 := h.collOwn.ite h
    have h2 : Canonical s2 := h1.collSends.collStart
    clear_value s1 missing s2
    exact .ite h2.collDone (.ite h2 (.ite h.collFault h2.waitHere))

protected theorem Canonical.collStop (h : Canonical s) : CanonicalRes (collStop s c va) := .ite h.collPassed h.partAt

protected theorem Canonical.collective {o : S3} (h : Canonical s) : CanonicalOut (collective s i o n) := by
  unfold collective
  extract_lets w d src n count idx
  refine CanonicalRes.finish (.ite canonical_illegal (.ite h (.ite h.collStop ?_))) h
  split
  · exact h.descHead.wait ‹_›
  · exact h.collStop
  · have h1 := h.descHead.ok ‹_›
    extract_lets st spad
    clear_value spad
    split
    · exact h.collStop
    · refine .ite h1.collRun ?_
      split
      · exact h1.descOthers.wait ‹_›
      · exact h.collStop
      · have h2 := h1.descOthers.ok ‹_›
        dsimp only
        split
        · exact h2.askAll.some ‹_›
        · split
          · exact h.collStop
          · split
            · exact h2.fillEls.sendEls.wait ‹_›
            · exact h.collStop
            · exact Canonical.collRun ((h2.fillEls.sendEls.done ‹_›).foldl fun _ _ h => h.keepRead)

/-! Matrix holds. -/

theorem Canonical.withMx {l : NMap (List MxHold)} (h : Canonical s) : Canonical { s with mx := l } := h

protected theorem Canonical.mxDrop (h : Canonical s) : Canonical (mxDrop s st) := h
protected theorem Canonical.putHold {r : MxHold} (h : Canonical s) : Canonical (putHold s r) := h.mxDrop.withMx

protected theorem Canonical.execMxatt {o : S2} (h : Canonical s) : CanonicalOut (execMxatt o s) :=
  CanonicalRes.finish (.vecOnly (.ite canonical_illegal (h.mxDrop.ite h.mxDrop.putHold).setS)) h

protected theorem Canonical.execMxlds {o : MxldsOps} (h : Canonical s) : CanonicalOut (execMxlds o s) := by
  refine CanonicalRes.finish (.vecOnly (.ite canonical_illegal (.ite h ?_))) h
  split
  · exact canonical_illegal
  · extract_lets r p put
    have hput : ∀ p, CanonicalRes (put p) := fun _ => h.putMe.putHold
    clear_value p put
    split
    · split
      exacts [trivial, hput _]
    · split
      exacts [trivial, hput _]

protected theorem Canonical.execMxswap (h : Canonical s) : CanonicalOut (execMxswap s) := by
  refine CanonicalRes.finish (.vecOnly ?_) h
  split
  exacts [h, h.putHold]

protected theorem Canonical.execMxstrm {o : MxstrmOps} (h : Canonical s) : CanonicalOut (execMxstrm o s) := by
  refine CanonicalRes.finish (.vecOnly (.ite canonical_illegal (.ite h ?_))) h
  dsimp only
  split
  · exact canonical_illegal
  · split
    exacts [trivial, h.putMe.putHold]

protected theorem Canonical.execMxdrain {o : MxdrainOps} (h : Canonical s) : CanonicalOut (execMxdrain o s) := by
  refine CanonicalRes.finish (.vecOnly (.ite canonical_illegal (.ite trivial ?_))) h
  dsimp only
  split
  exacts [h.partAt, h.putMe]

protected theorem Canonical.execMxclr {o : S2ab} (h : Canonical s) : CanonicalOut (execMxclr o s) :=
  CanonicalRes.finish (.vecOnly (.ite canonical_illegal h.putHold)) h

end Sys2Proof.Machine
end

section
/-! SUPPORT. Canonical memory, eighth part: races. -/

namespace Sys2Proof.Machine

variable {s t : State} {st : Strand} {sid : Nat} {n d q c k x y z e m : Nat} {b : List Byte} {va v : Word} {a : Access} {fl : FFlags} {i : Instr}
  {u : Bool} {r : RaceCtx}

/-! Contexts and their blocks. -/

theorem Canonical.withRaceOps (h : Canonical s) : Canonical { s with raceOps := n } := h

protected theorem Canonical.abortCtx (h : Canonical s) : Canonical (abortCtx s n c) := h.putRace

protected theorem Canonical.queueBlock {w : Acc} {kd : AccKind} (h : Canonical s) : Canonical (queueBlock s n x y w kd u) := by
  unfold queueBlock
  dsimp only
  split
  exacts [h.abortCtx, h.putStrand]

protected theorem Canonical.blockAtomic {op : AtomOp} (h : Canonical s) : Canonical (blockAtomic s n x y op z u) := h.queueBlock
protected theorem Canonical.blockWrite (h : Canonical s) : Canonical (blockWrite s n x y u) := h.queueBlock
protected theorem Canonical.putLeader (h : Canonical s) : Canonical (putLeader s n r) := h.putRace.blockAtomic.ite h.putRace

protected theorem Canonical.activeEmpty (h : Canonical s) : Canonical (activeEmpty s n) :=
  h.putRace.ite (h.blockAtomic.ite (h.ite h.putRace))

protected theorem Canonical.withCtx {w : BitVec 5} {f : Nat → State → Res} (h : Canonical s) (hf : ∀ c s, Canonical s → CanonicalRes (f c s)) :
    CanonicalRes (withCtx s w u f) :=
  .ite trivial (.ite trivial (.ite h.waitHere (hf _ _ h.withRaceOps)))

protected theorem Canonical.freshMe (h : Canonical s) : Canonical (freshMe s n) := h.putMe

protected theorem Canonical.freshBlock (h : Canonical s) : Canonical (freshBlock s n) := by
  unfold freshBlock
  split
  exacts [h, h.putStrand]

protected theorem Canonical.execRcinit {o : RcinitOps} (h : Canonical s) : CanonicalOut (execRcinit o s) :=
  CanonicalRes.finish (h.withCtx fun _ _ h => .ite h.freshMe h.putRace.freshBlock.freshMe) h

protected theorem Canonical.execRcnoise {o : RcvOps} (h : Canonical s) : CanonicalOut (execRcnoise o s) :=
  CanonicalRes.finish (.vecOnly (h.withCtx fun _ _ h => h.freshMe.velem)) h

/-! The table reads of a presentation. -/

/-- Whether the state that a table's read leaves, if any, has canonical memory. -/
def CanonicalTab : TabGot → Prop
  | .ok _ _ s => Canonical s
  | .fail _ _ => True
  | .wait s => Canonical s

theorem CanonicalTab.ok {r : TabGot} {w : Adjust} (h : CanonicalTab r) (e : r = .ok n w s) : Canonical s := by subst e; exact h
theorem CanonicalTab.wait {r : TabGot} (h : CanonicalTab r) (e : r = .wait s) : Canonical s := by subst e; exact h

protected theorem Canonical.tableRead (h : Canonical s) : CanonicalGot (tableRead s n va k) := by
  unfold tableRead
  split
  exacts [trivial, trivial, h.readNow]

protected theorem Canonical.tokenTables (h : Canonical s) : CanonicalTab (tokenTables s r n k) := by
  unfold tokenTables
  dsimp only
  split
  · exact h.tableRead.wait ‹_›
  · trivial
  · have h1 := h.tableRead.bytes ‹_›
    split
    · exact h1
    · split
      exacts [h1.tableRead.wait ‹_›, trivial, h1.tableRead.bytes ‹_›]

/-- Whether the state in which the elements' visit ends, if any, has canonical memory. -/
def CanonicalVisit : RcEnd → Prop
  | .done _ s => Canonical s
  | .full _ _ _ s => Canonical s
  | .fail _ _ _ _ => True
  | .wait s => Canonical s

theorem CanonicalVisit.done {r : RcEnd} {l : List RcEl} (h : CanonicalVisit r) (e : r = .done l s) : Canonical s := by subst e; exact h
theorem CanonicalVisit.full {r : RcEnd} {l : List RcEl} (h : CanonicalVisit r) (e : r = .full l n k s) : Canonical s := by subst e; exact h
theorem CanonicalVisit.wait {r : RcEnd} (h : CanonicalVisit r) (e : r = .wait s) : Canonical s := by subst e; exact h

theorem CanonicalVisit.cons {r : RcEnd} {e : RcEl} (h : CanonicalVisit r) : CanonicalVisit (RcEnd.cons e r) := by
  cases r with
  | done l s => exact h
  | full l i t s => exact h
  | fail l i c va => trivial
  | wait s => exact h

protected theorem CanonicalVisit.ite {p : Prop} [Decidable p] {r r' : RcEnd} (h : CanonicalVisit r) (h' : CanonicalVisit r') :
    CanonicalVisit (if p then r else r') := by
  split
  · exact h
  · exact h'

protected theorem Canonical.visitEls {w : RaceBind} {l : List (Nat × Nat)} (h : Canonical s) : CanonicalVisit (visitEls k s r w l) := by
  induction l generalizing s r w with
  | nil => exact h
  | cons e l ih =>
    obtain ⟨e, c⟩ := e
    unfold visitEls
    dsimp only
    refine .ite h (.ite (ih h).cons ?_)
    split
    exacts [h.tokenTables.wait ‹_›, trivial, (ih (h.tokenTables.ok ‹_›)).cons]

protected theorem Canonical.rcApply {l : List RcEl} (h : Canonical s) : Canonical (rcApply s n k x y l) := Canonical.putMe h.putRace

protected theorem Canonical.execRcbound {o : RcvOps} (h : Canonical s) : CanonicalOut (execRcbound o s) := by
  refine CanonicalRes.finish (.vecOnly (h.withCtx fun c s1 h1 => .ite canonical_illegal ?_)) h
  split
  · exact canonical_illegal
  · refine .ite h1.freshMe.putMe.putMe ?_
    have h2 := fun x t r w l => (h1.freshMe (n := c).putMe (st := x)).visitEls (k := t) (r := r) (w := w) (l := l)
    split
    · exact (h2 _ _ _ _ _).wait ‹_›
    · exact ((h2 _ _ _ _ _).done ‹_›).rcApply
    · exact .ite h.partAt ((h2 _ _ _ _ _).full ‹_›).rcApply.putMe
    · exact h.rollback.freshMe.rcApply.putMe

protected theorem Canonical.execRcpick {o : RcpickOps} (h : Canonical s) : CanonicalOut (execRcpick o s) := by
  refine CanonicalRes.finish (h.withCtx fun c s1 h1 => .ite h1.freshMe.setS ?_) h
  split
  exacts [h1.freshMe.setS, h1.freshMe.putMe.setS]

protected theorem Canonical.execRcupd {o : RcupdOps} (h : Canonical s) : CanonicalOut (execRcupd o s) := by
  refine CanonicalRes.finish (h.withCtx fun c s1 h1 => .ite h1.freshMe ?_) h
  split
  exacts [h1.freshMe.tokenTables.wait ‹_›, h.partAt, (h1.freshMe.tokenTables.ok ‹_›).putLeader.addFlags]

/-! The leader's read, and the drop of a shard. -/

/-- Whether the state that a leader's read leaves, if any, has canonical memory. -/
def CanonicalLead : LeadGot → Prop
  | .key _ => True
  | .failed => True
  | .wait s => Canonical s

theorem CanonicalLead.wait {r : LeadGot} (h : CanonicalLead r) (e : r = .wait s) : Canonical s := by subst e; exact h

protected theorem CanonicalLead.ite {p : Prop} [Decidable p] {r r' : LeadGot} (h : CanonicalLead r) (h' : CanonicalLead r') :
    CanonicalLead (if p then r else r') := by
  split
  · exact h
  · exact h'

protected theorem Canonical.askRace (h : Canonical s) : Canonical (askRace s x y n va) := by
  unfold askRace
  dsimp only
  split
  exacts [h, h.withFabric.putMe]

protected theorem Canonical.readLeaderm (h : Canonical s) : CanonicalLead (readLeaderm s n) := by
  unfold readLeaderm
  dsimp only
  split
  · trivial
  · exact .ite trivial trivial
  · exact .ite trivial trivial
  · split
    · exact h.askRace
    · split
      exacts [h.waitHere, trivial, trivial]
  · trivial

protected theorem Canonical.dropShard (h : Canonical s) : Canonical (dropShard s n x y) :=
  Canonical.ite (h.putMe.putRace.activeEmpty.ite h.putMe.putRace) h.putMe

protected theorem Canonical.execRcdrop {o : RcdropOps} (h : Canonical s) : CanonicalOut (execRcdrop o s) := by
  unfold execRcdrop
  extract_lets pd yes go
  have hgo : CanonicalRes (go ()) := by
    refine h.withCtx fun c s1 h1 => .ite h1.freshMe.putMe (.ite ?_ h1.freshMe.dropShard)
    split
    exacts [h.readLeaderm.wait ‹_›, h1.freshMe.abortCtx.putMe, h1.freshMe.dropShard]
  exact CanonicalRes.finish (.ite hgo (.vecOnly hgo)) h

protected theorem Canonical.execRcwait {o : RcwaitOps} (h : Canonical s) : CanonicalOut (execRcwait o s) :=
  CanonicalRes.finish (h.withCtx fun _ _ h1 => .ite h.waitHere h1.freshMe) h

protected theorem Canonical.execRcread {o : RcreadOps} (h : Canonical s) : CanonicalOut (execRcread o s) :=
  CanonicalRes.finish (h.withCtx fun _ _ h => h.freshMe.setS) h

protected theorem Canonical.abortBySet (h : Canonical s) : Canonical (abortBySet s n) := h.ite (h.abortCtx.blockWrite.ite h.abortCtx)

protected theorem Canonical.execRcset {o : RcsetOps} (h : Canonical s) : CanonicalOut (execRcset o s) := by
  refine CanonicalRes.finish (.ite canonical_illegal (h.withCtx fun c s1 h1 => .ite h1.freshMe.abortBySet (.ite (.ite h1.freshMe h1.freshMe.putMe)
    (.ite h1.freshMe ?_)))) h
  split
  exacts [h1.freshMe.putRace, h1.freshMe]

/-! The home's and the members' steps. -/

/-- Whether the state that a poll of the race's block leaves, if any, has canonical memory. -/
def CanonicalPoll : Poll → Prop
  | .bytes _ s => Canonical s
  | .failed => True
  | .asked s => Canonical s
  | .waiting => True

theorem CanonicalPoll.bytes {r : Poll} (h : CanonicalPoll r) (e : r = .bytes b s) : Canonical s := by subst e; exact h
theorem CanonicalPoll.asked {r : Poll} (h : CanonicalPoll r) (e : r = .asked s) : Canonical s := by subst e; exact h

protected theorem CanonicalPoll.ite {p : Prop} [Decidable p] {r r' : Poll} (h : CanonicalPoll r) (h' : CanonicalPoll r') :
    CanonicalPoll (if p then r else r') := by
  split
  · exact h
  · exact h'

protected theorem Canonical.pollBlock (h : Canonical s) : CanonicalPoll (pollBlock s n x k) := by
  unfold pollBlock
  dsimp only
  split
  · trivial
  · exact .ite trivial h
  · exact .ite trivial h
  · split
    · split
      exacts [trivial, h.withFabric.putStrand]
    · split
      exacts [trivial, h.putStrand, trivial]
  · trivial

protected theorem Canonical.abortBlock (h : Canonical s) : Canonical (abortBlock s n c) := h.putStrand.abortCtx

protected theorem Canonical.homeStep (h : Canonical s) : CanonicalOpt (homeStep s n u) := by
  unfold homeStep
  refine .ite trivial ?_
  split
  next b s1 heq =>
    have h1 := h.pollBlock.bytes heq
    dsimp only
    generalize leAt b = word
    exact .ite (.ite h1.blockWrite.blockWrite trivial) (.ite h1.putRace trivial)
  · exact h.abortBlock
  · exact h.pollBlock.asked ‹_›
  · trivial

protected theorem Canonical.mergeMember (h : Canonical s) : Canonical (mergeMember s n x) :=
  h.putRace.blockAtomic.blockAtomic.blockAtomic.blockAtomic.blockAtomic

protected theorem Canonical.endMember (h : Canonical s) : Canonical (endMember s n x) := h.putRace

protected theorem Canonical.memberStep (h : Canonical s) : CanonicalOpt (memberStep s n u) := by
  unfold memberStep
  refine .ite trivial ?_
  split
  · exact .ite h.endMember trivial
  · split
    · trivial
    · exact h.abortBlock
    · exact h.pollBlock.asked ‹_›
    next b s1 heq =>
      have h1 := h.pollBlock.bytes heq
      generalize leAt b = word
      exact .ite (.ite h1.abortCtx trivial) (.ite (.ite trivial h1.mergeMember) (.ite trivial h1))

protected theorem Canonical.raceEvent {w : String} {f : Nat → Option State} (hf : ∀ c, CanonicalOpt (f c)) : CanonicalOut (raceEvent s w f) := by
  unfold raceEvent
  split
  · split
    exacts [(hf _).some ‹_›, trivial]
  · trivial

protected theorem Canonical.raceLates (h : Canonical s) : Canonical (raceLates s) := by
  unfold raceLates
  extract_lets s1 w
  have h1 : Canonical s1 := h.foldl fun _ _ h => h.ite h.putStrand.abortCtx
  clear_value s1
  exact h1.ite h1.putStrand

end Sys2Proof.Machine
end

section
/-! SUPPORT. Canonical memory, ninth part: the end of strands, launches, dispatch and preemption. -/

namespace Sys2Proof.Machine

variable {s t : State} {st : Strand} {sid : Nat} {n d q c k x y z e m : Nat} {b : List Byte} {va v : Word} {a : Access} {fl : FFlags} {i : Instr}
  {u : Bool} {r : Record} {o : Option Record} {name : String}

/-- An event that leads to a state with canonical memory, where it may happen. -/
theorem CanonicalOpt.event {o : Option State} (h : CanonicalOpt o) : CanonicalOut (event name o) := by
  cases o with
  | none => trivial
  | some t => exact h

/-- An operation that may happen under its condition alone. -/
theorem CanonicalOpt.guard {p : Prop} [Decidable p] {o : Option State} (h : CanonicalOpt o) : CanonicalOpt (if p then o else Option.none) :=
  CanonicalOpt.ite h trivial

theorem Canonical.withOrder (h : Canonical s) : Canonical { s with orderNo := n } := h

/-! The end of a strand. -/

protected theorem Canonical.releaseHold (h : Canonical s) : Canonical (releaseHold s st) := by
  unfold releaseHold
  split
  exacts [h, h]

protected theorem Canonical.releaseSlot (h : Canonical s) : Canonical (releaseSlot s st) := by
  unfold releaseSlot
  split
  exacts [h, h.putDisp.withStrands]

protected theorem Canonical.takeOff (h : Canonical s) : Canonical (takeOff s st o) := by
  unfold takeOff
  extract_lets s1 s2
  have h2 : Canonical s2 := (h.releaseHold.releaseSlot (st := st)).withStrands
  clear_value s2
  split
  · exact h2
  · exact (h2.setCont.ite h2).subCell

protected theorem Canonical.endStrand (h : Canonical s) : Canonical (endStrand s st o) := h.takeOff.serveFaults

protected theorem Canonical.doneEnd (h : Canonical s) : CanonicalRes (doneEnd s o) := by
  have h1 : Canonical (enterAll s) := h.enterAll
  unfold doneEnd
  dsimp only
  generalize enterAll s = s1 at h1
  exact .ite (h.waitOr h1) h1.writeMarks.endStrand

protected theorem Canonical.execDone {o : S1a} (h : Canonical s) : CanonicalOut (execDone o s) := by
  have h1 : Canonical (flushStrand s s.cur) := h.flushStrand
  unfold execDone
  dsimp only
  generalize flushStrand s s.cur = s1 at h1
  exact CanonicalRes.finish (.ite canonical_illegal (.ite h.waitHere (h1.awaitToks (.ite h1.doneEnd
    (h1.withPlace fun _ _ h2 => h2.readNow.res fun _ _ _ h3 => .ite trivial h3.doneEnd))))) h

/-! Launches and cancels of syllables. -/

protected theorem Canonical.enqueueLaunch {w : BitVec 5} {p : Place} (h : Canonical s) : Canonical (enqueueLaunch s q w p b) := by
  unfold enqueueLaunch
  extract_lets r w3 s1 s2 e s3 s4
  have h1 : Canonical s1 := h.addCell.ite h
  have h2 : Canonical s2 := by
    unfold s2
    split
    exacts [h1.memWrite, h1.memWrite, h1.unitSend, h1]
  have h3 : Canonical s3 := h2.reachDie
  have h4 : Canonical s4 := h3.putQueue
  exact h4.putMe.standNow.setS

protected theorem Canonical.execLaunch {o : S3} (h : Canonical s) : CanonicalOut (execLaunch o s) := by
  refine CanonicalRes.finish (.ite canonical_illegal ?_) h
  split
  · exact h.setS
  · refine h.withPlace fun p s1 h1 => h1.readNow.res fun b fl s2 h2 => .ite trivial (.ite trivial (.ite trivial (.ite h.waitHere ?_)))
    split
    exacts [trivial, h2.enqueueLaunch]

protected theorem Canonical.serveAll (h : Canonical s) : Canonical (serveAll s) := h.foldl fun _ _ h => h.serveFaults

protected theorem Canonical.execCancel {o : S3} (h : Canonical s) : CanonicalOut (execCancel o s) := by
  refine CanonicalRes.finish ?_ h
  dsimp only
  split
  exacts [h.setS, trivial, h.cancelLaunch.serveAll.putMe.standNow.setS]

/-! Dispatch. -/

protected theorem Canonical.notePassed (h : Canonical s) : Canonical (notePassed s d) := h

protected theorem Canonical.placeFresh {l : List Nat} (h : Canonical s) : Canonical (placeFresh s r c d k l) := by
  induction l generalizing s k with
  | nil => exact h
  | cons n l ih => exact ih h.putStrand

protected theorem Canonical.countDispatched (h : Canonical s) : Canonical (countDispatched s r) := h.updLaunch

protected theorem Canonical.dispatchFresh {l : List Nat} (h : Canonical s) : Canonical (dispatchFresh s r d l) := by
  unfold dispatchFresh
  dsimp only
  exact h.allocCell.reachDie.countDispatched.placeFresh.withOrder

theorem Canonical.inPlace (h : Canonical s) : Canonical { s with cur := n, slot := k } := h

protected theorem Canonical.restoreTo {w : Saved} (h : Canonical s) : Canonical (restoreTo s d sid n w r) := by
  unfold restoreTo
  extract_lets x st bad rpt st1 s1 wd s2
  have h1 : Canonical s1 := Canonical.resendFlits (Canonical.moveFlits h.putStrand)
  clear_value s1 bad
  exact h1.inPlace.takeException.inPlace.ite h1

protected theorem Canonical.restoreAll {l l' : List Nat} (h : Canonical s) : Canonical (restoreAll s r d l l') := by
  induction l generalizing s l' with
  | nil => exact h
  | cons n l ih =>
    cases l' with
    | nil => exact h
    | cons k l' =>
      refine ih ?_
      split
      exacts [h.restoreTo, h]

theorem Canonical.withQueues {l : List Record} {l' : NMap Dispatcher} (h : Canonical s) : Canonical { s with ready := l, disp := l' } := h

protected theorem Canonical.dispatchRec {l : List Nat} (h : Canonical s) : Canonical (dispatchRec s r d l) :=
  Canonical.ite h.withQueues.restoreAll.withOrder h.withQueues.dispatchFresh

protected theorem Canonical.dispatchStep {l : List Nat} (h : Canonical s) : CanonicalOpt (dispatchStep s d l) := by
  unfold dispatchStep
  refine .ite trivial ?_
  split
  exacts [trivial, .ite h.notePassed.putDisp.dispatchRec trivial]

protected theorem Canonical.execRecordDispatch (h : Canonical s) : CanonicalOut (execRecordDispatch s) := by
  unfold execRecordDispatch
  split
  exacts [h.dispatchStep.event, trivial]

protected theorem Canonical.reserveStep (h : Canonical s) : Canonical (reserveStep s d) := by
  refine h.foldl fun s x h => Canonical.ite ?_ h
  split
  exacts [h.putDisp, h]

protected theorem Canonical.agingStep (h : Canonical s) : CanonicalOpt (agingStep s d) := .ite trivial h.notePassed.reserveStep

protected theorem Canonical.execAgingQuantum (h : Canonical s) : CanonicalOut (execAgingQuantum s) := by
  unfold execAgingQuantum
  split
  exacts [h.agingStep.event, trivial]

/-! Preemption. -/

protected theorem Canonical.beginDrain (h : Canonical s) : Canonical (beginDrain s st) := h.foldl fun _ _ h => h.putStrand

protected theorem Canonical.preemptPrio (h : Canonical s) : CanonicalOpt (preemptPrio s d n) := by
  unfold preemptPrio
  split
  · trivial
  · refine .ite trivial ?_
    split
    exacts [trivial, .ite h.beginDrain trivial]

protected theorem Canonical.execPreemptPriority (h : Canonical s) : CanonicalOut (execPreemptPriority s) := by
  unfold execPreemptPriority
  split
  exacts [h.preemptPrio.event, trivial]

protected theorem Canonical.preemptQuantum (h : Canonical s) : CanonicalOpt (preemptQuantum s sid) := .ite h.beginDrain trivial

protected theorem Canonical.execPreemptionQuantum (h : Canonical s) : CanonicalOut (execPreemptionQuantum s) := by
  unfold execPreemptionQuantum
  split
  exacts [h.preemptQuantum.event, trivial]

protected theorem Canonical.preemptSave (h : Canonical s) : CanonicalOpt (preemptSave s sid) :=
  .ite trivial (.ite (Canonical.foldl h fun _ _ h => h.putStrand) (.ite trivial h.saveAll.enqueueRec))

protected theorem Canonical.execPreemptSave (h : Canonical s) : CanonicalOut (execPreemptSave s) := by
  unfold execPreemptSave
  split
  exacts [h.preemptSave.event, trivial]

/-! Events of the dispatcher's registers and of the work queues. -/

protected theorem Canonical.execSaveSlotFreed (h : Canonical s) : CanonicalOut (execSaveSlotFreed s) := by
  unfold execSaveSlotFreed
  split
  exacts [CanonicalOpt.event (.guard h.serveFaults), trivial]

protected theorem Canonical.execResumew (h : Canonical s) : CanonicalOut (execResumew s) := by
  unfold execResumew
  split
  exacts [CanonicalOpt.event (.guard h.resumeRecord), trivial]

protected theorem Canonical.execKillw (h : Canonical s) : CanonicalOut (execKillw s) := by
  unfold execKillw
  split
  exacts [CanonicalOpt.event (.guard h.killRecord), trivial]

protected theorem Canonical.execFlttailWrite (h : Canonical s) : CanonicalOut (execFlttailWrite s) := by
  unfold execFlttailWrite
  split
  exacts [CanonicalOpt.event (.guard h.writeFlttail), trivial]

protected theorem Canonical.execFltctlWrite (h : Canonical s) : CanonicalOut (execFltctlWrite s) := by
  unfold execFltctlWrite
  split
  exacts [CanonicalOpt.event (.guard h.writeFltctl), trivial]

protected theorem Canonical.endTenantStrands (h : Canonical s) : Canonical (endTenantStrands s n) := by
  refine h.foldl fun s x h => Canonical.takeOff ?_
  split
  exacts [h.abandon.flushStrand.setCont, h.abandon.flushStrand]

protected theorem Canonical.endTenants (h : Canonical s) : Canonical (endTenants s) :=
  h.ite (Canonical.serveAll (h.foldl fun _ _ h => h.endTenantStrands))

protected theorem Canonical.execWqtailWrite (h : Canonical s) : CanonicalOut (execWqtailWrite s) := by
  unfold execWqtailWrite
  split
  exacts [CanonicalOpt.event (.guard h.writeTail), trivial]

protected theorem Canonical.execWqctlWrite (h : Canonical s) : CanonicalOut (execWqctlWrite s) := by
  unfold execWqctlWrite
  split
  exacts [CanonicalOpt.event (.guard h.writeWqctl), trivial]

protected theorem Canonical.execWqstatClr (h : Canonical s) : CanonicalOut (execWqstatClr s) := by
  unfold execWqstatClr
  split
  exacts [CanonicalOpt.event (.guard h.clearStop), trivial]

protected theorem Canonical.execPacketConsume (h : Canonical s) : CanonicalOut (execPacketConsume s) := by
  unfold execPacketConsume
  split
  exacts [CanonicalOpt.event (.guard h.consumePacket), trivial]

protected theorem Canonical.launchReady (h : Canonical s) : CanonicalOpt (launchReady s q n) := by
  unfold launchReady
  split
  exacts [trivial, .ite h.readyLaunch trivial]

protected theorem Canonical.execLaunchReady (h : Canonical s) : CanonicalOut (execLaunchReady s) := by
  unfold execLaunchReady
  split
  exacts [h.launchReady.event, trivial]

protected theorem Canonical.recordExpand (h : Canonical s) : CanonicalOpt (recordExpand s q n) := by
  unfold recordExpand
  split
  exacts [trivial, .ite h.expandRecord trivial]

protected theorem Canonical.execRecordExpand (h : Canonical s) : CanonicalOut (execRecordExpand s) := by
  unfold execRecordExpand
  split
  exacts [h.recordExpand.event, trivial]

protected theorem Canonical.launchComplete (h : Canonical s) : CanonicalOpt (launchComplete s q n) := by
  unfold launchComplete
  split
  exacts [trivial, .ite h.completeLaunch trivial]

protected theorem Canonical.execLaunchComplete (h : Canonical s) : CanonicalOut (execLaunchComplete s) := by
  unfold execLaunchComplete
  split
  exacts [h.launchComplete.event, trivial]

protected theorem Canonical.launchEnqueue (h : Canonical s) : CanonicalOpt (launchEnqueue s q n k) := by
  unfold launchEnqueue
  extract_lets w r
  split
  · refine .ite trivial ?_
    split
    exacts [h.enqueueLaunch, trivial]
  · trivial

protected theorem Canonical.execLaunchEnqueue (h : Canonical s) : CanonicalOut (execLaunchEnqueue s) := by
  unfold execLaunchEnqueue
  split
  exacts [h.launchEnqueue.event, trivial]

end Sys2Proof.Machine
end

section
/-! SUPPORT. Canonical memory, tenth part: the moves of the model's own choice, soft errors, and the package's arrivals. -/

namespace Sys2Proof.Machine

variable {s t : State} {st : Strand} {sid : Nat} {n d q c k x y z e m : Nat} {b : List Byte} {va v : Word} {a : Access} {fl : FFlags} {i : Instr}
  {u : Bool} {f : Flit} {name : String} {sk : StreamKey}

/-! Late failures, path queues and tickets. -/

protected theorem Canonical.takeAt (h : Canonical s) : Canonical (takeAt s sid n c v k) :=
  (Canonical.takeException (s := { s with cur := sid, slot := n, convoy := none }) h.endConvoy).inPlace

protected theorem Canonical.lateFailure (h : Canonical s) : CanonicalOpt (lateFailure s sid) := by
  unfold lateFailure
  dsimp only
  split
  · trivial
  · exact .ite h.raceLates (.ite h.putStrand.takeAt trivial)

protected theorem Canonical.execLateFailure (h : Canonical s) : CanonicalOut (execLateFailure s) := by
  unfold execLateFailure
  split
  exacts [h.lateFailure.event, trivial]

protected theorem Canonical.pathLeave (h : Canonical s) : CanonicalOpt (pathLeave s sid k) := h.leaveAt.map fun _ h => h.raceLates

protected theorem Canonical.execPathQueueLeave (h : Canonical s) : CanonicalOut (execPathQueueLeave s) := by
  unfold execPathQueueLeave
  split
  exacts [CanonicalOpt.event (.ite h.pathLeave h.withLook), trivial]

protected theorem Canonical.atomicPerform (h : Canonical s) : CanonicalOpt (atomicPerform s sid k) := .ite h.withLook (.ite h.pathLeave trivial)

protected theorem Canonical.execAtomicPerform (h : Canonical s) : CanonicalOut (execAtomicPerform s) := by
  unfold execAtomicPerform
  split
  exacts [h.atomicPerform.event, trivial]

/-- The application of a write at a die (R162). -/
theorem Canonical.mapApply (h : Canonical s) : CanonicalOpt ((applyAt s.ord d k).map fun o => answerOwns { s with ord := o }) := by
  cases e : applyAt s.ord d k with
  | none => trivial
  | some o => exact (h.withOrd (canonical_applyAt _ _ _ _ e h.1)).answerOwns

protected theorem Canonical.execApplyWrite (h : Canonical s) : CanonicalOut (execApplyWrite s) := by
  unfold execApplyWrite
  split
  exacts [h.mapApply.event, trivial]

protected theorem Canonical.ticketAdvance (h : Canonical s) : CanonicalOpt (ticketAdvance s sid) := by
  unfold ticketAdvance
  split
  exacts [trivial, h.leaveAt]

protected theorem Canonical.execTicketAdvance (h : Canonical s) : CanonicalOut (execTicketAdvance s) := by
  unfold execTicketAdvance
  split
  exacts [h.ticketAdvance.event, trivial]

/-! The end of a barrier's wait. -/

/-- Whether the state that a read of a barrier's generation leaves, if any, has canonical memory. -/
def CanonicalGen : GenGot → Prop
  | .gen _ s => Canonical s
  | .asked s => Canonical s
  | .waiting => True
  | .fault _ => True

theorem CanonicalGen.gen {r : GenGot} (h : CanonicalGen r) (e : r = .gen n s) : Canonical s := by subst e; exact h
theorem CanonicalGen.asked {r : GenGot} (h : CanonicalGen r) (e : r = .asked s) : Canonical s := by subst e; exact h

protected theorem CanonicalGen.ite {p : Prop} [Decidable p] {r r' : GenGot} (h : CanonicalGen r) (h' : CanonicalGen r') :
    CanonicalGen (if p then r else r') := by
  split
  · exact h
  · exact h'

protected theorem Canonical.readGen (h : Canonical s) : CanonicalGen (readGen s sid) := by
  unfold readGen
  dsimp only
  split
  · trivial
  · exact .ite trivial h
  · exact .ite trivial h.reachDie
  · split
    · split
      exacts [trivial, h.withFabric.putStrand]
    · split
      exacts [trivial, h.putStrand, trivial]
  · trivial

protected theorem Canonical.barrierEnd (h : Canonical s) : CanonicalOpt (barrierEnd s sid) := by
  unfold barrierEnd
  refine .ite trivial ?_
  split
  · have h1 := h.readGen.gen ‹_›
    exact .ite h1.putStrand (.ite trivial h1)
  · exact h.readGen.asked ‹_›
  · trivial
  · exact h.putStrand.takeAt

protected theorem Canonical.execBarrierWaitEnd (h : Canonical s) : CanonicalOut (execBarrierWaitEnd s) := by
  unfold execBarrierWaitEnd
  split
  exacts [h.barrierEnd.event, trivial]

/-! TLB invalidations and soft errors. -/

protected theorem Canonical.execTlbinv (h : Canonical s) : CanonicalOut (execTlbinv s) := by
  unfold execTlbinv
  split
  exacts [CanonicalOpt.event (.guard h.writeTlbinv), trivial]

protected theorem Canonical.tlbFinish (h : Canonical s) : CanonicalOpt (tlbFinish s) := by
  unfold tlbFinish
  split
  exacts [trivial, .guard h]

protected theorem Canonical.softReport (h : Canonical s) : Canonical (softReport s st n x y k) := h.freeWord.ringReport

theorem Canonical.withL2Poison {l : List (Nat × Nat)} (h : Canonical s) : Canonical { s with ord := { s.ord with l2Poison := l } } :=
  h.withOrd (h.1.of_eq rfl rfl)

protected theorem Canonical.softError {r : SoftError} (h : Canonical s) : CanonicalOpt (softError s r) := by
  cases r with
  | laneCorrected => exact .ite trivial h.takePick.softReport
  | laneUncorrected => exact .ite trivial h.takePick.softReport.freeWord.takeAt
  | array => exact .ite trivial h.withMx.freeWord.ringReport
  | eccCorrected => exact h.logError
  | memory => exact .guard h.poisonMem
  | l2 => exact .guard h.withL2Poison
  | scratchpad => exact h.poisonSpad
  | accumulator => exact .ite trivial h.putStrand.softReport

protected theorem Canonical.execSoftError (h : Canonical s) : CanonicalOut (execSoftError s) := by
  unfold execSoftError
  split
  exacts [h.softError.event, trivial]

protected theorem Canonical.execIllegalInstruction (h : Canonical s) : CanonicalOut (execIllegalInstruction s) := by
  unfold execIllegalInstruction
  split
  · split
    exacts [CanonicalRes.finish trivial h, trivial]
  · trivial

/-! The moves that take nothing but time. -/

protected theorem Canonical.runEngine (h : Canonical s) : Canonical (runEngine n s sid k) := by
  induction n generalizing s with
  | zero => exact h
  | succ n ih =>
    unfold runEngine
    dsimp only
    split
    · exact ih (h.landStep.some ‹_›)
    · split
      exacts [h.faultStep.some ‹_›, h]

protected theorem Canonical.runEngines (h : Canonical s) : Canonical (runEngines s sid) :=
  h.ite (Canonical.foldl h fun _ _ h => h.runEngine.ite h)

protected theorem Canonical.raceMoves (h : Canonical s) : Canonical (raceMoves s) := by
  refine h.foldl fun s e h => h.ite ?_
  extract_lets s1 s2 s3
  have h1 : Canonical s1 := h.homeStep.getD h
  have h2 : Canonical s2 := h1.homeStep.getD h1
  have h3 : Canonical s3 := h2.memberStep.getD h2
  exact h3.memberStep.getD h3

protected theorem Canonical.barrierMoves (h : Canonical s) : Canonical (barrierMoves s) :=
  h.foldl fun _ _ h => (h.barrierEnd.getD h).ite h

protected theorem Canonical.eagerMoves (h : Canonical s) : Canonical (eagerMoves s) := by
  unfold eagerMoves
  extract_lets s1 s2 s3
  have h1 : Canonical s1 := h.drainAll
  have h2 : Canonical s2 := h1.foldl fun _ _ h => h.runEngines.ite h
  have h3 : Canonical s3 := h2.raceMoves.raceLates
  exact h3.settle.answerOwns.barrierMoves

/-! Answers and requests that arrive. -/

protected theorem Canonical.answer {r : Reply} (h : Canonical s) : Canonical (answer s n r) := by
  unfold answer
  extract_lets s1
  have h1 : Canonical s1 := h.withFabric
  clear_value s1
  split
  · exact h1
  · dsimp only
    split
    exacts [h1.ticketDone.putStrand, h1.putStrand]

protected theorem Canonical.failRequest (h : Canonical s) : Canonical (failRequest s n) := by
  unfold failRequest
  split
  exacts [h, h.failTag.raceLates]

protected theorem Canonical.sendBack (h : Canonical s) : Canonical (sendBack s f k b) := by
  unfold sendBack
  split
  exacts [h, h]

protected theorem Canonical.turnAway (h : Canonical s) : Canonical (turnAway s f) := h
protected theorem Canonical.beyond (h : Canonical s) : Canonical (beyond s f) := h.withFabric.turnAway

protected theorem Canonical.doRead (h : Canonical s) : Canonical (doRead s f) := by
  unfold doRead
  extract_lets n key off loc
  exact .ite (h.sendBack.ite h.turnAway) (h.beyond.ite (h.turnAway.ite h.sendBack))

protected theorem Canonical.sendDone (h : Canonical s) : Canonical (sendDone s f b) := h
protected theorem Canonical.doWrite (h : Canonical s) : Canonical (doWrite s f) := h.beyond.ite h.memWrite.sendDone

protected theorem Canonical.doAtomic (h : Canonical s) : Canonical (doAtomic s f) := by
  unfold doAtomic
  dsimp only
  refine .ite (h.beyond.ite (h.sendBack.ite h.memWrite.sendDone)) ?_
  split
  · exact h.turnAway
  · exact h.beyond.ite (h.memAtomic.sendBack.ite h.memAtomic.sendDone)

protected theorem Canonical.doFragment (h : Canonical s) : Canonical (doFragment s f) := h.fragLand.sendBack.ite h.turnAway
protected theorem Canonical.doCollect (h : Canonical s) : Canonical (doCollect s f) := by
  unfold doCollect
  exact h.collLand

protected theorem Canonical.perform (h : Canonical s) : Canonical (perform s f) :=
  h.doRead.ite (h.doWrite.ite (h.doAtomic.ite (h.answer.ite (h.answer.ite (h.doCollect.ite (h.doFragment.ite h))))))

protected theorem Canonical.deliverN (h : Canonical s) : Canonical (deliverN n s f) := by
  induction n generalizing s with
  | zero => exact h
  | succ n ih =>
    unfold deliverN
    dsimp only
    split
    · exact h
    · exact (ih h.withFabric.perform).ite h

protected theorem Canonical.deliver (h : Canonical s) : Canonical (deliver s f) := h.deliverN

protected theorem Canonical.deliverAll (h : Canonical s) : Canonical (deliverAll s) := by
  refine h.foldl fun s l h => ?_
  split
  exacts [h, h.deliver]

/-! Flights that fail or are acknowledged. -/

protected theorem Canonical.holdFlits {r : SentFlit} (h : Canonical s) : Canonical (holdFlits s r) := h.withFabric.putStrand

protected theorem Canonical.noteAvoid {l : List Nat} (h : Canonical s) : Canonical (noteAvoid s n l) := by
  unfold noteAvoid
  split
  exacts [h, h.putStrand]

protected theorem Canonical.sendFailed (h : Canonical s) : CanonicalOpt (sendFailed s sk n) := by
  unfold sendFailed
  split
  · trivial
  · exact .ite h.withFabric.collStarts (.ite h.noteAvoid.holdFlits.failRequest h.noteAvoid.withFabric.failRequest)

protected theorem Canonical.ackOne (h : Canonical s) : Canonical (ackOne s sk n) := by
  unfold ackOne
  split
  · exact h
  · exact h.withFabric.answer.ite h.withFabric

protected theorem Canonical.noteSeq (h : Canonical s) : Canonical (noteSeq s n k) := by
  unfold noteSeq
  split
  exacts [h, h.putStrand]

protected theorem Canonical.unavail (h : Canonical s) : Canonical (unavail s f) := h.noteAvoid.noteSeq.withFabric.failRequest

protected theorem Canonical.receiveStream (h : Canonical s) : Canonical (receiveStream s f) := by
  unfold receiveStream
  extract_lets g r
  refine .ite h.withFabric.deliver (.ite ?_ (h.withFabric.deliver.ite h.withFabric.deliver))
  split
  exacts [h.withFabric, h.withFabric.doCollect.ite h.withFabric]

protected theorem Canonical.receive (h : Canonical s) : CanonicalOpt (receive s k f) :=
  .ite trivial <| .ite h.withFabric <| .ite h.withFabric <| .ite h <| .ite (Canonical.deliverAll (h.foldl fun _ _ h => h.ackOne)) <|
  .ite (h.sendFailed.getD h) <| .ite h.unavail h.receiveStream

protected theorem Canonical.flitEvent (h : Canonical s) : CanonicalOut (flitEvent s name k) := by
  unfold flitEvent
  split
  exacts [h.receive.event, h.receive.event, trivial]

protected theorem Canonical.execPlaneTimerExpiry (h : Canonical s) : CanonicalOut (execPlaneTimerExpiry s) := by
  unfold execPlaneTimerExpiry
  split
  exacts [h.sendFailed.event, trivial]

protected theorem Canonical.setLock (h : Canonical s) : CanonicalOpt (setLock s k u) := .ite trivial h.withFabric.sendWaiting

protected theorem Canonical.execPortLockLost (h : Canonical s) : CanonicalOut (execPortLockLost s) := by
  unfold execPortLockLost
  split
  exacts [h.setLock.event, trivial]

protected theorem Canonical.execPortLockGained (h : Canonical s) : CanonicalOut (execPortLockGained s) := by
  unfold execPortLockGained
  split
  exacts [h.setLock.event, trivial]

protected theorem Canonical.bridgeDown (h : Canonical s) : CanonicalOpt (bridgeDown s x y) := .ite trivial h.withFabric.logError

protected theorem Canonical.execBridgeDown (h : Canonical s) : CanonicalOut (execBridgeDown s) := by
  unfold execBridgeDown
  split
  exacts [h.bridgeDown.event, trivial]

end Sys2Proof.Machine
end

section
/-! SUPPORT. Canonical memory, eleventh part: clocks, token streams, Ethernet, boot and management. -/

namespace Sys2Proof.Machine

variable {s t : State} {st : Strand} {sid : Nat} {n d q c k x y z e m : Nat} {b : List Byte} {va v : Word} {a : Access} {fl : FFlags} {i : Instr}
  {u : Bool} {name : String} {r : MgmtReq}

theorem Canonical.withPower {p : Power} (h : Canonical s) : Canonical { s with power := p } := h
theorem Canonical.withClocks {p : NMap Clock} (h : Canonical s) : Canonical { s with clocks := p } := h
theorem Canonical.withEth {p : Ethernet} (h : Canonical s) : Canonical { s with eth := p } := h
theorem Canonical.withSec {p : Security} (h : Canonical s) : Canonical { s with sec := p } := h
theorem Canonical.withBatches {l : List Batch} (h : Canonical s) : Canonical { s with batches := l } := h

/-! Power, clocks and the snapshot. -/

protected theorem Canonical.setBubbles (h : Canonical s) : Canonical (setBubbles s n) := h.withPower.ite h.withPower.traceBubble

protected theorem Canonical.throttleEnd (h : Canonical s) : CanonicalOpt (throttleEnd s n) := .ite trivial h.withPower.setBubbles

protected theorem Canonical.execThrottleIntervalEnd (h : Canonical s) : CanonicalOut (execThrottleIntervalEnd s) := by
  unfold execThrottleIntervalEnd
  split
  exacts [h.throttleEnd.event, trivial]

protected theorem Canonical.thermalShutdown (h : Canonical s) : CanonicalOpt (thermalShutdown s d n) := .guard h.withPower.logError

protected theorem Canonical.execThermalShutdown (h : Canonical s) : CanonicalOut (execThermalShutdown s) := by
  unfold execThermalShutdown
  split
  exacts [h.thermalShutdown.event, trivial]

protected theorem Canonical.frameEnd (h : Canonical s) : Canonical (frameEnd s) :=
  h.withPower.setBubbles.ite (h.withPower.setBubbles.ite h.withPower)

protected theorem Canonical.arithCycle (h : Canonical s) : CanonicalOpt (arithCycle s u) := by
  unfold arithCycle
  extract_lets p p1 s0 s1
  refine .ite trivial (.ite h ?_)
  have h0 : Canonical s0 := h.withPower
  have h1 : Canonical s1 := h0.ite h0.endTenants.latchPending
  exact h1.frameEnd.ite h1

protected theorem Canonical.execArithmeticCycle (h : Canonical s) : CanonicalOut (execArithmeticCycle s) := by
  unfold execArithmeticCycle
  split
  exacts [h.arithCycle.event, trivial]

protected theorem Canonical.refCycle (h : Canonical s) : CanonicalOpt (refCycle s d) := .guard h.withClocks

protected theorem Canonical.execTscReferenceCycle (h : Canonical s) : CanonicalOut (execTscReferenceCycle s) := by
  unfold execTscReferenceCycle
  split
  exacts [h.refCycle.event, trivial]

protected theorem Canonical.execTsstepWrite (h : Canonical s) : CanonicalOut (execTsstepWrite s) := by
  unfold execTsstepWrite
  split
  exacts [CanonicalOpt.event (.guard h.writeTsstep), trivial]

protected theorem Canonical.execTrtailWrite (h : Canonical s) : CanonicalOut (execTrtailWrite s) := by
  unfold execTrtailWrite
  split
  exacts [CanonicalOpt.event (.guard h.writeTrtail), trivial]

protected theorem Canonical.execTrctlWrite (h : Canonical s) : CanonicalOut (execTrctlWrite s) := by
  unfold execTrctlWrite
  split
  exacts [CanonicalOpt.event (.guard h.writeTrctl), trivial]

protected theorem Canonical.snapMatch (h : Canonical s) : CanonicalOpt (snapMatch s) := .guard h.withSnap.fireSnapshot

/-! Token streams. -/

protected theorem Canonical.putStream {w : Stream} (h : Canonical s) : Canonical (putStream s n w) := h
protected theorem Canonical.sendFrame {w : TextFrame} (h : Canonical s) : Canonical (sendFrame s w) := h
protected theorem Canonical.abortStream (h : Canonical s) : Canonical (abortStream s n u) := h.ite h.putStream.sendFrame
protected theorem Canonical.abortError (h : Canonical s) : Canonical (abortError s n) := h.abortStream.logError

protected theorem Canonical.sendText {w : Stream} {l : List (List Byte)} (h : Canonical s) : Canonical (sendText s n w u k l) := by
  induction l generalizing s k with
  | nil => exact h
  | cons t l ih => exact ih h.sendFrame

protected theorem Canonical.ringWrite {w : Stream} (h : Canonical s) : Canonical (ringWrite w s k b).1 := by
  induction b generalizing s k with
  | nil => exact h
  | cons t b ih =>
    unfold ringWrite
    split
    exacts [ih (h.unitWrite.some ‹_›), h]

protected theorem Canonical.releaseChars {l : List (List Byte)} (h : Canonical s) : Canonical (releaseChars s n l) := by
  unfold releaseChars
  extract_lets w bs
  have h1 : Canonical (ringWrite w s w.bseq bs).1 := h.ringWrite
  refine h.ite ?_
  dsimp only
  split
  · exact h1.abortError
  next heq =>
    refine (CanonicalOpt.some ?_ heq).putStream.sendText
    split
    exacts [h1.unitPut, trivial]

protected theorem Canonical.emitToken (h : Canonical s) : Canonical (emitToken s n k) := by
  unfold emitToken
  dsimp only
  split
  exacts [h.abortError, h.putStream.releaseChars]

protected theorem Canonical.flushStream (h : Canonical s) : Canonical (flushStream s n) := by
  unfold flushStream
  extract_lets w s1 w1
  have h1 : Canonical s1 := h.ite h.putStream.releaseChars
  exact h1.ite h1.putStream.sendFrame

protected theorem Canonical.refuseStream (h : Canonical s) : Canonical (refuseStream s n) := h.putStream

protected theorem Canonical.execTkemit {o : S3} (h : Canonical s) : CanonicalOut (execTkemit o s) := by
  unfold execTkemit
  extract_lets slot cv sv c n
  refine CanonicalRes.finish (.ite trivial (.ite trivial (.ite trivial (.ite trivial (h.withPlace fun p s1 h1 => .ite h1.refuseStream ?_))))) h
  dsimp only
  split
  · exact h.waitFor
  next heq => exact ((h1.makeWay.andThen fun _ h => h.performAcc).some heq).emitToken

protected theorem Canonical.execTkflush {o : S1a} (h : Canonical s) : CanonicalOut (execTkflush o s) :=
  CanonicalRes.finish (.ite trivial (.ite trivial (.ite h.flushStream h.refuseStream))) h

protected theorem Canonical.ringGet {w : Stream} {l : List (Nat × Nat)} (h : Canonical s) : CanonicalUnit (ringGet s n w l) := by
  induction l with
  | nil => exact h
  | cons p l ih =>
    obtain ⟨off, k⟩ := p
    unfold ringGet
    dsimp only
    split
    · split
      exacts [h, ih]
    · exact h.unitGetBy h

protected theorem Canonical.ringForget (h : Canonical s) : Canonical (ringForget s n) := h.unitForget

protected theorem Canonical.resendTry (h : Canonical s) : Canonical (resendTry s n x y).1 := by
  unfold resendTry
  dsimp only
  split
  · exact h
  · split
    · exact h.sendFrame
    · split
      · exact h
      · split
        exacts [(h.ringGet.fail ‹_›).abortError, h.ringGet.asked ‹_›, h, (h.ringGet.bytes ‹_›).sendText]

protected theorem Canonical.serveResends {l : List (Nat × Nat × Nat)} (h : Canonical s) : Canonical (serveResends l s) := by
  induction l generalizing s with
  | nil => exact h
  | cons p l ih =>
    obtain ⟨n, x, y⟩ := p
    unfold serveResends
    split
    next heq => exact ih (Canonical.ofFst h.resendTry heq).ringForget
    next heq => exact (Canonical.ofFst h.resendTry heq).withEth

protected theorem Canonical.resend (h : Canonical s) : Canonical (resend s n x y) := h.serveResends
protected theorem Canonical.resendsGo (h : Canonical s) : Canonical (resendsGo s) := h.ite h.serveResends

/-! Ethernet. -/

protected theorem Canonical.oneStep (h : Canonical s) : Canonical (oneStep s n b).2 := by
  unfold oneStep
  dsimp only
  split
  · exact h
  · split
    · split
      exacts [h, h.freeWord]
    · exact h

protected theorem Canonical.ptpTransmit {tr : PtpTransport} (h : Canonical s) : CanonicalOpt (ptpTransmit s n u tr b) := by
  unfold ptpTransmit
  dsimp only
  refine .ite trivial (Canonical.withEth ?_)
  split
  exacts [h.withEth.oneStep, h.withEth]

protected theorem Canonical.execPtpEventTransmit (h : Canonical s) : CanonicalOut (execPtpEventTransmit s) := by
  unfold execPtpEventTransmit
  split
  exacts [h.ptpTransmit.event, trivial]

protected theorem Canonical.ptpReceive (h : Canonical s) : CanonicalOpt (ptpReceive s n b) := .ite trivial (.ite h h)

protected theorem Canonical.execPtpEventReceive (h : Canonical s) : CanonicalOut (execPtpEventReceive s) := by
  unfold execPtpEventReceive
  split
  · exact h.ptpReceive.event
  · split
    exacts [h.ptpReceive.event, trivial]
  · trivial

protected theorem Canonical.discard {o : Option Nat} (h : Canonical s) : Canonical (discard s n o) := h

protected theorem Canonical.ethFrame {f : EthFrame} (h : Canonical s) : CanonicalOpt (ethFrame s f) := by
  cases f with
  | badFcs | pauseOrPfc | fragmentOrOptions | oversize | badUdpChecksum | badKind | filterMiss | ringFull => exact .guard h.discard
  | toFirmware => exact .guard h.withEth

protected theorem Canonical.execEthernetFrameReceive (h : Canonical s) : CanonicalOut (execEthernetFrameReceive s) := by
  unfold execEthernetFrameReceive
  split
  · exact h.ethFrame.event
  · exact CanonicalOpt.event (.ite trivial h.ethFrame)
  · split
    exacts [h.ethFrame.event, h.ethFrame.event, CanonicalOpt.event (.ite trivial h.ethFrame), trivial]
  · trivial

protected theorem Canonical.datagram {w : Datagram} (h : Canonical s) : CanonicalOpt (datagram s n w) :=
  .ite trivial (.ite h.discard h.putTenant)

protected theorem Canonical.dgramEvent (h : Canonical s) : CanonicalOut (dgramEvent s name n) := CanonicalOpt.event (.bind fun _ => h.datagram)

protected theorem Canonical.resendRequest {w : Datagram} (h : Canonical s) : CanonicalOpt (resendRequest s w) :=
  h.datagram.map fun _ h => h.resend.ite h

protected theorem Canonical.execResendRequest (h : Canonical s) : CanonicalOut (execResendRequest s) :=
  CanonicalOpt.event (.bind fun _ => h.resendRequest)

/-! Reset and boot. -/

theorem canonical_ordReset : CanonicalOrd Ordering_.reset := ⟨by decide, by decide⟩

theorem canonical_reset : Canonical State.reset := ⟨canonical_ordReset, fun _ e => (Option.some_ne_none _ e.symm).elim⟩

theorem canonical_afterReset {w : ResetKind} : Canonical (afterReset s w) := canonical_reset

protected theorem Canonical.romExtend (h : Canonical s) : Canonical (romExtend s n b) := h.measValue
protected theorem Canonical.noteLog (h : Canonical s) : Canonical (noteLog s n b) := h

protected theorem Canonical.lifeRequest (h : Canonical s) : Canonical (lifeRequest s) := by
  unfold lifeRequest
  split
  · exact h
  · exact h.withSec.ite h.withSec.noteLog

theorem Canonical.wiped {p : Security} (h : Canonical s) : Canonical { s with ord := Ordering_.reset, sec := p } := ⟨canonical_ordReset, h.2⟩

protected theorem Canonical.bootStep0 (h : Canonical s) : Canonical (bootStep0 s) := h.withSec.lifeRequest.romExtend.romExtend.romExtend.wiped

protected theorem Canonical.bootStages (h : Canonical s) : Canonical (bootStages n s k) := by
  induction n generalizing s k with
  | zero => exact h
  | succ n ih =>
    unfold bootStages
    dsimp only
    exact h.withSec.ite (ih h.physWrite.measExtend)

theorem Canonical.settled {p : Security} (h : Canonical s) : Canonical { s with ord := settle s.ord, sec := p } := h.settle

protected theorem Canonical.bootStep5 (h : Canonical s) : Canonical (bootStep5 s) :=
  have h1 := h.foldl fun _ _ h => h.romExtend
  Canonical.settled (Canonical.putStrand h1)

protected theorem Canonical.bootRun (h : Canonical s) : Canonical (bootRun s) :=
  h.bootStep0.withSec.ite (h.bootStep0.bootStages.ite h.bootStep0.bootStages.bootStep5)

protected theorem Canonical.strapCheck (h : Canonical s) : Canonical (strapCheck s) := h.logError.ite h

theorem canonical_packageReset {w : ResetKind} : Canonical (packageReset s w) := canonical_afterReset.strapCheck.bootRun

theorem canonical_execPackageReset : CanonicalOut (execPackageReset s) := by
  unfold execPackageReset
  split
  exacts [CanonicalOpt.event (.guard canonical_packageReset), trivial]

protected theorem Canonical.execMeasExtend (h : Canonical s) : CanonicalOut (execMeasExtend s) := by
  unfold execMeasExtend
  split
  exacts [h.writeMeasext, trivial]

protected theorem Canonical.execRegisterWrite (h : Canonical s) : CanonicalOut (execRegisterWrite s) := by
  unfold execRegisterWrite
  split
  exacts [CanonicalOpt.event (.ite trivial h.windowWrite), trivial]

end Sys2Proof.Machine
end

section
/-! SUPPORT. Canonical memory, twelfth part: the index, the management operations, tiles and rotated keys. -/

namespace Sys2Proof.Machine

variable {s t : State} {st : Strand} {sid : Nat} {n d q c k x y z e m : Nat} {b : List Byte} {va v : Word} {a : Access} {fl : FFlags} {i : Instr}
  {u : Bool} {name : String} {r : MgmtReq}

/-! The index. -/

protected theorem Canonical.indexPut {o : XqOps} {f : XKind → Nat → Option EA → EA} (h : Canonical s) : CanonicalOut (indexPut s i o u f) := by
  refine CanonicalRes.finish (.vecOnly ?_) h
  dsimp only
  split
  · exact canonical_illegal
  · split
    · exact canonical_illegal
    · split
      exacts [h.putMe, .ite h.partAt h.putMe]

protected theorem Canonical.execXlook {o : XlookOps} (h : Canonical s) : CanonicalOut (execXlook o s) := by
  refine CanonicalRes.finish (.vecOnly ?_) h
  dsimp only
  split
  exacts [canonical_illegal, h.putMe]

/-! Management operations. -/

protected theorem Canonical.sendReply (h : Canonical s) : Canonical (sendReply s r n b) := h
protected theorem Canonical.acceptOwner (h : Canonical s) : Canonical (acceptOwner s r) := h

protected theorem Canonical.openOp {f : State → State} (h : Canonical s) (hf : ∀ s, Canonical s → Canonical (f s)) : CanonicalOpt (openOp s r n f) :=
  .ite trivial (.ite trivial (h.sendReply.ite (hf _ h)))

protected theorem Canonical.ownerOp {f : State → State} (h : Canonical s) (hf : ∀ s, Canonical s → Canonical (f s)) :
    CanonicalOpt (ownerOp s r n u f) :=
  .ite trivial (h.sendReply.ite (h.sendReply.ite (h.acceptOwner.sendReply.ite (hf _ h.acceptOwner))))

protected theorem Canonical.doStatus (h : Canonical s) : Canonical (doStatus s r) := h.sendReply

protected theorem Canonical.execStatus (h : Canonical s) : CanonicalOut (execStatus s) := by
  unfold execStatus
  split
  exacts [(h.openOp fun _ h => h.doStatus).event, trivial]

protected theorem Canonical.doQuote (h : Canonical s) : Canonical (doQuote s r) := h.sendReply.ite (h.sendReply.ite h.withSec.sendReply)

protected theorem Canonical.execQuote (h : Canonical s) : CanonicalOut (execQuote s) := by
  unfold execQuote
  split
  exacts [(h.openOp fun _ h => h.doQuote).event, trivial]

protected theorem Canonical.doLog (h : Canonical s) : Canonical (doLog s r) := h.sendReply.ite h.sendReply

protected theorem Canonical.execLog (h : Canonical s) : CanonicalOut (execLog s) := by
  unfold execLog
  split
  exacts [(h.openOp fun _ h => h.doLog).event, trivial]

protected theorem Canonical.execCert (h : Canonical s) : CanonicalOut (execCert s) := by
  unfold execCert
  split
  exacts [(h.openOp fun _ h => h.sendReply).event, trivial]

protected theorem Canonical.doCounters (h : Canonical s) : Canonical (doCounters s r) := h.sendReply

protected theorem Canonical.execCounters (h : Canonical s) : CanonicalOut (execCounters s) := by
  unfold execCounters
  split
  exacts [(h.openOp fun _ h => h.doCounters).event, trivial]

/-! Tenants and their reset. -/

theorem Canonical.withWeight {l : NMap Nat} (h : Canonical s) : Canonical { s with tweight := l } := h

protected theorem Canonical.doCreate {l l' : List Nat} (h : Canonical s) : Canonical (doCreate s r l l' n) := by
  unfold doCreate
  extract_lets n t w s1 s2
  have h1 : Canonical s1 := Canonical.foldl h.putTenant fun _ _ h => h.putRace
  have h2 : Canonical s2 := h1.withWeight
  exact h.sendReply.ite (h.sendReply.ite h2.measValue.sendReply)

protected theorem Canonical.execTenantCreate (h : Canonical s) : CanonicalOut (execTenantCreate s) := by
  unfold execTenantCreate
  split
  exacts [(h.ownerOp fun _ h => h.doCreate).event, trivial]

protected theorem Canonical.dropHeld {l : List Nat} (h : Canonical s) : Canonical (dropHeld s l) := h.withFabric
protected theorem Canonical.cancelAll (h : Canonical s) : Canonical (cancelAll s n) := h.foldl fun _ _ h => h.cancelLaunch
protected theorem Canonical.abortTenantCtx (h : Canonical s) : Canonical (abortTenantCtx s c) := h.putRace
protected theorem Canonical.vacateRows {w : Batch} (h : Canonical s) : Canonical (vacateRows s n w) := h.physWrite.ite h

protected theorem Canonical.beginReset {l : List (Nat × List Byte)} (h : Canonical s) : Canonical (beginReset s n u l) := by
  unfold beginReset
  extract_lets w sids s1 r2 s2 s3 s4 s5
  have h1 : Canonical s1 := h.putTenant
  have h2 : Canonical s2 := Canonical.withBatches (h1.foldl fun _ _ h => h.vacateRows)
  have h3 : Canonical s3 := h2.foldl fun _ _ h => h.abortTenantCtx
  have h4 : Canonical s4 := h3.foldl fun _ _ h => h.abortStream
  have h5 : Canonical s5 := h4.foldl fun _ _ h => h.cancelAll
  exact h5.endTenants.dropHeld

protected theorem Canonical.doTenantReset (h : Canonical s) : Canonical (doTenantReset s r u) :=
  h.sendReply.ite (h.sendReply.ite (h.putTenant.ite h.beginReset))

protected theorem Canonical.execTenantReset (h : Canonical s) : CanonicalOut (execTenantReset s) := by
  unfold execTenantReset
  split
  exacts [(h.ownerOp fun _ h => h.doTenantReset).event, trivial]

protected theorem Canonical.execTenantDestroy (h : Canonical s) : CanonicalOut (execTenantDestroy s) := by
  unfold execTenantDestroy
  split
  exacts [(h.ownerOp fun _ h => h.doTenantReset).event, trivial]

protected theorem Canonical.freeTenant (h : Canonical s) : Canonical (freeTenant s n) := by
  unfold freeTenant
  extract_lets w s1 s2 s3
  have h1 : Canonical s1 := h.foldl fun _ _ h => h.putRace
  have h2 : Canonical s2 := h1.foldl fun _ _ h => h.putStream
  have h3 : Canonical s3 := h2.putTenant
  clear_value s3
  exact h3

theorem Canonical.wipeFrames {l : List Nat} {w : List TlbEntry} (h : Canonical s) :
    Canonical { s with ord := wipeFrames (settle s.ord) l, tlb := w } :=
  h.withOrd (canonical_wipeFrames _ _ (canonical_settle _ h.1))

protected theorem Canonical.tenantComplete (h : Canonical s) : CanonicalOpt (tenantComplete s n) := by
  unfold tenantComplete
  extract_lets w past s1 s2 s3 s4 s5 s6 eth
  have h1 : Canonical s1 := h.wipeFrames
  have h2 : Canonical s2 := h1.foldl fun _ _ h => h.putQueue.ite h
  have h3 : Canonical s3 := h2.withBatches
  have h4 : Canonical s4 := h3.putTenant
  have h5 : Canonical s5 := h4.measValue
  have h6 : Canonical s6 := h5.freeTenant.measValue.ite h5
  clear_value s6
  exact .ite trivial h6.withEth

protected theorem Canonical.execTenantResetComplete (h : Canonical s) : CanonicalOut (execTenantResetComplete s) := by
  unfold execTenantResetComplete
  split
  exacts [h.tenantComplete.event, trivial]

/-! Streams, filters, the life cycle and recovery. -/

protected theorem Canonical.doOpen {w : StreamBinding} (h : Canonical s) : Canonical (doOpen s r w) :=
  h.sendReply.ite (h.sendReply.ite h.putStream.sendReply)

protected theorem Canonical.execStreamOpen (h : Canonical s) : CanonicalOut (execStreamOpen s) := by
  unfold execStreamOpen
  split
  exacts [(h.ownerOp fun _ h => h.doOpen).event, trivial]

protected theorem Canonical.doClose (h : Canonical s) : Canonical (doClose s r n) := h.sendReply.ite h.putStream.sendReply

protected theorem Canonical.execStreamClose (h : Canonical s) : CanonicalOut (execStreamClose s) := by
  unfold execStreamClose
  split
  exacts [(h.ownerOp fun _ h => h.doClose).event, trivial]

protected theorem Canonical.doFilter {l : List (List Byte)} (h : Canonical s) : Canonical (doFilter s r l) :=
  h.sendReply.ite (h.sendReply.ite h.putTenant.sendReply)

protected theorem Canonical.execFilterSet (h : Canonical s) : CanonicalOut (execFilterSet s) := by
  unfold execFilterSet
  split
  exacts [(h.ownerOp fun _ h => h.doFilter).event, trivial]

protected theorem Canonical.lcRequest (h : Canonical s) : CanonicalOpt (lcRequest s r b) :=
  .ite trivial (h.sendReply.ite (h.sendReply.ite canonical_packageReset))

protected theorem Canonical.execLcRequest (h : Canonical s) : CanonicalOut (execLcRequest s) := by
  unfold execLcRequest
  split
  exacts [h.lcRequest.event, trivial]

protected theorem Canonical.doSvn (h : Canonical s) : Canonical (doSvn s r n k) := h.sendReply.ite h.withSec.sendReply

protected theorem Canonical.execSvnRaise (h : Canonical s) : CanonicalOut (execSvnRaise s) := by
  unfold execSvnRaise
  split
  exacts [(h.ownerOp fun _ h => h.doSvn).event, trivial]

protected theorem Canonical.recoverWrite (h : Canonical s) : CanonicalOpt (recoverWrite s r) := by
  have h1 : Canonical (if ownerSigned s.sec r then acceptOwner s r else s) := h.acceptOwner.ite h
  unfold recoverWrite
  dsimp only
  exact .ite trivial (.ite h.sendReply (.ite trivial (h.sendReply.ite (h.sendReply.ite (canonical_packageReset.ite h1.withSec.sendReply)))))

protected theorem Canonical.execRecoverWrite (h : Canonical s) : CanonicalOut (execRecoverWrite s) := by
  unfold execRecoverWrite
  split
  exacts [h.recoverWrite.event, trivial]

/-! Tiles. -/

protected theorem Canonical.pruneFail (h : Canonical s) : CanonicalRes (pruneFail s n c va) := h.partAt

protected theorem Canonical.pruneReads {l : List El} {f : List (List Byte) → State → Res} {g : Nat → Word → Res} (h : Canonical s)
    (hf : ∀ l s, Canonical s → CanonicalRes (f l s)) (hg : ∀ c v, CanonicalRes (g c v)) : CanonicalRes (pruneReads s n l f g) := by
  unfold pruneReads
  split
  · exact hg _ _
  · extract_lets mk
    split
    · exact h.askAll.some ‹_›
    · split
      exacts [h.readEls.wait ‹_›, hg _ _, hf _ _ (h.readEls.done ‹_›)]

protected theorem Canonical.execSphdr {o : VmAb} (h : Canonical s) : CanonicalOut (execSphdr o s) := by
  refine CanonicalRes.finish (.vecOnly (.ite h.pruneFail (.ite h.pruneFail (h.pruneReads (fun l s1 h1 => ?_) fun _ _ => h.pruneFail)))) h
  dsimp only
  split
  exacts [h.pruneFail, .ite h.pruneFail h1.putMe]

protected theorem Canonical.pruneWrite {p : PruneBlk} {f : FmtDesc} {l : List (List Nat)} (h : Canonical s) (ht : Canonical t) :
    CanonicalRes (pruneWrite s va p n f k l t) := by
  unfold pruneWrite
  dsimp only
  refine .ite h.pruneFail ?_
  split
  · split
    exacts [h.pruneFail, ht.putMe]
  · split
    exacts [h.pruneFail, h.partAt]

protected theorem Canonical.execPrune {o : VmAb} (h : Canonical s) : CanonicalOut (execPrune o s) := by
  have fail : ∀ c v, CanonicalRes (pruneFail s (startOf s) c v) := fun _ _ => h.pruneFail
  refine CanonicalRes.finish (.vecOnly (.ite (fail _ _) (.ite (fail _ _) (h.pruneReads (fun l s1 h1 => ?_) fail)))) h
  dsimp only
  generalize pruneBlk (l.headD []) = p
  refine .ite (fail _ _) ?_
  refine h1.pruneReads (fun l1 s2 h2 => ?_) fail
  generalize numOf (l1.headD []) = b0
  refine .ite (fail _ _) ?_
  split
  · exact fail _ _
  · refine .ite canonical_illegal (.ite (fail _ _) (h2.pruneReads (fun ls s3 h3 => ?_) fail))
    split
    exacts [fail _ _, h.pruneWrite h3]

/-! Rotated keys. -/

/-- Whether the state in which the reading of rotated keys ends, if any, has canonical memory. -/
def CanonicalRot : RotEnd → Prop
  | .done _ _ s => Canonical s
  | .stop _ _ _ => True
  | .wait s => Canonical s

theorem CanonicalRot.done {r : RotEnd} {l : List (Nat × Bool)} (h : CanonicalRot r) (e : r = .done l fl s) : Canonical s := by subst e; exact h
theorem CanonicalRot.wait {r : RotEnd} (h : CanonicalRot r) (e : r = .wait s) : Canonical s := by subst e; exact h

protected theorem CanonicalRot.ite {p : Prop} [Decidable p] {r r' : RotEnd} (h : CanonicalRot r) (h' : CanonicalRot r') :
    CanonicalRot (if p then r else r') := by
  split
  · exact h
  · exact h'

protected theorem Canonical.keepRot {w : RotEl} {o : Option (List Byte)} (h : Canonical s) : Canonical (keepRot s w b o) := by
  unfold keepRot
  dsimp only
  split
  exacts [h.keepRead, h.keepRead.keepRead]

protected theorem Canonical.rotEls {o : RotOps} {w : KvDesc} {l : List RotEl} (h : Canonical s) : CanonicalRot (rotEls o w s l) := by
  induction l generalizing s with
  | nil => exact h
  | cons e l ih =>
    unfold rotEls
    dsimp only
    split
    · exact h.readWide.wait ‹_›
    · trivial
    · have h1 := h.readWide.bytes ‹_›
      split
      · exact (h1.readWide.wait ‹_›).keepRot
      · trivial
      · have h2 := ih (h1.readWide.bytes ‹_›)
        split
        · split
          exacts [h2.done ‹_›, trivial, (h2.wait ‹_›).keepRot]
        · refine .ite ?_ trivial
          split
          exacts [h2.done ‹_›, trivial, (h2.wait ‹_›).keepRot]

protected theorem CanonicalRot.rotFinish {r : RotEnd} {o : Option (Nat × Nat × Word)} (hr : CanonicalRot r) (h : Canonical s) :
    CanonicalRes (rotFinish s q n r o k) := by
  unfold rotFinish
  dsimp only
  split
  · exact hr
  · exact h.partAt
  · split
    exacts [h.partAt, Canonical.putMe hr]

protected theorem Canonical.rotRun {o : RotOps} {w : KvDesc} (h : Canonical s) : CanonicalRes (rotRun o s va n w) := by
  unfold rotRun
  refine .ite h.partAt ?_
  dsimp only
  split
  · exact h.askAll.some ‹_›
  · exact h.fillEls.rotEls.rotFinish h

protected theorem Canonical.execVldrot {o : RotOps} (h : Canonical s) : CanonicalOut (execVldrot o s) := by
  refine CanonicalRes.finish (.vecOnly (.ite h (.ite h.partAt ?_))) h
  dsimp only
  split
  · exact h.partAt
  · split
    · exact h.askAll.some ‹_›
    · split
      · exact h.readEls.wait ‹_›
      · exact h.partAt
      · have h1 := h.readEls.done ‹_›
        refine .ite (CanonicalRot.rotFinish h1 h) ?_
        split
        next heq => exact Canonical.foldl (h1.rotRun.wait heq) fun _ _ h => h.keepRead
        · exact h1.rotRun

end Sys2Proof.Machine
end

section
/-! SUPPORT. Canonical memory, thirteenth part: every syllable and every event keeps memory in canonical form. -/

namespace Sys2Proof.Machine

variable {s : State} {i : Instr}

protected theorem Canonical.alu {o : S3} {f : Word → Word → Word} (h : Canonical s) : CanonicalOut (alu s o f) := h.setS
protected theorem Canonical.alu1 {o : S2} {f : Word → Word} (h : Canonical s) : CanonicalOut (alu1 s o f) := h.setS
protected theorem Canonical.aluI {o : IOps} {b : Word} {f : Word → Word → Word} (h : Canonical s) : CanonicalOut (aluI s o b f) := h.setS
protected theorem Canonical.fpRes {r : BitVec 5} {p : Nat × FFlags} (h : Canonical s) : CanonicalOut (fpRes s r p) := h.addFlags.setS

protected theorem Canonical.amoI {op : AtomOp} {o : AOps} (h : Canonical s) : CanonicalOut (amoI s op o) := h.amo
protected theorem Canonical.amoF {op : AtomOp} {o : AfOps} (h : Canonical s) : CanonicalOut (amoF s op o) := h.amo

protected theorem Canonical.execVcfg {o : VcfgOps} (h : Canonical s) : CanonicalOut (execVcfg o s) :=
  CanonicalRes.finish (.vecOnly (.ite canonical_illegal h.putMe)) h

protected theorem Canonical.execVsett {o : VsettOps} (h : Canonical s) : CanonicalOut (execVsett o s) :=
  CanonicalRes.finish (.vecOnly (.ite canonical_illegal h.putMe)) h

protected theorem Canonical.execVffma {o : V3} (h : Canonical s) : CanonicalOut (execVffma o s) := by
  unfold execVffma
  split
  exacts [CanonicalRes.finish (.vecOnly canonical_illegal) h, h.vv]

protected theorem Canonical.execVffmaVs {o : Vs3} (h : Canonical s) : CanonicalOut (execVffmaVs o s) := by
  unfold execVffmaVs
  split
  exacts [CanonicalRes.finish (.vecOnly canonical_illegal) h, h.vs]

theorem canonical_exec (h : Canonical s) : CanonicalOut (exec i s) := by
  unfold exec
  cases i with
  | add | sub | mul | mulh | mulhn | div | divn | rem | remn | and | or | xor | sll | srl | sra | slt | sltn | min | max | minn | maxn => exact h.alu
  | clz | ctz | popc => exact h.alu1
  | addi | andi | ori | xori | slti | sltin => exact h.aluI
  | sel | lui | addpc | sllImm | srlImm | sraImm | bfx | bfxn | bfi | bfxReg | bfxnReg | bfiReg => exact h.setS
  | fadd | fsub | fmul | ffma | fmin | fmax | fcmp | fsqrt => exact h.fpRes
  | fcvt => exact h.addFlags.setS
  | ld => exact h.execLd
  | st => exact h.execSt
  | amoadd | amoswap | amocas | amoand | amoor | amoxor | amomax | amomin | amomaxn | amominn => exact h.amoI
  | amoaddF32 | amomaxF32 | amominF32 => exact h.amoF
  | amoea => exact h.execAmoea
  | redadd | redswap | redand | redor | redxor | redmax | redmin | redmaxn | redminn => exact h.redI
  | redaddF32 | redmaxF32 | redminF32 => exact h.redF
  | beq | bne | blt | bge | bltn | bgen => exact h.branch
  | j => exact h.execJ
  | jal => exact h.execJal
  | jalr => exact h.execJalr
  | repf => exact h.execRepf
  | fence | fencex => exact h.queueItem
  | cwait => exact h.execCwait
  | waitsw => exact h.execWaitsw
  | bar => exact h.execBar
  | trap => exact CanonicalRes.finish trivial h
  | sysr => exact h.execSysr
  | sysw => exact h.execSysw
  | trmark => exact h.putMe
  | done => exact h.execDone
  | launch => exact h.execLaunch
  | cancel => exact h.execCancel
  | vcfg => exact h.execVcfg
  | vsett => exact h.execVsett
  | vsetl | vgetl | ppopc | pfirst | veaadd | eaclr | fmtset | mxstat | xclr | xdrain => exact CanonicalRes.finish (.vecOnly h.putMe) h
  | vadd | vsub | vmul | vmulh | vmin | vmax | vabsd | vsadd | vand | vor | vxor | vssub | vsll | vsrl | vsra => exact h.vv
  | vfadd | vfsub | vfmul | vfmin | vfmax | vfdiv => exact h.vv
  | vmv | vclz | vfsqrt | vfexp | vflog | vfrcp => exact h.vu
  | vaddVs | vsubVs | vmulVs | vmulhVs | vminVs | vmaxVs | vabsdVs | vsaddVs | vandVs | vorVs | vxorVs | vssubVs | vsllVs | vsrlVs | vsraVs => exact h.vs
  | vfaddVs | vfsubVs | vfmulVs | vfminVs | vfmaxVs | vfdivVs => exact h.vs
  | vffma => exact h.execVffma
  | vffmaVs => exact h.execVffmaVs
  | viota | vfscl | vsel | vmvVs | vfsclVs => exact CanonicalRes.finish (.vecOnly (.withTy fun _ => h.velem)) h
  | vfcvt => exact CanonicalRes.finish (.vecOnly (.withTy fun _ => .withTy fun _ => h.velem)) h
  | vredsum | vdot => exact CanonicalRes.finish (.vecOnly (.withTy fun _ => .vreduce fun _ _ => h.putMe)) h
  | vscan => exact h.execVscan
  | vredmax | vredmin => exact h.vredMinMax
  | vargmax => exact h.execVargmax
  | earnd => exact h.execEarnd
  | eald => exact h.execEald
  | east => exact h.execEast
  | vperm | vcompress | vexpand | vslideup | vslidedn => exact CanonicalRes.finish (.vecOnly (.withTy fun _ => h.vperm)) h
  | vcmp | vfcmp | vcmpVs | vfcmpVs => exact CanonicalRes.finish (.vecOnly (.withTy fun _ => h.vcompare)) h
  | pand | por | pxor | pnot => exact h.predLogic
  | vbq => exact h.execVbq
  | vbdq => exact h.execVbdq
  | vld | vlds => exact h.vload
  | vst | vsts => exact h.vstore
  | vldxO | vldxU => exact h.gather
  | vstxO | vstxU => exact h.scatter
  | vamo => exact h.execVamo
  | vamoRet => exact h.execVamoRet
  | vldsc => exact h.execVldsc
  | vstsc => exact h.execVstsc
  | vldrot => exact h.execVldrot
  | copy => exact h.execCopy
  | gathsp => exact h.execGathsp
  | xsend => exact h.execXsend
  | xfetch => exact h.execXfetch
  | xins | xacc => exact h.indexPut
  | xlook => exact h.execXlook
  | prune => exact h.execPrune
  | sphdr => exact h.execSphdr
  | mxatt => exact h.execMxatt
  | mxlds => exact h.execMxlds
  | mxstrm => exact h.execMxstrm
  | mxdrain => exact h.execMxdrain
  | mxclr => exact h.execMxclr
  | mxdet => exact CanonicalRes.finish (.vecOnly h.mxDrop) h
  | mxswap => exact h.execMxswap
  | rcinit => exact h.execRcinit
  | rcnoise => exact h.execRcnoise
  | rcbound => exact h.execRcbound
  | rcpick => exact h.execRcpick
  | rcupd => exact h.execRcupd
  | rcdrop => exact h.execRcdrop
  | rcwait => exact h.execRcwait
  | rcread => exact h.execRcread
  | rcset => exact h.execRcset
  | clredEa | clredI64 | clredF32max | clredF32min | clbcast | clargmax => exact h.collective
  | tkemit => exact h.execTkemit
  | tkflush => exact h.execTkflush
  | emptySyllable => exact h
  | eret => exact h.execEret
  | icinv =>
    have h1 : Canonical (enterWrites (flushStrand s s.cur)) := h.flushStrand.enterWrites
    unfold execIcinv
    dsimp only
    generalize enterWrites (flushStrand s s.cur) = s1 at h1
    exact CanonicalRes.finish (.ite (h.waitOr h1) h1.withIcache) h
  | yield => exact h.execYield
  | packageReset => exact canonical_execPackageReset
  | throttleIntervalEnd => exact h.execThrottleIntervalEnd
  | thermalTrip | thermalTripClear => exact h.withPower
  | thermalShutdown => exact h.execThermalShutdown
  | registerWrite => exact h.execRegisterWrite
  | measExtend => exact h.execMeasExtend
  | rdreq | wrreq | atreq | rdata | wdone | cldat | xsdat | dack | nak | unav => exact h.flitEvent
  | planeTimerExpiry => exact h.execPlaneTimerExpiry
  | portLockLost => exact h.execPortLockLost
  | portLockGained => exact h.execPortLockGained
  | bridgeDown => exact h.execBridgeDown
  | fabctlHeldDiscard => exact h.withFabric
  | newRequest | requestTextContinued | cancelGeneration => exact h.dgramEvent
  | resendRequest => exact h.execResendRequest
  | ptpEventReceive => exact h.execPtpEventReceive
  | ptpEventTransmit => exact h.execPtpEventTransmit
  | ethernetFrameReceive => exact h.execEthernetFrameReceive
  | status => exact h.execStatus
  | quote => exact h.execQuote
  | log => exact h.execLog
  | cert => exact h.execCert
  | counters => exact h.execCounters
  | tenantCreate => exact h.execTenantCreate
  | tenantReset => exact h.execTenantReset
  | tenantDestroy => exact h.execTenantDestroy
  | tenantResetComplete => exact h.execTenantResetComplete
  | streamOpen => exact h.execStreamOpen
  | streamClose => exact h.execStreamClose
  | filterSet => exact h.execFilterSet
  | lcRequest => exact h.execLcRequest
  | svnRaise => exact h.execSvnRaise
  | recoverWrite => exact h.execRecoverWrite
  | tsstepWrite => exact h.execTsstepWrite
  | trtailWrite => exact h.execTrtailWrite
  | trctlWrite => exact h.execTrctlWrite
  | snapshotFire => exact h.fireSnapshot
  | snapatMatch => exact h.snapMatch.event
  | snapshotValidClear => exact h.clearValid
  | wqtailWrite => exact h.execWqtailWrite
  | wqctlWrite => exact h.execWqctlWrite
  | wqstatClr => exact h.execWqstatClr
  | packetConsume => exact h.execPacketConsume
  | launchReady => exact h.execLaunchReady
  | recordExpand => exact h.execRecordExpand
  | launchComplete => exact h.execLaunchComplete
  | launchEnqueue => exact h.execLaunchEnqueue
  | recordDispatch => exact h.execRecordDispatch
  | agingQuantum => exact h.execAgingQuantum
  | preemptPriority => exact h.execPreemptPriority
  | preemptionQuantum => exact h.execPreemptionQuantum
  | preemptSave => exact h.execPreemptSave
  | saveSlotFreed => exact h.execSaveSlotFreed
  | resumew => exact h.execResumew
  | killw => exact h.execKillw
  | flttailWrite => exact h.execFlttailWrite
  | fltctlWrite => exact h.execFltctlWrite
  | softError => exact h.execSoftError
  | tlbinv => exact h.execTlbinv
  | tlbInvalidationFinish => exact h.tlbFinish.event
  | engineElementLand => exact h.execEngineElementLand
  | engineElementFault => exact h.execEngineElementFault
  | pathQueueLeave => exact h.execPathQueueLeave
  | atomicPerform => exact h.execAtomicPerform
  | applyWrite => exact h.execApplyWrite
  | ticketAdvance => exact h.execTicketAdvance
  | lateFailure => exact h.execLateFailure
  | barrierWaitEnd => exact h.execBarrierWaitEnd
  | homeFinalize | homeResolve => exact Canonical.raceEvent fun _ => h.homeStep
  | memberMerge | memberAbort => exact Canonical.raceEvent fun _ => h.memberStep
  | illegalInstruction => exact h.execIllegalInstruction
  | powerLoss => exact h.of_eq rfl rfl
  | tscReferenceCycle => exact h.execTscReferenceCycle
  | arithmeticCycle => exact h.execArithmeticCycle

end Sys2Proof.Machine
end

section
/-! SUPPORT. Canonical memory, fourteenth part: the run ahead of a strand. -/

namespace Sys2Proof.Machine

variable {s t : State} {n d q c k x y : Nat} {w : BitVec 32} {ren : Instr → Instr} {a : Ahead} {ws : List (BitVec 32)} {u : Bool} {l : List Nat}

theorem Canonical.withRun {r : Arg} (h : Canonical s) : Canonical { s with arg := r, slot := n } := h

protected theorem Canonical.beginConvoy (h : Canonical s) : Canonical (beginConvoy s ws u) := (h.openAt h).putMe

protected theorem Canonical.runPlain (h : Canonical s) : CanonicalOut (runPlain ren s k w) := by
  unfold runPlain
  dsimp only
  split
  · exact canonical_exec h.withRun
  · exact canonical_exec h.withRun

/-! The state of a run ahead. -/

/-- Whether the state of the run ahead that a syllable passes to, or in which it ends, has canonical memory. -/
def CanonicalStep : AheadStep → Prop
  | .go a => Canonical a.s
  | .done e => Canonical e.state

theorem CanonicalStep.go {r : AheadStep} (h : CanonicalStep r) (e : r = .go a) : Canonical a.s := by subst e; exact h
theorem CanonicalStep.done {r : AheadStep} {b : AheadEnd} (h : CanonicalStep r) (e : r = .done b) : Canonical b.state := by subst e; exact h

protected theorem CanonicalStep.ite {p : Prop} [Decidable p] {r r' : AheadStep} (h : CanonicalStep r) (h' : CanonicalStep r') :
    CanonicalStep (if p then r else r') := by
  split
  · exact h
  · exact h'

protected theorem Canonical.afterSlot (h : Canonical s) : Canonical (afterSlot a k w s).s := h

protected theorem Canonical.aheadAt {b : Ahead} (h : Canonical a.s) (e : aheadAt a = some b) : Canonical b.s := by
  obtain ⟨⟨ws, r⟩, -, rfl⟩ := Option.map_eq_some_iff.1 e
  exact h.putMe.beginConvoy

theorem Canonical.passOn {p : Option Look} (h : Canonical s) : Canonical { s with convoy := none, look := p } := h.endConvoy.withLook

protected theorem Canonical.aheadNext {b : Ahead} (h : Canonical a.s) (e : aheadNext a = .go b) : Canonical b.s := by
  unfold aheadNext at e
  extract_lets st0 st s0 s1 b1 at e
  have h0 : Canonical s0 := h.putMe
  have h1 : Canonical s1 := h0.passOn
  have hb : Canonical b1.s := by
    unfold b1
    split
    exacts [h1, h1]
  clear_value b1 st
  split at e
  · cases e
  · split at e
    · cases e
    · split at e
      · cases e
        exact hb.aheadAt ‹_›
      · cases e

protected theorem Canonical.accessItems (h : Canonical s) : CanonicalOpt (accessItems ren s k w) := by
  unfold accessItems
  refine .ite trivial (.ite h ?_)
  dsimp only
  split
  exacts [.guard h.putMe, trivial]

protected theorem Canonical.notRun (h : Canonical a.s) : Canonical (notRun a w).s := h

protected theorem Canonical.skipSlot (h : Canonical a.s) : CanonicalStep (skipSlot ren a k w u) := by
  unfold skipSlot
  refine .ite ?_ (.ite h ?_)
  · refine Canonical.notRun ?_
    split
    exacts [h.queueItem, h]
  · split
    exacts [h.accessItems.some ‹_›, h]

protected theorem Canonical.guessBranch (h : Canonical a.s) : Canonical (guessBranch a w).s := h.takePick.setNpc.ite h.takePick

protected theorem Canonical.aheadSlot {f : Nat → Bool} (h : Canonical a.s) : CanonicalStep (aheadSlot f a k w) := by
  unfold aheadSlot
  extract_lets mj ren looks loads blind
  refine .ite h (.ite h (.ite h (.ite h.skipSlot (.ite (.ite h (.ite h.guessBranch h)) (.ite ?_ ?_)))))
  · refine Canonical.notRun ?_
    split
    exacts [Canonical.queueItem h.withSlot, h]
  · split
    · refine .ite (.ite h (h.runPlain.next ‹_›).afterSlot) (.ite (h.runPlain.next ‹_›) h)
    · exact h

protected theorem Canonical.aheadRun {f : Nat → Bool} {g : Ahead → Bool} (h : Canonical a.s) : Canonical (aheadRun f g n a).state := by
  induction n generalizing a with
  | zero => exact h
  | succ n ih =>
    unfold aheadRun
    split
    · exact h
    · split
      · split
        exacts [ih (h.aheadNext ‹_›), h, h, h]
      next k r _ =>
        have h1 : CanonicalStep (aheadSlot f { a with todo := r } k (a.words.getD k 0)) := Canonical.aheadSlot (a := { a with todo := r }) h
        split
        next heq => exact ih (h1.go heq)
        next heq => exact h1.done heq

end Sys2Proof.Machine
end

section
/-! SUPPORT. Canonical memory, fifteenth part: convoys, strands and the step. -/

namespace Sys2Proof.Machine

variable {s t : State} {n d q c k x y : Nat} {w : BitVec 32} {va : Word} {ren : Instr → Instr} {ws : List (BitVec 32)} {u : Bool} {l : List Nat}

/-! What a strand takes over from a run ahead. -/

theorem Canonical.adopt {f : Fabric} {p : Sched} {x y : Nat} {l : List Nat} (h : Canonical s) :
    Canonical { s with fabric := f, sched := p, ord := { s.ord with nextTicket := x, performed := y, dead := l } } :=
  h.withOrd (h.1.of_eq rfl rfl)

theorem Canonical.adoptOrd {f : Fabric} {o : Ordering_} (h : Canonical s) (ho : CanonicalOrd o) : Canonical { s with fabric := f, ord := o } :=
  h.withOrd ho

theorem Canonical.adoptPicks {f : Fabric} {p : Sched} (h : Canonical s) : Canonical { s with fabric := f, sched := p } := h

protected theorem Canonical.lookFrom {o : Option Nat} (h : Canonical s) : Canonical (lookFrom s u o) := h
protected theorem Canonical.adoptRun (h : Canonical s) : Canonical (adoptRun s t) := h.adopt.putMe
protected theorem Canonical.adoptLoad (h : Canonical s) : Canonical (adoptLoad s t) := h.adoptPicks.putMe
protected theorem Canonical.adoptAtom (h : Canonical s) (ht : Canonical t) : Canonical (adoptAtom s t) := (h.adoptOrd ht.1).putMe
protected theorem Canonical.lookFurther (h : Canonical s) : Canonical (lookFurther s) := h.putMe

/-- A load or an atomic of a run ahead that leaves. -/
protected theorem Canonical.leaveAhead (h : Canonical s) : CanonicalOpt (leaveAhead s k n u) := by
  unfold leaveAhead
  extract_lets s0 c a back hit kept
  have h0 : Canonical s0 := h.withCur
  have hc : Canonical c := h0.lookFrom
  have ha : ∀ b, a = some b → Canonical b.s := by
    intro b e
    unfold a at e
    split at e
    · cases e
      exact hc.openAt hc
    · exact hc.aheadAt e
  clear_value a
  cases a with
  | none => trivial
  | some b =>
    have h1 : ∀ g, Canonical (aheadRun executeSide g (me s0).lookFuel b).state := fun _ => (ha b rfl).aheadRun
    have h2 := h1 fun a => hit a.s
    dsimp only [Option.map]
    generalize aheadRun executeSide (fun a => hit a.s) (me s0).lookFuel b = e at h2
    refine .ite ((h0.adoptAtom h2).ite h0.adoptLoad).withCur ?_
    split
    exacts [h0.lookFurther.withCur, trivial]

protected theorem Canonical.takeFed {a : Ahead} (h : Canonical s) : Canonical (takeFed s a u) := h.adoptRun.putMe
protected theorem Canonical.waitAhead (h : Canonical s) : CanonicalOut (waitAhead s t) := h.adoptRun.waitHere.holdConvoy

protected theorem Canonical.feed (h : Canonical s) (ht : Canonical t) : CanonicalOut (feed ren s k w l t) := by
  unfold feed
  dsimp only
  split
  exacts [h.takeFed.runPlain, h.waitAhead, h.lookFurther.waitHere.holdConvoy, ht, ht]

protected theorem Canonical.adoptAfter {r : State} (h : Canonical s) : Canonical (adoptAfter s t r) := h.adoptRun.ite h

protected theorem Canonical.drainAhead (h : Canonical s) (ht : Canonical t) : CanonicalOut (drainAhead s t k l) := by
  unfold drainAhead
  split
  exacts [ht, h.adoptAfter.waitHere.holdConvoy, h.lookFurther.waitHere.holdConvoy, CanonicalRes.finish trivial h]

protected theorem Canonical.roomAhead (h : Canonical s) (ht : Canonical t) : CanonicalOut (roomAhead s t k l) := by
  unfold roomAhead
  split
  exacts [ht, ht, h.adoptAfter.waitHere.holdConvoy, h.lookFurther.waitHere.holdConvoy, h.waitHere.holdConvoy]

/-! Slots. -/

protected theorem Canonical.lateApply {i : Instr} {b : List Byte} (h : Canonical s) : Canonical (lateApply i b s) := by
  unfold lateApply
  dsimp only
  split
  exacts [h.setS, h.setS, h.putMe, h.putMe, h.putMe, h.addFlags, h]

protected theorem Canonical.runFed (h : Canonical s) : CanonicalOut (runFed ren s k w l) := by
  unfold runFed
  split
  · have h1 := h.runPlain.next ‹_›
    split
    exacts [h.feed h1, h1]
  · exact h.runPlain

protected theorem Canonical.runUsed {f : State → State → Out State} (h : Canonical s)
    (hf : ∀ s t, Canonical s → Canonical t → CanonicalOut (f s t)) : CanonicalOut (runUsed ren s k w l f) := by
  unfold runUsed
  split
  next heq =>
    have h1 := h.runFed.next heq
    split
    · exact h1
    · split
      · exact hf _ _ h h1
      · extract_lets s2
        have h2 : Canonical s2 := h.enterSlots
        clear_value s2
        split
        next heq2 =>
          have h3 := h2.runFed.next heq2
          split
          · exact h3
          · split
            exacts [(h.waitOr h2).holdConvoy, hf _ _ h2 h3]
        · exact h2.runFed
  · exact h.runFed

protected theorem Canonical.unfeed (h : Canonical t) : Canonical (unfeed s t k w) := h.ite h.putMe
protected theorem Canonical.atSlot (h : Canonical s) : Canonical (atSlot s k w) := (h.putMe.ite h).withRun

protected theorem Canonical.runSlot (h : Canonical s) : CanonicalOut (runSlot ren s k w l) := by
  have h0 : Canonical (atSlot s k w) := h.atSlot
  unfold runSlot
  dsimp only
  generalize atSlot s k w = s0 at h0
  split
  · exact h0.waitHere.holdConvoy
  · split
    · exact h0.lateApply.unfeed
    · refine h0.runUsed fun s t h1 h2 => ?_
      split
      · exact h1.drainAhead h2.unfeed
      · split
        exacts [h1.roomAhead h2.unfeed, h2.unfeed]

/-! Convoys. -/

protected theorem Canonical.retire (h : Canonical s) : Canonical (retire s) := h.endConvoy.ite h.endConvoy.putMe.writeMarks
protected theorem Canonical.retireReplay (h : Canonical s) : Canonical (retireReplay s) := h.putMe.retire

theorem CanonicalOpt.trailStep {r : Trail} (hr : CanonicalOpt r.back) (h : Canonical s) : CanonicalOpt (r.step ren s k w t).back :=
  CanonicalOpt.ite hr h.atSlot

protected theorem Canonical.laterFault (h : Canonical s) : CanonicalOpt (laterFault ren ws l s) := by
  induction l generalizing s with
  | nil => trivial
  | cons k l ih =>
    unfold laterFault
    refine .ite trivial ?_
    split
    · have h1 := h.runSlot.next ‹_›
      split
      · exact ih h1
      · split
        exacts [trivial, h1]
    · trivial

protected theorem Canonical.waitSlot {r : Trail} (h : Canonical s) (ht : Canonical t) (hr : CanonicalOpt r.back) :
    Canonical (waitSlot ren ws r s k l t) := by
  unfold waitSlot
  extract_lets b b1 entered late st
  have hb : Canonical b := hr.getD h.atSlot
  have h1 : Canonical b1 := hb.waitHere
  clear_value b b1 entered late
  split
  · split
    next heq =>
      refine CanonicalOpt.some ?_ heq
      split
      exacts [h.laterFault, trivial]
    · exact ht.foldl fun _ _ h => h.putMe
  · exact h1.holdConvoy.ite (ht.ite h1.withFabric.putMe.holdConvoy)

protected theorem Canonical.runSlots {f : State → State} {r : Trail} (h : Canonical s) (hr : CanonicalOpt r.back)
    (hf : ∀ s, Canonical s → Canonical (f s)) : CanonicalOut (runSlots ren f n ws r l s) := by
  induction l generalizing s r with
  | nil => exact hf s h
  | cons k l ih =>
    unfold runSlots
    split
    · exact ih h hr
    · split
      · have h1 := h.runSlot.next ‹_›
        split
        · exact ih h1 (hr.trailStep h)
        · split
          exacts [h.waitSlot h1 hr, h1]
      · trivial
      · trivial

theorem Canonical.stopAt (h : Canonical s) : Canonical { s with slot := n, convoy := none } := h.endConvoy.withSlot

protected theorem Canonical.trapAt (h : Canonical s) : CanonicalOut (trapAt s k c va) := h.stopAt.takeException

protected theorem Canonical.runConvoy (h : Canonical s) : CanonicalOut (runConvoy s ws) := by
  unfold runConvoy
  split
  exacts [h.trapAt, h.beginConvoy.runSlots trivial fun _ h => h.retire]

protected theorem Canonical.stepConvoy (h : Canonical s) : CanonicalOut (stepConvoy s) := by
  unfold stepConvoy
  dsimp only
  split
  next heq => exact (Canonical.ofSnd h.fetchConvoy heq).trapAt
  next heq => exact (Canonical.ofSnd h.fetchConvoy heq).tlbFill.runConvoy

protected theorem Canonical.stepReplay (h : Canonical s) : CanonicalOut (stepReplay s) := by
  unfold stepReplay
  dsimp only
  split
  exacts [h.putMe.trapAt, h.putMe.beginConvoy.runSlots trivial fun _ h => h.retireReplay]

protected theorem Canonical.stepFrame (h : Canonical s) : CanonicalOut (stepFrame s) := by
  unfold stepFrame
  dsimp only
  split
  · exact h.stepReplay
  · split
    next heq => exact (Canonical.ofSnd h.captureConvoys heq).trapAt
    next heq =>
      have h1 := Canonical.ofSnd h.captureConvoys heq
      split
      exacts [h1.trapAt, h1.putMe.stepReplay]

theorem Canonical.withHeld {m : NMap Hold} (h : Canonical s) : Canonical { s with held := m } := h

protected theorem Canonical.resumeConvoy {r : Hold} (h : Canonical s) : CanonicalOut (resumeConvoy s r) := by
  refine h.withHeld.openConvoy.runSlots trivial fun s h => ?_
  split
  exacts [h.retireReplay, h.retire]

protected theorem Canonical.stepStrand (h : Canonical s) : CanonicalOut (stepStrand s) := by
  unfold stepStrand
  split
  · exact h.lateFailure.some ‹_›
  · exact h.resumeConvoy
  · split
    exacts [h.stepFrame, h.stepConvoy]

/-! The moves behind a step. -/

theorem Canonical.withTurn {p : Sched} (h : Canonical s) : Canonical { s with cur := n, sched := p } := h

protected theorem Canonical.turnOver (h : Canonical s) : Canonical (turnOver s) := by
  unfold turnOver
  split
  exacts [h.withTurn, h.withCur.ite h]

protected theorem Canonical.nextCycle (h : Canonical s) : Canonical (nextCycle s) := by
  unfold nextCycle
  split
  exacts [h.arithCycle.some ‹_›, h.arithCycle.getD h]

protected theorem Canonical.tick (h : Canonical s) : Canonical (tick s) := by
  refine Canonical.foldl (Canonical.nextCycle ?_) fun _ _ h => h.refCycle.getD h
  split
  exacts [h.takePick.throttleEnd.getD h, h]

protected theorem Canonical.queueMoves (h : Canonical s) : Canonical (queueMoves s q) := by
  unfold queueMoves
  extract_lets s1 each
  have h1 : Canonical s1 := (h.consumePacket.getD h).ite h
  have hEach : ∀ f s, (∀ s q n, Canonical s → CanonicalOpt (f s q n)) → Canonical s → Canonical (each f s) := fun f s hf h =>
    h.foldl fun _ _ h => (hf _ _ _ h).getD h
  exact hEach _ _ (fun _ _ _ h => h.launchComplete) (hEach _ _ (fun _ _ _ h => h.recordExpand) (hEach _ _ (fun _ _ _ h => h.launchReady) h1))

protected theorem Canonical.dieMoves (h : Canonical s) : Canonical (dieMoves s d) := by
  unfold dieMoves
  extract_lets s1 s2 sids s3
  have h1 : Canonical s1 := by
    unfold s1
    split
    · exact h
    · split
      exacts [h, h.dispatchStep.getD h]
  have h2 : Canonical s2 := Canonical.foldl (h1.agingStep.getD h1) fun _ _ h => h.preemptPrio.getD h
  have h3 : Canonical s3 := h2.foldl fun _ _ h => h.preemptQuantum.getD h
  exact h.ite (Canonical.serveFaults (h3.foldl fun _ _ h => h.preemptSave.getD h))

protected theorem Canonical.autoMoves (h : Canonical s) : Canonical (autoMoves s) := by
  unfold autoMoves
  extract_lets s1 s2 s3 s4 s5
  have h1 : Canonical s1 := h.sendWaiting.eagerMoves
  have h2 : Canonical s2 := h1.foldl fun _ _ h => h.queueMoves
  have h3 : Canonical s3 := h2.foldl fun _ _ h => h.dieMoves
  clear_value s3
  have h4 : Canonical s4 := h3.tlbFinish.getD h3
  have h5 : Canonical s5 := h4.snapMatch.getD h4
  exact h5.foldl fun _ _ h => h.tenantComplete.getD h

protected theorem Canonical.settleStep (h : Canonical s) : Canonical (settleStep s) := h.answerOwns.collStarts.resendsGo

protected theorem Canonical.afterStep (h : Canonical s) : Canonical (afterStep s) :=
  h.settleStep.tick.autoMoves.settleStep.turnOver.ite h.settleStep.turnOver

/-! The step. -/

protected theorem Canonical.serveLook {r : Arg} (h : Canonical s) : CanonicalOut (serveLook s r) := by
  unfold serveLook
  split
  · exact h
  · dsimp only
    split
    next heq =>
      refine CanonicalOpt.some ?_ heq
      split
      exacts [h.withLook.leaveAhead, trivial]
    · trivial
  · trivial

theorem Canonical.atEvent {p : Sched} {r : Arg} (h : Canonical s) : Canonical { s with sched := p, arg := r } := h

protected theorem Canonical.stepEvent {i : Instr} {r : Arg} {l : List (Instr × Arg)} (h : Canonical s) : CanonicalOut (stepEvent s i r l) := by
  unfold stepEvent
  dsimp only
  split
  · trivial
  · split
    · trivial
    · split
      · have h2 := (canonical_exec h.atEvent).next ‹_›
        split
        · have h3 := h2.serveLook.next ‹_›
          exact Canonical.settleStep (h3.settleStep.autoMoves.ite h3)
        · exact h2.serveLook
      · trivial
      · trivial

protected theorem Canonical.stepIssue (h : Canonical s) : CanonicalOut (stepIssue s) := by
  unfold stepIssue
  split
  · exact h.afterStep
  · split
    exacts [(h.withCur.stepStrand.next ‹_›).afterStep, trivial, trivial]

protected theorem Canonical.stepPackage (h : Canonical s) : CanonicalOut (stepPackage s) := by
  unfold stepPackage
  split
  · exact h.stepEvent
  · split
    · trivial
    · split
      exacts [h.strapCheck.bootRun, h.stepIssue]

protected theorem Canonical.step (h : Canonical s) : CanonicalOut (step s) := h.stepPackage

/-- Settles O57: every operation of the machine passes canonical memory on, and a step is made of them. -/
theorem stepKeepsMemoryCanonical : Obligations.StepKeepsMemoryCanonical := fun _ _ h e => h.step.next e

/-- Settles O56: no die's view and no scratchpad holds an entry. -/
theorem resetCanonical : Obligations.ResetCanonical := canonical_reset

end Sys2Proof.Machine
end

section
/-! SUPPORT. What the work-queue unit changes of a queue and of its launches, what its reads leave, and the events of the work queues
(R85 to R99, R291). -/

namespace Sys2Proof.Machine

/-! What leaves the queues as they are. -/

theorem queueOf_of_queues {s t : State} (h : t.queues = s.queues) (q : Nat) : queueOf t q = queueOf s q := by rw [queueOf, queueOf, h]

theorem queueOf_putQueue_ne (s : State) {q k : Nat} (x : WorkQueue) (h : k ≠ q) : queueOf (putQueue s q x) k = queueOf s k :=
  NMap.getD_set_ne _ _ _ _ _ h

@[simp] theorem memWrite_queues (s : State) (e loc home : Nat) (b : List Byte) : (memWrite s e loc home b).queues = s.queues := by
  unfold memWrite
  split <;> rfl

theorem unitPut_queues {s t : State} {tenant : Nat} {va : Word} {b : List Byte} {rel : Bool} (h : unitPut s tenant va b rel = some t) :
    t.queues = s.queues := by
  unfold unitPut at h
  split at h <;> cases h
  · exact memWrite_queues ..
  · exact memWrite_queues ..
  · rfl

theorem queueError_queues (s : State) (q cause idx off w0 wf : Nat) : (queueError s q cause idx off w0 wf).queues = s.queues := by
  unfold queueError
  dsimp only
  split
  · rfl
  · cases h : unitWrite s _ _ _ with
    | none => rfl
    | some t => exact unitPut_queues h

/-! Stops, tails and the control register (R87 to R90). -/

@[simp] theorem queueOf_stopQueue (s : State) (q cause idx off w0 wf : Nat) :
    queueOf (stopQueue s q cause idx off w0 wf) q = { queueOf s q with stop := cause } := by
  rw [stopQueue, queueOf_of_queues (queueError_queues ..), queueOf_putQueue]

theorem tailCause_eq (x : WorkQueue) (v : Nat) : tailCause x v = if v % 64 ≠ 0 then 1 else if 64 * 2 ^ x.size ≤ v then 2 else 0 := rfl

/-- The check of a queue that has not stopped leaves the cause that its tail gives. -/
theorem queueOf_checkTail {s : State} {q : Nat} (h : (queueOf s q).stop = 0) :
    queueOf (checkTail s q) q = { queueOf s q with stop := tailCause (queueOf s q) (queueOf s q).tail } := by
  unfold checkTail
  dsimp only
  split
  · next hValid => rw [hValid, ← h]
  · rw [queueOf_stopQueue]

theorem writeTail_device {s : State} {q : Nat} (v : Word) (h : 512 ≤ q) : writeTail s q v = s := if_pos h

theorem queueOf_writeTail {s : State} {q : Nat} (v : Word) (h : q < 512) :
    queueOf (writeTail s q v) q = { queueOf s q with
      tail := v.toNat, stop := if (queueOf s q).stop ≠ 0 then (queueOf s q).stop else tailCause (queueOf s q) v.toNat } := by
  rw [writeTail, if_neg (Nat.not_le.mpr h)]
  by_cases hStop : (queueOf s q).stop = 0
  · simp [hStop, queueOf_checkTail, tailCause_eq]
  · simp [hStop]

theorem queueOf_clearStop (s : State) (q : Nat) :
    queueOf (clearStop s q) q = { queueOf s q with stop := tailCause (queueOf s q) (queueOf s q).tail } := by
  rw [clearStop, queueOf_checkTail (by simp), queueOf_putQueue]
  rfl

/-- What a write to WQCTL makes of a queue (R88). -/
def controlled (x : WorkQueue) (v : Word) : WorkQueue :=
  let size := v.toNat / 256 % 32
  if x.en then { x with en := v.getLsbD 0 }
  else if size < 6 ∨ 16 < size then x
  else if v.getLsbD 0 then
    { x with size := size, en := true, head := 0, tail := 0, comp := 0, nextId := 1, stop := 0, doneIds := [], epoch := x.epoch + 1 }
  else { x with size := size }

/-- A write to WQCTL puts the queue that R88 gives, or changes nothing where its SIZE is out of range. -/
theorem writeWqctl_cases (s : State) (q : Nat) (v : Word) :
    writeWqctl s q v = putQueue s q (controlled (queueOf s q) v) ∨ (writeWqctl s q v = s ∧ controlled (queueOf s q) v = queueOf s q) := by
  have hSize : bitsW v 8 5 = v.toNat / 256 % 32 := rfl
  simp only [writeWqctl, controlled, hSize, bitW, Bool.or_eq_true, decide_eq_true_eq]
  split
  · exact .inl rfl
  · split
    · exact .inr ⟨rfl, rfl⟩
    · split <;> exact .inl rfl

theorem writeWqctl_frame (s : State) (q : Nat) (v : Word) : { writeWqctl s q v with queues := s.queues } = s := by
  rcases writeWqctl_cases s q v with h | ⟨h, -⟩ <;> rw [h]
  rfl

theorem queueOf_writeWqctl_ne (s : State) {q k : Nat} (v : Word) (hk : k ≠ q) : queueOf (writeWqctl s q v) k = queueOf s k := by
  rcases writeWqctl_cases s q v with h | ⟨h, -⟩ <;> rw [h]
  exact queueOf_putQueue_ne _ _ hk

theorem queueOf_writeWqctl (s : State) (q : Nat) (v : Word) : queueOf (writeWqctl s q v) q = controlled (queueOf s q) v := by
  rcases writeWqctl_cases s q v with h | ⟨h, hSame⟩
  · rw [h, queueOf_putQueue]
  · rw [h, hSame]

/-! A unit's reads (R162, R168). -/

/-- The state that a unit's read leaves; none where it waits. -/
def UnitGot.left : UnitGot → Option State
  | .bytes _ u | .fail _ u | .asked u => some u
  | .waiting => none

theorem unitAsk_left {slot elem pkg pa n : Nat} {s u : State} {va : Word} (h : (unitAsk slot s elem pkg pa n va).left = some u) :
    ∃ f l, u = { s with fabric := f, strands := l } := by
  unfold unitAsk at h
  dsimp only at h
  split at h
  · cases h
  · split at h <;> cases h
    exact ⟨_, _, rfl⟩

theorem unitForget_eq (s : State) (p : Answer → Bool) : ∃ l, unitForget s p = { s with strands := l } := by
  unfold unitForget
  dsimp only
  split <;> exact ⟨_, rfl⟩

section UnitGet
variable {s u : State} {tenant n e : Nat} {va : Word}

theorem unitGetBy_left {slot : Nat} {used : State} (hUsed : ∃ l, used = { s with strands := l })
    (h : (unitGetBy slot used s tenant va n e).left = some u) : ∃ f l, u = { s with fabric := f, strands := l } := by
  obtain ⟨l, rfl⟩ := hUsed
  unfold unitGetBy at h
  split at h
  · cases h
    exact ⟨_, _, rfl⟩
  · split at h
    · exact unitAsk_left h
    · split at h <;> cases h <;> exact ⟨_, _, rfl⟩
  · split at h <;> cases h <;> exact ⟨_, _, rfl⟩

/-- A unit's read changes the strands, where its answers stand, and the fabric alone. -/
theorem unitGet_left (h : (unitGet s tenant va n e).left = some u) : ∃ f l, u = { s with fabric := f, strands := l } :=
  unitGetBy_left (unitForget_eq s _) h

theorem unitGet_of_error {c : Nat} (h : checkUnit s tenant .load va = .error c) : unitGet s tenant va n e = .fail c s := by
  simp [unitGet, unitGetBy, h]

theorem unitGet_of_mem {loc home : Nat} (h : checkUnit s tenant .load va = .ok (.mem loc home)) :
    unitGet s tenant va n e = if readPoisoned s 0 loc n = true then .fail cData s else .bytes (memRead s 0 loc n) s := by
  cases hPoison : readPoisoned s 0 loc n <;> simp [unitGet, unitGetBy, h, unitLocal, hPoison]

theorem unitGet_of_answer {pkg pa : Nat} {x : Answer} {b : List Byte} (h : checkUnit s tenant .load va = .ok (.peer pkg pa))
    (hAnswer : answerOf (strandOf s unitSid) unitSlot e = some x) (hData : x.data = some (.bytes b)) :
    ∃ u, unitGet s tenant va n e = .bytes b u := by
  simp [unitGet, unitGetBy, h, hAnswer, hData]

end UnitGet

/-! The launches of a queue (R94 to R97). -/

/-- A queue's head and the ids of its launches: what making a launch ready leaves. -/
def headAndIds (x : WorkQueue) : Nat × List Nat := (x.head, x.live.map (·.id))

theorem headAndIds_updLaunch (s : State) (q id : Nat) {f : Launch → Launch} (hf : ∀ l, (f l).id = id) :
    headAndIds (queueOf (updLaunch s q id f) q) = headAndIds (queueOf s q) := by
  have hId : ∀ l : Launch, (if l.id = id then f l else l).id = l.id := by
    intro l
    split
    · next h => rw [hf, h]
    · rfl
  simp [headAndIds, updLaunch, Function.comp_def, hId]

/-- The launch that a queue holds after one has been put in its place. -/
theorem launchOf_updLaunch {s : State} {q : Nat} {l l' : Launch} (h : launchOf (updLaunch s q l.id fun _ => l) q l.id = some l') : l' = l := by
  simp only [launchOf, updLaunch, queueOf_putQueue] at h
  have hId : l'.id = l.id := by simpa using List.find?_some h
  obtain ⟨a, -, ha⟩ := List.mem_map.mp (List.mem_of_find?_eq_some h)
  split at ha
  · exact ha.symm
  · next hOther => exact absurd (ha ▸ hId) hOther

theorem headAndIds_withCount (s : State) (q : Nat) (l : Launch) (e : Nat) :
    headAndIds (queueOf (withCount s q l e) q) = headAndIds (queueOf s q) := by
  refine headAndIds_updLaunch s q l.id fun _ => ?_
  split
  · rfl
  · split <;> rfl

theorem headAndIds_readyLaunch {s t : State} {q : Nat} {l : Launch} (h : readyLaunch s q l = some t) :
    headAndIds (queueOf t q) = headAndIds (queueOf s q) := by
  unfold readyLaunch at h
  split at h
  · cases h
    exact headAndIds_updLaunch _ _ _ fun _ => rfl
  · split at h <;> cases h
    · next hGot =>
      obtain ⟨_, _, rfl⟩ := unitGet_left (congrArg UnitGot.left hGot)
      exact headAndIds_updLaunch _ _ _ fun _ => rfl
    · next hGot =>
      obtain ⟨_, _, rfl⟩ := unitGet_left (congrArg UnitGot.left hGot)
      exact headAndIds_withCount _ _ _ _
    · next hGot =>
      obtain ⟨_, _, rfl⟩ := unitGet_left (congrArg UnitGot.left hGot)
      rfl
  · cases h
    exact headAndIds_withCount _ _ _ _

theorem launchReady_of_met {s : State} {q id : Nat} {l : Launch}
    (hPending : (pendingSet (queueOf s q)).find? (fun l => l.id == id) = some l) (hMet : depMet (queueOf s q) l = true) :
    launchReady s q id = readyLaunch s q l := by
  rw [launchReady, hPending]
  exact if_pos hMet

/-- An indirect launch whose count cannot be read is finished with status 2 (R96). -/
theorem readyLaunch_of_fail {s u : State} {q c : Nat} {l : Launch} (hTy : l.ty = .indirect)
    (hGot : unitGet s (queueTenant q) l.countW 8 (countElem q l) = .fail c u) :
    readyLaunch s q l = some (updLaunch u q l.id fun _ => { l with ready := true, status := 2, finished := true }) := by
  simp [readyLaunch, hTy, hGot]

/-! The packet at the head (R86, R92, R93, R118). -/

/-- The words of a packet. -/
def packetWord (b : List Byte) (i : Nat) : Nat := leAt b (8 * i) 8

/-- The launch that a well-formed packet becomes: already cancelled where its tenant is being reset. -/
def takenLaunch (s : State) (q : Nat) (b : List Byte) : Launch :=
  let x := queueOf s q
  let l := { mkLaunch (x.epoch * 2 ^ 32 + headId q x) (packetWord b) with clock := appliedOf s.ord 0 }
  if (tenantOf s (queueTenant q)).phase = 2 then { l with cancelled := true, status := 4, finished := true } else l

/-- The queue that has taken a launch. -/
def takenQueue (q : Nat) (x : WorkQueue) (l : Launch) : WorkQueue :=
  { x with head := (x.head + 64) % (64 * queueSlots x), nextId := if q < 512 then nextId x.nextId else x.nextId, live := x.live ++ [l] }

theorem takenLaunch_id (s : State) (q : Nat) (b : List Byte) :
    (takenLaunch s q b).id = (queueOf s q).epoch * 2 ^ 32 + headId q (queueOf s q) := by
  unfold takenLaunch
  dsimp only
  split <;> rfl

/-- A launch of a tenant that is being reset is over before it is ready (R118). -/
theorem takenLaunch_of_reset {s : State} {q : Nat} (b : List Byte) (h : (tenantOf s (queueTenant q)).phase = 2) :
    takenLaunch s q b =
      { mkLaunch ((queueOf s q).epoch * 2 ^ 32 + headId q (queueOf s q)) (packetWord b) with
        clock := appliedOf s.ord 0, cancelled := true, status := 4, finished := true } := if_pos h

theorem takePacket_of_bad {s : State} {q i : Nat} {b : List Byte}
    (h : badWord (decide (q < 512)) (headId q (queueOf s q)) (packetWord b) = some i) :
    takePacket s q b = stopQueue s q 3 i (queueOf s q).head (packetWord b 0) (packetWord b i) := by
  unfold packetWord at h ⊢
  simp only [takePacket, h]

section TakePacket
variable {s : State} {q : Nat} {b : List Byte} (h : badWord (decide (q < 512)) (headId q (queueOf s q)) (packetWord b) = none)
include h

theorem takePacket_of_good :
    let l := takenLaunch s q b
    let s1 := putQueue s q (takenQueue q (queueOf s q) l)
    takePacket s q b = if !l.finished && depMet (queueOf s1 q) l then (readyLaunch s1 q l).getD s1 else s1 := by
  unfold packetWord at h
  unfold takePacket takenLaunch takenQueue packetWord
  simp only [h]

theorem headAndIds_takePacket :
    headAndIds (queueOf (takePacket s q b) q) = headAndIds (takenQueue q (queueOf s q) (takenLaunch s q b)) := by
  rw [takePacket_of_good h]
  split
  · cases hReady : readyLaunch _ _ _ with
    | none => simp
    | some t =>
      rw [Option.getD_some, headAndIds_readyLaunch hReady, queueOf_putQueue]
  · rw [queueOf_putQueue]

theorem queueOf_takePacket_of_reset (hReset : (tenantOf s (queueTenant q)).phase = 2) :
    queueOf (takePacket s q b) q = takenQueue q (queueOf s q) (takenLaunch s q b) := by
  have hFinished : (takenLaunch s q b).finished = true := by rw [takenLaunch_of_reset b hReset]
  simp [takePacket_of_good h, hFinished]

end TakePacket

section Consume
variable {s u : State} {q : Nat}

theorem execPacketConsume_eq (hArg : s.arg = .n1 q) (hEn : (queueOf s q).en = true) (hStop : (queueOf s q).stop = 0)
    (hPacket : (queueOf s q).head ≠ (queueOf s q).tail) (hRoom : (pendingSet (queueOf s q)).length < 16) :
    exec .packetConsume s = event "PACKET_CONSUME" (consumePacket s q) := by
  change execPacketConsume s = _
  simp [execPacketConsume, hArg, canConsume, hEn, hStop, hPacket, hRoom]

theorem consumePacket_of_fail {c : Nat}
    (h : unitGet s (queueTenant q) (wordOf ((queueOf s q).base.toNat + (queueOf s q).head)) 64 (packetElem q (queueOf s q)) = .fail c u) :
    consumePacket s q = some (stopQueue u q 4 0 (queueOf s q).head 0 0) := by
  simp only [consumePacket, h]

theorem consumePacket_of_asked
    (h : unitGet s (queueTenant q) (wordOf ((queueOf s q).base.toNat + (queueOf s q).head)) 64 (packetElem q (queueOf s q)) = .asked u) :
    consumePacket s q = some u := by
  simp only [consumePacket, h]

theorem consumePacket_of_bytes {b : List Byte}
    (h : unitGet s (queueTenant q) (wordOf ((queueOf s q).base.toNat + (queueOf s q).head)) 64 (packetElem q (queueOf s q)) = .bytes b u) :
    consumePacket s q = some (takePacket u q b) := by
  simp only [consumePacket, h]

end Consume

/-! The records of a ready launch, and its completion (R97, R99). -/

theorem allocCell_eq (s : State) (c : Cell) : ∃ p l n, (allocCell s c).2 = { s with sched := p, cells := l, nextCell := n } := by
  obtain ⟨p, h⟩ := takePick_eq s (2 ^ 20)
  unfold allocCell
  generalize takePick s (2 ^ 20) = x at h ⊢
  obtain ⟨_, _⟩ := x
  cases h
  exact ⟨_, _, _, rfl⟩

theorem canExpand_of {s : State} {l : Launch} (hReady : l.ready = true) (hLive : l.finished = false) (hTy : l.ty ≠ .marker)
    (hNext : l.next < recordCount l) (hRoom : l.root.isSome = true ∨ 36920 ≤ freeCells s) : canExpand s l = true := by
  simp [canExpand, hReady, hLive, hTy, hNext, hRoom]

/-- The next record of a launch joins the ready ones, after every other (R97, R103). -/
theorem expandRecord_ready (s : State) (q : Nat) (l : Launch) :
    ∃ root, (expandRecord s q l).ready =
      s.ready ++ [{ launchRecord q l l.next root with readyAt := s.power.working, order := s.orderNo, passed := [] }] := by
  unfold expandRecord
  cases l.root with
  | some c => exact ⟨c, rfl⟩
  | none =>
    obtain ⟨p, c, n, hCell⟩ := allocCell_eq s { count := recordCount l, tenant := queueTenant q, isChild := false, cont := .complete q l.id }
    dsimp only
    rw [hCell]
    exact ⟨_, rfl⟩

/-! LAUNCH's packet in its ring (R291). -/

theorem addCell_eq (s : State) (c n : Nat) : ∃ l, addCell s c n = { s with cells := l } := by
  unfold addCell
  split <;> exact ⟨_, rfl⟩

theorem standNow_eq (s : State) : ∃ c, standNow s = { s with convoy := c } := by
  unfold standNow
  split <;> exact ⟨_, rfl⟩

@[simp] theorem standNow_ord (s : State) : (standNow s).ord = s.ord := by
  obtain ⟨_, h⟩ := standNow_eq s
  rw [h]

@[simp] theorem standNow_queues (s : State) : (standNow s).queues = s.queues := by
  obtain ⟨_, h⟩ := standNow_eq s
  rw [h]

/-- The packet of a queue of this package stands in its slot, die 0 sees it, and the queue's tail and next id move; then sd takes the launch's id. -/
theorem enqueueLaunch_mem {s : State} (q : Nat) (sd : BitVec 5) {loc : Nat} (home : Nat) (b : List Byte) (h : vacatedFrame s loc = false) :
    let x := queueOf s q
    let o := performWrite s.ord (me s).die loc home b
    ∃ s1, enqueueLaunch s q sd (.mem loc home) b = setS s1 sd (wordOf x.nextId) ∧ s1.ord = reach o 0 (appliedOf o (me s).die) ∧
      queueOf s1 q = { x with tail := (x.tail + 64) % (64 * queueSlots x), nextId := nextId x.nextId } := by
  have hCells : ∃ l, (if leAt b 0 1 = 3 then addCell s (leAt b 24 8 / 2 ^ 32) 1 else s) = { s with cells := l } := by
    split
    · exact addCell_eq ..
    · exact ⟨s.cells, rfl⟩
  obtain ⟨l, hCells⟩ := hCells
  have hWrite : memWrite { s with cells := l } (me s).die loc home b =
      { s with cells := l, ord := performWrite s.ord (me s).die loc home b } := if_neg (by simpa [vacatedFrame] using h)
  unfold enqueueLaunch
  dsimp only
  rw [hCells]
  have hMe : me { s with cells := l } = me s := rfl
  simp only [hMe, hWrite]
  refine ⟨_, rfl, ?_, ?_⟩
  · simp
  · rw [queueOf_of_queues (standNow_queues _)]
    exact queueOf_putQueue _ _ _

theorem launchEnqueue_of_ok {s : State} {q pa loc home : Nat} (sd : Nat) {p : Place} (hTrunk : (me s).trunk = false) (hRun : (me s).run = .running)
    (hHeld : pdHeld s = false) (hQueue : q / 64 = 8 + (me s).tenant) (hEn : (queueOf s q).en = true) (hStop : (queueOf s q).stop = 0)
    (hLoad : checkScalar s (me s) .load 64 (wordOf pa) = .ok (.mem loc home)) (hPoison : readPoisoned s (me s).die loc 64 = false)
    (hGood : badWord false (queueOf s q).nextId (packetWord (memRead s (me s).die loc 64)) = none)
    (hLink : leAt (memRead s (me s).die loc 64) 0 1 = 3 → linkOk s (me s).tenant (packetWord (memRead s (me s).die loc 64) 3 / 2 ^ 32) = true)
    (hRoom : queueHeld (queueOf s q) < queueSlots (queueOf s q) - 1)
    (hStore : checkScalar s (me s) .store 64 (tailSlot (queueOf s q)) = .ok p) :
    launchEnqueue s q sd pa = some (enqueueLaunch s q (BitVec.ofNat 5 sd) p (memRead s (me s).die loc 64)) := by
  unfold packetWord at hGood hLink
  rw [launchEnqueue]
  simp only [hLoad]
  rw [if_neg]
  · simp only [hStore]
  · simpa [hTrunk, hRun, hHeld, hQueue, hEn, hStop, hPoison, hGood] using ⟨hLink, Nat.add_lt_of_lt_sub hRoom⟩

/-- Settles O48, event by event: each event's own lemma gives its state, from the checks that its hypotheses meet. -/
theorem workQueues : Obligations.WorkQueues := by
  unfold Obligations.WorkQueues
  refine ⟨?deviceTail, ?hostTail, ?control, ?clear, ?consume, ?reads, ?ready, ?expand, ?complete, ?enqueue⟩
  case deviceTail =>
    intro s q v hArg hlo hhi
    simp only [exec, execWqtailWrite, hArg, if_pos hhi, writeTail_device v hlo, event]
  case hostTail =>
    intro s q v hArg hHost x
    refine ⟨writeTail s q v, ?_, ?_⟩
    · simp only [exec, execWqtailWrite, hArg, if_pos (show q < 4608 by omega), event]
    · rw [queueOf_writeTail v hHost]
      exact ⟨rfl, rfl⟩
  case control =>
    intro s q v hArg hq x size
    refine ⟨writeWqctl s q v, ?_, writeWqctl_frame s q v, fun k hk => queueOf_writeWqctl_ne s v hk, queueOf_writeWqctl s q v⟩
    simp only [exec, execWqctlWrite, hArg, if_pos hq, event]
  case clear =>
    intro s q hArg hq x
    refine ⟨clearStop s q, ?_, ?_⟩
    · simp only [exec, execWqstatClr, hArg, if_pos hq, event]
    · rw [queueOf_clearStop]
      rfl
  case consume =>
    intro s q hArg x got hEn hStop hPacket hRoom
    rw [execPacketConsume_eq hArg hEn hStop hPacket hRoom]
    refine ⟨fun c u hGot => ?_, fun u hGot => ?_, fun b u hGot => ?_⟩
    · rw [consumePacket_of_fail hGot]
      exact ⟨_, rfl, by rw [queueOf_stopQueue]⟩
    · rw [consumePacket_of_asked hGot, event]
    · rw [consumePacket_of_bytes hGot]
      obtain ⟨f, l, hu⟩ := unitGet_left (congrArg UnitGot.left hGot)
      have hQueue : queueOf u q = x := by rw [hu]; rfl
      have hLaunch : takenLaunch u q b = takenLaunch s q b := by rw [hu]; rfl
      rw [← hQueue]
      refine ⟨fun i hBad => ⟨_, rfl, ?_⟩, fun hGood => ⟨_, rfl, ?_, ?_, fun hReset => ?_⟩⟩
      · rw [takePacket_of_bad hBad, queueOf_stopQueue]
      · exact congrArg Prod.fst (headAndIds_takePacket hGood)
      · refine (congrArg Prod.snd (headAndIds_takePacket hGood)).trans ?_
        simp only [headAndIds, takenQueue, List.map_append, List.map_cons, List.map_nil, takenLaunch_id]
        rfl
      · have hReset' : (tenantOf u (queueTenant q)).phase = 2 := by rw [hu]; exact hReset
        rw [queueOf_takePacket_of_reset hGood hReset', hLaunch, takenLaunch_of_reset b hReset, hQueue]
        rfl
  case reads =>
    intro s tenant n e va
    exact ⟨fun _ h => unitGet_of_error h, fun _ _ h => unitGet_of_mem h, fun _ _ _ _ h hAnswer hData => unitGet_of_answer h hAnswer hData⟩
  case ready =>
    intro s q id l hArg hPending hMet
    have hExec : exec .launchReady s = event "LAUNCH_READY" (readyLaunch s q l) := by
      simp only [exec, execLaunchReady, hArg, launchReady_of_met hPending hMet]
    have hId : l.id = id := by simpa using List.find?_some hPending
    subst hId
    rw [hExec]
    refine ⟨fun t hReady => by rw [hReady, event], fun hTy c u hGot => ?_⟩
    rw [readyLaunch_of_fail hTy hGot]
    refine ⟨_, rfl, fun l' hl' => ?_⟩
    have hSame := launchOf_updLaunch (l := { l with ready := true, status := 2, finished := true }) hl'
    rw [hSame]
    exact ⟨rfl, rfl⟩
  case expand =>
    intro s q id l hArg hLaunch hReady hLive hTy hNext hRoom
    obtain ⟨root, hRecord⟩ := expandRecord_ready s q l
    refine ⟨expandRecord s q l, ?_, ?_, ?_⟩
    · simp only [exec, execRecordExpand, hArg, recordExpand, hLaunch, if_pos (canExpand_of hReady hLive hTy hNext hRoom), event]
    · simp [hRecord]
    · simp [hRecord, launchRecord, wordOf]
  case complete =>
    intro s q id l hArg hLaunch hCan
    simp only [exec, execLaunchComplete, hArg, launchComplete, hLaunch, if_pos hCan, event]
  case enqueue =>
    intro s q sd pa loc home loc' home' x b w hArg hTrunk hRun hHeld hQueue hEn hStop hLoad hPoison hGood hLink hRoom hStore hFrame o
    obtain ⟨s1, hEq, hOrd, hAfter⟩ := enqueueLaunch_mem q (BitVec.ofNat 5 sd) home' b hFrame
    have hSome := launchEnqueue_of_ok sd hTrunk hRun hHeld hQueue hEn hStop hLoad hPoison hGood hLink hRoom hStore
    refine ⟨setS s1 (BitVec.ofNat 5 sd) (wordOf x.nextId), ?_, hAfter, hOrd, fun hsd => ?_⟩
    · simp only [exec, execLaunchEnqueue, hArg, hSome, event]
      exact congrArg _ hEq
    · rw [getS_setS, if_pos rfl]
      have hZero : BitVec.ofNat 5 sd = 0 ↔ sd = 0 := by simp [BitVec.toNat_eq, Nat.mod_eq_of_lt hsd]
      simp only [hZero]
      rfl

end Sys2Proof.Machine
end

section
/-! SUPPORT. From a step to the meanings of its convoy's syllables (R111, R124 to R126, R252, R299, R364). -/

namespace Sys2Proof.Machine

/-! From a step to the convoy that issues (R124, R299, R416). -/

/-- What the package makes of the outcome of its issuing strand's turn. -/
def passOut : Out State → Out State
  | .next t => .next (afterStep t)
  | .fault f => .fault f
  | .refused r => .refused r

/-- A booted package with no event to serve gives its issuing strand a turn. -/
theorem step_of_issuer {s : State} {c : Nat} (hAgenda : s.sched.agenda = []) (hPower : s.powered = true) (hBoot : s.sec.boot ≠ .pending)
    (hIssuer : issuer s = some c) : step s = passOut (stepStrand { s with cur := c }) := by
  have hIssue : step s = stepIssue s := by simp [step, stepPackage, hAgenda, hPower, hBoot]
  rw [hIssue, stepIssue, hIssuer]
  rfl

/-- A strand with no late failure and no convoy that waits goes on with its repeat frame, or with the convoy at its pc. -/
theorem stepStrand_of_ready {s : State} (hLate : (me s).late = []) (hHeld : NMap.get? s.held s.cur = none) :
    stepStrand s = if (me s).rpt.active then stepFrame s else stepConvoy s := by
  have hLate' : (strandOf s s.cur).late = [] := hLate
  have hNone : lateFailure s s.cur = none := by simp only [lateFailure, hLate']
  rw [stepStrand, hNone, hHeld]

/-- A core that holds no older words of a convoy fetches those of memory, and only its instruction cache changes. -/
theorem fetchConvoy_of_fresh {s : State} {st : Strand} {pc : Word} {ws : List (BitVec 32)} (hWords : fetchWords s st pc = .ok ws)
    (hStale : staleWords s st pc = none) : ∃ l, fetchConvoy s st pc = (.ok ws, { s with icache := l }) := by
  simp only [fetchConvoy, hWords, hStale]
  split
  · exact ⟨_, rfl⟩
  · exact ⟨s.icache, rfl⟩

/-- The state in which strand c's convoy is checked: its core has fetched it (R149, R299). -/
def fetched (s : State) (c : Nat) : State :=
  tlbFill (fetchConvoy { s with cur := c } (strandOf s c) (strandOf s c).pc).2 (strandOf s c) (strandOf s c).pc

theorem opened_eq (s : State) (c : Nat) (ws : List (BitVec 32)) : opened s c ws = beginConvoy (fetched s c) ws false := rfl

section

variable {s : State} {c : Nat} {ws : List (BitVec 32)}

/-- The fetch leaves the issuing strand as it is. -/
theorem me_fetched (h : Issuing s c ws) : me (fetched s c) = strandOf s c := by
  obtain ⟨-, -, -, -, -, -, -, hWords, hStale⟩ := h
  obtain ⟨l, hFetch⟩ := fetchConvoy_of_fresh hWords hStale
  obtain ⟨b, hFill⟩ :=
    tlbFill_eq (fetchConvoy { s with cur := c } (strandOf s c) (strandOf s c).pc).2 (strandOf s c) (strandOf s c).pc
  rw [fetched, hFill, hFetch]
  rfl

/-- A step that issues a convoy runs the words of memory. -/
theorem step_of_issuing (h : Issuing s c ws) : step s = passOut (runConvoy (fetched s c) ws) := by
  obtain ⟨hAgenda, hPower, hBoot, hIssuer, hLate, hFrame, hHeld, hWords, hStale⟩ := h
  have hStrand : stepStrand { s with cur := c } = stepConvoy { s with cur := c } :=
    (stepStrand_of_ready (s := { s with cur := c }) hLate hHeld).trans (if_neg (Bool.eq_false_iff.1 hFrame))
  have hMe : me { s with cur := c } = strandOf s c := rfl
  obtain ⟨l, hFetch⟩ := fetchConvoy_of_fresh hWords hStale
  rw [step_of_issuer hAgenda hPower hBoot hIssuer, hStrand, stepConvoy, hMe, fetched, hFetch]

end

/-! One syllable of a convoy that runs as it stands. -/

theorem runPlain_atSlot {ren : Instr → Instr} {w : BitVec 32} {i : Instr} (hDecode : decodeSyllable w.toNat = .ok i) (s : State) (k : Nat) :
    runPlain ren (atSlot s k w) k w = exec (ren i) (atSlot s k w) := by
  simp only [runPlain, hDecode]
  rfl

theorem lateInstr_of_decode {w : BitVec 32} {i : Instr} (ren : Instr → Instr) (hDecode : decodeSyllable w.toNat = .ok i) :
    lateInstr ren w = ren i := by simp only [lateInstr, hDecode]

/-- A strand that has pushed no groups ahead pushes those of each syllable at its turn. -/
theorem unfeed_of_nil {s : State} (hFed : (me s).fed = []) (t : State) (k : Nat) (w : BitVec 32) : unfeed s t k w = t := by
  simp [unfeed, hFed]

/-- A syllable that is not starved by its queues runs once. -/
theorem runFed_of_runs {ren : Instr → Instr} {s : State} {k : Nat} {w : BitVec 32} (left : List Nat)
    (h : ∀ t, runPlain ren s k w = .next t → t.convoy = none → NMap.get? t.held t.cur = none → starved ren s k w = false) :
    runFed ren s k w left = runPlain ren s k w := by
  rw [runFed]
  split
  next t hRun =>
    refine (if_neg fun hStarved => ?_).trans hRun.symm
    simp only [Bool.and_eq_true, Option.isNone_iff_eq_none] at hStarved
    obtain ⟨⟨hConvoy, hHeld⟩, hStarved⟩ := hStarved
    exact absurd (h t hRun hConvoy hHeld) (by simp [hStarved])
  · rfl

/-- A syllable that consumes no group before its old value has come runs once. -/
theorem runUsed_of_runs {ren : Instr → Instr} {s : State} {k : Nat} {w : BitVec 32} {left : List Nat} {next : State → State → Out State}
    (h : ∀ t, runFed ren s k w left = .next t → t.convoy.isSome → usedWaiting (me s) (me t) = false ∧ next s t = .next t) :
    runUsed ren s k w left next = runFed ren s k w left := by
  rw [runUsed]
  split
  next t hRun =>
    rw [hRun]
    cases hConvoy : t.convoy with
    | none => simp
    | some c =>
      obtain ⟨hUsed, hNext⟩ := h t hRun (by simp [hConvoy])
      simp [hUsed, hNext]
  · rfl

/-- The result that a race or token syllable has given, if it has been performed (R364). -/
def givenBefore (s : State) (k : Nat) (w : BitVec 32) : Option (List Byte) := if isLate w then doneBefore (atSlot s k w) noteElem else none

/-- What a decoded syllable gives: a race or token syllable that has been performed its result again, any other its meaning. -/
def decodedOut (ren : Instr → Instr) (s : State) (k : Nat) (w : BitVec 32) (i : Instr) : Out State :=
  match givenBefore s k w with
  | some b => .next (lateApply (ren i) b (atSlot s k w))
  | none => exec (ren i) (atSlot s k w)

section

variable {ren : Instr → Instr} {s : State} {k : Nat} {w : BitVec 32} {i : Instr} {l : List (Nat × BitVec 32 × Instr)} {b : List Byte}

theorem decodedOut_of_given (h : givenBefore s k w = some b) : decodedOut ren s k w i = .next (lateApply (ren i) b (atSlot s k w)) := by
  simp only [decodedOut, h]

theorem decodedOut_of_not_given (h : givenBefore s k w = none) : decodedOut ren s k w i = exec (ren i) (atSlot s k w) := by
  simp only [decodedOut, h]

theorem steady_cons_head (hSteady : Steady ren s ((k, w, i) :: l)) :
    ((me (atSlot s k w)).barw && afterBar w) = false ∧ (me (atSlot s k w)).fed = [] := by
  rw [Steady] at hSteady
  obtain ⟨hBar, hFed, -⟩ := hSteady
  exact ⟨hBar, hFed⟩

theorem steady_cons_of_given (hSteady : Steady ren s ((k, w, i) :: l)) (h : givenBefore s k w = some b) :
    (lateApply (ren i) b (atSlot s k w)).convoy.isSome ∧ Steady ren (lateApply (ren i) b (atSlot s k w)) l := by
  have hGiven : (if isLate w then doneBefore (atSlot s k w) noteElem else none) = some b := h
  simp only [Steady, hGiven] at hSteady
  obtain ⟨-, -, hRest⟩ := hSteady
  exact hRest

theorem steady_cons_of_not_given (hSteady : Steady ren s ((k, w, i) :: l)) (h : givenBefore s k w = none) {t : State}
    (hNext : exec (ren i) (atSlot s k w) = .next t) :
    (t.convoy = none → NMap.get? t.held t.cur = none → starved ren (atSlot s k w) k w = false) ∧
      (t.convoy.isSome → usedWaiting (me (atSlot s k w)) (me t) = false ∧ (executeSide (majorOf w) = true → outFull (me t) = false) ∧
        (accessSide (majorOf w) = true → inFull (me t) = false) ∧ Steady ren t l) := by
  have hGiven : (if isLate w then doneBefore (atSlot s k w) noteElem else none) = none := h
  simp only [Steady, hGiven] at hSteady
  obtain ⟨-, -, hRest⟩ := hSteady
  exact hRest t hNext

/-- A syllable for which no queue makes its convoy wait gives what it means. -/
theorem runSlot_of_steady (hDecode : decodeSyllable w.toNat = .ok i) (hSteady : Steady ren s ((k, w, i) :: l)) (left : List Nat) :
    runSlot ren s k w left = decodedOut ren s k w i := by
  obtain ⟨hBar, hFed⟩ := steady_cons_head hSteady
  rw [runSlot]
  dsimp only
  rw [if_neg (by simp [hBar]), ← givenBefore]
  cases hGiven : givenBefore s k w with
  | some b =>
    dsimp only
    rw [decodedOut_of_given hGiven, unfeed_of_nil hFed, lateInstr_of_decode ren hDecode]
  | none =>
    have hPlain := runPlain_atSlot (ren := ren) hDecode s k
    have hRun : runFed ren (atSlot s k w) k w left = exec (ren i) (atSlot s k w) :=
      (runFed_of_runs left fun t hNext hConvoy hHeld =>
        (steady_cons_of_not_given hSteady hGiven (hPlain ▸ hNext)).1 hConvoy hHeld).trans hPlain
    rw [decodedOut_of_not_given hGiven]
    refine (runUsed_of_runs fun t hNext hConvoy => ?_).trans hRun
    obtain ⟨hUsed, hOut, hIn, -⟩ := (steady_cons_of_not_given hSteady hGiven (hRun ▸ hNext)).2 hConvoy
    refine ⟨hUsed, ?_⟩
    rw [unfeed_of_nil hFed, if_neg (by simpa using hOut), if_neg (by simpa using hIn)]

/-- The convoy goes on in a state in which the rest of its syllables run as they stand. -/
theorem steady_tail {t : State} (hSteady : Steady ren s ((k, w, i) :: l)) (hNext : decodedOut ren s k w i = .next t)
    (hConvoy : t.convoy.isSome) : Steady ren t l := by
  cases hGiven : givenBefore s k w with
  | some b =>
    rw [decodedOut_of_given hGiven] at hNext
    cases hNext
    exact (steady_cons_of_given hSteady hGiven).2
  | none =>
    rw [decodedOut_of_not_given hGiven] at hNext
    obtain ⟨-, hGoes⟩ := steady_cons_of_not_given hSteady hGiven hNext
    obtain ⟨-, -, -, hTail⟩ := hGoes hConvoy
    exact hTail

/-- `runDecoded` by what its first syllable gives. -/
theorem runDecoded_cons (done : State → State) (ws : List (BitVec 32)) (tr : Trail) (hSteady : Steady ren s ((k, w, i) :: l)) :
    runDecoded ren done ws tr s ((k, w, i) :: l) =
      match decodedOut ren s k w i with
      | .next t =>
        if t.convoy.isSome then runDecoded ren done ws (tr.step ren s k w t) t l
        else if (NMap.get? t.held t.cur).isSome then .next (afterStep (waitSlot ren ws tr s k (l.map (·.1)) t))
        else .next (afterStep t)
      | .fault f => .fault f
      | .refused r => .refused r := by
  rw [runDecoded, ← givenBefore]
  cases hGiven : givenBefore s k w with
  | some b =>
    obtain ⟨hConvoy, -⟩ := steady_cons_of_given hSteady hGiven
    simp only [decodedOut_of_given hGiven, hConvoy, if_true]
  | none =>
    rw [decodedOut_of_not_given hGiven]
    rfl

end

/-- The slots of a convoy whose syllables run as they stand run decoded, one after the other. -/
theorem runSlots_of_steady {ren : Instr → Instr} {ws : List (BitVec 32)} (done : State → State) (l : List (Nat × BitVec 32 × Instr))
    (hDecode : ∀ e ∈ l, e.2.1 = ws.getD e.1 0 ∧ decodeSyllable e.2.1.toNat = .ok e.2.2) (tr : Trail) (s : State)
    (hSteady : Steady ren s l) : passOut (runSlots ren done 0 ws tr (l.map (·.1)) s) = runDecoded ren done ws tr s l := by
  induction l generalizing tr s with
  | nil => rfl
  | cons e l ih =>
    obtain ⟨k, w, i⟩ := e
    obtain ⟨⟨hWord, hFirst⟩, hLater⟩ := List.forall_mem_cons.1 hDecode
    dsimp only at hWord hFirst
    subst hWord
    rw [runDecoded_cons done ws tr hSteady, List.map_cons, runSlots, if_neg (Nat.not_lt_zero _), runSlot_of_steady hFirst hSteady]
    cases hOut : decodedOut ren s k (ws.getD k 0) i with
    | next t =>
      dsimp only
      split
      next hConvoy => exact ih hLater _ _ (steady_tail hSteady hOut hConvoy)
      · split <;> rfl
    | fault f => rfl
    | refused r => rfl

/-! The convoy with one instruction. -/

/-- An empty syllable only passes. -/
theorem runDecoded_empty {s : State} (hConvoy : s.convoy.isSome) (done : State → State) (ws : List (BitVec 32)) (tr : Trail) (k : Nat)
    (l : List (Nat × BitVec 32 × Instr)) :
    runDecoded id done ws tr s ((k, 0, .emptySyllable) :: l) =
      runDecoded id done ws (tr.step id s k 0 (atSlot s k 0)) (atSlot s k 0) l := by
  have hHere : (atSlot s k 0).convoy.isSome := hConvoy
  rw [runDecoded, if_neg (by decide)]
  simp only [id, exec, execEmptySyllable, hHere, if_true]

/-- The slots after a convoy's one instruction change nothing. -/
theorem runDecoded_empties {s : State} (hConvoy : s.convoy.isSome) (done : State → State) (ws : List (BitVec 32)) (tr : Trail) :
    runDecoded id done ws tr s [(1, 0, .emptySyllable), (2, 0, .emptySyllable), (3, 0, .emptySyllable)] =
      .next (afterStep (done { s with arg := .syllable 0, slot := 3 })) := by
  rw [runDecoded_empty hConvoy, runDecoded_empty (s := atSlot s 1 0) hConvoy, runDecoded_empty (s := atSlot (atSlot s 1 0) 2 0) hConvoy]
  rfl

/-- A convoy whose slot 0 holds its only instruction, which is no race or token syllable and not DONE, runs its slots in their order. -/
theorem slotsOf_single {trunk : Bool} {w : BitVec 32} (hRepf : isRepf trunk [w, 0, 0, 0] = false) (hLate : isLate w = false)
    (hDone : isDone w = false) : slotsOf trunk [w, 0, 0, 0] = [0, 1, 2, 3] := by
  have hNotLate : isLate 0#32 = false := by decide
  have hNotDone : isDone 0#32 = false := by decide
  rw [slotsOf, hRepf]
  simp [slotOrder, List.range, List.range.loop, hLate, hDone, hNotLate, hNotDone]

/-! The step that issues a convoy. -/

section

variable {s : State} {c : Nat} {ws : List (BitVec 32)}

/-- A convoy that passes the checks of R252, none of whose syllables waits on a queue, runs decoded. -/
theorem step_of_steady {is_ : Nat → Instr} (hIssuing : Issuing s c ws) (hFault : convoyFault (strandOf s c).trunk ws = none)
    (hDecode : ∀ k ∈ slotsOf (strandOf s c).trunk ws, decodeSyllable (ws.getD k 0).toNat = .ok (is_ k))
    (hSteady : Steady id (opened s c ws) ((slotsOf (strandOf s c).trunk ws).map fun k => (k, ws.getD k 0, is_ k))) :
    step s = runDecoded id retire ws Trail.start (opened s c ws)
      ((slotsOf (strandOf s c).trunk ws).map fun k => (k, ws.getD k 0, is_ k)) := by
  rw [← runSlots_of_steady retire _ (by simpa using hDecode) Trail.start _ hSteady, step_of_issuing hIssuing, runConvoy, me_fetched hIssuing,
    hFault, opened_eq]
  simp [Function.comp_def]

/-- The instruction in slot 0 of a convoy of one, and the empty syllable in the others. -/
def soleInstr (i : Instr) (k : Nat) : Instr := if k = 0 then i else .emptySyllable

/-- A convoy of one instruction runs it and then its empty slots. -/
theorem step_of_single {w : BitVec 32} {i : Instr} (hIssuing : Issuing s c [w, 0, 0, 0])
    (hFault : convoyFault (strandOf s c).trunk [w, 0, 0, 0] = none) (hSlots : slotsOf (strandOf s c).trunk [w, 0, 0, 0] = [0, 1, 2, 3])
    (hDecode : decodeSyllable w.toNat = .ok i)
    (hSteady : Steady id (opened s c [w, 0, 0, 0]) [(0, w, i), (1, 0, .emptySyllable), (2, 0, .emptySyllable), (3, 0, .emptySyllable)]) :
    step s = runDecoded id retire [w, 0, 0, 0] Trail.start (opened s c [w, 0, 0, 0])
      [(0, w, i), (1, 0, .emptySyllable), (2, 0, .emptySyllable), (3, 0, .emptySyllable)] := by
  have hEmpty : decodeSyllable (0 : BitVec 32).toNat = .ok .emptySyllable := by decide
  have hAll : ∀ k ∈ slotsOf (strandOf s c).trunk [w, 0, 0, 0],
      decodeSyllable (([w, 0, 0, 0] : List (BitVec 32)).getD k 0).toNat = .ok (soleInstr i k) := by
    rw [hSlots]
    intro k hk
    obtain rfl | rfl | rfl | rfl : k = 0 ∨ k = 1 ∨ k = 2 ∨ k = 3 := by simpa using hk
    exacts [hDecode, hEmpty, hEmpty, hEmpty]
  have hStep := step_of_steady hIssuing hFault hAll
  rw [hSlots] at hStep
  exact hStep hSteady

/-- A convoy whose slots fail the checks of R252 takes the exception of the lowest of them. -/
theorem step_of_convoyFault {k cause : Nat} (hIssuing : Issuing s c ws) (hFault : convoyFault (strandOf s c).trunk ws = some (k, cause)) :
    step s = passOut (trapAt (fetched s c) k cause ((ws.getD k 0).setWidth 64)) := by
  rw [step_of_issuing hIssuing, runConvoy, me_fetched hIssuing, hFault]

end

/-- Settles O60: a step's convoy is fetched, checked and run slot by slot, and each slot that no queue makes wait is one `exec`. -/
theorem stepRunsDecoded : Obligations.StepRunsDecoded := by
  refine ⟨fun s c ws is_ hIssuing hFault hDecode hSteady => step_of_steady hIssuing hFault hDecode hSteady,
    fun s c w i hIssuing hFault hRepf hDecode hLate hDone hSteady => ?_,
    fun s c k cause ws hIssuing hFault => step_of_convoyFault hIssuing hFault⟩
  have hRun := step_of_single hIssuing hFault (slotsOf_single hRepf hLate hDone) hDecode hSteady
  have hGiven : givenBefore (opened s c [w, 0, 0, 0]) 0 w = none := by rw [givenBefore, hLate, if_neg Bool.false_ne_true]
  have hFirst : decodedOut id (opened s c [w, 0, 0, 0]) 0 w i = exec i (atSlot (opened s c [w, 0, 0, 0]) 0 w) :=
    decodedOut_of_not_given hGiven
  rw [hRun, runDecoded_cons _ _ _ hSteady, hFirst]
  cases exec i (atSlot (opened s c [w, 0, 0, 0]) 0 w) with
  | next t =>
    dsimp only
    by_cases hConvoy : t.convoy.isSome
    · rw [if_pos hConvoy, if_pos hConvoy, runDecoded_empties hConvoy]
    · rw [if_neg hConvoy, if_neg hConvoy]
      by_cases hHeld : (NMap.get? t.held t.cur).isSome
      · rw [if_pos hHeld, if_pos hHeld]
        rfl
      · rw [if_neg hHeld, if_neg hHeld]
  | fault f => rfl
  | refused r => rfl

end Sys2Proof.Machine
end

section
/-! SUPPORT. The syllables of the vector configuration (R117, R122, R123, R259, R305, R320). -/

namespace Sys2Proof.Machine

/-! The vector configuration of a strand (R122, R123, R305). -/

theorem vecOnly_of_strand {s : State} (hTrunk : (me s).trunk = false) (i : Instr) (r : Unit → Res) : vecOnly s i r = r () := by
  simp [vecOnly, hTrunk]

/-- The budget that is in force once the pending one has taken effect. -/
def nextBudget (st : Strand) : Budget := st.pending.getD st.budget

/-- Beside the vector registers and their marks, a budget that takes effect changes the budget, what is pending, and MAXVL. -/
theorem applyBudget_eq (s : State) (st : Strand) : ∃ vr dr, applyBudget s st =
    { st with
      budget := nextBudget st, pending := none, maxvl := maxvlOf (nextBudget st) st.rec_.share (lanesRetired s st), vregs := vr, dirty := dr } := by
  unfold applyBudget nextBudget
  cases hPending : st.pending with
  | none => exact ⟨st.vregs, st.dirty, by cases st; cases hPending; rfl⟩
  | some b => exact ⟨_, _, rfl⟩

/-- Element k of vector register i. -/
def elemAt (st : Strand) (i k : Nat) : Word := (st.vregs.getD i []).getD k 0

theorem applyBudget_vregs_of_none {s : State} {st : Strand} (h : st.pending = none) : (applyBudget s st).vregs = st.vregs := by
  simp [applyBudget, h]

/-- A new width empties every register (R123). -/
theorem elemAt_applyBudget_of_width {s : State} {st : Strand} {p : Budget} (h : st.pending = some p) (hWidth : p.wcode ≠ st.budget.wcode)
    (i k : Nat) : elemAt (applyBudget s st) i k = 0 := by
  have hRegs : (applyBudget s st).vregs = List.replicate 56 [] := by simp [applyBudget, h, hWidth]
  simp only [elemAt, hRegs, List.getD_eq_getElem?_getD, List.getElem?_replicate]
  split <;> rfl

/-- Under the same width the registers that both budgets have keep their elements, and the others read 0 (R123). -/
theorem elemAt_applyBudget_of_count {s : State} {st : Strand} {p : Budget} (h : st.pending = some p) (hWidth : p.wcode = st.budget.wcode)
    (i k : Nat) : elemAt (applyBudget s st) i k = if i < min (budgetRegs p) (budgetRegs st.budget) then elemAt st i k else 0 := by
  have hRegs : (applyBudget s st).vregs =
      st.vregs.zipIdx.map fun (r, k) => if k < min (budgetRegs p) (budgetRegs st.budget) then r else [] := by
    simp [applyBudget, h, hWidth]
  simp only [elemAt, hRegs, List.getD_eq_getElem?_getD, List.getElem?_map, List.getElem?_zipIdx]
  cases hReg : st.vregs[i]? with
  | none => simp
  | some r =>
    simp only [Option.map_some, Option.getD_some, Nat.zero_add]
    split <;> simp

theorem swrite_eq (st : Strand) (r : Nat) (v : Word) : ∃ l, swrite st r v = { st with regs := l } := by
  unfold swrite
  split
  · exact ⟨st.regs, rfl⟩
  · exact ⟨_, rfl⟩

/-- The scalar registers after a write to a strand that holds those of the issuing strand. -/
theorem regsAfter_putMe_swrite {s : State} {st : Strand} (hRegs : st.regs = (me s).regs) (sd : BitVec 5) (v : Word) :
    RegsAfter s (putMe s (swrite st sd.toNat v)) sd v := by
  intro r
  have hRead : sread st r.toNat = getS s r := by simp only [sread, getS, hRegs]
  have h := sread_swrite st sd.toNat r.toNat v r.isLt
  simp only [getS, me_putMe, h, BitVec.toNat_eq]
  exact hRead ▸ rfl

/-- The strand that VSETL leaves but for s[sd]: the budget is in force and VL is set. -/
def vsetlStrand (s : State) (o : S2) : Strand :=
  let st := applyBudget s (me s)
  let vl := min (getS s o.sa).toNat st.maxvl
  { st with vl := vl, vhwm := max st.vhwm vl }

theorem exec_vsetl {s : State} (hTrunk : (me s).trunk = false) (o : S2) :
    exec (.vsetl o) s = .next (putMe s (swrite (vsetlStrand s o) o.sd.toNat (wordOf (vsetlStrand s o).vl))) := by
  simp only [exec, execVsetl, vecOnly_of_strand hTrunk, finish]
  rfl

theorem exec_vcfg {s : State} {o : VcfgOps} (hTrunk : (me s).trunk = false) (hCount : o.ncode ≠ 7) :
    exec (.vcfg o) s = .next (putMe s { me s with pending := some ⟨o.ncode, o.wcode⟩ }) := by
  simp only [exec, execVcfg, vecOnly_of_strand hTrunk, if_neg hCount, finish]

theorem exec_vgetl {s : State} (hTrunk : (me s).trunk = false) (o : S1d) :
    exec (.vgetl o) s = .next (setS s o.sd (wordOf (me s).vl)) := by
  simp only [exec, execVgetl, vecOnly_of_strand hTrunk, finish]

theorem exec_vsett {s : State} {o : VsettOps} (hTrunk : (me s).trunk = false) (hType : o.ty.toNat ≤ 10) :
    exec (.vsett o) s =
      .next (putMe s (if o.slot then { me s with vt1 := ⟨o.ty, o.mode⟩ } else { me s with vt0 := ⟨o.ty, o.mode⟩ })) := by
  simp only [exec, execVsett, vecOnly_of_strand hTrunk, if_neg (Nat.not_lt.2 hType), finish]

theorem exec_fmtset {s : State} (hTrunk : (me s).trunk = false) (o : FmtOps) :
    exec (.fmtset o) s = .next (putMe s { me s with fds := putAt 16 0 (me s).fds o.fd.toNat ((getS s o.sa).setWidth 32) }) := by
  simp only [exec, execFmtset, vecOnly_of_strand hTrunk, finish]

/-- MAXVL and VL after VSETL, and what it leaves. -/
theorem vsetlStrand_eq (s : State) (o : S2) :
    let mv := maxvlOf (nextBudget (me s)) (me s).rec_.share (lanesRetired s (me s))
    let vl := min (getS s o.sa).toNat mv
    ∃ vr dr, vsetlStrand s o =
      { me s with
        budget := nextBudget (me s), pending := none, maxvl := mv, vl := vl, vhwm := max (me s).vhwm vl, vregs := vr, dirty := dr } := by
  obtain ⟨vr, dr, h⟩ := applyBudget_eq s (me s)
  exact ⟨vr, dr, by simp only [vsetlStrand, h]⟩

theorem elemAt_vsetl (s : State) (o : S2) (i k : Nat) :
    elemAt (swrite (vsetlStrand s o) o.sd.toNat (wordOf (vsetlStrand s o).vl)) i k = elemAt (applyBudget s (me s)) i k := by
  simp [elemAt, vsetlStrand]

/-- Settles O22: each syllable leaves its strand as an equation says, and `applyBudget` splits by what VCFG left pending. -/
theorem vectorConfiguration : Obligations.VectorConfiguration := by
  refine ⟨fun o s hTrunk hCount => ⟨_, exec_vcfg hTrunk hCount, meBecomes_putMe _ _⟩, fun o s hTrunk => ?_,
    fun o s hTrunk => ⟨_, exec_vgetl hTrunk o, writesReg_setS _ _ _⟩,
    fun o s hTrunk hType => ⟨_, exec_vsett hTrunk hType, meBecomes_putMe _ _⟩,
    fun o s hTrunk => ⟨_, exec_fmtset hTrunk o, onlyMe_putMe _ _, ?_, fun k hk => ?_⟩, fun b share d => rfl⟩
  · intro b mv vl el
    obtain ⟨vr, dr, hStrand⟩ := vsetlStrand_eq s o
    have hVl : (vsetlStrand s o).vl = vl := by rw [hStrand]; rfl
    refine ⟨_, exec_vsetl hTrunk o, onlyMe_putMe _ _, ?_, ?_, fun hNone => ?_, fun p hSome hWidth i k => ?_, fun p hSome hWidth i k => ?_⟩
    · rw [hVl]
      exact regsAfter_putMe_swrite (by rw [hStrand]) _ _
    · obtain ⟨l, hWrite⟩ := swrite_eq (vsetlStrand s o) o.sd.toNat (wordOf (vsetlStrand s o).vl)
      rw [me_putMe, hWrite, hStrand]
      rfl
    · rw [me_putMe, swrite_vregs]
      exact applyBudget_vregs_of_none hNone
    · rw [me_putMe]
      exact (elemAt_vsetl s o i k).trans (elemAt_applyBudget_of_width hSome hWidth i k)
    · rw [me_putMe]
      exact (elemAt_vsetl s o i k).trans (elemAt_applyBudget_of_count hSome hWidth i k)
  · rw [me_putMe]
  · rw [me_putMe]
    exact getD_putAt _ _ _ _ _ _ hk

end Sys2Proof.Machine
end

section
/-! SUPPORT. O14 fails. The list of a state's strands is meant to rise by strand number (`NMap.set` keeps that order), but the statement asks for no
order. Where the strand that faults stands behind a higher number, `NMap.set` puts the stopped strand before that number and its running entry stays; a
save of the record then needs two slots, and the clause on a free save slot, which may be the only one, does not hold. -/

namespace Sys2Proof.Machine

/-- Strand 512, of die 1, runs, and the list of strands names the idle strand 513 before it; the fault ring of die 1 is enabled and its save area has
one slot. All else is as a reset leaves it. -/
def misorderedState : State :=
  { State.reset with
    cur := 512
    strands := [(513, Strand.idle 513 false), (512, { Strand.idle 512 false with run := .running })]
    disp := [(1, { Dispatcher.reset with
      fltEn := true, fltSize := 6, fltBase := BitVec.ofNat 64 (memLoc 1 0x200000)
      svBase := BitVec.ofNat 64 (memLoc 1 0x300000), svLog := 20, svCount := 1 })] }

theorem stopping_misorderedState : Stopping misorderedState :=
  ⟨by decide, by decide, by decide, rfl, by decide, by decide, by decide, by decide, by decide, by decide, by decide, by decide, by decide,
    by decide, by decide⟩

/-- The stop writes strand 512 before strand 513 and leaves the running entry behind it. The record then counts two strands that lack a save slot, and
one free slot is too few: the strand stays stopped on its strand slot. -/
theorem run_takeException_misorderedState : (strandOf (takeException misorderedState 1 0 0) 512).run = .stopped := by decide

/-- Refutes O14 by its clause on a free save slot: in `misorderedState` one is free, and the strand slot is not given up. -/
theorem not_strandException : ¬ Obligations.StrandException := by
  unfold Obligations.StrandException
  rintro ⟨-, -, hSaved, -⟩
  obtain ⟨hIdle, -⟩ := hSaved misorderedState 1 0 0 0 [] stopping_misorderedState (by decide) (by decide) (by decide) (by decide) (by decide)
    (by decide)
  have hRun : Run.stopped = Run.idle := run_takeException_misorderedState.symm.trans (congrArg Strand.run hIdle)
  exact absurd hRun (by decide)

end Sys2Proof.Machine
end

section
/-! SUPPORT. The syllables that a trunk strand may not use (R121, R261), and repeat frames (R134 to R137). -/

namespace Sys2Proof.Machine

/-! Syllables of the vector state on a trunk strand (R121, R261). -/

/-- Every syllable that a trunk strand may not use asks first whether its strand is one; RCDROP asks where it names a predicate. -/
theorem exec_of_barsTrunk {i : Instr} (hBarred : barsTrunk i = true) (s : State) : ∃ r, exec i s = finish s (vecOnly s i r) := by
  cases i with
  | vffma o =>
    rw [exec, execVffma]
    split <;> exact ⟨_, rfl⟩
  | vffmaVs o =>
    rw [exec, execVffmaVs]
    split <;> exact ⟨_, rfl⟩
  | rcdrop o =>
    have hPred : o.pd.toNat ≠ 0 := by simpa [barsTrunk, BitVec.toNat_eq] using hBarred
    exact ⟨_, congrArg (finish s) (if_neg hPred)⟩
  | repf | vcfg | vsetl | vgetl | vsett | fmtset
  | vadd | vsub | vmul | vmulh | vmin | vmax | vabsd | vsadd | vand | vor | vxor | vssub | vsll | vsrl | vsra | vmv | vclz | viota
  | vaddVs | vsubVs | vmulVs | vmulhVs | vminVs | vmaxVs | vabsdVs | vsaddVs | vandVs | vorVs | vxorVs | vssubVs | vsllVs | vsrlVs | vsraVs | vmvVs
  | vfadd | vfsub | vfmul | vfmin | vfmax | vfdiv | vfscl | vfsqrt | vfexp | vflog | vfrcp | vfcvt
  | vfaddVs | vfsubVs | vfmulVs | vfminVs | vfmaxVs | vfdivVs | vfsclVs
  | vredsum | vdot | vscan | vredmax | vredmin | vargmax | veaadd | earnd | eald | east | eaclr
  | vperm | vcompress | vexpand | vslideup | vslidedn | vcmp | vfcmp | vcmpVs | vfcmpVs | vsel | pand | por | pxor | pnot | ppopc | pfirst
  | vbq | vbdq | vld | vlds | vst | vsts | vldxO | vldxU | vstxO | vstxU | vamo | vamoRet | vldsc | vstsc | vldrot | gathsp
  | xins | xlook | xacc | xclr | xdrain | prune | sphdr
  | mxatt | mxdet | mxlds | mxswap | mxstrm | mxdrain | mxclr | mxstat | rcnoise | rcbound => exact ⟨_, rfl⟩
  | _ => exact absurd hBarred Bool.false_ne_true

/-- A syllable of the vector state takes the unavailable fault on a trunk strand (R121). -/
theorem vecOnly_of_trunk {s : State} (hTrunk : (me s).trunk = true) (i : Instr) (r : Unit → Res) :
    vecOnly s i r = .trap cUnavailable (sylWord s i) 0 := if_pos hTrunk

/-- Settles O17: each barred syllable is guarded by `vecOnly`, which on a trunk strand faults before the syllable's meaning. -/
theorem trunkUnavailable : Obligations.TrunkUnavailable := by
  intro i s hBarred hTrunk
  obtain ⟨r, hExec⟩ := exec_of_barsTrunk hBarred s
  rw [hExec, vecOnly_of_trunk hTrunk]
  rfl

/-! REPF captures its four convoys (R134). -/

theorem length_fetchWords {s : State} {st : Strand} {pc : Word} {ws : List (BitVec 32)} (h : fetchWords s st pc = .ok ws) : ws.length = 4 := by
  unfold fetchWords at h
  split at h
  next => cases h
  next =>
    split at h
    next => cases h
    next =>
      cases h
      simp [wordsOf]
  next => cases h

theorem length_captureWords {s : State} {st : Strand} {a : Word} :
    ∀ {n : Nat} {cs : List (BitVec 32)}, captureWords s st a n = .ok cs → cs.length = 4 * n
  | 0, cs, h => by
    cases h
    rfl
  | n + 1, cs, h => by
    rw [captureWords] at h
    split at h
    next => cases h
    next ws hBefore =>
      dsimp only at h
      split at h
      next => cases h
      next l hLast =>
        cases h
        rw [List.length_append, length_captureWords hBefore, length_fetchWords hLast, Nat.mul_succ]

/-- The first n pieces of length k of a list, one after the other, are its first k * n elements. -/
theorem flatten_map_take_drop {α : Type} (l : List α) (k n : Nat) :
    ((List.range n).map fun c => (l.drop (k * c)).take k).flatten = l.take (k * n) := by
  induction n with
  | zero => simp
  | succ n ih => simp [List.range_succ, ih, Nat.mul_succ, List.take_add]

/-- A core that holds no older words of the four convoys captures those of memory. -/
theorem captureConvoys_of_fresh {s : State} {st : Strand} {a : Word} {cs : List (BitVec 32)} (hCapture : captureWords s st a 4 = .ok cs)
    (hFresh : ∀ c, c < 4 → staleWords s st (a + BitVec.ofNat 64 (16 * (c + 1))) = none) : captureConvoys s st a = (.ok cs, s) := by
  have hHeld : ((List.range 4).map fun c => (staleWords s st (a + wordOf (16 * (c + 1)))).getD ((cs.drop (4 * c)).take 4)).flatten = cs :=
    calc _ = ((List.range 4).map fun c => (cs.drop (4 * c)).take 4).flatten := by
          congr 1
          exact List.map_congr_left fun c hc => by rw [wordOf, hFresh c (List.mem_range.1 hc), Option.getD_none]
      _ = cs.take 16 := flatten_map_take_drop cs 4 4
      _ = cs := List.take_of_length_le (length_captureWords hCapture).le
  simp only [captureConvoys, hCapture, hHeld, if_true]

/-- The strand whose convoy issues becomes `st`, and its next convoy is set: nothing else has changed. -/
theorem MeBecomes.setNpc {s t : State} {st : Strand} (h : MeBecomes s t st) (a : Word) : MeBecomes s (setNpc t a) { st with npc := a } := by
  obtain ⟨⟨hRest, hOthers, hMemory⟩, hMe⟩ := h
  have hCur : t.cur = s.cur := (congrArg State.cur hRest :)
  refine ⟨⟨hRest, fun k hk => ?_, hMemory⟩, ?_⟩
  · exact (strandOf_putMe_ne t k _ (hCur ▸ hk)).trans (hOthers k hk)
  · exact (me_putMe t _).trans (by rw [hMe])

/-- The repeat registers that REPF in the convoy of words `ws` leaves (R134). -/
def repfFrame (o : RepfOps) (s : State) (ws : List (BitVec 32)) : Repeat :=
  { active := true, conv := 0, kidx := 0, rpc := (me s).pc, trip := (getS s o.str).toNat % 2 ^ 32,
    map0 := (ws.getD 1 0).toNat, map1 := (ws.getD 2 0).toNat, nstg := o.stg.toNat, rbase := o.rbase.toNat, rsize := o.rsize.toNat }

/-- The state that REPF leaves: it passes over the captured convoys where there is nothing to repeat, else its frame is armed (R134, R135). -/
def repfState (o : RepfOps) (s : State) (ws cs : List (BitVec 32)) : State :=
  if (getS s o.str).toNat % 2 ^ 32 = 0 then setNpc s ((me s).pc + 0x50)
  else setNpc (putMe s { me s with rpt := repfFrame o s ws, cap := cs }) ((me s).pc + 0x10)

/-- REPF whose data words and captured convoys are legal completes. -/
theorem exec_repf {o : RepfOps} {s : State} {ws cs : List (BitVec 32)} (hTrunk : (me s).trunk = false) (hSlot : s.slot % 4 = 0)
    (hWords : ownWords s = .ok ws) (hRotates : o.rsize = 0 ∨ o.rbase.toNat + o.rsize.toNat ≤ budgetRegs (me s).budget)
    (hMap : (ws.getD 2 0).toNat < 65536) (hZero : ws.getD 3 0 = 0) (hCapture : captureConvoys s (me s) (me s).pc = (.ok cs, s))
    (hLegal : badCapture (o.stg.toNat + 1) (ws.getD 1 0).toNat (ws.getD 2 0).toNat 0 cs = none) :
    exec (.repf o) s = .next (repfState o s ws cs) := by
  have hRange : ¬ (decide (o.rsize.toNat ≠ 0) && decide (budgetRegs (me s).budget < o.rbase.toNat + o.rsize.toNat)) = true := by
    simp only [Bool.and_eq_true, decide_eq_true_eq]
    rintro ⟨hSome, hPast⟩
    obtain hNone | hWithin := hRotates
    · exact hSome (congrArg BitVec.toNat hNone)
    · exact absurd hWithin (Nat.not_le.2 hPast)
  simp only [exec, execRepf, vecOnly_of_strand hTrunk, hSlot, hWords, if_neg hRange, if_neg (Nat.not_le.2 hMap), hZero, hCapture, hLegal,
    ne_eq, not_true_eq_false, if_false, repfState]
  split <;> rfl

/-- REPF changes only its strand: the next convoy, and the repeat registers and captured words of a frame that is armed. -/
theorem meBecomes_repfState (o : RepfOps) (s : State) (ws cs : List (BitVec 32)) :
    MeBecomes s (repfState o s ws cs)
      (if (getS s o.str).toNat % 2 ^ 32 = 0 then { me s with npc := (me s).pc + 0x50 }
        else { me s with rpt := repfFrame o s ws, cap := cs, npc := (me s).pc + 0x10 }) := by
  unfold repfState
  split
  · exact (meBecomes_refl s).setNpc _
  · exact (meBecomes_putMe s _).setNpc _

/-! Replays of a frame (R135 to R137). -/

/-- A captured syllable runs in a replay that its stage has reached and that is one of its iterations. -/
theorem stageRuns_iff (r : Repeat) (i : Nat) :
    stageRuns r i = true ↔ 0 ≤ (r.kidx : Int) - stageOf r.map0 r.map1 i ∧ (r.kidx : Int) - stageOf r.map0 r.map1 i < r.trip := by
  simp only [stageRuns, Bool.and_eq_true, decide_eq_true_eq]
  omega

theorem replayWords_eq_frameWords (st : Strand) : replayWords st = frameWords st := by
  simp only [replayWords, frameWords, stageRuns_iff]

theorem length_frameWords (st : Strand) : (frameWords st).length = 4 := by simp [frameWords]

/-- The slots of a convoy in their order are slots of the convoy. -/
theorem lt_length_of_mem_slotOrder {ws : List (BitVec 32)} {k : Nat} (h : k ∈ slotOrder ws) : k < ws.length := by
  simp only [slotOrder, List.mem_append, List.mem_filter, List.mem_range] at h
  obtain (⟨h, -⟩ | ⟨h, -⟩) | ⟨h, -⟩ := h
  exacts [h, h, h]

/-- A strand within a frame stands at captured convoy CONV of it. -/
theorem atConvoy_of_active {st : Strand} (h : st.rpt.active = true) :
    atConvoy st = { st with pc := st.rpt.rpc + BitVec.ofNat 64 (0x10 + 16 * st.rpt.conv) } := by
  simp only [atConvoy, replayPc, h, if_true]
  rfl

/-- A step of a strand within a frame runs the words of its captured convoy, renamed for the replay. -/
theorem step_of_replaying {s : State} {c : Nat} (h : Replaying s c) :
    step s = passOut (runSlots (renameInstr (rotField (strandOf s c).rpt.rbase (strandOf s c).rpt.rsize (strandOf s c).rpt.kidx)) retireReplay 0
      (frameWords (strandOf s c)) Trail.start (slotOrder (frameWords (strandOf s c))) (replayOpened s c)) := by
  obtain ⟨hAgenda, hPower, hBoot, hIssuer, hLate, hActive, hHeld, hCap, hAllowed⟩ := h
  have hMe : me { s with cur := c } = strandOf s c := rfl
  have hStrand : stepStrand { s with cur := c } = stepReplay { s with cur := c } :=
    (stepStrand_of_ready (s := { s with cur := c }) hLate hHeld).trans ((if_pos hActive).trans (if_pos hCap))
  rw [step_of_issuer hAgenda hPower hBoot hIssuer, hStrand, stepReplay, hMe, atConvoy_of_active hActive]
  simp only [me_putMe, hAllowed, replayWords_eq_frameWords]
  rfl

/-- How the repeat registers go on: through the four captured convoys, then through the replays, the last of which is trip + s − 2. -/
theorem stepRepeat_of_active {st : Strand} (hActive : st.rpt.active = true) : stepRepeat st =
    if st.rpt.conv < 3 then
      { st with rpt := { st.rpt with conv := st.rpt.conv + 1 }, npc := st.rpt.rpc + BitVec.ofNat 64 (0x10 + 16 * (st.rpt.conv + 1)) }
    else if st.rpt.kidx < st.rpt.trip + (st.rpt.nstg + 1) - 2 then
      { st with rpt := { st.rpt with conv := 0, kidx := st.rpt.kidx + 1 }, npc := st.rpt.rpc + 0x10 }
    else { st with rpt := { st.rpt with conv := 0, kidx := st.rpt.kidx + 1, active := false }, npc := st.rpt.rpc + 0x50, cap := [] } := by
  by_cases hConv : st.rpt.conv < 3
  · simp only [stepRepeat, nextReplay, if_pos hConv, replayPc, hActive, if_true]
    rfl
  · have hLast : st.rpt.kidx + 1 < st.rpt.trip + st.rpt.nstg ↔ st.rpt.kidx < st.rpt.trip + (st.rpt.nstg + 1) - 2 := by omega
    by_cases hReplay : st.rpt.kidx < st.rpt.trip + (st.rpt.nstg + 1) - 2
    · simp only [stepRepeat, nextReplay, if_neg hConv, if_pos hReplay, if_pos (hLast.2 hReplay), replayPc, hActive, if_true]
      rfl
    · simp only [stepRepeat, nextReplay, if_neg hConv, if_neg hReplay, if_neg (mt hLast.1 hReplay), replayPc, Bool.false_eq_true, if_false]

/-- Where the rotating registers are vector registers, a field that names one of them moves on by k within them (R135). -/
theorem toNat_rotField {rbase rsize : Nat} (hRange : rbase + rsize ≤ 56) (k : Nat) (n : BitVec 6) :
    (rotField rbase rsize k n).toNat =
      if 0 < rsize ∧ rbase ≤ n.toNat ∧ n.toNat < rbase + rsize then rbase + (n.toNat - rbase + k) % rsize else n.toNat := by
  by_cases hRotates : 0 < rsize ∧ rbase ≤ n.toNat ∧ n.toNat < rbase + rsize
  · obtain ⟨hSize, hLow, hHigh⟩ := id hRotates
    have hVector : n.toNat < 56 := by omega
    have hMod : (n.toNat - rbase + k) % rsize < rsize := Nat.mod_lt _ hSize
    rw [if_pos hRotates, rotField, if_pos (by simp [hSize.ne', hVector, hLow, hHigh]), BitVec.toNat_ofNat]
    exact Nat.mod_eq_of_lt (by omega)
  · rw [if_neg hRotates, rotField, if_neg]
    simp only [Bool.and_eq_true, decide_eq_true_eq]
    omega

/-- Settles O18: REPF's equation, the step of a strand within a frame slot by slot, the course of the repeat registers, and the renaming. -/
theorem repeatFrame : Obligations.RepeatFrame := by
  refine ⟨fun o s ws cs hTrunk hSlot hWords hRotates hMap hZero hCapture hFresh hLegal => ?_, fun s c is_ => ?_,
    fun st hActive => stepRepeat_of_active hActive, fun rbase rsize k n hRange => toNat_rotField hRange k n,
    fun f o => rfl, fun f o => rfl, fun f o => rfl⟩
  · have hConvoys := captureConvoys_of_fresh hCapture hFresh
    exact ⟨_, exec_repf hTrunk hSlot hWords hRotates hMap hZero hConvoys hLegal, meBecomes_repfState o s ws cs⟩
  · intro st ws ren l hReplaying hDecode hSteady
    have hSlots : ∀ e ∈ l, e.2.1 = ws.getD e.1 0 ∧ decodeSyllable e.2.1.toNat = .ok e.2.2 := by
      rw [List.forall_mem_map]
      exact fun k hk => ⟨rfl, hDecode k (length_frameWords st ▸ lt_length_of_mem_slotOrder hk)⟩
    rw [← runSlots_of_steady retireReplay l hSlots Trail.start _ hSteady, step_of_replaying hReplaying, List.map_map]
    simp only [Function.comp_def, List.map_id']
    rfl

end Sys2Proof.Machine
end

section
/-! SUPPORT. Scalar accesses whose address fails a check (R109 to R111, R139, R140, R146). -/

namespace Sys2Proof.Machine

/-- Every scalar access checks its address first, for what it does and its bytes. -/
theorem exec_of_scalarAccess {i : Instr} {s : State} {a : Acc} {n : Nat} {va : Word} (h : scalarAccess s i = some (a, n, va)) :
    ∃ k, exec i s = finish s (withPlace s a n va k) := by
  cases i with
  | ld | st
  | amoadd | amoswap | amocas | amoand | amoor | amoxor | amomax | amomin | amomaxn | amominn | amoaddF32 | amomaxF32 | amominF32
  | redadd | redswap | redand | redor | redxor | redmax | redmin | redmaxn | redminn | redaddF32 | redmaxF32 | redminF32 =>
    cases h
    exact ⟨_, rfl⟩
  | _ => cases h

/-- AMOEA of an accumulator that is not poisoned checks its address first (R286). -/
theorem exec_amoea {s : State} {o : AeOps} (hPoison : (me s).eaPois.getLsbD o.ea.toNat = false) :
    ∃ k, exec (.amoea o) s = finish s (withPlace s .atomic 64 (getS s o.sa) k) := by
  simp only [exec, execAmoea, hPoison, Bool.false_eq_true, if_false]
  exact ⟨_, rfl⟩

/-- An access whose check fails takes the exception of the check, with its address. -/
theorem finish_withPlace_of_error {s : State} {a : Acc} {n c : Nat} {va : Word} (h : checkScalar s (me s) a n va = .error c)
    (k : Place → State → Res) : finish s (withPlace s a n va k) = .next (takeException (rollback s) c va 0) := by
  simp only [withPlace, h, finish]

theorem canonical_eq_false_iff (va : Word) : canonical va = false ↔ va.toNat / 2 ^ 56 ≠ 0 ∧ va.toNat / 2 ^ 56 ≠ 255 := by
  simp [canonical]

section Checks

variable (s : State) (st : Strand) (a : Acc) {n : Nat} {va : Word}

theorem checkScalar_of_misaligned (h : va.toNat % n ≠ 0) : checkScalar s st a n va = .error cMisaligned := if_pos h

variable (hAligned : va.toNat % n = 0)
include hAligned

theorem checkScalar_of_not_canonical (h : canonical va = false) : checkScalar s st a n va = .error cTranslation := by
  simp [checkScalar, hAligned, h]

/-- The scratchpad aperture is no place for a scalar access (R140). -/
theorem checkScalar_of_inSpad (h : inSpad va = true) : checkScalar s st a n va = .error cTranslation := by
  simp [checkScalar, hAligned, h]

/-- The trunk control window is open to trunk strands alone (R50). -/
theorem checkScalar_of_inWindow (h : inWindow va = true) (hTrunk : st.trunk = false) : checkScalar s st a n va = .error cTranslation := by
  simp [checkScalar, hAligned, h, hTrunk]

end Checks

/-- Settles O8: each scalar access begins with `withPlace`, which faults as `checkScalar` says, and the checks stand in the order of R140. -/
theorem accessFaults : Obligations.AccessFaults := by
  refine ⟨fun i s a n c va hAccess hCheck => ?_, fun o s c hPoison hCheck => ?_,
    fun s st a n va => ⟨fun h => checkScalar_of_misaligned s st a h,
      fun hAligned hZero hOnes => checkScalar_of_not_canonical s st a hAligned ((canonical_eq_false_iff va).2 ⟨hZero, hOnes⟩),
      fun hAligned h => checkScalar_of_inSpad s st a hAligned (decide_eq_true h),
      fun hAligned h hTrunk => checkScalar_of_inWindow s st a hAligned (decide_eq_true h) hTrunk⟩⟩
  · obtain ⟨k, hExec⟩ := exec_of_scalarAccess hAccess
    rw [hExec, finish_withPlace_of_error hCheck]
  · obtain ⟨k, hExec⟩ := exec_amoea hPoison
    rw [hExec, finish_withPlace_of_error hCheck]

end Sys2Proof.Machine
end

section
/-! SUPPORT. The access at the head of a path queue leaves it (R160 to R178). -/

namespace Sys2Proof.Machine

/-! What a strand's fences wait for. -/

/-- Whether the fences and the performed atomics in the issue stream of two strands wait for the same (R166, R170, R175). -/
structure WaitsAlike (st st' : Strand) : Prop where
  die : st'.die = st.die
  late : st'.late = st.late
  outst : st'.outst = st.outst
  copying : ∀ mark, copying st' mark = copying st mark
  unanswered : copyUnanswered st' = copyUnanswered st

theorem WaitsAlike.trans {a b c : Strand} (h : WaitsAlike a b) (h' : WaitsAlike b c) : WaitsAlike a c :=
  ⟨h'.die.trans h.die, h'.late.trans h.late, h'.outst.trans h.outst, fun m => (h'.copying m).trans (h.copying m),
    h'.unanswered.trans h.unanswered⟩

/-- What a strand waits for does not lie in its path queue. -/
theorem waitsAlike_pq (st : Strand) (l : List QItem) : WaitsAlike st { st with pq := l } := ⟨rfl, rfl, rfl, fun _ => rfl, rfl⟩

theorem WaitsAlike.dropHead_eq {st st' : Strand} (h : WaitsAlike st st') (l : List QItem) : dropHead st' l = dropHead st l := by
  have hUnanswered : ∀ p, Machine.unanswered st' p = Machine.unanswered st p := fun p => by
    simp only [Machine.unanswered, h.outst, h.unanswered]
  have hOutstanding : ∀ t, outstanding st' t = outstanding st t := fun t => by simp only [outstanding, h.outst]
  induction l with
  | nil => rfl
  | cons x r ih => cases x <;> simp only [dropHead, hUnanswered, hOutstanding, h.late, h.copying, ih]

theorem WaitsAlike.dropFences_eq {st st' : Strand} (h : WaitsAlike st st') (o : Ordering_) (l : List QItem) :
    dropFences o st' l = dropFences o st l := by
  simp only [dropFences, h.dropHead_eq, doneOver, h.die]

/-- The note of a VAMO.RET stays the note that it is, with more flags. -/
theorem leftFlags_keeps (fl : FFlags) (a : Answer) :
    (leftFlags fl a).slot = a.slot ∧ (leftFlags fl a).elem = a.elem ∧ (leftFlags fl a).data.isNone = a.data.isNone := by
  unfold leftFlags
  split
  next h => exact ⟨rfl, rfl, by rw [h]; rfl⟩
  next => exact ⟨rfl, rfl, rfl⟩

/-- A test of answers that looks at their slots, their elements and whether they have come is blind to the flags that old values bring. -/
theorem any_map_leftFlags {p : Answer → Bool} (id : Nat) (fl : FFlags)
    (hp : ∀ a b : Answer, a.slot = b.slot → a.elem = b.elem → a.data.isNone = b.data.isNone → p a = p b) (l : List Answer) :
    (l.map fun a => if leftIs id a then leftFlags fl a else a).any p = l.any p := by
  rw [List.any_map]
  congr 1
  funext a
  simp only [Function.comp_apply]
  split
  · obtain ⟨hSlot, hElem, hData⟩ := leftFlags_keeps fl a
    exact hp _ _ hSlot hElem hData
  · rfl

/-- Whether the elements of a copy have left is seen from the slots and the elements of the strand's answers. -/
theorem copyLeft_congr {st st' : Strand} (k : Nat) (t : Token)
    (h : ∀ p : Answer → Bool, (∀ a b : Answer, a.slot = b.slot → a.elem = b.elem → p a = p b) → st'.answers.any p = st.answers.any p) :
    copyLeft st' k t = copyLeft st k t := by
  simp only [copyLeft]
  rw [h _ fun a b hSlot hElem => by rw [hSlot, hElem]]
  refine congrArg _ (List.all_congr rfl fun i => ?_)
  rw [h _ fun a b hSlot hElem => by rw [hSlot, hElem]]

theorem copying_congr {st st' : Strand} (hToks : st'.toks = st.toks)
    (h : ∀ p : Answer → Bool, (∀ a b : Answer, a.slot = b.slot → a.elem = b.elem → p a = p b) → st'.answers.any p = st.answers.any p)
    (mark : Nat) : copying st' mark = copying st mark := by
  simp only [copying, hToks, copyLeft_congr _ _ h]

/-- An old value that reaches its strand changes nothing that the strand's fences wait for (R332). -/
theorem waitsAlike_bringOld (st : Strand) (x : Option Fill) (v : Nat) (fl : FFlags) : WaitsAlike st (bringOld st x v fl) := by
  cases x with
  | none => exact ⟨rfl, rfl, rfl, fun _ => rfl, rfl⟩
  | some x =>
    simp only [bringOld]
    split
    · exact ⟨rfl, rfl, rfl,
        copying_congr rfl fun p hp => any_map_leftFlags _ _ (fun a b hSlot hElem _ => hp a b hSlot hElem) _,
        any_map_leftFlags _ _ (fun a b hSlot hElem hData => by rw [hSlot, hElem, hData]) _⟩
    · exact ⟨rfl, rfl, rfl, fun _ => rfl, rfl⟩

/-! Strands that wait for no die. -/

/-- Whether nothing that a strand has sent or asked waits for the dies to apply a clock (R27, R178). -/
def Clockless (st : Strand) : Prop := (∀ o ∈ st.outst, o.clock = []) ∧ ∀ a ∈ st.answers, a.clock = []

theorem ownDone_of_clock_nil {o : Ordering_} {x : Outstanding} (h : x.clock = []) : ownDone o x = false := by simp [ownDone, h]

/-- A strand that waits for no die is answered nothing. -/
theorem answerOwn_of_clockless {st : Strand} (h : Clockless st) (o : Ordering_) : answerOwn o st = st := by
  obtain ⟨hOutst, hAnswers⟩ := h
  have hNone : (st.answers.any fun a => a.data.isNone && !a.clock.isEmpty && reachedAll o a.clock) = false :=
    List.any_eq_false.2 fun a ha => by simp [hAnswers a ha]
  have hFilter : st.outst.filter (ownDone o) = [] := List.filter_eq_nil_iff.2 fun x hx => by simp [ownDone_of_clock_nil (hOutst x hx)]
  simp only [answerOwn, hNone, Bool.false_eq_true, if_false, hFilter, List.foldl_nil]

/-! The head of the path queue. -/

/-- What is left of an issue stream takes its place behind what a performed access has put there, and the fences with nothing left to hold for go. -/
def rejoin (s : State) (sid : Nat) (r : List QItem) : State :=
  putStrand s sid { strandOf s sid with pq := dropFences s.ord (strandOf s sid) ((strandOf s sid).pq ++ r) }

/-- The access at the head leaves and performs, if nothing but earlier items could hold it. -/
theorem leaveAt_head {s : State} {sid : Nat} {a : Access} {r : List QItem} (hPq : (strandOf s sid).pq = .acc a :: r)
    (hMoves : (strandOf s sid).trunk = true ∨ pdHeld s = false) (hClock : Clockless (strandOf s sid))
    (hLeave : mayLeave (strandOf s sid) [] a = true) :
    leaveAt s sid 0 = (performAcc (putStrand s sid { strandOf s sid with pq := [] }) sid a).map fun s1 => rejoin s1 sid r := by
  have hHeld : (!(strandOf s sid).trunk && pdHeld s) = false := by
    obtain h | h := hMoves <;> simp [h]
  have hJoin : ∀ s1 : State, putStrand s1 sid { strandOf s1 sid with
      pq := dropFences s1.ord { strandOf s1 sid with pq := (strandOf s1 sid).pq ++ r } ((strandOf s1 sid).pq ++ r) } = rejoin s1 sid r :=
    fun s1 => by rw [rejoin, (waitsAlike_pq _ _).dropFences_eq]
  simp only [leaveAt, answerOwn_of_clockless hClock, hHeld, hPq, List.getElem?_cons_zero, List.take_zero, List.nil_append, List.drop_succ_cons,
    List.drop_zero, Nat.zero_add, hLeave, if_true, if_false, Bool.false_eq_true, hJoin]
  cases performAcc (putStrand s sid { strandOf s sid with pq := [] }) sid a <;> rfl

/-- The head of a path queue is held by nothing but what a release waits for (R171, R179, R416). -/
theorem mayLeave_head {st : Strand} {a : Access}
    (h : a.rel = true → copying st a.mark = false ∧ st.late = [] ∧ (a.dom = true → unanswered st none = false)) : mayLeave st [] a = true := by
  cases hRel : a.rel with
  | false => simp [mayLeave, heldBy, hRel]
  | true =>
    obtain ⟨hCopy, hLate, hDom⟩ := h hRel
    cases hd : a.dom with
    | false => simp [mayLeave, heldBy, hRel, hCopy, hLate, hd]
    | true => simp [mayLeave, heldBy, hRel, hCopy, hLate, hd, hDom hd]

end Sys2Proof.Machine
end

section
/-! SUPPORT. Copies: their elements between places of memory, and how COPY, XFETCH and GATHSP start them (R154, R336 to R341). -/

namespace Sys2Proof.Machine

/-! An element between places of memory (R163, R167 to R169). -/

theorem sliceBytes_zero_length (b : List Byte) : sliceBytes b 0 b.length = b := by
  refine List.ext_getElem (by simp [sliceBytes]) fun i _ hi => ?_
  simp [sliceBytes, List.getElem?_eq_getElem hi]

/-- Up to eight bytes are one word, written at once. -/
theorem memWords_of_le {b : List Byte} (hSome : 0 < b.length) (hWord : b.length ≤ 8) (s : State) (e loc home : Nat) :
    memWords s e loc home b = memWrite s e loc home b := by
  have hCount : ceilDiv b.length 8 = 1 := by unfold ceilDiv; omega
  simp [memWords, hCount, Nat.min_eq_right hWord, sliceBytes_zero_length]

theorem memWrite_of_not_vacated {s : State} {loc : Nat} (h : vacatedFrame s loc = false) (e home : Nat) (b : List Byte) :
    memWrite s e loc home b = { s with ord := performWrite s.ord e loc home b } := by
  simp [memWrite, h]

theorem memRead_of_not_vacated {s : State} {loc : Nat} (h : vacatedFrame s loc = false) (d n : Nat) :
    memRead s d loc n = Memory.getBytes (viewOf s.ord d) loc n := by
  simp [memRead, h]

/-- Words that are not poisoned mark nothing. -/
theorem markWords_of_clean {mark : State → Nat → Nat → State} {pois : List Bool} (h : ∀ b ∈ pois, b = false) (base n : Nat) (s : State) :
    markWords mark base n pois s = s := by
  unfold markWords
  have hAll : ∀ x ∈ pois.zipIdx, x.1 = false := fun x hx => h _ (List.fst_mem_of_mem_zipIdx hx)
  generalize pois.zipIdx = l at hAll
  induction l with
  | nil => rfl
  | cons x l ih =>
    obtain ⟨hHead, hTail⟩ := List.forall_mem_cons.1 hAll
    simp only [List.foldl_cons, hHead, Bool.false_eq_true, if_false]
    exact ih hTail

/-- Whether none of the 8-byte words of n bytes is poisoned. -/
def CleanWords (n : Nat) (f : Nat → Nat → Bool) : Prop := ∀ j, 8 * j < n → f (8 * j) (min 8 (n - 8 * j)) = false

theorem poisWords_clean {f : Nat → Nat → Bool} {n : Nat} (h : CleanWords n f) : ∀ b ∈ poisWords n f, b = false := by
  intro b hb
  obtain ⟨j, hj, rfl⟩ := List.mem_map.1 hb
  have hWord : j < (n + 8 - 1) / 8 := List.mem_range.1 hj
  exact h j (by omega)

/-- Up to eight bytes are one word. -/
theorem cleanWords_of_le {f : Nat → Nat → Bool} {n : Nat} (hWord : n ≤ 8) (h : f 0 n = false) : CleanWords n f := by
  intro j hj
  obtain rfl : j = 0 := by omega
  rwa [Nat.mul_zero, Nat.sub_zero, Nat.min_eq_right hWord]

theorem length_memRead (s : State) (d loc n : Nat) : (memRead s d loc n).length = n := by
  unfold memRead
  split <;> simp

section Element

variable {s : State} {sid slot : Nat} {t : Token} {e : Nat} {src dst : Word} {n m loc' home' : Nat}

/-- An element with clean bytes that goes to a place of memory lands there. -/
theorem engineWrite_mem {p : Path} {va : Word} {size loc home : Nat} {b : List Byte} {pois : List Bool}
    (hStore : checkElem s (engineStrand (strandOf s sid)) .store size va = .ok (.mem loc home)) (hClean : ∀ x ∈ pois, x = false) :
    engineWrite s sid slot e p va size b pois = .done (memWords s (strandOf s sid).die loc home b) := by
  simp only [engineWrite, hStore, markWords_of_clean hClean]

/-- The read of an element from a place of memory. -/
theorem engineRead_mem {p : Path} {va : Word} {size loc home : Nat}
    (hLoad : checkElem s (engineStrand (strandOf s sid)) .load size va = .ok (.mem loc home)) :
    engineRead s sid slot e p va n size =
      .bytes (memRead s (strandOf s sid).die loc n) (poisWords n fun o k => readPoisoned s (strandOf s sid).die (loc + o) k) := by
  simp only [engineRead, hLoad]

theorem withGot_nil (hGot : t.got = []) (b : List Byte) (pois : List Bool) : withGot t e b pois = (b, pois) := by simp [withGot, hGot]

variable (hEl : copyEl t e = some (src, dst, n)) (hGot : t.got = []) (hSize : elSize t n = m)
  (hStore : checkElem s (engineStrand (strandOf s sid)) .store m dst = .ok (.mem loc' home'))
include hEl hGot hSize hStore

/-- An element between two places of memory lands with the bytes that its source holds. -/
theorem moveEl_mem {loc home : Nat} (hKind : t.kind ≠ .xfetch)
    (hLoad : checkElem s (engineStrand (strandOf s sid)) .load m src = .ok (.mem loc home))
    (hClean : CleanWords n fun o k => readPoisoned s (strandOf s sid).die (loc + o) k) :
    moveEl s sid slot t e =
      .landed (memWords s (strandOf s sid).die loc' home' (memRead s (strandOf s sid).die loc n)) n false := by
  have hWords := poisWords_clean hClean
  have hAny : (poisWords n fun o k => readPoisoned s (strandOf s sid).die (loc + o) k).any id = false :=
    List.any_eq_false.2 fun b hb => by simp [hWords b hb]
  simp only [moveEl, hEl, hSize, if_neg hKind, engineRead_mem hLoad, withGot_nil hGot, engineWrite_mem hStore hWords, length_memRead, hAny]

/-- An element of an XFETCH from a scratchpad of this package lands with the bytes that the scratchpad holds. -/
theorem moveEl_xfetch (hKind : t.kind = .xfetch) (hPkg : bitsN src.toNat 33 10 = s.fabric.pkgId)
    (hBridge : bridgeUp s (strandOf s sid).die (bitsN src.toNat 29 4) = true)
    (hTenant : tenantAt s (strandOf s sid).tenant (peerKey src.toNat / 2 ^ 24) = true)
    (hClean : CleanWords n fun o k => spadPoisoned s.ord (peerKey src.toNat + o) k) :
    moveEl s sid slot t e =
      .landed (memWords s (strandOf s sid).die loc' home' (Memory.getBytes s.ord.spad (peerKey src.toNat) n)) n false := by
  have hWords := poisWords_clean hClean
  have hAny : (poisWords n fun o k => spadPoisoned s.ord (peerKey src.toNat + o) k).any id = false :=
    List.any_eq_false.2 fun b hb => by simp [hWords b hb]
  have hRead : peerRead s sid slot e src.toNat n = .bytes (Memory.getBytes s.ord.spad (peerKey src.toNat) n)
      (poisWords n fun o k => spadPoisoned s.ord (peerKey src.toNat + o) k) := by
    simp only [peerRead, wayTo, hPkg, if_true, hBridge, Bool.not_true, Bool.false_eq_true, if_false, hTenant]
  simp only [moveEl, hEl, hSize, if_pos hKind, hRead, withGot_nil hGot, engineWrite_mem hStore hWords, Memory.length_getBytes, hAny]

end Element

/-! A copy of a P- or D-die strand (R154, R336, R338). -/

/-- No element of a copy lies outside SPBOUND where each of its ranges is within it (R141). -/
theorem spadBad_of_rangeOk {st : Strand} {ranges : Nat → List (Word × Nat)} :
    ∀ {n lo : Nat}, (∀ e r, lo ≤ e → e < lo + n → r ∈ ranges e → rangeOk st r) → spadBad st ranges n lo = none
  | 0, _, _ => rfl
  | n + 1, lo, h => by
    have hFind : ((ranges lo).find? fun r => inSpad r.1 && !spInRange st (r.1.toNat % 2 ^ 48) r.2) = none := by
      refine List.find?_eq_none.2 fun r hr => ?_
      have hOk : inSpad r.1 = true → spInRange st (r.1.toNat % 2 ^ 48) r.2 = true := h lo r le_rfl (by omega) hr
      simpa using hOk
    rw [spadBad, hFind]
    exact spadBad_of_rangeOk fun e r hLow hHigh => h e r (by omega) (by omega)

/-- A convoy that has queued nothing has nothing that must leave first. -/
theorem enterFor_of_empty {s : State} (h : (me s).wbuf = []) (a : Access) : enterFor s a = s := by
  simp only [enterFor, h, ownHolders]
  rfl

theorem strandOf_putMe (s : State) (st : Strand) : strandOf (putMe s st) s.cur = st := me_putMe s st

/-- The start of a copy is an access that stands for no place: it leaves by starting the engine (R160). -/
theorem performAcc_move (s : State) (sid k : Nat) {a : Access} (h : a.kind = .move (some k)) :
    performAcc s sid a = some (startCopy s sid k) := by
  have hHome : homeOf a = none := by
    unfold homeOf
    rw [h]
  simp only [performAcc, hHome, Option.any_none, Bool.false_eq_true, if_false]
  unfold performWay
  rw [h]
  rfl

/-- A strand whose path queue holds the start of a copy alone, and that may move, starts it. -/
theorem flushStrand_of_move {s : State} {sid k : Nat} {st : Strand} {a : Access} (hPq : st.pq = [.acc a]) (hKind : a.kind = .move (some k))
    (hMoves : pdHeld s = false) (hClock : Clockless st) (hLeave : mayLeave st [] a = true) :
    flushStrand (putStrand s sid st) sid =
      putStrand s sid { st with pq := [], toks := putAt 8 Token.idle st.toks k { tokOf st k with started := true } } := by
  have hHeld : (!st.trunk && pdHeld (putStrand s sid st)) = false := by
    rw [show pdHeld (putStrand s sid st) = pdHeld s from rfl, hMoves, Bool.and_false]
  have hReach : reachMe (putStrand s sid st) sid = putStrand s sid st := by
    have hDrop : dropFences s.ord st [.acc a] = [.acc a] := rfl
    simp only [reachMe, strandOf_putStrand_same, hHeld, Bool.false_eq_true, if_false, hPq, queueClocks, List.filterMap_cons, List.filterMap_nil,
      List.foldl_nil, putStrand_ord, answerOwn_of_clockless hClock, hDrop]
    rw [show ({ st with pq := [.acc a] } : Strand) = st by rw [← hPq]]
    exact putStrand_putStrand s sid st st
  have hHead := leaveAt_head (s := putStrand s sid st) (sid := sid) (a := a) (r := []) (by simp [hPq]) (.inr hMoves) (by simpa using hClock)
    (by simpa using hLeave)
  simp only [strandOf_putStrand_same, putStrand_putStrand, performAcc_move _ sid k hKind, Option.map_some] at hHead
  have hJoin : rejoin (startCopy (putStrand s sid { st with pq := [] }) sid k) sid [] =
      putStrand s sid { st with pq := [], toks := putAt 8 Token.idle st.toks k { tokOf st k with started := true } } := by
    simp only [rejoin, startCopy, strandOf_putStrand_same, putStrand_putStrand]
    rfl
  rw [hJoin] at hHead
  simp only [flushStrand, strandOf_putStrand_same, hPq, List.isEmpty_cons, hHeld, Bool.or_self, Bool.false_eq_true, if_false, hReach,
    List.length_cons, List.length_nil, Nat.zero_add, flushN, firstLeave, hHead, queueClocks, List.filterMap_nil, List.isEmpty_nil, if_true,
    putStrand_putStrand]
  rfl

/-- A syllable that is issued for the first time has noted nothing. -/
theorem doneBefore_of_fresh {s : State} (h : Fresh s) (e : Nat) : doneBefore s e = none := by simp [doneBefore, h.2.2]

theorem putAt_putAt {α : Type} (n : Nat) (d : α) (l : List α) (i : Nat) (v w : α) : putAt n d (putAt n d l i v) i w = putAt n d l i w := by
  refine List.map_congr_left fun k hk => ?_
  split
  · rfl
  next hne => rw [getD_putAt _ _ _ _ _ _ (List.mem_range.1 hk), if_neg hne]

/-- A strand none of whose busy tokens was armed among the first `mark` has no copy of these in progress. -/
theorem copying_of_later {st : Strand} {mark : Nat} (h : ∀ t ∈ st.toks, t.busy = false ∨ mark ≤ t.serial) : copying st mark = false := by
  refine List.any_eq_false.2 fun x hx => ?_
  obtain hIdle | hLater := h x.1 (List.fst_mem_of_mem_zipIdx hx)
  · simp [hIdle]
  · simp [Nat.not_lt.2 hLater]

section Arming

variable {s : State} {k start : Nat} {t : Token} {f : List (List Group) → List (List Group)} {upd : Strand → Strand}
  (hUpd : ∀ st, upd st = { st with oq := f st.oq })

/-- The token that a copy arms (R154): counts below the start and inactive rows at the front have landed. -/
def newlyArmed (t : Token) (start : Nat) : Token :=
  landInactive { t with busy := t.expected != 0, landed := min start t.expected, rows := t.rows.take t.expected }

include hUpd

/-- An armed strand, whose syllable then consumes groups of its out-queues. -/
theorem armStrand_nil (hPq : (me s).pq = []) :
    armStrand (me s) s.slot k (newlyArmed t start) upd (me s).vl [] = upd (armed (me s) s.slot k start t) := by
  simp only [armStrand, hUpd, armed, newlyArmed, noteDone, setTok_pq, hPq, List.isEmpty_nil, List.append_nil, setTok_answers]
  rfl

/-- The start of a new copy waits for nothing, and it turns the token into one whose engine works. -/
theorem flushStrand_armStrand (hQuiet : Quiet (me s)) (hUnheld : Unheld s) (hIdle : ∀ j, j < 8 → (tokOf (me s) j).busy = false)
    (hSlot : k < 8) (rel : Bool) :
    flushStrand (putMe s (armStrand (me s) s.slot k t upd (me s).vl [markItem (me s) s.slot (.acc (engineAcc .bt rel (some k)))])) s.cur =
      putMe s (armStrand (me s) s.slot k t upd (me s).vl []) := by
  obtain ⟨hStream, -, hUnanswered, hLate⟩ := hQuiet
  obtain ⟨hHeld, hOutst, hAnswers⟩ := hUnheld
  have hPq : (me s).pq = [] := (List.append_eq_nil_iff.1 hStream).1
  let note : Answer :=
    { slot := s.slot, elem := noteElem, tag := 0, data := some (.bytes (bytesOf 8 (me s).vl)), atomic := true, pc := (me s).pc.toNat }
  let move : Access := { engineAcc .bt rel (some k) with mark := (me s).armed, slot := s.slot }
  let st : Strand :=
    { armStrand (me s) s.slot k t upd (me s).vl [] with
      toks := putAt 8 Token.idle (me s).toks k { t with serial := (me s).armed, started := false }
      pq := [.acc move] }
  have hStart : armStrand (me s) s.slot k t upd (me s).vl [markItem (me s) s.slot (.acc (engineAcc .bt rel (some k)))] = st := by
    simp only [st, move, armStrand, hUpd, noteDone, setTok, markItem, hPq, List.nil_append, List.isEmpty_cons]
  rw [hStart]
  have hAnswered : st.answers = ((me s).answers.filter fun a => a.slot != 8 + k) ++ [note] := by
    simp only [st, armStrand, hUpd, noteDone, setTok, note]
  have hOutst' : st.outst = (me s).outst := by simp only [st, armStrand, hUpd, noteDone, setTok]
  have hLate' : st.late = (me s).late := by simp only [st, armStrand, hUpd, noteDone, setTok]
  refine (flushStrand_of_move (k := k) (st := st) (a := move) rfl rfl hHeld ⟨?_, ?_⟩
    (mayLeave_head fun _ => ⟨copying_of_later ?_, hLate'.trans hLate, fun _ => ?_⟩)).trans ?_
  · exact fun o ho => hOutst o (hOutst' ▸ ho)
  · intro a ha
    obtain ha | ha := List.mem_append.1 (hAnswered ▸ ha)
    · exact hAnswers a (List.mem_filter.1 ha).1
    · rw [List.mem_singleton.1 ha]
  · intro u hu
    obtain ⟨j, hj, rfl⟩ := List.mem_map.1 hu
    split
    · exact .inr le_rfl
    · exact .inl (hIdle j (List.mem_range.1 hj))
  · obtain ⟨hSent, hCopies⟩ := Bool.or_eq_false_iff.1 hUnanswered
    refine Bool.or_eq_false_iff.2 ⟨hOutst' ▸ hSent, List.any_eq_false.2 fun a ha => ?_⟩
    obtain ha | ha := List.mem_append.1 (hAnswered ▸ ha)
    · exact List.any_eq_false.1 hCopies a (List.mem_filter.1 ha).1
    · simp [List.mem_singleton.1 ha, note]
  · refine congrArg (putStrand s s.cur) ?_
    simp only [st, armStrand, hUpd, noteDone, setTok, putAt_putAt, tokOf, getD_putAt _ _ _ _ _ _ hSlot, if_true, hPq, List.append_nil,
      List.isEmpty_nil]

/-- A copy of a strand that has nothing to wait for, on an idle token, with its ranges within SPBOUND, is armed as a whole and starts. -/
theorem armCopy_of_quiet (hTrunk : (me s).trunk = false) (hFresh : Fresh s) (hQuiet : Quiet (me s)) (hUnheld : Unheld s)
    (hIdle : ∀ j, j < 8 → (tokOf (me s) j).busy = false) (hSlot : k < 8) (hPend : (tokOf (me s) k).pend = false)
    (hCount : t.expected = (me s).vl) (hRanges : ∀ e r, e < copyCount t → r ∈ elRanges t e → rangeOk (me s) r) (rel : Bool)
    (updAt : Nat → Strand → Strand) :
    armCopy s k t start rel upd updAt = .ok (putMe s (upd (armed (me s) s.slot k start t))) := by
  obtain ⟨hPq, hWbuf⟩ := List.append_eq_nil_iff.1 hQuiet.1
  have hBad : ∀ lo, spadBad (me s) (elRanges t) (copyCount t - lo) lo = none := fun lo =>
    spadBad_of_rangeOk fun e r _ hHigh => hRanges e r (by omega)
  have hArm : armCopy s k t start rel upd updAt = .ok (flushStrand (putMe s (armStrand (me s) s.slot k (newlyArmed t start) upd (me s).vl
      (armItems (me s) s.slot k (newlyArmed t start) rel))) s.cur) := by
    simp only [armCopy, doneBefore_of_fresh hFresh, hPend, hTrunk, hBad, hIdle k hSlot, hFresh.1, enterFor_of_empty hWbuf, Bool.false_eq_true,
      if_false, ite_self]
    rw [← hCount]
    rfl
  rw [hArm, ← armStrand_nil hUpd hPq]
  simp only [armItems, hWbuf, List.filter_nil, List.nil_append]
  split
  · rw [flushStrand_armStrand hUpd hQuiet hUnheld hIdle hSlot]
  · have hEmpty : (armStrand (me s) s.slot k (newlyArmed t start) upd (me s).vl []).pq = [] := by
      simp only [armStrand, hUpd, noteDone, setTok, hPq, List.append_nil]
    simp only [flushStrand, strandOf_putMe, hEmpty, List.isEmpty_nil, Bool.true_or, if_true]

end Arming

/-! A copy of a trunk strand (R336, R337, R339). -/

/-- The elements of a trunk strand's copy land one after the other, where each lands from what the elements before it have made of the ordering
machine. -/
theorem trunkMove_of_landed {s : State} {t : Token} {P : Ordering_ → Prop} {f : Ordering_ → Nat → Ordering_}
    (hLand : ∀ e o, e < 64 → P o → P (f o e) ∧ ∃ n p, moveEl { s with ord := o } s.cur s.slot t e = .landed { s with ord := f o e } n p) :
    ∀ n e o, e + n ≤ 64 → P o → trunkMove t n { s with ord := o } e = .ok { s with ord := (List.range' e n).foldl f o }
  | 0, _, _, _, _ => rfl
  | n + 1, e, o, hEnd, hP => by
    obtain ⟨hNext, m, p, hMove⟩ := hLand e o (by omega) hP
    simp only [trunkMove, hMove, List.range'_succ, List.foldl_cons]
    exact trunkMove_of_landed hLand n (e + 1) (f o e) (by omega) hNext

theorem trunkCopy_of_quiet {s : State} {t : Token} (hFresh : Fresh s) (hQuiet : Quiet (me s)) (rel : Bool) :
    trunkCopy s t rel = trunkMove { t with expected := 64 * t.unit } 64 s 0 := by
  simp only [trunkCopy, hFresh.1, Option.isSome_none, Bool.false_eq_true, if_false, makeWay_quiet s (engineAcc .bt rel none) hQuiet rfl, stepOf,
    doneBefore_of_fresh hFresh, Option.map_none, Option.getD_none, Nat.sub_zero]

/-- What an address translates to does not depend on memory where the TLB holds its leaf (R149). -/
theorem checkElem_of_tlbFind {s : State} {st : Strand} {va : Word} (h : (tlbFind s st va).isSome = true) (o : Ordering_) (a : Acc) (n : Nat) :
    checkElem { s with ord := o } st a n va = checkElem s st a n va := by
  obtain ⟨l, hl⟩ := Option.isSome_iff_exists.1 h
  have hLeaf : leafOf s st va = .ok l := by simp only [leafOf, hl]
  have hLeaf' : leafOf { s with ord := o } st va = .ok l := by
    have hl' : tlbFind { s with ord := o } st va = some l := hl
    simp only [leafOf, hl']
  simp only [checkElem, translate, hLeaf, hLeaf']
  rfl

/-- SPBOUND bounds no access of a trunk strand, and an engine is checked as its strand is. -/
theorem checkElem_engineStrand_of_trunk {st : Strand} (hTrunk : st.trunk = true) (s : State) (a : Acc) (n : Nat) (va : Word) :
    checkElem s (engineStrand st) a n va = checkElem s st a n va := by
  have hEngine : (engineStrand st).trunk = true := hTrunk
  have hTranslate : translate s (engineStrand st) a va = translate s st a va := rfl
  simp only [checkElem, hEngine, hTrunk, if_true, hTranslate]

/-- An element of a trunk strand's copy is of the whole size (R336). -/
theorem copyEl_of_trunk {t : Token} (hKind : t.kind ≠ .gathsp) {e : Nat} (he : e < 64) :
    copyEl { t with expected := 64 * t.unit } e = some (t.src + wordOf (e * t.unit), t.dst + wordOf (e * t.unit), t.unit) := by
  have hSize : min t.unit (64 * t.unit - e * t.unit) = t.unit := by
    rw [← Nat.sub_mul]
    exact Nat.min_eq_left (Nat.le_mul_of_pos_left _ (by omega))
  unfold copyEl
  split
  · contradiction
  · simp only [hSize]

theorem vmSize_pos (sz : BitVec 2) : 0 < vmSize sz := Nat.two_pow_pos _

theorem vmSize_le (sz : BitVec 2) : vmSize sz ≤ 8 := Nat.pow_le_pow_right (by decide) (Nat.le_of_lt_succ sz.isLt)

/-- The die of a peer word is the die of the scratchpad byte that it names (R339). -/
theorem peerKey_die (w : Nat) : peerKey w / 2 ^ 29 = bitsN w 29 4 := by
  have hCluster : bitsN w 24 5 < 32 := Nat.mod_lt _ (by decide)
  have hOff : bitsN w 0 24 < 16777216 := Nat.mod_lt _ (by decide)
  unfold peerKey spadKey
  omega

section TrunkElement

variable {s : State} {o : Ordering_} {t : Token} {e ld hd : Nat} (hTrunk : (me s).trunk = true) (he : e < 64) (hGot : t.got = [])
  (hSome : 0 < t.unit) (hWord : t.unit ≤ 8) (hTlb : (tlbFind s (me s) (t.dst + wordOf (e * t.unit))).isSome = true)
  (hStore : checkElem s (me s) .store t.unit (t.dst + wordOf (e * t.unit)) = .ok (.mem ld hd)) (hFrame : vacatedFrame s ld = false)
include hTrunk he hGot hSome hWord hTlb hStore hFrame

/-- An element of a trunk strand's COPY between pages of this package lands (R336, R337). -/
theorem moveEl_trunk_copy {ls hs : Nat} (hKind : t.kind = .copy) (hTlbSrc : (tlbFind s (me s) (t.src + wordOf (e * t.unit))).isSome = true)
    (hLoad : checkElem s (me s) .load t.unit (t.src + wordOf (e * t.unit)) = .ok (.mem ls hs)) (hSrcFrame : vacatedFrame s ls = false)
    (hClean : memPoisoned o (me s).die ls t.unit = false) :
    moveEl { s with ord := o } s.cur s.slot { t with expected := 64 * t.unit } e =
      .landed { s with ord := performWrite o (me s).die ld hd (Memory.getBytes (viewOf o (me s).die) ls t.unit) } t.unit false := by
  let s1 : State := { s with ord := o }
  have hPlace : ∀ a va, (tlbFind s (me s) va).isSome = true → checkElem s1 (engineStrand (me s1)) a t.unit va = checkElem s (me s) a t.unit va :=
    fun a va h => (checkElem_engineStrand_of_trunk hTrunk s1 a t.unit va).trans (checkElem_of_tlbFind h o a t.unit)
  have hClean' : CleanWords t.unit fun j k => readPoisoned s1 (me s).die (ls + j) k :=
    cleanWords_of_le hWord (Bool.and_eq_false_iff.2 (.inr hClean))
  have hMove := moveEl_mem (s := s1) (sid := s.cur) (slot := s.slot) (copyEl_of_trunk (hKind ▸ CopyKind.noConfusion) he) hGot (by simp [elSize])
    ((hPlace _ _ hTlb).trans hStore) (hKind ▸ CopyKind.noConfusion) ((hPlace _ _ hTlbSrc).trans hLoad) hClean'
  rw [hMove]
  refine congrArg (ElEnd.landed · t.unit false) ?_
  rw [memRead_of_not_vacated (s := s1) hSrcFrame, memWords_of_le (by simpa using hSome) (by simpa using hWord)]
  exact memWrite_of_not_vacated (s := s1) hFrame _ _ _

/-- An element of a trunk strand's XFETCH from a scratchpad of this package lands (R336, R339). -/
theorem moveEl_trunk_xfetch {word : Nat} (hKind : t.kind = .xfetch) (hPeer : (t.src + wordOf (e * t.unit)).toNat = word)
    (hPkg : bitsN word 33 10 = s.fabric.pkgId) (hTenant : tenantAt s 0 (peerKey word / 2 ^ 24) = true)
    (hBridge : bridgeUp s (me s).die (peerKey word / 2 ^ 29) = true) (hClean : spadPoisoned o (peerKey word) t.unit = false) :
    moveEl { s with ord := o } s.cur s.slot { t with expected := 64 * t.unit } e =
      .landed { s with ord := performWrite o (me s).die ld hd (Memory.getBytes o.spad (peerKey word) t.unit) } t.unit false := by
  let s1 : State := { s with ord := o }
  subst hPeer
  rw [peerKey_die] at hBridge
  have hTenant' : tenantAt s1 (me s).tenant (peerKey (t.src + wordOf (e * t.unit)).toNat / 2 ^ 24) = true := by
    rw [show (me s).tenant = 0 from if_pos hTrunk]
    exact hTenant
  have hClean' : CleanWords t.unit fun j k => spadPoisoned s1.ord (peerKey (t.src + wordOf (e * t.unit)).toNat + j) k :=
    cleanWords_of_le hWord (by simpa only [Nat.add_zero] using hClean)
  have hMove := moveEl_xfetch (s := s1) (sid := s.cur) (slot := s.slot) (copyEl_of_trunk (hKind ▸ CopyKind.noConfusion) he) hGot (by simp [elSize])
    ((checkElem_engineStrand_of_trunk hTrunk s1 .store t.unit _).trans ((checkElem_of_tlbFind hTlb o _ _).trans hStore)) hKind hPkg hBridge hTenant' hClean'
  rw [hMove]
  refine congrArg (ElEnd.landed · t.unit false) ?_
  rw [memWords_of_le (by simpa using hSome) (by simpa using hWord)]
  exact memWrite_of_not_vacated (s := s1) hFrame _ _ _

end TrunkElement

/-! The syllables. -/

theorem exec_copy_of_strand {s : State} {o : CopyOps} (hTrunk : (me s).trunk = false) (hVl : (me s).vl % vmSize o.sz = 0)
    (hDst : (getS s o.sa).toNat % vmSize o.sz = 0) (hSrc : (getS s o.sb).toNat % vmSize o.sz = 0) :
    exec (.copy o) s = finish s (armCopy s o.tk.toNat (newCopy (me s) .copy (getS s o.sa) (getS s o.sb) (vmSize o.sz) []) (startOf s) o.rel id
      fun _ => id) := by
  simp only [exec, execCopy, hTrunk, Bool.false_and, Bool.not_false, Bool.true_and, hVl, bne_self_eq_false, Bool.false_eq_true, if_false, hDst, hSrc,
    ne_eq, not_true_eq_false]
  rfl

theorem exec_xfetch_of_strand {s : State} {o : CopyOps} (hTrunk : (me s).trunk = false) (hPeer : peerOk (getS s o.sb).toNat (me s).vl false = true)
    (hDst : (getS s o.sa).toNat % vmSize o.sz = 0) :
    exec (.xfetch o) s = finish s (armCopy s o.tk.toNat (newCopy (me s) .xfetch (getS s o.sa) (getS s o.sb) (vmSize o.sz) []) (startOf s) o.rel id
      fun _ => id) := by
  simp only [exec, execXfetch, hTrunk, Bool.false_and, Bool.false_eq_true, if_false, hPeer, Bool.not_true, hDst, ne_eq, not_true_eq_false]
  rfl

/-- The rows of a GATHSP: none before the start, then an index or none for each element (R338). -/
def gathRows (start : Nat) (ix : List (Nat × Bool)) : List (Option Nat) :=
  List.replicate start none ++ ix.map fun x => if x.2 then some x.1 else none

theorem exec_gathsp_of_strand {s : State} {o : GathOps} {ix : List (Nat × Bool)} {g : List Group} {n : Nat}
    (hRow : n = 64 * 2 ^ (4 * o.sz.toNat + o.scale.toNat)) (hTrunk : (me s).trunk = false) (hDst : (getS s o.sa).toNat % n = 0)
    (hSrc : (getS s o.sb).toNat % n = 0) (hRead : qread (oqOf (me s) o.q.toNat) (startOf s) (me s).vl 32 = some (ix, g)) :
    ∃ updAt, exec (.gathsp o) s = finish s (armCopy s o.tk.toNat
      (newCopy (me s) .gathsp (getS s o.sa) (getS s o.sb) n (gathRows (startOf s) ix)) (startOf s) o.rel
      (fun st => dropAll st o.q.toNat (startOf s) (me s).vl 32) updAt) := by
  subst hRow
  simp only [exec, execGathsp, vecOnly_of_strand hTrunk, hDst, hSrc, ne_eq, not_true_eq_false, if_false, hRead]
  exact ⟨_, rfl⟩

/-- The out-queues once one of them has been consumed. -/
def dropGroups (q start vl w : Nat) (l : List (List Group)) : List (List Group) :=
  putAt 4 [] l q (if vl ≤ start then l.getD q [] else (l.getD q []).drop (groupsFor vl w - start * w / 2048))

theorem dropAll_eq (q start vl w : Nat) (st : Strand) : dropAll st q start vl w = { st with oq := dropGroups q start vl w st.oq } := rfl

theorem exec_copy_of_trunk {s : State} {o : CopyOps} (hTrunk : (me s).trunk = true) (hToken : o.tk = 0)
    (hDst : (getS s o.sa).toNat % vmSize o.sz = 0) (hSrc : (getS s o.sb).toNat % vmSize o.sz = 0) :
    exec (.copy o) s = finish s (trunkCopy s (newTok .copy (getS s o.sa) (getS s o.sb) (vmSize o.sz) 0 []) o.rel) := by
  simp only [exec, execCopy, hTrunk, hToken, bne_self_eq_false, Bool.and_false, Bool.not_true, Bool.false_and, Bool.false_eq_true, if_false, hDst,
    hSrc, ne_eq, not_true_eq_false, if_true]

theorem exec_xfetch_of_trunk {s : State} {o : CopyOps} (hTrunk : (me s).trunk = true) (hToken : o.tk = 0)
    (hPeer : peerOk (getS s o.sb).toNat (64 * vmSize o.sz) false = true) (hDst : (getS s o.sa).toNat % vmSize o.sz = 0) :
    exec (.xfetch o) s = finish s (trunkCopy s (newTok .xfetch (getS s o.sa) (getS s o.sb) (vmSize o.sz) 0 []) o.rel) := by
  simp only [exec, execXfetch, hTrunk, hToken, bne_self_eq_false, Bool.and_false, Bool.false_eq_true, if_false, if_true, hPeer, Bool.not_true, hDst,
    ne_eq, not_true_eq_false]

/-- A trunk strand names token 0 (R336). -/
theorem exec_copy_of_other_token {s : State} {o : CopyOps} (hTrunk : (me s).trunk = true) (hToken : o.tk ≠ 0) :
    exec (.copy o) s = .next (takeException (rollback s) cIllegal (sylWord s (.copy o)) 0) := by
  simp only [exec, execCopy, hTrunk, bne_iff_ne.2 hToken, Bool.and_self, if_true, illegal, finish]

/-- Settles O36: where nothing holds a copy back `armCopy` arms its token and the path queue lets the start through at once, and a trunk strand moves
its 64 elements one after the other. -/
theorem copiesStart : Obligations.CopiesStart := by
  refine ⟨?_, ?_, ?_, ?_, ?_, fun o s hTrunk hToken _ _ => exec_copy_of_other_token hTrunk hToken⟩
  · intro o s hTrunk hFresh hQuiet hUnheld hIdle hPend hVl hDst hSrc hRanges
    have hArm := armCopy_of_quiet (t := newCopy (me s) .copy (getS s o.sa) (getS s o.sb) (2 ^ o.sz.toNat) []) (start := startOf s) (f := id)
      (upd := id) (fun _ => rfl) hTrunk hFresh hQuiet hUnheld hIdle o.tk.isLt hPend rfl hRanges o.rel fun _ => id
    exact ⟨_, (exec_copy_of_strand hTrunk hVl hDst hSrc).trans (congrArg (finish s) hArm), meBecomes_putMe s _⟩
  · intro o s hTrunk hFresh hQuiet hUnheld hIdle hPend hPeer hDst hRanges
    have hArm := armCopy_of_quiet (t := newCopy (me s) .xfetch (getS s o.sa) (getS s o.sb) (2 ^ o.sz.toNat) []) (start := startOf s) (f := id)
      (upd := id) (fun _ => rfl) hTrunk hFresh hQuiet hUnheld hIdle o.tk.isLt hPend rfl hRanges o.rel fun _ => id
    exact ⟨_, (exec_xfetch_of_strand hTrunk hPeer hDst).trans (congrArg (finish s) hArm), meBecomes_putMe s _⟩
  · intro o s ix g n rows hTrunk hFresh hQuiet hUnheld hIdle hPend hDst hSrc hRead hRanges
    obtain ⟨updAt, hExec⟩ := exec_gathsp_of_strand rfl hTrunk hDst hSrc hRead
    have hArm := armCopy_of_quiet (t := newCopy (me s) .gathsp (getS s o.sa) (getS s o.sb) n rows) (start := startOf s)
      (upd := fun st => dropAll st o.q.toNat (startOf s) (me s).vl 32) (dropAll_eq o.q.toNat (startOf s) (me s).vl 32)
      hTrunk hFresh hQuiet hUnheld hIdle o.tk.isLt hPend rfl hRanges o.rel updAt
    exact ⟨_, hExec.trans (congrArg (finish s) hArm), meBecomes_putMe s _⟩
  · intro o s ls hs ld hd hTrunk hToken hFresh hQuiet hDst hSrc hEl
    let t := newTok .copy (getS s o.sa) (getS s o.sb) (2 ^ o.sz.toNat) 0 []
    let P := fun x => ∀ e, e < 64 → memPoisoned x (me s).die (ls e) (2 ^ o.sz.toNat) = false
    let f := fun x e => performWrite x (me s).die (ld e) (hd e) (Memory.getBytes (viewOf x (me s).die) (ls e) (2 ^ o.sz.toNat))
    have hMove : trunkMove { t with expected := 64 * t.unit } 64 s 0 = .ok { s with ord := (List.range' 0 64).foldl f s.ord } := by
      refine trunkMove_of_landed (P := P) (fun e x he hP => ?_) 64 0 s.ord le_rfl fun e he => (hEl e he).2.2.2.1
      obtain ⟨hTlbSrc, hTlbDst, hLoad, -, hSrcFrame, hStore, hFrame⟩ := hEl e he
      exact ⟨fun e' he' => poison_performWrite_false _ _ _ _ _ _ _ _ (hP e' he'), _, _,
        moveEl_trunk_copy (t := t) hTrunk he rfl (vmSize_pos o.sz) (vmSize_le o.sz) hTlbDst hStore hFrame rfl hTlbSrc hLoad hSrcFrame (hP e he)⟩
    refine ⟨_, (exec_copy_of_trunk hTrunk hToken hDst hSrc).trans (congrArg (finish s) ((trunkCopy_of_quiet hFresh hQuiet o.rel).trans hMove)),
      rfl, ?_⟩
    rw [List.range_eq_range']
  · intro o s ld hd hTrunk hToken hFresh hQuiet hPeer hDst word hEl
    let t := newTok .xfetch (getS s o.sa) (getS s o.sb) (2 ^ o.sz.toNat) 0 []
    let f := fun x e => performWrite x (me s).die (ld e) (hd e) (Memory.getBytes s.ord.spad (peerKey (word e)) (2 ^ o.sz.toNat))
    have hMove : trunkMove { t with expected := 64 * t.unit } 64 s 0 = .ok { s with ord := (List.range' 0 64).foldl f s.ord } := by
      refine trunkMove_of_landed (P := fun x => spads x = spads s.ord) (fun e x he hP => ?_) 64 0 s.ord le_rfl rfl
      obtain ⟨hPkg, hTenant, hBridge, hClean, hTlbDst, hStore, hFrame⟩ := hEl e he
      have hClean' : spadPoisoned x (peerKey (word e)) t.unit = false := by
        rw [spadPoisoned, spadPoison_of_spads hP]
        exact hClean
      have hLand := moveEl_trunk_xfetch (t := t) (o := x) hTrunk he rfl (vmSize_pos o.sz) (vmSize_le o.sz) hTlbDst hStore hFrame rfl rfl hPkg
        hTenant hBridge hClean'
      rw [spad_of_spads hP] at hLand
      exact ⟨(spads_performWrite _ _ _ _ _).trans hP, _, _, hLand⟩
    refine ⟨_, (exec_xfetch_of_trunk hTrunk hToken hPeer hDst).trans (congrArg (finish s) ((trunkCopy_of_quiet hFresh hQuiet o.rel).trans hMove)),
      rfl, ?_⟩
    rw [List.range_eq_range']

end Sys2Proof.Machine
end

section
/-! SUPPORT. A die applies a write of its apply buffer (R164, R165), and what every die has applied is answered (R27, R178). -/

namespace Sys2Proof.Machine

/-! The bytes that R165 lets an applied write replace. -/

/-- One byte of an applied write in a die's view, where R165 lets it in. -/
def installByte (o : Ordering_) (d id p loc : Nat) (b : Byte) : Ordering_ :=
  if heldLater o d loc p then o else holdWrite (setView o d loc [b]) d loc 1 id

theorem installBytes_cons (o : Ordering_) (d id p loc : Nat) (b : Byte) (l : List Byte) :
    installBytes o d id p loc (b :: l) = installBytes (installByte o d id p loc b) d id p (loc + 1) l := rfl

/-- Installing changes the views and what they hold, and nothing else. -/
theorem installByte_eq (o : Ordering_) (d id p loc : Nat) (b : Byte) :
    ∃ v h, installByte o d id p loc b = { o with views := v, held := h } := by
  unfold installByte
  split
  · exact ⟨o.views, o.held, rfl⟩
  · exact ⟨_, _, rfl⟩

theorem installBytes_eq (d id p : Nat) : ∀ (l : List Byte) (o : Ordering_) (loc : Nat),
    ∃ v h, installBytes o d id p loc l = { o with views := v, held := h }
  | [], o, _ => ⟨o.views, o.held, rfl⟩
  | b :: l, o, loc => by
    obtain ⟨v, h, hByte⟩ := installByte_eq o d id p loc b
    obtain ⟨v', h', hBytes⟩ := installBytes_eq d id p l (installByte o d id p loc b) (loc + 1)
    exact ⟨v', h', by rw [installBytes_cons, hBytes, hByte]⟩

theorem viewOf_setView (o : Ordering_) (d loc k : Nat) (b : List Byte) (h : k < 9) :
    viewOf (setView o d loc b) k = if k = d then Memory.setBytes (viewOf o d) loc b else viewOf o k := getD_putAt _ _ _ _ _ _ h

theorem viewOf_holdWrite (o : Ordering_) (d loc n id k : Nat) : viewOf (holdWrite o d loc n id) k = viewOf o k := rfl

/-- Which write a view holds at a byte bears on that byte alone. -/
theorem heldLater_installByte {o : Ordering_} {d loc a : Nat} (hd : d < 9) (ha : a ≠ loc) (id p : Nat) (b : Byte) :
    heldLater (installByte o d id p loc b) d a p = heldLater o d a p := by
  unfold installByte
  split
  · rfl
  · have hHeld : (holdWrite (setView o d loc [b]) d loc 1 id).held.getD d [] = NMap.set (o.held.getD d []) loc id :=
      (getD_putAt _ _ _ _ _ _ hd).trans (if_pos rfl)
    simp only [heldLater, hHeld, NMap.get?_set_ne _ _ _ _ ha]
    rfl

theorem get_installByte {o : Ordering_} {d : Nat} (hd : d < 9) (hCanonical : CanonicalOrd o) (id p loc a : Nat) (b : Byte) :
    Memory.get (viewOf (installByte o d id p loc b) d) a =
      if a = loc ∧ heldLater o d a p = false then b else Memory.get (viewOf o d) a := by
  unfold installByte
  split
  next h =>
    refine (if_neg ?_).symm
    rintro ⟨rfl, hNot⟩
    exact absurd (h.symm.trans hNot) (by decide)
  next h =>
    rw [viewOf_holdWrite, viewOf_setView o d loc d [b] hd, if_pos rfl]
    refine (Memory.get_set _ _ _ _ (wf_viewOf o d hCanonical)).trans ?_
    by_cases ha : a = loc
    · subst ha
      simp [h]
    · simp [ha]

theorem canonical_installByte {o : Ordering_} (hCanonical : CanonicalOrd o) (d id p loc : Nat) (b : Byte) :
    CanonicalOrd (installByte o d id p loc b) :=
  canonical_installBytes [b] o d id p loc hCanonical

/-- R165: an applied write replaces the bytes whose held value does not lie later in the coherence order. -/
theorem get_installBytes {d : Nat} (hd : d < 9) (id p a : Nat) : ∀ (l : List Byte) {o : Ordering_} (_ : CanonicalOrd o) (loc : Nat),
    Memory.get (viewOf (installBytes o d id p loc l) d) a =
      if loc ≤ a ∧ a < loc + l.length ∧ heldLater o d a p = false then l.getD (a - loc) 0 else Memory.get (viewOf o d) a
  | [], o, _, loc => by
    refine (if_neg ?_).symm
    rintro ⟨hLow, hHigh, -⟩
    exact absurd hHigh (by simpa using hLow)
  | b :: l, o, hCanonical, loc => by
    rw [installBytes_cons, get_installBytes hd id p a l (canonical_installByte hCanonical d id p loc b), get_installByte hd hCanonical]
    by_cases ha : a = loc
    · subst ha
      have hBelow : ¬ a + 1 ≤ a := by omega
      simp [hBelow]
    · rw [heldLater_installByte hd ha]
      by_cases hIn : loc + 1 ≤ a ∧ a < loc + 1 + l.length
      · have hNext : a - loc = a - (loc + 1) + 1 := by omega
        have hIn' : loc ≤ a ∧ a < loc + (b :: l).length := by
          rw [List.length_cons]
          omega
        simp only [ha, hIn, hIn', hNext, List.getD_cons_succ, false_and, true_and, if_false]
      · have hOut : ¬ (loc ≤ a ∧ a < loc + (b :: l).length) := by
          rw [List.length_cons]
          omega
        simp only [ha, false_and, if_false, ← and_assoc, hIn, hOut]

theorem viewOf_installByte_ne {d k : Nat} (hk : k < 9) (hne : k ≠ d) (o : Ordering_) (id p loc : Nat) (b : Byte) :
    viewOf (installByte o d id p loc b) k = viewOf o k := by
  unfold installByte
  split
  · rfl
  · rw [viewOf_holdWrite, viewOf_setView _ _ _ _ _ hk, if_neg hne]

theorem viewOf_installBytes_ne {d k : Nat} (hk : k < 9) (hne : k ≠ d) (id p : Nat) : ∀ (l : List Byte) (o : Ordering_) (loc : Nat),
    viewOf (installBytes o d id p loc l) k = viewOf o k
  | [], _, _ => rfl
  | b :: l, o, loc => by rw [installBytes_cons, viewOf_installBytes_ne hk hne id p l, viewOf_installByte_ne hk hne]

/-! The applied counts. -/

theorem appliedOf_bumpApplied (o : Ordering_) (d e k : Nat) (h : k < 9) :
    appliedOf (bumpApplied o d e) k = if k = d then putAt 9 0 (appliedOf o d) e (clockAt (appliedOf o d) e + 1) else appliedOf o k :=
  getD_putAt _ _ _ _ _ _ h

theorem clockAt_putAt (l : List Nat) (e k v : Nat) (h : k < 9) : clockAt (putAt 9 0 l e v) k = if k = e then v else clockAt l k :=
  getD_putAt _ _ _ _ _ _ h

/-- Forgetting the coherence order changes nothing else. -/
theorem pruneOrder_eq (o : Ordering_) : ∃ p h, pruneOrder o = { o with pos := p, held := h } := by
  unfold pruneOrder
  split
  · exact ⟨_, _, rfl⟩
  · exact ⟨o.pos, o.held, rfl⟩

/-- The ordering machine once the write has its position, where the die that applies it is its home die (R165). -/
def placedAt (o : Ordering_) (d : Nat) (w : WriteMsg) : Ordering_ := if w.home = d then givePos o w.id else o

/-- Beside its position, a write that is placed changes nothing. -/
theorem placedAt_eq (o : Ordering_) (d : Nat) (w : WriteMsg) :
    ∃ p, placedAt o d w = { o with pos := p, nextPos := o.nextPos + if w.home = d then 1 else 0 } := by
  unfold placedAt
  split
  · exact ⟨_, rfl⟩
  · exact ⟨o.pos, rfl⟩

/-- The views, the counts and the place in the coherence order once a die has applied a write. -/
theorem applyAt_of_canApply {o : Ordering_} {d i : Nat} {w : WriteMsg} (hWrite : (o.applyBuf.getD d [])[i]? = some w)
    (hCan : canApply o d w = true) :
    let q := installBytes (placedAt o d w) d w.id ((NMap.get? (placedAt o d w).pos w.id).getD 0) w.loc w.bytes
    ∃ o', applyAt o d i = some o' ∧ o'.views = q.views ∧ o'.applied = (bumpApplied q d w.src).applied ∧ o'.spad = o.spad ∧
      o'.nextPos = o.nextPos + if w.home = d then 1 else 0 := by
  intro q
  have hApply : applyAt o d i = some (pruneOrder { bumpApplied q d w.src with
      applyBuf := putAt 9 [] (bumpApplied q d w.src).applyBuf d (dropAt (o.applyBuf.getD d []) i)
      l2Poison := l2Clear (bumpApplied q d w.src).l2Poison d w.loc w.bytes.length }) := by
    simp only [applyAt, hWrite, hCan, if_true]
    rfl
  obtain ⟨p, h, hPrune⟩ := pruneOrder_eq { bumpApplied q d w.src with
    applyBuf := putAt 9 [] (bumpApplied q d w.src).applyBuf d (dropAt (o.applyBuf.getD d []) i)
    l2Poison := l2Clear (bumpApplied q d w.src).l2Poison d w.loc w.bytes.length }
  obtain ⟨p', hPlaced⟩ := placedAt_eq o d w
  obtain ⟨v, h', hInstall⟩ := installBytes_eq d w.id ((NMap.get? (placedAt o d w).pos w.id).getD 0) w.bytes (placedAt o d w) w.loc
  refine ⟨_, hApply, ?_, ?_, ?_, ?_⟩
  · rw [hPrune]
    rfl
  · rw [hPrune]
  · rw [hPrune]
    exact (congrArg Ordering_.spad hInstall :).trans (congrArg Ordering_.spad hPlaced :)
  · rw [hPrune]
    exact (congrArg Ordering_.nextPos hInstall :).trans (congrArg Ordering_.nextPos hPlaced :)

theorem viewOf_congr {o o' : Ordering_} (h : o'.views = o.views) (k : Nat) : viewOf o' k = viewOf o k := by rw [viewOf, h, viewOf]

theorem appliedOf_congr {o o' : Ordering_} (h : o'.applied = o.applied) (k : Nat) : appliedOf o' k = appliedOf o k := by
  rw [appliedOf, h, appliedOf]

/-- What a die that applies a write changes: its own view where R165 lets it, and its own count of the writer. -/
theorem applyAt_frame {o : Ordering_} {d i : Nat} {w : WriteMsg} (hd : d < 9) (hCanonical : CanonicalOrd o)
    (hWrite : (o.applyBuf.getD d [])[i]? = some w) (hCan : canApply o d w = true) :
    ∃ o', applyAt o d i = some o' ∧ o'.spad = o.spad ∧
      (∀ a, Memory.get (viewOf o' d) a =
        if w.loc ≤ a ∧ a < w.loc + w.bytes.length ∧
            heldLater (placedAt o d w) d a ((NMap.get? (placedAt o d w).pos w.id).getD 0) = false
          then w.bytes.getD (a - w.loc) 0 else Memory.get (viewOf o d) a) ∧
      (∀ e, e < 9 → clockAt (appliedOf o' d) e = clockAt (appliedOf o d) e + if e = w.src then 1 else 0) ∧
      (∀ k, k < 9 → k ≠ d → viewOf o' k = viewOf o k ∧ appliedOf o' k = appliedOf o k) ∧
      o'.nextPos = o.nextPos + if w.home = d then 1 else 0 := by
  obtain ⟨o', hApply, hViews, hApplied, hSpad, hNext⟩ := applyAt_of_canApply hWrite hCan
  obtain ⟨p', hPlaced⟩ := placedAt_eq o d w
  have hPlacedView : ∀ k, viewOf (placedAt o d w) k = viewOf o k := viewOf_congr (by rw [hPlaced])
  have hPlacedCanonical : CanonicalOrd (placedAt o d w) := hCanonical.of_eq (by rw [hPlaced]) (by rw [hPlaced])
  obtain ⟨v, h', hInstall⟩ := installBytes_eq d w.id ((NMap.get? (placedAt o d w).pos w.id).getD 0) w.bytes (placedAt o d w) w.loc
  have hCounts : ∀ k, appliedOf (installBytes (placedAt o d w) d w.id ((NMap.get? (placedAt o d w).pos w.id).getD 0) w.loc w.bytes) k =
      appliedOf o k := appliedOf_congr (by rw [hInstall, hPlaced])
  refine ⟨o', hApply, hSpad, fun a => ?_, fun e he => ?_, fun k hk hne => ⟨?_, ?_⟩, hNext⟩
  · rw [viewOf_congr hViews, get_installBytes hd _ _ _ _ hPlacedCanonical, hPlacedView]
  · rw [appliedOf_congr hApplied, appliedOf_bumpApplied _ _ _ _ hd, if_pos rfl, clockAt_putAt _ _ _ _ he, hCounts]
    split
    next hSrc => rw [hSrc]
    next => rfl
  · rw [viewOf_congr hViews, viewOf_installBytes_ne hk hne, hPlacedView]
  · rw [appliedOf_congr hApplied, appliedOf_bumpApplied _ _ _ _ hk, if_neg hne, hCounts]

/-! What every die has applied is answered. -/

theorem answerOwns_ord (s : State) : (answerOwns s).ord = s.ord := by
  unfold answerOwns
  dsimp only
  split <;> split <;> rfl

/-- Where nothing waits for the dies, nothing is answered. -/
theorem answerOwns_of_clockless {s : State} (hOwed : s.fabric.owed = []) (hClock : ∀ x ∈ s.strands, Clockless x.2) : answerOwns s = s := by
  have hNone : (s.strands.any fun x => x.2.outst.any (ownDone s.ord) || x.2.answers.any fun a => a.data.isNone && !a.clock.isEmpty) = false := by
    refine List.any_eq_false.2 fun x hx => ?_
    obtain ⟨hOutst, hAnswers⟩ := hClock x hx
    have hSent : x.2.outst.any (ownDone s.ord) = false := List.any_eq_false.2 fun o ho => by simp [ownDone_of_clock_nil (hOutst o ho)]
    have hAsked : (x.2.answers.any fun a => a.data.isNone && !a.clock.isEmpty) = false := List.any_eq_false.2 fun a ha => by simp [hAnswers a ha]
    simp [hSent, hAsked]
  simp only [answerOwns, hOwed, List.isEmpty_nil, if_true, hNone, Bool.false_eq_true, if_false]

end Sys2Proof.Machine
end

section
/-! SUPPORT. Moves of a strand's engines and of its path queue (R155, R157, R160 to R178). -/

namespace Sys2Proof.Machine

/-! Elements of copies that land or fault (R154, R155, R157). -/

theorem landStep_of_landed {s s1 : State} {sid k e n : Nat} {pois : Bool} (hOpen : engineOpen s sid k e = true)
    (hMove : moveEl s sid (8 + k) (tokOf (strandOf s sid) k) e = .landed s1 n pois) :
    landStep s sid k e none = some (updTok s1 sid k fun t => landEl { t with got := t.got.filter fun g => g.1 / 2048 != e } e) := by
  simp only [landStep, hOpen, Bool.not_true, Option.any_none, Bool.or_self, Bool.false_eq_true, if_false, hMove]

/-- A fragment of a KV stream lands and is counted (R157, R250). -/
theorem landStep_of_landed_sync {s s1 : State} {sid k e n w : Nat} {pois : Bool} (hOpen : engineOpen s sid k e = true)
    (hMove : moveEl s sid (8 + k) (tokOf (strandOf s sid) k) e = .landed s1 n pois)
    (hSync : kvSyncOk s sid (tokOf (strandOf s sid) k) e w = true) :
    let s2 := updTok s1 sid k fun t => landEl { t with got := t.got.filter fun g => g.1 / 2048 != e } e
    landStep s sid k e (some w) = some { s2 with
      ord := (syncArrive (reach s2.ord ((strandOf s2 sid).die + 4) (appliedOf s2.ord (strandOf s2 sid).die)) w n pois).1 } := by
  intro s2
  simp only [landStep, hOpen, hSync, Bool.not_true, Option.any_some, Bool.or_self, Bool.false_eq_true, if_false, hMove]
  rfl

theorem exec_engineElementLand {s s1 : State} {sid k e : Nat} (hArg : s.arg = .n3 sid k e) (hLand : landStep s sid k e none = some s1) :
    exec .engineElementLand s = .next s1 := by
  simp only [exec, execEngineElementLand, hArg, hLand]

theorem exec_engineElementLand_sync {s s1 : State} {sid k e w : Nat} (hArg : s.arg = .land sid k e w)
    (hLand : landStep s sid k e (some w) = some s1) : exec .engineElementLand s = .next s1 := by
  simp only [exec, execEngineElementLand, hArg, hLand]

/-- The count of accesses turned away is a matter of the fabric's counters (R147). -/
theorem countBeyond_eq (s : State) (c : Nat) (ev : Word) : ∃ f, countBeyond s c ev = { s with fabric := f } := by
  unfold countBeyond
  split
  · split
    · exact ⟨_, rfl⟩
    · exact ⟨s.fabric, rfl⟩
  · exact ⟨s.fabric, rfl⟩

/-- A strand has eight tokens (R154). -/
theorem tokOf_setTok_same (st : Strand) (k : Nat) (t : Token) : tokOf (setTok st k t) k = if k < 8 then t else Token.idle := by
  split
  next h => rw [tokOf_setTok _ _ _ _ h, if_pos rfl]
  next h => simp [tokOf, setTok, putAt, h]

/-- The token of a copy that stops keeps what its fault will say (R155). -/
theorem tokOf_pendAt (s : State) (sid k c : Nat) (ev : Word) :
    tokOf (strandOf (pendAt s sid k c ev) sid) k =
      if k < 8 then { tokOf (strandOf s sid) k with pend := true, cause := c, eval := ev, got := [] } else Token.idle := by
  obtain ⟨f, hCount⟩ := countBeyond_eq { s with cur := sid } c ev
  have hPend : ∀ s0 : State, strandOf s0 sid = strandOf s sid → ∀ s1 p,
      tokOf (stash s1 p (strandOf (updTok s0 sid k fun t => { t with pend := true, cause := c, eval := ev, got := [] }) sid)) k =
        if k < 8 then { tokOf (strandOf s sid) k with pend := true, cause := c, eval := ev, got := [] } else Token.idle := by
    intro s0 hSame s1 p
    rw [updTok, strandOf_putStrand_same, hSame]
    exact tokOf_setTok_same _ _ _
  simp only [pendAt, strandOf_putStrand_same]
  exact hPend _ (by rw [hCount]; rfl) _ _

theorem faultStep_of_fail {s : State} {sid k e c : Nat} {ev : Word} (hOpen : engineOpen s sid k e = true)
    (hMove : moveEl s sid (8 + k) (tokOf (strandOf s sid) k) e = .fail c ev)
    (hFirst : c = cData → ∀ i, i < e → elOpen (tokOf (strandOf s sid) k) i = true → elPoisoned s sid k i = false) :
    faultStep s sid k e false = some (pendAt s sid k c ev) := by
  have hNotLater : ¬ (decide (c = cData) &&
      (List.range e).any fun i => elOpen (tokOf (strandOf s sid) k) i && elPoisoned s sid k i) = true := by
    simp only [Bool.and_eq_true, decide_eq_true_eq, List.any_eq_true, List.mem_range, not_and, not_exists]
    rintro hData i hi hElem hPoison
    exact absurd hPoison (by simp [hFirst hData i hi hElem])
  simp only [faultStep, hOpen, Bool.not_true, Bool.false_eq_true, if_false, hMove, if_neg hNotLater]

/-! Late failures of the race unit's and the other units' accesses (R233). -/

/-- Where no access of a unit has failed, nothing is taken. -/
theorem raceLates_of_none {s : State} (h : ∀ c, c ≤ 64 → (strandOf s (256 + c)).late = []) : raceLates s = s := by
  have hFold : ∀ l : List Nat, (∀ c ∈ l, c ≤ 64) → l.foldl (fun s c =>
      let st := strandOf s (raceSid c)
      if st.late.isEmpty then s else abortCtx (putStrand s (raceSid c) { st with late := [] }) c 4) s = s := by
    intro l hl
    induction l with
    | nil => rfl
    | cons c l ih =>
      have hLate : (strandOf s (raceSid c)).late = [] := h c (hl c (by simp))
      simp only [List.foldl_cons, hLate, List.isEmpty_nil, if_true]
      exact ih fun c hc => hl c (by simp [hc])
  have hUnit : (strandOf s unitSid).late = [] := h 64 le_rfl
  simp only [raceLates, hFold (List.range 64) fun c hc => (List.mem_range.1 hc).le, hUnit, List.isEmpty_nil, if_true]

/-! An access at the head of its path queue leaves it (R162, R166, R169, R177). -/

theorem bringOld_pq (st : Strand) (x : Option Fill) (v : Nat) (fl : FFlags) : (bringOld st x v fl).pq = st.pq := by
  unfold bringOld
  split
  · rfl
  · dsimp only
    split <;> rfl

/-- An atomic that meets no poison is performed (R69). -/
theorem atomicMem_poisoned {o : Ordering_} {home loc n : Nat} (h : memPoisoned o home loc n = false) (op : AtomOp) (v e : Nat) :
    (atomicMem o op n loc home v e).2.poisoned = false := by
  simp only [atomicMem, h, Bool.false_eq_true, if_false]
  split <;> rfl

section Perform

variable {s : State} {sid loc home : Nat} {a : Access} (hPlace : a.place = .mem loc home)
  (hBridge : bridgeUp s (strandOf s sid).die home = true) (hFrame : vacatedFrame s loc = false)
include hPlace hBridge

/-- Over bridges that stand an access performs. -/
theorem performAcc_of_bridgeUp : performAcc s sid a = performWay s sid a := by
  have hHome : homeOf a = none ∨ homeOf a = some home := by
    cases hKind : a.kind <;> simp [homeOf, hPlace, hKind]
  obtain hHome | hHome := hHome <;> simp [performAcc, hHome, hBridge]

include hFrame

theorem performAcc_write {b : List Byte} (hKind : a.kind = .write b) :
    performAcc s sid a = some { s with ord := performWrite s.ord (strandOf s sid).die loc home b } := by
  rw [performAcc_of_bridgeUp hPlace hBridge]
  simp only [performWay, hPlace, hKind, memWrite_of_not_vacated hFrame]

/-- A queued atomic performs at its home die, and waits there for its clock (R166). -/
theorem performAcc_atomic {op : AtomOp} {n : Nat} {v : BitVec 512} (hKind : a.kind = .atomic op n v)
    (hClean : memPoisoned s.ord home loc n = false) :
    let x := atomicMem s.ord op n loc home v.toNat 0
    let st := bringOld (strandOf s sid) a.fill x.2.old x.2.flags
    performAcc s sid a = some (putStrand { s with ord := x.1 } sid { st with pq := .done { a with size := n } x.2.hc :: st.pq }) := by
  intro x st
  rw [performAcc_of_bridgeUp hPlace hBridge]
  simp only [performWay, hPlace, hKind, atomQueued, memAtomic, hFrame, Bool.false_eq_true, if_false, atomicMem_poisoned hClean, Bool.false_and]
  rfl

/-- A ticketed element performs in its turn, and every die applies it (R177). -/
theorem performAcc_ticketed {b : List Byte} (hKind : a.kind = .ticketed b s.ord.performed) :
    let o := performWrite s.ord (strandOf s sid).die loc home b
    performAcc s sid a = some { s with ord := passTicket (reachAll o (appliedOf o (strandOf s sid).die)) } := by
  intro o
  rw [performAcc_of_bridgeUp hPlace hBridge]
  simp only [performWay, hPlace, hKind, ticketPut, if_true, memWrite_of_not_vacated hFrame]
  rfl

end Perform

section Head

variable {s s1 : State} {sid : Nat} {a : Access} {r : List QItem} (hPq : (strandOf s sid).pq = .acc a :: r)
  (hMoves : (strandOf s sid).trunk = true ∨ pdHeld s = false) (hClock : Clockless (strandOf s sid))
  (hLeave : mayLeave (strandOf s sid) [] a = true)
  (hPerform : performAcc (putStrand s sid { strandOf s sid with pq := [] }) sid a = some s1)
include hPq hMoves hClock hLeave hPerform

theorem leaveAt_of_performAcc : leaveAt s sid 0 = some (rejoin s1 sid r) := by
  rw [leaveAt_head hPq hMoves hClock hLeave, hPerform, Option.map_some]

/-- What the leaving of the head makes of the path queue and of the other strands, where the access brings its strand no failure. -/
theorem pathLeave_of_performAcc (hUnits : ∀ c, c ≤ 64 → (strandOf s (256 + c)).late = []) (hWaits : WaitsAlike (strandOf s sid) (strandOf s1 sid))
    (hOthers : ∀ k, k ≠ sid → strandOf s1 k = strandOf s k) :
    ∃ t, pathLeave s sid 0 = some t ∧ t.ord = s1.ord ∧ (strandOf t sid).pq = dropFences t.ord (strandOf s sid) ((strandOf s1 sid).pq ++ r) ∧
      ∀ k, k ≠ sid → strandOf t k = strandOf s k := by
  have hStrands : ∀ k, k ≠ sid → strandOf (rejoin s1 sid r) k = strandOf s k := fun k hk =>
    (strandOf_putStrand_ne _ _ _ _ hk).trans (hOthers k hk)
  have hLates : ∀ c, c ≤ 64 → (strandOf (rejoin s1 sid r) (256 + c)).late = [] := by
    intro c hc
    by_cases hSid : 256 + c = sid
    · rw [hSid, rejoin, strandOf_putStrand_same]
      exact hWaits.late.trans (hSid ▸ hUnits c hc)
    · rw [hStrands _ hSid]
      exact hUnits c hc
  refine ⟨rejoin s1 sid r, ?_, rfl, ?_, hStrands⟩
  · rw [pathLeave, leaveAt_of_performAcc hPq hMoves hClock hLeave hPerform, Option.map_some, raceLates_of_none hLates]
  · rw [rejoin, strandOf_putStrand_same]
    exact hWaits.dropFences_eq _ _

end Head

theorem exec_pathQueueLeave_head {s t : State} {sid : Nat} {a : Access} {r : List QItem} (hArg : s.arg = .n2 sid 0)
    (hPq : (strandOf s sid).pq = .acc a :: r) (h : pathLeave s sid 0 = some t) : exec .pathQueueLeave s = .next t := by
  simp only [exec, execPathQueueLeave, hArg, hPq, List.length_cons, Nat.succ_pos, if_true, h, event]

theorem exec_atomicPerform_head {s t : State} {sid n : Nat} {a : Access} {r : List QItem} {op : AtomOp} {v : BitVec 512}
    (hArg : s.arg = .n2 sid 0) (hPq : (strandOf s sid).pq = .acc a :: r) (hKind : a.kind = .atomic op n v) (h : pathLeave s sid 0 = some t) :
    exec .atomicPerform s = .next t := by
  simp [exec, execAtomicPerform, atomicPerform, hArg, hPq, itemAtomic, hKind, h, event]

section Leave

variable {s : State} {sid loc home : Nat} {a : Access} {r : List QItem} (hPq : (strandOf s sid).pq = .acc a :: r)
  (hMoves : (strandOf s sid).trunk = true ∨ pdHeld s = false) (hClock : Clockless (strandOf s sid))
  (hLeave : mayLeave (strandOf s sid) [] a = true) (hPlace : a.place = .mem loc home)
  (hBridge : bridgeUp s (strandOf s sid).die home = true) (hFrame : vacatedFrame s loc = false)

/-- The strand while the access at the head of its path queue performs: the rest of the queue is set aside. -/
def apart (s : State) (sid : Nat) : State := putStrand s sid { strandOf s sid with pq := [] }

theorem strandOf_apart (s : State) (sid : Nat) : strandOf (apart s sid) sid = { strandOf s sid with pq := [] } := strandOf_putStrand_same _ _ _

include hBridge in
theorem bridgeUp_apart : bridgeUp (apart s sid) (strandOf (apart s sid) sid).die home = true := by
  rw [strandOf_apart]
  exact hBridge

include hPq hMoves hClock hLeave hPlace hBridge hFrame

/-- A write at the head leaves and performs (R162, R163). -/
theorem pathLeave_write {b : List Byte} (hUnits : ∀ c, c ≤ 64 → (strandOf s (256 + c)).late = []) (hKind : a.kind = .write b) :
    ∃ t, pathLeave s sid 0 = some t ∧ t.ord = performWrite s.ord (strandOf s sid).die loc home b ∧
      (strandOf t sid).pq = dropFences t.ord (strandOf s sid) r ∧ ∀ k, k ≠ sid → strandOf t k = strandOf s k := by
  have hPerform := performAcc_write (s := apart s sid) hPlace (bridgeUp_apart hBridge) hFrame hKind
  rw [strandOf_apart] at hPerform
  obtain ⟨t, hPath, hOrd, hQueue, hOthers⟩ := pathLeave_of_performAcc hPq hMoves hClock hLeave hPerform hUnits
    (strandOf_apart s sid ▸ waitsAlike_pq (strandOf s sid) []) fun k hk => strandOf_putStrand_ne s sid k _ hk
  exact ⟨t, hPath, hOrd, hQueue.trans (congrArg (fun st : Strand => dropFences t.ord (strandOf s sid) (st.pq ++ r)) (strandOf_apart s sid)), hOthers⟩

/-- An atomic at the head performs, and stays there until its die has applied its clock (R166). -/
theorem pathLeave_atomic {op : AtomOp} {n : Nat} {v : BitVec 512} (hUnits : ∀ c, c ≤ 64 → (strandOf s (256 + c)).late = [])
    (hKind : a.kind = .atomic op n v) (hClean : memPoisoned s.ord home loc n = false) :
    let x := atomicMem s.ord op n loc home v.toNat 0
    ∃ t, pathLeave s sid 0 = some t ∧ t.ord = x.1 ∧
      (strandOf t sid).pq = dropFences t.ord (strandOf s sid) (.done { a with size := n } x.2.hc :: r) ∧
      ∀ k, k ≠ sid → strandOf t k = strandOf s k := by
  intro x
  have hPerform := performAcc_atomic (s := apart s sid) hPlace (bridgeUp_apart hBridge) hFrame hKind hClean
  simp only [strandOf_apart, bringOld_pq] at hPerform
  let st := bringOld { strandOf s sid with pq := [] } a.fill x.2.old x.2.flags
  have hWaits : WaitsAlike (strandOf s sid) { st with pq := [.done { a with size := n } x.2.hc] } :=
    ((waitsAlike_pq _ []).trans (waitsAlike_bringOld _ _ _ _)).trans (waitsAlike_pq _ _)
  obtain ⟨t, hPath, hOrd, hQueue, hOthers⟩ := pathLeave_of_performAcc hPq hMoves hClock hLeave hPerform hUnits
    (by rw [strandOf_putStrand_same]; exact hWaits)
    fun k hk => (strandOf_putStrand_ne _ sid k _ hk).trans (strandOf_putStrand_ne s sid k _ hk)
  refine ⟨t, hPath, hOrd, ?_, hOthers⟩
  rw [strandOf_putStrand_same] at hQueue
  exact hQueue

/-- A ticketed element at the head performs in its turn (R177). -/
theorem leaveAt_ticketed {b : List Byte} (hKind : a.kind = .ticketed b s.ord.performed) :
    let o := performWrite s.ord (strandOf s sid).die loc home b
    ∃ t, leaveAt s sid 0 = some t ∧ t.ord = passTicket (reachAll o (appliedOf o (strandOf s sid).die)) := by
  have hPerform := performAcc_ticketed (s := apart s sid) hPlace (bridgeUp_apart hBridge) hFrame hKind
  rw [strandOf_apart] at hPerform
  exact ⟨_, leaveAt_of_performAcc hPq hMoves hClock hLeave hPerform, rfl⟩

end Leave

/-- A position past the issue stream asks for an access that has not been issued (R130, R159). -/
theorem exec_pathQueueLeave_past {s : State} {sid i : Nat} (hArg : s.arg = .n2 sid i) (hPast : (strandOf s sid).pq.length ≤ i) :
    exec .pathQueueLeave s =
      .next { s with look := some { depth := 0, path := [], atom := false, left := some (i - (strandOf s sid).pq.length), hit := false, asked := false } } := by
  simp only [exec, execPathQueueLeave, hArg, if_neg (Nat.not_lt.2 hPast), event]

theorem exec_atomicPerform_past {s : State} {sid i : Nat} (hArg : s.arg = .n2 sid i) (hPast : (strandOf s sid).pq.length ≤ i) :
    exec .atomicPerform s =
      .next { s with look := some { depth := 0, path := [], atom := true, left := some (i - (strandOf s sid).pq.length), hit := false, asked := false } } := by
  simp only [exec, execAtomicPerform, atomicPerform, hArg, if_pos hPast, event]

/-- The element that holds the lowest open ticket, at the head of its path queue, is the one whose turn passes on (R177). -/
theorem exec_ticketAdvance_head {s t : State} {sid : Nat} {a : Access} {r : List QItem} {b : List Byte} (hArg : s.arg = .n1 sid)
    (hPq : (strandOf s sid).pq = .acc a :: r) (hKind : a.kind = .ticketed b s.ord.performed) (h : leaveAt s sid 0 = some t) :
    exec .ticketAdvance s = .next t := by
  have hAt : ticketAt (strandOf s sid) s.ord.performed = some 0 := by simp [ticketAt, hPq, findIdx?, hKind]
  simp only [exec, execTicketAdvance, ticketAdvance, hArg, hAt, h, event]

end Sys2Proof.Machine
end

section
/-! SUPPORT. Moves between convoys: TLB invalidations, late failures, barriers, soft errors and the race unit (R68, R112, R117, R150, R224, R232,
R233, R253, R295, R416). -/

namespace Sys2Proof.Machine

/-! TLB invalidations and the illegal-instruction exception (R150, R253). -/

theorem exec_tlbinv {s : State} {d : Nat} {v : Word} (hArg : s.arg = .nw d v) (hDie : d < 9) (hRoom : s.tlbInv.length < 16) :
    exec .tlbinv s = .next { s with tlbInv := s.tlbInv ++ [{ v := v, counts := appliedOf s.ord d }] } := by
  simp only [exec, execTlbinv, hArg, if_pos hDie, writeTlbinv, if_neg (Nat.not_le.2 hRoom), event]

theorem exec_tlbInvalidationFinish {s : State} {x : TlbInv} {r : List TlbInv} (hOldest : s.tlbInv = x :: r)
    (hReached : ∀ d, d < 9 → reached s.ord d x.counts = true) :
    exec .tlbInvalidationFinish s = .next { s with tlbInv := r, tlb := s.tlb.filter fun e => !invMatches x.v e } := by
  have hAll : ((List.range 9).all fun d => reached s.ord d x.counts) = true :=
    List.all_eq_true.2 fun d hd => hReached d (List.mem_range.1 hd)
  simp only [exec, execTlbInvalidationFinish, tlbFinish, hOldest, hAll, if_true, event]

theorem exec_illegalInstruction {s : State} {w : BitVec 32} (hArg : s.arg = .syllable w) (hWord : undecodable w = true) :
    exec .illegalInstruction s = .next (takeException (rollback s) cIllegal (w.setWidth 64) 0) := by
  simp only [exec, execIllegalInstruction, hArg, hWord, if_true, finish]

/-! Late failures and barriers (R295, R416). -/

/-- A strand that has stopped with elements committed keeps their place for the convoy that a late failure stops again (R416). -/
def keepsPlace (st : Strand) : Strand :=
  if st.run = .stopped ∧ st.faulted = true ∧ st.vstart ≠ 0 then
    { st with resumeAt := st.vstart, vsyl := if st.vsyl = 4 then st.epc.toNat % 4 else st.vsyl }
  else st

theorem exec_lateFailure {s : State} {sid : Nat} {x : LateFail} {r : List LateFail} (hArg : s.arg = .n1 sid)
    (hLate : (strandOf s sid).late = x :: r) (hStrand : sid < 256 ∨ 320 < sid) (hTakes : takesLate (strandOf s sid) = true)
    (hMoves : (strandOf s sid).trunk = true ∨ pdHeld s = false) :
    exec .lateFailure s = .next (takeAt
      (putStrand s sid { keepsPlace (strandOf s sid) with late := r, vstart := 0, lateStop := true }) sid 0 x.cause x.eval 0) := by
  have hUnit : (decide (256 ≤ sid) && decide (sid ≤ unitSid)) = false := by
    rw [Bool.and_eq_false_iff, decide_eq_false_iff_not, decide_eq_false_iff_not, Nat.not_le, Nat.not_le]
    exact hStrand
  have hMove : ((strandOf s sid).trunk || !pdHeld s) = true := by
    obtain h | h := hMoves <;> simp [h]
  have hPlace : ((strandOf s sid).run == .stopped && (strandOf s sid).faulted && (strandOf s sid).vstart != 0) = true ↔
      (strandOf s sid).run = .stopped ∧ (strandOf s sid).faulted = true ∧ (strandOf s sid).vstart ≠ 0 := by
    simp [and_assoc]
  simp only [exec, execLateFailure, lateFailure, hArg, hLate, hUnit, Bool.false_eq_true, if_false, hTakes, hMove, Bool.and_self, if_true, event,
    keepsPlace]
  split
  next h => rw [if_pos (hPlace.1 h)]
  next h => rw [if_neg (mt hPlace.2 h)]

theorem exec_lateFailure_unit {s : State} {sid : Nat} {x : LateFail} {r : List LateFail} (hArg : s.arg = .n1 sid)
    (hLate : (strandOf s sid).late = x :: r) (hLow : 256 ≤ sid) (hHigh : sid ≤ 320) : exec .lateFailure s = .next (raceLates s) := by
  have hUnit : (decide (256 ≤ sid) && decide (sid ≤ unitSid)) = true := by simp [unitSid, hLow, hHigh]
  simp only [exec, execLateFailure, lateFailure, hArg, hLate, hUnit, if_true, event]

/-- A strand that waits at a barrier in memory of this package goes on once it reads another generation. -/
theorem exec_barrierWaitEnd {s : State} {sid loc home : Nat} (hArg : s.arg = .n1 sid) (hWaits : (strandOf s sid).barw = true)
    (hRun : (strandOf s sid).run = .running) (hMoves : (strandOf s sid).trunk = true ∨ pdHeld s = false)
    (hPlace : checkScalar s (strandOf s sid) .load 16 (strandOf s sid).barAddr = .ok (.mem loc home))
    (hClean : readPoisoned s (strandOf s sid).die loc 16 = false)
    (hGen : leAt (memRead s (strandOf s sid).die loc 16) 8 4 ≠ (strandOf s sid).bargen.toNat) :
    exec .barrierWaitEnd s = .next (putStrand s sid { strandOf s sid with barw := false }) := by
  have hRead : readGen s sid = .gen (leAt (memRead s (strandOf s sid).die loc 16) 8 4) s := by
    simp only [readGen, hPlace, hClean, Bool.false_eq_true, if_false]
  have hMay : ¬ (!((strandOf s sid).barw && (strandOf s sid).run == .running) || (!(strandOf s sid).trunk && pdHeld s)) = true := by
    obtain h | h := hMoves <;> simp [hWaits, hRun, h]
  simp only [exec, execBarrierWaitEnd, barrierEnd, hArg, if_neg hMay, hRead, if_pos hGen, event]

/-! Soft errors (R68, R112, R117). -/

/-- The granule of a location begins in the memory of the location. -/
theorem granule_aligned (loc : Nat) : granule (loc / granule loc * granule loc) = granule loc := by
  have hMem : locMem (loc / granule loc * granule loc) = locMem loc := by
    unfold locMem granule
    split <;> omega
  rw [granule, hMem, granule]

/-- Poisoning a whole granule poisons each byte of it. -/
theorem poisonedIn_poisonAdd {g : Nat} (hg : 0 < g) (l : List Nat) (loc : Nat) : poisonedIn (poisonAdd l g (loc / g * g) g) g loc 1 = true := by
  have hFirst : loc / g * g / g = loc / g := Nat.mul_div_cancel _ hg
  have hLast : (loc / g * g + g - 1) / g = loc / g := by
    rw [Nat.add_sub_assoc hg, Nat.add_comm, Nat.add_mul_div_right _ _ hg, Nat.div_eq_of_lt (Nat.sub_one_lt hg.ne'), Nat.zero_add]
  have hAdd : poisonAdd l g (loc / g * g) g = insertN l (loc / g * g) := by
    simp [poisonAdd, hFirst, hLast]
  obtain ⟨p, hMem, hEq⟩ := List.any_eq_true.1 (hasN_insertN_same l (loc / g * g))
  rw [beq_iff_eq] at hEq
  subst hEq
  refine List.any_eq_true.2 ⟨_, hAdd ▸ hMem, ?_⟩
  have hLow : loc / g * g ≤ loc := Nat.div_mul_le_self _ _
  have hHigh : loc < loc / g * g + g := Nat.lt_div_mul_add hg
  simp only [Bool.and_eq_true, decide_eq_true_eq]
  omega

theorem granule_pos (loc : Nat) : 0 < granule loc := by
  unfold granule
  split <;> decide

theorem exec_softError {s t : State} {e : SoftError} (hArg : s.arg = .soft e) (h : softError s e = some t) : exec .softError s = .next t := by
  simp only [exec, execSoftError, hArg, h, event]

/-- Poison in memory is seen by every die (R68). -/
theorem memPoisoned_poisonMem (s : State) (loc d : Nat) :
    memPoisoned (poisonMem s (loc / granule loc * granule loc) (granule loc)).ord d loc 1 = true := by
  rw [memPoisoned, poisonMem, granule_aligned, poisonedIn_poisonAdd (granule_pos loc), Bool.true_or]

theorem spadPoisoned_poisonSpad (s : State) (key : Nat) : spadPoisoned (poisonSpad s (key / 8 * 8) 8).ord key 1 = true :=
  poisonedIn_poisonAdd (by decide) s.ord.spadPoison key

/-- The 8-byte granules of the dies' L2s that are poisoned, with one more (R138). -/
def l2PoisonAdd (l : List (Nat × Nat)) (p : Nat × Nat) : List (Nat × Nat) := if l.any (· == p) then l else l ++ [p]

theorem any_l2PoisonAdd (l : List (Nat × Nat)) (p : Nat × Nat) (f : Nat × Nat → Bool) : (l2PoisonAdd l p).any f = (l.any f || f p) := by
  unfold l2PoisonAdd
  split
  next h =>
    obtain ⟨q, hMem, hEq⟩ := List.any_eq_true.1 h
    rw [beq_iff_eq] at hEq
    subst hEq
    cases hf : f q with
    | false => rw [Bool.or_false]
    | true => rw [Bool.or_true, List.any_eq_true.2 ⟨q, hMem, hf⟩]
  next => simp

/-- A granule of one die's L2 is poisoned for that die alone. -/
theorem memPoisoned_l2PoisonAdd (o : Ordering_) (die loc d : Nat) :
    memPoisoned { o with l2Poison := l2PoisonAdd o.l2Poison (die, loc / 8 * 8) } d loc 1 = (memPoisoned o d loc 1 || die == d) := by
  have hIn : (decide (loc / 8 * 8 < loc + 1) && decide (loc < loc / 8 * 8 + 8)) = true := by
    simp only [Bool.and_eq_true, decide_eq_true_eq]
    omega
  simp only [memPoisoned, any_l2PoisonAdd, Bool.and_assoc, hIn, Bool.and_true, Bool.or_assoc]

theorem softError_l2 {s : State} {die pa : Nat} (hLow : 1 ≤ die) (hHigh : die ≤ 8) (hMem : locMem pa ≤ 9) :
    softError s (.l2 die pa) = some { s with ord := { s.ord with l2Poison := l2PoisonAdd s.ord.l2Poison (die, pa / 8 * 8) } } := by
  simp only [softError, computeDie, hLow, hHigh, hMem, decide_true, Bool.and_self, if_true]
  rfl

@[simp] theorem ringReport_strands (s : State) (d : Nat) (b : List Byte) : (ringReport s d b).strands = s.strands := by
  unfold ringReport
  dsimp only
  split
  · rfl
  · split
    · rfl
    · rw [ringPut]
      obtain ⟨o, h⟩ := physWrite_eq s d ((dispOf s d).fltBase.toNat / 4096 * 4096 + 64 * ((dispOf s d).fltHead % 2 ^ (dispOf s d).fltSize)) b
      rw [h]
      rfl

/-- An error report changes no strand. -/
theorem strandOf_softReport (s : State) (st : Strand) (kind lane elem slot k : Nat) :
    strandOf (softReport s st kind lane elem slot) k = strandOf s k := by
  simp only [strandOf, softReport, ringReport_strands, freeWord]

/-- A poisoned accumulator is marked, and reported (R68, R117). -/
theorem softError_accumulator {s : State} {sid ea : Nat} (hTrunk : (strandOf s sid).trunk = false) (hRun : (strandOf s sid).run ≠ .idle) :
    ∃ t, softError s (.accumulator sid ea) = some t ∧
      (strandOf t sid).eaPois = (strandOf s sid).eaPois ||| BitVec.ofNat 4 (2 ^ (ea % 4)) := by
  have hHolds : ((strandOf s sid).trunk || (strandOf s sid).run == .idle) = false := by simp [hTrunk, hRun]
  simp only [softError, hHolds, Bool.false_eq_true, if_false]
  refine ⟨_, rfl, ?_⟩
  rw [strandOf_softReport, strandOf_putStrand_same]

/-! The race unit (R224, R228, R232, R233). -/

theorem raceEvent_of_some {s t : State} {c : Nat} {name : String} {f : Nat → Option State} (hArg : s.arg = .n1 c) (hc : c < 64)
    (h : f c = some t) : raceEvent s name f = .next t := by
  simp only [raceEvent, hArg, Nat.mod_eq_of_lt hc, h]

theorem exec_homeFinalize {s t : State} {c : Nat} (hArg : s.arg = .n1 c) (hc : c < 64) (h : homeStep s c true = some t) :
    exec .homeFinalize s = .next t := raceEvent_of_some (f := fun c => homeStep s c true) hArg hc h

theorem exec_homeResolve {s t : State} {c : Nat} (hArg : s.arg = .n1 c) (hc : c < 64) (h : homeStep s c false = some t) :
    exec .homeResolve s = .next t := raceEvent_of_some (f := fun c => homeStep s c false) hArg hc h

theorem exec_memberMerge {s t : State} {c : Nat} (hArg : s.arg = .n1 c) (hc : c < 64) (h : memberStep s c false = some t) :
    exec .memberMerge s = .next t := raceEvent_of_some (f := fun c => memberStep s c false) hArg hc h

theorem exec_memberAbort {s t : State} {c : Nat} (hArg : s.arg = .n1 c) (hc : c < 64) (h : memberStep s c true = some t) :
    exec .memberAbort s = .next t := raceEvent_of_some (f := fun c => memberStep s c true) hArg hc h

/-- The race unit reads a remote block in memory of this package through the view of die 0. -/
theorem pollBlock_mem {s : State} {c off n loc home : Nat} (hPlace : blockPlace s (raceOf s c) .load off = .ok (.mem loc home))
    (hClean : readPoisoned s 0 loc n = false) : pollBlock s c off n = .bytes (memRead s 0 loc n) s := by
  simp only [pollBlock, hPlace, hClean, Bool.false_eq_true, if_false]

/-- A race that resolves has ended (R228). -/
theorem resolveRace_st (x : RaceCtx) (f lo hi : Nat) : (resolveRace x f lo hi).st = 3 := by
  unfold resolveRace
  dsimp only
  split
  · rfl
  · split <;> rfl

section Home

variable {s : State} {c : Nat} {b : List Byte} (hAwaits : awaitsRace (raceOf s c) = true) (hHosts : (raceOf s c).hosts = true)
  (hIdle : blockIdle s c = true) (hPoll : pollBlock s c 0 320 = .bytes b s)
include hAwaits hHosts hIdle hPoll

/-- The home context writes FINAL and FSTATE once RACTIVE is 0 (R232). -/
theorem homeStep_finalize (hState : leAt b 0x18 8 = 0) (hActive : leAt b 8 8 = 0) :
    homeStep s c true = some (blockWrite (blockWrite s c 0x10 (max (raceOf s c).leader (leAt b 0 8)) false) c 0x18 1 true) := by
  simp only [homeStep, hAwaits, hHosts, hIdle, Bool.and_self, Bool.not_true, Bool.false_eq_true, if_false, if_true, hPoll, hState, hActive,
    decide_true]

/-- The home context resolves once every member has merged (R232). -/
theorem homeStep_resolve (hState : leAt b 0x18 8 = 1) (hActive : leAt b 8 8 = 0) (hDone : leAt b 0x20 8 = (raceOf s c).nmem) :
    ∃ t, homeStep s c false = some t ∧ (raceOf t c).st = 3 := by
  simp only [homeStep, hAwaits, hHosts, hIdle, Bool.and_self, Bool.not_true, Bool.false_eq_true, if_false, if_true, hPoll, hState, hActive, hDone,
    decide_true]
  refine ⟨_, rfl, ?_⟩
  rw [raceOf_putRace]
  exact resolveRace_st _ _ _ _

end Home

section Member

variable {s : State} {c : Nat} (hRacing : racing (raceOf s c) = true) (hMember : (raceOf s c).member = true)
include hRacing hMember

/-- A member that sees the final leader merges its sums (R232). -/
theorem memberStep_merge {b : List Byte} (hMerging : (raceOf s c).merging = none) (hPoll : pollBlock s c 0x10 16 = .bytes b s)
    (hState : leAt b 8 8 = 1) (hAwaits : awaitsRace (raceOf s c) = true) : memberStep s c false = some (mergeMember s c (leAt b 0 8)) := by
  simp [memberStep, hRacing, hMember, hMerging, hPoll, hState, hAwaits]

/-- A member that sees the abort of its race enters it (R233). -/
theorem memberStep_abort {b : List Byte} (hMerging : (raceOf s c).merging = none) (hPoll : pollBlock s c 0x10 16 = .bytes b s)
    (hState : leAt b 8 8 = 2) : memberStep s c true = some (abortCtx s c 5) := by
  simp [memberStep, hRacing, hMember, hMerging, hPoll, hState]

/-- A member whose sums have been merged ends its race (R232). -/
theorem memberStep_end {f : Nat} (hMerging : (raceOf s c).merging = some f) (hIdle : blockIdle s c = true) :
    memberStep s c false = some (endMember s c f) := by
  simp [memberStep, hRacing, hMember, hMerging, hIdle]

end Member

theorem raceOf_endMember (s : State) (c f : Nat) :
    (raceOf (endMember s c f) c).st = 3 ∧ (raceOf (endMember s c f) c).merging = none ∧
      (raceOf (endMember s c f) c).win = if f = 0 then 0xFFFFFFFF else 0xFFFFFFFF - f % 2 ^ 32 := by
  rw [endMember, raceOf_putRace]
  exact ⟨rfl, rfl, rfl⟩

/-- Settles O53, move by move: each event is its function of the model on the data that the event carries, and the lemmas above say what that function
gives. -/
theorem machineMoves : Obligations.MachineMoves := by
  refine ⟨fun s d v hArg hDie hRoom => exec_tlbinv hArg hDie hRoom, fun s x r hOldest hReached => exec_tlbInvalidationFinish hOldest hReached,
    ?land, ?element, ?fault, ?leave, ?past, ?apply, ?answer, ?ticket, ?late, ?barrier, ?memory, ?l2, ?scratchpad, ?accumulator,
    fun s w hArg hWord => exec_illegalInstruction hArg hWord, ?home, ?member⟩
  case land =>
    intro s sid k e n s1 pois hOpen hMove s2
    exact ⟨fun hArg => exec_engineElementLand hArg (landStep_of_landed hOpen hMove),
      fun w hArg hSync => exec_engineElementLand_sync hArg (landStep_of_landed_sync hOpen hMove hSync)⟩
  case element =>
    intro s sid k e src dst n loc home loc' home' st t hEl hKind hGot hLoad hStore hClean
    exact moveEl_mem hEl hGot rfl hStore hKind hLoad fun j hj => hClean _ _ (by omega)
  case fault =>
    intro s sid k e c ev hArg hOpen hMove hFirst
    refine ⟨pendAt s sid k c ev, ?_, tokOf_pendAt s sid k c ev⟩
    simp only [exec, execEngineElementFault, hArg, faultStep_of_fail hOpen hMove hFirst]
  case leave =>
    intro s sid loc home a r st hArg hPq hPlace hMoves hRelease hOutst hAnswers hBridge hFrame hUnits
    refine ⟨fun b hKind => ?_, fun op n v hKind hClean => ?_⟩
    · obtain ⟨t, hLeave, hRest⟩ := pathLeave_write hPq hMoves ⟨hOutst, hAnswers⟩ (mayLeave_head hRelease) hPlace hBridge hFrame hUnits hKind
      exact ⟨t, exec_pathQueueLeave_head hArg hPq hLeave, hRest⟩
    · obtain ⟨t, hLeave, hRest⟩ := pathLeave_atomic hPq hMoves ⟨hOutst, hAnswers⟩ (mayLeave_head hRelease) hPlace hBridge hFrame hUnits hKind hClean
      exact ⟨t, exec_atomicPerform_head hArg hPq hKind hLeave, exec_pathQueueLeave_head hArg hPq hLeave, hRest⟩
  case past =>
    intro s sid i hArg hPast l
    exact ⟨exec_pathQueueLeave_past hArg hPast, exec_atomicPerform_past hArg hPast⟩
  case apply =>
    intro s d i w hArg hDie hCanonical hWrite hCan _ o p
    obtain ⟨o1, hApply, hSpad, hView, hCounts, hOthers, hNext⟩ := applyAt_frame hDie hCanonical hWrite hCan
    refine ⟨o1, ?_, hSpad, hView, hCounts, hOthers, hNext⟩
    simp only [exec, execApplyWrite, hArg, hApply, Option.map_some, event]
  case answer => exact fun s => ⟨answerOwns_ord s, fun hOwed hClock => answerOwns_of_clockless hOwed hClock⟩
  case ticket =>
    intro s sid loc home a r b st hArg hPq hPlace hKind hRel hOutst hAnswers hBridge hMoves hFrame o
    obtain ⟨t, hLeave, hOrd⟩ := leaveAt_ticketed hPq hMoves ⟨hOutst, hAnswers⟩ (mayLeave_head fun h => absurd (hRel.symm.trans h) (by decide)) hPlace
      hBridge hFrame hKind
    exact ⟨t, exec_ticketAdvance_head hArg hPq hKind hLeave, hOrd⟩
  case late =>
    intro s sid x r st hArg hLate
    exact ⟨fun hStrand hTakes hMoves => exec_lateFailure hArg hLate hStrand hTakes hMoves,
      fun hLow hHigh => exec_lateFailure_unit hArg hLate hLow hHigh⟩
  case barrier =>
    intro s sid loc home st hArg hWaits hRun hMoves hPlace hClean hGen
    exact exec_barrierWaitEnd hArg hWaits hRun hMoves hPlace hClean hGen
  case memory =>
    intro s pa hArg hMem
    exact ⟨_, exec_softError hArg (if_pos hMem), memPoisoned_poisonMem s pa, fun _ _ => rfl, fun _ => rfl⟩
  case l2 =>
    intro s die pa hArg hLow hHigh hMem
    refine ⟨_, exec_softError hArg (softError_l2 hLow hHigh hMem), ?_, fun d hd => ?_, fun _ _ => rfl, fun _ => rfl⟩
    · rw [memPoisoned_l2PoisonAdd, beq_self_eq_true, Bool.or_true]
    · rw [memPoisoned_l2PoisonAdd, beq_false_of_ne hd.symm, Bool.or_false]
  case scratchpad =>
    intro s key hArg
    exact ⟨_, exec_softError hArg rfl, spadPoisoned_poisonSpad s key, fun _ _ => rfl, fun _ => rfl⟩
  case accumulator =>
    intro s sid ea hArg hTrunk hRun
    obtain ⟨t, hSoft, hPoison⟩ := softError_accumulator hTrunk hRun
    exact ⟨t, exec_softError hArg hSoft, hPoison⟩
  case home =>
    intro s c loc home x hArg hc hAwaits hHosts hIdle hPlace hClean
    have hPoll : pollBlock s c 0 320 = .bytes (memRead s 0 loc 320) s :=
      pollBlock_mem ((congrArg (checkUnit s x.tenant .load) (BitVec.add_zero x.rblk)).trans hPlace) hClean
    refine ⟨fun hState hActive => exec_homeFinalize hArg hc (homeStep_finalize hAwaits hHosts hIdle hPoll hState hActive),
      fun hState hActive hDone => ?_⟩
    obtain ⟨t, hStep, hEnded⟩ := homeStep_resolve hAwaits hHosts hIdle hPoll hState hActive hDone
    exact ⟨t, exec_homeResolve hArg hc hStep, hEnded⟩
  case member =>
    intro s c x hArg hc hRacing hMember
    refine ⟨fun loc home hMerging hPlace hClean => ?_, fun f hMerging hIdle =>
      ⟨_, exec_memberMerge hArg hc (memberStep_end hRacing hMember hMerging hIdle), raceOf_endMember s c f⟩⟩
    have hPoll : pollBlock s c 0x10 16 = .bytes (memRead s 0 loc 16) s := pollBlock_mem hPlace hClean
    exact ⟨fun hState hAwaits => exec_memberMerge hArg hc (memberStep_merge hRacing hMember hMerging hPoll hState hAwaits),
      fun hState => exec_memberAbort hArg hc (memberStep_abort hRacing hMember hMerging hPoll hState)⟩

end Sys2Proof.Machine
end

section
/-! SUPPORT. Fences, waits that are met, ICINV, YIELD and the empty syllable (R107, R124, R154, R158, R170, R175, R290, R293, R294, R299). -/

namespace Sys2Proof.Machine

/-! What a syllable adds to the issue stream, once. -/

/-- What has entered its path queue before its strand stopped does not enter the issue stream again. -/
theorem queueItem_of_entered {s : State} (hEntered : hasEntered (me s) s.slot = true) (x : QItem) : queueItem s x = putMe s (me s) := by
  simp only [queueItem, addItems, hEntered, if_true]

/-- An item of no group of its own enters the issue stream, with its place in the convoy. -/
theorem queues_queueItem {s : State} {x : QItem} (hNew : hasEntered (me s) s.slot = false) (hGroup : lastGroup (me s) [x] = (me s).nextGrp) :
    Queues s (queueItem s x) (markItem (me s) s.slot x) := by
  have hMe : me (queueItem s x) = { me s with wbuf := (me s).wbuf ++ [markItem (me s) s.slot x] } := by
    simp only [queueItem, me_putMe, addItems, hNew, Bool.false_eq_true, if_false, hGroup, List.map_cons, List.map_nil]
  exact ⟨onlyMe_tlb s s.tlb _, by rw [hMe], by rw [hMe]⟩

/-- A fence enters the issue stream once: not again where it has entered it before its strand stopped (R170, R175). -/
theorem queueItem_once {s : State} {x y : QItem} (hGroup : lastGroup (me s) [x] = (me s).nextGrp) (hMark : markItem (me s) s.slot x = y) :
    if hasEntered (me s) s.slot = true then MeBecomes s (queueItem s x) (me s) else Queues s (queueItem s x) y := by
  subst hMark
  split
  next hEntered =>
    rw [queueItem_of_entered hEntered]
    exact meBecomes_putMe s _
  next hNew => exact queues_queueItem (eq_false_of_ne_true hNew) hGroup

/-! Waits that are met. -/

/-- Tokens whose copies have ended without a fault hold nothing (R154, R155). -/
theorem awaitToks_of_idle {s : State} {ks : List Nat} (h : ∀ k ∈ ks, (tokOf (me s) k).busy = false ∧ (tokOf (me s) k).pend = false)
    (f : Unit → Res) : awaitToks s ks f = f () := by
  have hPend : ks.find? (fun k => (tokOf (me s) k).pend) = none := List.find?_eq_none.2 fun k hk => by simp [(h k hk).2]
  have hBusy : ks.any (fun k => (tokOf (me s) k).busy) = false := List.any_eq_false.2 fun k hk => by simp [(h k hk).1]
  simp only [awaitToks, hPend, hBusy, Bool.false_eq_true, if_false]

theorem exec_cwait_of_idle {o : CwaitOps} {s : State}
    (h : ∀ k, k < 8 → o.mask.getLsbD k = true → (tokOf (me s) k).busy = false ∧ (tokOf (me s) k).pend = false) :
    exec (.cwait o) s = .next s := by
  have hToks : ∀ k ∈ (List.range 8).filter fun k => o.mask.getLsbD k, (tokOf (me s) k).busy = false ∧ (tokOf (me s) k).pend = false :=
    fun k hk => h k (List.mem_range.1 (List.mem_of_mem_filter hk)) (List.mem_filter.1 hk).2
  simp only [exec, execCwait, awaitToks_of_idle hToks, finish]

/-- A sync word whose generation has been reached (R158). -/
theorem genReached_of_lt {gen g : Nat} (h : (gen + 2 ^ 32 - g % 2 ^ 32) % 2 ^ 32 < 2 ^ 31) : genReached gen (g % 2 ^ 32) = true := by
  simpa only [genReached, idDiff, Nat.mod_mod, decide_eq_true_eq] using h

theorem exec_waitsw_of_reached {o : S2ab} {s : State} {key : Nat} (hAligned : (getS s o.sa).toNat % 16 = 0) (hSpad : inSpad (getS s o.sa) = true)
    (hCheck : checkElem s (me s) .load 16 (getS s o.sa) = .ok (.spad key)) (hClean : spadPoisoned s.ord key 16 = false) (hFresh : Fresh s)
    (hStream : streamOf (me s) = [])
    (hGen : (leAt (Memory.getBytes s.ord.spad key 16) 8 4 + 2 ^ 32 - (getS s o.sb).toNat % 2 ^ 32) % 2 ^ 32 < 2 ^ 31) :
    exec (.waitsw o) s = .next s := by
  obtain ⟨hLook, hEarly, -⟩ := hFresh
  let a := mkAcc .ls (.spad key) (getS s o.sa) 16 .read false true false
  have hBytes : localBytes s a.place a.size = some (Memory.getBytes s.ord.spad key 16) := if_neg (Bool.eq_false_iff.1 hClean)
  have hRead : readNow s 0 a = .bytes (Memory.getBytes s.ord.spad key 16) 0 s :=
    readNow_local s 0 a _ (makeWay_plain s a hStream rfl) hLook hEarly hBytes
  simp only [a] at hRead
  simp only [exec, execWaitsw, hAligned, ne_eq, not_true_eq_false, if_false, hSpad, Bool.not_true, Bool.false_eq_true, hCheck, hRead, Got.res,
    genReached_of_lt hGen, if_true, finish]

/-! ICINV (R299). -/

theorem flushStrand_of_empty {s : State} {sid : Nat} (h : (strandOf s sid).pq = []) : flushStrand s sid = s := by
  simp only [flushStrand, h, List.isEmpty_nil, Bool.true_or, if_true]

/-- A convoy that has queued nothing has no write that must leave first. -/
theorem enterWrites_of_empty {s : State} (h : (me s).wbuf = []) : enterWrites s = s := by
  simp only [enterWrites, h]
  rfl

theorem exec_icinv_of_quiet {s : State} (hStream : streamOf (me s) = []) (hRoom : overfull (me s) = false) :
    exec .icinv s = .next { s with icache := NMap.erase s.icache ((me s).sid / 4) } := by
  obtain ⟨hPq, hBuf⟩ := List.append_eq_nil_iff.1 hStream
  have hStores : storesLeft (me s) = false := by simp only [storesLeft, hStream, List.any_nil]
  simp only [exec, execIcinv, flushStrand_of_empty hPq, enterWrites_of_empty hBuf, hStores, hRoom, Bool.or_self, Bool.false_eq_true, if_false, finish]

/-- Settles O10: a fence is one item of the issue stream, and each wait finds its condition met. -/
theorem fencesAndWaits : Obligations.FencesAndWaits := by
  refine ⟨fun o s => ⟨_, rfl, queueItem_once rfl rfl⟩, fun o s => ⟨_, rfl, queueItem_once rfl rfl⟩, fun o s h => exec_cwait_of_idle h,
    fun o s key hAligned hSpad hCheck hClean hFresh hStream hGen => exec_waitsw_of_reached hAligned hSpad hCheck hClean hFresh hStream hGen,
    fun s hStream hRoom => ⟨_, exec_icinv_of_quiet hStream hRoom, NMap.get?_erase_same _ _, rfl, fun c hc => NMap.get?_erase_ne _ _ _ hc⟩,
    fun s => ⟨_, rfl, ?_⟩, fun s => rfl⟩
  split
  next => exact meBecomes_refl s
  next => exact meBecomes_putMe s _

end Sys2Proof.Machine
end

section
/-! SUPPORT. Atomics that return their old value (R27, R166, R178, R283 to R285, R393). -/

namespace Sys2Proof.Machine

/-! At the home die (R166, R283, R284). -/

/-- The model's operations give the new values and the flags of R283 and R284. -/
theorem atomNew_eq (op : AtomOp) (n old v e : Nat) : atomNew op (8 * n) old v e = (atomicResult op n old v e, atomicFlags op old v) := by
  cases op <;> rfl

/-- The ordering machine once an atomic has performed at its home die: written where the operation writes. -/
def atomicOrd (o : Ordering_) (op : AtomOp) (n loc home v e : Nat) : Ordering_ :=
  match atomicResult op n (numOf (Memory.getBytes (viewOf o home) loc n)) v e with
  | some x => performWrite o home loc home (bytesOf n x)
  | none => o

theorem atomicMem_of_clean {o : Ordering_} {n loc home : Nat} (hClean : memPoisoned o home loc n = false) (op : AtomOp) (v e : Nat) :
    let old := numOf (Memory.getBytes (viewOf o home) loc n)
    let o1 := atomicOrd o op n loc home v e
    atomicMem o op n loc home v e = (o1, ⟨old, false, atomicFlags op old v, appliedOf o1 home⟩) := by
  simp only [atomicMem, hClean, Bool.false_eq_true, if_false, atomNew_eq, atomicOrd]
  cases atomicResult op n (numOf (Memory.getBytes (viewOf o home) loc n)) v e <;> rfl

theorem atomLocal_of_memPlace {a : Access} {loc home : Nat} (hPlace : memPlace a.place = some (loc, home)) (s : State) (op : AtomOp) (v e : Nat) :
    atomLocal s a op v e = some (memAtomic s op a.size loc home v e) := by
  cases hp : a.place <;> rw [hp] at hPlace <;> cases hPlace <;> simp only [atomLocal, hp]

/-- The old value that n bytes of memory give fits n bytes. -/
theorem numOf_bytesOf_numOf (m : Memory) (loc n : Nat) : numOf (bytesOf n (numOf (Memory.getBytes m loc n))) = numOf (Memory.getBytes m loc n) := by
  rw [numOf_bytesOf, Nat.mod_eq_of_lt]
  simpa only [Memory.length_getBytes] using numOf_lt (Memory.getBytes m loc n)

/-! What has been done stands (R393). -/

theorem mxPut_ord (s : State) (st : Strand) (l : List MxHold) : (mxPut s st l).ord = s.ord := by
  unfold mxPut
  split <;> rfl

/-- A fault of the convoy goes back to the memory as it stands now. -/
theorem openConvoy_stands (s : State) (st : Strand) (mx : List MxHold) (ws : List (BitVec 32)) (replay : Bool) :
    ∃ c, openConvoy s st mx ws replay = { s with convoy := some c } ∧ c.ord.views = s.ord.views ∧ c.ord.spad = s.ord.spad := by
  refine ⟨_, rfl, ?_⟩
  simp only [checkpoint, mxPut_ord]
  exact ⟨rfl, rfl⟩

theorem standsNow_standNow (s : State) : StandsNow s (standNow s) := by
  unfold standNow
  split
  next hNone => exact ⟨rfl, fun c hc => by simp [hNone] at hc⟩
  next c hSome =>
    obtain ⟨c', hOpen, hStands⟩ := openConvoy_stands s (NMap.getD c.strands s.cur (me s))
      (mxMine { s with mx := c.mx } (NMap.getD c.strands s.cur (me s))) c.words c.replay
    dsimp only
    rw [hOpen]
    refine ⟨by rw [hSome]; rfl, fun x hx => ?_⟩
    cases hx
    exact hStands

/-! At its issue. -/

/-- An atomic with nothing to wait for performs at its home die, its strand's die (on a page of this package's own id every die) reaches its clock, and
it is noted. -/
theorem atomNow_of_quiet {s : State} {a : Access} {loc home : Nat} (hFresh : Fresh s) (hQuiet : Quiet (me s)) (hMark : a.mark = 2 ^ 64)
    (hPlace : memPlace a.place = some (loc, home)) (hFrame : vacatedFrame s loc = false) (hClean : memPoisoned s.ord home loc a.size = false)
    (elem : Nat) (op : AtomOp) (v e : Nat) :
    let old := numOf (Memory.getBytes (viewOf s.ord home) loc a.size)
    let o := atomicOrd s.ord op a.size loc home v e
    atomNow s elem a op v e = .bytes (bytesOf a.size old) (atomicFlags op old v)
      (standNow (putMe { s with ord := reachFor o (me s) (a, appliedOf o home) } (noteDone (me s) s.slot elem (bytesOf a.size old)))) := by
  obtain ⟨hLook, -, hAnswer⟩ := hFresh
  simp only [atomNow, hLook, hAnswer, Option.orElse_none, makeWay_quiet s a hQuiet hMark, atomLocal_of_memPlace hPlace, memAtomic, hFrame,
    Bool.false_eq_true, if_false, atomicMem_of_clean hClean]
  rfl

theorem reachFor_of_own {a : Access} {loc home : Nat} (h : a.place = .own loc home) (o : Ordering_) (st : Strand) (hc : List Nat) :
    reachFor o st (a, hc) = reachAll o hc := by
  simp only [reachFor, h]

theorem reachFor_of_mem {a : Access} {loc home : Nat} (h : a.place = .mem loc home) (o : Ordering_) (st : Strand) (hc : List Nat) :
    reachFor o st (a, hc) = reach o st.die hc := by
  simp only [reachFor, h]

theorem exec_of_amoForm {i : Instr} {op : AtomOp} {n : Nat} {sd sa sb : BitVec 5} {ord : BitVec 2} {scope : BitVec 3}
    (h : amoForm i = some (op, n, sd, sa, sb, ord, scope)) (s : State) : exec i s = amo s op n sd sa sb ord scope := by
  cases i with
  | amoadd | amoswap | amocas | amoand | amoor | amoxor | amomax | amomin | amomaxn | amominn | amoaddF32 | amomaxF32 | amominF32 =>
    cases h
    rfl
  | _ => cases h

/-- The state once an atomic has performed: `o` is the ordering machine and b the old bytes; the flags and sd follow. -/
def amoState (s : State) (l : List TlbEntry) (o : Ordering_) (b : List Byte) (fl : FFlags) (sd : BitVec 5) : State :=
  setS (addFlags (standNow (putMe { s with tlb := l, ord := o } (noteDone (me s) s.slot 0 b))) fl) sd (wordOf (numOf b))

theorem amo_of_quiet {s : State} {op : AtomOp} {n : Nat} {sd sa sb : BitVec 5} {ord : BitVec 2} {scope : BitVec 3} {p : Place} {loc home : Nat}
    (hFresh : Fresh s) (hQuiet : Quiet (me s)) (hPlace : memPlace p = some (loc, home))
    (hCheck : checkScalar s (me s) .atomic n (getS s sa) = .ok p) (hFrame : vacatedFrame s loc = false)
    (hClean : memPoisoned s.ord home loc n = false) :
    let old := numOf (Memory.getBytes (viewOf s.ord home) loc n)
    let v := (getS s sb).toNat % 2 ^ (8 * n)
    let o := atomicOrd s.ord op n loc home v ((getS s sd).toNat % 2 ^ (8 * n))
    ∃ l a, a.place = p ∧ amo s op n sd sa sb ord scope =
      .next (amoState s l (reachFor o (me s) (a, appliedOf o home)) (bytesOf n old) (atomicFlags op old v) sd) := by
  intro old v o
  obtain ⟨l, hFill⟩ := tlbFill_eq s (me s) (getS s sa)
  let a := mkAcc .ls p (getS s sa) n (.atomic op n (BitVec.ofNat 512 v)) (ordRel ord) (ordAcq ord) (isDom scope)
  have hAtom := atomNow_of_quiet (s := { s with tlb := l }) (a := a) hFresh hQuiet rfl hPlace hFrame hClean 0 op v
    ((getS s sd).toNat % 2 ^ (8 * n))
  refine ⟨l, a, rfl, ?_⟩
  simp only [amo, withPlace, hCheck, hFill]
  exact congrArg (fun g : Got => finish s (g.res (getS s sa) 0 fun b fl s2 => .ok (setS (addFlags s2 fl) sd (wordOf (numOf b))))) hAtom

/-! What the atomic leaves. -/

theorem me_standNow (s : State) : me (standNow s) = me s := by
  obtain ⟨_, h⟩ := standNow_eq s
  rw [h]
  rfl

theorem strandOf_standNow (s : State) (k : Nat) : strandOf (standNow s) k = strandOf s k := by
  obtain ⟨_, h⟩ := standNow_eq s
  rw [h]
  rfl

theorem standNow_cur (s : State) : (standNow s).cur = s.cur := by
  obtain ⟨_, h⟩ := standNow_eq s
  rw [h]

theorem me_addFlags (s : State) (fl : FFlags) : me (addFlags s fl) = { me s with fflags := (me s).fflags ||| fl } := me_putMe _ _

section Frame

variable (s : State) (l : List TlbEntry) (o : Ordering_) (b : List Byte) (fl : FFlags) (sd : BitVec 5)

theorem me_amoState : me (amoState s l o b fl sd) =
    swrite { noteDone (me s) s.slot 0 b with fflags := (me s).fflags ||| fl } sd.toNat (wordOf (numOf b)) := by
  simp only [amoState, me_setS, me_addFlags, me_standNow, me_putMe]
  rfl

/-- The strand has noted the atomic, has the flags, and holds the old value in sd. -/
theorem me_amoState_frame : { me (amoState s l o b fl sd) with regs := (me s).regs, fflags := (me s).fflags } = noteDone (me s) s.slot 0 b ∧
    (me (amoState s l o b fl sd)).fflags = (me s).fflags ||| fl := by
  obtain ⟨r, hWrite⟩ := swrite_eq { noteDone (me s) s.slot 0 b with fflags := (me s).fflags ||| fl } sd.toNat (wordOf (numOf b))
  rw [me_amoState, hWrite]
  exact ⟨rfl, rfl⟩

theorem regsAfter_amoState : RegsAfter s (amoState s l o b fl sd) sd (wordOf (numOf b)) := by
  intro r
  have hRegs : ∀ k, sread { noteDone (me s) s.slot 0 b with fflags := (me s).fflags ||| fl } k = sread (me s) k := fun _ => rfl
  simp only [getS, me_amoState, sread_swrite _ _ _ _ r.isLt, BitVec.toNat_eq, hRegs]
  rfl

theorem strandOf_amoState_ne {k : Nat} (h : k ≠ s.cur) : strandOf (amoState s l o b fl sd) k = strandOf s k := by
  let u := putMe { s with tlb := l, ord := o } (noteDone (me s) s.slot 0 b)
  have hCur : k ≠ (standNow u).cur := (standNow_cur u).symm ▸ h
  calc strandOf (amoState s l o b fl sd) k
    _ = strandOf (addFlags (standNow u) fl) k := strandOf_putMe_ne _ k _ hCur
    _ = strandOf (standNow u) k := strandOf_putMe_ne _ k _ hCur
    _ = strandOf u k := strandOf_standNow u k
    _ = strandOf s k := strandOf_putMe_ne _ k _ h

theorem standsNow_amoState : StandsNow s (amoState s l o b fl sd) :=
  standsNow_standNow (putMe { s with tlb := l, ord := o } (noteDone (me s) s.slot 0 b))

/-- Beside its strand, its TLB and what memory a fault goes back to, an atomic changes the ordering machine alone. -/
theorem amoState_frame : (amoState s l o b fl sd).ord = o ∧
    { amoState s l o b fl sd with strands := s.strands, tlb := s.tlb, ord := s.ord, convoy := s.convoy } = s := by
  obtain ⟨c, hStand⟩ := standNow_eq (putMe { s with tlb := l, ord := o } (noteDone (me s) s.slot 0 b))
  rw [amoState, hStand]
  exact ⟨rfl, rfl⟩

end Frame

/-- Settles O7: where nothing holds the atomic back it performs at its home die, and its state differs from the one before in what it has written. -/
theorem atomicResults : Obligations.AtomicResults := by
  intro i s op n sd sa sb ord scope p loc home hForm hFresh hQuiet hPlace hCheck hFrame hClean old v o1
  obtain ⟨l, a, hAt, hAmo⟩ := amo_of_quiet (ord := ord) (scope := scope) (op := op) (sd := sd) (sb := sb) hFresh hQuiet hPlace hCheck hFrame hClean
  have hMem : o1 = atomicOrd s.ord op n loc home v ((getS s sd).toNat % 2 ^ (8 * n)) := rfl
  clear_value o1
  subst hMem
  let o := reachFor (atomicOrd s.ord op n loc home v ((getS s sd).toNat % 2 ^ (8 * n))) (me s)
    (a, appliedOf (atomicOrd s.ord op n loc home v ((getS s sd).toNat % 2 ^ (8 * n))) home)
  let fl := atomicFlags op old v
  obtain ⟨hNote, hFlags⟩ := me_amoState_frame s l o (bytesOf n old) fl sd
  obtain ⟨hOrd, hRest⟩ := amoState_frame s l o (bytesOf n old) fl sd
  have hRegs := regsAfter_amoState s l o (bytesOf n old) fl sd
  rw [numOf_bytesOf_numOf] at hRegs
  refine ⟨amoState s l o (bytesOf n old) fl sd, (exec_of_amoForm hForm s).trans hAmo, hRegs, hFlags, hNote, hOrd.trans ?_,
    standsNow_amoState s l o (bytesOf n old) fl sd, hRest, fun k hk => strandOf_amoState_ne s l o (bytesOf n old) fl sd hk⟩
  cases p with
  | mem _ _ => exact reachFor_of_mem hAt _ _ _
  | own _ _ => exact reachFor_of_own hAt _ _ _
  | _ => cases hPlace

end Sys2Proof.Machine
end

section
/-! SUPPORT. Vector stores and VAMO (R161, R321 to R328, R332). -/

namespace Sys2Proof.Machine

/-! The elements of a store against its form. -/

/-- The marks that two operands give together (R323). -/
theorem getD_zipWith_and (l l' : List Bool) (k : Nat) :
    (List.zipWith (fun a b => a && b) l l').getD k false = (l.getD k false && l'.getD k false) := by
  simp only [List.getD_eq_getElem?_getD, List.getElem?_zipWith]
  cases l[k]? <;> cases l'[k]? <;> simp

/-- The marks and the data of the elements that an operand gives. -/
theorem getD_marks (d : List (Nat × Bool)) (k : Nat) : (d.map (·.2)).getD k false = (d.getD k (0, false)).2 := getDm d (·.2) (0, false) false rfl k

theorem getD_data (d : List (Nat × Bool)) (k : Nat) : (d.map (·.1)).getD k 0 = (d.getD k (0, false)).1 := getDm d (·.1) (0, false) 0 rfl k

/-- The end of a store whose elements are those of a form and pass their checks: its accesses enter the issue stream. -/
theorem storeRun_of_placed {s : State} {F : AccessForm} {acc : Acc} {p : Nat → Place} {marks : List Bool} {data : List Nat} {kind : El → AccKind}
    {upd : Strand → Strand} (hNew : hasEntered (me s) s.slot = false) (hPlaced : F.placed s acc p)
    (hAct : ∀ k, marks.getD (k - startOf s) false = F.act k) (hKind : ∀ e : El, e.data = data.getD (e.i - startOf s) 0 → kind e = F.kind e.i)
    (hUpd : upd (me s) = F.used (me s)) (hUsed : ∃ l, F.used (me s) = { me s with oq := l }) (updAt : Nat → Strand → Strand) :
    ∃ t, finish s (storeRun s (scanEls s (me s) acc F.n (elsOf (startOf s) (me s).vl F.addr marks data)) F.ordered
        (fun e q => vmAcc (kind e) F.n F.ord q e.va) upd updAt) = .next t ∧
      OnlyMe { s with tlb := t.tlb } t ∧ me t = withItems (F.used (me s)) (storedItems s F p fun _ => none) := by
  obtain ⟨l, hUsed⟩ := hUsed
  let els := elsOf (startOf s) (me s).vl F.addr marks data
  have hEl : ∀ e ∈ els, e.va = F.addr e.i ∧ e.act = F.act e.i ∧ kind e = F.kind e.i := fun e he => by
    obtain ⟨-, -, hVa, hMark, hData⟩ := elsOf_mem _ _ _ _ _ e he
    exact ⟨hVa, hMark.trans (hAct e.i), hKind e hData⟩
  have hScan : ∀ e ∈ els, e.act = true → checkElem s (me s) acc F.n e.va = .ok (p e.i) := fun e he hActive => by
    obtain ⟨hLow, hHigh, -⟩ := elsOf_mem _ _ _ _ _ e he
    obtain ⟨hVa, hMark, -⟩ := hEl e he
    rw [hVa]
    exact hPlaced e.i hLow hHigh (hMark ▸ hActive)
  rw [scanEls_ok s (me s) acc F.n els p hScan]
  refine storeRun_ok s els p F F.ordered _ upd updAt (elsOf_i s F.addr marks data) (fun e he => (hEl e he).2.1) (fun e he _ => ?_) hUpd
    (by rw [hUsed]) (by rw [hUsed]) hNew (by rw [hUsed]; exact hNew)
  obtain ⟨hVa, -, hData⟩ := hEl e he
  simp only [vmAcc, mkAcc, hVa, hData]
  rfl

/-! The syllables. -/

section Syllables

variable {s : State} {F : AccessForm} {p : Nat → Place} (hTrunk : (me s).trunk = false) (hNew : hasEntered (me s) s.slot = false)
include hTrunk hNew

/-- VST and VSTS (R327), where nothing holds their token wait. -/
theorem vstore_of_placed {o : VmOps} {addr : Nat → Word} (hForm : plainStore s o addr = some F) (hFree : F.free (me s))
    (hPlaced : F.placed s .store p) (i : Instr) :
    ∃ t, vstore s i o addr = .next t ∧ OnlyMe { s with tlb := t.tlb } t ∧
      me t = withItems (F.used (me s)) (storedItems s F p fun _ => none) := by
  obtain ⟨⟨d, r⟩, hRead, rfl⟩ := Option.map_eq_some_iff.1 hForm
  have hFree' : o.wait = true → (tokOf (me s) o.tk.toNat).busy = false ∧ (tokOf (me s) o.tk.toNat).pend = false :=
    fun h => hFree o.tk.toNat (if_pos h)
  have hHeld : ∀ l : List (El × Option Place), (l.any fun _ => false) = false := fun l => List.any_eq_false.2 fun _ _ => by simp
  have hStore := storeRun_of_placed (data := d.map (·.1)) (kind := fun e => .write (bytesOf (2 ^ o.sz.toNat) e.data))
    (upd := fun st => dropAll st o.q.toNat (startOf s) (me s).vl (8 * 2 ^ o.sz.toNat)) hNew hPlaced
    (fun k => getD_marks d (k - startOf s)) (fun e he => by rw [he, getD_data]) rfl ⟨_, dropAll_eq _ _ _ _ _⟩
    fun f st => dropBelow st o.q.toNat (startOf s) f (8 * 2 ^ o.sz.toNat)
  simp only [vstore, vecOnly_of_strand hTrunk, vmSize, hRead, tokScan_free _ _ _ _ _ hFree', hHeld, Bool.and_false, Bool.false_eq_true, if_false]
  exact hStore

/-- VSTX (R323, R328): data and indices, each from its out-queue, the data drained first. -/
theorem scatter_of_placed {o : VxOps} {ordered : Bool} (hForm : scatterForm s o ordered = some F) (hPlaced : F.placed s .store p) (i : Instr) :
    ∃ t, scatter s i o ordered = .next t ∧ OnlyMe { s with tlb := t.tlb } t ∧
      me t = withItems (F.used (me s)) (storedItems s F p fun _ => none) := by
  obtain ⟨⟨d, r⟩, hRead, hForm⟩ := Option.bind_eq_some_iff.1 hForm
  obtain ⟨⟨ix, r'⟩, hIndex, rfl⟩ := Option.map_eq_some_iff.1 hForm
  have hStore := storeRun_of_placed (data := d.map (·.1)) (kind := fun e => .write (bytesOf (2 ^ o.sz.toNat) e.data))
    (marks := List.zipWith (fun a b => a && b) (d.map (·.2)) (ix.map (·.2)))
    (upd := fun st => dropAll (dropAll st o.q.toNat (startOf s) (me s).vl (8 * 2 ^ o.sz.toNat)) o.ix.toNat (startOf s) (me s).vl 32) hNew hPlaced
    (fun k => by rw [getD_zipWith_and, getD_marks, getD_marks]) (fun e he => by rw [he, getD_data]) rfl
    ⟨dropGroups o.ix.toNat (startOf s) (me s).vl 32 (dropGroups o.q.toNat (startOf s) (me s).vl (8 * 2 ^ o.sz.toNat) (me s).oq), rfl⟩
    fun f st => dropBoth st o.q.toNat o.ix.toNat (startOf s) f (me s).vl (8 * 2 ^ o.sz.toNat) 32
  simp only [scatter, vecOnly_of_strand hTrunk, vmSize, hRead, hIndex]
  exact hStore

/-- VAMO (R332). -/
theorem exec_vamo_of_placed {o : VamoOps} (hForm : vamoForm s o = some F) (hPlaced : F.placed s .atomic p) :
    ∃ t, exec (.vamo o) s = .next t ∧ OnlyMe { s with tlb := t.tlb } t ∧
      me t = withItems (F.used (me s)) (storedItems s F p fun _ => none) := by
  obtain ⟨⟨d, r⟩, hRead, rfl⟩ := Option.map_eq_some_iff.1 hForm
  have hStore := storeRun_of_placed (data := d.map (·.1))
    (kind := fun e => .atomic (vamoOp o.aop.toNat) (szDbl o.dbl) (BitVec.ofNat 512 e.data))
    (upd := fun st => dropAll st o.q.toNat (startOf s) (me s).vl (8 * szDbl o.dbl)) hNew hPlaced
    (fun k => getD_marks d (k - startOf s)) (fun e he => by rw [he, getD_data]) rfl ⟨_, dropAll_eq _ _ _ _ _⟩
    fun f st => dropBelow st o.q.toNat (startOf s) f (8 * szDbl o.dbl)
  simp only [exec, execVamo, vecOnly_of_strand hTrunk, hRead]
  exact hStore

end Syllables

/-- Settles O32: each form's elements are those of `storedItems`, and a store that faults nowhere queues them. -/
theorem vectorStores : Obligations.VectorStores := by
  intro i s F p hForm hTrunk hFree hNew hPlaced
  cases i with
  | vst o => exact vstore_of_placed hTrunk hNew hForm hFree hPlaced (.vst o)
  | vsts o => exact vstore_of_placed hTrunk hNew hForm hFree hPlaced (.vsts o)
  | vstxO o => exact scatter_of_placed hTrunk hNew hForm hPlaced (.vstxO o)
  | vstxU o => exact scatter_of_placed hTrunk hNew hForm hPlaced (.vstxU o)
  | vamo o => exact exec_vamo_of_placed hTrunk hNew hForm hPlaced
  | _ => cases hForm

end Sys2Proof.Machine
end

section
/-! SUPPORT. Ticketed accesses (R177, R334). -/

namespace Sys2Proof.Machine

/-! VLDSC: reads that perform in their turn. -/

/-- A leaf puts an address into memory, here or on another package (R147). -/
theorem leafPlace_ne_window (s : State) (l va : Word) (off : Nat) : leafPlace s l va ≠ .ok (.window off) := by
  intro h
  unfold leafPlace at h
  dsimp only at h
  split at h
  · cases h
  · repeat' split at h
    all_goals cases h
  · cases h

theorem translate_ne_window (s : State) (st : Strand) (acc : Acc) (va : Word) (off : Nat) : translate s st acc va ≠ .ok (.window off) := by
  intro h
  unfold translate at h
  split at h
  · cases h
  · split at h
    · cases h
    · split at h
      · cases h
      next hLeaf =>
        split at h
        · cases h
          exact leafPlace_ne_window _ _ _ _ hLeaf
        · cases h

/-- The checks of an element never give a register of the trunk control window (R50). -/
theorem checkElem_ne_window {s : State} {st : Strand} {acc : Acc} {n : Nat} {va : Word} {p : Place} (h : checkElem s st acc n va = .ok p)
    (off : Nat) : p ≠ .window off := by
  rintro rfl
  unfold checkElem at h
  dsimp only at h
  split at h
  · cases h
  · split at h
    · cases h
    · split at h
      · split at h
        · cases h
        · split at h <;> cases h
      · split at h
        · cases h
        · exact translate_ne_window _ _ _ _ _ h

/-- Where no ticket has been given up, the turn passes to the next (R177). -/
theorem passTicket_of_none_dead {o : Ordering_} (h : o.dead = []) : passTicket o = { o with performed := o.performed + 1 } := by
  obtain ⟨⟩ := o
  cases h
  rfl

/-- A ticketed read in its turn gives its bytes, and the turn passes on. -/
theorem readTicketed_of_turn {s : State} {e : El} {a : Access} {b : List Byte} (hDead : s.ord.dead = []) (hLook : s.look = none)
    (hEarly : (me s).early = []) (hStream : streamOf (me s) = []) (hRel : a.rel = false) (hBytes : localBytes s a.place a.size = some b) :
    readTicketed s.ord.performed s e a = .bytes b 0 { s with ord := { s.ord with performed := s.ord.performed + 1 } } := by
  simp only [readTicketed, if_true, readNow_local s e.i a b (makeWay_plain s a hStream hRel) hLook hEarly hBytes, passTicket_of_none_dead hDead]

/-- Reads that each take their turn, from state `u j` to state `u (j + 1)`. -/
theorem loadEls_of_turns {rd : State → El → Place → Got} {u : Nat → State} {p : Nat → Place} {v : El → List Byte} :
    ∀ (els : List El) (j : Nat), (∀ k e, els[k]? = some e → rd (u (j + k)) e (p e.i) = .bytes (v e) 0 (u (j + k + 1))) →
      loadEls rd (fun _ => false) (u j) (els.map fun e => (e, some (p e.i))) = .done (els.map fun e => (numOf (v e), true)) (u (j + els.length))
  | [], _, _ => rfl
  | e :: els, j, h => by
    have hHead : rd (u j) e (p e.i) = .bytes (v e) 0 (u (j + 1)) := h 0 e rfl
    have hTail := loadEls_of_turns els (j + 1) fun k e' hk => by
      have hNext := h (k + 1) e' hk
      rwa [show j + (k + 1) = j + 1 + k by omega] at hNext
    rw [show j + 1 + els.length = j + (e :: els).length by rw [List.length_cons]; omega] at hTail
    simp only [List.map_cons, loadEls, Bool.false_eq_true, if_false, hHead, hTail]

/-- The state of a VLDSC that has drawn `count` tickets, of which `j` have performed: `st` is its strand. -/
def turnState (s : State) (l : List TlbEntry) (st : Strand) (count j : Nat) : State :=
  putMe { s with tlb := l, ord := { s.ord with nextTicket := s.ord.nextTicket + count, performed := s.ord.performed + j } } st

theorem strandOf_turnState_ne {s : State} {k : Nat} (h : k ≠ s.cur) (l : List TlbEntry) (st : Strand) (count j : Nat) :
    strandOf (turnState s l st count j) k = strandOf s k := strandOf_putMe_ne _ k _ h

/-- Tickets do not bear on what a place holds. -/
theorem localBytes_turnState {s : State} {st : Strand} {p : Place} (hDie : st.die = (me s).die) (hPlace : ∀ off, p ≠ .window off)
    (l : List TlbEntry) (count j n : Nat) : localBytes (turnState s l st count j) p n = localBytes s p n := by
  have hMe : (me (turnState s l st count j)).die = (me s).die := by rw [turnState, me_putMe, hDie]
  cases p with
  | mem loc home => simp only [localBytes, hMe]; rfl
  | own loc home => rfl
  | spad key => rfl
  | window off => exact absurd rfl (hPlace off)
  | peer pkg pa => rfl

theorem elsAll_i (s : State) (addr : Nat → Word) : (elsAll (startOf s) (me s).vl addr).map (·.i) = visited s := by
  simp [elsAll, visited, List.map_map, Function.comp_def]

theorem length_elsAll (s : State) (addr : Nat → Word) : (elsAll (startOf s) (me s).vl addr).length = (visited s).length := by
  rw [← elsAll_i s addr, List.length_map]

theorem getElem?_elsAll {start vl : Nat} {addr : Nat → Word} {k : Nat} {e : El} (h : (elsAll start vl addr)[k]? = some e) :
    e.i = start + k ∧ e.va = addr (start + k) := by
  simp only [elsAll, List.getElem?_map, Option.map_eq_some_iff] at h
  obtain ⟨j, hj, rfl⟩ := h
  obtain ⟨-, rfl⟩ := List.getElem?_eq_some_iff.1 hj
  simp

/-- A VLDSC that issues for the first time draws its tickets now, and notes them. -/
theorem drawTickets_of_fresh {s : State} (hFresh : Fresh s) (l : List TlbEntry) (count : Nat) :
    drawTickets { s with tlb := l } count = (s.ord.nextTicket,
      turnState s l (noteDone (me s) s.slot ticketElem (bytesOf 8 s.ord.nextTicket ++ bytesOf 8 count)) count 0) := by
  simp only [drawTickets, doneBefore_of_fresh (s := { s with tlb := l }) hFresh]
  rfl

section Turns

variable {s : State} {st : Strand} {p : Nat → Place} {b : Nat → List Byte} {addr : Nat → Word} {n : Nat}
  (hEl : ∀ k, k ∈ visited s → checkElem s (me s) .load n (addr k) = .ok (p k) ∧ localBytes s (p k) n = some (b k))
include hEl

/-- The scan of an access all of whose elements are active and pass. -/
theorem scanEls_elsAll : scanEls s (me s) .load n (elsAll (startOf s) (me s).vl addr) =
    { els := (elsAll (startOf s) (me s).vl addr).map fun e => (e, some (p e.i)), stop := none, tok := none, vl := (me s).vl } := by
  have hMem : ∀ e ∈ elsAll (startOf s) (me s).vl addr, e.i ∈ visited s ∧ e.va = addr e.i ∧ e.act = true := fun e he => by
    obtain ⟨hLow, hHigh, hVa, hAct⟩ := elsAll_mem _ _ _ e he
    exact ⟨(mem_visited s e.i).2 ⟨hLow, hHigh⟩, hVa, hAct⟩
  rw [scanEls_ok s (me s) .load n _ p fun e he _ => by rw [(hMem e he).2.1]; exact (hEl e.i (hMem e he).1).1]
  exact congrArg (Scan.mk · none none (me s).vl) (List.map_congr_left fun e he => by rw [if_pos (hMem e he).2.2])

/-- The reads of a VLDSC whose first ticket is the one whose turn it is: each passes the turn to the next. -/
theorem loadEls_turnState (hDie : st.die = (me s).die) (hLook : s.look = none) (hEarly : st.early = []) (hStream : streamOf st = [])
    (hDead : s.ord.dead = []) (l : List TlbEntry) (count : Nat) :
    loadEls (fun s1 e q => readTicketed (s.ord.performed + (e.i - startOf s)) s1 e (vmAcc .read n 0 q e.va)) (fun _ => false)
        (turnState s l st count 0) ((elsAll (startOf s) (me s).vl addr).map fun e => (e, some (p e.i))) =
      .done ((visited s).map fun k => (numOf (b k), true)) (turnState s l st count (visited s).length) := by
  have hTurns := loadEls_of_turns (u := turnState s l st count) (p := p) (v := fun e => b e.i)
    (rd := fun s1 e q => readTicketed (s.ord.performed + (e.i - startOf s)) s1 e (vmAcc .read n 0 q e.va)) (elsAll (startOf s) (me s).vl addr) 0
    fun k e hk => by
      obtain ⟨hLow, hHigh, -, -⟩ := elsAll_mem _ _ _ e (List.mem_of_getElem? hk)
      obtain ⟨hCheck, hBytes⟩ := hEl e.i ((mem_visited s e.i).2 ⟨hLow, hHigh⟩)
      have hMe : me (turnState s l st count k) = st := me_putMe _ _
      have hTicket : s.ord.performed + (e.i - startOf s) = s.ord.performed + k := by rw [(getElem?_elsAll hk).1, Nat.add_sub_cancel_left]
      rw [Nat.zero_add, hTicket]
      exact readTicketed_of_turn (s := turnState s l st count k) hDead hLook ((congrArg Strand.early hMe).trans hEarly)
        ((congrArg streamOf hMe).trans hStream) rfl
        ((localBytes_turnState hDie (checkElem_ne_window hCheck) l count k n).trans hBytes)
  rw [Nat.zero_add, length_elsAll] at hTurns
  rw [hTurns, ← elsAll_i s addr, List.map_map]
  rfl

end Turns

theorem exec_vldsc_of_turn {o : VscOps} {s : State} {p : Nat → Place} {b : Nat → List Byte} (hTrunk : (me s).trunk = false) (hFresh : Fresh s)
    (hStream : streamOf (me s) = []) (hTurn : s.ord.performed = s.ord.nextTicket) (hDead : s.ord.dead = [])
    (hEl : ∀ k, k ∈ visited s →
      checkElem s (me s) .load (vmSize o.sz) (contiguous s o.sa o.sb (vmSize o.sz) k) = .ok (p k) ∧
      localBytes s (p k) (vmSize o.sz) = some (b k)) :
    let count := (visited s).length
    let st := noteDone (me s) s.slot ticketElem (bytesOf 8 s.ord.nextTicket ++ bytesOf 8 count)
    ∃ l, exec (.vldsc o) s = .next (putMe (turnState s l st count count) (setIq st o.q.toNat
      (qpush (iqOf (me s) o.q.toNat) (startOf s) (8 * vmSize o.sz) ((visited s).map fun k => (numOf (b k), true))))) := by
  intro count st
  have hScan := scanEls_elsAll (addr := contAddr s o.sa o.sb (vmSize o.sz)) hEl
  obtain ⟨l, hFill⟩ := fillEls_eq s
    ((elsAll (startOf s) (me s).vl (contAddr s o.sa o.sb (vmSize o.sz))).map fun e => (e, some (p e.i)))
  have hCount : ((elsAll (startOf s) (me s).vl (contAddr s o.sa o.sb (vmSize o.sz))).map fun e => (e, some (p e.i))).length = count := by
    rw [List.length_map, length_elsAll]
  have hDraw : drawTickets { s with tlb := l } count = (s.ord.nextTicket, turnState s l st count 0) := drawTickets_of_fresh hFresh l count
  have hFirst : (turnState s l st count 0).ord.performed = s.ord.nextTicket := hTurn
  have hLoads := loadEls_turnState (st := st) (addr := contAddr s o.sa o.sb (vmSize o.sz)) hEl rfl hFresh.1 hFresh.2.1 hStream hDead l count
  rw [hTurn] at hLoads
  have hMe : me (turnState s l st count (visited s).length) = st := me_putMe _ _
  refine ⟨l, ?_⟩
  have hLook : (s.look.any fun l => l.atom || l.left.isSome) = false ∧ s.look.isSome = false := by rw [hFresh.1]; exact ⟨rfl, rfl⟩
  simp only [exec, execVldsc, vecOnly_of_strand hTrunk, hLook, Bool.false_and, Bool.false_eq_true, if_false,
    hScan, hFill, hCount, hDraw, hFirst, decide_true, Bool.true_or, if_true, hLoads, loadFinish, hMe, finish]
  rfl

/-! VSTSC: accesses that carry their tickets. -/

/-- The active elements of a scan in which every active element passes. -/
theorem filter_isSome_scan (els : List El) (p : Nat → Place) :
    ((els.map fun e => (e, if e.act then some (p e.i) else none)).filter fun e => e.2.isSome) =
      (els.filter (·.act)).map fun e => (e, some (p e.i)) := by
  rw [List.filter_map]
  have hActive : els.filter ((fun e : El × Option Place => e.2.isSome) ∘ fun e => (e, if e.act then some (p e.i) else none)) = els.filter (·.act) :=
    List.filter_congr fun e _ => by cases h : e.act <;> simp [h]
  rw [hActive]
  exact List.map_congr_left fun e he => by rw [if_pos (List.mem_filter.1 he).2]

/-- The queued accesses of a VSTSC take its tickets in index order. -/
theorem ticketItems_scan (o : VscOps) (g t : Nat) (els : List El) (p : Nat → Place) :
    ticketItems o g t (els.map fun e => (e, if e.act then some (p e.i) else none)) =
      (els.filter (·.act)).zipIdx.map fun x =>
        .acc { vmAcc (.ticketed (bytesOf (vmSize o.sz) x.1.data) (t + x.2)) (vmSize o.sz) 0 (p x.1.i) x.1.va with group := g, ordered := true } := by
  rw [ticketItems, filter_isSome_scan, List.zipIdx_map, List.filterMap_map, ← List.filterMap_eq_map]
  rfl

/-- The accesses of a VSTSC (R177, R334): of its active elements, with the tickets from `t` on and the data `el`. -/
def ticketedItems (s : State) (n t : Nat) (addr : Nat → Word) (p : Nat → Place) (el : Nat → Nat × Bool) : List QItem :=
  ((visited s).filter fun k => (el k).2).zipIdx.map fun x =>
    .acc { path := .ls, place := p x.1, va := addr x.1, size := n, kind := .ticketed (bytesOf n (el x.1).1) (t + x.2), rel := false, acq := false,
           dom := true, group := nextGroup (me s), ordered := true, fill := none, slot := s.slot, mark := (me s).armed }

section Drawn

variable {s : State} {d : List (Nat × Bool)} {addr : Nat → Word}

/-- The elements that an operand's marks make active. -/
theorem map_i_filter_act : ((elsOf (startOf s) (me s).vl addr (d.map (·.2)) (d.map (·.1))).filter (·.act)).map (·.i) =
    (visited s).filter fun k => (d.getD (k - startOf s) (0, false)).2 := by
  rw [← elsOf_i s addr (d.map (·.2)) (d.map (·.1)), List.filter_map]
  refine congrArg _ (List.filter_congr fun e he => ?_)
  obtain ⟨-, -, -, hMark, -⟩ := elsOf_mem _ _ _ _ _ e he
  exact hMark.trans (getD_marks d _)

theorem ticketItems_elsOf {o : VscOps} {st : Strand} (hArmed : st.armed = (me s).armed) (t : Nat) (p : Nat → Place) :
    (ticketItems o (nextGroup (me s)) t ((elsOf (startOf s) (me s).vl addr (d.map (·.2)) (d.map (·.1))).map fun e =>
        (e, if e.act then some (p e.i) else none))).map (markItem st s.slot) =
      ticketedItems s (vmSize o.sz) t addr p fun k => d.getD (k - startOf s) (0, false) := by
  rw [ticketItems_scan, List.map_map, ticketedItems, ← map_i_filter_act (addr := addr), List.zipIdx_map, List.map_map]
  refine List.map_congr_left fun x hx => ?_
  obtain ⟨-, -, hVa, -, hData⟩ := elsOf_mem _ _ _ _ _ x.1 (List.mem_of_mem_filter (List.fst_mem_of_mem_zipIdx hx))
  simp only [Function.comp_apply, markItem, hVa, hData, getD_data, hArmed]
  rfl

end Drawn

theorem exec_vstsc_of_placed {o : VscOps} {s : State} {d : List (Nat × Bool)} {r : List Group} {p : Nat → Place} (hTrunk : (me s).trunk = false)
    (hLook : s.look = none) (hNew : hasEntered (me s) s.slot = false)
    (hRead : qread (oqOf (me s) o.q.toNat) (startOf s) (me s).vl (8 * vmSize o.sz) = some (d, r)) :
    let el := fun k => d.getD (k - startOf s) (0, false)
    let active := (visited s).filter fun k => (el k).2
    (∀ k, k ∈ active → checkElem s (me s) .store (vmSize o.sz) (contiguous s o.sa o.sb (vmSize o.sz) k) = .ok (p k)) →
    ∃ l, exec (.vstsc o) s = .next (putMe
      { s with tlb := l, ord := { s.ord with nextTicket := s.ord.nextTicket + active.length } }
      (withItems (dropAll (me s) o.q.toNat (startOf s) (me s).vl (8 * vmSize o.sz))
        (ticketedItems s (vmSize o.sz) s.ord.nextTicket (contiguous s o.sa o.sb (vmSize o.sz)) p el))) := by
  intro el active hPlaced
  let els := elsOf (startOf s) (me s).vl (contAddr s o.sa o.sb (vmSize o.sz)) (d.map (·.2)) (d.map (·.1))
  have hActive : (els.filter (·.act)).map (·.i) = active := map_i_filter_act
  have hScan : scanEls s (me s) .store (vmSize o.sz) els =
      { els := els.map fun e => (e, if e.act then some (p e.i) else none), stop := none, tok := none, vl := (me s).vl } :=
    scanEls_ok s (me s) .store (vmSize o.sz) els p fun e he hAct => by
      obtain ⟨-, -, hVa, -⟩ := elsOf_mem _ _ _ _ _ e he
      rw [hVa]
      exact hPlaced e.i (hActive ▸ List.mem_map_of_mem (List.mem_filter.2 ⟨he, hAct⟩))
  obtain ⟨l, hFill⟩ := fillEls_eq s (els.map fun e => (e, if e.act then some (p e.i) else none))
  have hCount : ((els.map fun e => (e, if e.act then some (p e.i) else none)).filter fun e => e.2.isSome).length = active.length := by
    rw [filter_isSome_scan, List.length_map, ← hActive, List.length_map]
  have hAdd : addItems (dropAll (me s) o.q.toNat (startOf s) (me s).vl (8 * vmSize o.sz)) s.slot
      (ticketItems o (nextGroup (me s)) s.ord.nextTicket (els.map fun e => (e, if e.act then some (p e.i) else none))) =
      withItems (dropAll (me s) o.q.toNat (startOf s) (me s).vl (8 * vmSize o.sz))
        (ticketedItems s (vmSize o.sz) s.ord.nextTicket (contiguous s o.sa o.sb (vmSize o.sz)) p el) :=
    (addItems_fresh (dropAll (me s) _ _ _ _) s.slot _ hNew).trans (congrArg (withItems _) (ticketItems_elsOf rfl s.ord.nextTicket p))
  have hTlb : me { s with tlb := l } = me s := rfl
  have hFirst : (s.look.isSome || hasEntered (me s) s.slot) = false := by rw [hLook, hNew]; rfl
  refine ⟨l, ?_⟩
  simp only [exec, execVstsc, vecOnly_of_strand hTrunk, hRead, hFirst, Bool.false_eq_true, if_false]
  rw [show scanEls s (me s) .store (vmSize o.sz)
    (elsOf (startOf s) (me s).vl (contAddr s o.sa o.sb (vmSize o.sz)) (d.map (·.2)) (d.map (·.1))) = _ from hScan]
  simp only [hFill, hCount, hTlb, hAdd, finish]
  rfl

/-- Settles O34: while its ticket is the one whose turn it is, each read of VLDSC passes the turn on; VSTSC numbers its active elements. -/
theorem ticketedAccesses : Obligations.TicketedAccesses := by
  refine ⟨?_, ?_⟩
  · intro o s p b hTrunk hFresh hStream hTurn hDead hEl count
    obtain ⟨l, hExec⟩ := exec_vldsc_of_turn hTrunk hFresh hStream hTurn hDead hEl
    exact ⟨_, hExec, rfl, rfl, fun k hk => (strandOf_putMe_ne (turnState s l _ _ _) k _ hk).trans (strandOf_turnState_ne hk l _ _ _), me_putMe _ _⟩
  · intro o s d r p hTrunk hLook hNew hRead el active hPlaced
    obtain ⟨l, hExec⟩ := exec_vstsc_of_placed hTrunk hLook hNew hRead hPlaced
    exact ⟨_, hExec, rfl, rfl, fun k hk => strandOf_putMe_ne _ k _ hk, me_putMe _ _⟩

end Sys2Proof.Machine
end

section
/-! SUPPORT. The matrix array: the rules of its holds, and the matrix syllables (R198 to R203, R207, R346 to R356). -/

namespace Sys2Proof.Machine

/-! Lists. -/

theorem findIdx?_eq_none {α : Type} {f : α → Bool} : ∀ {l : List α}, (∀ a ∈ l, f a = false) → findIdx? f l = none
  | [], _ => rfl
  | a :: l, h => by
    rw [findIdx?, h a List.mem_cons_self, findIdx?_eq_none fun x hx => h x (List.mem_cons_of_mem _ hx)]
    rfl

/-- A filter by key leaves what the kept keys give. -/
theorem NMap.get?_filter {α : Type} (keep : Nat → Bool) (n : Nat) : ∀ m : NMap α,
    NMap.get? (m.filter fun x => keep x.1) n = if keep n then NMap.get? m n else none
  | [] => by simp [NMap.get?]
  | (k, v) :: m => by
    have ih := NMap.get?_filter keep n m
    by_cases hKey : k = n
    · subst hKey
      cases hKeep : keep k <;> simp [NMap.get?, hKeep, ih]
    · cases hKeep : keep k <;> simp [NMap.get?, hKeep, hKey, ih]

/-! The holds of a cluster (R199). -/

@[simp] theorem me_mxDrop (s : State) (st : Strand) : me (mxDrop s st) = me s := rfl

@[simp] theorem me_putHold (s : State) (h : MxHold) : me (putHold s h) = me s := rfl

theorem holdOf_eq_find (s : State) (st : Strand) : holdOf s st = (mxOf s st.clusterKey).find? (mineHold st) := rfl

/-- The hold of the issuing strand is its own, also where it is the one of no rows. -/
theorem mineHold_myHold (s : State) : mineHold (me s) (myHold s) = true := by
  unfold myHold
  cases hHold : holdOf s (me s) with
  | none => simp [mineHold]
  | some h => exact List.find?_some (p := mineHold (me s)) hHold

theorem myHold_of_holdOf {s : State} {h : MxHold} (hHold : holdOf s (me s) = some h) : myHold s = h := by
  rw [myHold, hHold, Option.getD_some]

theorem mxOf_withMx_same (s : State) (ck : Nat) (l : List MxHold) : mxOf { s with mx := NMap.set s.mx ck l } ck = l :=
  NMap.getD_set_same _ _ _ _

theorem mxOf_withMx_ne {s : State} {k ck : Nat} (h : k ≠ ck) (l : List MxHold) : mxOf { s with mx := NMap.set s.mx ck l } k = mxOf s k :=
  NMap.getD_set_ne _ _ _ _ _ h

/-! How `MxBecomes` passes from state to state. -/

theorem mxBecomes_refl (s : State) : MxBecomes s s (holdOf s (me s)) := ⟨rfl, fun _ _ => rfl, rfl, fun _ _ => rfl, rfl⟩

namespace MxBecomes

variable {s t : State} {h : Option MxHold}

protected theorem cur (hBecomes : MxBecomes s t h) : t.cur = s.cur := by
  have hCur := congrArg State.cur hBecomes.1
  exact hCur

/-- A change of the issuing strand leaves every hold. -/
protected theorem putMe (hBecomes : MxBecomes s t h) (st : Strand) : MxBecomes s (putMe t st) h := by
  have hCur := hBecomes.cur
  obtain ⟨hFrame, hStrands, hHold, hClusters, hOthers⟩ := hBecomes
  exact ⟨hFrame, fun k hk => (strandOf_putMe_ne t k st (hCur ▸ hk)).trans (hStrands k hk), hHold, hClusters, hOthers⟩

/-- The strand's hold goes, and every other one stays. -/
protected theorem mxDrop {st : Strand} (hBecomes : MxBecomes s t h) (hKey : st.clusterKey = (me s).clusterKey)
    (hMine : mineHold st = mineHold (me s)) : MxBecomes s (mxDrop t st) none := by
  obtain ⟨hFrame, hStrands, -, hClusters, hOthers⟩ := hBecomes
  have hOwn : mxOf (Machine.mxDrop t st) (me s).clusterKey = (mxOf t (me s).clusterKey).filter fun x => !mineHold (me s) x := by
    rw [← hKey, ← hMine]
    exact mxOf_withMx_same _ _ _
  refine ⟨hFrame, hStrands, ?_, fun ck hk => (mxOf_withMx_ne (hKey ▸ hk) _).trans (hClusters ck hk), ?_⟩
  · rw [holdOf_eq_find, hOwn]
    exact List.find?_eq_none.2 fun x hx => by simpa using (List.mem_filter.1 hx).2
  · rw [hOwn, List.filter_filter]
    simpa only [Bool.and_self] using hOthers

/-- A hold enters a cluster that lacks the strand's. -/
protected theorem append {x : MxHold} (hBecomes : MxBecomes s t none) (hMine : mineHold (me s) x = true) :
    MxBecomes s { t with mx := NMap.set t.mx (me s).clusterKey (mxOf t (me s).clusterKey ++ [x]) } (some x) := by
  obtain ⟨hFrame, hStrands, hHold, hClusters, hOthers⟩ := hBecomes
  refine ⟨hFrame, hStrands, ?_, fun ck hk => (mxOf_withMx_ne hk _).trans (hClusters ck hk), ?_⟩
  · rw [holdOf_eq_find] at hHold ⊢
    rw [mxOf_withMx_same, List.find?_append, hHold]
    simp [hMine]
  · rw [mxOf_withMx_same, List.filter_append, hOthers]
    simp [hMine]

/-- The strand's hold is replaced by its own, and every other one stays. -/
protected theorem putHold {x : MxHold} (hBecomes : MxBecomes s t h) (hKey : (me t).clusterKey = (me s).clusterKey)
    (hHolder : mineHold (me t) = mineHold (me s)) (hMine : mineHold (me s) x = true) : MxBecomes s (putHold t x) (some x) := by
  have hAppend := (hBecomes.mxDrop hKey hHolder).append hMine
  rw [← hKey] at hAppend
  exact hAppend

end MxBecomes

/-- The issuing strand's hold becomes another hold of its own. -/
theorem mxBecomes_putHold {s : State} {x : MxHold} (hMine : mineHold (me s) x = true) : MxBecomes s (putHold s x) (some x) :=
  (mxBecomes_refl s).putHold rfl rfl hMine

/-- The same once the strand has taken blocks from an in-queue. -/
theorem mxBecomes_putHold_putMe {s : State} {l : List (List Group)} {st : Strand} {x : MxHold} (hStrand : st = { me s with iq := l })
    (hMine : mineHold (me s) x = true) : MxBecomes s (putHold (putMe s st) x) (some x) :=
  ((mxBecomes_refl s).putMe st).putHold (by rw [me_putMe, hStrand]; rfl) (by rw [me_putMe, hStrand]; rfl) hMine

theorem blocksOf_eq {st st1 : Strand} {q n : Nat} {bs : List Nat} (h : blocksOf st q n = some (bs, st1)) : ∃ l, st1 = { st with iq := l } := by
  unfold blocksOf at h
  split at h
  · cases h
  · cases h
    exact ⟨_, rfl⟩

/-! Attach and detach (R199, R347). -/

/-- The hold that a strand attaches: the slices it takes, 64 rows of each, every plane and cell empty. -/
def attachedHold (st : Strand) (take : List Nat) : MxHold :=
  { owner := mxOwner st, rank := st.rank, slices := BitVec.ofNat 8 ((take.map (2 ^ ·)).foldl (· + ·) 0), grant := 64 * take.length,
    shadow := MxPlane.empty, active := MxPlane.empty, acc := [], accPois := [] }

theorem mineHold_attachedHold (st : Strand) (take : List Nat) : mineHold st (attachedHold st take) = true := by simp [mineHold, attachedHold]

/-- The machine once the issuing strand has given its hold back and attached the slices that it takes. -/
def attached (s : State) (take : List Nat) : State :=
  if take.length = 0 then mxDrop s (me s) else putHold (mxDrop s (me s)) (attachedHold (me s) take)

@[simp] theorem me_attached (s : State) (take : List Nat) : me (attached s take) = me s := by
  unfold attached
  split
  · rw [me_mxDrop]
  · rw [me_putHold, me_mxDrop]

theorem getS_attached (s : State) (take : List Nat) (r : BitVec 5) : getS (attached s take) r = getS s r := by
  rw [getS, getS, me_attached]

theorem mxBecomes_attached (s : State) (take : List Nat) :
    MxBecomes s (attached s take) (if take.length = 0 then none else some (attachedHold (me s) take)) := by
  have hDrop : MxBecomes s (mxDrop s (me s)) none := (mxBecomes_refl s).mxDrop rfl rfl
  unfold attached
  split
  · exact hDrop
  · exact hDrop.putHold rfl rfl (mineHold_attachedHold _ _)

theorem exec_mxatt {s : State} {o : S2} (hTrunk : (me s).trunk = false) (hWhole : (getS s o.sa).toNat % 64 = 0) :
    let take := (mxFree (mxDrop s (me s)) (me s)).take (min (getS s o.sa).toNat (mxRows (me s).die) / 64)
    exec (.mxatt o) s = .next (setS (attached s take) o.sd (wordOf (64 * take.length))) := by
  intro take
  have hNone : (64 * take.length = 0) = (take.length = 0) := by simp
  simp only [exec, execMxatt, vecOnly_of_strand hTrunk, hWhole, ne_eq, not_true_eq_false, if_false, finish, attached, ← hNone]
  rfl

theorem exec_mxdet {s : State} (hTrunk : (me s).trunk = false) : exec .mxdet s = .next (mxDrop s (me s)) := by
  simp only [exec, execMxdet, vecOnly_of_strand hTrunk, finish]

/-! Loads and swaps (R201, R348 to R351). -/

theorem exec_mxlds_of_zero {s : State} {o : MxldsOps} (hTrunk : (me s).trunk = false) (hCount : getS s o.sa = 0) :
    exec (.mxlds o) s = .next s := by
  simp only [exec, execMxlds, vecOnly_of_strand hTrunk, hCount, if_true]
  rfl

theorem exec_mxlds {s : State} {o : MxldsOps} {bs : List Nat} {st1 : Strand} {p : MxPlane} (hTrunk : (me s).trunk = false)
    (hCount : getS s o.sa ≠ 0) (hSmall : (getS s o.sa).toNat < 2 ^ 32)
    (hBlocks : blocksOf (me s) o.q.toNat (getS s o.sa).toNat = some (bs, st1))
    (hLoad : if (loadPlane (myHold s)).cursor = 0 ∧ blkFcode (bs.headD 0) = 0xF0 then
        loadSparse (me s) (myHold s).grant (mxCols (me s).die) bs = .ok p
      else loadDense (me s) (myHold s).grant (mxCols (me s).die) (loadPlane (myHold s)) bs = .ok p) :
    exec (.mxlds o) s = .next (putHold (putMe s st1) { myHold s with shadow := p }) := by
  simp only [exec, execMxlds, vecOnly_of_strand hTrunk, if_neg (Nat.not_le.2 hSmall), if_neg hCount, hBlocks]
  rw [← loadPlane]
  split at hLoad
  next hSparse =>
    simp only [hSparse, decide_true, Bool.and_self, if_true, hLoad, finish]
  next hDense =>
    have hTest : (decide ((loadPlane (myHold s)).cursor = 0) && decide (blkFcode (bs.headD 0) = 0xF0)) = false := by
      simpa using hDense
    simp only [hTest, Bool.false_eq_true, if_false, hLoad, finish]

theorem exec_mxswap_of_none {s : State} (hTrunk : (me s).trunk = false) (hHold : holdOf s (me s) = none) : exec .mxswap s = .next s := by
  simp only [exec, execMxswap, vecOnly_of_strand hTrunk, hHold, finish]

theorem exec_mxswap {s : State} {h : MxHold} (hTrunk : (me s).trunk = false) (hHold : holdOf s (me s) = some h) :
    exec .mxswap s = .next (putHold s { h with shadow := { h.active with fresh := true }, active := h.shadow }) := by
  simp only [exec, execMxswap, vecOnly_of_strand hTrunk, hHold, finish]

/-! Streaming (R202, R207, R352). -/

/-- Streamed rows change the accumulator cells of a hold alone. -/
theorem foldl_streamRow_eq (st : Strand) (cols : Nat) (row : Nat → Nat) (xs : Nat → List Nat) :
    ∀ (l : List Nat) (h : MxHold), ∃ acc, l.foldl (fun h j => streamRow st cols h (row j) (xs j)) h = { h with acc := acc }
  | [], h => ⟨h.acc, rfl⟩
  | j :: l, h => by
    obtain ⟨acc, hFold⟩ := foldl_streamRow_eq st cols row xs l (streamRow st cols h (row j) (xs j))
    exact ⟨acc, hFold⟩

theorem exec_mxstrm_of_zero {s : State} {o : MxstrmOps} (hTrunk : (me s).trunk = false) (hGrant : (myHold s).grant ≠ 0)
    (hLoaded : (myHold s).active.width ≠ 0) (hRow : (getS s o.sa).toNat ≤ mxAccr (me s).die (myHold s).grant) (hNone : getS s o.sb = 0) :
    exec (.mxstrm o) s = .next s := by
  have hZero : (getS s o.sb).toNat = 0 := by rw [hNone]; rfl
  simp only [exec, execMxstrm, vecOnly_of_strand hTrunk, hZero, Nat.add_zero, hGrant, hLoaded, Nat.not_lt.2 hRow, decide_false, Bool.or_self,
    Bool.false_eq_true, if_false, if_true, finish]

theorem exec_mxstrm {s : State} {o : MxstrmOps} {bs : List Nat} {st1 : Strand} (hTrunk : (me s).trunk = false) (hGrant : (myHold s).grant ≠ 0)
    (hLoaded : (myHold s).active.width ≠ 0)
    (hRows : (getS s o.sa).toNat + (getS s o.sb).toNat ≤ mxAccr (me s).die (myHold s).grant) (hSome : getS s o.sb ≠ 0)
    (hBlocks : blocksOf (me s) o.q.toNat ((getS s o.sb).toNat * streamBlocks (myHold s).active) = some (bs, st1))
    (hValid : ∀ b, b ∈ bs → blkValid (me s) b = true ∧ blkE (blkDesc (me s) b).wid = blkE (myHold s).active.width) :
    exec (.mxstrm o) s = .next (putHold (putMe s st1) ((List.range (getS s o.sb).toNat).foldl (fun h j =>
      streamRow (me s) (mxCols (me s).die) h ((getS s o.sa).toNat + j)
        ((bs.drop (j * streamBlocks (myHold s).active)).take (streamBlocks (myHold s).active))) (myHold s))) := by
  have hCount : (getS s o.sb).toNat ≠ 0 := fun h => hSome (BitVec.eq_of_toNat_eq h)
  have hFind : findIdx? (fun b => !blkValid (me s) b || blkE (blkDesc (me s) b).wid != blkE (myHold s).active.width) bs = none :=
    findIdx?_eq_none fun b hb => by simp [hValid b hb]
  simp only [exec, execMxstrm, vecOnly_of_strand hTrunk, hGrant, hLoaded, Nat.not_lt.2 hRows, decide_false, Bool.or_self, Bool.false_eq_true,
    if_false, hCount, hBlocks, hFind, finish]

/-! Drains (R203, R353, R354). -/

/-- What MXDRAIN leaves of its strand where it pushes some positions. -/
def drainedStrand (s : State) (o : MxdrainOps) (w : Nat) (ps : List DrainPos) : Strand :=
  { setOq (me s) o.q.toNat (qpush (oqOf (me s) o.q.toNat) (startOf s) w (ps.map fun x => (x.1, true))) with
    fflags := (me s).fflags ||| orFlags (ps.map fun x => x.2.1) }

/-- The positions that a drain reads, from VSTART on. -/
def drainPositions (s : State) (o : MxdrainOps) : List DrainPos :=
  let dw := drainWord (mxCols (me s).die) (getS s o.sb)
  (((List.range dw.nrow).map fun r =>
    if dw.blk then
      drainBlocks (myHold s) dw.fd (fdOf ((me s).fds.getD dw.fd 0)) (slotMode (me s) o.slot == .rtz) dw.ncol ((getS s o.sa).toNat + r)
    else drainRow (myHold s) (tyFmt (slotTy (me s) o.slot)) (slotMode (me s) o.slot) dw.ncol ((getS s o.sa).toNat + r)).flatten).drop (startOf s)

theorem exec_mxdrain {s : State} {o : MxdrainOps} (hTrunk : (me s).trunk = false)
    (hZeros : (drainWord (mxCols (me s).die) (getS s o.sb)).mbz = true)
    (hCols : (drainWord (mxCols (me s).die) (getS s o.sb)).ncol ≤ mxCols (me s).die) (hGrant : (myHold s).grant ≠ 0)
    (hRows : (getS s o.sa).toNat + (drainWord (mxCols (me s).die) (getS s o.sb)).nrow ≤ mxAccr (me s).die (myHold s).grant)
    (hBlock : (drainWord (mxCols (me s).die) (getS s o.sb)).blk = true →
      fdValid (fdOf ((me s).fds.getD (drainWord (mxCols (me s).die) (getS s o.sb)).fd 0)) = true ∧
        (slotMode (me s) o.slot = .rne ∨ slotMode (me s) o.slot = .rtz))
    (hPlain : (drainWord (mxCols (me s).die) (getS s o.sb)).blk = false → slotTy (me s) o.slot = 9 ∨ slotTy (me s) o.slot = 10)
    (hClean : ∀ x, x ∈ drainPositions s o → x.2.2 = false) :
    exec (.mxdrain o) s = .next (putMe s (drainedStrand s o
      (if (drainWord (mxCols (me s).die) (getS s o.sb)).blk then 32 else tyWidth (slotTy (me s) o.slot)) (drainPositions s o))) := by
  have hFind : findIdx? (fun p : DrainPos => p.2.2) (drainPositions s o) = none := findIdx?_eq_none hClean
  simp only [exec, execMxdrain, vecOnly_of_strand hTrunk, drainPositions]
  cases hBlk : (drainWord (mxCols (me s).die) (getS s o.sb)).blk with
  | true =>
    obtain ⟨hValid, hMode⟩ := hBlock hBlk
    have hUp : (slotMode (me s) o.slot == .rup || slotMode (me s) o.slot == .rdn) = false := by
      obtain h | h := hMode <;> rw [h] <;> rfl
    simp only [drainPositions, hBlk, if_true] at hFind ⊢
    simp only [hZeros, Nat.not_lt.2 hCols, Nat.not_lt.2 hRows, hGrant, hUp, hValid, Bool.not_true, Bool.false_and, Bool.true_and, decide_false,
      Bool.or_self, Bool.false_eq_true, if_false, hFind, finish]
    rfl
  | false =>
    have hType : (slotTy (me s) o.slot == 10 || slotTy (me s) o.slot == 9) = true := by
      obtain h | h := hPlain hBlk <;> rw [h] <;> rfl
    simp only [drainPositions, hBlk, Bool.false_eq_true, if_false] at hFind ⊢
    simp only [hZeros, Nat.not_lt.2 hCols, Nat.not_lt.2 hRows, hGrant, hType, Bool.not_true, Bool.not_false, Bool.false_and, Bool.and_false,
      decide_false, Bool.or_self, Bool.false_eq_true, if_false, hFind, finish]
    rfl

/-! Clearing, and the status word (R355, R356). -/

/-- Whether MXCLR of rows a to a + r − 1 keeps a cell, by its number. -/
def keptCell (a r k : Nat) : Bool := !(decide (a ≤ k / 512) && decide (k / 512 < a + r))

/-- A hold without the cells of rows a to a + r − 1. -/
def clearedHold (h : MxHold) (a r : Nat) : MxHold :=
  { h with acc := h.acc.filter fun x => keptCell a r x.1, accPois := h.accPois.filter (keptCell a r) }

theorem accCell_clearedHold (h : MxHold) (a r row : Nat) {col : Nat} (hCol : col < 512) :
    accCell (clearedHold h a r) row col = if a ≤ row ∧ row < a + r then eaInit else accCell h row col := by
  have hRow : (row * 512 + col) / 512 = row := by omega
  rw [accCell, NMap.getD, clearedHold, NMap.get?_filter (keptCell a r), keptCell, hRow, accCell, NMap.getD]
  have hCleared : (a ≤ row ∧ row < a + r) ↔ (decide (a ≤ row) && decide (row < a + r)) = true := by simp
  rw [if_congr hCleared rfl rfl]
  cases decide (a ≤ row) && decide (row < a + r) <;> rfl

theorem exec_mxclr {s : State} {o : S2ab} (hTrunk : (me s).trunk = false) (hGrant : (myHold s).grant ≠ 0)
    (hRows : (getS s o.sa).toNat + (getS s o.sb).toNat ≤ mxAccr (me s).die (myHold s).grant) :
    exec (.mxclr o) s = .next (putHold s (clearedHold (myHold s) (getS s o.sa).toNat (getS s o.sb).toNat)) := by
  simp only [exec, execMxclr, vecOnly_of_strand hTrunk, hGrant, Nat.not_lt.2 hRows, decide_false, Bool.or_self, Bool.false_eq_true, if_false, finish]
  rfl

theorem exec_mxstat {s : State} (hTrunk : (me s).trunk = false) (o : S1d) :
    exec (.mxstat o) s = .next (setS s o.sd (wordOf (mxStatus (me s).die (myHold s)))) := by
  simp only [exec, execMxstat, vecOnly_of_strand hTrunk, finish]

/-- Settles O40: each syllable's state is its `exec_` equation's, and `MxBecomes` follows the drops and writes of the strand's hold. -/
theorem matrixArray : Obligations.MatrixArray := by
  refine ⟨?_, fun s hTrunk => ⟨_, exec_mxdet hTrunk, (mxBecomes_refl s).mxDrop rfl rfl, rfl⟩, fun o s => exec_mxlds_of_zero, ?_,
    fun s => exec_mxswap_of_none, ?_, fun o s => exec_mxstrm_of_zero, ?_, ?_, ?_,
    fun o s hTrunk => ⟨_, exec_mxstat hTrunk o, writesReg_setS _ _ _⟩⟩
  · intro o s hTrunk hWhole take
    refine ⟨_, exec_mxatt hTrunk hWhole, ?_, ?_, (mxBecomes_attached s take).putMe _⟩
    · intro r
      rw [getS_setS, getS_attached]
      rfl
    · rw [me_setS, me_attached]
      exact swrite_regs _ _ _
  · intro o s bs st1 p hTrunk hCount hSmall hBlocks hLoad
    obtain ⟨l, hStrand⟩ := blocksOf_eq hBlocks
    refine ⟨_, exec_mxlds hTrunk hCount hSmall hBlocks hLoad, ?_, mxBecomes_putHold_putMe hStrand (mineHold_myHold s)⟩
    rw [me_putHold, me_putMe]
  · intro s h hTrunk hHold
    have hMine := mineHold_myHold s
    rw [myHold_of_holdOf hHold] at hMine
    exact ⟨_, exec_mxswap hTrunk hHold, rfl, mxBecomes_putHold hMine⟩
  · intro o s bs st1 h k hTrunk hGrant hLoaded hRows hSome hBlocks hValid
    obtain ⟨l, hStrand⟩ := blocksOf_eq hBlocks
    obtain ⟨acc, hFold⟩ := foldl_streamRow_eq (me s) (mxCols (me s).die) (fun j => (getS s o.sa).toNat + j)
      (fun j => (bs.drop (j * k)).take k) (List.range (getS s o.sb).toNat) h
    refine ⟨_, exec_mxstrm hTrunk hGrant hLoaded hRows hSome hBlocks hValid, ?_, mxBecomes_putHold_putMe hStrand ?_⟩
    · rw [me_putHold, me_putMe]
    · rw [hFold]
      exact mineHold_myHold s
  · intro o s st h dw d md ps hTrunk hZeros hCols hGrant hRows hBlock hPlain hClean
    exact ⟨_, exec_mxdrain hTrunk hZeros hCols hGrant hRows hBlock hPlain hClean, meBecomes_putMe _ _⟩
  · intro o s hTrunk hGrant hRows
    exact ⟨_, _, exec_mxclr hTrunk hGrant hRows, rfl, mxBecomes_putHold (mineHold_myHold s), rfl,
      fun row col hCol => accCell_clearedHold _ _ _ row hCol⟩

end Sys2Proof.Machine
end

section
/-! SUPPORT. Sparse tiles: the reads of a parameter block and of source blocks, and SPHDR and PRUNE (R206, R209, R210, R357 to R359). -/

namespace Sys2Proof.Machine

/-! The TLB once it holds the leaves of some addresses (R149). -/

/-- Taking leaves changes the TLB alone. -/
theorem filled_eq : ∀ (vas : List Word) (s : State), ∃ l, filled s vas = { s with tlb := l }
  | [], s => ⟨s.tlb, rfl⟩
  | va :: vas, s => by
    obtain ⟨l, hFill⟩ := tlbFill_eq s (me s) va
    obtain ⟨l', hRest⟩ := filled_eq vas { s with tlb := l }
    exact ⟨l', by rw [← hRest, ← hFill]; rfl⟩

@[simp] theorem me_filled (s : State) (vas : List Word) : me (filled s vas) = me s := by
  obtain ⟨l, h⟩ := filled_eq vas s
  rw [h]
  rfl

@[simp] theorem look_filled (s : State) (vas : List Word) : (filled s vas).look = s.look := by
  obtain ⟨l, h⟩ := filled_eq vas s
  rw [h]

@[simp] theorem localBytes_filled (s : State) (vas : List Word) (p : Place) (n : Nat) : localBytes (filled s vas) p n = localBytes s p n := by
  obtain ⟨l, h⟩ := filled_eq vas s
  rw [h, localBytes_tlb]

theorem filled_filled (s : State) (a b : List Word) : filled (filled s a) b = filled s (a ++ b) := List.foldl_append.symm

/-- A change of the issuing strand on top of new TLB entries. -/
theorem onlyMe_filled (s : State) (vas : List Word) (st : Strand) :
    OnlyMe { s with tlb := (putMe (filled s vas) st).tlb } (putMe (filled s vas) st) := by
  obtain ⟨l, h⟩ := filled_eq vas s
  rw [h]
  exact onlyMe_tlb s l st

/-- Elements that are all active and lie at places fill the TLB with the leaves of their addresses. -/
theorem fillEls_placed (s : State) (p : El → Place) (els : List El) :
    fillEls s (els.map fun e => (e, some (p e))) = filled s (els.map (·.va)) := by
  simp [fillEls, filled, List.foldl_map]

/-! Reads of whole blocks at places of this package. -/

theorem bytesOf_numOf : ∀ b : List Byte, bytesOf b.length (numOf b) = b
  | [] => rfl
  | x :: b => by
    have hHead : BitVec.ofNat 8 (x.toNat + 256 * numOf b) = x := by
      refine BitVec.eq_of_toNat_eq ?_
      have := x.isLt
      simp only [BitVec.toNat_ofNat]
      omega
    have hTail : (x.toNat + 256 * numOf b) / 256 = numOf b := by
      have := x.isLt
      omega
    change BitVec.ofNat 8 (x.toNat + 256 * numOf b) :: bytesOf b.length ((x.toNat + 256 * numOf b) / 256) = x :: b
    rw [hHead, hTail, bytesOf_numOf b]

/-- A place that an element's checks give holds as many bytes as are read. -/
theorem length_localBytes {s : State} {p : Place} {n : Nat} {b : List Byte} (hPlace : ∀ off, p ≠ .window off)
    (hBytes : localBytes s p n = some b) : b.length = n := by
  cases p with
  | mem loc home =>
    obtain ⟨-, ⟨⟩⟩ := Option.ite_none_left_eq_some.1 hBytes
    exact length_memRead _ _ _ _
  | own loc home =>
    obtain ⟨-, ⟨⟩⟩ := Option.ite_none_left_eq_some.1 hBytes
    exact length_memRead _ _ _ _
  | spad key =>
    obtain ⟨-, ⟨⟩⟩ := Option.ite_none_left_eq_some.1 hBytes
    exact Memory.length_getBytes _ _ _
  | window off => exact absurd rfl (hPlace off)
  | peer pkg pa => cases hBytes

/-- Whether elements of n bytes pass their checks and lie at places of this package that hold the bytes `b`. -/
def ReadsHere (s : State) (n : Nat) (els : List El) (p : Nat → Place) (b : Nat → List Byte) : Prop :=
  ∀ e ∈ els, e.act = true ∧ checkElem s (me s) .load n e.va = .ok (p e.i) ∧ localBytes s (p e.i) n = some (b e.i)

/-- Where nothing holds them, the reads of PRUNE and SPHDR go at once and give their bytes; the TLB may take leaves. -/
theorem pruneReads_of_readsHere {s : State} {n : Nat} {els : List El} {p : Nat → Place} {b : Nat → List Byte} (hLook : s.look = none)
    (hEarly : (me s).early = []) (hStream : streamOf (me s) = []) (hReads : ReadsHere s n els p b)
    (k : List (List Byte) → State → Res) (fail : Nat → Word → Res) :
    pruneReads s n els k fail = k (els.map fun e => b e.i) (filled s (els.map (·.va))) := by
  have hPlaced : (els.map fun e => (e, if e.act then some (p e.i) else none)) = els.map fun e => (e, some (p e.i)) :=
    List.map_congr_left fun e he => by rw [if_pos (hReads e he).1]
  have hScan : scanFrom s (me s) .load n els = (els.map fun e => (e, some (p e.i)), none) := by
    rw [scanFrom_ok s (me s) .load n els p fun e he _ => (hReads e he).2.1, hPlaced]
  have hAsk : ∀ mk, askAll s mk (els.map fun e => (e, some (p e.i))) = none := fun mk => askAll_local s mk _ fun x hx q hq => by
    obtain ⟨e, he, rfl⟩ := List.mem_map.1 hx
    cases hq
    exact local_not_peer s _ n _ (hReads e he).2.2
  have hLoads : loadEls (fun s1 e q => readNow s1 e.i { plainAcc .read n q e.va with group := nextGroup (me s) }) (fun _ => false)
      (filled s (els.map (·.va))) (els.map fun e => (e, some (p e.i))) =
      .done ((els.map fun e => (e, some (p e.i))).map fun x => if x.2.isSome then (numOf (b x.1.i), true) else (0, false))
        (filled s (els.map (·.va))) := by
    refine loadEls_ok _ _ _ (fun e => b e.i) fun x hx q hq => ?_
    obtain ⟨e, he, rfl⟩ := List.mem_map.1 hx
    cases hq
    refine readNow_local _ _ _ _ (makeWay_plain _ _ (by rw [me_filled, hStream]) rfl) (by rw [look_filled, hLook]) (by rw [me_filled, hEarly]) ?_
    rw [localBytes_filled]
    exact (hReads e he).2.2
  have hBytes : ∀ e ∈ els, bytesOf n (numOf (b e.i)) = b e.i := fun e he => by
    obtain ⟨-, hCheck, hLocal⟩ := hReads e he
    rw [← length_localBytes (checkElem_ne_window hCheck) hLocal, bytesOf_numOf]
  simp only [pruneReads, hScan, hAsk, fillEls_placed s (fun e => p e.i), hLoads, List.map_map, Function.comp_def, Option.isSome_some, if_true]
  rw [List.map_congr_left hBytes]

/-- The read of a parameter block. -/
theorem pruneReads_blkEls {s : State} {va : Word} {n : Nat} {q : Place} {b : List Byte} (hLook : s.look = none) (hEarly : (me s).early = [])
    (hStream : streamOf (me s) = []) (hCheck : checkElem s (me s) .load n va = .ok q) (hBytes : localBytes s q n = some b)
    (k : List (List Byte) → State → Res) (fail : Nat → Word → Res) : pruneReads s n (blkEls va) k fail = k [b] (filled s [va]) :=
  pruneReads_of_readsHere (p := fun _ => q) (b := fun _ => b) hLook hEarly hStream
    (fun e he => by cases List.mem_singleton.1 he; exact ⟨rfl, hCheck, hBytes⟩) k fail

/-! SPHDR (R357, R358). -/

/-- SPHDR once its addresses have passed: the checks of the parameter block decide. -/
theorem exec_sphdr {s : State} {o : VmAb} {q : Place} {b : List Byte} {items : List QItem} (hTrunk : (me s).trunk = false)
    (hLook : s.look = none) (hEarly : (me s).early = []) (hStream : streamOf (me s) = []) (hBlock : (getS s o.sb).toNat % 32 = 0)
    (hHeader : (getS s o.sa).toNat % 64 = 0) (hCheck : checkElem s (me s) .load 32 (getS s o.sb) = .ok q)
    (hBytes : localBytes s q 32 = some b) :
    let P := pruneBlk b
    let fails := pruneCheck (mxCols (me s).die) P P.wid
    wordItems (filled s [getS s o.sb]) (nextGroup (me s)) (getS s o.sa) (hdrBytes P.transp false P.n P.m P.wid P.rowb P.kgroups P.rowb) =
      .ok items →
    exec (.sphdr o) s = finish s (if fails ≠ 0 then pruneFail s 0 cSparse (tileEval fails)
      else .ok (putMe (filled s [getS s o.sb]) (addItems (me s) s.slot items))) := by
  intro P fails hItems
  simp only [exec, execSphdr, vecOnly_of_strand hTrunk, hBlock, hHeader, ne_eq, not_true_eq_false, if_false,
    pruneReads_blkEls hLook hEarly hStream hCheck hBytes, List.headD_cons, me_filled, P] at hItems ⊢
  rw [hItems]

/-! PRUNE (R209, R210, R357, R359). -/

/-- The source block that gives a tile its descriptor is the first. -/
theorem srcEls_one (P : PruneBlk) : srcEls { P with rowb := 1 } 1 = [{ i := 0, va := P.src, act := true, data := 0 }] := by
  have hZero : P.src + wordOf (64 * 0) = P.src := by simp [wordOf]
  simp only [srcEls, Nat.mul_one, List.range_one, List.map_cons, List.map_nil, hZero]

/-- The source block of index k. -/
theorem mem_srcEls {P : PruneBlk} {rb : Nat} {e : El} (h : e ∈ srcEls P rb) :
    e.i < P.rowb * rb ∧ e.va = P.src + BitVec.ofNat 64 (64 * e.i) ∧ e.act = true := by
  obtain ⟨k, hk, rfl⟩ := List.mem_map.1 h
  exact ⟨List.mem_range.1 hk, rfl, rfl⟩

/-- A tile that fits LIMIT is written whole from row `start` on, its header last (R210). -/
theorem pruneWrite_of_fit {s s1 : State} {h : Word} {P : PruneBlk} {fdn start : Nat} {d : FmtDesc} {bs : List Nat} {items : List QItem}
    (hFit : rowsFit P d.wid = P.rowb) (hLimit : 64 ≤ P.limit)
    (hItems : writeAll s1 (nextGroup (me s1)) (tileWrites h P d.wid start (prunedRows P fdn d bs start)) = .ok items) :
    let rb := ceilDiv (P.kgroups * P.m) (blkE d.wid)
    pruneWrite s h P fdn d start ((List.range P.rowb).map fun r => (bs.drop (r * rb)).take rb) s1 =
      .ok (putMe s1 { addItems (me s1) s.slot items with
        fflags := (me s1).fflags ||| orFlags ((prunedRows P fdn d bs start).map fun x => x.2.2.2) }) := by
  intro rb
  have hTodo : ((List.range P.rowb).filter fun r => decide (start ≤ r) && decide (r < P.rowb)) =
      (List.range P.rowb).filter fun r => decide (start ≤ r) :=
    List.filter_congr fun r hr => by rw [decide_eq_true (List.mem_range.1 hr), Bool.and_true]
  simp only [tileWrites, prunedRows, List.map_map, Function.comp_def] at hItems
  simp only [pruneWrite, hFit, hTodo, Nat.not_lt.2 hLimit, if_true, if_false, List.map_map, Function.comp_def, prunedRows]
  rw [hItems]

/-- PRUNE of the tile at `h`, once its first source block `b0` is read and every address and check has passed: it reads its whole source in state
`s2` and writes the tile. -/
def pruneTile (s s2 : State) (h : Word) (P : PruneBlk) (b0 : Nat) : Res :=
  let d := blkDesc (me s) b0
  let rb := ceilDiv (P.kgroups * P.m) (blkE d.wid)
  pruneReads s2 64 (srcEls P rb) (fun ls s3 =>
    match findIdx? (fun b => blkFcode b != blkFcode b0) (ls.map numOf) with
    | some i => pruneFail s (startOf s) cBlock (P.src + wordOf (64 * i))
    | none =>
      pruneWrite s h P (blkFcode b0) d (startOf s) ((List.range P.rowb).map fun r => ((ls.map numOf).drop (r * rb)).take rb) s3)
    (pruneFail s (startOf s))

/-- Whether its source blocks, where they stand in state `s2`, hold the bytes `src` and select the descriptor of the block `b0`. -/
def SourcesHere (s2 : State) (P : PruneBlk) (b0 rb : Nat) (p : Nat → Place) (src : Nat → List Byte) : Prop :=
  ∀ k, k < P.rowb * rb → checkElem s2 (me s2) .load 64 (P.src + BitVec.ofNat 64 (64 * k)) = .ok (p k) ∧
    localBytes s2 (p k) 64 = some (src k) ∧ blkFcode (numOf (src k)) = blkFcode b0

/-- A tile whose source blocks select one descriptor and that fits LIMIT: every write enters the issue stream, and the flags accrue. -/
theorem pruneTile_of_fit {s s2 : State} {h : Word} {P : PruneBlk} {b0 : Nat} {p : Nat → Place} {src : Nat → List Byte} {items : List QItem}
    (hLook : s2.look = none) (hEarly : (me s2).early = []) (hStream : streamOf (me s2) = []) :
    let d := blkDesc (me s) b0
    let rb := ceilDiv (P.kgroups * P.m) (blkE d.wid)
    let s3 := filled s2 ((List.range (P.rowb * rb)).map fun k => P.src + BitVec.ofNat 64 (64 * k))
    let out := prunedRows P (blkFcode b0) d ((List.range (P.rowb * rb)).map fun k => numOf (src k)) (startOf s)
    SourcesHere s2 P b0 rb p src → rowsFit P d.wid = P.rowb → 64 ≤ P.limit →
    writeAll s3 (nextGroup (me s2)) (tileWrites h P d.wid (startOf s) out) = .ok items →
    pruneTile s s2 h P b0 = .ok (putMe s3
      { addItems (me s2) s.slot items with fflags := (me s2).fflags ||| orFlags (out.map fun x => x.2.2.2) }) := by
  intro d rb s3 out hSources hFit hLimit hItems
  have hReads : ReadsHere s2 64 (srcEls P rb) p src := fun e he => by
    obtain ⟨hIndex, hVa, hAct⟩ := mem_srcEls he
    obtain ⟨hPlace, hHeld, -⟩ := hSources e.i hIndex
    exact ⟨hAct, hVa ▸ hPlace, hHeld⟩
  have hVas : (srcEls P rb).map (·.va) = (List.range (P.rowb * rb)).map fun k => P.src + BitVec.ofNat 64 (64 * k) := by
    simp only [srcEls, List.map_map, Function.comp_def]
    rfl
  have hNums : ((srcEls P rb).map fun e => src e.i).map numOf = (List.range (P.rowb * rb)).map fun k => numOf (src k) := by
    simp only [srcEls, List.map_map, Function.comp_def]
  have hCodes : findIdx? (fun x => blkFcode x != blkFcode b0) ((List.range (P.rowb * rb)).map fun k => numOf (src k)) = none :=
    findIdx?_eq_none fun x hx => by
      obtain ⟨k, hk, rfl⟩ := List.mem_map.1 hx
      rw [(hSources k (List.mem_range.1 hk)).2.2, bne_self_eq_false]
  have hMe : me s3 = me s2 := me_filled _ _
  have hWrite := pruneWrite_of_fit (s := s) hFit hLimit (hMe ▸ hItems)
  rw [hMe] at hWrite
  rw [pruneTile, pruneReads_of_readsHere hLook hEarly hStream hReads, hVas]
  simp only [hNums, hCodes]
  exact hWrite

section Tile

variable {s : State} {o : VmAb} {q q0 : Place} {b b0 : List Byte} (hTrunk : (me s).trunk = false) (hLook : s.look = none)
  (hEarly : (me s).early = []) (hStream : streamOf (me s) = []) (hBlock : (getS s o.sa).toNat % 32 = 0) (hHeader : (getS s o.sb).toNat % 64 = 0)
  (hCheck : checkElem s (me s) .load 32 (getS s o.sa) = .ok q) (hBytes : localBytes s q 32 = some b) (hSrc : (pruneBlk b).src.toNat % 64 = 0)
  (hCheck0 : checkElem (filled s [getS s o.sa]) (me s) .load 64 (pruneBlk b).src = .ok q0) (hBytes0 : localBytes s q0 64 = some b0)
  (hValid : blkValid (me s) (numOf b0) = true)
  (hAddresses : pruneBad (filled (filled s [getS s o.sa]) [(pruneBlk b).src]) (getS s o.sb) (pruneBlk b) (blkDesc (me s) (numOf b0)).wid
    (ceilDiv ((pruneBlk b).kgroups * (pruneBlk b).m) (blkE (blkDesc (me s) (numOf b0)).wid)) (startOf s) = none)
include hTrunk hLook hEarly hStream hBlock hHeader hCheck hBytes hSrc hCheck0 hBytes0 hValid hAddresses

/-- PRUNE once its parameter block and its first source block are read and every address has passed. -/
theorem exec_prune_of_addresses :
    let P := pruneBlk b
    let fails := pruneCheck (mxCols (me s).die) P (blkDesc (me s) (numOf b0)).wid
    exec (.prune o) s = finish s
      (if P.zeros && P.transp && !(P.m == 2 || P.m == 4) then illegal s (.prune o)
      else if fails ≠ 0 then pruneFail s (startOf s) cSparse (tileEval fails)
      else pruneTile s (filled (filled s [getS s o.sa]) [P.src]) (getS s o.sb) P (numOf b0)) := by
  intro P fails
  have hFirst : ReadsHere (filled s [getS s o.sa]) 64 [{ i := 0, va := (pruneBlk b).src, act := true, data := 0 }] (fun _ => q0) fun _ => b0 :=
    fun e he => by
      cases List.mem_singleton.1 he
      exact ⟨rfl, by rw [me_filled]; exact hCheck0, by rw [localBytes_filled]; exact hBytes0⟩
  simp only [exec, execPrune, vecOnly_of_strand hTrunk, hBlock, hHeader, ne_eq, not_true_eq_false, if_false,
    pruneReads_blkEls hLook hEarly hStream hCheck hBytes, List.headD_cons, hSrc, srcEls_one]
  rw [pruneReads_of_readsHere ((look_filled _ _).trans hLook) (by rw [me_filled, hEarly]) (by rw [me_filled, hStream]) hFirst]
  simp only [List.map_cons, List.map_nil, List.headD_cons, hValid, Bool.not_true, Bool.false_eq_true, if_false, hAddresses]
  rfl

/-- With TRANSP, an M other than 2 and 4 is illegal. -/
theorem exec_prune_of_transp (hZeros : (pruneBlk b).zeros = true) (hTransp : (pruneBlk b).transp = true) (hTwo : (pruneBlk b).m ≠ 2)
    (hFour : (pruneBlk b).m ≠ 4) : exec (.prune o) s = .next (takeException (rollback s) cIllegal (sylWord s (.prune o)) 0) := by
  rw [exec_prune_of_addresses hTrunk hLook hEarly hStream hBlock hHeader hCheck hBytes hSrc hCheck0 hBytes0 hValid hAddresses]
  simp only [hZeros, hTransp, beq_eq_false_iff_ne.2 hTwo, beq_eq_false_iff_ne.2 hFour, Bool.or_self, Bool.not_false, Bool.and_self, if_true, illegal,
    finish]

/-- A parameter block that passes its checks: the tile is written. -/
theorem exec_prune_of_checks (hSquare : (pruneBlk b).transp = false ∨ (pruneBlk b).m = 2 ∨ (pruneBlk b).m = 4)
    (hPass : pruneCheck (mxCols (me s).die) (pruneBlk b) (blkDesc (me s) (numOf b0)).wid = 0) :
    exec (.prune o) s = finish s (pruneTile s (filled (filled s [getS s o.sa]) [(pruneBlk b).src]) (getS s o.sb) (pruneBlk b) (numOf b0)) := by
  have hLegal : ((pruneBlk b).zeros && (pruneBlk b).transp && !((pruneBlk b).m == 2 || (pruneBlk b).m == 4)) = false := by
    obtain h | h | h := hSquare <;> simp [h]
  rw [exec_prune_of_addresses hTrunk hLook hEarly hStream hBlock hHeader hCheck hBytes hSrc hCheck0 hBytes0 hValid hAddresses, hLegal, hPass]
  rfl

end Tile

/-- Settles O39: the reads go at once (`pruneReads_of_readsHere`), the checks decide, and what passes is queued on top of new TLB entries. -/
theorem sparseTiles : Obligations.SparseTiles := by
  refine ⟨?_, ?_⟩
  · intro o s q b items s1 P hTrunk hFresh hStream hBlock hHeader hCheck hBytes hItems
    obtain ⟨hLook, hEarly, -⟩ := hFresh
    have hExec := exec_sphdr hTrunk hLook hEarly hStream hBlock hHeader hCheck hBytes hItems
    split
    next hPass =>
      rw [if_neg (not_not.2 hPass)] at hExec
      exact ⟨_, hExec, onlyMe_filled _ _ _, me_putMe _ _⟩
    next hFail =>
      rw [if_pos hFail] at hExec
      exact hExec
  · intro o s q q0 b b0 p src P d rb s1 s2 s3 out hTrunk hFresh hStream hBlock hHeader hCheck hBytes hSrc hCheck0 hBytes0 hValid hAddresses
    obtain ⟨hLook, hEarly, -⟩ := hFresh
    refine ⟨exec_prune_of_transp hTrunk hLook hEarly hStream hBlock hHeader hCheck hBytes hSrc hCheck0 hBytes0 hValid hAddresses, ?_⟩
    intro items hSquare hPass hSources hFit hLimit hItems
    have hMe : me s2 = me s := by simp only [s2, s1, me_filled]
    have hHere : SourcesHere s2 P (numOf b0) rb p src := fun k hk => by
      obtain ⟨hPlace, hHeld, hCode⟩ := hSources k hk
      exact ⟨hMe ▸ hPlace, by simpa only [s2, s1, localBytes_filled] using hHeld, hCode⟩
    have hTile := pruneTile_of_fit (s := s) (s2 := s2) (by simpa only [s2, s1, look_filled] using hLook) (hMe ▸ hEarly) (hMe ▸ hStream) hHere hFit
      hLimit (hMe ▸ hItems)
    rw [hMe] at hTile
    have hExec := exec_prune_of_checks hTrunk hLook hEarly hStream hBlock hHeader hCheck hBytes hSrc hCheck0 hBytes0 hValid hAddresses hSquare hPass
    refine ⟨_, hExec.trans (congrArg (finish s) hTile), ?_, me_putMe _ _⟩
    rw [filled_filled, filled_filled]
    exact onlyMe_filled _ _ _

end Sys2Proof.Machine
end

section
/-! SUPPORT. The index scratchpad: the elements that its syllables read, their write of a predicate, and the syllables (R211, R212, R360 to R362). -/

namespace Sys2Proof.Machine

/-! What an out-queue gives (R131). -/

theorem length_cutBits (w : Nat) : ∀ n x : Nat, (cutBits w n x).length = n
  | 0, _ => rfl
  | n + 1, x => by rw [cutBits, List.length_cons, length_cutBits w n]

/-- A read that succeeds gives the elements from `start` to VL − 1. -/
theorem length_qread {q r : List Group} {start vl w : Nat} {els : List (Nat × Bool)} (h : qread q start vl w = some (els, r)) :
    els.length = vl - start := by
  unfold qread at h
  dsimp only at h
  split at h
  next hNone =>
    cases h
    exact (Nat.sub_eq_zero_of_le hNone).symm
  · split at h
    · cases h
    · cases h
      simp only [List.length_zip, List.length_map, List.length_drop, length_cutBits, Nat.add_sub_cancel, Nat.min_self]

theorem length_visited (s : State) : (visited s).length = (me s).vl - startOf s := by simp [visited]

/-- The elements of an index syllable are those it visits, with their marks, keys and values. -/
theorem xels_eq {s : State} {keys : List (Nat × Bool)} (hLength : keys.length = (me s).vl - startOf s) (vals : List Nat) :
    xels (startOf s) keys vals = (visited s).map fun k =>
      (k, (keys.getD (k - startOf s) (0, false)).2, BitVec.ofNat 64 (keys.getD (k - startOf s) (0, false)).1, vals.getD (k - startOf s) 0) := by
  refine List.ext_getElem (by simp [xels, length_visited, hLength]) fun j hj _ => ?_
  have hKey : j < keys.length := by simpa [xels] using hj
  simp [xels, visited, wordOf, hKey]

/-! XINS and XACC (R212, R360). -/

/-- The strand that an index syllable leaves where `n` is the first index that it does not take. -/
def IndexForm.left (F : IndexForm) (st : Strand) (n : Nat) : Strand :=
  { F.used st with xents := F.ents, fflags := st.fflags ||| F.flags n }

/-- How XINS and XACC end: every element taken, a trim at the element that finds the partition full, or the fault of that element where it is the lowest
active one. `consume j` drops from the queues what the elements below j use up. -/
def indexOutcome (s : State) (F : IndexForm) (consume : Nat → Strand → Strand) : Out State :=
  match F.full with
  | none => .next (putMe s (F.left (me s) (me s).vl))
  | some (j, key) =>
    if j = F.lowest then finish s (partAt s (j, cIndexFull, key) (consume j))
    else .next (putMe s { F.left (me s) j with vl := j })

/-- The two syllables end as their form says. -/
theorem indexPut_eq {s : State} {o : XqOps} {w : Nat} {g : Nat → Option EA → EA} {fl : List Fp → FFlags} {F : IndexForm} {acc : Bool}
    {f : XKind → Nat → Option EA → EA} (hTrunk : (me s).trunk = false) (hForm : indexFormOf s o w g fl = some F)
    (hWidth : valWidth (me s).xkind acc = w) (hVal : f (me s).xkind = g)
    (hFlags : ∀ l, (if acc && (me s).xkind == .ea then nvSNaN l else 0) = fl l) (i : Instr) :
    indexPut s i o acc f = indexOutcome s F fun j st => dropBoth st o.q.toNat o.k.toNat (startOf s) j (me s).vl 64 w := by
  obtain ⟨⟨keys, r⟩, hKeys, hForm⟩ := Option.bind_eq_some_iff.1 hForm
  obtain ⟨⟨vals, r'⟩, hVals, rfl⟩ := Option.map_eq_some_iff.1 hForm
  have hEls := xels_eq (length_qread hKeys) (vals.map (·.1))
  simp only [getD_data] at hEls
  simp only [indexPut, vecOnly_of_strand hTrunk, hKeys, hWidth, hVals, hVal, hFlags, hEls, indexOutcome]
  cases (indexEls (partSize (me s).rec_.share) g _ (me s).xents).2 with
  | none => rfl
  | some x =>
    obtain ⟨j, key⟩ := x
    dsimp only
    split <;> rfl

theorem exec_of_indexForm {s : State} {i : Instr} {F : IndexForm} (hTrunk : (me s).trunk = false) (hForm : indexForm s i = some F) :
    ∃ consume : Nat → Strand → Strand, exec i s = indexOutcome s F consume ∧ ∀ j st, (consume j st).xents = st.xents := by
  have hDrop : ∀ (q k start j vl w v : Nat) (st : Strand), (dropBoth st q k start j vl w v).xents = st.xents := fun q k start j vl w v st => by
    unfold dropBoth
    split <;> rfl
  cases i with
  | xins o =>
    cases hKind : (me s).xkind <;> simp only [indexForm, hKind] at hForm
    all_goals exact ⟨_, indexPut_eq hTrunk hForm (by rw [hKind]; rfl) (by rw [hKind]; rfl) (fun _ => rfl) (.xins o), fun _ _ => hDrop ..⟩
  | xacc o =>
    cases hKind : (me s).xkind <;> simp only [indexForm, hKind] at hForm
    all_goals
      exact ⟨_, indexPut_eq hTrunk hForm (by rw [hKind]; rfl) (by rw [hKind]; rfl) (fun _ => by rw [hKind]; rfl) (.xacc o), fun _ _ => hDrop ..⟩
  | _ => cases hForm

/-! The write of a predicate (R121, R304). -/

/-- A number less one of its bits has that bit clear and every other as before. -/
theorem testBit_sub_and_two_pow : ∀ i v k : Nat, (v - (v &&& 2 ^ i)).testBit k = (v.testBit k && decide (k ≠ i))
  | 0, v, 0 => by
    have hLow : (v - v % 2) % 2 = 0 := by omega
    simp [Nat.testBit_zero, hLow]
  | 0, v, k + 1 => by
    have hHalf : (v - v % 2) / 2 = v / 2 := by omega
    simp [Nat.testBit_succ, hHalf]
  | i + 1, v, k => by
    have hHalf : (v &&& 2 ^ (i + 1)) / 2 = v / 2 &&& 2 ^ i := by
      rw [Nat.and_div_two, Nat.pow_succ, Nat.mul_div_cancel _ two_pos]
    have hEven : (v &&& 2 ^ (i + 1)) % 2 = 0 := by
      rw [← Nat.pow_one 2, Nat.and_mod_two_pow, Nat.pow_one, Nat.pow_succ, Nat.mul_mod_left, Nat.and_zero]
    have hLe : v &&& 2 ^ (i + 1) ≤ v := Nat.and_le_left
    cases k with
    | zero =>
      have hLow : (v - (v &&& 2 ^ (i + 1))) % 2 = v % 2 := by omega
      simp [Nat.testBit_zero, hLow]
    | succ k =>
      have hDiv : (v - (v &&& 2 ^ (i + 1))) / 2 = v / 2 - (v / 2 &&& 2 ^ i) := by omega
      rw [Nat.testBit_succ, hDiv, testBit_sub_and_two_pow i, Nat.testBit_succ]
      simp

/-- One write of `predSet`. -/
theorem testBit_writeBit (v i k : Nat) (b : Bool) :
    (if b then Nat.lor v (2 ^ i) else v - Nat.land v (2 ^ i)).testBit k = if k = i then b else v.testBit k := by
  cases b with
  | true =>
    have h := Nat.testBit_or v (2 ^ i) k
    rw [Nat.testBit_two_pow] at h
    rw [if_pos rfl]
    refine h.trans ?_
    by_cases hk : i = k
    · simp [hk]
    · simp [hk, Ne.symm hk]
  | false =>
    refine (testBit_sub_and_two_pow i v k).trans ?_
    by_cases hk : k = i <;> simp [hk]

/-- Writes at the indices of a list, each with the value of its index. -/
theorem testBit_writeBits (val : Nat → Bool) (k : Nat) : ∀ (l : List Nat) (v : Nat),
    ((l.map fun i => (i, val i)).foldl (fun (v : Nat) (i, b) => if b then Nat.lor v (2 ^ i) else v - Nat.land v (2 ^ i)) v).testBit k =
      if k ∈ l then val k else v.testBit k
  | [], v => by simp
  | i :: l, v => by
    rw [List.map_cons, List.foldl_cons, testBit_writeBits val k l, testBit_writeBit]
    by_cases hMem : k ∈ l
    · simp [hMem]
    · by_cases hHead : k = i <;> simp [hMem, hHead]

/-- The predicates after a write of the bits of some indices. -/
theorem predBit_predSet (st : Strand) (p q : BitVec 3) (l : List Nat) (val : Nat → Bool) {k : Nat} (hk : k < 16384) :
    predBit (predSet st q.toNat (l.map fun i => (i, val i))) p.toNat k =
      if p = q ∧ q ≠ 0 ∧ k ∈ l then val k else predBit st p.toNat k := by
  by_cases hZero : q = 0
  · subst hZero
    simp [predSet]
  have hNonzero : q.toNat ≠ 0 := fun h => hZero (BitVec.eq_of_toNat_eq h)
  simp only [predSet, if_neg hNonzero]
  by_cases hSame : p = q
  · subst hSame
    have hRead : ∀ v : BitVec 16384, (putAt 8 0 st.preds p.toNat v).getD p.toNat 0 = v := fun v => by
      rw [getD_putAt _ _ _ _ _ _ p.isLt, if_pos rfl]
    simp only [predBit, if_neg hNonzero, hRead, BitVec.getLsbD_ofNat, hk, decide_true, Bool.true_and, testBit_writeBits, ne_eq, hZero,
      not_false_eq_true, true_and, BitVec.testBit_toNat]
  · have hOther : p.toNat ≠ q.toNat := fun h => hSame (BitVec.eq_of_toNat_eq h)
    simp only [predBit, getD_putAt _ _ _ _ _ _ p.isLt, if_neg hOther, hSame, false_and, if_false]

theorem predsAfter_predSet {s : State} {st : Strand} (hPreds : st.preds = (me s).preds) (p : BitVec 3) (act val : Nat → Bool) :
    PredsAfter (me s) (predSet st p.toNat (((visited s).filter act).map fun k => (k, val k))) p
      (fun k => decide (startOf s ≤ k) && act k) val := by
  intro q k hk
  have hOld : predBit st q.toNat k = predBit (me s) q.toNat k := by simp only [predBit, hPreds]
  rw [predBit_predSet _ _ _ _ _ hk, hOld]
  refine if_congr (and_congr_right fun _ => and_congr_right fun _ => ?_) rfl rfl
  rw [List.mem_filter, mem_visited, Bool.and_eq_true, decide_eq_true_eq]
  tauto

/-- A write of a predicate changes no other field. -/
theorem predSet_preds (st : Strand) (p : Nat) (bits : List (Nat × Bool)) : { predSet st p bits with preds := st.preds } = st := by
  unfold predSet
  split <;> rfl

/-! XLOOK, XCLR and XDRAIN (R211, R212, R361, R362). -/

/-- What XLOOK finds for element k of the keys that it reads: nothing for an inactive one. -/
def foundEntry (s : State) (keys : List (Nat × Bool)) (k : Nat) : Option EA :=
  if (keys.getD (k - startOf s) (0, false)).2 then
    (findEntry (me s).xents (BitVec.ofNat 64 (keys.getD (k - startOf s) (0, false)).1)).map (·.val)
  else none

theorem valBits_eq (v : Option EA) : valBits v = (v.getD 0).toNat := by
  cases v with
  | none => exact BitVec.toNat_zero.symm
  | some x => rfl

theorem valWidth_eq (k : XKind) : valWidth k false = if k = .i64 then 64 else 2048 := by cases k <;> rfl

/-- The strand once XLOOK has consumed its keys and pushed what it finds. -/
def lookedUp (s : State) (o : XlookOps) (keys : List (Nat × Bool)) : Strand :=
  let st := dropAll (me s) o.q.toNat (startOf s) (me s).vl 64
  setIq st o.k.toNat (qpush (iqOf st o.k.toNat) (startOf s) (if (me s).xkind = .i64 then 64 else 2048)
    ((visited s).map fun k => (((foundEntry s keys k).getD 0).toNat, (keys.getD (k - startOf s) (0, false)).2)))

theorem exec_xlook {s : State} {o : XlookOps} {keys : List (Nat × Bool)} {r : List Group} (hTrunk : (me s).trunk = false)
    (hKeys : qread (oqOf (me s) o.q.toNat) (startOf s) (me s).vl 64 = some (keys, r)) :
    exec (.xlook o) s = .next (putMe s (predSet (lookedUp s o keys) o.p.toNat
      (((visited s).filter fun k => (keys.getD (k - startOf s) (0, false)).2).map fun k => (k, (foundEntry s keys k).isSome)))) := by
  simp only [exec, execXlook, vecOnly_of_strand hTrunk, hKeys, xels_eq (length_qread hKeys), List.map_map, List.filter_map, Function.comp_def,
    valBits_eq, valWidth_eq, finish]
  rfl

theorem exec_xclr {s : State} (hTrunk : (me s).trunk = false) (o : XclrOps) :
    exec (.xclr o) s = .next (putMe s { me s with xents := [], xkind := if o.i64 then .i64 else .ea }) := by
  simp only [exec, execXclr, vecOnly_of_strand hTrunk, finish]

/-- The strand once XDRAIN has pushed the keys and the values of its oldest entries, up to VL of them. -/
def drainedIndex (st : Strand) (o : XqOps) : Strand :=
  let vl := min st.vl st.xents.length
  let out := st.xents.take vl
  let st1 := setIq st o.q.toNat (qpush (iqOf st o.q.toNat) 0 64 (out.map fun e => (e.key.toNat, true)))
  { setIq st1 o.k.toNat (qpush (iqOf st1 o.k.toNat) 0 (if st.xkind = .i64 then 64 else 2048) (out.map fun e => (e.val.toNat, true))) with
    vl := vl, xents := st.xents.drop vl }

theorem exec_xdrain {s : State} (hTrunk : (me s).trunk = false) (o : XqOps) : exec (.xdrain o) s = .next (putMe s (drainedIndex (me s) o)) := by
  simp only [exec, execXdrain, vecOnly_of_strand hTrunk, valWidth_eq, finish]
  rfl

/-- Settles O38: XINS and XACC by the three ways in which `indexOutcome` ends, the others by their equations. -/
theorem indexScratchpad : Obligations.IndexScratchpad := by
  refine ⟨?_, ?_, ?_, ?_, fun o s hTrunk => ⟨_, exec_xclr hTrunk o, meBecomes_putMe _ _⟩,
    fun o s hTrunk => ⟨_, exec_xdrain hTrunk o, meBecomes_putMe _ _⟩⟩
  · intro i s F hForm hTrunk hFull
    obtain ⟨consume, hExec, -⟩ := exec_of_indexForm hTrunk hForm
    simp only [indexOutcome, hFull] at hExec
    exact ⟨_, hExec, meBecomes_putMe _ _⟩
  · intro i s F j key hForm hTrunk hFull hAbove
    obtain ⟨consume, hExec, -⟩ := exec_of_indexForm hTrunk hForm
    simp only [indexOutcome, hFull, if_neg hAbove] at hExec
    exact ⟨_, hExec, meBecomes_putMe _ _⟩
  · intro i s F j key hForm hTrunk hFull hLowest
    obtain ⟨consume, hExec, hEntries⟩ := exec_of_indexForm hTrunk hForm
    simp only [indexOutcome, hFull, if_pos hLowest, partAt, finish] at hExec
    refine ⟨_, hExec, ?_, ?_⟩
    · rw [me_putMe]
    · rw [me_putMe]
      exact hEntries j _
  · intro o s keys g hTrunk hKeys found st
    refine ⟨_, exec_xlook hTrunk hKeys, onlyMe_putMe _ _, ?_, ?_⟩
    · rw [me_putMe]
      exact predSet_preds (lookedUp s o keys) _ _
    · rw [me_putMe]
      exact predsAfter_predSet (st := lookedUp s o keys) rfl o.p (fun k => (keys.getD (k - startOf s) (0, false)).2)
        fun k => (foundEntry s keys k).isSome

end Sys2Proof.Machine
end

section
/-! SUPPORT. The token syllables (R235, R239 to R242, R382, R383). -/

namespace Sys2Proof.Machine

/-- A release within its die goes at once where the issue stream is empty, no copy is in progress and no failure is to be taken (R171, R416). -/
theorem makeWay_release {s : State} {a : Access} (hStream : streamOf (me s) = []) (hCopies : copying (me s) a.mark = false)
    (hLate : (me s).late = []) (hScope : a.dom = false) : makeWay s a = some s := by
  simp [makeWay, mayLeave, heldBy, hStream, hCopies, hLate, hScope]

theorem raceOf_tlb (s : State) (l : List TlbEntry) (c : Nat) : raceOf { s with tlb := l } c = raceOf s c := rfl
theorem streamOfN_tlb (s : State) (l : List TlbEntry) (n : Nat) : streamOfN { s with tlb := l } n = streamOfN s n := rfl

theorem streamOfN_putStream_ne (s : State) {n k : Nat} (x : Stream) (h : k ≠ n) : streamOfN (putStream s n x) k = streamOfN s k :=
  NMap.getD_set_ne _ _ _ _ _ h

section Tkemit

variable {s : State} {o : S3} (hCtx : (getS s o.sa).toNat < 64) (hNum : (getS s o.sb).toNat < 4096)
  (hOwnCtx : ownsCtx s (me s) (getS s o.sa).toNat = true) (hOwn : ownsStream s (me s) (getS s o.sb).toNat = true)
include hCtx hNum hOwnCtx hOwn

/-- TKEMIT on a context and a stream of the strand, at a token slot that passes its checks. -/
theorem exec_tkemit {p : Place} (hCheck : checkScalar s (me s) .store 4 (getS s o.sd) = .ok p) :
    let x := raceOf s (getS s o.sa).toNat
    let n := (getS s o.sb).toNat
    let a := mkAcc .ls p (getS s o.sd) 4 (.write (bytesOf 4 x.win)) true false false
    ∃ l, exec (.tkemit o) s = finish s
      (if x.st ≠ 3 || x.empty || !streamLive (streamOfN s n) then .ok (refuseStream { s with tlb := l } n)
       else match (makeWay { s with tlb := l } a).bind fun s2 => performAcc s2 s.cur a with
        | none => .wait (waitFor s a)
        | some s2 => .ok (emitToken s2 n x.win)) := by
  intro x n a
  obtain ⟨l, hFill⟩ := tlbFill_eq s (me s) (getS s o.sd)
  refine ⟨l, ?_⟩
  simp only [exec, execTkemit, Nat.not_le.2 hCtx, Nat.not_le.2 hNum, if_false, Nat.mod_eq_of_lt hCtx, Nat.mod_eq_of_lt hNum, hOwnCtx, hOwn,
    Bool.not_true, Bool.false_eq_true, withPlace, hCheck, hFill, raceOf_tlb, streamOfN_tlb] <;> rfl

end Tkemit

/-- The refusal of a stream counts an error there, and changes nothing else (R382). -/
theorem refuseStream_frame (s : State) (n : Nat) : { refuseStream s n with streams := s.streams } = s ∧
    streamOfN (refuseStream s n) n = { streamOfN s n with errors := (streamOfN s n).errors + 1 } ∧
    ∀ k, k ≠ n → streamOfN (refuseStream s n) k = streamOfN s k :=
  ⟨rfl, streamOfN_putStream _ _ _, fun _ hk => streamOfN_putStream_ne s _ hk⟩

/-- TKFLUSH on a stream of the strand. -/
theorem exec_tkflush {s : State} {o : S1a} (hNum : (getS s o.sa).toNat < 4096) (hOwn : ownsStream s (me s) (getS s o.sa).toNat = true) :
    exec (.tkflush o) s = .next (if streamLive (streamOfN s (getS s o.sa).toNat) then flushStream s (getS s o.sa).toNat
      else refuseStream s (getS s o.sa).toNat) := by
  simp only [exec, execTkflush, Nat.not_le.2 hNum, if_false, Nat.mod_eq_of_lt hNum, hOwn, Bool.not_true, Bool.false_eq_true]
  split <;> rfl

/-- Settles O44: a refused emission is a `refuseStream`, an accepted one a release that goes at once; the numbers are checked first. -/
theorem tokenSyllables : Obligations.TokenSyllables := by
  refine ⟨?_, ?_, ?_, ?_, fun o s hRange => ?_, fun o s hRange => ?_⟩
  · intro o s p hCtx hNum hOwnCtx hOwn hCheck x hRefused
    obtain ⟨l, hExec⟩ := exec_tkemit hCtx hNum hOwnCtx hOwn hCheck
    obtain ⟨hFrame, hErrors, hOthers⟩ := refuseStream_frame { s with tlb := l } (getS s o.sb).toNat
    refine ⟨_, hExec.trans (congrArg (finish s) (if_pos ?_)), congrArg (fun t : State => { t with tlb := s.tlb }) hFrame, hErrors, hOthers⟩
    simpa [or_assoc] using hRefused
  · intro o s loc home hCtx hNum hOwnCtx hOwn hStream hCopies hLate hCheck hFrame hBridge x hWon hFull hLive
    obtain ⟨l, hExec⟩ := exec_tkemit hCtx hNum hOwnCtx hOwn hCheck
    let a := mkAcc .ls (.mem loc home) (getS s o.sd) 4 (.write (bytesOf 4 x.win)) true false false
    have hWay : makeWay { s with tlb := l } a = some { s with tlb := l } := makeWay_release hStream hCopies hLate rfl
    have hWrite : performAcc { s with tlb := l } s.cur a =
        some { s with tlb := l, ord := performWrite s.ord (me s).die loc home (bytesOf 4 x.win) } :=
      performAcc_write (s := { s with tlb := l }) (a := a) rfl hBridge hFrame rfl
    refine ⟨{ s with tlb := l, ord := performWrite s.ord (me s).die loc home (bytesOf 4 x.win) }, hExec.trans ?_, rfl, rfl⟩
    rw [if_neg (by simp [x, hWon, hFull, hLive]), hWay, Option.bind_some, hWrite]
    rfl
  · intro o s hNum hOwn hLive
    rw [exec_tkflush hNum hOwn, if_pos hLive]
  · intro o s hNum hOwn hEnded
    exact ⟨_, (exec_tkflush hNum hOwn).trans (by rw [if_neg (by simp [hEnded])]), refuseStream_frame s _⟩
  · simp only [exec, execTkflush, hRange, if_true]
    rfl
  · simp only [exec, execTkemit, hRange, if_true]
    rfl

end Sys2Proof.Machine
end

section
/-! SUPPORT. What a race syllable leaves, and the race unit's control syllables (R215 to R222, R364 to R370, R374, R375). -/

namespace Sys2Proof.Machine

/-! What a race syllable leaves. -/

/-- The race unit has counted a race operation (R83). -/
def counted (s : State) : State := { s with raceOps := s.raceOps + 1 }

@[simp] theorem me_counted (s : State) : me (counted s) = me s := rfl
@[simp] theorem raceOf_counted (s : State) (c : Nat) : raceOf (counted s) c = raceOf s c := rfl
@[simp] theorem getS_counted (s : State) (r : BitVec 5) : getS (counted s) r = getS s r := rfl

@[simp] theorem raceOf_putMe (s : State) (st : Strand) (c : Nat) : raceOf (putMe s st) c = raceOf s c := rfl
@[simp] theorem me_putRace (s : State) (c : Nat) (x : RaceCtx) : me (putRace s c x) = me s := rfl

@[simp] theorem me_freshMe_counted (s : State) (c : Nat) : me (freshMe (counted s) c) = freshStrand0 s c := me_putMe _ _
@[simp] theorem raceOf_freshMe_counted (s : State) (c k : Nat) : raceOf (freshMe (counted s) c) k = raceOf s k := rfl
@[simp] theorem getS_freshMe_counted (s : State) (c : Nat) (r : BitVec 5) : getS (freshMe (counted s) c) r = getS s r := by
  rw [getS, me_freshMe_counted]
  rfl

namespace RaceAfter

variable {s t : State} {c : Nat} {x : RaceCtx} {st : Strand}

theorem counted (s : State) (c : Nat) : RaceAfter s (counted s) c (raceOf s c) (Machine.me s) :=
  ⟨rfl, rfl, rfl, fun _ _ => rfl, rfl, fun _ _ => rfl⟩

theorem me (h : RaceAfter s t c x st) : me t = st := by
  obtain ⟨-, -, -, -, hMe, -⟩ := h
  exact hMe

theorem ctx (h : RaceAfter s t c x st) : raceOf t c = x := by
  obtain ⟨-, -, hCtx, -⟩ := h
  exact hCtx

/-- The strand is the one that the state holds. -/
theorem self (h : RaceAfter s t c x st) : RaceAfter s t c x (Machine.me t) := h.me.symm ▸ h

theorem putMe (h : RaceAfter s t c x st) (st' : Strand) : RaceAfter s (putMe t st') c x st' := by
  obtain ⟨hFrame, hOps, hCtx, hCtxs, -, hStrands⟩ := h
  have hCur : t.cur = s.cur := by rw [← hFrame]
  exact ⟨hFrame, hOps, hCtx, hCtxs, me_putMe _ _, fun k hk => (strandOf_putMe_ne t k st' (hCur ▸ hk)).trans (hStrands k hk)⟩

theorem putRace (h : RaceAfter s t c x st) (x' : RaceCtx) : RaceAfter s (putRace t c x') c x' st := by
  obtain ⟨hFrame, hOps, -, hCtxs, hMe, hStrands⟩ := h
  exact ⟨hFrame, hOps, raceOf_putRace _ _ _, fun k hk => (raceOf_putRace_ne t x' hk).trans (hCtxs k hk), hMe, hStrands⟩

theorem setS (h : RaceAfter s t c x st) (r : BitVec 5) (v : Word) : RaceAfter s (setS t r v) c x (swrite st r.toNat v) :=
  h.me ▸ h.putMe (swrite (Machine.me t) r.toNat v)

theorem freshMe (s : State) (c : Nat) : RaceAfter s (freshMe (Machine.counted s) c) c (raceOf s c) (freshStrand0 s c) :=
  (RaceAfter.counted s c).putMe (freshStrand0 s c)

end RaceAfter

/-- A race syllable that passes the checks of its context, which no merge holds, is performed (R224, R364). -/
theorem withCtx_of_performs {s : State} {i : Instr} {ss : BitVec 5} {hi : Bool} {c : Nat} (hOperand : ctxOperand i = some (ss, hi))
    (h : Performs s i c) (k : Nat → State → Res) : withCtx s ss hi k = k c (counted s) := by
  obtain ⟨ss', hi', hOperand', hCtx, hOwn, hMerge⟩ := h
  cases hOperand.symm.trans hOperand'
  obtain ⟨hRange, hNum⟩ := Option.ite_none_right_eq_some.1 hCtx
  cases hNum
  simp only [withCtx, Nat.div_eq_of_lt hRange, ne_eq, not_true_eq_false, if_false, hOwn, Bool.not_true, Bool.false_eq_true, hMerge,
    Option.isSome_none]
  rfl

/-! RCINIT (R217, R367, R369). -/

/-- What the race unit forgets of the remote block is of its own strand; the candidate sets stay. -/
theorem freshBlock_frame (s : State) (c : Nat) : { freshBlock s c with strands := s.strands } = s ∧ (me (freshBlock s c)).race = (me s).race := by
  unfold freshBlock
  split
  · exact ⟨rfl, rfl⟩
  next st hSome =>
    refine ⟨rfl, ?_⟩
    by_cases hCur : s.cur = raceSid c
    · have hMe : me s = st := by rw [me, hCur, strandOf, NMap.getD, hSome]; rfl
      have hPut : ∀ y, me (putStrand s (raceSid c) y) = y := fun y => by
        rw [me, putStrand_cur, hCur, strandOf_putStrand_same]
      rw [hPut, hMe]
    · rw [me, putStrand_cur, strandOf_putStrand_ne _ _ _ _ hCur]
      rfl

theorem freshBlock_putRace_counted (s : State) (c : Nat) (x : RaceCtx) :
    freshBlock (putRace (counted s) c x) c = putRace (counted (freshBlock s c)) c x := by
  unfold freshBlock
  split <;> rename_i h
  · rw [show NMap.get? s.strands (raceSid c) = _ from h]
  · rw [show NMap.get? s.strands (raceSid c) = _ from h]
    rfl

/-- RCINIT that starts nothing, or starts the race. -/
theorem exec_rcinit {s : State} {o : RcinitOps} {c : Nat} (h : Performs s (.rcinit o) c) :
    let x := raceOf s c
    exec (.rcinit o) s = .next
      (if racing x = true ∨ getS s o.smask = 0 ∨ ((x.margin ≠ f32PosInf ∨ x.topk ≠ 0) ∧ multiRace x = true) then freshMe (counted s) c
       else freshMe (freshBlock (putRace (counted s) c (initRace x (getS s o.smask))) c) c) := by
  intro x
  simp only [exec, execRcinit, withCtx_of_performs rfl h, Bool.or_eq_true, Bool.and_eq_true, bne_iff_ne, decide_eq_true_eq, or_assoc]
  exact (apply_ite (finish s) _ _ _).trans (apply_ite Host.Outcome.next _ _ _).symm

theorem raceAfter_start (s : State) (c : Nat) (mask : Word) :
    let u := freshBlock s c
    RaceAfter u (freshMe (freshBlock (putRace (counted s) c (initRace (raceOf s c) mask)) c) c) c (initRace (raceOf s c) mask)
      { me u with race := freshBind (me s).race c ((raceOf s c).epoch + 1) } := by
  intro u
  have hAfter := ((RaceAfter.counted u c).putRace (initRace (raceOf s c) mask)).putMe
    { me u with race := freshBind (me u).race c ((raceOf s c).epoch + 1) }
  rw [(freshBlock_frame s c).2] at hAfter
  rw [freshBlock_putRace_counted, freshMe, raceOf_putRace, me_putRace, me_counted, (freshBlock_frame s c).2]
  exact hAfter

/-! RCNOISE (R370). -/

/-- The marks of an element-wise syllable stand at their own index. -/
theorem zipIdx_maskOf (st : Strand) (m : BitVec 3) : (maskOf st m).zipIdx = (List.range st.vl).map fun k => (predBit st m.toNat k, k) := by
  refine List.ext_getElem (by simp [maskOf]) fun j hj _ => ?_
  simp [maskOf]

theorem vdst_fflags (st : Strand) (f w : Nat) (els : List (Nat × Bool)) : (vdst st f w els).fflags = st.fflags := by
  unfold vdst
  split <;> rfl

/-- An element-wise syllable leaves what its form says (R304). -/
theorem velem_of_form {s : State} {F : ElemForm} {srcs : List (List Nat)} {st1 : Strand} {m : BitVec 3} (hFits : F.fits (me s) = true)
    (hAct : F.act = predBit (me s) m.toNat) (hSrcs : vsrcs (me s) F.srcs = some (srcs, st1)) (i : Instr) :
    velem s i F.srcs F.vd F.wd (maskOf (me s) m) F.res = .ok (putMe s (F.after (me s) st1 srcs)) := by
  obtain ⟨hIn, hOut⟩ := Bool.and_eq_true_iff.1 hFits
  simp only [velem, hIn, hOut, Bool.not_true, Bool.or_false, Bool.false_eq_true, if_false, hSrcs, zipIdx_maskOf, List.map_map, vdst_fflags,
    ElemForm.after, ElemForm.elems, hAct]
  rfl

/-- RCNOISE of a race: the noise of each token in its context. -/
def noiseForm (s : State) (o : RcvOps) (x : RaceCtx) : ElemForm :=
  { srcs := [(o.va.toNat, 32)], vd := o.vd.toNat, wd := 32, act := predBit (me s) o.m.toNat,
    res := fun _ l _ => (noise x.nkey0 x.nkey1 x.nctx (l.getD 0 0), 0) }

theorem exec_rcnoise {s : State} {o : RcvOps} {c : Nat} {srcs : List (List Nat)} {st1 : Strand} (hTrunk : (me s).trunk = false)
    (h : Performs s (.rcnoise o) c) (hFits : (noiseForm s o (raceOf s c)).fits (me s) = true)
    (hSrcs : vsrcs (freshStrand0 s c) (noiseForm s o (raceOf s c)).srcs = some (srcs, st1)) :
    exec (.rcnoise o) s = .next (putMe (freshMe (counted s) c) ((noiseForm s o (raceOf s c)).after (freshStrand0 s c) st1 srcs)) := by
  have hHead : ∀ l : List Nat, l.headD 0 = l.getD 0 0 := fun l => by cases l <;> rfl
  have hElems := velem_of_form (s := freshMe (counted s) c) (F := noiseForm s o (raceOf s c)) (m := o.m)
    (by rw [me_freshMe_counted]; exact hFits) (by rw [me_freshMe_counted]; rfl) (by rw [me_freshMe_counted]; exact hSrcs) (.rcnoise o)
  rw [me_freshMe_counted] at hElems
  simp only [exec, execRcnoise, vecOnly_of_strand hTrunk, withCtx_of_performs rfl h, hHead, me_freshMe_counted, raceOf_freshMe_counted]
  exact congrArg (finish s) hElems

/-! RCWAIT and RCREAD (R375). -/

theorem exec_rcwait_ended {s : State} {o : RcwaitOps} {c : Nat} (h : Performs s (.rcwait o) c) (hEnded : racing (raceOf s c) = false) :
    exec (.rcwait o) s = .next (freshMe (counted s) c) := by
  simp only [exec, execRcwait, withCtx_of_performs rfl h, raceOf_counted, hEnded, Bool.false_eq_true, if_false, finish]

theorem exec_rcread {s : State} {o : RcreadOps} {c : Nat} (h : Performs s (.rcread o) c) :
    exec (.rcread o) s = .next (setS (freshMe (counted s) c) o.sd (raceItem (raceOf s c) o.item.toNat)) := by
  simp only [exec, execRcread, withCtx_of_performs rfl h, raceOf_freshMe_counted, finish]

/-! RCSET (R216, R233, R366, R367, R374). -/

/-- RCSET of a selector that is a register, ABORT or BIND. -/
theorem exec_rcset {s : State} {o : RcsetOps} {c : Nat} (h : Performs s (.rcset o) c) :
    let s1 := freshMe (counted s) c
    exec (.rcset o) s = .next
      (if o.sel.toNat = 16 then abortBySet s1 c
       else if o.sel.toNat = 17 then
         if 64 ≤ (getS s o.sv).toNat then s1
         else putMe s1 { me s1 with race := { bound := true, ctx := c, shard := (getS s o.sv).toNat, tag := 0, cands := [] } }
       else if racing (raceOf s c) then s1
       else match setRaceReg (raceOf s c) o.sel.toNat (getS s o.sv) with
        | some x => putRace s1 c x
        | none => s1) := by
  intro s1
  obtain ⟨ss, hi, hOperand, -⟩ := id h
  obtain ⟨hSel, hSome⟩ := Option.ite_none_right_eq_some.1 hOperand
  have hCtx : ctxOperand (.rcset o) = some (o.ss, false) := if_pos hSel
  have hKnown : ¬((12 < o.sel.toNat && o.sel.toNat < 16) || 17 < o.sel.toNat) = true := by
    simp only [Bool.or_eq_true, Bool.and_eq_true, decide_eq_true_eq]
    omega
  simp only [exec, execRcset, if_neg hKnown, withCtx_of_performs hCtx h, getS_freshMe_counted, raceOf_freshMe_counted]
  split
  · rfl
  split
  · split <;> rfl
  split
  · rfl
  cases setRaceReg (raceOf s c) o.sel.toNat (getS s o.sv) <;> rfl

/-- RCSET ABORT of a context that hosts no race over several packages ends it with cause 1 (R233). -/
theorem abortBySet_of_single {s : State} {c : Nat} (hHosts : (raceOf s c).hosts = false) :
    abortBySet s c = if racing (raceOf s c) then putRace s c (abortRace (raceOf s c) 1) else s := by
  cases hRacing : racing (raceOf s c) <;> simp [abortBySet, hRacing, hHosts, abortCtx]

theorem abortRace_of_ended {x : RaceCtx} (h : racing x = false) (cause : Nat) : abortRace x cause = x := by
  simp [abortRace, h]

/-- What each register admits (R216, R374). -/
theorem setRaceReg_rules (x : RaceCtx) (w : Word) :
    setRaceReg x 0 w = some { x with nkey0 := w } ∧ setRaceReg x 1 w = some { x with nkey1 := w } ∧
    setRaceReg x 2 w = some { x with nctx := w } ∧
    (setRaceReg x 5 w = if w.toNat ≤ 64 then some { x with topk := w.toNat } else none) ∧
    (setRaceReg x 7 w = if w.toNat < 2 ^ 32 then some { x with nh := w.toNat } else none) ∧
    (setRaceReg x 8 w = if 1 ≤ w.toNat ∧ w.toNat ≤ 262144 then some { x with vocab := w.toNat } else none) ∧
    (setRaceReg x 9 w = if w.toNat % 2 = 0 then some { x with btab := w } else none) ∧
    (setRaceReg x 10 w = if w.toNat % 8 = 0 then some { x with atab := w } else none) ∧
    (setRaceReg x 12 w = if w.toNat % 64 = 0 then some { x with rblk := w } else none) := by
  refine ⟨rfl, rfl, rfl, rfl, rfl, ?_, rfl, rfl, rfl⟩
  simp only [setRaceReg, Bool.and_eq_true, decide_eq_true_eq]

/-- Settles O42: each syllable leaves its context and its strand on top of `freshMe`, by the rules of `RaceAfter`. -/
theorem raceControl : Obligations.RaceControl := by
  refine ⟨?_, ?_, ?_, ?_, ?_, ?_, ?_, setRaceReg_rules⟩
  · intro o s c h x
    refine ⟨_, exec_rcinit h, ?_⟩
    by_cases hIgnored : racing x = true ∨ getS s o.smask = 0 ∨ ((x.margin ≠ f32PosInf ∨ x.topk ≠ 0) ∧ multiRace x = true)
    · rw [if_pos hIgnored, if_pos hIgnored]
      exact RaceAfter.freshMe s c
    · rw [if_neg hIgnored, if_neg hIgnored]
      exact raceAfter_start s c (getS s o.smask)
  · intro o s c srcs st1 x st F hTrunk h hFits hSrcs
    exact ⟨_, exec_rcnoise hTrunk h hFits hSrcs, (RaceAfter.freshMe s c).putMe _⟩
  · intro o s c h hEnded
    exact ⟨_, exec_rcwait_ended h hEnded, RaceAfter.freshMe s c⟩
  · intro o s c h
    exact ⟨_, exec_rcread h, (RaceAfter.freshMe s c).setS _ _⟩
  · intro o s c h hSel x
    refine ⟨_, exec_rcset h, ?_⟩
    rw [if_neg (by omega), if_neg (by omega)]
    split
    · exact RaceAfter.freshMe s c
    · cases setRaceReg (raceOf s c) o.sel.toNat (getS s o.sv) with
      | none => exact RaceAfter.freshMe s c
      | some y => exact (RaceAfter.freshMe s c).putRace y
  · intro o s c h hSel
    refine ⟨_, exec_rcset h, ?_⟩
    rw [hSel, if_neg (by decide), if_pos (by decide)]
    by_cases hShard : (getS s o.sv).toNat < 64
    · rw [if_neg (Nat.not_le.2 hShard), if_pos hShard, me_freshMe_counted]
      exact (RaceAfter.freshMe s c).putMe _
    · rw [if_pos (Nat.not_lt.1 hShard), if_neg hShard]
      exact RaceAfter.freshMe s c
  · intro o s c h hSel hHosts
    refine ⟨_, exec_rcset h, ?_⟩
    rw [hSel, if_pos (by decide), abortBySet_of_single (s := freshMe (counted s) c) hHosts, raceOf_freshMe_counted]
    split
    · exact (RaceAfter.freshMe s c).putRace _
    next hEnded =>
      rw [abortRace_of_ended (Bool.eq_false_of_not_eq_true hEnded)]
      exact RaceAfter.freshMe s c

end Sys2Proof.Machine
end

section
/-! SUPPORT. The presentation of scores: RCBOUND, RCPICK, RCUPD and RCDROP (R219 to R231, R366, R367, R371 to R373). -/

namespace Sys2Proof.Machine

/-! Numbers in sorted lists. -/

theorem hasN_insertN_ne (l : List Nat) {n k : Nat} (h : k ≠ n) : hasN (insertN l n) k = hasN l k := by
  induction l with
  | nil => simp [insertN, hasN, h.symm]
  | cons j t ih =>
    unfold insertN
    split
    · simp [hasN, h.symm]
    · split
      · rfl
      · exact congrArg (j == k || ·) ih

/-! What presenting a coarse score leaves of the context (R224). -/

/-- What a later token of the same presentation meets of the context: its tables and whether it is ignored, for tokens other than `t`. -/
structure SameLookups (x x' : RaceCtx) (t : Nat) : Prop where
  vocab : x'.vocab = x.vocab
  btab : x'.btab = x.btab
  atab : x'.atab = x.atab
  bounded : ∀ u, u ≠ t → hasN x'.bounded u = hasN x.bounded u

theorem sameLookups_presentBound (x : RaceCtx) (t c eps : Nat) (a : Adjust) : SameLookups x (presentBound x t c eps a).1 t := by
  have hInsert : ∀ u, u ≠ t → hasN (insertN x.bounded t) u = hasN x.bounded u := fun u hu => hasN_insertN_ne _ hu
  unfold presentBound
  split
  · exact ⟨rfl, rfl, rfl, fun _ _ => rfl⟩
  dsimp only
  split
  · exact ⟨rfl, rfl, rfl, hInsert⟩
  split <;> exact ⟨rfl, rfl, rfl, hInsert⟩

theorem length_insCand (h t : Nat) (l : List (Nat × Nat)) : (insCand h t l).length = l.length + 1 := by
  induction l with
  | nil => rfl
  | cons x r ih =>
    unfold insCand
    split
    · rfl
    · simp [ih]

theorem presentOne_ctx (x : RaceCtx) (b : RaceBind) (e : RcEl) : (presentOne x b e).1 = (presentBound x e.t e.c e.eps e.adj).1 := by
  unfold presentOne
  split <;> simp [*]

/-- A presented element adds at most one candidate. -/
theorem length_presentOne_cands (x : RaceCtx) (b : RaceBind) (e : RcEl) : (presentOne x b e).2.1.cands.length ≤ b.cands.length + 1 := by
  unfold presentOne
  split
  · exact Nat.le_succ _
  · exact (length_insCand _ _ _).le

theorem ignored_of_sameLookups {x x' : RaceCtx} {t u : Nat} (h : SameLookups x x' t) (hu : u ≠ t) : ignored x' u = ignored x u := by
  rw [ignored, ignored, h.vocab, h.bounded u hu]

theorem tokenTables_of_sameLookups {x x' : RaceCtx} {t : Nat} (h : SameLookups x x' t) (s : State) (elem u : Nat) :
    tokenTables s x' elem u = tokenTables s x elem u := by
  unfold tokenTables
  rw [h.btab, h.atab]

/-- What RCBOUND looks up for an element: nothing for a token that the context ignores, else what the tables hold (R219, R221). -/
def Looked (s : State) (x : RaceCtx) (e : RcEl) : Prop :=
  if ignored x e.t then e.eps = 0 ∧ e.adj = Adjust.none else tokenTables s x e.i e.t = .ok e.eps e.adj s

theorem looked_of_sameLookups {s : State} {x x' : RaceCtx} {t : Nat} {e : RcEl} (h : SameLookups x x' t) (ht : e.t ≠ t) :
    Looked s x' e ↔ Looked s x e := by
  unfold Looked
  rw [ignored_of_sameLookups h ht, tokenTables_of_sameLookups h]

/-- A token that the context ignores is presented without effect. -/
theorem presentOne_of_ignored {x : RaceCtx} {e : RcEl} (h : ignored x e.t = true) (b : RaceBind) : presentOne x b e = (x, b, f32NegInf) := by
  have hBound : presentBound x e.t e.c e.eps e.adj = (x, none) := if_pos h
  simp only [presentOne, hBound]

/-- Where the candidate set has room, an element whose tables are readable is presented, and the visit goes on in the same state. -/
theorem visitEls_cons_of_looked {s : State} {x : RaceCtx} {b : RaceBind} {e : RcEl} {t0 : Nat} (hToken : e.t = t0 + e.i)
    (hRoom : b.cands.length < 4096) (hLooked : Looked s x e) (l : List (Nat × Nat)) :
    visitEls t0 s x b ((e.i, e.c) :: l) = RcEnd.cons e (visitEls t0 s (presentOne x b e).1 (presentOne x b e).2.1 l) := by
  have hIgnores : (decide (x.vocab ≤ e.t) || hasN x.bounded e.t) = ignored x e.t := rfl
  rw [visitEls, if_neg (Nat.not_le.2 hRoom), ← hToken, hIgnores]
  unfold Looked at hLooked
  cases hIgnored : ignored x e.t with
  | true =>
    rw [if_pos hIgnored] at hLooked
    obtain ⟨hEps, hAdj⟩ := hLooked
    rw [if_pos rfl, presentOne_of_ignored hIgnored, ← hEps, ← hAdj]
  | false =>
    rw [if_neg (by simp [hIgnored])] at hLooked
    rw [if_neg Bool.false_ne_true, hLooked]

/-- Elements of different tokens whose tables are readable, and for which the candidate set has room, are all visited, and the state stays (R371). -/
theorem visitEls_of_looked {s : State} {t0 : Nat} {els : List RcEl} {x : RaceCtx} {b : RaceBind} (hTokens : ∀ e ∈ els, e.t = t0 + e.i)
    (hDistinct : els.Pairwise fun e e' => e'.t ≠ e.t) (hLooked : ∀ e ∈ els, Looked s x e) (hRoom : b.cands.length + els.length ≤ 4096) :
    visitEls t0 s x b (els.map fun e => (e.i, e.c)) = .done els s := by
  induction els generalizing x b with
  | nil => rfl
  | cons e r ih =>
    obtain ⟨hNew, hDistinct⟩ := List.pairwise_cons.1 hDistinct
    obtain ⟨hToken, hTokens⟩ := List.forall_mem_cons.1 hTokens
    obtain ⟨hThis, hOthers⟩ := List.forall_mem_cons.1 hLooked
    have hSame : SameLookups x (presentOne x b e).1 e.t := presentOne_ctx x b e ▸ sameLookups_presentBound x e.t e.c e.eps e.adj
    have hGrow := length_presentOne_cands x b e
    rw [List.length_cons] at hRoom
    rw [List.map_cons, visitEls_cons_of_looked hToken (by omega) hThis,
      ih hTokens hDistinct (fun e' he => (looked_of_sameLookups hSame (hNew e' he)).2 (hOthers e' he)) (by omega), RcEnd.cons]

/-! The tables of a token (R219, R221). -/

/-- A strand that differs only in its binding to a race and in its in-queues. -/
def SameBut (st st' : Strand) : Prop := { st' with race := st.race, iq := st.iq } = st

theorem sameBut_update (st : Strand) (b : RaceBind) (q : List (List Group)) : SameBut st { st with race := b, iq := q } := rfl

theorem checkScalar_of_sameBut {s : State} {st : Strand} (h : SameBut (me s) st) (acc : Acc) (n : Nat) (va : Word) :
    checkScalar (putMe (counted s) st) st acc n va = checkScalar s (me s) acc n va := by
  rw [← h]
  rfl

theorem localBytes_of_sameBut {s : State} {st : Strand} (h : SameBut (me s) st) (p : Place) (n : Nat) :
    localBytes (putMe (counted s) st) p n = localBytes s p n := by
  have hDie : st.die = (me s).die := by rw [← h]; rfl
  cases p with
  | mem loc home =>
    simp only [localBytes, me_putMe, hDie]
    rfl
  | _ => rfl

section Tables

variable {s : State} {st : Strand} (hSame : SameBut (me s) st) (hFresh : Fresh s) (hStream : streamOf (me s) = [])
include hSame hFresh hStream

/-- A read of a table goes at once and changes nothing. -/
theorem tableRead_of_sameBut {p : Place} {b : List Byte} {va : Word} {n : Nat} (hCheck : checkScalar s (me s) .load n va = .ok p)
    (hBytes : localBytes s p n = some b) (elem : Nat) : tableRead (putMe (counted s) st) elem va n = .bytes b 0 (putMe (counted s) st) := by
  obtain ⟨hLook, hEarly, -⟩ := hFresh
  have hMe : me (putMe (counted s) st) = st := me_putMe _ _
  have hStream' : streamOf st = [] := by rw [← hStream, ← hSame]; rfl
  have hEarly' : st.early = [] := by rw [← hEarly, ← hSame]
  have hCheck' : checkScalar (putMe (counted s) st) (me (putMe (counted s) st)) .load n va = .ok p := by
    rw [hMe, checkScalar_of_sameBut hSame, hCheck]
  have hRead := readNow_local (putMe (counted s) st) elem (mkAcc .rc p va n .read false false false) b
    (makeWay_plain _ _ (hMe.symm ▸ hStream') rfl) hLook (hMe.symm ▸ hEarly') ((localBytes_of_sameBut hSame p n).trans hBytes)
  rw [tableRead, hCheck']
  cases p with
  | peer _ _ => cases hBytes
  | _ => exact hRead

theorem tokenTables_of_tabled {x : RaceCtx} {t eps : Nat} {a : Adjust} (hTabled : tabled s x t eps a) (elem : Nat) :
    tokenTables (putMe (counted s) st) x elem t = .ok eps a (putMe (counted s) st) := by
  obtain ⟨⟨p, b, hCheck, hBytes, rfl⟩, hAdjust⟩ := hTabled
  rw [tokenTables, show x.btab + wordOf (2 * t) = x.btab + BitVec.ofNat 64 (2 * t) from rfl,
    tableRead_of_sameBut hSame hFresh hStream hCheck hBytes]
  dsimp only
  by_cases hNone : x.atab = 0
  · rw [if_pos hNone] at hAdjust
    rw [if_pos hNone, hAdjust]
  · rw [if_neg hNone] at hAdjust
    obtain ⟨p, d, hCheck, hBytes, rfl⟩ := hAdjust
    rw [if_neg hNone, show x.atab + wordOf (8 * t) = x.atab + BitVec.ofNat 64 (8 * t) from rfl,
      tableRead_of_sameBut hSame hFresh hStream hCheck hBytes]

end Tables

/-! RCBOUND (R371). -/

theorem freshStrand0_vl (s : State) (c : Nat) : (freshStrand0 s c).vl = (me s).vl := rfl
theorem maskOf_freshStrand0 (s : State) (c : Nat) (m : BitVec 3) : maskOf (freshStrand0 s c) m = maskOf (me s) m := rfl
theorem fieldFits_freshStrand0 (s : State) (c f w : Nat) : fieldFits (freshStrand0 s c) f w = fieldFits (me s) f w := rfl

/-- A source gives VL elements, and takes them from an in-queue or leaves the strand as it is. -/
theorem vsrc_some {st st1 : Strand} {f w : Nat} {cs : List Nat} (h : vsrc st f w = some (cs, st1)) :
    cs.length = st.vl ∧ ∃ q, st1 = { st with iq := q } := by
  unfold vsrc vsrcN at h
  split at h
  · cases h
    exact ⟨by simp, st.iq, rfl⟩
  split at h
  · split at h
    · cases h
    next els q hRead =>
      cases h
      exact ⟨by simp [length_qread hRead], _, rfl⟩
  · cases h
    exact ⟨by simp, st.iq, rfl⟩

theorem sameBut_of_vsrc {s : State} {c f w : Nat} {cs : List Nat} {st1 : Strand} (h : vsrc (freshStrand0 s c) f w = some (cs, st1)) :
    SameBut (me s) st1 ∧ st1.race = (freshStrand0 s c).race := by
  obtain ⟨-, q, rfl⟩ := vsrc_some h
  exact ⟨sameBut_update (me s) (freshStrand0 s c).race q, rfl⟩

/-- The elements that RCBOUND visits. -/
theorem activeEls_eq {s : State} {cs : List Nat} (hLength : cs.length = (me s).vl) (m : BitVec 3) :
    ((cs.zipIdx.map fun (v, i) => (i, v)).filter fun e => (maskOf (me s) m).getD e.1 false && decide (startOf s ≤ e.1)) = boundEls s m cs := by
  have hPairs : (cs.zipIdx.map fun (v, i) => (i, v)) = (List.range (me s).vl).map fun k => (k, cs.getD k 0) := by
    refine List.ext_getElem (by simp [hLength]) fun j hj _ => ?_
    have hBelow : j < cs.length := by simpa using hj
    simp [hBelow]
  rw [hPairs, List.filter_map, boundEls]
  refine congrArg (List.map _) (List.filter_congr fun k hk => ?_)
  have hBelow : k < (me s).vl := List.mem_range.1 hk
  simp [maskOf, hBelow]

/-- The elements that RCBOUND presents to a race: an ignored token carries nothing of the tables, another what `tab` gives for its index. -/
def presentedEls (s : State) (o : RcvOps) (x : RaceCtx) (cs : List Nat) (tab : Nat → Nat × Adjust) : List RcEl :=
  let tok := fun k => (getS s o.ss).toNat / 2 ^ 32 + k
  (boundEls s o.m cs).map fun e =>
    { i := e.1, t := tok e.1, c := e.2, eps := if ignored x (tok e.1) then 0 else (tab e.1).1,
      adj := if ignored x (tok e.1) then Adjust.none else (tab e.1).2 }

theorem pairwise_boundEls (s : State) (m : BitVec 3) (cs : List Nat) : (boundEls s m cs).Pairwise fun e e' => e'.1 ≠ e.1 :=
  List.pairwise_map.2 ((List.nodup_range.filter _).imp fun h => Ne.symm h)

section Bound

variable {s : State} {o : RcvOps} {c : Nat} {cs : List Nat} {st1 : Strand} (hTrunk : (me s).trunk = false) (h : Performs s (.rcbound o) c)
  (hVa : fieldFits (me s) o.va.toNat 32 = true) (hVd : fieldFits (me s) o.vd.toNat 32 = true)
  (hSrc : vsrc (freshStrand0 s c) o.va.toNat 32 = some (cs, st1))
include hTrunk h hVa hVd hSrc

/-- RCBOUND in a context that has ended, or of a strand that is not bound to it. -/
theorem exec_rcbound_refused (hRefused : racing (raceOf s c) = false ∨ boundTo (freshStrand0 s c).race c = false) :
    exec (.rcbound o) s = .next (putMe (putMe (freshMe (counted s) c) st1)
      (rcWrite st1 o.vd.toNat (startOf s) (me s).vl ((boundEls s o.m cs).map fun e => (e.1, f32NegInf)))) := by
  have hOut : (!racing (raceOf s c) || !boundTo (freshStrand0 s c).race c) = true := by simpa using hRefused
  simp only [exec, execRcbound, vecOnly_of_strand hTrunk, withCtx_of_performs rfl h, me_freshMe_counted, fieldFits_freshStrand0, hVa, hVd,
    hSrc, raceOf_putMe, raceOf_freshMe_counted, hOut, maskOf_freshStrand0, freshStrand0_vl, activeEls_eq (vsrc_some hSrc).1,
    Bool.not_true, Bool.or_false, Bool.false_eq_true, if_false, if_true, finish]

/-- RCBOUND that presents every element it visits. -/
theorem exec_rcbound_done {l : List RcEl} (hRacing : racing (raceOf s c) = true) (hBound : boundTo (freshStrand0 s c).race c = true)
    (hVisit : visitEls ((getS s o.ss).toNat / 2 ^ 32) (putMe (freshMe (counted s) c) st1) (raceOf s c) st1.race (boundEls s o.m cs) =
      .done l (putMe (freshMe (counted s) c) st1)) :
    exec (.rcbound o) s = .next (rcApply (putMe (freshMe (counted s) c) st1) c o.vd.toNat (startOf s) (me s).vl l) := by
  simp only [exec, execRcbound, vecOnly_of_strand hTrunk, withCtx_of_performs rfl h, me_freshMe_counted, fieldFits_freshStrand0, hVa, hVd,
    hSrc, raceOf_putMe, raceOf_freshMe_counted, hRacing, hBound, maskOf_freshStrand0, freshStrand0_vl,
    activeEls_eq (vsrc_some hSrc).1, hVisit, Bool.not_true, Bool.or_false, Bool.false_eq_true, if_false, finish]

/-- In a running race of the strand, elements whose tables this package can read are presented in order. -/
theorem exec_rcbound_presents {tab : Nat → Nat × Adjust} (hFresh : Fresh s) (hStream : streamOf (me s) = [])
    (hRacing : racing (raceOf s c) = true) (hBound : boundTo (freshStrand0 s c).race c = true)
    (hRoom : (freshStrand0 s c).race.cands.length + (presentedEls s o (raceOf s c) cs tab).length ≤ 4096)
    (hTables : ∀ e ∈ presentedEls s o (raceOf s c) cs tab, ignored (raceOf s c) e.t = false → tabled s (raceOf s c) e.t e.eps e.adj) :
    exec (.rcbound o) s = .next (rcApply (putMe (freshMe (counted s) c) st1) c o.vd.toNat (startOf s) (me s).vl
      (presentedEls s o (raceOf s c) cs tab)) := by
  obtain ⟨hSame, hRace⟩ := sameBut_of_vsrc hSrc
  have hState : ∀ st, putMe (freshMe (counted s) c) st = putMe (counted s) st := fun st => putStrand_putStrand _ _ _ st
  have hPairs : boundEls s o.m cs = (presentedEls s o (raceOf s c) cs tab).map fun e => (e.i, e.c) := by
    simp [presentedEls, Function.comp_def]
  refine exec_rcbound_done hTrunk h hVa hVd hSrc hRacing hBound ?_
  rw [hState, hPairs]
  refine visitEls_of_looked (fun e he => ?_) ?_ (fun e he => ?_) (hRace ▸ hRoom)
  · obtain ⟨p, -, rfl⟩ := List.mem_map.1 he
    rfl
  · exact List.pairwise_map.2 ((pairwise_boundEls s o.m cs).imp fun h => by simpa using h)
  · unfold Looked
    split
    next hIgnored =>
      obtain ⟨p, -, rfl⟩ := List.mem_map.1 he
      exact ⟨if_pos hIgnored, if_pos hIgnored⟩
    next hRead => exact tokenTables_of_tabled hSame hFresh hStream (hTables e he (Bool.eq_false_of_not_eq_true hRead)) e.i

end Bound

/-! RCPICK (R372). -/

/-- RCPICK takes the best candidate, where the race runs, the strand is bound to it and a candidate is left. -/
theorem exec_rcpick {s : State} {o : RcpickOps} {c : Nat} (h : Performs s (.rcpick o) c) :
    exec (.rcpick o) s = .next
      (match racing (raceOf s c) && boundTo (freshStrand0 s c).race c, (freshStrand0 s c).race.cands with
       | true, e :: r => setS (putMe (freshMe (counted s) c) { freshStrand0 s c with race := { (freshStrand0 s c).race with cands := r } }) o.sd
          (BitVec.ofNat 64 e.2)
       | _, _ => setS (freshMe (counted s) c) o.sd 0xFFFFFFFFFFFFFFFF#64) := by
  simp only [exec, execRcpick, withCtx_of_performs rfl h, me_freshMe_counted, raceOf_freshMe_counted]
  cases racing (raceOf s c) <;> cases boundTo (freshStrand0 s c).race c
  case true.true => cases (freshStrand0 s c).race.cands <;> rfl
  all_goals rfl

/-! RCUPD (R225, R373). -/

/-! An exact logit does not change whether its context is part of a race over several packages. (`cases c` in these proofs keeps `simp` from taking the
equations as definitional ones, which the kernel would have to find again in the unfolded `updateLeader`.) -/

theorem multiRace_withLeader (c : RaceCtx) (k lo hi : Nat) : multiRace { c with leader := k, leadLo := lo, leadHi := hi } = multiRace c := by
  cases c; rfl
theorem multiRace_withLog (c : RaceCtx) (l : List LogRec) : multiRace { c with log := l } = multiRace c := by cases c; rfl
theorem multiRace_unTerms (c : RaceCtx) (lo hi : Nat) (sub : Bool) : multiRace (unTerms c lo hi sub) = multiRace c := by cases c; rfl
theorem multiRace_evTerms (c : RaceCtx) (lo hi : Nat) (sub : Bool) : multiRace (evTerms c lo hi sub) = multiRace c := by cases c; rfl

theorem multiRace_abortRace (c : RaceCtx) (cause : Nat) : multiRace (abortRace c cause) = multiRace c := by
  unfold abortRace
  split <;> rfl

theorem multiRace_foldLog (c : RaceCtx) (leader : Nat) : multiRace (foldLog c leader) = multiRace c := by
  unfold foldLog
  dsimp only
  split
  · rfl
  · refine (foldl_keeps multiRace _ (fun _ _ => ?_) _ _).trans ?_ <;> rfl

theorem multiRace_updateLeader (c : RaceCtx) (t l lp : Nat) (b : RaceBound) : multiRace (updateLeader c t l lp b) = multiRace c := by
  simp only [updateLeader, apply_ite multiRace, multiRace_unTerms, multiRace_evTerms, multiRace_abortRace, multiRace_withLog, multiRace_foldLog,
    multiRace_withLeader, ite_self]

theorem multiRace_updateA (c : RaceCtx) (t lp : Nat) : multiRace (updateA c t lp) = multiRace c := by
  unfold updateA
  dsimp only
  split <;> rfl

theorem multiRace_presentExact (c : RaceCtx) (t l x eps : Nat) (a : Adjust) : multiRace (presentExact c t l x eps a) = multiRace c := by
  unfold presentExact
  extract_lets b lp c1 c2
  have hRemoved : multiRace c2 = multiRace c := by
    unfold c2
    split <;> rfl
  split
  · split
    · rfl
    · exact multiRace_updateA c1 t lp
  · split
    · exact hRemoved
    · exact (multiRace_updateLeader c2 t l lp b).trans hRemoved

theorem putLeader_of_single {s : State} {x : RaceCtx} (h : multiRace x = false) (c : Nat) : putLeader s c x = putRace s c x := by
  simp [putLeader, h]

section Update

variable {s : State} {o : RcupdOps} {c : Nat} (h : Performs s (.rcupd o) c)
include h

/-- RCUPD of a token that the context does not take. -/
theorem exec_rcupd_ignored (hTakes : updTakes (raceOf s c) ((getS s o.st).toNat % 2 ^ 32) = false) :
    exec (.rcupd o) s = .next (freshMe (counted s) c) := by
  simp only [exec, execRcupd, withCtx_of_performs rfl h, raceOf_freshMe_counted, hTakes, Bool.not_false, if_true, finish]

/-- RCUPD in a race of one package, of a token whose tables this package can read. -/
theorem exec_rcupd_taken {eps : Nat} {a : Adjust} (hFresh : Fresh s) (hStream : streamOf (me s) = [])
    (hTakes : updTakes (raceOf s c) ((getS s o.st).toNat % 2 ^ 32) = true) (hSingle : multiRace (raceOf s c) = false)
    (hTabled : tabled s (raceOf s c) ((getS s o.st).toNat % 2 ^ 32) eps a) :
    let v := (getS s o.sv).toNat
    exec (.rcupd o) s = .next (addFlags (putRace (freshMe (counted s) c) c
      (presentExact (raceOf s c) ((getS s o.st).toNat % 2 ^ 32) (v % 2 ^ 32) (v / 2 ^ 32) eps a)) (raiseIf a.bad flNV)) := by
  have hSame : SameBut (me s) (freshStrand0 s c) := sameBut_update (me s) (freshStrand0 s c).race (me s).iq
  have hTables : tokenTables (freshMe (counted s) c) (raceOf s c) 0 ((getS s o.st).toNat % 2 ^ 32) = .ok eps a (freshMe (counted s) c) :=
    tokenTables_of_tabled hSame hFresh hStream hTabled 0
  simp only [exec, execRcupd, withCtx_of_performs rfl h, raceOf_freshMe_counted, hTakes, Bool.not_true, Bool.false_eq_true, if_false, hTables, finish,
    putLeader_of_single ((multiRace_presentExact _ _ _ _ _ _).trans hSingle)]

end Update

/-! RCDROP (R227, R230, R373). -/

/-- A write of every bit of a predicate; p0 stays (R121, R373). -/
theorem allPreds_predAll (st : Strand) (pd : BitVec 3) (v : Bool) : AllPreds st (predAll st pd.toNat v) pd v := by
  by_cases hZero : pd = 0
  · subst hZero
    exact ⟨rfl, fun p k _ => by simp [predAll]⟩
  have hNonzero : pd.toNat ≠ 0 := fun h => hZero (BitVec.eq_of_toNat_eq h)
  simp only [predAll, if_neg hNonzero]
  refine ⟨rfl, fun p k hk => ?_⟩
  by_cases hSame : p = pd
  · subst hSame
    simp only [predBit, if_neg hNonzero, getD_putAt _ _ _ _ _ _ p.isLt, if_true, ne_eq, hZero, not_false_eq_true, and_self]
    cases v with
    | true => rw [if_pos rfl, BitVec.getLsbD_allOnes, decide_eq_true hk]
    | false => rw [if_neg Bool.false_ne_true, BitVec.ofNat_eq_ofNat, BitVec.getLsbD_zero]
  · have hOther : p.toNat ≠ pd.toNat := fun h => hSame (BitVec.eq_of_toNat_eq h)
    simp only [predBit, getD_putAt _ _ _ _ _ _ p.isLt, if_neg hOther, hSame, false_and, if_false]

section Drop

variable {s : State} {o : RcdropOps} {c : Nat} (hTrunk : (me s).trunk = false) (h : Performs s (.rcdrop o) c)
include hTrunk h

/-- Where nothing is left to drop RCDROP reports true. -/
theorem exec_rcdrop_reports (hNothing : racing (raceOf s c) = false ∨ boundTo (freshStrand0 s c).race c = false ∨
    (raceOf s c).active &&& shardBit (freshStrand0 s c) = 0) :
    exec (.rcdrop o) s = .next (putMe (freshMe (counted s) c) (predAll (freshStrand0 s c) o.pd.toNat true)) := by
  simp only [exec, execRcdrop, vecOnly_of_strand hTrunk, ite_self, withCtx_of_performs rfl h, me_freshMe_counted, raceOf_freshMe_counted]
  rw [if_pos (by simpa [or_assoc] using hNothing)]
  rfl

/-- In a running race of one package the shard is dropped against the leader of its own context. -/
theorem exec_rcdrop_shard (hRacing : racing (raceOf s c) = true) (hBound : boundTo (freshStrand0 s c).race c = true)
    (hBit : (raceOf s c).active &&& shardBit (freshStrand0 s c) ≠ 0) (hSingle : multiRace (raceOf s c) = false) :
    exec (.rcdrop o) s = .next (dropShard (freshMe (counted s) c) c o.pd.toNat (raceOf s c).leader) := by
  simp only [exec, execRcdrop, vecOnly_of_strand hTrunk, ite_self, withCtx_of_performs rfl h, me_freshMe_counted, raceOf_freshMe_counted, hSingle]
  rw [if_neg (by simpa [hRacing, hBound] using hBit)]
  rfl

end Drop

/-- A race of one package whose ACTIVE has reached 0 enters phase B after phase A, and else resolves against its leader (R228, R230). -/
theorem raceAfter_activeEmpty {s t : State} {c : Nat} {x : RaceCtx} {st : Strand} (h : RaceAfter s t c x st) (hSingle : multiRace x = false) :
    RaceAfter s (activeEmpty t c) c (if x.st = 1 then enterPhaseB x else resolveRace x x.leader x.leadLo x.leadHi) st := by
  obtain ⟨hHosts, hMember⟩ := Bool.or_eq_false_iff.1 hSingle
  simp only [activeEmpty, h.ctx, hHosts, hMember, Bool.false_eq_true, if_false]
  split <;> exact h.putRace _

/-- A shard that the test does not drop stays; one that it drops clears its bit (R227). -/
theorem raceAfter_dropShard {s t : State} {c l : Nat} {x : RaceCtx} {st : Strand} {drops : Bool} {a : Word} (h : RaceAfter s t c x st)
    (hSingle : multiRace x = false) (hDrops : dropTest x (st.race.cands.head?.map (·.1)) l = drops) (hRest : x.active &&& ~~~(shardBit st) = a)
    (pd : BitVec 3) :
    RaceAfter s (dropShard t c pd.toNat l) c
      (if drops = false then x
       else if a ≠ 0 then { x with active := a }
       else if x.st = 1 then enterPhaseB { x with active := a } else resolveRace { x with active := a } x.leader x.leadLo x.leadHi)
      (predAll st pd.toNat drops) := by
  simp only [dropShard, h.me, h.ctx, hDrops, hRest]
  cases drops with
  | false => exact h.putMe _
  | true =>
    have hCleared := (h.putMe (predAll st pd.toNat true)).putRace { x with active := a }
    by_cases hLast : a = 0
    · subst hLast
      simp only [if_true, ne_eq, not_true_eq_false, if_false, Bool.true_eq_false]
      exact raceAfter_activeEmpty hCleared hSingle
    · simp only [hLast, if_true, ne_eq, not_false_eq_true, if_false, Bool.true_eq_false]
      exact hCleared

/-- Settles O43: the equation of each syllable, and the rules of `RaceAfter`. -/
theorem racePresentation : Obligations.RacePresentation := by
  refine ⟨?_, ?_, ?_, ?_, ?_, ?_, ?_⟩
  · intro o s c cs st1 st hTrunk h hVa hVd hSrc hRefused
    exact ⟨_, exec_rcbound_refused hTrunk h hVa hVd hSrc hRefused, ((RaceAfter.freshMe s c).putMe st1).putMe _⟩
  · intro o s c cs st1 tab st x tok els r hTrunk h hVa hVd hSrc hFresh hStream hRacing hBound hRoom hTables
    refine ⟨_, exec_rcbound_presents hTrunk h hVa hVd hSrc hFresh hStream hRacing hBound hRoom hTables, ?_⟩
    have hApply : rcApply (putMe (freshMe (counted s) c) st1) c o.vd.toNat (startOf s) (me s).vl els =
        putMe (putRace (putMe (freshMe (counted s) c) st1) c r.1)
          (rcWrite { st1 with race := r.2.1, fflags := st1.fflags ||| rcFlags els } o.vd.toNat (startOf s) (me s).vl r.2.2) := by
      rw [rcApply, me_putMe, (sameBut_of_vsrc hSrc).2]
      rfl
    exact hApply ▸ (((RaceAfter.freshMe s c).putMe st1).putRace r.1).putMe _
  · intro o s c h
    refine ⟨_, exec_rcpick h, ?_⟩
    cases racing (raceOf s c) && boundTo (freshStrand0 s c).race c with
    | false => exact (RaceAfter.freshMe s c).setS _ _
    | true =>
      cases (freshStrand0 s c).race.cands with
      | nil => exact (RaceAfter.freshMe s c).setS _ _
      | cons e r => exact ((RaceAfter.freshMe s c).putMe _).setS _ _
  · intro o s c h hTakes
    exact ⟨_, exec_rcupd_ignored h hTakes, RaceAfter.freshMe s c⟩
  · intro o s c eps a x tok v h hFresh hStream hTakes hSingle hTabled
    refine ⟨_, exec_rcupd_taken h hFresh hStream hTakes hSingle hTabled, ?_⟩
    rw [addFlags, me_putRace, me_freshMe_counted]
    exact ((RaceAfter.freshMe s c).putRace _).putMe _
  · intro o s c hTrunk h hRefused
    have hAfter := (RaceAfter.freshMe s c).putMe (predAll (freshStrand0 s c) o.pd.toNat true)
    refine ⟨_, exec_rcdrop_reports hTrunk h (hRefused.imp_right Or.inl), hAfter.self, ?_⟩
    rw [hAfter.me]
    exact allPreds_predAll _ _ _
  · intro o s c hTrunk h hRacing hBound hSingle x st bit drops a
    by_cases hBit : x.active &&& bit = 0
    · have hAfter := (RaceAfter.freshMe s c).putMe (predAll st o.pd.toNat true)
      refine ⟨_, exec_rcdrop_reports hTrunk h (.inr (.inr hBit)), ?_, ?_⟩
      · rw [hAfter.me, decide_eq_true hBit, Bool.true_or]
        exact allPreds_predAll _ _ _
      · rw [if_pos (.inl hBit)]
        exact hAfter.self
    · have hAfter := raceAfter_dropShard (l := x.leader) (RaceAfter.freshMe s c) hSingle rfl rfl o.pd
      refine ⟨_, exec_rcdrop_shard hTrunk h hRacing hBound hBit hSingle, ?_, ?_⟩
      · rw [hAfter.me, decide_eq_false hBit, Bool.false_or]
        exact allPreds_predAll _ _ _
      · simp only [hBit, false_or]
        exact hAfter.self

end Sys2Proof.Machine
end

section
/-! SUPPORT. The decoder reads back what the encoder wrote (R252 to R276): a word holds its operands in the places where its base has no bit, the
bits of the base alone decide which row of a major fits, and a form of operands gives them back. -/

namespace Sys2Proof

/-! Words assembled from operands. -/

/-- An operand in its place: a number of `len` bits from bit `lo` on, or a bit. -/
inductive Placed where
  | bits (lo : Nat) {len : Nat} (x : BitVec len)
  | bit (lo : Nat) (b : Bool)

namespace Placed

/-- The place of an operand: its lowest bit and its length. -/
def place : Placed → Nat × Nat
  | .bits lo (len := len) _ => (lo, len)
  | .bit lo _ => (lo, 1)

def val : Placed → Nat
  | .bits _ x => x.toNat
  | .bit _ b => b.toNat

/-- Whether the decoder reads the operand from a word. -/
def ReadsFrom (n : Nat) : Placed → Prop
  | .bits lo x => field n lo _ = x
  | .bit lo b => flag n lo = b

theorem val_lt (p : Placed) : p.val < 2 ^ p.place.2 := by
  cases p with
  | bits lo x => exact x.isLt
  | bit lo b => exact Bool.toNat_lt b

/-- An operand is read where the field at its place holds its value. -/
theorem readsFrom_of_field {n : Nat} {p : Placed} (h : n / 2 ^ p.place.1 % 2 ^ p.place.2 = p.val) : p.ReadsFrom n := by
  cases p with
  | bits lo x => exact BitVec.eq_of_toNat_eq ((BitVec.toNat_ofNat _ _).trans h)
  | bit lo b =>
    have hBit : n / 2 ^ lo % 2 = b.toNat := h
    cases b <;> simp [ReadsFrom, flag, hBit]

end Placed

/-- The word with the operands added to the base, as the encoder adds them. -/
def assemble (base : Nat) : List Placed → Nat
  | [] => base
  | p :: ps => assemble (base + p.val * 2 ^ p.place.1) ps

def apart (f g : Nat × Nat) : Bool := f.1 + f.2 ≤ g.1 || g.1 + g.2 ≤ f.1

/-- Whether the places lie below the major, apart from each other, where the base has no bit. -/
def room (base : Nat) : List (Nat × Nat) → Bool
  | [] => true
  | f :: t => (decide (f.1 + f.2 ≤ 26) && base / 2 ^ f.1 % 2 ^ f.2 == 0) && (t.all (apart f) && room base t)

/-- Whether a bit lies in one of the places. -/
def covers (l : List (Nat × Nat)) (k : Nat) : Bool := l.any fun f => decide (f.1 ≤ k) && decide (k < f.1 + f.2)

theorem testBit_add_field {n lo len v : Nat} (hn : n / 2 ^ lo % 2 ^ len = 0) (hv : v < 2 ^ len) (k : Nat) :
    (n + v * 2 ^ lo).testBit k = if lo ≤ k ∧ k < lo + len then v.testBit (k - lo) else n.testBit k := by
  have hLow : n % 2 ^ lo < 2 ^ lo := Nat.mod_lt _ (by positivity)
  have hn' : n = 2 ^ lo * (2 ^ len * (n / 2 ^ lo / 2 ^ len) + 0) + n % 2 ^ lo := by
    rw [← hn, Nat.div_add_mod, Nat.div_add_mod]
  have hSum : n + v * 2 ^ lo = 2 ^ lo * (2 ^ len * (n / 2 ^ lo / 2 ^ len) + v) + n % 2 ^ lo := by
    conv_lhs => rw [hn']
    ring
  rw [hSum]
  conv_rhs => rw [hn']
  simp only [Nat.testBit_two_pow_mul_add _ hLow, Nat.testBit_two_pow_mul_add _ hv,
    Nat.testBit_two_pow_mul_add _ (Nat.two_pow_pos len), Nat.zero_testBit]
  split_ifs <;> first | rfl | omega

theorem testBit_field (n lo len k : Nat) : (n / 2 ^ lo % 2 ^ len).testBit k = (decide (k < len) && n.testBit (lo + k)) := by
  rw [Nat.testBit_mod_two_pow, Nat.testBit_div_two_pow, Nat.add_comm]

/-- Two words with the same bits at a place hold the same field there. -/
theorem field_congr {n m lo len : Nat} (h : ∀ k, lo ≤ k → k < lo + len → n.testBit k = m.testBit k) :
    n / 2 ^ lo % 2 ^ len = m / 2 ^ lo % 2 ^ len := by
  refine Nat.eq_of_testBit_eq fun k => ?_
  rw [testBit_field, testBit_field]
  by_cases hk : k < len
  · rw [h (lo + k) (by omega) (by omega)]
  · simp [hk]

theorem field_add_field_same {n lo len v : Nat} (hn : n / 2 ^ lo % 2 ^ len = 0) (hv : v < 2 ^ len) :
    (n + v * 2 ^ lo) / 2 ^ lo % 2 ^ len = v := by
  refine Nat.eq_of_testBit_eq fun k => ?_
  rw [testBit_field, testBit_add_field hn hv]
  by_cases hk : k < len
  · simp [hk]
  · simp [hk, Nat.testBit_lt_two_pow (lt_of_lt_of_le hv (Nat.pow_le_pow_right (by decide) (not_lt.mp hk)))]

theorem field_add_field_apart {n lo len v : Nat} {g : Nat × Nat} (hn : n / 2 ^ lo % 2 ^ len = 0) (hv : v < 2 ^ len)
    (h : apart (lo, len) g = true) : (n + v * 2 ^ lo) / 2 ^ g.1 % 2 ^ g.2 = n / 2 ^ g.1 % 2 ^ g.2 := by
  refine field_congr fun k hk hk' => ?_
  rw [testBit_add_field hn hv, if_neg]
  simp only [apart, Bool.or_eq_true, decide_eq_true_eq] at h
  omega

theorem room_cons {base : Nat} {f : Nat × Nat} {t : List (Nat × Nat)} :
    room base (f :: t) = true ↔
      (f.1 + f.2 ≤ 26 ∧ base / 2 ^ f.1 % 2 ^ f.2 = 0) ∧ (∀ g ∈ t, apart f g = true) ∧ room base t = true := by
  simp [room]

/-- An operand leaves the room of the places apart from its own. -/
theorem room_add_field {n v : Nat} {f : Nat × Nat} {t : List (Nat × Nat)} (hn : n / 2 ^ f.1 % 2 ^ f.2 = 0) (hv : v < 2 ^ f.2)
    (hApart : ∀ g ∈ t, apart f g = true) (h : room n t = true) : room (n + v * 2 ^ f.1) t = true := by
  induction t with
  | nil => rfl
  | cons g t ih =>
    obtain ⟨⟨hTop, hFree⟩, hRest, hRoom⟩ := room_cons.mp h
    exact room_cons.mpr ⟨⟨hTop, (field_add_field_apart hn hv (hApart g (by simp))).trans hFree⟩, hRest,
      ih (fun x hx => hApart x (by simp [hx])) hRoom⟩

/-- Off the places, an assembled word has the bits of its base. -/
theorem testBit_assemble {ps : List Placed} {base k : Nat} (h : room base (ps.map Placed.place) = true)
    (hk : covers (ps.map Placed.place) k = false) : (assemble base ps).testBit k = base.testBit k := by
  induction ps generalizing base with
  | nil => rfl
  | cons p ps ih =>
    obtain ⟨⟨-, hFree⟩, hApart, hRoom⟩ := room_cons.mp h
    simp only [covers, List.map_cons, List.any_cons, Bool.or_eq_false_iff] at hk
    refine (ih (room_add_field hFree p.val_lt hApart hRoom) hk.2).trans ?_
    rw [testBit_add_field hFree p.val_lt, if_neg (by simpa using hk.1)]

/-- The decoder reads each operand back from the assembled word. -/
theorem readsFrom_assemble {ps : List Placed} {base : Nat} (h : room base (ps.map Placed.place) = true) :
    ∀ p ∈ ps, p.ReadsFrom (assemble base ps) := by
  induction ps generalizing base with
  | nil => simp
  | cons p ps ih =>
    obtain ⟨⟨-, hFree⟩, hApart, hRoom⟩ := room_cons.mp h
    have hRoom' := room_add_field hFree p.val_lt hApart hRoom
    refine List.forall_mem_cons.mpr ⟨Placed.readsFrom_of_field ?_, ih hRoom'⟩
    refine (field_congr fun k hLo hHi => testBit_assemble hRoom' ?_).trans (field_add_field_same hFree p.val_lt)
    simp only [covers, List.any_eq_false, Bool.and_eq_true, decide_eq_true_eq]
    intro g hg
    have := hApart g hg
    simp only [apart, Bool.or_eq_true, decide_eq_true_eq] at this
    omega

/-! The first row that the bits of the base decide. -/

/-- The bits of a list of places. -/
def placeBits (l : List (Nat × Nat)) : Nat := l.foldr (fun f m => (2 ^ f.2 - 1) <<< f.1 ||| m) 0

theorem testBit_placeBits (l : List (Nat × Nat)) (k : Nat) : (placeBits l).testBit k = covers l k := by
  induction l with
  | nil => simp [placeBits, covers]
  | cons f l ih =>
    simp only [placeBits, List.foldr_cons, covers, List.any_cons, Nat.testBit_or, Nat.testBit_shiftLeft, Nat.testBit_two_pow_sub_one]
    congr 1
    by_cases h : f.1 ≤ k <;> simp [h]
    omega

/-- Whether the base alone decides that a fixed field (lo, length, value) holds: no place lies in it. -/
def surelyHolds (open_ base : Nat) (f : Nat × Nat × Nat) : Bool :=
  open_ / 2 ^ f.1 % 2 ^ f.2.1 == 0 && base / 2 ^ f.1 % 2 ^ f.2.1 == f.2.2

/-- Whether the base alone decides that a fixed field does not hold: a bit outside of the places differs. -/
def surelyFails (open_ base : Nat) (f : Nat × Nat × Nat) : Bool :=
  (base / 2 ^ f.1 % 2 ^ f.2.1 ||| open_ / 2 ^ f.1) != (f.2.2 ||| open_ / 2 ^ f.1)

section
variable {l : List (Nat × Nat)} {base n : Nat} (hn : ∀ k, covers l k = false → n.testBit k = base.testBit k)
include hn

theorem field_of_surelyHolds {f : Nat × Nat × Nat} (h : surelyHolds (placeBits l) base f = true) :
    n / 2 ^ f.1 % 2 ^ f.2.1 = f.2.2 := by
  simp only [surelyHolds, Bool.and_eq_true, beq_iff_eq] at h
  obtain ⟨hOpen, hBase⟩ := h
  rw [← hBase]
  refine field_congr fun k hLo hHi => hn k ?_
  have hBit : (placeBits l / 2 ^ f.1 % 2 ^ f.2.1).testBit (k - f.1) = false := by rw [hOpen, Nat.zero_testBit]
  rwa [testBit_field, decide_eq_true (by omega), Bool.true_and, Nat.add_sub_cancel' hLo, testBit_placeBits] at hBit

theorem field_ne_of_surelyFails {f : Nat × Nat × Nat} (h : surelyFails (placeBits l) base f = true) :
    n / 2 ^ f.1 % 2 ^ f.2.1 ≠ f.2.2 := by
  intro hField
  refine (bne_iff_ne.mp h) (Nat.eq_of_testBit_eq fun k => ?_)
  rw [← hField, Nat.testBit_or, Nat.testBit_or, testBit_field, testBit_field, Nat.testBit_div_two_pow, Nat.add_comm k, testBit_placeBits]
  cases hk : covers l (f.1 + k) with
  | true => simp
  | false => rw [hn _ hk]

end

/-- The first row that fits, where the bits of the base and the fields `nonzero` (lo, length) decide each row before it. -/
def firstRow (nonzero : List (Nat × Nat)) (open_ base : Nat) : List Row → Option (Nat → Instr)
  | [] => none
  | r :: t =>
    bif r.fixed.all (surelyHolds open_ base) then some r.build
    else bif r.fixed.any fun f => surelyFails open_ base f || f.2.2 == 0 && nonzero.elem (f.1, f.2.1) then firstRow nonzero open_ base t
    else none

theorem fixedOk_iff (n : Nat) (l : List (Nat × Nat × Nat)) : fixedOk n l = true ↔ ∀ f ∈ l, n / 2 ^ f.1 % 2 ^ f.2.1 = f.2.2 := by
  induction l with
  | nil => simp [fixedOk]
  | cons f l ih =>
    obtain ⟨lo, len, v⟩ := f
    simp [fixedOk, ih]

theorem findRow_of_firstRow {l nonzero : List (Nat × Nat)} {base n : Nat} {rows : List Row} {b : Nat → Instr}
    (hn : ∀ k, covers l k = false → n.testBit k = base.testBit k) (hNe : ∀ f ∈ nonzero, n / 2 ^ f.1 % 2 ^ f.2 ≠ 0)
    (h : firstRow nonzero (placeBits l) base rows = some b) : findRow n rows = some (b n) := by
  induction rows with
  | nil => cases h
  | cons r t ih =>
    simp only [firstRow] at h
    cases hHolds : r.fixed.all (surelyHolds (placeBits l) base) with
    | true =>
      rw [hHolds, cond_true] at h
      obtain rfl := Option.some.inj h
      have hFits : fixedOk n r.fixed = true :=
        (fixedOk_iff n r.fixed).mpr fun f hf => field_of_surelyHolds hn (List.all_eq_true.mp hHolds f hf)
      rw [findRow, if_pos hFits]
    | false =>
      rw [hHolds, cond_false] at h
      cases hFails : r.fixed.any (fun f => surelyFails (placeBits l) base f || f.2.2 == 0 && nonzero.elem (f.1, f.2.1)) with
      | false => simp only [hFails, cond_false, reduceCtorEq] at h
      | true =>
        rw [hFails, cond_true] at h
        obtain ⟨f, hf, hFail⟩ := List.any_eq_true.mp hFails
        have hNot : ¬ fixedOk n r.fixed = true := by
          intro hFits
          have hField := (fixedOk_iff n r.fixed).mp hFits f hf
          rcases Bool.or_eq_true_iff.mp hFail with hBits | hZero
          · exact field_ne_of_surelyFails hn hBits hField
          · simp only [Bool.and_eq_true, beq_iff_eq, List.elem_eq_contains, List.contains_iff_mem] at hZero
            exact hNe _ hZero.2 (hField.trans hZero.1)
        rw [findRow, if_neg hNot, ih h]

/-! The operand forms. -/

/-- What a form of operands means for the decoder: over a base with room at its places, the encoder's word holds the base's bits elsewhere and gives
the operands back. -/
def Reads {α : Type} (dec : Nat → α) (enc : Nat → α → Nat) (l : List (Nat × Nat)) : Prop :=
  ∀ base o, room base l = true → dec (enc base o) = o ∧ ∀ k, covers l k = false → (enc base o).testBit k = base.testBit k

theorem Reads.of {α : Type} {dec : Nat → α} {enc : Nat → α → Nat} {l : List (Nat × Nat)} (ps : α → List Placed)
    (hDec : ∀ n o, (∀ p ∈ ps o, p.ReadsFrom n) → dec n = o) (hEnc : ∀ base o, enc base o = assemble base (ps o))
    (hPlaces : ∀ o, (ps o).map Placed.place = l) : Reads dec enc l := by
  intro base o hRoom
  rw [← hPlaces o] at hRoom ⊢
  rw [hEnc]
  exact ⟨hDec _ o (readsFrom_assemble hRoom), fun k hk => testBit_assemble hRoom hk⟩

theorem lt_26_of_covers {base k : Nat} {l : List (Nat × Nat)} (h : room base l = true) (hk : covers l k = true) : k < 26 := by
  induction l with
  | nil => cases hk
  | cons f l ih =>
    obtain ⟨⟨hTop, -⟩, -, hRoom⟩ := room_cons.mp h
    simp only [covers, List.any_cons, Bool.or_eq_true, Bool.and_eq_true, decide_eq_true_eq] at hk
    rcases hk with hHead | hTail
    · omega
    · exact ih hRoom hTail

/-- A syllable whose row the base decides decodes to itself. -/
theorem Reads.decodes_of_ne {α : Type} {dec : Nat → α} {enc : Nat → α → Nat} {l : List (Nat × Nat)} (h : Reads dec enc l)
    {nonzero : List (Nat × Nat)} {base w : Nat} {c : α → Instr} {o : α} (hRoom : (decide (base < 2 ^ 32) && room base l) = true)
    (hRow : firstRow nonzero (placeBits l) base (rowsOf (base / 2 ^ 26 % 64)) = some fun n => c (dec n)) (hwf : (c o).wf = true)
    (hWord : some (enc base o) = some w) (hNe : dec w = o → ∀ f ∈ nonzero, w / 2 ^ f.1 % 2 ^ f.2 ≠ 0) :
    w < 2 ^ 32 ∧ decodeSyllable w = .ok (c o) := by
  obtain ⟨hBase, hRoom⟩ := (Bool.and_eq_true_iff.mp hRoom).imp_left of_decide_eq_true
  obtain ⟨hDec, hBits⟩ := h base o hRoom
  rw [Option.some.inj hWord] at hDec hBits
  have hHigh : ∀ k, 26 ≤ k → w.testBit k = base.testBit k := fun k hk =>
    hBits k (Bool.eq_false_iff.mpr fun hCovers => absurd (lt_26_of_covers hRoom hCovers) (by omega))
  have hMajor : w / 2 ^ 26 % 64 = base / 2 ^ 26 % 64 := field_congr (len := 6) fun k hk _ => hHigh k hk
  refine ⟨Nat.lt_pow_two_of_testBit _ fun k hk => ?_, ?_⟩
  · rw [hHigh k (by omega)]
    exact Nat.testBit_lt_two_pow (lt_of_lt_of_le hBase (Nat.pow_le_pow_right (by decide) hk))
  · have hFound := findRow_of_firstRow hBits (hNe hDec) hRow
    rw [hDec] at hFound
    simp only [decodeSyllable, hMajor]
    cases hRows : rowsOf (base / 2 ^ 26 % 64) with
    | nil => rw [hRows] at hRow; cases hRow
    | cons r t =>
      rw [hRows] at hFound
      simp only [hFound, hwf, if_true]

theorem Reads.decodes {α : Type} {dec : Nat → α} {enc : Nat → α → Nat} {l : List (Nat × Nat)} (h : Reads dec enc l)
    {base w : Nat} {c : α → Instr} {o : α} (hRoom : (decide (base < 2 ^ 32) && room base l) = true)
    (hRow : firstRow [] (placeBits l) base (rowsOf (base / 2 ^ 26 % 64)) = some fun n => c (dec n)) (hwf : (c o).wf = true)
    (hWord : some (enc base o) = some w) : w < 2 ^ 32 ∧ decodeSyllable w = .ok (c o) :=
  h.decodes_of_ne hRoom hRow hwf hWord fun _ _ hf => absurd hf List.not_mem_nil

theorem readsS3 : Reads decS3 encS3 [(21, 5), (16, 5), (11, 5)] :=
  .of (fun o => [.bits 21 o.sd, .bits 16 o.sa, .bits 11 o.sb]) (fun _ _ h => by simp_all [decS3, Placed.ReadsFrom]) (fun _ _ => rfl) fun _ => rfl

theorem readsS2 : Reads decS2 encS2 [(21, 5), (16, 5)] :=
  .of (fun o => [.bits 21 o.sd, .bits 16 o.sa]) (fun _ _ h => by simp_all [decS2, Placed.ReadsFrom]) (fun _ _ => rfl) fun _ => rfl

theorem readsS1a : Reads decS1a encS1a [(16, 5)] :=
  .of (fun o => [.bits 16 o.sa]) (fun _ _ h => by simp_all [decS1a, Placed.ReadsFrom]) (fun _ _ => rfl) fun _ => rfl

theorem readsS1d : Reads decS1d encS1d [(21, 5)] :=
  .of (fun o => [.bits 21 o.sd]) (fun _ _ h => by simp_all [decS1d, Placed.ReadsFrom]) (fun _ _ => rfl) fun _ => rfl

theorem readsS2ab : Reads decS2ab encS2ab [(16, 5), (11, 5)] :=
  .of (fun o => [.bits 16 o.sa, .bits 11 o.sb]) (fun _ _ h => by simp_all [decS2ab, Placed.ReadsFrom]) (fun _ _ => rfl) fun _ => rfl

theorem readsIOps : Reads decIOps encIOps [(21, 5), (16, 5), (0, 16)] :=
  .of (fun o => [.bits 21 o.sd, .bits 16 o.sa, .bits 0 o.imm])
    (fun _ _ h => by simp_all [decIOps, Placed.ReadsFrom])
    (fun _ _ => by simp only [encIOps, assemble, Placed.val, Placed.place, pow_zero, mul_one]) fun _ => rfl

theorem readsUOps : Reads decUOps encUOps [(21, 5), (0, 16)] :=
  .of (fun o => [.bits 21 o.sd, .bits 0 o.imm])
    (fun _ _ h => by simp_all [decUOps, Placed.ReadsFrom])
    (fun _ _ => by simp only [encUOps, assemble, Placed.val, Placed.place, pow_zero, mul_one]) fun _ => rfl

theorem readsShOps : Reads decShOps encShOps [(21, 5), (16, 5), (10, 6)] :=
  .of (fun o => [.bits 21 o.sd, .bits 16 o.sa, .bits 10 o.off])
    (fun _ _ h => by simp_all [decShOps, Placed.ReadsFrom]) (fun _ _ => rfl) fun _ => rfl

theorem readsBfOps : Reads decBfOps encBfOps [(21, 5), (16, 5), (10, 6), (4, 6)] :=
  .of (fun o => [.bits 21 o.sd, .bits 16 o.sa, .bits 10 o.off, .bits 4 o.wid])
    (fun _ _ h => by simp_all [decBfOps, Placed.ReadsFrom]) (fun _ _ => rfl) fun _ => rfl

theorem readsBfrOps : Reads decBfrOps encBfrOps [(21, 5), (16, 5), (10, 6), (4, 5)] :=
  .of (fun o => [.bits 21 o.sd, .bits 16 o.sa, .bits 10 o.off, .bits 4 o.rw])
    (fun _ _ h => by simp_all [decBfrOps, Placed.ReadsFrom]) (fun _ _ => rfl) fun _ => rfl

theorem readsF3 : Reads decF3 encF3 [(21, 5), (16, 5), (11, 5), (4, 2)] :=
  .of (fun o => [.bits 21 o.sd, .bits 16 o.sa, .bits 11 o.sb, .bits 4 o.mode])
    (fun _ _ h => by simp_all [decF3, Placed.ReadsFrom]) (fun _ _ => rfl) fun _ => rfl

theorem readsFcmpOps : Reads decFcmpOps encFcmpOps [(21, 5), (16, 5), (11, 5), (6, 4)] :=
  .of (fun o => [.bits 21 o.sd, .bits 16 o.sa, .bits 11 o.sb, .bits 6 o.cond])
    (fun _ _ h => by simp_all [decFcmpOps, Placed.ReadsFrom]) (fun _ _ => rfl) fun _ => rfl

theorem readsFcvtOps : Reads decFcvtOps encFcvtOps [(21, 5), (16, 5), (6, 4), (4, 2)] :=
  .of (fun o => [.bits 21 o.sd, .bits 16 o.sa, .bits 6 o.conv, .bits 4 o.mode])
    (fun _ _ h => by simp_all [decFcvtOps, Placed.ReadsFrom]) (fun _ _ => rfl) fun _ => rfl

theorem readsF1 : Reads decF1 encF1 [(21, 5), (16, 5), (4, 2)] :=
  .of (fun o => [.bits 21 o.sd, .bits 16 o.sa, .bits 4 o.mode]) (fun _ _ h => by simp_all [decF1, Placed.ReadsFrom]) (fun _ _ => rfl) fun _ => rfl

theorem readsLOps : Reads decLOps encLOps [(21, 5), (16, 5), (13, 3), (0, 13)] :=
  .of (fun o => [.bits 21 o.sd, .bits 16 o.sa, .bits 13 o.sz, .bits 0 o.imm])
    (fun _ _ h => by simp_all [decLOps, Placed.ReadsFrom])
    (fun _ _ => by simp only [encLOps, assemble, Placed.val, Placed.place, pow_zero, mul_one]) fun _ => rfl

theorem readsAOps : Reads decAOps encAOps [(21, 5), (16, 5), (11, 5), (5, 2), (2, 3), (0, 1)] :=
  .of (fun o => [.bits 21 o.sd, .bits 16 o.sa, .bits 11 o.sb, .bits 5 o.ord, .bits 2 o.scope, .bit 0 o.dbl])
    (fun _ _ h => by simp_all [decAOps, Placed.ReadsFrom])
    (fun _ _ => by simp only [encAOps, assemble, Placed.val, Placed.place, pow_zero, mul_one]) fun _ => rfl

theorem readsAfOps : Reads decAfOps encAfOps [(21, 5), (16, 5), (11, 5), (5, 2), (2, 3)] :=
  .of (fun o => [.bits 21 o.sd, .bits 16 o.sa, .bits 11 o.sb, .bits 5 o.ord, .bits 2 o.scope])
    (fun _ _ h => by simp_all [decAfOps, Placed.ReadsFrom]) (fun _ _ => rfl) fun _ => rfl

theorem readsAeOps : Reads decAeOps encAeOps [(16, 5), (11, 2), (5, 2), (2, 3)] :=
  .of (fun o => [.bits 16 o.sa, .bits 11 o.ea, .bits 5 o.ord, .bits 2 o.scope])
    (fun _ _ h => by simp_all [decAeOps, Placed.ReadsFrom]) (fun _ _ => rfl) fun _ => rfl

theorem readsRedOps : Reads decRedOps encRedOps [(16, 5), (11, 5), (5, 2), (2, 3), (0, 1)] :=
  .of (fun o => [.bits 16 o.sa, .bits 11 o.sb, .bits 5 o.ord, .bits 2 o.scope, .bit 0 o.dbl])
    (fun _ _ h => by simp_all [decRedOps, Placed.ReadsFrom])
    (fun _ _ => by simp only [encRedOps, assemble, Placed.val, Placed.place, pow_zero, mul_one]) fun _ => rfl

theorem readsRedfOps : Reads decRedfOps encRedfOps [(16, 5), (11, 5), (5, 2), (2, 3)] :=
  .of (fun o => [.bits 16 o.sa, .bits 11 o.sb, .bits 5 o.ord, .bits 2 o.scope])
    (fun _ _ h => by simp_all [decRedfOps, Placed.ReadsFrom]) (fun _ _ => rfl) fun _ => rfl

theorem readsBOps : Reads decBOps encBOps [(21, 5), (16, 5), (0, 16)] :=
  .of (fun o => [.bits 21 o.sa, .bits 16 o.sb, .bits 0 o.off])
    (fun _ _ h => by simp_all [decBOps, Placed.ReadsFrom])
    (fun _ _ => by simp only [encBOps, assemble, Placed.val, Placed.place, pow_zero, mul_one]) fun _ => rfl

theorem readsJOps : Reads decJOps encJOps [(0, 21)] :=
  .of (fun o => [.bits 0 o.off])
    (fun _ _ h => by simp_all [decJOps, Placed.ReadsFrom])
    (fun _ _ => by simp only [encJOps, assemble, Placed.val, Placed.place, pow_zero, mul_one]) fun _ => rfl

theorem readsJalOps : Reads decJalOps encJalOps [(21, 5), (0, 21)] :=
  .of (fun o => [.bits 21 o.sd, .bits 0 o.off])
    (fun _ _ h => by simp_all [decJalOps, Placed.ReadsFrom])
    (fun _ _ => by simp only [encJalOps, assemble, Placed.val, Placed.place, pow_zero, mul_one]) fun _ => rfl

theorem readsRepfOps : Reads decRepfOps encRepfOps [(21, 5), (18, 3), (12, 6), (6, 6)] :=
  .of (fun o => [.bits 21 o.str, .bits 18 o.stg, .bits 12 o.rbase, .bits 6 o.rsize])
    (fun _ _ h => by simp_all [decRepfOps, Placed.ReadsFrom]) (fun _ _ => rfl) fun _ => rfl

theorem readsFenceOps : Reads decFenceOps encFenceOps [(7, 2), (4, 3)] :=
  .of (fun o => [.bits 7 o.kind, .bits 4 o.scope]) (fun _ _ h => by simp_all [decFenceOps, Placed.ReadsFrom]) (fun _ _ => rfl) fun _ => rfl

theorem readsFencexOps : Reads decFencexOps encFencexOps [(7, 3), (4, 3)] :=
  .of (fun o => [.bits 7 o.q, .bits 4 o.p]) (fun _ _ h => by simp_all [decFencexOps, Placed.ReadsFrom]) (fun _ _ => rfl) fun _ => rfl

theorem readsCwaitOps : Reads decCwaitOps encCwaitOps [(11, 8)] :=
  .of (fun o => [.bits 11 o.mask]) (fun _ _ h => by simp_all [decCwaitOps, Placed.ReadsFrom]) (fun _ _ => rfl) fun _ => rfl

theorem readsBarOps : Reads decBarOps encBarOps [(16, 5), (4, 3)] :=
  .of (fun o => [.bits 16 o.sa, .bits 4 o.scope]) (fun _ _ h => by simp_all [decBarOps, Placed.ReadsFrom]) (fun _ _ => rfl) fun _ => rfl

theorem readsSysrOps : Reads decSysrOps encSysrOps [(21, 5), (4, 7)] :=
  .of (fun o => [.bits 21 o.sd, .bits 4 o.reg]) (fun _ _ h => by simp_all [decSysrOps, Placed.ReadsFrom]) (fun _ _ => rfl) fun _ => rfl

theorem readsSyswOps : Reads decSyswOps encSyswOps [(16, 5), (4, 7)] :=
  .of (fun o => [.bits 16 o.sa, .bits 4 o.reg]) (fun _ _ h => by simp_all [decSyswOps, Placed.ReadsFrom]) (fun _ _ => rfl) fun _ => rfl

theorem readsVcfgOps : Reads decVcfgOps encVcfgOps [(6, 2), (3, 3)] :=
  .of (fun o => [.bits 6 o.wcode, .bits 3 o.ncode]) (fun _ _ h => by simp_all [decVcfgOps, Placed.ReadsFrom]) (fun _ _ => rfl) fun _ => rfl

theorem readsVsettOps : Reads decVsettOps encVsettOps [(8, 2), (4, 4), (3, 1)] :=
  .of (fun o => [.bits 8 o.mode, .bits 4 o.ty, .bit 3 o.slot])
    (fun _ _ h => by simp_all [decVsettOps, Placed.ReadsFrom]) (fun _ _ => rfl) fun _ => rfl

theorem readsV3 : Reads decV3 encV3 [(20, 6), (14, 6), (8, 6), (7, 1), (6, 1), (3, 3), (2, 1)] :=
  .of (fun o => [.bits 20 o.vd, .bits 14 o.va, .bits 8 o.vb, .bit 7 o.ca, .bit 6 o.cb, .bits 3 o.m, .bit 2 o.ts])
    (fun _ _ h => by simp_all [decV3, Placed.ReadsFrom]) (fun _ _ => rfl) fun _ => rfl

theorem readsV2 : Reads decV2 encV2 [(20, 6), (14, 6), (7, 1), (3, 3), (2, 1)] :=
  .of (fun o => [.bits 20 o.vd, .bits 14 o.va, .bit 7 o.ca, .bits 3 o.m, .bit 2 o.ts])
    (fun _ _ h => by simp_all [decV2, Placed.ReadsFrom]) (fun _ _ => rfl) fun _ => rfl

theorem readsV1 : Reads decV1 encV1 [(20, 6), (3, 3), (2, 1)] :=
  .of (fun o => [.bits 20 o.vd, .bits 3 o.m, .bit 2 o.ts]) (fun _ _ h => by simp_all [decV1, Placed.ReadsFrom]) (fun _ _ => rfl) fun _ => rfl

theorem readsVredOps : Reads decVredOps encVredOps [(20, 2), (14, 6), (7, 1), (3, 3), (2, 1)] :=
  .of (fun o => [.bits 20 o.ea, .bits 14 o.va, .bit 7 o.ca, .bits 3 o.m, .bit 2 o.ts])
    (fun _ _ h => by simp_all [decVredOps, Placed.ReadsFrom]) (fun _ _ => rfl) fun _ => rfl

theorem readsVdotOps : Reads decVdotOps encVdotOps [(20, 2), (14, 6), (8, 6), (7, 1), (6, 1), (3, 3), (2, 1)] :=
  .of (fun o => [.bits 20 o.ea, .bits 14 o.va, .bits 8 o.vb, .bit 7 o.ca, .bit 6 o.cb, .bits 3 o.m, .bit 2 o.ts])
    (fun _ _ h => by simp_all [decVdotOps, Placed.ReadsFrom]) (fun _ _ => rfl) fun _ => rfl

theorem readsVminOps : Reads decVminOps encVminOps [(20, 5), (14, 6), (7, 1), (3, 3), (2, 1)] :=
  .of (fun o => [.bits 20 o.sd, .bits 14 o.va, .bit 7 o.ca, .bits 3 o.m, .bit 2 o.ts])
    (fun _ _ h => by simp_all [decVminOps, Placed.ReadsFrom]) (fun _ _ => rfl) fun _ => rfl

theorem readsEa2 : Reads decEa2 encEa2 [(20, 2), (14, 2)] :=
  .of (fun o => [.bits 20 o.ed, .bits 14 o.es]) (fun _ _ h => by simp_all [decEa2, Placed.ReadsFrom]) (fun _ _ => rfl) fun _ => rfl

theorem readsEarndOps : Reads decEarndOps encEarndOps [(20, 5), (14, 2), (2, 1)] :=
  .of (fun o => [.bits 20 o.sd, .bits 14 o.ea, .bit 2 o.ts])
    (fun _ _ h => by simp_all [decEarndOps, Placed.ReadsFrom]) (fun _ _ => rfl) fun _ => rfl

theorem readsEaldOps : Reads decEaldOps encEaldOps [(20, 2), (14, 2)] :=
  .of (fun o => [.bits 20 o.ea, .bits 14 o.q]) (fun _ _ h => by simp_all [decEaldOps, Placed.ReadsFrom]) (fun _ _ => rfl) fun _ => rfl

theorem readsEastOps : Reads decEastOps encEastOps [(20, 2), (14, 2)] :=
  .of (fun o => [.bits 20 o.q, .bits 14 o.ea]) (fun _ _ h => by simp_all [decEastOps, Placed.ReadsFrom]) (fun _ _ => rfl) fun _ => rfl

theorem readsEa1 : Reads decEa1 encEa1 [(20, 2)] :=
  .of (fun o => [.bits 20 o.ea]) (fun _ _ h => by simp_all [decEa1, Placed.ReadsFrom]) (fun _ _ => rfl) fun _ => rfl

theorem readsVcmpOps : Reads decVcmpOps encVcmpOps [(23, 3), (20, 3), (14, 6), (8, 6), (7, 1), (6, 1), (3, 3), (2, 1)] :=
  .of (fun o => [.bits 23 o.cond, .bits 20 o.pd, .bits 14 o.va, .bits 8 o.vb, .bit 7 o.ca, .bit 6 o.cb, .bits 3 o.m, .bit 2 o.ts])
    (fun _ _ h => by simp_all [decVcmpOps, Placed.ReadsFrom]) (fun _ _ => rfl) fun _ => rfl

theorem readsP3 : Reads decP3 encP3 [(20, 3), (14, 3), (8, 3)] :=
  .of (fun o => [.bits 20 o.pd, .bits 14 o.pa, .bits 8 o.pb]) (fun _ _ h => by simp_all [decP3, Placed.ReadsFrom]) (fun _ _ => rfl) fun _ => rfl

theorem readsP2 : Reads decP2 encP2 [(20, 3), (14, 3)] :=
  .of (fun o => [.bits 20 o.pd, .bits 14 o.pa]) (fun _ _ h => by simp_all [decP2, Placed.ReadsFrom]) (fun _ _ => rfl) fun _ => rfl

theorem readsPs : Reads decPs encPs [(20, 5), (14, 3)] :=
  .of (fun o => [.bits 20 o.sd, .bits 14 o.pa]) (fun _ _ h => by simp_all [decPs, Placed.ReadsFrom]) (fun _ _ => rfl) fun _ => rfl

theorem readsVs3 : Reads decVs3 encVs3 [(20, 6), (14, 6), (9, 5), (8, 1), (5, 3), (4, 1)] :=
  .of (fun o => [.bits 20 o.vd, .bits 14 o.va, .bits 9 o.ss, .bit 8 o.ca, .bits 5 o.m, .bit 4 o.ts])
    (fun _ _ h => by simp_all [decVs3, Placed.ReadsFrom]) (fun _ _ => rfl) fun _ => rfl

theorem readsVs2 : Reads decVs2 encVs2 [(20, 6), (9, 5), (5, 3), (4, 1)] :=
  .of (fun o => [.bits 20 o.vd, .bits 9 o.ss, .bits 5 o.m, .bit 4 o.ts])
    (fun _ _ h => by simp_all [decVs2, Placed.ReadsFrom]) (fun _ _ => rfl) fun _ => rfl

theorem readsVscmpOps : Reads decVscmpOps encVscmpOps [(23, 3), (20, 3), (14, 6), (9, 5), (8, 1), (5, 3), (4, 1)] :=
  .of (fun o => [.bits 23 o.cond, .bits 20 o.pd, .bits 14 o.va, .bits 9 o.ss, .bit 8 o.ca, .bits 5 o.m, .bit 4 o.ts])
    (fun _ _ h => by simp_all [decVscmpOps, Placed.ReadsFrom]) (fun _ _ => rfl) fun _ => rfl

theorem readsVbqOps : Reads decVbqOps encVbqOps [(20, 6), (14, 6), (8, 4), (7, 1), (2, 1)] :=
  .of (fun o => [.bits 20 o.vd, .bits 14 o.va, .bits 8 o.fd, .bit 7 o.ca, .bit 2 o.ts])
    (fun _ _ h => by simp_all [decVbqOps, Placed.ReadsFrom]) (fun _ _ => rfl) fun _ => rfl

theorem readsFmtOps : Reads decFmtOps encFmtOps [(20, 4), (14, 5)] :=
  .of (fun o => [.bits 20 o.fd, .bits 14 o.sa]) (fun _ _ h => by simp_all [decFmtOps, Placed.ReadsFrom]) (fun _ _ => rfl) fun _ => rfl

theorem readsVmOps : Reads decVmOps encVmOps [(23, 2), (18, 5), (13, 5), (10, 2), (8, 2), (6, 1), (3, 3)] :=
  .of (fun o => [.bits 23 o.q, .bits 18 o.sa, .bits 13 o.sb, .bits 10 o.sz, .bits 8 o.ord, .bit 6 o.wait, .bits 3 o.tk])
    (fun _ _ h => by simp_all [decVmOps, Placed.ReadsFrom]) (fun _ _ => rfl) fun _ => rfl

theorem readsVxOps : Reads decVxOps encVxOps [(23, 2), (18, 5), (13, 2), (10, 2), (8, 2), (6, 2)] :=
  .of (fun o => [.bits 23 o.q, .bits 18 o.sa, .bits 13 o.ix, .bits 10 o.sz, .bits 8 o.ord, .bits 6 o.shift])
    (fun _ _ h => by simp_all [decVxOps, Placed.ReadsFrom]) (fun _ _ => rfl) fun _ => rfl

theorem readsVamoOps : Reads decVamoOps encVamoOps [(23, 2), (18, 5), (14, 4), (10, 1), (8, 2)] :=
  .of (fun o => [.bits 23 o.q, .bits 18 o.sa, .bits 14 o.aop, .bit 10 o.dbl, .bits 8 o.ord])
    (fun _ _ h => by simp_all [decVamoOps, Placed.ReadsFrom]) (fun _ _ => rfl) fun _ => rfl

theorem readsVscOps : Reads decVscOps encVscOps [(23, 2), (18, 5), (13, 5), (10, 2)] :=
  .of (fun o => [.bits 23 o.q, .bits 18 o.sa, .bits 13 o.sb, .bits 10 o.sz])
    (fun _ _ h => by simp_all [decVscOps, Placed.ReadsFrom]) (fun _ _ => rfl) fun _ => rfl

theorem readsRotOps : Reads decRotOps encRotOps [(23, 2), (18, 5), (13, 5), (8, 2)] :=
  .of (fun o => [.bits 23 o.q, .bits 18 o.sa, .bits 13 o.sb, .bits 8 o.ord])
    (fun _ _ h => by simp_all [decRotOps, Placed.ReadsFrom]) (fun _ _ => rfl) fun _ => rfl

theorem readsCopyOps : Reads decCopyOps encCopyOps [(18, 5), (13, 5), (10, 2), (9, 1), (3, 3)] :=
  .of (fun o => [.bits 18 o.sa, .bits 13 o.sb, .bits 10 o.sz, .bit 9 o.rel, .bits 3 o.tk])
    (fun _ _ h => by simp_all [decCopyOps, Placed.ReadsFrom]) (fun _ _ => rfl) fun _ => rfl

theorem readsGathOps : Reads decGathOps encGathOps [(23, 2), (18, 5), (13, 5), (10, 3), (9, 1), (6, 2), (3, 3)] :=
  .of (fun o => [.bits 23 o.q, .bits 18 o.sa, .bits 13 o.sb, .bits 10 o.sz, .bit 9 o.rel, .bits 6 o.scale, .bits 3 o.tk])
    (fun _ _ h => by simp_all [decGathOps, Placed.ReadsFrom]) (fun _ _ => rfl) fun _ => rfl

theorem readsXsendOps : Reads decXsendOps encXsendOps [(18, 5), (13, 5), (10, 2), (9, 1)] :=
  .of (fun o => [.bits 18 o.sa, .bits 13 o.sb, .bits 10 o.sz, .bit 9 o.rel])
    (fun _ _ h => by simp_all [decXsendOps, Placed.ReadsFrom]) (fun _ _ => rfl) fun _ => rfl

theorem readsXqOps : Reads decXqOps encXqOps [(23, 2), (13, 2)] :=
  .of (fun o => [.bits 23 o.q, .bits 13 o.k]) (fun _ _ h => by simp_all [decXqOps, Placed.ReadsFrom]) (fun _ _ => rfl) fun _ => rfl

theorem readsXlookOps : Reads decXlookOps encXlookOps [(23, 2), (18, 3), (13, 2)] :=
  .of (fun o => [.bits 23 o.q, .bits 18 o.p, .bits 13 o.k]) (fun _ _ h => by simp_all [decXlookOps, Placed.ReadsFrom]) (fun _ _ => rfl) fun _ => rfl

theorem readsXclrOps : Reads decXclrOps encXclrOps [(10, 1)] :=
  .of (fun o => [.bit 10 o.i64]) (fun _ _ h => by simp_all [decXclrOps, Placed.ReadsFrom]) (fun _ _ => rfl) fun _ => rfl

theorem readsVmAb : Reads decVmAb encVmAb [(18, 5), (13, 5)] :=
  .of (fun o => [.bits 18 o.sa, .bits 13 o.sb]) (fun _ _ h => by simp_all [decVmAb, Placed.ReadsFrom]) (fun _ _ => rfl) fun _ => rfl

theorem readsMxldsOps : Reads decMxldsOps encMxldsOps [(16, 5), (3, 2)] :=
  .of (fun o => [.bits 16 o.sa, .bits 3 o.q]) (fun _ _ h => by simp_all [decMxldsOps, Placed.ReadsFrom]) (fun _ _ => rfl) fun _ => rfl

theorem readsMxstrmOps : Reads decMxstrmOps encMxstrmOps [(16, 5), (11, 5), (3, 2)] :=
  .of (fun o => [.bits 16 o.sa, .bits 11 o.sb, .bits 3 o.q])
    (fun _ _ h => by simp_all [decMxstrmOps, Placed.ReadsFrom]) (fun _ _ => rfl) fun _ => rfl

theorem readsMxdrainOps : Reads decMxdrainOps encMxdrainOps [(16, 5), (11, 5), (5, 1), (3, 2)] :=
  .of (fun o => [.bits 16 o.sa, .bits 11 o.sb, .bit 5 o.slot, .bits 3 o.q])
    (fun _ _ h => by simp_all [decMxdrainOps, Placed.ReadsFrom]) (fun _ _ => rfl) fun _ => rfl

theorem readsRcinitOps : Reads decRcinitOps encRcinitOps [(14, 5), (9, 5)] :=
  .of (fun o => [.bits 14 o.smask, .bits 9 o.ss]) (fun _ _ h => by simp_all [decRcinitOps, Placed.ReadsFrom]) (fun _ _ => rfl) fun _ => rfl

theorem readsRcvOps : Reads decRcvOps encRcvOps [(20, 6), (14, 6), (9, 5), (8, 1), (5, 3)] :=
  .of (fun o => [.bits 20 o.vd, .bits 14 o.va, .bits 9 o.ss, .bit 8 o.ca, .bits 5 o.m])
    (fun _ _ h => by simp_all [decRcvOps, Placed.ReadsFrom]) (fun _ _ => rfl) fun _ => rfl

theorem readsRcpickOps : Reads decRcpickOps encRcpickOps [(20, 5), (9, 5)] :=
  .of (fun o => [.bits 20 o.sd, .bits 9 o.ss]) (fun _ _ h => by simp_all [decRcpickOps, Placed.ReadsFrom]) (fun _ _ => rfl) fun _ => rfl

theorem readsRcupdOps : Reads decRcupdOps encRcupdOps [(20, 5), (14, 5), (9, 5)] :=
  .of (fun o => [.bits 20 o.st, .bits 14 o.sv, .bits 9 o.ss])
    (fun _ _ h => by simp_all [decRcupdOps, Placed.ReadsFrom]) (fun _ _ => rfl) fun _ => rfl

theorem readsRcdropOps : Reads decRcdropOps encRcdropOps [(20, 3), (9, 5)] :=
  .of (fun o => [.bits 20 o.pd, .bits 9 o.ss]) (fun _ _ h => by simp_all [decRcdropOps, Placed.ReadsFrom]) (fun _ _ => rfl) fun _ => rfl

theorem readsRcwaitOps : Reads decRcwaitOps encRcwaitOps [(9, 5)] :=
  .of (fun o => [.bits 9 o.ss]) (fun _ _ h => by simp_all [decRcwaitOps, Placed.ReadsFrom]) (fun _ _ => rfl) fun _ => rfl

theorem readsRcreadOps : Reads decRcreadOps encRcreadOps [(20, 5), (14, 2), (9, 5)] :=
  .of (fun o => [.bits 20 o.sd, .bits 14 o.item, .bits 9 o.ss])
    (fun _ _ h => by simp_all [decRcreadOps, Placed.ReadsFrom]) (fun _ _ => rfl) fun _ => rfl

theorem readsRcsetOps : Reads decRcsetOps encRcsetOps [(20, 5), (14, 5), (9, 5)] :=
  .of (fun o => [.bits 20 o.sel, .bits 14 o.sv, .bits 9 o.ss])
    (fun _ _ h => by simp_all [decRcsetOps, Placed.ReadsFrom]) (fun _ _ => rfl) fun _ => rfl

/-! The syllables. -/

theorem field_ne_zero {n lo len : Nat} {x : BitVec len} (h : field n lo len = x) (hx : x ≠ 0) : n / 2 ^ lo % 2 ^ len ≠ 0 := fun hZero =>
  hx (h ▸ BitVec.eq_of_toNat_eq ((BitVec.toNat_ofNat _ _).trans hZero))

/-- The rows of the RED forms come before those of the AMO forms, whose destination is not s0 (R265). -/
theorem decode_of_encode (i : Instr) (w : Nat) (hwf : i.wf = true) (hWord : encodeNat i = some w) :
    w < 2 ^ 32 ∧ decodeSyllable w = .ok i := by
  cases i with
  | add o | sub o | mul o | mulh o | mulhn o | div o | divn o | rem o | remn o | and o | or o | xor o | sll o | srl o | sra o | slt o | sltn o
    | min o | max o | minn o | maxn o | sel o | fmin o | fmax o | launch o | cancel o | clredEa o | clredI64 o | clredF32max o | clredF32min o
    | clbcast o | clargmax o | tkemit o => exact readsS3.decodes rfl rfl hwf hWord
  | clz o | ctz o | popc o | vsetl o | mxatt o => exact readsS2.decodes rfl rfl hwf hWord
  | addi o | andi o | ori o | xori o | slti o | sltin o | jalr o => exact readsIOps.decodes rfl rfl hwf hWord
  | lui o | addpc o => exact readsUOps.decodes rfl rfl hwf hWord
  | sllImm o | srlImm o | sraImm o => exact readsShOps.decodes rfl rfl hwf hWord
  | bfx o | bfxn o | bfi o => exact readsBfOps.decodes rfl rfl hwf hWord
  | bfxReg o | bfxnReg o | bfiReg o => exact readsBfrOps.decodes rfl rfl hwf hWord
  | fadd o | fsub o | fmul o | ffma o => exact readsF3.decodes rfl rfl hwf hWord
  | fcmp o => exact readsFcmpOps.decodes rfl rfl hwf hWord
  | fcvt o => exact readsFcvtOps.decodes rfl rfl hwf hWord
  | fsqrt o => exact readsF1.decodes rfl rfl hwf hWord
  | ld o | st o => exact readsLOps.decodes rfl rfl hwf hWord
  | amoadd o | amoswap o | amocas o | amoand o | amoor o | amoxor o | amomax o | amomin o | amomaxn o | amominn o =>
    exact readsAOps.decodes_of_ne (nonzero := [(21, 5)]) rfl rfl hwf hWord fun h => List.forall_mem_singleton.mpr
      (field_ne_zero (congrArg AOps.sd h) (bne_iff_ne.mp (Bool.and_eq_true_iff.mp hwf).2))
  | amoaddF32 o | amomaxF32 o | amominF32 o =>
    exact readsAfOps.decodes_of_ne (nonzero := [(21, 5)]) rfl rfl hwf hWord fun h => List.forall_mem_singleton.mpr
      (field_ne_zero (congrArg AfOps.sd h) (bne_iff_ne.mp (Bool.and_eq_true_iff.mp hwf).2))
  | amoea o => exact readsAeOps.decodes rfl rfl hwf hWord
  | redadd o | redswap o | redand o | redor o | redxor o | redmax o | redmin o | redmaxn o | redminn o => exact readsRedOps.decodes rfl rfl hwf hWord
  | redaddF32 o | redmaxF32 o | redminF32 o => exact readsRedfOps.decodes rfl rfl hwf hWord
  | beq o | bne o | blt o | bge o | bltn o | bgen o => exact readsBOps.decodes rfl rfl hwf hWord
  | j o => exact readsJOps.decodes rfl rfl hwf hWord
  | jal o => exact readsJalOps.decodes rfl rfl hwf hWord
  | repf o => exact readsRepfOps.decodes rfl rfl hwf hWord
  | fence o => exact readsFenceOps.decodes rfl rfl hwf hWord
  | fencex o => exact readsFencexOps.decodes rfl rfl hwf hWord
  | cwait o => exact readsCwaitOps.decodes rfl rfl hwf hWord
  | waitsw o | trmark o | mxclr o => exact readsS2ab.decodes rfl rfl hwf hWord
  | bar o => exact readsBarOps.decodes rfl rfl hwf hWord
  | trap o | done o | tkflush o => exact readsS1a.decodes rfl rfl hwf hWord
  | sysr o => exact readsSysrOps.decodes rfl rfl hwf hWord
  | sysw o => exact readsSyswOps.decodes rfl rfl hwf hWord
  | vcfg o => exact readsVcfgOps.decodes rfl rfl hwf hWord
  | vgetl o | mxstat o => exact readsS1d.decodes rfl rfl hwf hWord
  | vsett o => exact readsVsettOps.decodes rfl rfl hwf hWord
  | vadd o | vsub o | vmul o | vmulh o | vmin o | vmax o | vabsd o | vsadd o | vand o | vor o | vxor o | vssub o | vsll o | vsrl o | vsra o
    | vfadd o | vfsub o | vfmul o | vffma o | vfmin o | vfmax o | vfdiv o | vfscl o | vscan o | vperm o | vsel o =>
    exact readsV3.decodes rfl rfl hwf hWord
  | vmv o | vclz o | vfsqrt o | vfexp o | vflog o | vfrcp o | vfcvt o | vcompress o | vexpand o => exact readsV2.decodes rfl rfl hwf hWord
  | viota o => exact readsV1.decodes rfl rfl hwf hWord
  | vredsum o => exact readsVredOps.decodes rfl rfl hwf hWord
  | vdot o => exact readsVdotOps.decodes rfl rfl hwf hWord
  | vredmax o | vredmin o | vargmax o => exact readsVminOps.decodes rfl rfl hwf hWord
  | veaadd o => exact readsEa2.decodes rfl rfl hwf hWord
  | earnd o => exact readsEarndOps.decodes rfl rfl hwf hWord
  | eald o => exact readsEaldOps.decodes rfl rfl hwf hWord
  | east o => exact readsEastOps.decodes rfl rfl hwf hWord
  | eaclr o => exact readsEa1.decodes rfl rfl hwf hWord
  | vcmp o | vfcmp o => exact readsVcmpOps.decodes rfl rfl hwf hWord
  | pand o | por o | pxor o => exact readsP3.decodes rfl rfl hwf hWord
  | pnot o => exact readsP2.decodes rfl rfl hwf hWord
  | ppopc o | pfirst o => exact readsPs.decodes rfl rfl hwf hWord
  | vaddVs o | vsubVs o | vmulVs o | vmulhVs o | vminVs o | vmaxVs o | vabsdVs o | vsaddVs o | vandVs o | vorVs o | vxorVs o | vssubVs o
    | vsllVs o | vsrlVs o | vsraVs o | vfaddVs o | vfsubVs o | vfmulVs o | vffmaVs o | vfminVs o | vfmaxVs o | vfdivVs o | vfsclVs o | vslideup o
    | vslidedn o => exact readsVs3.decodes rfl rfl hwf hWord
  | vmvVs o => exact readsVs2.decodes rfl rfl hwf hWord
  | vcmpVs o | vfcmpVs o => exact readsVscmpOps.decodes rfl rfl hwf hWord
  | vbq o | vbdq o => exact readsVbqOps.decodes rfl rfl hwf hWord
  | fmtset o => exact readsFmtOps.decodes rfl rfl hwf hWord
  | vld o | vlds o | vst o | vsts o => exact readsVmOps.decodes rfl rfl hwf hWord
  | vldxO o | vldxU o | vstxO o | vstxU o => exact readsVxOps.decodes rfl rfl hwf hWord
  | vamo o | vamoRet o => exact readsVamoOps.decodes rfl rfl hwf hWord
  | vldsc o | vstsc o => exact readsVscOps.decodes rfl rfl hwf hWord
  | vldrot o => exact readsRotOps.decodes rfl rfl hwf hWord
  | copy o | xfetch o => exact readsCopyOps.decodes rfl rfl hwf hWord
  | gathsp o => exact readsGathOps.decodes rfl rfl hwf hWord
  | xsend o => exact readsXsendOps.decodes rfl rfl hwf hWord
  | xins o | xacc o | xdrain o => exact readsXqOps.decodes rfl rfl hwf hWord
  | xlook o => exact readsXlookOps.decodes rfl rfl hwf hWord
  | xclr o => exact readsXclrOps.decodes rfl rfl hwf hWord
  | prune o | sphdr o => exact readsVmAb.decodes rfl rfl hwf hWord
  | mxlds o => exact readsMxldsOps.decodes rfl rfl hwf hWord
  | mxstrm o => exact readsMxstrmOps.decodes rfl rfl hwf hWord
  | mxdrain o => exact readsMxdrainOps.decodes rfl rfl hwf hWord
  | rcinit o => exact readsRcinitOps.decodes rfl rfl hwf hWord
  | rcnoise o | rcbound o => exact readsRcvOps.decodes rfl rfl hwf hWord
  | rcpick o => exact readsRcpickOps.decodes rfl rfl hwf hWord
  | rcupd o => exact readsRcupdOps.decodes rfl rfl hwf hWord
  | rcdrop o => exact readsRcdropOps.decodes rfl rfl hwf hWord
  | rcwait o => exact readsRcwaitOps.decodes rfl rfl hwf hWord
  | rcread o => exact readsRcreadOps.decodes rfl rfl hwf hWord
  | rcset o => exact readsRcsetOps.decodes rfl rfl hwf hWord
  | emptySyllable | eret | icinv | yield | mxdet | mxswap =>
    obtain rfl := Option.some.inj hWord
    exact ⟨by decide, rfl⟩
  | packageReset | throttleIntervalEnd | thermalTrip | thermalTripClear | thermalShutdown | registerWrite | measExtend | rdreq | wrreq | atreq
    | rdata | wdone | cldat | xsdat | dack | nak | unav | planeTimerExpiry | portLockLost | portLockGained | bridgeDown | fabctlHeldDiscard
    | newRequest | requestTextContinued | cancelGeneration | resendRequest | ptpEventReceive | status | quote | log | cert | counters
    | tenantCreate | tenantReset | tenantDestroy | streamOpen | streamClose | filterSet | lcRequest | svnRaise | recoverWrite | tsstepWrite
    | trtailWrite | trctlWrite | snapshotFire | snapatMatch | snapshotValidClear | wqtailWrite | wqctlWrite | wqstatClr | packetConsume
    | launchReady | recordExpand | launchComplete | recordDispatch | agingQuantum | preemptPriority | preemptionQuantum | preemptSave
    | saveSlotFreed | resumew | killw | flttailWrite | fltctlWrite | softError | tenantResetComplete | tlbinv | tlbInvalidationFinish
    | engineElementLand | engineElementFault | pathQueueLeave | atomicPerform | applyWrite | ticketAdvance | lateFailure | barrierWaitEnd
    | launchEnqueue | homeFinalize | memberMerge | homeResolve | memberAbort | illegalInstruction | powerLoss | ethernetFrameReceive
    | ptpEventTransmit | tscReferenceCycle | arithmeticCycle => exact absurd hWord.symm (Option.some_ne_none w)

/-- Settles O58. -/
theorem decodeEncode : Obligations.DecodeEncode := decode_of_encode

/-- Settles O59: the decoder evaluates each word. -/
theorem wordsDecode : Obligations.WordsDecode := by
  refine ⟨?_, ?_, ?_, ?_, ?_, ?_, ?_, ?_, ?_, ?_, ?_, ?_, ?_, ?_, ?_, ?_, ?_, ?_, ?_, ?_⟩ <;> rfl

end Sys2Proof
end

section
/-! SUPPORT. The scalar unit computes what the tables of R277 to R281 say: its word operations against their results on numbers, and the scalar integer
and f32 syllables. -/

namespace Sys2Proof.Machine

/-! The word operations of R277 to R279. -/

theorem mulHigh_eq (a b : Word) : mulHigh a b = BitVec.ofInt 64 (a.toInt * b.toInt / 2 ^ 64) := by
  apply BitVec.eq_of_toNat_eq
  have hProduct : ((a.signExtend 128 * b.signExtend 128).toNat : Int) = a.toInt * b.toInt % 2 ^ 128 := by
    rw [BitVec.signExtend, BitVec.signExtend, ← BitVec.ofInt_mul, BitVec.toNat_ofInt, Int.toNat_of_nonneg (Int.emod_nonneg _ (by decide))]
    norm_num
  simp only [mulHigh, BitVec.toNat_setWidth, BitVec.toNat_ushiftRight, BitVec.toNat_ofInt, Nat.shiftRight_eq_div_pow]
  omega

theorem mulHighN_eq (a b : Word) : mulHighN a b = BitVec.ofNat 64 (a.toNat * b.toNat / 2 ^ 64) := by
  apply BitVec.eq_of_toNat_eq
  have hSmall : a.toNat * b.toNat < 2 ^ 128 := lt_of_lt_of_eq (Nat.mul_lt_mul'' a.isLt b.isLt) (by norm_num)
  have ha : a.toNat % 2 ^ 128 = a.toNat := Nat.mod_eq_of_lt (by omega)
  have hb : b.toNat % 2 ^ 128 = b.toNat := Nat.mod_eq_of_lt (by omega)
  simp only [mulHighN, BitVec.toNat_setWidth, BitVec.toNat_ushiftRight, BitVec.toNat_mul, ha, hb, Nat.mod_eq_of_lt hSmall,
    Nat.shiftRight_eq_div_pow, BitVec.toNat_ofNat]

theorem sdiv_eq (a b : Word) : a.sdiv b = BitVec.ofInt 64 (a.toInt.tdiv b.toInt) :=
  BitVec.eq_of_toInt_eq (by rw [BitVec.toInt_sdiv, BitVec.toInt_ofInt])

theorem srem_eq (a b : Word) : a.srem b = BitVec.ofInt 64 (a.toInt.tmod b.toInt) := by rw [← BitVec.toInt_srem, BitVec.ofInt_toInt]

theorem sshiftRight_eq (a : Word) (n : Nat) : a.sshiftRight n = BitVec.ofInt 64 (a.toInt / 2 ^ n) := by
  have h : a.toInt / 2 ^ n = a.toInt >>> n := by rw [Int.shiftRight_eq_div_pow]; norm_cast
  rw [h, ← BitVec.toInt_sshiftRight, BitVec.ofInt_toInt]

theorem shiftLeft_eq (a : Word) (n : Nat) : a <<< n = BitVec.ofNat 64 (a.toNat * 2 ^ n) := by
  rw [← Nat.shiftLeft_eq]; rfl

theorem ushiftRight_eq (a : Word) (n : Nat) : a >>> n = BitVec.ofNat 64 (a.toNat / 2 ^ n) := by
  refine BitVec.eq_of_toNat_eq ?_
  rw [BitVec.toNat_ushiftRight, Nat.shiftRight_eq_div_pow, BitVec.toNat_ofNat, Nat.mod_eq_of_lt (lt_of_le_of_lt (Nat.div_le_self _ _) a.isLt)]

theorem ctzFrom_eq (w n : Nat) : ctzFrom w n = ((List.range w).find? n.testBit).getD w := by
  induction w generalizing n with
  | zero => rfl
  | succ w ih =>
    rw [List.range_succ_eq_map, List.find?_cons, List.find?_map]
    have hSucc : n.testBit ∘ Nat.succ = (n / 2).testBit := funext fun k => Nat.testBit_succ n k
    by_cases h : n % 2 = 1
    · simp [ctzFrom, h, Nat.testBit_zero]
    · simp only [ctzFrom, h, if_false, Nat.testBit_zero, decide_false, hSucc, ih]
      cases (List.range w).find? (n / 2).testBit <;> simp [Nat.add_comm]

theorem popcN_eq (w n : Nat) : popcN w n = ((List.range w).filter n.testBit).length := by
  induction w generalizing n with
  | zero => rfl
  | succ w ih =>
    have hSucc : n.testBit ∘ Nat.succ = (n / 2).testBit := funext fun k => Nat.testBit_succ n k
    rw [List.range_succ_eq_map, List.filter_cons, List.filter_map, hSucc, popcN, ih]
    by_cases h : n % 2 = 1 <;> simp [h, Nat.testBit_zero, Nat.add_comm] 
    omega

theorem clzN_eq (a : Word) : clzN 64 a.toNat = leadingZeros a.toNat := by
  have hMod : a.toNat % 2 ^ 64 = a.toNat := Nat.mod_eq_of_lt a.isLt
  rw [clzN, hMod, bitLen, leadingZeros]
  split <;> omega

theorem bfx_eq (x : Word) (off wid : Nat) : bfx x off wid = BitVec.ofInt 64 (signedField x off wid) := by
  have hMod : bitField x off wid % 2 ^ wid = bitField x off wid := Nat.mod_mod _ _
  unfold bfx signedField
  split
  · rfl
  · show wordOfInt (signedN wid (bitField x off wid)) = _
    rw [signedN, hMod, wordOfInt]

/-- The bits of a number outside of a hole. -/
theorem testBit_sub_hole (d n off k : Nat) :
    (d - Nat.land d ((2 ^ n - 1) * 2 ^ off)).testBit k = (d.testBit k && !(decide (off ≤ k) && decide (k < off + n))) := by
  have hLand : Nat.land d ((2 ^ n - 1) * 2 ^ off) = d / 2 ^ off % 2 ^ n * 2 ^ off := by
    refine Nat.eq_of_testBit_eq fun j => ?_
    change (d &&& (2 ^ n - 1) * 2 ^ off).testBit j = _
    simp only [Nat.testBit_and, Nat.testBit_mul_two_pow, Nat.testBit_two_pow_sub_one, Nat.testBit_mod_two_pow, Nat.testBit_div_two_pow]
    by_cases h : off ≤ j
    · simp [h, Bool.and_comm]
    · simp [h]
  have hWhole : d = 2 ^ off * (2 ^ n * (d / 2 ^ off / 2 ^ n) + d / 2 ^ off % 2 ^ n) + d % 2 ^ off := by
    rw [Nat.div_add_mod, Nat.div_add_mod]
  have hHole : d - d / 2 ^ off % 2 ^ n * 2 ^ off = 2 ^ off * (2 ^ n * (d / 2 ^ off / 2 ^ n) + 0) + d % 2 ^ off := by
    refine Nat.sub_eq_of_eq_add ?_
    conv_lhs => rw [hWhole]
    ring
  rw [hLand, hHole]
  conv_rhs => rw [hWhole]
  simp only [Nat.testBit_two_pow_mul_add _ (Nat.mod_lt d (Nat.two_pow_pos off)), Nat.testBit_two_pow_mul_add _ (Nat.two_pow_pos n),
    Nat.testBit_two_pow_mul_add _ (Nat.mod_lt (d / 2 ^ off) (Nat.two_pow_pos n)), Nat.zero_testBit]
  by_cases h : k < off
  · simp [h]
  · by_cases h' : k - off < n
    · simp [h, h', show off ≤ k by omega, show k < off + n by omega]
    · simp [h, h', show ¬ k < off + n by omega]

theorem bfi_getLsbD (d x : Word) (off wid : Nat) {k : Nat} (hk : k < 64) : (bfi d x off wid).getLsbD k = insertedBit d x off wid k := by
  have hBits : (bfi d x off wid).getLsbD k =
      ((d.toNat - Nat.land d.toNat ((2 ^ (min (off + wid) 64 - off) - 1) * 2 ^ off)).testBit k ||
        (x.toNat % 2 ^ (min (off + wid) 64 - off) * 2 ^ off).testBit k) := by
    rw [← Nat.testBit_or]
    exact (BitVec.getLsbD_ofNat ..).trans (by rw [decide_eq_true hk, Bool.true_and]; rfl)
  rw [hBits, testBit_sub_hole, Nat.testBit_mul_two_pow, Nat.testBit_mod_two_pow]
  unfold insertedBit
  by_cases h : off ≤ k ∧ k < min (off + wid) 64
  · simp [h.1, h, show k < off + (min (off + wid) 64 - off) by omega, show k - off < min (off + wid) 64 - off by omega, BitVec.getLsbD]
  · rw [if_neg h, show (decide (off ≤ k) && decide (k < off + (min (off + wid) 64 - off))) = false by simp; omega,
      show (decide (off ≤ k) && (decide (k - off < min (off + wid) 64 - off) && x.toNat.testBit (k - off))) = false by simp; omega]
    simp [BitVec.getLsbD]

theorem ofInt_min (a b : Word) : BitVec.ofInt 64 (min a.toInt b.toInt) = if b.slt a then b else a := by
  rw [BitVec.slt_eq_decide, min_def]
  by_cases h : b.toInt < a.toInt
  · simp [h, not_le.mpr h]
  · simp [h, not_lt.mp h]

theorem ofInt_max (a b : Word) : BitVec.ofInt 64 (max a.toInt b.toInt) = if a.slt b then b else a := by
  rw [BitVec.slt_eq_decide, max_def]
  by_cases h : a.toInt < b.toInt
  · simp [h, h.le]
  · by_cases h' : a.toInt ≤ b.toInt
    · simp [BitVec.eq_of_toInt_eq (le_antisymm h' (not_lt.mp h))]
    · simp [h, h']

theorem ofNat_min (a b : Word) : BitVec.ofNat 64 (min a.toNat b.toNat) = if b.ult a then b else a := by
  rw [BitVec.ult_eq_decide, min_def]
  by_cases h : b.toNat < a.toNat
  · simp [h, not_le.mpr h]
  · simp [h, not_lt.mp h]

theorem ofNat_max (a b : Word) : BitVec.ofNat 64 (max a.toNat b.toNat) = if a.ult b then b else a := by
  rw [BitVec.ult_eq_decide, max_def]
  by_cases h : a.toNat < b.toNat
  · simp [h, h.le]
  · by_cases h' : a.toNat ≤ b.toNat
    · simp [BitVec.eq_of_toNat_eq (le_antisymm h' (not_lt.mp h))]
    · simp [h, h']

theorem divS_eq (a b : Word) : divS a b = if b = 0 then 0xFFFFFFFFFFFFFFFF#64 else BitVec.ofInt 64 (a.toInt.tdiv b.toInt) := by
  rw [divS, sdiv_eq]
  rfl

theorem divU_eq (a b : Word) : divU a b = if b = 0 then 0xFFFFFFFFFFFFFFFF#64 else BitVec.ofNat 64 (a.toNat / b.toNat) := by
  have hDiv : a / b = BitVec.ofNat 64 (a.toNat / b.toNat) := BitVec.eq_of_toNat_eq (by rw [← BitVec.toNat_udiv, BitVec.ofNat_toNat]; rfl)
  rw [divU, hDiv]
  rfl

theorem remS_eq (a b : Word) : remS a b = if b = 0 then a else BitVec.ofInt 64 (a.toInt.tmod b.toInt) := by rw [remS, srem_eq]

theorem remU_eq (a b : Word) : remU a b = if b = 0 then a else BitVec.ofNat 64 (a.toNat % b.toNat) := by
  rw [remU, ← BitVec.toNat_umod, BitVec.ofNat_toNat, BitVec.setWidth_eq]

theorem boolW_decide (p : Prop) [Decidable p] : boolW (decide p) = truth p := by
  unfold truth boolW
  by_cases h : p <;> simp [h]

theorem boolW_slt (a b : Word) : boolW (a.slt b) = truth (a.toInt < b.toInt) := boolW_decide _

theorem boolW_ult (a b : Word) : boolW (a.ult b) = truth (a.toNat < b.toNat) := boolW_decide _

theorem immS_toInt (i : BitVec 16) : (immS i).toInt = i.toInt := BitVec.toInt_signExtend_of_le (by decide)

theorem immS_eq (i : BitVec 16) : immS i = BitVec.ofInt 64 i.toInt := by rw [← immS_toInt, BitVec.ofInt_toInt]

theorem immZ_eq (i : BitVec 16) : immZ i = BitVec.ofNat 64 i.toNat := BitVec.eq_of_toNat_eq (by simp [immZ, zext64])

theorem sub_eq_ofInt (a b : Word) : a - b = BitVec.ofInt 64 (a.toInt - b.toInt) :=
  BitVec.eq_of_toInt_eq (by rw [BitVec.toInt_sub, BitVec.toInt_ofInt])

theorem add_immS (a : Word) (i : BitVec 16) : a + immS i = BitVec.ofInt 64 (a.toInt + i.toInt) := by
  rw [BitVec.ofInt_add, BitVec.ofInt_toInt, immS_eq]

theorem immS_shiftLeft (i : BitVec 16) : immS i <<< 16 = BitVec.ofInt 64 (i.toInt * 2 ^ 16) := by
  rw [BitVec.ofInt_mul, ← immS_eq, BitVec.shiftLeft_eq_mul_twoPow]
  rfl

theorem convoyAt_eq (s : State) (i : BitVec 16) : convoyAt s i = (me s).pc + BitVec.ofInt 64 (16 * i.toInt) := by
  rw [BitVec.ofInt_mul, ← immS_eq]
  rfl

/-! The scalar integer syllables. -/

theorem scalar_next {s : State} {sd d : BitVec 5} {v x y : Word} (h : some (d, x) = some (sd, v)) (hx : y = x) :
    (.next (setS s d y) : Out State) = .next (setS s sd v) := by
  cases h
  rw [hx]

theorem widReg_eq (w : Word) : widReg w = regWidth w := by simp [widReg, regWidth, bitsW, bitsN]

/-- A scalar integer syllable writes its result to its destination, and that is all that it does. -/
theorem exec_scalar {i : Instr} {s : State} {sd : BitVec 5} {v : Word} (h : scalarResult (getS s) (me s).pc i = some (sd, v)) :
    exec i s = .next (setS s sd v) := by
  unfold scalarResult at h
  split at h
  case h_1 o => exact scalar_next h rfl
  case h_2 o => exact scalar_next h (sub_eq_ofInt _ _)
  case h_3 o => exact scalar_next h rfl
  case h_4 o => exact scalar_next h (mulHigh_eq _ _)
  case h_5 o => exact scalar_next h (mulHighN_eq _ _)
  case h_6 o => exact scalar_next h (divS_eq _ _)
  case h_7 o => exact scalar_next h (divU_eq _ _)
  case h_8 o => exact scalar_next h (remS_eq _ _)
  case h_9 o => exact scalar_next h (remU_eq _ _)
  case h_10 o => exact scalar_next h rfl
  case h_11 o => exact scalar_next h rfl
  case h_12 o => exact scalar_next h rfl
  case h_13 o => exact scalar_next h (shiftLeft_eq _ _)
  case h_14 o => exact scalar_next h (ushiftRight_eq _ _)
  case h_15 o => exact scalar_next h (sshiftRight_eq _ _)
  case h_16 o => exact scalar_next h (boolW_slt _ _)
  case h_17 o => exact scalar_next h (boolW_ult _ _)
  case h_18 o => exact scalar_next h (ofInt_min _ _).symm
  case h_19 o => exact scalar_next h (ofInt_max _ _).symm
  case h_20 o => exact scalar_next h (ofNat_min _ _).symm
  case h_21 o => exact scalar_next h (ofNat_max _ _).symm
  case h_22 o => exact scalar_next h (congrArg _ (clzN_eq _))
  case h_23 o => exact scalar_next h (congrArg _ (ctzFrom_eq _ _))
  case h_24 o => exact scalar_next h (congrArg _ (popcN_eq _ _))
  case h_25 o => exact scalar_next h rfl
  case h_26 o => exact scalar_next h (add_immS _ _)
  case h_27 o => exact scalar_next h (congrArg _ (immZ_eq _))
  case h_28 o => exact scalar_next h (congrArg _ (immZ_eq _))
  case h_29 o => exact scalar_next h (congrArg _ (immZ_eq _))
  case h_30 o => exact scalar_next h (by rw [← immS_toInt]; exact boolW_slt _ _)
  case h_31 o => exact scalar_next h (by rw [← immS_eq]; exact boolW_ult _ _)
  case h_32 o => exact scalar_next h (immS_shiftLeft _)
  case h_33 o => exact scalar_next h (convoyAt_eq _ _)
  case h_34 o => exact scalar_next h (shiftLeft_eq _ _)
  case h_35 o => exact scalar_next h (ushiftRight_eq _ _)
  case h_36 o => exact scalar_next h (sshiftRight_eq _ _)
  case h_37 o => exact scalar_next h (bfx_eq _ _ _)
  case h_38 o => exact scalar_next h rfl
  case h_39 o => exact scalar_next h (widReg_eq _ ▸ bfx_eq _ _ _)
  case h_40 o => exact scalar_next h (widReg_eq _ ▸ rfl)
  case h_41 => cases h

/-- Settles O1. -/
theorem scalarResults : Obligations.ScalarResults := fun _ s sd v h => ⟨_, exec_scalar h, writesReg_setS s sd v⟩

/-- Settles O2. -/
theorem bitFieldInserts : Obligations.BitFieldInserts :=
  ⟨fun _ s => ⟨_, _, rfl, writesReg_setS s _ _, fun _ hk => bfi_getLsbD _ _ _ _ hk⟩,
    fun _ s => ⟨_, _, rfl, writesReg_setS s _ _, fun _ hk => widReg_eq (getS s _) ▸ bfi_getLsbD _ _ _ _ hk⟩⟩

/-! The scalar f32 syllables (R280, R281). -/

theorem putMe_putMe (s : State) (a b : Strand) : putMe (putMe s a) b = putMe s b := putStrand_putStrand s s.cur a b

/-- The strand with flags accrued and a register written. -/
theorem setS_addFlags (s : State) (fl : FFlags) (sd : BitVec 5) (v : Word) :
    setS (addFlags s fl) sd v = putMe s (swrite { me s with fflags := (me s).fflags ||| fl } sd.toNat v) := by
  rw [setS, addFlags, putMe_putMe, me_putMe]

theorem writesRegFlags_setS (s : State) (sd : BitVec 5) (v : Word) (fl : FFlags) : WritesRegFlags s (setS (addFlags s fl) sd v) sd v fl := by
  refine ⟨setS_addFlags s fl sd v ▸ onlyMe_putMe s _, ?_, ?_, ?_⟩
  · obtain ⟨l, hl⟩ := swrite_eq { me s with fflags := (me s).fflags ||| fl } sd.toNat v
    rw [setS_addFlags, me_putMe, hl]
  · intro r
    rw [getS_setS, addFlags]
    simp only [getS, me_putMe, sread]
  · rw [setS_addFlags, me_putMe, swrite_fflags]

theorem scalarFp_next {s : State} {sd d : BitVec 5} {r : Nat × FFlags} {v : Nat} {fl : FFlags} (h : some (d, r) = some (sd, (v, fl))) :
    fpRes s d r = .next (setS (addFlags s fl) sd (BitVec.ofNat 64 v)) := by
  cases h
  rfl

/-- A scalar f32 syllable accrues its flags and writes its result to its destination. -/
theorem exec_scalarFp {i : Instr} {s : State} {sd : BitVec 5} {v : Nat} {fl : FFlags}
    (h : scalarFpResult (getS s) i = some (sd, (v, fl))) : exec i s = .next (setS (addFlags s fl) sd (BitVec.ofNat 64 v)) := by
  unfold scalarFpResult at h
  split at h
  case h_9 o =>
    cases h
    rw [BitVec.ofNat_toNat, BitVec.setWidth_eq]
    rfl
  case h_10 => cases h
  all_goals exact scalarFp_next h

/-- Settles O3. -/
theorem scalarFpResults : Obligations.ScalarFpResults := fun _ s sd v fl h =>
  ⟨_, exec_scalarFp h, writesRegFlags_setS s sd (BitVec.ofNat 64 v) fl⟩

end Sys2Proof.Machine
end


section
/-! SUPPORT. Branches, jumps, exceptions and system registers do what R287 and R296 to R300 say. -/

namespace Sys2Proof.Machine

/-! Branches and jumps (R287). -/

/-- A branch whose condition is known. -/
theorem branch_eq {s : State} {o : BOps} {f : Word → Word → Bool} {taken : Bool} (h : f (getS s o.sa) (getS s o.sb) = taken) :
    ∃ t, branch s o f = .next t ∧
      MeBecomes s t (if taken then { me s with npc := (me s).pc + 16 * o.off.signExtend 64 } else me s) := by
  refine ⟨_, rfl, ?_⟩
  rw [h]
  cases taken with
  | true => exact meBecomes_putMe s _
  | false => exact meBecomes_refl s

theorem not_slt_eq (a b : Word) : (!a.slt b) = decide (b.toInt ≤ a.toInt) := by
  rw [BitVec.slt_eq_decide, ← decide_not, decide_eq_decide, not_lt]

theorem not_ult_eq (a b : Word) : (!a.ult b) = decide (b.toNat ≤ a.toNat) := by
  rw [BitVec.ult_eq_decide, ← decide_not, decide_eq_decide, not_lt]

theorem branch_taken {i : Instr} {s : State} {taken : Bool} {off : BitVec 16} (h : branchRule (getS s) i = some (taken, off)) :
    ∃ t, exec i s = .next t ∧ MeBecomes s t (if taken then { me s with npc := (me s).pc + 16 * off.signExtend 64 } else me s) := by
  unfold branchRule at h
  split at h <;> cases h
  case h_1 o => exact branch_eq (f := fun a b => a == b) rfl
  case h_2 o => exact branch_eq (f := fun a b => a != b) (by rw [bne, decide_not, beq_eq_decide])
  case h_3 o => exact branch_eq (f := fun a b => a.slt b) rfl
  case h_4 o => exact branch_eq (f := fun a b => !a.slt b) (not_slt_eq _ _)
  case h_5 o => exact branch_eq (f := fun a b => a.ult b) rfl
  case h_6 o => exact branch_eq (f := fun a b => !a.ult b) (not_ult_eq _ _)

/-- A link written and a next convoy chosen are one write of the strand. -/
theorem setNpc_setS (s : State) (sd : BitVec 5) (v a : Word) :
    setNpc (setS s sd v) a = putMe s { swrite (me s) sd.toNat v with npc := a } := by
  rw [setNpc, me_setS, setS, putMe_putMe]

theorem getS_setNpc (s : State) (a : Word) (r : BitVec 5) : getS (setNpc s a) r = getS s r := by
  rw [getS, setNpc, me_putMe, sread, getS, sread]

/-- What a jump with a link leaves. -/
theorem link_effect (s : State) (sd : BitVec 5) (v a : Word) :
    OnlyMe s (setNpc (setS s sd v) a) ∧ { me (setNpc (setS s sd v) a) with regs := (me s).regs, npc := (me s).npc } = me s ∧
      RegsAfter s (setNpc (setS s sd v) a) sd v ∧ (me (setNpc (setS s sd v) a)).npc = a := by
  refine ⟨setNpc_setS s sd v a ▸ onlyMe_putMe s _, ?_, fun r => ?_, ?_⟩
  · obtain ⟨l, hl⟩ := swrite_eq (me s) sd.toNat v
    rw [setNpc_setS, me_putMe, hl]
  · rw [getS_setNpc, regsAfter_setS s sd v r]
  · rw [setNpc_setS, me_putMe]

theorem exec_jalr (o : IOps) (s : State) : exec (.jalr o) s = finish s (if (getS s o.sa + 16 * o.imm.signExtend 64).toNat % 16 ≠ 0
    then .trap cMisaligned (getS s o.sa + 16 * o.imm.signExtend 64) 0
    else .ok (setNpc (setS s o.sd (nextConvoy s)) (getS s o.sa + 16 * o.imm.signExtend 64))) := rfl

/-- Settles O9. -/
theorem branchesAndJumps : Obligations.BranchesAndJumps := by
  refine ⟨fun _ _ _ _ h => branch_taken h, fun _ s => ⟨_, rfl, meBecomes_putMe s _⟩, fun o s => ⟨_, rfl, link_effect s o.sd _ _⟩,
    fun o s h => ⟨_, ?_, link_effect s o.sd _ (getS s o.sa + 16 * o.imm.signExtend 64)⟩, fun o s h => ?_⟩
  · rw [exec_jalr, if_neg (fun hne => hne h)]
    rfl
  · rw [exec_jalr, if_pos h]
    rfl

/-- Settles O12. -/
theorem trapTakesException : Obligations.TrapTakesException := fun _ _ => rfl

/-! The return from an exception (R297). -/

/-- What is sent again changes the fabric and what the strand has outstanding. -/
theorem resendFlits_eq (s : State) (sid : Nat) :
    resendFlits s sid = s ∨ ∃ f l, resendFlits s sid = putStrand { s with fabric := f } sid { strandOf s sid with outst := l } := by
  rw [resendFlits]
  split
  · exact .inl rfl
  · exact .inr ⟨_, _, rfl⟩

/-- A strand with nothing sent again, with what it has outstanding. -/
theorem resendFlits_cases (s : State) : ∃ l, (resendFlits s s.cur).ord = s.ord ∧ (resendFlits s s.cur).cur = s.cur ∧
    me (resendFlits s s.cur) = { me s with outst := l } ∧ ∀ k, k ≠ s.cur → strandOf (resendFlits s s.cur) k = strandOf s k := by
  obtain h | ⟨f, l, h⟩ := resendFlits_eq s s.cur
  · exact ⟨(me s).outst, by rw [h], by rw [h], by rw [h], fun _ _ => by rw [h]⟩
  · refine ⟨l, by rw [h]; rfl, by rw [h]; rfl, ?_, fun k hk => ?_⟩
    · rw [h]
      exact strandOf_putStrand_same _ _ _
    · rw [h, strandOf_putStrand_ne _ _ _ _ hk]
      rfl

theorem exec_eret (s : State) (hTrunk : (me s).trunk = true) (hTh : (me s).th = true) : ∃ l, exec .eret s =
    .next (putMe (resendFlits (returnException s) s.cur) { me (resendFlits (returnException s) s.cur) with answers := l }) := by
  have hHere : ((me s).trunk && (me s).th) = true := by rw [hTrunk, hTh]; rfl
  refine ⟨_, (congrArg (finish s) (if_pos hHere)).trans rfl⟩

/-- Settles O15. -/
theorem exceptionReturn : Obligations.ExceptionReturn := by
  refine ⟨fun s hTrunk hTh => ?_, fun s h => ?_⟩
  · obtain ⟨l, hOrd, hCur, hMe, hOther⟩ := resendFlits_cases (returnException s)
    obtain ⟨answers, hExec⟩ := exec_eret s hTrunk hTh
    have hBack : me (returnException s) = { me s with th := false, npc := wordOf ((me s).epc.toNat / 16 * 16) } := me_putMe _ _
    rw [hBack] at hMe
    refine ⟨_, hExec, ?_, ?_, ?_, sameMemory_of_ord _ _ hOrd, fun k hk => ?_⟩
    · exact (congrArg Strand.th (me_putMe _ _)).trans (congrArg Strand.th hMe)
    · exact (congrArg Strand.npc (me_putMe _ _)).trans (congrArg Strand.npc hMe)
    · rw [me_putMe]
      refine (congrArg (fun st : Strand => { st with th := true, npc := (me s).npc, answers := (me s).answers, outst := (me s).outst }) hMe).trans ?_
      rw [← hTh]
    · exact (strandOf_putMe_ne _ k _ fun h => hk (h.trans hCur)).trans ((hOther k hk).trans (strandOf_putMe_ne s k _ hk))
  · exact (congrArg (finish s) (if_neg (by rw [h]; decide))).trans rfl

/-! System registers (R298, R300). -/

theorem exec_sysr (o : SysrOps) (s : State) : exec (.sysr o) s = finish s (
    if !sysOk (me s).trunk o.reg.toNat then illegal s (.sysr o)
    else if flagsDue s o.reg.toNat then .wait (waitHere s)
    else .ok (setS s o.sd (sysRead s (me s) o.reg.toNat))) := rfl

theorem exec_sysw (o : SyswOps) (s : State) : exec (.sysw o) s = finish s (
    if !sysOk (me s).trunk o.reg.toNat then illegal s (.sysw o)
    else if flagsDue s o.reg.toNat then .wait (waitHere s)
    else .ok (putMe s (sysWrite (me s) o.reg.toNat (getS s o.sa)))) := rfl

/-- TVEC drops the low four bits. -/
theorem wordOf_div_sixteen (v : Word) : wordOf (v.toNat / 16 * 16) = v &&& 0xFFFFFFFFFFFFFFF0#64 := by
  have hMask : (0xFFFFFFFFFFFFFFF0#64) = BitVec.allOnes 64 <<< 4 := by decide
  refine BitVec.eq_of_getLsbD_eq fun i hi => ?_
  have hLeft : (wordOf (v.toNat / 16 * 16)).getLsbD i = (decide (4 ≤ i) && v.toNat.testBit i) := by
    rw [wordOf, BitVec.getLsbD_ofNat, decide_eq_true hi, Bool.true_and, show (16 : Nat) = 2 ^ 4 by rfl, Nat.testBit_mul_two_pow,
      Nat.testBit_div_two_pow]
    by_cases h : 4 ≤ i
    · rw [show i - 4 + 4 = i by omega]
    · simp [h]
  rw [hLeft, hMask, BitVec.getLsbD_and, BitVec.getLsbD_shiftLeft, BitVec.getLsbD_allOnes, BitVec.getLsbD]
  by_cases h : 4 ≤ i
  · simp [h, hi, show ¬ i < 4 by omega, show i - 4 < 64 by omega]
  · simp [h, show i < 4 by omega]

/-- A register number that is none of the written ones changes nothing. -/
theorem sysWrite_other {st : Strand} {n : Nat} (v : Word) (h : n ≠ 10 ∧ n ≠ 11 ∧ n ≠ 13) (hKind : st.trunk = false ∨ 3 < n) :
    sysWrite st n v = st := by
  obtain ⟨h10, h11, h13⟩ := h
  unfold sysWrite
  split
  · exact if_neg (by rcases hKind with h | h <;> simp_all)
  · exact if_neg (by rcases hKind with h | h <;> simp_all)
  · exact if_neg (by rcases hKind with h | h <;> simp_all)
  · exact if_neg (by rcases hKind with h | h <;> simp_all)
  · exact absurd rfl h10
  · exact absurd rfl h11
  · exact absurd rfl h13
  · rfl

/-- What a write to a system register leaves, by the register. -/
theorem sysWrite_cases (st : Strand) (r : BitVec 7) (v : Word) :
    (r = 0x0A ∧ sysWrite st r.toNat v = { st with fflags := v.setWidth 5 }) ∨
      (r = 0x0B ∧ sysWrite st r.toNat v = { st with spbound := v &&& 0x01FFFFFF00FFFFFF#64 }) ∨
      (r = 0x0D ∧ sysWrite st r.toNat v = { st with tvec := v &&& 0xFFFFFFFFFFFFFFF0#64 }) ∨
      (r = 0x00 ∧ st.trunk = true ∧ sysWrite st r.toNat v = { st with th := v.getLsbD 1 }) ∨
      (r = 0x01 ∧ st.trunk = true ∧ sysWrite st r.toNat v = { st with cause := v }) ∨
      (r = 0x02 ∧ st.trunk = true ∧ sysWrite st r.toNat v = { st with epc := v &&& 0xFFFFFFFFFFFFFFF3#64 }) ∨
      (r = 0x03 ∧ st.trunk = true ∧ sysWrite st r.toNat v = { st with eval := v }) ∨
      (sysWrite st r.toNat v = st ∧ r ≠ 0x0A ∧ r ≠ 0x0B ∧ r ≠ 0x0D ∧ (st.trunk = false ∨ 3 < r.toNat)) := by
  by_cases h10 : r = 0x0A
  · exact .inl ⟨h10, by rw [h10]; rfl⟩
  by_cases h11 : r = 0x0B
  · exact .inr (.inl ⟨h11, by rw [h11]; rfl⟩)
  by_cases h13 : r = 0x0D
  · refine .inr (.inr (.inl ⟨h13, ?_⟩))
    rw [h13, ← wordOf_div_sixteen]
    rfl
  by_cases hKind : st.trunk = false ∨ 3 < r.toNat
  · have hNumber : r.toNat ≠ 10 ∧ r.toNat ≠ 11 ∧ r.toNat ≠ 13 :=
      ⟨fun h => h10 (BitVec.eq_of_toNat_eq h), fun h => h11 (BitVec.eq_of_toNat_eq h), fun h => h13 (BitVec.eq_of_toNat_eq h)⟩
    exact .inr (.inr (.inr (.inr (.inr (.inr (.inr ⟨sysWrite_other v hNumber hKind, h10, h11, h13, hKind⟩))))))
  · obtain ⟨hTrunk, hLow⟩ := not_or.mp hKind
    rw [Bool.not_eq_false] at hTrunk
    have hr : r = 0 ∨ r = 1 ∨ r = 2 ∨ r = 3 := by
      have : r.toNat = 0 ∨ r.toNat = 1 ∨ r.toNat = 2 ∨ r.toNat = 3 := by omega
      exact this.imp BitVec.eq_of_toNat_eq (Or.imp BitVec.eq_of_toNat_eq (Or.imp BitVec.eq_of_toNat_eq BitVec.eq_of_toNat_eq))
    obtain rfl | rfl | rfl | rfl := hr
    · exact .inr (.inr (.inr (.inl ⟨rfl, hTrunk, if_pos hTrunk⟩)))
    · exact .inr (.inr (.inr (.inr (.inl ⟨rfl, hTrunk, if_pos hTrunk⟩))))
    · exact .inr (.inr (.inr (.inr (.inr (.inl ⟨rfl, hTrunk, if_pos hTrunk⟩)))))
    · exact .inr (.inr (.inr (.inr (.inr (.inr (.inl ⟨rfl, hTrunk, if_pos hTrunk⟩))))))

/-! The fields of the words that system registers read as. -/

/-- A field of a word made of a number. -/
theorem extract_wordOf {n lo len m : Nat} (hFit : lo + len ≤ 64) (h : n / 2 ^ lo % 2 ^ len = m % 2 ^ len) :
    (wordOf n).extractLsb' lo len = BitVec.ofNat len m := by
  refine BitVec.eq_of_toNat_eq ?_
  have hPow : 2 ^ 64 = 2 ^ lo * 2 ^ (64 - lo) := by rw [← Nat.pow_add, show lo + (64 - lo) = 64 by omega]
  have hDvd : 2 ^ len ∣ 2 ^ (64 - lo) := pow_dvd_pow 2 (by omega)
  rw [BitVec.extractLsb'_toNat, BitVec.toNat_ofNat, Nat.shiftRight_eq_div_pow, wordOf, BitVec.toNat_ofNat, hPow, Nat.mod_mul_right_div_self,
    Nat.mod_mod_of_dvd _ hDvd, h]

/-- A bit of a word made of a number. -/
theorem bit_wordOf {n k : Nat} {b : Bool} (hk : k < 64) (h : n / 2 ^ k % 2 = boolN b) : (wordOf n).getLsbD k = b := by
  rw [wordOf, BitVec.getLsbD_ofNat, decide_eq_true hk, Bool.true_and, Nat.testBit_eq_decide_div_mod_eq, h]
  cases b <;> rfl

theorem boolN_lt (b : Bool) : boolN b < 2 := by cases b <;> decide

theorem statusWord_fields (st : Strand) : (statusWord st).getLsbD 0 = st.trunk ∧ (statusWord st).getLsbD 1 = st.th ∧
    (statusWord st).getLsbD 2 = st.barw ∧ (statusWord st).extractLsb' 3 10 = 0 ∧
    (statusWord st).extractLsb' 13 7 = BitVec.ofNat 7 st.core ∧ (statusWord st).extractLsb' 20 4 = BitVec.ofNat 4 st.die ∧
    (statusWord st).extractLsb' 24 2 = BitVec.ofNat 2 st.slotNo ∧ (statusWord st).extractLsb' 26 6 = BitVec.ofNat 6 st.tenant ∧
    (statusWord st).extractLsb' 32 32 = 0 := by
  have h0 := boolN_lt st.trunk
  have h1 := boolN_lt st.th
  have h2 := boolN_lt st.barw
  refine ⟨bit_wordOf (by decide) ?_, bit_wordOf (by decide) ?_, bit_wordOf (by decide) ?_, extract_wordOf (m := 0) (by decide) ?_,
    extract_wordOf (by decide) ?_, extract_wordOf (by decide) ?_, extract_wordOf (by decide) ?_, extract_wordOf (by decide) ?_,
    extract_wordOf (m := 0) (by decide) ?_⟩ <;> omega

theorem rptkWord_fields (r : Repeat) : (wordOf (rptkWord r)).getLsbD 63 = r.active ∧ (wordOf (rptkWord r)).extractLsb' 34 29 = 0 ∧
    (wordOf (rptkWord r)).extractLsb' 32 2 = BitVec.ofNat 2 r.conv ∧ (wordOf (rptkWord r)).extractLsb' 0 32 = BitVec.ofNat 32 r.kidx := by
  have h := boolN_lt r.active
  unfold rptkWord
  refine ⟨bit_wordOf (by decide) ?_, extract_wordOf (m := 0) (by decide) ?_, extract_wordOf (by decide) ?_, extract_wordOf (by decide) ?_⟩ <;> omega

theorem rptrotWord_fields (r : Repeat) : (wordOf (rptrotWord r)).extractLsb' 12 3 = BitVec.ofNat 3 r.nstg ∧
    (wordOf (rptrotWord r)).extractLsb' 6 6 = BitVec.ofNat 6 r.rbase ∧ (wordOf (rptrotWord r)).extractLsb' 0 6 = BitVec.ofNat 6 r.rsize ∧
    (wordOf (rptrotWord r)).extractLsb' 15 49 = 0 := by
  unfold rptrotWord
  refine ⟨extract_wordOf (by decide) ?_, extract_wordOf (by decide) ?_, extract_wordOf (by decide) ?_, extract_wordOf (m := 0) (by decide) ?_⟩ <;>
    omega

/-- The word of a flag in bit 63 and a count of 32 bits. -/
theorem flagCount_fields (b : Bool) (n : Nat) : (wordOf (boolN b * 2 ^ 63 + n % 2 ^ 32)).getLsbD 63 = b ∧
    (wordOf (boolN b * 2 ^ 63 + n % 2 ^ 32)).extractLsb' 32 31 = 0 ∧
    (wordOf (boolN b * 2 ^ 63 + n % 2 ^ 32)).extractLsb' 0 32 = BitVec.ofNat 32 n := by
  have h := boolN_lt b
  refine ⟨bit_wordOf (by decide) ?_, extract_wordOf (m := 0) (by decide) ?_, extract_wordOf (by decide) ?_⟩ <;> omega

/-! What the numbered groups of system registers read as. -/

theorem sysRead_tokexp (s : State) (st : Strand) {k : Nat} (hk : k < 8) : sysRead s st (0x20 + k) = wordOf (tokexpWord (tokOf st k)) := by
  unfold sysRead
  rw [if_neg (by omega), if_neg (by omega), if_pos (by omega), Nat.add_sub_cancel_left]

theorem sysRead_tokland (s : State) (st : Strand) {k : Nat} (hk : k < 8) : sysRead s st (0x28 + k) = wordOf (toklandWord (tokOf st k)) := by
  unfold sysRead
  rw [if_neg (by omega), if_pos (by omega), Nat.add_sub_cancel_left]

theorem sysRead_meas (s : State) (st : Strand) {m j : Nat} (hj : j < 4) :
    sysRead s st (0x40 + 4 * m + j) = (s.sec.meas.getD m 0).extractLsb' (64 * j) 64 := by
  unfold sysRead
  rw [if_pos (by omega), show (0x40 + 4 * m + j - 0x40) / 4 = m by omega, show (0x40 + 4 * m + j - 0x40) % 4 = j by omega]

theorem grantOf_eq (s : State) (st : Strand) : grantOf s st = ((holdOf s st).map (·.grant)).getD 0 := by
  unfold grantOf
  cases holdOf s st <;> rfl

/-- Settles O16. -/
theorem systemRegisters : Obligations.SystemRegisters := by
  refine ⟨fun o s hOk hDue => ⟨_, ?_, writesReg_setS s o.sd _⟩,
    fun o s hOk hDue => ⟨_, ?_, onlyMe_putMe s (sysWrite (me s) o.reg.toNat (getS s o.sa)), ?_⟩, fun o s hOk => ?_, fun o s hOk => ?_,
    fun s st => ⟨rfl, rfl, rfl, rfl, rfl, rfl, rfl, rfl, rfl, rfl, rfl, rfl⟩, fun s st => statusWord_fields st, fun s st => ?_,
    fun s st k hk => ?_, fun s st m j _ hj => sysRead_meas s st hj⟩
  · rw [exec_sysr, hOk, hDue]
    rfl
  · rw [exec_sysw, hOk, hDue]
    rfl
  · rw [me_putMe]
    exact sysWrite_cases (me s) o.reg (getS s o.sa)
  · rw [exec_sysr, hOk]
    rfl
  · rw [exec_sysw, hOk]
    rfl
  · obtain ⟨hActive, hZero, hConv, hKidx⟩ := rptkWord_fields st.rpt
    obtain ⟨hStages, hBase, hSize, hRest⟩ := rptrotWord_fields st.rpt
    exact ⟨congrArg wordOf (grantOf_eq s st), rfl, rfl, hActive, hZero, hConv, hKidx, rfl, rfl, rfl, hStages, hBase, hSize, hRest⟩
  · obtain ⟨hBusy, hExpZero, hExpected⟩ := flagCount_fields (tokOf st k).busy (tokOf st k).expected
    obtain ⟨hPend, hLandZero, hLanded⟩ := flagCount_fields (tokOf st k).pend (tokOf st k).landed
    rw [sysRead_tokexp s st hk, sysRead_tokland s st hk]
    exact ⟨hBusy, hExpZero, hExpected, hPend, hLandZero, hLanded⟩

end Sys2Proof.Machine
end


section
/-! SUPPORT. The exception of a trunk strand (R297), and what a stop leaves of a convoy that waits (R127). -/

namespace Sys2Proof.Machine

/-- Without trace marks there is no trace record to write. -/
theorem marksOf_nil {s : State} {sid : Nat} (h : (strandOf s sid).marks = []) : marksOf s sid = s := by
  simp only [marksOf, h, List.foldl_nil, List.isEmpty_nil, if_true]

/-- What the convoys that have retired queued, in the path queues. -/
def committed (st : Strand) : Strand := { st with pq := st.pq ++ st.wbuf, wbuf := [] }

theorem committed_of_nil {st : Strand} (h : st.wbuf = []) : committed st = st := by
  rw [committed, h, List.append_nil, ← h]

theorem commitStop_eq {s : State} {sid : Nat} (h : (strandOf s sid).marks = []) :
    commitStop s sid = if (strandOf s sid).wbuf.isEmpty then s else putStrand s sid (committed (strandOf s sid)) := by
  rw [commitStop, marksOf_nil h]
  rfl

theorem commitStop_strand {s : State} {sid : Nat} (h : (strandOf s sid).marks = []) :
    (∃ l, commitStop s sid = { s with strands := l }) ∧ strandOf (commitStop s sid) sid = committed (strandOf s sid) ∧
      ∀ k, k ≠ sid → strandOf (commitStop s sid) k = strandOf s k := by
  rw [commitStop_eq h]
  by_cases hBuf : (strandOf s sid).wbuf = []
  · rw [if_pos (List.isEmpty_iff.mpr hBuf), committed_of_nil hBuf]
    exact ⟨⟨s.strands, rfl⟩, rfl, fun _ _ => rfl⟩
  · rw [if_neg (mt List.isEmpty_iff.mp hBuf)]
    exact ⟨⟨_, rfl⟩, strandOf_putStrand_same s sid _, fun k hk => strandOf_putStrand_ne s sid k _ hk⟩

/-- A stop of a strand whose convoy does not wait commits what its convoys queued. -/
theorem abandon_of_none {s : State} {sid : Nat} (h : NMap.get? s.held sid = none) : abandon s sid = commitStop s sid := by
  rw [abandon, h]

/-- An access that a memory controller turned away raises a counter of protocol errors. -/
theorem countBeyond_protoErr (s : State) (c : Nat) (ev : Word) :
    ∃ e, countBeyond s c ev = { s with fabric := { s.fabric with protoErr := e } } := by
  unfold countBeyond
  split
  · split
    · exact ⟨_, rfl⟩
    · exact ⟨s.fabric.protoErr, rfl⟩
  · exact ⟨s.fabric.protoErr, rfl⟩

theorem dropTickets_frame (o : Ordering_) (l : List Nat) : { dropTickets o l with performed := o.performed, dead := o.dead } = o := rfl

/-- The state in which an exception is taken: nothing of the convoy stands, and the access that was turned away is counted. -/
def excepting (s : State) (c : Nat) (ev : Word) : State :=
  let s := countBeyond (abandon { s with convoy := none } s.cur) c ev
  { s with ord := dropTickets s.ord (notedTickets (me s)) }

/-- The strand to which an exception happens, without what its convoy asked. -/
def exceptingMe (s : State) : Strand := dropAnswers s { me s with early := [], answers := (me s).answers.filter (!isOwnNote ·) }

theorem takeException_eq (s : State) (c n : Nat) (ev : Word) : takeException s c ev n =
    (if (exceptingMe (excepting s c ev)).trunk then
      if (exceptingMe (excepting s c ev)).th then
        logTrunkStop (putMe (excepting s c ev) { exceptingMe (excepting s c ev) with run := .dead }) (exceptingMe (excepting s c ev)).core
      else putMe (excepting s c ev) (trunkEntry (exceptingMe (excepting s c ev)) (excepting s c ev).slot c ev)
    else stopFaulted (excepting s c ev) (exceptingMe (excepting s c ev)) c ev n) := rfl

/-- A strand without trace marks, whose convoy does not wait, where it takes an exception. -/
theorem excepting_eq {s : State} (c : Nat) (ev : Word) (hHeld : NMap.get? s.held s.cur = none) (hMarks : (me s).marks = []) :
    (∃ l p, excepting s c ev = { s with
      convoy := none, strands := l, fabric := { s.fabric with protoErr := p }, ord := dropTickets s.ord (notedTickets (me s)) }) ∧
    me (excepting s c ev) = committed (me s) := by
  obtain ⟨⟨l, hStop⟩, hMe, -⟩ := commitStop_strand (s := { s with convoy := none }) (sid := s.cur) hMarks
  obtain ⟨p, hCount⟩ := countBeyond_protoErr (abandon { s with convoy := none } s.cur) c ev
  rw [abandon_of_none (s := { s with convoy := none }) hHeld, hStop] at hCount
  rw [hStop] at hMe
  have hTickets : notedTickets (strandOf { s with convoy := none, strands := l } s.cur) = notedTickets (me s) := by
    rw [hMe]
    rfl
  have hNow : excepting s c ev = { s with
      convoy := none, strands := l, fabric := { s.fabric with protoErr := p }, ord := dropTickets s.ord (notedTickets (me s)) } := by
    unfold excepting
    rw [abandon_of_none (s := { s with convoy := none }) hHeld, hStop, hCount]
    exact congrArg (fun x => { s with
      convoy := none, strands := l, fabric := { s.fabric with protoErr := p }, ord := dropTickets s.ord x }) hTickets
  exact ⟨⟨l, p, hNow⟩, by rw [hNow]; exact hMe⟩

theorem sread_dropAnswers (s : State) (st : Strand) (r : Nat) : sread (dropAnswers s st) r = sread st r := rfl

/-- Requests are put aside by the flits that are held, whatever the counters say. -/
theorem dropAnswers_fabric {s t : State} (h : t.fabric.tx = s.fabric.tx) (st : Strand) : dropAnswers t st = dropAnswers s st := by
  have hHeld : heldTag t = heldTag s := funext fun tag => by rw [heldTag, heldTag, h]
  have hOne : stashOne t = stashOne s := funext fun a => by
    unfold stashOne
    rw [hHeld]
  unfold dropAnswers stash
  rw [hOne]

theorem exceptingMe_eq {s : State} (c : Nat) (ev : Word) (hHeld : NMap.get? s.held s.cur = none) (hMarks : (me s).marks = []) :
    exceptingMe (excepting s c ev) = dropAnswers s { me s with
      pq := (me s).pq ++ (me s).wbuf, wbuf := [], early := [], answers := (me s).answers.filter (!isOwnNote ·) } := by
  obtain ⟨⟨l, p, hNow⟩, hMe⟩ := excepting_eq c ev hHeld hMarks
  rw [exceptingMe, hMe]
  exact dropAnswers_fabric (by rw [hNow]) _

/-- A first exception of a trunk strand. -/
theorem trunk_exception_first (s : State) (c n : Nat) (ev : Word) (hTrunk : (me s).trunk = true) (hTh : (me s).th = false)
    (hHeld : NMap.get? s.held s.cur = none) (hMarks : (me s).marks = []) :
    let t := takeException s c ev n
    me t = trunkEntry (dropAnswers s { me s with
        pq := (me s).pq ++ (me s).wbuf, wbuf := [], early := [], answers := (me s).answers.filter (!isOwnNote ·) }) s.slot c ev ∧
    (∀ r, getS t r = getS s r) ∧ SameMemory s t ∧
    { t with strands := s.strands, convoy := s.convoy, ord := s.ord, fabric := s.fabric } = s ∧
    { t.ord with performed := s.ord.performed, dead := s.ord.dead } = s.ord ∧
    { t.fabric with protoErr := s.fabric.protoErr } = s.fabric := by
  intro t
  obtain ⟨⟨l, p, hNow⟩, -⟩ := excepting_eq c ev hHeld hMarks
  have hSt := exceptingMe_eq c ev hHeld hMarks
  have hTake : t = putMe (excepting s c ev) (trunkEntry (exceptingMe (excepting s c ev)) (excepting s c ev).slot c ev) := by
    refine (takeException_eq s c n ev).trans ?_
    rw [if_pos (by rw [hSt]; exact hTrunk), if_neg (by rw [hSt]; exact fun h => Bool.false_ne_true (hTh.symm.trans h))]
  have hMe : me t = trunkEntry (exceptingMe (excepting s c ev)) s.slot c ev := by
    rw [hTake, me_putMe, hNow]
  have hOrd : t.ord = dropTickets s.ord (notedTickets (me s)) := by rw [hTake, hNow]; rfl
  refine ⟨by rw [hMe, hSt], fun r => ?_, ⟨fun _ _ => by rw [hOrd]; rfl, fun _ => by rw [hOrd]; rfl⟩, by rw [hTake, hNow]; rfl,
    by rw [hOrd]; rfl, by rw [hTake, hNow]; rfl⟩
  rw [getS, hMe, hSt]
  rfl

/-- A second exception of a trunk strand. -/
theorem trunk_exception_second (s : State) (c n : Nat) (ev : Word) (hTrunk : (me s).trunk = true) (hTh : (me s).th = true)
    (hHeld : NMap.get? s.held s.cur = none) (hMarks : (me s).marks = []) :
    (me (takeException s c ev n)).run = .dead ∧ SameMemory s (takeException s c ev n) := by
  obtain ⟨⟨l, p, hNow⟩, -⟩ := excepting_eq c ev hHeld hMarks
  have hSt := exceptingMe_eq c ev hHeld hMarks
  have hTake : takeException s c ev n =
      logTrunkStop (putMe (excepting s c ev) { exceptingMe (excepting s c ev) with run := .dead }) (exceptingMe (excepting s c ev)).core := by
    rw [takeException_eq, if_pos (by rw [hSt]; exact hTrunk), if_pos (by rw [hSt]; exact hTh)]
  have hOrd : (takeException s c ev n).ord = dropTickets s.ord (notedTickets (me s)) := by rw [hTake, hNow]; rfl
  refine ⟨?_, fun _ _ => by rw [hOrd]; rfl, fun _ => by rw [hOrd]; rfl⟩
  rw [hTake]
  exact congrArg Strand.run (me_putMe (excepting s c ev) { exceptingMe (excepting s c ev) with run := .dead })

/-- The array's holdings put back leave the strands as they are. -/
theorem mxPut_frame (s : State) (st : Strand) (l : List MxHold) : ∃ m, mxPut s st l = { s with mx := m } := by
  unfold mxPut
  split
  · exact ⟨s.mx, rfl⟩
  · exact ⟨_, rfl⟩

/-- The strand of a convoy that waits, at that convoy's start. -/
def abandoned (s : State) (sid : Nat) (h : Hold) : Strand :=
  undoStrand { strandOf s sid with answers := (strandOf s sid).answers.filter (!isOwnNote ·) } h.start

/-- A stop of a strand whose convoy waits. -/
theorem abandon_of_some {s : State} {sid : Nat} {h : Hold} (hHeld : NMap.get? s.held sid = some h) (hMarks : h.start.marks = []) :
    strandOf (abandon s sid) sid = committed (abandoned s sid h) ∧
      (∃ l, (abandon s sid).ord = dropTickets s.ord l) ∧ (abandon s sid).held = NMap.erase s.held sid ∧ (abandon s sid).cur = s.cur := by
  have hAbandon : ∃ l, abandon s sid =
      mxPut (commitStop (putStrand { s with held := NMap.erase s.held sid, ord := dropTickets s.ord l } sid (abandoned s sid h)) sid)
        (abandoned s sid h) h.mx := by
    rw [abandon, hHeld]
    exact ⟨_, rfl⟩
  obtain ⟨l, hAbandon⟩ := hAbandon
  have hStart : strandOf (putStrand { s with held := NMap.erase s.held sid, ord := dropTickets s.ord l } sid (abandoned s sid h)) sid =
      abandoned s sid h := strandOf_putStrand_same _ _ _
  obtain ⟨⟨ss, hStop⟩, hStrand, -⟩ := commitStop_strand (sid := sid)
    (s := putStrand { s with held := NMap.erase s.held sid, ord := dropTickets s.ord l } sid (abandoned s sid h)) (by rw [hStart]; exact hMarks)
  obtain ⟨m, hMx⟩ := mxPut_frame (commitStop (putStrand { s with held := NMap.erase s.held sid, ord := dropTickets s.ord l } sid
    (abandoned s sid h)) sid) (abandoned s sid h) h.mx
  rw [hMx] at hAbandon
  rw [hStart] at hStrand
  refine ⟨by rw [hAbandon]; exact hStrand, ⟨l, ?_⟩, ?_, ?_⟩ <;> rw [hAbandon, hStop] <;> rfl

/-- Settles O13. -/
theorem trunkException : Obligations.TrunkException := by
  refine ⟨trunk_exception_first, trunk_exception_second, fun s h hHeld hMarks => ?_⟩
  obtain ⟨hSt, ⟨l, hOrd⟩, hGone, hCur⟩ := abandon_of_some hHeld hMarks
  have hMe : me (abandon s s.cur) = committed (abandoned s s.cur h) := by rw [me, hCur]; exact hSt
  refine ⟨?_, fun r => ?_, ?_, ?_, ?_, ?_, ?_, ?_, ?_, ?_, ?_, ⟨fun _ _ => by rw [hOrd]; rfl, fun _ => by rw [hOrd]; rfl⟩⟩
  · rw [hGone]
    exact NMap.get?_erase_same _ _
  · rw [getS, hMe]
    rfl
  all_goals
    rw [hMe]
    rfl

end Sys2Proof.Machine
end


section
/-! SUPPORT. What is refused: an event without its data, and a race syllable on a context that the strand does not own (R364). -/

namespace Sys2Proof.Machine

/-- An event that needs data, offered without any, is refused by its name. -/
theorem exec_without_data {i : Instr} {name : String} (h : needsData i = some name) (s : State) :
    exec i { s with arg := .none } = .refused (.notEnabled name) := by
  cases i <;> cases h <;> rfl

/-- Settles O54. -/
theorem eventsNeedTheirData : Obligations.EventsNeedTheirData := by
  intro i s name h hArg
  have hSame : s = { s with arg := .none } := by rw [← hArg]
  rw [hSame]
  exact exec_without_data h s

/-! The checks of a context operand (R364). -/

/-- An operand that names no context stops the syllable with EVAL the operand. -/
theorem withCtx_of_none {s : State} {ss : BitVec 5} {hi : Bool} (h : ctxOf hi (getS s ss) = none) (k : Nat → State → Res) :
    withCtx s ss hi k = .trap cNotOwned (getS s ss) 0 := by
  rw [ctxOf, ite_eq_right_iff] at h
  have hRange : (if hi then (getS s ss).toNat % 2 ^ 32 else (getS s ss).toNat) / 64 ≠ 0 := fun hZero =>
    nomatch h (Nat.div_eq_zero_iff_lt (by decide) |>.mp hZero)
  rw [withCtx, if_pos hRange]

/-- A context that the strand does not own stops the syllable with EVAL its number. -/
theorem withCtx_of_other {s : State} {ss : BitVec 5} {hi : Bool} {c : Nat} (h : ctxOf hi (getS s ss) = some c)
    (hOwn : ownsCtx s (me s) c = false) (k : Nat → State → Res) : withCtx s ss hi k = .trap cNotOwned (BitVec.ofNat 64 c) 0 := by
  obtain ⟨hRange, hNum⟩ := Option.ite_none_right_eq_some.1 h
  cases hNum
  simp only [withCtx, Nat.div_eq_of_lt hRange, ne_eq, not_true_eq_false, if_false, hOwn, Bool.not_false, if_true]
  rfl

/-- A race syllable of a strand that may use it starts with the checks of its context operand. -/
theorem exec_withCtx {i : Instr} {s : State} {ss : BitVec 5} {hi : Bool} (hOperand : ctxOperand i = some (ss, hi))
    (hBars : (me s).trunk = false ∨ barsTrunk i = false) : ∃ k, exec i s = finish s (withCtx s ss hi k) := by
  have hStrand : barsTrunk i = true → (me s).trunk = false := fun h => hBars.resolve_right fun h' => Bool.false_ne_true (h'.symm.trans h)
  unfold ctxOperand at hOperand
  split at hOperand
  case h_1 | h_4 | h_5 | h_7 | h_8 => cases hOperand; exact ⟨_, rfl⟩
  case h_2 | h_3 => cases hOperand; exact ⟨_, congrArg (finish s) (vecOnly_of_strand (hStrand rfl) _ _)⟩
  case h_6 o =>
    cases hOperand
    refine ⟨_, congrArg (finish s) ((ite_congr rfl (fun _ => rfl) fun hPd => ?_).trans (ite_self _))⟩
    have hBar : barsTrunk (.rcdrop o) = true := bne_iff_ne.mpr fun h => hPd (by rw [h]; rfl)
    exact vecOnly_of_strand (hStrand hBar) _ _
  case h_9 o =>
    obtain ⟨hSel, hEq⟩ := Option.ite_none_right_eq_some.1 hOperand
    cases hEq
    have hKnown : ¬ ((decide (12 < o.sel.toNat) && decide (o.sel.toNat < 16)) || decide (17 < o.sel.toNat)) = true := by
      simp
      omega
    exact ⟨_, congrArg (finish s) (if_neg hKnown)⟩
  case h_10 => cases hOperand

/-- Settles O41. -/
theorem contextChecks : Obligations.ContextChecks := by
  intro i s ss hi hOperand hBars
  obtain ⟨k, hExec⟩ := exec_withCtx hOperand hBars
  refine ⟨fun hNone => ?_, fun c hSome hOwn => ?_⟩
  · rw [hExec, withCtx_of_none hNone]
    rfl
  · rw [hExec, withCtx_of_other hSome hOwn]
    rfl

end Sys2Proof.Machine
end


section
/-! SUPPORT. Scalar loads, stores, RED forms and barriers (R161, R166, R282, R283, R286, R295). -/

namespace Sys2Proof.Machine

/-! Loads (R256, R282). -/

/-- The checks of a scalar access give a register of the window to 8-byte accesses alone (R50). -/
theorem checkScalar_window {s : State} {st : Strand} {acc : Acc} {n off : Nat} {va : Word}
    (h : checkScalar s st acc n va = .ok (.window off)) : n = 8 := by
  unfold checkScalar at h
  split at h
  · cases h
  split at h
  · cases h
  split at h
  · cases h
  split at h
  · split at h
    · cases h
    · split at h
      next h8 => exact (by simpa using h8 : n = 8 ∧ _).1
      · cases h
  · exact absurd h (translate_ne_window s st acc va off)

/-- A place that the checks of a scalar access give holds as many bytes as are read. -/
theorem length_of_checkScalar {s : State} {st : Strand} {acc : Acc} {n : Nat} {va : Word} {p : Place} {b : List Byte}
    (hCheck : checkScalar s st acc n va = .ok p) (hBytes : localBytes s p n = some b) : b.length = n := by
  by_cases hWindow : ∃ off, p = .window off
  · obtain ⟨off, rfl⟩ := hWindow
    cases hBytes
    rw [length_bytesOf, checkScalar_window hCheck]
  · exact length_localBytes (fun off h => hWindow ⟨off, h⟩) hBytes

/-- A register write on top of new TLB entries. -/
theorem writesReg_tlb (s : State) (l : List TlbEntry) (sd : BitVec 5) (v : Word) :
    WritesReg { s with tlb := (setS { s with tlb := l } sd v).tlb } (setS { s with tlb := l } sd v) sd v :=
  writesReg_setS { s with tlb := l } sd v

/-- Settles O4. -/
theorem loadResults : Obligations.LoadResults := by
  intro o s p b hFresh hStream hCheck hBytes
  obtain ⟨hLook, hEarly, -⟩ := hFresh
  obtain ⟨l, hFill⟩ := tlbFill_eq s (me s) (lsAddr s o)
  let a := mkAcc .ls p (lsAddr s o) (accSize o.sz) .read false false false
  have hRead : readNow { s with tlb := l } 0 a = .bytes b 0 { s with tlb := l } :=
    readNow_local _ 0 a b (makeWay_plain _ a hStream rfl) hLook hEarly ((localBytes_tlb s l p _).trans hBytes)
  have hExec : exec (.ld o) s = .next (setS { s with tlb := l } o.sd (loadValue o.sz b)) := by
    have hCheck' : checkScalar s (me s) .load (accSize o.sz) (lsAddr s o) = .ok p := hCheck
    simp only [exec, execLd, withPlace, hCheck', hFill]
    exact congrArg (fun g : Got => finish s (g.res (lsAddr s o) 0 fun b _ s2 => .ok (setS s2 o.sd (loadValue o.sz b)))) hRead
  have hValue : loadedValue o.sz b = loadValue o.sz b := by
    rw [loadedValue, length_of_checkScalar hCheck hBytes]
    rfl
  exact ⟨_, hExec, hValue ▸ writesReg_tlb s l o.sd _⟩

/-! Stores and RED forms (R161, R282, R283, R286). -/

/-- An access of no group of its own enters the issue stream once, on top of new TLB entries. -/
theorem queueAccess_once (s : State) (l : List TlbEntry) {a : Access} (hGroup : a.group = 0) :
    if hasEntered (me s) s.slot = true then
      MeBecomes { s with tlb := (queueItem { s with tlb := l } (.acc a)).tlb } (queueItem { s with tlb := l } (.acc a)) (me s)
    else Queues s (queueItem { s with tlb := l } (.acc a)) (.acc { a with mark := (me s).armed, slot := s.slot }) := by
  have hLast : lastGroup (me { s with tlb := l }) [.acc a] = (me { s with tlb := l }).nextGrp := by
    simp only [lastGroup, List.foldl_cons, List.foldl_nil, hGroup, Nat.max_zero]
  exact queueItem_once (s := { s with tlb := l }) hLast rfl

/-- Settles O5. -/
theorem storeIssues : Obligations.StoreIssues := by
  intro o s p hCheck
  obtain ⟨l, hFill⟩ := tlbFill_eq s (me s) (lsAddr s o)
  have hCheck' : checkScalar s (me s) .store (accSize o.sz) (lsAddr s o) = .ok p := hCheck
  refine ⟨_, ?_, queueAccess_once s l (a := mkAcc .ls p (lsAddr s o) (accSize o.sz)
    (.write (bytesOf (accSize o.sz) (getS s o.sd).toNat)) false false false) rfl⟩
  simp only [exec, execSt, withPlace, hCheck', hFill, finish]

/-- An atomic that returns nothing enters the issue stream, unless it has performed before its turn. -/
theorem red_once {s : State} {n : Nat} {va : Word} {p : Place} (op : AtomOp) (v : BitVec 512) (ord : BitVec 2) (scope : BitVec 3)
    (hLook : s.look = none) (hCheck : checkScalar s (me s) .atomic n va = .ok p) :
    ∃ t, red s op n va v ord scope = .ok t ∧
      if performedBefore s = false then
        Queues s t (.acc { mkAcc .ls p va n (.atomic op n v) (ordRel ord) (ordAcq ord) (isDom scope) with mark := (me s).armed, slot := s.slot })
      else MeBecomes { s with tlb := t.tlb } t (me s) := by
  obtain ⟨l, hFill⟩ := tlbFill_eq s (me s) va
  have hOnce := queueAccess_once s l (a := mkAcc .ls p va n (.atomic op n v) (ordRel ord) (ordAcq ord) (isDom scope)) rfl
  by_cases hDone : ((doneBefore s noteElem).isSome || (doneBefore s aheadElem).isSome) = true
  · have hBefore : ¬ performedBefore s = false := by
      rw [performedBefore, hDone, Bool.true_or]
      exact Bool.true_eq_false_eq_False
    refine ⟨{ s with tlb := l }, ?_, by rw [if_neg hBefore]; exact meBecomes_refl { s with tlb := l }⟩
    simp only [red, withPlace, hCheck, hFill]
    exact if_pos hDone
  · refine ⟨queueItem { s with tlb := l } (.acc (mkAcc .ls p va n (.atomic op n v) (ordRel ord) (ordAcq ord) (isDom scope))), ?_, ?_⟩
    · simp only [red, withPlace, hCheck, hFill, hLook, Option.filter_none]
      exact if_neg hDone
    · rw [performedBefore, eq_false_of_ne_true hDone, Bool.false_or]
      cases hEntered : hasEntered (me s) s.slot with
      | true => simpa [hEntered] using hOnce
      | false => simpa [hEntered] using hOnce

theorem exec_of_redForm {i : Instr} {op : AtomOp} {n : Nat} {sa sb : BitVec 5} {ord : BitVec 2} {scope : BitVec 3}
    (h : redForm i = some (op, n, sa, sb, ord, scope)) (s : State) :
    exec i s = finish s (red s op n (getS s sa) (redVal s n sb) ord scope) := by
  cases i with
  | redadd | redswap | redand | redor | redxor | redmax | redmin | redmaxn | redminn | redaddF32 | redmaxF32 | redminF32 =>
    cases h
    rfl
  | _ => cases h

/-- Settles O6. -/
theorem redIssues : Obligations.RedIssues := by
  refine ⟨fun i s op n sa sb ord scope p hForm hLook hCheck => ?_, fun o s p hClean hLook hCheck => ?_⟩
  · obtain ⟨t, hRed, hEffect⟩ := red_once op (redVal s n sb) ord scope hLook hCheck
    exact ⟨t, by rw [exec_of_redForm hForm, hRed]; rfl, hEffect⟩
  · obtain ⟨t, hRed, hEffect⟩ := red_once .ea (eaClean ((me s).eas.getD o.ea.toNat eaInit)) o.ord o.scope hLook hCheck
    refine ⟨t, ?_, hEffect⟩
    simp only [exec, execAmoea, hClean, Bool.false_eq_true, if_false, hRed, finish]

/-! Barriers (R166, R295). -/

theorem sliceBytes_eq {b : List Byte} {i k : Nat} (h : i + k ≤ b.length) : sliceBytes b i k = (b.drop i).take k := by
  refine List.ext_getElem (by simp [sliceBytes]; omega) fun j hj _ => ?_
  have hj' : j < k := by simpa [sliceBytes] using hj
  simp [sliceBytes, List.getElem?_eq_getElem (show i + j < b.length by omega)]

/-- What an arrival makes of the object's sixteen bytes (R295). -/
theorem barArrive_eq {b : List Byte} (h : b.length = 16) : barArrive b =
    if max (numOf (b.take 4)) 1 ≤ numOf ((b.drop 4).take 4) + 1 then
      b.take 4 ++ bytesOf 4 0 ++ bytesOf 4 ((numOf ((b.drop 8).take 4) + 1) % 2 ^ 32) ++ b.drop 12
    else b.take 4 ++ bytesOf 4 (numOf ((b.drop 4).take 4) + 1) ++ b.drop 8 := by
  have h12 : (b.drop 12).take 4 = b.drop 12 := List.take_of_length_le (by simp [h])
  have h8 : (b.drop 8).take 8 = b.drop 8 := List.take_of_length_le (by simp [h])
  simp only [barArrive, leAt, sliceBytes_eq (b := b) (i := 0) (k := 4) (by omega), sliceBytes_eq (b := b) (i := 4) (k := 4) (by omega),
    sliceBytes_eq (b := b) (i := 8) (k := 4) (by omega), sliceBytes_eq (b := b) (i := 12) (k := 4) (by omega),
    sliceBytes_eq (b := b) (i := 8) (k := 8) (by omega), List.drop_zero, h12, h8]

/-- The ordering machine after an arrival at a home die. -/
def arrivedOrd (s : State) (loc home : Nat) : Ordering_ :=
  performWrite (reach s.ord home (appliedOf s.ord (me s).die)) home loc home
    (barArrive (Memory.getBytes (viewOf (reach s.ord home (appliedOf s.ord (me s).die)) home) loc 16))

/-- The state after an arrival that found the bytes b: the strand has noted it and waits. -/
def barState (s : State) (l : List TlbEntry) (o : Ordering_) (b : List Byte) (va : Word) : State :=
  barWaits (standNow (putMe { s with tlb := l, ord := o } (noteDone (me s) s.slot noteElem b))) va (leAt b 8 4)

theorem barHere_of_clean {s : State} {va : Word} {a : Access} {loc home : Nat} (l : List TlbEntry) (hFrame : vacatedFrame s loc = false)
    (hClean : memPoisoned s.ord home loc 16 = false) :
    barHere { s with tlb := l } va a loc home =
      .ok (barState s l (reachFor (arrivedOrd s loc home) (me s) (a, appliedOf (arrivedOrd s loc home) home))
        (Memory.getBytes (viewOf (reach s.ord home (appliedOf s.ord (me s).die)) home) loc 16) va) := by
  have hRead : readPoisoned { s with tlb := l } home loc 16 = false := by
    rw [readPoisoned]
    exact (congrArg _ hClean).trans (Bool.and_false _)
  have hBytes : ∀ o : Ordering_, memRead { s with tlb := l, ord := o } home loc 16 = Memory.getBytes (viewOf o home) loc 16 := fun o =>
    if_neg (Bool.eq_false_iff.mp hFrame)
  have hWrite : ∀ (o : Ordering_) (b : List Byte), memWrite { s with tlb := l, ord := o } home loc home b =
      { s with tlb := l, ord := performWrite o home loc home b } := fun o b => if_neg (Bool.eq_false_iff.mp hFrame)
  simp only [barHere, hRead, Bool.false_eq_true, if_false]
  rw [hBytes, hWrite]
  rfl

theorem me_barState (s : State) (l : List TlbEntry) (o : Ordering_) (b : List Byte) (va : Word) : me (barState s l o b va) =
    { noteDone (me s) s.slot noteElem b with barw := true, bargen := BitVec.ofNat 32 (leAt b 8 4), barAddr := va } := by
  rw [barState, barWaits, me_putMe, me_standNow, me_putMe]

theorem strandOf_barState_ne {s : State} {k : Nat} (l : List TlbEntry) (o : Ordering_) (b : List Byte) (va : Word) (h : k ≠ s.cur) :
    strandOf (barState s l o b va) k = strandOf s k := by
  let u := putMe { s with tlb := l, ord := o } (noteDone (me s) s.slot noteElem b)
  exact (strandOf_putMe_ne (standNow u) k _ ((standNow_cur u).symm ▸ h)).trans ((strandOf_standNow u k).trans (strandOf_putMe_ne _ k _ h))

theorem standsNow_barState (s : State) (l : List TlbEntry) (o : Ordering_) (b : List Byte) (va : Word) : StandsNow s (barState s l o b va) :=
  standsNow_standNow (putMe { s with tlb := l, ord := o } (noteDone (me s) s.slot noteElem b))

/-- Beside its strand, its TLB and what memory a fault goes back to, an arrival changes the ordering machine alone. -/
theorem barState_frame (s : State) (l : List TlbEntry) (o : Ordering_) (b : List Byte) (va : Word) : (barState s l o b va).ord = o ∧
    { barState s l o b va with strands := s.strands, tlb := s.tlb, ord := s.ord, convoy := s.convoy } = s := by
  obtain ⟨c, hStand⟩ := standNow_eq (putMe { s with tlb := l, ord := o } (noteDone (me s) s.slot noteElem b))
  rw [barState, hStand]
  exact ⟨rfl, rfl⟩

/-- BAR with nothing to wait for, in memory of this package. -/
theorem exec_bar_here {s : State} {o : BarOps} {p : Place} {loc home : Nat} (hScope : o.scope.toNat = 1 → (me s).rec_.gang = true)
    (hFresh : Fresh s) (hQuiet : Quiet (me s)) (hPlace : memPlace p = some (loc, home))
    (hCheck : checkScalar s (me s) .atomic 16 (getS s o.sa) = .ok p) (hFrame : vacatedFrame s loc = false)
    (hClean : memPoisoned s.ord home loc 16 = false) :
    ∃ l a, a.place = p ∧ exec (.bar o) s = .next (barState s l
      (reachFor (arrivedOrd s loc home) (me s) (a, appliedOf (arrivedOrd s loc home) home))
      (Memory.getBytes (viewOf (reach s.ord home (appliedOf s.ord (me s).die)) home) loc 16) (getS s o.sa)) := by
  obtain ⟨-, -, hAnswer⟩ := hFresh
  obtain ⟨l, hFill⟩ := tlbFill_eq s (me s) (getS s o.sa)
  let a := mkAcc .ls p (getS s o.sa) 16 (.atomic .add 16 0) true false (isDom o.scope)
  have hLegal : (decide (o.scope.toNat = 1) && !(me s).rec_.gang) = false := by simpa using hScope
  have hNew : doneBefore { s with tlb := l } noteElem = none := by
    rw [doneBefore]
    exact congrArg (fun x : Option Answer => match x.bind (·.data) with
      | some (.bytes b) => some b
      | _ => none) (hAnswer noteElem)
  have hWay : makeWay { s with tlb := l } a = some { s with tlb := l } := makeWay_quiet _ a hQuiet rfl
  refine ⟨l, a, rfl, ?_⟩
  have hArrive := barHere_of_clean (a := a) (va := getS s o.sa) l hFrame hClean
  simp only [a] at hWay hArrive ⊢
  cases p with
  | mem _ _ | own _ _ =>
    cases hPlace
    simp only [exec, execBar, hLegal, Bool.false_eq_true, if_false, withPlace, hCheck, hFill, hNew, hWay, hArrive, finish]
  | _ => cases hPlace

/-- Settles O11. -/
theorem barrierArrival : Obligations.BarrierArrival := by
  refine ⟨fun o s p loc home hScope hFresh hQuiet hPlace hCheck hFrame hClean => ?_, fun o s hCluster hGang => ?_⟩
  · obtain ⟨l, a, hAt, hExec⟩ := exec_bar_here hScope hFresh hQuiet hPlace hCheck hFrame hClean
    intro o0 b count arrived gen b' o1
    have hLength : b.length = 16 := Memory.length_getBytes _ _ _
    have hOrd1 : o1 = arrivedOrd s loc home := congrArg (performWrite o0 home loc home) (barArrive_eq hLength).symm
    have hGen : gen = leAt b 8 4 := congrArg numOf (sliceBytes_eq (by omega)).symm
    clear_value o1 gen
    subst hOrd1 hGen
    let oEnd := reachFor (arrivedOrd s loc home) (me s) (a, appliedOf (arrivedOrd s loc home) home)
    obtain ⟨hOrd, hRest⟩ := barState_frame s l oEnd b (getS s o.sa)
    refine ⟨_, hExec, hOrd.trans ?_, standsNow_barState s l oEnd b (getS s o.sa), hRest, me_barState s l oEnd b (getS s o.sa),
      fun k hk => strandOf_barState_ne l oEnd b (getS s o.sa) hk⟩
    cases p with
    | mem _ _ => exact reachFor_of_mem hAt _ _ _
    | own _ _ => exact reachFor_of_own hAt _ _ _
    | _ => cases hPlace
  · simp only [exec, execBar, hCluster, hGang, Bool.not_false, decide_true, Bool.and_self, if_true]
    rfl

end Sys2Proof.Machine
end


section
/-! SUPPORT. The end of a record (R98, R101, R115, R199, R289). -/

namespace Sys2Proof.Machine

/-! What the trace records of a convoy change (R77). -/

theorem marksOf_frame (s : State) (sid : Nat) :
    (∃ o r l, marksOf s sid = { s with ord := o, trace := r, strands := l }) ∧
      strandOf (marksOf s sid) sid = { strandOf s sid with marks := [] } := by
  let s0 := if (strandOf s sid).marks.isEmpty then s else putStrand s sid { strandOf s sid with marks := [] }
  have hFrame0 : ∃ l, s0 = { s with strands := l } := by
    dsimp only [s0]
    split
    · exact ⟨s.strands, rfl⟩
    · exact ⟨_, rfl⟩
  have hStrand0 : strandOf s0 sid = { strandOf s sid with marks := [] } := by
    dsimp only [s0]
    split
    next hEmpty => rw [← List.isEmpty_iff.mp hEmpty]
    next => exact strandOf_putStrand_same _ _ _
  obtain ⟨l0, hFrame0⟩ := hFrame0
  unfold marksOf
  refine List.foldlRecOn (motive := fun t : State => (∃ o r l, t = { s with ord := o, trace := r, strands := l }) ∧
    strandOf t sid = { strandOf s sid with marks := [] }) _ _ ⟨⟨s.ord, s.trace, l0, hFrame0⟩, hStrand0⟩ fun t ⟨⟨o, r, l, ht⟩, hStrand⟩ m _ => ?_
  dsimp only
  split
  · obtain ⟨o', r', hPut⟩ := tracePut_eq t (strandOf s sid).die m.1 (strandSrc (strandOf s sid)) m.2
    rw [hPut]
    exact ⟨⟨o', r', l, by rw [ht]⟩, hStrand⟩
  · exact ⟨⟨o, r, l, ht⟩, hStrand⟩

theorem physWrite_tlb (s : State) (l : List TlbEntry) (d pa : Nat) (b : List Byte) :
    physWrite { s with tlb := l } d pa b = { physWrite s d pa b with tlb := l } := by
  have hVacated : vacatedFrame { s with tlb := l } pa = vacatedFrame s pa := rfl
  unfold physWrite memWrite
  rw [hVacated]
  split
  · split <;> rfl
  · rfl

theorem tracePut_tlb (s : State) (l : List TlbEntry) (d code src : Nat) (pay : List Byte) :
    tracePut { s with tlb := l } d code src pay = { tracePut s d code src pay with tlb := l } := by
  have hRing : ringOf { s with tlb := l } d = ringOf s d := rfl
  unfold tracePut
  rw [hRing]
  dsimp only
  split
  · rfl
  · rw [physWrite_tlb]
    rfl

theorem marksOf_tlb (s : State) (l : List TlbEntry) (sid : Nat) : marksOf { s with tlb := l } sid = { marksOf s sid with tlb := l } := by
  have hFold : ∀ (ms : List (Nat × List Byte)) (t : State) (d src : Nat),
      ms.foldl (fun (s : State) m => if (ringOf s d).en && (ringOf s d).user then tracePut s d m.1 src m.2 else s) { t with tlb := l } =
        { ms.foldl (fun (s : State) m => if (ringOf s d).en && (ringOf s d).user then tracePut s d m.1 src m.2 else s) t with tlb := l } := by
    intro ms
    induction ms with
    | nil => exact fun _ _ _ => rfl
    | cons m ms ih =>
      intro t d src
      have hRing : ringOf { t with tlb := l } d = ringOf t d := rfl
      rw [List.foldl_cons, List.foldl_cons, hRing]
      split
      · rw [tracePut_tlb, ih]
      · rw [ih]
  have hStrand : strandOf { s with tlb := l } sid = strandOf s sid := rfl
  unfold marksOf
  rw [hStrand]
  dsimp only
  split
  · exact hFold _ s _ _
  · exact hFold _ (putStrand s sid { strandOf s sid with marks := [] }) _ _

/-! The slot, the array slices and the save slot of a strand that ends (R115, R199). -/

/-- The state once a strand's slots are free, before its child cell counts it. -/
def released (s : State) (st : Strand) : State :=
  { releaseSlot (releaseHold s st) st with strands := NMap.erase (releaseSlot (releaseHold s st) st).strands st.sid }

theorem releaseHold_frame (s : State) (st : Strand) : ∃ m, releaseHold s st = { s with mx := m } := by
  unfold releaseHold
  split
  · exact ⟨s.mx, rfl⟩
  · exact ⟨_, rfl⟩

theorem releaseSlot_frame (s : State) (st : Strand) : ∃ d l, releaseSlot s st = { s with disp := d, strands := l } := by
  unfold releaseSlot
  split
  · exact ⟨s.disp, s.strands, rfl⟩
  · exact ⟨_, _, rfl⟩

theorem released_frame (s : State) (st : Strand) : ∃ m d l, released s st = { s with mx := m, disp := d, strands := l } := by
  obtain ⟨m, hHold⟩ := releaseHold_frame s st
  obtain ⟨d, l, hSlot⟩ := releaseSlot_frame (releaseHold s st) st
  exact ⟨m, d, _, by rw [released, hSlot, hHold]⟩

theorem released_mx (s : State) (st : Strand) : (released s st).mx = (releaseHold s st).mx := by
  obtain ⟨d, l, hSlot⟩ := releaseSlot_frame (releaseHold s st) st
  rw [released, hSlot]

/-- A released strand holds no slices of its cluster's array; every other holding stays. -/
theorem releaseHold_mx (s : State) (st : Strand) : holdOf (releaseHold s st) st = none ∧
    (∀ ck, ck ≠ st.clusterKey → NMap.getD (releaseHold s st).mx ck [] = NMap.getD s.mx ck []) ∧
    (NMap.getD (releaseHold s st).mx st.clusterKey []).filter (fun h => !(h.owner == mxOwner st && h.rank == st.rank)) =
      (NMap.getD s.mx st.clusterKey []).filter (fun h => !(h.owner == mxOwner st && h.rank == st.rank)) := by
  unfold releaseHold
  split
  next hNone => exact ⟨hNone, fun _ _ => rfl, rfl⟩
  next =>
    refine ⟨?_, fun ck hk => NMap.getD_set_ne _ _ _ _ _ hk, ?_⟩
    · rw [holdOf, NMap.getD_set_same, List.find?_eq_none]
      intro h hMem
      have hOther := (List.mem_filter.mp hMem).2
      rw [Bool.not_eq_true'] at hOther
      exact Bool.eq_false_iff.mp hOther
    · rw [NMap.getD_set_same, List.filter_filter]
      simp only [Bool.and_self]

/-- The save slot that a released strand had is free. -/
theorem releaseSlot_saved {s : State} {st : Strand} {n : Nat} (h : ownSlot s st = some n) :
    NMap.get? (dispOf (releaseSlot s st) st.die).saved n = none := by
  rw [releaseSlot, h]
  have hDisp : ∀ (l : NMap Strand) (x : Dispatcher), dispOf { putDisp s st.die x with strands := l } st.die = x := fun _ _ => NMap.getD_set_same _ _ _ _
  dsimp only
  rw [hDisp]
  exact NMap.get?_erase_same _ _

theorem released_saved {s : State} {st : Strand} {n : Nat} (h : ownSlot s st = some n) :
    NMap.get? (dispOf (released s st) st.die).saved n = none := by
  obtain ⟨m, hHold⟩ := releaseHold_frame s st
  have hOwn : ownSlot (releaseHold s st) st = some n := by rw [hHold]; exact h
  exact releaseSlot_saved hOwn

/-! The child cell (R98). -/

theorem setCont_frame (s : State) (c : Nat) (k : Cont) : ∃ m, setCont s c k = { s with cells := m } := by
  unfold setCont
  split
  · exact ⟨s.cells, rfl⟩
  · exact ⟨_, rfl⟩

theorem subCellN_frame (k : Nat) (s : State) (c n : Nat) :
    ∃ m r q o, subCellN k s c n = { s with cells := m, ready := r, queues := q, orderNo := o } := by
  induction k generalizing s c n with
  | zero => exact ⟨_, _, _, _, rfl⟩
  | succ k ih =>
    unfold subCellN
    split
    · exact ⟨_, _, _, _, rfl⟩
    · split
      · exact ⟨_, _, _, _, rfl⟩
      · dsimp only
        split
        · exact ⟨_, _, _, _, rfl⟩
        · exact ⟨_, _, _, _, rfl⟩
        next j _ =>
          obtain ⟨m, r, q, o, h⟩ := ih { s with cells := NMap.erase s.cells c } j 1
          exact ⟨m, r, q, o, by rw [h]⟩
        · exact ⟨_, _, _, _, rfl⟩

/-- A cell that is free stays free when counts fall. -/
theorem subCellN_free {k : Nat} {s : State} {c : Nat} (h : NMap.get? s.cells c = none) (j n : Nat) : NMap.get? (subCellN k s j n).cells c = none := by
  induction k generalizing s j n with
  | zero => exact h
  | succ k ih =>
    have hErase : ∀ i, NMap.get? (NMap.erase s.cells i) c = none := fun i => by
      by_cases hi : c = i
      · rw [hi]
        exact NMap.get?_erase_same _ _
      · rw [NMap.get?_erase_ne _ _ _ hi, h]
    unfold subCellN
    split
    · exact h
    next x hSome =>
      split
      · have hj : c ≠ j := fun hEq => nomatch (hEq ▸ h).symm.trans hSome
        exact (NMap.get?_set_ne _ _ _ _ hj).trans h
      · dsimp only
        split
        · exact hErase j
        · exact hErase j
        · exact ih (hErase j) _ _
        · exact hErase j

/-- The count of a cell that stays. -/
theorem subCell_of_lt {s : State} {c n : Nat} {x : Cell} (h : NMap.get? s.cells c = some x) (hCount : n < x.count) :
    subCell s c n = { s with cells := NMap.set s.cells c { x with count := x.count - n } } := by
  simp only [subCell, subCellN, h, hCount, if_true]

/-- A cell whose count reaches zero is free. -/
theorem subCell_free {s : State} {c n : Nat} {x : Cell} (h : NMap.get? s.cells c = some x) (hCount : ¬ n < x.count) :
    NMap.get? (subCell s c n).cells c = none := by
  have hErase : NMap.get? (NMap.erase s.cells c) c = none := NMap.get?_erase_same _ _
  simp only [subCell, subCellN, h, hCount, if_false]
  split
  · exact hErase
  · exact hErase
  · exact subCellN_free (s := { s with cells := NMap.erase s.cells c }) hErase _ _
  · exact hErase

theorem length_pos_of_get? {α : Type} {m : NMap α} {n : Nat} {v : α} (h : NMap.get? m n = some v) : ∃ k, m.length = k + 1 := by
  cases m with
  | nil => cases h
  | cons x t => exact ⟨_, rfl⟩

/-- A cell with a successor that reaches zero makes it ready. -/
theorem subCell_enqueue {s : State} {c n : Nat} {x : Cell} {r : Record} (h : NMap.get? s.cells c = some x) (hCount : ¬ n < x.count)
    (hCont : x.cont = .enqueue r) : subCell s c n = enqueueRec { s with cells := NMap.erase s.cells c } r := by
  simp only [subCell, subCellN, h, hCount, if_false, hCont]

/-- A cell that reaches zero subtracts 1 from its parent. -/
theorem subCell_parent {s : State} {c n j : Nat} {x y : Cell} (h : NMap.get? s.cells c = some x) (hCount : ¬ n < x.count)
    (hCont : x.cont = .subParent j) (hj : j ≠ c) (hParent : NMap.get? s.cells j = some y) (hMore : 1 < y.count) :
    subCell s c n = { s with cells := NMap.set (NMap.erase s.cells c) j { y with count := y.count - 1 } } := by
  obtain ⟨k, hk⟩ := length_pos_of_get? h
  have hStill : NMap.get? (NMap.erase s.cells c) j = some y := (NMap.get?_erase_ne _ _ _ hj).trans hParent
  simp only [subCell, hk, subCellN, h, hCount, if_false, hCont, hStill, hMore, if_true]

/-- The continuation that a strand's end gives its child cell. -/
def endCont (st : Strand) : Option Record → Cont
  | some r => .enqueue r
  | none => .subParent st.rec_.parent

/-- The child cell once its continuation is set, where the strand's end sets it. -/
def endCell (st : Strand) (succ : Option Record) (x : Cell) : Cell :=
  { x with cont := if st.rank = 0 ∨ x.cont = .unset then endCont st succ else x.cont }

/-- What the end of a strand does to its child cell. -/
theorem takeOff_of_child {s : State} {st : Strand} {succ : Option Record} {c : Nat} {x : Cell} (hChild : st.rec_.child = some c)
    (hCell : NMap.get? s.cells c = some x) : ∃ u, takeOff s st succ = subCell u c 1 ∧
      (∃ m, u = { released s st with cells := m }) ∧ NMap.get? u.cells c = some (endCell st succ x) ∧
      ∀ j, j ≠ c → NMap.get? u.cells j = NMap.get? s.cells j := by
  obtain ⟨m, d, l, hFrame⟩ := released_frame s st
  have hCells : (released s st).cells = s.cells := by rw [hFrame]
  have hTake : takeOff s st succ = subCell (if st.rank = 0 || x.cont == .unset then setCont (released s st) c (endCont st succ)
      else released s st) c 1 := by
    have hSome : NMap.get? (releaseSlot (releaseHold s st) st).cells c = some x := (congrArg (NMap.get? · c) hCells).trans hCell
    unfold takeOff
    simp only [hChild, hSome]
    cases succ <;> rfl
  refine ⟨_, hTake, ?_, ?_, fun j hj => ?_⟩
  · split
    · exact setCont_frame _ _ _
    · exact ⟨_, rfl⟩
  · by_cases hSet : st.rank = 0 ∨ x.cont = .unset
    · have hSet' : (decide (st.rank = 0) || x.cont == .unset) = true := by simpa using hSet
      rw [if_pos hSet', setCont, hCells, hCell, endCell, if_pos hSet]
      exact NMap.get?_set_same _ _ _
    · have hSet' : ¬ (decide (st.rank = 0) || x.cont == .unset) = true := by simpa using hSet
      rw [if_neg hSet', hCells, hCell, endCell, if_neg hSet]
  · split
    · rw [setCont, hCells, hCell]
      exact NMap.get?_set_ne _ _ _ _ hj
    · rw [hCells]

theorem takeOff_frame (s : State) (st : Strand) (succ : Option Record) :
    ∃ m r q o, takeOff s st succ = { released s st with cells := m, ready := r, queues := q, orderNo := o } := by
  have hSub : ∀ c k, ∃ m r q o, subCell (setCont (released s st) c k) c 1 =
      { released s st with cells := m, ready := r, queues := q, orderNo := o } := fun c k => by
    obtain ⟨m, hCont⟩ := setCont_frame (released s st) c k
    obtain ⟨m', r, q, o, hSub⟩ := subCellN_frame ((setCont (released s st) c k).cells.length + 1) (setCont (released s st) c k) c 1
    exact ⟨m', r, q, o, hSub.trans (by rw [hCont])⟩
  unfold takeOff
  split
  next => exact ⟨_, _, _, _, rfl⟩
  next c _ =>
    dsimp only
    split
    · split <;> exact hSub c _
    · exact subCellN_frame _ (released s st) c 1

/-! The end of DONE (R289). -/

/-- A strand that ends, with its trace marks written. -/
def unmarked (st : Strand) : Strand := { st with marks := [] }

/-- What the end of a strand leaves of its child cell. -/
theorem takeOff_child {s v : State} {st : Strand} {succ : Option Record} (hCells : v.cells = s.cells) (hReady : v.ready = s.ready)
    (hPower : v.power = s.power) (hOrder : v.orderNo = s.orderNo) :
    ∀ c x, st.rec_.child = some c → NMap.get? s.cells c = some x →
      (1 < x.count → (takeOff v (unmarked st) succ).ready = s.ready ∧ NMap.get? (takeOff v (unmarked st) succ).cells c = some { x with
        count := x.count - 1
        cont := if st.rank = 0 ∨ x.cont = .unset then
            match succ with
            | some r => .enqueue r
            | none => .subParent st.rec_.parent
          else x.cont }) ∧
      (x.count ≤ 1 → NMap.get? (takeOff v (unmarked st) succ).cells c = none ∧
        (st.rank = 0 ∨ x.cont = .unset →
          match succ with
          | some r => (takeOff v (unmarked st) succ).ready = s.ready ++ [{ r with readyAt := s.power.working, order := s.orderNo, passed := [] }]
          | none => ∀ y, st.rec_.parent ≠ c → NMap.get? s.cells st.rec_.parent = some y → 1 < y.count →
              NMap.get? (takeOff v (unmarked st) succ).cells st.rec_.parent = some { y with count := y.count - 1 } ∧
                (takeOff v (unmarked st) succ).ready = s.ready)) := by
  intro c x hChild hCell
  obtain ⟨u, hTake, ⟨m, hFrame⟩, hAt, hOther⟩ := takeOff_of_child (s := v) (st := unmarked st) (succ := succ) hChild (hCells ▸ hCell)
  obtain ⟨m1, d1, l1, hRel⟩ := released_frame v (unmarked st)
  have hKeep : u.ready = s.ready ∧ u.power = s.power ∧ u.orderNo = s.orderNo := by
    rw [hFrame, hRel]
    exact ⟨hReady, hPower, hOrder⟩
  obtain ⟨hReadyU, hPowerU, hOrderU⟩ := hKeep
  rw [hTake]
  refine ⟨fun hMore => ?_, fun hLast => ⟨subCell_free hAt (not_lt.mpr hLast), fun hSet => ?_⟩⟩
  · rw [subCell_of_lt hAt hMore]
    refine ⟨hReadyU, (NMap.get?_set_same _ _ _).trans ?_⟩
    cases succ <;> rfl
  · have hCont : (endCell (unmarked st) succ x).cont = endCont st succ := if_pos hSet
    cases succ with
    | some r =>
      rw [subCell_enqueue hAt (not_lt.mpr hLast) hCont, enqueueRec, hReadyU, hPowerU, hOrderU]
    | none =>
      intro y hParent hCellJ hMore
      rw [subCell_parent hAt (not_lt.mpr hLast) hCont hParent ((hOther _ hParent).trans (hCells ▸ hCellJ)) hMore]
      exact ⟨NMap.get?_set_same _ _ _, hReadyU⟩

/-- The end of a strand whose convoy's trace records are written, whatever leaves its TLB has taken. -/
theorem ended_takeOff {s : State} (l : List TlbEntry) (hSid : (me s).sid = s.cur) (hRoom : overfull (me s) = false) (succ : Option Record) :
    me (writeMarks { s with tlb := l }) = unmarked (me s) ∧ Ended s (takeOff (writeMarks { s with tlb := l }) (unmarked (me s)) succ) succ := by
  have hWrite : ∀ t : State, overfull (me t) = false → writeMarks t = marksOf t t.cur := fun t h => if_neg (Bool.eq_false_iff.mp h)
  have hMarks : writeMarks { s with tlb := l } = { writeMarks s with tlb := l } :=
    (hWrite { s with tlb := l } hRoom).trans ((marksOf_tlb s l s.cur).trans (by rw [hWrite s hRoom]))
  obtain ⟨⟨o, r, ss, hFrame⟩, hStrand⟩ := marksOf_frame s s.cur
  rw [← hWrite s hRoom] at hFrame hStrand
  have hNow : writeMarks { s with tlb := l } = { s with ord := o, trace := r, strands := ss, tlb := l } := by rw [hMarks, hFrame]
  have hMe : me (writeMarks { s with tlb := l }) = unmarked (me s) := by
    rw [hMarks]
    have hCur : (writeMarks s).cur = s.cur := by rw [hFrame]
    exact (congrArg (strandOf (writeMarks s)) hCur).trans hStrand
  refine ⟨hMe, ?_⟩
  have hOrd : (writeMarks { s with tlb := l }).ord = (writeMarks s).ord := by rw [hMarks]
  let v := writeMarks { s with tlb := l }
  obtain ⟨m, r1, q, n, hOff⟩ := takeOff_frame v (unmarked (me s)) succ
  obtain ⟨m1, d1, l1, hRel⟩ := released_frame v (unmarked (me s))
  obtain ⟨hHold, hOtherMx, hMx⟩ := releaseHold_mx v (unmarked (me s))
  have hOffMx : (takeOff v (unmarked (me s)) succ).mx = (releaseHold v (unmarked (me s))).mx := by
    rw [hOff]
    exact released_mx v (unmarked (me s))
  have hVMx : (writeMarks { s with tlb := l }).mx = s.mx := by rw [hNow]
  rw [hVMx] at hOtherMx hMx
  refine ⟨?_, ?_, fun ck hk => ?_, ?_, fun k hOwn => ?_, ?_, ?_⟩
  · have hErased : (takeOff v (unmarked (me s)) succ).strands =
        NMap.erase (releaseSlot (releaseHold v (unmarked (me s))) (unmarked (me s))).strands s.cur := by
      rw [hOff, ← hSid]
      rfl
    rw [strandOf, hErased, NMap.getD, NMap.get?_erase_same]
    rfl
  · rw [holdOf, hOffMx]
    exact hHold
  · rw [hOffMx]
    exact hOtherMx ck hk
  · rw [hOffMx]
    exact hMx
  · have hOwnV : ownSlot v (unmarked (me s)) = some k := by
      rw [← hOwn]
      change ownSlot (writeMarks { s with tlb := l }) _ = _
      rw [hNow]
      rfl
    rw [hOff]
    exact released_saved hOwnV
  · refine sameMemory_of_ord _ _ ?_
    rw [hOff]
    exact (congrArg State.ord hRel).trans hOrd
  · have hCells : (writeMarks { s with tlb := l }).cells = s.cells := by rw [hNow]
    have hReady : (writeMarks { s with tlb := l }).ready = s.ready := by rw [hNow]
    have hPower : (writeMarks { s with tlb := l }).power = s.power := by rw [hNow]
    have hOrder : (writeMarks { s with tlb := l }).orderNo = s.orderNo := by rw [hNow]
    exact takeOff_child hCells hReady hPower hOrder

/-- A strand with nothing under way, whose late failures are none, ends. -/
theorem doneEnd_of_ending {s : State} (l : List TlbEntry) (h : Ending s) (succ : Option Record) :
    ∃ t u, doneEnd { s with tlb := l } succ = .ok t ∧ t = serveFaults u (me s).die ∧ Ended s u succ := by
  obtain ⟨-, hSid, hStream, hAnswered, hRoom, hLate, -⟩ := h
  obtain ⟨hPq, hBuf⟩ := List.append_eq_nil_iff.1 hStream
  obtain ⟨hMe, hEnded⟩ := ended_takeOff l hSid hRoom succ
  have hEnter : enterAll { s with tlb := l } = { s with tlb := l } := by
    have hBuf' : (me { s with tlb := l }).wbuf = [] := hBuf
    rw [enterAll, hBuf']
    rfl
  have hFree : (!(me { s with tlb := l }).late.isEmpty || underWay (me { s with tlb := l })) = false := by
    have hMe' : me { s with tlb := l } = me s := rfl
    simp only [hMe', hLate, underWay, hPq, hAnswered, hRoom, List.isEmpty_nil, Bool.not_true, Bool.or_self]
  refine ⟨_, _, ?_, rfl, hEnded⟩
  rw [doneEnd, hEnter, if_neg (by rw [hFree]; exact Bool.false_ne_true)]
  exact congrArg (fun st => Res.ok (endStrand (writeMarks { s with tlb := l }) st succ)) hMe

/-- DONE of a strand that can end reaches its successor. -/
theorem exec_done {s : State} (h : Ending s) (o : S1a) : exec (.done o) s = finish s (
    if o.sa = 0 || (me s).rank ≠ 0 then doneEnd s none
    else withPlace s .load 32 (doneAddr s o.sa) fun p s2 =>
      (readNow s2 0 (mkAcc .ls p (doneAddr s o.sa) 32 .read false false false)).res (doneAddr s o.sa) 0 fun b _ s3 =>
        if successorBad (me s).rec_ b then .trap cLaunch (doneAddr s o.sa) 0 else doneEnd s3 (some (successorOf (me s).rec_ b))) := by
  obtain ⟨hTrunk, -, hStream, hAnswered, hRoom, hLate, hToks⟩ := h
  obtain ⟨hPq, -⟩ := List.append_eq_nil_iff.1 hStream
  have hFree : (!(me s).late.isEmpty || underWay (me s)) = false := by
    simp only [hLate, underWay, hPq, hAnswered, hRoom, List.isEmpty_nil, Bool.not_true, Bool.or_self]
  simp only [exec, execDone, hTrunk, Bool.false_eq_true, if_false, flushStrand_of_empty (s := s) (sid := s.cur) hPq, hFree,
    awaitToks_of_idle (s := s) (ks := List.range 8) fun k hk => hToks k (List.mem_range.1 hk)]

/-- The successor's 32 bytes are read at once. -/
theorem exec_done_reads {s : State} {o : S1a} {p : Place} {b : List Byte} (h : Ending s) (hNames : o.sa ≠ 0) (hRank : (me s).rank = 0)
    (hFresh : Fresh s) (hCheck : checkScalar s (me s) .load 32 (doneAddr s o.sa) = .ok p) (hBytes : localBytes s p 32 = some b) :
    ∃ l, exec (.done o) s = finish s (if successorBad (me s).rec_ b then .trap cLaunch (doneAddr s o.sa) 0
      else doneEnd { s with tlb := l } (some (successorOf (me s).rec_ b))) := by
  obtain ⟨hLook, hEarly, -⟩ := hFresh
  have ⟨_, _, hStream, _⟩ := h
  obtain ⟨l, hFill⟩ := tlbFill_eq s (me s) (doneAddr s o.sa)
  let a := mkAcc .ls p (doneAddr s o.sa) 32 .read false false false
  have hRead : readNow { s with tlb := l } 0 a = .bytes b 0 { s with tlb := l } :=
    readNow_local _ 0 a b (makeWay_plain _ a hStream rfl) hLook hEarly ((localBytes_tlb s l p _).trans hBytes)
  have hReads : ¬ (decide (o.sa = 0) || decide ((me s).rank ≠ 0)) = true := by simpa [hRank] using hNames
  refine ⟨l, ?_⟩
  rw [exec_done h, if_neg hReads]
  simp only [withPlace, hCheck, hFill]
  exact congrArg (fun g : Got => finish s (g.res (doneAddr s o.sa) 0 fun b _ s3 =>
    if successorBad (me s).rec_ b then .trap cLaunch (doneAddr s o.sa) 0 else doneEnd s3 (some (successorOf (me s).rec_ b)))) hRead

/-- Settles O19. -/
theorem recordEnds : Obligations.RecordEnds := by
  refine ⟨fun o s h hNone => ?_, fun o s p b h hNames hRank hFresh hCheck hBytes hGood => ?_,
    fun o s p b h hNames hRank hFresh hCheck hBytes hBad => ?_, fun o s hTrunk => ?_⟩
  · obtain ⟨t, u, hEnd, hServe, hEnded⟩ := doneEnd_of_ending s.tlb h none
    have hNone' : (decide (o.sa = 0) || decide ((me s).rank ≠ 0)) = true := by simpa using hNone
    refine ⟨t, u, ?_, hServe, hEnded⟩
    rw [exec_done h, if_pos hNone']
    exact congrArg (finish s) hEnd
  · obtain ⟨l, hExec⟩ := exec_done_reads h hNames hRank hFresh hCheck hBytes
    obtain ⟨t, u, hEnd, hServe, hEnded⟩ := doneEnd_of_ending l h (some (successorOf (me s).rec_ b))
    refine ⟨t, u, ?_, hServe, hEnded⟩
    rw [hExec, if_neg (by rw [hGood]; exact Bool.false_ne_true), hEnd]
    rfl
  · obtain ⟨l, hExec⟩ := exec_done_reads h hNames hRank hFresh hCheck hBytes
    rw [hExec, if_pos hBad]
    rfl
  · simp only [exec, execDone, hTrunk, if_true]
    rfl

end Sys2Proof.Machine
end


section
/-! SUPPORT. Cancellation of a launch (R108, R292). -/

namespace Sys2Proof.Machine

/-! What falling counts change (R98). -/

/-- What has happened where counts of join cells have fallen: records have become ready, and launches have finished. -/
structure CountsFell (s t : State) : Prop where
  cur : t.cur = s.cur
  disp : t.disp = s.disp
  orders : s.orderNo ≤ t.orderNo
  ready : ∃ l, t.ready = s.ready ++ l ∧ ∀ x ∈ l, s.orderNo ≤ x.order
  launches : ∀ q id l, launchOf s q id = some l → ∃ b, launchOf t q id = some { l with finished := b }

namespace CountsFell

theorem refl (s : State) : CountsFell s s :=
  ⟨rfl, rfl, le_refl _, ⟨[], (List.append_nil _).symm, fun _ h => nomatch h⟩, fun _ _ l h => ⟨l.finished, h⟩⟩

theorem trans {s t u : State} (h : CountsFell s t) (h' : CountsFell t u) : CountsFell s u := by
  obtain ⟨l, hReady, hOrder⟩ := h.ready
  obtain ⟨l', hReady', hOrder'⟩ := h'.ready
  refine ⟨h'.cur.trans h.cur, h'.disp.trans h.disp, h.orders.trans h'.orders, ⟨l ++ l', by rw [hReady', hReady, List.append_assoc], ?_⟩, ?_⟩
  · intro x hx
    rcases List.mem_append.mp hx with hx | hx
    · exact hOrder x hx
    · exact h.orders.trans (hOrder' x hx)
  · intro q id y hy
    obtain ⟨b, hb⟩ := h.launches q id y hy
    obtain ⟨b', hb'⟩ := h'.launches q id _ hb
    exact ⟨b', hb'⟩

theorem cells (s : State) (m : NMap Cell) : CountsFell s { s with cells := m } :=
  ⟨rfl, rfl, le_refl _, ⟨[], (List.append_nil _).symm, fun _ h => nomatch h⟩, fun _ _ l h => ⟨l.finished, h⟩⟩

theorem enqueueRec (s : State) (r : Record) : CountsFell s (enqueueRec s r) :=
  ⟨rfl, rfl, Nat.le_succ _, ⟨_, rfl, fun x hx => by rw [List.mem_singleton.mp hx]⟩, fun _ _ l h => ⟨l.finished, h⟩⟩

end CountsFell

/-- A launch list in which the launch of one number has finished. -/
theorem find?_finished (live : List Launch) (id id' : Nat) {l : Launch} (h : live.find? (fun l => l.id == id') = some l) :
    ∃ b, (live.map fun l => if l.id = id then { l with finished := true } else l).find? (fun l => l.id == id') = some { l with finished := b } := by
  induction live with
  | nil => cases h
  | cons x live ih =>
    by_cases hx : x.id = id'
    · rw [List.find?_cons_of_pos (by simpa using hx)] at h
      cases h
      by_cases hId : l.id = id
      · exact ⟨true, by rw [List.map_cons, if_pos hId, List.find?_cons_of_pos (by simpa using hx)]⟩
      · exact ⟨l.finished, by rw [List.map_cons, if_neg hId, List.find?_cons_of_pos (by simpa using hx)]⟩
    · rw [List.find?_cons_of_neg (by simpa using hx)] at h
      obtain ⟨b, hb⟩ := ih h
      refine ⟨b, ?_⟩
      rw [List.map_cons, List.find?_cons_of_neg ?_, hb]
      split <;> simpa using hx

theorem countsFell_finish (s : State) (q id : Nat) : CountsFell s (updLaunch s q id fun l => { l with finished := true }) := by
  refine ⟨rfl, rfl, le_refl _, ⟨[], (List.append_nil _).symm, fun _ h => nomatch h⟩, fun q' id' l h => ?_⟩
  by_cases hq : q' = q
  · subst hq
    rw [launchOf, updLaunch, queueOf_putQueue]
    exact find?_finished _ id id' h
  · refine ⟨l.finished, ?_⟩
    rw [launchOf, updLaunch, queueOf_putQueue_ne s _ hq]
    exact h

theorem countsFell_subCellN (k : Nat) (s : State) (c n : Nat) : CountsFell s (subCellN k s c n) := by
  induction k generalizing s c n with
  | zero => exact .refl s
  | succ k ih =>
    unfold subCellN
    split
    · exact .refl s
    · split
      · exact .cells s _
      · dsimp only
        split
        · exact .cells s _
        · exact (CountsFell.cells s _).trans (countsFell_finish _ _ _)
        · exact (CountsFell.cells s _).trans (ih _ _ _)
        · exact (CountsFell.cells s _).trans (.enqueueRec _ _)

theorem countsFell_subCell (s : State) (c n : Nat) : CountsFell s (subCell s c n) := countsFell_subCellN _ s c n

theorem countsFell_setCont (s : State) (c : Nat) (k : Cont) : CountsFell s (setCont s c k) := by
  obtain ⟨m, h⟩ := setCont_frame s c k
  rw [h]
  exact .cells s m

/-! A cancellation in its parts. -/

/-- Whether a record is of a launch. -/
def ofLaunch (q id : Nat) (r : Record) : Bool := r.queue == q && r.launch == id

/-- The parked records of a launch: the entry of a record's first save slot. -/
def parkedOf (s : State) (q id : Nat) : List (Nat × Saved) :=
  ((List.range 8).map fun d => (dispOf s (d + 1)).saved.filter fun e =>
    ofLaunch q id e.2.strand.rec_ && e.2.parked && e.1 == e.2.strand.rec_.slots.headD 4096).flatten

/-- The records that a cancellation removes. -/
def removedOf (s : State) (q id : Nat) : List Record := s.ready.filter (ofLaunch q id) ++ (parkedOf s q id).map (·.2.strand.rec_)

/-- The array slices of a removed record are free. -/
def freeChild (s : State) (r : Record) : State :=
  match r.child with
  | some c => freeArray s c
  | none => s

/-- The count of a removed record falls. -/
def endRemoved (s : State) (r : Record) : State :=
  match r.child with
  | some c => subCell (setCont s c (.subParent r.parent)) c (liveMembers r)
  | none => subCell s r.parent 1

/-- The launch once it is cancelled. -/
def cancelledLaunch (status : Nat) (l : Launch) : Launch :=
  { l with cancelled := true, status := status, next := ceilDiv l.e l.gran, ready := true, finished := l.finished || l.root.isNone }

/-- The state of a cancellation before counts fall. -/
def clearedOf (s : State) (q id status : Nat) : State :=
  updLaunch ((removedOf s q id).foldl freeChild ((removedOf s q id).foldl freeSlots { s with ready := s.ready.filter fun r => !ofLaunch q id r }))
    q id (cancelledLaunch status)

theorem cancelLaunch_of_live {s : State} {q id : Nat} {l : Launch} (status : Nat) (h : launchOf s q id = some l) (hLive : l.finished = false) :
    ∃ t, cancelLaunch s q id status = (t, wordOf (boolN (l.dispatched != 0) * 2 ^ 63 + (removedOf s q id).length % 2 ^ 32)) ∧
      CountsFell ((removedOf s q id).foldl endRemoved (clearedOf s q id status)) t := by
  have hRemoved : s.ready.filter (ofLaunch q id) ++ ((List.range 8).map fun d => ((dispOf s (d + 1)).saved.filter fun e =>
      ofLaunch q id e.2.strand.rec_ && e.2.parked && e.1 == e.2.strand.rec_.slots.headD 4096).map (·.2.strand.rec_)).flatten =
        removedOf s q id := by
    rw [removedOf, parkedOf, List.map_flatten, List.map_map]
    rfl
  have hCancel : cancelLaunch s q id status =
      ((match l.root with
        | some c => if (if l.ready then ceilDiv l.e l.gran - l.next else 0) = 0
          then (removedOf s q id).foldl endRemoved (clearedOf s q id status)
          else subCell ((removedOf s q id).foldl endRemoved (clearedOf s q id status)) c (if l.ready then ceilDiv l.e l.gran - l.next else 0)
        | none => (removedOf s q id).foldl endRemoved (clearedOf s q id status)),
      wordOf (boolN (l.dispatched != 0) * 2 ^ 63 + (removedOf s q id).length % 2 ^ 32)) := by
    rw [cancelLaunch, h]
    simp only [hLive, Bool.false_eq_true, if_false]
    rw [clearedOf, ← hRemoved]
    rfl
  refine ⟨_, hCancel, ?_⟩
  generalize (if l.ready then ceilDiv l.e l.gran - l.next else 0) = left
  cases l.root with
  | none => exact .refl _
  | some c =>
    dsimp only
    split
    · exact .refl _
    · exact countsFell_subCell _ _ _

theorem countsFell_endRemoved (s : State) (r : Record) : CountsFell s (endRemoved s r) := by
  unfold endRemoved
  split
  · exact (countsFell_setCont _ _ _).trans (countsFell_subCell _ _ _)
  · exact countsFell_subCell _ _ _

theorem countsFell_foldl (l : List Record) (s : State) : CountsFell s (l.foldl endRemoved s) :=
  List.foldlRecOn (motive := fun t => CountsFell s t) _ _ (.refl s) fun t ht r _ => ht.trans (countsFell_endRemoved t r)

/-! What stands before counts fall. -/

theorem freeChild_frame (s : State) (r : Record) : ∃ m, freeChild s r = { s with mx := m } := by
  unfold freeChild
  split
  · exact ⟨_, rfl⟩
  · exact ⟨s.mx, rfl⟩

theorem freeSlots_frame (s : State) (r : Record) : ∃ d, freeSlots s r = { s with disp := d } := by
  unfold freeSlots
  split
  · exact ⟨s.disp, rfl⟩
  · exact ⟨_, rfl⟩

theorem foldl_freeChild (l : List Record) (s : State) : ∃ m, l.foldl freeChild s = { s with mx := m } :=
  List.foldlRecOn (motive := fun t : State => ∃ m, t = { s with mx := m }) _ _ ⟨s.mx, rfl⟩ fun t ⟨m, ht⟩ r _ => by
    obtain ⟨m', h⟩ := freeChild_frame t r
    exact ⟨m', by rw [h, ht]⟩

theorem foldl_freeSlots (l : List Record) (s : State) : ∃ d, l.foldl freeSlots s = { s with disp := d } :=
  List.foldlRecOn (motive := fun t : State => ∃ d, t = { s with disp := d }) _ _ ⟨s.disp, rfl⟩ fun t ⟨d, ht⟩ r _ => by
    obtain ⟨d', h⟩ := freeSlots_frame t r
    exact ⟨d', by rw [h, ht]⟩

/-- A save slot that is free stays free, and a record's own slots become free. -/
theorem freeSlots_saved (s : State) (r : Record) (d k : Nat)
    (h : NMap.get? (dispOf s d).saved k = none ∨ r.slots ≠ [] ∧ d = r.svDie ∧ k ∈ r.slots) : NMap.get? (dispOf (freeSlots s r) d).saved k = none := by
  unfold freeSlots
  dsimp only
  split
  next hEmpty =>
    rcases h with h | ⟨hSome, -, -⟩
    · exact h
    · exact absurd (List.isEmpty_iff.mp hEmpty) hSome
  next =>
    by_cases hd : d = r.svDie
    · subst hd
      rw [dispOf, putDisp, NMap.getD_set_same, NMap.get?_filter (fun i => !hasN r.slots i)]
      rcases h with h | ⟨-, -, hMem⟩
      · rw [h, ite_self]
      · have hHas : hasN r.slots k = true := by simpa [hasN] using hMem
        rw [hHas]
        rfl
    · rcases h with h | ⟨-, hd', -⟩
      · rw [dispOf, putDisp, NMap.getD_set_ne _ _ _ _ _ hd]
        exact h
      · exact absurd hd' hd

theorem foldl_freeSlots_saved (l : List Record) (s : State) (d k : Nat)
    (h : NMap.get? (dispOf s d).saved k = none ∨ ∃ r ∈ l, d = r.svDie ∧ k ∈ r.slots) : NMap.get? (dispOf (l.foldl freeSlots s) d).saved k = none := by
  induction l generalizing s with
  | nil => exact h.resolve_right fun ⟨_, hr, _⟩ => nomatch hr
  | cons x l ih =>
    refine ih (freeSlots s x) ?_
    rcases h with h | ⟨r, hr, hd, hk⟩
    · exact .inl (freeSlots_saved s x d k (.inl h))
    · rcases List.mem_cons.mp hr with rfl | hr
      · exact .inl (freeSlots_saved s r d k (.inr ⟨List.ne_nil_of_mem hk, hd, hk⟩))
      · exact .inr ⟨r, hr, hd, hk⟩

theorem clearedOf_frame (s : State) (q id status : Nat) : ∃ m d x, clearedOf s q id status =
    { s with ready := s.ready.filter fun r => !ofLaunch q id r, disp := d, mx := m, queues := x } := by
  obtain ⟨d, hSlots⟩ := foldl_freeSlots (removedOf s q id) { s with ready := s.ready.filter fun r => !ofLaunch q id r }
  obtain ⟨m, hChild⟩ := foldl_freeChild (removedOf s q id)
    ((removedOf s q id).foldl freeSlots { s with ready := s.ready.filter fun r => !ofLaunch q id r })
  rw [clearedOf, hChild, hSlots]
  exact ⟨m, d, _, rfl⟩

theorem find?_map_launch (live : List Launch) (id : Nat) (f : Launch → Launch) (hf : ∀ l, (f l).id = l.id) {l : Launch}
    (h : live.find? (fun l => l.id == id) = some l) :
    (live.map fun l => if l.id = id then f l else l).find? (fun l => l.id == id) = some (f l) := by
  induction live with
  | nil => cases h
  | cons x live ih =>
    by_cases hx : x.id = id
    · rw [List.find?_cons_of_pos (by simpa using hx)] at h
      cases h
      rw [List.map_cons, if_pos hx, List.find?_cons_of_pos (by simpa [hf] using hx)]
    · rw [List.find?_cons_of_neg (by simpa using hx)] at h
      rw [List.map_cons, if_neg hx, List.find?_cons_of_neg (by simpa using hx), ih h]

theorem launchOf_clearedOf {s : State} {q id : Nat} {l : Launch} (status : Nat) (h : launchOf s q id = some l) :
    launchOf (clearedOf s q id status) q id = some (cancelledLaunch status l) := by
  obtain ⟨d, hSlots⟩ := foldl_freeSlots (removedOf s q id) { s with ready := s.ready.filter fun r => !ofLaunch q id r }
  obtain ⟨m, hChild⟩ := foldl_freeChild (removedOf s q id)
    ((removedOf s q id).foldl freeSlots { s with ready := s.ready.filter fun r => !ofLaunch q id r })
  rw [launchOf, clearedOf, updLaunch, queueOf_putQueue, hChild, hSlots]
  exact find?_map_launch _ id (cancelledLaunch status) (fun _ => rfl) h

theorem clearedOf_saved {s : State} {q id : Nat} (status : Nat) {e : Nat × Saved} (he : e ∈ parkedOf s q id) {k : Nat}
    (hk : k ∈ e.2.strand.rec_.slots) : NMap.get? (dispOf (clearedOf s q id status) e.2.strand.rec_.svDie).saved k = none := by
  obtain ⟨m, hChild⟩ := foldl_freeChild (removedOf s q id)
    ((removedOf s q id).foldl freeSlots { s with ready := s.ready.filter fun r => !ofLaunch q id r })
  have hRemoved : e.2.strand.rec_ ∈ removedOf s q id := List.mem_append_right _ (List.mem_map_of_mem he)
  have hFree := foldl_freeSlots_saved (removedOf s q id) { s with ready := s.ready.filter fun r => !ofLaunch q id r }
    e.2.strand.rec_.svDie k (.inr ⟨_, hRemoved, rfl, hk⟩)
  rw [clearedOf, hChild]
  exact hFree

/-- A cancellation of a live launch (R108). -/
theorem cancelLaunch_live {s : State} {q id : Nat} {l : Launch} (status : Nat) (h : launchOf s q id = some l) (hLive : l.finished = false) :
    let r := cancelLaunch s q id status
    r.2.getLsbD 63 = decide (l.dispatched ≠ 0) ∧ r.2.extractLsb' 32 31 = 0 ∧
      r.2.extractLsb' 0 32 = BitVec.ofNat 32 ((s.ready.filter (ofLaunch q id)).length + (parkedOf s q id).length) ∧
      (∀ x, x ∈ s.ready → ofLaunch q id x = false → x ∈ r.1.ready) ∧ (∀ x, x ∈ r.1.ready → ofLaunch q id x = true → s.orderNo ≤ x.order) ∧
      (∀ e, e ∈ parkedOf s q id → ∀ k, k ∈ e.2.strand.rec_.slots → NMap.get? (dispOf r.1 e.2.strand.rec_.svDie).saved k = none) ∧
      ∃ l', launchOf r.1 q id = some l' ∧ l'.cancelled = true ∧ l'.status = status ∧ l'.next = ceilDiv l.e l.gran := by
  obtain ⟨t, hCancel, hFell⟩ := cancelLaunch_of_live status h hLive
  have hAll := (countsFell_foldl (removedOf s q id) (clearedOf s q id status)).trans hFell
  obtain ⟨m, d, x, hFrame⟩ := clearedOf_frame s q id status
  obtain ⟨hRan, hZero, hCount⟩ := flagCount_fields (l.dispatched != 0) (removedOf s q id).length
  obtain ⟨new, hReady, hNew⟩ := hAll.ready
  obtain ⟨b, hLaunch⟩ := hAll.launches q id _ (launchOf_clearedOf status h)
  have hReady0 : (clearedOf s q id status).ready = s.ready.filter fun r => !ofLaunch q id r := by rw [hFrame]
  have hOrder0 : (clearedOf s q id status).orderNo = s.orderNo := by rw [hFrame]
  rw [hReady0] at hReady
  rw [hOrder0] at hNew
  intro r
  rw [show r = _ from hCancel]
  refine ⟨hRan.trans (by simp [bne, beq_eq_decide]), hZero, ?_, fun y hy hOther => ?_, fun y hy hMine => ?_, fun e he k hk => ?_,
    ⟨_, hLaunch, rfl, rfl, rfl⟩⟩
  · have hLength : (removedOf s q id).length = (s.ready.filter (ofLaunch q id)).length + (parkedOf s q id).length := by
      rw [removedOf, List.length_append, List.length_map]
    rw [← hLength]
    exact hCount
  · rw [hReady]
    exact List.mem_append_left _ (List.mem_filter.mpr ⟨hy, by rw [hOther]; rfl⟩)
  · rw [hReady] at hy
    rcases List.mem_append.mp hy with hy | hy
    · exact absurd hMine (by simpa using (List.mem_filter.mp hy).2)
    · exact hNew y hy
  · rw [dispOf, hAll.disp]
    exact clearedOf_saved status he hk

theorem cancelLaunch_of_ended {s : State} {q id : Nat} (status : Nat) (h : ∀ l, launchOf s q id = some l → l.finished = true) :
    cancelLaunch s q id status = (s, BitVec.ofNat 64 (2 ^ 62)) := by
  unfold cancelLaunch
  split
  · rfl
  next l hSome =>
    rw [if_pos (h l hSome)]
    rfl

theorem cancelLaunch_cur (s : State) (q id status : Nat) : (cancelLaunch s q id status).1.cur = s.cur := by
  by_cases h : ∀ l, launchOf s q id = some l → l.finished = true
  · rw [cancelLaunch_of_ended status h]
  · push Not at h
    obtain ⟨l, hSome, hLive⟩ := h
    obtain ⟨t, hCancel, hFell⟩ := cancelLaunch_of_live status hSome (eq_false_of_ne_true hLive)
    obtain ⟨m, d, x, hFrame⟩ := clearedOf_frame s q id status
    rw [hCancel]
    refine (hFell.cur.trans (countsFell_foldl _ _).cur).trans ?_
    rw [hFrame]

/-! Serving the faults that wait changes no agenda (R113). -/

theorem abandon_cur (s : State) (sid : Nat) : (abandon s sid).cur = s.cur := by
  have hStop : ∀ t : State, (commitStop t sid).cur = t.cur := fun t => by
    obtain ⟨⟨o, r, l, h⟩, -⟩ := marksOf_frame t sid
    unfold commitStop
    dsimp only
    split <;> rw [h]
    rfl
  unfold abandon
  split
  · exact hStop s
  next h _ =>
    dsimp only
    obtain ⟨m, hMx⟩ := mxPut_frame (commitStop (putStrand { s with
        held := NMap.erase s.held sid,
        ord := dropTickets s.ord ((openTickets (strandOf s sid)).filter fun t => !hasN (openTickets h.start) t) } sid (abandoned s sid h)) sid)
      (abandoned s sid h) h.mx
    exact (congrArg State.cur hMx).trans (hStop _)

theorem physWrite_cur (s : State) (d pa : Nat) (b : List Byte) : (physWrite s d pa b).cur = s.cur := by
  obtain ⟨o, h⟩ := physWrite_eq s d pa b
  rw [h]

theorem ringPut_cur (s : State) (d : Nat) (b : List Byte) : (ringPut s d b).cur = s.cur := physWrite_cur s d _ b

theorem ringReport_cur (s : State) (d : Nat) (b : List Byte) : (ringReport s d b).cur = s.cur := by
  unfold ringReport
  dsimp only
  split
  · rfl
  · split
    · rfl
    · exact ringPut_cur s d b

theorem moveFlits_cur (s : State) (a b : Nat) : (moveFlits s a b).cur = s.cur := by
  unfold moveFlits
  split <;> rfl

theorem saveInto_cur (s : State) (st : Strand) (n epc : Nat) (parked : Bool) : (saveInto s st n epc parked).cur = s.cur := by
  rw [saveInto, putDisp_cur, physWrite_cur]

theorem cur_of_strands (s : State) (l : NMap Strand) : ({ s with strands := l } : State).cur = s.cur := rfl

theorem saveMember_cur (ns : List Nat) (parked : Bool) (s : State) (x : Strand × Nat) : (saveMember ns parked s x).cur = s.cur := by
  unfold saveMember
  exact (moveFlits_cur _ _ _).trans <| (cur_of_strands _ _).trans <| (saveInto_cur _ _ _ _ parked).trans (abandon_cur _ _)

theorem saveAll_cur (s : State) (l : List (Strand × Nat)) (parked : Bool) : (saveAll s l parked).cur = s.cur := by
  rw [saveAll_eq_foldl]
  exact List.foldlRecOn (motive := fun t : State => t.cur = s.cur) _ _ rfl fun t ht x _ => (saveMember_cur _ _ t x).trans ht

theorem reportWaiting_cur (s : State) (g : List Strand) : (reportWaiting s g).cur = s.cur :=
  List.foldlRecOn (motive := fun t : State => t.cur = s.cur) _ _ rfl fun t ht x _ => by
    dsimp only
    split
    · exact (ringReport_cur t x.die _).trans ht
    · exact ht

theorem serveStopped_cur (k : Nat) (s : State) (d lo : Nat) (held : Bool) : (serveStopped k s d lo held).cur = s.cur := by
  induction k generalizing s lo held with
  | zero => rfl
  | succ k ih =>
    unfold serveStopped
    split
    · rfl
    · dsimp only
      split
      · exact (ih _ _ _).trans (reportWaiting_cur _ _)
      · split
        · exact ih _ _ _
        · refine (ih _ _ _).trans ?_
          exact List.foldlRecOn (motive := fun t : State => t.cur = s.cur) _ _ (saveAll_cur _ _ _) fun t ht x _ =>
            (ringPut_cur t d _).trans ht

theorem serveFaults_cur (s : State) (d : Nat) : (serveFaults s d).cur = s.cur := by
  unfold serveFaults
  split
  · exact serveStopped_cur _ _ _ _ _
  · rfl

theorem serveAll_cur (s : State) : (serveAll s).cur = s.cur :=
  List.foldlRecOn (motive := fun t : State => t.cur = s.cur) _ _ rfl fun t ht d _ => (serveFaults_cur t (d + 1)).trans ht

/-! CANCEL (R292). -/

/-- The state once what a syllable gives is noted, stands, and is in sd. -/
def notedState (s : State) (k : Nat) (b : List Byte) (sd : BitVec 5) (v : Word) : State :=
  setS (standNow (putMe s (noteDone (me s) k noteElem b))) sd v

section Noted

variable (s : State) (k : Nat) (b : List Byte) (sd : BitVec 5) (v : Word)

theorem me_notedState : me (notedState s k b sd v) = swrite (noteDone (me s) k noteElem b) sd.toNat v := by
  rw [notedState, me_setS, me_standNow, me_putMe]

theorem regsAfter_notedState : RegsAfter s (notedState s k b sd v) sd v := by
  intro r
  have hRegs : ∀ i, sread (noteDone (me s) k noteElem b) i = sread (me s) i := fun _ => rfl
  simp only [getS, me_notedState, sread_swrite _ _ _ _ r.isLt, BitVec.toNat_eq, hRegs]
  rfl

theorem me_notedState_frame : { me (notedState s k b sd v) with regs := (me s).regs } = noteDone (me s) k noteElem b := by
  obtain ⟨l, hWrite⟩ := swrite_eq (noteDone (me s) k noteElem b) sd.toNat v
  rw [me_notedState, hWrite]
  rfl

theorem notedState_frame : { notedState s k b sd v with strands := s.strands, convoy := s.convoy } = s := by
  obtain ⟨c, hStand⟩ := standNow_eq (putMe s (noteDone (me s) k noteElem b))
  rw [notedState, hStand]
  rfl

theorem standsNow_notedState : StandsNow s (notedState s k b sd v) := standsNow_standNow (putMe s (noteDone (me s) k noteElem b))

theorem strandOf_notedState_ne {i : Nat} (h : i ≠ s.cur) : strandOf (notedState s k b sd v) i = strandOf s i := by
  let u := putMe s (noteDone (me s) k noteElem b)
  exact (strandOf_putMe_ne (standNow u) i _ ((standNow_cur u).symm ▸ h)).trans ((strandOf_standNow u i).trans (strandOf_putMe_ne s i _ h))

end Noted

theorem exec_cancel {s : State} {o : S3} {q : Nat} (hQueue : cancelQueue (me s) (getS s o.sa).toNat = some q)
    (hNew : doneBefore s noteElem = none) :
    let r := cancelLaunch s q (launchNo (queueOf s q) ((getS s o.sb).toNat % 2 ^ 32)) 1
    exec (.cancel o) s = .next (notedState (serveAll r.1) s.slot (bytesOf 8 r.2.toNat) o.sd r.2) := by
  simp only [exec, execCancel, hQueue, hNew, finish]
  rfl

theorem exec_cancel_again {s : State} {o : S3} {b : List Byte} (hDone : doneBefore s noteElem = some b) :
    exec (.cancel o) s = .next (setS s o.sd (BitVec.ofNat 64 (numOf b))) := by
  simp only [exec, execCancel, hDone]
  rfl

theorem exec_cancel_beyond {s : State} {o : S3} (hQueue : cancelQueue (me s) (getS s o.sa).toNat = none) (hNew : doneBefore s noteElem = none) :
    exec (.cancel o) s = .next (takeException (rollback s) 0x11 (getS s o.sa) 0) := by
  simp only [exec, execCancel, hQueue, hNew]
  rfl

/-- Settles O21. -/
theorem cancelReports : Obligations.CancelReports := by
  refine ⟨fun o s q hQueue hNew => ?_, fun o s b hDone => ⟨_, ?_, writesReg_setS s o.sd _⟩, fun o s hQueue hNew => ?_, fun st v => rfl,
    fun s q id status h => cancelLaunch_of_ended status h, fun s q id status l h hLive => cancelLaunch_live status h hLive⟩
  · intro r
    have hCur : (serveAll r.1).cur = s.cur := (serveAll_cur r.1).trans (cancelLaunch_cur _ _ _ _)
    exact ⟨_, exec_cancel hQueue hNew, regsAfter_notedState _ _ _ _ _, notedState_frame _ _ _ _ _, standsNow_notedState _ _ _ _ _,
      fun k hk => strandOf_notedState_ne _ _ _ _ _ (fun h => hk (h.trans hCur)), me_notedState_frame _ _ _ _ _⟩
  · exact exec_cancel_again hDone
  · exact exec_cancel_beyond hQueue hNew

end Sys2Proof.Machine
end


section
/-! SUPPORT. LAUNCH (R85, R153, R291, R393). -/

namespace Sys2Proof.Machine

/-- The state once a launch's packet is written, before its id is noted: `ord` and `strands` say where the packet has gone. -/
def launchedState (s : State) (q : Nat) (ord : Ordering_) (strands : NMap Strand) (b : List Byte) : State :=
  let x := queueOf s q
  putQueue { (if leAt b 0 1 = 3 then addCell s (leAt b 24 8 / 2 ^ 32) 1 else s) with ord := ord, strands := strands } q
    { x with tail := (x.tail + 64) % (64 * queueSlots x), nextId := nextId x.nextId }

/-- The parent cell of a packet of type 3 counts it; nothing else of the state depends on the packet's type. -/
theorem launchedCells (s : State) (b : List Byte) :
    ∃ m, (if leAt b 0 1 = 3 then addCell s (leAt b 24 8 / 2 ^ 32) 1 else s) = { s with cells := m } ∧ (leAt b 0 1 ≠ 3 → m = s.cells) ∧
      (leAt b 0 1 = 3 → ∀ y, NMap.get? s.cells (leAt b 24 8 / 2 ^ 32) = some y →
        NMap.get? m (leAt b 24 8 / 2 ^ 32) = some { y with count := y.count + 1 }) := by
  by_cases hType : leAt b 0 1 = 3
  · rw [if_pos hType]
    cases hCell : NMap.get? s.cells (leAt b 24 8 / 2 ^ 32) with
    | none => exact ⟨s.cells, by rw [addCell, hCell], fun _ => rfl, fun _ y hy => nomatch hy⟩
    | some x =>
      refine ⟨_, by rw [addCell, hCell], fun h => absurd hType h, fun _ y hy => ?_⟩
      cases hy
      exact NMap.get?_set_same _ _ _
  · exact ⟨s.cells, if_neg hType, fun _ => rfl, fun h => absurd h hType⟩

theorem launchedState_frame (s : State) (q : Nat) (o : Ordering_) (l : NMap Strand) (b : List Byte) :
    ∃ m x, launchedState s q o l b = { s with cells := m, ord := o, strands := l, queues := NMap.set s.queues q x } ∧
      x = { queueOf s q with
        tail := ((queueOf s q).tail + 64) % (64 * queueSlots (queueOf s q)), nextId := nextId (queueOf s q).nextId } ∧
      (leAt b 0 1 ≠ 3 → m = s.cells) ∧
      (leAt b 0 1 = 3 → ∀ y, NMap.get? s.cells (leAt b 24 8 / 2 ^ 32) = some y →
        NMap.get? m (leAt b 24 8 / 2 ^ 32) = some { y with count := y.count + 1 }) := by
  obtain ⟨m, hCells, hSame, hCount⟩ := launchedCells s b
  exact ⟨m, _, by rw [launchedState, hCells]; rfl, rfl, hSame, hCount⟩

/-- The packet of a launch in a slot of this package's memory. -/
theorem enqueueLaunch_here {s : State} (q : Nat) (sd : BitVec 5) {loc : Nat} (home : Nat) (b : List Byte) (h : vacatedFrame s loc = false) :
    enqueueLaunch s q sd (.mem loc home) b = notedState
      (launchedState s q (reach (performWrite s.ord (me s).die loc home b) 0 (appliedOf (performWrite s.ord (me s).die loc home b) (me s).die))
        s.strands b) s.slot (bytesOf 8 (queueOf s q).nextId) sd (wordOf (queueOf s q).nextId) := by
  obtain ⟨m, hCells, -⟩ := launchedCells s b
  have hWrite : memWrite { s with cells := m } (me s).die loc home b =
      { s with cells := m, ord := performWrite s.ord (me s).die loc home b } := if_neg (Bool.eq_false_iff.mp h)
  have hMe : me { s with cells := m } = me s := rfl
  unfold enqueueLaunch launchedState
  dsimp only
  rw [hCells]
  simp only [hMe, hWrite]
  rfl

/-- The packet of a launch for a slot on another package, among what the units send. -/
theorem enqueueLaunch_peer {s : State} (q : Nat) (sd : BitVec 5) (pkg pa : Nat) {b : List Byte} (hType : leAt b 0 1 ≠ 3) (hCur : s.cur ≠ unitSid) :
    enqueueLaunch s q sd (.peer pkg pa) b = notedState
      (launchedState s q (reach s.ord 0 (appliedOf s.ord (me s).die)) (unitSend s pkg pa (tailSlot (queueOf s q)) b true).strands b)
      s.slot (bytesOf 8 (queueOf s q).nextId) sd (wordOf (queueOf s q).nextId) := by
  have hMe : me (unitSend s pkg pa (tailSlot (queueOf s q)) b true) = me s := strandOf_putStrand_ne s unitSid s.cur _ hCur
  unfold enqueueLaunch launchedState
  simp only [hType, if_false]
  rw [← hMe]
  rfl

/-- LAUNCH whose packet and slot pass their checks. -/
theorem exec_launch {s : State} {o : S3} {loc home : Nat} {pl : Place} (hTrunk : (me s).trunk = false) (hFresh : Fresh s) (hQuiet : Quiet (me s))
    (hCheck : checkScalar s (me s) .load 64 (getS s o.sa) = .ok (.mem loc home)) (hClean : readPoisoned s (me s).die loc 64 = false)
    (hNumber : (getS s o.sb).toNat ≤ 63) :
    let q := 512 + 64 * (me s).tenant + (getS s o.sb).toNat
    let x := queueOf s q
    let b := memRead s (me s).die loc 64
    x.en = true → x.stop = 0 → badWord false x.nextId (fun i => leAt b (8 * i) 8) = none →
    (leAt b 0 1 = 3 → linkOk s (me s).tenant (leAt b (8 * 3) 8 / 2 ^ 32) = true) → queueHeld x < queueSlots x - 1 →
    checkScalar (tlbFill s (me s) (getS s o.sa)) (me s) .store 64 (tailSlot x) = .ok pl →
    ∃ l, exec (.launch o) s = .next (enqueueLaunch { s with tlb := l } q o.sd pl b) := by
  intro q x b hEn hStop hGood hLink hRoom hStore
  obtain ⟨hLook, hEarly, hAnswer⟩ := hFresh
  obtain ⟨l, hFill⟩ := tlbFill_eq s (me s) (getS s o.sa)
  rw [hFill] at hStore
  have hNew : doneBefore s noteElem = none := by
    rw [doneBefore, hAnswer]
    rfl
  let a := mkAcc .ls (.mem loc home) (getS s o.sa) 64 .read true false false
  have hBytes : localBytes { s with tlb := l } (.mem loc home) 64 = some b := if_neg (Bool.eq_false_iff.mp hClean)
  have hRead : readNow { s with tlb := l } 0 a = .bytes b 0 { s with tlb := l } :=
    readNow_local _ 0 a b (makeWay_quiet _ a hQuiet rfl) hLook hEarly hBytes
  have hPlace : ¬ (decide (63 < (getS s o.sb).toNat) || !x.en || decide (x.stop ≠ 0)) = true := by simp [hNumber, hEn, hStop]
  have hJoin : ¬ (decide (leAt b 0 1 = 3) && !linkOk s (me s).tenant (leAt b (8 * 3) 8 / 2 ^ 32)) = true := by simpa using hLink
  refine ⟨l, ?_⟩
  simp only [exec, execLaunch, hTrunk, Bool.false_eq_true, if_false, hNew, withPlace, hCheck, hFill]
  refine (congrArg (fun g : Got => finish s (g.res (getS s o.sa) 0 _)) hRead).trans ?_
  refine congrArg (finish s) (a₂ := Res.ok (enqueueLaunch { s with tlb := l } q o.sd pl b)) ?_
  refine (if_neg hPlace).trans ((if_neg ?_).trans ((if_neg hJoin).trans ((if_neg (not_le.mpr hRoom)).trans ?_)))
  · exact fun h => Bool.false_ne_true ((congrArg Option.isSome hGood).symm.trans h)
  · exact congrArg (fun p : Except Nat Place => match p with
      | .error c => Res.trap c (tailSlot x) 0
      | .ok pl => Res.ok (enqueueLaunch { s with tlb := l } q o.sd pl b)) hStore

/-- What a launch leaves of the strand: its id in the destination, and the note of it. -/
theorem launched_strand {s v : State} (hMe : me v = me s) (b : List Byte) (sd : BitVec 5) (w : Word) :
    RegsAfter s (notedState v s.slot b sd w) sd w ∧
      { me (notedState v s.slot b sd w) with regs := (me s).regs } = noteDone (me s) s.slot noteElem b := by
  have hRegs := regsAfter_notedState v s.slot b sd w
  have hNote := me_notedState_frame v s.slot b sd w
  rw [hMe] at hNote
  refine ⟨fun r => ?_, hNote⟩
  have hGet : getS v r = getS s r := by rw [getS, hMe, getS]
  rw [hRegs r, hGet]

/-- What a launch leaves beside its strand. -/
theorem launched_frame {s v : State} {m : NMap Cell} {o : Ordering_} {ss : NMap Strand} {q : Nat} {x : WorkQueue} {l : List TlbEntry}
    (hNow : v = { s with cells := m, ord := o, strands := ss, queues := NMap.set s.queues q x, tlb := l }) (b : List Byte) (sd : BitVec 5) (w : Word) :
    let t := notedState v s.slot b sd w
    t.ord = o ∧ t.cells = m ∧ queueOf t q = x ∧ (∀ k, k ≠ q → queueOf t k = queueOf s k) ∧ StandsNow s t ∧
      ∀ k, k ≠ s.cur → strandOf t k = strandOf v k := by
  intro t
  have hFrame := notedState_frame v s.slot b sd w
  have hQueues := congrArg State.queues hFrame
  have hOrd := congrArg State.ord hFrame
  have hCells := congrArg State.cells hFrame
  change t.queues = v.queues at hQueues
  change t.ord = v.ord at hOrd
  change t.cells = v.cells at hCells
  have hStands : StandsNow v t := standsNow_notedState v s.slot b sd w
  have hOther : ∀ k, k ≠ v.cur → strandOf t k = strandOf v k := fun k hk => strandOf_notedState_ne v s.slot b sd w hk
  rw [hNow] at hStands hOther hOrd hCells hQueues
  refine ⟨hOrd, hCells, ?_, fun k hk => ?_, hStands, fun k hk => by rw [hOther k hk, hNow]⟩
  · rw [queueOf, hQueues]
    exact NMap.getD_set_same _ _ _ _
  · rw [queueOf, hQueues]
    exact NMap.getD_set_ne _ _ _ _ _ hk

/-- Settles O20. -/
theorem launchEnqueues : Obligations.LaunchEnqueues := by
  refine ⟨?_, ?_, fun o s b hTrunk hDone => ⟨_, ?_, writesReg_setS s o.sd _⟩⟩
  · intro o s loc home loc' home' s1 q x b w o1 hTrunk hFresh hQuiet hCheck hClean hNumber hEn hStop hGood hLink hRoom hStore hFrame
    obtain ⟨l, hExec⟩ := exec_launch hTrunk hFresh hQuiet hCheck hClean hNumber hEn hStop hGood hLink hRoom hStore
    rw [enqueueLaunch_here (s := { s with tlb := l }) q o.sd home' b hFrame] at hExec
    obtain ⟨m, y, hNow, hQueue, hSame, hCount⟩ := launchedState_frame { s with tlb := l } q (reach o1 0 (appliedOf o1 (me s).die)) s.strands b
    have hMe : me (launchedState { s with tlb := l } q (reach o1 0 (appliedOf o1 (me s).die)) s.strands b) = me s := by rw [hNow]; rfl
    obtain ⟨hRegs, hNote⟩ := launched_strand hMe (bytesOf 8 x.nextId) o.sd (wordOf x.nextId)
    obtain ⟨hOrd, hCells, hAt, hOtherQueue, hStands, hOther⟩ :=
      launched_frame (s := s) hNow (bytesOf 8 x.nextId) o.sd (wordOf x.nextId)
    refine ⟨_, hExec, hRegs, hNote, hAt.trans hQueue, hOtherQueue, fun hType => hCells.trans (hSame hType), fun hType c hc => ?_, hOrd, hStands,
      fun k hk => (hOther k hk).trans (by rw [hNow]; rfl)⟩
    exact (congrArg (NMap.get? · (w 3 / 2 ^ 32)) hCells).trans (hCount hType c hc)
  · intro o s loc home pkg pa s1 q x b va hTrunk hFresh hQuiet hCur hCheck hClean hNumber hEn hStop hGood hType hRoom hStore
    obtain ⟨l, hExec⟩ := exec_launch hTrunk hFresh hQuiet hCheck hClean hNumber hEn hStop hGood (fun h => absurd h hType) hRoom hStore
    rw [enqueueLaunch_peer (s := { s with tlb := l }) q o.sd pkg pa hType hCur] at hExec
    obtain ⟨m, y, hNow, hQueue, -, -⟩ := launchedState_frame { s with tlb := l } q (reach s.ord 0 (appliedOf s.ord (me s).die))
      (unitSend { s with tlb := l } pkg pa (tailSlot x) b true).strands b
    have hMe : me (launchedState { s with tlb := l } q (reach s.ord 0 (appliedOf s.ord (me s).die))
        (unitSend { s with tlb := l } pkg pa (tailSlot x) b true).strands b) = me s := by
      rw [hNow]
      exact strandOf_putStrand_ne s unitSid s.cur _ hCur
    obtain ⟨hRegs, -⟩ := launched_strand hMe (bytesOf 8 x.nextId) o.sd (wordOf x.nextId)
    obtain ⟨hOrd, -, hAt, -, -, hOther⟩ := launched_frame (s := s) hNow (bytesOf 8 x.nextId) o.sd (wordOf x.nextId)
    refine ⟨_, hExec, hRegs, hAt.trans hQueue, (hOther unitSid (Ne.symm hCur)).trans ?_, sameMemory_of_ord _ _ hOrd⟩
    rw [hNow]
    exact strandOf_putStrand_same s unitSid _
  · simp only [exec, execLaunch, hTrunk, hDone]
    rfl

end Sys2Proof.Machine
end


section
/-! SUPPORT. Element-wise vector syllables (R301 to R304, R306 to R309, R311). -/

namespace Sys2Proof.Machine

/-! What the sources of a vector syllable give (R131, R258). -/

theorem lt_of_mem_cutBits {w n x v : Nat} (h : v ∈ cutBits w n x) : v < 2 ^ w := by
  induction n generalizing x with
  | zero => cases h
  | succ n ih =>
    rcases List.mem_cons.mp h with rfl | h
    · exact Nat.mod_lt _ (Nat.two_pow_pos w)
    · exact ih h

/-- What a queue gives: as many elements as are read, each of its width. -/
theorem qread_elements {q r : List Group} {n w : Nat} {els : List (Nat × Bool)} (h : qread q 0 n w = some (els, r)) :
    els.length = n ∧ ∀ v ∈ els.map (·.1), v < 2 ^ w := by
  refine ⟨length_qread h, fun v hv => ?_⟩
  unfold qread at h
  dsimp only at h
  split at h
  · cases h
    cases hv
  · split at h
    · cases h
    · cases h
      obtain ⟨e, he, rfl⟩ := List.mem_map.mp hv
      exact lt_of_mem_cutBits (List.mem_of_mem_drop (List.of_mem_zip he).1)

theorem vsrcN_elements {st st1 : Strand} {f n w : Nat} {a : List Nat} (h : vsrcN st f n w = some (a, st1)) :
    a.length = n ∧ (∀ v ∈ a, v < 2 ^ w) ∧ ∃ l, st1 = { st with iq := l } := by
  unfold vsrcN at h
  split at h
  · cases h
    refine ⟨by simp, fun v hv => ?_, st.iq, rfl⟩
    obtain ⟨k, -, rfl⟩ := List.mem_map.mp hv
    exact Nat.mod_lt _ (Nat.two_pow_pos w)
  · split at h
    · split at h
      · cases h
      next hRead =>
        cases h
        obtain ⟨hLength, hBound⟩ := qread_elements hRead
        exact ⟨by rw [List.length_map, hLength], hBound, _, rfl⟩
    · cases h
      refine ⟨List.length_replicate, fun v hv => ?_, st.iq, rfl⟩
      rw [List.eq_of_mem_replicate hv]
      exact Nat.two_pow_pos w

/-- A source read whole: VL elements of its width. -/
def Whole (vl : Nat) (x : Nat × Nat) (a : List Nat) : Prop := a.length = vl ∧ ∀ v ∈ a, v < 2 ^ x.2

theorem vsrcs_whole {srcs : List (Nat × Nat)} {st st1 : Strand} {as_ : List (List Nat)} (h : vsrcs st srcs = some (as_, st1)) :
    List.Forall₂ (Whole st.vl) srcs as_ ∧ ∃ l, st1 = { st with iq := l } := by
  induction srcs generalizing st as_ with
  | nil =>
    cases h
    exact ⟨.nil, _, rfl⟩
  | cons x srcs ih =>
    unfold vsrcs at h
    split at h
    · cases h
    next a st' hHead =>
      split at h
      · cases h
      next hTail =>
        cases h
        obtain ⟨hLength, hBound, l, rfl⟩ := vsrcN_elements hHead
        obtain ⟨hRest, l', rfl⟩ := ih hTail
        exact ⟨.cons ⟨hLength, hBound⟩ hRest, l', rfl⟩

theorem getD_lt {a : List Nat} {w : Nat} (h : ∀ v ∈ a, v < 2 ^ w) (k : Nat) : a.getD k 0 < 2 ^ w := by
  rw [List.getD_eq_getElem?_getD]
  cases hk : a[k]? with
  | none => exact Nat.two_pow_pos w
  | some v => exact h v (List.mem_of_getElem? hk)

/-! Element-wise syllables in general (R301, R303, R304). -/

/-- An element-wise syllable leaves what its form says, where its operation gives the form's results. -/
theorem velem_of_results {s : State} {F : ElemForm} {srcs : List (List Nat)} {st1 : Strand} {act : List Bool} {f : ElOp} (i : Instr)
    (hFits : F.fits (me s) = true) (hSrcs : vsrcs (me s) F.srcs = some (srcs, st1)) (hAct : act = (List.range (me s).vl).map F.act)
    (hResults : ∀ k, k < (me s).vl → ∀ old, f k (rowAt srcs k) old = F.res k (rowAt srcs k) old) :
    velem s i F.srcs F.vd F.wd act f = .ok (putMe s (F.after (me s) st1 srcs)) := by
  obtain ⟨hIn, hOut⟩ := Bool.and_eq_true_iff.1 hFits
  have hIndex : act.zipIdx = (List.range (me s).vl).map fun k => (F.act k, k) := by
    rw [hAct]
    exact List.ext_getElem (by simp) fun j hj _ => by simp
  have hElems : (act.zipIdx.map fun (a, k) => if a then
      (f k (rowAt srcs k) (((if F.vd < 56 then (me s).vregs.getD F.vd [] else []).getD k 0).toNat % 2 ^ F.wd), true)
      else ((0, 0), false)) = F.elems (me s) srcs := by
    rw [hIndex, List.map_map]
    refine List.map_congr_left fun k hk => ?_
    show (if F.act k then _ else _) = _
    rw [hResults k (List.mem_range.mp hk)]
    rfl
  simp only [velem, hIn, hOut, Bool.not_true, Bool.or_false, Bool.false_eq_true, if_false, hSrcs, hElems, vdst_fflags, ElemForm.after]

theorem withTy_of_class {s : State} {ts : Bool} {cls : Nat → Bool} (h : cls (slotTy (me s) ts) = true) (i : Instr) (k : Nat → Res) :
    withTy s i ts cls k = k (slotTy (me s) ts) := if_pos h

/-- A vector syllable of a strand that may use it, over a type of its class, is its meaning there. -/
theorem finish_typed {s : State} {i : Instr} {ts : Bool} {cls : Nat → Bool} (hTrunk : (me s).trunk = false)
    (h : cls (slotTy (me s) ts) = true) (k : Nat → Res) :
    finish s (vecOnly s i fun _ => withTy s i ts cls k) = finish s (k (slotTy (me s) ts)) := by
  rw [vecOnly_of_strand hTrunk, withTy_of_class h]

/-- A typed vector syllable that only changes its strand completes. -/
theorem next_of_typed {s : State} {i : Instr} {ts : Bool} {cls : Nat → Bool} {k : Nat → Res} {st : Strand} (hTrunk : (me s).trunk = false)
    (h : cls (slotTy (me s) ts) = true) (hMeaning : k (slotTy (me s) ts) = .ok (putMe s st)) :
    ∃ t, finish s (vecOnly s i fun _ => withTy s i ts cls k) = .next t ∧ MeBecomes s t st := by
  rw [finish_typed hTrunk h, hMeaning]
  exact ⟨_, rfl, meBecomes_putMe s _⟩

/-- Whether an operation on the elements of two sources gives the results of a table's row, for every type of a class and elements of its width. -/
def Agrees (cls : Nat → Bool) (f : Nat → ElOp) (g : Nat → Nat → Nat → Nat → Nat × FFlags) : Prop :=
  ∀ c, cls c = true → ∀ a b, a < 2 ^ tyWidth c → b < 2 ^ tyWidth c → ∀ k old, f c k [a, b] old = g c a b old

section Forms

variable {s : State} {F : ElemForm} {srcs : List (List Nat)} {st1 : Strand} (hTrunk : (me s).trunk = false)
  (hFits : F.fits (me s) = true) (hSrcs : vsrcs (me s) F.srcs = some (srcs, st1))
include hTrunk hFits hSrcs

theorem vv_of_form {i : Instr} {o : V3} {cls : Nat → Bool} {f : Nat → ElOp} {g : Nat → Nat → Nat → Nat → Nat × FFlags}
    (hForm : vvForm s o cls g = some F) (hAgrees : Agrees cls f g) :
    ∃ t, vv s i o cls f = .next t ∧ MeBecomes s t (F.after (me s) st1 srcs) := by
  obtain ⟨hClass, hF⟩ := Option.ite_none_right_eq_some.1 hForm
  cases hF
  obtain ⟨hWhole, -⟩ := vsrcs_whole hSrcs
  refine next_of_typed hTrunk hClass (velem_of_results i hFits hSrcs rfl fun k _ old => ?_)
  cases hWhole with
  | cons ha hWhole =>
    cases hWhole with
    | cons hb hWhole =>
      cases hWhole
      exact hAgrees _ hClass _ _ (getD_lt ha.2 k) (getD_lt hb.2 k) k old

theorem vs_of_form {i : Instr} {o : Vs3} {cls : Nat → Bool} {f : Nat → ElOp} {g : Nat → Nat → Nat → Nat → Nat × FFlags}
    (hForm : vsForm s o cls g = some F) (hAgrees : Agrees cls f g) :
    ∃ t, vs s i o cls f = .next t ∧ MeBecomes s t (F.after (me s) st1 srcs) := by
  obtain ⟨hClass, hF⟩ := Option.ite_none_right_eq_some.1 hForm
  cases hF
  obtain ⟨hWhole, -⟩ := vsrcs_whole hSrcs
  refine next_of_typed hTrunk hClass (velem_of_results i hFits hSrcs rfl fun k _ old => ?_)
  cases hWhole with
  | cons ha hWhole =>
    cases hWhole
    exact hAgrees _ hClass _ _ (getD_lt ha.2 k) (Nat.mod_lt _ (Nat.two_pow_pos _)) k old

theorem vu_of_form {i : Instr} {o : V2} {cls : Nat → Bool} {f : Nat → ElOp} {g : Nat → Nat → Nat × FFlags}
    (hForm : vuForm s o cls g = some F) (hAgrees : ∀ c, cls c = true → ∀ a k old, f c k [a] old = g c a) :
    ∃ t, vu s i o cls f = .next t ∧ MeBecomes s t (F.after (me s) st1 srcs) := by
  obtain ⟨hClass, hF⟩ := Option.ite_none_right_eq_some.1 hForm
  cases hF
  obtain ⟨hWhole, -⟩ := vsrcs_whole hSrcs
  refine next_of_typed hTrunk hClass (velem_of_results i hFits hSrcs rfl fun k _ old => ?_)
  cases hWhole with
  | cons ha hWhole =>
    cases hWhole
    exact hAgrees _ hClass _ k old

end Forms

/-! The integer results of R306. -/

theorem signedN_mod (w n : Nat) : signedN w n % 2 ^ w = (n % 2 ^ w : Nat) := by
  unfold signedN
  dsimp only
  have hLt : n % 2 ^ w < 2 ^ w := Nat.mod_lt _ (Nat.two_pow_pos w)
  have hSelf : ((n % 2 ^ w : Nat) : Int) % 2 ^ w = (n % 2 ^ w : Nat) := Int.emod_eq_of_lt (by positivity) (by exact_mod_cast hLt)
  split
  · exact hSelf
  · rw [Int.sub_emod_right, hSelf]

theorem elInt_mod (c n : Nat) : elInt c n % 2 ^ tyWidth c = (n % 2 ^ tyWidth c : Nat) := by
  unfold elInt
  split
  · exact signedN_mod _ _
  · norm_cast

theorem wrapN_of_mod {w n : Nat} {i : Int} (h : i % 2 ^ w = (n % 2 ^ w : Nat)) : wrapN w i = n % 2 ^ w := by
  rw [wrapN, h, Int.toNat_natCast]

/-- An element of a type is the wrapped integer that it stands for. -/
theorem wrapN_elInt {c n : Nat} (h : n < 2 ^ tyWidth c) : wrapN (tyWidth c) (elInt c n) = n := by
  rw [wrapN_of_mod (elInt_mod c n), Nat.mod_eq_of_lt h]

theorem wrapN_add (c a b : Nat) : wrapN (tyWidth c) (elInt c a + elInt c b) = opAdd c a b :=
  wrapN_of_mod (by rw [Int.add_emod, elInt_mod, elInt_mod]; norm_cast; rw [← Nat.add_mod])

theorem wrapN_mul (c a b : Nat) : wrapN (tyWidth c) (elInt c a * elInt c b) = opMul c a b :=
  wrapN_of_mod (by rw [Int.mul_emod, elInt_mod, elInt_mod]; norm_cast; rw [← Nat.mul_mod])

theorem wrapN_sub {c a b : Nat} (hb : b < 2 ^ tyWidth c) : wrapN (tyWidth c) (elInt c a - elInt c b) = opSub c a b := by
  refine wrapN_of_mod ?_
  have hCast : ((a + 2 ^ tyWidth c - b : Nat) : Int) = (a : Int) - b + 2 ^ tyWidth c := by
    rw [Nat.cast_sub (by omega)]
    push_cast
    ring
  rw [Int.natCast_mod, hCast, Int.sub_emod, elInt_mod, elInt_mod]
  push_cast
  rw [Int.add_emod_right, ← Int.sub_emod]

theorem wrapN_min {c a b : Nat} (ha : a < 2 ^ tyWidth c) (hb : b < 2 ^ tyWidth c) :
    wrapN (tyWidth c) (min (elInt c a) (elInt c b)) = opMin c a b := by
  unfold opMin
  split
  next h => rw [min_eq_right h.le, wrapN_elInt hb]
  next h => rw [min_eq_left (not_lt.mp h), wrapN_elInt ha]

theorem wrapN_max {c a b : Nat} (ha : a < 2 ^ tyWidth c) (hb : b < 2 ^ tyWidth c) :
    wrapN (tyWidth c) (max (elInt c a) (elInt c b)) = opMax c a b := by
  unfold opMax
  split
  next h => rw [max_eq_right h.le, wrapN_elInt hb]
  next h => rw [max_eq_left (not_lt.mp h), wrapN_elInt ha]

/-- A bitwise or shifting operation is its own row. -/
theorem agrees_refl (cls : Nat → Bool) (g : Nat → Nat → Nat → Nat) : Agrees cls (op2 g) fun c a b _ => (g c a b, 0) := fun _ _ _ _ _ _ _ _ => rfl

theorem agrees_ints {g : Nat → Nat → Nat → Nat} {h : Nat → Int → Int → Int}
    (hEq : ∀ c a b, a < 2 ^ tyWidth c → b < 2 ^ tyWidth c → wrapN (tyWidth c) (h c (elInt c a) (elInt c b)) = g c a b) :
    Agrees tyInt (op2 g) (onInts h) := fun c _ a b ha hb _ _ => congrArg (·, 0) (hEq c a b ha hb).symm

theorem agrees_add : Agrees tyInt (op2 opAdd) (onInts fun _ x y => x + y) := agrees_ints fun c a b _ _ => wrapN_add c a b
theorem agrees_sub : Agrees tyInt (op2 opSub) (onInts fun _ x y => x - y) := agrees_ints fun _ _ _ _ hb => wrapN_sub hb
theorem agrees_mul : Agrees tyInt (op2 opMul) (onInts fun _ x y => x * y) := agrees_ints fun c a b _ _ => wrapN_mul c a b
theorem agrees_min : Agrees tyInt (op2 opMin) (onInts fun _ x y => min x y) := agrees_ints fun _ _ _ ha hb => wrapN_min ha hb
theorem agrees_max : Agrees tyInt (op2 opMax) (onInts fun _ x y => max x y) := agrees_ints fun _ _ _ ha hb => wrapN_max ha hb

/-- VCLZ counts the zeros above the highest set bit of the width. -/
theorem clzN_eq_width (w a : Nat) : clzN w a = w - (if a % 2 ^ w = 0 then 0 else Nat.log2 (a % 2 ^ w) + 1) := rfl

/-- VIOTA counts the active elements below an index. -/
theorem activeBelow_maskOf (st : Strand) (m : BitVec 3) {k : Nat} (hk : k ≤ st.vl) : activeBelow (maskOf st m) k = activeBefore st m.toNat k := by
  rw [activeBelow, maskOf, ← List.map_take, List.take_range, Nat.min_eq_left hk, List.filter_map, List.length_map, activeBefore]
  refine congrArg List.length (List.filter_congr fun j _ => ?_)
  simp

/-- Settles O23. -/
theorem vectorIntResults : Obligations.VectorIntResults := by
  intro i s F srcs st1 hForm hTrunk hFits hSrcs
  cases i with
  | vadd o => exact vv_of_form hTrunk hFits hSrcs hForm (agrees_add)
  | vsub o => exact vv_of_form hTrunk hFits hSrcs hForm (agrees_sub)
  | vmul o => exact vv_of_form hTrunk hFits hSrcs hForm (agrees_mul)
  | vmulh o => exact vv_of_form hTrunk hFits hSrcs hForm (agrees_refl tyInt opMulh)
  | vmin o => exact vv_of_form hTrunk hFits hSrcs hForm (agrees_min)
  | vmax o => exact vv_of_form hTrunk hFits hSrcs hForm (agrees_max)
  | vabsd o => exact vv_of_form hTrunk hFits hSrcs hForm (agrees_refl tyInt opAbsd)
  | vsadd o => exact vv_of_form hTrunk hFits hSrcs hForm (agrees_refl tyInt opSadd)
  | vssub o => exact vv_of_form hTrunk hFits hSrcs hForm (agrees_refl tyInt opSsub)
  | vand o => exact vv_of_form hTrunk hFits hSrcs hForm (agrees_refl tyInt opAnd)
  | vor o => exact vv_of_form hTrunk hFits hSrcs hForm (agrees_refl tyInt opOr)
  | vxor o => exact vv_of_form hTrunk hFits hSrcs hForm (agrees_refl tyInt opXor)
  | vsll o => exact vv_of_form hTrunk hFits hSrcs hForm (agrees_refl tyInt opSll)
  | vsrl o => exact vv_of_form hTrunk hFits hSrcs hForm (agrees_refl tyInt opSrl)
  | vsra o => exact vv_of_form hTrunk hFits hSrcs hForm (agrees_refl tyInt opSra)
  | vaddVs o => exact vs_of_form hTrunk hFits hSrcs hForm (agrees_add)
  | vsubVs o => exact vs_of_form hTrunk hFits hSrcs hForm (agrees_sub)
  | vmulVs o => exact vs_of_form hTrunk hFits hSrcs hForm (agrees_mul)
  | vmulhVs o => exact vs_of_form hTrunk hFits hSrcs hForm (agrees_refl tyInt opMulh)
  | vminVs o => exact vs_of_form hTrunk hFits hSrcs hForm (agrees_min)
  | vmaxVs o => exact vs_of_form hTrunk hFits hSrcs hForm (agrees_max)
  | vabsdVs o => exact vs_of_form hTrunk hFits hSrcs hForm (agrees_refl tyInt opAbsd)
  | vsaddVs o => exact vs_of_form hTrunk hFits hSrcs hForm (agrees_refl tyInt opSadd)
  | vssubVs o => exact vs_of_form hTrunk hFits hSrcs hForm (agrees_refl tyInt opSsub)
  | vandVs o => exact vs_of_form hTrunk hFits hSrcs hForm (agrees_refl tyInt opAnd)
  | vorVs o => exact vs_of_form hTrunk hFits hSrcs hForm (agrees_refl tyInt opOr)
  | vxorVs o => exact vs_of_form hTrunk hFits hSrcs hForm (agrees_refl tyInt opXor)
  | vsllVs o => exact vs_of_form hTrunk hFits hSrcs hForm (agrees_refl tyInt opSll)
  | vsrlVs o => exact vs_of_form hTrunk hFits hSrcs hForm (agrees_refl tyInt opSrl)
  | vsraVs o => exact vs_of_form hTrunk hFits hSrcs hForm (agrees_refl tyInt opSra)
  | vmv o => exact vu_of_form (g := fun _ a => (a, 0)) hTrunk hFits hSrcs hForm fun _ _ _ _ _ => rfl
  | vclz o => exact vu_of_form (g := fun c a => (clzN (tyWidth c) a, 0)) hTrunk hFits hSrcs hForm fun _ _ _ _ _ => rfl
  | vmvVs o =>
    obtain ⟨hClass, hF⟩ := Option.ite_none_right_eq_some.1 hForm
    cases hF
    exact next_of_typed hTrunk hClass (velem_of_results (.vmvVs o) hFits hSrcs rfl fun _ _ _ => rfl)
  | viota o =>
    obtain ⟨hClass, hF⟩ := Option.ite_none_right_eq_some.1 hForm
    cases hF
    refine next_of_typed hTrunk hClass (velem_of_results (.viota o) hFits hSrcs rfl fun k hk _ => ?_)
    rw [activeBelow_maskOf (me s) o.m hk.le]
  | vsel o =>
    obtain ⟨hClass, hF⟩ := Option.ite_none_right_eq_some.1 hForm
    cases hF
    have hAll : List.replicate (me s).vl true = (List.range (me s).vl).map fun _ => true := by simp
    exact next_of_typed hTrunk hClass (velem_of_results (.vsel o) hFits hSrcs hAll fun _ _ _ => rfl)
  | _ => cases hForm

/-! The floating-point results of R307 to R309. -/

theorem agrees_fp (s : State) (ts : Bool) (g : Fmt → Rm → Fp → Fp → Nat × FFlags) : Agrees tyFp (fp2 s ts g) (onFp (slotMode (me s) ts) g) :=
  fun _ _ _ _ _ _ _ _ => rfl

theorem agrees_fma (s : State) (ts : Bool) : Agrees tyFp (fp3 s ts) (onFma (slotMode (me s) ts)) := fun _ _ _ _ _ _ _ _ => rfl

/-- VFFMA has no out-queue destination (R307). -/
theorem exec_vffma {s : State} {o : V3} (h : o.vd.toNat < 56) : exec (.vffma o) s = vv s (.vffma o) o tyFp (fp3 s o.ts) :=
  if_neg (not_le.mpr h)

theorem exec_vffmaVs {s : State} {o : Vs3} (h : o.vd.toNat < 56) : exec (.vffmaVs o) s = vs s (.vffmaVs o) o tyFp (fp3 s o.ts) :=
  if_neg (not_le.mpr h)

/-- Settles O24. -/
theorem vectorFpResults : Obligations.VectorFpResults := by
  intro i s F srcs st1 hForm hTrunk hFits hSrcs
  cases i with
  | vfadd o => exact vv_of_form hTrunk hFits hSrcs hForm (agrees_fp s o.ts _)
  | vfsub o => exact vv_of_form hTrunk hFits hSrcs hForm (agrees_fp s o.ts _)
  | vfmul o => exact vv_of_form hTrunk hFits hSrcs hForm (agrees_fp s o.ts _)
  | vfdiv o => exact vv_of_form hTrunk hFits hSrcs hForm (agrees_fp s o.ts _)
  | vfmin o => exact vv_of_form hTrunk hFits hSrcs hForm (agrees_fp s o.ts _)
  | vfmax o => exact vv_of_form hTrunk hFits hSrcs hForm (agrees_fp s o.ts _)
  | vfaddVs o => exact vs_of_form hTrunk hFits hSrcs hForm (agrees_fp s o.ts _)
  | vfsubVs o => exact vs_of_form hTrunk hFits hSrcs hForm (agrees_fp s o.ts _)
  | vfmulVs o => exact vs_of_form hTrunk hFits hSrcs hForm (agrees_fp s o.ts _)
  | vfdivVs o => exact vs_of_form hTrunk hFits hSrcs hForm (agrees_fp s o.ts _)
  | vfminVs o => exact vs_of_form hTrunk hFits hSrcs hForm (agrees_fp s o.ts _)
  | vfmaxVs o => exact vs_of_form hTrunk hFits hSrcs hForm (agrees_fp s o.ts _)
  | vfsqrt o => exact vu_of_form (g := onFp1 (slotMode (me s) o.ts) fpSqrt) hTrunk hFits hSrcs hForm fun _ _ _ _ _ => rfl
  | vfexp o => exact vu_of_form (g := onFp1 (slotMode (me s) o.ts) fpExp) hTrunk hFits hSrcs hForm fun _ _ _ _ _ => rfl
  | vflog o => exact vu_of_form (g := onFp1 (slotMode (me s) o.ts) fpLog) hTrunk hFits hSrcs hForm fun _ _ _ _ _ => rfl
  | vfrcp o => exact vu_of_form (g := onFp1 (slotMode (me s) o.ts) fpRcp) hTrunk hFits hSrcs hForm fun _ _ _ _ _ => rfl
  | vffma o =>
    obtain ⟨hRegister, hForm⟩ := Option.ite_none_right_eq_some.1 hForm
    rw [exec_vffma hRegister]
    exact vv_of_form hTrunk hFits hSrcs hForm (agrees_fma s o.ts)
  | vffmaVs o =>
    obtain ⟨hRegister, hForm⟩ := Option.ite_none_right_eq_some.1 hForm
    rw [exec_vffmaVs hRegister]
    exact vs_of_form hTrunk hFits hSrcs hForm (agrees_fma s o.ts)
  | vfscl o =>
    obtain ⟨hClass, hF⟩ := Option.ite_none_right_eq_some.1 hForm
    cases hF
    exact next_of_typed hTrunk hClass (velem_of_results (.vfscl o) hFits hSrcs rfl fun _ _ _ => rfl)
  | vfsclVs o =>
    obtain ⟨hClass, hF⟩ := Option.ite_none_right_eq_some.1 hForm
    cases hF
    obtain ⟨hWhole, -⟩ := vsrcs_whole hSrcs
    refine next_of_typed hTrunk hClass (velem_of_results (.vfsclVs o) hFits hSrcs rfl fun k _ _ => ?_)
    cases hWhole with
    | cons _ hWhole =>
      cases hWhole
      rfl
  | vfcvt o =>
    obtain ⟨hClass, hF⟩ := Option.ite_none_right_eq_some.1 hForm
    cases hF
    obtain ⟨hFrom, hTo⟩ := Bool.and_eq_true_iff.1 hClass
    refine next_of_typed hTrunk hTo ((withTy_of_class hFrom (.vfcvt o) _).trans ?_)
    exact velem_of_results (.vfcvt o) hFits hSrcs rfl fun _ _ _ => rfl
  | _ => cases hForm

end Sys2Proof.Machine
end


section
/-! SUPPORT. Permutes, predicates and vector destinations (R121, R131, R258, R304, R310, R312, R313). -/

namespace Sys2Proof.Machine

/-! Permutes and slides (R313). -/

/-- A permute leaves what its form says, where it picks the form's elements at the active positions. -/
theorem vperm_of_picks {s : State} {F : PermForm} {srcs : List (List Nat)} {st1 : Strand} {act : List Bool} {pick : List (List Nat) → Nat → Nat}
    (i : Instr) (hIn : (F.srcs.all fun x => fieldFits (me s) x.1 x.2) = true) (hOut : fieldFits (me s) F.vd F.wd = true)
    (hSrcs : vsrcs (me s) F.srcs = some (srcs, st1)) (hAct : act = (List.range (me s).vl).map F.act)
    (hPicks : ∀ k, k < (me s).vl → F.act k = true → pick srcs k = F.pick srcs k) :
    vperm s i F.srcs F.vd F.wd act pick = .ok (putMe s (F.after (me s) st1 srcs)) := by
  have hElems : (act.zipIdx.map fun (a, k) => (if a then pick srcs k else 0, a)) =
      (List.range (me s).vl).map fun k => (if F.act k then F.pick srcs k else 0, F.act k) := by
    have hIndex : act.zipIdx = (List.range (me s).vl).map fun k => (F.act k, k) := by
      rw [hAct]
      exact List.ext_getElem (by simp) fun j hj _ => by simp
    rw [hIndex, List.map_map]
    refine List.map_congr_left fun k hk => ?_
    by_cases hOn : F.act k = true
    · simp [hOn, hPicks k (List.mem_range.mp hk) hOn]
    · simp [hOn]
  simp only [vperm, hIn, hOut, Bool.not_true, Bool.or_false, Bool.false_eq_true, if_false, hSrcs, hElems, PermForm.after]

/-- The selected elements of a list, in order. -/
theorem compressed_eq {a : List Nat} {n : Nat} (h : a.length = n) (sel : Nat → Bool) :
    ((a.zip ((List.range n).map sel)).filter (·.2)).map (·.1) = ((List.range n).filter sel).map (a.getD · 0) := by
  have hZip : a.zip ((List.range n).map sel) = (List.range n).map fun k => (a.getD k 0, sel k) := by
    refine List.ext_getElem (by simp [h]) fun j hj _ => ?_
    have hj' : j < a.length := by simpa [h] using hj
    simp [List.getElem?_eq_getElem hj']
  rw [hZip, List.filter_map, List.map_map]
  rfl

theorem length_filter_maskOf (st : Strand) (m : BitVec 3) :
    ((maskOf st m).filter (· == true)).length = ((List.range st.vl).filter (predBit st m.toNat)).length := by
  rw [maskOf, List.filter_map, List.length_map]
  exact congrArg List.length (List.filter_congr fun j _ => by simp)

/-- Settles O25. -/
theorem permuteResults : Obligations.PermuteResults := by
  intro i s F srcs st1 hForm hTrunk hIn hOut hSrcs
  obtain ⟨hWhole, -⟩ := vsrcs_whole hSrcs
  cases i with
  | vperm o =>
    obtain ⟨hClass, hF⟩ := Option.ite_none_right_eq_some.1 hForm
    cases hF
    refine next_of_typed hTrunk hClass (vperm_of_picks (.vperm o) hIn hOut hSrcs rfl fun k _ _ => ?_)
    dsimp only [elem0]
    by_cases hBelow : (srcs.getD 1 []).getD k 0 < (me s).vl
    · rw [if_neg (not_le.mpr hBelow), if_pos hBelow]
    · rw [if_pos (not_lt.mp hBelow), if_neg hBelow]
  | vcompress o =>
    obtain ⟨hClass, hF⟩ := Option.ite_none_right_eq_some.1 hForm
    cases hF
    refine next_of_typed hTrunk hClass (vperm_of_picks (.vcompress o) hIn hOut hSrcs ?_ fun k _ hOn => ?_)
    · rw [length_filter_maskOf]
    · cases hWhole with
      | cons ha _ =>
        have hBelow : k < ((List.range (me s).vl).filter (predBit (me s) o.m.toNat)).length := by simpa using hOn
        dsimp only [elem0]
        rw [List.getD_cons_zero, maskOf, compressed_eq ha.1, List.getD_eq_getElem _ _ (by rwa [List.length_map]), List.getElem_map,
          List.getD_eq_getElem _ _ hBelow]
  | vexpand o =>
    obtain ⟨hClass, hF⟩ := Option.ite_none_right_eq_some.1 hForm
    cases hF
    refine next_of_typed hTrunk hClass (vperm_of_picks (.vexpand o) hIn hOut hSrcs rfl fun k hk _ => ?_)
    rw [activeBelow_maskOf (me s) o.m hk.le]
    rfl
  | vslideup o =>
    obtain ⟨hClass, hF⟩ := Option.ite_none_right_eq_some.1 hForm
    cases hF
    refine next_of_typed hTrunk hClass (vperm_of_picks (.vslideup o) hIn hOut hSrcs ?_ fun _ _ _ => rfl)
    rw [zipIdx_maskOf, List.map_map]
    rfl
  | vslidedn o =>
    obtain ⟨hClass, hF⟩ := Option.ite_none_right_eq_some.1 hForm
    cases hF
    exact next_of_typed hTrunk hClass (vperm_of_picks (.vslidedn o) hIn hOut hSrcs rfl fun _ _ _ => rfl)
  | _ => cases hForm

/-! Compares and predicate logic (R121, R304, R310, R312). -/

theorem intRel_eq (cond : Nat) (x y : Int) : intRel cond x y = intHolds cond x y := by
  match cond with
  | 0 | 1 | 2 | 3 | 4 => rfl
  | n + 5 =>
    rw [intHolds, min_eq_right (by omega)]
    rfl

/-- The predicates after a write of the active bits below VL. -/
theorem predsAfter_below {s : State} {st : Strand} (hPreds : st.preds = (me s).preds) (pd : BitVec 3) (act val : Nat → Bool) :
    PredsAfter (me s) (predSet st pd.toNat ((((List.range (me s).vl).filter act).map fun k => (k, val k)))) pd act val := by
  intro q k hk
  have hOld : predBit st q.toNat k = predBit (me s) q.toNat k := by simp only [predBit, hPreds]
  rw [predBit_predSet _ _ _ _ _ hk, hOld]
  refine if_congr (and_congr_right fun _ => and_congr_right fun _ => ?_) rfl rfl
  rw [List.mem_filter, List.mem_range]

/-- A compare leaves what its form says, where it gives the form's relation. -/
theorem vcompare_of_form {s : State} {F : CmpForm} {srcs : List (List Nat)} {st1 : Strand} {m : BitVec 3} {f : List Nat → Bool × FFlags} (i : Instr)
    (hIn : (F.srcs.all fun x => fieldFits (me s) x.1 x.2) = true) (hSrcs : vsrcs (me s) F.srcs = some (srcs, st1))
    (hAct : F.act = predBit (me s) m.toNat) (hRel : ∀ k, f (rowAt srcs k) = F.rel (rowAt srcs k)) :
    vcompare s i F.srcs F.pd (maskOf (me s) m) f = .ok (putMe s
      { predSet st1 F.pd.toNat (((List.range (me s).vl).filter F.act).map fun k => (k, (F.rel (rowAt srcs k)).1)) with
        fflags := st1.fflags ||| orFlags (((List.range (me s).vl).filter F.act).map fun k => (F.rel (rowAt srcs k)).2) }) := by
  have hRows : ((maskOf (me s) m).zipIdx.filter (·.1)).map (fun (x : Bool × Nat) => (x.2, f (rowAt srcs x.2))) =
      ((List.range (me s).vl).filter F.act).map fun k => (k, F.rel (rowAt srcs k)) := by
    rw [zipIdx_maskOf, List.filter_map, List.map_map, hAct]
    exact List.map_congr_left fun k _ => congrArg (k, ·) (hRel k)
  simp only [vcompare, hIn, Bool.not_true, Bool.false_eq_true, if_false, hSrcs, hRows, List.map_map, predSet_fflags]
  rfl

/-- What a compare leaves. -/
theorem compare_effect {s : State} {F : CmpForm} {srcs : List (List Nat)} {st1 : Strand} (hSrcs : vsrcs (me s) F.srcs = some (srcs, st1)) :
    let st2 := predSet st1 F.pd.toNat (((List.range (me s).vl).filter F.act).map fun k => (k, (F.rel (rowAt srcs k)).1))
    let t := putMe s { st2 with fflags := st1.fflags ||| orFlags (((List.range (me s).vl).filter F.act).map fun k => (F.rel (rowAt srcs k)).2) }
    OnlyMe s t ∧ { me t with preds := st1.preds, fflags := st1.fflags } = st1 ∧
      PredsAfter (me s) (me t) F.pd F.act (fun k => (F.rel (srcs.map fun l => l.getD k 0)).1) ∧
      (me t).fflags =
        st1.fflags ||| orFlags (((List.range (me s).vl).filter F.act).map fun k => (F.rel (srcs.map fun l => l.getD k 0)).2) := by
  intro st2 t
  obtain ⟨-, l, hSt1⟩ := vsrcs_whole hSrcs
  have hPreds : st1.preds = (me s).preds := by rw [hSt1]
  have hMe : me t = _ := me_putMe s _
  rw [hMe]
  refine ⟨onlyMe_putMe s _, ?_, predsAfter_below hPreds F.pd F.act _, rfl⟩
  have hRest := congrArg (fun st : Strand => { st with fflags := st1.fflags })
    (predSet_preds st1 F.pd.toNat (((List.range (me s).vl).filter F.act).map fun k => (k, (F.rel (rowAt srcs k)).1)))
  exact hRest

theorem next_of_compare {s : State} {i : Instr} {ts : Bool} {cls : Nat → Bool} {k : Nat → Res} {F : CmpForm} {srcs : List (List Nat)}
    {st1 : Strand} (hTrunk : (me s).trunk = false) (h : cls (slotTy (me s) ts) = true) (hSrcs : vsrcs (me s) F.srcs = some (srcs, st1))
    (hMeaning : k (slotTy (me s) ts) = .ok (putMe s
      { predSet st1 F.pd.toNat (((List.range (me s).vl).filter F.act).map fun k => (k, (F.rel (rowAt srcs k)).1)) with
        fflags := st1.fflags ||| orFlags (((List.range (me s).vl).filter F.act).map fun k => (F.rel (rowAt srcs k)).2) })) :
    ∃ t, finish s (vecOnly s i fun _ => withTy s i ts cls k) = .next t ∧ OnlyMe s t ∧
      { me t with preds := st1.preds, fflags := st1.fflags } = st1 ∧
      PredsAfter (me s) (me t) F.pd F.act (fun k => (F.rel (srcs.map fun l => l.getD k 0)).1) ∧
      (me t).fflags =
        st1.fflags ||| orFlags (((List.range (me s).vl).filter F.act).map fun k => (F.rel (srcs.map fun l => l.getD k 0)).2) := by
  rw [finish_typed hTrunk h, hMeaning]
  exact ⟨_, rfl, compare_effect hSrcs⟩

theorem compare_results {i : Instr} {s : State} {F : CmpForm} {srcs : List (List Nat)} {st1 : Strand} (hForm : cmpForm s i = some F)
    (hTrunk : (me s).trunk = false) (hIn : (F.srcs.all fun x => fieldFits (me s) x.1 x.2) = true)
    (hSrcs : vsrcs (me s) F.srcs = some (srcs, st1)) :
    ∃ t, exec i s = .next t ∧ OnlyMe s t ∧ { me t with preds := st1.preds, fflags := st1.fflags } = st1 ∧
      PredsAfter (me s) (me t) F.pd F.act (fun k => (F.rel (srcs.map fun l => l.getD k 0)).1) ∧
      (me t).fflags =
        st1.fflags ||| orFlags (((List.range (me s).vl).filter F.act).map fun k => (F.rel (srcs.map fun l => l.getD k 0)).2) := by
  obtain ⟨hWhole, -⟩ := vsrcs_whole hSrcs
  cases i with
  | vcmp o =>
    obtain ⟨hClass, hF⟩ := Option.ite_none_right_eq_some.1 hForm
    cases hF
    exact next_of_compare hTrunk hClass hSrcs (vcompare_of_form (.vcmp o) hIn hSrcs rfl fun k => congrArg (·, 0) (intRel_eq _ _ _))
  | vfcmp o =>
    obtain ⟨hClass, hF⟩ := Option.ite_none_right_eq_some.1 hForm
    cases hF
    exact next_of_compare hTrunk hClass hSrcs (vcompare_of_form (.vfcmp o) hIn hSrcs rfl fun _ => rfl)
  | vcmpVs o =>
    obtain ⟨hClass, hF⟩ := Option.ite_none_right_eq_some.1 hForm
    cases hF
    refine next_of_compare hTrunk hClass hSrcs (vcompare_of_form (.vcmpVs o) hIn hSrcs rfl fun k => ?_)
    cases hWhole with
    | cons _ hWhole =>
      cases hWhole
      exact congrArg (·, 0) (intRel_eq _ _ _)
  | vfcmpVs o =>
    obtain ⟨hClass, hF⟩ := Option.ite_none_right_eq_some.1 hForm
    cases hF
    refine next_of_compare hTrunk hClass hSrcs (vcompare_of_form (.vfcmpVs o) hIn hSrcs rfl fun k => ?_)
    cases hWhole with
    | cons _ hWhole =>
      cases hWhole
      rfl
  | _ => cases hForm

/-- Predicate logic writes bits 0 to VL − 1. -/
theorem predLogic_effect {s : State} (hTrunk : (me s).trunk = false) (i : Instr) (pd : BitVec 3) (f : Nat → Bool) :
    ∃ t, predLogic s i pd f = .next t ∧ OnlyMe s t ∧ { me t with preds := (me s).preds } = me s ∧
      PredsAfter (me s) (me t) pd (fun _ => true) f := by
  have hAll : ((List.range (me s).vl).filter fun _ => true) = List.range (me s).vl := List.filter_true _
  have hAfter := predsAfter_below (s := s) rfl pd (fun _ => true) f
  rw [hAll] at hAfter
  rw [predLogic, vecOnly_of_strand hTrunk]
  refine ⟨_, rfl, onlyMe_putMe s _, ?_, ?_⟩
  · rw [me_putMe]
    exact predSet_preds _ _ _
  · rw [me_putMe]
    exact hAfter

theorem logic_results {i : Instr} {s : State} {pd : BitVec 3} {f : Nat → Bool} (hForm : predForm (me s) i = some (pd, f))
    (hTrunk : (me s).trunk = false) :
    ∃ t, exec i s = .next t ∧ OnlyMe s t ∧ { me t with preds := (me s).preds } = me s ∧ PredsAfter (me s) (me t) pd (fun _ => true) f := by
  cases i with
  | pand o | por o | pnot o =>
    cases hForm
    exact predLogic_effect hTrunk _ _ _
  | pxor o =>
    cases hForm
    have hXor : (fun k => predBit (me s) o.pa.toNat k ^^ predBit (me s) o.pb.toNat k) =
        fun k => predBit (me s) o.pa.toNat k != predBit (me s) o.pb.toNat k := funext fun k => (Bool.bne_eq_xor ..).symm ▸ rfl
    rw [hXor]
    exact predLogic_effect hTrunk (.pxor o) _ _
  | _ => cases hForm

/-- Settles O26. -/
theorem predicateResults : Obligations.PredicateResults := by
  refine ⟨fun i s F srcs st1 hForm hTrunk hIn hSrcs => compare_results hForm hTrunk hIn hSrcs,
    fun i s pd f hForm hTrunk => logic_results hForm hTrunk, fun o s hTrunk => ⟨_, ?_, writesReg_setS s o.sd _⟩,
    fun o s hTrunk => ⟨_, ?_, writesReg_setS s o.sd _⟩⟩
  · exact congrArg (finish s) (vecOnly_of_strand hTrunk (.ppopc o) _)
  · refine (congrArg (finish s) (vecOnly_of_strand hTrunk (.pfirst o) _)).trans ?_
    cases (List.range (me s).vl).find? (predBit (me s) o.pa.toNat) <;> rfl

/-! Destinations (R131, R258, R301, R304). -/

theorem mergeReg_getD (es : List (Nat × Bool)) (r : List Word) (k : Nat) :
    (mergeReg es r).getD k 0 = if (es.getD k (0, false)).2 = true then wordOf (es.getD k (0, false)).1 else r.getD k 0 := by
  induction es generalizing r k with
  | nil => rfl
  | cons e es ih =>
    obtain ⟨v, m⟩ := e
    cases k with
    | zero => cases m <;> cases r <;> rfl
    | succ k =>
      have hTail : r.tail.getD k 0 = r.getD (k + 1) 0 := by cases r <;> rfl
      cases m <;> exact (ih r.tail k).trans (by rw [hTail]; rfl)

theorem vdst_register {st : Strand} {f w g : Nat} (es : List (Nat × Bool)) (k : Nat) (hf : f < 56) (hg : g < 56) :
    ((vdst st f w es).vregs.getD g []).getD k 0 =
      if g = f ∧ (es.getD k (0, false)).2 = true then BitVec.ofNat 64 ((es.getD k (0, false)).1 % 2 ^ w)
      else (st.vregs.getD g []).getD k 0 := by
  have hRegs : (vdst st f w es).vregs = putAt 56 [] st.vregs f (mergeReg (es.map fun e => (e.1 % 2 ^ w, e.2)) (st.vregs.getD f [])) := by
    rw [vdst, if_pos hf]
    rfl
  have hElem : (es.map fun e => (e.1 % 2 ^ w, e.2)).getD k (0, false) = ((es.getD k (0, false)).1 % 2 ^ w, (es.getD k (0, false)).2) :=
    getDm es (fun e => (e.1 % 2 ^ w, e.2)) (0, false) (0, false) (by simp) k
  rw [hRegs, getD_putAt _ _ _ _ _ _ hg]
  by_cases hSame : g = f
  · rw [if_pos hSame, mergeReg_getD, hElem, hSame]
    simp only [true_and]
    rfl
  · rw [if_neg hSame, if_neg (fun h => hSame h.1)]

theorem vdst_queue {st : Strand} {f w j : Nat} (es : List (Nat × Bool)) (hf : 56 ≤ f) (hj : j < 4) :
    (vdst st f w es).vregs = st.vregs ∧
    oqOf (vdst st f w es) j =
      if j = f - 56 then qpush (oqOf st j) 0 w (es.map fun e => (if e.2 then e.1 else 0, e.2)) else oqOf st j := by
  rw [vdst, if_neg (not_lt.mpr hf)]
  refine ⟨rfl, ?_⟩
  rw [oqOf, setOq, getD_putAt _ _ _ _ _ _ hj]
  by_cases hSame : j = f - 56
  · rw [if_pos hSame, if_pos hSame, ← hSame]
  · rw [if_neg hSame, if_neg hSame]
    rfl

/-! What is pushed into an empty queue is read back (R131). -/

theorem packCodes_lt {w : Nat} {l : List Nat} (h : ∀ v ∈ l, v < 2 ^ w) : packCodes w l < 2 ^ (l.length * w) := by
  induction l with
  | nil => simp [packCodes]
  | cons v l ih =>
    have hv := h v List.mem_cons_self
    have hRest := ih fun x hx => h x (List.mem_cons_of_mem _ hx)
    rw [List.length_cons, Nat.succ_mul, Nat.add_comm, Nat.pow_add]
    calc v + 2 ^ w * packCodes w l < 2 ^ w * (packCodes w l + 1) := by rw [Nat.mul_succ]; omega
      _ ≤ 2 ^ w * 2 ^ (l.length * w) := Nat.mul_le_mul_left _ hRest

theorem cutBits_packCodes {w : Nat} {l : List Nat} (h : ∀ v ∈ l, v < 2 ^ w) : cutBits w l.length (packCodes w l) = l := by
  induction l with
  | nil => rfl
  | cons v l ih =>
    have hv := h v List.mem_cons_self
    have hMod : (v + 2 ^ w * packCodes w l) % 2 ^ w = v := by rw [Nat.add_mul_mod_self_left, Nat.mod_eq_of_lt hv]
    have hDiv : (v + 2 ^ w * packCodes w l) / 2 ^ w = packCodes w l := by
      rw [Nat.add_mul_div_left _ _ (Nat.two_pow_pos w), Nat.div_eq_of_lt hv, Nat.zero_add]
    rw [List.length_cons, cutBits, packCodes, hMod, hDiv, ih fun x hx => h x (List.mem_cons_of_mem _ hx)]

/-- The groups of two numbers, cut into n pieces each. -/
def cutGroups (n d m : Nat) : List Group :=
  List.zipWith (fun x y => (⟨BitVec.ofNat 2048 x, BitVec.ofNat 2048 y, 0, []⟩ : Group)) (cutBits 2048 n d) (cutBits 2048 n m)

theorem length_cutGroups (n d m : Nat) : (cutGroups n d m).length = n := by simp [cutGroups, length_cutBits]

theorem split_two_pow (n d : Nat) : d % 2 ^ 2048 + 2 ^ 2048 * (d / 2 ^ 2048 % 2 ^ (2048 * n)) = d % 2 ^ (2048 * (n + 1)) := by
  rw [Nat.mul_succ, Nat.add_comm (2048 * n), Nat.pow_add, Nat.mod_mul]

theorem groupBits_cutGroups (n d m : Nat) : groupBits (cutGroups n d m) = d % 2 ^ (2048 * n) := by
  induction n generalizing d m with
  | zero => exact (Nat.mod_one d).symm
  | succ n ih =>
    show (BitVec.ofNat 2048 (d % 2 ^ 2048)).toNat + 2 ^ 2048 * groupBits (cutGroups n (d / 2 ^ 2048) (m / 2 ^ 2048)) = _
    rw [BitVec.toNat_ofNat, Nat.mod_mod, ih, split_two_pow]

theorem groupMarks_cutGroups (n d m : Nat) : groupMarks (cutGroups n d m) = m % 2 ^ (2048 * n) := by
  induction n generalizing d m with
  | zero => exact (Nat.mod_one m).symm
  | succ n ih =>
    show (BitVec.ofNat 2048 (m % 2 ^ 2048)).toNat + 2 ^ 2048 * groupMarks (cutGroups n (d / 2 ^ 2048) (m / 2 ^ 2048)) = _
    rw [BitVec.toNat_ofNat, Nat.mod_mod, ih, split_two_pow]

theorem qpush_empty {w : Nat} {es : List (Nat × Bool)} (h : es ≠ []) : qpush [] 0 w es =
    cutGroups (groupsFor es.length w) (packCodes w (es.map fun e => e.1 % 2 ^ w)) (packCodes w (es.map fun e => if e.2 then 2 ^ w - 1 else 0)) := by
  rw [qpush, if_neg (mt List.isEmpty_iff.mp h), qappend, Nat.zero_mul, Nat.zero_mod]
  simp only [if_true, Nat.zero_add, pow_zero, Nat.mul_one, List.nil_append]
  rfl

theorem le_groupsFor (n w : Nat) : n * w ≤ 2048 * groupsFor n w := by
  unfold groupsFor ceilDiv
  omega

/-- Marks stored as whole elements are read back. -/
theorem marks_back {w : Nat} (hw : 0 < w) (es : List (Nat × Bool)) :
    ((es.map fun e => if e.2 then 2 ^ w - 1 else 0).map fun m => m % 2 == 1) = es.map (·.2) := by
  obtain ⟨n, rfl⟩ : ∃ n, w = n + 1 := ⟨w - 1, by omega⟩
  have hOdd : (2 ^ (n + 1) - 1) % 2 = 1 := by
    have := Nat.two_pow_pos n
    omega
  rw [List.map_map]
  refine List.map_congr_left fun e _ => ?_
  cases h : e.2 <;> simp [h, hOdd]

theorem qread_qpush {w : Nat} (hw : 0 < w) (es : List (Nat × Bool)) :
    qread (qpush [] 0 w es) 0 es.length w = some (es.map fun e => (e.1 % 2 ^ w, e.2), []) := by
  by_cases hEmpty : es = []
  · subst hEmpty
    rfl
  have hLength : ¬ es.length ≤ 0 := by simpa using hEmpty
  have hFit : 2 ^ (es.length * w) ≤ 2 ^ (2048 * groupsFor es.length w) := Nat.pow_le_pow_right (by decide) (le_groupsFor _ _)
  have hBack : ∀ l : List Nat, l.length = es.length → (∀ v ∈ l, v < 2 ^ w) →
      cutBits w es.length (packCodes w l % 2 ^ (2048 * groupsFor es.length w)) = l := fun l hl hv => by
    have hLt := packCodes_lt hv
    rw [hl] at hLt
    rw [Nat.mod_eq_of_lt (lt_of_lt_of_le hLt hFit), ← hl, cutBits_packCodes hv]
  have hValues := hBack (es.map fun e => e.1 % 2 ^ w) (List.length_map _) fun v hv => by
    obtain ⟨e, -, rfl⟩ := List.mem_map.mp hv
    exact Nat.mod_lt _ (Nat.two_pow_pos w)
  have hMarks := hBack (es.map fun e => if e.2 then 2 ^ w - 1 else 0) (List.length_map _) fun v hv => by
    obtain ⟨e, -, rfl⟩ := List.mem_map.mp hv
    show (if e.2 = true then 2 ^ w - 1 else 0) < 2 ^ w
    split
    · exact Nat.sub_lt (Nat.two_pow_pos w) (by decide)
    · exact Nat.two_pow_pos w
  rw [qpush_empty hEmpty, qread]
  simp only [hLength, if_false, Nat.zero_mul, Nat.zero_div, Nat.sub_zero, length_cutGroups, lt_self_iff_false, Nat.add_zero, List.drop_zero,
    List.take_of_length_le (length_cutGroups _ _ _).le, List.drop_of_length_le (length_cutGroups _ _ _).le, groupBits_cutGroups,
    groupMarks_cutGroups, hValues, hMarks, marks_back hw]
  rw [List.zip_map']

/-- Settles O27. -/
theorem vectorDestinations : Obligations.VectorDestinations :=
  ⟨fun _ _ _ es _ k hf hg => vdst_register es k hf hg, fun _ _ _ es _ hf hj => vdst_queue es hf hj,
    fun w es hw => qread_qpush (by omega) es⟩

end Sys2Proof.Machine
end


section
/-! SUPPORT. Reductions and scans, exact accumulators and block formats (R314 to R319). -/

namespace Sys2Proof.Machine

theorem tyAny_of_tyInt {c : Nat} (h : tyInt c = true) : tyAny c = true := by
  simp only [tyInt, tyAny, decide_eq_true_eq] at *
  omega

theorem tyAny_of_tyFp {c : Nat} (h : tyFp c = true) : tyAny c = true := by
  simp only [tyFp, tyAny, Bool.and_eq_true, decide_eq_true_eq] at *
  omega

theorem tyInt_of_tyFp {c : Nat} (h : tyFp c = true) : tyInt c = false := by
  simp only [tyFp, tyInt, Bool.and_eq_true, decide_eq_true_eq, decide_eq_false_iff_not] at *
  omega

/-- One source read alone. -/
theorem vsrc_of_vsrcs {st st1 : Strand} {f w : Nat} {a : List Nat} (h : vsrcs st [(f, w)] = some ([a], st1)) : vsrc st f w = some (a, st1) := by
  unfold vsrcs vsrcs at h
  split at h
  · cases h
  next hRead =>
    cases h
    exact hRead

/-! Reductions (R314, R316). -/

/-- A reduction reads the rows of the active elements. -/
theorem vreduce_rows {s : State} {srcs : List (Nat × Nat)} {as_ : List (List Nat)} {st1 : Strand} (i : Instr) (m : BitVec 3)
    (k : List (List Nat) → Strand → Res) (hFits : (srcs.all fun x => fieldFits (me s) x.1 x.2) = true) (hSrcs : vsrcs (me s) srcs = some (as_, st1)) :
    vreduce s i srcs (maskOf (me s) m) k = k (((List.range (me s).vl).filter (predBit (me s) m.toNat)).map (rowAt as_)) st1 := by
  have hRows : ((maskOf (me s) m).zipIdx.filter (·.1)).map (fun (x : Bool × Nat) => rowAt as_ x.2) =
      ((List.range (me s).vl).filter (predBit (me s) m.toNat)).map (rowAt as_) := by
    rw [zipIdx_maskOf, List.filter_map, List.map_map]
    rfl
  simp only [vreduce, hFits, Bool.not_true, Bool.false_eq_true, if_false, hSrcs, hRows]

theorem fits_one {s : State} {f w : Nat} (h : fieldFits (me s) f w = true) : ([(f, w)].all fun x => fieldFits (me s) x.1 x.2) = true := by
  simpa using h

theorem fits_two {s : State} {f g w : Nat} (hf : fieldFits (me s) f w = true) (hg : fieldFits (me s) g w = true) :
    ([(f, w), (g, w)].all fun x => fieldFits (me s) x.1 x.2) = true := by
  simp [hf, hg]

/-- The elements of the rows of one source. -/
theorem map_rows_one (st : Strand) (p : Nat) (a : List Nat) :
    (((List.range st.vl).filter (predBit st p)).map (rowAt [a])).map (fun r => r.getD 0 0) = activeOf st p a := by
  rw [List.map_map]
  rfl

theorem foldInt_max (l : List Int) (d : Int) : foldInt true l d = l.foldl max d := rfl

theorem foldInt_min (l : List Int) (d : Int) : foldInt false l d = l.foldl min d := rfl

section

variable {s : State} {o : VminOps} {a : List Nat} {st1 : Strand} (hTrunk : (me s).trunk = false)
  (hFits : fieldFits (me s) o.va.toNat (tyWidth (slotTy (me s) o.ts)) = true)
  (hSrcs : vsrcs (me s) [(o.va.toNat, tyWidth (slotTy (me s) o.ts))] = some ([a], st1))
include hTrunk hFits hSrcs

/-- VREDMAX and VREDMIN over integers. -/
theorem vredMinMax_int (i : Instr) (isMax : Bool) (hClass : tyInt (slotTy (me s) o.ts) = true) :
    ∃ t, vredMinMax s i o isMax = .next t ∧ MeBecomes s t (swrite st1 o.sd.toNat (BitVec.ofInt 64
      (foldInt isMax ((activeOf (me s) o.m.toNat a).map (elInt (slotTy (me s) o.ts)))
        (if isMax then tyLo (slotTy (me s) o.ts) else tyHi (slotTy (me s) o.ts))))) := by
  refine next_of_typed hTrunk (tyAny_of_tyInt hClass) ?_
  rw [vreduce_rows i o.m _ (fits_one hFits) hSrcs, map_rows_one, if_pos hClass]
  rfl

/-- VREDMAX and VREDMIN over floating-point values. -/
theorem vredMinMax_fp (i : Instr) (isMax : Bool) (hClass : tyFp (slotTy (me s) o.ts) = true) :
    let f := tyFmt (slotTy (me s) o.ts)
    let xs := (activeOf (me s) o.m.toNat a).map (fpOf f)
    ∃ t, vredMinMax s i o isMax = .next t ∧ MeBecomes s t (swrite { st1 with fflags := st1.fflags ||| nvSNaN xs } o.sd.toNat (BitVec.ofNat 64
      (if xs = [] then (if isMax then fmtSign f + fmtInf f else fmtInf f)
        else (rnd f .rne (xs.tail.foldl (fpSel isMax) (xs.headD (.nan false)))).1))) := by
  intro f xs
  refine next_of_typed hTrunk (tyAny_of_tyFp hClass) ?_
  rw [vreduce_rows i o.m _ (fits_one hFits) hSrcs, map_rows_one, if_neg (by rw [tyInt_of_tyFp hClass]; decide)]
  refine congrArg (fun v => Res.ok (putMe s (swrite { st1 with fflags := st1.fflags ||| nvSNaN xs } o.sd.toNat (wordOf v)))) ?_
  show (match xs with | [] => _ | x :: t => _) = _
  clear_value xs
  cases xs <;> rfl

end

/-! VARGMAX (R316). -/

/-- What the first index of greatest key is, among entries in ascending order. -/
theorem argMax_eq_some {l : List (Nat × Int)} {e : Nat × Int} (hAsc : l.Pairwise (·.1 < ·.1)) (h : argMax l = some e) :
    e ∈ l ∧ (∀ x ∈ l, x.2 ≤ e.2) ∧ ∀ x ∈ l, x.1 < e.1 → x.2 < e.2 := by
  induction l generalizing e with
  | nil => cases h
  | cons x t ih =>
    obtain ⟨hHead, hTail⟩ := List.pairwise_cons.mp hAsc
    unfold argMax at h
    split at h
    next hNone =>
      have hNil : t = [] := by
        cases t with
        | nil => rfl
        | cons y t =>
          unfold argMax at hNone
          split at hNone
          · cases hNone
          · split at hNone <;> cases hNone
      cases h
      subst hNil
      simp
    next j m hSome =>
      obtain ⟨hMem, hMax, hFirst⟩ := ih hTail hSome
      split at h
      next hLess =>
        cases h
        refine ⟨List.mem_cons_of_mem _ hMem, fun y hy => ?_, fun y hy hBefore => ?_⟩
        · rcases List.mem_cons.mp hy with rfl | hy
          · exact hLess.le
          · exact hMax y hy
        · rcases List.mem_cons.mp hy with rfl | hy
          · exact hLess
          · exact hFirst y hy hBefore
      next hNotLess =>
        cases h
        refine ⟨List.mem_cons_self, fun y hy => ?_, fun y hy hBefore => ?_⟩
        · rcases List.mem_cons.mp hy with rfl | hy
          · exact le_rfl
          · exact (hMax y hy).trans (not_lt.mp hNotLess)
        · rcases List.mem_cons.mp hy with rfl | hy
          · exact absurd hBefore (lt_irrefl _)
          · exact absurd hBefore (not_lt.mpr (hHead y hy).le)

theorem argMax_eq_none {l : List (Nat × Int)} (h : argMax l = none) : l = [] := by
  cases l with
  | nil => rfl
  | cons x t =>
    unfold argMax at h
    split at h
    · cases h
    · split at h <;> cases h

/-- The word that VARGMAX writes. -/
def argWord (l : List (Nat × Int)) : Word :=
  match argMax l with
  | some (k, _) => wordOf k
  | none => BitVec.ofNat 64 (2 ^ 64 - 1)

/-- VARGMAX's result is the first active index of greatest key. -/
theorem argWord_active (act : List Nat) (hAsc : act.Pairwise (· < ·)) (key : Nat → Int) :
    let r := argWord (act.map fun k => (k, key k))
    (act = [] → r = 0xFFFFFFFFFFFFFFFF#64) ∧
      (act ≠ [] → ∃ j ∈ act, r = BitVec.ofNat 64 j ∧ (∀ k ∈ act, key k ≤ key j) ∧ ∀ k ∈ act, k < j → key k < key j) := by
  intro r
  refine ⟨fun hNil => ?_, fun hSome => ?_⟩
  · subst hNil
    rfl
  · have hEntries : (act.map fun k => (k, key k)).Pairwise (·.1 < ·.1) := List.pairwise_map.mpr hAsc
    cases hBest : argMax (act.map fun k => (k, key k)) with
    | none => exact absurd (List.map_eq_nil_iff.mp (argMax_eq_none hBest)) hSome
    | some e =>
      obtain ⟨hMem, hMax, hFirst⟩ := argMax_eq_some hEntries hBest
      obtain ⟨j, hj, rfl⟩ := List.mem_map.mp hMem
      refine ⟨j, hj, ?_, fun k hk => hMax _ (List.mem_map_of_mem hk), fun k hk => hFirst _ (List.mem_map_of_mem hk)⟩
      simp only [r, argWord, hBest]
      rfl

theorem exec_vargmax {s : State} {o : VminOps} {a : List Nat} {st1 : Strand} (hTrunk : (me s).trunk = false)
    (hClass : tyAny (slotTy (me s) o.ts) = true) (hVa : fieldFits (me s) o.va.toNat (tyWidth (slotTy (me s) o.ts)) = true)
    (hSrcs : vsrcs (me s) [(o.va.toNat, tyWidth (slotTy (me s) o.ts))] = some ([a], st1)) :
    ∃ t, exec (.vargmax o) s = .next t ∧ MeBecomes s t (swrite st1 o.sd.toNat (argWord
      (((List.range (me s).vl).filter (predBit (me s) o.m.toNat)).map fun k => (k, argKey (slotTy (me s) o.ts) (a.getD k 0))))) := by
  refine next_of_typed hTrunk hClass ?_
  have hEntries : ((maskOf (me s) o.m).zipIdx.filter (·.1)).map (fun (x : Bool × Nat) => (x.2, argKey (slotTy (me s) o.ts) (a.getD x.2 0))) =
      ((List.range (me s).vl).filter (predBit (me s) o.m.toNat)).map fun k => (k, argKey (slotTy (me s) o.ts) (a.getD k 0)) := by
    rw [zipIdx_maskOf, List.filter_map, List.map_map]
    rfl
  simp only [hVa, vsrc_of_vsrcs hSrcs, Bool.not_true, Bool.false_eq_true, if_false, hEntries]
  rfl

/-! VSCAN (R315). -/

/-- A fold over marked indexes, from the value after each of them. -/
theorem foldl_marked {β : Type} (f : β → Bool × Nat → β) (act : Nat → Bool) (acc : Nat → β) (n : Nat) (hStep : ∀ k, f (acc k) (act k, k) = acc (k + 1)) :
    ((List.range n).map fun k => (act k, k)).foldl f (acc 0) = acc n := by
  induction n with
  | zero => rfl
  | succ n ih => rw [List.range_succ, List.map_append, List.foldl_append, ih, List.map_singleton, List.foldl_cons, List.foldl_nil, hStep]

/-- The active elements of a source before index k. -/
def termsBefore (st : Strand) (p : Nat) (a : List Nat) (k : Nat) : List Nat :=
  ((List.range k).filter (predBit st p)).map fun j => a.getD j 0

theorem termsBefore_succ (st : Strand) (p : Nat) (a : List Nat) (k : Nat) :
    termsBefore st p a (k + 1) = if predBit st p k then termsBefore st p a k ++ [a.getD k 0] else termsBefore st p a k := by
  rw [termsBefore, List.range_succ, List.filter_append, List.filter_singleton]
  cases predBit st p k <;> simp [termsBefore]

theorem nvSNaN_append (l : List Fp) (x : Fp) : nvSNaN (l ++ [x]) = nvSNaN l ||| nvSNaN [x] := by
  simp only [nvSNaN, List.any_append, raiseIf]
  cases l.any Fp.isSNaN <;> cases [x].any Fp.isSNaN <;> simp

/-- VSCAN's element, over its terms. -/
theorem scanElem_eq (st : Strand) (c : Nat) (md : Rm) (p : Nat) (a b : List Nat) (k : Nat) : scanElem st c md p a b k =
    if tyInt c then (((termsBefore st p a (k + 1)).sum + b.getD k 0) % 2 ^ tyWidth c, 0)
    else
      let r := eaRound (tyFmt c) md (eaAdd (((termsBefore st p a (k + 1)).map (elVal c)).foldl eaAdd eaInit) (elVal c (b.getD k 0)))
      (r.1, r.2 ||| nvSNaN ((termsBefore st p a (k + 1)).map (elVal c)) ||| nvSNaN [elVal c (b.getD k 0)]) := rfl

/-- One element of VSCAN's result. -/
def scanMarked (st : Strand) (c : Nat) (md : Rm) (p : Nat) (a b : List Nat) (k : Nat) : ElRes × Bool :=
  if predBit st p k then (scanElem st c md p a b k, true) else ((0, 0), false)

/-- VSCAN's sums and results before index k. -/
def scanBefore (st : Strand) (c : Nat) (md : Rm) (p : Nat) (a b : List Nat) (k : Nat) : (Nat × EA × FFlags) × List (ElRes × Bool) :=
  let xs := termsBefore st p a k
  ((xs.sum % 2 ^ tyWidth c, if tyInt c then eaInit else (xs.map (elVal c)).foldl eaAdd eaInit, if tyInt c then 0 else nvSNaN (xs.map (elVal c))),
    (List.range k).map (scanMarked st c md p a b))

theorem scanBefore_zero (st : Strand) (c : Nat) (md : Rm) (p : Nat) (a b : List Nat) : scanBefore st c md p a b 0 = ((0, eaInit, 0), []) := by
  simp [scanBefore, termsBefore, nvSNaN, raiseIf]

theorem exec_vscan {s : State} {o : V3} {a b : List Nat} {st1 : Strand} (hTrunk : (me s).trunk = false)
    (hClass : tyAny (slotTy (me s) o.ts) = true) (hVa : fieldFits (me s) o.va.toNat (tyWidth (slotTy (me s) o.ts)) = true)
    (hVb : fieldFits (me s) o.vb.toNat (tyWidth (slotTy (me s) o.ts)) = true)
    (hVd : fieldFits (me s) o.vd.toNat (tyWidth (slotTy (me s) o.ts)) = true)
    (hSrcs : vsrcs (me s) [(o.va.toNat, tyWidth (slotTy (me s) o.ts)), (o.vb.toNat, tyWidth (slotTy (me s) o.ts))] = some ([a, b], st1)) :
    let es := (List.range (me s).vl).map (scanMarked (me s) (slotTy (me s) o.ts) (slotMode (me s) o.ts) o.m.toNat a b)
    ∃ t, exec (.vscan o) s = .next t ∧
      MeBecomes s t { vdst st1 o.vd.toNat (tyWidth (slotTy (me s) o.ts)) (es.map fun e => (e.1.1, e.2)) with
        fflags := st1.fflags ||| orFlags (es.map fun e => e.1.2) } := by
  intro es
  refine next_of_typed hTrunk hClass ?_
  simp only [hVa, hVb, hVd, hSrcs, Bool.not_true, Bool.or_false, Bool.false_eq_true, if_false, vdst_fflags, List.getD_cons_zero, List.getD_cons_succ,
    zipIdx_maskOf, ← scanBefore_zero (me s) (slotTy (me s) o.ts) (slotMode (me s) o.ts) o.m.toNat a b]
  rw [foldl_marked _ _ (scanBefore (me s) (slotTy (me s) o.ts) (slotMode (me s) o.ts) o.m.toNat a b)]
  · rfl
  · intro k
    by_cases hOn : predBit (me s) o.m.toNat k = true
    · by_cases hInt : tyInt (slotTy (me s) o.ts) = true
      · simp [scanBefore, termsBefore_succ, hOn, hInt, List.range_succ, scanMarked, scanElem_eq]
      · simp [scanBefore, termsBefore_succ, hOn, hInt, List.range_succ, scanMarked, scanElem_eq, nvSNaN_append]
    · simp [scanBefore, termsBefore_succ, hOn, List.range_succ, scanMarked]

/-- Settles O28: the active rows are those of the mask; VSCAN's fold keeps the sums of the terms so far. -/
theorem reductionResults : Obligations.ReductionResults := by
  refine ⟨fun o s a st1 hTrunk hClass hVa hSrcs => ?_, fun o s a b st1 hTrunk hClass hVa hVb hSrcs => ?_,
    fun o s a b st1 hTrunk hClass hVa hVb hVd hSrcs => exec_vscan hTrunk hClass hVa hVb hVd hSrcs,
    fun o s a st1 hTrunk hClass hVa hSrcs => ⟨vredMinMax_int hTrunk hVa hSrcs (.vredmax o) true hClass,
      vredMinMax_int hTrunk hVa hSrcs (.vredmin o) false hClass⟩,
    fun o s a st1 hTrunk hClass hVa hSrcs => ⟨vredMinMax_fp hTrunk hVa hSrcs (.vredmax o) true hClass,
      vredMinMax_fp hTrunk hVa hSrcs (.vredmin o) false hClass⟩, fun o s a st1 hTrunk hClass hVa hSrcs => ?_⟩
  · refine next_of_typed hTrunk hClass ?_
    rw [vreduce_rows (.vredsum o) o.m _ (fits_one hVa) hSrcs, List.map_map, activeOf, List.map_map]
    rfl
  · refine next_of_typed hTrunk hClass ?_
    rw [vreduce_rows (.vdot o) o.m _ (fits_two hVa hVb) hSrcs]
    simp only [List.map_map]
    rfl
  · obtain ⟨t, hNext, hMe⟩ := exec_vargmax hTrunk hClass hVa hSrcs
    exact ⟨t, _, hNext, hMe, argWord_active _ (List.pairwise_lt_range.filter _) _⟩

/-! Exact accumulators (R68, R194, R317). -/

theorem ofNat_allOnes (w : Nat) : BitVec.ofNat w (2 ^ w - 1) = BitVec.allOnes w :=
  BitVec.eq_of_toNat_eq (by rw [BitVec.toNat_ofNat, BitVec.toNat_allOnes, Nat.mod_eq_of_lt (Nat.sub_lt (Nat.two_pow_pos w) one_pos)])

/-- A vector syllable that only changes its strand completes. -/
theorem next_of_vec {s : State} {i : Instr} {k : Unit → Res} {st : Strand} (hTrunk : (me s).trunk = false) (hMeaning : k () = .ok (putMe s st)) :
    ∃ t, finish s (vecOnly s i k) = .next t ∧ MeBecomes s t st := by
  rw [vecOnly_of_strand hTrunk, hMeaning]
  exact ⟨_, rfl, meBecomes_putMe s _⟩

/-- Settles O29. -/
theorem accumulatorResults : Obligations.AccumulatorResults := by
  refine ⟨fun o s hTrunk => next_of_vec hTrunk rfl, fun o s hTrunk hClass hClean => ?_, fun o s g q hTrunk hQueue => next_of_vec hTrunk ?_,
    fun o s hTrunk hClean => next_of_vec hTrunk ?_, fun o s hTrunk => next_of_vec hTrunk rfl, fun o s hTrunk hClass hPoisoned => ?_,
    fun o s hTrunk hPoisoned => ?_⟩
  · intro r
    refine ⟨_, (finish_typed hTrunk hClass _).trans ?_, writesRegFlags_setS s o.sd _ r.2⟩
    simp only [hClean, Bool.false_eq_true, if_false, setS_addFlags]
    rfl
  · simp only [hQueue]
  · simp only [hClean, Bool.false_eq_true, if_false, ofNat_allOnes]
  · refine (finish_typed hTrunk hClass _).trans ?_
    simp only [hPoisoned, if_true]
    rfl
  · refine (congrArg (finish s) (vecOnly_of_strand hTrunk _ _)).trans ?_
    simp only [hPoisoned, if_true]
    rfl

/-! Block formats (R318, R319). -/

/-- Settles O30. -/
theorem blockConversions : Obligations.BlockConversions := by
  refine ⟨fun o s a st1 => ?_, fun o s ws st1 => ?_⟩
  · intro st c md d hTrunk hClass hMode hVa hVd hValid hRoom hSrc r
    refine next_of_vec hTrunk ?_
    have hType : (!(c == 10 || c == 9) || md == .rup || md == .rdn) = false := by
      rcases hClass with h | h <;> rcases hMode with h' | h' <;> rw [h, h'] <;> rfl
    have hOut : (decide (o.vd.toNat < 56) && !(fieldFits st o.vd.toNat 32 && budgetWidth st.budget == 32)) = false := by
      by_cases h : o.vd.toNat < 56
      · simp [hVd h]
      · simp [h]
    refine (if_neg (ne_true_of_eq_false hType)).trans ((if_neg (by rw [hVa]; decide)).trans ((if_neg (ne_true_of_eq_false hOut)).trans
      ((if_neg (by rw [hValid]; decide)).trans ((if_neg (not_lt.mpr hRoom)).trans ?_))))
    have hRead : vsrc (me s) o.va.toNat (tyWidth (slotTy (me s) o.ts)) = some (a, st1) := hSrc
    simp only [hRead, vdst_fflags]
    rfl
  · intro st c d e bs hTrunk hClass hVd hVa hValid hSrc hBlocks rs
    refine next_of_typed hTrunk hClass ?_
    have hNone : findIdx? (fun b => blkFcode b != o.fd.toNat) bs = none := findIdx?_eq_none fun b hb => by simp [hBlocks b hb]
    refine (if_neg (by rw [hVd, hVa]; decide)).trans ((if_neg (by rw [hValid]; decide)).trans ?_)
    have hRead : vsrcN (me s) o.va.toNat (16 * ceilDiv (me s).vl (blkE (fdOf ((me s).fds.getD o.fd.toNat 0)).wid)) 32 = some (ws, st1) := hSrc
    have hGood : findIdx? (fun b => blkFcode b != o.fd.toNat)
        ((runsOf 16 (ceilDiv (me s).vl (blkE (fdOf ((me s).fds.getD o.fd.toNat 0)).wid)) ws).map (packCodes 32)) = none := hNone
    simp only [hRead, hGood, vdst_fflags]
    rfl

end Sys2Proof.Machine
end


section
/-! SUPPORT. Plain vector loads (R131, R321 to R328). -/

namespace Sys2Proof.Machine

/-- A load whose elements are those of a form, at places of this package, pushes them in index order. -/
theorem loadRun_of_placed {s : State} {F : AccessForm} {p : Nat → Place} {b : Nat → List Byte} {els : List El} {upd : Strand → Strand}
    (hFresh : Fresh s) (hQuiet : Quiet (me s)) (hPlaced : F.placed s .load p)
    (hBytes : ∀ k, k ∈ visited s → F.act k = true → localBytes s (p k) F.n = some (b k)) (hIndex : els.map (·.i) = visited s)
    (hEl : ∀ e ∈ els, e.va = F.addr e.i ∧ e.act = F.act e.i) (hUpd : upd (me s) = F.used (me s)) (hVl : (F.used (me s)).vl = (me s).vl)
    (q : BitVec 2) (ordered : Bool) (updAt : Nat → Strand → Strand) :
    ∃ t, finish s (loadRun s q.toNat (8 * F.n) (startOf s) ordered (vmAcc .read F.n F.ord) (scanEls s (me s) .load F.n els) (fun _ => false) upd updAt) =
        .next t ∧ OnlyMe { s with tlb := t.tlb } t ∧
      me t = setIq (F.used (me s)) q.toNat (qpush (iqOf (F.used (me s)) q.toNat) (startOf s) (8 * F.n) (loadedEls s F b)) := by
  have hMem : ∀ e ∈ els, e.i ∈ visited s := fun e he => hIndex ▸ List.mem_map_of_mem he
  have hScan : ∀ e ∈ els, e.act = true → checkElem s (me s) .load F.n e.va = .ok (p e.i) := fun e he hAct => by
    obtain ⟨hVa, hMark⟩ := hEl e he
    obtain ⟨hLow, hHigh⟩ := (mem_visited s e.i).1 (hMem e he)
    rw [hVa]
    exact hPlaced e.i hLow hHigh (hMark ▸ hAct)
  obtain ⟨l, hRun⟩ := loadRun_ok s q.toNat (8 * F.n) (startOf s) F.n ordered F.ord els upd updAt p b hFresh hQuiet fun e he hAct =>
    hBytes e.i (hMem e he) ((hEl e he).2 ▸ hAct)
  have hPushed : (els.map fun e => if e.act then (numOf (b e.i), true) else (0, false)) = loadedEls s F b := by
    rw [loadedEls, ← hIndex, List.map_map]
    exact List.map_congr_left fun e he => by rw [(hEl e he).2]; rfl
  rw [scanEls_ok s (me s) .load F.n els p hScan, hRun, hPushed, hUpd, ← hVl]
  exact ⟨_, rfl, onlyMe_tlb s l _, me_putMe _ _⟩

section

variable {s : State} {F : AccessForm} {p : Nat → Place} {b : Nat → List Byte} {q : BitVec 2} (hTrunk : (me s).trunk = false) (hFresh : Fresh s)
  (hQuiet : Quiet (me s)) (hPlaced : F.placed s .load p)
  (hBytes : ∀ k, k ∈ visited s → F.act k = true → localBytes s (p k) F.n = some (b k))
include hTrunk hFresh hQuiet hPlaced hBytes

/-- VLD and VLDS (R327), where nothing holds their token wait. -/
theorem vload_of_placed {o : VmOps} {addr : Nat → Word} (hForm : plainLoad o addr = (q, F)) (hFree : F.free (me s)) (i : Instr) :
    ∃ t, vload s i o addr = .next t ∧ OnlyMe { s with tlb := t.tlb } t ∧
      me t = setIq (F.used (me s)) q.toNat (qpush (iqOf (F.used (me s)) q.toNat) (startOf s) (8 * F.n) (loadedEls s F b)) := by
  obtain ⟨rfl, rfl⟩ := Prod.mk.inj hForm
  have hFree' : o.wait = true → (tokOf (me s) o.tk.toNat).busy = false ∧ (tokOf (me s) o.tk.toNat).pend = false :=
    fun h => hFree o.tk.toNat (if_pos h)
  have hLoad := loadRun_of_placed (upd := id) hFresh hQuiet hPlaced hBytes (elsAll_i s addr)
    (fun e he => by obtain ⟨-, -, hVa, hAct⟩ := elsAll_mem _ _ _ e he; exact ⟨hVa, hAct⟩) rfl rfl o.q false fun _ => id
  simp only [vload, vecOnly_of_strand hTrunk, vmSize, tokScan_free _ _ _ _ _ hFree']
  exact hLoad

/-- VLDX (R328): indices and marks from an out-queue. -/
theorem gather_of_placed {o : VxOps} (hForm : gatherForm s o = some (q, F)) (i : Instr) (ordered : Bool) :
    ∃ t, gather s i o ordered = .next t ∧ OnlyMe { s with tlb := t.tlb } t ∧
      me t = setIq (F.used (me s)) q.toNat (qpush (iqOf (F.used (me s)) q.toNat) (startOf s) (8 * F.n) (loadedEls s F b)) := by
  obtain ⟨⟨ix, r⟩, hRead, hForm⟩ := Option.map_eq_some_iff.1 hForm
  obtain ⟨rfl, rfl⟩ := Prod.mk.inj hForm
  have hLoad := loadRun_of_placed (upd := fun st => dropAll st o.ix.toNat (startOf s) (me s).vl 32) hFresh hQuiet hPlaced hBytes
    (elsOf_i s (indexed s o.sa o.shift ix) (ix.map (·.2)) [])
    (fun e he => by obtain ⟨-, -, hVa, hAct, -⟩ := elsOf_mem _ _ _ _ _ e he; exact ⟨hVa, hAct.trans (getD_marks ix _)⟩) rfl rfl o.q ordered
    fun f st => dropBelow st o.ix.toNat (startOf s) f 32
  simp only [gather, vecOnly_of_strand hTrunk, vmSize, hRead]
  exact hLoad

end

/-- Settles O31: each form's elements are those that its syllable reads, and reads that all go at once push their values. -/
theorem vectorLoads : Obligations.VectorLoads := by
  intro i s q F p b hForm hTrunk hFresh hQuiet hFree hPlaced hBytes
  cases i with
  | vld o => exact vload_of_placed hTrunk hFresh hQuiet hPlaced hBytes (Option.some.inj hForm) hFree (.vld o)
  | vlds o => exact vload_of_placed hTrunk hFresh hQuiet hPlaced hBytes (Option.some.inj hForm) hFree (.vlds o)
  | vldxO o => exact gather_of_placed hTrunk hFresh hQuiet hPlaced hBytes hForm (.vldxO o) true
  | vldxU o => exact gather_of_placed hTrunk hFresh hQuiet hPlaced hBytes hForm (.vldxU o) false
  | _ => cases hForm

end Sys2Proof.Machine
end


section
/-! SUPPORT. VAMO.RET: atomics that return their old values (R161, R166, R332, R333). -/

namespace Sys2Proof.Machine

/-! The syllable: its atomics enter the issue stream, and its positions the in-queue. -/

/-- The end of a store whose accesses fill positions: they enter the issue stream of the strand that `upd` leaves. -/
theorem storeRun_fills {s : State} {els : List El} {p : Nat → Place} {F : AccessForm} {mk : El → Place → Access} {upd : Strand → Strand} {st : Strand}
    {fill : Nat → Option Fill} {ordered : Bool} (hIndex : els.map (·.i) = visited s) (hAct : ∀ e ∈ els, e.act = F.act e.i)
    (hMk : ∀ e ∈ els, { mk e (p e.i) with group := nextGroup (me s), ordered := ordered, slot := s.slot, mark := (me s).armed } =
      { path := .ls, place := p e.i, va := F.addr e.i, size := F.n, kind := F.kind e.i, rel := decide (2 ≤ F.ord.toNat),
        acq := F.ord.toNat % 2 == 1, dom := true, group := nextGroup (me s), ordered := F.ordered, fill := fill e.i, slot := s.slot,
        mark := (me s).armed })
    (hUpd : upd (me s) = st) (hVl : st.vl = (me s).vl) (hArmed : st.armed = (me s).armed) (hNew : hasEntered (me s) s.slot = false)
    (hNew' : hasEntered st s.slot = false) (updAt : Nat → Strand → Strand) :
    ∃ t, finish s (storeRun s { els := els.map fun e => (e, if e.act then some (p e.i) else none), stop := none, tok := none, vl := (me s).vl }
        ordered mk upd updAt) = .next t ∧
      OnlyMe { s with tlb := t.tlb } t ∧ me t = withItems st (storedItems s F p fill) := by
  obtain ⟨l, hFill⟩ := fillEls_eq s (els.map fun e => (e, if e.act then some (p e.i) else none))
  have hMe : me { s with tlb := l } = me s := rfl
  have hItems : (groupItems (nextGroup (me s)) ordered mk (els.map fun e => (e, if e.act then some (p e.i) else none))).map
      (markItem st s.slot) = storedItems s F p fill := by
    have hActive : els.filter (F.act ∘ fun e => e.i) = els.filter (·.act) := List.filter_congr fun e he => (hAct e he).symm
    rw [groupItems_ok, List.map_map, storedItems, ← hIndex, List.filter_map, List.map_map, hActive]
    refine List.map_congr_left fun e he => ?_
    simp only [Function.comp_apply, markItem, hArmed]
    exact congrArg QItem.acc (hMk e (List.mem_filter.1 he).1)
  refine ⟨_, by simp only [storeRun, hNew]; rfl, ?_, ?_⟩
  · rw [hFill]
    exact onlyMe_tlb _ _ _
  · rw [hFill]
    simp only [hMe, me_putMe, hUpd, addItems_fresh _ _ _ hNew', hItems]
    rw [← hVl]
    rfl

/-- The strand that a VAMO.RET leaves before its accesses enter the stream: its in-queue has a position for each element. -/
def awaiting (st : Strand) (q start w : Nat) (els : List (Nat × Bool)) : Strand :=
  { setIq st q (qpushWait (iqOf st q) start w st.nextFill els) with nextFill := st.nextFill + 1 }

/-- What VAMO.RET pushes: its positions, or those of its elements that entered their path queue before. -/
def pushPositions (slot q start w id : Nat) (els : List (Nat × Bool)) (st : Strand) : Strand :=
  if hasEntered st slot then pushOlds st slot q else { setIq st q (qpushWait (iqOf st q) start w id els) with nextFill := id + 1 }

theorem pushPositions_of_new {st : Strand} {slot : Nat} (h : hasEntered st slot = false) (q start w : Nat) (els : List (Nat × Bool)) :
    pushPositions slot q start w st.nextFill els st = awaiting st q start w els := by
  rw [pushPositions, h]
  rfl

theorem hasEntered_awaiting (st : Strand) (q start w slot : Nat) (els : List (Nat × Bool)) :
    hasEntered (awaiting st q start w els) slot = hasEntered st slot := rfl

theorem exec_vamoRet_read {s : State} {o : VamoOps} {d : List (Nat × Bool)} {r : List Group} (hTrunk : (me s).trunk = false)
    (hRead : qread (oqOf (me s) o.q.toNat) (startOf s) (me s).vl (8 * szDbl o.dbl) = some (d, r)) :
    let sc := vamoScan s o (startOf s) d
    let push := pushPositions s.slot o.q.toNat (startOf s) (8 * szDbl o.dbl) (me s).nextFill (sc.els.map fun e => (0, e.2.isSome))
    exec (.vamoRet o) s = finish s (storeRun s sc false
      (fun e p => { vamoAcc o e p with fill := some { q := o.q.toNat, id := (me s).nextFill, elem := e.i, w := 8 * szDbl o.dbl } })
      (fun st => push (dropAll st o.q.toNat (startOf s) (me s).vl (8 * szDbl o.dbl)))
      fun f st => push (dropBelow st o.q.toNat (startOf s) f (8 * szDbl o.dbl))) := by
  simp only [exec, execVamoRet, vecOnly_of_strand hTrunk, hRead]
  rfl

theorem exec_vamoRet {s : State} {o : VamoOps} {F : AccessForm} {p : Nat → Place} (hForm : vamoForm s o = some F) (hTrunk : (me s).trunk = false)
    (hNew : hasEntered (me s) s.slot = false) (hPlaced : F.placed s .atomic p) :
    ∃ t, exec (.vamoRet o) s = .next t ∧ OnlyMe { s with tlb := t.tlb } t ∧
      me t = withItems (awaiting (F.used (me s)) o.q.toNat (startOf s) (8 * szDbl o.dbl) ((visited s).map fun k => (0, F.act k)))
        (storedItems s F p fun k => some { q := o.q.toNat, id := (me s).nextFill, elem := k, w := 8 * szDbl o.dbl }) := by
  obtain ⟨⟨d, r⟩, hRead, rfl⟩ := Option.map_eq_some_iff.1 hForm
  let els := elsOf (startOf s) (me s).vl (vamoAddr s o) (d.map (·.2)) (d.map (·.1))
  have hIndex : els.map (·.i) = visited s := elsOf_i s (vamoAddr s o) (d.map (·.2)) (d.map (·.1))
  have hEl : ∀ e ∈ els, e.va = vamoAddr s o e.i ∧ e.act = (d.getD (e.i - startOf s) (0, false)).2 ∧
      e.data = (d.getD (e.i - startOf s) (0, false)).1 := fun e he => by
    obtain ⟨-, -, hVa, hMark, hData⟩ := elsOf_mem _ _ _ _ _ e he
    exact ⟨hVa, hMark.trans (getD_marks d _), hData.trans (getD_data d _)⟩
  have hScan : vamoScan s o (startOf s) d =
      { els := els.map fun e => (e, if e.act then some (p e.i) else none), stop := none, tok := none, vl := (me s).vl } :=
    scanEls_ok s (me s) .atomic (szDbl o.dbl) els p fun e he hActive => by
    obtain ⟨hLow, hHigh, -⟩ := elsOf_mem _ _ _ _ _ e he
    obtain ⟨hVa, hMark, -⟩ := hEl e he
    rw [hVa]
    exact hPlaced e.i hLow hHigh (hMark.symm.trans hActive)
  have hMarks : ((els.map fun e => (e, if e.act then some (p e.i) else none)).map fun e => ((0 : Nat), e.2.isSome)) =
      (visited s).map fun k => (0, (d.getD (k - startOf s) (0, false)).2) := by
    rw [← hIndex, List.map_map, List.map_map]
    refine List.map_congr_left fun e he => ?_
    simp only [Function.comp_apply, ← (hEl e he).2.1]
    cases e.act <;> rfl
  rw [exec_vamoRet_read hTrunk hRead, hScan, hMarks]
  have hDrained : hasEntered (dropAll (me s) o.q.toNat (startOf s) (me s).vl (8 * szDbl o.dbl)) s.slot = false := hNew
  refine storeRun_fills (st := awaiting (dropAll (me s) o.q.toNat (startOf s) (me s).vl (8 * szDbl o.dbl)) o.q.toNat (startOf s) (8 * szDbl o.dbl)
    ((visited s).map fun k => (0, (d.getD (k - startOf s) (0, false)).2))) hIndex (fun e he => (hEl e he).2.1) (fun e he => ?_)
    (pushPositions_of_new hDrained _ _ _ _) rfl rfl hNew
    ((hasEntered_awaiting _ _ _ _ _ _).trans hDrained) _
  obtain ⟨hVa, -, hData⟩ := hEl e he
  simp only [vamoAcc, vmAcc, mkAcc, hVa, hData]
  rfl

/-! An element that performs (R166, R178). -/

theorem atomNew_flags (op : AtomOp) (n old v e : Nat) : (atomNew op n old v e).2 = atomicFlags op old v := by
  cases op <;> rfl

/-- On a page of this package's own id an atomic without acquire performs and is kept until every die has applied it (R27, R178). -/
theorem performAcc_atomic_own {s : State} {sid loc home n : Nat} {a : Access} {op : AtomOp} {v : BitVec 512} (hPlace : a.place = .own loc home)
    (hAcq : a.acq = false) (hBridge : bridgeUp s (strandOf s sid).die home = true) (hFrame : vacatedFrame s loc = false)
    (hKind : a.kind = .atomic op n v) (hClean : memPoisoned s.ord home loc n = false) :
    let x := atomicMem s.ord op n loc home v.toNat 0
    performAcc s sid a = some (keepOwn { s with ord := x.1 } sid { a with size := n } x.2.hc (some (op, BitVec.ofNat 512 v.toNat)) x.2.old) := by
  intro x
  have hHome : homeOf a = some home := by simp only [homeOf, hPlace, hKind]
  simp only [performAcc, hHome, Option.any_some, hBridge, Bool.not_true, Bool.false_eq_true, if_false, performWay, hPlace, hKind, atomQueued, memAtomic,
    hFrame, atomicMem_poisoned hClean, hAcq, Bool.not_false, Bool.and_self, if_true]
  rfl

/-- What an atomic makes of the ordering machine, over its new value. -/
theorem atomicOrd_eq (o : Ordering_) (op : AtomOp) (n loc home v : Nat) : atomicOrd o op n loc home v 0 =
    match (atomNew op (8 * n) (numOf (Memory.getBytes (viewOf o home) loc n)) v 0).1 with
    | some x => performWrite o home loc home (bytesOf n x)
    | none => o := by
  rw [atomNew_eq]
  rfl

theorem withSize_same {a : Access} {n : Nat} (h : a.size = n) : { a with size := n } = a := by
  subst h
  rfl

/-- An element of VAMO.RET performs at its home die (R166, R332). -/
theorem performAcc_element {s : State} {sid loc home n : Nat} {a : Access} {op : AtomOp} {v : BitVec 512} (hPlace : a.place = .mem loc home)
    (hBridge : bridgeUp s (strandOf s sid).die home = true) (hKind : a.kind = .atomic op n v) (hSize : a.size = n)
    (hFrame : vacatedFrame s loc = false) (hClean : memPoisoned s.ord home loc n = false) :
    let old := numOf (Memory.getBytes (viewOf s.ord home) loc n)
    let o1 := atomicOrd s.ord op n loc home v.toNat 0
    let st := bringOld (strandOf s sid) a.fill old (atomicFlags op old v.toNat)
    performAcc s sid a = some (putStrand { s with ord := o1 } sid { st with pq := .done a (appliedOf o1 home) :: st.pq }) := by
  have hPerform := performAcc_atomic hPlace hBridge hFrame hKind hClean
  rwa [atomicMem_of_clean hClean, withSize_same hSize] at hPerform

/-- The same on a page of this package's own id: the old value is kept until every die has applied it (R27, R178). -/
theorem performAcc_element_own {s : State} {sid loc home n : Nat} {a : Access} {op : AtomOp} {v : BitVec 512} (hPlace : a.place = .own loc home)
    (hAcq : a.acq = false) (hBridge : bridgeUp s (strandOf s sid).die home = true) (hKind : a.kind = .atomic op n v) (hSize : a.size = n)
    (hFrame : vacatedFrame s loc = false) (hClean : memPoisoned s.ord home loc n = false) :
    let old := numOf (Memory.getBytes (viewOf s.ord home) loc n)
    let o1 := atomicOrd s.ord op n loc home v.toNat 0
    performAcc s sid a = some (keepOwn { s with ord := o1 } sid a (appliedOf o1 home) (some (op, BitVec.ofNat 512 v.toNat)) old) := by
  have hPerform := performAcc_atomic_own hPlace hAcq hBridge hFrame hKind hClean
  rwa [atomicMem_of_clean hClean, withSize_same hSize] at hPerform

/-! Positions that old values fill, in any order (R131, R332). -/

/-- What an old value sets in the group that holds its position. -/
def piece (w v k : Nat) : BitVec 2048 := BitVec.ofNat 2048 (v % 2 ^ w) <<< (k * w % 2048)

/-- A group once old values have come, in the order of a list. -/
def filledGroup (id w : Nat) (val : Nat → Nat) (l : List Nat) (g : Group) : Group :=
  l.foldl (fun g k => fillOne { q := 0, id := id, elem := k, w := w } (val k) g) g

theorem hasN_eq_true {l : List Nat} {n : Nat} : hasN l n = true ↔ n ∈ l := by simp [hasN]

theorem mem_eraseN {l : List Nat} {n k : Nat} : k ∈ eraseN l n ↔ k ∈ l ∧ k ≠ n := by simp [eraseN]

theorem fillOne_of_waits {g : Group} {k : Nat} (hWaits : k ∈ g.wait) (w v : Nat) :
    fillOne { q := 0, id := g.id, elem := k, w := w } v g = { g with data := g.data ||| piece w v k, wait := eraseN g.wait k } := by
  have hHit : (g.id == g.id && hasN g.wait k) = true := by simp [hasN_eq_true.2 hWaits]
  exact if_pos hHit

theorem fillOne_of_not_waits {g : Group} {k : Nat} (hNot : k ∉ g.wait) (w v id : Nat) :
    fillOne { q := 0, id := id, elem := k, w := w } v g = g := by
  have hMiss : ¬ (g.id == id && hasN g.wait k) = true := by simp [mt hasN_eq_true.1 hNot]
  exact if_neg hMiss

/-- What the old values of a list leave of a group: its marks, what it still waits for, and its bits. -/
theorem filledGroup_spec {id w : Nat} {val : Nat → Nat} (l : List Nat) (g : Group) (hId : g.id = id) :
    let g' := filledGroup id w val l g
    g'.act = g.act ∧ g'.id = id ∧ (∀ k, k ∈ g'.wait ↔ k ∈ g.wait ∧ k ∉ l) ∧
      ∀ b, g'.data.getLsbD b = true ↔ g.data.getLsbD b = true ∨ ∃ k ∈ l, k ∈ g.wait ∧ (piece w (val k) k).getLsbD b = true := by
  induction l generalizing g with
  | nil => simp [filledGroup, hId]
  | cons k l ih =>
    subst hId
    by_cases hWaits : k ∈ g.wait
    · obtain ⟨hAct, hName, hWait, hData⟩ := ih { g with data := g.data ||| piece w (val k) k, wait := eraseN g.wait k } rfl
      have hStep : filledGroup g.id w val (k :: l) g = filledGroup g.id w val l { g with data := g.data ||| piece w (val k) k, wait := eraseN g.wait k } :=
        congrArg (filledGroup g.id w val l) (fillOne_of_waits hWaits w (val k))
      rw [hStep]
      refine ⟨hAct, hName, fun j => ?_, fun b => ?_⟩
      · rw [hWait, mem_eraseN, List.mem_cons]
        tauto
      · rw [hData, BitVec.getLsbD_or, Bool.or_eq_true]
        simp only [mem_eraseN, List.mem_cons, exists_eq_or_imp]
        constructor
        · rintro ((hOld | hHere) | ⟨j, hj, ⟨hIn, -⟩, hBit⟩)
          · exact .inl hOld
          · exact .inr (.inl ⟨hWaits, hHere⟩)
          · exact .inr (.inr ⟨j, hj, hIn, hBit⟩)
        · rintro (hOld | ⟨-, hHere⟩ | ⟨j, hj, hIn, hBit⟩)
          · exact .inl (.inl hOld)
          · exact .inl (.inr hHere)
          · by_cases hSame : j = k
            · subst hSame
              exact .inl (.inr hBit)
            · exact .inr ⟨j, hj, ⟨hIn, hSame⟩, hBit⟩
    · obtain ⟨hAct, hName, hWait, hData⟩ := ih g rfl
      have hStep : filledGroup g.id w val (k :: l) g = filledGroup g.id w val l g :=
        congrArg (filledGroup g.id w val l) (fillOne_of_not_waits hWaits w (val k) g.id)
      rw [hStep]
      refine ⟨hAct, hName, fun j => ?_, fun b => ?_⟩
      · rw [hWait, List.mem_cons]
        constructor
        · rintro ⟨hIn, hOut⟩
          exact ⟨hIn, by rintro (rfl | h); exacts [hWaits hIn, hOut h]⟩
        · exact fun ⟨hIn, hOut⟩ => ⟨hIn, fun h => hOut (.inr h)⟩
      · rw [hData]
        simp only [List.mem_cons, exists_eq_or_imp, hWaits, false_and, false_or]

/-- Old values come to every group of a queue. -/
theorem foldl_map_groups {f : Nat → Group → Group} (l : List Nat) (q : List Group) :
    l.foldl (fun q k => q.map (f k)) q = q.map fun g => l.foldl (fun g k => f k g) g := by
  induction l generalizing q with
  | nil => simp
  | cons k l ih => rw [List.foldl_cons, ih, List.map_map]; rfl

/-! The bits of a queue's groups. -/

theorem testBit_packCodes {w : Nat} (hw : 0 < w) {l : List Nat} (h : ∀ v ∈ l, v < 2 ^ w) (i : Nat) :
    (packCodes w l).testBit i = (l.getD (i / w) 0).testBit (i % w) := by
  induction l generalizing i with
  | nil => simp [packCodes]
  | cons v l ih =>
    rw [packCodes, Nat.add_comm, Nat.testBit_two_pow_mul_add _ (h v List.mem_cons_self)]
    by_cases hLow : i < w
    · rw [if_pos hLow, Nat.div_eq_of_lt hLow, Nat.mod_eq_of_lt hLow, List.getD_cons_zero]
    · have hStep : i / w = (i - w) / w + 1 := Nat.div_eq_sub_div hw (not_lt.mp hLow)
      rw [if_neg hLow, ih (fun x hx => h x (List.mem_cons_of_mem _ hx)), hStep, List.getD_cons_succ, Nat.mod_eq_sub_mod (not_lt.mp hLow)]

theorem getElem_cutBits {w n j : Nat} (x : Nat) (h : j < (cutBits w n x).length) : (cutBits w n x)[j] = x / 2 ^ (w * j) % 2 ^ w := by
  induction n generalizing x j with
  | zero => simp [cutBits] at h
  | succ n ih =>
    cases j with
    | zero => simp [cutBits]
    | succ j =>
      have hTail := ih (j := j) (x / 2 ^ w) (by simpa [length_cutBits] using h)
      rw [Nat.div_div_eq_div_mul, ← Nat.pow_add] at hTail
      rw [Nat.mul_succ, Nat.add_comm (w * j)]
      exact hTail

/-- A bit of a group cut out of a number. -/
theorem getLsbD_piece_of_number (x j : Nat) {b : Nat} (hb : b < 2048) :
    (BitVec.ofNat 2048 (x / 2 ^ (2048 * j) % 2 ^ 2048)).getLsbD b = x.testBit (2048 * j + b) := by
  rw [BitVec.getLsbD_ofNat, Nat.testBit_mod_two_pow, Nat.testBit_div_two_pow]
  simp [hb, Nat.add_comm]

theorem getElem_cutGroups {n j : Nat} (d m : Nat) (h : j < (cutGroups n d m).length) : (cutGroups n d m)[j] =
    ⟨BitVec.ofNat 2048 (d / 2 ^ (2048 * j) % 2 ^ 2048), BitVec.ofNat 2048 (m / 2 ^ (2048 * j) % 2 ^ 2048), 0, []⟩ := by
  simp only [cutGroups, List.getElem_zipWith, getElem_cutBits]

/-- The position of an element's bits in a queue, for the widths of a VAMO. -/
theorem piece_bit {w k j b v : Nat} (hw : w = 32 ∨ w = 64) (hb : b < 2048) :
    (k * w / 2048 = j ∧ (piece w v k).getLsbD b = true) ↔ ((2048 * j + b) / w = k ∧ (v % 2 ^ w).testBit ((2048 * j + b) % w) = true) := by
  have hShort : ∀ c, (v % 2 ^ w).testBit c = true → c < w := fun c hc => by
    rw [Nat.testBit_mod_two_pow] at hc
    simpa using (Bool.and_eq_true_iff.1 hc).1
  have hPiece : (piece w v k).getLsbD b = true ↔ k * w % 2048 ≤ b ∧ (v % 2 ^ w).testBit (b - k * w % 2048) = true := by
    have hFits : b - k * w % 2048 < 2048 := lt_of_le_of_lt (Nat.sub_le _ _) hb
    rw [piece, BitVec.getLsbD_shiftLeft, BitVec.getLsbD_ofNat]
    simp only [hb, hFits, decide_true, Bool.true_and, Bool.and_eq_true, Bool.not_eq_true', decide_eq_false_iff_not, not_lt]
  rw [hPiece]
  constructor
  · rintro ⟨hGroup, hLow, hBit⟩
    have hc := hShort _ hBit
    have hIndex : (2048 * j + b) / w = k ∧ (2048 * j + b) % w = b - k * w % 2048 := by
      rcases hw with rfl | rfl <;> omega
    exact ⟨hIndex.1, hIndex.2 ▸ hBit⟩
  · rintro ⟨hIndex, hBit⟩
    have hPlace : k * w / 2048 = j ∧ k * w % 2048 ≤ b ∧ b - k * w % 2048 = (2048 * j + b) % w := by
      rcases hw with rfl | rfl <;> omega
    exact ⟨hPlace.1, hPlace.2.1, hPlace.2.2 ▸ hBit⟩

/-! The queue of a VAMO.RET once every old value has come. -/

/-- A group without its syllable's number. -/
def unnamed (g : Group) : Group := { g with id := 0, wait := [] }

theorem groupBits_unnamed (q : List Group) : groupBits (q.map unnamed) = groupBits q := by
  induction q with
  | nil => rfl
  | cons g q ih => exact congrArg (g.data.toNat + 2 ^ 2048 * ·) ih

theorem groupMarks_unnamed (q : List Group) : groupMarks (q.map unnamed) = groupMarks q := by
  induction q with
  | nil => rfl
  | cons g q ih => exact congrArg (g.act.toNat + 2 ^ 2048 * ·) ih

/-- A read of a queue does not see the syllables' numbers. -/
theorem qread_unnamed (q : List Group) (start vl w : Nat) :
    qread (q.map unnamed) start vl w = (qread q start vl w).map fun r => (r.1, r.2.map unnamed) := by
  simp only [qread, List.length_map, ← List.map_take, ← List.map_drop, groupBits_unnamed, groupMarks_unnamed]
  split
  · rfl
  · split <;> rfl

/-- The active elements of a VAMO.RET, in index order. -/
def waiting (es : List (Nat × Bool)) : List Nat :=
  (es.map fun e => ((0 : Nat), e.2)).zipIdx.filterMap fun (e, k) => if e.2 then some k else none

theorem mem_waiting {es : List (Nat × Bool)} {k : Nat} : k ∈ waiting es ↔ k < es.length ∧ (es.getD k (0, false)).2 = true := by
  simp only [waiting, List.mem_filterMap, Prod.exists, List.mem_zipIdx_iff_getElem?, List.getElem?_map, Option.map_eq_some_iff, Option.ite_none_right_eq_some,
    Option.some.injEq]
  constructor
  · rintro ⟨_, _, j, ⟨v, m, hElem, hMark⟩, hOn, rfl⟩
    obtain ⟨-, rfl⟩ := Prod.mk.inj hMark
    obtain ⟨hj, hElem⟩ := List.getElem?_eq_some_iff.1 hElem
    exact ⟨hj, by rwa [List.getD_eq_getElem _ _ hj, hElem]⟩
  · rintro ⟨hk, hOn⟩
    rw [List.getD_eq_getElem _ _ hk] at hOn
    exact ⟨0, true, k, ⟨es[k].1, es[k].2, List.getElem?_eq_getElem hk, by rw [hOn]⟩, rfl, rfl⟩

/-- The groups that a VAMO.RET pushes into an empty queue: no bits, each with the elements that it waits for. -/
theorem qpushWait_empty {es : List (Nat × Bool)} (h : es ≠ []) (w id : Nat) : qpushWait [] 0 w id (es.map fun e => (0, e.2)) =
    (cutGroups (groupsFor es.length w) 0 (packCodes w (es.map fun e => if e.2 then 2 ^ w - 1 else 0))).zipIdx.map fun (g, j) =>
      { g with id := id, wait := (waiting es).filter fun i => i * w / 2048 == j } := by
  have hEmpty : (es.map fun e => ((0 : Nat), e.2)) ≠ [] := by simpa using h
  have hZero : packCodes w ((es.map fun e => ((0 : Nat), e.2)).map fun e => e.1 % 2 ^ w) = 0 := by
    rw [List.map_map]
    clear h hEmpty
    induction es with
    | nil => rfl
    | cons e es ih => simp only [List.map_cons, packCodes, ih, Function.comp_apply, Nat.zero_mod, Nat.mul_zero]
  rw [qpushWait, qpush_empty hEmpty, hZero, List.length_map, List.map_map]
  simp only [Nat.zero_mul, Nat.zero_mod, Nat.zero_div, if_true, List.length_nil, List.take_zero, List.nil_append, List.drop_zero, Nat.zero_add]
  rw [waiting]
  rfl

/-- The value that a position holds in the end: the old value of an active element, zero bits of another (R131). -/
theorem getD_oldValues (es : List (Nat × Bool)) (w k : Nat) :
    ((es.map fun e => (if e.2 then e.1 else 0, e.2)).map fun e => e.1 % 2 ^ w).getD k 0 =
      if (es.getD k (0, false)).2 then (es.getD k (0, false)).1 % 2 ^ w else 0 := by
  rw [List.map_map, getDm es _ (0, false) 0 (by simp)]
  simp only [Function.comp_apply]
  cases (es.getD k (0, false)).2 <;> simp

theorem groupExt {g g' : Group} (hData : g.data = g'.data) (hAct : g.act = g'.act) (hId : g.id = g'.id) (hWait : g.wait = g'.wait) : g = g' := by
  cases g
  cases g'
  simp_all

/-- A group of a VAMO.RET once every old value has come: the old values at their positions, and nothing to wait for. -/
theorem filledGroup_full {w id j : Nat} (hw : w = 32 ∨ w = 64) {es : List (Nat × Bool)} {l : List Nat} (hl : ∀ k, k ∈ l ↔ k ∈ waiting es)
    (x m : Nat) (hx : x = packCodes w ((es.map fun e => (if e.2 then e.1 else 0, e.2)).map fun e => e.1 % 2 ^ w)) :
    filledGroup id w (fun k => (es.getD k (0, false)).1) l
        ⟨BitVec.ofNat 2048 (0 / 2 ^ (2048 * j) % 2 ^ 2048), BitVec.ofNat 2048 m, id, (waiting es).filter fun i => i * w / 2048 == j⟩ =
      ⟨BitVec.ofNat 2048 (x / 2 ^ (2048 * j) % 2 ^ 2048), BitVec.ofNat 2048 m, id, []⟩ := by
  obtain ⟨hAct, hName, hWait, hData⟩ := filledGroup_spec (id := id) (w := w) (val := fun k => (es.getD k (0, false)).1) l
    ⟨BitVec.ofNat 2048 (0 / 2 ^ (2048 * j) % 2 ^ 2048), BitVec.ofNat 2048 m, id, (waiting es).filter fun i => i * w / 2048 == j⟩ rfl
  have hNone := List.eq_nil_iff_forall_not_mem.2 fun k hk => by
    obtain ⟨hIn, hOut⟩ := (hWait k).1 hk
    exact hOut ((hl k).2 (List.mem_of_mem_filter hIn))
  refine groupExt (BitVec.eq_of_getLsbD_eq fun b hb => Bool.eq_iff_iff.2 ?_) hAct hName hNone
  have hBound : ∀ v ∈ (es.map fun e => (if e.2 then e.1 else 0, e.2)).map fun e => e.1 % 2 ^ w, v < 2 ^ w := fun v hv => by
    obtain ⟨e, -, rfl⟩ := List.mem_map.1 hv
    exact Nat.mod_lt _ (Nat.two_pow_pos w)
  rw [hData b, getLsbD_piece_of_number 0 j hb, getLsbD_piece_of_number x j hb, hx, testBit_packCodes (by omega) hBound, getD_oldValues, Nat.zero_testBit]
  constructor
  · rintro (hNever | ⟨k, -, hIn, hBit⟩)
    · cases hNever
    · obtain ⟨hActive, hGroup⟩ := List.mem_filter.1 hIn
      obtain ⟨hIndex, hBit⟩ := (piece_bit hw hb).1 ⟨by simpa using hGroup, hBit⟩
      rw [hIndex, if_pos (mem_waiting.1 hActive).2]
      exact hBit
  · intro hBit
    split at hBit
    next hOn =>
      have hBelow : (2048 * j + b) / w < es.length := by
        by_contra hPast
        rw [List.getD_eq_default _ _ (not_lt.1 hPast)] at hOn
        cases hOn
      have hActive := mem_waiting.2 ⟨hBelow, hOn⟩
      obtain ⟨hGroup, hPiece⟩ := (piece_bit (k := (2048 * j + b) / w) hw hb).2 ⟨rfl, hBit⟩
      exact .inr ⟨_, (hl _).2 hActive, List.mem_filter.2 ⟨hActive, by simpa using hGroup⟩, hPiece⟩
    · simp at hBit

/-- What a VAMO.RET's queue holds in the end: the old values at their positions, as a push of them would leave. -/
theorem filled_unnamed {w id : Nat} (hw : w = 32 ∨ w = 64) {es : List (Nat × Bool)} (hSome : es ≠ []) {l : List Nat} (hl : ∀ k, k ∈ l ↔ k ∈ waiting es) :
    let q := (qpushWait [] 0 w id (es.map fun e => (0, e.2))).map (filledGroup id w (fun k => (es.getD k (0, false)).1) l)
    q.map unnamed = qpush [] 0 w (es.map fun e => (if e.2 then e.1 else 0, e.2)) ∧ ∀ g ∈ q, g.wait = [] := by
  let es' := es.map fun e => (if e.2 then e.1 else 0, e.2)
  let marks := packCodes w (es.map fun e => if e.2 then 2 ^ w - 1 else 0)
  have hMarks : packCodes w (es'.map fun e => if e.2 then 2 ^ w - 1 else 0) = marks := by
    rw [List.map_map]
    rfl
  have hq : (qpushWait [] 0 w id (es.map fun e => (0, e.2))).map (filledGroup id w (fun k => (es.getD k (0, false)).1) l) =
      (cutGroups (groupsFor es.length w) (packCodes w (es'.map fun e => e.1 % 2 ^ w)) marks).map fun g => { g with id := id } := by
    rw [qpushWait_empty hSome, List.map_map]
    refine List.ext_getElem (by simp [length_cutGroups]) fun j hj _ => ?_
    simp only [List.getElem_map, List.getElem_zipIdx, getElem_cutGroups, Function.comp_apply, Nat.zero_add]
    exact filledGroup_full hw hl _ _ rfl
  have hGroup : ∀ g ∈ cutGroups (groupsFor es.length w) (packCodes w (es'.map fun e => e.1 % 2 ^ w)) marks, g.id = 0 ∧ g.wait = [] := fun g hg => by
    obtain ⟨j, hj, rfl⟩ := List.getElem_of_mem hg
    rw [getElem_cutGroups]
    exact ⟨rfl, rfl⟩
  intro q
  refine ⟨?_, fun g hg => ?_⟩
  · rw [qpush_empty (by simpa using hSome), hMarks, List.length_map]
    refine (congrArg (List.map unnamed) hq).trans ?_
    rw [List.map_map]
    refine (List.map_congr_left fun g hg => ?_).trans (List.map_id _)
    obtain ⟨hId, hWait⟩ := hGroup g hg
    exact groupExt rfl rfl hId.symm hWait.symm
  · obtain ⟨g', hg', rfl⟩ := List.mem_map.1 ((congrArg (g ∈ ·) hq).mp hg)
    exact (hGroup g' hg').2

/-- Settles O33. -/
theorem vectorAtomicResults : Obligations.VectorAtomicResults := by
  refine ⟨fun o s F p hForm hTrunk hNew hPlaced => ?_, fun s sid a op n loc home v hPlace hBridge hKind hSize hFrame hClean => ?_,
    fun s sid a op n loc home v hPlace hAcq hBridge hKind hSize hFrame hClean => ?_, ?_⟩
  · have hUsed : (F.used (me s)).nextFill = (me s).nextFill := by
      obtain ⟨_, _, rfl⟩ := Option.map_eq_some_iff.1 hForm
      rfl
    obtain ⟨t, hNext, hOnly, hMe⟩ := exec_vamoRet hForm hTrunk hNew hPlaced
    rw [awaiting, hUsed] at hMe
    exact ⟨t, hNext, hOnly, hMe⟩
  · intro old o1 st
    have hPerform := performAcc_element hPlace hBridge hKind hSize hFrame hClean
    rw [atomicOrd_eq] at hPerform
    exact ⟨_, hPerform, rfl, rfl, fun k hk => strandOf_putStrand_ne _ sid k _ hk, strandOf_putStrand_same _ sid _⟩
  · intro old o1
    have hPerform := performAcc_element_own hPlace hAcq hBridge hKind hSize hFrame hClean
    rw [atomicOrd_eq] at hPerform
    exact ⟨_, _, hPerform, rfl, rfl, fun k hk => strandOf_putStrand_ne _ sid k _ hk, strandOf_putStrand_same _ sid _, rfl, rfl, rfl⟩
  · intro w id es l hw hPerm q
    have hl : ∀ k, k ∈ l ↔ k ∈ waiting es := fun k => by
      rw [mem_waiting, hPerm.mem_iff, List.mem_filter, List.mem_range]
    by_cases hSome : es = []
    · subst hSome
      cases List.nil_perm.1 hPerm.symm
      have hNil : q = [] := by simp [q, qpushWait, qpush]
      rw [hNil]
      exact ⟨rfl, fun g hg => nomatch hg⟩
    · obtain ⟨hFilled, hNone⟩ := filled_unnamed (id := id) hw hSome hl
      have hq : q = (qpushWait [] 0 w id (es.map fun e => (0, e.2))).map (filledGroup id w (fun k => (es.getD k (0, false)).1) l) :=
        foldl_map_groups l _
      have hRead := qread_unnamed q 0 es.length w
      have hPushed := qread_qpush (w := w) (by omega) (es.map fun e => (if e.2 then e.1 else 0, e.2))
      rw [List.length_map, ← hFilled, ← hq, hRead] at hPushed
      obtain ⟨⟨els, r⟩, hBack, hPair⟩ := Option.map_eq_some_iff.1 hPushed
      obtain ⟨hEls, hRest⟩ := Prod.mk.inj hPair
      dsimp only at hEls hRest
      rw [hBack, hEls, List.map_eq_nil_iff.1 hRest, List.map_map]
      refine ⟨?_, hq ▸ hNone⟩
      congr 2
      exact List.map_congr_left fun e _ => by cases h : e.2 <;> simp [h]

end Sys2Proof.Machine
end


section
/-! SUPPORT. The rotary load (R176, R243 to R249, R335). -/

namespace Sys2Proof.Machine

/-! A read of 64 bytes is one of eight words (R176). -/

theorem getBytes_add (m : Memory) (a i j : Nat) : Memory.getBytes m a (i + j) = Memory.getBytes m a i ++ Memory.getBytes m (a + i) j := by
  induction i generalizing a with
  | zero => rw [Nat.zero_add, Nat.add_zero]; rfl
  | succ i ih => rw [Nat.succ_add, Memory.getBytes, ih, Memory.getBytes, List.cons_append, Nat.succ_add_eq_add_succ]

/-- Bytes i to i + j − 1 of what is read. -/
theorem drop_take_getBytes (m : Memory) (a i j k : Nat) :
    ((Memory.getBytes m a (i + (j + k))).drop i).take j = Memory.getBytes m (a + i) j := by
  rw [getBytes_add, List.drop_left' (Memory.length_getBytes _ _ _), getBytes_add, List.take_left' (Memory.length_getBytes _ _ _)]

theorem poisonedIn_within {l : List Nat} {g loc n i j : Nat} (h : poisonedIn l g loc n = false) (hij : i + j ≤ n) :
    poisonedIn l g (loc + i) j = false := by
  simp only [poisonedIn, List.any_eq_false, Bool.and_eq_true, decide_eq_true_eq] at h ⊢
  intro p hp hOver
  exact h p hp ⟨by omega, by omega⟩

/-- A place at the start of a 64-byte block, in memory or the scratchpad of this package. -/
def BlockPlace (p : Place) : Prop := (∀ loc home, memPlace p = some (loc, home) → loc % 64 = 0) ∧ ∀ off, p ≠ .window off

/-- Word j of a place. -/
def wordPlace (p : Place) (j : Nat) : Place :=
  match p with
  | .mem loc h => .mem (loc + 8 * j) h
  | .own loc h => .own (loc + 8 * j) h
  | .spad key => .spad (key + 8 * j)
  | p => p

section

variable {s : State} {loc j : Nat} (hAligned : loc % 64 = 0) (hj : j < 8)
include hAligned hj

theorem vacatedFrame_word : vacatedFrame s (loc + 8 * j) = vacatedFrame s loc := by
  rw [vacatedFrame, show (loc + 8 * j) / 2 ^ 16 = loc / 2 ^ 16 by omega]
  rfl

theorem memPoisoned_word {o : Ordering_} {d : Nat} (h : memPoisoned o d loc 64 = false) : memPoisoned o d (loc + 8 * j) 8 = false := by
  obtain ⟨hMem, hCache⟩ := Bool.or_eq_false_iff.1 h
  have hGranule : granule (loc + 8 * j) = granule loc := by
    rw [granule, locMem, show (loc + 8 * j) / 2 ^ 52 = loc / 2 ^ 52 by omega]
    rfl
  refine Bool.or_eq_false_iff.2 ⟨hGranule ▸ poisonedIn_within hMem (by omega), ?_⟩
  simp only [List.any_eq_false, Bool.and_eq_true, decide_eq_true_eq] at hCache ⊢
  rintro p hp ⟨⟨hDie, hLow⟩, hHigh⟩
  exact hCache p hp ⟨⟨hDie, by omega⟩, by omega⟩

theorem readPoisoned_word {d : Nat} (h : readPoisoned s d loc 64 = false) : readPoisoned s d (loc + 8 * j) 8 = false := by
  rw [readPoisoned, vacatedFrame_word hAligned hj]
  rcases Bool.and_eq_false_iff.1 h with hVacated | hClean
  · rw [hVacated, Bool.false_and]
  · rw [memPoisoned_word hAligned hj hClean, Bool.and_false]

theorem memRead_word (d : Nat) : memRead s d (loc + 8 * j) 8 = ((memRead s d loc 64).drop (8 * j)).take 8 := by
  rw [memRead, vacatedFrame_word hAligned hj, memRead]
  split
  · rw [List.drop_replicate, List.take_replicate, Nat.min_eq_left (by omega)]
  · rw [show (64 : Nat) = 8 * j + (8 + (56 - 8 * j)) by omega, drop_take_getBytes]

end

theorem localBytes_word {s : State} {p : Place} {b : List Byte} {j : Nat} (hBlock : BlockPlace p) (hBytes : localBytes s p 64 = some b) (hj : j < 8) :
    localBytes s (wordPlace p j) 8 = some ((b.drop (8 * j)).take 8) := by
  obtain ⟨hAligned, hWindow⟩ := hBlock
  cases p with
  | mem loc home =>
    obtain ⟨hClean, ⟨⟩⟩ := Option.ite_none_left_eq_some.1 hBytes
    have h64 := hAligned loc home rfl
    exact (if_neg (Bool.eq_false_iff.1 (readPoisoned_word h64 hj (Bool.eq_false_iff.2 hClean)))).trans (congrArg some (memRead_word h64 hj _))
  | own loc home =>
    obtain ⟨hClean, ⟨⟩⟩ := Option.ite_none_left_eq_some.1 hBytes
    have h64 := hAligned loc home rfl
    exact (if_neg (Bool.eq_false_iff.1 (readPoisoned_word h64 hj (Bool.eq_false_iff.2 hClean)))).trans (congrArg some (memRead_word h64 hj _))
  | spad key =>
    obtain ⟨hClean, ⟨⟩⟩ := Option.ite_none_left_eq_some.1 hBytes
    have hWord : spadPoisoned s.ord (key + 8 * j) 8 = false := poisonedIn_within (Bool.eq_false_iff.2 hClean) (by omega)
    refine (if_neg (Bool.eq_false_iff.1 hWord)).trans (congrArg some ?_)
    rw [show (64 : Nat) = 8 * j + (8 + (56 - 8 * j)) by omega, drop_take_getBytes]
  | window off => exact absurd rfl (hWindow off)
  | peer pkg pa => cases hBytes

/-- The pieces of a list, put together. -/
theorem flatten_pieces {α : Type} (b : List α) (n : Nat) : ((List.range n).map fun j => (b.drop (8 * j)).take 8).flatten = b.take (8 * n) := by
  induction n with
  | zero => rfl
  | succ n ih => rw [List.range_succ, List.map_append, List.flatten_append, ih, Nat.mul_succ, List.take_add]; simp

/-- Reads of words that all go at once. -/
theorem readWords_of_words {s : State} {elem : Nat} {a : Access} {c : Nat → List Byte} (n j : Nat)
    (h : ∀ k, j ≤ k → k < j + n → readNow s (2 ^ 24 + elem * 8 + k) { a with place := wordPlace a.place k, va := a.va + wordOf (8 * k), size := 8 } =
      .bytes (c k) 0 s) :
    readWords s elem a n j = .bytes ((List.range n).map fun k => c (j + k)).flatten 0 s := by
  induction n generalizing j with
  | zero => rfl
  | succ n ih =>
    have hHead := h j le_rfl (by omega)
    have hTail := ih (j + 1) fun k hLow hHigh => h k (by omega) (by omega)
    have hWord : readWords s elem a (n + 1) j = .bytes (c j ++ ((List.range n).map fun k => c (j + 1 + k)).flatten) 0 s := by
      unfold readWords
      cases hPlace : a.place <;> simp only [hPlace, wordPlace] at hHead ⊢ <;> simp only [hHead, hTail]
    rw [hWord, List.range_succ_eq_map, List.map_cons, List.flatten_cons, List.map_map]
    simp only [Nat.add_zero, Function.comp_def, Nat.succ_eq_add_one, Nat.add_assoc, Nat.add_comm 1]

/-- A read of an element goes at once where the reads of its words do. -/
theorem readWide_of_reads {s : State} {a : Access} {b : List Byte} {elem : Nat} (hSize : a.size ≤ 8 ∨ a.size = 64 ∧ BlockPlace a.place)
    (hBytes : localBytes s a.place a.size = some b)
    (hReads : ∀ k a' b', (k = elem ∨ 2 ^ 24 ≤ k) → a'.rel = a.rel → a'.mark = a.mark → localBytes s a'.place a'.size = some b' →
      readNow s k a' = .bytes b' 0 s) :
    readWide s elem a = .bytes b 0 s := by
  have hHere : isPeer a.place = false := local_not_peer _ _ _ _ hBytes
  rcases hSize with hSmall | ⟨hSize, hBlock⟩
  · rw [readWide, hHere, decide_eq_true hSmall, Bool.true_or, if_pos rfl]
    exact hReads elem a b (.inl rfl) rfl rfl hBytes
  · rw [hSize] at hBytes
    have hWords := readWords_of_words (s := s) (elem := elem) (a := a) (c := fun k => (b.drop (8 * k)).take 8) 8 0 fun k _ hk =>
      hReads _ _ _ (.inr (by omega)) rfl rfl (localBytes_word hBlock hBytes (by omega))
    have hNotSmall : ¬ (decide (a.size ≤ 8) || isPeer a.place) = true := by rw [hSize, hHere]; decide
    rw [readWide, if_neg hNotSmall, hSize, hWords]
    simp only [Nat.zero_add]
    rw [flatten_pieces, List.take_of_length_le (length_localBytes hBlock.2 hBytes).le]

/-- A strand with nothing to wait for and nothing read before its turn. -/
theorem readWide_local {s : State} {a : Access} {b : List Byte} (hLook : s.look = none) (hEarly : (me s).early = []) (hQuiet : Quiet (me s))
    (hMark : a.mark = 2 ^ 64) (hSize : a.size ≤ 8 ∨ a.size = 64 ∧ BlockPlace a.place) (hBytes : localBytes s a.place a.size = some b) (elem : Nat) :
    readWide s elem a = .bytes b 0 s :=
  readWide_of_reads hSize hBytes fun k a' _ _ _ hMark' hBytes' =>
    readNow_local s k a' _ (makeWay_quiet s a' hQuiet (hMark'.trans hMark)) hLook hEarly hBytes'

theorem aligned_in_memory {off : Nat} (m : Nat) (h : off % 64 = 0) : (m * 2 ^ 52 + off) % 64 = 0 := by omega

theorem leafPlace_aligned {s : State} {l va : Word} {p : Place} {loc home : Nat} (h : leafPlace s l va = .ok p) (hVa : va.toNat % 64 = 0)
    (hPlace : memPlace p = some (loc, home)) : loc % 64 = 0 := by
  have hOff : (leafFrame l * 2 ^ 16 + va.toNat % 2 ^ sizeBits (leafSize l)) % 64 = 0 := by
    have hBits : 6 ≤ sizeBits (leafSize l) := by
      unfold sizeBits
      split
      · decide
      · split <;> decide
    have hSize : 64 ∣ 2 ^ sizeBits (leafSize l) := pow_dvd_pow 2 hBits
    have hRest : va.toNat % 2 ^ sizeBits (leafSize l) % 64 = 0 := by rw [Nat.mod_mod_of_dvd _ hSize, hVa]
    omega
  unfold leafPlace at h
  dsimp only at h
  split at h
  · cases h
    rw [memPlace, Option.some.injEq, Prod.mk.injEq] at hPlace
    exact hPlace.1 ▸ aligned_in_memory 9 hOff
  · repeat' split at h
    all_goals cases h
    · rw [memPlace, Option.some.injEq, Prod.mk.injEq] at hPlace
      exact hPlace.1 ▸ aligned_in_memory _ hOff
    · cases hPlace
  · cases h
    rw [memPlace, Option.some.injEq, Prod.mk.injEq] at hPlace
    exact hPlace.1 ▸ aligned_in_memory _ hOff

/-- The place of an element of 64 bytes starts a block. -/
theorem blockPlace_of_checkElem {s : State} {st : Strand} {acc : Acc} {va : Word} {p : Place} (h : checkElem s st acc 64 va = .ok p) : BlockPlace p := by
  refine ⟨fun loc home hPlace => ?_, checkElem_ne_window h⟩
  unfold checkElem at h
  split at h
  · cases h
  next hVa =>
    split at h
    · cases h
    · split at h
      · split at h
        · cases h
        · dsimp only at h
          split at h
          · cases h
            cases hPlace
          · cases h
      · split at h
        · cases h
        · unfold translate at h
          split at h
          · cases h
          · split at h
            · cases h
            · split at h
              · cases h
              next hLeaf =>
                split at h
                · cases h
                  exact leafPlace_aligned hLeaf (not_not.1 hVa) hPlace
                · cases h

/-! The elements of a rotary load (R244 to R248). -/

theorem orFlags_cons (x : FFlags) (l : List FFlags) : orFlags (x :: l) = x ||| orFlags l := by
  have hFold : ∀ (l : List FFlags) (a : FFlags), l.foldl (· ||| ·) (x ||| a) = x ||| l.foldl (· ||| ·) a := by
    intro l
    induction l with
    | nil => exact fun a => rfl
    | cons y l ih => exact fun a => by rw [List.foldl_cons, List.foldl_cons, ← ih, BitVec.or_assoc]
  rw [orFlags, orFlags, List.foldl_cons, BitVec.or_comm, hFold]

/-- Element i of a rotary load, with the places of its two reads. -/
def rotPlan (d : KvDesc) (row0 : Nat) (p0 p1 : Nat → Place) (i : Nat) : RotEl :=
  { i := i, r := row0 + i / d.hdim, dim := i % d.hdim, va0 := (kvRead d (row0 + i / d.hdim) (kvPair d (i % d.hdim)).2.1).1, p0 := p0 i,
    va1 := (kvRead d (row0 + i / d.hdim) (kvPair d (i % d.hdim)).2.2).1, p1 := p1 i }

/-- Whether element i lies in a valid row, at places that its checks give. -/
def RotPlaced (s : State) (d : KvDesc) (row0 : Nat) (p0 p1 : Nat → Place) (i : Nat) : Prop :=
  row0 + i / d.hdim < d.vrows ∧
    checkElem s (me s) .load (kvRead d (row0 + i / d.hdim) (kvPair d (i % d.hdim)).2.1).2
      (kvRead d (row0 + i / d.hdim) (kvPair d (i % d.hdim)).2.1).1 = .ok (p0 i) ∧
    checkElem s (me s) .load (kvRead d (row0 + i / d.hdim) (kvPair d (i % d.hdim)).2.2).2
      (kvRead d (row0 + i / d.hdim) (kvPair d (i % d.hdim)).2.2).1 = .ok (p1 i)

theorem rotScan_of_placed {s : State} {d : KvDesc} {row0 : Nat} {p0 p1 : Nat → Place} (va : Word) (n i : Nat)
    (h : ∀ k, i ≤ k → k < i + n → RotPlaced s d row0 p0 p1 k) :
    rotScan s (me s) d va row0 n i = ((List.range n).map fun k => rotPlan d row0 p0 p1 (i + k), none) := by
  induction n generalizing i with
  | zero => rfl
  | succ n ih =>
    obtain ⟨hRow, hFirst, hSecond⟩ := h i le_rfl (by omega)
    have hTail := ih (i + 1) fun k hLow hHigh => h k (by omega) (by omega)
    unfold rotScan
    simp only [if_neg (not_le.2 hRow), hFirst, hSecond, hTail]
    rw [List.range_succ_eq_map, List.map_cons, List.map_map]
    simp only [Nat.add_zero, Function.comp_def, Nat.succ_eq_add_one, Nat.add_assoc, Nat.add_comm 1]
    rfl

/-- Whether element i, whose checks pass in `s1`, has the value `v` in `s` from the bytes of its two reads. -/
def RotReads (s1 s : State) (d : KvDesc) (row0 : Nat) (p0 p1 : Nat → Place) (b0 b1 : Nat → List Byte) (v : Nat → Nat × FFlags) (i : Nat) : Prop :=
  RotPlaced s1 d row0 p0 p1 i ∧
    localBytes s (p0 i) (kvRead d (row0 + i / d.hdim) (kvPair d (i % d.hdim)).2.1).2 = some (b0 i) ∧
    localBytes s (p1 i) (kvRead d (row0 + i / d.hdim) (kvPair d (i % d.hdim)).2.2).2 = some (b1 i) ∧
    rotaryEl s d row0 (b0 i) (b1 i) i = some (v i)

theorem kvRead_size (d : KvDesc) (r dim : Nat) : (kvRead d r dim).2 = if d.kfmt = 0 then 2 else 64 := by
  unfold kvRead
  split <;> rfl

theorem rotaryEl_eq_some {s : State} {d : KvDesc} {row0 i : Nat} {b0 b1 : List Byte} {v : Nat × FFlags} (h : rotaryEl s d row0 b0 b1 i = some v) :
    ∃ x y, kvValue (me s) d (kvPair d (i % d.hdim)).2.1 b0 = some x ∧ kvValue (me s) d (kvPair d (i % d.hdim)).2.2 b1 = some y ∧
      rotElem s d (row0 + i / d.hdim) (i % d.hdim) x y = v := by
  unfold rotaryEl at h
  dsimp only at h
  split at h
  next x y hx hy => exact ⟨x, y, hx, hy, Option.some.inj h⟩
  · cases h

section

variable {s : State} {d : KvDesc} {row0 : Nat} {p0 p1 : Nat → Place} {b0 b1 : Nat → List Byte} {v : Nat → Nat × FFlags}
  (hLook : s.look = none) (hEarly : (me s).early = []) (hQuiet : Quiet (me s))
include hLook hEarly hQuiet

/-- One of an element's two reads. -/
theorem readWide_row {p : Place} {b : List Byte} {r dim : Nat} (hCheck : ∃ s1 st, checkElem s1 st .load (kvRead d r dim).2 (kvRead d r dim).1 = .ok p)
    (hBytes : localBytes s p (kvRead d r dim).2 = some b) (o : RotOps) (va : Word) (elem : Nat) :
    readWide s elem (rotAcc o (if d.kfmt = 0 then 2 else 64) p va) = .bytes b 0 s := by
  obtain ⟨s1, st, hCheck⟩ := hCheck
  rw [kvRead_size] at hCheck hBytes
  refine readWide_local hLook hEarly hQuiet rfl ?_ hBytes elem
  show (if d.kfmt = 0 then 2 else 64) ≤ 8 ∨ _
  split at hCheck
  next hPlain => exact .inl (by rw [if_pos hPlain]; decide)
  next hBlocks => exact .inr ⟨if_neg hBlocks, blockPlace_of_checkElem hCheck⟩

/-- The elements of a rotary load, each rotated, with their flags. -/
theorem rotEls_of_reads {s1 : State} (o : RotOps) (l : List Nat) (h : ∀ i ∈ l, RotReads s1 s d row0 p0 p1 b0 b1 v i) :
    rotEls o d s (l.map (rotPlan d row0 p0 p1)) = .done (l.map fun i => ((v i).1, true)) (orFlags (l.map fun i => (v i).2)) s := by
  induction l with
  | nil => rfl
  | cons i l ih =>
    have hTail := ih fun k hk => h k (List.mem_cons_of_mem _ hk)
    obtain ⟨⟨-, hCheck0, hCheck1⟩, hBytes0, hBytes1, hValue⟩ := h i List.mem_cons_self
    obtain ⟨x, y, hx, hy, hElem⟩ := rotaryEl_eq_some hValue
    have hRead0 := readWide_row (d := d) hLook hEarly hQuiet ⟨_, _, hCheck0⟩ hBytes0 o (rotPlan d row0 p0 p1 i).va0 (2 * i)
    have hRead1 := readWide_row (d := d) hLook hEarly hQuiet ⟨_, _, hCheck1⟩ hBytes1 o (rotPlan d row0 p0 p1 i).va1 (2 * i + 1)
    rw [List.map_cons, List.map_cons, List.map_cons, orFlags_cons]
    unfold rotEls
    simp only [rotPlan] at hRead0 hRead1 hTail ⊢
    simp only [hRead0, hRead1, hx, hy, hElem, hTail]

end

/-! The syllable (R335). -/

/-- The addresses of a descriptor's four words. -/
def descVas (va : Word) : List Word := (List.range 4).map fun k => va + BitVec.ofNat 64 (8 * k)

/-- The number of a descriptor's word from its element's number. -/
def descIndex (i : Nat) : Nat := i - 2 ^ 20

theorem descIndex_add (k : Nat) : descIndex (2 ^ 20 + k) = k := Nat.add_sub_cancel_left ..

/-- The descriptor's words are read at once, and the TLB takes their leaves. -/
theorem exec_vldrot_of_desc {s t : State} {o : RotOps} {q : Nat → Place} {w : Nat → List Byte} (hTrunk : (me s).trunk = false) (hFresh : Fresh s)
    (hQuiet : Quiet (me s)) (hSome : startOf s < (me s).vl) (hAligned : (getS s o.sa).toNat % 32 = 0)
    (hDesc : ∀ k, k < 4 → checkElem s (me s) .load 8 (getS s o.sa + BitVec.ofNat 64 (8 * k)) = .ok (q k) ∧ localBytes s (q k) 8 = some (w k))
    (hRun : rotRun o (filled s (descVas (getS s o.sa))) (getS s o.sa) (startOf s) (kvDesc (w 0 ++ w 1 ++ w 2 ++ w 3)) = .ok t) :
    exec (.vldrot o) s = .next t := by
  obtain ⟨els, hEls⟩ : ∃ els, els = rotDescEls (getS s o.sa) := ⟨_, rfl⟩
  have hEl : ∀ e ∈ els, checkElem s (me s) .load 8 e.va = .ok (q (descIndex e.i)) ∧ localBytes s (q (descIndex e.i)) 8 = some (w (descIndex e.i)) := by
    intro e he
    rw [hEls] at he
    obtain ⟨k, hk, rfl⟩ := List.mem_map.1 he
    rw [descIndex_add]
    exact hDesc k (List.mem_range.1 hk)
  have hPlaced : (els.map fun e => (e, if e.act then some (q (descIndex e.i)) else none)) = els.map fun e => (e, some (q (descIndex e.i))) := by
    rw [hEls, rotDescEls, List.map_map, List.map_map]
    rfl
  have hScan : scanFrom s (me s) .load 8 els = (els.map fun e => (e, some (q (descIndex e.i))), none) := by
    rw [scanFrom_ok s (me s) .load 8 els (fun i => q (descIndex i)) fun e he _ => (hEl e he).1, hPlaced]
  have hAsk : ∀ mk, askAll s mk (els.map fun e => (e, some (q (descIndex e.i)))) = none := fun mk => askAll_local s mk _ fun x hx p hp => by
    obtain ⟨e, he, rfl⟩ := List.mem_map.1 hx
    cases hp
    exact local_not_peer s _ 8 _ (hEl e he).2
  have hFill : fillEls s (els.map fun e => (e, some (q (descIndex e.i)))) = filled s (descVas (getS s o.sa)) :=
    (fillEls_placed s (fun e => q (descIndex e.i)) els).trans (congrArg (filled s) (by rw [hEls, rotDescEls, List.map_map]; rfl))
  have hLoads := loadEls_ok (fun s e p => readNow s e.i (rotDescAcc o p e.va)) (filled s (descVas (getS s o.sa)))
    (els.map fun e => (e, some (q (descIndex e.i)))) (fun e => w (descIndex e.i)) fun x hx p hp => by
      obtain ⟨e, he, rfl⟩ := List.mem_map.1 hx
      cases hp
      exact readNow_local _ _ _ _ (makeWay_quiet _ _ (by rw [me_filled]; exact hQuiet) rfl) (by rw [look_filled, hFresh.1])
        (by rw [me_filled]; exact hFresh.2.1) ((localBytes_filled _ _ _ _).trans (hEl e he).2)
  have hWords : ∀ k, k < 4 → bytesOf 8 (numOf (w k)) = w k := fun k hk => by
    obtain ⟨hCheck, hBytes⟩ := hDesc k hk
    rw [← length_localBytes (checkElem_ne_window hCheck) hBytes, bytesOf_numOf]
  have hBytes : (((els.map fun e => (e, some (q (descIndex e.i)))).map fun x => if x.2.isSome then (numOf (w (descIndex x.1.i)), true) else (0, false)).map
      fun v => bytesOf 8 v.1).flatten = w 0 ++ w 1 ++ w 2 ++ w 3 := by
    have hList : ((els.map fun e => (e, some (q (descIndex e.i)))).map fun x => if x.2.isSome then (numOf (w (descIndex x.1.i)), true) else (0, false)).map
        (fun v => bytesOf 8 v.1) = (List.range 4).map w := by
      simp only [hEls, rotDescEls, List.map_map]
      refine List.map_congr_left fun k hk => ?_
      simp only [Function.comp_apply, Option.isSome_some, if_true, descIndex_add]
      exact hWords k (List.mem_range.1 hk)
    rw [hList]
    simp [List.range_succ]
  have hPassed : passedOver s (filled s (descVas (getS s o.sa))) = false := by rw [passedOver, look_filled, hFresh.1]
  simp only [exec, execVldrot, vecOnly_of_strand hTrunk, not_le.2 hSome, if_false, hAligned, ne_eq, not_true_eq_false, ← hEls, hScan,
    hAsk, hFill, hLoads, hPassed,
    hBytes, hRun, Bool.false_eq_true]
  rfl

theorem rotaryEl_tlb (s : State) (l : List TlbEntry) (d : KvDesc) (row0 : Nat) (b0 b1 : List Byte) (k : Nat) :
    rotaryEl { s with tlb := l } d row0 b0 b1 k = rotaryEl s d row0 b0 b1 k := rfl

/-- The key rows are read, rotated and pushed; the TLB takes more leaves. -/
theorem rotRun_of_reads {s : State} {d : KvDesc} {p0 p1 : Nat → Place} {b0 b1 : Nat → List Byte} {v : Nat → Nat × FFlags} (hLook : s.look = none)
    (hEarly : (me s).early = []) (hQuiet : Quiet (me s)) (hOk : kvOk d = true) (o : RotOps) (va : Word) (start : Nat)
    (h : ∀ k, start ≤ k → k < (me s).vl → RotReads s s d (getS s o.sb).toNat p0 p1 b0 b1 v k) :
    let els := (List.range ((me s).vl - start)).map (start + ·)
    ∃ l, rotRun o s va start d = .ok (putMe { s with tlb := l } { setIq (me s) o.q.toNat
      (qpush (iqOf (me s) o.q.toNat) start 32 (els.map fun k => ((v k).1, true))) with
      fflags := (me s).fflags ||| orFlags (els.map fun k => (v k).2) }) := by
  intro els
  have hEl : ∀ k ∈ els, RotReads s s d (getS s o.sb).toNat p0 p1 b0 b1 v k := fun k hk => by
    obtain ⟨j, hj, rfl⟩ := List.mem_map.1 hk
    have hj := List.mem_range.1 hj
    exact h _ (by omega) (by omega)
  have hScan := rotScan_of_placed (s := s) (d := d) (row0 := (getS s o.sb).toNat) (p0 := p0) (p1 := p1) va ((me s).vl - start) start
    fun k hLow hHigh => (h k hLow (by omega)).1
  have hPlan : ((List.range ((me s).vl - start)).map fun k => rotPlan d (getS s o.sb).toNat p0 p1 (start + k)) =
      els.map (rotPlan d (getS s o.sb).toNat p0 p1) := by
    rw [List.map_map]
    rfl
  rw [hPlan] at hScan
  have hAsk : ∀ mk, askAll s mk (rotReads (els.map (rotPlan d (getS s o.sb).toNat p0 p1))) = none := fun mk =>
    askAll_local s mk _ fun x hx q hq => by
      simp only [rotReads, List.map_map, List.mem_flatten, List.mem_map] at hx
      obtain ⟨_, ⟨k, hk, rfl⟩, hx⟩ := hx
      obtain ⟨-, hBytes0, hBytes1, -⟩ := hEl k hk
      rcases List.mem_pair.1 hx with rfl | rfl
      · cases hq
        exact local_not_peer s _ _ _ hBytes0
      · cases hq
        exact local_not_peer s _ _ _ hBytes1
  obtain ⟨l, hFill⟩ := fillEls_eq s (rotReads (els.map (rotPlan d (getS s o.sb).toNat p0 p1)))
  have hEls := rotEls_of_reads (s := { s with tlb := l }) (s1 := s) hLook hEarly hQuiet o els fun k hk => by
    obtain ⟨hPlaced, hBytes0, hBytes1, hValue⟩ := hEl k hk
    exact ⟨hPlaced, (localBytes_tlb ..).trans hBytes0, (localBytes_tlb ..).trans hBytes1, hValue⟩
  refine ⟨l, ?_⟩
  simp only [rotRun, hOk, Bool.not_true, Bool.false_eq_true, if_false, hScan, hAsk, hFill, hEls, rotFinish]
  rfl

/-- Settles O35: the descriptor's words and the key rows are read at once, and each element is rotated. -/
theorem rotaryLoads : Obligations.RotaryLoads := by
  refine ⟨fun o s hTrunk hNone => ?_, fun o s q w p0 p1 b0 b1 v hTrunk hFresh hQuiet hSome hAligned hDesc => ?_⟩
  · simp only [exec, execVldrot, vecOnly_of_strand hTrunk, hNone, if_true]
    rfl
  · intro d s1 hOk hRows
    have hMe : me s1 = me s := me_filled _ _
    obtain ⟨l, hFilled⟩ : ∃ l, s1 = { s with tlb := l } := filled_eq _ s
    have hSb : (getS s1 o.sb).toNat = (getS s o.sb).toNat := by rw [hFilled]; rfl
    have hReads : ∀ k, startOf s ≤ k → k < (me s1).vl → RotReads s1 s1 d (getS s1 o.sb).toNat p0 p1 b0 b1 v k := fun k hLow hHigh => by
      obtain ⟨hRow, hCheck0, hBytes0, hCheck1, hBytes1, hValue⟩ := hRows k ((mem_visited s k).2 ⟨hLow, hMe ▸ hHigh⟩)
      rw [hSb]
      refine ⟨⟨hRow, hCheck0, hCheck1⟩, ?_, ?_, ?_⟩
      · rw [hFilled, localBytes_tlb]
        exact hBytes0
      · rw [hFilled, localBytes_tlb]
        exact hBytes1
      · rw [hFilled, rotaryEl_tlb]
        exact hValue
    obtain ⟨l', hRun⟩ := rotRun_of_reads (by rw [look_filled, hFresh.1]) (by rw [hMe, hFresh.2.1]) (hMe ▸ hQuiet) hOk o (getS s o.sa) (startOf s) hReads
    refine ⟨_, exec_vldrot_of_desc hTrunk hFresh hQuiet hSome hAligned hDesc hRun, ?_, ?_⟩
    · rw [hFilled]
      exact onlyMe_tlb s l' _
    · rw [me_putMe, hMe]
      rfl

end Sys2Proof.Machine
end


section
/-! SUPPORT. XSEND (R157, R336, R339, R340). -/

namespace Sys2Proof.Machine

/-- Reads of a source that all go at once give its bytes in index order. -/
theorem sendEls_of_reads {s : State} {sz : Nat} {rel : Bool} {els : List El} {p : El → Place} {b : El → List Byte}
    (h : ∀ e ∈ els, readWide s e.i (mkAcc .cl (p e) e.va sz .read rel false rel) = .bytes (b e) 0 s) :
    sendEls sz rel s (els.map fun e => (e, some (p e))) = .done (els.map b).flatten s := by
  induction els with
  | nil => rfl
  | cons e els ih =>
    have hTail := ih fun x hx => h x (List.mem_cons_of_mem _ hx)
    simp only [List.map_cons, sendEls, h e List.mem_cons_self, hTail, List.flatten_cons]

theorem ceilDiv_mul (a n : Nat) (h : 0 < n) : ceilDiv (a * n) n = a := by
  unfold ceilDiv
  rw [Nat.add_sub_assoc h, Nat.add_comm, Nat.add_mul_div_right _ _ h, Nat.div_eq_of_lt (by omega), Nat.zero_add]

theorem vmSize_small (sz : BitVec 2) : 0 < vmSize sz ∧ vmSize sz ≤ 8 := by
  have h := sz.isLt
  exact ⟨Nat.two_pow_pos _, Nat.pow_le_pow_right (by decide) (show sz.toNat ≤ 3 by omega)⟩

/-- The bytes that an XSEND counts, and where it starts (R336, R339). -/
def sendCount (st : Strand) (n : Nat) : Nat := if st.trunk then 64 * n else st.vl
def sendStart (s : State) : Nat := if (me s).trunk then 0 else startOf s

/-- An XSEND whose source is read at once: its fragments follow. -/
theorem exec_xsend_of_reads {s : State} {o : XsendOps} {p : Nat → Place} {b : Nat → List Byte} (hFresh : Fresh s) (hQuiet : Quiet (me s))
    (hPeer : peerOk (getS s o.sa).toNat (sendCount (me s) (vmSize o.sz)) true = true)
    (hWay : wayTo s (me s) (bitsN (getS s o.sa).toNat 33 10) (bitsN (getS s o.sa).toNat 29 4) = true)
    (hEl : ∀ k, k < ceilDiv (sendCount (me s) (vmSize o.sz)) (vmSize o.sz) - sendStart s / vmSize o.sz →
      let e := sendStart s / vmSize o.sz + k
      checkElem s (me s) .load (vmSize o.sz) (getS s o.sb + BitVec.ofNat 64 (e * vmSize o.sz)) = .ok (p e) ∧
        localBytes s (p e) (vmSize o.sz) = some (b e)) :
    let lo := sendStart s / vmSize o.sz
    let bytes := ((List.range (ceilDiv (sendCount (me s) (vmSize o.sz)) (vmSize o.sz) - lo)).map fun k => b (lo + k)).flatten
    ∃ l, exec (.xsend o) s = finish s
      (let s2 := putMe { s with tlb := l } (me s)
       if (me s).trunk && s2.look.isNone then
         trunkSend (vmSize o.sz) s2 ((fragItems s2 (getS s o.sa).toNat o.rel 0 bytes).drop (stepOf s2 / 224)) (stepOf s2)
       else .ok (putMe s2 (addItems (me s2) s2.slot (fragItems s2 (getS s o.sa).toNat o.rel (sendStart s) (bytes.take ((me s).vl - sendStart s)))))) := by
  intro lo bytes
  obtain ⟨hPos, hSmall⟩ := vmSize_small o.sz
  obtain ⟨els, hEls⟩ : ∃ els : List El, els = (List.range (ceilDiv (sendCount (me s) (vmSize o.sz)) (vmSize o.sz) - lo)).map fun k =>
    { i := (lo + k) * vmSize o.sz, va := getS s o.sb + wordOf ((lo + k) * vmSize o.sz), act := true, data := 0 } := ⟨_, rfl⟩
  have hMem : ∀ e ∈ els, e.act = true ∧ checkElem s (me s) .load (vmSize o.sz) e.va = .ok (p (e.i / vmSize o.sz)) ∧
      localBytes s (p (e.i / vmSize o.sz)) (vmSize o.sz) = some (b (e.i / vmSize o.sz)) := fun e he => by
    rw [hEls] at he
    obtain ⟨k, hk, rfl⟩ := List.mem_map.1 he
    rw [Nat.mul_div_cancel _ hPos]
    exact ⟨rfl, hEl k (List.mem_range.1 hk)⟩
  have hScan : scanEls s (me s) .load (vmSize o.sz) els =
      { els := els.map fun e => (e, some (p (e.i / vmSize o.sz))), stop := none, tok := none, vl := (me s).vl } := by
    rw [scanEls_ok s (me s) .load _ els (fun i => p (i / vmSize o.sz)) fun e he _ => (hMem e he).2.1]
    exact congrArg (Scan.mk · none none (me s).vl) (List.map_congr_left fun e he => by rw [if_pos (hMem e he).1])
  have hAsk : ∀ mk, askAll s mk (els.map fun e => (e, some (p (e.i / vmSize o.sz)))) = none := fun mk => askAll_local s mk _ fun x hx q hq => by
    obtain ⟨e, he, rfl⟩ := List.mem_map.1 hx
    cases hq
    exact local_not_peer s _ _ _ (hMem e he).2.2
  obtain ⟨l, hFill⟩ := fillEls_eq s (els.map fun e => (e, some (p (e.i / vmSize o.sz))))
  have hSend := sendEls_of_reads (s := { s with tlb := l }) (rel := o.rel) (p := fun e => p (e.i / vmSize o.sz)) (b := fun e => b (e.i / vmSize o.sz))
    (sz := vmSize o.sz) fun e he => readWide_local (s := { s with tlb := l })
      (a := mkAcc .cl (p (e.i / vmSize o.sz)) e.va (vmSize o.sz) .read o.rel false o.rel) hFresh.1 hFresh.2.1 hQuiet rfl (.inl hSmall)
      ((localBytes_tlb ..).trans (hMem e he).2.2) e.i
  have hBytes : (els.map fun e => b (e.i / vmSize o.sz)).flatten = bytes := by
    rw [hEls, List.map_map]
    refine congrArg List.flatten (List.map_congr_left fun k _ => ?_)
    simp only [Function.comp_apply, Nat.mul_div_cancel _ hPos]
  rw [hBytes] at hSend
  have hLength : (els.map fun e => (e, some (p (e.i / vmSize o.sz)))).length = els.length := List.length_map _
  have hVl : (if (Option.isNone (none : Option (Nat × Nat × Word)) && !(me s).trunk) = true then min (me s).vl (me s).vl else (me s).vl) = (me s).vl := by
    rw [min_self, ite_self]
  refine ⟨l, ?_⟩
  simp only [lo, sendCount, sendStart] at hEls hPeer
  simp only [exec, execXsend, ← hEls, hPeer, hWay, Bool.not_true, Bool.false_eq_true, if_false, hScan, hAsk, hFill, hSend, hLength, lt_self_iff_false,
    hVl]
  rfl

/-- The fragments of an XSEND name the package and the strand's next group. -/
theorem fragItems_same {s : State} {st : Strand} (l : List TlbEntry) (hGroup : nextGroup st = nextGroup (me s)) (w : Nat) (rel : Bool) (start : Nat)
    (b : List Byte) : fragItems (putMe { s with tlb := l } st) w rel start b = fragItems s w rel start b := by
  have hMe : me (putMe { s with tlb := l } st) = st := me_putMe _ _
  simp only [fragItems, hMe, hGroup]
  rfl

/-! On the trunk die the fragments land before the syllable completes (R336). -/

/-- What holds of some entry still does once an entry is replaced by one that is no different in that. -/
theorem any_set {α : Type} {f : Nat × α → Bool} {m : NMap α} {n : Nat} {v d : α} (hValue : f (n, v) = f (n, NMap.getD m n d)) (h : m.any f = true) :
    (NMap.set m n v).any f = true := by
  induction m with
  | nil => cases h
  | cons x m ih =>
    obtain ⟨k, w⟩ := x
    rw [List.any_cons, Bool.or_eq_true] at h
    unfold NMap.set
    split
    · rw [List.any_cons, List.any_cons, Bool.or_eq_true, Bool.or_eq_true]
      exact .inr h
    · split
      next hSame =>
        have hHere : NMap.getD ((k, w) :: m) n d = w := by rw [NMap.getD, NMap.get?, if_pos hSame.symm]; rfl
        rw [hHere] at hValue
        rw [List.any_cons, Bool.or_eq_true, hValue, hSame]
        exact h
      next hNot =>
        have hLater : NMap.getD ((k, w) :: m) n d = NMap.getD m n d := by rw [NMap.getD, NMap.get?, if_neg (Ne.symm hNot)]; rfl
        rw [hLater] at hValue
        rw [List.any_cons, Bool.or_eq_true]
        exact h.imp_right (ih hValue)

/-- Whether a strand stands where another does, for the tenants that hold a cluster (R342). -/
def StandsAs (st st' : Strand) : Prop := st'.run = st.run ∧ st'.trunk = st.trunk ∧ st'.rec_ = st.rec_ ∧ st'.clusterKey = st.clusterKey

/-- A tenant's records stay where they are when the strand is put back. -/
theorem tenantAt_putMe {s : State} {tenant cluster : Nat} {st : Strand} (h : tenantAt s tenant cluster = true) (hSame : StandsAs (me s) st) :
    tenantAt (putMe s st) tenant cluster = true := by
  obtain ⟨hRun, hTrunk, hRec, hCluster⟩ := hSame
  simp only [tenantAt, Bool.or_eq_true] at h ⊢
  refine h.imp_left (.imp_left (any_set (d := Strand.idle s.cur (s.cur < 512)) ?_))
  dsimp only
  rw [hRun, hTrunk, hRec, hCluster]
  rfl

theorem length_sliceBytes (b : List Byte) (i k : Nat) : (sliceBytes b i k).length = k := by simp [sliceBytes]

/-- One fragment of an XSEND. -/
def fragItem (s : State) (w : Nat) (rel : Bool) (b : List Byte) (c : Nat × Nat) : QItem :=
  .acc { mkAcc .cl (.spad (peerKey (w + c.1))) (wordOf (w + c.1)) c.2 (.frag (sliceBytes b c.1 c.2) (peerSync w)) rel false rel with
    group := nextGroup (me s) }

theorem fragItems_here {s : State} {w : Nat} (hPkg : bitsN w 33 10 = s.fabric.pkgId) (rel : Bool) (b : List Byte) :
    fragItems s w rel 0 b = (chunksOf b.length).map (fragItem s w rel b) := by
  simp only [fragItems, hPkg, if_true, Nat.add_zero]
  rfl

/-- The ordering machine once a fragment of bytes has landed and counted into its sync word (R157). -/
def fragLanded (w : Nat) (b : List Byte) (x : Ordering_) (c : Nat × Nat) : Ordering_ :=
  (syncArrive (spadWrite x (peerKey (w + c.1)) (sliceBytes b c.1 c.2)) (peerSync w) c.2 false).1

theorem trunkSend_of_lands {s0 : State} (s : State) {sz w : Nat} {rel : Bool} {b : List Byte} (hQuiet : Quiet (me s)) (l : List (Nat × Nat)) (o : Ordering_)
    (off : Nat) (h : ∀ c ∈ l, tenantAt s (me s).tenant (peerKey (w + c.1) / 2 ^ 24) = true ∧ bridgeUp s (me s).die (peerKey (w + c.1) / 2 ^ 29) = true) :
    trunkSend sz { s with ord := o } (l.map (fragItem s0 w rel b)) off = .ok { s with ord := l.foldl (fragLanded w b) o } := by
  induction l generalizing o off with
  | nil => rfl
  | cons c l ih =>
    obtain ⟨hTenant, hBridge⟩ := h c List.mem_cons_self
    have hTenant' : tenantAt { s with ord := o } (me { s with ord := o }).tenant (peerKey (w + c.1) / 2 ^ 24) = true := hTenant
    have hBridge' : bridgeUp { s with ord := o } (me { s with ord := o }).die (peerKey (w + c.1) / 2 ^ 29) = true := hBridge
    have hWay := makeWay_quiet { s with ord := o } { mkAcc .cl (.spad (peerKey (w + c.1))) (wordOf (w + c.1)) c.2 (.frag (sliceBytes b c.1 c.2) (peerSync w))
      rel false rel with group := nextGroup (me s0) } hQuiet rfl
    have hTail := ih (fragLanded w b o c) (off + (sliceBytes b c.1 c.2).length) fun x hx => h x (List.mem_cons_of_mem _ hx)
    have hLand : fragLand o (peerKey (w + c.1)) (peerSync w) (sliceBytes b c.1 c.2) = fragLanded w b o c := by
      rw [fragLand, length_sliceBytes]
      rfl
    rw [List.map_cons, fragItem, trunkSend]
    simp only [mkAcc] at hWay ⊢
    simp only [hWay, hTenant', hBridge', Bool.and_self, if_true, hLand]
    rw [List.foldl_cons]
    exact hTail

/-- Settles O37: the source is read at once; the fragments enter the issue stream, or land on the trunk die. -/
theorem sendsIssue : Obligations.SendsIssue := by
  refine ⟨fun o s p b => ?_, fun o s p b => ?_⟩
  · intro n w els hTrunk hFresh hQuiet hPeer hWay hEl
    have hCount : sendCount (me s) (vmSize o.sz) = (me s).vl := by rw [sendCount, hTrunk]; rfl
    have hStart : sendStart s = startOf s := by rw [sendStart, hTrunk]; rfl
    obtain ⟨l, hExec⟩ := exec_xsend_of_reads (p := p) (b := b) hFresh hQuiet (by rw [hCount]; exact hPeer) hWay fun k hk => by
      rw [hCount, hStart] at hk
      rw [hStart]
      exact hEl _ (List.mem_map.2 ⟨k, List.mem_range.2 hk, rfl⟩)
    have hMe : me (putMe { s with tlb := l } (me s)) = me s := me_putMe _ _
    simp only [hCount, hStart, hTrunk, Bool.false_and, Bool.false_eq_true, if_false, fragItems_same l rfl, hMe, putMe_putMe] at hExec
    have hBytes : ((List.range (ceilDiv (me s).vl (vmSize o.sz) - startOf s / vmSize o.sz)).map fun k => b (startOf s / vmSize o.sz + k)) = els.map b :=
      (List.map_map ..).symm
    rw [hBytes] at hExec
    exact ⟨_, hExec, onlyMe_tlb s l _, me_putMe _ _⟩
  · intro n w bytes hTrunk hFresh hQuiet hPeer hPkg hBridge hChunks hEl
    have hCount : sendCount (me s) (vmSize o.sz) = 64 * vmSize o.sz := by rw [sendCount, hTrunk]; rfl
    have hStart : sendStart s = 0 := by rw [sendStart, hTrunk]; rfl
    obtain ⟨hPos, -⟩ := vmSize_small o.sz
    have hWay : wayTo s (me s) (bitsN w 33 10) (bitsN w 29 4) = true := (if_pos hPkg).trans hBridge
    obtain ⟨l, hExec⟩ := exec_xsend_of_reads (p := p) (b := b) hFresh hQuiet (by rw [hCount]; exact hPeer) hWay fun k hk => by
      rw [hCount, hStart, ceilDiv_mul _ _ hPos, Nat.zero_div] at hk
      rw [hStart, Nat.zero_div, Nat.zero_add]
      exact hEl k hk
    obtain ⟨s2, hs2⟩ : ∃ s2, s2 = putMe { s with tlb := l } (me s) := ⟨_, rfl⟩
    have hMe : me s2 = me s := hs2 ▸ me_putMe _ _
    have hLook : s2.look.isNone = true := by
      rw [hs2]
      exact Option.isNone_iff_eq_none.2 hFresh.1
    have hStep : stepOf s2 = 0 := by
      have hFresh2 : Fresh s2 := ⟨Option.isNone_iff_eq_none.1 hLook, by rw [hMe, hFresh.2.1], fun e => by rw [hMe, hs2]; exact hFresh.2.2 e⟩
      rw [stepOf, doneBefore_of_fresh hFresh2]
      rfl
    have hLength : bytes.length = 64 * n := by
      have hSum : ∀ m, m ≤ 64 → ((List.range m).map b).flatten.length = m * n := by
        intro m hm
        induction m with
        | zero => simp
        | succ m ih =>
          obtain ⟨hCheck, hRead⟩ := hEl m (by omega)
          rw [List.range_succ, List.map_append, List.flatten_append, List.length_append, ih (by omega), Nat.succ_mul]
          simpa using length_localBytes (checkElem_ne_window hCheck) hRead
      exact hSum 64 le_rfl
    have hFrags := fragItems_here (s := s2) (w := w) (by rw [hs2]; exact hPkg) o.rel bytes
    have hBytes : ((List.range 64).map fun k => b (0 + k)) = (List.range 64).map b := List.map_congr_left fun k _ => by rw [Nat.zero_add]
    have hLands := trunkSend_of_lands (sz := vmSize o.sz) (s0 := s2) (rel := o.rel) (b := bytes) (w := w) s2 (hMe ▸ hQuiet) (chunksOf (64 * n)) s2.ord 0
      fun c hc => by
        obtain ⟨hTenant, hUp⟩ := hChunks c hc
        rw [hMe, hs2]
        exact ⟨tenantAt_putMe (s := { s with tlb := l }) hTenant ⟨rfl, rfl, rfl, rfl⟩, hUp⟩
    rw [← hs2] at hExec
    simp only [hCount, hStart, ceilDiv_mul _ _ hPos, Nat.zero_div, Nat.sub_zero, hBytes, hTrunk, hLook, Bool.and_self, if_true,
      hStep, List.drop_zero] at hExec
    rw [hFrags, hLength] at hExec
    refine ⟨_, hExec.trans (congrArg (finish s) hLands), ?_, fun k => ?_, ?_⟩
    · rw [hs2]
      rfl
    · rw [hs2]
      by_cases hk : k = s.cur
      · subst hk
        exact me_putMe _ _
      · exact strandOf_putMe_ne _ k _ hk
    · rw [hs2]
      rfl

end Sys2Proof.Machine
end


section
/-! SUPPORT. Collectives (R376 to R379). -/

namespace Sys2Proof.Machine

/-! While a collective reads its descriptor and its source, the strand keeps what it has read. -/

/-- The number of the read of word k of the descriptor. -/
def descElem (k : Nat) : Nat := 20000 + k

/-- The state once a collective of s has read elements of the numbers ks: the strand keeps their bytes, and nothing else changes. -/
structure Reading (s : State) (ks : List Nat) (t : State) : Prop where
  rest : { t with strands := s.strands } = s
  strand : ∃ E, me t = { me s with early := E } ∧ ∀ x ∈ E, x.ahead = 0 ∧ x.slot = s.slot ∧ x.elem ∈ ks
  others : ∀ k, k ≠ s.cur → strandOf t k = strandOf s k
  tenants : ∀ tenant cluster, tenantAt s tenant cluster = true → tenantAt t tenant cluster = true

theorem reading_refl {s : State} (hEarly : (me s).early = []) : Reading s [] s := by
  refine ⟨rfl, ⟨[], ?_, fun _ hx => absurd hx List.not_mem_nil⟩, fun _ _ => rfl, fun _ _ h => h⟩
  rw [← hEarly]

section

variable {s t : State} {ks : List Nat} (h : Reading s ks t)
include h

theorem Reading.mono {ls : List Nat} (hSub : ks ⊆ ls) : Reading s ls t := by
  obtain ⟨E, hMe, hE⟩ := h.strand
  exact { h with strand := ⟨E, hMe, fun x hx => ⟨(hE x hx).1, (hE x hx).2.1, hSub (hE x hx).2.2⟩⟩ }

theorem Reading.tlb (l : List TlbEntry) : Reading { s with tlb := l } ks { t with tlb := l } :=
  ⟨(congrArg (fun u : State => { u with tlb := l }) h.rest :), h.strand, h.others, h.tenants⟩

theorem Reading.slot : t.slot = s.slot := (congrArg State.slot h.rest :)
theorem Reading.cur : t.cur = s.cur := (congrArg State.cur h.rest :)
theorem Reading.look : t.look = s.look := (congrArg State.look h.rest :)

theorem Reading.stream : streamOf (me t) = streamOf (me s) := by
  obtain ⟨E, hMe, -⟩ := h.strand
  rw [hMe]
  rfl

theorem Reading.checkElem (acc : Acc) (n : Nat) (va : Word) : checkElem t (me t) acc n va = checkElem s (me s) acc n va := by
  obtain ⟨E, hMe, -⟩ := h.strand
  rw [hMe]
  exact (congrArg (Machine.checkElem · { me s with early := E } acc n va) h.rest :).trans rfl

theorem Reading.localBytes {p : Place} {n : Nat} (hWindow : ∀ off, p ≠ .window off) : localBytes t p n = localBytes s p n := by
  have hDie : (me t).die = (me s).die := by
    obtain ⟨E, hMe, -⟩ := h.strand
    exact (congrArg Strand.die hMe :)
  have hRead : ∀ d loc, (readPoisoned t d loc n, memRead t d loc n) = (readPoisoned s d loc n, memRead s d loc n) := fun d loc =>
    (congrArg (fun u => (readPoisoned u d loc n, memRead u d loc n)) h.rest :)
  have hOrd : t.ord = s.ord := (congrArg State.ord h.rest :)
  simp only [Prod.mk.injEq] at hRead
  cases p with
  | window off => exact absurd rfl (hWindow off)
  | peer pkg pa => rfl
  | spad key => simp only [Machine.localBytes, hOrd]
  | mem loc home => simp only [Machine.localBytes, hDie, hRead]
  | own loc home => simp only [Machine.localBytes, hRead]

/-- A read of an element that the strand has not read yet goes at once (R162). -/
theorem Reading.readNow {k : Nat} {a : Access} {b : List Byte} (hLook : s.look = none) (hStream : streamOf (me s) = []) (hNew : k ∉ ks)
    (hRel : a.rel = false) (hBytes : Machine.localBytes t a.place a.size = some b) : readNow t k a = .bytes b 0 t := by
  have hEarly : earlyOf t k a = none := by
    obtain ⟨E, hMe, hE⟩ := h.strand
    refine Option.map_eq_none_iff.2 (List.find?_eq_none.2 fun x hx => ?_)
    have hElem : x.elem ≠ k := fun hk => hNew (hk ▸ (hE x (by rwa [hMe] at hx)).2.2)
    simp [hElem]
  unfold Machine.readNow
  rw [hEarly, h.look, hLook, makeWay_plain t a (h.stream.trans hStream) hRel]
  unfold Machine.localBytes at hBytes
  unfold localRead
  cases hPlace : a.place <;> simp only [hPlace] at hBytes ⊢
  case window off => rw [Option.some.inj hBytes]
  case peer => cases hBytes
  all_goals
    obtain ⟨hClean, ⟨⟩⟩ := Option.ite_none_left_eq_some.1 hBytes
    rw [if_neg hClean]

/-- What is read stays with the strand. -/
theorem Reading.keepRead (e : El) (b : List Byte) : Reading s (e.i :: ks) (keepRead t e b) := by
  unfold Machine.keepRead
  dsimp only
  split
  · exact h.mono (List.subset_cons_self _ _)
  · obtain ⟨E, hMe, hE⟩ := h.strand
    refine ⟨h.rest, ⟨_, (me_putMe _ _).trans (by rw [hMe]), fun x hx => ?_⟩, fun k hk => ?_, fun tenant cluster hAt => ?_⟩
    · rcases List.mem_append.1 hx with hOld | hNew
      · obtain ⟨hAhead, hSlot, hElem⟩ := hE x hOld
        exact ⟨hAhead, hSlot, List.mem_cons_of_mem _ hElem⟩
      · rw [List.mem_singleton.1 hNew]
        exact ⟨rfl, h.slot, List.mem_cons_self⟩
    · rw [strandOf_putMe_ne _ _ _ (by rwa [h.cur]), h.others k hk]
    · exact tenantAt_putMe (h.tenants _ _ hAt) ⟨rfl, rfl, rfl, rfl⟩

theorem Reading.keepReads (els : List El) (f : El → List Byte) :
    ∃ ls, Reading s ls (els.foldl (fun t e => Machine.keepRead t e (f e)) t) := by
  induction els generalizing t ks with
  | nil => exact ⟨_, h⟩
  | cons e els ih => exact ih (h.keepRead e (f e))

/-! The descriptor (R376, R377). -/

/-- A word of the descriptor is read and kept. -/
theorem Reading.descWord {k W : Nat} {va : Word} {p : Place} (hLook : s.look = none) (hStream : streamOf (me s) = []) (hNew : descElem k ∉ ks)
    (hW : W < 2 ^ 64) (hCheck : Machine.checkElem s (me s) .load 8 va = .ok p) (hBytes : Machine.localBytes s p 8 = some (bytesOf 8 W)) :
    ∃ u, descWord t va k = .ok W u ∧ Reading s (descElem k :: ks) u := by
  have hRead := h.readNow (a := mkAcc .cl p va 8 .read false false false) hLook hStream hNew rfl
    ((h.localBytes (checkElem_ne_window hCheck)).trans hBytes)
  have hValue : numOf (bytesOf 8 W) = W := (numOf_bytesOf 8 W).trans (Nat.mod_eq_of_lt hW)
  refine ⟨_, ?_, h.keepRead { i := 20000 + k, va := va, act := true, data := 0 } (bytesOf 8 W)⟩
  rw [descElem] at hRead
  simp only [Machine.descWord, h.checkElem, hCheck, hRead, hValue]

theorem Reading.entryMine (w : Nat) : entryMine t (me t) w = entryMine s (me s) w := by
  obtain ⟨E, hMe, -⟩ := h.strand
  rw [hMe]
  exact (congrArg (Machine.entryMine · { me s with early := E } w) h.rest :).trans rfl

end

/-- Word k of the descriptor at d holds W, at the place p (R377). -/
def DescWord (s : State) (d : Word) (k W : Nat) (p : Place) : Prop :=
  W < 2 ^ 64 ∧ checkElem s (me s) .load 8 (d + BitVec.ofNat 64 (8 * k)) = .ok p ∧ localBytes s p 8 = some (bytesOf 8 W)

theorem entryAddress (d : Word) (k : Nat) : d + wordOf (16 + 8 * k) = d + BitVec.ofNat 64 (8 * (2 + k)) := by
  rw [wordOf, Nat.mul_add]

section

variable {s : State} {d : Word} {W : Nat → Nat} {p : Nat → Place} (hLook : s.look = none) (hStream : streamOf (me s) = [])
include hLook hStream

/-- The header and the issuer's own entry are read. -/
theorem descHead_of_reads {fn np root idx count : Nat} (hEarly : (me s).early = []) (hWord : ∀ k, k < 2 ∨ k = 2 + idx → DescWord s d k (W k) (p k))
    (hNp : 1 ≤ np) (hMax : np ≤ 1024) (hIdx : idx < np) (hRoot : fn = 1 → root < np) (hRoot16 : root < 65536) (hW0 : W 0 = np + 65536 * root)
    (hW1 : W 1 = 0) (hMine : entryMine s (me s) (W (2 + idx)) = true) (hOk : peerOk (W (2 + idx)) count true = true) :
    ∃ t, descHead s fn d idx count = .ok { npart := np, root := root, own := W (2 + idx) } t ∧
      Reading s [descElem (2 + idx), descElem 1, descElem 0] t := by
  obtain ⟨hLt0, hCheck0, hBytes0⟩ := hWord 0 (.inl (by decide))
  obtain ⟨hLt1, hCheck1, hBytes1⟩ := hWord 1 (.inl (by decide))
  obtain ⟨hLt2, hCheck2, hBytes2⟩ := hWord (2 + idx) (.inr rfl)
  rw [Nat.mul_zero, BitVec.add_zero] at hCheck0
  rw [← entryAddress] at hCheck2
  obtain ⟨t0, hRead0, ht0⟩ := (reading_refl hEarly).descWord (k := 0) hLook hStream List.not_mem_nil hLt0 hCheck0 hBytes0
  obtain ⟨t1, hRead1, ht1⟩ := ht0.descWord (k := 1) hLook hStream (by simp [descElem]) hLt1 hCheck1 hBytes1
  obtain ⟨t2, hRead2, ht2⟩ := ht1.descWord (k := 2 + idx) hLook hStream (by simp [descElem]; omega) hLt2 hCheck2 hBytes2
  have hNpart : (np + 65536 * root) % 65536 = np := by omega
  have hRoots : (np + 65536 * root) / 65536 % 65536 = root := by omega
  have hHeader : (decide ((np + 65536 * root) / 2 ^ 32 ≠ 0) || decide (np = 0) || decide (1024 < np) || decide (np ≤ idx) ||
      (decide (fn = 1) && decide (np ≤ root))) = false := by
    simp only [Bool.or_eq_false_iff, Bool.and_eq_false_iff, decide_eq_false_iff_not]
    exact ⟨⟨⟨⟨by omega, by omega⟩, by omega⟩, by omega⟩, (em (fn = 1)).symm.imp_right fun h => not_le.2 (hRoot h)⟩
  rw [hW0] at hRead0
  rw [hW1] at hRead1
  have hEntry : (entryOk (W (2 + idx)) count && entryMine t2 (me t2) (W (2 + idx))) = true := by
    rw [ht2.entryMine, hMine, entryOk, hOk]
    rfl
  refine ⟨t2, ?_, ht2⟩
  unfold descHead
  simp only [hRead0, hNpart, hRoots, hHeader, Bool.false_eq_true, if_false]
  have hStep : d + 8 = d + BitVec.ofNat 64 (8 * 1) := rfl
  simp only [hStep, hRead1, ne_eq, not_true_eq_false, if_false, hRead2, hEntry, if_true]

/-- The entries of the other participants are read, in increasing order. -/
theorem descOthers_of_reads {idx count : Nat} (l : List Nat) {t : State} {ks : List Nat} (h : Reading s ks t) (hNodup : l.Nodup)
    (hNew : ∀ k ∈ l, k ≠ idx → descElem (2 + k) ∉ ks)
    (hWord : ∀ k ∈ l, DescWord s d (2 + k) (W (2 + k)) (p (2 + k)) ∧ peerOk (W (2 + k)) count true = true) :
    ∃ u, descOthers d idx count t l = .ok ((l.filter fun k => decide (k ≠ idx)).map fun k => (k, W (2 + k))) u ∧
      Reading s (l.map (fun k => descElem (2 + k)) ++ ks) u := by
  induction l generalizing t ks with
  | nil => exact ⟨t, rfl, h⟩
  | cons k l ih =>
    obtain ⟨hNot, hNodup⟩ := List.nodup_cons.1 hNodup
    have hTail := fun x hx => hWord x (List.mem_cons_of_mem _ hx)
    by_cases hk : k = idx
    · obtain ⟨u, hRest, hu⟩ := ih h hNodup (fun x hx => hNew x (List.mem_cons_of_mem _ hx)) hTail
      refine ⟨u, ?_, hu.mono (List.subset_cons_self _ _)⟩
      rw [descOthers, if_pos hk, hRest, List.filter_cons_of_neg (by simpa using hk)]
    · obtain ⟨⟨hLt, hCheck, hBytes⟩, hOk⟩ := hWord k List.mem_cons_self
      rw [← entryAddress] at hCheck
      obtain ⟨t1, hRead, ht1⟩ := h.descWord hLook hStream (hNew k List.mem_cons_self hk) hLt hCheck hBytes
      obtain ⟨u, hRest, hu⟩ := ih ht1 hNodup (fun x hx hxi hMem => by
        rcases List.mem_cons.1 hMem with hSame | hOld
        · have : x = k := by simpa [descElem] using hSame
          exact hNot (this ▸ hx)
        · exact hNew x (List.mem_cons_of_mem _ hx) hxi hOld) hTail
      refine ⟨u, ?_, hu.mono fun x hx => ?_⟩
      · rw [List.filter_cons_of_pos (by simpa using hk), descOthers, if_neg hk]
        simp only [hRead, entryOk, hOk, Bool.not_true, Bool.false_eq_true, if_false, hRest, List.map_cons]
      · simp only [List.map_cons, List.mem_append, List.mem_cons, descElem] at hx ⊢
        tauto

/-! The source (R378). -/

/-- The elements of a contribution are read. -/
theorem source_of_reads {t : State} {ks : List Nat} {n m : Nat} {src : Word} {q : Nat → Place} {b : Nat → List Byte} (h : Reading s ks t)
    (hKs : ∀ k ∈ ks, 4096 ≤ k ∧ k < 2 ^ 24) (hm : m ≤ 4096) (hn : n ≤ 8 ∨ n = 64)
    (hEl : ∀ k, k < m → checkElem s (me s) .load n (src + BitVec.ofNat 64 (n * k)) = .ok (q k) ∧ localBytes s (q k) n = some (b k)) :
    let els : List El := (List.range m).map fun k => { i := k, va := src + wordOf (n * k), act := true, data := 0 }
    let sc := scanFrom t (me t) .load n els
    sc.2 = none ∧ (∀ mk, askAll t mk sc.1 = none) ∧
      ∃ l u, sendEls n false (fillEls t sc.1) sc.1 = .done ((List.range m).map b).flatten u ∧ Reading { s with tlb := l } ks u := by
  intro els sc
  have hMem : ∀ e ∈ els, e.act = true ∧ e.i < m ∧ checkElem s (me s) .load n e.va = .ok (q e.i) ∧ localBytes s (q e.i) n = some (b e.i) := fun e he => by
    obtain ⟨k, hk, rfl⟩ := List.mem_map.1 he
    exact ⟨rfl, List.mem_range.1 hk, hEl k (List.mem_range.1 hk)⟩
  have hScan : sc = (els.map fun e => (e, some (q e.i)), none) := by
    refine (scanFrom_ok t (me t) .load n els q fun e he _ => ?_).trans ?_
    · rw [h.checkElem]
      exact (hMem e he).2.2.1
    · exact congrArg (·, none) (List.map_congr_left fun e he => by rw [if_pos (hMem e he).1])
  rw [hScan]
  refine ⟨rfl, fun mk => askAll_local t mk _ fun x hx q' hq => ?_, ?_⟩
  · obtain ⟨e, he, rfl⟩ := List.mem_map.1 hx
    cases hq
    exact local_not_peer s _ _ _ (hMem e he).2.2.2
  · obtain ⟨l, hFill⟩ := fillEls_eq t (els.map fun e => (e, some (q e.i)))
    have hSend := sendEls_of_reads (s := { t with tlb := l }) (sz := n) (rel := false) (els := els) (p := fun e => q e.i) (b := fun e => b e.i)
      fun e he => by
        obtain ⟨-, hi, hCheck, hBytes⟩ := hMem e he
        have hSize : n ≤ 8 ∨ n = 64 ∧ BlockPlace (q e.i) := hn.imp_right fun h64 => ⟨h64, blockPlace_of_checkElem (h64 ▸ hCheck)⟩
        have hHere : localBytes { t with tlb := l } (q e.i) n = some (b e.i) :=
          (localBytes_tlb _ _ _ _).trans ((h.localBytes (checkElem_ne_window hCheck)).trans hBytes)
        refine readWide_of_reads (a := mkAcc .cl (q e.i) e.va n .read false false false) hSize hHere fun k a b' hk hRel _ hBytes' => ?_
        refine (h.tlb l).readNow hLook hStream (fun hOld => ?_) hRel hBytes'
        have := hKs k hOld
        omega
    refine ⟨l, _, ?_, h.tlb l⟩
    rw [hFill, hSend]
    exact congrArg (fun x : List (List Byte) => SendEnd.done x.flatten _) (List.map_map ..)

end

/-! A record of the trace unit leaves all but the ring, the memory that the ring lies in and the choices taken. -/

/-- A state that differs from s in the ordering machine, the trace rings and the choices only. -/
def TraceOnly (s t : State) : Prop := ∃ o r x, t = { s with ord := o, trace := r, sched := x }

theorem TraceOnly.refl (s : State) : TraceOnly s s := ⟨_, _, _, rfl⟩

theorem TraceOnly.trans {s t u : State} (h : TraceOnly s t) (h' : TraceOnly t u) : TraceOnly s u := by
  obtain ⟨_, _, _, rfl⟩ := h
  obtain ⟨_, _, _, rfl⟩ := h'
  exact ⟨_, _, _, rfl⟩

theorem traceOnly_ord (s : State) (o : Ordering_) : TraceOnly s { s with ord := o } := ⟨_, _, _, rfl⟩
theorem traceOnly_putRing (s : State) (d : Nat) (r : TraceRing) : TraceOnly s (putRing s d r) := ⟨_, _, _, rfl⟩

theorem traceOnly_takePick (s : State) (n : Nat) : TraceOnly s (takePick s n).2 := by
  obtain ⟨x, h⟩ := takePick_eq s n
  exact ⟨_, _, x, h⟩

theorem traceOnly_tracePut (s : State) (d code src : Nat) (pay : List Byte) : TraceOnly s (tracePut s d code src pay) := by
  obtain ⟨o, r, h⟩ := tracePut_eq s d code src pay
  exact ⟨o, r, _, h⟩

theorem traceOnly_traceUnit (s : State) (d code src : Nat) (pay : List Byte) : TraceOnly s (traceUnit s d code src pay) := by
  unfold traceUnit
  split
  · exact .refl s
  · dsimp only
    split
    · exact (traceOnly_takePick s 2).trans (traceOnly_putRing _ _ _)
    · refine (traceOnly_takePick s 2).trans ?_
      split
      · exact traceOnly_tracePut _ _ _ _ _
      · exact ((traceOnly_tracePut _ _ _ _ _).trans (traceOnly_putRing _ _ _)).trans (traceOnly_tracePut _ _ _ _ _)

theorem traceOnly_traceStep (s : State) (d : Nat) (isEnd : Bool) (src sync gen kind step part : Nat) :
    TraceOnly s (traceStep s d isEnd src sync gen kind step part) := by
  unfold traceStep
  split
  · exact traceOnly_traceUnit _ _ _ _ _
  · exact .refl s

theorem traceOnly_collLand (s : State) (fn key sync part : Nat) (b : List Byte) : TraceOnly s (collLand s fn key sync part b) := by
  unfold collLand
  dsimp only
  generalize syncArrive _ _ _ _ = r
  obtain ⟨o, adv⟩ := r
  cases adv with
  | false => exact traceOnly_ord s o
  | true => exact (traceOnly_ord s o).trans (traceOnly_traceStep _ _ _ _ _ _ _ _ _)

/-! What lands in a scratchpad bears on the scratchpads only (R378). -/

theorem spads_syncArrive {o o' : Ordering_} (h : spads o = spads o') (key n : Nat) (pois : Bool) :
    spads (syncArrive o key n pois).1 = spads (syncArrive o' key n pois).1 := by
  have hSync : syncRead o key = syncRead o' key := by rw [syncRead, syncRead, spad_of_spads h]
  simp only [syncArrive, hSync, spads, spad_of_spads h, spadPoison_of_spads h]

theorem spads_spadWrite {o o' : Ordering_} (h : spads o = spads o') (key : Nat) (b : List Byte) :
    spads (spadWrite o key b) = spads (spadWrite o' key b) := by
  simp only [spads, spadWrite, spad_of_spads h, spadPoison_of_spads h]

theorem spads_landOrd {o o' : Ordering_} (h : spads o = spads o') (fn key sync : Nat) (b : List Byte) :
    spads (landOrd fn o key sync b) = spads (landOrd fn o' key sync b) := by
  have hWrite := fun c => spads_spadWrite h key c
  refine spads_syncArrive ?_ sync b.length false
  rw [spad_of_spads h]
  split
  · exact hWrite _
  · exact Prod.ext (spad_of_spads (hWrite _)) (spadPoison_of_spads h)

theorem spads_collLand (s : State) (fn key sync part : Nat) (b : List Byte) :
    spads (collLand s fn key sync part b).ord = spads (landOrd fn s.ord key sync b) :=
  collLand_keeps (fun s => spads s.ord) spads_traceStep s fn key sync part b

/-! While a collective sends its contribution, the strand notes what has landed (R378, R379). -/

/-- A note of the collective in progress: what it says has landed. -/
def LandedNote (s : State) (a : Answer) : Prop :=
  a.slot = collSlot s.slot ∧ a.pc = (me s).pc.toNat ∧ a.tag = 0 ∧ ∃ b, a.data = some (.bytes b)

/-- The note that bytes have landed. -/
def landedNote (s : State) (elem : Nat) (b : List Byte) : Answer :=
  { slot := collSlot s.slot, elem := elem, tag := 0, data := some (.bytes b), atomic := false, pc := (me s).pc.toNat }

/-- The state once a collective of s has noted the elements of the numbers els; its scratchpads are those of o. -/
structure Collecting (s : State) (els : List Nat) (o : Ordering_) (t : State) : Prop where
  rest : { t with strands := s.strands, ord := s.ord, trace := s.trace, sched := s.sched } = s
  strand : ∃ E N, me t = { me s with answers := (dropNotes (me s) s.slot).answers ++ N, early := E } ∧ (∀ x ∈ E, x.ahead = 0 ∧ x.slot = s.slot) ∧
    N.map (·.elem) = els ∧ ∀ a ∈ N, LandedNote s a
  others : ∀ k, k ≠ s.cur → strandOf t k = strandOf s k
  tenants : ∀ tenant cluster, tenantAt s tenant cluster = true → tenantAt t tenant cluster = true
  spads : spads t.ord = spads o

/-- The notes that a collective finds. -/
theorem LandedNote.not_again {s : State} {a : Answer} (h : LandedNote s a) : goesAgain a = false := by
  obtain ⟨-, -, -, b, hData⟩ := h
  rw [goesAgain, hData]
  rfl

section

variable {s t : State} {els : List Nat} {o : Ordering_} (h : Collecting s els o t)
include h

theorem Collecting.slot : t.slot = s.slot := (congrArg State.slot h.rest :)
theorem Collecting.cur : t.cur = s.cur := (congrArg State.cur h.rest :)
theorem Collecting.fabric : t.fabric = s.fabric := (congrArg State.fabric h.rest :)

/-- What changes the ordering machine, the trace rings and the choices only. -/
theorem Collecting.traceOnly {u : State} {o' : Ordering_} (hu : TraceOnly t u) (hSpads : Machine.spads u.ord = Machine.spads o') :
    Collecting s els o' u := by
  obtain ⟨_, _, _, rfl⟩ := hu
  exact ⟨h.rest, h.strand, h.others, h.tenants, hSpads⟩

/-- The notes of the collective in progress. -/
theorem Collecting.notes (hOwn : 0 ∈ els) : ∃ N, collNotes (me t) s.slot = N ∧ N.map (·.elem) = els ∧ ∀ a ∈ N, LandedNote s a := by
  obtain ⟨E, N, hMe, -, hElems, hN⟩ := h.strand
  have hFilter : (me t).answers.filter (fun a => a.slot == collSlot s.slot) = N := by
    rw [hMe]
    dsimp only [dropNotes]
    rw [List.filter_append, List.filter_filter, List.filter_eq_self.2 fun a ha => beq_iff_eq.2 (hN a ha).1,
      List.filter_eq_nil_iff.2 fun a _ => by simp [bne], List.nil_append]
  have hPc : (me t).pc = (me s).pc := (congrArg Strand.pc hMe :)
  refine ⟨N, ?_, hElems, hN⟩
  unfold collNotes
  dsimp only
  rw [hFilter, if_pos]
  obtain ⟨a, ha, hElem⟩ := List.mem_map.1 (hElems ▸ hOwn)
  exact List.any_eq_true.2 ⟨a, ha, by rw [hElem, hPc, (hN a ha).2.1]; simp⟩

/-- Something more has landed. -/
theorem Collecting.addNote (elem : Nat) (b : List Byte) : Collecting s (els ++ [elem]) o (addNote t s.slot elem 0 (some (.bytes b))) := by
  obtain ⟨E, N, hMe, hE, hElems, hN⟩ := h.strand
  have hKept : (me t).answers.filter (fun a => !(a.slot == collSlot s.slot && a.elem == elem && goesAgain a)) = (me t).answers := by
    refine List.filter_eq_self.2 fun a ha => ?_
    rw [hMe] at ha
    rcases List.mem_append.1 ha with hOld | hNew
    · have hSlot : (a.slot == collSlot s.slot) = false := by simpa using (List.mem_filter.1 hOld).2
      rw [hSlot]
      rfl
    · rw [(hN a hNew).not_again, Bool.and_false]
      rfl
  refine ⟨h.rest, ⟨E, N ++ [landedNote s elem b], (me_putMe _ _).trans ?_, hE, ?_, ?_⟩, fun k hk => ?_, fun tenant cluster hAt => ?_, h.spads⟩
  · dsimp only
    rw [hKept, hMe]
    rw [List.append_assoc]
    rfl
  · rw [List.map_append, hElems]
    rfl
  · intro a ha
    rcases List.mem_append.1 ha with hOld | hNew
    · exact hN a hOld
    · rw [List.mem_singleton.1 hNew]
      exact ⟨rfl, rfl, rfl, b, rfl⟩
  · rw [Machine.addNote, strandOf_putMe_ne _ _ _ (by rwa [h.cur]), h.others k hk]
  · exact tenantAt_putMe (h.tenants _ _ hAt) ⟨rfl, rfl, rfl, rfl⟩

end

/-- The ordering machine once the issuer's own contribution has landed (R378). -/
def ownOrd (fn own : Nat) (b : List Byte) (o : Ordering_) : Ordering_ := if b = [] then o else landOrd fn o (peerKey own) (peerSync own) b

/-- The ordering machine once a fragment of a contribution has landed (R378). -/
def collFragOrd (fn : Nat) (b : List Byte) (o : Ordering_) (f : Nat × Nat × Nat × Nat × Nat) : Ordering_ :=
  landOrd fn o (peerKey f.2.1 + f.2.2.2.1) (peerSync f.2.1) (sliceBytes b f.2.2.2.1 f.2.2.2.2)

/-- Whether a participant's entry names a cluster of this package that can be reached, where the tenant has a record (R342). -/
def CanLand (s : State) (e : Nat) : Prop :=
  bitsN e 33 10 = s.fabric.pkgId ∧ bridgeUp s (me s).die (bitsN e 29 4) = true ∧ tenantAt s (me s).tenant (peerKey e / 2 ^ 24) = true

/-- The issuer's own contribution lands and is noted. -/
theorem Reading.collOwn {s t : State} {ks : List Nat} (h : Reading s ks t) (fn idx own : Nat) (b : List Byte) :
    Collecting s [0] (ownOrd fn own b s.ord) (collOwn t s.slot fn idx own b) := by
  obtain ⟨E, hMe, hE⟩ := h.strand
  obtain ⟨u, hu⟩ : ∃ u, u = if b.isEmpty then t else collLand t fn (peerKey own) (peerSync own) idx b := ⟨_, rfl⟩
  have hOrd : t.ord = s.ord := (congrArg State.ord h.rest :)
  have hTrace : TraceOnly t u := by
    rw [hu]
    split
    · exact .refl t
    · exact traceOnly_collLand _ _ _ _ _ _
  have hSpads : spads u.ord = spads (ownOrd fn own b s.ord) := by
    rw [hu]
    cases b with
    | nil => exact congrArg spads hOrd
    | cons x b => exact (spads_collLand _ _ _ _ _ _).trans (by rw [hOrd]; rfl)
  have hDropped : Collecting s [] (ownOrd fn own b s.ord) (putMe u (dropNotes (me u) s.slot)) := by
    obtain ⟨_, _, _, rfl⟩ := hTrace
    refine ⟨?_, ⟨E, [], ?_, fun x hx => ⟨(hE x hx).1, (hE x hx).2.1⟩, rfl, fun _ ha => absurd ha List.not_mem_nil⟩, fun k hk => ?_,
      fun tenant cluster hAt => ?_, hSpads⟩
    · exact (congrArg (fun v : State => { v with ord := s.ord, trace := s.trace, sched := s.sched }) h.rest :)
    · rw [me_putMe]
      refine (congrArg (dropNotes · s.slot) hMe :).trans ?_
      rw [List.append_nil]
      rfl
    · exact (strandOf_putMe_ne _ _ _ (by rwa [← h.cur] at hk)).trans (h.others k hk)
    · exact tenantAt_putMe (h.tenants _ _ hAt) ⟨rfl, rfl, rfl, rfl⟩
  have hNoted := hDropped.addNote 0 (bytesOf 4 (((syncRead t.ord (peerSync own)).2.2.1 + 1) % 2 ^ 32))
  rw [hu] at hNoted
  exact hNoted

section

variable {s t : State} {els : List Nat} {o : Ordering_} (h : Collecting s els o t)
include h

/-- A fragment lands and is noted. -/
theorem Collecting.collSend {f : Nat × Nat × Nat × Nat × Nat} (fn : Nat) (b : List Byte) (hLand : CanLand s f.2.1) :
    ∃ u, collSend t s.slot fn b f = some u ∧ Collecting s (els ++ [f.2.2.1]) (collFragOrd fn b o f) u := by
  obtain ⟨p, e, key, off, n⟩ := f
  obtain ⟨hPkg, hBridge, hTenant⟩ := hLand
  obtain ⟨E, N, hMe, -⟩ := h.strand
  have hDie : (me t).die = (me s).die := (congrArg Strand.die hMe :)
  have hOwner : (me t).tenant = (me s).tenant := (congrArg Strand.tenant hMe :)
  have hPkg' : bitsN e 33 10 = t.fabric.pkgId := hPkg.trans (by rw [h.fabric])
  have hWay : wayTo t (me t) (bitsN e 33 10) (bitsN e 29 4) = true := by
    rw [wayTo, if_pos hPkg', hDie, bridgeUp, h.fabric]
    exact hBridge
  have hAt : tenantAt t (me t).tenant (peerKey e / 2 ^ 24) = true := hOwner ▸ h.tenants _ _ hTenant
  have hLanded := h.traceOnly (traceOnly_collLand t fn (peerKey e + off) (peerSync e) p (sliceBytes b off n))
    ((spads_collLand _ _ _ _ _ _).trans (spads_landOrd h.spads _ _ _ _))
  refine ⟨_, ?_, hLanded.addNote key []⟩
  simp only [Machine.collSend, hWay, Bool.not_true, Bool.false_eq_true, if_false, if_pos hPkg', hAt, if_true]

/-- Every fragment lands and is noted. -/
theorem Collecting.collSends (fn : Nat) (b : List Byte) (fs : List (Nat × Nat × Nat × Nat × Nat)) (hLand : ∀ f ∈ fs, CanLand s f.2.1) :
    Collecting s (els ++ fs.map (·.2.2.1)) (fs.foldl (collFragOrd fn b) o) (collSends s.slot fn b t fs) := by
  induction fs generalizing t els o with
  | nil =>
    rw [List.map_nil, List.append_nil]
    exact h
  | cons f fs ih =>
    obtain ⟨u, hSend, hu⟩ := h.collSend fn b (hLand f List.mem_cons_self)
    have hRest := ih hu fun x hx => hLand x (List.mem_cons_of_mem _ hx)
    simp only [Machine.collSends, hSend, List.map_cons, List.foldl_cons]
    rwa [List.append_assoc] at hRest

/-- A step-start record that waits for no fragment is written at once (R76, R381). -/
theorem Collecting.collStarts {c : CollStep} (hStarts : s.fabric.starts = []) (hTags : c.tags = []) :
    Collecting s els o (collStarts { t with fabric := { t.fabric with starts := t.fabric.starts ++ [c] } }) := by
  have hNone : t.fabric.starts = [] := by rw [h.fabric, hStarts]
  have hBack : { t with fabric := { t.fabric with starts := [] } } = t := by rw [← hNone]
  rw [hNone, List.nil_append, Machine.collStarts, if_neg (by simp)]
  simp only [List.filter_cons, List.filter_nil, hTags, List.any_nil, Bool.not_false, Bool.not_true, Bool.false_eq_true, if_true, if_false]
  refine h.traceOnly (u := traceStep { t with fabric := { t.fabric with starts := [] } } _ _ _ _ _ _ _ _) ?_ ?_
  · rw [hBack]
    exact traceOnly_traceStep _ _ _ _ _ _ _ _ _
  · exact (spads_traceStep _ _ _ _ _ _ _ _ _).trans h.spads

/-- Once every fragment has been sent, the step-start record is written and noted (R381). -/
theorem Collecting.collStart (fn idx own : Nat) {fs : List (Nat × Nat × Nat × Nat × Nat)} (hStarts : s.fabric.starts = []) (hOwn : 0 ∈ els)
    (hSent : ∀ f ∈ fs, f.2.2.1 ∈ els) (hNew : startElem ∉ els) :
    Collecting s (els ++ [startElem]) o (collStart t s.slot fn idx own fs) := by
  obtain ⟨N, hNotes, hElems, hN⟩ := h.notes hOwn
  have hAll : (!fs.all (fun f => N.any fun a => a.elem == f.2.2.1 && a.data != some .noValue && !goesAgain a) || N.any (·.elem == startElem)) = false := by
    rw [Bool.or_eq_false_iff, Bool.not_eq_false', List.all_eq_true, List.any_eq_false]
    refine ⟨fun f hf => ?_, fun a ha => ?_⟩
    · obtain ⟨a, ha, hElem⟩ := List.mem_map.1 (hElems ▸ hSent f hf)
      obtain ⟨-, -, -, b, hData⟩ := hN a ha
      refine List.any_eq_true.2 ⟨a, ha, ?_⟩
      rw [hElem, (hN a ha).not_again, hData]
      simp
    · have : a.elem ≠ startElem := fun hElem => hNew (hElem ▸ hElems ▸ List.mem_map_of_mem ha)
      simpa using this
  have hTags : (N.map (·.tag)).filter (· != 0) = [] := by
    refine List.filter_eq_nil_iff.2 fun x hx => ?_
    obtain ⟨a, ha, rfl⟩ := List.mem_map.1 hx
    rw [(hN a ha).2.2.1]
    decide
  unfold Machine.collStart
  dsimp only
  rw [hNotes, if_neg (Bool.eq_false_iff.1 hAll)]
  exact (h.collStarts hStarts hTags).addNote startElem []

/-- What a complete collective leaves: its notes have gone but the one that it is done, and the strand keeps no read. -/
theorem Collecting.collDone (hEarly : (me s).early = []) :
    me (collDone t s.slot) = noteDone (dropNotes (me s) s.slot) s.slot noteElem [] ∧
      (∀ k, k ≠ s.cur → strandOf (collDone t s.slot) k = strandOf s k) ∧
      { collDone t s.slot with strands := s.strands, ord := s.ord, trace := s.trace, sched := s.sched } = s ∧
      Machine.spads (collDone t s.slot).ord = Machine.spads o := by
  obtain ⟨E, N, hMe, hE, -, hN⟩ := h.strand
  refine ⟨(me_putMe _ _).trans ?_, fun k hk => ?_, h.rest, h.spads⟩
  · have hMine : N.filter (fun a => a.slot != collSlot s.slot) = [] := List.filter_eq_nil_iff.2 fun a ha => by simp [(hN a ha).1]
    have hDropped : dropNotes (me t) s.slot = { dropNotes (me s) s.slot with early := E } := by
      rw [hMe]
      dsimp only [dropNotes]
      rw [List.filter_append, List.filter_filter, hMine, List.append_nil]
      simp only [Bool.and_self]
    have hForgotten : E.filter (fun e => !(e.ahead == 0 && e.slot == s.slot)) = (me s).early := by
      rw [hEarly, List.filter_eq_nil_iff]
      intro x hx
      simp [hE x hx]
    rw [hDropped, h.slot]
    dsimp only [noteDone]
    rw [hForgotten]
    rfl
  · rw [Machine.collDone, strandOf_putMe_ne _ _ _ (by rwa [h.cur]), h.others k hk]

end

/-- The fragments of a contribution for participants, and the numbers of their notes. -/
theorem mem_collFrags {fn count : Nat} {ps : List (Nat × Nat)} {f : Nat × Nat × Nat × Nat × Nat} (hf : f ∈ collFrags fn count ps) :
    ∃ pe ∈ ps, f.2.1 = pe.2 ∧ ∃ k, k < ceilDiv count (collFrag fn) ∧ f.2.2.1 = 1 + pe.1 * 4096 + k := by
  obtain ⟨l, hl, hf⟩ := List.mem_flatten.1 hf
  obtain ⟨pe, hpe, rfl⟩ := List.mem_map.1 hl
  obtain ⟨k, hk, rfl⟩ := List.mem_map.1 hf
  exact ⟨pe, hpe, rfl, k, List.mem_range.1 hk, rfl⟩

/-- A collective of which nothing has been sent, whose fragments all land, is complete. -/
theorem Reading.collRun {s t : State} {ks : List Nat} (h : Reading s ks t) (hLook : s.look = none) (hNotes : collNotes (me s) s.slot = [])
    (hStarts : s.fabric.starts = []) {fn idx own count : Nat} {b : List Byte} {ps : List (Nat × Nat)}
    (hLand : ∀ f ∈ collFrags fn count ps, CanLand s f.2.1) (hKeys : ∀ f ∈ collFrags fn count ps, 1 ≤ f.2.2.1 ∧ f.2.2.1 < startElem) :
    ∃ els u, collRun t fn idx own b count ps = .ok (collDone u s.slot) ∧
      Collecting s els ((collFrags fn count ps).foldl (collFragOrd fn b) (ownOrd fn own b s.ord)) u := by
  obtain ⟨fs, hFs⟩ : ∃ fs, fs = collFrags fn count ps := ⟨_, rfl⟩
  rw [← hFs] at hLand hKeys ⊢
  have hLook' : t.look.isSome = false := by rw [h.look, hLook]; rfl
  have hFresh : (collNotes (me t) s.slot).isEmpty = true := by
    obtain ⟨E, hMe, -⟩ := h.strand
    rw [hMe]
    exact congrArg List.isEmpty hNotes
  have hOwn := h.collOwn fn idx own b
  obtain ⟨N, hOwnNotes, hOwnElems, -⟩ := hOwn.notes List.mem_cons_self
  have hMissing : fs.filter (fun f => !N.any fun a => a.elem == f.2.2.1 && !goesAgain a) = fs := by
    refine List.filter_eq_self.2 fun f hf => ?_
    rw [Bool.not_eq_true', List.any_eq_false]
    intro a ha
    have hElem : a.elem = 0 := List.mem_singleton.1 (hOwnElems ▸ List.mem_map_of_mem ha)
    have hPos := (hKeys f hf).1
    have hNot : (a.elem == f.2.2.1) = false := beq_false_of_ne (by omega)
    rw [hNot, Bool.false_and]
    exact Bool.false_ne_true
  have hMem : ∀ f ∈ fs, f.2.2.1 ∈ [0] ++ fs.map (·.2.2.1) := fun f hf => List.mem_append_right _ (List.mem_map_of_mem hf)
  have hSends := hOwn.collSends fn b fs hLand
  have hStart := hSends.collStart fn idx own hStarts (List.mem_append_left _ List.mem_cons_self) hMem fun hOld => by
    rcases List.mem_append.1 hOld with hZero | hFrag
    · exact absurd (List.mem_singleton.1 hZero) (by decide)
    · obtain ⟨f, hf, hKey⟩ := List.mem_map.1 hFrag
      exact absurd hKey (Nat.ne_of_lt (hKeys f hf).2)
  obtain ⟨N', hNotes', hElems', hN'⟩ := hStart.notes (List.mem_append_left _ (List.mem_append_left _ List.mem_cons_self))
  refine ⟨_, _, ?_, hStart⟩
  unfold Machine.collRun
  simp only [h.slot, hLook', Bool.false_eq_true, if_false, hFresh, if_true, ← hFs, hOwnNotes, hMissing, hNotes']
  refine if_pos (List.all_eq_true.2 fun f hf => ?_)
  obtain ⟨a, ha, hElem⟩ := List.mem_map.1 (hElems' ▸ List.mem_append_left [startElem] (hMem f hf))
  obtain ⟨-, -, -, c, hData⟩ := hN' a ha
  refine List.any_eq_true.2 ⟨a, ha, ?_⟩
  rw [hElem, hData]
  simp

/-! The collectives (R376). -/

theorem exec_of_collCode {i : Instr} {o : S3} {fn : Nat} (h : collCode i = some (o, fn)) (s : State) :
    exec i s = collective s i o fn ∧ (fn = 0 ∨ fn = 4 ∨ fn = 8 ∨ fn = 12 ∨ fn = 1 ∨ fn = 2) := by
  unfold collCode at h
  split at h
  case h_7 => cases h
  all_goals
    cases h
    exact ⟨rfl, by decide⟩

/-- The sizes of a collective's elements and fragments. -/
theorem collSizes {fn : Nat} (h : fn = 0 ∨ fn = 4 ∨ fn = 8 ∨ fn = 12 ∨ fn = 1 ∨ fn = 2) :
    (1 ≤ collSize fn ∧ (collSize fn ≤ 8 ∨ collSize fn = 64)) ∧ (collFrag fn = 192 ∨ collFrag fn = 224) := by
  rcases h with rfl | rfl | rfl | rfl | rfl | rfl <;> decide

/-- The numbers of the notes of fragments lie between those of the issuer's own note and of the step-start record. -/
theorem collFrags_keys {fn count : Nat} {ps : List (Nat × Nat)} (hFrag : collFrag fn = 192 ∨ collFrag fn = 224) (hMax : count ≤ 4096)
    (hPs : ∀ pe ∈ ps, pe.1 < 1024) : ∀ f ∈ collFrags fn count ps, 1 ≤ f.2.2.1 ∧ f.2.2.1 < startElem := by
  intro f hf
  obtain ⟨pe, hpe, -, k, hk, hKey⟩ := mem_collFrags hf
  have hPart := hPs pe hpe
  have hChunk : k < 4096 := by
    unfold ceilDiv at hk
    rcases hFrag with hFrag | hFrag <;> rw [hFrag] at hk <;> omega
  rw [hKey, startElem]
  omega

/-- A collective once its header and its own entry have been read: the other entries and the source are (R377, R378). -/
def collBody (s : State) (o : S3) (fn idx count : Nat) (g : Group1) (s1 : State) : Res :=
  if fn = 1 && g.root ≠ idx then collRun s1 fn idx g.own [] count []
  else
    match descOthers (getS s o.sa) idx count s1 (List.range g.npart) with
    | .wait s2 => .wait s2
    | .fail c va => collStop s c va
    | .ok ps s2 =>
      let n := collSize fn
      let els : List El := (List.range (count / n)).map fun k => { i := k, va := getS s o.sb + wordOf (n * k), act := true, data := 0 }
      let sc := scanFrom s2 (me s2) .load n els
      match askAll s2 (fun p va => mkAcc .cl p va n .read false false false) sc.1 with
      | some s3 => .wait s3
      | none =>
        match sc.2 with
        | some f => collStop s f.2.1 f.2.2
        | none =>
          match sendEls n false (fillEls s2 sc.1) sc.1 with
          | .wait s3 => .wait s3
          | .stop _ f => collStop s f.2.1 f.2.2
          | .done b s3 => collRun (els.foldl (fun s e => keepRead s e (sliceBytes b (n * e.i) n)) s3) fn idx g.own b count ps

/-- What the operands and the descriptor of a collective give, before its source is read (R376, R377). -/
structure CollReady (s : State) (o : S3) (fn np root idx count : Nat) (W : Nat → Nat) (p : Nat → Place) : Prop where
  operand : (getS s o.sd).toNat = count + 65536 * idx
  size : 1 ≤ count ∧ count ≤ 4096 ∧ count % collSize fn = 0
  aligned : (getS s o.sa).toNat % 64 = 0
  parts : 1 ≤ np ∧ np ≤ 1024 ∧ idx < np
  rootPart : fn = 1 → root < np
  header : root < 65536 ∧ W 0 = np + 65536 * root ∧ W 1 = 0
  fresh : Fresh s
  stream : streamOf (me s) = []
  words : ∀ k, k < 2 ∨ k = 2 + idx → DescWord s (getS s o.sa) k (W k) (p k)
  mine : entryMine s (me s) (W (2 + idx)) = true
  peer : peerOk (W (2 + idx)) count true = true
  area : spInRange (me s) (bitsN (W (2 + idx)) 0 24) count = true
  sync : spInRange (me s) (16 * bitsN (W (2 + idx)) 44 20) 16 = true

section

variable {i : Instr} {s : State} {o : S3} {fn np root idx count : Nat} {W : Nat → Nat} {p : Nat → Place}
  (hCode : collCode i = some (o, fn)) (h : CollReady s o fn np root idx count W p)
include hCode h

/-- A collective once its header and its own entry have been read. -/
theorem CollReady.exec : ∃ t, Reading s [descElem (2 + idx), descElem 1, descElem 0] t ∧
    exec i s = finish s (collBody s o fn idx count { npart := np, root := root, own := W (2 + idx) } t) := by
  obtain ⟨hLow, hHigh, hMod⟩ := h.size
  obtain ⟨hNp, hMax, hIdx⟩ := h.parts
  obtain ⟨hRoot16, hW0, hW1⟩ := h.header
  obtain ⟨t, hHead, ht⟩ := descHead_of_reads h.fresh.1 h.stream h.fresh.2.1 h.words hNp hMax hIdx h.rootPart hRoot16 hW0 hW1 h.mine h.peer
  have hCount : (count + 65536 * idx) % 8192 = count := by omega
  have hIndex : bitsN (count + 65536 * idx) 16 10 = idx := by
    unfold bitsN
    omega
  have hReserved : bitsN (count + 65536 * idx) 13 3 = 0 := by
    unfold bitsN
    omega
  have hOperand : (decide ((count + 65536 * idx) / 2 ^ 26 ≠ 0) || decide (bitsN (count + 65536 * idx) 13 3 ≠ 0) || decide (count = 0) ||
      decide (4096 < count) || decide (count % collSize fn ≠ 0)) = false := by
    simp only [Bool.or_eq_false_iff, decide_eq_false_iff_not]
    exact ⟨⟨⟨⟨by omega, not_not.2 hReserved⟩, by omega⟩, by omega⟩, not_not.2 hMod⟩
  have hDone : (doneBefore s noteElem).isSome = false := by
    rw [doneBefore_of_fresh h.fresh]
    rfl
  have hRange : ∀ off n, spInRange (me t) off n = spInRange (me s) off n := fun off n => by
    obtain ⟨E, hMe, -⟩ := ht.strand
    rw [hMe]
    rfl
  have hArea : outOfBound (me t) (bitsN (W (2 + idx)) 0 24) count = none := if_pos ((hRange _ _).trans h.area)
  have hSync : outOfBound (me t) (16 * bitsN (W (2 + idx)) 44 20) 16 = none := if_pos ((hRange _ _).trans h.sync)
  refine ⟨t, ht, (exec_of_collCode hCode s).1.trans ?_⟩
  unfold collective
  simp only [h.operand, hCount, hIndex, hOperand, hDone, h.aligned, ne_eq, not_true_eq_false, Bool.false_eq_true, if_false, hHead, hArea, hSync]
    <;> rfl

/-- A collective that sends nothing: a broadcast whose issuer is not the root. -/
theorem CollReady.exec_receiver (hFn : fn = 1) (hNot : root ≠ idx) :
    ∃ l ks t, Reading { s with tlb := l } ks t ∧ Machine.exec i s = finish s (collRun t fn idx (W (2 + idx)) [] count []) := by
  obtain ⟨t, ht, hExec⟩ := h.exec hCode
  rw [collBody, if_pos (by simp [hFn, hNot])] at hExec
  exact ⟨_, _, t, ht, hExec⟩

/-- A collective that sends its contribution. -/
theorem CollReady.exec_sender {q : Nat → Place} {b : Nat → List Byte} (hSends : ¬ (fn = 1 ∧ root ≠ idx))
    (hWord : ∀ k, k < np → DescWord s (getS s o.sa) (2 + k) (W (2 + k)) (p (2 + k)) ∧ peerOk (W (2 + k)) count true = true)
    (hEl : ∀ k, k < count / collSize fn → checkElem s (me s) .load (collSize fn) (getS s o.sb + BitVec.ofNat 64 (collSize fn * k)) = .ok (q k) ∧
      localBytes s (q k) (collSize fn) = some (b k)) :
    ∃ l ks t, Reading { s with tlb := l } ks t ∧ Machine.exec i s = finish s (collRun t fn idx (W (2 + idx))
      ((List.range (count / collSize fn)).map b).flatten count (((List.range np).filter fun k => decide (k ≠ idx)).map fun k => (k, W (2 + k)))) := by
  obtain ⟨⟨hPos, hSize⟩, -⟩ := collSizes (exec_of_collCode hCode s).2
  obtain ⟨-, hHigh, -⟩ := h.size
  obtain ⟨-, hMax, hIdx⟩ := h.parts
  obtain ⟨t, ht, hExec⟩ := h.exec hCode
  obtain ⟨t2, hOthers, ht2⟩ := descOthers_of_reads (idx := idx) h.fresh.1 h.stream (List.range np) ht List.nodup_range
    (fun k _ hk => by simp only [descElem, List.mem_cons, List.not_mem_nil, or_false]; omega) fun k hk => hWord k (List.mem_range.1 hk)
  have hKs : ∀ k ∈ (List.range np).map (fun k => descElem (2 + k)) ++ [descElem (2 + idx), descElem 1, descElem 0], 4096 ≤ k ∧ k < 2 ^ 24 := by
    simp only [descElem, List.mem_append, List.mem_map, List.mem_range, List.mem_cons, List.not_mem_nil, or_false]
    rintro k (⟨j, hj, rfl⟩ | hk) <;> omega
  obtain ⟨hScan, hAsk, l, t3, hSend, ht3⟩ := source_of_reads h.fresh.1 h.stream ht2 hKs ((Nat.div_le_self _ _).trans hHigh) hSize hEl
  obtain ⟨ks, ht4⟩ := ht3.keepReads ((List.range (count / collSize fn)).map fun k =>
    { i := k, va := getS s o.sb + wordOf (collSize fn * k), act := true, data := 0 }) fun e =>
      sliceBytes ((List.range (count / collSize fn)).map b).flatten (collSize fn * e.i) (collSize fn)
  rw [collBody, if_neg (by simpa using hSends)] at hExec
  simp only [hOthers, hAsk, hScan, hSend] at hExec
  exact ⟨l, ks, _, ht4, hExec⟩

end

/-- A collective whose fragments all land completes. -/
theorem completes_of_collRun {i : Instr} {s t : State} {l : List TlbEntry} {ks : List Nat} {fn idx own count : Nat} {b : List Byte}
    {ps : List (Nat × Nat)} (hFresh : Fresh s) (hNotes : collNotes (me s) s.slot = []) (hStarts : s.fabric.starts = [])
    (hFrag : collFrag fn = 192 ∨ collFrag fn = 224) (hMax : count ≤ 4096) (hPs : ∀ pe ∈ ps, pe.1 < 1024 ∧ CanLand s pe.2)
    (ht : Reading { s with tlb := l } ks t) (hExec : exec i s = finish s (collRun t fn idx own b count ps)) :
    ∃ u, exec i s = .next u ∧ me u = noteDone (dropNotes (me s) s.slot) s.slot noteElem [] ∧ (∀ k, k ≠ s.cur → strandOf u k = strandOf s k) ∧
      { u with strands := s.strands, tlb := s.tlb, ord := s.ord, trace := s.trace, sched := s.sched } = s ∧
      spads u.ord = spads ((collFrags fn count ps).foldl (collFragOrd fn b) (ownOrd fn own b s.ord)) := by
  have hLand : ∀ f ∈ collFrags fn count ps, CanLand { s with tlb := l } f.2.1 := fun f hf => by
    obtain ⟨pe, hpe, hEntry, -⟩ := mem_collFrags hf
    rw [hEntry]
    exact (hPs pe hpe).2
  obtain ⟨els, u, hRun, hu⟩ := ht.collRun hFresh.1 hNotes hStarts hLand (collFrags_keys hFrag hMax fun pe hpe => (hPs pe hpe).1)
  obtain ⟨hMe, hOthers, hRest, hSpads⟩ := hu.collDone hFresh.2.1
  refine ⟨_, hExec.trans (congrArg (finish s) hRun), hMe, hOthers, ?_, hSpads⟩
  exact (congrArg (fun v : State => { v with tlb := s.tlb }) hRest :)

/-- Settles O45: the descriptor and the source are read at once, and every contribution lands before the syllable completes. -/
theorem collectives : Obligations.Collectives := by
  intro i s o fn np root idx W p q b w n count d sends others bytes fs hCode hOperand hLow hHigh hMod hAligned hNp hMax hIdx hRoot hRoot16 hW0 hW1
    hFresh hStream hNotes hStarts hWords hMine hPeers hArea hSync hEl o2
  have hReady : CollReady s o fn np root idx count W p :=
    { operand := hOperand, size := ⟨hLow, hHigh, hMod⟩, aligned := hAligned, parts := ⟨hNp, hMax, hIdx⟩, rootPart := hRoot, header := ⟨hRoot16, hW0, hW1⟩
      fresh := hFresh, stream := hStream, mine := hMine, peer := (hPeers idx hIdx (.inl rfl)).1, area := hArea, sync := hSync
      words := fun k hk => hWords k (by omega) (hk.imp_right .inl) }
  have hFrag := (collSizes (exec_of_collCode hCode s).2).2
  have hRun : ∃ l ks t, Reading { s with tlb := l } ks t ∧
      exec i s = finish s (collRun t fn idx (W (2 + idx)) bytes count (others.map fun k => (k, W (2 + k)))) := by
    by_cases hSends : fn = 1 ∧ root ≠ idx
    · have hNone : sends = false := by simp [sends, hSends]
      have hBytes : bytes = [] := if_neg (by rw [hNone]; exact Bool.false_ne_true)
      have hOthers : others = [] := if_neg (by rw [hNone]; exact Bool.false_ne_true)
      rw [hBytes, hOthers]
      exact hReady.exec_receiver hCode hSends.1 hSends.2
    · have hAll : sends = true := by
        simp only [sends, Bool.or_eq_true, decide_eq_true_eq]
        tauto
      have hBytes : bytes = ((List.range (count / n)).map b).flatten := if_pos hAll
      have hOthers : others = (List.range np).filter fun k => decide (k ≠ idx) := if_pos hAll
      rw [hBytes, hOthers]
      exact hReady.exec_sender hCode hSends (fun k hk => ⟨hWords _ (by omega) (.inr (.inr hAll)), (hPeers k hk (.inr hAll)).1⟩) (hEl hAll)
  obtain ⟨l, ks, t, ht, hExec⟩ := hRun
  obtain ⟨u, hNext, hMe, hStrands, hRest, hSpads⟩ := completes_of_collRun hFresh hNotes hStarts hFrag hHigh (fun pe hpe => by
    obtain ⟨k, hk, rfl⟩ := List.mem_map.1 hpe
    have hSent : sends = true := by
      by_contra hNot
      have : others = [] := if_neg hNot
      rw [this] at hk
      exact List.not_mem_nil hk
    have hOthers : others = (List.range np).filter fun k => decide (k ≠ idx) := if_pos hSent
    rw [hOthers, List.mem_filter, List.mem_range, decide_eq_true_eq] at hk
    obtain ⟨-, hPkg, hWay⟩ := hPeers k hk.1 (.inr hSent)
    obtain ⟨hBridge, hTenant⟩ := hWay hk.2
    exact ⟨hk.1.trans_le hMax, hPkg, hBridge, hTenant⟩) ht hExec
  exact ⟨u, hNext, hMe, hStrands, hRest, spad_of_spads hSpads, spadPoison_of_spads hSpads⟩

end Sys2Proof.Machine
end
